-- ==== Sys2Proof/Word.lean ====
section
/-! DEFINITION. The word types of the machine (R1, R4, R64). -/

namespace Sys2Proof

/-- An instruction word, a vector register, a latch, a queue value: 32 bits (R40, R64). -/
abbrev Word := BitVec 32

/-- A scalar register or a system register: 64 bits (R64, R306). -/
abbrev Reg := BitVec 64

/-- A byte of memory (R1). -/
abbrev Byte := BitVec 8

/-- A virtual byte address, as a program counter holds it: 56 bits (R4, R40). -/
abbrev VAddr := BitVec 56

/-- One bit per thread of a group (R120). -/
abbrev Mask := BitVec 64

end Sys2Proof
end

