-- ==== Sys2Proof/Config.lean ====
section
/-! DEFINITION. What one device fixes (capability values, sizes) and the values the spec leaves open. -/

namespace Sys2Proof.Config

open Sys2Proof

/-- `CAP0` of an SLZ4-M768 (R11). -/
def cap0 : Reg := 0x01_04_00_4D_00#64
/-- `CAP1`, profile M (R12). -/
def cap1 : Reg := 0xFD#64
/-- `CAP2` of a whole, healthy device with one partition (R13). -/
def cap2 : Reg := 0x0000_000F_FFFF_0180#64
/-- `CAP3` (R14). -/
def cap3 : Reg := 0x4020_2030_3010_4040#64

/-- Cores of the package (R8). -/
def cores : Nat := 384
/-- Wheels of the package (R8). -/
def wheels : Nat := 6
/-- Vats of the package (R8). -/
def vats : Nat := 96

/-- Replay queue entries of a core, `CAP3.REPLAYQ` (R14, R301). -/
def replayQ : Nat := 64
/-- Range scoreboard entries of a core, `CAP3.RSCORE` (R14, R152). -/
def rangeScore : Nat := 32
/-- Join stack depth of a group, `CAP3.JOINDEP` (R14, R128). -/
def joinDepth : Nat := 32
/-- Packets of a lane's loop buffer, `CAP3.LOOPBUF` (R14, R131). -/
def loopBuf : Nat := 48

/-- Entries of one queue slice (R256). -/
def queueDepth : Nat := 16
/-- Node entries of one wheel pool (R247). -/
def poolEntries : Nat := 4096
/-- Stream slots of a core's affine address engine (R258). -/
def streamSlots : Nat := 16
/-- Memory-side commands a core's command queue holds (R292). -/
def cmdQueue : Nat := 64
/-- Entries of a slice's subscription table (R314). -/
def subTable : Nat := 512
/-- Entries of a team's subscription list (R314). -/
def subList : Nat := 64
/-- Shape records of a vat's record cache (R239). -/
def shapeCache : Nat := 64
/-- Operations in a vat's key lookup queue (R328). -/
def klQueue : Nat := 16
/-- Line requests that a vat's streamer keeps in flight (R238). -/
def lineRequests : Nat := 64
/-- Granules of 64 KiB of a vat's key SRAM (R328). -/
def keyGranules : Nat := 64
/-- Queued host commands of a partition (R355). -/
def hostCommands : Nat := 16
/-- Team-loss reports a partition holds (R354). -/
def lossReports : Nat := 16
/-- Packets a thread retires in one quantum (R347). -/
def quantumPackets : Nat := 2048
/-- Rows of a group's private store buffer (R346). -/
def bufferRows : Nat := 128
/-- Shootdowns in flight per partition (R201). -/
def shootLimit : Nat := 16
/-- Migrations in flight per partition (R202). -/
def migrateLimit : Nat := 8
/-- Pushes that a slice keeps in flight (R318). -/
def pushLimit : Nat := 64
/-- Writes to locked lines that a slice holds (R203). -/
def heldLimit : Nat := 64
/-- Requests that a channel's queue holds (R281). -/
def jobQueue : Nat := 256
/-- The cycles that a home waits for an answer (R199, R352). -/
def answerLimit : Nat := 2 ^ 20

/-- FREE VALUE. The device number from the module serial that the instance word carries (R358): the spec names
the field and gives no number (notes/assumptions/5.md). -/
opaque deviceNumber : BitVec 32

/-- FREE VALUE. The k-th value the machine takes where the spec states none (notes/assumptions/6.md). -/
opaque freeValue : Nat → Reg

/-- FREE VALUE. The digest of Iboukan's image that it measures (R369): the spec gives no image. -/
opaque imageDigest : Reg

/-- FREE VALUE. The fused digest of the root key (R368, R369): the spec gives no key. -/
opaque rootDigest : Reg

/-- Entries of the return buffer of a half's M pipe (R84). -/
def returnBuf : Nat := 16

end Sys2Proof.Config
end

