-- ==== Sys2Proof/Syntax.lean ====
section
/-! DEFINITION. The instructions: one constructor for each row of the table of operations and events. -/

namespace Sys2Proof

/-- A 7-bit operand select field (R53). -/
inductive Os where
  | v (n : Fin 96)   -- v0 to v95
  | s (n : Fin 16)   -- s0 to s15, low 32 bits
  | b (n : Fin 4)    -- latch b0 to b3
  | lit              -- the packet literal, value role
  | zero             -- reads zero, discards
  | lane             -- the thread index
  | q (n : Fin 8)    -- q0 to q7
  deriving DecidableEq, Repr

/-- The second source of a format U word (R48). -/
inductive USrc where
  | imm (n : BitVec 8)   -- I = 1, signed
  | s (n : BitVec 6)
  | latch (n : Fin 4)
  | lit
  deriving DecidableEq, Repr

/-- What `FROMV` reads (R79). -/
inductive VSrc where
  | v (n : Fin 96)
  | b (n : Fin 4)
  deriving DecidableEq, Repr

/-- The address fields of a format M word: s[S], X and O (R49). -/
structure MAddr where
  s : BitVec 6
  x : Os
  o : Bool
  deriving DecidableEq, Repr

/-- The length operand of a range word (R169). -/
inductive RLen where
  | s (n : Fin 16)
  | lit
  | all
  deriving DecidableEq, Repr

/-- The range fields of a range word (R169). -/
structure Range where
  s : BitVec 6
  len : RLen
  o : Bool
  deriving DecidableEq, Repr

inductive AddTy where | i32 | i32s | n32s | f32 | h2 | bh2 | i16x2
  deriving DecidableEq, Repr
inductive MulTy where | i32lo | i32hi | n32hi | f32 | h2 | bh2 | i16x2
  deriving DecidableEq, Repr
inductive FmaTy where | i32 | f32 | h2 | bh2
  deriving DecidableEq, Repr
inductive MinTy where | i32 | n32 | f32 | h2 | bh2
  deriving DecidableEq, Repr
inductive LogicOp where | and | or | xor | andn | orn | xnor
  deriving DecidableEq, Repr
inductive ShiftOp where | shl | shr | sar | rotl
  deriving DecidableEq, Repr
inductive CmpI where | eq | ne | lt | le | ltn | len | gt | ge
  deriving DecidableEq, Repr
inductive CmpF where | eq | ne | lt | le | gt | ge | un | or
  deriving DecidableEq, Repr
/-- Rounding modes of `VCVT` (R109, R117). -/
inductive Rnd where | rn | rz | ru | rd | rns
  deriving DecidableEq, Repr
/-- Conversion operations of `VCVT`, B[6:3] (R118). -/
inductive CvtOp where
  | f32i32 | f32n32 | i32f32 | n32f32 | e8m0f32 | f16f32 | bf16f32 | e4m3f32
  | e5m2f32 | e2m1f32 | f32f16 | f32bf16 | f32e4m3 | f32e5m2 | f32e2m1 | f32e8m0
  deriving DecidableEq, Repr
inductive BitsOp where | popc | clz | brev | byteperm | abs | neg
  deriving DecidableEq, Repr
inductive DivTy where | i32 | n32 | remI32 | remN32 | f32
  deriving DecidableEq, Repr
inductive SfuOp where | rcp | sqrt | rsqrt | exp2 | log2
  deriving DecidableEq, Repr
inductive PermOp where | idx | up | down | xor | bcast
  deriving DecidableEq, Repr
inductive RedOp where | addI | addF | minI | maxI | minF | maxF | and | or
  deriving DecidableEq, Repr
inductive DotOp where | i8 | n8 | bf16 | e4m3
  deriving DecidableEq, Repr
inductive PredOp where | and | or | xor | not | move
  deriving DecidableEq, Repr
inductive SaluOp where
  | add | sub | mul | mulhn | and | or | xor | andn | shl | shr | sar | min | max | minn | maxn | slt
  deriving DecidableEq, Repr
/-- Element types of loads and stores (R153). -/
inductive MemTy where | n8 | i8 | n16 | i16 | b32 | b64 | b128 | prv
  deriving DecidableEq, Repr
/-- Atomic operations (R155). -/
inductive AtomOp where | addI | addF | minI | maxI | and | or | xchg | cas
  deriving DecidableEq, Repr
/-- Fence kinds (R49, R165). -/
inductive Kind where | acq | rel | ar
  deriving DecidableEq, Repr
/-- What `SHOOT` removes (R201). -/
inductive ShootSize where | p128k | p4m | p256m | space | allsp
  deriving DecidableEq, Repr
/-- What `VSPLAT` broadcasts: B = 0, 1 or 2 (R77). -/
inductive SplatSel where | lo | hi | pair
  deriving DecidableEq, Repr
/-- The operations of a deque unit (R260). -/
inductive DqOp where | push | pop | steal
  deriving DecidableEq, Repr

/-- A team is named by its node's instance id and its index (R247). -/
structure TeamId where
  node : Nat
  idx : Nat
  deriving DecidableEq, Repr

/-- A group of a team. -/
structure GrpId where
  team : TeamId
  grp : Nat
  deriving DecidableEq, Repr

/-- The P, Q and X fields of a format E word (R51). -/
structure EF where
  p : BitVec 6
  q : BitVec 6
  x : BitVec 5
  deriving DecidableEq, Repr

/-- What bring-up finds and is given (R368): the outcomes of self-test and of Iboukan's checks. -/
structure BringUp where
  image : Bool                 -- Iboukan's image verified (step 1)
  handler : Option (Nat × Nat) -- body address and length of the default handler segment; none when it failed
  badPorts : List (Nat × Nat)  -- (core, port) that self-test found failed
  badChans : List Nat          -- HBM channels, stack × 32 + channel, that cannot be brought up (step 3)
  badRows : List (Nat × Nat)   -- rows of them, channel and row, that cannot (R370)
  deriving DecidableEq, Repr

/-- The instructions and events of the device. The first group are the words of the opcode map (R59), in its
order; an event row carries the names of what it acts on, and, where it comes from outside the device, its data. -/
inductive Instr where
  -- VMISC (R60, R77)
  | nop
  | vmov (w : Bool) (d a : Os)
  | vlane (w : Bool) (d : Os)
  | vsplat (w : Bool) (d : Os) (s : BitVec 6) (sel : SplatSel)
  | vmov64 (w : Bool) (d a : Os)
  -- vector arithmetic (R90 to R104, R119)
  | vadd (ty : AddTy) (w : Bool) (d a b : Os)
  | vsub (ty : AddTy) (w : Bool) (d a b : Os)
  | vmul (ty : MulTy) (w : Bool) (d a b : Os)
  | vfma (ty : FmaTy) (w : Bool) (d a b : Os)
  | vfnma (ty : FmaTy) (w : Bool) (d a b : Os)
  | vmin (ty : MinTy) (w : Bool) (d a b : Os)
  | vmax (ty : MinTy) (w : Bool) (d a b : Os)
  | vlogic (op : LogicOp) (w : Bool) (d a b : Os)
  | vshift (op : ShiftOp) (w : Bool) (d a b : Os)
  | vshiftBfx (w : Bool) (d a : Os)
  | vshiftBfi (w : Bool) (d a : Os)
  | vcmpi (c : CmpI) (w : Bool) (d : Fin 8) (a b : Os)
  | vcmpf (c : CmpF) (w : Bool) (d : Fin 8) (a b : Os)
  | vsel (p : Fin 8) (w : Bool) (d a b : Os)
  | vcvt (m : Rnd) (op : CvtOp) (k : Fin 8) (w : Bool) (d a : Os)
  | vbits (op : BitsOp) (w : Bool) (d a b : Os)
  | vdiv (ty : DivTy) (w : Bool) (d a b : Os)
  | vsfu (op : SfuOp) (w : Bool) (d a : Os)
  | vperm (op : PermOp) (w : Bool) (d a b : Os)
  | vred (op : RedOp) (w : Bool) (d a : Os)
  | vdot (op : DotOp) (w : Bool) (d a b : Os)
  | vpred (op : PredOp) (w : Bool) (d a b : Fin 8)
  -- SALU, SMOV (R78, R79)
  | salu (op : SaluOp) (d a : BitVec 6) (b : USrc)
  | mov (d : BitVec 6) (b : USrc)
  | li (d : BitVec 6)
  | lis (d : BitVec 6)
  | lihi (d a : BitVec 6)
  | fromv (d a : BitVec 6) (v : VSrc)
  | ballot (d : BitVec 6) (p : Fin 8)
  | popcs (d a : BitVec 6)
  -- SYS (R307, R136, R358)
  | sysrd (d : BitVec 6) (r : BitVec 8)
  | syswr (a : BitVec 6) (r : BitVec 8)
  | fairnessWrite (core : Nat) (v : Reg)
  | mclkratioWrite (wheel : Nat) (v : Reg)
  | mclkratioTake (wheel : Nat)
  | statusWrite (t : TeamId) (v : Reg)
  | trap (code : BitVec 8)
  | tret
  | clock (d : BitVec 6)
  | capq (d : BitVec 6) (k : Fin 5)
  -- BR, GRP (R134, R135)
  | b (p : Fin 8) (off : BitVec 18)
  | bz (s : BitVec 6) (off : BitVec 15)
  | bnz (s : BitVec 6) (off : BitVec 15)
  | call (p : Fin 8) (off : BitVec 18)
  | ret
  | brx (s : BitVec 6)
  | bd (p : Fin 8) (off : BitVec 18)
  | bp (p : Fin 8) (off : BitVec 18)
  | join
  | yield
  | exit
  | pathDue (g : GrpId) (pc : VAddr)
  | elect (d : BitVec 6) (p : Fin 8)
  | voteall (d : BitVec 6) (p : Fin 8)
  | voteany (d : BitVec 6) (p : Fin 8)
  -- LD, ST, LDS, STS, ATOM, ATOMS (R154, R155, R171)
  | ld (ty : MemTy) (t : Os) (m : MAddr) (h : Bool)
  | st (ty : MemTy) (t : Os) (m : MAddr) (h : Bool)
  | lds (ty : MemTy) (t : Os) (m : MAddr)
  | sts (ty : MemTy) (t : Os) (m : MAddr)
  | loadComplete (core : Nat)
  | walkComplete (core space va : Nat)
  | atom (op : AtomOp) (t : Os) (m : MAddr)
  | atoms (op : AtomOp) (t : Os) (m : MAddr)
  -- the fence family (R169, R200, R246, R295)
  | fence (k : Kind) (sc : BitVec 3)
  | clean (sc : BitVec 3) (r : Range)
  | inval (sc : BitVec 3) (r : Range)
  | icinv (sc : BitVec 3) (r : Range)
  | fetchbar
  | rcfence (sc : BitVec 3) (r : Range)
  | msfence (ar : Bool)
  | tlbfence (sc : BitVec 3) (r : Range)
  -- COPY (R241)
  | copygo (e : EF) (ch : Fin 4)
  | copywait (q : BitVec 6) (x : BitVec 5) (ch : Fin 4)
  | chanstat (q : BitVec 6) (ch : Fin 4)
  | copycancel (q : BitVec 6) (x : BitVec 5) (ch : Fin 4)
  | transferRecordStart (t : TeamId) (ch : Nat)
  | transferRecordComplete (t : TeamId) (ch : Nat)
  | transferRecordStop (t : TeamId) (ch : Nat)
  -- BAR (R158, R159)
  | barinit (p q : BitVec 6)
  | bararrive (p q : BitVec 6)
  | barexpect (p q : BitVec 6)
  | barwait (e : EF)
  | bartest (p q : BitVec 6)
  | mwait (e : EF)
  | waitConditionMet (g : GrpId) (t : Nat)
  | waitTimeout (g : GrpId) (t : Nat)
  -- MX (R219)
  | mxlease (e : EF)
  | mxgo (e : EF) (tag : Fin 4)
  | mxwait (q : BitVec 6) (x : BitVec 5) (tag : Fin 4)
  | mxdrain (e : EF) (tag : Fin 4)
  | mxrel (q : BitVec 6) (x : BitVec 5)
  | ores (p q : BitVec 6) (r : Fin 16)
  | obld (e : EF) (r : Fin 16)
  | mxstat (p q : BitVec 6) (n : Fin 16)
  | matrixOperationStart (core : Nat)
  | kStepCommit (core : Nat)
  | matrixOperationStop (core : Nat)
  | drainRun (t : TeamId) (core tag : Nat)
  | obldLoadFinish (t : TeamId) (core r : Nat)
  -- TASK (R261)
  | tspawn (e : EF)
  | tdec (p q : BitVec 6) (n : Fin 16)
  | twait (e : EF)
  | dqpush (e : EF)
  | dqpop (e : EF)
  | dqsteal (e : EF)
  | aaego (e : EF) (q : Fin 8)
  | aaestop (q : BitVec 6) (x : BitVec 5) (n : Fin 8)
  | qbind (p q : BitVec 6) (n : Fin 8)
  | qstat (p q : BitVec 6) (n : Fin 8)
  | dequeOperation (op : DqOp) (d : Nat) (item : Reg)
  | counterDecrement (pa amount : Nat)
  | aaeStreamPush (g : GrpId) (q : Nat)
  -- MS (R291)
  | msred (e : EF) (n : Fin 16)
  | msatom (e : EF) (n : Fin 16)
  | mspoll (q : BitVec 6) (c : Fin 4)
  | mswait (e : EF) (c : Fin 4)
  | lineJob (chan : Nat)
  | msCommandComplete (id : Nat)
  -- SUB (R322)
  | ldsub (p q : BitVec 6) (n : Fin 8)
  | unsub (e : EF)
  | slotrd (p q : BitVec 6)
  | slotwait (e : EF)
  | ldsubLanding (id : Nat)
  | pushLand (id : Nat)
  | unsubEndMark (id : Nat)
  -- KL (R339)
  | pktab (e : EF) (h : Fin 16)
  | pklook (e : EF) (tag : Fin 4)
  | pkgrad (e : EF) (tag : Fin 4)
  | pkwait (q : BitVec 6) (x : BitVec 5) (tag : Fin 4)
  | klTableLoadFinish (vat h : Nat)
  | klAccept (vat : Nat)
  | klOperationComplete (t : TeamId) (tag : Nat)
  -- XS (R308, R310, R311, R201, R202, R360)
  | replayGo (e : EF)
  | replayDrop (p q : BitVec 6)
  | replayList (p q : BitVec 6)
  | ctxsave (e : EF)
  | ctxload (e : EF)
  | shoot (e : EF) (sz : ShootSize)
  | shootComplete
  | migrateGo (e : EF)
  | migrateWait (e : EF)
  | migrateEnd (e : EF)
  | migrationSwitch (old : Nat)
  | collGo (e : EF) (slot : Fin 4)
  | collWait (q : BitVec 6) (x : BitVec 5) (slot : Fin 4)
  | collTest (q : BitVec 6) (slot : Fin 4)
  | collCancel (q : BitVec 6) (slot : Fin 4)
  | collHeaderMismatch (t : TeamId) (slot : Nat)
  | collComplete (t : TeamId) (slot : Nat) (sends : List (List Byte))
  -- traps, the pool, quanta (R298, R250, R251, R254, R84, R347, R349)
  | trapDelivery (g : GrpId)
  | nodeDoneDecrement (node : Nat)
  | dispatchStep (wheel : Nat)
  | preemptForRoom (wheel : Nat)
  | deferredClaimGuard (core half : Nat)
  | threadQuantumStop (g : GrpId) (t : Nat)
  | quantumEnd (node : Nat)
  -- caches and homes (R198, R197, R199, R352)
  | cleanerWriteback (core pa : Nat)
  | regionMerge (pa size : Nat)
  | deadAgentDeclared (core : Nat)
  | backInvalidateTimeout (pa : Nat)
  | hostCxlAccess (pa : Nat) (write : Option (List Byte)) (n : Nat)
  -- the host's commands and registers (R354, R355, R357, R359)
  | launch
  | create
  | destroy
  | launchReservedCmd
  | lstatRead
  | tdeadaRead
  | heventWrite (v : Reg)
  | fgrpDefine (v : Reg)
  | fgrpRemove (v : Reg)
  -- Iboukan (R357, R369, R370, R16, R365, R363, R367, R21, R368)
  | partitionSetup (wheelSets : List Nat) (up : BringUp)
  | spdmAttestation
  | keyStoreAdd (keyId x y : Nat)
  | keyStoreRevoke (keyId : Nat)
  | persistentRecordClear (port : Bool) (unit part : Nat)
  | portFailRecord (core port : Nat)
  | channelFence (stack chan : Nat)
  | scrub (pa : Nat)
  | throttleEvent (wheel : Nat) (clk25 reason ratio : Nat)
  | powerRemoval
  | bringUp (up : BringUp)
  | partitionReset (up : BringUp)
  | contextSaveComplete (t : TeamId)
  | rangeEntryFreed (core id : Nat)
  | staleResponseDrop (wheel : Nat)
  | backInvalidateAnswer (pa : Nat)
  | remoteCollCancel (t : TeamId) (slot : Nat)
  | throttleCauseEnd (wheel bit : Nat)
  | linkErrorRetry (wheel : Nat) (cxl : Bool)
  deriving DecidableEq, Repr

end Sys2Proof
end

