-- ==== Sys2Proof/WellFormed.lean ====
section
/-! DEFINITION. Which instruction values the encodings admit: the operand classes and parities of R48 to R53 and
of each word's own description. An event row is always well formed: it has no encoding. -/

namespace Sys2Proof

/-- May stand as the destination of a V word: v, `Z` or q (R53). -/
def Os.dst : Os → Bool
  | .v _ | .zero | .q _ => true
  | _ => false

/-- May stand as the destination of a word that reads D: v or `Z`, a queue not (R53, R87). -/
def Os.acc : Os → Bool
  | .v _ | .zero => true
  | _ => false

/-- May stand as a source of an M word: any class but a latch (R53). -/
def Os.srcM : Os → Bool
  | .b _ => false
  | _ => true

/-- An even v register that names a pair (R53). -/
def Os.pair : Os → Bool
  | .v n => n.val % 2 == 0
  | _ => false

/-- A pair or `Z` (R77, R153). -/
def Os.pairZ : Os → Bool
  | .zero => true
  | o => o.pair

/-- A v register, multiple of 4, or `Z`: T of a `.b128` (R153). -/
def Os.quadZ : Os → Bool
  | .v n => n.val % 4 == 0
  | .zero => true
  | _ => false

/-- A v register. -/
def Os.isV : Os → Bool
  | .v _ => true
  | _ => false

/-- T of a load (R153). -/
def MemTy.loadT : MemTy → Os → Bool
  | .b64, t => t.pairZ
  | .b128, t => t.quadZ
  | .prv, t => t.acc
  | _, t => t.dst

/-- T of a store (R153). -/
def MemTy.storeT : MemTy → Os → Bool
  | .b64, t => t.pairZ
  | .b128, t => t.quadZ
  | .prv, t => t.acc
  | _, t => t.srcM

/-- T of an atomic: a v register, an even one for `CAS` (R155, R171). -/
def AtomOp.okT : AtomOp → Os → Bool
  | .cas, t => t.pair
  | _, t => t.isV

/-- Whether the operation of `VCVT` inserts into D (R118). -/
def CvtOp.insert : CvtOp → Bool
  | .e8m0f32 | .f16f32 | .bf16f32 | .e4m3f32 | .e5m2f32 | .e2m1f32 => true
  | _ => false

/-- How many element positions k the operation of `VCVT` has (R118). -/
def CvtOp.positions : CvtOp → Nat
  | .f32i32 | .f32n32 | .i32f32 | .n32f32 => 1
  | .f16f32 | .bf16f32 | .f32f16 | .f32bf16 => 2
  | .e2m1f32 | .f32e2m1 => 8
  | _ => 4

/-- `e8m0.f32` accepts `.rz`, `.rd` and `.ru` only (R118). -/
def CvtOp.accepts : CvtOp → Rnd → Bool
  | .e8m0f32, .rn => false
  | .e8m0f32, .rns => false
  | _, _ => true

/-- The length operand and the other fields of a range word agree: `all` has S = 0 and O = 0 (R169). -/
def Range.ok (r : Range) : Bool :=
  match r.len with
  | .all => r.s == 0 && !r.o
  | _ => true

/-- The system registers that have a number (R306, R364). -/
def sysregAssigned (r : BitVec 8) : Bool :=
  let n := r.toNat
  n ≤ 3 || (0x08 ≤ n && n ≤ 0x0A) || (0x10 ≤ n && n ≤ 0x13) || n == 0x20 || n == 0x21 || (0x40 ≤ n && n ≤ 0x4D)

/-- An even register. -/
def evenReg (r : BitVec 6) : Bool := r.toNat % 2 == 0

/-- An even register other than s0. -/
def evenPair (r : BitVec 6) : Bool := r.toNat % 2 == 0 && r != 0

/-- The predicate the encodings admit, word by word. -/
def WellFormed : Instr → Bool
  | .vmov _ d _ => d.dst
  | .vlane _ d => d.dst
  | .vsplat _ d _ sel => match sel with | .pair => d.pairZ | _ => d.dst
  | .vmov64 _ d a => d.pairZ && a.pairZ
  | .vadd _ _ d _ _ | .vsub _ _ d _ _ | .vmul _ _ d _ _ => d.dst
  | .vfma _ _ d _ _ | .vfnma _ _ d _ _ => d.acc
  | .vmin _ _ d _ _ | .vmax _ _ d _ _ | .vlogic _ _ d _ _ | .vshift _ _ d _ _ => d.dst
  | .vshiftBfx _ d _ => d.dst
  | .vshiftBfi _ d _ => d.acc
  | .vsel _ _ d _ _ => d.dst
  | .vcvt m op k _ d _ => decide (k.val < op.positions) && op.accepts m && (if op.insert then d.acc else d.dst)
  | .vbits op _ d _ b => d.dst && (decide (op = .byteperm) || decide (b = .v 0))
  | .vdiv _ _ d _ _ | .vperm _ _ d _ _ => d.dst
  | .vsfu _ _ d _ | .vred _ _ d _ => d.dst
  | .vdot _ _ d _ _ => d.acc
  | .vpred op _ _ _ b => match op with | .not | .move => b == 0 | _ => true
  | .sysrd _ r | .syswr _ r => sysregAssigned r
  | .ld ty t m _ => ty.loadT t && m.x.srcM
  | .st ty t m _ => ty.storeT t && m.x.srcM
  | .lds ty t m => decide (ty ≠ .prv) && ty.loadT t && m.x.srcM
  | .sts ty t m => decide (ty ≠ .prv) && ty.storeT t && m.x.srcM
  | .atom op t m | .atoms op t m => op.okT t && m.x.srcM
  | .clean sc r | .inval sc r | .icinv sc r | .tlbfence sc r => decide (3 ≤ sc.toNat ∧ sc.toNat ≤ 6) && r.ok
  | .rcfence sc r => decide (4 ≤ sc.toNat ∧ sc.toNat ≤ 6) && r.ok
  | .dqpush e => evenReg e.p
  | .dqpop e | .dqsteal e => evenPair e.q
  | .ldsub p q _ => evenReg p && evenPair q
  | .slotrd _ q => evenPair q
  | .slotwait e => evenPair e.q
  | _ => true

/-- The rows of the opcode map: instruction words, as against events, which have no encoding. -/
def Instr.isWord : Instr → Bool
  | .fairnessWrite .. | .mclkratioWrite .. | .mclkratioTake .. | .statusWrite .. | .pathDue ..
  | .loadComplete .. | .walkComplete .. | .transferRecordStart .. | .transferRecordComplete ..
  | .transferRecordStop .. | .waitConditionMet .. | .waitTimeout .. | .matrixOperationStart ..
  | .kStepCommit .. | .matrixOperationStop .. | .drainRun .. | .obldLoadFinish .. | .dequeOperation ..
  | .counterDecrement .. | .aaeStreamPush .. | .lineJob .. | .msCommandComplete .. | .ldsubLanding ..
  | .pushLand .. | .unsubEndMark .. | .klTableLoadFinish .. | .klAccept .. | .klOperationComplete ..
  | .shootComplete | .migrationSwitch .. | .collHeaderMismatch .. | .collComplete .. | .trapDelivery ..
  | .nodeDoneDecrement .. | .dispatchStep .. | .preemptForRoom .. | .deferredClaimGuard ..
  | .threadQuantumStop .. | .quantumEnd .. | .cleanerWriteback .. | .regionMerge .. | .deadAgentDeclared ..
  | .backInvalidateTimeout .. | .hostCxlAccess .. | .launch | .create | .destroy | .launchReservedCmd
  | .lstatRead | .tdeadaRead | .heventWrite .. | .fgrpDefine .. | .fgrpRemove .. | .partitionSetup ..
  | .spdmAttestation | .keyStoreAdd .. | .keyStoreRevoke .. | .persistentRecordClear .. | .portFailRecord ..
  | .channelFence .. | .scrub .. | .throttleEvent .. | .powerRemoval | .bringUp .. | .partitionReset ..
  | .contextSaveComplete .. | .rangeEntryFreed .. | .staleResponseDrop .. | .backInvalidateAnswer ..
  | .remoteCollCancel .. | .throttleCauseEnd .. | .linkErrorRetry .. => false
  | _ => true

end Sys2Proof
end

