-- ==== Sys2Proof/Decode.lean ====
section
/-! DEFINITION. The decoder, total on any word, rejecting by name (R47 to R62), and the encoder written from the
same tables. -/

namespace Sys2Proof

/-- Why a word is not an instruction: the encodings of R62. -/
inductive DecodeError where
  | unassignedMajor   -- detail 1
  | unassignedFn      -- detail 2
  | reservedOperand   -- detail 3
  | operandClass      -- detail 4
  | nonzeroUnused     -- detail 5
  | notAccepted       -- detail 8: scope, kind or conversion mode not accepted
  deriving DecidableEq, Repr

/-- The detail code of a rejected word (R62). -/
def DecodeError.detail : DecodeError → Nat
  | .unassignedMajor => 1
  | .unassignedFn => 2
  | .reservedOperand => 3
  | .operandClass => 4
  | .nonzeroUnused => 5
  | .notAccepted => 8

/-- The field of `len` bits whose lowest bit is `lo`. -/
def fld (n lo len : Nat) : Nat := n / 2 ^ lo % 2 ^ len

/-- The instruction, unless the word holds one of the encodings of R62; the lowest detail is reported. -/
def verdict (bad3 bad4 bad5 bad8 : Bool) (i : Instr) : Except DecodeError Instr :=
  if bad3 then .error .reservedOperand
  else if bad4 then .error .operandClass
  else if bad5 then .error .nonzeroUnused
  else if bad8 then .error .notAccepted
  else .ok i

/-- The instruction a function code selects, or the rejection of an unassigned one (R62, detail 2). -/
def onFn {α : Type} (f : Option α) (k : α → Except DecodeError Instr) : Except DecodeError Instr :=
  match f with
  | some x => k x
  | none => .error .unassignedFn

/-- The operand an OS field names (R53); 0x77 is reserved and rejected by `osBad`. -/
def osOf (n : Nat) : Os :=
  if h : n < 96 then .v ⟨n, h⟩
  else if n < 112 then .s (Fin.ofNat 16 (n - 96))
  else if n < 116 then .b (Fin.ofNat 4 (n - 112))
  else if n = 116 then .lit
  else if n = 117 then .zero
  else if n = 118 then .lane
  else .q (Fin.ofNat 8 (n - 120))

/-- OS 0x77 is reserved (R53). -/
def osBad (n : Nat) : Bool := n == 0x77

/-- The OS field of an operand (R53). -/
def osCode : Os → Nat
  | .v n => n.val
  | .s n => 96 + n.val
  | .b n => 112 + n.val
  | .lit => 116
  | .zero => 117
  | .lane => 118
  | .q n => 120 + n.val

/-- The AddTy a code names (R90). -/
def addTyOf : Nat → Option AddTy
  | 0 => some .i32
  | 1 => some .i32s
  | 2 => some .n32s
  | 3 => some .f32
  | 4 => some .h2
  | 5 => some .bh2
  | 6 => some .i16x2
  | _ => none
/-- The code of a AddTy (R90). -/
def addTyCode : AddTy → Nat
  | .i32 => 0 | .i32s => 1 | .n32s => 2 | .f32 => 3 | .h2 => 4 | .bh2 => 5 | .i16x2 => 6

/-- The MulTy a code names (R91). -/
def mulTyOf : Nat → Option MulTy
  | 0 => some .i32lo
  | 1 => some .i32hi
  | 2 => some .n32hi
  | 3 => some .f32
  | 4 => some .h2
  | 5 => some .bh2
  | 6 => some .i16x2
  | _ => none
/-- The code of a MulTy (R91). -/
def mulTyCode : MulTy → Nat
  | .i32lo => 0 | .i32hi => 1 | .n32hi => 2 | .f32 => 3 | .h2 => 4 | .bh2 => 5 | .i16x2 => 6

/-- The FmaTy a code names (R92). -/
def fmaTyOf : Nat → Option FmaTy
  | 0 => some .i32
  | 1 => some .f32
  | 2 => some .h2
  | 3 => some .bh2
  | _ => none
/-- The code of a FmaTy (R92). -/
def fmaTyCode : FmaTy → Nat
  | .i32 => 0 | .f32 => 1 | .h2 => 2 | .bh2 => 3

/-- The MinTy a code names (R93). -/
def minTyOf : Nat → Option MinTy
  | 0 => some .i32
  | 1 => some .n32
  | 2 => some .f32
  | 3 => some .h2
  | 4 => some .bh2
  | _ => none
/-- The code of a MinTy (R93). -/
def minTyCode : MinTy → Nat
  | .i32 => 0 | .n32 => 1 | .f32 => 2 | .h2 => 3 | .bh2 => 4

/-- The LogicOp a code names (R94). -/
def logicOpOf : Nat → Option LogicOp
  | 0 => some .and
  | 1 => some .or
  | 2 => some .xor
  | 3 => some .andn
  | 4 => some .orn
  | 5 => some .xnor
  | _ => none
/-- The code of a LogicOp (R94). -/
def logicOpCode : LogicOp → Nat
  | .and => 0 | .or => 1 | .xor => 2 | .andn => 3 | .orn => 4 | .xnor => 5

/-- The ShiftOp a code names (R95). -/
def shiftOpOf : Nat → Option ShiftOp
  | 0 => some .shl
  | 1 => some .shr
  | 2 => some .sar
  | 3 => some .rotl
  | _ => none
/-- The code of a ShiftOp (R95). -/
def shiftOpCode : ShiftOp → Nat
  | .shl => 0 | .shr => 1 | .sar => 2 | .rotl => 3

/-- The CmpI a code names (R96). -/
def cmpIOf : Nat → Option CmpI
  | 0 => some .eq
  | 1 => some .ne
  | 2 => some .lt
  | 3 => some .le
  | 4 => some .ltn
  | 5 => some .len
  | 6 => some .gt
  | 7 => some .ge
  | _ => none
/-- The code of a CmpI (R96). -/
def cmpICode : CmpI → Nat
  | .eq => 0 | .ne => 1 | .lt => 2 | .le => 3 | .ltn => 4 | .len => 5 | .gt => 6 | .ge => 7

/-- The CmpF a code names (R96). -/
def cmpFOf : Nat → Option CmpF
  | 0 => some .eq
  | 1 => some .ne
  | 2 => some .lt
  | 3 => some .le
  | 4 => some .gt
  | 5 => some .ge
  | 6 => some .un
  | 7 => some .or
  | _ => none
/-- The code of a CmpF (R96). -/
def cmpFCode : CmpF → Nat
  | .eq => 0 | .ne => 1 | .lt => 2 | .le => 3 | .gt => 4 | .ge => 5 | .un => 6 | .or => 7

/-- The Rnd a code names (R117). -/
def rndOf : Nat → Option Rnd
  | 0 => some .rn
  | 1 => some .rz
  | 2 => some .ru
  | 3 => some .rd
  | 4 => some .rns
  | _ => none
/-- The code of a Rnd (R117). -/
def rndCode : Rnd → Nat
  | .rn => 0 | .rz => 1 | .ru => 2 | .rd => 3 | .rns => 4

/-- The CvtOp a code names (R118). -/
def cvtOpOf : Nat → Option CvtOp
  | 0 => some .f32i32
  | 1 => some .f32n32
  | 2 => some .i32f32
  | 3 => some .n32f32
  | 4 => some .e8m0f32
  | 5 => some .f16f32
  | 6 => some .bf16f32
  | 7 => some .e4m3f32
  | 8 => some .e5m2f32
  | 9 => some .e2m1f32
  | 10 => some .f32f16
  | 11 => some .f32bf16
  | 12 => some .f32e4m3
  | 13 => some .f32e5m2
  | 14 => some .f32e2m1
  | 15 => some .f32e8m0
  | _ => none
/-- The code of a CvtOp (R118). -/
def cvtOpCode : CvtOp → Nat
  | .f32i32 => 0 | .f32n32 => 1 | .i32f32 => 2 | .n32f32 => 3 | .e8m0f32 => 4 | .f16f32 => 5 | .bf16f32 => 6 | .e4m3f32 => 7 | .e5m2f32 => 8 | .e2m1f32 => 9 | .f32f16 => 10 | .f32bf16 => 11 | .f32e4m3 => 12 | .f32e5m2 => 13 | .f32e2m1 => 14 | .f32e8m0 => 15

/-- The BitsOp a code names (R99). -/
def bitsOpOf : Nat → Option BitsOp
  | 0 => some .popc
  | 1 => some .clz
  | 2 => some .brev
  | 3 => some .byteperm
  | 4 => some .abs
  | 5 => some .neg
  | _ => none
/-- The code of a BitsOp (R99). -/
def bitsOpCode : BitsOp → Nat
  | .popc => 0 | .clz => 1 | .brev => 2 | .byteperm => 3 | .abs => 4 | .neg => 5

/-- The DivTy a code names (R100). -/
def divTyOf : Nat → Option DivTy
  | 0 => some .i32
  | 1 => some .n32
  | 2 => some .remI32
  | 3 => some .remN32
  | 4 => some .f32
  | _ => none
/-- The code of a DivTy (R100). -/
def divTyCode : DivTy → Nat
  | .i32 => 0 | .n32 => 1 | .remI32 => 2 | .remN32 => 3 | .f32 => 4

/-- The SfuOp a code names (R101). -/
def sfuOpOf : Nat → Option SfuOp
  | 0 => some .rcp
  | 1 => some .sqrt
  | 2 => some .rsqrt
  | 3 => some .exp2
  | 4 => some .log2
  | _ => none
/-- The code of a SfuOp (R101). -/
def sfuOpCode : SfuOp → Nat
  | .rcp => 0 | .sqrt => 1 | .rsqrt => 2 | .exp2 => 3 | .log2 => 4

/-- The PermOp a code names (R102). -/
def permOpOf : Nat → Option PermOp
  | 0 => some .idx
  | 1 => some .up
  | 2 => some .down
  | 3 => some .xor
  | 4 => some .bcast
  | _ => none
/-- The code of a PermOp (R102). -/
def permOpCode : PermOp → Nat
  | .idx => 0 | .up => 1 | .down => 2 | .xor => 3 | .bcast => 4

/-- The RedOp a code names (R103). -/
def redOpOf : Nat → Option RedOp
  | 0 => some .addI
  | 1 => some .addF
  | 2 => some .minI
  | 3 => some .maxI
  | 4 => some .minF
  | 5 => some .maxF
  | 6 => some .and
  | 7 => some .or
  | _ => none
/-- The code of a RedOp (R103). -/
def redOpCode : RedOp → Nat
  | .addI => 0 | .addF => 1 | .minI => 2 | .maxI => 3 | .minF => 4 | .maxF => 5 | .and => 6 | .or => 7

/-- The DotOp a code names (R104). -/
def dotOpOf : Nat → Option DotOp
  | 0 => some .i8
  | 1 => some .n8
  | 2 => some .bf16
  | 3 => some .e4m3
  | _ => none
/-- The code of a DotOp (R104). -/
def dotOpCode : DotOp → Nat
  | .i8 => 0 | .n8 => 1 | .bf16 => 2 | .e4m3 => 3

/-- The PredOp a code names (R98). -/
def predOpOf : Nat → Option PredOp
  | 0 => some .and
  | 1 => some .or
  | 2 => some .xor
  | 3 => some .not
  | 4 => some .move
  | _ => none
/-- The code of a PredOp (R98). -/
def predOpCode : PredOp → Nat
  | .and => 0 | .or => 1 | .xor => 2 | .not => 3 | .move => 4

/-- The SaluOp a code names (R78). -/
def saluOpOf : Nat → Option SaluOp
  | 0 => some .add
  | 1 => some .sub
  | 2 => some .mul
  | 3 => some .mulhn
  | 4 => some .and
  | 5 => some .or
  | 6 => some .xor
  | 7 => some .andn
  | 8 => some .shl
  | 9 => some .shr
  | 10 => some .sar
  | 11 => some .min
  | 12 => some .max
  | 13 => some .minn
  | 14 => some .maxn
  | 15 => some .slt
  | _ => none
/-- The code of a SaluOp (R78). -/
def saluOpCode : SaluOp → Nat
  | .add => 0 | .sub => 1 | .mul => 2 | .mulhn => 3 | .and => 4 | .or => 5 | .xor => 6 | .andn => 7 | .shl => 8 | .shr => 9 | .sar => 10 | .min => 11 | .max => 12 | .minn => 13 | .maxn => 14 | .slt => 15

/-- The MemTy a code names (R153). -/
def memTyOf : Nat → Option MemTy
  | 0 => some .n8
  | 1 => some .i8
  | 2 => some .n16
  | 3 => some .i16
  | 4 => some .b32
  | 5 => some .b64
  | 6 => some .b128
  | 7 => some .prv
  | _ => none
/-- The code of a MemTy (R153). -/
def memTyCode : MemTy → Nat
  | .n8 => 0 | .i8 => 1 | .n16 => 2 | .i16 => 3 | .b32 => 4 | .b64 => 5 | .b128 => 6 | .prv => 7

/-- The AtomOp a code names (R155). -/
def atomOpOf : Nat → Option AtomOp
  | 0 => some .addI
  | 1 => some .addF
  | 2 => some .minI
  | 3 => some .maxI
  | 4 => some .and
  | 5 => some .or
  | 6 => some .xchg
  | 7 => some .cas
  | _ => none
/-- The code of a AtomOp (R155). -/
def atomOpCode : AtomOp → Nat
  | .addI => 0 | .addF => 1 | .minI => 2 | .maxI => 3 | .and => 4 | .or => 5 | .xchg => 6 | .cas => 7

/-- The ShootSize a code names (R201). -/
def shootSizeOf : Nat → Option ShootSize
  | 0 => some .p128k
  | 1 => some .p4m
  | 2 => some .p256m
  | 3 => some .space
  | 4 => some .allsp
  | _ => none
/-- The code of a ShootSize (R201). -/
def shootSizeCode : ShootSize → Nat
  | .p128k => 0 | .p4m => 1 | .p256m => 2 | .space => 3 | .allsp => 4

/-- The SplatSel a code names (R77). -/
def splatSelOf : Nat → Option SplatSel
  | 0 => some .lo
  | 1 => some .hi
  | 2 => some .pair
  | _ => none
/-- The code of a SplatSel (R77). -/
def splatSelCode : SplatSel → Nat
  | .lo => 0 | .hi => 1 | .pair => 2

/-- The second source of a U word, and whether the class is reserved (R48). -/
def usrcOf (i b : Nat) : USrc :=
  if i = 1 then .imm (BitVec.ofNat 8 b)
  else if b < 64 then .s (BitVec.ofNat 6 b)
  else if b < 68 then .latch (Fin.ofNat 4 (b - 64))
  else .lit

/-- U field B 0x44 to 0xFE with I = 0 is reserved (R48, R62). -/
def uBad (i b : Nat) : Bool := i == 0 && 0x44 ≤ b && b ≤ 0xFE

/-- U field B 0x40 to 0x43 with I = 0 names a latch (R48). -/
def uLatch (i b : Nat) : Bool := i == 0 && 0x40 ≤ b && b ≤ 0x43

/-- Fields I and B, as I × 256 + B. -/
def usrcCode : USrc → Nat
  | .imm n => 256 + n.toNat
  | .s n => n.toNat
  | .latch n => 64 + n.val
  | .lit => 255

/-- `FROMV`'s B field (R79). -/
def vsrcOf (b : Nat) : VSrc := if h : b < 96 then .v ⟨b, h⟩ else .b (Fin.ofNat 4 (b - 112))
/-- B[6:0] of `FROMV` names v0 to v95 or b0 to b3 (R79). -/
def vsrcOk (b : Nat) : Bool := decide (b < 96) || (decide (112 ≤ b) && decide (b < 116))
/-- `FROMV`'s B field. -/
def vsrcCode : VSrc → Nat
  | .v n => n.val
  | .b n => 112 + n.val

/-- A six-bit register field. -/
def r6 (n : Nat) : BitVec 6 := BitVec.ofNat 6 n
/-- A three-bit field. -/
def f8 (n : Nat) : Fin 8 := Fin.ofNat 8 n
/-- A two-bit field. -/
def f4 (n : Nat) : Fin 4 := Fin.ofNat 4 n
/-- A four-bit field. -/
def f16 (n : Nat) : Fin 16 := Fin.ofNat 16 n

/-- A V word with destination and two sources: 0x77 nowhere, and D of the class `ok`. -/
def v3 (ok : Os → Bool) (d a b : Nat) (i : Instr) : Except DecodeError Instr :=
  verdict (osBad d || osBad a || osBad b) (!ok (osOf d)) false false i

/-- A V word with destination and one source; B is unused. An OS value 0x77 in B is a nonzero unused field, detail 5, and no reserved operand:
the spec does not say which (R62, R87; DESIGN CHOICE, notes/assumptions/43.md). -/
def v2 (ok : Os → Bool) (d a b : Nat) (i : Instr) : Except DecodeError Instr :=
  verdict (osBad d || osBad a) (!ok (osOf d)) (b != 0) false i

/-- Majors 0x00 to 0x14, the V pipe (R59). `VMOV64`, and `VSPLAT` of a pair, may name `Z` as D, as any form may (R77; DEDUCED,
notes/assumptions/37.md). A `VSPLAT` with A[6] = 1 has a nonzero unused field, detail 5: R77 says that the bit is 0 and R62 does not list
it (DESIGN CHOICE, notes/assumptions/43.md). -/
def decodeV (major fn d a b : Nat) (w : Bool) : Except DecodeError Instr :=
  let D := osOf d
  let A := osOf a
  let B := osOf b
  match major with
  | 0x00 =>
    match fn with
    | 0 => verdict false false (w || d != 0 || a != 0 || b != 0) false .nop
    | 1 => v2 Os.dst d a b (.vmov w D A)
    | 2 => verdict (osBad d) (!D.dst) (a != 0 || b != 0) false (.vlane w D)
    | 3 =>
      match splatSelOf b with
      | some sel =>
        verdict (osBad d) (match sel with | .pair => !D.pairZ | _ => !D.dst) (64 ≤ a) false
          (.vsplat w D (r6 a) sel)
      | none => .error .reservedOperand
    | 4 => verdict (osBad d || osBad a) (!D.pairZ || !A.pairZ) (b != 0) false (.vmov64 w D A)
    | _ => .error .unassignedFn
  | 0x01 => onFn (addTyOf fn) fun ty => v3 Os.dst d a b (.vadd ty w D A B)
  | 0x02 => onFn (addTyOf fn) fun ty => v3 Os.dst d a b (.vsub ty w D A B)
  | 0x03 => onFn (mulTyOf fn) fun ty => v3 Os.dst d a b (.vmul ty w D A B)
  | 0x04 => onFn (fmaTyOf fn) fun ty => v3 Os.acc d a b (.vfma ty w D A B)
  | 0x05 => onFn (fmaTyOf fn) fun ty => v3 Os.acc d a b (.vfnma ty w D A B)
  | 0x06 => onFn (minTyOf fn) fun ty => v3 Os.dst d a b (.vmin ty w D A B)
  | 0x07 => onFn (minTyOf fn) fun ty => v3 Os.dst d a b (.vmax ty w D A B)
  | 0x08 => onFn (logicOpOf fn) fun op => v3 Os.dst d a b (.vlogic op w D A B)
  | 0x09 =>
    match fn with
    | 4 => verdict (osBad d || osBad a || osBad b) (!D.dst || b != 0x74) false false (.vshiftBfx w D A)
    | 5 => verdict (osBad d || osBad a || osBad b) (!D.acc || b != 0x74) false false (.vshiftBfi w D A)
    | _ => onFn (shiftOpOf fn) fun op => v3 Os.dst d a b (.vshift op w D A B)
  | 0x0A => onFn (cmpIOf fn) fun c => verdict (osBad a || osBad b) false (8 ≤ d) false (.vcmpi c w (f8 d) A B)
  | 0x0B => onFn (cmpFOf fn) fun c => verdict (osBad a || osBad b) false (8 ≤ d) false (.vcmpf c w (f8 d) A B)
  | 0x0C => v3 Os.dst d a b (.vsel (f8 fn) w D A B)
  | 0x0D =>
    onFn (rndOf fn) fun m =>
      match cvtOpOf (b / 8) with
      | some op =>
        let k := b % 8
        verdict (osBad d || osBad a || op.positions ≤ k) (if op.insert then !D.acc else !D.dst) false
          (!op.accepts m) (.vcvt m op (f8 k) w D A)
      | none => .error .reservedOperand
  | 0x0E =>
    onFn (bitsOpOf fn) fun op =>
      match op with
      | .byteperm => v3 Os.dst d a b (.vbits op w D A B)
      | _ => v2 Os.dst d a b (.vbits op w D A B)
  | 0x0F => onFn (divTyOf fn) fun ty => v3 Os.dst d a b (.vdiv ty w D A B)
  | 0x10 => onFn (sfuOpOf fn) fun op => v2 Os.dst d a b (.vsfu op w D A)
  | 0x11 => onFn (permOpOf fn) fun op => v3 Os.dst d a b (.vperm op w D A B)
  | 0x12 => onFn (redOpOf fn) fun op => v2 Os.dst d a b (.vred op w D A)
  | 0x13 => onFn (dotOpOf fn) fun op => v3 Os.acc d a b (.vdot op w D A B)
  | 0x14 =>
    onFn (predOpOf fn) fun op =>
      verdict false false
        (8 ≤ d || 8 ≤ a || 8 ≤ b || (match op with | .not | .move => b != 0 | _ => false)) false
        (.vpred op w (f8 d) (f8 a) (f8 b))
  | _ => .error .unassignedMajor

/-- Majors 0x20, 0x21, 0x23 and 0x25, format U (R48). `i` is the I bit. -/
def decodeU (major fn d a i b : Nat) : Except DecodeError Instr :=
  let bad := uBad i b
  match major with
  | 0x20 => onFn (saluOpOf fn) fun op => verdict bad false false false (.salu op (r6 d) (r6 a) (usrcOf i b))
  | 0x21 =>
    match fn with
    | 0 => verdict bad false (a != 0) false (.mov (r6 d) (usrcOf i b))
    | 1 => verdict bad (i != 0 || b != 0xFF) (a != 0) false (.li (r6 d))
    | 2 => verdict bad (i != 0 || b != 0xFF) (a != 0) false (.lis (r6 d))
    | 3 => verdict bad (i != 0 || b != 0xFF) false false (.lihi (r6 d) (r6 a))
    | 4 => verdict bad (i != 1 || !vsrcOk b) false false (.fromv (r6 d) (r6 a) (vsrcOf b))
    | 5 => verdict bad (i != 1 || 8 ≤ b) (a != 0) false (.ballot (r6 d) (f8 b))
    | 6 => verdict bad (i != 0 || b != 0) false false (.popcs (r6 d) (r6 a))
    | _ => .error .unassignedFn
  | 0x23 =>
    match fn with
    | 0 =>
      verdict (bad || (i == 1 && !sysregAssigned (BitVec.ofNat 8 b))) (i != 1) (a != 0) false
        (.sysrd (r6 d) (BitVec.ofNat 8 b))
    | 1 =>
      verdict (bad || (i == 1 && !sysregAssigned (BitVec.ofNat 8 b))) (i != 1) (d != 0) false
        (.syswr (r6 a) (BitVec.ofNat 8 b))
    | 2 => verdict bad (i != 1) (d != 0 || a != 0) false (.trap (BitVec.ofNat 8 b))
    | 3 => verdict bad (uLatch i b) (d != 0 || a != 0 || i != 0 || b != 0) false .tret
    | 4 => verdict bad (uLatch i b) (a != 0 || i != 0 || b != 0) false (.clock (r6 d))
    | 5 => verdict (bad || 5 ≤ b) (i != 1) (a != 0) false (.capq (r6 d) (Fin.ofNat 5 b))
    | _ => .error .unassignedFn
  | 0x25 =>
    match fn with
    | 0 => verdict bad (i != 1) (a != 0 || 8 ≤ b) false (.elect (r6 d) (f8 b))
    | 1 => verdict bad (i != 1) (a != 0 || 8 ≤ b) false (.voteall (r6 d) (f8 b))
    | 2 => verdict bad (i != 1) (a != 0 || 8 ≤ b) false (.voteany (r6 d) (f8 b))
    | _ => .error .unassignedFn
  | _ => .error .unassignedMajor

/-- Major 0x24, format BR (R50, R133). `f` is bits [20:0]. -/
def decodeBR (fn f : Nat) : Except DecodeError Instr :=
  let p := f8 (fld f 18 3)
  let o := BitVec.ofNat 18 (fld f 0 18)
  let s := r6 (fld f 15 6)
  let o15 := BitVec.ofNat 15 (fld f 0 15)
  match fn with
  | 0 => .ok (.b p o)
  | 1 => .ok (.bz s o15)
  | 2 => .ok (.bnz s o15)
  | 3 => .ok (.call p o)
  | 4 => verdict false false (f != 0) false .ret
  | 5 => verdict false false (fld f 0 15 != 0) false (.brx s)
  | 6 => .ok (.bd p o)
  | 7 => .ok (.bp p o)
  | 8 => verdict false false (f != 0) false .join
  | 9 => verdict false false (f != 0) false .yield
  | 10 => verdict false false (f != 0) false .exit
  | _ => .error .unassignedFn

/-- The length operand of a range word's X field, if its class is allowed (R169). -/
def rlenOf (x : Nat) : Option RLen :=
  if x = 116 then some .lit
  else if x = 117 then some .all
  else if 96 ≤ x ∧ x < 112 then some (.s (Fin.ofNat 16 (x - 96)))
  else none

/-- The X field of a range word. -/
def rlenCode : RLen → Nat
  | .s n => 96 + n.val
  | .lit => 116
  | .all => 117

/-- A range word (R169): scopes `lo` to 6, kind 0. -/
def decodeRange (lo t s x o h : Nat) (k : BitVec 3 → Range → Instr) : Except DecodeError Instr :=
  let sc := fld t 2 3
  let len := rlenOf x
  let all := len == some .all
  verdict (osBad x) (len == none)
    (fld t 5 2 != 0 || h != 0 || (all && (s != 0 || o != 0)))
    (fld t 0 2 != 0 || sc < lo || 6 < sc)
    (k (BitVec.ofNat 3 sc) ⟨r6 s, len.getD .all, o == 1⟩)

/-- The kind of a fence (R49). -/
def kindOf : Nat → Kind
  | 1 => .acq
  | 2 => .rel
  | _ => .ar
/-- The kind field. -/
def kindCode : Kind → Nat
  | .acq => 1
  | .rel => 2
  | .ar => 3

/-- Major 0x36, the fence family (R169, R200, R246, R295). -/
def decodeFence (fn t s x o h : Nat) : Except DecodeError Instr :=
  let sc := fld t 2 3
  let k := fld t 0 2
  let rest := fld t 5 2 != 0 || s != 0 || x != 0 || o != 0 || h != 0
  match fn with
  | 0 => verdict false false rest (k == 0) (.fence (kindOf k) (BitVec.ofNat 3 sc))
  | 1 => decodeRange 3 t s x o h .clean
  | 2 => decodeRange 3 t s x o h .inval
  | 3 => decodeRange 3 t s x o h .icinv
  | 4 => verdict false false rest (sc != 0 || k != 0) .fetchbar
  | 5 => decodeRange 4 t s x o h .rcfence
  | 6 => verdict false false rest (sc != 6 || (k != 0 && k != 3)) (.msfence (k == 3))
  | _ => decodeRange 3 t s x o h .tlbfence

/-- A load, store or atomic: T of the class `ok`, X any but a latch; `hOk` when H is a hint (R153). -/
def mword (ok : Os → Bool) (hOk : Bool) (t x h : Nat) (i : Instr) : Except DecodeError Instr :=
  verdict (osBad t || osBad x) (!ok (osOf t) || !(osOf x).srcM) (!hOk && h != 0) false i

/-- Majors 0x30 to 0x36, format M (R49). -/
def decodeM (major fn t s x o h : Nat) : Except DecodeError Instr :=
  let T := osOf t
  let m : MAddr := ⟨r6 s, osOf x, o == 1⟩
  match major with
  | 0x30 => onFn (memTyOf fn) fun ty => mword ty.loadT true t x h (.ld ty T m (h == 1))
  | 0x31 => onFn (memTyOf fn) fun ty => mword ty.storeT true t x h (.st ty T m (h == 1))
  | 0x32 =>
    match memTyOf fn with
    | some .prv => .error .unassignedFn
    | ty => onFn ty fun ty => mword ty.loadT false t x h (.lds ty T m)
  | 0x33 =>
    match memTyOf fn with
    | some .prv => .error .unassignedFn
    | ty => onFn ty fun ty => mword ty.storeT false t x h (.sts ty T m)
  | 0x34 => onFn (atomOpOf fn) fun op => mword op.okT false t x h (.atom op T m)
  | 0x35 => onFn (atomOpOf fn) fun op => mword op.okT false t x h (.atoms op T m)
  | 0x36 => decodeFence fn t s x o h
  | _ => .error .unassignedMajor

/-- An E word: N out of range is detail 3, a parity rule detail 4, an unused field detail 5 (R51). -/
def ew (badN badReg unused : Bool) (i : Instr) : Except DecodeError Instr :=
  verdict badN badReg unused false i

/-- Majors 0x37 to 0x3E, format E (R51). -/
def decodeE (major fn p q x n : Nat) : Except DecodeError Instr :=
  let e : EF := ⟨r6 p, r6 q, BitVec.ofNat 5 x⟩
  let P := r6 p
  let Q := r6 q
  let X := BitVec.ofNat 5 x
  match major with
  | 0x37 =>
    match fn with
    | 0 => ew (4 ≤ n) false false (.copygo e (f4 n))
    | 1 => ew (4 ≤ n) false (p != 0) (.copywait Q X (f4 n))
    | 2 => ew (4 ≤ n) false (p != 0 || x != 0) (.chanstat Q (f4 n))
    | 3 => ew (4 ≤ n) false (p != 0) (.copycancel Q X (f4 n))
    | _ => .error .unassignedFn
  | 0x38 =>
    match fn with
    | 0 => ew false false (x != 0 || n != 0) (.barinit P Q)
    | 1 => ew false false (x != 0 || n != 0) (.bararrive P Q)
    | 2 => ew false false (x != 0 || n != 0) (.barexpect P Q)
    | 3 => ew false false (n != 0) (.barwait e)
    | 4 => ew false false (x != 0 || n != 0) (.bartest P Q)
    | 5 => ew false false (n != 0) (.mwait e)
    | _ => .error .unassignedFn
  | 0x39 =>
    match fn with
    | 0 => ew false false (n != 0) (.mxlease e)
    | 1 => ew (4 ≤ n) false false (.mxgo e (f4 n))
    | 2 => ew (4 ≤ n) false (p != 0) (.mxwait Q X (f4 n))
    | 3 => ew (4 ≤ n) false false (.mxdrain e (f4 n))
    | 4 => ew false false (p != 0 || n != 0) (.mxrel Q X)
    | 5 => ew false false (x != 0) (.ores P Q (f16 n))
    | 6 => ew false false false (.obld e (f16 n))
    | 7 => ew false false (x != 0) (.mxstat P Q (f16 n))
    | _ => .error .unassignedFn
  | 0x3A =>
    match fn with
    | 0 => ew false false (n != 0) (.tspawn e)
    | 1 => ew false false (x != 0) (.tdec P Q (f16 n))
    | 2 => ew false false (n != 0) (.twait e)
    | 3 => ew false (!evenReg P) (n != 0) (.dqpush e)
    | 4 => ew false (!evenPair Q) (n != 0) (.dqpop e)
    | 5 => ew false (!evenPair Q) (n != 0) (.dqsteal e)
    | 6 => ew (8 ≤ n) false false (.aaego e (f8 n))
    | 7 => ew (8 ≤ n) false (p != 0) (.aaestop Q X (f8 n))
    | 8 => ew (8 ≤ n) false (x != 0) (.qbind P Q (f8 n))
    | 9 => ew (8 ≤ n) false (x != 0) (.qstat P Q (f8 n))
    | _ => .error .unassignedFn
  | 0x3B =>
    match fn with
    | 0 => ew false false false (.msred e (f16 n))
    | 1 => ew false false false (.msatom e (f16 n))
    | 2 => ew (4 ≤ n) false (p != 0 || x != 0) (.mspoll Q (f4 n))
    | 3 => ew (4 ≤ n) false false (.mswait e (f4 n))
    | _ => .error .unassignedFn
  | 0x3C =>
    match fn with
    | 0 => ew (8 ≤ n) (!evenReg P || !evenPair Q) (x != 0) (.ldsub P Q (f8 n))
    | 1 => ew false false (n != 0) (.unsub e)
    | 2 => ew false (!evenPair Q) (x != 0 || n != 0) (.slotrd P Q)
    | 3 => ew false (!evenPair Q) (n != 0) (.slotwait e)
    | _ => .error .unassignedFn
  | 0x3D =>
    match fn with
    | 0 => ew false false false (.pktab e (f16 n))
    | 1 => ew (4 ≤ n) false false (.pklook e (f4 n))
    | 2 => ew (4 ≤ n) false false (.pkgrad e (f4 n))
    | 3 => ew (4 ≤ n) false (p != 0) (.pkwait Q X (f4 n))
    | _ => .error .unassignedFn
  | 0x3E =>
    match fn with
    | 0 =>
      match n with
      | 0 => .ok (.replayGo e)
      | 1 => ew false false (x != 0) (.replayDrop P Q)
      | 2 => ew false false (x != 0) (.replayList P Q)
      | _ => .error .reservedOperand
    | 1 => ew false false (n != 0) (.ctxsave e)
    | 2 => ew false false (n != 0) (.ctxload e)
    | 3 =>
      match shootSizeOf n with
      | some sz => .ok (.shoot e sz)
      | none => .error .reservedOperand
    | 4 =>
      match n with
      | 0 => .ok (.migrateGo e)
      | 1 => .ok (.migrateWait e)
      | 2 => .ok (.migrateEnd e)
      | _ => .error .reservedOperand
    | 5 =>
      let slot := f4 (n % 4)
      match n / 4 with
      | 0 => .ok (.collGo e slot)
      | 1 => ew false false (p != 0) (.collWait Q X slot)
      | 2 => ew false false (p != 0 || x != 0) (.collTest Q slot)
      | _ => ew false false (p != 0 || x != 0) (.collCancel Q slot)
    | _ => .error .unassignedFn
  | _ => .error .unassignedMajor

/-- The instruction that the low 31 bits of a word encode; bit 31, the chain bit, belongs to the packet (R41). -/
def decodeNat (n : Nat) : Except DecodeError Instr :=
  let major := fld n 25 6
  if major < 0x20 then
    decodeV major (fld n 21 3) (fld n 14 7) (fld n 7 7) (fld n 0 7) (fld n 24 1 == 1)
  else if major = 0x24 then decodeBR (fld n 21 4) (fld n 0 21)
  else if major < 0x30 then
    decodeU major (fld n 21 4) (fld n 15 6) (fld n 9 6) (fld n 8 1) (fld n 0 8)
  else if major < 0x37 then
    decodeM major (fld n 22 3) (fld n 15 7) (fld n 9 6) (fld n 2 7) (fld n 1 1) (fld n 0 1)
  else decodeE major (fld n 21 4) (fld n 15 6) (fld n 9 6) (fld n 4 5) (fld n 0 4)

/-- The instruction of a word, or why there is none (R62). -/
def decodeWord (w : Word) : Except DecodeError Instr := decodeNat w.toNat

/-- The chain bit of a word (R41). -/
def chainBit (w : Word) : Bool := 2 ^ 31 ≤ w.toNat

/-- The pipe of a word: bits [30:29] (R43). -/
inductive Pipe where | V | U | M
  deriving DecidableEq, Repr

/-- The pipe a word goes to, whether or not its major is assigned (R43). -/
def pipeOf (w : Word) : Pipe :=
  match fld w.toNat 29 2 with
  | 0 | 1 => .V
  | 2 => .U
  | _ => .M

/-! The encoder. -/

/-- Format V3 (R47). -/
def encV (major fn : Nat) (w : Bool) (d a b : Nat) : Nat :=
  major * 2 ^ 25 + (if w then 1 else 0) * 2 ^ 24 + fn * 2 ^ 21 + d * 2 ^ 14 + a * 2 ^ 7 + b
/-- Format U (R48); `ib` is I × 256 + B. -/
def encU (major fn : Nat) (d a : BitVec 6) (ib : Nat) : Nat :=
  major * 2 ^ 25 + fn * 2 ^ 21 + d.toNat * 2 ^ 15 + a.toNat * 2 ^ 9 + ib
/-- Format BR (R50); `f` is bits [20:0]. -/
def encBR (fn f : Nat) : Nat := 0x24 * 2 ^ 25 + fn * 2 ^ 21 + f
/-- Format M (R49). -/
def encM (major fn t s x : Nat) (o h : Bool) : Nat :=
  major * 2 ^ 25 + fn * 2 ^ 22 + t * 2 ^ 15 + s * 2 ^ 9 + x * 2 ^ 2 + (if o then 1 else 0) * 2 + (if h then 1 else 0)
/-- Format E (R51). -/
def encE (major fn : Nat) (p q : BitVec 6) (x : BitVec 5) (n : Nat) : Nat :=
  major * 2 ^ 25 + fn * 2 ^ 21 + p.toNat * 2 ^ 15 + q.toNat * 2 ^ 9 + x.toNat * 2 ^ 4 + n
/-- A load, store or atomic word. -/
def encMA (major fn : Nat) (t : Os) (m : MAddr) (h : Bool) : Nat :=
  encM major fn (osCode t) m.s.toNat (osCode m.x) m.o h
/-- A range word. -/
def encRange (fn : Nat) (sc : BitVec 3) (r : Range) : Nat :=
  encM 0x36 fn (sc.toNat * 4) r.s.toNat (rlenCode r.len) r.o false
/-- An E word with all of P, Q and X. -/
def encEF (major fn : Nat) (e : EF) (n : Nat) : Nat := encE major fn e.p e.q e.x n

/-- The low 31 bits of an instruction's word; `none` for an event, which has no encoding. -/
def encodeNat : Instr → Option Nat
  | .nop => some 0
  | .vmov w d a => some (encV 0x00 1 w (osCode d) (osCode a) 0)
  | .vlane w d => some (encV 0x00 2 w (osCode d) 0 0)
  | .vsplat w d s sel => some (encV 0x00 3 w (osCode d) s.toNat (splatSelCode sel))
  | .vmov64 w d a => some (encV 0x00 4 w (osCode d) (osCode a) 0)
  | .vadd ty w d a b => some (encV 0x01 (addTyCode ty) w (osCode d) (osCode a) (osCode b))
  | .vsub ty w d a b => some (encV 0x02 (addTyCode ty) w (osCode d) (osCode a) (osCode b))
  | .vmul ty w d a b => some (encV 0x03 (mulTyCode ty) w (osCode d) (osCode a) (osCode b))
  | .vfma ty w d a b => some (encV 0x04 (fmaTyCode ty) w (osCode d) (osCode a) (osCode b))
  | .vfnma ty w d a b => some (encV 0x05 (fmaTyCode ty) w (osCode d) (osCode a) (osCode b))
  | .vmin ty w d a b => some (encV 0x06 (minTyCode ty) w (osCode d) (osCode a) (osCode b))
  | .vmax ty w d a b => some (encV 0x07 (minTyCode ty) w (osCode d) (osCode a) (osCode b))
  | .vlogic op w d a b => some (encV 0x08 (logicOpCode op) w (osCode d) (osCode a) (osCode b))
  | .vshift op w d a b => some (encV 0x09 (shiftOpCode op) w (osCode d) (osCode a) (osCode b))
  | .vshiftBfx w d a => some (encV 0x09 4 w (osCode d) (osCode a) 0x74)
  | .vshiftBfi w d a => some (encV 0x09 5 w (osCode d) (osCode a) 0x74)
  | .vcmpi c w d a b => some (encV 0x0A (cmpICode c) w d.val (osCode a) (osCode b))
  | .vcmpf c w d a b => some (encV 0x0B (cmpFCode c) w d.val (osCode a) (osCode b))
  | .vsel p w d a b => some (encV 0x0C p.val w (osCode d) (osCode a) (osCode b))
  | .vcvt m op k w d a => some (encV 0x0D (rndCode m) w (osCode d) (osCode a) (cvtOpCode op * 8 + k.val))
  | .vbits op w d a b => some (encV 0x0E (bitsOpCode op) w (osCode d) (osCode a) (osCode b))
  | .vdiv ty w d a b => some (encV 0x0F (divTyCode ty) w (osCode d) (osCode a) (osCode b))
  | .vsfu op w d a => some (encV 0x10 (sfuOpCode op) w (osCode d) (osCode a) 0)
  | .vperm op w d a b => some (encV 0x11 (permOpCode op) w (osCode d) (osCode a) (osCode b))
  | .vred op w d a => some (encV 0x12 (redOpCode op) w (osCode d) (osCode a) 0)
  | .vdot op w d a b => some (encV 0x13 (dotOpCode op) w (osCode d) (osCode a) (osCode b))
  | .vpred op w d a b => some (encV 0x14 (predOpCode op) w d.val a.val b.val)
  | .salu op d a b => some (encU 0x20 (saluOpCode op) d a (usrcCode b))
  | .mov d b => some (encU 0x21 0 d 0 (usrcCode b))
  | .li d => some (encU 0x21 1 d 0 255)
  | .lis d => some (encU 0x21 2 d 0 255)
  | .lihi d a => some (encU 0x21 3 d a 255)
  | .fromv d a v => some (encU 0x21 4 d a (256 + vsrcCode v))
  | .ballot d p => some (encU 0x21 5 d 0 (256 + p.val))
  | .popcs d a => some (encU 0x21 6 d a 0)
  | .sysrd d r => some (encU 0x23 0 d 0 (256 + r.toNat))
  | .syswr a r => some (encU 0x23 1 0 a (256 + r.toNat))
  | .trap c => some (encU 0x23 2 0 0 (256 + c.toNat))
  | .tret => some (encU 0x23 3 0 0 0)
  | .clock d => some (encU 0x23 4 d 0 0)
  | .capq d k => some (encU 0x23 5 d 0 (256 + k.val))
  | .b p o => some (encBR 0 (p.val * 2 ^ 18 + o.toNat))
  | .bz s o => some (encBR 1 (s.toNat * 2 ^ 15 + o.toNat))
  | .bnz s o => some (encBR 2 (s.toNat * 2 ^ 15 + o.toNat))
  | .call p o => some (encBR 3 (p.val * 2 ^ 18 + o.toNat))
  | .ret => some (encBR 4 0)
  | .brx s => some (encBR 5 (s.toNat * 2 ^ 15))
  | .bd p o => some (encBR 6 (p.val * 2 ^ 18 + o.toNat))
  | .bp p o => some (encBR 7 (p.val * 2 ^ 18 + o.toNat))
  | .join => some (encBR 8 0)
  | .yield => some (encBR 9 0)
  | .exit => some (encBR 10 0)
  | .elect d p => some (encU 0x25 0 d 0 (256 + p.val))
  | .voteall d p => some (encU 0x25 1 d 0 (256 + p.val))
  | .voteany d p => some (encU 0x25 2 d 0 (256 + p.val))
  | .ld ty t m h => some (encMA 0x30 (memTyCode ty) t m h)
  | .st ty t m h => some (encMA 0x31 (memTyCode ty) t m h)
  | .lds ty t m => some (encMA 0x32 (memTyCode ty) t m false)
  | .sts ty t m => some (encMA 0x33 (memTyCode ty) t m false)
  | .atom op t m => some (encMA 0x34 (atomOpCode op) t m false)
  | .atoms op t m => some (encMA 0x35 (atomOpCode op) t m false)
  | .fence k sc => some (encM 0x36 0 (sc.toNat * 4 + kindCode k) 0 0 false false)
  | .clean sc r => some (encRange 1 sc r)
  | .inval sc r => some (encRange 2 sc r)
  | .icinv sc r => some (encRange 3 sc r)
  | .fetchbar => some (encM 0x36 4 0 0 0 false false)
  | .rcfence sc r => some (encRange 5 sc r)
  | .msfence ar => some (encM 0x36 6 (if ar then 0x1B else 0x18) 0 0 false false)
  | .tlbfence sc r => some (encRange 7 sc r)
  | .copygo e ch => some (encEF 0x37 0 e ch.val)
  | .copywait q x ch => some (encE 0x37 1 0 q x ch.val)
  | .chanstat q ch => some (encE 0x37 2 0 q 0 ch.val)
  | .copycancel q x ch => some (encE 0x37 3 0 q x ch.val)
  | .barinit p q => some (encE 0x38 0 p q 0 0)
  | .bararrive p q => some (encE 0x38 1 p q 0 0)
  | .barexpect p q => some (encE 0x38 2 p q 0 0)
  | .barwait e => some (encEF 0x38 3 e 0)
  | .bartest p q => some (encE 0x38 4 p q 0 0)
  | .mwait e => some (encEF 0x38 5 e 0)
  | .mxlease e => some (encEF 0x39 0 e 0)
  | .mxgo e tag => some (encEF 0x39 1 e tag.val)
  | .mxwait q x tag => some (encE 0x39 2 0 q x tag.val)
  | .mxdrain e tag => some (encEF 0x39 3 e tag.val)
  | .mxrel q x => some (encE 0x39 4 0 q x 0)
  | .ores p q r => some (encE 0x39 5 p q 0 r.val)
  | .obld e r => some (encEF 0x39 6 e r.val)
  | .mxstat p q n => some (encE 0x39 7 p q 0 n.val)
  | .tspawn e => some (encEF 0x3A 0 e 0)
  | .tdec p q n => some (encE 0x3A 1 p q 0 n.val)
  | .twait e => some (encEF 0x3A 2 e 0)
  | .dqpush e => some (encEF 0x3A 3 e 0)
  | .dqpop e => some (encEF 0x3A 4 e 0)
  | .dqsteal e => some (encEF 0x3A 5 e 0)
  | .aaego e q => some (encEF 0x3A 6 e q.val)
  | .aaestop q x n => some (encE 0x3A 7 0 q x n.val)
  | .qbind p q n => some (encE 0x3A 8 p q 0 n.val)
  | .qstat p q n => some (encE 0x3A 9 p q 0 n.val)
  | .msred e n => some (encEF 0x3B 0 e n.val)
  | .msatom e n => some (encEF 0x3B 1 e n.val)
  | .mspoll q c => some (encE 0x3B 2 0 q 0 c.val)
  | .mswait e c => some (encEF 0x3B 3 e c.val)
  | .ldsub p q n => some (encE 0x3C 0 p q 0 n.val)
  | .unsub e => some (encEF 0x3C 1 e 0)
  | .slotrd p q => some (encE 0x3C 2 p q 0 0)
  | .slotwait e => some (encEF 0x3C 3 e 0)
  | .pktab e h => some (encEF 0x3D 0 e h.val)
  | .pklook e tag => some (encEF 0x3D 1 e tag.val)
  | .pkgrad e tag => some (encEF 0x3D 2 e tag.val)
  | .pkwait q x tag => some (encE 0x3D 3 0 q x tag.val)
  | .replayGo e => some (encEF 0x3E 0 e 0)
  | .replayDrop p q => some (encE 0x3E 0 p q 0 1)
  | .replayList p q => some (encE 0x3E 0 p q 0 2)
  | .ctxsave e => some (encEF 0x3E 1 e 0)
  | .ctxload e => some (encEF 0x3E 2 e 0)
  | .shoot e sz => some (encEF 0x3E 3 e (shootSizeCode sz))
  | .migrateGo e => some (encEF 0x3E 4 e 0)
  | .migrateWait e => some (encEF 0x3E 4 e 1)
  | .migrateEnd e => some (encEF 0x3E 4 e 2)
  | .collGo e slot => some (encEF 0x3E 5 e slot.val)
  | .collWait q x slot => some (encE 0x3E 5 0 q x (4 + slot.val))
  | .collTest q slot => some (encE 0x3E 5 0 q 0 (8 + slot.val))
  | .collCancel q slot => some (encE 0x3E 5 0 q 0 (12 + slot.val))
  | _ => none

/-- The word of an instruction with its chain bit (R41, R47 to R51). -/
def encode (c : Bool) (i : Instr) : Option Word :=
  (encodeNat i).map fun n => BitVec.ofNat 32 ((if c then 2 ^ 31 else 0) + n)

/-- The instruction the decoder reads from a table row's word: 32 bits, one word (R40). -/
def decodeTableWord (nbits w : Nat) : Option Instr :=
  if nbits ≤ 32 then
    match decodeWord (BitVec.ofNat 32 w) with
    | .ok i => some i
    | .error _ => none
  else none

/-- Fields of an instruction word written little-endian: the four bytes at rising addresses (R1). -/
def wordBytes (n : Nat) : List Byte :=
  [BitVec.ofNat 8 n, BitVec.ofNat 8 (n / 2 ^ 8), BitVec.ofNat 8 (n / 2 ^ 16), BitVec.ofNat 8 (n / 2 ^ 24)]

/-- The number a list of bytes holds, little-endian (R1). -/
def leNat : List Byte → Nat
  | [] => 0
  | b :: bs => b.toNat + 256 * leNat bs

/-- The `k` bytes of a number, little-endian (R1). -/
def leBytes : Nat → Nat → List Byte
  | 0, _ => []
  | k + 1, n => BitVec.ofNat 8 n :: leBytes k (n / 256)

end Sys2Proof
end

