-- ==== Sys2Proof/Machine/State.lean ====
section
/-! DEFINITION. The state of the device: everything the spec gives one partition, as plain data, and its value after
reset. The whole device is one partition (R357). Engine parameters are numbers; registers are bit vectors. -/

namespace Sys2Proof.Machine

open Sys2Proof

/-- Why a step stops: never, since every behaviour that the spec describes has a next state. -/
inductive Fault where
  deriving DecidableEq, Repr

/-- Why an instruction has no meaning. -/
inductive Refusal where
  /-- The arm of an instruction that has not been given its meaning; raised by `exec` only; safe. -/
  | notModelled (mnemonic : String)
  deriving DecidableEq, Repr

/-- Memory as address and byte pairs in one canonical form (Machine/Ops.lean, `Memory.wf`). -/
abbrev Memory := List Host.Cell

/-! ## Threads and groups -/

/-- The four states of a thread (R120). -/
inductive ThreadSt where | runnable | parked | blocked | exited
  deriving DecidableEq, Repr

/-- A bypass latch with its live mark (R56). -/
structure Latch where
  val : Word
  live : Bool
  deriving DecidableEq, Repr

/-- A fetched packet (R40), and whether it came from a registered system segment (R275). -/
structure Packet where
  addr : VAddr
  w0 : Word
  w1 : Word
  w2 : Word
  lit : Word
  sys : Bool
  deriving DecidableEq, Repr

/-- One thread (R64, R120). `pend` lists the registers that a parked load element still owes (register, load word):
a reader waits, a later writer removes the entry (R70 to R73). `run` counts consecutive latch-reading packets (R57), `pkt` is the packet
the thread is inside, where it has executed a word of it, and `copy` the copy of it that a `FETCHBAR` in it leaves (R182); `moved` says
that a branch of the chain group has moved the thread (R56), `alone` that its last word was executed from a loop buffer (R132);
`lead` is the lead packet of its latch run, the last packet it has entered that reads no latch (R57); `stopped` and `retired` are of a `det` node's quantum (R347). -/
structure Thread where
  v : List Word
  p : BitVec 8
  lat : List Latch
  pc : VAddr
  st : ThreadSt
  pend : List (Nat × Nat)
  run : Nat
  pkt : Option VAddr
  copy : Option Packet
  moved : Bool
  alone : Bool
  lead : VAddr
  stopped : Bool
  retired : Nat
  deriving DecidableEq, Repr

/-- The kinds of queue binding (R256). -/
inductive QKind where | self | group | engine
  deriving DecidableEq, Repr

/-- A queue register: its binding and its FIFO per beat slice, oldest entry first, 16 values an entry (R256). -/
structure Queue where
  kind : QKind
  src : Nat
  srcQ : Nat
  slices : List (List (List Word))
  deriving DecidableEq, Repr

/-- An entry of the join stack (R128). -/
structure JoinEntry where
  join : VAddr
  members : Mask
  arrived : Mask
  deriving DecidableEq, Repr

/-- A runnable path that is not current: since when it waits, its wait count, and since when it is due (R122, R125). -/
structure PathRec where
  pc : VAddr
  since : Nat
  wait : Nat
  due : Option Nat
  deriving DecidableEq, Repr

/-- The scratchpad word a `BARWAIT` or `MWAIT` watches, its physical address while its page is unpinned, the value it must differ from,
the first differing value that a write has left there, and the value last examined (R148, R159). -/
structure WordWatch where
  team : TeamId
  off : Nat
  pa : Option Nat
  val : Word
  seen : Option Word
  last : Word
  deriving DecidableEq, Repr

/-- What a wait watches, and what the examinations after the writes to it have found (R159): a scratchpad word; the slot of a
`SLOTWAIT`, with the status, `SEQ` and `VALUE` of the examination that has ended it (R325); the counter of a `TWAIT`, and whether a write
has left it at 0 (R263); the descriptor of a deque, and whether a write has disabled it (R264). -/
inductive Watch where
  | word (x : WordWatch)
  | slot (team : TeamId) (off : Nat) (got : Option (Nat × Nat × Reg))
  | counter (pa : Nat) (zero : Bool)
  | deque (pa : Nat) (off : Bool)
  deriving DecidableEq, Repr

/-- An element of a word that is performed later than it issues: its thread, its address and its two operands (R155). -/
structure KeptElem where
  t : Nat
  addr : Nat
  a : Word
  b : Word
  deriving DecidableEq, Repr

/-- The sources a word has read at its issue (R6, R70): s registers with their values, and elements. -/
structure Kept where
  s : List (Nat × Reg)
  elems : List KeptElem
  deriving DecidableEq, Repr

/-- A word whose threads are blocked until its condition holds or its limit expires (R120, R159). In a `det` node the
serial word's limit counts quantum ends (R349): `deadline` is then the number of them. `id` names its write to Q in
`Group.spend`, `kept` is what it has read; `held` says that a trap at a pre-emption point runs in front of it, in a `det` node
(R349). -/
structure WaitRec where
  id : Nat
  kept : Kept
  held : Bool
  mask : Mask
  watch : Option Watch
  pc : VAddr
  base : VAddr
  next : VAddr
  slot : Nat
  word : Word
  lit : Word
  sys : Bool
  last : Nat            -- what its last examination would have reported at a timeout (R159)
  serial : Bool
  deadline : Option Nat
  quanta : Nat
  deriving DecidableEq, Repr

/-- A trap: what the frame records of it (R300). `parked` marks one that a replay entry raises, and `cmd` that of a command's entry
(R301, R303, R312). -/
structure Trap where
  cause : Nat
  detail : Nat
  slot : Nat
  flags : Nat
  level : Nat
  addr : Nat
  aux : Nat
  mask : Mask
  word : Word
  parked : Bool := false
  cmd : Bool := false
  deriving DecidableEq, Repr

/-- A translated address: `attr` as in R189 (0 `DIR`, 1 `SELFINV`, 2 `UNC`). -/
structure Xlat where
  pa : Nat
  attr : Nat
  memside : Bool
  poison : Bool
  deriving DecidableEq, Repr

/-- One part of an element: the bytes of it that lie in one 4 KiB block (R154, R195). -/
structure Part where
  x : Xlat
  va : Nat
  n : Nat
  deriving DecidableEq, Repr

/-- A buffered store element of a `det` node (R346): a memory element with its translated parts, or a scratchpad
element with the team index and offset it names. The row of a parked element has no data until it is replayed. -/
structure BufElem where
  thread : Nat
  row : Nat
  scr : Option (Nat × Nat)
  parts : List Part
  data : List Byte
  hint : Bool
  deriving DecidableEq, Repr

/-- A serial word queued for the quantum end, with what it has read and the name of its write to Q (R70, R348). -/
structure SerialRec where
  id : Nat
  kept : Kept
  mask : Mask
  pc : VAddr
  base : VAddr
  next : VAddr
  slot : Nat
  word : Word
  lit : Word
  deriving DecidableEq, Repr

/-- What holds a group's later M-pipe words: the names of what a fence waits for (R165, R169, R295). -/
structure Hold where
  parked : List Nat   -- replay entries (R165)
  st : List Nat       -- those of them that a release waits for: what they write is performed before it lets go (R165)
  rel : List Nat      -- those of them whose replay a release's write-back follows (R166)
  acq : List Nat      -- those whose replay an acquire's drop follows (R166)
  pushes : List Nat   -- pushes in flight (R327)
  ms : List Nat       -- memory-side commands, for later `MEMSIDE` accesses only (R295)
  send : List Nat     -- replay entries, for later memory-side commands only (R295)
  home : Bool         -- a write of such a replay may still be held at its home (R165, R203, R352)
  deriving DecidableEq, Repr

/-- What a node was launched with (R269 to R272), checked and resolved at entry. -/
structure Launch where
  lr2 : Bool
  gang : Bool
  nofair : Bool
  det : Bool
  fullw : Bool
  paired : Bool
  trapOnPoison : Bool
  teams : Nat
  body : Nat
  blen : Nat
  args : Nat
  savestr : Nat
  privw : Nat
  space : Nat
  save : Nat
  dep : Option Nat  -- physical address of `DEPCTR`
  done : Option Nat -- physical address of `DONECTR`
  prio : Nat
  lease : Nat
  weight : Nat
  trapSeg : Option Nat
  vregs : Nat
  width : Nat
  groups : Nat
  window : Nat
  deriving DecidableEq, Repr

/-- One memory-side command (R283) with the addresses as its word named them. -/
structure MsSpec where
  atom : Bool
  row : Nat
  tbl : Nat
  stride : Nat
  len : Nat
  zero : Bool
  sfmt : Bool
  ctgt : Nat
  tc : Bool
  op : Nat
  tctr : Nat
  pairs : List (Nat × Word)
  deriving DecidableEq, Repr

/-- One group of threads. `cur` is the PC of the current path, the broadcast address (R121); `packet` is the copy of
the packet being executed and `stream` the packets fetched ahead (R180); `expect` is the next sequential packet and `lastMask` the threads that executed last (R56).
`trapMask` holds the receiving path's threads while the group is in trap mode, and
`trapCause` the cause it entered with (R299). `spawns` are the launches that a waiting `TSPAWN` has checked (R262), `msends` the
commands that a waiting `MSRED` or `MSATOM` has read (R292), `blocks` the parameter block that a waiting `MXGO`, `PKLOOK` or `PKGRAD` has
read (R212, R335). -/
structure Group where
  core : Nat
  pipe : Nat
  width : Nat
  threads : List Thread
  s : List Reg
  q : List Queue
  joins : List JoinEntry
  cur : Option VAddr
  paths : List PathRec
  packet : Option Packet
  stream : List Packet
  expect : VAddr
  lastMask : Mask
  trapMask : Option Mask
  trapCause : Nat
  traps : List Trap
  waits : List WaitRec
  spend : List (Nat × Nat)
  hold : Hold
  yielded : Bool
  lastIssue : Nat
  diverged : Bool
  buf : List BufElem
  serial : List SerialRec
  seen : List Nat      -- pushes in flight whose writes the group's accesses have read (R167, R178)
  after : List Nat     -- those that a fence orders before its later accesses
  spawns : List (Mask × Launch)
  msends : List (Mask × List MsSpec)
  blocks : List (Mask × List Byte)
  deriving DecidableEq, Repr

/-! ## Engines -/

/-- Who started an engine's work: the group, the active threads, the slot and the word (R300, `TMASK`). -/
structure Issuer where
  team : TeamId
  grp : Nat
  mask : Mask
  slot : Nat
  word : Word
  pc : VAddr
  deriving DecidableEq, Repr

/-- A shape record as resolved (R233). -/
structure Shape where
  elog : Nat
  dims : List (Nat × Int)
  deriving DecidableEq, Repr

/-- A transfer record that has started: what remains of it (R230 to R235). `moved` counts elements. -/
structure Xfer where
  next : Nat
  src : Nat
  dst : Nat
  sshape : Option Shape
  dshape : Option Shape
  sva : Nat         -- the addresses of the shape records
  dva : Nat
  count : Nat
  esize : Nat
  moved : Nat
  sscr : Bool
  dscr : Bool
  ctype : Nat
  target : Nat
  tpa : Nat
  entries : List Nat
  deriving DecidableEq, Repr

/-- A streamer channel (R229, R241). -/
structure Chan where
  st : Nat          -- 0 idle, 1 running, 2 stopped
  recAddr : Nat     -- the current or stopped record's address
  recs : Nat        -- records completed since the channel last became running
  reason : Nat      -- reason of the last stop
  cancel : Bool     -- a cancel is in progress
  waiting : Bool    -- it waits for a translation or a full queue, and is passed over (R238)
  by_ : Option Issuer
  act : Option Xfer
  gen : Nat         -- the name of the `COPYGO` that has last made it running (R245)
  deriving DecidableEq, Repr

/-- The shapes that a record which has stopped or been paused keeps: its space and address, the addresses of its shape records, and the
shapes; `unsaid` says that the record itself does not tell of the stop: it was paused, or could not be written (R237, R239, R240). -/
structure FixedRec where
  space : Nat
  addr : Nat
  sva : Nat
  dva : Nat
  sshape : Option Shape
  dshape : Option Shape
  unsaid : Bool
  deriving DecidableEq, Repr

/-- A completion counter of the memory side (R288). -/
structure MsCounter where
  issued : BitVec 32
  done : BitVec 32
  deriving DecidableEq, Repr

/-- A collective slot (R360) with the descriptor it runs: its buffers as translated at `COLL.go`, the group's ranks and
this partition's, and the result, once the ranks have exchanged their data (R361). -/
structure CollSlot where
  st : Nat          -- 0 free, 1 running, 2 complete, 3 cancelled
  send : List Part
  recv : List Part
  done : Option Nat -- physical address of `DONECTR`
  count : Nat
  group : Nat
  op : Nat
  dtype : Nat
  rop : Nat
  root : Nat
  ranks : Nat
  me : Nat
  by_ : Issuer
  result : Option (List Byte)
  deriving DecidableEq, Repr

/-- An operand-buffer record (R208, R226). -/
structure ORec where
  handle : Nat
  st : Nat          -- 1 loading, 2 ready, 3 fault, 4 empty
  kb : Nat
  n : Nat
  scl : Nat
  sp : Bool
  fmt : Nat
  gran : Nat
  src : Nat         -- the image being loaded
  by_ : Option Issuer
  flt : Option (Nat × Nat × Nat)   -- a fault that its `OBLD` still has to take: detail, level, address (R211)
  image : List Byte
  deriving DecidableEq, Repr

/-- A drain queued on a tag (R223). -/
structure Drain where
  bf16 : Bool
  target : Nat
  entry : Nat
  deriving DecidableEq, Repr

/-- An operation tag: the operation under it with the operand bytes that stood when it was queued (R175, R212). -/
structure MxTag where
  tag : Nat
  st : Nat          -- 0 unused, 1 queued, 2 running, 3 complete, 4 draining, 5 stopped
  counter : Nat
  orec : Nat        -- the operand-buffer record it reads
  afmt : Nat
  mrows : Nat
  ncols : Nat       -- N of that record as the operation was queued (R223)
  acc0 : Nat
  accz : Bool
  sat : Bool
  first : Nat       -- K-step the operation started from
  aaddr : Nat       -- scratchpad address of A row 0, and the bytes from one row to the next
  apitch : Nat
  saddr : Nat       -- and of the scales
  spitch : Nat
  rows : List (List Byte)
  scales : List (List Byte)
  bad : List (Nat × Nat × Nat)   -- operand bytes that are uncorrectable: 0 an A row, 1 a row's scales, 2 a column of B; which; offset (R217)
  entries : List Nat
  drain : Option Drain
  seq : Nat         -- order of the team's `MXGO` words
  started : Nat     -- order in which the arbiter has started it (R206)
  by_ : Issuer
  deriving DecidableEq, Repr

/-- A team's lease of a core's arrays (R206, R220). `ats` holds the accumulators that are not +0, by AT × 1,024 +
element. -/
structure Lease where
  core : Nat
  nAT : Nat
  ats : List (Nat × Word)
  recs : List ORec
  tags : List MxTag
  since : Option Nat   -- since when the team has waited with an operation ready (R207)
  deriving DecidableEq, Repr

/-- A key lookup tag (R342): 0 unused, 1 queued, 2 scoring, 3 memory side, 4 complete, 5 stopped. -/
structure KlTag where
  st : Nat
  cmds : Nat        -- commands of the operation not yet complete
  tctr : Option Nat -- physical address of `TCTR`
  deriving DecidableEq, Repr

/-- Where a team is (R309): on its cores, being saved, saved and ready, or held. -/
inductive Loc where | resident | saving (hold : Bool) | saved | held
  deriving DecidableEq, Repr

/-- A node entry of a wheel pool (R247). The teams below `next` have been placed for the first time. -/
structure Node where
  id : Nat
  wheel : Nat
  l : Launch
  ready : Bool
  readyAt : Nat
  next : Nat
  left : Nat
  vats : List (Nat × Nat)   -- gang: (team index div 4, vat) (R255)
  ending : Bool             -- its last team has exited; the completion decrement is due (R250)
  quanta : Nat
  phase : Nat               -- of a `det` node's quantum end (R349): 0 none, 1 after step 1, 2 after step 2, 3 after step 4
  mark : Nat                -- the pushes of step 1 have lower names
  deriving DecidableEq, Repr

/-- Where a command's completion is counted: a team counter, or a key lookup tag (R288, R333). -/
inductive MsDest where
  | counter (c : Nat)
  | kl (tag : Nat)
  deriving DecidableEq, Repr

/-- A command sent and not complete (R288). -/
structure MsCmd where
  id : Nat
  by_ : Issuer
  dest : MsDest
  tctr : Option Nat -- physical address of the task counter
  left : Nat        -- line jobs not yet performed
  core : Nat        -- the core that translated it
  deriving DecidableEq, Repr

/-- A source of an element of a line job: its physical and virtual addresses and its weight (R285, R286); `got` is its value, and whether
it was uncorrectable, where it has been read before the job (R333, R334). -/
structure JobSrc where
  pa : Nat
  va : Nat
  w : Word
  got : Option (Nat × Bool)
  deriving DecidableEq, Repr

/-- One element of a line job: its physical and virtual addresses and its sources (R285, R286). -/
structure JobElem where
  dst : Nat
  va : Nat
  srcs : List JobSrc
  deriving DecidableEq, Repr

/-- A line job waiting at a channel, in arrival order (R281). -/
structure Job where
  chan : Nat
  cmd : Nat
  atom : Bool
  zero : Bool
  sfmt : Bool
  op : Nat
  elems : List JobElem
  deriving DecidableEq, Repr

/-- A command of a key lookup operation that has been served, which waits for room at its channels (R281, R333). -/
structure KlSend where
  id : Nat
  team : TeamId
  tag : Nat
  by_ : Issuer
  core : Nat
  tab1 : Nat
  tab2 : Nat
  spec : MsSpec
  jobs : List (List JobElem)
  deriving DecidableEq, Repr

/-- A command queued on its core and not yet sent (R292): it waits for room in the replay queue, or for an `MSFENCE`.
`inTrap` says that its word issued in trap mode (R299). -/
structure CmdWait where
  id : Nat
  core : Nat
  by_ : Issuer
  inTrap : Bool
  spec : MsSpec
  deriving DecidableEq, Repr

/-- A subscription at its home (R314); `ending` says that its removal has passed there: nothing is pushed any more, and its place is
freed when the end mark lands (R321). -/
structure Sub where
  id : Nat
  pa : Nat
  size : Nat
  team : TeamId
  core : Nat
  off : Nat
  ending : Bool
  deriving DecidableEq, Repr

/-- What travels from a home to a slot (R318, R321, R323). -/
inductive FlightKind where
  | landing (by_ : Issuer) (q : Nat) (n : Nat)   -- `LDSUB`'s value, with the status register pair
  | push
  | endMark
  deriving DecidableEq, Repr

/-- A landing, a push or an end mark in flight, oldest first (R318). -/
structure Flight where
  id : Nat
  team : TeamId
  off : Nat
  value : Reg
  kind : FlightKind
  slice : Nat          -- the L2 slice that sent it (R318)
  write : Nat          -- the name of its write, which the write's other pushes share
  after : List Nat     -- the pushes that came causally before its write (R178)
  deriving DecidableEq, Repr

/-- One faulting element parked in the replay queue (R301). -/
structure ParkElem where
  thread : Nat
  addr : Nat
  data : List Byte
  regs : List Nat      -- destination registers, lowest first
  row : Nat            -- the row a `det` store was given (R346)
  deriving DecidableEq, Repr

/-- What a replay entry holds (R301). -/
inductive ParkKind where
  | load (ty : MemTy)
  | store (prv : Bool)
  | atom (op : AtomOp)
  | cmd (spec : MsSpec) (dest : MsDest)
  deriving DecidableEq, Repr

/-- An entry of a core's replay queue (R301, R308). `go` says that a `REPLAY.go` has selected it and not yet reached it, `sel` that
the latest one has, and `again` that it has faulted again in that replay. -/
structure Park where
  id : Nat
  grp : GrpId
  pc : VAddr
  word : Word
  slot : Nat
  beat : Nat
  kind : ParkKind
  elems : List ParkElem
  load : Nat           -- the load word it belongs to
  hint : Bool
  mask : Mask
  cause : Nat
  addr : Nat
  detail : Nat
  level : Nat
  flags : Nat
  go : Bool := false
  sel : Bool := false
  again : Bool := false
  deriving DecidableEq, Repr

/-- A load word with elements outstanding (R151): the values gathered for a queue destination. -/
structure LoadRec where
  id : Nat
  grp : GrpId
  q : Option Nat
  mask : Mask
  vals : List (Nat × Word)
  left : Nat
  deriving DecidableEq, Repr

/-- What made a range scoreboard entry (R152). -/
inductive RangeOwner where
  | stream (ch : Nat) (dst : Bool)
  | mxA (tag : Nat)
  | mxScale (tag : Nat)
  | drain (tag : Nat)
  | kl (tag : Nat) (out : Bool)
  deriving DecidableEq, Repr

/-- A range scoreboard entry: bytes `lo` to `hi` of the team's window (R152). -/
structure RangeEnt where
  id : Nat
  team : TeamId
  owner : RangeOwner
  lo : Nat
  hi : Nat
  deriving DecidableEq, Repr

/-- A stream of the affine address engine (R258). -/
structure Stream where
  grp : GrpId
  q : Nat
  base : Nat
  scr : Bool
  sgn : Bool
  elog : Nat
  dims : List (Nat × Int)
  tstr : Int
  next : Nat
  total : Nat
  stopped : Bool     -- stopped by a fault (R267)
  by_ : Issuer
  fly : Option (List Word)   -- the values of an iteration whose pushes are in flight (R266)
  stopping : Bool    -- `AAESTOP` has asked for its end (R266)
  deriving DecidableEq, Repr

/-- A team (R247, R253). `win` is its window (R144); `grans` the granules that hold it (R143). -/
structure Team where
  id : TeamId
  core : Nat
  paired : Bool
  space : Nat
  groups : List Group
  win : Memory
  wsize : Nat
  grans : List (Nat × Nat)
  chans : List Chan
  ms : List MsCounter
  colls : List CollSlot
  leases : List Lease
  kl : List KlTag
  trapOnPoison : Bool
  poisonSeen : Bool
  poisonCnt : Nat
  poisonAddr : Option Nat
  winBad : List Nat               -- bytes of the window that are uncorrectable (R363)
  lastCause : Nat
  loc : Loc
  placedAt : Nat
  preempt : Bool                  -- the pool has asked for the team's save (R254)
  saver : Option (Nat × Nat)      -- the group whose `CTXSAVE` is under way, and its Q (R310)
  lost : Bool                     -- it has ended and been reported; its records' writes have still to be performed (R237, R299)
  imported : Bool                 -- its context part was copied here, and it has not been placed yet (R356)
  events : List Nat               -- event words not yet delivered (R357)
  sparks : List Park              -- while saved: its replay entries, load words and streams (R309)
  sloads : List LoadRec
  sstreams : List Stream
  sranges : List (Nat × RangeEnt)   -- and its range scoreboard entries, with the core of the pair
  deriving DecidableEq, Repr

/-- A line of the L1 by its tag: the line's physical number and the granule that holds it (R138). -/
structure L1Line where
  line : Nat
  gran : Nat
  deriving DecidableEq, Repr

/-- A store to a byte of a `SELFINV` line that has not been written back: the store's name, the value, whether it pushes (R76, R317), and
the pushes that came causally before it (R178). -/
structure SelfStore where
  id : Nat
  val : Byte
  push : Bool
  after : List Nat
  deriving DecidableEq, Repr

/-- A byte of a `SELFINV` line held in an L1 (R139, R194): its value, the stores that have made it dirty, oldest first, and whether it is
uncorrectable (R363). -/
structure SelfByte where
  pa : Nat
  val : Byte
  stores : List SelfStore
  bad : Bool
  deriving DecidableEq, Repr

/-- A cached translation entry (R191). -/
structure TlbEnt where
  space : Nat
  level : Nat
  key : Nat
  entry : Nat
  deriving DecidableEq, Repr

/-- A lane's loop buffer (R131). -/
structure LoopBuf where
  lane : Nat
  owner : GrpId
  packets : List Packet
  deriving DecidableEq, Repr

/-- What belongs to one core. A core that the state does not list is as `Core.reset` makes it. Agents beyond the cores
stand for the wheels. -/
structure Core where
  num : Nat
  fairLog : Nat                -- `FAIRNESS.LOG2` (R124)
  scr : BitVec 20              -- `SCRPART.SCR` (R140)
  fail : BitVec 16             -- `PORTSTAT.FAIL0` and `FAIL1` (R17)
  tags : List L1Line           -- most recently used first
  self : List SelfByte
  icache : List (Nat × List Byte)   -- physical line number, its 128 bytes
  tlb : List TlbEnt
  replay : List Park
  loads : List LoadRec
  ranges : List RangeEnt
  streams : List Stream
  loopBufs : List LoopBuf
  holder : Option TeamId       -- the arbiter's holder (R207)
  holdCount : Nat
  withheld : List (Nat × Nat)  -- halves and classes of deferred claimants whose need is withheld from issue (R84)
  ahead : Nat                  -- local cycles that the agent has counted beyond `State.cycle` (R3)
  badSlots : List Nat          -- ports whose last slot was uncorrectable: it poisons the next element of the half that crosses (R16)
  silent : Option (Nat × Nat)  -- the agent leaves a directory request of a wheel's homes unanswered, since when (R199)
  dead : Bool                  -- declared dead (R199, R366)
  deriving DecidableEq, Repr

/-- A half-key table (R328, R340). -/
structure KlTable where
  h : Nat
  node : Nat
  n : Nat
  hd : Nat
  st : Nat          -- 0 free, 1 loading, 2 ready, 3 fault
  gran : Nat
  space : Nat
  src : Nat
  by_ : Issuer
  flt : Option (Nat × Nat × Nat)   -- a fault that its `PKTAB` still has to take: detail, level, address (R340)
  data : List Byte
  bad : List Nat    -- entries that hold an uncorrectable byte (R330)
  deriving DecidableEq, Repr

/-- A queued key lookup operation with its parameter block (R335). `hold` are the replay entries that an `MSFENCE` before
it waits for (R295). -/
structure KlOp where
  id : Nat
  team : TeamId
  tag : Nat
  grad : Bool
  q : Nat
  o : Nat
  tab1 : Nat
  tab2 : Nat
  k : Nat
  wmode : Nat
  zero : Bool
  vfmt : Bool
  tc : Bool
  nogather : Bool
  stride : Nat
  vtab : Nat
  dst : Nat
  len : Nat
  tctr : Nat
  gradv : Nat
  eta : Word
  entries : List Nat
  hold : List Nat
  by_ : Issuer
  deriving DecidableEq, Repr

/-- A shape record in a vat's record cache, most recently used first (R239). -/
structure ShapeEnt where
  space : Nat
  va : Nat
  shape : Shape
  deriving DecidableEq, Repr

/-- A running channel in its vat's ring, with the units left at this visit and its place in the order of becoming running (R238). -/
structure RingEnt where
  team : TeamId
  ch : Nat
  left : Nat
  since : Nat
  deriving DecidableEq, Repr

/-- What belongs to one vat. -/
structure Vat where
  num : Nat
  ring : List RingEnt                -- running channels in ring order, the next one to be served first (R238)
  shapes : List ShapeEnt
  tables : List KlTable
  klq : List KlOp
  sends : List KlSend
  deriving DecidableEq, Repr

/-- What belongs to one wheel. -/
structure Wheel where
  num : Nat
  stale : Nat                  -- `STALE_RESP.COUNT` (R199)
  dqbase : Nat                 -- `DQBASE.BASE` as an address (R259)
  ratio : Nat                  -- `MCLKRATIO` (R296)
  pend : Bool
  eff : Nat
  counters : List Nat          -- system registers 0x40 to 0x4C (R364)
  throtEvents : Nat            -- `THROT` (R367)
  clk25 : Nat
  throtReason : Nat
  poolCount : Nat              -- bits [28:0] of the last instance id given (R247)
  lastDispatch : Option Nat    -- cycle of the pool's last dispatch step (R251)
  deriving DecidableEq, Repr

/-- A tracked directory region (R197): base, size, sharer cores with the line each touched last, last conflict. -/
structure Region where
  base : Nat
  size : Nat
  sharers : List (Nat × Nat)
  conflict : Option Nat
  deriving DecidableEq, Repr

/-- A shootdown (R201): whose word it is, what it removes, and, once it has removed it, the names of what it waits for:
memory-side commands, groups' buffered stores and collectives. -/
structure Shoot where
  grp : GrpId
  mask : Mask
  space : Nat
  size : ShootSize
  va : Nat
  removed : Bool
  cmds : List Nat
  bufs : List GrpId
  colls : List (TeamId × Nat)
  deriving DecidableEq, Repr

/-- A write that its home holds (R203, R318, R352): its bytes in one line, the core that made it, whether it pushes, its attribute (3
for a stack itself), and the pushes that came causally before it (R178). -/
structure HeldWrite where
  cells : List (Nat × Byte)
  core : Option Nat
  push : Bool
  attr : Nat
  after : List Nat
  deriving DecidableEq, Repr

/-- A page migration (R202, R203). `held` are the writes to its pages while they are locked, in order;
`waiters` the groups and masks whose words wait for its switch. -/
structure Migration where
  old : Nat
  new : Nat
  size : Nat
  leafPA : Nat
  leaf : Nat
  switched : Bool
  held : List HeldWrite
  waiters : List (GrpId × Mask)
  deriving DecidableEq, Repr

/-- A registered system code segment (R275); `space` none for the default handler segment. -/
structure Segment where
  space : Option Nat
  body : Nat
  len : Nat
  deriving DecidableEq, Repr

/-- The context of an address space: its capability snapshot (R10, R355). -/
structure Ctx where
  space : Nat
  snap : List Reg
  deriving DecidableEq, Repr

/-- A fabric group of the partition (R359). -/
structure FGroup where
  id : Nat
  ranks : Nat
  me : Nat
  deriving DecidableEq, Repr

/-- A team-loss report (R354). -/
structure Loss where
  team : TeamId
  cause1 : Nat
  cause2 : Nat
  deriving DecidableEq, Repr

/-- `LSTAT` (R355) but for `QUEUED`, which counts `State.hostq`. -/
structure LStat where
  id : Nat
  reason : Nat
  code : Nat
  seq : Nat
  drop : Bool
  deriving DecidableEq, Repr

/-- A public key of Iboukan's store (R369). -/
structure Key where
  id : Nat
  x : Nat
  y : Nat
  deriving DecidableEq, Repr

/-- An event of which Iboukan makes a persistent record (R370). -/
inductive RecEvent where
  | key (id : Nat) (added : Bool)
  | port (core port : Nat)
  | channel (chan : Nat)
  | row (chan row : Nat)
  deriving DecidableEq, Repr

/-- What Iboukan's measurements are of (R369): its image and the root key by their digests, the key store, and the fuses, which give
`CAP0`, `CAP1` and `CAP3` (R368). -/
structure Attest where
  image : Reg
  root : Reg
  keys : List Key
  cap0 : Reg
  cap1 : Reg
  cap3 : Reg
  deriving DecidableEq, Repr

/-- A kept result of a signature check (R274): the object, its space and the key it verified under. -/
structure Verified where
  space : Nat
  code : Nat
  len : Nat
  key : Nat
  digest : Nat
  ok : Bool
  pages : List Nat   -- the 128 KiB frames that hold the object
  deriving DecidableEq, Repr

/-- A back-invalidate snoop of a line, since when the host has not answered it, and the writes that wait for the answer, in
order (R352). -/
structure Snoop where
  line : Nat
  since : Nat
  writes : List HeldWrite
  deriving DecidableEq, Repr

/-! ## The issue in progress and the schedule -/

/-- How a word's meaning is being run: as it issues, as a later examination of its wait, as its time limit expires, or
at the end of a quantum (R159, R349). -/
inductive Mode where | issue | examine | expire | serial
  deriving DecidableEq, Repr

/-- Why a word is not ready: something busy, a register or a fence that waits for a parked element, a store that needs
a 129th row, or a release whose write-backs are on their way (R85, R166, R302, R347). -/
inductive Stall where | busy | parked | rows | flush
  deriving DecidableEq, Repr

/-- The words that act on cached lines, one after the other (R181). -/
inductive Maint where
  | clean | inval | icinv
  deriving DecidableEq, Repr

/-- The word in issue: whose it is, its threads, and what it reads of its packet. `raised` and `stalled` report to
`step` that the word trapped at once or was not ready, and `acted` the lines that maintenance had reached when it trapped (R181).
Of a word that is run again, `wid` names its write to Q, `kept` is what it read at its issue, `watch` what it watches and `last` what its last examination would have reported. -/
structure Issue where
  grp : GrpId
  mask : Mask
  pc : VAddr
  base : VAddr
  next : VAddr
  slot : Nat
  word : Word
  lit : Word
  sys : Bool
  mode : Mode
  raised : Option Trap
  stalled : Option Stall
  acted : List (Maint × Nat × Nat)
  wid : Nat := 0
  kept : Kept := ⟨[], []⟩
  watch : Option Watch := Option.none
  last : Nat := 0
  deriving DecidableEq, Repr

/-- One item of the schedule: what moves next (notes/assumptions/2.md). The schedule stands for everything whose order
the spec leaves open, and for what comes from outside the device. -/
inductive Choice where
  | ev (i : Instr)                        -- an event of the table
  | group (g : GrpId)                     -- this group issues
  | solo (g : GrpId) (t : Nat)            -- this thread issues from its loop buffer (R132)
  | ahead (g : GrpId)                     -- a group's stream fetches one packet ahead (R180)
  | move (t : TeamId) (ch : Nat)          -- a streamer channel moves one unit of its record (R238)
  | chanWait (t : TeamId) (ch : Nat) (on : Bool)   -- a channel starts or ends a wait for a translation or a queue (R238)
  | tick (n : Nat)                        -- local cycles pass
  | drift (agent n : Nat)                 -- local cycles pass at one agent only (R3)
  | aaeRead (g : GrpId) (q : Nat)         -- a stream reads its next iteration, whose pushes are then in flight (R266)
  | both (a b : Choice)                   -- two agents act in one cycle (R157)
  | hostLaunch (v : Reg)                  -- the host writes `LAUNCH` (R355)
  | icDrop (core line : Nat)              -- an instruction cache loses a line
  | poison (pa : Nat)                     -- a byte of memory, or its dirty copy in an L1, becomes uncorrectable (R363)
  | selfPoison (core pa : Nat)            -- a byte of a `SELFINV` line in an L1 becomes uncorrectable (R363)
  | scrPoison (t : TeamId) (off : Nat)    -- a byte of a team's frames becomes uncorrectable (R363)
  | silence (agent wheel : Nat)           -- an agent leaves a directory request of a wheel's homes unanswered (R199)
  | portError (core port : Nat) (fixed : Bool)   -- a slot of a vertical port is in error (R16)
  | corrected (wheel : Nat) (hbm : Bool)  -- a correctable error of SRAM or HBM is corrected (R363)
  | snoop (line : Nat)                    -- a home sends the host a back-invalidate snoop (R352)
  | klPoison (vat h i : Nat)              -- an entry of a half-key table becomes uncorrectable (R330)
  | collWrite (t : TeamId) (slot lo n : Nat) (sends : List (List Byte))   -- a collective writes `RECV` bytes (R361)
  | mxPoison (t : TeamId) (core tag kind row off : Nat)   -- an operand byte of a matrix operation becomes uncorrectable (R217)
  | obldPage (t : TeamId) (core h : Nat)  -- a load of an operand buffer reads one page of its image (R211)
  | pktabPage (vat h : Nat)               -- a load of a half-key table reads one page of its image (R340)
  | hostRead (off : Nat)                  -- the host reads a register of its page (R353)
  | resetBegin                            -- a reset of the partition begins (R368)
  | storeFails (on : Bool)                -- from now on Iboukan cannot, or can, record an event (R370)
  | rootSigned (on : Bool)                -- whether the root key has signed the next command to Iboukan's store (R369, R370)
  deriving DecidableEq, Repr

/-! ## The device -/

/-- The state of the partition. -/
structure State where
  cycle : Nat
  iss : Issue
  sched : List Choice
  fresh : Nat                  -- names given so far to loads, commands, entries, flights and free values
  barOpen : List (TeamId × Nat × Nat)   -- barriers updated in this cycle, as they stand before the examination (R157)
  mem : Memory
  stale : List (Nat × Byte × Nat)    -- `DIR` bytes dirty in a core's L1: address, the byte at home, core
  poisoned : List Nat          -- bytes of memory that are uncorrectable or poisoned at home
  dirtyBad : List Nat          -- bytes of `stale` whose dirty copy is uncorrectable (R363)
  pushq : List HeldWrite       -- writes that wait at their homes for room for their pushes, in order (R318)
  causal : List (Nat × List Nat)   -- bytes of memory with the pushes in flight that came causally before their value (R167)
  slotCausal : List (TeamId × Nat × List Nat)   -- the same of slots, by team and offset (R178, R319)
  teams : List Team
  fixed : List FixedRec        -- the shapes of records that have stopped or been paused (R239)
  cores : List Core
  vats : List Vat
  wheels : List Wheel
  nodes : List Node
  cap0 : Reg
  cap1 : Reg
  cap2 : Reg
  cap3 : Reg
  spcbase : Reg                -- `SPCBASE` (R186)
  contexts : List Ctx
  segments : List Segment      -- the registered set (R275)
  defaultSeg : Option Segment
  regions : List Region
  cmds : List MsCmd
  jobs : List Job
  cmdWaits : List CmdWait
  subs : List Sub
  flights : List Flight
  shoots : List Shoot
  migrations : List Migration
  fgroups : List FGroup
  hostq : List Reg             -- queued `LAUNCH` commands (R355)
  hostDrop : Bool              -- a `LAUNCH` write was dropped since the last completion (R355)
  lstat : LStat
  losses : List Loss           -- team-loss reports (R354)
  lossDrop : Bool
  tdeadb : Reg
  hostRead : Reg               -- the value of the host's last register read
  hostData : List Byte         -- the bytes of the host's last CXL.mem read
  msix : List Nat              -- MSI-X vectors raised, latest first
  fencemap : List Nat          -- fenced HBM channels, stack × 32 + channel (R365)
  hostLines : List Nat         -- lines that the host may hold (R352)
  snoops : List Snoop
  keys : List Key              -- Iboukan's key store, as it is in force (R369)
  keyRecs : List Key           -- persistent records of keys (R370)
  verified : List Verified
  badPorts : List (Nat × Nat)  -- persistent records of failed ports (R370)
  retired : List Nat           -- persistent records of retired channels (R370)
  retiredRows : List (Nat × Nat)  -- persistent records of retired rows, channel and row (R370)
  fenceRecs : List Nat         -- persistent records of fenced channels (R365, R370)
  storeFails : Bool            -- Iboukan cannot record an event (R370)
  rootSigned : Bool            -- the root key has signed the command that comes next to Iboukan's store (R369, R370)
  unrecorded : List RecEvent   -- events reported to the host as not recorded, latest first (R370)
  attested : Option Attest     -- the measurements last reported (R369)
  gone : List Nat              -- channels that the latest bring-up has retired (R368)
  resetting : Bool             -- a reset of the partition is under way (R368)
  portErr : List (Nat × Nat × Nat)  -- uncorrectable counts of ports: core, port, count (R16)
  parts : List Nat             -- the wheel sets the device is divided into (R357)
  powered : Bool
  deriving DecidableEq, Repr

/-- No word is in issue. -/
def Issue.none : Issue :=
  { grp := ⟨⟨0, 0⟩, 0⟩, mask := 0, pc := 0, base := 0, next := 0, slot := 0, word := 0, lit := 0, sys := false,
    mode := .issue, raised := Option.none, stalled := Option.none, acted := [] }

/-- A core after reset: nothing in its caches, all granules in the L1, `FAIRNESS.LOG2` = 8 (R124, R137, R140, R368). -/
def Core.reset (n : Nat) : Core :=
  { num := n, fairLog := 8, scr := 0, fail := 0, tags := [], self := [], icache := [], tlb := [], replay := [],
    loads := [], ranges := [], streams := [], loopBufs := [], holder := none, holdCount := 0, withheld := [],
    ahead := 0, badSlots := [], silent := none, dead := false }

/-- A vat after reset: no channel running, no record cached, key SRAM empty (R368). -/
def Vat.reset (n : Nat) : Vat := { num := n, ring := [], shapes := [], tables := [], klq := [], sends := [] }

/-- A wheel after reset (R199, R247, R259, R296, R364, R367). -/
def Wheel.reset (n : Nat) : Wheel :=
  { num := n, stale := 0, dqbase := 0, ratio := 23, pend := false, eff := 23, counters := List.replicate 13 0,
    throtEvents := 0, clk25 := 90, throtReason := 0, poolCount := 0, lastDispatch := none }

/-- The device right after reset: one partition of six wheels, every register at the value the spec states, nothing
in memory, no context, no node (R11 to R14, R186, R354, R355, R368). The default handler segment is not registered
(notes/assumptions/3.md). -/
def State.reset : State :=
  { cycle := 0, iss := Issue.none, sched := [], fresh := 1, barOpen := [], mem := [], stale := [], poisoned := [],
    dirtyBad := [], pushq := [], causal := [], slotCausal := [], teams := [], fixed := [],
    cores := [], vats := [], wheels := [], nodes := [], cap0 := Config.cap0, cap1 := Config.cap1,
    cap2 := Config.cap2, cap3 := Config.cap3, spcbase := 0, contexts := [], segments := [], defaultSeg := none,
    regions := [], cmds := [], jobs := [], cmdWaits := [], subs := [], flights := [], shoots := [],
    migrations := [], fgroups := [], hostq := [], hostDrop := false,
    lstat := { id := 0, reason := 0, code := 0, seq := 0, drop := false },
    losses := [], lossDrop := false, tdeadb := 0, hostRead := 0, hostData := [], msix := [], fencemap := [],
    hostLines := [], snoops := [], keys := [], keyRecs := [], verified := [], badPorts := [], retired := [], retiredRows := [],
    fenceRecs := [], storeFails := false, rootSigned := false, unrecorded := [], attested := none, gone := [], resetting := false, portErr := [],
    parts := [0x3F], powered := true }

end Sys2Proof.Machine
end

