-- ==== Sys2Proof/Machine/Mem.lean ====
section
/-! DEFINITION. Memory as cells, and the accessors of the parts of the state: teams, groups, cores, vats, wheels. -/

namespace Sys2Proof.Machine

open Sys2Proof

/-! ## Memory -/

/-- What a byte that no entry lists reads as (notes/assumptions/1.md). -/
def unlisted : Byte := 0

/-- The byte at an address. -/
def Memory.read : Memory → Nat → Byte
  | [], _ => unlisted
  | c :: m, a => if c.1 = a then c.2 else Memory.read m a

/-- The memory with one byte written; the canonical form is kept. -/
def Memory.write : Memory → Nat → Byte → Memory
  | [], a, v => if v = unlisted then [] else [(a, v)]
  | c :: m, a, v =>
    if a < c.1 then (if v = unlisted then c :: m else (a, v) :: c :: m)
    else if a = c.1 then (if v = unlisted then m else (a, v) :: m)
    else c :: Memory.write m a v

/-- The canonical form from a lower bound: addresses strictly rising, no entry equal to what is unlisted. -/
def Memory.wfFrom : Nat → Memory → Bool
  | _, [] => true
  | lo, c :: m => decide (lo ≤ c.1) && decide (c.2 ≠ unlisted) && Memory.wfFrom (c.1 + 1) m

/-- The canonical form of a memory. -/
def Memory.wf (m : Memory) : Bool := Memory.wfFrom 0 m

/-- The `n` bytes from an address, lowest first (R1). -/
def Memory.readN (m : Memory) (a : Nat) : Nat → List Byte
  | 0 => []
  | n + 1 => m.read a :: m.readN (a + 1) n

/-- Bytes written from an address up. -/
def Memory.writeN (m : Memory) (a : Nat) : List Byte → Memory
  | [] => m
  | b :: bs => Memory.writeN (m.write a b) (a + 1) bs

/-- Applies an update at one position of a list. -/
def modAt {α : Type} (f : α → α) : Nat → List α → List α
  | _, [] => []
  | 0, x :: l => f x :: l
  | n + 1, x :: l => x :: modAt f n l

/-- A list mapped with the position of each element, counted from `i`. -/
def mapFrom {α β : Type} (f : Nat → α → β) : Nat → List α → List β
  | _, [] => []
  | i, x :: l => f i x :: mapFrom f (i + 1) l

/-- An element put before the first one that must not stand before it. -/
def insBy {α : Type} (before : α → α → Bool) (x : α) : List α → List α
  | [] => [x]
  | y :: l => if before x y then x :: y :: l else y :: insBy before x l

/-- A list put in order, equals as they stood. -/
def sortBy {α : Type} (before : α → α → Bool) (l : List α) : List α := l.foldr (insBy (fun a b => !before b a)) []

/-- The numbers `lo`, `lo + 1`, … of a range, `n` of them. -/
def rangeFrom (lo n : Nat) : List Nat := (List.range n).map (lo + ·)

/-! ## Teams and groups -/

/-- The team of a name. -/
def State.team? (s : State) (id : TeamId) : Option Team := s.teams.find? (fun t => decide (t.id = id))

/-- An update of one team. -/
def State.modTeam (s : State) (id : TeamId) (f : Team → Team) : State :=
  { s with teams := s.teams.map (fun t => if t.id = id then f t else t) }

/-- An update of one group of a team. -/
def Team.modGroup (t : Team) (n : Nat) (f : Group → Group) : Team := { t with groups := modAt f n t.groups }

/-- The group of a name. -/
def State.grp? (s : State) (g : GrpId) : Option Group := (s.team? g.team).bind (fun t => t.groups[g.grp]?)

/-- An update of one group. -/
def State.modGrp (s : State) (g : GrpId) (f : Group → Group) : State :=
  s.modTeam g.team (fun t => t.modGroup g.grp f)

/-- An update of every group of every team. -/
def State.modGroups (s : State) (f : Group → Group) : State :=
  { s with teams := s.teams.map (fun t => { t with groups := t.groups.map f }) }

/-- The names of the groups of a team. -/
def Team.grpIds (t : Team) : List GrpId := (List.range t.groups.length).map (fun n => ⟨t.id, n⟩)

/-- The node of an instance id (R247). -/
def State.node? (s : State) (id : Nat) : Option Node := s.nodes.find? (fun n => n.id == id)

/-- An update of one node. -/
def State.modNode (s : State) (id : Nat) (f : Node → Node) : State :=
  { s with nodes := s.nodes.map (fun n => if n.id = id then f n else n) }

/-- The launch record of a team's node. -/
def State.launch? (s : State) (id : TeamId) : Option Launch := (s.node? id.node).map (·.l)

/-- Whether a team belongs to a `det` node (R345). -/
def State.isDet (s : State) (id : TeamId) : Bool := ((s.launch? id).map (·.det)).getD false

/-! ## Cores, vats, wheels -/

/-- The wheel of a core (R8); the pool of wheel w walks as agent `Config.cores + w`, which caches nothing. -/
def wheelOf (core : Nat) : Nat := if core < Config.cores then core / 64 else core - Config.cores
/-- The vat of a core (R8). -/
def vatOf (core : Nat) : Nat := core / 4

/-- The core of a number. -/
def State.core (s : State) (n : Nat) : Core := (s.cores.find? (fun c => c.num == n)).getD (Core.reset n)

/-- A core put back in its place, cores in rising order of number. -/
def insCore (c : Core) : List Core → List Core
  | [] => [c]
  | d :: l => if c.num < d.num then c :: d :: l else if c.num = d.num then c :: l else d :: insCore c l

/-- The state with a core replaced. -/
def State.setCore (s : State) (c : Core) : State := { s with cores := insCore c s.cores }

/-- An update of one core. -/
def State.modCore (s : State) (n : Nat) (f : Core → Core) : State := s.setCore { (f (s.core n)) with num := n }

/-- A deferred claimant of a half, by its class, has had its need met: nothing is withheld for it any more (R84). The classes are 0 load
data for queues, 1 the affine address engine, 2 the A stream, 3 drains. -/
def State.served (s : State) (core half cls : Nat) : State :=
  if (s.core core).withheld.contains (half, cls) then
    s.modCore core (fun c => { c with withheld := c.withheld.filter (fun h => h != (half, cls)) })
  else s

/-- The local cycles an agent has counted: a core by its number, the agents of wheel w as `Config.cores + w` (R3, R136,
notes/assumptions/11.md). -/
def State.now (s : State) (agent : Nat) : Nat := s.cycle + (s.core agent).ahead

/-- The agent that stands for a wheel's homes and pool. -/
def wheelAgent (w : Nat) : Nat := Config.cores + w

/-- The vat of a number. -/
def State.vat (s : State) (n : Nat) : Vat := (s.vats.find? (fun v => v.num == n)).getD (Vat.reset n)

/-- A vat put back in its place. -/
def insVat (v : Vat) : List Vat → List Vat
  | [] => [v]
  | d :: l => if v.num < d.num then v :: d :: l else if v.num = d.num then v :: l else d :: insVat v l

/-- An update of one vat. -/
def State.modVat (s : State) (n : Nat) (f : Vat → Vat) : State :=
  { s with vats := insVat { (f (s.vat n)) with num := n } s.vats }

/-- The wheel of a number. -/
def State.wheel (s : State) (n : Nat) : Wheel := (s.wheels.find? (fun w => w.num == n)).getD (Wheel.reset n)

/-- A wheel put back in its place. -/
def insWheel (w : Wheel) : List Wheel → List Wheel
  | [] => [w]
  | d :: l => if w.num < d.num then w :: d :: l else if w.num = d.num then w :: l else d :: insWheel w l

/-- An update of one wheel. -/
def State.modWheel (s : State) (n : Nat) (f : Wheel → Wheel) : State :=
  { s with wheels := insWheel { (f (s.wheel n)) with num := n } s.wheels }

/-- The largest value of a 48-bit count (R199, R364). -/
def max48 : Nat := 2 ^ 48 - 1

/-- Raises the counter of a system register number 0x40 to 0x4C of a wheel (R364). -/
def State.count (s : State) (w reg n : Nat) : State :=
  s.modWheel w (fun x => { x with counters := modAt (fun c => min max48 (c + n)) (reg - 0x40) x.counters })

/-- `CAP2.STACKS` (R13). -/
def State.hasStack (s : State) (k : Nat) : Bool := s.cap2.getLsbD (24 + k) && decide (k < 12)
/-- `CAP2.WHEELS` (R13). -/
def State.hasWheel (s : State) (w : Nat) : Bool := s.cap2.getLsbD (18 + w) && decide (w < 6)
/-- The wheels of the partition, lowest first. -/
def State.wheelList (s : State) : List Nat := (List.range 6).filter s.hasWheel

/-- A core with at least one failed port in exactly one half (R15). -/
def Core.halfWidth (c : Core) : Bool := decide (c.fail.toNat % 256 ≠ 0) != decide (c.fail.toNat / 256 ≠ 0)
/-- A core with a failed port in each half is disabled (R15). -/
def Core.disabled (c : Core) : Bool := decide (c.fail.toNat % 256 ≠ 0) && decide (c.fail.toNat / 256 ≠ 0)
/-- The half removed from service (R17). -/
def Core.deadHalf (c : Core) : Nat := if c.fail.toNat % 256 ≠ 0 then 0 else 1
/-- The pipes that groups are bound to (R9, R18). -/
def Core.pipes (c : Core) : List Nat :=
  if c.halfWidth then (if c.deadHalf = 0 then [2, 3] else [0, 1]) else [0, 1, 2, 3]

/-- A fresh name. -/
def State.tick (s : State) : State := { s with fresh := s.fresh + 1 }

/-! ## Masks -/

/-- Whether a thread is in a mask. -/
def Mask.has (m : Mask) (t : Nat) : Bool := m.getLsbD t
/-- The threads of a mask below a width, lowest first. -/
def Mask.list (m : Mask) (w : Nat) : List Nat := (List.range w).filter m.getLsbD
/-- The mask of a list of threads. -/
def maskOf (l : List Nat) : Mask := l.foldl (fun m t => m ||| BitVec.twoPow 64 t) 0
/-- The lowest-numbered thread of a mask. -/
def Mask.lo (m : Mask) (w : Nat) : Nat := (Mask.list m w).headD 0

/-- A thread that is not there. -/
def Thread.gone : Thread :=
  { v := [], p := 0, lat := [], pc := 0, st := .exited, pend := [], run := 0, pkt := none, copy := none,
    moved := false, alone := false, lead := 0, stopped := false, retired := 0 }

/-- Able to execute at its PC (R120); a thread that has ended its quantum is not (R347). -/
def Thread.runnable (t : Thread) : Bool := t.st == .runnable && !t.stopped

/-- The threads of a group that satisfy a condition. -/
def Group.maskBy (g : Group) (f : Thread → Bool) : Mask :=
  maskOf ((mapFrom (fun i x => (i, f x)) 0 g.threads).filterMap (fun x => if x.2 then some x.1 else none))

/-- Updates the threads of a mask. -/
def Group.onThreads (g : Group) (m : Mask) (f : Nat → Thread → Thread) : Group :=
  { g with threads := mapFrom (fun i x => if m.getLsbD i then f i x else x) 0 g.threads }

/-- The registers each thread of a group has, the allotment of R66. -/
def Group.alloc (g : Group) : Nat := (g.threads.headD Thread.gone).v.length

end Sys2Proof.Machine
end

