-- ==== Sys2Proof/Machine/Boot.lean ====
section
/-! DEFINITION. A program brought in from outside: one instruction word placed where the next step fetches it. -/

namespace Sys2Proof.Machine

open Sys2Proof

/-- Where the placed packet stands. -/
def bootCode : Nat := 0x10_0000
/-- The save area of the placed team. -/
def bootSave : Nat := 0x100_0000

/-- The launch record of the placed node: one LR2 team of one group of 16 threads with 96 vector registers. -/
def bootLaunch : Launch :=
  { lr2 := true, gang := false, nofair := false, det := false, fullw := false, paired := false, trapOnPoison := false,
    teams := 1, body := bootCode, blen := 16, args := 0, savestr := 256, privw := 0, space := 0, save := bootSave,
    dep := none, done := none, prio := 0, lease := 1, weight := 1, trapSeg := none, vregs := 96, width := 16, groups := 1,
    window := 16384 }

/-- A thread as a group starts (R66, R69). -/
def Thread.fresh (alloc : Nat) (pc : VAddr) : Thread :=
  { v := List.replicate alloc 0, p := 1, lat := List.replicate 4 ⟨0, false⟩, pc := pc, st := .runnable, pend := [],
    run := 0, pkt := none, copy := none, moved := false, alone := false, lead := pc, stopped := false, retired := 0 }

/-- A queue as a group starts: kind 0 and empty (R256). -/
def Queue.fresh (width : Nat) : Queue := ⟨.self, 0, 0, List.replicate (width / 16) []⟩

/-- A group as it starts at a PC, with s1 to s6 (R69, R253). -/
def Group.fresh (core pipe width alloc : Nat) (pc : VAddr) (s16 : List Reg) (cycle : Nat) : Group :=
  { core := core, pipe := pipe, width := width, threads := List.replicate width (Thread.fresh alloc pc),
    s := (0 :: s16) ++ List.replicate (63 - s16.length) 0, q := List.replicate 8 (Queue.fresh width), joins := [],
    cur := some pc, paths := [], packet := none, stream := [], expect := pc, lastMask := 0,
    trapMask := none, trapCause := 0, traps := [], waits := [], spend := [],
    hold := { parked := [], st := [], rel := [], acq := [], pushes := [], ms := [], send := [], home := false }, yielded := false, lastIssue := cycle, diverged := false,
    buf := [], serial := [], seen := [], after := [], spawns := [], msends := [], blocks := [] }

/-- A channel as a team starts. -/
def Chan.fresh : Chan := ⟨0, 0, 0, 0, false, false, none, none, 0⟩
/-- A collective slot as a team starts. -/
def CollSlot.fresh : CollSlot :=
  { st := 0, send := [], recv := [], done := none, count := 0, group := 0, op := 0, dtype := 0, rop := 0, root := 0,
    ranks := 0, me := 0, by_ := ⟨⟨0, 0⟩, 0, 0, 3, 0, 0⟩, result := none }

/-- A team as it starts, its window reading zero (R142, R253). -/
def Team.fresh (id : TeamId) (core : Nat) (paired : Bool) (space : Nat) (groups : List Group) (wsize : Nat)
    (grans : List (Nat × Nat)) (poison : Bool) (cycle : Nat) : Team :=
  { id := id, core := core, paired := paired, space := space, groups := groups, win := [], wsize := wsize,
    grans := grans, chans := List.replicate 4 Chan.fresh, ms := List.replicate 4 ⟨0, 0⟩,
    colls := List.replicate 4 CollSlot.fresh, leases := [], kl := List.replicate 4 ⟨0, 0, none⟩, trapOnPoison := poison,
    poisonSeen := false, poisonCnt := 0, poisonAddr := none, winBad := [], lastCause := 0, loc := .resident, placedAt := cycle,
    preempt := false, saver := none, lost := false, imported := false, events := [], sparks := [], sloads := [], sstreams := [], sranges := [] }

/-- The state with an instruction word of `nbits` bits placed for the next step: translation tables that map the first
256 MiB to themselves, a packet of the word and two `NOP`s, and one team of one group at it. -/
def State.loadWord (s : State) (_nbits w : Nat) : State :=
  let mem := s.mem.writeN 0x1_0000 (leBytes 8 0x2_0001)
  let mem := Memory.writeN mem 0x2_0000 (leBytes 8 0x4_0001)
  let mem := Memory.writeN mem 0x4_0000 (leBytes 8 0x63)
  let mem := Memory.writeN mem bootCode (leBytes 16 (w % 2 ^ 32))
  let id : TeamId := ⟨1, 0⟩
  let g := Group.fresh 0 0 16 96 (BitVec.ofNat 56 bootCode) [0, 1, 0, 0, 16384, 0] s.cycle
  let n : Node :=
    { id := 1, wheel := 0, l := bootLaunch, ready := true, readyAt := s.cycle, next := 1, left := 1, vats := [],
      ending := false, quanta := 0, phase := 0, mark := 0 }
  let t := Team.fresh id 0 false 0 [g] 16384 [(0, 19)] false s.cycle
  { s with
    spcbase := 0x1_0001
    mem := mem
    contexts := [⟨0, [s.cap0, s.cap1, s.cap2, s.cap3]⟩]
    nodes := [n]
    teams := [t]
    cores := insCore { (s.core 0) with scr := 0x8_0000 } s.cores
    sched := .group ⟨id, 0⟩ :: s.sched }

end Sys2Proof.Machine
end

