-- ==== Sys2Proof/Machine/Float.lean ====
section
/-! DEFINITION. Number formats, rounding and exact arithmetic (R88, R105 to R112, R119). Every operation is computed
exactly on dyadic numbers and narrowed once. -/

namespace Sys2Proof.Machine

open Sys2Proof

/-- A floating format (R105): `m` significand bits, the bias, the pattern of the largest finite magnitude, the
magnitude of infinity where there is one, and the default NaN (R106). -/
structure Fmt where
  width : Nat
  m : Nat
  bias : Nat
  maxMag : Nat
  infMag : Option Nat
  nan : Nat

/-- FP32 (R105). -/
def f32 : Fmt := ⟨32, 23, 127, 0x7F7F_FFFF, some 0x7F80_0000, 0x7FC0_0000⟩
/-- FP16 (R105). -/
def f16fmt : Fmt := ⟨16, 10, 15, 0x7BFF, some 0x7C00, 0x7E00⟩
/-- BF16 (R105). -/
def bf16 : Fmt := ⟨16, 7, 127, 0x7F7F, some 0x7F80, 0x7FC0⟩
/-- FP8 E4M3 (R105). -/
def e4m3 : Fmt := ⟨8, 3, 7, 0x7E, none, 0x7F⟩
/-- FP8 E5M2 (R105). -/
def e5m2 : Fmt := ⟨8, 2, 15, 0x7B, some 0x7C, 0x7E⟩
/-- FP4 E2M1 (R105): neither infinity nor NaN; a NaN becomes 0x0 (R119). -/
def e2m1 : Fmt := ⟨4, 1, 1, 0x7, none, 0x0⟩

/-- A value: a NaN, an infinity, or the exact dyadic number (−1)^neg × m × 2^e. -/
inductive Val where
  | nan
  | inf (neg : Bool)
  | fin (neg : Bool) (m : Nat) (e : Int)
  deriving DecidableEq, Repr

/-- The exponent of the least significant bit of the subnormal grid (R105). -/
def Fmt.qmin (f : Fmt) : Int := 1 - (f.bias : Int) - (f.m : Int)

/-- The sign bit of a pattern. -/
def Fmt.neg (f : Fmt) (x : Nat) : Bool := x / 2 ^ (f.width - 1) % 2 == 1

/-- The pattern without its sign. -/
def Fmt.mag (f : Fmt) (x : Nat) : Nat := x % 2 ^ (f.width - 1)

/-- A pattern that encodes a NaN (R105). -/
def Fmt.isNan (f : Fmt) (x : Nat) : Bool :=
  match f.infMag with
  | some i => i < f.mag x
  | none => f.maxMag < f.mag x

/-- A pattern that encodes ±0. -/
def Fmt.isZero (f : Fmt) (x : Nat) : Bool := f.mag x == 0

/-- A pattern that encodes ±∞. -/
def Fmt.isInf (f : Fmt) (x : Nat) : Bool := f.infMag == some (f.mag x)

/-- `val_fmt` (R110). -/
def Fmt.val (f : Fmt) (x : Nat) : Val :=
  if f.isNan x then .nan
  else if f.isInf x then .inf (f.neg x)
  else
    let e := f.mag x / 2 ^ f.m
    let s := f.mag x % 2 ^ f.m
    if e = 0 then .fin (f.neg x) s f.qmin
    else .fin (f.neg x) (2 ^ f.m + s) (f.qmin + (e : Int) - 1)

/-- The pattern of a magnitude with a sign. -/
def Fmt.signed (f : Fmt) (neg : Bool) (mag : Nat) : Nat := (if neg then 2 ^ (f.width - 1) else 0) + mag

/-- The outcome of an overflow (R111). -/
def Fmt.overflow (f : Fmt) (md : Rnd) (neg : Bool) : Nat :=
  let max := f.signed neg f.maxMag
  let top :=
    match f.infMag with
    | some i => f.signed neg i
    | none => if f.width = 8 then f.signed neg f.nan else max   -- E4M3: NaN with the sign of x; E2M1: ±6
  match md with
  | .rn => top
  | .rz | .rns => max
  | .ru => if neg then max else top
  | .rd => if neg then top else max

/-- Whether rounding goes away from zero (R109): `r` is the truncated magnitude and `rem` the remainder of `2^sh`. -/
def roundsUp (md : Rnd) (neg : Bool) (r rem sh : Nat) : Bool :=
  match md with
  | .rz => false
  | .ru => !neg && rem != 0
  | .rd => neg && rem != 0
  | .rn | .rns => 2 ^ sh < 2 * rem || (2 * rem == 2 ^ sh && r % 2 == 1)

/-- `round_fmt` of the exact nonzero number (−1)^neg × m × 2^e (R109, R111). -/
def Fmt.roundMag (f : Fmt) (md : Rnd) (neg : Bool) (m : Nat) (e : Int) : Nat :=
  let q := max ((Nat.log2 m : Int) + e - (f.m : Int)) f.qmin
  let r :=
    if q ≤ e then m * 2 ^ (e - q).toNat
    else
      let sh := (q - e).toNat
      m / 2 ^ sh + (if roundsUp md neg (m / 2 ^ sh) (m % 2 ^ sh) sh then 1 else 0)
  let mag := r + (q - f.qmin).toNat * 2 ^ f.m
  if f.maxMag < mag then f.overflow md neg else f.signed neg mag

/-- `round_fmt(x, mode)` of a value; ±∞ goes through the overflow outcome (R110). -/
def Fmt.round (f : Fmt) (md : Rnd) : Val → Nat
  | .nan => f.nan
  | .inf neg => f.overflow md neg
  | .fin neg m e => if m = 0 then f.signed neg 0 else f.roundMag md neg m e

/-- The signed integer of a dyadic number at exponent `q ≤ e`. -/
def alignInt (neg : Bool) (m : Nat) (e q : Int) : Int :=
  let a : Int := (m : Int) * (2 ^ (e - q).toNat : Nat)
  if neg then -a else a

/-- The exact sum (R88, R90): (+∞) + (−∞) is a NaN, and an exact zero is −0 only when both terms are −0. -/
def Val.add : Val → Val → Val
  | .nan, _ | _, .nan => .nan
  | .inf a, .inf b => if a = b then .inf a else .nan
  | .inf a, .fin .. => .inf a
  | .fin .., .inf b => .inf b
  | .fin n1 m1 e1, .fin n2 m2 e2 =>
    let q := min e1 e2
    let s := alignInt n1 m1 e1 q + alignInt n2 m2 e2 q
    if s = 0 then .fin (n1 && n2 && m1 == 0 && m2 == 0) 0 q else .fin (s < 0) s.natAbs q

/-- The negation. -/
def Val.neg : Val → Val
  | .nan => .nan
  | .inf a => .inf (!a)
  | .fin n m e => .fin (!n) m e

/-- The exact product (R91): 0 × ∞ is a NaN. -/
def Val.mul : Val → Val → Val
  | .nan, _ | _, .nan => .nan
  | .inf a, .inf b => .inf (a != b)
  | .inf a, .fin n m _ => if m = 0 then .nan else .inf (a != n)
  | .fin n m _, .inf b => if m = 0 then .nan else .inf (n != b)
  | .fin n1 m1 e1, .fin n2 m2 e2 => .fin (n1 != n2) (m1 * m2) (e1 + e2)

/-- A truncated quantity with its inexactness kept as an odd last bit, which no rounding of a shorter format loses. -/
def jam (neg : Bool) (r : Nat) (inexact : Bool) (e : Int) : Val := .fin neg (2 * r + (if inexact then 1 else 0)) (e - 1)

/-- The quotient, exact or jammed beyond every format's precision (R100). -/
def Val.div : Val → Val → Val
  | .nan, _ | _, .nan => .nan
  | .inf _, .inf _ => .nan
  | .inf a, .fin n _ _ => .inf (a != n)
  | .fin n _ e, .inf b => .fin (n != b) 0 e
  | .fin n1 m1 e1, .fin n2 m2 e2 =>
    if m2 = 0 then (if m1 = 0 then .nan else .inf (n1 != n2))
    else
      let s := 300 + Nat.log2 m2
      let x := m1 * 2 ^ s
      jam (n1 != n2) (x / m2) (x % m2 != 0) (e1 - e2 - (s : Int))

/-- The integer square root, bit by bit from bit `k`. -/
def isqrt (n k : Nat) : Nat :=
  (List.range (k + 1)).reverse.foldl (fun r i => if (r + 2 ^ i) * (r + 2 ^ i) ≤ n then r + 2 ^ i else r) 0

/-- √a (R101): −0 gives −0, a negative number a NaN. -/
def Val.sqrt : Val → Val
  | .nan => .nan
  | .inf neg => if neg then .nan else .inf false
  | .fin neg m e =>
    if m = 0 then .fin neg 0 e
    else if neg then .nan
    else
      let (m, e) := if e % 2 = 0 then (m, e) else (2 * m, e - 1)
      let n := m * 2 ^ 128
      let r := isqrt n 96
      jam false r (r * r != n) (e / 2 - 64)

/-- 1 ÷ √a (R101). -/
def Val.rsqrt : Val → Val
  | .nan => .nan
  | .inf neg => if neg then .nan else .fin false 0 0
  | .fin neg m e =>
    if m = 0 then .inf neg
    else if neg then .nan
    else
      let (m, e) := if e % 2 = 0 then (m, e) else (2 * m, e - 1)
      let r := isqrt (2 ^ 192 / m) 96
      jam false r (r * r * m != 2 ^ 192) (-(e / 2) - 96)

/-- The fraction bits of the fixed-point series below. -/
def seriesBits : Nat := 192

/-- ⌊ln 2 × 2^192⌋. -/
def ln2Fix : Nat := 0xb17217f7d1cf79abc9e3b39803f2f6af40f343267298b62d

/-- exp of the fixed-point number `t` < 2^192, by its power series. -/
def expFix (t : Nat) : Nat :=
  let r := (List.range 64).foldl
    (fun (acc : Nat × Nat) k => let term := acc.2 * t / (2 ^ seriesBits * (k + 1)); (acc.1 + term, term))
    (2 ^ seriesBits, 2 ^ seriesBits)
  r.1

/-- 2^a (R101). A non-integral dyadic power of 2 is irrational, so the jammed series decides every rounding. -/
def Val.exp2 : Val → Val
  | .nan => .nan
  | .inf neg => if neg then .fin false 0 0 else .inf false
  | .fin neg m e =>
    let x := alignInt neg m e (min e 0)       -- a × 2^(−min e 0)
    let k := (-(min e 0)).toNat
    let n := x / (2 ^ k : Nat)                -- floor
    let f := (x % (2 ^ k : Nat)).toNat
    if 1000 < n then .fin false 1 1000
    else if n < -1000 then .fin false 1 (-1000)
    else if f = 0 then .fin false 1 n
    else
      let t := f * 2 ^ seriesBits / 2 ^ k     -- k ≤ 149, so this is exact
      jam false (expFix (t * ln2Fix / 2 ^ seriesBits)) true (n - (seriesBits : Int))

/-- log2 of y = `y` ÷ 2^192 in [1, 2), by the series of 2 atanh((y − 1) ÷ (y + 1)) ÷ ln 2. -/
def log2Fix (y : Nat) : Nat :=
  let one := 2 ^ seriesBits
  let z := (y - one) * one / (y + one)
  let zz := z * z / one
  let r := (List.range 70).foldl
    (fun (acc : Nat × Nat) k => (acc.1 + acc.2 / (2 * k + 1), acc.2 * zz / one)) (0, z)
  2 * r.1 * one / ln2Fix

/-- log2 a (R101). -/
def Val.log2 : Val → Val
  | .nan => .nan
  | .inf neg => if neg then .nan else .inf false
  | .fin neg m e =>
    if m = 0 then .inf true
    else if neg then .nan
    else
      let b := Nat.log2 m
      let E := e + (b : Int)
      if m = 2 ^ b then .fin (E < 0) E.natAbs 0
      else
        let t : Int := E * (2 ^ seriesBits : Nat) + (log2Fix (m * 2 ^ seriesBits / 2 ^ b) : Int)
        jam (t < 0) t.natAbs true (-(seriesBits : Int))

/-- The order of two non-NaN patterns of a format, +0 and −0 equal (R96). -/
def Fmt.key (f : Fmt) (x : Nat) : Int := if f.neg x then -(f.mag x : Int) else (f.mag x : Int)

/-- minimumNumber and maximumNumber (R93): NaNs ignored, −0 below +0. -/
def Fmt.minMax (f : Fmt) (isMax : Bool) (a b : Nat) : Nat :=
  if f.isNan a then (if f.isNan b then f.nan else b)
  else if f.isNan b then a
  else
    let less := f.key a < f.key b || (f.key a == f.key b && f.neg a && !f.neg b)
    if less != isMax then a else b

/-- `round_fmt(a + b)`. -/
def Fmt.add (f : Fmt) (a b : Nat) : Nat := f.round .rn ((f.val a).add (f.val b))
/-- `round_fmt(a − b)`. -/
def Fmt.sub (f : Fmt) (a b : Nat) : Nat := f.round .rn ((f.val a).add (f.val b).neg)
/-- `round_fmt(a × b)`. -/
def Fmt.mul (f : Fmt) (a b : Nat) : Nat := f.round .rn ((f.val a).mul (f.val b))
/-- `round_fmt(d + a × b)`, one rounding (R92). -/
def Fmt.fma (f : Fmt) (d a b : Nat) : Nat := f.round .rn (((f.val a).mul (f.val b)).add (f.val d))
/-- `round_fmt(d − a × b)`, one rounding (R92). -/
def Fmt.fnma (f : Fmt) (d a b : Nat) : Nat := f.round .rn (((f.val a).mul (f.val b)).neg.add (f.val d))
/-- `round_fmt(a ÷ b)`. -/
def Fmt.div (f : Fmt) (a b : Nat) : Nat := f.round .rn ((f.val a).div (f.val b))

/-- A leaf of a dot product, as an FP32 pattern (R112). -/
def leaf (fa fb : Fmt) (a b : Nat) : Nat :=
  if fb.isZero b then 0
  else
    let x := f32.round .rn ((fa.val a).mul (fb.val b))
    if f32.isZero x then 0 else x

/-- One level of a summation tree: neighbours added (R103, R113). -/
def pairUp (add : Nat → Nat → Nat) : List Nat → List Nat
  | a :: b :: r => add a b :: pairUp add r
  | r => r

/-- A summation tree of `levels` levels. -/
def treeSum (add : Nat → Nat → Nat) : Nat → List Nat → Nat
  | 0, l => l.headD 0
  | k + 1, l => treeSum add k (pairUp add l)

/-- `round_to_integer(v, mode)` of a finite number (R119). -/
def roundInt (md : Rnd) (neg : Bool) (m : Nat) (e : Int) : Int :=
  let r :=
    if 0 ≤ e then m * 2 ^ e.toNat
    else
      let sh := (-e).toNat
      m / 2 ^ sh + (if roundsUp md neg (m / 2 ^ sh) (m % 2 ^ sh) sh then 1 else 0)
  if neg then -(r : Int) else (r : Int)

/-- Float to integer, saturating to lo … hi; a NaN gives 0 (R119). -/
def toIntSat (md : Rnd) (lo hi : Int) : Val → Int
  | .nan => 0
  | .inf neg => if neg then lo else hi
  | .fin neg m e => if e > 100 && m != 0 then (if neg then lo else hi) else max lo (min hi (roundInt md neg m e))

/-- An integer as a value; zero is +0. -/
def Val.ofInt (x : Int) : Val := .fin (x < 0) x.natAbs 0

/-- ⌊log2 |v|⌋, or ⌈log2 |v|⌉ under `.ru`, as an E8M0 scale (R107, R119). -/
def toE8M0 (md : Rnd) : Val → Nat
  | .nan | .inf _ => 0xFF
  | .fin _ m e =>
    if m = 0 then 0
    else
      let b := Nat.log2 m
      let up : Int := if md = .ru && m != 2 ^ b then 1 else 0
      (max 0 (min 254 (127 + e + (b : Int) + up))).toNat

/-- The value of an E8M0 scale (R107). -/
def valE8M0 (x : Nat) : Val := if x = 0xFF then .nan else .fin false 1 ((x : Int) - 127)

/-- `cvt_fmt` from a value: a NaN gives the default NaN, 0x0 in E2M1 (R110, R119). -/
def Fmt.cvt (f : Fmt) (md : Rnd) (v : Val) : Nat := f.round md v

/-- The natural exponential of an exact number ≤ 0 as a series value and a binary exponent: the number is
`1st ÷ 2^192 × 2^2nd` (R332, `SME`). -/
def expNeg : Val → Nat × Int
  | .fin neg m e =>
    if m = 0 then (2 ^ seriesBits, 0)
    else if 16 < (Nat.log2 m : Int) + e then (0, 0)    -- below exp(−2^16): no part of an FP32 quotient
    else
      let t : Int := alignInt neg (if 0 ≤ e + seriesBits then m * 2 ^ (e + seriesBits).toNat else m / 2 ^ (-(e + seriesBits)).toNat) 0 0
      let n := t / (ln2Fix : Int)
      (expFix (t - n * (ln2Fix : Int)).toNat, n)
  | _ => (0, 0)

end Sys2Proof.Machine
end

