-- ==== Sys2Proof/Machine/Home.lean ====
section
/-! DEFINITION. Homes of lines, first-level caches, poison, and the pushes of writes to subscribed bytes (R137 to R139,
R162, R166, R193, R194, R203, R316, R317, R363, R365). A physical address is a number below 2^52. -/

namespace Sys2Proof.Machine

open Sys2Proof

/-- The 128-byte line of a physical address (R162). -/
def lineOf (pa : Nat) : Nat := pa / 128

/-- The end of HBM's physical range (R193). -/
def hbmTop : Nat := 0xC0_0000_0000
/-- The start of host memory's physical range (R193). -/
def hostBase : Nat := 2 ^ 51

/-- The stack of an HBM address (R193). -/
def stackOf (pa : Nat) : Nat := pa / 2 ^ 36
/-- Stack × 32 + channel of an HBM address (R193, R365). -/
def chanOf (pa : Nat) : Nat := stackOf pa * 32 + Nat.xor (fld pa 7 5) (fld pa 16 5)
/-- The hash of R193. -/
def sliceHash (pa : Nat) : Nat := Nat.xor (Nat.xor (fld pa 7 4) (fld pa 11 4)) (Nat.xor (fld pa 15 4) (fld pa 19 4))

/-- The wheel of the home of a physical address (R193). -/
def State.homeWheel (s : State) (pa : Nat) : Nat :=
  if pa < hbmTop then stackOf pa / 2
  else (s.wheelList)[fld pa 7 44 % max 1 s.wheelList.length]?.getD 0

/-- The L2 slice of a physical address (R193). -/
def State.sliceOf (s : State) (pa : Nat) : Nat := 16 * s.homeWheel pa + sliceHash pa

/-- Whether a physical page is absent (R193). -/
def State.absent (s : State) (pa : Nat) : Bool :=
  if pa < hbmTop then !s.hasStack (stackOf pa) else decide (pa < hostBase)

/-- The physical address that accesses to `pa` reach: a migrated page forwards to its new page (R203). -/
def State.fwd (s : State) (pa : Nat) : Nat :=
  match s.migrations.find? (fun m => m.switched && decide (m.old ≤ pa) && decide (pa < m.old + m.size)) with
  | some m => m.new + (pa - m.old)
  | none => pa

/-- A line of an old page locked by a migration that has not switched (R203). -/
def State.lockedOld (s : State) (pa : Nat) : Bool :=
  s.migrations.any (fun m => !m.switched && decide (m.old ≤ pa) && decide (pa < m.old + m.size))

/-- A line of a new page locked by a migration that has not switched: accesses by other agents are held (R203). -/
def State.lockedNew (s : State) (pa : Nat) : Bool :=
  s.migrations.any (fun m => !m.switched && decide (m.new ≤ pa) && decide (pa < m.new + m.size))

/-- A line of a region that an agent shares which leaves its homes' requests unanswered: accesses to it wait (R199). -/
def State.mute (s : State) (pa : Nat) : Bool :=
  s.cores.any (fun c => c.silent.isSome && s.regions.any (fun r =>
    decide (r.base ≤ s.fwd pa) && decide (s.fwd pa < r.base + r.size) && r.sharers.any (fun x =>
      x.1 == c.num || (decide (Config.cores ≤ c.num) && wheelOf x.1 == wheelOf c.num))))

/-- A line whose home serves no access for now: a new page locked for others, or a directory request unanswered (R199, R203). -/
def State.lineHeld (s : State) (pa : Nat) : Bool := s.lockedNew pa || s.mute pa

/-- A line with a write that waits at its home for room for its pushes (R318). -/
def State.pushHeldLine (s : State) (line : Nat) : Bool :=
  s.pushq.any (fun h => h.cells.any (fun c => lineOf (s.fwd c.1) == line))

/-- A line that the host may hold: no write to it is performed before the host has answered a snoop (R352). -/
def State.hostHeld (s : State) (pa : Nat) : Bool := s.hostLines.contains (lineOf (s.fwd pa))

/-- A byte whose home holds writes, for a migration, for the host or for pushes (R203, R318, R352). -/
def State.writeLocked (s : State) (pa : Nat) : Bool :=
  s.lockedOld pa || s.lockedNew pa || s.hostHeld pa || s.pushHeldLine (lineOf (s.fwd pa))

/-- A line of a fenced channel (R365), or of one that bring-up has retired: the spec does not say what an access to a retired channel's
page does, and it acts as one to a fenced channel's (R368, R370; DESIGN CHOICE, notes/assumptions/50.md). -/
def State.fenced (s : State) (pa : Nat) : Bool :=
  decide (pa < hbmTop) && (s.fencemap.contains (chanOf pa) || s.gone.contains (chanOf pa))

/-- The queue of a byte's channel is full: a sender to it stalls (R20, R281). -/
def State.chanFull (s : State) (pa : Nat) : Bool :=
  decide (Config.jobQueue ≤ (s.jobs.filter (fun j => j.chan == chanOf pa)).length)

/-- A channel holds a `MEMSIDE` store until the host gives up its line: no later request passes it there (R281, R352). -/
def State.chanHeld (s : State) (chan : Nat) : Bool :=
  s.snoops.any (fun x => x.writes.any (fun h => h.attr == 3 && h.cells.any (fun c => chanOf c.1 == chan)))

/-- A byte that reads as uncorrectable at its home (R363, R365). -/
def State.homeBad (s : State) (pa : Nat) : Bool := s.poisoned.contains pa || s.fenced pa

/-- A byte whose coherent value is uncorrectable: its dirty copy where an L1 holds one, else its home's (R363, R365). -/
def State.bad (s : State) (pa : Nat) : Bool :=
  if s.stale.any (fun e => e.1 == pa) then s.dirtyBad.contains pa || s.fenced pa else s.homeBad pa

/-- The byte at its home: the value before the stores that only an L1 holds (R180, R190). -/
def State.atHome (s : State) (pa : Nat) : Byte :=
  match s.stale.find? (fun e => e.1 == pa) with
  | some e => e.2.1
  | none => s.mem.read pa

/-- A read of one byte at its home by fetch, a walk or an engine that bypasses caches; uncorrectable bytes read 0. -/
def State.homeRead (s : State) (pa : Nat) : Byte :=
  if s.homeBad (s.fwd pa) then 0 else s.atHome (s.fwd pa)

/-- `n` bytes read at their homes. -/
def State.homeReadN (s : State) (pa n : Nat) : List Byte := (rangeFrom pa n).map s.homeRead

/-- The coherent value of a byte: what a load through a `DIR` page returns. -/
def State.physRead (s : State) (pa : Nat) : Byte :=
  if s.bad (s.fwd pa) then 0 else s.mem.read (s.fwd pa)

/-- `n` coherent bytes. -/
def State.physReadN (s : State) (pa n : Nat) : List Byte := (rangeFrom pa n).map s.physRead

/-- Whether the coherent value of any of `n` bytes is uncorrectable. -/
def State.anyBad (s : State) (pa n : Nat) : Bool := (rangeFrom pa n).any (fun a => s.bad (s.fwd a))

/-- Whether any of `n` bytes is uncorrectable at its home. -/
def State.anyHomeBad (s : State) (pa n : Nat) : Bool := (rangeFrom pa n).any (fun a => s.homeBad (s.fwd a))

/-! ## Poison -/

/-- Whether two traps are one: `POISON` of any elements, `PREEMPT`, the trap of what words have parked, and that of what one word's
commands have parked (R301, R303, R305, R312, notes/assumptions/15.md). -/
def Trap.shares (x y : Trap) : Bool :=
  x.cause == y.cause && (x.cause == 12 || x.cause == 14 ||
    (x.parked && y.parked && x.cmd == y.cmd && (!x.cmd || (x.mask == y.mask && x.word == y.word && x.slot == y.slot))))

/-- Two traps of parked elements as one: of all their threads, it reports the lowest-numbered one's (R300). -/
def Trap.join (y x : Trap) : Trap :=
  if x.parked && !x.cmd && decide (Mask.lo x.mask 64 < Mask.lo y.mask 64) then { x with mask := y.mask ||| x.mask }
  else { y with mask := y.mask ||| x.mask }

/-- Adds a trap to those pending at a group, behind the others of its cause (R298, R305). -/
def Group.pend (g : Group) (x : Trap) : Group :=
  if g.traps.any x.shares then { g with traps := g.traps.map (fun y => if x.shares y then y.join x else y) }
  else { g with traps := g.traps ++ [x] }

/-- A trap that an engine raises for the threads that started its work, pending until the next switch point; `SLOT` and `WORD`
are those given (R298, R300). -/
def State.pendAt (s : State) (by_ : Issuer) (cause detail level addr flags slot : Nat) (word : Word) : State :=
  s.modGrp ⟨by_.team, by_.grp⟩ (fun g => g.pend
    { cause := cause, detail := detail, slot := slot, flags := flags, level := level, addr := addr, aux := 0,
      mask := by_.mask, word := word })

/-- A pending trap that no word raises: `SLOT` 3 and `WORD` 0 (R300, notes/assumptions/40.md). -/
def State.pendTrap (s : State) (by_ : Issuer) (cause detail level addr flags : Nat) : State :=
  s.pendAt by_ cause detail level addr flags 3 0

/-- The `POISON` trap of an element met (R305): the frame's address is the first since the last such trap. -/
def State.poisonTrap (s : State) (by_ : Issuer) (addr : Nat) : State :=
  match s.team? by_.team with
  | some t =>
    if t.trapOnPoison then
      (s.pendTrap by_ 12 0 0xFF ((t.poisonAddr).getD addr) 0).modTeam by_.team
        (fun t => { t with poisonAddr := some ((t.poisonAddr).getD addr) })
    else s
  | none => s

/-- A team meets one poisoned element (R305). -/
def State.poisonSeen (s : State) (t : TeamId) : State :=
  s.modTeam t (fun t => { t with poisonSeen := true, poisonCnt := min 65535 (t.poisonCnt + 1) })

/-- An uncorrectable read counted at the wheel whose die or stack has detected it: of SRAM or of HBM (R363, R364). -/
def State.countRead (s : State) (wheel : Nat) (sram : Bool) : State := (s.count wheel (if sram then 0x41 else 0x43) 1).count wheel 0x47 1

/-- Where an uncorrectable byte of memory is met: at the wheel of the L1 that holds its dirty copy, or of its home; and whether in SRAM
(R363, R364). -/
def State.spotOf (s : State) (pa : Nat) : Nat × Bool :=
  match s.stale.find? (fun e => e.1 == pa) with
  | some e => if s.dirtyBad.contains pa && !s.fenced pa then (wheelOf e.2.2, true) else (s.homeWheel pa, false)
  | none => (s.homeWheel pa, false)

/-- An uncorrectable byte of memory that is read (R363). -/
def State.countBad (s : State) (pa : Nat) : State := s.countRead (s.spotOf pa).1 (s.spotOf pa).2

/-- An uncorrectable element read by an access or engine, at a place: counted, and poison for the team (R305, R363). -/
def State.meetAt (s : State) (by_ : Issuer) (addr : Nat) (spot : Nat × Bool) : State :=
  ((s.countRead spot.1 spot.2).poisonSeen by_.team).poisonTrap by_ addr

/-- An uncorrectable element read by an access or engine, by one of its uncorrectable bytes. -/
def State.meetPoison (s : State) (by_ : Issuer) (addr pa : Nat) : State := s.meetAt by_ addr (s.spotOf pa)

/-- A load element returned as zero from a poisoned page (R189): counted at the translating agent's wheel. -/
def State.meetPoisonPage (s : State) (by_ : Issuer) (core addr : Nat) : State :=
  ((s.count (wheelOf core) 0x47 1).poisonSeen by_.team).poisonTrap by_ addr

/-! ## Pushes -/

/-- Whether a write of some bytes touches a byte of a live entry (R316). -/
def Sub.touched (x : Sub) (pas : List Nat) : Bool :=
  !x.ending && pas.any (fun a => decide (x.pa ≤ a) && decide (a < x.pa + x.size))

/-- The names of the pushes in flight (R327). -/
def State.pushIds (s : State) : List Nat := (s.flights.filter (fun f => decide (f.kind = .push))).map (·.id)

/-- The pushes still in flight of a list. -/
def State.flying (s : State) (ids : List Nat) : List Nat := s.pushIds.filter ids.contains

/-- The pushes in flight that a push leaves behind it once it has landed: those of its own write, and those that came causally before it
(R178). -/
def State.kin (s : State) (f : Flight) : List Nat :=
  s.flying (f.after ++ (s.flights.filter (fun x => x.write == f.write && x.kind == .push)).map (·.id))

/-- The pushes of one write of some bytes that has entered home order, behind the pushes that came causally before it (R178, R316,
R318). -/
def State.pushesAt (s : State) (after : List Nat) (pas : List Nat) : State :=
  let name := s.fresh
  s.subs.foldl
    (fun s x =>
      if x.touched pas then
        let fl : Flight :=
          { id := s.fresh, team := x.team, off := x.off, value := BitVec.ofNat 64 (leNat (s.homeReadN x.pa x.size)),
            kind := .push, slice := s.sliceOf x.pa, write := name, after := after }
        let bad := s.anyHomeBad x.pa x.size
        let s := { s with flights := s.flights ++ [fl], fresh := s.fresh + 1 }
        if bad then (s.countBad x.pa).poisonSeen x.team else s
      else s) s

/-- One write of some bytes has entered home order: its pushes, and what comes causally before the bytes' value (R167, R316). -/
def State.wrote (s : State) (after : List Nat) (pas : List Nat) : State :=
  let behind := s.flying after
  let s1 := s.pushesAt behind pas
  let ids := behind ++ (s1.pushIds.filter (fun i => decide (s.fresh ≤ i)))
  if ids.isEmpty && s1.causal.isEmpty then s1
  else
    { s1 with causal := s1.causal.filter (fun e => !(pas.contains e.1)) ++ (if ids.isEmpty then [] else pas.map (fun a => (a, ids))) }

/-- The pushes in flight that came causally before the value of some bytes (R167). -/
def State.causes (s : State) (pas : List Nat) : List Nat :=
  if s.causal.isEmpty then []
  else s.flying ((s.causal.filter (fun e => pas.contains e.1)).flatMap (·.2))

/-- A group has read some bytes (R167). -/
def State.saw (s : State) (g : GrpId) (pas : List Nat) : State :=
  let ids := s.causes pas
  if ids.isEmpty then s else s.modGrp g (fun g => { g with seen := g.seen ++ ids })

/-- A group has read some bytes of a window: where they are a slot's, it has read the store whose push stands there (R167, R178, R319). -/
def State.sawSlot (s : State) (g : GrpId) (t : TeamId) (off n : Nat) : State :=
  let ids := if s.slotCausal.isEmpty then []
    else s.flying ((s.slotCausal.filter (fun x => decide (x.1 = t) && decide (x.2.1 < off + n) && decide (off < x.2.1 + 16))).flatMap (·.2.2))
  if ids.isEmpty then s else s.modGrp g (fun g => { g with seen := g.seen ++ ids })

/-- The pushes that a fence of the group in issue has ordered before its writes (R167); none where no word is in issue. -/
def State.writerAfter (s : State) : List Nat :=
  if s.iss.mask = 0 then [] else ((s.grp? s.iss.grp).map (·.after)).getD []

/-- A write whose pushes have no room at its slice (R318); alone, a write has room whatever it pushes (DESIGN CHOICE,
notes/assumptions/34.md). -/
def State.noPushRoom (s : State) (pas : List Nat) : Bool :=
  match s.subs.filter (fun x => x.touched pas) with
  | [] => false
  | x :: l =>
    let n := (s.flights.filter (fun f => decide (f.kind = .push) && f.slice == s.sliceOf x.pa)).length
    decide (n ≠ 0) && decide (Config.pushLimit < n + 1 + l.length)

/-- Whether a line has a live home entry (R317). -/
def State.subscribedLine (s : State) (pa : Nat) : Bool := s.subs.any (fun x => !x.ending && lineOf x.pa == lineOf pa)

/-! ## Writes at the home -/

/-- One examination of what a wait watches in memory, after a write of some bytes (R159, R263, R264); a barrier that the cycle has
updated is examined when the cycle ends (R157). -/
def State.look (s : State) (pas : List Nat) (w : WaitRec) : WaitRec :=
  let hit (pa n : Nat) : Bool := pas.any (fun a => decide (s.fwd pa ≤ a) && decide (a < s.fwd pa + n))
  match w.watch with
  | some (.counter pa false) =>
    if hit pa 4 && leNat (s.physReadN pa 4) == 0 && !s.anyBad pa 4 then { w with watch := some (.counter pa true) } else w
  | some (.deque pa false) =>
    if hit pa 32 && (s.physRead (pa + 9)).toNat % 2 == 0 then { w with watch := some (.deque pa true) } else w
  | some (.word x) =>
    match x.pa with
    | some pa =>
      let v : Word := BitVec.ofNat 32 (leNat (s.physReadN pa 4))
      let open_ := s.barOpen.any (fun b => decide (b.1 = x.team) && decide (b.2.1 ≤ x.off) && decide (x.off < b.2.1 + 16))
      if hit pa 4 && !open_ then { w with watch := some (.word { x with last := v, seen := if x.seen = none ∧ v ≠ x.val then some v else x.seen }) }
      else w
    | none => w
  | _ => w

/-- Whether a wait watches something. -/
def State.watched (s : State) : Bool := s.teams.any (fun t => t.groups.any (fun g => g.waits.any (fun w => w.watch.isSome)))

/-- Every write of memory is an examination of the waits that watch the bytes; a serial word's are made at quantum ends (R159, R349). -/
def State.noticed (s : State) (pas : List Nat) : State :=
  if s.watched then
    s.modGroups (fun g => { g with waits := g.waits.map (fun w => if w.serial then w else s.look pas w) })
  else s

/-- Dirty `DIR` copies written back to their homes; a write-back of uncorrectable data, or to a fenced channel, is dropped and
counted, and the home keeps its older value (R198, R363, R365). -/
def State.giveBack (s : State) (p : Nat × Byte × Nat → Bool) : State :=
  let out := s.stale.filter p
  let lost := out.filter (fun e => s.fenced e.1 || s.dirtyBad.contains e.1)
  let isLost (a : Nat) : Bool := lost.any (fun e => e.1 == a)
  let s1 : State :=
    { s with
      stale := s.stale.filter (fun e => !p e)
      dirtyBad := s.dirtyBad.filter (fun a => !(out.any (fun e => e.1 == a)))
      poisoned := s.poisoned.filter (fun a => !(out.any (fun e => e.1 == a) && !isLost a))
      mem := lost.foldl (fun (m : Memory) e => m.write e.1 e.2.1) s.mem }
  ((lost.map (fun e => lineOf e.1)).eraseDups).foldl (fun s l => s.count (s.homeWheel (128 * l)) 0x46 1) s1

/-- Whether a core's L1 holds bytes of a line under `SELFINV`, which no home tracks (R194). -/
def Core.holdsSelf (c : Core) (line : Nat) : Bool := c.self.any (fun b => lineOf b.pa == line)

/-- Drops every core's copies of a `DIR` line, dirty bytes written back first (R166, R172). -/
def State.recallLine (s : State) (pa : Nat) : State :=
  let s1 := s.giveBack (fun e => lineOf e.1 == lineOf pa)
  { s1 with cores := s1.cores.map (fun (c : Core) =>
      { c with tags := c.tags.filter (fun x => x.line != lineOf pa || c.holdsSelf x.line) }) }

/-- Whether a region holds a byte. -/
def Region.has (r : Region) (pa : Nat) : Bool := decide (r.base ≤ pa) && decide (pa < r.base + r.size)

/-- The region that tracks a byte; one starts as 64 KiB. -/
def State.regionAt (s : State) (pa : Nat) : Region :=
  (s.regions.find? (fun r => r.has pa)).getD { base := pa / 65536 * 65536, size := 65536, sharers := [], conflict := none }

/-- A region in place of the one that tracks its first byte. -/
def State.putRegions (s : State) (pa : Nat) (rs : List Region) : State :=
  { s with regions := rs ++ s.regions.filter (fun r => !r.has pa) }

/-- A core is a sharer of a region, with the line it touched last. -/
def Region.share (r : Region) (core line : Nat) : Region :=
  { r with sharers := (core, line) :: r.sharers.filter (fun x => x.1 != core) }

/-- A load by a core meets a region. -/
def State.regionLoad (s : State) (core pa : Nat) : State :=
  s.putRegions pa [(s.regionAt pa).share core (lineOf pa)]

/-- The copies of a region's lines in the L1s of the sharers other than a core go, dirty ones written back. -/
def State.regionDrop (s : State) (r : Region) (core : Option Nat) : State :=
  let other (n : Nat) : Bool := some n != core && r.sharers.any (fun x => x.1 == n)
  let s := s.giveBack (fun e => r.has e.1 && other e.2.2)
  { s with
    cores := s.cores.map (fun (c : Core) =>
      if other c.num then
        { c with tags := c.tags.filter (fun x => !r.has (x.line * 128) || c.holdsSelf x.line) }
      else c) }

/-- A store or atomic by a core meets a region: on a conflict the region splits, and the copies of the other sharers go;
`stays` says whether the core holds the line afterwards. -/
def State.regionStore (s : State) (core pa : Nat) (stays : Bool) : State :=
  let r := s.regionAt pa
  let line := lineOf pa
  let now := s.now (wheelAgent (s.homeWheel pa))
  let conflict := r.sharers.any (fun x => x.1 != core && x.2 != line)
  let rs : List Region :=
    if conflict && decide (128 < r.size) then
      let h := r.size / 2
      [{ r with size := h, conflict := some now }, { r with base := r.base + h, size := h, conflict := some now }]
    else [if conflict then { r with conflict := some now } else r]
  let s1 := match rs.find? (fun x => x.has pa) with
    | some x => s.regionDrop x (some core)
    | none => s
  let after (x : Region) : Region :=
    if x.has pa then (if stays then { x with sharers := [(core, line)] } else { x with sharers := [] }) else x
  s1.putRegions pa (rs.map after)

/-- A write to a line through a `DIR` page by an agent without an L1: the copies of the line's region go from every sharer, and with them
any other copy of the line (R179, R197). -/
def State.recallAll (s : State) (pa : Nat) : State :=
  let s1 := match s.regions.find? (fun r => r.has pa) with
    | some r => (s.regionDrop r none).putRegions pa [{ r with sharers := [] }]
    | none => s
  s1.recallLine pa

/-- The kept results of signatures that a write to a page leaves: those of objects elsewhere (R274). -/
def State.unverify (s : State) (pa : Nat) : State :=
  if s.verified.isEmpty then s else { s with verified := s.verified.filter (fun v => !v.pages.contains (pa / 2 ^ 17)) }

/-- One byte written at its home, outside any migration. Where an L1 holds a dirty `DIR` copy of it, the byte at home changes under
that copy (R196). A write makes the byte correctable again. -/
def State.homePut (s : State) (pa : Nat) (v : Byte) : State :=
  if s.fenced pa then s
  else
    let s := s.unverify pa
    let s := { s with poisoned := s.poisoned.filter (fun a => a != pa) }
    if s.stale.any (fun e => e.1 == pa) then
      { s with stale := s.stale.map (fun e => if e.1 = pa then (pa, v, e.2.2) else e) }
    else { s with mem := s.mem.write pa v }

/-- Bytes with their addresses. -/
def cellsAt (pa : Nat) (bs : List Byte) : List (Nat × Byte) := (rangeFrom pa bs.length).zip bs

/-- Bytes with rising addresses, line by line. -/
def lineRuns : List (Nat × Byte) → List (List (Nat × Byte))
  | [] => []
  | c :: cs =>
    match lineRuns cs with
    | (d :: r) :: rs => if lineOf c.1 = lineOf d.1 then (c :: d :: r) :: rs else [c] :: (d :: r) :: rs
    | _ => [[c]]

/-- Where a write goes: the home that accesses to a byte reach, or, for a `MEMSIDE` write, the stack itself (R194, R203). -/
def State.target (s : State) (attr pa : Nat) : Nat := if attr = 3 then pa else s.fwd pa

/-- A write to a locked page is held at its home (R203). -/
def State.holdWrite (s : State) (h : HeldWrite) (pa : Nat) : State :=
  { s with migrations := s.migrations.map (fun m =>
      if !m.switched && (decide (m.old ≤ pa) && decide (pa < m.old + m.size) || decide (m.new ≤ pa) && decide (pa < m.new + m.size)) then
        { m with held := m.held ++ [h] } else m) }

/-- One write's bytes at their homes, outside any lock. -/
def State.putCells (s : State) (attr : Nat) : List (Nat × Byte) → State
  | [] => s
  | c :: cs => (s.homePut (s.target attr c.1) c.2).putCells attr cs

/-- A snoop sent to the host for a line, if none waits (R352). -/
def State.sendSnoop (s : State) (line : Nat) : State :=
  if s.snoops.any (fun x => x.line == line) then s
  else { s with snoops := s.snoops ++ [⟨line, s.now (wheelAgent (s.homeWheel (128 * line))), []⟩] }

/-- A write held until the host answers the snoop of a line (R352). -/
def State.snoopWrite (s : State) (h : HeldWrite) (line : Nat) : State :=
  let s1 := s.sendSnoop line
  { s1 with snoops := s1.snoops.map (fun x => if x.line = line then { x with writes := x.writes ++ [h] } else x) }

/-- Whether a write of some bytes is held at a home. -/
def State.cellsLocked (s : State) (cells : List (Nat × Byte)) : Bool := cells.any (fun c => s.writeLocked c.1)

/-- One write performed at its home, with its pushes (R316); through a `DIR` page L1 copies go first (R179, R197). -/
def State.perform (s : State) (h : HeldWrite) : State :=
  let s0 := if h.attr = 0 then ((h.cells.head?).map (fun c => s.recallAll (s.fwd c.1))).getD s else s
  let s1 := (s0.putCells h.attr h.cells).noticed (h.cells.map (fun c => s.target h.attr c.1))
  if h.push && h.attr != 3 then s1.wrote h.after (h.cells.map (fun c => s1.fwd c.1)) else s1

/-- One write of bytes of one line reaches its home: dropped and counted in a fenced channel, held while its page is locked, while
the host may hold its line, or while its pushes have no room; else performed (R203, R318, R352, R365). -/
def State.writeLine (s : State) (h : HeldWrite) : State :=
  match h.cells with
  | [] => s
  | c :: _ =>
    let p := s.target h.attr c.1
    if s.fenced p then s.count (s.homeWheel p) 0x46 1
    else if h.attr ≠ 3 && (s.lockedOld c.1 || s.lockedNew c.1) then s.holdWrite h c.1
    else if s.hostLines.contains (lineOf p) then s.snoopWrite h (lineOf p)
    else if h.attr ≠ 3 && (s.pushHeldLine (lineOf p) || h.push && s.noPushRoom (h.cells.map (fun c => s.fwd c.1))) then
      { s with pushq := s.pushq ++ [h] }
    else s.perform h

/-- One write at its homes, line by line, by a core or another agent. -/
def State.writeCells (s : State) (core : Option Nat) (attr : Nat) (push : Bool) (cells : List (Nat × Byte)) : State :=
  (lineRuns cells).foldl (fun s l => s.writeLine ⟨l, core, push, attr, s.writerAfter⟩) s

/-- The writes that waited for room for their pushes, tried again in order (R318). -/
def State.drainPushes (s : State) : State := s.pushq.foldl (fun s h => s.writeLine h) { s with pushq := [] }

/-- One byte written at its home. -/
def State.homeWrite (s : State) (attr pa : Nat) (v : Byte) : State := s.writeCells none attr false [(pa, v)]

/-- Bytes written at their homes, without pushes. -/
def State.homeWriteL (s : State) (attr pa : Nat) (bs : List Byte) : State :=
  s.writeCells none attr false (cellsAt pa bs)

/-- One write of an agent that is no core: a copy, a unit, the host (R173, R179, R316). -/
def State.homeWriteN (s : State) (attr pa : Nat) (bs : List Byte) : State :=
  s.writeCells none attr true (cellsAt pa bs)

/-- The writes that homes hold. -/
def State.heldWrites (s : State) : List HeldWrite :=
  (s.migrations.filter (fun m => !m.switched)).flatMap (·.held) ++ s.snoops.flatMap (·.writes) ++ s.pushq

/-- A byte that a core has written and that its home still holds (R203, R352). -/
def State.ownHeld (s : State) (core pa : Nat) : Bool :=
  s.heldWrites.any (fun h => h.core == some core && h.cells.any (fun c => c.1 == pa))

/-- Some write of a core is still held at a home (R203): nothing that follows its performance can go on (R166). -/
def State.heldBy (s : State) (core : Nat) : Bool :=
  s.heldWrites.any (fun h => h.core == some core)

/-- Some write of a core to a `MEMSIDE` line is still held at its home for the host (R281, R352). -/
def State.stackHeldBy (s : State) (core : Nat) : Bool :=
  s.snoops.any (fun x => x.writes.any (fun h => h.attr == 3 && h.core == some core))

/-- The writes that the slice of a byte holds for locked lines. -/
def State.heldAt (s : State) (pa : Nat) : Nat :=
  (s.heldWrites.filter (fun h => h.cells.any (fun c => s.sliceOf c.1 == s.sliceOf pa))).length

/-- Writes to locked lines of a slice that has no room for them: their sender stalls (R20, R203). A sender alone has room
(DESIGN CHOICE, notes/assumptions/21.md). -/
def State.heldFull (s : State) (pas : List Nat) : Bool :=
  pas.any (fun a => s.lockedOld a && decide (s.heldAt a ≠ 0) &&
    decide (Config.heldLimit < s.heldAt a + ((pas.filter (fun b => s.sliceOf b == s.sliceOf a)).map lineOf).eraseDups.length))

/-- A sender that stalls: a write of its core waits for room for its pushes (R318), or a slice has no room to hold its writes (R203). -/
def State.senderStalls (s : State) (core : Nat) (pas : List Nat) : Bool :=
  s.pushq.any (fun h => h.core == some core) || s.heldFull pas

/-! ## First-level caches -/

/-- A byte of a `SELFINV` line that is dirty. -/
def SelfByte.dirty (b : SelfByte) : Bool := !b.stores.isEmpty

/-- The L1 granules of a core, highest-numbered first (R137, R140). -/
def Core.l1Grans (c : Core) : List Nat := ((List.range 20).filter (fun g => !c.scr.getLsbD g)).reverse

/-- The stores of some bytes of a core's `SELFINV` line, by name, written at the home one after the other, each as the write it is (R76,
R198, R316), as far as the home's slice has room to hold them (R203). -/
def State.selfOut (s : State) (core line : Nat) : List Nat → State
  | [] => s
  | id :: ids =>
    let mine := ((s.core core).self.filter (fun b => lineOf b.pa == line)).flatMap (fun b =>
      (b.stores.filter (fun x => x.id == id)).map (fun x => (b.pa, x)))
    let cells := sortBy (fun a b => decide (a.1 < b.1)) (mine.map (fun x => (x.1, x.2.val)))
    if s.heldFull (cells.map (·.1)) then s
    else
      let s1 := s.modCore core (fun c =>
        { c with self := c.self.map (fun b => { b with stores := b.stores.filter (fun x => x.id != id) }) })
      (s1.writeLine ⟨cells, some core, mine.any (·.2.push), 1, mine.flatMap (·.2.after)⟩).selfOut core line ids

/-- The names of the stores that a core's `SELFINV` line holds, in their order. -/
def Core.storeIds (c : Core) (line : Nat) : List Nat :=
  sortBy (fun a b => decide (a < b)) ((c.self.filter (fun b => lineOf b.pa == line)).flatMap (fun b => b.stores.map (·.id))).eraseDups

/-- A line written back from a core's L1 to its home, valid and clean afterwards; uncorrectable bytes are dropped and counted, and
leave the L1 (R181, R198, R363). What its slice has no room to hold stays dirty (R20, R203). -/
def State.writeBack (s : State) (core line : Nat) : State :=
  let s := s.giveBack (fun e => lineOf e.1 == line && e.2.2 == core)
  let lost (b : SelfByte) : Bool := b.dirty && b.bad && lineOf b.pa == line
  let s1 := if (s.core core).self.any lost then
      (s.modCore core (fun c => { c with self := c.self.filter (fun b => !lost b) })).count (s.homeWheel (s.fwd (line * 128))) 0x46 1
    else s
  s1.selfOut core line ((s1.core core).storeIds line)

/-- A line dropped from a core's L1, its dirty bytes written back first; what cannot go yet keeps its place (R142, R181). -/
def State.dropLine (s : State) (core line : Nat) : State :=
  (s.writeBack core line).modCore core (fun c =>
    let self := c.self.filter (fun b => lineOf b.pa != line || b.dirty)
    { c with self := self, tags := c.tags.filter (fun x => x.line != line || self.any (fun b => lineOf b.pa == line)) })

/-- Writes of a core that are not performed: a home holds one, or has had no room for one that the core's L1 keeps (R20, R203). -/
def State.unflushed (s : State) (core : Nat) : Bool :=
  s.heldBy core || (s.core core).self.any (fun b => b.dirty && s.heldFull [b.pa])

/-- Every line of a core that holds a dirty byte or a tag. -/
def State.coreLines (s : State) (core : Nat) : List Nat :=
  let c := s.core core
  (c.tags.map (·.line) ++ c.self.map (fun b => lineOf b.pa) ++
    (s.stale.filter (fun e => e.2.2 == core)).map (fun e => lineOf e.1)).eraseDups

/-- A line touched in a core's L1: it becomes the most recently used of its set, or is filled, into the empty way of
the highest-numbered granule or in place of the least recently used line; `hint` fills as least recently used (R138,
R279). -/
def State.touchLine (s : State) (core pa : Nat) (hint : Bool) : State :=
  let line := lineOf pa
  let c := s.core core
  match c.tags.find? (fun x => x.line == line) with
  | some x => s.modCore core (fun c => { c with tags := x :: c.tags.filter (fun y => y.line != line) })
  | none =>
    let inSet := c.tags.filter (fun x => x.line % 128 == line % 128)
    let place (s : State) (g : Nat) : State :=
      s.modCore core (fun c =>
        { c with tags := if hint then c.tags ++ [⟨line, g⟩] else ⟨line, g⟩ :: c.tags })
    match c.l1Grans.find? (fun g => !(inSet.any (fun x => x.gran == g))) with
    | some g => place s g
    | none =>
      match inSet.getLast? with
      | some v => place (s.dropLine core v.line) v.gran
      | none => s

/-! ## Accesses of a core by attribute -/

/-- A byte stored by a core through a `DIR` page (R139, R166, R317). -/
def State.dirStore (s : State) (core pa : Nat) (v : Byte) : State :=
  if s.subscribedLine pa then (s.giveBack (fun e => lineOf e.1 == lineOf pa)).homePut pa v
  else
    let s := (s.unverify pa).giveBack (fun e => lineOf e.1 == lineOf pa && e.2.2 != core)
    let s := { s with
      dirtyBad := s.dirtyBad.filter (fun a => a != pa)
      cores := s.cores.map (fun (c : Core) =>
        if c.num = core then c else { c with tags := c.tags.filter (fun x => x.line != lineOf pa || c.holdsSelf x.line) }) }
    let s :=
      if s.stale.any (fun e => e.1 == pa) then s
      else { s with stale := s.stale ++ [(pa, s.mem.read pa, core)] }
    { s with mem := s.mem.write pa v }

/-- A byte stored by a core through a `SELFINV` page: dirty in its L1 only (R139, R194). A store over another that pushes leaves it its
place in home order (R316, R317). -/
def State.selfStore (s : State) (core pa : Nat) (v : Byte) (push : Bool) (id : Nat) : State :=
  s.modCore core (fun c =>
    let old := (((c.self.find? (fun b => b.pa == pa)).map (·.stores)).getD []).filter (·.push)
    { c with self := ⟨pa, v, old ++ [⟨id, v, push, s.writerAfter⟩], false⟩ :: c.self.filter (fun b => b.pa != pa) })

/-- Whether the byte a core reads through a `SELFINV` page is uncorrectable, in its L1 or at its home (R363, R365). -/
def State.selfBad (s : State) (core pa : Nat) : Bool :=
  s.fenced (s.fwd pa) ||
    match (s.core core).self.find? (fun b => b.pa == pa) with
    | some b => b.bad
    | none => s.homeBad (s.fwd pa)

/-- The byte a core reads through a `SELFINV` page. -/
def State.selfRead (s : State) (core pa : Nat) : Byte :=
  match (s.core core).self.find? (fun b => b.pa == pa) with
  | some b => b.val
  | none => s.atHome (s.fwd pa)

/-- The fill of the bytes of a `SELFINV` line that are not valid in a core's L1 (R139). -/
def State.selfFill (s : State) (core pa : Nat) : State :=
  let absent := (rangeFrom (lineOf pa * 128) 128).filter (fun a => !((s.core core).self.any (fun b => b.pa == a)))
  let fill : List SelfByte := absent.map (fun a => ⟨a, s.atHome (s.fwd a), [], s.homeBad (s.fwd a)⟩)
  s.modCore core (fun c => { c with self := c.self ++ fill })

/-- Bytes of a stack read under a `MEMSIDE` translation: no migration and no first-level cache stands before them (R194,
R196, R203). -/
def State.stackReadN (s : State) (pa n : Nat) : List Byte :=
  (rangeFrom pa n).map (fun a => if s.homeBad a then 0 else s.atHome a)

/-- Whether any of some bytes of a stack is uncorrectable. -/
def State.stackBad (s : State) (pa n : Nat) : Bool := (rangeFrom pa n).any s.homeBad

/-- A write under a `MEMSIDE` translation: it waits for the host where it may hold the line, and pushes nothing (R316, R352). -/
def State.stackPut (s : State) (core : Option Nat) (pa : Nat) (bs : List Byte) : State :=
  s.writeCells core 3 false (cellsAt pa bs)

/-- The first byte of each line of some bytes. -/
def lineStarts (pa n : Nat) : List Nat :=
  (List.range (lineOf (pa + n - 1) + 1 - lineOf pa)).map (fun k => if k = 0 then pa else 128 * (lineOf pa + k))

/-- The bytes of one part of a load element, and whether one of them was uncorrectable (R139, R154, R194). -/
def State.loadPart (s : State) (core attr pa n : Nat) (hint : Bool) : State × List Byte × Bool :=
  if attr = 0 then
    ((lineStarts pa n).foldl (fun s a => (s.regionLoad core (s.fwd a)).touchLine core (s.fwd a) hint) s, s.physReadN pa n,
      s.anyBad pa n)
  else if attr = 1 then
    let s1 := (lineStarts pa n).foldl (fun s a =>
      let s1 := s.touchLine core a hint
      if (rangeFrom pa n).all (fun b => lineOf b != lineOf a || (s1.core core).self.any (fun x => x.pa == b)) then s1
      else s1.selfFill core a) s
    (s1, (rangeFrom pa n).map (fun a => if s.selfBad core a then 0 else s.selfRead core a),
      (rangeFrom pa n).any (s.selfBad core))
  else (s, s.homeReadN pa n, s.anyHomeBad pa n)

/-- The bytes of one part of a store element that lie in one line (R139, R194, R317). -/
def State.storeLine (s : State) (core attr : Nat) (hint push : Bool) (cells : List (Nat × Byte)) : State :=
  match cells with
  | [] => s
  | c :: _ =>
    let p := s.fwd c.1
    let pas := cells.map (fun c => s.fwd c.1)
    if attr = 1 then cells.foldl (fun s1 x => s1.selfStore core x.1 x.2 push s.fresh) (s.tick.touchLine core c.1 hint)
    else if attr = 0 && !s.fenced p && !s.cellsLocked cells && !(push && s.noPushRoom pas) then
      let s1 := (cells.foldl (fun s x => s.dirStore core (s.fwd x.1) x.2) ((s.regionStore core p true).touchLine core p hint)).noticed pas
      if push then s1.wrote s.writerAfter pas else s1
    else s.writeLine ⟨cells, some core, push, attr, s.writerAfter⟩

/-- One part of a store element (R139, R154, R194). A write that reaches the home of a fenced channel is dropped and
counted (R365). -/
def State.storePart (s : State) (core attr pa : Nat) (bs : List Byte) (hint push : Bool) : State :=
  (lineRuns (cellsAt pa bs)).foldl (fun s l => s.storeLine core attr hint push l) s

/-- Every dirty byte of a core's L1 written back to its home: `CLEAN`, a release (R166, R181). -/
def State.cleanCore (s : State) (core : Nat) : State :=
  (s.coreLines core).foldl (fun s l => s.writeBack core l) s

/-- The dirty `SELFINV` bytes of a core's L1 written back (R166, `REL`). -/
def State.relSelf (s : State) (core : Nat) : State :=
  (((s.core core).self.filter (·.dirty)).map (fun b => lineOf b.pa)).eraseDups.foldl
    (fun s l => s.writeBack core l) s

/-- The clean `SELFINV` bytes of a core's L1 dropped; dirty bytes stay (R166, `ACQ`). -/
def State.acqSelf (s : State) (core : Nat) : State :=
  s.modCore core (fun c =>
    let keep := c.self.filter (·.dirty)
    { c with
      self := keep
      tags := c.tags.filter (fun x =>
        !(c.self.any (fun b => lineOf b.pa == x.line)) || keep.any (fun b => lineOf b.pa == x.line)) })

end Sys2Proof.Machine
end

