-- ==== Sys2Proof/Machine/Xlat.lean ====
section
/-! DEFINITION. Address translation (R186 to R195): the walk, cached entries, and elements under their own pages. -/

namespace Sys2Proof.Machine

open Sys2Proof

/-- What an access wants of a page: R190's permissions; `maint` checks none (R181). -/
inductive Acc where | read | write | fetch | maint
  deriving DecidableEq, Repr

/-- A failed walk (R190): the detail code and the level, 0xFE before the level tables. -/
structure PFault where
  detail : Nat
  level : Nat
  deriving DecidableEq, Repr

/-- The lowest virtual-address bit that a level's index holds (R188). -/
def levelShift : Nat → Nat
  | 0 => 42
  | 1 => 28
  | 2 => 22
  | _ => 17

/-- The number of index bits of a level (R188). -/
def levelBits : Nat → Nat
  | 0 => 14
  | 1 => 14
  | 2 => 6
  | _ => 5

/-- The index of a virtual address at a level (R188). -/
def levelIndex (lv va : Nat) : Nat := fld va (levelShift lv) (levelBits lv)

/-- The number of low physical-address bits that must be zero in a table's address below this level (R188). -/
def tableAlign : Nat → Nat
  | 0 => 17
  | 1 => 9
  | _ => 8

/-- The format check of R190, detail 4: `true` when an entry's bits are malformed. No page has the size of level 0, so no `PA` of a leaf
there counts as misaligned: such a leaf gives detail 5 (DESIGN CHOICE, notes/assumptions/43.md). -/
def malformed (lv e : Nat) : Bool :=
  if e / 2 ^ 52 ≠ 0 then true
  else if fld e 1 1 = 1 then
    fld e 2 2 == 3 || (fld e 4 1 == 1 && fld e 2 2 != 2) || (lv != 0 && fld e 8 (levelShift lv - 8) != 0)
  else fld e 2 6 != 0 || fld e 8 (tableAlign lv - 8) != 0

/-- What an entry of a level gives: the next table's base, a page, or the failure's detail (R189, R190). -/
inductive EntryRes where
  | table (base : Nat)
  | page (x : Xlat)
  | bad (detail : Nat)

/-- The checks of one entry, in R190's order. -/
def State.entryOf (s : State) (lv e va : Nat) (acc : Acc) : EntryRes :=
  if e % 2 = 0 then .bad 1
  else if malformed lv e then .bad 4
  else if fld e 1 1 = 0 then (if lv < 3 then .table (fld e 8 44 * 256) else .bad 5)
  else if lv = 0 then .bad 5
  else
    let poison := fld e 7 1 == 1
    let memside := fld e 4 1 == 1
    let base := fld e 8 44 * 256
    if !poison && acc == .write && fld e 5 1 == 0 then .bad 2
    else if !poison && acc == .fetch && fld e 6 1 == 0 then .bad 3
    else if !poison && (s.absent base || (memside && decide (hbmTop ≤ base))) then .bad 6
    else .page ⟨base + va % 2 ^ levelShift lv, fld e 2 2, memside, poison⟩

/-- Eight bytes read at their home, little-endian. -/
def State.homeRead8 (s : State) (pa : Nat) : Nat := leNat (s.homeReadN pa 8)

/-- The walk from an entry of a level on (R188, R190). -/
def State.walkFrom (s : State) (va : Nat) (acc : Acc) : Nat → Nat → Nat → Except PFault Xlat
  | fuel, lv, e =>
    match s.entryOf lv e va acc with
    | .bad d => .error ⟨d, lv⟩
    | .page x => .ok x
    | .table base =>
      match fuel with
      | 0 => .error ⟨5, lv⟩
      | f + 1 => s.walkFrom va acc f (lv + 1) (s.homeRead8 (base + levelIndex (lv + 1) va * 8))

/-- The key of a cached entry: the address bits from a level's index up; the root entry is level 4 (R191). -/
def tlbKey (lv va : Nat) : Nat := if lv = 4 then 0 else va / 2 ^ levelShift lv

/-- A cached entry of a core (R191). -/
def State.cached (s : State) (core space lv va : Nat) : Option Nat :=
  ((s.core core).tlb.find? (fun e => e.space == space && e.level == lv && e.key == tlbKey lv va)).map (·.entry)

/-- The root entry of a space (R187), cached or at its home. -/
def State.rootEntry (s : State) (core space : Nat) : Nat :=
  (s.cached core space 4 0).getD (s.homeRead8 (fld s.spcbase.toNat 15 37 * 2 ^ 15 + space * 8))

/-- Translation of a virtual address for a core: from the deepest cached entry, or from the root (R190, R191). -/
def State.translate (s : State) (core space va : Nat) (acc : Acc) : Except PFault Xlat :=
  if s.spcbase.toNat % 2 = 0 then .error ⟨1, 0xFE⟩
  else
    match s.cached core space 3 va with
    | some e => s.walkFrom va acc 3 3 e
    | none =>
    match s.cached core space 2 va with
    | some e => s.walkFrom va acc 3 2 e
    | none =>
    match s.cached core space 1 va with
    | some e => s.walkFrom va acc 3 1 e
    | none =>
    match s.cached core space 0 va with
    | some e => s.walkFrom va acc 3 0 e
    | none =>
      let r := s.rootEntry core space
      if r % 2 = 0 then .error ⟨1, 0xFE⟩
      else if r / 2 ^ 52 ≠ 0 || fld r 1 16 ≠ 0 then .error ⟨4, 0xFE⟩
      else s.walkFrom va acc 3 0 (s.homeRead8 (fld r 17 35 * 2 ^ 17 + levelIndex 0 va * 8))

/-- The entry of a level for an address, cached by a core or at its home in the table at `base` (R188, R191). -/
def State.levelEntry (s : State) (core space va lv base : Nat) : Nat :=
  (s.cached core space lv va).getD (s.homeRead8 (base + levelIndex lv va * 8))

/-- The valid entries that a walk for an address reads from a level on, for a translation cache (R191). -/
def State.trailFrom (s : State) (core space va : Nat) : Nat → Nat → Nat → List TlbEnt
  | fuel, lv, base =>
    let e := s.levelEntry core space va lv base
    if e % 2 = 0 then []
    else
      let here : TlbEnt := ⟨space, lv, tlbKey lv va, e⟩
      match s.entryOf lv e va .maint, fuel with
      | .table next, f + 1 => here :: s.trailFrom core space va f (lv + 1) next
      | _, _ => [here]

/-- The valid entries that a walk reads, from the root entry on. -/
def State.trail (s : State) (core space va : Nat) : List TlbEnt :=
  if s.spcbase.toNat % 2 = 0 then []
  else
    let r := s.rootEntry core space
    if r % 2 = 0 then []
    else
      let root : TlbEnt := ⟨space, 4, 0, r⟩
      if r / 2 ^ 52 ≠ 0 || fld r 1 16 ≠ 0 then [root]
      else root :: s.trailFrom core space va 3 0 (fld r 17 35 * 2 ^ 17)

/-- The entries of the level tables that a walk passes from a level on: whether the core caches each, and where it lies (R188, R191). -/
def State.walkSteps (s : State) (core space va : Nat) : Nat → Nat → Nat → List (Bool × Nat)
  | 0, _, _ => []
  | fuel + 1, lv, base =>
    ((s.cached core space lv va).isSome, base + levelIndex lv va * 8) ::
      match s.entryOf lv (s.levelEntry core space va lv base) va .maint with
      | .table next => s.walkSteps core space va fuel (lv + 1) next
      | _ => []

/-- Where the entries lie that a walk for an address reads at their homes: those behind the deepest one that the core caches (R191). -/
def State.walkReads (s : State) (core space va : Nat) : List Nat :=
  if s.spcbase.toNat % 2 = 0 then []
  else
    let root : Bool × Nat := ((s.cached core space 4 0).isSome, fld s.spcbase.toNat 15 37 * 2 ^ 15 + space * 8)
    let r := s.rootEntry core space
    let steps := if r % 2 = 0 || r / 2 ^ 52 ≠ 0 || fld r 1 16 ≠ 0 then [] else s.walkSteps core space va 4 0 (fld r 17 35 * 2 ^ 17)
    ((root :: steps).reverse.takeWhile (fun x => !x.1)).map (·.2)

/-- Whether a walk reads an entry on a line that its home does not serve: it waits (R199, R203). -/
def State.walkWaits (s : State) (core space va : Nat) : Bool :=
  !(s.migrations.all (·.switched) && s.cores.all (fun c => c.silent.isNone)) && (s.walkReads core space va).any s.lineHeld

/-- A walk that has read an uncorrectable entry as zero: the read is counted (R363). -/
def State.countWalk (s : State) (core space va : Nat) : State :=
  match (s.walkReads core space va).find? (fun a => s.anyHomeBad a 8) with
  | some a => s.countRead (s.homeWheel (s.fwd a)) false
  | none => s

/-! ## Elements -/

/-- A virtual address modulo 2^56 (R49). -/
def va56 (n : Nat) : Nat := n % 2 ^ 56

/-- The parts of an access of `n` bytes, split at 4 KiB boundaries, as addresses and lengths (R154). -/
def splitParts : Nat → Nat → Nat → List (Nat × Nat)
  | 0, _, _ => []
  | fuel + 1, va, n =>
    let room := 4096 - va % 4096
    if n ≤ room then (if n = 0 then [] else [(va, n)]) else (va, room) :: splitParts fuel (va56 (va + room)) (n - room)

/-- The translated parts of an access, or the first failure (R190, R195). -/
def State.xlatParts (s : State) (core space : Nat) (acc : Acc) : List (Nat × Nat) → Except PFault (List Part)
  | [] => .ok []
  | p :: ps =>
    match s.translate core space p.1 acc with
    | .error e => .error e
    | .ok x =>
      match s.xlatParts core space acc ps with
      | .error e => .error e
      | .ok l => .ok (⟨x, p.1, p.2⟩ :: l)

/-- The translated parts of `n` bytes at an address. -/
def State.xlatElem (s : State) (core space va n : Nat) (acc : Acc) : Except PFault (List Part) :=
  s.xlatParts core space acc (splitParts (n / 4096 + 2) (va56 va) n)

/-- The first address of an access of `n` bytes that does not translate: what the frame of a unit's failed access holds (R300,
R338, notes/assumptions/40.md). -/
def State.failVA (s : State) (core space va n : Nat) (acc : Acc) : Nat :=
  (((splitParts (n / 4096 + 2) (va56 va) n).find? (fun p =>
    match s.translate core space p.1 acc with
    | .ok _ => false
    | .error _ => true)).map (·.1)).getD (va56 va)

/-- Whether a part holds an uncorrectable byte, as its attribute reads it. -/
def State.partBad (s : State) (p : Part) : Bool :=
  if p.x.memside then s.stackBad p.x.pa p.n
  else if p.x.attr = 0 then s.anyBad p.x.pa p.n else s.anyHomeBad p.x.pa p.n

/-- Where an uncorrectable byte of a part is met, by the core whose L1 it may lie in, or by an agent without one (R363, R364). -/
def State.spotIn (s : State) (core : Option Nat) (p : Part) (a : Nat) : Nat × Bool :=
  let own : Bool := match core with
    | some c => p.x.attr == 1 && !s.homeBad (s.fwd a) && (s.core c).self.any (fun b => b.pa == a && b.bad)
    | none => false
  if p.x.memside then (s.homeWheel a, false)
  else if own then (wheelOf (core.getD 0), true)
  else if p.x.attr = 0 then s.spotOf (s.fwd a)
  else (s.homeWheel (s.fwd a), false)

/-- Whether a byte of a part is uncorrectable as an access of a core, or of an agent without an L1, reads it. -/
def State.badByte (s : State) (core : Option Nat) (p : Part) (a : Nat) : Bool :=
  match core with
  | some c => if !p.x.memside && p.x.attr == 1 then s.selfBad c a else s.partBad { p with x := { p.x with pa := a }, n := 1 }
  | none => s.partBad { p with x := { p.x with pa := a }, n := 1 }

/-- Where the first uncorrectable byte of some parts is met. -/
def State.badSpot (s : State) (core : Option Nat) : List Part → Nat × Bool
  | [] => (wheelOf (core.getD 0), false)
  | p :: ps =>
    match (if p.x.poison then none else (rangeFrom p.x.pa p.n).find? (s.badByte core p)) with
    | some a => s.spotIn core p a
    | none => s.badSpot core ps

/-- A part that no access reaches for now: on a line that its home does not serve (R199, R203), across a clock crossing that waits
for a new ratio (R296), or at a channel whose queue is full or that holds a store before it (R20, R281). -/
def State.partHeld (s : State) (p : Part) : Bool :=
  if p.x.poison then false
  else if p.x.memside then (s.wheel (s.homeWheel p.x.pa)).pend || s.chanFull p.x.pa || s.chanHeld (chanOf p.x.pa)
  else s.lineHeld p.x.pa

/-- An access of a unit to `n` bytes that has to wait for what holds a part of them, or an entry that its walk reads. -/
def State.vaHeld (s : State) (core space va n : Nat) (acc : Acc) : Bool :=
  (splitParts (n / 4096 + 2) (va56 va) n).any (fun p => s.walkWaits core space p.1) ||
  match s.xlatElem core space va n acc with
  | .ok ps => ps.any s.partHeld
  | .error _ => false

/-- A part whose bytes a core has written and the home still holds (R203): the core's reads wait for the switch. -/
def State.partOwn (s : State) (core : Nat) (p : Part) : Bool :=
  !p.x.memside && !p.x.poison && (rangeFrom p.x.pa p.n).any (fun a =>
    s.ownHeld core a && !(p.x.attr == 1 && (s.core core).self.any (fun b => b.pa == a)))

/-- The bytes of the parts of a load element. A part of a poisoned page, or one with an uncorrectable byte, makes the
element poisoned (R189, R363): the third component says how (0 no, 1 page, 2 error). -/
def State.loadParts (s : State) (core : Nat) (hint : Bool) : List Part → State × List Byte × Nat
  | [] => (s, [], 0)
  | p :: ps =>
    if p.x.poison then
      let r := s.loadParts core hint ps
      (r.1, List.replicate p.n 0 ++ r.2.1, 1)
    else
      let a := if p.x.memside then (s, s.stackReadN p.x.pa p.n, s.stackBad p.x.pa p.n)
        else s.loadPart core p.x.attr p.x.pa p.n hint
      let r := a.1.loadParts core hint ps
      (r.1, a.2.1 ++ r.2.1, if a.2.2 then 2 else r.2.2)

/-- The bytes of memory of some parts. -/
def State.partPas (s : State) (ps : List Part) : List Nat :=
  ps.flatMap (fun p => if p.x.poison || p.x.memside then [] else rangeFrom (s.fwd p.x.pa) p.n)

/-- The port whose uncorrectable slot poisons the next element of an issuer's half of a core that crosses (R16). -/
def State.slotBad (s : State) (by_ : Issuer) (core : Nat) : Option Nat :=
  let half := ((s.grp? ⟨by_.team, by_.grp⟩).map (fun g => g.pipe / 2)).getD 0
  (s.core core).badSlots.find? (fun p => p / 8 == half)

/-- An element met as poison that a port's uncorrectable slot has carried; the port has counted the slot (R16, R305). -/
def State.meetSlot (s : State) (by_ : Issuer) (core port va : Nat) : State :=
  ((s.modCore core (fun c => { c with badSlots := c.badSlots.erase port })).poisonSeen by_.team).poisonTrap by_ va

/-- A load element that crosses to the lane die, into a queue, in an uncorrectable port slot is poisoned: counted at the port, it is
zero (R16, R54, R84, R363). How much of a slot's data is poisoned the spec does not say: one element (DESIGN CHOICE,
notes/assumptions/33.md). -/
def State.crossUp (s : State) (by_ : Issuer) (core va : Nat) (bs : List Byte) : State × List Byte :=
  match s.slotBad by_ core with
  | none => (s, bs)
  | some p =>
    (s.meetSlot by_ core p va, List.replicate bs.length 0)

/-- A load element by a core: its bytes, all zero when it is poisoned, with the poison met (R154, R305); `up` says whether it crosses to
the lane die. -/
def State.loadElem (s : State) (by_ : Issuer) (core : Nat) (va : Nat) (ps : List Part) (hint up : Bool) :
    State × List Byte :=
  let r := (s.saw ⟨by_.team, by_.grp⟩ (s.partPas ps)).loadParts core hint ps
  if r.2.2 = 0 then (if up then r.1.crossUp by_ core va r.2.1 else (r.1, r.2.1))
  else
    let zero := List.replicate r.2.1.length 0
    if r.2.2 = 1 then (r.1.meetPoisonPage by_ core va, zero)
    else (r.1.meetAt by_ va (r.1.badSpot (some core) ps), zero)

/-- A store element by a core (R154); a part on a poisoned page is dropped and counted (R189, R363). A `.prv` store is
not pushed (R76), nor is a `MEMSIDE` one (R316). -/
def State.storeElem (s : State) (core : Nat) (hint push : Bool) : List Part → List Byte → State
  | [], _ => s
  | p :: ps, bs =>
    let s' :=
      if p.x.poison then s.count (wheelOf core) 0x46 1
      else if p.x.memside then s.stackPut (some core) p.x.pa (bs.take p.n)
      else s.storePart core p.x.attr p.x.pa (bs.take p.n) hint push
    s'.storeElem core hint push ps (bs.drop p.n)

/-- An engine's read of the parts of an element at the homes: its bytes and how it was poisoned. -/
def State.engineRead (s : State) : List Part → List Byte × Nat
  | [] => ([], 0)
  | p :: ps =>
    let r := s.engineRead ps
    if p.x.poison then (List.replicate p.n 0 ++ r.1, 1)
    else
      let bs := if p.x.memside then s.stackReadN p.x.pa p.n
        else if p.x.attr = 0 then s.physReadN p.x.pa p.n else s.homeReadN p.x.pa p.n
      (bs ++ r.1, if s.partBad p then 2 else r.2)

/-- An engine's write of the parts of an element at the homes; `push` says whether it is one that pushes (R173, R316). -/
def State.engineWrite (s : State) (wheel : Nat) (push : Bool) : List Part → List Byte → State
  | [], _ => s
  | p :: ps, bs =>
    let s' :=
      if p.x.poison then s.count wheel 0x46 1
      else if p.x.memside then s.stackPut none p.x.pa (bs.take p.n)
      else s.writeCells none p.x.attr push (cellsAt p.x.pa (bs.take p.n))
    s'.engineWrite wheel push ps (bs.drop p.n)

/-- A write by an agent that is no core, to some of the bytes of the parts, that is not yet performed: its home holds it, or one of its
pushes has not landed (R203, R327, R352). -/
def State.partPending (s : State) (ps : List Part) : Bool :=
  !(s.causes (s.partPas ps)).isEmpty ||
  s.heldWrites.any (fun h => h.core.isNone && h.cells.any (fun c =>
    ps.any (fun p => !p.x.poison && decide (p.x.pa ≤ c.1) && decide (c.1 < p.x.pa + p.n))))

/-- An engine's read of `n` bytes through translation, the poison met counted for its issuer. One with an uncorrectable byte reads as zeros
whole: the spec does not say how much of a transfer or shape record does, whose `OWN` then ends its chain (R232, R305; DESIGN CHOICE,
notes/assumptions/43.md). -/
def State.readVA (s : State) (by_ : Issuer) (core space va n : Nat) : Except PFault (State × List Byte) :=
  match s.xlatElem core space va n .read with
  | .error e => .error e
  | .ok ps =>
    let r := s.engineRead ps
    if r.2 = 0 then .ok (s, r.1)
    else
      let zero := List.replicate r.1.length 0
      if r.2 = 1 then .ok (s.meetPoisonPage by_ core va, zero)
      else .ok (s.meetAt by_ va (s.badSpot none ps), zero)

/-- The bytes of parts by whether each is uncorrectable or of a poisoned page. -/
def State.badBytes (s : State) (ps : List Part) : List Bool :=
  ps.flatMap (fun p => (rangeFrom p.x.pa p.n).map (fun a => p.x.poison || s.partBad { p with x := { p.x with pa := a }, n := 1 }))

/-- A unit of a block that an engine reads: its bytes, and the elements in them (an E2M1 byte holds two, R108). -/
abbrev Unit_ := Nat × Nat

/-- A block of units, as listed: each with an uncorrectable byte is zero, and named, once for each of its elements, by its offset and that
of its first bad byte. -/
def zeroUnits : Nat → List Unit_ → List Byte → List Bool → List Byte × List (Nat × Nat)
  | _, [], bs, _ => (bs, [])
  | at_, u :: us, bs, bad =>
    let r := zeroUnits (at_ + u.1) us (bs.drop u.1) (bad.drop u.1)
    match (bad.take u.1).findIdx? id with
    | some k => (List.replicate (bs.take u.1).length 0 ++ r.1, List.replicate u.2 (at_, at_ + k) ++ r.2)
    | none => (bs.take u.1 ++ r.1, r.2)

/-- The part that holds a byte of an access, counted from its first. -/
def partIn : List Part → Nat → Option (Part × Nat)
  | [], _ => none
  | p :: ps, k => if k < p.n then some (p, k) else partIn ps (k - p.n)

/-- One poisoned element of a block met by an engine: of a poisoned page, counted where it was translated, or uncorrectable, counted at
its home (R189, R363). -/
def State.meetUnit (s : State) (by_ : Issuer) (core va : Nat) (ps : List Part) (k : Nat) : State :=
  match partIn ps k with
  | none => s
  | some x => if x.1.x.poison then s.meetPoisonPage by_ core va else s.meetPoison by_ va (s.target (if x.1.x.memside then 3 else x.1.x.attr) (x.1.x.pa + x.2))

/-- An engine's read of a block of units, as listed, through translation; each poisoned element reads zero and is counted for the
issuer (R211, R305, R340, R361). -/
def State.readParts (s : State) (by_ : Issuer) (core va : Nat) (us : List Unit_) (ps : List Part) : State × List Byte :=
  let bs := (s.engineRead ps).1
  let bad := s.badBytes ps
  if bad.any id then
    let r := zeroUnits 0 us bs bad
    (r.2.foldl (fun s k => s.meetUnit by_ core (va56 (va + k.1)) ps k.2) s, r.1)
  else (s, bs)

/-- `n` units of `size` bytes, one element each. -/
def plainUnits (n size : Nat) : List Unit_ := List.replicate n (size, 1)

/-- The units that begin between two offsets of a block, where the first of them all begins at `at_`. -/
def unitsIn : Nat → List Unit_ → Nat → Nat → List Unit_
  | _, [], _, _ => []
  | at_, u :: us, lo, hi =>
    if at_ < lo then unitsIn (at_ + u.1) us lo hi else if at_ < hi then u :: unitsIn (at_ + u.1) us lo hi else []

/-- Some more pages of an image read behind the bytes `bs` of it, each translated as it is reached: a page whose walk fails, or which is
held, ends the reading (R211, R340). -/
def State.readPages (by_ : Issuer) (core space src total : Nat) (us : List Unit_) :
    Nat → State → List Byte → State × List Byte × Option (PFault × Nat)
  | 0, s, bs => (s, bs, none)
  | k + 1, s, bs =>
    if total ≤ bs.length then (s, bs, none)
    else
      let va := va56 (src + bs.length)
      let n := min (2 ^ 17 - va % 2 ^ 17) (total - bs.length)
      match s.xlatElem core space va n .read with
      | .error e => (s, bs, some (e, s.failVA core space va n .read))
      | .ok ps =>
        if ps.any s.partHeld then (s, bs, none)
        else
          let r := s.readParts by_ core va (unitsIn 0 us bs.length (bs.length + n)) ps
          State.readPages by_ core space src total us k r.1 (bs ++ r.2)

/-- A unit's write of bytes through translation; it pushes nothing (R316). -/
def State.writeVA (s : State) (core space va : Nat) (bs : List Byte) : Except PFault State :=
  match s.xlatElem core space va bs.length .write with
  | .error e => .error e
  | .ok ps => .ok (s.engineWrite (wheelOf core) false ps bs)

end Sys2Proof.Machine
end

