-- ==== Sys2Proof/Machine/Operands.lean ====
section
/-! DEFINITION. Operand forms: scalar registers, OS fields, U sources, queues, latches, beats (R48, R53, R56, R65, R80,
R81, R256, R257). -/

namespace Sys2Proof

/-- The s registers a U source reads. -/
def USrc.sregs : USrc → List Nat
  | .s n => [n.toNat]
  | _ => []

/-- The s registers an OS field reads. -/
def Os.sregs : Os → List Nat
  | .s n => [n.val]
  | _ => []

/-- The v registers an OS field reads. -/
def Os.vregs : Os → List Nat
  | .v n => [n.val]
  | _ => []

end Sys2Proof

namespace Sys2Proof.Machine

open Sys2Proof

/-! ## Scalar registers and predicates -/

/-- s[n]; s0 reads zero (R65). -/
def Group.sreg (g : Group) (n : Nat) : Reg := if n = 0 then 0 else g.s.getD n 0

/-- s[n] written; a write to s0 is discarded (R65), and a write in flight is dropped (R71). -/
def Group.setS (g : Group) (n : Nat) (v : Reg) : Group :=
  if n = 0 then g
  else { g with s := modAt (fun _ => v) n g.s, spend := g.spend.filter (fun x => x.1 != n) }

/-- The names of s registers written by a word that ends later: older writes in flight to them are dropped (R70, R71). -/
def Group.owe (g : Group) (qs : List Nat) (id : Nat) : Group :=
  { g with spend := g.spend.filter (fun x => !qs.contains x.1) ++ (qs.filter (· != 0)).map (fun n => (n, id)) }

/-- A write in flight that arrives at s[n], unless a later one has taken its place (R71, R74). -/
def Group.landS (g : Group) (id n : Nat) (v : Reg) : Group :=
  if g.spend.contains (n, id) then
    let g := { g with spend := g.spend.filter (fun x => !(x.1 == n && x.2 == id)) }
    { g with s := if n = 0 then g.s else modAt (fun _ => v) n g.s }
  else g

/-- A write in flight of a word that is run again which a landing takes over: only where no later write has taken its place (R71). -/
def Group.passOn (g : Group) (wid id : Nat) (qs : List Nat) : Group :=
  if wid = 0 then g.owe qs id
  else { g with spend := g.spend.map (fun x => if x.2 = wid && qs.contains x.1 then (x.1, id) else x) }

/-- A status register written by a word: at its issue, or by the write in flight of a word that is run again. -/
def Group.putS (g : Group) (id n : Nat) (v : Reg) : Group := if id = 0 then g.setS n v else g.landS id n v

/-- What a word reads of the s registers, kept for when it is run again (R6, R70). -/
def Group.keep (g : Group) (rs : List Nat) : List (Nat × Reg) := rs.map (fun n => (n, g.sreg n))

/-- A group as a word that is run again sees it: the sources as the word read them at its issue (R6, R70). -/
def Group.withKept (g : Group) (k : Kept) : Group :=
  { g with s := k.s.foldl (fun l x => modAt (fun _ => x.2) x.1 l) g.s }

/-- Predicate p of a thread; p0 reads true (R65). -/
def Thread.pred (t : Thread) (p : Nat) : Bool := p == 0 || t.p.getLsbD p

/-- Predicate p written; p0 stays true (R65). -/
def Thread.setPred (t : Thread) (p : Nat) (v : Bool) : Thread :=
  if p = 0 then t
  else { t with p := if v then t.p ||| BitVec.twoPow 8 p else t.p &&& ~~~(BitVec.twoPow 8 p) }

/-- v[n] of a thread. -/
def Thread.vreg (t : Thread) (n : Nat) : Word := t.v.getD n 0

/-- v[n] written; a parked element's later write to it is dropped (R71, R73). -/
def Thread.setV (t : Thread) (n : Nat) (v : Word) : Thread :=
  { t with v := modAt (fun _ => v) n t.v, pend := t.pend.filter (fun x => x.1 != n) }

/-- The shift of a thread's latches with a delivery (R56). -/
def Thread.latchPush (t : Thread) (v : Word) : Thread := { t with lat := ⟨v, true⟩ :: t.lat.take 3 }

/-- Latch n of a thread. -/
def Thread.latch (t : Thread) (n : Nat) : Word := (t.lat.getD n ⟨0, false⟩).val

/-- A thread of a group. -/
def Group.thread (g : Group) (t : Nat) : Thread := g.threads.getD t Thread.gone

/-! ## Beats and queues -/

/-- The beats in which a thread of the mask is active (R81). -/
def beatsOf (width : Nat) (m : Mask) : List Nat :=
  (List.range (width / 16)).filter (fun k => (rangeFrom (16 * k) 16).any m.getLsbD)

/-- The queue n of a group. -/
def Group.queue (g : Group) (n : Nat) : Queue := g.q.getD n ⟨.self, 0, 0, []⟩

/-- The entries of a queue's beat slice. -/
def Queue.slice (q : Queue) (k : Nat) : List (List Word) := q.slices.getD k []

/-- The consumer's queue that a group's queue n feeds when it is outbound (R256). -/
def Team.consumer (t : Team) (gi n : Nat) : Option (Nat × Nat) :=
  (List.range t.groups.length).findSome? (fun k =>
    (List.range 8).findSome? (fun j =>
      match t.groups[k]? with
      | some g =>
        let q := g.queue j
        if q.kind == .group && q.src == gi && q.srcQ == n then some (k, j) else none
      | none => none))

/-- The values an OS field has for thread t (R53, R63). -/
def Group.osVal (g : Group) (lit : Word) (o : Os) (t : Nat) : Word :=
  match o with
  | .v n => (g.thread t).vreg n.val
  | .s n => (g.sreg n.val).setWidth 32
  | .b n => (g.thread t).latch n.val
  | .lit => lit
  | .zero => 0
  | .lane => BitVec.ofNat 32 t
  | .q n => (((g.queue n.val).slice (t / 16)).headD []).getD (t % 16) 0

/-- The second source of a U word (R48, R78); a latch gives the value of the lowest active thread. -/
def Group.uVal (g : Group) (mask : Mask) (lit : Word) (b : USrc) : Reg :=
  match b with
  | .imm n => n.signExtend 64
  | .s n => g.sreg n.toNat
  | .latch n => ((g.thread (Mask.lo mask g.width)).latch n.val).signExtend 64
  | .lit => lit.signExtend 64

/-- The queues a list of source fields pops, each once (R54). -/
def popsOf (l : List Os) : List Nat := (l.filterMap (fun o => match o with | .q n => some n.val | _ => none)).eraseDups

/-- A queue with one entry popped from each running beat's slice. -/
def Queue.pop (q : Queue) (beats : List Nat) : Queue :=
  { q with slices := mapFrom (fun k l => if beats.contains k then l.drop 1 else l) 0 q.slices }

/-- The entry of beat slice k (R256). -/
def beatEntry (val : Nat → Word) (k : Nat) : List Word := (List.range 16).map (fun j => val (16 * k + j))

/-- A queue with one entry pushed into each running beat's slice; an inactive thread's value is 0 (R256). -/
def Queue.push (q : Queue) (beats : List Nat) (val : Nat → Word) : Queue :=
  { q with slices := mapFrom (fun k l => if beats.contains k then l ++ [beatEntry val k] else l) 0 q.slices }

/-- Pops one entry from each running beat's slice of queue n (R256). -/
def Group.popQ (g : Group) (beats : List Nat) (n : Nat) : Group :=
  { g with q := modAt (fun q => q.pop beats) n g.q }

/-- Pushes one entry into each running beat's slice of queue n (R256). -/
def Group.pushQ (g : Group) (beats : List Nat) (n : Nat) (val : Nat → Word) : Group :=
  { g with q := modAt (fun q => q.push beats val) n g.q }

/-- Every running beat's slice holds an entry (R85, 3). -/
def Queue.hasAll (q : Queue) (beats : List Nat) : Bool := beats.all (fun k => !(q.slice k).isEmpty)
/-- Every running beat's slice has room (R85, 4). -/
def Queue.roomAll (q : Queue) (beats : List Nat) : Bool := beats.all (fun k => decide ((q.slice k).length < Config.queueDepth))

/-- A pop of an outbound queue, or a push of a queue that its own group may not push (R257). -/
def Team.queueState (t : Team) (gi : Nat) (pops : List Nat) (push : Option Nat) : Bool :=
  pops.any (fun n => (t.consumer gi n).isSome) ||
    match push, t.groups[gi]? with
    | some n, some g => (g.queue n).kind != .self
    | _, _ => false

/-- The queue a push to qN goes to: the consumer's when qN is outbound, else the group's own (R256). -/
def Team.pushTarget (t : Team) (gi n : Nat) : Nat × Nat := (t.consumer gi n).getD (gi, n)

/-- Whether the queues a word pops hold entries and the one it pushes has room (R85). -/
def Team.queuesReady (t : Team) (gi : Nat) (beats pops : List Nat) (push : Option Nat) : Bool :=
  (match t.groups[gi]? with
   | some g => pops.all (fun n => (g.queue n).hasAll beats)
   | none => false) &&
  match push with
  | some n =>
    let p := t.pushTarget gi n
    (match t.groups[p.1]? with
     | some g => (g.queue p.2).roomAll beats
     | none => false)
  | none => true

/-! ## Presence of registers -/

/-- A register that a parked load element of an active thread still owes (R70, R73). -/
def Group.vPending (g : Group) (mask : Mask) (regs : List Nat) : Bool :=
  (Mask.list mask g.width).any (fun t => (g.thread t).pend.any (fun x => regs.contains x.1))

/-- Why a word waits for registers that loads owe: one that a parked element has still to write, or one whose load has only to
complete (R70, R302). -/
def State.owedBy (s : State) (g : Group) (mask : Mask) (regs : List Nat) : Stall :=
  if (Mask.list mask g.width).any (fun t => (g.thread t).pend.any (fun x =>
      regs.contains x.1 && (s.core g.core).replay.any (fun p => p.load == x.2 && p.elems.any (fun e => e.thread == t)))) then
    .parked
  else .busy

/-- An s register whose write is in flight (R70). -/
def Group.sPending (g : Group) (regs : List Nat) : Bool := g.spend.any (fun x => regs.contains x.1)

/-- The rows of the private store buffer that a thread has used in the quantum (R346). -/
def Group.rows (g : Group) (t : Nat) : Nat := (g.buf.filter (fun b => b.thread == t)).length

/-- A push to queue n waits behind a load word whose entries are still to be pushed to it: pushes keep program order
(R72, R151). -/
def State.pushHeld (s : State) (gid : GrpId) (g : Group) (push : Option Nat) : Bool :=
  push.isSome && (s.core g.core).loads.any (fun r => decide (r.grp = gid) && r.q == push)

/-! ## Addresses -/

/-- A 32-bit index or literal extended to 56 bits, as a number modulo 2^56 (R46, R49). -/
def sx56 (w : Word) : Nat := (w.signExtend 56).toNat

/-- The address a thread of an M word forms (R49). -/
def Group.maddr (g : Group) (lit : Word) (m : MAddr) (size t : Nat) : Nat :=
  va56 ((g.sreg m.s.toNat).toNat + sx56 (g.osVal lit m.x t) * size + (if m.o then sx56 lit else 0))

end Sys2Proof.Machine
end

