-- ==== Sys2Proof/Machine/Flags.lean ====
section
/-! DEFINITION. The conditions that set predicates (R96, R98, R135) and the status words (R5, R140, R17, R305). -/

namespace Sys2Proof.Machine

open Sys2Proof

/-- The condition of `VCMPI` (R96). -/
def cmpIOp (c : CmpI) (a b : Word) : Bool :=
  match c with
  | .eq => a == b
  | .ne => a != b
  | .lt => a.slt b
  | .le => a.sle b
  | .ltn => a.ult b
  | .len => a.ule b
  | .gt => b.slt a
  | .ge => b.sle a

/-- The condition of `VCMPF` (R96). -/
def cmpFOp (c : CmpF) (a b : Word) : Bool :=
  let x := a.toNat
  let y := b.toNat
  let ord := !f32.isNan x && !f32.isNan y
  match c with
  | .eq => ord && f32.key x == f32.key y
  | .ne => !ord || f32.key x != f32.key y
  | .lt => ord && decide (f32.key x < f32.key y)
  | .le => ord && decide (f32.key x ≤ f32.key y)
  | .gt => ord && decide (f32.key y < f32.key x)
  | .ge => ord && decide (f32.key y ≤ f32.key x)
  | .un => !ord
  | .or => ord

/-- The operation of `VPRED` (R98). -/
def predOpOf (op : PredOp) (a b : Bool) : Bool :=
  match op with
  | .and => a && b
  | .or => a || b
  | .xor => a != b
  | .not => !a
  | .move => a

/-- A delivery of a predicate result: 1 or 0 (R56). -/
def boolWord (b : Bool) : Word := if b then 1 else 0

/-- The status codes of R5. -/
def stOk : Nat := 0
def stTimeout : Nat := 1
def stNosub : Nat := 3
def stOverrun : Nat := 4
def stBusy : Nat := 5
def stRejected : Nat := 6

/-- A status register's value: the code in bits [31:0] and a value in bits [63:32] (R158, R261). -/
def statusVal (code hi : Nat) : Reg := BitVec.ofNat 64 (code % 2 ^ 32 + hi % 2 ^ 32 * 2 ^ 32)

/-- The replay entries of a group, oldest first (R301). -/
def Core.parksOf (c : Core) (g : GrpId) : List Park := c.replay.filter (fun p => decide (p.grp = g))

/-- The replay entries of a team on every core of it. -/
def State.parksOfTeam (s : State) (t : TeamId) : List Park :=
  s.cores.flatMap (fun c => c.replay.filter (fun p => decide (p.grp.team = t)))

/-- `STATUS` of a team (R305). -/
def State.statusReg (s : State) (t : Team) : Reg :=
  BitVec.ofNat 64 ((if t.poisonSeen then 1 else 0) + (if t.trapOnPoison then 2 else 0) + t.lastCause % 256 * 2 ^ 8 +
    t.poisonCnt * 2 ^ 16 + (s.parksOfTeam t.id).length % 256 * 2 ^ 32)

/-- A write of `STATUS`: bit 1 is written, bit 0 clears where 1 is written (R305). -/
def Team.writeStatus (t : Team) (v : Reg) : Team :=
  { t with trapOnPoison := v.getLsbD 1, poisonSeen := t.poisonSeen && !v.getLsbD 0 }

/-- `PORTSTAT` of a core (R17). -/
def Core.portstat (c : Core) : Reg :=
  BitVec.ofNat 64 (c.fail.toNat + (if c.halfWidth then 2 ^ 16 + c.deadHalf * 2 ^ 17 else 0))

/-- The granules of a core that hold a resident team's pages (R140). -/
def State.usedGrans (s : State) (core : Nat) : List Nat :=
  s.teams.flatMap (fun t => (t.grans.filter (fun g => g.1 == core)).map (·.2))

/-- `SCRPART` of a core (R140). -/
def State.scrpart (s : State) (core : Nat) : Reg :=
  BitVec.ofNat 64 ((s.core core).scr.toNat +
    ((List.range 20).filter (fun g => (s.usedGrans core).contains g)).foldl (fun n g => n + 2 ^ (20 + g)) 0)

/-- `THROT` of a wheel (R367). -/
def Wheel.throt (w : Wheel) : Reg :=
  BitVec.ofNat 64 (w.throtReason % 32 + w.clk25 % 256 * 2 ^ 8 + w.throtEvents % 2 ^ 32 * 2 ^ 16)

end Sys2Proof.Machine
end

