-- ==== Sys2Proof/Machine/Ops.lean ====
section
/-! DEFINITION. The shared operations: the word in issue and how its meaning ends, waits, scratchpad windows, taking a
trap and returning from one (R45, R51, R63, R142 to R159, R297 to R300, R307, R354). -/

namespace Sys2Proof.Machine

open Sys2Proof

/-! ## The word in issue -/

/-- Who the word in issue acts for (R300, `TMASK`). -/
def State.issuer (s : State) : Issuer :=
  { team := s.iss.grp.team, grp := s.iss.grp.grp, mask := s.iss.mask, slot := s.iss.slot, word := s.iss.word,
    pc := s.iss.pc }

/-- How a word's meaning ends: with its effect; in a trap before any effect (R45); not ready (R85); or waiting, with
the state as the word's start left it and the value its timeout would report (R159). -/
inductive Res where
  | done (s : State)
  | trap (x : Trap)
  | stall (k : Stall)
  | wait (s : State) (hi : Nat)

/-- The causes that R45's checks raise and to which no rule gives a table of detail codes: REG_RANGE, JOIN_OVERFLOW,
SCRATCH_RANGE, SIBLING_DENIED, MISALIGNED, FORMAT_ABSENT and QUEUE_STATE. -/
def slotDetail (cause : Nat) : Bool := (3 ≤ cause && cause ≤ 7) || cause == 9 || cause == 10

/-- A trap that the word in issue raises itself (R7, R300): its detail is the code of R44, R62 or R190, and the failing
slot where no rule gives the cause codes (R45, R257; DEDUCED, log 45). -/
def State.wordTrap (s : State) (cause detail addr level flags : Nat) : Trap :=
  { cause := cause, detail := if slotDetail cause then s.iss.slot else detail, slot := s.iss.slot, flags := flags, level := level, addr := addr, aux := 0,
    mask := s.iss.mask, word := s.iss.word }

/-- `trap(CAUSE)` without address or detail. -/
def State.raise (s : State) (cause detail : Nat) : Res := .trap (s.wordTrap cause detail 0 0xFF 0)

/-- A `PAGE_FAULT` at the word (R190, R261). -/
def State.raiseFault (s : State) (e : PFault) (va : Nat) (write : Bool) : Res :=
  .trap (s.wordTrap 8 e.detail va e.level (if write then 16 else 0))

/-- `ILLEGAL_OP`, detail 6 (R61). -/
def State.notPrivileged (s : State) : Res := s.raise 2 6

/-- The status register and value of a word that completes (R5, R51). -/
def State.putStatus (s : State) (q : BitVec 6) (code hi : Nat) : State :=
  s.modGrp s.iss.grp (fun g => g.putS s.iss.wid q.toNat (statusVal code hi))

/-- A status register pair of a word that completes (R264, R322). -/
def State.putPair (s : State) (q : BitVec 6) (code hi : Nat) (v : Reg) : State :=
  s.modGrp s.iss.grp (fun g =>
    (g.putS s.iss.wid q.toNat (statusVal code hi)).putS s.iss.wid (q.toNat + 1) v)

/-- A word that completes with a status. -/
def State.fin (s : State) (q : BitVec 6) (code hi : Nat) : Res := .done (s.putStatus q code hi)

/-! ## Scratchpad windows -/

/-- The first byte of team i's save region (R277). -/
def Launch.region (l : Launch) (i : Nat) : Nat := l.save + i * l.savestr * 4096

/-- The stride of private windows in a save region, V (R277). -/
def Launch.privStride (l : Launch) : Nat := 128 * ((l.privw * l.width * 4 + 127) / 128)

/-- The shadow's offset in a save region (R277). -/
def Launch.shadowOff (l : Launch) : Nat := 4096 * ((l.groups * l.privStride + 4095) / 4096)

/-- The context part's offset in a save region (R277). -/
def Launch.ctxOff (l : Launch) : Nat := l.shadowOff + 4096 * ((l.window + 4095) / 4096)

/-- The allotment a of n vector registers (R66). -/
def allot (n : Nat) : Nat := 8 * ((n + 7) / 8)

/-- The bytes of the context part (R277, R309). -/
def Launch.ctxLen (l : Launch) : Nat :=
  4096 * ((458752 + l.groups * (allot l.vregs * l.width * 4 + 512 * l.width + 1024) + 4095) / 4096)

/-- The frame slot of a group, the value of `TFRAME` (R309). -/
def Launch.frame (l : Launch) (i j : Nat) : Nat := l.region i + l.ctxOff + 59392 + 256 * j

/-- Whether a team's scratch pages are pinned (R147). -/
def Team.pinned (t : Team) : Bool :=
  match t.loc with
  | .resident | .saving _ => true
  | _ => false

/-- The core that holds a byte of a team's window (R145). -/
def Team.coreAt (t : Team) (off : Nat) : Nat := if t.paired && decide (t.wsize / 2 ≤ off) then t.core + 1 else t.core

/-- A translated byte of an unpinned window's shadow (R147, R148). -/
def State.shadowPA (s : State) (t : Team) (off : Nat) (acc : Acc) : Option Xlat :=
  match s.launch? t.id with
  | some l =>
    match s.translate t.core t.space (va56 (l.region t.id.idx + l.shadowOff + off)) acc with
    | .ok x => some x
    | .error _ => none
  | none => none

/-- One byte of a team's window: in its frames, or in its shadow while unpinned (R147); an uncorrectable one reads zero, and so does one of
a poisoned page (R189, R363). -/
def State.winByte (s : State) (t : Team) (off : Nat) : Byte :=
  if t.pinned then (if t.winBad.contains off then 0 else t.win.read off)
  else
    match s.shadowPA t off .read with
    | some x => if x.poison then 0 else s.physRead x.pa
    | none => 0

/-- `n` bytes of a team's window. -/
def State.winRead (s : State) (id : TeamId) (off n : Nat) : List Byte :=
  match s.team? id with
  | some t => (rangeFrom off n).map (s.winByte t)
  | none => List.replicate n 0

/-- A number in a team's window, little-endian. -/
def State.winNat (s : State) (id : TeamId) (off n : Nat) : Nat := leNat (s.winRead id off n)

/-- Whether bytes of a team's window hold an uncorrectable one, or, while unpinned, one of a poisoned page (R189, R363). -/
def State.winBadIn (s : State) (id : TeamId) (off n : Nat) : Bool :=
  match s.team? id with
  | some t =>
    if t.pinned then !t.winBad.isEmpty && (rangeFrom off n).any t.winBad.contains
    else (rangeFrom off n).any (fun o => match s.shadowPA t o .read with | some x => x.poison || s.bad (s.fwd x.pa) | none => false)
  | none => false

/-- An uncorrectable element of a window met by an access or an engine: counted at the wheel of the array, or, while the page is unpinned,
at its home or, of a poisoned page, where it was translated (R147, R189, R305, R363). -/
def State.winMeet (s : State) (by_ : Issuer) (id : TeamId) (off va : Nat) : State :=
  let s1 := match s.team? id with
    | some t =>
      if t.pinned then (s.count (wheelOf (t.coreAt off)) 0x41 1).count (wheelOf (t.coreAt off)) 0x47 1
      else match s.shadowPA t off .read with
        | some x => if x.poison then s.count (wheelOf t.core) 0x47 1 else s.countBad (s.fwd x.pa)
        | none => s
    | none => s
  (s1.poisonSeen by_.team).poisonTrap by_ va

/-- An element of a window as an access or an engine reads it: zero, counted and poison where it holds an uncorrectable byte (R363). -/
def State.winElem (s : State) (by_ : Issuer) (id : TeamId) (off n va : Nat) : State × List Byte :=
  if s.winBadIn id off n then (s.winMeet by_ id off va, List.replicate n 0) else (s, s.winRead id off n)

/-- Elements of `n` bytes of a window at some offsets, as an engine reads them (R305, R363). -/
def State.winElems (s : State) (by_ : Issuer) (id : TeamId) (n : Nat) : List Nat → State × List (List Byte)
  | [] => (s, [])
  | off :: offs =>
    let a := s.winElem by_ id off n off
    let r := a.1.winElems by_ id n offs
    (r.1, a.2 :: r.2)

/-- A block of a window as an engine reads it, by 32-bit words (R212, R335, R363). -/
def State.winBlock (s : State) (by_ : Issuer) (a : TeamId) (off n : Nat) : State × List Byte :=
  if s.winBadIn a off n then
    let r := s.winElems by_ a 4 ((List.range (n / 4)).map (fun k => off + 4 * k))
    (r.1, r.2.flatten)
  else (s, s.winRead a off n)

/-- The physical address of a word of an unpinned window (R148). -/
def State.wordPA (s : State) (id : TeamId) (off : Nat) : Option Nat :=
  match s.team? id with
  | some t => if t.pinned then none else (s.shadowPA t off .read).map (·.pa)
  | none => none

/-- Bytes of an unpinned window written into its shadow, page by page (R148). -/
def State.shadowPut (s : State) (t : Team) (push : Bool) : Nat → List (Nat × Nat) → List Byte → State
  | _, [], _ => s
  | off, p :: ps, bs =>
    let s1 := match s.shadowPA t off .write with
      | some y => if y.poison then s.count (wheelOf t.core) 0x46 1 else s.writeCells none 0 push (cellsAt y.pa (bs.take p.2))
      | none => s
    s1.shadowPut t push (off + p.2) ps (bs.drop p.2)

/-- Bytes written into a window, without examination of waits; `push` says whether the write is one that pushes, where it goes to the
shadow (R316). -/
def State.winPut (s : State) (id : TeamId) (off : Nat) (bs : List Byte) (push : Bool) : State :=
  match s.team? id with
  | some t =>
    if t.pinned then
      s.modTeam id (fun t =>
        { t with win := t.win.writeN off bs, winBad := t.winBad.filter (fun o => decide (o < off) || decide (off + bs.length ≤ o)) })
    else s.shadowPut t push off (splitParts (bs.length / 4096 + 2) off bs.length) bs
  | none => s

/-- One examination of a wait that watches a word of a window (R159). -/
def State.lookWord (s : State) (id : TeamId) (off n : Nat) (w : WaitRec) : WaitRec :=
  match w.watch with
  | some (.word x) =>
    if x.team = id ∧ x.off < off + n ∧ off < x.off + 4 then
      let v : Word := BitVec.ofNat 32 (s.winNat id x.off 4)
      { w with watch := some (.word { x with last := v, seen := if x.seen = none ∧ v ≠ x.val then some v else x.seen }) }
    else w
  | _ => w

/-- The switch of a team's window between its frames and its shadow is an examination of the waits on its words (R148, R159). -/
def State.switched (s : State) (id : TeamId) : State :=
  if s.watched then
    let s1 := s.modGroups (fun g => { g with waits := g.waits.map (fun w =>
      match w.watch with
      | some (.word x) => if x.team = id then { w with watch := some (.word { x with pa := s.wordPA id x.off }) } else w
      | _ => w) })
    s1.modGroups (fun g => { g with waits := g.waits.map (s1.lookWord id 0 (2 ^ 20)) })
  else s

/-- The waits on words of a window examined. -/
def State.examineWords (s : State) (id : TeamId) (off n : Nat) : State :=
  s.modGroups (fun g => { g with waits := g.waits.map (s.lookWord id off n) })

/-- What an examination of a slot finds that ends a `SLOTWAIT`, from the slot's bytes: the status, `SEQ` and `VALUE`, and the slot as it
stands afterwards (R324, R325). -/
def slotFound (n : Nat) : Option ((Nat × Nat × Reg) × Nat) :=
  let got (st : Nat) : Nat × Nat × Reg := (st, fld n 64 32, BitVec.ofNat 64 n)
  if n.testBit 97 then
    some (got (if n.testBit 98 then stOverrun else stOk), n - 2 ^ 97 - (if n.testBit 98 then 2 ^ 98 else 0))
  else if !n.testBit 96 then some (got stNosub, n)
  else none

/-- One examination of a `SLOTWAIT` after a write to its slot (R325): it performs `SLOTRD`'s update where it finds a value unread. An
uncorrectable slot is left to the word's own examination as the step ends. -/
def State.lookSlot (s : State) (id : TeamId) (off n : Nat) (gid : GrpId) (w : WaitRec) : State :=
  match w.watch with
  | some (.slot tm o none) =>
    if w.serial || w.held || decide (tm ≠ id) || decide (off + n ≤ o) || decide (o + 16 ≤ off) || s.winBadIn id o 16 then s
    else
      match slotFound (s.winNat id o 16) with
      | none => s
      | some r =>
        (((if r.2 = s.winNat id o 16 then s else s.winPut id o (leBytes 16 r.2) false).examineWords id o 16).sawSlot gid id o 16).modGrp gid (fun g =>
          { g with waits := g.waits.map (fun x => if x.id = w.id then { x with watch := some (.slot tm o (some r.1)) } else x) })
  | _ => s

/-- The waits of a state, with their groups. -/
def State.allWaits (s : State) : List (GrpId × WaitRec) :=
  s.teams.flatMap (fun t => (t.grpIds.zip t.groups).flatMap (fun x => x.2.waits.map (fun w => (x.1, w))))

/-- A write of the window is an examination of the waits that watch the bytes (R159, R325). -/
def State.examine (s : State) (id : TeamId) (off n : Nat) : State :=
  if s.watched then
    let s1 := s.examineWords id off n
    s1.allWaits.foldl (fun s x => s.lookSlot id off n x.1 x.2) s1
  else s

/-- One write of a window: its bytes, then the examination of the waits on them (R148, R159). -/
def State.winWrite (s : State) (id : TeamId) (off : Nat) (bs : List Byte) : State :=
  (s.winPut id off bs false).examine id off bs.length

/-- One write of a window by a store element, an atomic or a copy: into the shadow, it pushes (R316). -/
def State.winStore (s : State) (id : TeamId) (off : Nat) (bs : List Byte) : State :=
  (s.winPut id off bs true).examine id off bs.length

/-- A 32-bit word written into a window. -/
def State.winWrite32 (s : State) (id : TeamId) (off : Nat) (v : Word) : State := s.winWrite id off (leBytes 4 v.toNat)

/-- Whether bytes of an unpinned window stand in lines whose homes hold writes: what would read or write them waits (R148, R203,
R352). -/
def State.winHeld (s : State) (id : TeamId) (off n : Nat) : Bool :=
  match s.team? id with
  | some t =>
    !t.pinned && (rangeFrom off n).any (fun o =>
      match s.shadowPA t o .write with
      | some x => s.writeLocked x.pa || s.mute x.pa
      | none => false)
  | none => false

/-- Where a scratchpad address leads (R144): a team and an offset. -/
structure ScrAt where
  team : TeamId
  off : Nat
  deriving DecidableEq, Repr

/-- Whether every group of a team on its cores has ended, with nothing of it left to commit: it has exited (R120, R347). -/
def Team.over (t : Team) : Bool :=
  decide (t.loc = .resident) &&
    t.groups.all (fun g => g.threads.all (fun x => x.st == .exited) && g.buf.isEmpty && g.serial.isEmpty)

/-- The checks of R146 for one element of `n` bytes: the place, or the cause of the trap (5 `SCRATCH_RANGE`,
6 `SIBLING_DENIED`). -/
def State.scrAt (s : State) (id : TeamId) (addr n : Nat) : Except Nat ScrAt :=
  if addr / 2 ^ 23 ≠ 0 || (fld addr 22 1 == 0 && fld addr 20 2 != 0) then .error 5
  else if fld addr 22 1 = 1 then
    if !((s.launch? id).map (·.gang)).getD false then .error 6
    else
      let sib : TeamId := ⟨id.node, 4 * (id.idx / 4) + fld addr 20 2⟩
      match s.team? sib with
      | none => .error 5
      | some t => if !t.over && decide (fld addr 0 20 + n ≤ t.wsize) then .ok ⟨sib, fld addr 0 20⟩ else .error 5
  else
    match s.team? id with
    | none => .error 5
    | some t => if fld addr 0 20 + n ≤ t.wsize then .ok ⟨id, fld addr 0 20⟩ else .error 5

/-- Whether a byte range of a window overlaps a range scoreboard entry (R152). -/
def State.inRange (s : State) (id : TeamId) (off n : Nat) : Bool :=
  s.cores.any (fun c => c.ranges.any (fun e => decide (e.team = id) && decide (e.lo < off + n) && decide (off ≤ e.hi)))

/-! ## Waits -/

/-- The end of a timeout exponent's limit, counted from now in cycles of a core; 31 is no limit (R3, R51). -/
def State.deadline (s : State) (core : Nat) (x : BitVec 5) : Option Nat :=
  if x = 31 then none else some (s.now core + 2 ^ x.toNat)

/-- Blocks the word's threads on its condition (R120, R159): it keeps what it has read, the s registers `rs`, and its write to
the registers `qs` is in flight (R70, R71); `hi` is what a timeout would report now. -/
def State.block (s : State) (rs qs : List Nat) (x : BitVec 5) (w : Option Watch) (hi : Nat) : State :=
  let i := s.iss
  let id := if i.wid = 0 then s.fresh else i.wid
  (if i.wid = 0 then s.tick else s).modGrp i.grp (fun g0 =>
    let g := if i.wid = 0 then g0.owe qs id else g0
    let r : WaitRec :=
      { id := id, kept := if i.wid = 0 then ⟨g0.keep rs, []⟩ else i.kept, held := false, mask := i.mask, watch := w, pc := i.pc, base := i.base, next := i.next, slot := i.slot, word := i.word,
        lit := i.lit, sys := i.sys, last := hi, serial := decide (i.mode = .serial),
        deadline := if i.mode = .serial then (if x = 31 then none else some (2 ^ x.toNat)) else s.deadline g.core x, quanta := 0 }
    { (g.onThreads i.mask (fun _ t => if t.st = .runnable then { t with st := .blocked } else t)) with
      waits := g.waits ++ [r] })

/-- The parameter block that the word in issue has read at its issue, where it is run again (R212, R335). -/
def State.keptBlock (s : State) (g : Group) : Option (List Byte) :=
  if s.iss.mode = .examine ∨ s.iss.mode = .expire then (g.blocks.find? (fun x => x.1 == s.iss.mask)).map (·.2) else none

/-- What a word that waits has read, kept for its later examinations. -/
def State.keepBlock (s : State) (bs : List Byte) : State :=
  s.modGrp s.iss.grp (fun g => { g with blocks := (s.iss.mask, bs) :: g.blocks.filter (fun x => x.1 != s.iss.mask) })

/-- A word waits with the parameter block it has read. -/
def State.waitWith (s : State) (bs : List Byte) : Res := .wait (s.keepBlock bs) 0

/-! ## Memory-layer clocks (R296) -/

/-- A wheel's written ratio takes effect, if one waits to. -/
def State.takeMclk (s : State) (wheel : Nat) : State :=
  if (s.wheel wheel).pend then s.modWheel wheel (fun x => { x with eff := x.ratio, pend := false }) else s

/-- An access of a trap's frame that has to cross to a stack waits there for a new ratio, which takes effect in the meantime (R296). -/
def State.crossing (s : State) (ps : List Part) : State :=
  ps.foldl (fun s p => if p.x.memside && !p.x.poison then s.takeMclk (s.homeWheel p.x.pa) else s) s

/-! ## Losing a team -/

/-- The control word of a record written at a stop: `DONE`, `STOP`, and `OWN` kept (R231, R237). -/
def stopCtl (ctl done reason : Nat) : Nat :=
  done % 2 ^ 32 * 2 ^ 32 + reason % 16 * 2 ^ 12 + (ctl % 2 ^ 12) + fld ctl 16 16 * 2 ^ 16

/-- The control word of a record that has completed (R231, R236). -/
def Xfer.doneCtl (x : Xfer) : Nat := x.ctype * 2 + (if x.sscr then 8 else 0) + (if x.dscr then 16 else 0)

/-- The offset of element n, dimension 0 fastest (R234). -/
def affineOff : List (Nat × Int) → Nat → Int
  | [], _ => 0
  | d :: ds, n => (n % d.1 : Nat) * d.2 + affineOff ds (n / d.1)

/-- The address of element n of a side (R234): with a shape modulo 2^56, or 2^23 in scratchpad; without one as it is, in the 56 bits of an
address. -/
def sideAddr (base : Nat) (shape : Option Shape) (esize : Nat) (scr : Bool) (n : Nat) : Nat :=
  match shape with
  | some x => (((base : Int) + affineOff x.dims n) % (if scr then 2 ^ 23 else 2 ^ 56)).toNat
  | none => va56 (base + n * esize)

/-- The source address of element n. -/
def Xfer.srcAt (x : Xfer) (n : Nat) : Nat := sideAddr x.src x.sshape x.esize x.sscr n
/-- The destination address of element n. -/
def Xfer.dstAt (x : Xfer) (n : Nat) : Nat := sideAddr x.dst x.dshape x.esize x.dscr n
/-- The number of elements. -/
def Xfer.total (x : Xfer) : Nat := x.count / x.esize

/-- The bytes of memory that an element of a record is written to: of an unpinned window, those of its shadow (R148, R235). -/
def State.dstParts (s : State) (t : Team) (x : Xfer) (n : Nat) : List Part :=
  if x.dscr then
    match s.scrAt t.id (x.dstAt n) x.esize with
    | .error _ => []
    | .ok a =>
      match s.team? a.team with
      | some o =>
        if o.pinned then []
        else (rangeFrom a.off x.esize).filterMap (fun k => (s.shadowPA o k .write).map (fun y => ⟨y, k, 1⟩))
      | none => []
  else
    match s.xlatElem t.core t.space (x.dstAt n) x.esize .write with
    | .ok ps => ps
    | .error _ => []

/-- A byte that a record has written and that is not yet performed: the record has not completed, and does not stop (R203, R236,
R237, R327). -/
def State.dstPending (s : State) (t : Team) (x : Xfer) : Bool :=
  !(s.heldWrites.isEmpty && s.causal.isEmpty) && (List.range x.total).any (fun n => s.partPending (s.dstParts t x n))

/-- The lines of a record's writes that homes hold (R238). -/
def State.dstLines (s : State) (t : Team) (x : Xfer) : List Nat :=
  let ps := (List.range x.total).flatMap (s.dstParts t x)
  ((s.heldWrites.filter (fun h => h.core.isNone)).flatMap (fun h => (h.cells.filter (fun c =>
    ps.any (fun p => !p.x.poison && decide (p.x.pa ≤ c.1) && decide (c.1 < p.x.pa + p.n)))).map (fun c => lineOf c.1))).eraseDups

/-- A record's control word that its home, or a clock crossing, does not let be reached for now (R199, R203, R296). -/
def State.ctlHeld (s : State) (t : Team) (addr : Nat) : Bool := s.vaHeld t.core t.space (va56 (addr + 56)) 8 .write

/-- A channel whose record under way cannot be left yet: its writes have not been performed, or its control word has to wait. -/
def State.chanBusy (s : State) (t : Team) (c : Chan) : Bool :=
  c.act.any (fun x => s.dstPending t x || s.ctlHeld t c.recAddr)

/-- Range scoreboard entries freed, in whatever window (R235). -/
def State.freeEntries (s : State) (ids : List Nat) : State :=
  { s with
    cores := s.cores.map (fun c => { c with ranges := c.ranges.filter (fun e => !(ids.contains e.id)) })
    teams := s.teams.map (fun t => { t with sranges := t.sranges.filter (fun e => !(ids.contains e.2.id)) }) }

/-- The shapes of a record under way, kept for its resumption (R239). -/
def State.fixShapes (s : State) (t : Team) (c : Chan) (unsaid : Bool) : State :=
  match c.act with
  | none => s
  | some x =>
    { s with fixed := ⟨t.space, c.recAddr, x.sva, x.dva, x.sshape, x.dshape, unsaid⟩ ::
        s.fixed.filter (fun y => y.space != t.space || y.addr != c.recAddr) }

/-- The running channels of a team cancelled: each record under way is left with `STOP` 1, its shapes kept and its range scoreboard entries
freed (R235, R239, R240, R245). -/
def State.cancelChans (s : State) (t : Team) : State :=
  t.chans.foldl (fun s c =>
    match c.act with
    | none => s
    | some x =>
      let s := (s.fixShapes t c false).freeEntries x.entries
      match s.writeVA t.core t.space (va56 (c.recAddr + 56)) (leBytes 8 (stopCtl (x.doneCtl + 1) (x.moved * x.esize) 1)) with
      | .ok s' => s'
      | .error _ => s) s

/-- A team-loss report (R354): dropped when 16 are queued; each raises MSI-X vector 1. -/
def State.report (s : State) (id : TeamId) (c1 c2 : Nat) : State :=
  if s.losses.length < Config.lossReports then
    { s with losses := s.losses ++ [⟨id, c1, c2⟩], msix := 1 :: s.msix }
  else { s with lossDrop := true, msix := 1 :: s.msix }

/-- Everything that belongs to a team removed from cores, vats and homes. -/
def State.scrubTeam (s : State) (id : TeamId) : State :=
  State.drainPushes { s with
    teams := s.teams.filter (fun t => !decide (t.id = id))
    cores := s.cores.map (fun c =>
      { c with
        replay := c.replay.filter (fun p => !decide (p.grp.team = id))
        loads := c.loads.filter (fun p => !decide (p.grp.team = id))
        ranges := c.ranges.filter (fun e => !decide (e.team = id))
        streams := c.streams.filter (fun x => !decide (x.grp.team = id))
        loopBufs := c.loopBufs.filter (fun b => !decide (b.owner.team = id))
        holder := if c.holder = some id then none else c.holder })
    vats := s.vats.map (fun v =>
      { v with
        ring := v.ring.filter (fun x => !decide (x.team = id))
        klq := v.klq.filter (fun o => !decide (o.team = id))
        sends := v.sends.filter (fun o => !decide (o.team = id)) })
    subs := s.subs.filter (fun x => !decide (x.team = id))
    flights := s.flights.filter (fun f => !decide (f.team = id))
    cmdWaits := s.cmdWaits.filter (fun c => !decide (c.by_.team = id)) }

/-- One team fewer in a node's count; the last one ends the node (R247, R250). -/
def State.teamGone (s : State) (id : TeamId) : State :=
  s.modNode id.node (fun n => { n with left := n.left - 1, ending := decide (n.left ≤ 1) })

/-- A group that ends where it stands. -/
def Group.stopAll (g : Group) : Group :=
  { g with
    threads := g.threads.map (fun th => { th with st := .exited })
    joins := []
    cur := none
    paths := []
    packet := none
    stream := []
    trapMask := none
    traps := []
    waits := []
    buf := []
    serial := [] }

/-- A team that has ended and been reported: nothing of it runs any more, and it is gone when the writes of its records have been performed
(R237, R299). -/
def State.leaveLost (s : State) (id : TeamId) : State :=
  let s1 : State :=
    { s with
      cores := s.cores.map (fun c =>
        { c with
          replay := c.replay.filter (fun p => !decide (p.grp.team = id))
          loads := c.loads.filter (fun p => !decide (p.grp.team = id))
          streams := c.streams.filter (fun x => !decide (x.grp.team = id)) })
      cmdWaits := s.cmdWaits.filter (fun c => !decide (c.by_.team = id)) }
  s1.modTeam id (fun t =>
    { t with lost := true, loc := .resident, saver := none, groups := t.groups.map Group.stopAll })

/-- A team ends as after a double trap (R299): it is reported, its channels are cancelled, once the writes of their records have been
performed, and it is gone; the node's completion counter is not written. -/
def State.teamLost (s : State) (id : TeamId) (c1 c2 : Nat) : State :=
  match s.team? id with
  | none => s
  | some t =>
    if t.lost then s
    else
      let s := (s.report id c1 c2).modNode id.node (fun n => { n with l := { n.l with done := none } })
      if t.chans.any (s.chanBusy t) then s.leaveLost id else ((s.cancelChans t).scrubTeam id).teamGone id

/-- A `PREEMPT` or `EVENT` trap (R254, R297, R357). -/
def outerTrap (cause aux : Nat) : Trap :=
  { cause := cause, detail := 0, slot := 3, flags := 0, level := 0xFF, addr := 0, aux := aux, mask := 0, word := 0 }

/-- The group that takes a team's `PREEMPT` and `EVENT` traps: the lowest-numbered one that has not ended (R298). -/
def Team.eventGroup (t : Team) : GrpId :=
  ⟨t.id, (t.groups.findIdx? (fun g => g.threads.any (fun x => x.st != .exited))).getD 0⟩

/-- What the examinations after writes have found of the word in issue, where it waits and is run again (R159). -/
def State.found (s : State) : Option Watch := if s.iss.wid = 0 then none else s.iss.watch

/-! ## Taking a trap (R298 to R300) -/

/-- The body address of the segment a trap of a cause enters (R297). -/
def State.segmentFor (s : State) (id : TeamId) (cause : Nat) : Option (Nat × Option Nat) :=
  let dflt := s.defaultSeg.map (fun x => (x.body, x.space))
  match s.launch? id with
  | some l =>
    match l.trapSeg with
    | some h => if cause = 14 || cause = 15 then dflt else some (fld h 7 49 * 128, none)
    | none => dflt
  | none => dflt

/-- The `TFLAGS` of a frame (R300): the trap's own, and `PARKED`. -/
def frameFlags (x : Trap) (parked : Bool) : Nat := x.flags + (if parked then 2 else 0)

/-- The bytes of a frame: TF1, and for an LR2 node TF2 (R300). -/
def State.frameBytes (s : State) (t : Team) (g : Group) (gid : GrpId) (x : Trap) (resume : VAddr) (lr2 : Bool) :
    List Byte :=
  let parks := ((s.core g.core).parksOf gid).length
  let r (n : Nat) : List Byte := leBytes 8 (g.sreg n).toNat
  leBytes 8 resume.toNat ++ leBytes 1 x.cause ++ leBytes 1 x.detail ++ leBytes 1 x.slot ++
    leBytes 1 (frameFlags x (parks != 0)) ++ leBytes 1 x.level ++ leBytes 3 0 ++ leBytes 8 x.addr ++
    leBytes 8 x.aux ++ r 8 ++ r 9 ++ leBytes 8 x.mask.toNat ++ leBytes 4 x.word.toNat ++ leBytes 1 parks ++
    leBytes 3 0 ++
    (if lr2 then r 10 ++ r 11 ++ r 12 ++ r 13 ++ r 14 ++ r 15 ++ leBytes 8 (s.statusReg t).toNat ++
      leBytes 8 (s.now g.core) else [])

/-- Every latch of a thread loses its live mark (R56). -/
def Thread.killLatches (t : Thread) : Thread := { t with lat := t.lat.map (fun l => { l with live := false }) }

/-- Every latch of a group loses its live mark (R56). -/
def Group.killLatches (g : Group) : Group := { g with threads := g.threads.map Thread.killLatches }

/-- Every latch of some threads loses its live mark: a thread that runs alone keeps those of its own sequence (R56). -/
def Group.killOn (g : Group) (m : Mask) : Group := g.onThreads m (fun _ t => t.killLatches)

/-- The uncorrectable entry that a walk has read as invalid is counted where its fault is taken (R190, R363). -/
def State.countTrap (s : State) (core space : Nat) (x : Trap) : State :=
  if x.cause = 8 ∧ x.detail = 1 then s.countWalk core space x.addr else s

/-- A trap enters its handler (R299): the frame is written, latch liveness is cleared, the group enters trap mode and
the receiving path's threads go to the vector. In trap mode already it is a double trap; a frame that cannot be
written, and a missing segment, end the team too. -/
def State.takeTrap (s : State) (gid : GrpId) (path : Mask) (x : Trap) (resume : VAddr) : State :=
  match s.team? gid.team, s.grp? gid, s.launch? gid.team with
  | some t, some g, some l =>
    match g.trapMask with
    | some _ => s.teamLost gid.team g.trapCause x.cause
    | none =>
      let s := s.countTrap g.core t.space x
      match s.segmentFor gid.team x.cause with
      | none => s.teamLost gid.team x.cause 0
      | some seg =>
        let bs := s.frameBytes t g gid x resume l.lr2
        match s.xlatElem g.core t.space (l.frame gid.team.idx gid.grp) bs.length .write with
        | .error _ => s.teamLost gid.team x.cause 8
        | .ok ps =>
          let vec : VAddr := BitVec.ofNat 56 (seg.1 + 128 * x.cause)
          let s := (s.crossing ps).storeElem g.core false false ps bs
          let s := s.modTeam gid.team (fun t => { t with
            lastCause := x.cause
            poisonAddr := if x.cause = 12 then none else t.poisonAddr })
          s.modGrp gid (fun g =>
            let g := g.killLatches.onThreads path (fun _ th => { th with pc := vec })
            { g with
              trapMask := some path
              trapCause := x.cause
              cur := some vec
              packet := none
              stream := []
              lastMask := 0 })
  | _, _, _ => s

/-- The trap that the word in issue raises at once (R45, R298): the frame's PC is the chain group's first word. -/
def State.trapNow (s : State) (x : Trap) : State :=
  let s' := s.takeTrap s.iss.grp s.iss.mask x s.iss.base
  { s' with iss := { s'.iss with raised := some x } }

/-- The trap that a parked entry raises (R289, R301, R303). -/
def Park.trap (p : Park) : Trap :=
  { cause := p.cause, detail := p.detail, slot := p.slot, flags := p.flags, level := p.level,
    addr := p.addr, aux := 0, mask := p.mask, word := p.word, parked := true,
    cmd := match p.kind with | .cmd .. => true | _ => false }

/-- Whether a `det` node stands between steps 4 and 5 of its quantum end, where its teams may be pre-empted (R349). -/
def State.ending (s : State) (id : TeamId) : Bool :=
  s.isDet id && ((s.node? id.node).map (fun n => n.phase == 3)).getD false

/-- The load of a frame: its bytes, and what it counts; a poisoned one is zeros, counted, but of no team's (R189, R299, R363; DESIGN
CHOICE, notes/assumptions/39.md). -/
def State.frameRead (s : State) (core n : Nat) (ps : List Part) : State × List Byte :=
  let r := (s.crossing ps).loadParts core false ps
  if r.2.2 = 0 then (r.1, r.2.1)
  else if r.2.2 = 1 then (r.1.count (wheelOf core) 0x47 1, List.replicate n 0)
  else (r.1.countRead (r.1.badSpot (some core) ps).1 (r.1.badSpot (some core) ps).2, List.replicate n 0)

/-- Return from a trap (R307, `TRET`): the saved registers and `RESUMEPC` come from the frame in memory; trap mode is
left, latch liveness cleared, and the receiving path resumes, between two quanta of a `det` node when the next one begins (R349);
what is still parked raises its trap again (R303). A frame that cannot be read is a double trap (R299). A landing of `LDSUB` that
was in flight to a saved register is dropped by the restore: the spec does not say what the frame then holds (R70; DESIGN CHOICE,
notes/assumptions/43.md). -/
def State.leaveTrap (s : State) (gid : GrpId) (resumeThreads : Bool) : State :=
  match s.team? gid.team, s.grp? gid, s.launch? gid.team with
  | some t, some g, some l =>
    match g.trapMask with
    | none => s
    | some m =>
      let n := if l.lr2 then 128 else 64
      match s.xlatElem g.core t.space (l.frame gid.team.idx gid.grp) n .read with
      | .error _ => s.teamLost gid.team g.trapCause 8
      | .ok ps =>
        let r := s.frameRead g.core n ps
        let at8 (o : Nat) : Nat := leNat ((r.2.drop o).take 8)
        let pc : VAddr := BitVec.ofNat 56 (at8 0)
        r.1.modGrp gid (fun g =>
          let g := (g.setS 8 (BitVec.ofNat 64 (at8 32))).setS 9 (BitVec.ofNat 64 (at8 40))
          let g := if l.lr2 then
              (List.range 6).foldl (fun g k => g.setS (10 + k) (BitVec.ofNat 64 (at8 (64 + 8 * k)))) g
            else g
          let g := g.killLatches
          let g := g.onThreads m (fun _ th => if th.st = .exited then th else { th with pc := pc, st := .runnable, stopped := s.ending gid.team })
          { g with
            trapMask := none
            cur := if resumeThreads then some pc else g.cur
            packet := none
            stream := []
            lastMask := 0
            traps := (((s.core g.core).parksOf gid).foldl (fun (g : Group) p => g.pend p.trap)
              { g with traps := g.traps.filter (fun x => !x.parked) }).traps
            paths := g.paths.map (fun p => { p with wait := 0, due := none }) })
  | _, _, _ => s

/-! ## How a meaning ends -/

/-- The outcome of a word of no condition: its effect, its trap, or not ready. A word that waits for nothing never
ends in `wait`; one that does is blocked without limit. -/
def State.finish (s : State) : Res → Host.Outcome State Fault Refusal
  | .done s' => .next s'
  | .trap x => .next (s.trapNow x)
  | .stall k => .next { s with iss := { s.iss with stalled := some k } }
  | .wait s' hi => .next (s'.block [] [] 31 none hi)

/-- The meaning of a word that the group in issue executes; where no group issues it, nothing executes it. -/
def State.asWord (s : State) (f : Team → Group → Res) : Host.Outcome State Fault Refusal :=
  match s.team? s.iss.grp.team, s.grp? s.iss.grp with
  | some t, some g => s.finish (f t g)
  | _, _ => .next s

/-- Nothing that a replay has written is held at a home any more: later words wait for it no longer (R165). -/
def State.trimHolds (s : State) : State :=
  if s.teams.all (fun t => t.groups.all (fun g => !g.hold.home)) then s
  else s.modGroups (fun g => if g.hold.home && !s.unflushed g.core then { g with hold := { g.hold with home := false } } else g)

/-- Whether a group's later M and E words are held by a fence: what it waits for that is parked, or that its replay has written and a
home holds, holds nothing in trap mode (R165, R169, R295, R327). -/
def State.held (s : State) (g : Group) : Option Stall :=
  if g.trapMask.isNone && (s.core g.core).replay.any (fun p => g.hold.parked.contains p.id) then some .parked
  else if s.flights.any (fun f => g.hold.pushes.contains f.id) then some .busy
  else if g.trapMask.isNone && g.hold.home && s.unflushed g.core then some .flush
  else none

/-- Whether the word in issue is a serial word of a `det` node that still has to be queued: what it reads of memory it reads
at the quantum end (R346, R348). -/
def State.toQueue (s : State) (t : Team) : Bool := s.isDet t.id && s.iss.mode == .issue

/-- The serial wait of the word in issue that a trap at a pre-emption point has held up (R349). -/
def State.heldWait (s : State) (g : Group) : Option WaitRec :=
  g.waits.find? (fun w => w.held && w.pc == s.iss.pc && w.mask == s.iss.mask)

/-- A group without the write that the word in issue has in flight itself, where a trap has held its serial wait up (R349). -/
def State.ownWait (s : State) (g : Group) : Group :=
  match s.heldWait g with
  | some w => { g with spend := g.spend.filter (fun x => x.2 != w.id) }
  | none => g

/-- A serial word of a `det` node is queued with what it has read, and its threads stop (R6, R70, R347, R348). One that waited
when its team was pre-empted goes on waiting, its count of quantum ends as it stood (R349, R351). -/
def State.queueSerial (s : State) (rs qs : List Nat) (elems : List KeptElem) : State :=
  let i := s.iss
  match (s.grp? i.grp).bind s.heldWait with
  | some w =>
    s.modGrp i.grp (fun g =>
      { (g.onThreads i.mask (fun _ t => { t with st := .blocked, stopped := true })) with
        waits := g.waits.map (fun x => if x.id = w.id then { x with held := false } else x) })
  | none =>
    s.tick.modGrp i.grp (fun g0 =>
      let g := g0.owe qs s.fresh
      let r : SerialRec :=
        { id := s.fresh, kept := ⟨g0.keep rs, elems⟩, mask := i.mask, pc := i.pc, base := i.base, next := i.next,
          slot := i.slot, word := i.word, lit := i.lit }
      { (g.onThreads i.mask (fun _ t => { t with stopped := true })) with serial := g.serial ++ [r] })

/-- A wait whose limit has expired: `TIMEOUT`, whatever keeps the word from being examined once more (R51). -/
def State.expired (s : State) (q : BitVec 6) : Host.Outcome State Fault Refusal := .next (s.putStatus q stTimeout s.iss.last)

/-- The end of an E word with a timeout (R51, R159, R349): it completes; or it waits, polling once when X = 0; an
examination that fails changes nothing but what it has seen; expiry writes `TIMEOUT` and never traps. -/
def State.finishWait (s : State) (rs qs : List Nat) (q : BitVec 6) (x : BitVec 5) (w : Option Watch) :
    Res → Host.Outcome State Fault Refusal
  | .done s' => .next s'
  | .trap t => if s.iss.mode = .expire then s.expired q else .next (s.trapNow t)
  | .stall k => if s.iss.mode = .expire then s.expired q else .next { s with iss := { s.iss with stalled := some k } }
  | .wait s' hi =>
    match s.iss.mode with
    | .issue => if x = 0 then .next (s'.putStatus q stTimeout hi) else .next (s'.block rs qs x w hi)
    | .serial => .next (s'.block rs qs x w hi)
    | .examine => .next { s' with iss := { s'.iss with stalled := some .busy, last := hi } }
    | .expire => .next (s'.putStatus q stTimeout hi)

/-- The meaning of an E word: held by a fence, queued in a `det` node when serial, or performed (R51, R169, R348). `rs`
are the s registers it reads and `qs` those it writes; run again, it sees what it read at its issue (R6). Where no group issues it,
nothing executes it. -/
def State.asEWith (s : State) (serial : Bool) (rs qs : List Nat) (q : BitVec 6) (x : BitVec 5) (w : Option Watch)
    (f : Team → Group → Res) : Host.Outcome State Fault Refusal :=
  match s.team? s.iss.grp.team, s.grp? s.iss.grp with
  | some t, some g0 =>
    let g := if s.iss.wid = 0 then g0 else g0.withKept s.iss.kept
    if s.iss.wid = 0 && (s.ownWait g0).sPending rs then .next { s with iss := { s.iss with stalled := some .busy } }
    else
      match (if s.iss.mode = .issue then s.held g else none) with
      | some k => .next { s with iss := { s.iss with stalled := some k } }
      | none =>
        if serial && s.toQueue t then
          match f t g with
          | .trap y => .next (s.trapNow y)
          | .stall k => .next { s with iss := { s.iss with stalled := some k } }
          | _ => .next (s.queueSerial rs qs [])
        else s.finishWait rs qs q x w (f t g)
  | _, _ => .next s

/-- An E word that writes s[Q]. -/
def State.asE (s : State) (serial : Bool) (rs : List Nat) (q : BitVec 6) (x : BitVec 5) (w : Option Watch)
    (f : Team → Group → Res) : Host.Outcome State Fault Refusal := s.asEWith serial rs [q.toNat] q x w f

/-- An E word that writes the pair s[Q], s[Q+1] (R264, R322). -/
def State.asEPair (s : State) (serial : Bool) (rs : List Nat) (q : BitVec 6) (x : BitVec 5) (w : Option Watch)
    (f : Team → Group → Res) : Host.Outcome State Fault Refusal := s.asEWith serial rs [q.toNat, q.toNat + 1] q x w f

end Sys2Proof.Machine
end

