-- ==== Sys2Proof/Machine/Order.lean ====
section
/-! DEFINITION. Orderings that words share: acquires, releases, and the skeleton of an M word (R160 to R169, R327). -/

namespace Sys2Proof.Machine

open Sys2Proof

/-! ## Acquire and release -/

/-- A scope that covers the issuing core, or both cores of a paired team (R166). -/
def coreScope (sc : Nat) (paired : Bool) : Bool := decide (3 ≤ sc) || (sc == 2 && paired)

/-- The scope of a `BAR` object by its address: vat with `SIB` = 1, else team (R158). -/
def scrScope (addr : Nat) : Nat := if fld addr 22 1 = 1 then 4 else 2

/-- A parked entry that reads: a load or an atomic. -/
def Park.reads (p : Park) : Bool :=
  match p.kind with
  | .load _ | .atom _ => true
  | _ => false

/-- A parked entry of a vector access; a parked command is none (R165). -/
def Park.isAccess (p : Park) : Bool :=
  match p.kind with
  | .cmd .. => false
  | _ => true

/-- The names of a group's parked accesses that satisfy a condition. -/
def State.parkIds (s : State) (core : Nat) (gid : GrpId) (f : Park → Bool) : List Nat :=
  (((s.core core).parksOf gid).filter (fun p => p.isAccess && f p)).map (·.id)

/-- Adds to what holds a group's later M-pipe words: in trap mode, pushes only (R165, R327). `st` says whether what is parked has to be
performed for others too, `rel` and `acq` whether its replay is followed by a release's write-back or an acquire's drop (R166). -/
def Group.holdFor (g : Group) (parked pushes : List Nat) (st rel acq : Bool) : Group :=
  let ps := if g.trapMask.isSome then [] else parked
  { g with hold := { g.hold with
      parked := g.hold.parked ++ ps
      st := g.hold.st ++ (if st then ps else [])
      rel := g.hold.rel ++ (if rel then ps else [])
      acq := g.hold.acq ++ (if acq then ps else [])
      pushes := g.hold.pushes ++ pushes } }

/-- Whether a scope covers the slot that a push goes to (R160, R161). -/
def State.covers (s : State) (t : Team) (g : Group) (sc id : Nat) : Bool :=
  match s.flights.find? (fun f => f.id == id) with
  | none => false
  | some f =>
    let c := ((s.team? f.team).map (fun x => x.coreAt f.off)).getD 0
    decide (6 ≤ sc) || (sc == 5 && wheelOf c == wheelOf g.core) || (sc == 4 && vatOf c == vatOf g.core) ||
      (sc == 3 && c == g.core) || decide (f.team = t.id)

/-- What a group has read comes causally before its later writes, for the agents of a scope (R161, R167, R178). -/
def State.orders (s : State) (t : Team) (g : Group) (sc : Nat) : State :=
  if g.seen.isEmpty then s
  else s.modGrp s.iss.grp (fun x => { x with after := s.flying (x.after ++ x.seen.filter (s.covers t g sc)) })

/-- The cache action of an acquire at a scope (R166). -/
def State.acqScope (s : State) (core sc : Nat) (paired : Bool) : State :=
  if coreScope sc paired then s.acqSelf core else s

/-- The cache action of a release at a scope (R166). -/
def State.relScope (s : State) (core sc : Nat) (paired : Bool) : State :=
  if coreScope sc paired then s.relSelf core else s

/-- An acquire of the group in issue, placed just after its word: an `ACQ` fence at its scope (R165, R166). -/
def State.acquire (s : State) (t : Team) (g : Group) (sc : Nat) : State :=
  ((s.acqScope g.core sc t.paired).orders t g sc).modGrp s.iss.grp
    (fun x => x.holdFor (s.parkIds g.core s.iss.grp Park.reads) [] false false (coreScope sc t.paired))

/-- What a release waits for before its update: the group's parked accesses outside trap mode, and pushes in flight
(R165, R327). -/
def State.relWait (s : State) (g : Group) : Option Stall :=
  if g.trapMask.isNone && !(s.parkIds g.core s.iss.grp (fun _ => true)).isEmpty then some .parked
  else if !s.pushIds.isEmpty then some .busy
  else none

/-- A releasing word: it waits for what comes before it, makes its writes visible, waits for those of them that a home holds and for
their pushes (`Stall.flush`: the write-backs stand, as the cleaner's would, R198), then has its effect (R165, R166, R203, R327). -/
def State.releasing (s : State) (t : Team) (g : Group) (sc : Nat) (f : State → Res) : Res :=
  match s.relWait g with
  | some k => .stall k
  | none =>
    let s1 := s.relScope g.core sc t.paired
    if s1.unflushed g.core || !s1.pushIds.isEmpty then .stall .flush else f s1

/-! ## M words -/

/-- The return buffer of a half's M pipe is full: sixteen entries of load data wait to cross up into queues (R84). -/
def State.returnFull (s : State) (core half : Nat) : Bool :=
  decide (Config.returnBuf ≤ (((s.core core).loads.filter (fun r => r.q.isSome && r.left == 0 &&
    ((s.grp? r.grp).map (fun g => g.pipe / 2 == half)).getD false)).map (fun r => (beatsOf 64 r.mask).length)).sum)

/-- An M word of formats M (R45, R67, R85, R169): the register-range check, the queue check, readiness, then its own
part. `regs` are the v registers it names, `src` those it reads. -/
def State.asM (s : State) (regs src sregs pops : List Nat) (push : Option Nat)
    (f : Team → Group → List Nat → Res) : Host.Outcome State Fault Refusal :=
  s.asWord (fun t g =>
    let beats := beatsOf g.width s.iss.mask
    if regs.any (fun n => decide (g.alloc ≤ n)) then s.raise 3 0
    else if t.queueState s.iss.grp.grp pops push then s.raise 10 s.iss.slot
    else if g.vPending s.iss.mask src then .stall (s.owedBy g s.iss.mask src)
    else if g.sPending sregs then .stall .busy
    else
      match s.held g with
      | some k => .stall k
      | none =>
        if !(t.queuesReady s.iss.grp.grp beats pops push) || s.pushHeld s.iss.grp g push ||
            (push.isSome && s.returnFull g.core (g.pipe / 2)) then .stall .busy
        else f t g beats)

end Sys2Proof.Machine
end

