-- ==== Sys2Proof/Machine/Bar.lean ====
section
/-! DEFINITION. Team barriers and `MWAIT` (R156 to R159). -/

namespace Sys2Proof.Machine

open Sys2Proof

/-- A barrier object (R156). -/
structure Barrier where
  bytes : BitVec 64
  arr : Nat
  expect : Nat
  phase : BitVec 32
  deriving DecidableEq, Repr

/-- A barrier from the number that its 16 bytes are. -/
def barOf (n : Nat) : Barrier :=
  { bytes := BitVec.ofNat 64 (fld n 64 64), arr := fld n 48 16, expect := fld n 32 16, phase := BitVec.ofNat 32 n }

/-- The barrier at a place of a window. -/
def State.barrier (s : State) (a : ScrAt) : Barrier :=
  barOf (s.winNat a.team a.off 16)

/-- A barrier object's 16 bytes. -/
def Barrier.encode (b : Barrier) : List Byte :=
  leBytes 16 (b.phase.toNat + b.expect % 2 ^ 16 * 2 ^ 32 + b.arr % 2 ^ 16 * 2 ^ 48 + b.bytes.toNat * 2 ^ 64)

/-- The examination after an update: with nothing awaited the phase advances (R157). -/
def Barrier.settle (b : Barrier) : Barrier :=
  if b.arr = 0 ∧ b.bytes = 0 then { b with phase := b.phase + 1, arr := b.expect } else b

/-- The barrier as the updates of this cycle have left it, before the cycle's one examination (R157). -/
def State.barNow (s : State) (a : ScrAt) : Barrier :=
  match s.barOpen.find? (fun x => decide (x.1 = a.team) && x.2.1 == a.off) with
  | some x => if s.barrier a = (barOf x.2.2).settle then barOf x.2.2 else s.barrier a
  | none => s.barrier a

/-- Whether an update of this cycle has reached a barrier already. -/
def State.barBusy (s : State) (a : ScrAt) : Bool :=
  s.barOpen.any (fun x => decide (x.1 = a.team) && x.2.1 == a.off)

/-- One update of a barrier (R157): it is applied to the object as the cycle's earlier updates left it, and the object stands
as their one examination leaves it. The waits on it are examined when the cycle ends (`State.barClose`). -/
def State.barUpdate (s : State) (a : ScrAt) (f : Barrier → Barrier) : State :=
  let b := f (s.barNow a)
  State.winPut
    { s with barOpen := (a.team, a.off, leNat b.encode) :: s.barOpen.filter (fun x => !(decide (x.1 = a.team) && x.2.1 == a.off)) }
    a.team a.off b.settle.encode false

/-- The examination after an update that was refused (R157). -/
def State.barExamine (s : State) (a : ScrAt) : State :=
  if (s.barNow a).settle = s.barNow a then s else s.barUpdate a id

/-- The end of a cycle: the waits on the barriers it has updated are examined (R157, R159). -/
def State.barClose (s : State) : State :=
  s.barOpen.foldl (fun s x => s.examine x.1 x.2.1 16) { s with barOpen := [] }

/-- An engine completion: its byte count leaves `PENDBYTES` (R157). -/
def State.barComplete (s : State) (a : ScrAt) (n : Nat) : State :=
  s.barUpdate a (fun b => { b with bytes := b.bytes - BitVec.ofNat 64 n })

/-- The value v of a `BAR` operand (R158). -/
def barV (v : Reg) : Nat := fld v.toNat 32 32

/-- The checks of the address in s[P] (R146, R152, R158): `n` bytes, aligned on n. -/
def State.barAt (s : State) (t : Team) (v : Reg) (n : Nat) (f : ScrAt → Res) : Res :=
  let addr := fld v.toNat 0 32
  if fld v.toNat 23 9 ≠ 0 then .trap (s.wordTrap 5 0 addr 0xFF 0)
  else
    match s.scrAt t.id addr n with
    | .error c => .trap (s.wordTrap c 0 addr 0xFF 0)
    | .ok a =>
      if addr % n ≠ 0 then .trap (s.wordTrap 7 0 addr 0xFF 0)
      else if s.inRange a.team a.off n || s.winHeld a.team a.off n then .stall .busy
      else f a

/-- A `BAR` word (R158). -/
def State.barWord (s : State) (p q : BitVec 6) (x : BitVec 5) (w : Option Watch) (n : Nat)
    (f : Team → Group → ScrAt → Nat → Res) : Host.Outcome State Fault Refusal :=
  s.asE true [p.toNat] q x w (fun t g => s.barAt t (g.sreg p.toNat) n (fun a => f t g a (barV (g.sreg p.toNat))))

/-- `BARINIT` (R157, R158). An update that is refused changes nothing, and the object is examined after it. It comes first among
the updates of a cycle: one that finds another there waits for the next cycle. -/
def execBarinit (p q : BitVec 6) (s : State) : Host.Outcome State Fault Refusal :=
  s.barWord p q 0 none 16 (fun _ _ a v =>
    let ph := (s.barNow a).phase.toNat
    if s.barBusy a then .stall .busy
    else if 1 ≤ v ∧ v ≤ 65535 then
      .done ((s.barUpdate a (fun b => { b with expect := v, arr := v, bytes := 0 })).putStatus q stOk ph)
    else (s.barExamine a).fin q stRejected ph)

/-- `BARARRIVE` (R157, R158): a release at the object's scope. -/
def execBararrive (p q : BitVec 6) (s : State) : Host.Outcome State Fault Refusal :=
  s.barWord p q 0 none 16 (fun t g a v =>
    s.releasing t g (scrScope (g.sreg p.toNat).toNat) (fun s =>
      let n := max v 1
      let b := s.barNow a
      if n ≤ b.arr then
        .done ((s.barUpdate a (fun b => { b with arr := b.arr - n })).putStatus q stOk b.phase.toNat)
      else (s.barExamine a).fin q stOverrun b.phase.toNat))

/-- `BAREXPECT` (R157, R158). -/
def execBarexpect (p q : BitVec 6) (s : State) : Host.Outcome State Fault Refusal :=
  s.barWord p q 0 none 16 (fun _ _ a v =>
    let ph := (s.barNow a).phase.toNat
    .done ((s.barUpdate a (fun b => { b with bytes := b.bytes + BitVec.ofNat 64 v })).putStatus q stOk ph))

/-- `BARTEST` (R158): `OK` is an acquire. -/
def execBartest (p q : BitVec 6) (s : State) : Host.Outcome State Fault Refusal :=
  s.barWord p q 0 none 16 (fun t g a v =>
    let ph := (s.barNow a).phase.toNat
    if ph ≠ v then .done ((s.putStatus q stOk ph).acquire t g (scrScope (g.sreg p.toNat).toNat))
    else s.fin q stBusy ph)

/-! ## Waits on a scratchpad word -/

/-- The watch of a wait word on the word at a place. -/
def State.watchOf (s : State) (p : BitVec 6) : Option Watch :=
  match s.grp? s.iss.grp with
  | some g0 =>
    let v := (if s.iss.wid = 0 then g0 else g0.withKept s.iss.kept).sreg p.toNat
    match s.scrAt s.iss.grp.team (fld v.toNat 0 32) 4 with
    | .ok a => some (.word { team := a.team, off := a.off, pa := s.wordPA a.team a.off, val := BitVec.ofNat 32 (barV v), seen := none,
                             last := BitVec.ofNat 32 (barV v) })
    | .error _ => none
  | none => none

/-- The word a wait examines at its issue: of a barrier its `PHASE` before the cycle's examination (R157, R159). -/
def State.waitVal (s : State) (a : ScrAt) (n : Nat) : Nat :=
  if n = 16 then (s.barNow a).phase.toNat else s.winNat a.team a.off 4

/-- A wait until a scratchpad word differs from v, as it issues (R159). -/
def State.waitWord (s : State) (t : Team) (g : Group) (q : BitVec 6) (now v sc : Nat) : Res :=
  if now ≠ v then .done ((s.putStatus q stOk now).acquire t g sc) else .wait s now

/-- The wait as it is examined again or expires: the first differing value that a write has left, else the value last
examined (R159). -/
def State.waitAgain (s : State) (t : Team) (g : Group) (q : BitVec 6) (sc : Nat) : Res :=
  match s.iss.watch with
  | some (.word x) =>
    match x.seen with
    | some v => .done ((s.putStatus q stOk v.toNat).acquire t g sc)
    | none => .wait s x.last.toNat
  | _ => .wait s 0

/-- A wait word on `n` bytes (R158, R159): its address is checked as it issues; later only what the writes left counts, but for a
serial word, which is examined anew at each quantum end (R349). -/
def State.waitOn (s : State) (e : EF) (n : Nat) : Host.Outcome State Fault Refusal :=
  s.asE true [e.p.toNat] e.q e.x (s.watchOf e.p) (fun t g =>
    let v := g.sreg e.p.toNat
    let sc := scrScope v.toNat
    if (s.iss.mode = .examine ∨ s.iss.mode = .expire) ∧ !s.isDet t.id then s.waitAgain t g e.q sc
    else s.barAt t v n (fun a => s.waitWord t g e.q (s.waitVal a n) (barV v) sc))

/-- `BARWAIT` (R158, R159). -/
def execBarwait (e : EF) (s : State) : Host.Outcome State Fault Refusal := s.waitOn e 16

/-- `MWAIT` (R158, R159). -/
def execMwait (e : EF) (s : State) : Host.Outcome State Fault Refusal := s.waitOn e 4

end Sys2Proof.Machine
end

