-- ==== Sys2Proof/Machine/Flow.lean ====
section
/-! DEFINITION. Paths and joins of a group: where the broadcast address goes, and who arrives at a join (R120 to R130). -/

namespace Sys2Proof.Machine

open Sys2Proof

/-- The runnable threads of a group. -/
def Group.runnable (g : Group) : Mask := g.maskBy Thread.runnable

/-- The threads that may run now: in trap mode only the receiving path's (R299). -/
def Group.eligible (g : Group) : Mask :=
  match g.trapMask with
  | some m => g.runnable &&& m
  | none => g.runnable

/-- The eligible threads at a PC: a path (R120). -/
def Group.pathAt (g : Group) (pc : VAddr) : Mask := g.maskBy (fun t => t.runnable && t.pc == pc) &&& g.eligible

/-- The PCs of a group's runnable threads, in order of the lowest-numbered thread. -/
def Group.pcs (g : Group) : List VAddr := ((Mask.list g.runnable g.width).map (fun t => (g.thread t).pc)).eraseDups

/-- More than one path, or a parked or blocked thread (R120). -/
def Group.isDiverged (g : Group) : Bool :=
  decide (1 < g.pcs.length) || g.threads.any (fun t => t.st == .parked || t.st == .blocked)

/-- Every thread has exited (R120). -/
def Group.ended (g : Group) : Bool := g.threads.all (fun t => t.st == .exited)

/-- The innermost join entry of a thread: the youngest of which it is a member; entries stand youngest first (R128). -/
def Group.innermost (g : Group) (t : Nat) : Option JoinEntry := g.joins.find? (fun e => e.members.getLsbD t)

/-- Threads whose PC is their innermost entry's join packet arrive there and park (R129). -/
def Group.arrive (g : Group) : Group :=
  (Mask.list g.eligible g.width).foldl (fun g t =>
    match g.innermost t with
    | some e =>
      if (g.thread t).pc = e.join then
        let i := (g.joins.findIdx? (fun x => x.members.getLsbD t)).getD 0
        let g := g.onThreads (BitVec.twoPow 64 t) (fun _ x => { x with st := .parked })
        { g with joins := modAt (fun x => { x with arrived := x.arrived ||| BitVec.twoPow 64 t }) i g.joins }
      else g
    | none => g) g

/-- An entry whose members have all arrived or exited (R129). -/
def Group.complete (g : Group) (e : JoinEntry) : Bool :=
  let gone := g.maskBy (fun t => t.st == .exited)
  (e.members &&& ~~~(e.arrived ||| gone)) == 0

/-- The completion of one join entry: its parked members resume at the join packet, as the current path when there is
none (R123, R129). Where all have exited no path is formed. -/
def Group.release (g : Group) : Group :=
  match g.joins.findIdx? g.complete with
  | some i =>
    match g.joins[i]? with
    | some e =>
      let g := { g with joins := g.joins.eraseIdx i }
      let g := g.onThreads e.arrived (fun _ x =>
        if x.st = .parked then { x.killLatches with st := .runnable, pc := e.join } else x)
      { g with cur := if g.cur.isNone && g.pathAt e.join &&& e.arrived != 0 then some e.join else g.cur }
    | none => g
  | none => g

/-- A current path without an eligible thread is no path (R122, case 1), and its `YIELD` asks for no switch any more. -/
def Group.dropDead (g : Group) : Group :=
  match g.cur with
  | some p => if g.pathAt p = 0 then { g with cur := none, packet := none, yielded := false } else g
  | none => g

/-- Arrivals and completions until none is left: each entry that completes finds whether the current path still has a thread
(R123). -/
def Group.joinAll : Nat → Group → Group
  | 0, g => g
  | n + 1, g =>
    if g.joins.any g.complete then Group.joinAll n g.release.arrive.dropDead else g

/-- The records of the paths that wait: those that stay keep their counts, and a new path is formed now (R123, R125). A waiting
path whose only thread moves on alone from a loop buffer is, at its new PC, a path formed now: the spec does not say whether it
keeps its age (R122; DESIGN CHOICE, notes/assumptions/43.md). -/
def Group.syncPaths (g : Group) (cycle : Nat) : Group :=
  let ps := g.pcs.filter (fun p => g.cur != some p)
  { g with paths := ps.map (fun p =>
      match g.paths.find? (fun r => r.pc == p) with
      | some r => r
      | none => { pc := p, since := cycle, wait := 0, due := none }) }

/-- The current path after a word of the threads `m`: the one that holds the lowest-numbered runnable thread of them. Where
it is another set of threads, latch liveness goes (R56, R122, R123). -/
def Group.follow (g : Group) (m : Mask) : Group :=
  match Mask.list (m &&& g.eligible) g.width with
  | t :: _ =>
    let pc := (g.thread t).pc
    { (if g.pathAt pc = m then g else g.killOn (m ||| g.pathAt pc)) with cur := some pc }
  | [] => { (g.killOn m) with cur := none, yielded := false }

/-- The group after a step: joins arrive and complete, and the waiting paths are brought up to date. `act` are the
threads that have just executed a word at the broadcast address. Where the half of a split that holds the lowest-numbered thread
parks at its join packet at once, the broadcast address stays with the other half: the spec does not say whether case 1 of R122
comes first (R123; DESIGN CHOICE, notes/assumptions/43.md). -/
def Group.settle (g : Group) (act : Option Mask) (cycle : Nat) : Group :=
  let g := g.arrive
  let g := match act with
    | some m => g.follow m
    | none => g.dropDead
  let g := Group.joinAll (g.joins.length + 1) g
  g.syncPaths cycle

/-- The path to which the broadcast address goes when it moves: the one due longest, else the oldest waiting one; ties to the
path that holds the lowest-numbered thread (R122, R125). -/
def Group.nextPath (g : Group) : Option PathRec :=
  let live := g.paths.filter (fun r => g.pathAt r.pc != 0)
  let due := live.filter (fun r => r.due.isSome)
  let pick (l : List PathRec) (key : PathRec → Nat) : Option PathRec :=
    l.foldl (fun b r =>
      match b with
      | none => some r
      | some x => if key r < key x then some r else b) none
  match due with
  | [] => pick live (·.since)
  | _ => pick due (fun r => r.due.getD 0)

/-- The broadcast address moves to another path; the path it leaves starts a new wait count, and latch liveness of both
is cleared (R56, R125). -/
def Group.switchTo (g : Group) (r : PathRec) (cycle : Nat) : Group :=
  let g := g.killOn (g.pathAt r.pc ||| (match g.cur with | some pc => g.pathAt pc | none => 0))
  let g := { g with cur := some r.pc, packet := none, stream := [], yielded := false }
  let old := g.paths.filter (fun x => x.pc != r.pc)
  ({ g with paths := old }).syncPaths cycle

/-- One local cycle of a group's wait counts (R125): `freeze` while the current path is in a latch run, in trap mode,
or without fairness (R127, R299). A count that reaches the interval makes its path due. -/
def Group.waitTick (g : Group) (freeze : Bool) (interval cycle : Nat) : Group :=
  if freeze || g.trapMask.isSome then g
  else
    { g with paths := g.paths.map (fun r =>
        let w := r.wait + 1
        { r with wait := w, due := if r.due.isSome then r.due else if interval ≤ w then some cycle else none }) }

end Sys2Proof.Machine
end

