-- ==== Sys2Proof/Machine/Fetch.lean ====
section
/-! DEFINITION. Fetching packets, the checks of a packet, latch runs, and the delivery of pending traps (R40 to R46,
R56, R57, R131, R180, R298, R302). -/

namespace Sys2Proof

/-! ## What an instruction reads -/

/-- A latch named by an OS field. -/
def Os.isLatch : Os → Bool
  | .b _ => true
  | _ => false

/-- Whether an OS field names a value that crosses between the dies: a v or q register (R54). -/
def Os.crosses : Os → Bool
  | .v _ | .q _ => true
  | _ => false

/-- The literal in the value role, named by an OS field. -/
def Os.isLit : Os → Bool
  | .lit => true
  | _ => false

/-- The OS source fields of a word, the addend of an accumulating word among them (R47, R49, R92, R95). -/
def Instr.osSources : Instr → List Os
  | .vmov _ _ a => [a]
  | .vmov64 _ _ a => [a]
  | .vadd _ _ _ a y | .vsub _ _ _ a y | .vmul _ _ _ a y => [a, y]
  | .vfma _ _ d a y | .vfnma _ _ d a y => [a, y, d]
  | .vmin _ _ _ a y | .vmax _ _ _ a y | .vlogic _ _ _ a y | .vshift _ _ _ a y => [a, y]
  | .vshiftBfx _ _ a => [a]
  | .vshiftBfi _ d a => [a, d]
  | .vcmpi _ _ _ a y | .vcmpf _ _ _ a y => [a, y]
  | .vsel _ _ _ a y => [a, y]
  | .vcvt _ op _ _ d a => if op.insert then [a, d] else [a]
  | .vbits op _ _ a y => if op = .byteperm then [a, y] else [a]
  | .vdiv _ _ _ a y | .vperm _ _ _ a y => [a, y]
  | .vsfu _ _ _ a | .vred _ _ _ a => [a]
  | .vdot _ _ d a y => [a, y, d]
  | .ld _ _ m _ | .lds _ _ m => [m.x]
  | .st _ t m _ | .sts _ t m => [t, m.x]
  | .atom _ t m | .atoms _ t m => [t, m.x]
  | _ => []

/-- The U source of a word. -/
def Instr.uSource : Instr → Option USrc
  | .salu _ _ _ y => some y
  | .mov _ y => some y
  | _ => none

/-- Whether a word reads a latch (R56). -/
def Instr.readsLatch (i : Instr) : Bool :=
  i.osSources.any Os.isLatch ||
  match i.uSource with
  | some (.latch _) => true
  | _ =>
    match i with
    | .fromv _ _ (.b _) => true
    | _ => false

/-- The latches a word reads. -/
def Instr.latches (i : Instr) : List Nat :=
  (i.osSources.filterMap (fun o => match o with | .b n => some n.val | _ => none)) ++
  (match i.uSource with | some (.latch n) => [n.val] | _ => []) ++
  (match i with | .fromv _ _ (.b n) => [n.val] | _ => [])

/-- A word that reads `L` in the descriptor role (R46). -/
def Instr.readsDesc : Instr → Bool
  | .vshiftBfx .. | .vshiftBfi .. => true
  | _ => false

/-- The length operand `L` of a range word (R169). -/
def Range.readsLit (r : Range) : Bool := r.o || r.len == .lit

/-- Whether a word reads `L`, in either role (R46, R134, R169). -/
def Instr.readsLit (i : Instr) : Bool :=
  i.readsDesc || i.osSources.any Os.isLit || i.uSource == some .lit ||
  match i with
  | .li .. | .lis .. | .lihi .. | .bd .. => true
  | .ld _ _ m _ | .st _ _ m _ | .lds _ _ m | .sts _ _ m | .atom _ _ m | .atoms _ _ m => m.o
  | .clean _ r | .inval _ r | .icinv _ r | .rcfence _ r | .tlbfence _ r => r.readsLit
  | _ => false

end Sys2Proof

namespace Sys2Proof.Machine

open Sys2Proof

/-! ## Packets -/

/-- The address of the packet of a PC (R40). -/
def packetAddr (pc : VAddr) : VAddr := pc &&& ~~~0xF#56

/-- The slot of a PC (R40). -/
def slotOf (pc : VAddr) : Nat := pc.toNat % 16 / 4

/-- A PC that names no instruction slot (R40). -/
def badPC (pc : VAddr) : Bool := pc.toNat % 4 != 0 || slotOf pc == 3

/-- Word k of a packet. -/
def Packet.word (p : Packet) : Nat → Word
  | 0 => p.w0
  | 1 => p.w1
  | _ => p.w2

/-- The instruction of word k, where it is one. A word whose encoding is illegal reads neither `L` nor a latch: the spec does not
say what it counts as in the packet checks (R44; DESIGN CHOICE, notes/assumptions/43.md). -/
def Packet.instr (p : Packet) (k : Nat) : Option Instr := (decodeWord (p.word k)).toOption

/-- A packet that reads a latch (R56). -/
def Packet.readsLatch (p : Packet) : Bool :=
  (List.range 3).any (fun k => ((p.instr k).map Instr.readsLatch).getD false)

/-- The number of words of the chain group that starts in slot k (R41). Entered in its middle, a chain group is the words that
remain: the spec does not say so (DESIGN CHOICE, notes/assumptions/43.md). -/
def Packet.chainLen (p : Packet) (k : Nat) : Nat :=
  if k < 2 && chainBit (p.word k) then (if k + 1 < 2 && chainBit (p.word (k + 1)) then 3 else 2) else 1

/-- Two words of one chain group on the same pipe (R44, detail 2). -/
def Packet.pipeClash (p : Packet) : Bool :=
  let c0 := chainBit p.w0
  let c1 := chainBit p.w1
  let q := fun k => pipeOf (p.word k)
  (c0 && q 0 == q 1) || (c1 && q 1 == q 2) || (c0 && c1 && q 0 == q 2)

/-- A descriptor-role reader beside another reader of `L`, with `L`[31:11] nonzero (R44, detail 3). -/
def Packet.litClash (p : Packet) : Bool :=
  let is := (List.range 3).filterMap p.instr
  is.any Instr.readsDesc && decide (1 < (is.filter Instr.readsLit).length) && p.lit.toNat / 2 ^ 11 != 0

/-- Whether the words from slot k on read a latch that is not live, starting from the live marks of b0 to b3 (R56). -/
def Packet.deadLatch (p : Packet) : Nat → Nat → List Bool → Bool
  | 0, _, _ => false
  | n + 1, k, live =>
    match p.instr k with
    | some i =>
      i.latches.any (fun l => !(live.getD l false)) ||
        p.deadLatch n (k + 1) (if pipeOf (p.word k) == .V && i != .nop then true :: live.take 3 else live)
    | none => p.deadLatch n (k + 1) live

/-- Whether a packet that is entered at a slot reads a latch that is not live (R44, R56): every word of it is examined. A word before
the slot has its reads held against the marks as they stand: it will produce nothing (DEDUCED from R57's return into the remainder of
a run, notes/assumptions/43.md). -/
def Packet.readsDead (p : Packet) (slot : Nat) (live : List Bool) : Bool :=
  (List.range slot).any (fun k => ((p.instr k).map (fun i => i.latches.any (fun l => !(live.getD l false)))).getD false) ||
    p.deadLatch (3 - slot) slot live

/-- The live marks of b0 to b3 over the threads of a mask. -/
def Group.liveMarks (g : Group) (m : Mask) : List Bool :=
  (List.range 4).map (fun l =>
    (Mask.list m g.width).all (fun t => (((g.thread t).lat.getD l ⟨0, false⟩).live)))

/-- The consecutive packets that a thread has read latches in before a packet: one that it enters again, in the middle, is not
counted twice (R57). -/
def Thread.runBefore (t : Thread) (a : VAddr) : Nat := if t.pkt = some a then t.run - 1 else t.run

/-- The detail of `ILLEGAL_PACKET`, the lowest that holds, on entry at a slot (R44). -/
def Group.packetDetail (g : Group) (m : Mask) (p : Packet) (slot : Nat) : Option Nat :=
  if chainBit p.w2 then some 1
  else if p.pipeClash then some 2
  else if p.litClash then some 3
  else if p.readsLatch && (Mask.list m g.width).any (fun t => decide (4 ≤ (g.thread t).runBefore p.addr)) then some 4
  else if p.readsLatch && p.readsDead slot (g.liveMarks m) then some 5
  else none

/-- Whether an address of a space lies in a registered system code segment (R61, R275). -/
def State.sysAt (s : State) (space : Nat) (a : VAddr) : Bool :=
  (s.segments ++ s.defaultSeg.toList).any (fun x =>
    (x.space.isNone || x.space == some space) && decide (x.body ≤ a.toNat) && decide (a.toNat < x.body + x.len))

/-- A packet from its 16 bytes. -/
def packetOf (a : VAddr) (sys : Bool) (bs : List Byte) : Packet :=
  let w (k : Nat) : Word := BitVec.ofNat 32 (leNat ((bs.drop (4 * k)).take 4))
  { addr := a, w0 := w 0, w1 := w 1, w2 := w 2, lit := w 3, sys := sys }

/-- A packet fetched through a core's instruction cache, which fills whole lines from their homes (R180): an uncorrectable
line is counted (R363), and so is a packet of a poisoned page, where it was translated (R189). -/
def State.fetch (s : State) (core space : Nat) (a : VAddr) : Except PFault (State × Packet) :=
  match s.translate core space a.toNat .fetch with
  | .error e => .error e
  | .ok x =>
    let sys := s.sysAt space a
    if x.poison then .ok (s.count (wheelOf core) 0x47 1, packetOf a sys (List.replicate 16 0))
    else
      let line := lineOf (s.fwd x.pa)
      match (s.core core).icache.find? (fun e => e.1 == line) with
      | some e => .ok (s, packetOf a sys ((e.2.drop (x.pa % 128)).take 16))
      | none =>
        let bs := s.homeReadN (line * 128) 128
        let s := if s.anyHomeBad (line * 128) 128 then s.countRead (s.homeWheel (line * 128)) false else s
        .ok (s.modCore core (fun c => { c with icache := (line, bs) :: c.icache }),
          packetOf a sys ((bs.drop (x.pa % 128)).take 16))

/-- Whether a fetch has to wait for a line that its home does not serve (R199, R203). -/
def State.fetchHeld (s : State) (core space : Nat) (a : VAddr) : Bool :=
  s.walkWaits core space a.toNat ||
  match s.translate core space a.toNat .fetch with
  | .error _ => false
  | .ok x => !x.poison && !((s.core core).icache.any (fun e => e.1 == lineOf (s.fwd x.pa))) && s.lineHeld x.pa

/-- The packet a group would fetch at an address, without the fetch. -/
def State.peek (s : State) (g : Group) (space : Nat) (a : VAddr) : Option Packet :=
  match g.stream with
  | p :: _ => if p.addr = a then some p else ((s.fetch g.core space a).toOption).map (·.2)
  | [] => ((s.fetch g.core space a).toOption).map (·.2)

/-- Where a branch takes a thread, or none where it does not: its predicate and registers as they stand (R134). -/
def Group.branch (g : Group) (p : Packet) (k th : Nat) : Option VAddr :=
  let dst (off : Int) : VAddr := p.addr + BitVec.ofInt 56 (16 * off)
  let reg (n : Nat) : VAddr := packetAddr ((g.sreg n).setWidth 56)
  let pr (q : Fin 8) : Bool := (g.thread th).pred q.val
  match p.instr k with
  | some (.b q off) | some (.call q off) | some (.bd q off) | some (.bp q off) => if pr q then some (dst off.toInt) else none
  | some (.bz n off) => if g.sreg n.toNat == 0 then some (dst off.toInt) else none
  | some (.bnz n off) => if g.sreg n.toNat != 0 then some (dst off.toInt) else none
  | some .ret => some (reg 7)
  | some (.brx n) => some (reg n.toNat)
  | some .yield => some (p.addr + 16)
  | some .join => (g.innermost th).map (·.join)
  | some .exit => none
  | _ => none

/-- The packet that follows in a thread's sequence when it stands in slot k of a packet: where the first branch takes it, by the
predicates and registers as they stand, else the next (R57, notes/assumptions/44.md). -/
def Group.headed (g : Group) (p : Packet) (k th : Nat) : VAddr :=
  ((rangeFrom k (3 - k)).findSome? (fun j => g.branch p j th)).getD (p.addr + 16)

/-- Whether the current path is inside a latch run, from the issue of the lead packet's first word to the run's end, over taken
branches too (R57, R122). -/
def State.inRun (s : State) (space : Nat) (g : Group) : Bool :=
  let reads (a : VAddr) : Bool := ((s.peek g space a).map Packet.readsLatch).getD false
  match g.packet, g.cur with
  | some p, c => p.readsLatch ||
      (match c with
       | some pc =>
         let k := Mask.lo (g.pathAt pc) g.width
         (g.thread k).pkt == some p.addr && reads (g.headed p (slotOf pc) k)
       | none => false)
  | none, some pc => g.pathAt pc != 0 && (g.pathAt pc &&& ~~~g.lastMask) == 0 && reads pc
  | none, none => false

/-- The packet of a PC in the loop buffer of a thread's lane (R131, R132). -/
def State.bufPacket (s : State) (gid : GrpId) (g : Group) (th : Nat) (pc : VAddr) : Option Packet :=
  ((s.core g.core).loopBufs.find? (fun b => b.lane == 16 * g.pipe + th % 16 && decide (b.owner = gid))).bind
    (fun b => b.packets.find? (fun p => p.addr == packetAddr pc))

/-- Whether a thread that runs alone is inside a latch run of its own sequence (R57, R132). -/
def State.loneRun (s : State) (gid : GrpId) (g : Group) (th : Nat) : Bool :=
  let t := g.thread th
  let reads (a : VAddr) : Bool := ((s.bufPacket gid g th a).map Packet.readsLatch).getD false
  t.alone && t.runnable && g.cur != some t.pc &&
    match t.pkt, s.bufPacket gid g th t.pc with
    | some a, some p => p.addr == a && (p.readsLatch || reads (g.headed p (slotOf t.pc) th))
    | none, some p => p.readsLatch
    | _, none => false

/-- The threads of a group that run alone inside a latch run. -/
def State.loneRuns (s : State) (gid : GrpId) (g : Group) : List Nat :=
  if g.trapMask.isSome || g.threads.all (fun t => !t.alone) then []
  else (List.range g.width).filter (s.loneRun gid g)

/-- Whether a group owns a latch run: its current path's, or that of a thread that runs alone (R57, R132). -/
def State.ownsRun (s : State) (space : Nat) (gid : GrpId) (g : Group) : Bool :=
  s.inRun space g || !(s.loneRuns gid g).isEmpty

/-- A group that owns a latch run on a pipe: the pipe considers only that group (R85). -/
def State.runOwner (s : State) (core pipe : Nat) : Option GrpId :=
  s.teams.findSome? (fun t =>
    (List.range t.groups.length).findSome? (fun k =>
      match t.groups[k]? with
      | some g =>
        if g.core = core ∧ g.pipe = pipe ∧ s.ownsRun t.space ⟨t.id, k⟩ g then some (⟨t.id, k⟩ : GrpId) else none
      | none => none))

/-! ## Delivery of pending traps -/

/-- The pending trap of the lowest cause (R298). -/
def lowestTrap : List Trap → Option Trap
  | [] => none
  | x :: l =>
    match lowestTrap l with
    | none => some x
    | some y => if y.cause < x.cause then some y else some x

/-- What a group keeps of a wait that is over: nothing of it, and no write of it is in flight. -/
def Group.dropWait (g : Group) (w : WaitRec) : Group :=
  { g with
    waits := g.waits.filter (fun x => x.id != w.id)
    spend := g.spend.filter (fun x => x.2 != w.id)
    spawns := g.spawns.filter (fun x => x.1 != w.mask)
    msends := g.msends.filter (fun x => x.1 != w.mask)
    blocks := g.blocks.filter (fun x => x.1 != w.mask) }

/-- A blocked wait taken back: its word is treated as not issued (R159). A serial wait of a `det` node is held as it stands, so
that its count of quantum ends goes on (R349, R351). -/
def Group.unissue (g : Group) (w : WaitRec) : Group :=
  let g1 := g.onThreads w.mask (fun _ t =>
    if t.st = .blocked then { t with st := .runnable, pc := w.pc, stopped := false } else t)
  if w.serial then
    { g1 with waits := g1.waits.map (fun x => if x = w then { x with held := true } else x), packet := none }
  else { g1.dropWait w with packet := none }

/-- Whether a cause comes from outside the group's own words: `PREEMPT` and `EVENT` (R298). -/
def outerCause (c : Nat) : Bool := c == 14 || c == 15

/-- Whether a team is being saved. -/
def Loc.leaving : Loc → Bool
  | .saving _ => true
  | _ => false

/-- Whether a trap can be taken now in a node: `PREEMPT` of a `det` node between steps 4 and 5 of a quantum end only (R349), and not
while the team is being saved, which is what it asks for (R310; DEDUCED, notes/assumptions/47.md). -/
def State.timely (s : State) (id : TeamId) (x : Trap) : Bool :=
  x.cause != 14 || ((!(s.isDet id) || s.ending id) && !((s.team? id).any (fun t => t.loc.leaving)))

/-- The threads of a group that a trap could be delivered to: runnable ones, and, for `PREEMPT` between the quanta of a `det`
node, those that have stopped (R298, R349). -/
def Group.receivers (g : Group) (x : Trap) (det : Bool) : Mask :=
  if det && x.cause == 14 then g.maskBy (fun t => t.st == .runnable) else g.runnable

/-- Whether a pending trap has a point to be taken at: a path to receive it, or, for `PREEMPT` and `EVENT`, a blocked wait
(R298). -/
def Group.canReceive (g : Group) (x : Trap) (det : Bool) : Bool :=
  g.receivers x det != 0 || (outerCause x.cause && g.waits.any (fun w => !w.held && (!w.serial || x.cause == 14)))

/-- The pending trap that a group takes next: of those that have a point to be taken at, the one of the lowest cause (R298). -/
def State.nextTrap (s : State) (gid : GrpId) (g : Group) : Option Trap :=
  if g.trapMask.isSome then none
  else lowestTrap (g.traps.filter (fun x => s.timely gid.team x && g.canReceive x (s.isDet gid.team)))

/-- Whether a group can take a pending trap now (R298). -/
def State.canTake (s : State) (gid : GrpId) (g : Group) : Bool := (s.nextTrap gid g).isSome

/-- A pending trap is taken by a path at a PC (R298, R299): it is pending no more. `y` is the trap as it was pending. -/
def State.enterTrap (s : State) (gid : GrpId) (y x : Trap) (path : Mask) (pc : VAddr) : State :=
  (s.modGrp gid (fun g =>
    { (g.onThreads path (fun _ t => { t with stopped := false })) with traps := g.traps.erase y })).takeTrap gid path x pc

/-- A trap that a group has pending is taken (R298, R299): by the path of the lowest-numbered receiver among those that met its
condition, else of the group; `PREEMPT` and `EVENT` by the current path, and at a blocked wait. -/
def State.deliverTrap (s : State) (gid : GrpId) (x : Trap) : State :=
  match s.grp? gid with
  | none => s
  | some g0 =>
    let det := s.isDet gid.team
    let outside := outerCause x.cause
    let wait := if outside && g0.receivers x det == 0 then g0.waits.find? (fun w => !w.held) else none
    let s := match wait with
      | some w => s.modGrp gid (fun g => g.unissue w)
      | none => s
    match s.grp? gid with
    | none => s
    | some g =>
      let able := g.receivers x det
      let at_ (m : Mask) : Option VAddr := ((Mask.list m g.width).head?).map (fun k => (g.thread k).pc)
      let pc? : Option VAddr :=
        if outside then (match g.cur with | some p => if able &&& g.maskBy (fun t => t.pc == p) = 0 then at_ able else some p
                                          | none => at_ able)
        else (at_ (able &&& x.mask)).or (at_ able)
      match pc? with
      | none => s
      | some pc =>
        let path := able &&& g.maskBy (fun th => th.pc == pc)
        s.enterTrap gid x (if outside then { x with mask := path } else x) path pc

/-- A pending trap is taken at a switch point or pre-emption point (R298). -/
def State.deliver (s : State) (gid : GrpId) : State :=
  match s.grp? gid, s.team? gid.team with
  | some g, some t =>
    if !t.pinned then s
    else
      match s.nextTrap gid g with
      | none => s
      | some x => s.deliverTrap gid x
  | _, _ => s

/-- A word of a latch run that needs what a parked element writes, or that a fence holds for it, has the `PAGE_FAULT` of what is
parked taken at once, by the path that stands at the word, with the lead packet of its run in `AUX` (R302); no other trap is. -/
def State.deliverParked (s : State) (gid : GrpId) (mask : Mask) (pc : VAddr) : State :=
  match s.grp? gid, s.team? gid.team with
  | some g, some t =>
    if g.trapMask.isSome || !t.pinned then s
    else
      match g.traps.find? (fun x => x.cause == 8 && x.parked) with
      | none => s
      | some x =>
        let lead := (g.thread (Mask.lo mask g.width)).lead
        s.enterTrap gid x { x with flags := x.flags + 1, aux := lead.toNat } (g.pathAt pc) pc
  | _, _ => s

end Sys2Proof.Machine
end

