-- ==== Sys2Proof/Machine/Alu.lean ====
section
/-! DEFINITION. The arithmetic of the vector lanes and of the scalar unit, as functions of operand values (R77, R78,
R90 to R104, R117 to R119). -/

namespace Sys2Proof.Machine

open Sys2Proof

/-- A 32-bit word from a number. -/
def w32 (n : Nat) : Word := BitVec.ofNat 32 n

/-- The low half of a word. -/
def lo16 (a : Word) : Nat := a.toNat % 2 ^ 16
/-- The high half of a word. -/
def hi16 (a : Word) : Nat := a.toNat / 2 ^ 16
/-- A word from its halves. -/
def halves (lo hi : Nat) : Word := w32 (lo % 2 ^ 16 + hi % 2 ^ 16 * 2 ^ 16)

/-- An operation on both halves. -/
def perHalf (f : Nat → Nat → Nat) (a b : Word) : Word := halves (f (lo16 a) (lo16 b)) (f (hi16 a) (hi16 b))
/-- An operation of three operands on both halves. -/
def perHalf3 (f : Nat → Nat → Nat → Nat) (d a b : Word) : Word :=
  halves (f (lo16 d) (lo16 a) (lo16 b)) (f (hi16 d) (hi16 a) (hi16 b))

/-- An integer clamped to a range, as a word. -/
def clampW (lo hi x : Int) : Word := BitVec.ofInt 32 (max lo (min hi x))

/-- `VADD` (R90). -/
def addOp (ty : AddTy) (a b : Word) : Word :=
  match ty with
  | .i32 => a + b
  | .i32s => clampW (-(2 ^ 31)) (2 ^ 31 - 1) (a.toInt + b.toInt)
  | .n32s => clampW 0 (2 ^ 32 - 1) ((a.toNat : Int) + b.toNat)
  | .f32 => w32 (f32.add a.toNat b.toNat)
  | .h2 => perHalf f16fmt.add a b
  | .bh2 => perHalf bf16.add a b
  | .i16x2 => perHalf (fun x y => x + y) a b

/-- `VSUB` (R90). -/
def subOp (ty : AddTy) (a b : Word) : Word :=
  match ty with
  | .i32 => a - b
  | .i32s => clampW (-(2 ^ 31)) (2 ^ 31 - 1) (a.toInt - b.toInt)
  | .n32s => clampW 0 (2 ^ 32 - 1) ((a.toNat : Int) - b.toNat)
  | .f32 => w32 (f32.sub a.toNat b.toNat)
  | .h2 => perHalf f16fmt.sub a b
  | .bh2 => perHalf bf16.sub a b
  | .i16x2 => perHalf (fun x y => x + 2 ^ 16 - y) a b

/-- `VMUL` (R91). -/
def mulOp (ty : MulTy) (a b : Word) : Word :=
  match ty with
  | .i32lo => a * b
  | .i32hi => BitVec.ofInt 32 (a.toInt * b.toInt / 2 ^ 32)
  | .n32hi => w32 (a.toNat * b.toNat / 2 ^ 32)
  | .f32 => w32 (f32.mul a.toNat b.toNat)
  | .h2 => perHalf f16fmt.mul a b
  | .bh2 => perHalf bf16.mul a b
  | .i16x2 => perHalf (fun x y => x * y) a b

/-- `VFMA` (R92). -/
def fmaOp (ty : FmaTy) (d a b : Word) : Word :=
  match ty with
  | .i32 => d + a * b
  | .f32 => w32 (f32.fma d.toNat a.toNat b.toNat)
  | .h2 => perHalf3 f16fmt.fma d a b
  | .bh2 => perHalf3 bf16.fma d a b

/-- `VFNMA` (R92). -/
def fnmaOp (ty : FmaTy) (d a b : Word) : Word :=
  match ty with
  | .i32 => d - a * b
  | .f32 => w32 (f32.fnma d.toNat a.toNat b.toNat)
  | .h2 => perHalf3 f16fmt.fnma d a b
  | .bh2 => perHalf3 bf16.fnma d a b

/-- `VMIN` and `VMAX` (R93). -/
def minMaxOp (isMax : Bool) (ty : MinTy) (a b : Word) : Word :=
  match ty with
  | .i32 => if isMax then (if a.slt b then b else a) else (if b.slt a then b else a)
  | .n32 => if isMax then (if a.ult b then b else a) else (if b.ult a then b else a)
  | .f32 => w32 (f32.minMax isMax a.toNat b.toNat)
  | .h2 => perHalf (f16fmt.minMax isMax) a b
  | .bh2 => perHalf (bf16.minMax isMax) a b

/-- `VLOGIC` (R94). -/
def logicOp (op : LogicOp) (a b : Word) : Word :=
  match op with
  | .and => a &&& b
  | .or => a ||| b
  | .xor => a ^^^ b
  | .andn => a &&& ~~~b
  | .orn => a ||| ~~~b
  | .xnor => ~~~(a ^^^ b)

/-- `VSHIFT.SHL`, `SHR`, `SAR`, `ROTL` (R95): the amount is b[7:0]. -/
def shiftOp (op : ShiftOp) (a b : Word) : Word :=
  let n := b.toNat % 256
  match op with
  | .shl => a <<< n
  | .shr => a >>> n
  | .sar => a.sshiftRight n
  | .rotl => a.rotateLeft (n % 32)

/-- The width of a bit field: min(`L`[10:5], 32 − pos) (R95). -/
def fieldWidth (l : Word) : Nat := min (fld l.toNat 5 6) (32 - fld l.toNat 0 5)

/-- `VSHIFT.BFX` (R95). -/
def bfxOp (l a : Word) : Word := w32 (fld a.toNat (fld l.toNat 0 5) (fieldWidth l))

/-- `VSHIFT.BFI` (R95). -/
def bfiOp (l d a : Word) : Word :=
  let mask := w32 ((2 ^ fieldWidth l - 1) * 2 ^ fld l.toNat 0 5)
  (d &&& ~~~mask) ||| ((a <<< fld l.toNat 0 5) &&& mask)

/-- The number of 1 bits below position n. -/
def popCount (x : Nat) : Nat → Nat
  | 0 => 0
  | n + 1 => (if x.testBit n then 1 else 0) + popCount x n

/-- Byte i of a word. -/
def byteOf (a : Word) (i : Nat) : Nat := fld a.toNat (8 * i) 8

/-- The byte a selector nibble chooses (R99). -/
def permByte (a : Word) (s : Nat) : Nat :=
  if s < 4 then byteOf a s
  else if s < 8 then (if 128 ≤ byteOf a (s - 4) then 0xFF else 0)
  else 0

/-- `VBITS` (R99). -/
def bitsOp (op : BitsOp) (a b : Word) : Word :=
  match op with
  | .popc => w32 (popCount a.toNat 32)
  | .clz => w32 (if a.toNat = 0 then 32 else 31 - Nat.log2 a.toNat)
  | .brev => a.reverse
  | .byteperm =>
    w32 (permByte a (fld b.toNat 0 4) + permByte a (fld b.toNat 4 4) * 2 ^ 8 + permByte a (fld b.toNat 8 4) * 2 ^ 16 +
      permByte a (fld b.toNat 12 4) * 2 ^ 24)
  | .abs => if a.slt 0 then -a else a
  | .neg => -a

/-- `VDIV` (R100). -/
def divOp (ty : DivTy) (a b : Word) : Word :=
  match ty with
  | .i32 => if b = 0 then 0xFFFF_FFFF else BitVec.ofInt 32 (a.toInt.tdiv b.toInt)
  | .n32 => if b = 0 then 0xFFFF_FFFF else w32 (a.toNat / b.toNat)
  | .remI32 => if b = 0 then a else BitVec.ofInt 32 (a.toInt.tmod b.toInt)
  | .remN32 => if b = 0 then a else w32 (a.toNat % b.toNat)
  | .f32 => w32 (f32.div a.toNat b.toNat)

/-- `VSFU` (R101). -/
def sfuOp (op : SfuOp) (a : Word) : Word :=
  let v := f32.val a.toNat
  let r :=
    match op with
    | .rcp => (Val.fin false 1 0).div v
    | .sqrt => v.sqrt
    | .rsqrt => v.rsqrt
    | .exp2 => v.exp2
    | .log2 => v.log2
  w32 (f32.round .rn r)

/-- The source thread of `VPERM` (R102). -/
def permSource (op : PermOp) (width t b bLo : Nat) : Nat :=
  match op with
  | .idx => b % width
  | .up => if b ≤ t then t - b else t
  | .down => if t + b < width then t + b else t
  | .xor => let u := Nat.xor t (b % 64); if u < width then u else t
  | .bcast => bLo % width

/-- The fold of `VRED` over the active threads' values, lowest thread first (R103). -/
def redFold (op : RedOp) (l : List Word) : Word :=
  let f : Word → Word → Word :=
    match op with
    | .addI => (· + ·)
    | .minI => fun a b => minMaxOp false .i32 a b
    | .maxI => fun a b => minMaxOp true .i32 a b
    | .minF => fun a b => minMaxOp false .f32 a b
    | .maxF => fun a b => minMaxOp true .f32 a b
    | .and => (· &&& ·)
    | .or => (· ||| ·)
    | .addF => fun a b => w32 (f32.add a.toNat b.toNat)
  match l with
  | [] => 0
  | [a] =>
    match op with
    | .minF | .maxF => f a a
    | _ => a
  | a :: r => r.foldl f a

/-- `VRED` (R103): `leaves` are the values of positions 0 to width − 1, none for an inactive thread. -/
def redOp (op : RedOp) (leaves : List (Option Word)) : Word :=
  match op with
  | .addF =>
    let l := leaves.map (fun x => match x with | some a => a.toNat | none => 0x8000_0000)
    w32 (treeSum f32.add (Nat.log2 leaves.length) l)
  | _ => redFold op (leaves.filterMap id)

/-- `VDOT` (R104). -/
def dotOp (op : DotOp) (d a b : Word) : Word :=
  let sByte (x : Word) (i : Nat) : Int := (BitVec.ofNat 8 (byteOf x i)).toInt
  match op with
  | .i8 => BitVec.ofInt 32 (d.toInt + ((List.range 4).map (fun i => sByte a i * sByte b i)).foldl (· + ·) 0)
  | .n8 => w32 (d.toNat + ((List.range 4).map (fun i => byteOf a i * byteOf b i)).foldl (· + ·) 0)
  | .bf16 =>
    let p (x y : Nat) := leaf bf16 bf16 x y
    w32 (f32.add d.toNat (f32.add (p (lo16 a) (lo16 b)) (p (hi16 a) (hi16 b))))
  | .e4m3 =>
    let p (i : Nat) := leaf e4m3 e4m3 (byteOf a i) (byteOf b i)
    w32 (f32.add d.toNat (f32.add (f32.add (p 0) (p 1)) (f32.add (p 2) (p 3))))

/-- The element width of a conversion's element operand (R118). -/
def cvtWidth : CvtOp → Nat
  | .f16f32 | .bf16f32 | .f32f16 | .f32bf16 => 16
  | .e2m1f32 | .f32e2m1 => 4
  | _ => 8

/-- D with element k replaced (R119, insert). -/
def insertElem (w k : Nat) (d : Word) (e : Nat) : Word :=
  let mask := w32 ((2 ^ w - 1) * 2 ^ (w * k))
  (d &&& ~~~mask) ||| (w32 (e * 2 ^ (w * k)) &&& mask)

/-- A value of any format as FP32, exact; a NaN gives the default NaN (R119). -/
def widen (v : Val) : Word := w32 (f32.round .rn v)

/-- `VCVT` (R119). -/
def cvtOp (m : Rnd) (op : CvtOp) (k : Nat) (d a : Word) : Word :=
  let v := f32.val a.toNat
  let el := fld a.toNat (cvtWidth op * k) (cvtWidth op)
  let near : Rnd := if m = .rns then .rn else m
  let put (n : Nat) : Word := insertElem (cvtWidth op) k d n
  match op with
  | .f32i32 => w32 (f32.round near (Val.ofInt a.toInt))
  | .f32n32 => w32 (f32.round near (Val.ofInt (a.toNat : Int)))
  | .i32f32 => BitVec.ofInt 32 (toIntSat near (-(2 ^ 31)) (2 ^ 31 - 1) v)
  | .n32f32 => BitVec.ofInt 32 (toIntSat near 0 (2 ^ 32 - 1) v)
  | .e8m0f32 => put (toE8M0 m v)
  | .f16f32 => put (f16fmt.cvt m v)
  | .bf16f32 => put (bf16.cvt m v)
  | .e4m3f32 => put (e4m3.cvt m v)
  | .e5m2f32 => put (e5m2.cvt m v)
  | .e2m1f32 => put (e2m1.cvt m v)
  | .f32f16 => widen (f16fmt.val el)
  | .f32bf16 => widen (bf16.val el)
  | .f32e4m3 => widen (e4m3.val el)
  | .f32e5m2 => widen (e5m2.val el)
  | .f32e2m1 => widen (e2m1.val el)
  | .f32e8m0 => widen (valE8M0 el)

/-- `SALU` (R78). -/
def saluOp (op : SaluOp) (a b : Reg) : Reg :=
  let n := b.toNat % 64
  match op with
  | .add => a + b
  | .sub => a - b
  | .mul => a * b
  | .mulhn => BitVec.ofNat 64 (a.toNat * b.toNat / 2 ^ 64)
  | .and => a &&& b
  | .or => a ||| b
  | .xor => a ^^^ b
  | .andn => a &&& ~~~b
  | .shl => a <<< n
  | .shr => a >>> n
  | .sar => a.sshiftRight n
  | .min => if b.slt a then b else a
  | .max => if a.slt b then b else a
  | .minn => if b.ult a then b else a
  | .maxn => if a.ult b then b else a
  | .slt => if a.slt b then 1 else 0

/-- The operation of `ATOM` and `ATOMS` (R155). -/
def atomOp (op : AtomOp) (old v n : Word) : Word :=
  match op with
  | .addI => old + v
  | .addF => w32 (f32.add old.toNat v.toNat)
  | .minI => if v.slt old then v else old
  | .maxI => if old.slt v then v else old
  | .and => old &&& v
  | .or => old ||| v
  | .xchg => v
  | .cas => if old = v then n else old

end Sys2Proof.Machine
end

