-- ==== Sys2Proof/Machine/Scalar.lean ====
section
/-! DEFINITION. The scalar unit: `SALU`, `SMOV` and `GRP` (R78, R79, R135). -/

namespace Sys2Proof.Machine

open Sys2Proof

/-- A U word that reads the s registers `rs`: it waits for them (R70), then has its effect on the group. -/
def State.uWord (s : State) (rs : List Nat) (f : Team → Group → Res) : Host.Outcome State Fault Refusal :=
  s.asWord (fun t g => if g.sPending rs then .stall .busy else f t g)

/-- A U word that only writes s[d]. -/
def State.uSet (s : State) (rs : List Nat) (d : BitVec 6) (val : Group → Reg) : Host.Outcome State Fault Refusal :=
  s.uWord rs (fun _ g => .done (s.modGrp s.iss.grp (fun x => x.setS d.toNat (val g))))

/-- `SALU` (R78). -/
def execSalu (op : SaluOp) (d a : BitVec 6) (b : USrc) (s : State) : Host.Outcome State Fault Refusal :=
  s.uSet (a.toNat :: b.sregs) d (fun g => saluOp op (g.sreg a.toNat) (g.uVal s.iss.mask s.iss.lit b))

/-- `MOV` (R79). -/
def execMov (d : BitVec 6) (b : USrc) (s : State) : Host.Outcome State Fault Refusal :=
  s.uSet b.sregs d (fun g => g.uVal s.iss.mask s.iss.lit b)

/-- `LI` (R79). -/
def execLi (d : BitVec 6) (s : State) : Host.Outcome State Fault Refusal :=
  s.uSet [] d (fun _ => s.iss.lit.zeroExtend 64)

/-- `LIS` (R79). -/
def execLis (d : BitVec 6) (s : State) : Host.Outcome State Fault Refusal :=
  s.uSet [] d (fun _ => s.iss.lit.signExtend 64)

/-- `LIHI` (R79). -/
def execLihi (d a : BitVec 6) (s : State) : Host.Outcome State Fault Refusal :=
  s.uSet [a.toNat] d (fun g => s.iss.lit ++ (g.sreg a.toNat).setWidth 32)

/-- What `FROMV` reads of a thread; a latch of a thread that does not execute the word gives 0 (R79). -/
def fromvVal (g : Group) (mask : Mask) (v : VSrc) (th : Nat) : Reg :=
  match v with
  | .v n => ((g.thread th).vreg n.val).signExtend 64
  | .b n => if mask.getLsbD th then ((g.thread th).latch n.val).signExtend 64 else 0

/-- `FROMV` (R67, R79). -/
def execFromv (d a : BitVec 6) (v : VSrc) (s : State) : Host.Outcome State Fault Refusal :=
  s.uWord [a.toNat] (fun _ g =>
    let th := (g.sreg a.toNat).toNat % g.width
    let eff : Res := .done (s.modGrp s.iss.grp (fun x => x.setS d.toNat (fromvVal g s.iss.mask v th)))
    match v with
    | .v n =>
      if g.alloc ≤ n.val then s.raise 3 0
      else if g.vPending (BitVec.twoPow 64 th) [n.val] then .stall (s.owedBy g (BitVec.twoPow 64 th) [n.val])
      else eff
    | .b _ => eff)

/-- The mask of the active threads whose predicate holds (R79). -/
def ballot (g : Group) (mask : Mask) (p : Nat) : Mask := mask &&& g.maskBy (fun t => t.pred p)

/-- `BALLOT` (R79). -/
def execBallot (d : BitVec 6) (p : Fin 8) (s : State) : Host.Outcome State Fault Refusal :=
  s.uSet [] d (fun g => ballot g s.iss.mask p.val)

/-- `POPCS` (R79). -/
def execPopcs (d a : BitVec 6) (s : State) : Host.Outcome State Fault Refusal :=
  s.uSet [a.toNat] d (fun g => BitVec.ofNat 64 (popCount (g.sreg a.toNat).toNat 64))

/-! ## GRP -/

/-- `ELECT` (R135): p0 stays true. -/
def execElect (d : BitVec 6) (p : Fin 8) (s : State) : Host.Outcome State Fault Refusal :=
  s.uWord [] (fun _ g =>
    let lo := Mask.lo s.iss.mask g.width
    .done (s.modGrp s.iss.grp (fun x =>
      (x.onThreads s.iss.mask (fun i t => t.setPred p.val (i == lo))).setS d.toNat (BitVec.ofNat 64 lo))))

/-- `VOTEALL` (R135). -/
def execVoteall (d : BitVec 6) (p : Fin 8) (s : State) : Host.Outcome State Fault Refusal :=
  s.uSet [] d (fun g => if (Mask.list s.iss.mask g.width).all (fun i => (g.thread i).pred p.val) then 1 else 0)

/-- `VOTEANY` (R135). -/
def execVoteany (d : BitVec 6) (p : Fin 8) (s : State) : Host.Outcome State Fault Refusal :=
  s.uSet [] d (fun g => if (Mask.list s.iss.mask g.width).any (fun i => (g.thread i).pred p.val) then 1 else 0)

end Sys2Proof.Machine
end

