-- ==== Sys2Proof/Machine/Branch.lean ====
section
/-! DEFINITION. Branches, joins, `YIELD` and `EXIT` (R129, R133, R134), and `PATH_DUE` (R125). -/

namespace Sys2Proof.Machine

open Sys2Proof

/-- The address of the packet in issue. -/
def State.pa (s : State) : VAddr := packetAddr s.iss.pc

/-- The target of a relative branch: pa + 16 × off (R50, R134). -/
def target (pa : VAddr) (off : Int) : VAddr := pa + BitVec.ofInt 56 (16 * off)

/-- A group whose threads of a mask take a branch: their PCs move and their latch liveness is cleared, that of what the chain
group delivers too (R56, R134). -/
def Group.jump (g : Group) (m : Mask) (pc : VAddr) : Group :=
  g.onThreads m (fun _ t => { t.killLatches with pc := pc, moved := true })

/-- A uniform branch: one decision moves every active thread (R133). -/
def State.uniform (s : State) (rs : List Nat) (taken : Group → Bool) (pc : Group → VAddr) :
    Host.Outcome State Fault Refusal :=
  s.uWord rs (fun _ g =>
    .done (if taken g then s.modGrp s.iss.grp (fun x => x.jump s.iss.mask (pc g)) else s))

/-- The predicate of the lowest active thread (R134). -/
def State.loPred (s : State) (g : Group) (p : Fin 8) : Bool := (g.thread (Mask.lo s.iss.mask g.width)).pred p.val

/-- `B` (R134). -/
def execB (p : Fin 8) (off : BitVec 18) (s : State) : Host.Outcome State Fault Refusal :=
  s.uniform [] (fun g => s.loPred g p) (fun _ => target s.pa off.toInt)

/-- `BZ` (R134). -/
def execBz (sr : BitVec 6) (off : BitVec 15) (s : State) : Host.Outcome State Fault Refusal :=
  s.uniform [sr.toNat] (fun g => g.sreg sr.toNat == 0) (fun _ => target s.pa off.toInt)

/-- `BNZ` (R134). -/
def execBnz (sr : BitVec 6) (off : BitVec 15) (s : State) : Host.Outcome State Fault Refusal :=
  s.uniform [sr.toNat] (fun g => g.sreg sr.toNat != 0) (fun _ => target s.pa off.toInt)

/-- `CALL` (R134): s7 is written only when it is taken. -/
def execCall (p : Fin 8) (off : BitVec 18) (s : State) : Host.Outcome State Fault Refusal :=
  s.uWord [] (fun _ g =>
    .done (if s.loPred g p then
      s.modGrp s.iss.grp (fun x =>
        (x.jump s.iss.mask (target s.pa off.toInt)).setS 7 ((s.pa + 16).setWidth 64))
    else s))

/-- The packet address an s register names: bits [55:4] (R134). -/
def regTarget (v : Reg) : VAddr := packetAddr (v.setWidth 56)

/-- `RET` (R134). -/
def execRet (s : State) : Host.Outcome State Fault Refusal :=
  s.uniform [7] (fun _ => true) (fun g => regTarget (g.sreg 7))

/-- `BRX` (R134). -/
def execBrx (sr : BitVec 6) (s : State) : Host.Outcome State Fault Refusal :=
  s.uniform [sr.toNat] (fun _ => true) (fun g => regTarget (g.sreg sr.toNat))

/-- A branch that decides for each thread (R134, `BP`). -/
def Group.split (g : Group) (m : Mask) (p : Fin 8) (pc : VAddr) : Group :=
  if ballot g m p.val = 0 then g else (g.killOn m).jump (ballot g m p.val) pc

/-- `BD` (R128, R130, R134). -/
def execBd (p : Fin 8) (off : BitVec 18) (s : State) : Host.Outcome State Fault Refusal :=
  s.uWord [] (fun _ g =>
    if Config.joinDepth ≤ g.joins.length then s.raise 4 0
    else
      let e : JoinEntry := { join := target s.pa s.iss.lit.toInt, members := s.iss.mask, arrived := 0 }
      .done (s.modGrp s.iss.grp (fun x =>
        { (x.split s.iss.mask p (target s.pa off.toInt)) with joins := e :: x.joins })))

/-- `BP` (R134). -/
def execBp (p : Fin 8) (off : BitVec 18) (s : State) : Host.Outcome State Fault Refusal :=
  s.uWord [] (fun _ _ =>
    .done (s.modGrp s.iss.grp (fun x => x.split s.iss.mask p (target s.pa off.toInt))))

/-- `JOIN` (R129, R134): each active thread goes to its innermost entry's join packet, where it arrives; a thread without
one continues. -/
def execJoin (s : State) : Host.Outcome State Fault Refusal :=
  s.uWord [] (fun _ g =>
    .done (s.modGrp s.iss.grp (fun x => (x.killOn s.iss.mask).onThreads s.iss.mask (fun i t =>
      match g.innermost i with
      | some e => { t with pc := e.join, moved := true }
      | none => { t with moved := true }))))

/-- `YIELD` (R134). -/
def execYield (s : State) : Host.Outcome State Fault Refusal :=
  s.uWord [] (fun _ _ =>
    .done (s.modGrp s.iss.grp (fun x => { (x.jump s.iss.mask (s.pa + 16)) with yielded := true })))

/-- `EXIT` (R134). -/
def execExit (s : State) : Host.Outcome State Fault Refusal :=
  s.uWord [] (fun _ _ =>
    .done (s.modGrp s.iss.grp (fun x => x.onThreads s.iss.mask (fun _ t => { t with st := .exited }))))

/-- `PATH_DUE` (R125, R127): a waiting path whose count has reached the interval becomes due. -/
def execPathDue (g : GrpId) (pc : VAddr) (s : State) : Host.Outcome State Fault Refusal :=
  match s.grp? g with
  | some x =>
    let nofair := ((s.launch? g.team).map (·.nofair)).getD false
    if nofair then .next s
    else
      .next (s.modGrp g (fun y => { y with paths := y.paths.map (fun r =>
        if r.pc = pc ∧ 2 ^ (s.core x.core).fairLog ≤ r.wait ∧ r.due = none then { r with due := some (s.now x.core) }
        else r) }))
  | none => .next s

end Sys2Proof.Machine
end

