-- ==== Sys2Proof/Machine/Counter.lean ====
section
/-! DEFINITION. Dependence counters at their homes (R248 to R250, R371). -/

namespace Sys2Proof.Machine

open Sys2Proof

/-- `COUNT` of the counter at a physical address; with an uncorrectable byte it reads as zero (R305, R363). -/
def State.ctrCount (s : State) (pa : Nat) : Nat := if s.anyBad pa 4 then 0 else leNat (s.physReadN pa 4)

/-- `WAITER` of the counter at a physical address. -/
def State.ctrWaiter (s : State) (pa : Nat) : Nat := leNat (s.physReadN (pa + 8) 4)

/-- A reserved bit of a counter is set (R248). -/
def State.ctrReserved (s : State) (pa : Nat) : Bool :=
  leNat (s.physReadN (pa + 4) 4) != 0 || leNat (s.physReadN (pa + 12) 4) != 0

/-- A counter whose home holds writes for a migration or for the host performs no update (R203, R352). -/
def State.ctrBusy (s : State) (pa : Nat) : Bool := s.writeLocked pa

/-- The physical address that stands for a byte of a poisoned page (R189). -/
def poisonPA : Nat := 2 ^ 52

/-- Where an engine finds a counter: of a poisoned page, it stands for the wheel that has translated it, where the writes that the page
drops are counted (R189, R363, R371). -/
def ctrLeaf (core : Nat) (x : Xlat) : Nat := if x.poison then poisonPA + wheelOf core else x.pa

/-- A node becomes ready now (R249, R251). -/
def State.nodeReady (s : State) (id : Nat) : State :=
  s.modNode id (fun n => if n.ready then n else { n with ready := true, readyAt := s.cycle })

/-- A decrement at the counter's home, with `COUNT` after it; none when `COUNT` is smaller and nothing changes (R249). -/
def State.decrement (s : State) (pa a : Nat) : State × Option Nat :=
  let c := s.ctrCount pa
  if c < a then (s, none)
  else
    let n := c - a
    let s1 := s.homeWriteL 0 pa (leBytes 4 n)
    let w := s.ctrWaiter pa
    if n = 0 ∧ w ≠ 0 then ((s1.homeWriteL 0 (pa + 8) (leBytes 4 0)).nodeReady w, some n) else (s1, some n)

/-- A decrement by an engine: one of a counter at zero is counted and dropped, and so is one on a poisoned page; an
uncorrectable counter reads zero, and its read is counted too (R189, R249, R363, R365). -/
def State.engineDecr (s : State) (pa a : Nat) : State :=
  if poisonPA ≤ pa then s.count (pa - poisonPA) 0x46 1
  else
  let s := if s.anyBad pa 4 then s.countBad (s.fwd pa) else s
  let r := s.decrement pa a
  match r.2 with
  | some _ => r.1
  | none => s.count (s.homeWheel pa) 0x48 1

/-- `COUNTER_DECREMENT`: an engine's decrement reaches the counter's home (R249). -/
def execCounterDecrement (pa amount : Nat) (s : State) : Host.Outcome State Fault Refusal :=
  .next (if s.ctrBusy pa || decide (amount = 0) || decide (16 < amount) then s else s.engineDecr pa amount)

end Sys2Proof.Machine
end

