-- ==== Sys2Proof/Machine/Copy.lean ====
section
/-! DEFINITION. The vat streamer: transfer records, shapes, and the `COPY` family (R229 to R245). -/

namespace Sys2Proof.Machine

open Sys2Proof

/-! ## Channels -/

/-- An update of a team's channel. -/
def State.modChan (s : State) (t : TeamId) (ch : Nat) (f : Chan → Chan) : State :=
  s.modTeam t (fun t => { t with chans := modAt f ch t.chans })

/-- A team's channel. -/
def Team.chan (t : Team) (ch : Nat) : Chan := t.chans.getD ch ⟨0, 0, 0, 0, false, false, none, none, 0⟩

/-- The channel word (R241). -/
def Chan.word (c : Chan) : Nat := c.recs % 2 ^ 24 * 2 ^ 8 + c.reason % 16 * 2 ^ 4 + c.st % 4

/-- Whether an entry of a ring is that of a channel. -/
def RingEnt.is (x : RingEnt) (t : TeamId) (ch : Nat) : Bool := decide (x.team = t) && x.ch == ch

/-- A channel put in a ring behind the one that became running last: the ring goes round in the order of becoming running (R238). -/
def ringIns (e : RingEnt) (ring : List RingEnt) : List RingEnt :=
  let top := ring.foldl (fun m x => max m x.since) 0
  match ring.findIdx? (fun x => x.since == top) with
  | some k => ring.take (k + 1) ++ e :: ring.drop (k + 1)
  | none => [e]

/-- A channel leaves its vat's ring (R238). -/
def State.ringDrop (s : State) (t : Team) (ch : Nat) : State :=
  s.modVat (vatOf t.core) (fun v => { v with ring := v.ring.filter (fun x => !(x.is t.id ch)) })

/-- A channel joins its vat's ring, with its team's weight (R238). -/
def State.ringAdd (s : State) (t : Team) (ch : Nat) : State :=
  let w := ((s.launch? t.id).map (·.weight)).getD 1
  (s.ringDrop t ch).tick.modVat (vatOf t.core) (fun v => { v with ring := ringIns ⟨t.id, ch, w, s.fresh⟩ v.ring })

/-- A channel becomes idle: its chain has ended (R229). -/
def State.chanIdle (s : State) (t : Team) (ch : Nat) : State :=
  (s.modChan t.id ch (fun c => { c with st := 0, act := none, cancel := false, waiting := false })).ringDrop t ch

/-- A channel becomes stopped, with a reason (R229, R237). -/
def State.chanStop (s : State) (t : Team) (ch reason : Nat) (unsaid : Bool := false) : State :=
  let s := s.fixShapes t (t.chan ch) unsaid
  let s := s.freeEntries (((t.chan ch).act.map (·.entries)).getD [])
  (s.modChan t.id ch (fun c => { c with st := 2, act := none, cancel := false, waiting := false, reason := reason })).ringDrop t ch

/-! ## Records and shapes -/

/-- A field of a block of bytes, little-endian (R1). -/
def field (bs : List Byte) (off n : Nat) : Nat := leNat ((bs.drop off).take n)

/-- A field read as a signed number. -/
def sfield (bs : List Byte) (off n : Nat) : Int := (BitVec.ofNat (8 * n) (field bs off n)).toInt

/-- Whether some bytes are all zero. -/
def allZero (bs : List Byte) (off n : Nat) : Bool := ((bs.drop off).take n).all (· == 0)

/-- A shape record (R233), none when it breaks its format. -/
def shapeOf (bs : List Byte) : Option Shape :=
  let rank := field bs 0 1
  let elog := field bs 1 1
  let dim (d : Nat) : Nat × Int := (field bs (8 + 16 * d) 4, sfield bs (16 + 16 * d) 8)
  if rank = 0 || decide (8 < rank) || decide (4 < elog) || !allZero bs 2 6 || !allZero bs 136 56 then none
  else if !(List.range 8).all (fun d => allZero bs (12 + 16 * d) 4) then none
  else if !(List.range 8).all (fun d => if d < rank then (dim d).1 != 0 else allZero bs (8 + 16 * d) 16) then none
  else some { elog := elog, dims := (List.range rank).map dim }

/-- The number of elements of a shape. -/
def Shape.total (x : Shape) : Nat := x.dims.foldl (fun n d => n * d.1) 1

/-- The malformations of a record that do not depend on its shapes (R230, R231, R234). -/
def recBad (bs : List Byte) (gang : Bool) : Bool :=
  let ctl := field bs 56 8
  let ctype := fld ctl 1 2
  let tg := field bs 48 8
  field bs 0 8 % 64 != 0 || field bs 24 8 % 64 != 0 || field bs 32 8 % 64 != 0 || field bs 44 4 != 0 ||
    fld ctl 16 16 != 0 || fld ctl 5 7 != 0 || ctype == 3 || decide (field bs 40 4 < fld ctl 32 32) ||
    (ctype == 0 && tg != 0) ||
    (ctype == 1 && (tg % 16 != 0 || tg / 2 ^ 23 != 0 || (fld tg 20 2 != 0 && fld tg 22 1 == 0) ||
      (fld tg 22 1 == 1 && !gang))) ||
    (ctype == 2 && tg % 16 != 0)

/-- The malformations that depend on the shapes (R234). -/
def shapesBad (count done : Nat) (a b : Option Shape) : Bool :=
  let elog := match a, b with
    | some x, _ => x.elog
    | none, some y => y.elog
    | none, none => 0
  let esize := 2 ^ elog
  let off (x : Option Shape) : Bool := match x with
    | some y => y.elog != elog || y.total * esize != count
    | none => false
  off a || off b || count % esize != 0 || done % esize != 0

/-! ## The record cache (R239) -/

/-- A shape from the record cache of a vat: it becomes the most recently used. -/
def State.shapeHit (s : State) (vat space va : Nat) : Option (State × Shape) :=
  ((s.vat vat).shapes.find? (fun e => e.space == space && e.va == va)).map (fun e =>
    (s.modVat vat (fun v => { v with shapes := e :: v.shapes.filter (fun y => !decide (y = e)) }), e.shape))

/-- The shape a record names: none when it names none; an error is a fault (reason 4 without a write) or a malformed
shape. -/
inductive ShapeRes where
  | ok (s : State) (x : Option Shape)
  | fault
  | bad (s : State)

/-- A shape record read from the cache, or through translation on a miss (R239). -/
def State.readShape (s : State) (by_ : Issuer) (t : Team) (va : Nat) : ShapeRes :=
  if va = 0 then .ok s none
  else
    match s.shapeHit (vatOf t.core) t.space (va56 va) with
    | some r => .ok r.1 (some r.2)
    | none =>
      match s.readVA by_ t.core t.space (va56 va) 192 with
      | .error _ => .fault
      | .ok r =>
        match shapeOf r.2 with
        | none => .bad r.1
        | some x =>
          .ok (r.1.modVat (vatOf t.core) (fun v =>
            { v with shapes := (⟨t.space, va56 va, x⟩ :: v.shapes).take Config.shapeCache })) (some x)

/-! ## Range scoreboard entries (R235) -/

/-- The spans, by window, of the places that some elements of a side touch. -/
def spans (l : List (ScrAt × Nat)) : List (TeamId × Nat × Nat) :=
  l.foldl (fun acc x =>
    let hi := x.1.off + x.2 - 1
    if acc.any (fun y => decide (y.1 = x.1.team)) then
      acc.map (fun y => if y.1 = x.1.team then (y.1, min y.2.1 x.1.off, max y.2.2 hi) else y)
    else acc ++ [(x.1.team, x.1.off, hi)]) []

/-- The entries a side needs, as core and range: a span over both halves of a paired window takes one on each core; an
unpinned window takes none. -/
def State.spanEntries (s : State) (l : List (TeamId × Nat × Nat)) : List (Nat × TeamId × Nat × Nat) :=
  l.flatMap (fun y =>
    match s.team? y.1 with
    | none => []
    | some t =>
      if !t.pinned then []
      else
        let half := t.wsize / 2
        if t.paired && decide (y.2.1 < half) && decide (half ≤ y.2.2) then
          [(t.core, y.1, y.2.1, half - 1), (t.core + 1, y.1, half, y.2.2)]
        else [(t.coreAt y.2.1, y.1, y.2.1, y.2.2)])

/-- The places in windows that the elements of a side touch, those that would trap left out. -/
def State.sidePlaces (s : State) (t : TeamId) (addr : Nat → Nat) (esize lo n : Nat) : List (ScrAt × Nat) :=
  (rangeFrom lo n).filterMap (fun k =>
    match s.scrAt t (addr k) esize with
    | .ok a => some (a, esize)
    | .error _ => none)

/-- Makes range scoreboard entries, all or none: none of them when a scoreboard has no room (R152). -/
def State.addEntries (s : State) (owner : RangeOwner) : List (Nat × TeamId × Nat × Nat) → Option (State × List Nat)
  | [] => some (s, [])
  | e :: es =>
    if Config.rangeScore ≤ (s.core e.1).ranges.length then none
    else
      let id := s.fresh
      let r : RangeEnt := { id := id, team := e.2.1, owner := owner, lo := e.2.2.1, hi := e.2.2.2 }
      let s1 := s.tick.modCore e.1 (fun c => { c with ranges := c.ranges ++ [r] })
      (s1.addEntries owner es).map (fun x => (x.1, id :: x.2))

/-! ## Starting a record (R232) -/

/-- Who last issued `COPYGO` on a channel. -/
def Chan.issuer (c : Chan) (t : Team) : Issuer :=
  c.by_.getD { team := t.id, grp := 0, mask := 0, slot := 3, word := 0, pc := 0 }

/-- A channel's record stops short: its control word is written, and the channel becomes stopped; a record that cannot
be written gives reason 4 (R237). -/
def State.stopRecord (s : State) (t : Team) (ch ctl done reason : Nat) : State :=
  match s.writeVA t.core t.space (va56 ((t.chan ch).recAddr + 56)) (leBytes 8 (stopCtl ctl done reason)) with
  | .ok s' => s'.chanStop t ch reason
  | .error _ => s.chanStop t ch 4 true

/-- The start of a record whose format is sound (R232, R235, R236). -/
def State.startRecord (s : State) (t : Team) (ch : Nat) (bs : List Byte) (a b : Option Shape) : State :=
  let ctl := field bs 56 8
  let count := field bs 40 4
  let elog := match a, b with
    | some x, _ => x.elog
    | none, some y => y.elog
    | none, none => 0
  let x : Xfer :=
    { next := field bs 0 8, src := field bs 8 8, dst := field bs 16 8, sshape := a, dshape := b,
      sva := field bs 24 8, dva := field bs 32 8, count := count,
      esize := 2 ^ elog, moved := fld ctl 32 32 / 2 ^ elog, sscr := fld ctl 3 1 == 1, dscr := fld ctl 4 1 == 1,
      ctype := fld ctl 1 2, target := field bs 48 8, tpa := 0, entries := [] }
  let go (s : State) (x : Xfer) : State :=
    let left := x.total - x.moved
    let side (scr : Bool) (addr : Nat → Nat) : List (Nat × TeamId × Nat × Nat) :=
      if scr then s.spanEntries (spans (s.sidePlaces t.id addr x.esize x.moved left)) else []
    match s.addEntries (.stream ch false) (side x.sscr x.srcAt) with
    | none => s
    | some r =>
      match r.1.addEntries (.stream ch true) (side x.dscr x.dstAt) with
      | none => s
      | some r2 =>
        { r2.1 with fixed := r2.1.fixed.filter (fun z => z.space != t.space || z.addr != (t.chan ch).recAddr) }.modChan t.id ch
          (fun c => { c with act := some { x with entries := r.2 ++ r2.2 } })
  if x.ctype = 2 then
    match s.xlatElem t.core t.space (va56 x.target) 16 .write with
    | .ok (p :: _) => go s { x with tpa := ctrLeaf t.core p.x }
    | _ => s.stopRecord t ch ctl (fld ctl 32 32) 2
  else go s x

/-- The shapes that a record keeps: those it had when it stopped or was paused, by whatever team, where it is that record which is
resumed: it names the same shape records, and has a `STOP` reason where one could be written (R239). -/
def State.fixedFor (s : State) (space addr : Nat) (bs : List Byte) : Option FixedRec :=
  s.fixed.find? (fun x => x.space == space && x.addr == addr && x.sva == field bs 24 8 && x.dva == field bs 32 8 &&
    (x.unsaid || fld (field bs 56 8) 12 4 != 0))

/-- A shape record that has to be read and whose lines, or the entries of its walk, are not served for now (R199, R203, R296). -/
def State.shapeHeld (s : State) (t : Team) (va : Nat) : Bool :=
  va != 0 && (s.shapeHit (vatOf t.core) t.space (va56 va)).isNone && s.vaHeld t.core t.space (va56 va) 192 .read

/-- The shapes of a record: those it keeps, else those it names; both are checked against it (R234, R239). -/
def State.shapesOf (s : State) (by_ : Issuer) (t : Team) (addr : Nat) (bs : List Byte) : ShapeRes × ShapeRes :=
  match s.fixedFor t.space addr bs with
  | some x => (.ok s x.sshape, .ok s x.dshape)
  | none =>
    match s.readShape by_ t (field bs 24 8) with
    | .ok s1 a => (.ok s1 a, s1.readShape by_ t (field bs 32 8))
    | r => (r, r)

/-- `TRANSFER_RECORD_START`: a running channel reads its current record (R232). -/
def execTransferRecordStart (t : TeamId) (ch : Nat) (s0 : State) : Host.Outcome State Fault Refusal :=
  match s0.team? t with
  | none => .next s0
  | some tm =>
    let c := tm.chan ch
    if c.st ≠ 1 || c.act.isSome || c.cancel || tm.loc != .resident then .next s0
    else
      let by_ := c.issuer tm
      if s0.vaHeld tm.core tm.space (va56 c.recAddr) 64 .read then .next s0
      else
      match s0.readVA by_ tm.core tm.space (va56 c.recAddr) 64 with
      | .error _ => .next (s0.chanStop tm ch 4)
      | .ok (s, bs) =>
        let ctl := field bs 56 8
        let malformed (s : State) : State := s.stopRecord tm ch ctl (fld ctl 32 32) 4
        if ctl % 2 = 0 then .next (s.chanIdle tm ch)
        else if s0.ctlHeld tm c.recAddr || s0.shapeHeld tm (field bs 24 8) || s0.shapeHeld tm (field bs 32 8) then .next s0
        else if recBad bs (((s.launch? t).map (·.gang)).getD false) then .next (malformed s)
        else
          match s.shapesOf by_ tm c.recAddr bs with
          | (.fault, _) | (_, .fault) => .next (s.chanStop tm ch 4)
          | (.bad s, _) | (_, .bad s) => .next (malformed s)
          | (.ok _ a, .ok s b) =>
            if shapesBad (field bs 40 4) (fld ctl 32 32) a b then .next (malformed s) else .next (s.startRecord tm ch bs a b)

/-! ## Moving elements -/

/-- Where one side of an element lies. -/
inductive Side where
  | scr (a : ScrAt)
  | mem (ps : List Part)

/-- One side of an element checked: its place, or the reason it stops the record (R235, R237). -/
def State.sideOf (s : State) (t : Team) (scr : Bool) (addr n : Nat) (acc : Acc) : Except Nat Side :=
  if scr then
    match s.scrAt t.id addr n with
    | .ok a => .ok (.scr a)
    | .error _ => .error 3
  else
    match s.xlatElem t.core t.space addr n acc with
    | .ok ps => .ok (.mem ps)
    | .error _ => .error 2

/-- The bytes of a source side, and how they were poisoned: 0 not, 1 by their page, 2 uncorrectable. -/
def State.sideRead (s : State) (n : Nat) : Side → List Byte × Nat
  | .scr a => (s.winRead a.team a.off n, if s.winBadIn a.team a.off n then 2 else 0)
  | .mem ps => s.engineRead ps

/-- The poison of a source side that is met (R237, R305, R363). -/
def State.sideMeet (s : State) (by_ : Issuer) (core va kind : Nat) : Side → State
  | .scr a => s.winMeet by_ a.team a.off va
  | .mem ps =>
    if kind = 1 then s.meetPoisonPage by_ core va
    else s.meetAt by_ va (s.badSpot none ps)

/-- What an element writes: bytes of a window, or bytes of a part of memory. -/
inductive Put where
  | scr (a : ScrAt) (bs : List Byte)
  | mem (p : Part) (bs : List Byte)

/-- The writes of an element on its destination side. -/
def putsOf (bs : List Byte) : Side → List Put
  | .scr a => [.scr a bs]
  | .mem ps => go bs ps
where
  go (bs : List Byte) : List Part → List Put
    | [] => []
    | p :: ps => .mem p (bs.take p.n) :: go (bs.drop p.n) ps

/-- A side of an element that cannot be reached now: its lines are not served, or a destination's home has no room for the write or its
pushes (R148, R199, R203, R296, R318). -/
def State.sideBusy (s : State) (write : Bool) (n : Nat) : Side → Bool
  | .scr a => s.winHeld a.team a.off n
  | .mem ps => ps.any s.partHeld || (write && (s.noPushRoom (s.partPas ps) || s.heldFull (s.partPas ps)))

/-- What becomes of the next element of a record: it moves, with what it writes; it stops the record, for a reason (R237) in the
state it leaves; or it waits. -/
inductive Moved where
  | yes (s : State) (w : List Put)
  | stop (s : State) (reason : Nat)
  | wait

/-- One element of a record read. An uncorrectable source byte is written as zero and counted; under `TRAPONPOISON` the
record stops instead; where both sides fail, the source's reason counts (R237). -/
def State.moveElem (s : State) (t : Team) (by_ : Issuer) (x : Xfer) (n : Nat) : Moved :=
  match s.sideOf t x.sscr (x.srcAt n) x.esize .read with
  | .error e => .stop s e
  | .ok a =>
    if s.sideBusy false x.esize a then .wait
    else
      let r := s.sideRead x.esize a
      let s1 := if r.2 = 0 then s else s.sideMeet by_ t.core (x.srcAt n) r.2 a
      if r.2 ≠ 0 && t.trapOnPoison then .stop s1 5
      else
        match s.sideOf t x.dscr (x.dstAt n) x.esize .write with
        | .error e => .stop s e
        | .ok b => if s.sideBusy true x.esize b then .wait else .yes s1 (putsOf r.1 b)

/-- Up to `k` elements moved in walk order, with what they write; it ends before an element that cannot move. -/
def State.moveElems (s : State) (t : Team) (by_ : Issuer) (x : Xfer) : Nat → State × Xfer × List Put
  | 0 => (s, x, [])
  | k + 1 =>
    if x.total ≤ x.moved then (s, x, [])
    else
      match s.moveElem t by_ x x.moved with
      | .yes s' w =>
        let r := s'.moveElems t by_ { x with moved := x.moved + 1 } k
        (r.1, r.2.1, w ++ r.2.2)
      | _ => (s, x, [])

/-- The memory bytes at the head of some writes that one attribute takes, and the writes after them. -/
def takeCells (attr : Nat) : List Put → List (Nat × Byte) × List Put
  | .mem p bs :: l =>
    if !p.x.poison && (if p.x.memside then 3 else p.x.attr) == attr then
      let r := takeCells attr l
      (cellsAt p.x.pa bs ++ r.1, r.2)
    else ([], .mem p bs :: l)
  | l => ([], l)

/-- The writes of a unit performed: those of a line as one, with one push for each of its entries (R238, R316). -/
def State.putAll (s : State) (wheel : Nat) : Nat → List Put → State
  | 0, _ => s
  | _ + 1, [] => s
  | k + 1, .scr a bs :: l => (s.winStore a.team a.off bs).putAll wheel k l
  | k + 1, .mem p bs :: l =>
    if p.x.poison then (s.count wheel 0x46 1).putAll wheel k l
    else
      let attr := if p.x.memside then 3 else p.x.attr
      let r := takeCells attr (.mem p bs :: l)
      (s.writeCells none attr (attr != 3) r.1).putAll wheel k r.2

/-- One unit of up to 128 bytes moved (R238). -/
def State.moveUnit (s : State) (t : Team) (by_ : Issuer) (x : Xfer) : State × Xfer :=
  let r := s.moveElems t by_ x (max 1 (128 / x.esize))
  (r.1.putAll (wheelOf t.core) (r.2.2.length + 1) r.2.2, r.2.1)

/-- The line requests that a vat's streamer has in flight: its records' writes that homes hold, by line (R238). -/
def State.lineReqs (s : State) (vat : Nat) : Nat :=
  if s.heldWrites.isEmpty then 0
  else ((s.teams.filter (fun t => vatOf t.core == vat)).flatMap (fun t => t.chans.flatMap (fun c =>
    (c.act.map (s.dstLines t)).getD []))).eraseDups.length

/-- Whether a channel can move a unit now (R238). -/
def State.canMove (s : State) (t : TeamId) (ch : Nat) : Bool :=
  match s.team? t with
  | none => false
  | some tm =>
    let c := tm.chan ch
    match c.act with
    | none => false
    | some x =>
      decide (s.lineReqs (vatOf tm.core) < Config.lineRequests) && !c.waiting && !c.cancel && decide (x.moved < x.total) &&
        match s.moveElem tm (c.issuer tm) x x.moved with
        | .yes .. => true
        | _ => false

/-- The ring of a vat after a visit's unit by a channel: it stands at the head until its visit ends. One that is passed over in the middle
of its visit keeps the units left of it: the spec does not say what it may move when its turn comes round (R238; DESIGN CHOICE,
notes/assumptions/43.md). -/
def ringAfter (ring : List RingEnt) (t : TeamId) (ch w : Nat) : List RingEnt :=
  let before := ring.takeWhile (fun x => !x.is t ch)
  match ring.drop before.length with
  | [] => ring
  | x :: rest =>
    let left := if before.isEmpty then x.left else w
    if left ≤ 1 then rest ++ before ++ [{ x with left := w }] else { x with left := left - 1 } :: (rest ++ before)

/-- One unit of a running channel's record moves: it is the first of the ring that can move, and moves up to its weight in units at
each visit (R238). -/
def State.moveStep (s : State) (t : TeamId) (ch : Nat) : State :=
  match s.team? t with
  | none => s
  | some tm =>
    let c := tm.chan ch
    let v := s.vat (vatOf tm.core)
    let first := v.ring.find? (fun x => s.canMove x.team x.ch)
    match c.act with
    | none => s
    | some x =>
      if first.any (fun y => y.is t ch) then
        let r := s.moveUnit tm (c.issuer tm) x
        let w := max 1 (((s.launch? t).map (·.weight)).getD 1)
        (r.1.modChan t ch (fun c => { c with act := some r.2 })).modVat (vatOf tm.core) (fun v =>
          { v with ring := ringAfter v.ring t ch w })
      else s

/-- A channel starts or ends a wait that the model does not time (R238, notes/assumptions/11.md). -/
def State.chanWait (s : State) (t : TeamId) (ch : Nat) (on : Bool) : State :=
  s.modChan t ch (fun c => { c with waiting := on && c.st == 1 })

/-! ## Completion and stops -/

/-- The completion count of a record (R236). -/
def State.recordCount (s : State) (t : TeamId) (x : Xfer) : State :=
  if x.ctype = 1 then
    match s.scrAt t x.target 16 with
    | .ok a => s.barComplete a x.count
    | .error _ => s
  else if x.ctype = 2 then s.engineDecr x.tpa 1
  else s

/-- A completion count that its place does not take for now: the counter's home holds writes, or the barrier stands in a line of a shadow
whose home does (R148, R203, R352). -/
def State.countHeld (s : State) (t : TeamId) (x : Xfer) : Bool :=
  if x.ctype = 1 then
    match s.scrAt t x.target 16 with
    | .ok a => s.winHeld a.team a.off 16
    | .error _ => false
  else x.ctype == 2 && s.ctrBusy x.tpa

/-- `TRANSFER_RECORD_COMPLETE`: once the record's bytes have been performed, its count is applied and its
control word written, and the channel goes to the next record (R232, R236). Where the control word cannot be written, the channel stops and
the count is not made: the spec does not say which, and a resumed record's count is made once (R236, R237; DESIGN CHOICE,
notes/assumptions/43.md). -/
def execTransferRecordComplete (t : TeamId) (ch : Nat) (s : State) : Host.Outcome State Fault Refusal :=
  match s.team? t with
  | none => .next s
  | some tm =>
    let c := tm.chan ch
    match c.act with
    | none => .next s
    | some x =>
      if x.moved < x.total || s.countHeld t x || s.chanBusy tm c then .next s
      else
        match ((s.freeEntries x.entries).recordCount t x).writeVA tm.core tm.space (va56 (c.recAddr + 56)) (leBytes 8 x.doneCtl) with
        | .error _ => .next (s.chanStop tm ch 4 true)
        | .ok s2 =>
          let s3 := s2.modChan t ch (fun c => { c with recs := c.recs + 1, act := none })
          if x.next = 0 then .next (s3.chanIdle tm ch)
          else
            let s4 := s3.modChan t ch (fun c => { c with recAddr := va56 x.next })
            .next (if c.cancel then s4.chanStop { tm with chans := modAt (fun c => { c with act := none }) ch tm.chans } ch 1
              else s4)

/-- `TRANSFER_RECORD_STOP`: the current record stops short, on a cancel or at an element that cannot move, once its writes have
been performed (R237). -/
def execTransferRecordStop (t : TeamId) (ch : Nat) (s : State) : Host.Outcome State Fault Refusal :=
  match s.team? t with
  | none => .next s
  | some tm =>
    let c := tm.chan ch
    match c.act with
    | none => .next s
    | some x =>
      let stop (s : State) (reason : Nat) : State := s.stopRecord tm ch (x.doneCtl + 1) (x.moved * x.esize) reason
      if s.chanBusy tm c then .next s
      else if c.cancel then .next (stop s 1)
      else if x.total ≤ x.moved then .next s
      else
        match s.moveElem tm (c.issuer tm) x x.moved with
        | .stop s1 reason => .next (stop s1 reason)
        | _ => .next s

/-! ## The COPY family -/

/-- A status with the channel word, which every status of the family carries: of `COPYGO`'s `REJECTED` and `TIMEOUT` and of `COPYCANCEL`'s
`TIMEOUT` the spec does not say whether bits [63:32] hold it or 0 (R241; DESIGN CHOICE, notes/assumptions/43.md). -/
def State.finChan (s : State) (t : TeamId) (q : BitVec 6) (code ch : Nat) : Res :=
  s.fin q code (((s.team? t).map (fun t => (t.chan ch).word)).getD 0)

/-- `COPYGO` (R173, R242). -/
def execCopygo (e : EF) (ch : Fin 4) (s : State) : Host.Outcome State Fault Refusal :=
  s.asE true [e.p.toNat] e.q e.x none (fun t g =>
    let p := (g.sreg e.p.toNat).toNat
    let c := t.chan ch.val
    if p = 0 ∨ p % 64 ≠ 0 then s.finChan t.id e.q stRejected ch.val
    else if c.st = 1 then .wait s c.word
    else s.releasing t g 3 (fun s =>
      let s1 := s.tick.modChan t.id ch.val (fun c =>
        { c with
          st := 1, recAddr := va56 p, recs := 0, cancel := false, waiting := false, by_ := some s.issuer, act := none, gen := s.fresh })
      (s1.ringAdd t ch.val).finChan t.id e.q stOk ch.val))

/-- `COPYWAIT` (R243): `OK` is an acquire at team scope. -/
def execCopywait (q : BitVec 6) (x : BitVec 5) (ch : Fin 4) (s : State) : Host.Outcome State Fault Refusal :=
  s.asE true [] q x none (fun t g =>
    let c := t.chan ch.val
    if c.st = 1 then .wait s c.word
    else if c.st = 0 then .done ((s.putStatus q stOk c.word).acquire t g 2)
    else s.finChan t.id q stRejected ch.val)

/-- `CHANSTAT` (R244). -/
def execChanstat (q : BitVec 6) (ch : Fin 4) (s : State) : Host.Outcome State Fault Refusal :=
  s.asE false [] q 0 none (fun t _ => s.finChan t.id q stOk ch.val)

/-- `COPYCANCEL` (R245): a record not yet read is left alone; a record under way stops at its next unit. It is of the chain that was
running as it issued: one that a `COPYGO` has started since is none of its own. -/
def execCopycancel (q : BitVec 6) (x : BitVec 5) (ch : Fin 4) (s : State) : Host.Outcome State Fault Refusal :=
  s.asE true [] q x none (fun t g =>
    let c := t.chan ch.val
    let gen := ((s.keptBlock g).map leNat).getD c.gen
    if c.st ≠ 1 ∨ c.gen ≠ gen then s.finChan t.id q stOk ch.val
    else if c.act.isNone then (s.chanStop t ch.val 1).finChan t.id q stOk ch.val
    else
      let s1 := s.modChan t.id ch.val (fun c => { c with cancel := true })
      .wait (if x = 0 then s1 else s1.keepBlock (leBytes 8 gen)) c.word)

end Sys2Proof.Machine
end

