-- ==== Sys2Proof/Machine/LdSt.lean ====
section
/-! DEFINITION. Loads, stores and atomics, of memory and of scratchpad; parked elements and their replay (R75, R76, R146,
R151 to R155, R171, R172, R301, R308, R346). -/

namespace Sys2Proof

/-- The element size of a type (R153). -/
def MemTy.size : MemTy → Nat
  | .n8 | .i8 => 1
  | .n16 | .i16 => 2
  | .b32 | .prv => 4
  | .b64 => 8
  | .b128 => 16

/-- The v registers that T names, n of them (R153). -/
def Os.run (t : Os) (n : Nat) : List Nat :=
  match t with
  | .v r => rangeOf r.val n
  | _ => []
where
  rangeOf (lo n : Nat) : List Nat := (List.range n).map (lo + ·)

/-- The number of registers an element of a type fills (R153). -/
def MemTy.regs (ty : MemTy) : Nat := (ty.size + 3) / 4

/-- The queue a destination names. -/
def Os.queue : Os → Option Nat
  | .q n => some n.val
  | _ => none

end Sys2Proof

namespace Sys2Proof.Machine

open Sys2Proof

/-! ## Elements -/

/-- The words a load element gives (R153). -/
def loadWords (ty : MemTy) (bs : List Byte) : List Word :=
  match ty with
  | .i8 => [(BitVec.ofNat 8 (leNat bs)).signExtend 32]
  | .i16 => [(BitVec.ofNat 16 (leNat bs)).signExtend 32]
  | .n8 | .n16 | .b32 | .prv => [BitVec.ofNat 32 (leNat bs)]
  | .b64 | .b128 => (List.range ty.regs).map (fun j => BitVec.ofNat 32 (leNat ((bs.drop (4 * j)).take 4)))

/-- The bytes a store element of thread t stores (R153). -/
def storeBytes (g : Group) (lit : Word) (ty : MemTy) (t : Os) (i : Nat) : List Byte :=
  match t with
  | .v n =>
    ((List.range ty.regs).flatMap (fun j => leBytes 4 ((g.thread i).vreg (n.val + j)).toNat)).take ty.size
  | .zero => List.replicate ty.size 0
  | o => leBytes ty.size (g.osVal lit o i).toNat

/-- One element of a word: its thread and its address. -/
structure Elem where
  t : Nat
  addr : Nat
  deriving DecidableEq, Repr

/-- The elements of an M word, by increasing thread (R154). -/
def Group.elems (g : Group) (mask : Mask) (lit : Word) (m : MAddr) (n : Nat) : List Elem :=
  (Mask.list mask g.width).map (fun i => ⟨i, g.maddr lit m n i⟩)

/-- The size of the elements of a parked entry. -/
def Park.size (p : Park) (e : ParkElem) : Nat :=
  match p.kind with
  | .load ty => ty.size
  | .store _ => e.data.length
  | .atom _ => 4
  | .cmd .. => 0

/-- Whether an element overlaps a parked element of its thread (R301). -/
def State.behind (s : State) (core : Nat) (gid : GrpId) (e : Elem) (n : Nat) : Bool :=
  ((s.core core).parksOf gid).any (fun p =>
    p.elems.any (fun x => x.thread == e.t && decide (x.addr < e.addr + n) && decide (e.addr < x.addr + p.size x)))

/-- The elements of a word by what their translation gave (R301): those that can be performed, those that park, the first failure,
and every thread's own. -/
structure Sorted where
  ok : List (Elem × List Part)
  bad : List Elem
  first : Option (PFault × Nat)
  faults : List (Nat × PFault × Nat)

/-- Sorts the elements of a word. -/
def State.sortElems (s : State) (core space : Nat) (gid : GrpId) (acc : Acc) (n : Nat) : List Elem → Sorted
  | [] => ⟨[], [], none, []⟩
  | e :: es =>
    let r := s.sortElems core space gid acc n es
    if s.behind core gid e n then { r with bad := e :: r.bad }
    else
      match s.xlatElem core space e.addr n acc with
      | .ok ps => { r with ok := (e, ps) :: r.ok }
      | .error f => { r with bad := e :: r.bad, first := some (f, e.addr), faults := (e.t, f, e.addr) :: r.faults }

/-- Whether an `MSFENCE.AR` holds a group's later `MEMSIDE` accesses: a command before it has not completed. In trap mode only one that
has been sent counts, since the others may wait for what the handler replays (R165, R295; DEDUCED, notes/assumptions/49.md). -/
def State.msHeld (s : State) (g : Group) : Bool :=
  s.cmds.any (fun c => g.hold.ms.contains c.id) ||
    (g.trapMask.isNone &&
      (s.cmdWaits.any (fun c => g.hold.ms.contains c.id) || (s.core g.core).replay.any (fun p => g.hold.ms.contains p.id)))

/-- A part whose access by a group waits: its home or its crossing serves none (R199, R203, R296), the home still holds what the core
has written there, or an `MSFENCE.AR` holds it (R295). -/
def State.partBusy (s : State) (g : Group) (p : Part) : Bool :=
  s.partHeld p || s.partOwn g.core p || (p.x.memside && !p.x.poison && s.msHeld g)

/-- A line that an access would allot in place of one whose dirty bytes its home has no room to hold: the access waits (R20, R138,
R203). -/
def State.victimHeld (s : State) (core : Nat) (p : Part) : Bool :=
  !s.migrations.isEmpty && !p.x.poison && !p.x.memside && decide (p.x.attr ≤ 1) && (lineStarts p.x.pa p.n).any (fun a =>
    let line := lineOf (if p.x.attr = 0 then s.fwd a else a)
    let c := s.core core
    let set := c.tags.filter (fun x => x.line % 128 == line % 128)
    !(set.any (fun x => x.line == line)) && c.l1Grans.all (fun k => set.any (fun x => x.gran == k)) &&
      (set.getLast?).any (fun v => c.self.any (fun b => b.dirty && lineOf b.pa == v.line && s.heldFull [b.pa])))

/-- Whether a word waits for what its pages hold up, or the entries that their walks read; of a word that writes, also for its sender's
turn (R20, R203, R318). -/
def State.pageBusy (s : State) (g : Group) (x : Sorted) (write : Bool) : Bool :=
  let space := ((s.team? s.iss.grp.team).map (·.space)).getD 0
  (x.ok.map (·.1) ++ x.bad).any (fun e => s.walkWaits g.core space e.addr) ||
  x.ok.any (fun e => e.2.any (s.victimHeld g.core)) ||
  x.ok.any (fun e => e.2.any (s.partBusy g)) || (write && s.senderStalls g.core (s.partPas (x.ok.flatMap (·.2))))

/-- The beats of the elements that park: each takes one entry (R301). -/
def Sorted.beats (x : Sorted) : List Nat := (x.bad.map (fun e => e.t / 16)).eraseDups

/-- The failure that a word's frame reports; an element that parks only behind another has none of its own. -/
def Sorted.fault (x : Sorted) : PFault × Nat := x.first.getD (⟨0, 0xFF⟩, (x.bad.headD ⟨0, 0⟩).addr)

/-- The failure that the entry of a beat reports: its first thread's that has one of its own. -/
def Sorted.beatFault (x : Sorted) (k : Nat) : PFault × Nat :=
  ((x.faults.find? (fun f => f.1 / 16 == k)).map (·.2)).getD x.fault

/-- The checks of a word that accesses memory, after its translation (R299, R301): no room in the replay queue, a fault
in trap mode, or busy; else its effect. -/
def State.memGate (s : State) (g : Group) (x : Sorted) (write : Bool) (f : Res) : Res :=
  let w := if write then 16 else 0
  let e := x.fault
  if s.pageBusy g x write then .stall .busy
  else if Config.replayQ < (s.core g.core).replay.length + x.beats.length then
    .trap (s.wordTrap 8 e.1.detail e.2 e.1.level (w + 4))
  else if g.trapMask.isSome && x.first.isSome then .trap (s.wordTrap 8 e.1.detail e.2 e.1.level w)
  else f

/-- A poisoned element met by a word in trap mode raises a double trap (R299, R305). -/
def State.poisonGate (s : State) (before : State) (t : Team) (g : Group) : State :=
  match s.team? t.id, before.team? t.id with
  | some y, some z =>
    if g.trapMask.isSome && y.trapOnPoison &&
        decide (y.poisonCnt ≠ z.poisonCnt ∨ (g.traps.all (fun x => x.cause != 12) ∧
          ((s.grp? s.iss.grp).map (fun x => x.traps.any (fun w => w.cause == 12))).getD false)) then
      s.teamLost t.id g.trapCause 12
    else s
  | _, _ => s

/-- How a word ends that may meet poison itself: a `POISON` that it raises in trap mode is a double trap (R299). -/
def Res.gated (r : Res) (s : State) (t : Team) (g : Group) : Res :=
  match r with
  | .done s' => .done (s'.poisonGate s t g)
  | .wait s' hi => .wait (s'.poisonGate s t g) hi
  | r => r

/-- A word that reads a record in memory: it waits for what holds the record's bytes, takes the fault of a page, or goes on with the
bytes; a `POISON` that they raise in trap mode is a double trap (R6, R299, R305). -/
def State.reading (s : State) (t : Team) (g : Group) (va n : Nat) (f : State → List Byte → Res) : Res :=
  if s.vaHeld g.core t.space va n .read then .stall .busy
  else
    match s.readVA s.issuer g.core t.space va n with
    | .error e => s.raiseFault e (s.failVA g.core t.space va n .read) false
    | .ok r => (f r.1 r.2).gated s t g

/-! ## Parking -/

/-- Parks the elements of a word, one entry for each beat, and makes its trap pending (R298, R301). -/
def State.parkBeats (s : State) (core : Nat) (kind : ParkKind) (load : Nat) (hint : Bool) (x : Sorted)
    (mk : Elem → ParkElem) : List Nat → State
  | [] => s
  | k :: ks =>
    let es := x.bad.filter (fun e => e.t / 16 == k)
    let f := x.beatFault k
    let p : Park :=
      { id := s.fresh, grp := s.iss.grp, pc := s.iss.pc, word := s.iss.word, slot := s.iss.slot, beat := k,
        kind := kind, elems := es.map mk, load := load, hint := hint, mask := maskOf (es.map (·.t)), cause := 8,
        addr := f.2, detail := f.1.detail, level := f.1.level,
        flags := match kind with | .load _ => 0 | _ => 16 }
    let s := s.tick.modCore core (fun c => { c with replay := c.replay ++ [p] })
    s.parkBeats core kind load hint x mk ks

/-- The pending `PAGE_FAULT` of a word some of whose elements parked (R298, R300, R301). -/
def State.parkTrap (s : State) (x : Sorted) (write : Bool) : State :=
  match x.first with
  | none => s
  | some e =>
    s.modGrp s.iss.grp (fun g => g.pend
      { (s.wordTrap 8 e.1.detail e.2 e.1.level (if write then 16 else 0)) with mask := maskOf (x.bad.map (·.t)), parked := true })

/-! ## Results of loads -/

/-- A register written without its owed entry being dropped. -/
def Thread.rawV (t : Thread) (n : Nat) (v : Word) : Thread := { t with v := modAt (fun _ => v) n t.v }

/-- The registers of a thread written with the words of its element. -/
def Thread.loadRegs (t : Thread) (regs : List Nat) (ws : List Word) : Thread :=
  (regs.zip ws).foldl (fun t x => t.setV x.1 x.2) t

/-- The words that each thread's element gave. -/
def wordsOf (vals : List (Nat × List Word)) (i : Nat) : List Word :=
  ((vals.find? (fun x => x.1 == i)).map (·.2)).getD []

/-- One entry of a load's values pushed into the queue of a group (R151, R256). -/
def State.pushLoad (s : State) (t : Team) (gi n : Nat) (beats : List Nat) (val : Nat → Word) : State :=
  let p := t.pushTarget gi n
  s.modGrp ⟨t.id, p.1⟩ (fun g => g.pushQ beats p.2 val)

/-- The results of a load word or an atomic: written and present, or pushed, at once when no element parked; else owed
until the word's count reaches zero (R73, R151). -/
def State.results (s : State) (t : Team) (beats regs : List Nat) (q : Option Nat) (vals : List (Nat × List Word))
    (bad : List Elem) (load : Nat) : State :=
  let i := s.iss
  let s1 := s.modGrp i.grp (fun g =>
    g.onThreads i.mask (fun j th => (regs.foldl (fun th r => { th with pend := th.pend.filter (fun x => x.1 != r) }) th).loadRegs regs (wordsOf vals j)))
  if bad.isEmpty then
    match q with
    | some n => s1.pushLoad t i.grp.grp n beats (fun j => (wordsOf vals j).headD 0)
    | none => s1
  else
    let s2 := s1.modGrp i.grp (fun g =>
      g.onThreads i.mask (fun _ th => { th with pend := th.pend ++ regs.map (fun r => (r, load)) }))
    let r : LoadRec :=
      { id := load, grp := i.grp, q := q, mask := i.mask, vals := vals.map (fun x => (x.1, x.2.headD 0)),
        left := bad.length }
    match s.grp? i.grp with
    | some g => s2.modCore g.core (fun c => { c with loads := c.loads ++ [r] })
    | none => s2

/-- A load word of a core whose count has reached zero completes: its registers become present, or its entries are
pushed (R151). -/
def State.completeLoad (s : State) (core : Nat) (r : LoadRec) : State :=
  let s := s.modCore core (fun c => { c with loads := c.loads.filter (fun x => x.id != r.id) })
  let s := s.modGrp r.grp (fun g =>
    { g with threads := g.threads.map (fun th => { th with pend := th.pend.filter (fun x => x.2 != r.id) }) })
  match r.q, s.team? r.grp.team, s.grp? r.grp with
  | some n, some t, some g =>
    s.pushLoad t r.grp.grp n (beatsOf g.width r.mask) (fun j => ((r.vals.find? (fun x => x.1 == j)).map (·.2)).getD 0)
  | _, _, _ => s

/-- `LOAD_COMPLETE`: the oldest load word of a core that has no element outstanding completes (R151). -/
def execLoadComplete (core : Nat) (s : State) : Host.Outcome State Fault Refusal :=
  .next (match (s.core core).loads.find? (fun r => r.left == 0) with
    | some r =>
      let s1 := if r.q.isSome then s.served core (((s.grp? r.grp).map (fun g => g.pipe / 2)).getD 0) 0 else s
      s1.completeLoad core r
    | none => s)

/-! ## Private store buffers (R346) -/

/-- Where each byte of an element lies, in the page that a migrated page forwards to; none for a byte of a poisoned page (R203). -/
def State.partBytes (s : State) (ps : List Part) : List (Option Nat) :=
  ps.flatMap (fun p => (rangeFrom p.x.pa p.n).map (fun a =>
    if p.x.poison then none else some (if p.x.memside then a else s.fwd a)))

/-- The byte a thread's latest buffered store left at a memory byte. -/
def State.bufMem (s : State) (buf : List BufElem) (t pa : Nat) : Option Byte :=
  buf.foldl (fun b e =>
    if e.thread = t ∧ e.scr = none then
      match ((s.partBytes e.parts).zip e.data).find? (fun x => x.1 == some pa) with
      | some x => some x.2
      | none => b
    else b) none

/-- The byte a thread's latest buffered store left at a scratchpad byte. -/
def bufScr (buf : List BufElem) (t team off : Nat) : Option Byte :=
  buf.foldl (fun b e =>
    match e.scr with
    | some x =>
      if e.thread = t ∧ x.1 = team ∧ x.2 ≤ off ∧ off < x.2 + e.data.length then some (e.data.getD (off - x.2) 0) else b
    | none => b) none

/-- A load element of a `det` thread: each byte from its latest buffered store, else as committed (R346); one that meets an
uncorrectable byte among the latter is zero (R154); `up` says whether it crosses to the lane die. -/
def State.loadDet (s : State) (by_ : Issuer) (g : Group) (e : Elem) (ps : List Part) (hint up : Bool) :
    State × List Byte :=
  let own := (s.partBytes ps).map (fun a => match a with | some a => s.bufMem g.buf e.t a | none => none)
  let cross (s : State) (bs : List Byte) : State × List Byte := if up then s.crossUp by_ g.core e.addr bs else (s, bs)
  if own.all (·.isSome) then cross s (own.map (·.getD 0))
  else if (own.zip (s.badBytes ps)).any (fun x => x.1.isNone && x.2) then s.loadElem by_ g.core e.addr ps hint up
  else
    let r := s.loadParts g.core hint ps
    cross r.1 ((own.zip r.2.1).map (fun x => x.1.getD x.2))

/-! ## LD and ST -/

/-- The elements of a load performed, by increasing thread, with the words each gave; `up` says whether they cross to the lane die, into
a queue (R54). -/
def State.loadAll (s : State) (g : Group) (det : Bool) (ty : MemTy) (hint up : Bool) :
    List (Elem × List Part) → State × List (Nat × List Word)
  | [] => (s, [])
  | (e, ps) :: l =>
    let by_ := { s.issuer with mask := BitVec.twoPow 64 e.t }
    let r := if det then s.loadDet by_ g e ps hint up else s.loadElem by_ g.core e.addr ps hint up
    let x := r.1.loadAll g det ty hint up l
    (x.1, (e.t, loadWords ty r.2) :: x.2)

/-- The queues a word pops, popped. -/
def State.popAll (s : State) (beats pops : List Nat) : State :=
  s.modGrp s.iss.grp (fun g => pops.foldl (fun g n => g.popQ beats n) g)

/-- `LD` (R153, R154). -/
def execLd (ty : MemTy) (t : Os) (m : MAddr) (h : Bool) (s : State) : Host.Outcome State Fault Refusal :=
  let regs := t.run ty.regs
  let pops := popsOf [m.x]
  s.asM (regs ++ m.x.vregs) m.x.vregs (m.s.toNat :: m.x.sregs) pops t.queue (fun tm g beats =>
    let x := s.sortElems g.core tm.space s.iss.grp .read ty.size (g.elems s.iss.mask s.iss.lit m ty.size)
    s.memGate g x false (
      let load := s.fresh
      let r := (s.tick.popAll beats pops).loadAll g (s.isDet tm.id && ty != .prv) ty h t.queue.isSome x.ok
      let s1 := r.1.results tm beats regs t.queue r.2 x.bad load
      let s2 := s1.parkBeats g.core (.load ty) load h x
        (fun e => { thread := e.t, addr := e.addr, data := [], regs := regs, row := 0 }) x.beats
      .done ((s2.parkTrap x false).poisonGate s tm g)))

/-- A store element performed (R76, R154). -/
def State.storeOne (s : State) (core : Nat) (prv hint : Bool) (ps : List Part) (bs : List Byte) : State :=
  s.storeElem core hint (!prv) ps bs

/-- The threads of a mask that have used every row of their buffer (R347). -/
def Group.full (g : Group) (m : Mask) : Bool :=
  (Mask.list m g.width).any (fun i => decide (Config.bufferRows ≤ g.rows i))

/-- `ST` (R153, R154, R346). -/
def execSt (ty : MemTy) (t : Os) (m : MAddr) (h : Bool) (s : State) : Host.Outcome State Fault Refusal :=
  let regs := t.run ty.regs
  let pops := popsOf [t, m.x]
  s.asM (regs ++ m.x.vregs) (regs ++ m.x.vregs) (m.s.toNat :: (t.sregs ++ m.x.sregs)) pops none (fun tm g beats =>
    let det := s.isDet tm.id && ty != .prv
    if det && g.full s.iss.mask then .stall .rows
    else
      let x := s.sortElems g.core tm.space s.iss.grp .write ty.size (g.elems s.iss.mask s.iss.lit m ty.size)
      let bytes := storeBytes g s.iss.lit ty t
      s.memGate g x true (
        let s1 := s.popAll beats pops
        let s1 :=
          if det then
            let ok : List BufElem := x.ok.map (fun e => ⟨e.1.t, g.rows e.1.t, none, e.2, bytes e.1.t, h⟩)
            let bad : List BufElem := x.bad.map (fun e => ⟨e.t, g.rows e.t, none, [], [], h⟩)
            s1.modGrp s.iss.grp (fun g => { g with buf := g.buf ++ ok ++ bad })
          else x.ok.foldl (fun s e => s.storeOne g.core (ty == .prv) h e.2 (bytes e.1.t)) s1
        let s2 := s1.parkBeats g.core (.store (ty == .prv)) 0 h x
          (fun e => { thread := e.t, addr := e.addr, data := bytes e.t, regs := [], row := g.rows e.t }) x.beats
        .done (s2.parkTrap x true)))

/-! ## Atomics at home -/

/-- The word at home that an atomic reads: through a `DIR` page the coherent bytes (R171). -/
def State.atomRead (s : State) (x : Xlat) : Nat :=
  leNat (if x.memside then s.stackReadN x.pa 4 else if x.attr = 0 then s.physReadN x.pa 4 else s.homeReadN x.pa 4)

/-- The dirty bytes of the line of a part in a core's L1 written back, and its copy dropped where the home's action would leave it behind
(R163, R171). -/
def State.atomClean (s : State) (core : Nat) (x : Xlat) : State :=
  let clean (s : State) (pa : Nat) : State :=
    if x.attr = 1 then s.dropLine core (lineOf pa) else s.writeBack core (lineOf pa)
  let s1 := clean s x.pa
  if x.memside || lineOf (s1.fwd x.pa) == lineOf x.pa then s1 else clean s1 (s1.fwd x.pa)

/-- One atomic element performed at its home, and the value it returns (R171, R172). -/
def State.atomAt (s : State) (by_ : Issuer) (core : Nat) (op : AtomOp) (va : Nat) (ps : List Part) (v n : Word) :
    State × Word :=
  match ps with
  | [] => (s, 0)
  | p :: _ =>
    if p.x.poison then ((s.meetPoisonPage by_ core va).count (wheelOf core) 0x46 1, 0)
    else
      let s := (s.atomClean core p.x).saw ⟨by_.team, by_.grp⟩ (s.partPas [p])
      if s.partBad p then
        let s1 := s.meetAt by_ va (s.badSpot none [p])
        (if s.fenced (s.fwd p.x.pa) then s1.count (s.homeWheel (s.fwd p.x.pa)) 0x46 1 else s1, 0)
      else
        let old : Word := BitVec.ofNat 32 (s.atomRead p.x)
        let bs := leBytes 4 (atomOp op old v n).toNat
        let s := if !p.x.memside && p.x.attr == 0 then s.regionStore core (s.fwd p.x.pa) false else s
        let s := if p.x.memside then s.stackPut none p.x.pa bs else s.homeWriteN p.x.attr p.x.pa bs
        (s.saw ⟨by_.team, by_.grp⟩ (s.partPas [p]), old)

/-- The two operands of an atomic element (R155). -/
def atomArgs (g : Group) (op : AtomOp) (t : Os) (i : Nat) : Word × Word :=
  match t with
  | .v n => ((g.thread i).vreg n.val, if op = .cas then (g.thread i).vreg (n.val + 1) else 0)
  | _ => (0, 0)

/-- The v registers an atomic names (R155, R171). -/
def atomRegs (op : AtomOp) (t : Os) : List Nat := t.run (if op = .cas then 2 else 1)

/-- The place of an element. -/
def KeptElem.elem (e : KeptElem) : Elem := ⟨e.t, e.addr⟩

/-- The elements of an atomic word as it issues, or, of a serial word at the quantum end, as it read them (R6, R348). -/
def State.atomElems (s : State) (g : Group) (op : AtomOp) (t : Os) (m : MAddr) : List KeptElem :=
  if s.iss.wid = 0 then
    (g.elems s.iss.mask s.iss.lit m 4).map (fun e =>
      let a := atomArgs g op t e.t
      ⟨e.t, e.addr, a.1, a.2⟩)
  else s.iss.kept.elems.filter (fun e => s.iss.mask.getLsbD e.t)

/-- The operands of a thread's element. -/
def opsOf (es : List KeptElem) (t : Nat) : Word × Word := ((es.find? (fun e => e.t == t)).map (fun e => (e.a, e.b))).getD (0, 0)

/-- The elements of an atomic word performed in increasing thread order. -/
def State.atomAll (s : State) (g : Group) (op : AtomOp) (ks : List KeptElem) :
    List (Elem × List Part) → State × List (Nat × List Word)
  | [] => (s, [])
  | (e, ps) :: l =>
    let a := opsOf ks e.t
    let r := s.atomAt { s.issuer with mask := BitVec.twoPow 64 e.t } g.core op e.addr ps a.1 a.2
    let x := r.1.atomAll g op ks l
    (x.1, (e.t, [r.2]) :: x.2)

/-- The first address of a list that is not 4-byte aligned. -/
def misaligned (es : List Elem) (n : Nat) : Option Nat := (es.find? (fun e => e.addr % n != 0)).map (·.addr)

/-- An atomic word: a serial word of a `det` node that is run at the quantum end has popped its queues and read its sources
already (R6, R348). -/
def State.atomWord (s : State) (op : AtomOp) (t : Os) (m : MAddr) (f : Team → Group → List Nat → Res) :
    Host.Outcome State Fault Refusal :=
  let regs := atomRegs op t
  if s.iss.wid = 0 then s.asM (regs ++ m.x.vregs) (regs ++ m.x.vregs) (m.s.toNat :: m.x.sregs) (popsOf [m.x]) none f
  else s.asM [] [] [] [] none f

/-- The queues of an atomic word popped as it issues. -/
def State.atomPop (s : State) (m : MAddr) (beats : List Nat) : State :=
  if s.iss.wid = 0 then s.popAll beats (popsOf [m.x]) else s

/-- A part to which its home performs no write now: for a migration, for the host, or for pushes without room (R203, R318, R352). -/
def State.homeHolds (s : State) (p : Part) : Bool :=
  if p.x.poison then false
  else if p.x.memside then s.hostLines.contains (lineOf p.x.pa)
  else s.writeLocked p.x.pa || s.noPushRoom (rangeFrom (s.fwd p.x.pa) p.n)

/-- An atomic whose line a memory-side command of the group has still to reach, or whose home holds writes, waits
(R203, R287, R352). -/
def State.atomBusy (s : State) (x : Sorted) : Bool :=
  let mine (by_ : Issuer) : Bool := decide ((⟨by_.team, by_.grp⟩ : GrpId) = s.iss.grp)
  x.ok.any (fun e => e.2.any (s.homeHolds)) ||
  x.ok.any (fun e => e.2.any (fun p =>
    p.x.memside && (s.cmdWaits.any (fun c => mine c.by_) ||
      s.jobs.any (fun j => j.chan == chanOf p.x.pa &&
        s.cmds.any (fun c => c.id == j.cmd && mine c.by_)))))

/-- `ATOM` (R171, R172). -/
def execAtom (op : AtomOp) (t : Os) (m : MAddr) (s : State) : Host.Outcome State Fault Refusal :=
  s.atomWord op t m (fun tm g beats =>
    let ks := s.atomElems g op t m
    let es := ks.map KeptElem.elem
    match misaligned es 4 with
    | some a => .trap (s.wordTrap 7 0 a 0xFF 0)
    | none =>
      if s.toQueue tm then .done ((s.atomPop m beats).queueSerial [] [] ks)
      else
        let x := s.sortElems g.core tm.space s.iss.grp .write 4 es
        s.memGate g x true (
          if s.atomBusy x then .stall .busy
          else
            let load := s.fresh
            let r := (s.tick.atomPop m beats).atomAll g op ks x.ok
            let s1 := r.1.results tm beats (t.run 1) none r.2 x.bad load
            let s2 := s1.parkBeats g.core (.atom op) load false x
              (fun e =>
                let a := opsOf ks e.t
                { thread := e.t, addr := e.addr, data := leBytes 4 a.1.toNat ++ leBytes 4 a.2.toNat,
                  regs := t.run 1, row := 0 }) x.beats
            .done ((s2.parkTrap x true).poisonGate s tm g)))

/-! ## Scratchpad -/

/-- The checks of the elements of a scratchpad word, thread by thread in increasing order (R146); atomics are aligned
(R155). The word reports the lowest thread that fails one, and of an element that fails R146 and is misaligned the cause of R146: the spec
does not say whether the checks go check by check or thread by thread, nor which comes first (DESIGN CHOICE, notes/assumptions/43.md). -/
def State.scrElems (s : State) (id : TeamId) (n align : Nat) : List Elem → Except (Nat × Nat) (List (Elem × ScrAt))
  | [] => .ok []
  | e :: es =>
    match s.scrAt id e.addr n with
    | .error c => .error (c, e.addr)
    | .ok a =>
      if e.addr % align ≠ 0 then .error (7, e.addr)
      else
        match s.scrElems id n align es with
        | .error c => .error c
        | .ok l => .ok ((e, a) :: l)

/-- A scratchpad word: its address checks, the range scoreboard, a shadow whose home holds its lines, then its effect (R146, R148,
R152). -/
def State.scrWord (s : State) (t : Team) (n align : Nat) (es : List Elem) (f : List (Elem × ScrAt) → Res) : Res :=
  match s.scrElems t.id n align es with
  | .error c => .trap (s.wordTrap c.1 0 c.2 0xFF 0)
  | .ok l => if l.any (fun x => s.inRange x.2.team x.2.off n || s.winHeld x.2.team x.2.off n) then .stall .busy else f l

/-- A scratchpad load element; a `det` thread sees its own buffered stores (R346). An uncorrectable one is zero (R154, R363); `up` says
whether it crosses to the lane die. -/
def State.scrLoad (s : State) (g : Group) (det : Bool) (n : Nat) (up : Bool) (x : Elem × ScrAt) : State × List Byte :=
  let by_ := { s.issuer with mask := BitVec.twoPow 64 x.1.t }
  let s := s.sawSlot s.iss.grp x.2.team x.2.off n
  let own := (rangeFrom x.2.off n).map (fun o => if det then bufScr g.buf x.1.t x.2.team.idx o else none)
  let r := if (own.zip (rangeFrom x.2.off n)).any (fun y => y.1.isNone && s.winBadIn x.2.team y.2 1) then
      (s.winElem by_ x.2.team x.2.off n x.1.addr)
    else (s, (own.zip (s.winRead x.2.team x.2.off n)).map (fun y => y.1.getD y.2))
  if up then r.1.crossUp by_ g.core x.1.addr r.2 else r

/-- The elements of a scratchpad load, by increasing thread, with the words each gave. -/
def State.scrLoads (s : State) (g : Group) (det : Bool) (ty : MemTy) (up : Bool) :
    List (Elem × ScrAt) → State × List (Nat × List Word)
  | [] => (s, [])
  | x :: l =>
    let r := s.scrLoad g det ty.size up x
    let y := r.1.scrLoads g det ty up l
    (y.1, (x.1.t, loadWords ty r.2) :: y.2)

/-- `LDS` (R153, R154). -/
def execLds (ty : MemTy) (t : Os) (m : MAddr) (s : State) : Host.Outcome State Fault Refusal :=
  let regs := t.run ty.regs
  let pops := popsOf [m.x]
  s.asM (regs ++ m.x.vregs) m.x.vregs (m.s.toNat :: m.x.sregs) pops t.queue (fun tm g beats =>
    s.scrWord tm ty.size 1 (g.elems s.iss.mask s.iss.lit m ty.size) (fun l =>
      let r := (s.popAll beats pops).scrLoads g (s.isDet tm.id) ty t.queue.isSome l
      .done ((r.1.results tm beats regs t.queue r.2 [] 0).poisonGate s tm g)))

/-- `STS` (R153, R154, R346). -/
def execSts (ty : MemTy) (t : Os) (m : MAddr) (s : State) : Host.Outcome State Fault Refusal :=
  let regs := t.run ty.regs
  let pops := popsOf [t, m.x]
  s.asM (regs ++ m.x.vregs) (regs ++ m.x.vregs) (m.s.toNat :: (t.sregs ++ m.x.sregs)) pops none (fun tm g beats =>
    if s.isDet tm.id && g.full s.iss.mask then .stall .rows
    else
      let bytes := storeBytes g s.iss.lit ty t
      s.scrWord tm ty.size 1 (g.elems s.iss.mask s.iss.lit m ty.size) (fun l =>
        let s1 := s.popAll beats pops
        if s.isDet tm.id then
          let rows : List BufElem :=
            l.map (fun x => ⟨x.1.t, g.rows x.1.t, some (x.2.team.idx, x.2.off), [], bytes x.1.t, false⟩)
          .done (s1.modGrp s.iss.grp (fun g => { g with buf := g.buf ++ rows }))
        else .done (l.foldl (fun s x => s.winStore x.2.team x.2.off (bytes x.1.t)) s1)))

/-- The elements of a scratchpad atomic, performed in increasing thread order (R155); one whose old value is uncorrectable writes nothing
(R172, R305). -/
def State.atomScr (s : State) (op : AtomOp) (ks : List KeptElem) :
    List (Elem × ScrAt) → State × List (Nat × List Word)
  | [] => (s, [])
  | (e, a) :: l =>
    let v := opsOf ks e.t
    let m := s.winElem { s.issuer with mask := BitVec.twoPow 64 e.t } a.team a.off 4 e.addr
    let old : Word := BitVec.ofNat 32 (leNat m.2)
    let s1 := if s.winBadIn a.team a.off 4 then m.1 else s.winStore a.team a.off (leBytes 4 (atomOp op old v.1 v.2).toNat)
    let r := s1.atomScr op ks l
    (r.1, (e.t, [old]) :: r.2)

/-- `ATOMS` (R155). -/
def execAtoms (op : AtomOp) (t : Os) (m : MAddr) (s : State) : Host.Outcome State Fault Refusal :=
  s.atomWord op t m (fun tm g beats =>
    let ks := s.atomElems g op t m
    s.scrWord tm 4 4 (ks.map KeptElem.elem) (fun l =>
      if s.toQueue tm then .done ((s.atomPop m beats).queueSerial [] [] ks)
      else
        let r := (s.atomPop m beats).atomScr op ks l
        .done ((r.1.results tm beats (t.run 1) none r.2 [] 0).poisonGate s tm g)))

/-! ## Replaying parked elements (R308) -/

/-- A load result of a parked element: written only where no later word has written the register (R73). -/
def State.parkResult (s : State) (core : Nat) (p : Park) (e : ParkElem) (ws : List Word) : State :=
  let s := s.modGrp p.grp (fun g => g.onThreads (BitVec.twoPow 64 e.thread) (fun _ th =>
    (e.regs.zip ws).foldl (fun th x => if th.pend.contains (x.1, p.load) then th.rawV x.1 x.2 else th) th))
  s.modCore core (fun c => { c with loads := c.loads.map (fun r =>
    if r.id = p.load then { r with vals := (e.thread, ws.headD 0) :: r.vals, left := r.left - 1 } else r) })

/-- The element of a parked entry performed as its word would have been. -/
def State.replayElem (s : State) (core : Nat) (p : Park) (e : ParkElem) (ps : List Part) : State :=
  let by_ : Issuer :=
    { team := p.grp.team, grp := p.grp.grp, mask := BitVec.twoPow 64 e.thread, slot := p.slot, word := p.word, pc := p.pc }
  match p.kind with
  | .load ty =>
    match s.grp? p.grp with
    | none => s
    | some g =>
      let el : Elem := ⟨e.thread, e.addr⟩
      let up := (s.core core).loads.any (fun r => r.id == p.load && r.q.isSome)
      let r := if s.isDet p.grp.team && ty != .prv then s.loadDet by_ g el ps p.hint up
        else s.loadElem by_ core e.addr ps p.hint up
      r.1.parkResult core p e (loadWords ty r.2)
  | .store prv =>
    if s.isDet p.grp.team && !prv then
      s.modGrp p.grp (fun g => { g with buf := g.buf.map (fun b =>
        if b.thread = e.thread ∧ b.row = e.row ∧ b.scr = none ∧ b.parts = [] then
          { b with parts := ps, data := e.data } else b) })
    else s.storeOne core prv p.hint ps e.data
  | .atom op =>
    let r := s.atomAt by_ core op e.addr ps (BitVec.ofNat 32 (leNat (e.data.take 4)))
      (BitVec.ofNat 32 (leNat (e.data.drop 4)))
    r.1.parkResult core p e [r.2]
  | .cmd .. => s

/-- The access a parked entry makes. -/
def Park.acc (p : Park) : Acc :=
  match p.kind with
  | .load _ => .read
  | _ => .write

/-- Whether an element overlaps one that its thread has parked before it: in an entry of its group older than `p` (R301). -/
def State.parkedBefore (s : State) (core : Nat) (p : Park) (e : ParkElem) : Bool :=
  (((s.core core).parksOf p.grp).takeWhile (fun y => y.id != p.id)).any (fun y =>
    y.elems.any (fun x =>
      x.thread == e.thread && decide (x.addr < e.addr + p.size e) && decide (e.addr < x.addr + y.size x)))

/-- What stays of an entry that is replayed: its elements, and the first failure met. -/
structure Left where
  elems : List ParkElem
  first : Option (PFault × Nat)

/-- The elements of an entry translated again: those that translate are performed, the others stay (R308). -/
def State.replayElems (s : State) (core space : Nat) (p : Park) : List ParkElem → State × Left
  | [] => (s, ⟨[], none⟩)
  | e :: es =>
    if s.parkedBefore core p e then
      let r := s.replayElems core space p es
      (r.1, { r.2 with elems := e :: r.2.elems })
    else
      match s.xlatElem core space e.addr (p.size e) p.acc with
      | .ok ps => (s.replayElem core p e ps).replayElems core space p es
      | .error f =>
        let r := s.replayElems core space p es
        (r.1, ⟨e :: r.2.elems, some (f, e.addr)⟩)

end Sys2Proof.Machine
end

