-- ==== Sys2Proof/Machine/Coll.lean ====
section
/-! DEFINITION. Collectives over the fabric: `COLL`, and what the fabric brings (R359 to R362, R371). -/

namespace Sys2Proof.Machine

open Sys2Proof

/-- A team's collective slot. -/
def Team.coll (t : Team) (n : Nat) : CollSlot :=
  t.colls.getD n ⟨0, [], [], none, 0, 0, 0, 0, 0, 0, 0, 0, ⟨⟨0, 0⟩, 0, 0, 3, 0, 0⟩, none⟩

/-- An update of a team's collective slot. -/
def State.modColl (s : State) (t : TeamId) (n : Nat) (f : CollSlot → CollSlot) : State :=
  s.modTeam t (fun t => { t with colls := modAt f n t.colls })

/-- The bytes of an element (R360). -/
def dtypeSize (d : Nat) : Nat := if d = 1 then 2 else 4

/-- The elements of the send and receive buffers (R361). -/
def collSizes (op count ranks : Nat) : Nat × Nat :=
  if op = 1 then (count, ranks * count) else if op = 2 then (ranks * count, count) else if op = 4 then (0, 0) else (count, count)

/-- A descriptor that breaks its form (R360, R361), where its group has some ranks. -/
def collBad (bs : List Byte) (ranks : Nat) : Bool :=
  let f := field bs
  !allZero bs 34 30 || decide (2 ^ 28 < f 24 4) || decide (4 < f 30 1) || decide (2 < f 31 1) || decide (2 < f 32 1) ||
    (f 30 1 == 4 && f 24 4 != 0) || (f 30 1 == 3 && decide (ranks ≤ f 33 1)) || f 16 8 % 16 != 0

/-- The status of a `COLL` word with its slot's state (R360). -/
def State.finColl (s : State) (q : BitVec 6) (code slot : Nat) : Res :=
  s.fin q code (((s.team? s.iss.grp.team).map (fun t => (t.coll slot).st)).getD 0)

/-- Steps 3 and 4 of `COLL.go` (R361). -/
def State.collStart (s : State) (t : Team) (g : Group) (q : BitVec 6) (slot : Nat) (fg : FGroup) (bs : List Byte) : Res :=
  let f := field bs
  let n := collSizes (f 30 1) (f 24 4) fg.ranks
  let es := dtypeSize (f 31 1)
  match s.xlatElem g.core t.space (f 0 8) (n.1 * es) .read with
  | .error e => s.raiseFault e (s.failVA g.core t.space (f 0 8) (n.1 * es) .read) false
  | .ok a =>
    match s.xlatElem g.core t.space (f 8 8) (n.2 * es) .write with
    | .error e => s.raiseFault e (s.failVA g.core t.space (f 8 8) (n.2 * es) .write) true
    | .ok b =>
      let start (ctr : Option Nat) : Res :=
        (s.modColl t.id slot (fun _ =>
          { st := 1, send := a, recv := b, done := ctr, count := f 24 4, group := fg.id, op := f 30 1, dtype := f 31 1,
            rop := f 32 1, root := f 33 1, ranks := fg.ranks, me := fg.me, by_ := s.issuer, result := none })).finColl q
          stOk slot
      if f 16 8 = 0 then start none
      else
        match s.translate g.core t.space (va56 (f 16 8)) .write with
        | .error e => s.raiseFault e (va56 (f 16 8)) true
        | .ok y =>
          if y.memside || (!y.poison && s.ctrReserved y.pa) then s.finColl q stRejected slot
          else start (some (ctrLeaf g.core y))

/-- `COLL.go` (R360, R361): an engine start, which makes the group's writes visible at device scope. -/
def execCollGo (e : EF) (slot : Fin 4) (s : State) : Host.Outcome State Fault Refusal :=
  s.asE true [e.p.toNat] e.q e.x none (fun t g =>
    s.releasing t g 6 (fun s =>
      let va := va56 (g.sreg e.p.toNat).toNat
      if s.toQueue t then .done s
      else if va % 64 ≠ 0 then s.finColl e.q stRejected slot.val
      else
        s.reading t g va 64 (fun s bs =>
          match s.fgroups.find? (fun y => y.id == field bs 28 2) with
          | none => s.finColl e.q stRejected slot.val
          | some fg =>
            if collBad bs fg.ranks then s.finColl e.q stRejected slot.val
            else if (t.coll slot.val).st = 1 then s.finColl e.q stBusy slot.val
            else s.collStart t g e.q slot.val fg bs)))

/-- `COLL.wait` (R362): `OK` is an acquire at fabric scope. -/
def execCollWait (q : BitVec 6) (x : BitVec 5) (slot : Fin 4) (s : State) : Host.Outcome State Fault Refusal :=
  s.asE true [] q x none (fun t g =>
    let st := (t.coll slot.val).st
    if st = 1 then .wait s 1
    else if st = 2 then .done ((s.putStatus q stOk 2).acquire t g 6)
    else s.finColl q stRejected slot.val)

/-- `COLL.test` (R362): `OK` is the acquire of `COLL.wait`. -/
def execCollTest (q : BitVec 6) (slot : Fin 4) (s : State) : Host.Outcome State Fault Refusal :=
  s.asE true [] q 0 none (fun t g =>
    if (t.coll slot.val).st = 2 then .done ((s.putStatus q stOk 2).acquire t g 6)
    else s.finColl q stBusy slot.val)

/-- No shootdown waits for a collective any more (R201). -/
def State.collDone (s : State) (t : TeamId) (slot : Nat) : State :=
  { s with shoots := s.shoots.map (fun x => { x with colls := x.colls.filter (fun c => decide (c ≠ (t, slot))) }) }

/-- A running slot becomes cancelled. -/
def State.collStop (s : State) (t : TeamId) (slot : Nat) : State :=
  (s.modColl t slot (fun c => if c.st = 1 then { c with st := 3 } else c)).collDone t slot

/-- `COLL.cancel` (R362). -/
def execCollCancel (q : BitVec 6) (slot : Fin 4) (s : State) : Host.Outcome State Fault Refusal :=
  s.asE true [] q 0 none (fun t _ => (s.collStop t.id slot.val).finColl q stOk slot.val)

/-! ## What the fabric brings -/

/-- `COLL_HEADER_MISMATCH` (R361): the ranks' headers differ; nothing of `RECV` has been written. -/
def execCollHeaderMismatch (t : TeamId) (slot : Nat) (s : State) : Host.Outcome State Fault Refusal :=
  .next (if ((s.team? t).map (fun x => (x.coll slot).result.isNone)).getD false then s.collStop t slot else s)

/-- `REMOTE_COLL_CANCEL` (R362): another rank cancels the collective. -/
def execRemoteCollCancel (t : TeamId) (slot : Nat) (s : State) : Host.Outcome State Fault Refusal :=
  .next (s.collStop t slot)

/-- One step of red (R361); BF16 sums are made in FP32. -/
def redStep (dtype rop a b : Nat) : Nat :=
  if dtype = 2 then
    (if rop = 0 then w32 a + w32 b else minMaxOp (rop == 2) .i32 (w32 a) (w32 b)).toNat
  else if rop = 0 then f32.add a b
  else (if dtype = 0 then f32 else bf16).minMax (rop == 2) a b

/-- red of the ranks' elements, in increasing rank (R361). -/
def redAll (dtype rop : Nat) : List Nat → Nat
  | [] => 0
  | x :: xs =>
    if dtype = 1 ∧ rop = 0 then
      bf16.round .rn (f32.val ((xs.map (· * 2 ^ 16)).foldl (redStep dtype rop) (x * 2 ^ 16)))
    else xs.foldl (redStep dtype rop) x

/-- Element e of a buffer. -/
def bufElem (bs : List Byte) (es e : Nat) : Nat := leNat ((bs.drop (es * e)).take es)

/-- The bytes that a collective writes, from the ranks' send buffers (R361). -/
def CollSlot.output (c : CollSlot) (sends : List (List Byte)) : List Byte :=
  let es := dtypeSize c.dtype
  let red (e : Nat) : List Byte := leBytes es (redAll c.dtype c.rop (sends.map (fun b => bufElem b es e)))
  if c.op = 0 then (List.range c.count).flatMap red
  else if c.op = 1 then sends.flatMap (fun b => b.take (c.count * es))
  else if c.op = 2 then (List.range c.count).flatMap (fun e => red (c.me * c.count + e))
  else if c.op = 3 then (sends.getD c.root []).take (c.count * es)
  else []

/-- Whether the other ranks' buffers have the form that a collective exchanges. -/
def CollSlot.sound (c : CollSlot) (sends : List (List Byte)) : Bool :=
  let n := (collSizes c.op c.count c.ranks).1 * dtypeSize c.dtype
  sends.length == c.ranks && sends.all (fun b => b.length == n)

/-- The exchange of a running collective's data: this rank's `SEND` is read, an uncorrectable element as zero, and the result
is fixed (R305, R361). -/
def State.collExchange (s : State) (t : TeamId) (slot : Nat) (sends : List (List Byte)) : State :=
  match s.team? t with
  | none => s
  | some tm =>
    let c := tm.coll slot
    if c.st ≠ 1 || c.result.isSome || !c.sound sends || c.send.any s.partHeld then s
    else
      let u := dtypeSize c.dtype
      let n := (collSizes c.op c.count c.ranks).1
      let r := s.readParts c.by_ tm.core ((c.send.headD ⟨⟨0, 0, false, false⟩, 0, 0⟩).va) (plainUnits n u) c.send
      let out := c.output (modAt (fun _ => r.2) c.me sends)
      r.1.modColl t slot (fun c => { c with result := some out })

/-- Bytes `lo` to `lo + n` of some parts. -/
def cutParts : List Part → Nat → Nat → List Part
  | [], _, _ => []
  | p :: ps, lo, n =>
    if n = 0 then []
    else if p.n ≤ lo then cutParts ps (lo - p.n) n
    else
      let k := min n (p.n - lo)
      { p with x := { p.x with pa := p.x.pa + lo }, va := p.va + lo, n := k } :: cutParts ps 0 (n - k)

/-- A part line by line. -/
def Part.lines (p : Part) : List Part :=
  (lineStarts p.x.pa p.n).map (fun a =>
    { p with x := { p.x with pa := a }, va := p.va + (a - p.x.pa), n := min (128 * (lineOf a + 1)) (p.x.pa + p.n) - a })

/-- An engine's write of some lines as far as their homes have room to hold them, and whether all were written (R20, R203). -/
def State.putRoom (s : State) (wheel : Nat) : List Part → List Byte → State × Bool
  | [], _ => (s, true)
  | p :: ps, bs =>
    if !p.x.poison && !p.x.memside && s.heldFull [p.x.pa] then (s, false)
    else (s.engineWrite wheel false [p] (bs.take p.n)).putRoom wheel ps (bs.drop p.n)

/-- Bytes of a collective's result written to `RECV`, no write that pushes (R316), and whether all were: what finds no room at its home
stalls (R20, R203). -/
def State.collPut (s : State) (t : TeamId) (slot lo n : Nat) : State × Bool :=
  match s.team? t with
  | none => (s, false)
  | some tm =>
    let c := tm.coll slot
    match c.result with
    | none => (s, false)
    | some out =>
      let ps := cutParts c.recv lo n
      if c.st ≠ 1 || ps.any s.partHeld then (s, false)
      else s.putRoom (wheelOf tm.core) (ps.flatMap Part.lines) ((out.drop lo).take n)

/-- A collective writes some bytes of `RECV` before its completion (R361): each may hold its old or its new value until
then. -/
def State.collWrite (s : State) (t : TeamId) (slot lo n : Nat) (sends : List (List Byte)) : State :=
  ((s.collExchange t slot sends).collPut t slot lo n).1

/-- `COLL_COMPLETE` (R361): `RECV` holds the result, the slot becomes complete, then `DONECTR` is decremented. -/
def execCollComplete (t : TeamId) (slot : Nat) (sends : List (List Byte)) (s : State) :
    Host.Outcome State Fault Refusal :=
  let s1 := s.collExchange t slot sends
  match s1.team? t with
  | none => .next s
  | some tm =>
    let c := tm.coll slot
    if c.st ≠ 1 || c.result.isNone || c.recv.any s1.partHeld || s1.partPending c.recv || c.done.any s1.ctrBusy then
      .next s
    else
      let r := s1.collPut t slot 0 ((c.recv.map (·.n)).foldl (· + ·) 0)
      if !r.2 || r.1.partPending c.recv then .next r.1
      else
        let s3 := (r.1.modColl t slot (fun c => { c with st := 2 })).collDone t slot
        .next (match c.done with
          | some a => s3.engineDecr a 1
          | none => s3)

end Sys2Proof.Machine
end

