-- ==== Sys2Proof/Machine/Fence.lean ====
section
/-! DEFINITION. The fence family: `FENCE`, `CLEAN`, `INVAL`, `ICINV`, `FETCHBAR`, `RCFENCE`, `MSFENCE`, `TLBFENCE`
(R166, R169, R170, R181, R182, R200, R246, R295). -/

namespace Sys2Proof.Machine

open Sys2Proof

/-! ## Fences -/

/-- The s registers a range word reads. -/
def rangeSregs (r : Range) : List Nat :=
  r.s.toNat :: (match r.len with | .s n => [n.val] | _ => [])

/-- A word of the fence family: no v register, no queue (R169). -/
def State.fenceWord (s : State) (sregs : List Nat) (f : Team → Group → Res) : Host.Outcome State Fault Refusal :=
  s.asM [] [] sregs [] none (fun t g _ => f t g)

/-- The effect of a fence of a kind at a scope: its cache actions, and what it holds later words for (R165, R166). -/
def State.fenceDo (s : State) (t : Team) (g : Group) (k : Kind) (sc : Nat) : State :=
  let s1 := if k = .acq then s else s.relScope g.core sc t.paired
  let s2 := if k = .rel then s1 else (s1.acqScope g.core sc t.paired).orders t g sc
  let deep := coreScope sc t.paired
  s2.modGrp s.iss.grp (fun x =>
    x.holdFor (s2.parkIds g.core s.iss.grp (fun p => k != .acq || p.reads)) (if k = .acq then [] else s2.pushIds)
      (k != .acq) (k != .acq && deep) (k != .rel && deep))

/-- `FENCE` (R165, R166, R170): at thread scope, and in a `det` node, it completes at issue. -/
def execFence (k : Kind) (sc : BitVec 3) (s : State) : Host.Outcome State Fault Refusal :=
  s.fenceWord [] (fun t g =>
    if sc = 0 || s.isDet t.id then .done s
    else
      let s1 := s.fenceDo t g k sc.toNat
      if k != .acq && s1.unflushed g.core then .stall .flush else .done s1)

/-! ## Ranges -/

/-- The range of a word, its base and its length in bytes (R169); none for `all`. -/
def Group.range (g : Group) (lit : Word) (r : Range) : Option (Nat × Nat) :=
  let base := va56 ((g.sreg r.s.toNat).toNat + (if r.o then sx56 lit else 0))
  match r.len with
  | .s n => some (base, (g.sreg n.val).toNat % 2 ^ 32)
  | .lit => some (base, lit.toNat)
  | .all => none

/-- The whole lines of a range: the first byte and the length; a length of zero names none (R169). -/
def wholeLines (b : Nat × Nat) : Nat × Nat :=
  if b.2 = 0 then (b.1, 0)
  else
    let lo := b.1 / 128 * 128
    (lo, (b.1 + b.2 + 127) / 128 * 128 - lo)

/-- Whether two ranges of virtual addresses, each taken modulo 2^56, have a byte in common. -/
def overlaps (a n b m : Nat) : Bool :=
  decide (0 < n) && decide (0 < m) && (decide (va56 (b + 2 ^ 56 - va56 a) < n) || decide (va56 (a + 2 ^ 56 - va56 b) < m))

/-- The cores of a scope, among those that hold anything (R160). -/
def State.coresIn (s : State) (core sc : Nat) : List Nat :=
  (s.cores.map (·.num)).filter (fun c =>
    if sc ≤ 3 then c == core
    else if sc = 4 then vatOf c == vatOf core
    else if sc = 5 then wheelOf c == wheelOf core
    else true)

/-- The physical pieces of a range of virtual addresses, as starts and lengths: pages without a valid entry and absent
pages are skipped; any other failure ends the walk, after the pieces before it (R181). -/
def State.pieces (s : State) (core space : Nat) : Nat → Nat → Nat → List (Nat × Nat) × Option (PFault × Nat)
  | 0, _, _ => ([], none)
  | fuel + 1, va, n =>
    if n = 0 then ([], none)
    else
      match s.translate core space va .maint with
      | .ok x =>
        let step := min n (2 ^ 17 - va % 2 ^ 17)
        let r := s.pieces core space fuel (va56 (va + step)) (n - step)
        ((x.pa, step) :: r.1, r.2)
      | .error e =>
        if e.detail = 1 ∨ e.detail = 6 then
          let step := min n (if e.level = 0xFE then n else 2 ^ levelShift e.level - va % 2 ^ levelShift e.level)
          s.pieces core space fuel (va56 (va + step)) (n - step)
        else ([], some (e, va))

/-- Whether a line lies in one of some physical pieces, or is where a migrated line of them has gone (R203). -/
def State.lineIn (s : State) (ps : List (Nat × Nat)) (line : Nat) : Bool :=
  let a := line * 128
  let hit (a : Nat) : Bool := ps.any (fun p => decide (p.1 ≤ a) && decide (a < p.1 + p.2))
  hit a || s.migrations.any (fun m =>
    m.switched && decide (m.new ≤ a) && decide (a < m.new + m.size) && hit (m.old + (a - m.new)))

/-- A parked store of the group in the range: it is not yet performed, and the word waits for it (R181). A buffered store of a `det`
node is not waited for: it is committed at the quantum end (R346; DESIGN CHOICE, notes/assumptions/43.md). -/
def State.parkedStores (s : State) (g : Group) (gid : GrpId) (b : Option (Nat × Nat)) : Bool :=
  g.trapMask.isNone && ((s.core g.core).parksOf gid).any (fun p =>
    match p.kind with
    | .store _ =>
      (match b with
       | none => true
       | some r => p.elems.any (fun e => overlaps r.1 r.2 e.addr e.data.length))
    | _ => false)

/-- The lines of a core's instruction cache. -/
def State.icLines (s : State) (core : Nat) : List Nat := (s.core core).icache.map (·.1)

/-- A line dropped from a core's instruction cache. -/
def State.icDrop (s : State) (core line : Nat) : State :=
  s.modCore core (fun c => { c with icache := c.icache.filter (fun e => e.1 != line) })

/-- The lines of a core on which a maintenance word acts. -/
def Maint.lines (k : Maint) : State → Nat → List Nat :=
  match k with
  | .clean | .inval => State.coreLines
  | .icinv => State.icLines

/-- What a maintenance word does to a line of a core (R181). -/
def Maint.act (k : Maint) : State → Nat → Nat → State :=
  match k with
  | .clean => State.writeBack
  | .inval => State.dropLine
  | .icinv => State.icDrop

/-- The lines of some cores, of a range, that a maintenance word acts on. -/
def State.toAct (s : State) (k : Maint) (cores : List Nat) (keep : Nat → Bool) : List (Maint × Nat × Nat) :=
  cores.flatMap (fun c => ((k.lines s c).filter keep).map (fun l => (k, c, l)))

/-- Maintenance of some lines of some cores. -/
def State.actAll (s : State) (l : List (Maint × Nat × Nat)) : State := l.foldl (fun s x => x.1.act s x.2.1 x.2.2) s

/-- A range word that acts line by line on the cores of its scope (R181). A page that faults stops it, with the lines of the
pages before it acted on. -/
def State.maintain (s : State) (k : Maint) (sc : BitVec 3) (r : Range) : Host.Outcome State Fault Refusal :=
  s.fenceWord (rangeSregs r) (fun t g =>
    let b := (g.range s.iss.lit r).map wholeLines
    let todo (keep : Nat → Bool) := s.toAct k (s.coresIn g.core sc.toNat) keep
    let run (keep : Nat → Bool) : Res :=
      let s1 := s.actAll (todo keep)
      if s1.unflushed g.core then .stall .flush else .done s1
    if s.parkedStores g s.iss.grp b then .stall .parked
    else
      match b with
      | none => run (fun _ => true)
      | some b =>
        match s.pieces g.core t.space (b.2 / 2 ^ 17 + 2) b.1 b.2 with
        | (ps, some e) =>
          let l := todo (s.lineIn ps)
          let s1 := (s.actAll l).trapNow (s.wordTrap 8 e.1.detail e.2 e.1.level 0)
          .done { s1 with iss := { s1.iss with acted := l } }
        | (ps, none) => run (s.lineIn ps))

/-- `CLEAN` (R181): dirty bytes go home, and the lines stay. -/
def execClean (sc : BitVec 3) (r : Range) (s : State) : Host.Outcome State Fault Refusal := s.maintain .clean sc r

/-- `INVAL` (R181): dirty bytes go home, and the lines are dropped. -/
def execInval (sc : BitVec 3) (r : Range) (s : State) : Host.Outcome State Fault Refusal := s.maintain .inval sc r

/-- `ICINV` (R181): the lines leave the instruction caches. -/
def execIcinv (sc : BitVec 3) (r : Range) (s : State) : Host.Outcome State Fault Refusal := s.maintain .icinv sc r

/-- `FETCHBAR` (R182): the group's stream and loop buffers empty, and latch liveness goes. -/
def execFetchbar (s : State) : Host.Outcome State Fault Refusal :=
  s.fenceWord [] (fun _ g =>
    let s1 := s.modCore g.core (fun c =>
      { c with loopBufs := c.loopBufs.map (fun b => if b.owner = s.iss.grp then { b with packets := [] } else b) })
    .done (s1.modGrp s.iss.grp (fun x => { x.killLatches with stream := [] })))

/-- The vats of a scope, among those that hold anything (R160). -/
def vatIn (core sc v : Nat) : Bool :=
  if sc ≤ 4 then v == vatOf core else if sc = 5 then v / 16 == wheelOf core else true

/-- `RCFENCE` (R246): shape records of the issuing space that overlap the range leave the record caches. -/
def execRcfence (sc : BitVec 3) (r : Range) (s : State) : Host.Outcome State Fault Refusal :=
  s.fenceWord (rangeSregs r) (fun t g =>
    let b := (g.range s.iss.lit r).map wholeLines
    if s.parkedStores g s.iss.grp b then .stall .parked
    else if (s.relSelf g.core).unflushed g.core || !(s.relSelf g.core).pushIds.isEmpty then .stall .flush
    else
      let s := s.relSelf g.core
      let hit (e : ShapeEnt) : Bool :=
        e.space == t.space &&
          match b with
          | none => true
          | some b => overlaps b.1 b.2 e.va 192
      .done { s with vats := s.vats.map (fun (v : Vat) =>
        if vatIn g.core sc.toNat v.num then { v with shapes := v.shapes.filter (fun e => !hit e) } else v) })

/-- The memory-side commands of a group that have not completed: sent, queued or parked (R295). -/
def State.msOut (s : State) (g : Group) (gid : GrpId) : List Nat :=
  let mine (by_ : Issuer) : Bool := decide ((⟨by_.team, by_.grp⟩ : GrpId) = gid)
  (s.cmds.filter (fun c => mine c.by_)).map (·.id) ++ (s.cmdWaits.filter (fun c => mine c.by_)).map (·.id) ++
    (((s.core g.core).parksOf gid).filter (fun p => !p.isAccess)).map (·.id)

/-- `MSFENCE` (R295): it waits for `MEMSIDE` stores that homes hold for the host; the group's parked stores and atomics hold its later
commands; with `AR`, its commands hold its later `MEMSIDE` accesses. A handler's does not wait for what the group has parked (R165,
notes/assumptions/49.md). -/
def execMsfence (ar : Bool) (s : State) : Host.Outcome State Fault Refusal :=
  s.fenceWord [] (fun _ g =>
    if s.stackHeldBy g.core then .stall .busy else
    let parked := if g.trapMask.isSome then []
      else s.parkIds g.core s.iss.grp (fun p => match p.kind with | .store _ | .atom _ => true | _ => false)
    .done (s.modGrp s.iss.grp (fun x =>
      { x with hold := { x.hold with
          send := x.hold.send ++ parked
          ms := x.hold.ms ++ (if ar then s.msOut g s.iss.grp else []) } })))

/-! ## TLBFENCE -/

/-- Whether a cached entry translates a byte of a range of its space (R200, R201). -/
def TlbEnt.covers (e : TlbEnt) (b : Nat × Nat) : Bool :=
  if e.level = 4 then decide (0 < b.2)
  else overlaps b.1 b.2 (e.key * 2 ^ levelShift e.level) (2 ^ levelShift e.level)

/-- `TLBFENCE` (R200): the core's dirty bytes go home, then the space's entries for the range leave the translation
caches in scope. -/
def execTlbfence (sc : BitVec 3) (r : Range) (s : State) : Host.Outcome State Fault Refusal :=
  s.fenceWord (rangeSregs r) (fun t g =>
    let b := (g.range s.iss.lit r).map wholeLines
    let s1 := s.cleanCore g.core
    let hit (e : TlbEnt) : Bool :=
      e.space == t.space &&
        match b with
        | none => true
        | some b => e.covers b
    if s.parkedStores g s.iss.grp none then .stall .parked
    else if s1.unflushed g.core || !s1.pushIds.isEmpty then .stall .flush
    else .done ((s1.coresIn g.core sc.toNat).foldl (fun s c =>
      s.modCore c (fun k => { k with tlb := k.tlb.filter (fun e => !hit e) })) s1))

end Sys2Proof.Machine
end

