-- ==== Sys2Proof/Machine/MxNum.lean ====
section
/-! DEFINITION. The numbers of the matrix arrays: operand images, the decompressor, block sums and scales (R108, R112 to
R116, R209). -/

namespace Sys2Proof.Machine

open Sys2Proof

/-- The width in bits of an operand format (R208). -/
def mxBits (fmt : Nat) : Nat := if fmt = 0 then 16 else if fmt = 3 then 4 else if fmt = 4 then 16 else 8

/-- The operand formats (R208). -/
def mxFmt (fmt : Nat) : Fmt :=
  if fmt = 0 then bf16 else if fmt = 1 then e4m3 else if fmt = 2 then e5m2 else if fmt = 3 then e2m1 else f16fmt

/-- The format classes of R212. -/
def mxClass (fmt : Nat) : Nat := if fmt = 0 then 0 else if fmt = 1 then 1 else if fmt = 2 then 1 else if fmt = 3 then 2 else 3

/-- The bits of `CAP1` that a format, a scale kind and the compressed form need (R12, R208). -/
def capFmt (fmt : Nat) : Nat := if fmt = 0 then 0 else if fmt = 1 then 2 else if fmt = 2 then 3 else if fmt = 3 then 4 else 1

/-- Element i of e bits in packed bytes (R108). -/
def packedElem (bs : List Byte) (e i : Nat) : Nat :=
  let o := i * e / 8
  if e = 4 then (bs.getD o 0).toNat / 2 ^ (i % 2 * 4) % 16
  else if e = 8 then (bs.getD o 0).toNat
  else (bs.getD o 0).toNat + 256 * (bs.getD (o + 1) 0).toNat

/-- The bytes of the bitmap of a column slot (R209). -/
def ORec.bitmap (r : ORec) : Nat := if r.sp then 4 * ((r.kb + 31) / 32) else 0

/-- The bytes of one block in a column slot (R209). -/
def ORec.blockBytes (r : ORec) : Nat := if r.sp then 4 + 2 * mxBits r.fmt else 4 * mxBits r.fmt

/-- Where the scales of a column slot begin (R209). -/
def ORec.scaleOff (r : ORec) : Nat := r.bitmap + r.kb * r.blockBytes

/-- The bytes of a column's scales (R209). -/
def ORec.scaleBytes (r : ORec) : Nat := if r.scl = 1 then 4 * ((r.kb + 3) / 4) else if r.scl = 2 then r.kb else 0

/-- The bytes of a column slot, a multiple of 64 (R209). -/
def ORec.slot (r : ORec) : Nat := 64 * ((r.scaleOff + r.scaleBytes + 63) / 64)

/-- The slot of column j. -/
def ORec.column (r : ORec) (j : Nat) : List Byte := (r.image.drop (j * r.slot)).take r.slot

/-- The element, word or scale of a column slot that holds a byte: its first byte and its length (R209). -/
def ORec.unitAt (r : ORec) (off : Nat) : Nat × Nat :=
  let unit (base n : Nat) : Nat × Nat := (base + (off - base) / n * n, n)
  if off < r.bitmap then unit 0 4
  else if off < r.scaleOff then
    let b := r.bitmap + (off - r.bitmap) / r.blockBytes * r.blockBytes
    if !r.sp then unit b (max 1 (mxBits r.fmt / 8))
    else if off < b + 4 then (b, 4)
    else unit (b + 4) (max 1 (mxBits r.fmt / 8))
  else if off < r.scaleOff + r.scaleBytes then unit r.scaleOff (if r.scl = 1 then 4 else 1)
  else (off, 1)

/-- The elements that an operand unit of a format holds: two in an E2M1 byte (R108). -/
def mxHolds (fmt : Nat) : Nat := if mxBits fmt = 4 then 2 else 1

/-- The elements that the unit at a byte of a column slot holds (R108, R209). -/
def ORec.holdsAt (r : ORec) (off : Nat) : Nat :=
  if r.bitmap ≤ off ∧ off < r.scaleOff ∧ !(r.sp && decide ((off - r.bitmap) % r.blockBytes < 4)) then mxHolds r.fmt else 1

/-- The elements, words and scales of a column slot, in order, by their bytes, with the elements each holds (R108, R209, R211). -/
def ORec.units (r : ORec) : List (Nat × Nat) :=
  let e := max 1 (mxBits r.fmt / 8)
  let elems (n : Nat) : List (Nat × Nat) := List.replicate (n / e) (e, mxHolds r.fmt)
  let block := if r.sp then (4, 1) :: elems (2 * mxBits r.fmt) else elems (4 * mxBits r.fmt)
  let scale := if r.scl = 1 then 4 else 1
  List.replicate (r.bitmap / 4) (4, 1) ++ (List.replicate r.kb block).flatten ++ List.replicate (r.scaleBytes / scale) (scale, 1) ++
    List.replicate (r.slot - r.scaleOff - r.scaleBytes) (1, 1)

/-- Whether K-step s fetches a byte of the slot of column j: blocks that the bitmap calls dead and scales of the other columns are not
read (R209, R214). -/
def ORec.fetches (r : ORec) (j off s : Nat) : Bool :=
  if off < r.bitmap then off / 4 == s / 8
  else if off < r.scaleOff then
    let m := (off - r.bitmap) / r.blockBytes
    m / 4 == s && (!r.sp || fld (leNat ((r.column j).take r.bitmap)) m 1 == 1)
  else decide (off < r.scaleOff + r.scaleBytes) && (off - r.scaleOff) / 4 == s && (r.scl != 1 || j % 128 == 0)

/-- The position of a live element of a compressed block that lands at element i, by the index word (R209). -/
def sparseAt (idx i : Nat) : Option Nat :=
  let q := i / 4
  let p0 := fld idx (4 * q) 2
  let p1 := fld idx (4 * q + 2) 2
  if i % 4 = p1 then some (2 * q + 1) else if i % 4 = p0 then some (2 * q) else none

/-- Element i of block m of a column, decompressed; a skipped weight and a dead block give zero (R209, R211, R116). -/
def ORec.elem (r : ORec) (col : List Byte) (m i : Nat) : Nat :=
  let b := (col.drop (r.bitmap + m * r.blockBytes)).take r.blockBytes
  if r.sp then
    if fld (leNat (col.take r.bitmap)) m 1 = 0 then 0
    else
      match sparseAt (leNat (b.take 4)) i with
      | some k => packedElem (b.drop 4) (mxBits r.fmt) k
      | none => 0
  else packedElem b (mxBits r.fmt) i

/-- The sum of block m (R112, R113). -/
def tree32 (fa : Nat) (r : ORec) (row col : List Byte) (m : Nat) : Nat :=
  treeSum f32.add 5 ((List.range 32).map (fun i =>
    leaf (mxFmt fa) (mxFmt r.fmt) (packedElem row (mxBits fa) (32 * m + i)) (r.elem col m i)))

/-- A block sum under E8M0 scales (R115). -/
def mxScaled (s ea eb : Nat) (sat : Bool) : Nat :=
  if ea = 0xFF ∨ eb = 0xFF then f32.nan
  else
    let y : Val := match f32.val s with
      | .fin neg m e => .fin neg m (e + ((ea + eb : Nat) : Int) - 254)
      | v => v
    let x := f32.round .rn y
    if sat && f32.isInf x then f32.signed (f32.neg s) f32.maxMag else x

/-- The blocks of K-step s (R214). -/
def stepBlocks (kb s : Nat) : List Nat := (List.range 4).map (4 * s + ·) |>.filter (fun m => decide (m < kb))

/-- The accumulator of one element after K-step s (R113 to R115, R214). `sw` is the slot that holds the weight scales. -/
def stepElem (afmt : Nat) (sat : Bool) (r : ORec) (row scale col sw : List Byte) (s acc : Nat) : Nat :=
  let sums := (stepBlocks r.kb s).map (fun m => (m, tree32 afmt r row col m))
  if r.scl = 1 then
    let part := match sums with
      | [] => 0
      | x :: xs => xs.foldl (fun p y => f32.add p y.2) x.2
    let sa := leNat ((scale.drop (4 * s)).take 4)
    let w := leNat ((sw.drop (r.scaleOff + 4 * s)).take 4)
    f32.add acc (f32.mul (f32.mul part sa) w)
  else if r.scl = 2 then
    sums.foldl (fun a x =>
      f32.add a (mxScaled x.2 (scale.getD x.1 0).toNat (col.getD (r.scaleOff + x.1) 0).toNat sat)) acc
  else sums.foldl (fun a x => f32.add a x.2) acc

end Sys2Proof.Machine
end

