-- ==== Sys2Proof/Machine/Matrix.lean ====
section
/-! DEFINITION. The matrix arrays: leases, the arbiter, operand-buffer records, operations, drains, and the `MX` family
(R205 to R227). -/

namespace Sys2Proof.Machine

open Sys2Proof

/-! ## Leases -/

/-- A team's lease of a core. -/
def Team.lease? (t : Team) (core : Nat) : Option Lease := t.leases.find? (fun l => l.core == core)

/-- An update of a team's lease of a core. -/
def State.modLease (s : State) (t : TeamId) (core : Nat) (f : Lease → Lease) : State :=
  s.modTeam t (fun t => { t with leases := t.leases.map (fun l => if l.core = core then f l else l) })

/-- The tag of a number in a lease. -/
def Lease.tag? (l : Lease) (n : Nat) : Option MxTag := l.tags.find? (fun x => x.tag == n)

/-- An update of a tag. -/
def Lease.modTag (l : Lease) (n : Nat) (f : MxTag → MxTag) : Lease :=
  { l with tags := l.tags.map (fun x => if x.tag = n then f x else x) }

/-- The record of a handle in a lease. -/
def Lease.rec? (l : Lease) (h : Nat) : Option ORec := l.recs.find? (fun r => r.handle == h)

/-- An update of a record. -/
def Lease.modRec (l : Lease) (h : Nat) (f : ORec → ORec) : Lease :=
  { l with recs := l.recs.map (fun r => if r.handle = h then f r else r) }

/-- Whether a team's matrix state is on its cores: it is not saved (R218). -/
def Team.onCore (t : Team) : Bool := t.pinned

/-- The leases of a core, with their teams (R205). -/
def State.leasesOf (s : State) (core : Nat) : List (Team × Lease) :=
  (s.teams.filter Team.onCore).flatMap (fun t => (t.leases.filter (fun l => l.core == core)).map (fun l => (t, l)))

/-- The accumulator tiles of a core (R205). -/
def Core.tiles (c : Core) : Nat := if c.halfWidth then 16 else 32

/-- The accumulator tiles of a core that no lease holds. -/
def State.freeTiles (s : State) (core : Nat) : Nat :=
  (s.core core).tiles - ((s.leasesOf core).map (fun x => x.2.nAT)).foldl (· + ·) 0

/-- The granules a record takes in each array (R210). -/
def ORec.granules (r : ORec) (half : Bool) : Nat := (r.slot * (if half then r.n else r.n / 2) + 511) / 512

/-- The granules of each array that records hold. -/
def State.usedGran (s : State) (core : Nat) : Nat :=
  ((s.leasesOf core).flatMap (fun x => x.2.recs.map (·.gran))).foldl (· + ·) 0

/-- The records that a core's leases hold. -/
def State.usedRecs (s : State) (core : Nat) : Nat := ((s.leasesOf core).map (fun x => x.2.recs.length)).foldl (· + ·) 0

/-! ## Accumulators -/

/-- The accumulator element at an index; what is not listed is +0 (R205). -/
def atRead : List (Nat × Word) → Nat → Word
  | [], _ => 0
  | c :: l, k => if c.1 = k then c.2 else atRead l k

/-- An accumulator element written; the list stays rising, without +0. -/
def atWrite : List (Nat × Word) → Nat → Word → List (Nat × Word)
  | [], k, v => if v = 0 then [] else [(k, v)]
  | c :: l, k, v =>
    if k < c.1 then (if v = 0 then c :: l else (k, v) :: c :: l)
    else if k = c.1 then (if v = 0 then l else (k, v) :: l)
    else c :: atWrite l k v

/-! ## Operations -/

/-- The number of K-steps of a record (R214). -/
def ORec.steps (r : ORec) : Nat := (r.kb + 3) / 4

/-- An operation or drain of a tag is outstanding (R222). -/
def MxTag.out (x : MxTag) : Bool := x.st == 1 || x.st == 2 || x.st == 4

/-- A queued or running operation names a record (R224, R225). -/
def Lease.inUse (l : Lease) (h : Nat) : Bool := l.tags.any (fun x => (x.st == 1 || x.st == 2) && x.orec == h)

/-- The first queued operation of a lease, in the order of the `MXGO` words (R206). -/
def Lease.first (l : Lease) : Option MxTag :=
  (l.tags.filter (fun x => x.st == 1)).foldl (fun b x =>
    match b with
    | none => some x
    | some y => if x.seq < y.seq then some x else some y) none

/-- The operation of a lease that is ready to start: the first queued one, when its record is ready (R206). -/
def Lease.ready (l : Lease) : Option MxTag :=
  match l.first with
  | some x => if (l.rec? x.orec).any (fun r => r.st == 2) then some x else none
  | none => none

/-- The operations that run on a core, with their teams and leases. -/
def State.runs (s : State) (core : Nat) : List (Team × Lease × MxTag) :=
  (s.leasesOf core).flatMap (fun x => (x.2.tags.filter (fun y => y.st == 2)).map (fun y => (x.1, x.2, y)))

/-- The operation of a core that commits next: of those that run, the one started first (R206). -/
def State.running (s : State) (core : Nat) : Option (Team × Lease × MxTag) :=
  (s.runs core).foldl (fun b x =>
    match b with
    | none => some x
    | some y => if x.2.2.started < y.2.2.started then some x else some y) none

/-- Whether the arbiter can start an operation: none runs, or, at full width, the one that runs is in its last K-step, whose part one of
the arrays has done (R206). -/
def State.canStart (s : State) (core : Nat) : Bool :=
  match s.runs core with
  | [] => true
  | [(_, l, x)] => !(s.core core).halfWidth && (l.rec? x.orec).any (fun r => decide (r.steps ≤ x.counter + 1))
  | _ => false

/-- The clock of the teams that wait with an operation ready (R207). -/
def State.leaseClock (s : State) : State :=
  if s.teams.all (fun t => t.leases.isEmpty) then s
  else
    { s with teams := s.teams.map (fun t =>
        { t with leases := t.leases.map (fun l =>
            if l.ready.isSome && t.onCore then { l with since := some (l.since.getD (s.now l.core)) }
            else { l with since := none }) }) }

/-- The longest waiting of some teams: ties to the lower team index, then to the lower instance id (R207). -/
def longest (l : List (Team × Lease × MxTag)) : Option (Team × Lease × MxTag) :=
  l.foldl (fun b x =>
    match b with
    | none => some x
    | some y =>
      let kx := x.2.1.since.getD 0
      let ky := y.2.1.since.getD 0
      if kx < ky ∨ (kx = ky ∧ (x.1.id.idx < y.1.id.idx ∨ (x.1.id.idx = y.1.id.idx ∧ x.1.id.node < y.1.id.node))) then some x
      else some y) none

/-- The next operation that the arbiter starts, and whether its team is a new holder (R207). -/
def State.arbitrate (s : State) (core : Nat) : Option (Team × Lease × MxTag × Bool) :=
  let ready := (s.leasesOf core).filterMap (fun x =>
    if x.1.loc = .resident then x.2.ready.map (fun y => (x.1, x.2, y)) else none)
  let c := s.core core
  let mine := ready.find? (fun x => c.holder == some x.1.id)
  let others := ready.filter (fun x => c.holder != some x.1.id)
  match mine with
  | some x =>
    let most := ((s.launch? x.1.id).map (·.lease)).getD 1
    if most ≤ c.holdCount ∧ !others.isEmpty then (longest others).map (fun y => (y.1, y.2.1, y.2.2, true))
    else some (x.1, x.2.1, x.2.2, false)
  | none => (longest others).map (fun y => (y.1, y.2.1, y.2.2, true))

/-- `MATRIX_OPERATION_START` (R206, R207): at an operation boundary the next operation starts, or the lease passes. -/
def execMatrixOperationStart (core : Nat) (s : State) : Host.Outcome State Fault Refusal :=
  if !s.canStart core then .next s
  else
    match s.arbitrate core with
    | none => .next s
    | some (t, _, x, new) =>
      let s1 := s.tick.modCore core (fun c =>
        { c with holder := some t.id, holdCount := if new then 1 else c.holdCount + 1 })
      .next (s1.modLease t.id core (fun l => { (l.modTag x.tag (fun y => { y with st := 2, started := s.fresh })) with since := none }))

/-- The operand unit that holds an operand byte of a kind: its first byte and its length (R108, R209, R212). -/
def MxTag.unit (x : MxTag) (r : ORec) (b : Nat × Nat × Nat) : Nat × Nat :=
  if b.1 = 2 then r.unitAt b.2.2
  else
    let n := if b.1 = 1 then (if r.scl = 1 then 4 else 1) else max 1 (mxBits x.afmt / 8)
    (b.2.2 / n * n, n)

/-- Whether K-step s fetches an operand byte (R214). -/
def MxTag.fetched (x : MxTag) (r : ORec) (s : Nat) (b : Nat × Nat × Nat) : Bool :=
  if b.1 = 2 then r.fetches b.2.1 b.2.2 s else if b.1 = 1 then b.2.2 / 4 == s else b.2.2 / (16 * mxBits x.afmt) == s

/-- The uncorrectable operands of K-step s, by their first bytes (R217). -/
def MxTag.badIn (x : MxTag) (r : ORec) (s : Nat) : List (Nat × Nat × Nat) :=
  ((x.bad.filter (x.fetched r s)).map (fun b => (b.1, b.2.1, (x.unit r b).1))).eraseDups

/-- The elements that the operand unit of a kind at a byte holds (R108). -/
def MxTag.holds (x : MxTag) (r : ORec) (b : Nat × Nat × Nat) : Nat :=
  if b.1 = 2 then r.holdsAt b.2.2 else if b.1 = 0 then mxHolds x.afmt else 1

/-- The operation as its running K-step meets an uncorrectable port slot: the step's first A element is poisoned (R16, R215;
notes/assumptions/33.md). -/
def MxTag.crossed (x : MxTag) (slot : Option Nat) : MxTag :=
  if slot.isSome then { x with bad := (0, 0, x.counter * (16 * mxBits x.afmt)) :: x.bad } else x

/-- The address of an operand: in the scratchpad, or, of B, in the image it was loaded from (notes/assumptions/40.md). -/
def MxTag.badAddr (x : MxTag) (r : ORec) (b : Nat × Nat × Nat) : Nat :=
  if b.1 = 0 then x.aaddr + b.2.1 * x.apitch + b.2.2
  else if b.1 = 1 then x.saddr + b.2.1 * x.spitch + b.2.2
  else va56 (r.src + b.2.1 * r.slot + b.2.2)

/-- Bytes with some units of them zero. -/
def zeroAt (us : List (Nat × Nat)) (bs : List Byte) : List Byte :=
  if us.isEmpty then bs
  else mapFrom (fun k b => if us.any (fun u => decide (u.1 ≤ k) && decide (k < u.1 + u.2)) then 0 else b) 0 bs

/-- An A row, a row's scales or a column as K-step s reads it: an uncorrectable operand reads as zero (R217). -/
def MxTag.operand (x : MxTag) (r : ORec) (s kind which : Nat) (bs : List Byte) : List Byte :=
  if x.bad.isEmpty then bs
  else zeroAt (((x.badIn r s).filter (fun b => b.1 == kind && b.2.1 == which)).map (x.unit r)) bs

/-- The accumulators after K-step s of an operation (R213, R214). -/
def MxTag.commit (x : MxTag) (r : ORec) (ats : List (Nat × Word)) (s : Nat) : List (Nat × Word) :=
  (List.range x.mrows).foldl (fun ats i =>
    let row := x.operand r s 0 i (x.rows.getD i [])
    let scale := x.operand r s 1 i (x.scales.getD i [])
    let col (j : Nat) : List Byte := x.operand r s 2 j (r.column j)
    (List.range r.n).foldl (fun ats j =>
      let k := x.acc0 * 1024 + i * r.n + j
      let acc := if x.accz && s == 0 then 0 else (atRead ats k).toNat
      atWrite ats k (w32 (stepElem x.afmt x.sat r row scale (col j) (col (128 * (j / 128))) s acc))) ats) ats

/-- A poisoned element met in a core's arrays: counted at its wheel, and poison for the team (R217, R305, R363). -/
def State.meetSram (s : State) (by_ : Issuer) (core addr : Nat) : State :=
  (((s.count (wheelOf core) 0x41 1).count (wheelOf core) 0x47 1).poisonSeen by_.team).poisonTrap by_ addr

/-- The tag after a commit: the counter, and the end of the operation, which starts a queued drain (R214, R223). -/
def MxTag.committed (x : MxTag) (r : ORec) : MxTag :=
  let n := x.counter + 1
  if n < r.steps then { x with counter := n }
  else { x with counter := n, st := if x.drain.isSome then 4 else 3 }

/-- `K_STEP_COMMIT` (R214): a K-step of the running operation commits, and the counter advances. -/
def execKStepCommit (core : Nat) (s : State) : Host.Outcome State Fault Refusal :=
  match s.running core with
  | none => .next s
  | some (t, l, x) =>
    match l.rec? x.orec with
    | none => .next s
    | some r =>
      let bad := x.badIn r x.counter
      let slot := (s.core core).badSlots.head?
      if (!bad.isEmpty || slot.isSome) && t.trapOnPoison then .next s
      else
        let s0 := match slot with
          | some p => s.meetSlot x.by_ core p x.aaddr
          | none => s
        let s1 := (bad.flatMap (fun b => List.replicate (x.holds r b) b)).foldl (fun s b => s.meetSram x.by_ core (x.badAddr r b))
          ((s0.served core 0 2).served core 1 2)
        let y := x.committed r
        let s2 := s1.modLease t.id core (fun l =>
          { (l.modTag x.tag (fun _ => y)) with ats := (x.crossed slot).commit r l.ats x.counter })
        .next (if y.st = 2 then s2 else s2.freeEntries x.entries)

/-- `MATRIX_OPERATION_STOP` (R217): under `TRAPONPOISON` an uncorrectable operand stops the operation before its commit; its
entries are freed, its drain is dropped, and the issuing group's trap is pending. -/
def execMatrixOperationStop (core : Nat) (s : State) : Host.Outcome State Fault Refusal :=
  match s.running core with
  | none => .next s
  | some (t, l, x) =>
    match l.rec? x.orec with
    | none => .next s
    | some r =>
    let stopped : State := (s.freeEntries (x.entries ++ (x.drain.map (·.entry)).toList)).modLease t.id core (fun l =>
      l.modTag x.tag (fun y => { y with st := 5, drain := none, entries := [] }))
    match x.badIn r x.counter, (s.core core).badSlots, t.trapOnPoison with
    | b :: _, _, true => .next (stopped.meetSram x.by_ core (x.badAddr r b))
    | [], p :: _, true => .next (stopped.meetSlot x.by_ core p x.aaddr)
    | _, _, _ => .next s

/-- A byte put among the uncorrectable ones, in order: rows, then scales, then columns. -/
def insBad (b : Nat × Nat × Nat) : List (Nat × Nat × Nat) → List (Nat × Nat × Nat)
  | [] => [b]
  | c :: cs =>
    if b = c then c :: cs
    else if b.1 < c.1 ∨ (b.1 = c.1 ∧ (b.2.1 < c.2.1 ∨ (b.2.1 = c.2.1 ∧ b.2.2 < c.2.2))) then b :: c :: cs
    else c :: insBad b cs

/-- An operand byte of an operation becomes uncorrectable (R217, R363). -/
def State.mxPoison (s : State) (t : TeamId) (core tag kind row off : Nat) : State :=
  s.modLease t core (fun l => l.modTag tag (fun x =>
    if (x.st = 1 ∨ x.st = 2) ∧ kind ≤ 2 then { x with bad := insBad (kind, row, off) x.bad } else x))

/-- The bytes a drain writes (R223). -/
def drainBytes (ats : List (Nat × Word)) (acc0 n : Nat) (half : Bool) : List Byte :=
  (List.range n).flatMap (fun k =>
    let v := (atRead ats (acc0 * 1024 + k)).toNat
    if half then leBytes 2 (bf16.round .rn (f32.val v)) else leBytes 4 v)

/-- `DRAIN_RUN` (R223): the drain of a completed operation writes its elements to scratchpad. -/
def execDrainRun (t : TeamId) (core tag : Nat) (s : State) : Host.Outcome State Fault Refusal :=
  match s.team? t with
  | none => .next s
  | some tm =>
    match (tm.lease? core).bind (fun l => (l.tag? tag).map (fun x => (l, x))) with
    | none => .next s
    | some (l, x) =>
      match x.drain with
      | some d =>
        if x.st ≠ 4 || !tm.onCore then .next s
        else
          let s1 := ((s.served core 0 3).served core 1 3).winWrite t d.target (drainBytes l.ats x.acc0 (x.mrows * x.ncols) d.bf16)
          .next ((s1.freeEntries [d.entry]).modLease t core (fun l =>
            l.modTag tag (fun y => { y with st := 3, drain := none })))
      | none => .next s

/-- Whether an `OBLD` word of a team waits on a record (R211). -/
def Team.obldWaits (t : Team) (core h : Nat) : Bool :=
  t.groups.any (fun g => g.core == core && g.waits.any (fun w =>
    match (decodeWord w.word).toOption with
    | some (.obld _ r) => r.val == h
    | _ => false))

/-- Some more pages of a record's image read and crossed up: the record is ready once it holds them all, and a fault ends the load (R16,
R211, R225). -/
def State.obldRead (s : State) (tm : Team) (core : Nat) (x : ORec) (pages : Nat) : State :=
  let by_ := x.by_.getD { team := tm.id, grp := 0, mask := 0, slot := 3, word := 0, pc := 0 }
  let total := x.slot * x.n
  let r := State.readPages by_ core tm.space x.src total ((List.replicate x.n x.units).flatten) pages s x.image
  let waits := tm.obldWaits core x.handle
  let slot := (s.core core).badSlots.head?
  let c : State × List Byte := match slot, (x.image.length < r.2.1.length : Bool) with
    | some p, true =>
      (r.1.meetSlot by_ core p (va56 (x.src + x.image.length)), zeroAt [(x.image.length, (x.unitAt (x.image.length % x.slot)).2)] r.2.1)
    | _, _ => (r.1, r.2.1)
  ((c.1.served core 0 2).served core 1 2).modLease tm.id core (fun l => l.modRec x.handle (fun y =>
    match r.2.2 with
    | some f => { y with st := if waits then 4 else 3, image := [], flt := if waits then some (f.1.detail, f.1.level, f.2) else none }
    | none => { y with st := if total ≤ c.2.length then 2 else 1, image := c.2 }))

/-- A record of a team that is loading on a core. -/
def State.obldOf (s : State) (t : TeamId) (core h : Nat) : Option (Team × ORec) :=
  (s.team? t).bind (fun tm => ((tm.lease? core).bind (fun l => l.rec? h)).bind (fun x =>
    if x.st = 1 && tm.onCore then some (tm, x) else none))

/-- A load reads one page of its image (R211). -/
def State.obldPage (s : State) (t : TeamId) (core h : Nat) : State :=
  match s.obldOf t core h with
  | some x => s.obldRead x.1 core x.2 1
  | none => s

/-- `OBLD_LOAD_FINISH` (R211, R225): the image is in the record, which is ready, or the load met a fault. -/
def execObldLoadFinish (t : TeamId) (core r : Nat) (s : State) : Host.Outcome State Fault Refusal :=
  .next (match s.obldOf t core r with
    | some x => s.obldRead x.1 core x.2 (x.2.slot * x.2.n / 2 ^ 17 + 2)
    | none => s)

/-! ## The MX family -/

/-- `MXLEASE` (R220). -/
def execMxlease (e : EF) (s : State) : Host.Outcome State Fault Refusal :=
  s.asE true [e.p.toNat] e.q e.x none (fun t g =>
    let n := (g.sreg e.p.toNat).toNat
    if n = 0 ∨ 32 < n ∨ (s.core g.core).tiles < n ∨ (t.lease? g.core).isSome then s.fin e.q stRejected 0
    else if s.freeTiles g.core < n then .wait s 0
    else
      let l : Lease := { core := g.core, nAT := n, ats := [], recs := [], tags := [], since := none }
      .done ((s.modTeam t.id (fun t => { t with leases := t.leases ++ [l] })).putStatus e.q stOk n))

/-- The part of a team's window held in a core's array, as first byte and end (R145, R212). -/
def Team.part (t : Team) (core : Nat) : Nat × Nat :=
  if !t.paired then (0, t.wsize) else if core = t.core then (0, t.wsize / 2) else (t.wsize / 2, t.wsize)

/-- A span that lies wholly in the issuing core's part of the team's own window (R212). -/
def Team.inPart (t : Team) (core lo hi : Nat) : Bool :=
  decide (hi < 2 ^ 20) && decide ((t.part core).1 ≤ lo) && decide (hi < (t.part core).2)

/-- A parameter block as accepted: the operation and its two spans (R212, R216). -/
structure MxBlock where
  x : MxTag
  a : Nat × Nat
  scale : Option (Nat × Nat)
  apitch : Nat
  spitch : Nat
  rowBytes : Nat
  scaleLen : Nat

/-- The checks of a parameter block (R212): none gives `REJECTED`. -/
def mxBlock (t : Team) (core : Nat) (l : Lease) (bs : List Byte) (tag : Nat) (by_ : Issuer) : Option MxBlock :=
  let f := field bs
  let afmt := f 16 1
  match l.rec? (f 17 1) with
  | none => none
  | some r =>
    let m := 16 * (f 18 1 + 1)
    let flags := f 20 1
    let first := f 21 1
    let rowBytes := 4 * r.kb * mxBits afmt
    let a : Nat × Nat := (f 0 4, f 0 4 + (m - 1) * f 4 4 + rowBytes - 1)
    let sl := if r.scl = 1 then 4 * r.steps else r.kb
    let sc : Nat × Nat := (f 8 4, f 8 4 + (m - 1) * f 12 4 + sl - 1)
    let badScale := if r.scl = 0 then f 8 4 != 0
      else f 8 4 % 4 != 0 || f 12 4 % 4 != 0 || decide (f 12 4 < sl) || !t.inPart core sc.1 sc.2
    if decide (4 < afmt) || mxClass afmt != mxClass r.fmt || !allZero bs 22 106 || flags / 4 != 0 || decide (15 < f 18 1) ||
        (r.st != 1 && r.st != 2) || f 0 4 % 64 != 0 || f 4 4 % 64 != 0 || decide (f 4 4 < rowBytes) ||
        !t.inPart core a.1 a.2 || badScale || decide (r.steps ≤ first) ||
        (flags % 2 == 1 && first != 0) || decide (l.nAT < f 19 1 + (m * r.n + 1023) / 1024) then none
    else
      some
        { x := { tag := tag, st := 1, counter := first, orec := r.handle, afmt := afmt, mrows := m, ncols := r.n, acc0 := f 19 1,
                 accz := flags % 2 == 1, sat := fld flags 1 1 == 1, first := first, aaddr := f 0 4, apitch := f 4 4, saddr := f 8 4, spitch := f 12 4, rows := [],
                 scales := [], bad := [], entries := [], drain := none, seq := 0, started := 0, by_ := by_ }
          a := a, scale := if r.scl ≠ 0 ∧ f 8 4 ≠ 0 then some sc else none, apitch := f 4 4, spitch := f 12 4,
          rowBytes := rowBytes, scaleLen := if r.scl = 0 then 0 else sl }

/-- Whether a span overlaps an entry that an operation must wait for: any but those of matrix operands (R216). -/
def State.spanBusy (s : State) (t : TeamId) (sp : Nat × Nat) (operands : Bool) : Bool :=
  s.cores.any (fun c => c.ranges.any (fun e =>
    decide (e.team = t) && decide (e.lo ≤ sp.2) && decide (sp.1 ≤ e.hi) &&
      match e.owner with
      | .mxA _ | .mxScale _ => !operands
      | _ => true))

/-- The operand bytes that stand when an operation's entries are made (R175). -/
def State.mxRows (s : State) (t : TeamId) (base pitch len n : Nat) : List (List Byte) :=
  (List.range n).map (fun i => s.winRead t (base + i * pitch) len)

/-- The uncorrectable ones of those bytes. -/
def State.mxBad (s : State) (t : TeamId) (kind base pitch len n : Nat) : List (Nat × Nat × Nat) :=
  (List.range n).flatMap (fun i =>
    if s.winBadIn t (base + i * pitch) len then
      ((List.range len).filter (fun k => s.winBadIn t (base + i * pitch + k) 1)).map (fun k => (kind, i, k))
    else [])

/-- An operation queued under its tag, with its entries and its operands (R206, R216, R221). -/
def State.mxQueue (s : State) (t : TeamId) (core : Nat) (b : MxBlock) : Option State :=
  let es : List (Nat × TeamId × Nat × Nat) := [(core, t, b.a.1, b.a.2)]
  let ss : List (Nat × TeamId × Nat × Nat) := (b.scale.map (fun x => (core, t, x.1, x.2))).toList
  match s.addEntries (.mxA b.x.tag) es with
  | none => none
  | some r =>
    match r.1.addEntries (.mxScale b.x.tag) ss with
    | none => none
    | some r2 =>
      let scaleAt := leNat (leBytes 4 ((b.scale.map (·.1)).getD 0))
      let x : MxTag :=
        { b.x with
          rows := s.mxRows t b.a.1 b.apitch b.rowBytes b.x.mrows
          scales := if b.scaleLen = 0 then [] else s.mxRows t scaleAt b.spitch b.scaleLen b.x.mrows
          bad := s.mxBad t 0 b.a.1 b.apitch b.rowBytes b.x.mrows ++ s.mxBad t 1 scaleAt b.spitch b.scaleLen b.x.mrows
          entries := r.2 ++ r2.2
          seq := r2.1.fresh }
      some (r2.1.tick.modLease t core (fun l =>
        { l with tags := l.tags.filter (fun y => y.tag != x.tag) ++ [x] }))

/-- Steps 2 to 5 of `MXGO` with its parameter block (R212, R216, R221). -/
def State.mxStart (s : State) (t : Team) (g : Group) (q : BitVec 6) (tag : Nat) (bs : List Byte) : Res :=
  match t.lease? g.core with
  | none => s.fin q stRejected 0
  | some l =>
    let afmt := field bs 16 1
    if afmt ≤ 4 && !(s.cap1.getLsbD (capFmt afmt)) then s.raise 9 0
    else
      match mxBlock t g.core l bs tag s.issuer with
      | none => s.fin q stRejected 0
      | some b =>
        if (l.tag? tag).any MxTag.out then s.fin q stBusy 0
        else if s.spanBusy t.id b.a true || b.scale.any (fun x => s.spanBusy t.id x true) then s.waitWith bs
        else
          match s.mxQueue t.id g.core b with
          | some s' => s'.fin q stOk 0
          | none => s.waitWith bs

/-- `MXGO` (R212, R216, R221): the block is read once, at issue. -/
def execMxgo (e : EF) (tag : Fin 4) (s : State) : Host.Outcome State Fault Refusal :=
  s.asE true [e.p.toNat] e.q e.x none (fun t g =>
    match s.keptBlock g with
    | some bs => s.mxStart t g e.q tag.val bs
    | none =>
      let p := (g.sreg e.p.toNat).toNat
      if p / 2 ^ 23 ≠ 0 then .trap (s.wordTrap 5 0 (va56 p) 0xFF 0)
      else
        match s.scrAt t.id p 128 with
        | .error c => .trap (s.wordTrap c 0 p 0xFF 0)
        | .ok a =>
          if p % 128 ≠ 0 then .trap (s.wordTrap 7 0 p 0xFF 0)
          else if s.toQueue t then .done s
          else if (t.lease? g.core).isNone then s.fin e.q stRejected 0
          else if s.winHeld a.team a.off 128 then .stall .busy
          else
            let r := s.winBlock s.issuer a.team a.off 128
            (r.1.mxStart t g e.q tag.val r.2).gated s t g)

/-- `MXWAIT` (R222). -/
def execMxwait (q : BitVec 6) (x : BitVec 5) (tag : Fin 4) (s : State) : Host.Outcome State Fault Refusal :=
  s.asE true [] q x none (fun t g =>
    match (t.lease? g.core).bind (fun l => l.tag? tag.val) with
    | none => s.fin q stRejected 0
    | some y =>
      let n := y.counter % 2 ^ 16
      if y.out then .wait s n
      else if y.st = 3 then .done ((s.putStatus q stOk n).acquire t g 2)
      else s.fin q stRejected n)

/-- `MXDRAIN` (R216, R223). Step 1's check of the address takes all the bytes that the drain writes, one where the tag has no operation; and
a stopped tag, which has none to wait for, gives `REJECTED`: the spec says neither (DESIGN CHOICE, notes/assumptions/43.md). -/
def execMxdrain (e : EF) (tag : Fin 4) (s : State) : Host.Outcome State Fault Refusal :=
  s.asE true [e.p.toNat] e.q e.x none (fun t g =>
    let p := (g.sreg e.p.toNat).toNat
    let half := fld p 32 1 == 1
    let target := fld p 0 23
    let y := (t.lease? g.core).bind (fun l => l.tag? tag.val)
    let n := (y.map (fun y => y.mrows * y.ncols)).getD 0
    let len := n * (if half then 2 else 4)
    match s.scrAt t.id target (max 1 len) with
    | .error c => .trap (s.wordTrap c 0 target 0xFF 0)
    | .ok a =>
      let sp : Nat × Nat := (a.off, a.off + len - 1)
      match y with
      | none => s.fin e.q stRejected 0
      | some y =>
        if n = 0 || p / 2 ^ 33 ≠ 0 || fld p 23 9 ≠ 0 || target % 64 ≠ 0 || fld target 22 1 = 1 ||
            !t.inPart g.core sp.1 sp.2 || y.st = 5 then s.fin e.q stRejected 0
        else if y.drain.isSome then s.fin e.q stBusy 0
        else if s.spanBusy t.id sp false then .wait s 0
        else
          match s.addEntries (.drain tag.val) [(g.core, t.id, sp.1, sp.2)] with
          | none => .wait s 0
          | some r =>
            let d : Drain := { bf16 := half, target := a.off, entry := r.2.headD 0 }
            (r.1.modLease t.id g.core (fun l => l.modTag tag.val (fun y =>
              { y with drain := some d, st := if y.st = 3 then 4 else y.st }))).fin e.q stOk 0)

/-- A team leaves a core's arbiter: its tiles and records are free (R227). -/
def State.dropLease (s : State) (t : TeamId) (core : Nat) : State :=
  (s.modTeam t (fun t => { t with leases := t.leases.filter (fun l => l.core != core) })).modCore core (fun c =>
    { c with holder := if c.holder = some t then none else c.holder })

/-- An operation, drain or load of a lease is outstanding (R227). -/
def Lease.busy (l : Lease) : Bool := l.tags.any MxTag.out || l.recs.any (fun r => r.st == 1)

/-- `MXREL` (R227). -/
def execMxrel (q : BitVec 6) (x : BitVec 5) (s : State) : Host.Outcome State Fault Refusal :=
  s.asE true [] q x none (fun t g =>
    match t.lease? g.core with
    | none => s.fin q stRejected 0
    | some l => if l.busy then .wait s 0 else (s.dropLease t.id g.core).fin q stOk 0)

/-- The record of a descriptor, before its checks (R208). -/
def oresRec (v h : Nat) : ORec :=
  { handle := h, st := 4, kb := fld v 24 8 + 1, n := 16 * (fld v 16 8 + 1), scl := fld v 6 2, sp := fld v 5 1 == 1,
    fmt := fld v 0 3, gran := 0, src := 0, by_ := none, flt := none, image := [] }

/-- A feature that a descriptor names and `CAP1` does not have (R12, R208). -/
def State.formatAbsent (s : State) (v : Nat) : Bool :=
  let has (k : Nat) : Bool := s.cap1.getLsbD k
  (decide (fld v 0 3 ≤ 4) && !has (capFmt (fld v 0 3))) || (fld v 6 2 == 1 && !has 6) || (fld v 6 2 == 2 && !has 7) ||
    (fld v 5 1 == 1 && !has 5)

/-- The other invalid values of a descriptor (R208). -/
def oresBad (v : Nat) : Bool :=
  let fmt := fld v 0 3
  let scl := fld v 6 2
  v / 2 ^ 32 != 0 || fld v 8 7 != 0 || fld v 3 2 != 0 || decide (63 < fld v 16 8) || scl == 3 || decide (4 < fmt) ||
    (scl == 1 && fmt != 1 && fmt != 2) || (scl == 2 && fmt != 3)

/-- `ORES` (R208, R210, R224). -/
def execOres (p q : BitVec 6) (r : Fin 16) (s : State) : Host.Outcome State Fault Refusal :=
  s.asE true [p.toNat] q 0 none (fun t g =>
    let v := (g.sreg p.toNat).toNat
    match t.lease? g.core with
    | none => s.fin q stRejected 0
    | some l =>
      if v = 0 then
        if l.inUse r.val then s.fin q stBusy 0
        else (s.modLease t.id g.core (fun l => { l with recs := l.recs.filter (fun x => x.handle != r.val) })).fin q stOk 0
      else if (l.rec? r.val).isSome then s.fin q stRejected 0
      else if fld v 15 1 = 0 then s.fin q stRejected 0
      else if s.formatAbsent v then s.raise 9 0
      else if oresBad v then s.fin q stRejected 0
      else
        let x := oresRec v r.val
        let n := x.granules (s.core g.core).halfWidth
        if 256 < n then s.fin q stRejected 0
        else if 16 ≤ s.usedRecs g.core ∨ 256 < s.usedGran g.core + n then s.fin q stBusy 0
        else (s.modLease t.id g.core (fun l => { l with recs := l.recs ++ [{ x with gran := n }] })).fin q stOk n)

/-- `OBLD` (R173, R211, R225): the load starts as the word issues; a fault met while it waits is the word's. -/
def execObld (e : EF) (r : Fin 16) (s : State) : Host.Outcome State Fault Refusal :=
  s.asE true [e.p.toNat] e.q e.x none (fun t g =>
    s.releasing t g 3 (fun s =>
      let p := (g.sreg e.p.toNat).toNat
      match (t.lease? g.core).bind (fun l => (l.rec? r.val).map (fun x => (l, x))) with
      | none => s.fin e.q stRejected 0
      | some (l, x) =>
        if s.iss.mode = .issue ∨ s.iss.mode = .serial then
          if p % 64 ≠ 0 then s.fin e.q stRejected 0
          else if l.inUse r.val then s.fin e.q stBusy 0
          else .wait (s.modLease t.id g.core (fun l => l.modRec r.val (fun y =>
            { y with st := 1, src := va56 p, by_ := some s.issuer, flt := none, image := [] }))) 0
        else if x.st = 2 then s.fin e.q stOk 0
        else
          match x.flt with
          | some f => .trap (s.wordTrap 8 f.1 f.2.2 f.2.1 0)
          | none => .wait s 0))

/-- `MXSTAT` (R226). -/
def execMxstat (p q : BitVec 6) (n : Fin 16) (s : State) : Host.Outcome State Fault Refusal :=
  s.asE false [p.toNat] q 0 none (fun t g =>
    let l := t.lease? g.core
    let v := (g.sreg p.toNat).toNat
    if v = 0 then
      if 4 ≤ n.val then s.fin q stRejected 0
      else
        match l.bind (fun l => l.tag? n.val) with
        | none => s.fin q stOk 0
        | some y => s.fin q stOk (y.st + y.counter % 2 ^ 16 * 2 ^ 8)
    else if v = 1 then
      match l.bind (fun l => l.rec? n.val) with
      | none => s.fin q stOk 0
      | some r => s.fin q stOk (r.st + r.gran % 2 ^ 16 * 2 ^ 8)
    else s.fin q stRejected 0)

end Sys2Proof.Machine
end

