-- ==== Sys2Proof/Machine/Image.lean ====
section
/-! DEFINITION. The context part of a save region (R309): what of a team stands in it at places and in encodings that the spec gives,
which a restore reloads (R311), and what stands there in encodings that it does not give (notes/assumptions/17.md). -/

namespace Sys2Proof.Machine

open Sys2Proof

/-- Pieces of `n` bytes of a list of bytes. -/
def splitBytes (n : Nat) : Nat → List Byte → List (List Byte)
  | 0, _ => []
  | k + 1, bs => bs.take n :: splitBytes n k (bs.drop n)

/-- The bytes of group j's vector registers. -/
def Launch.vLen (l : Launch) : Nat := allot l.vregs * l.width * 4

/-- G of R309. -/
def Launch.groupLen (l : Launch) : Nat := l.vLen + 512 * l.width + 1024

/-- Where group j's block stands. -/
def Launch.groupAt (l : Launch) (j : Nat) : Nat := 458752 + j * l.groupLen

/-! ## What stands there in an encoding that the spec does not give -/

/-- The engine block of a context part (R309): channel records, stream records with their next iterations, matrix records and tags with their
parameter blocks and counters; and the load words whose elements are parked. -/
structure EngineBlock where
  chans : List Chan
  streams : List Stream
  loads : List LoadRec
  leases : List Lease
  deriving DecidableEq, Repr

/-- What stands in a region of a context part whose encoding the spec does not give (R309): the header's lease count, channel states and
matrix arbiter position; of a group, the thread states, the join stack, the path ages with its trap mode, the queue bindings with the number of
entries of each slice; the replay entries; the engine block. -/
inductive SavedPart where
  | head (leases : Nat) (chans : List Nat) (held : List Bool)
  | threads (sts : List ThreadSt)
  | joins (js : List JoinEntry)
  | flow (paths : List PathRec) (trap : Option Mask) (cause : Nat)
  | binds (qs : List (QKind × Nat × Nat × List Nat))
  | parks (ps : List Park)
  | engines (e : EngineBlock)
  deriving DecidableEq, Repr

end Sys2Proof.Machine

namespace Sys2Proof.Config

open Sys2Proof.Machine

/-- FREE VALUE. Byte i of the encoding of what stands in such a region: R309 says what stands there and not how
(notes/assumptions/17.md). -/
opaque partByte : SavedPart → Nat → Byte

/-- FREE VALUE. What the bytes of such a region stand for, by what they are asked to hold: R309 gives no encoding
(notes/assumptions/17.md). -/
opaque partOf : SavedPart → List Byte → Option SavedPart

end Sys2Proof.Config

namespace Sys2Proof.Machine

open Sys2Proof

/-- The bytes of such a region. -/
def SavedPart.bytes (x : SavedPart) (n : Nat) : List Byte := (List.range n).map (Config.partByte x)

/-- What a region holds, read again: what the device has written there itself, where it stands as it was written; else what the bytes stand
for. `n` is the number of bytes that were written, and none of an image that was copied here (R311, R356). -/
def SavedPart.read (own : SavedPart) (n : Option Nat) (bs : List Byte) : SavedPart :=
  if n.any (fun n => bs.take n == own.bytes n) then own else (Config.partOf own bs).getD own

/-- A region of such a part: its group, if it is one's, its place and length, what it holds, and the bytes of it that are written. -/
structure Region_ where
  grp : Option Nat
  off : Nat
  len : Nat
  part : SavedPart
  used : Nat

/-- The regions of group j. -/
def Group.regions (g : Group) (l : Launch) (j : Nat) : List Region_ :=
  let at_ := 2048 + 1536 * j
  [⟨some j, at_ + 512, l.width, .threads (g.threads.map (·.st)), l.width⟩,
   ⟨some j, at_ + 576, 768, .joins g.joins, 24 * g.joins.length⟩,
   ⟨some j, at_ + 1344, 192, .flow g.paths g.trapMask g.trapCause, 192⟩,
   ⟨some j, l.groupAt j + l.groupLen - 448, 448, .binds (g.q.map (fun q => (q.kind, q.src, q.srcQ, q.slices.map List.length))), 448⟩]

/-- A lease without what stands elsewhere in a context part: its accumulators, and the contents of its records. -/
def Lease.bare (x : Lease) : Lease := { x with ats := [], recs := x.recs.map (fun r => { r with image := [] }) }

/-- The regions of a saved team. -/
def Team.regions (t : Team) (l : Launch) : List Region_ :=
  ⟨none, 32, 2016, .head t.leases.length (t.chans.map (·.st)) (t.leases.map (fun x => x.since.isSome)), 2016⟩ ::
    (mapFrom (fun j (g : Group) => g.regions l j) 0 t.groups).flatten ++
    [⟨none, 26624, 32768, .parks t.sparks, 512 * min 64 t.sparks.length⟩,
     ⟨none, 63488, 2048, .engines ⟨t.chans, t.sstreams, t.sloads, t.leases.map Lease.bare⟩, 2048⟩]

/-- What a region of a group holds, put in its place. -/
def Group.putPart (g : Group) : SavedPart → Group
  | .threads l => { g with threads := mapFrom (fun k (th : Thread) => { th with st := l.getD k th.st }) 0 g.threads }
  | .joins l => { g with joins := l }
  | .flow ps m c => { g with paths := ps, trapMask := m, trapCause := c }
  | .binds l =>
    let sized (ns : List Nat) (es : List (List (List Word))) : List (List (List Word)) :=
      if es.map List.length = ns then es else ns.map (fun n => List.replicate n (List.replicate 16 0))
    let bound (k : Nat) (q : Queue) : Queue :=
      ((l[k]?).map (fun b => { q with kind := b.1, src := b.2.1, srcQ := b.2.2.1, slices := sized b.2.2.2 q.slices })).getD q
    { g with q := mapFrom bound 0 g.q }
  | _ => g

/-- A lease as the engine block holds it, with what the team's own record of it keeps elsewhere. -/
def Lease.filled (x : Lease) (old : List Lease) : Lease :=
  match old.find? (fun y => y.core == x.core) with
  | none => x
  | some y =>
    { x with
      ats := y.ats
      recs := x.recs.map (fun r => { r with image := ((y.recs.find? (fun q => q.handle == r.handle)).map (·.image)).getD r.image }) }

/-- What a region of a team holds, put in its place. -/
def Team.putPart (t : Team) : SavedPart → Team
  | .parks l => { t with sparks := l.map (fun p => { p with grp := { p.grp with team := t.id } }) }
  | .engines e => { t with chans := e.chans, sstreams := e.streams, sloads := e.loads, leases := e.leases.map (fun x => x.filled t.leases) }
  | _ => t

/-! ## What is written -/

/-- The entries of a group's queues, 64 bytes each, with their places among its queue contents: by queue, slice and entry. -/
def Group.queuePieces (g : Group) (at_ : Nat) : List (Nat × List Byte) :=
  (mapFrom (fun n (q : Queue) => (mapFrom (fun k (es : List (List Word)) =>
    mapFrom (fun i (e : List Word) => (at_ + 64 * ((n * (g.width / 16) + k) * 16 + i), e.flatMap (fun v => leBytes 4 v.toNat))) 0 es)
    0 q.slices).flatten) 0 g.q).flatten

/-- The predicates of a group as masks over its threads. -/
def Group.predMasks (g : Group) : List Nat :=
  (List.range 8).map (fun n => (maskOf ((List.range g.width).filter (fun k => (g.thread k).p.getLsbD n))).toNat)

/-- What stands of group j: its threads' PCs, vector registers, queue contents, s registers and predicates. -/
def Group.pieces (g : Group) (l : Launch) (j : Nat) : List (Nat × List Byte) :=
  [(2048 + 1536 * j, g.threads.flatMap (fun th => leBytes 8 th.pc.toNat)),
   (l.groupAt j, (List.range (allot l.vregs)).flatMap (fun r => g.threads.flatMap (fun th => leBytes 4 (th.v.getD r 0).toNat))),
   (l.groupAt j + l.groupLen - 1024, g.s.flatMap (fun v => leBytes 8 v.toNat)),
   (l.groupAt j + l.groupLen - 512, g.predMasks.flatMap (leBytes 8))] ++
  g.queuePieces (l.groupAt j + l.vLen)

/-- The accumulator tiles of a team's leases that the area has room for: the lease's core and the AT (R205, R309). -/
def Team.tileList (t : Team) : List (Nat × Nat) :=
  (t.leases.flatMap (fun x => (List.range x.nAT).map (fun a => (x.core, a)))).take 32

/-- The bytes of an accumulator tile: 1,024 FP32 values (R205). -/
def tileBytes (ats : List (Nat × Word)) (a : Nat) : List Byte :=
  (List.range 1024).flatMap (fun e => leBytes 4 (atRead ats (1024 * a + e)).toNat)

/-- The accumulators of a lease. -/
def Team.atsOf (t : Team) (core : Nat) : List (Nat × Word) := ((t.lease? core).map (·.ats)).getD []

/-- The places of ready records in each array's area, counted in granules, as far as the area reaches (R210, R309). -/
def recPlaces : Nat → List (Nat × ORec) → List (Nat × Nat × ORec)
  | _, [] => []
  | at_, (c, r) :: rs =>
    let n := r.granules false
    if at_ + n ≤ 256 then (at_, c, r) :: recPlaces (at_ + n) rs else recPlaces at_ rs

/-- The ready records of a team's leases with their places. -/
def Team.recPlaces (t : Team) : List (Nat × Nat × ORec) :=
  Machine.recPlaces 0 (t.leases.flatMap (fun x => (x.recs.filter (fun r => r.st == 2)).map (fun r => (x.core, r))))

/-- The bytes of the columns of a record that lie beside array 0 of a full-width core (R210). -/
def ORec.lowLen (r : ORec) : Nat := r.slot * (r.n / 2)

/-- What a context part holds of a team but for its header, in encodings that a restore reads again. -/
def Team.pieces (t : Team) (l : Launch) : List (Nat × List Byte) :=
  (mapFrom (fun j (g : Group) => g.pieces l j) 0 t.groups).flatten ++
    mapFrom (fun k (x : Nat × Nat) => (65536 + 4096 * k, tileBytes (t.atsOf x.1) x.2)) 0 t.tileList ++
    t.recPlaces.flatMap (fun x =>
      [(196608 + 512 * x.1, x.2.2.image.take x.2.2.lowLen), (327680 + 512 * x.1, x.2.2.image.drop x.2.2.lowLen)])

/-- The pieces of a saved team's context part, its frame slots apart, which stand there already: the header, the regions whose encoding the
spec does not give, and what `Team.pieces` gives; a few bytes of the header are free. -/
def Team.image (t : Team) (l : Launch) (status : Reg) (state : Nat) : List (Nat × (List Byte ⊕ Nat)) :=
  let head : List (Nat × (List Byte ⊕ Nat)) :=
    [(0, .inl (leBytes 1 1)), (1, .inr 3), (4, .inl (leBytes 4 t.id.node ++ leBytes 4 t.id.idx ++ leBytes 1 state)),
     (13, .inr 3), (16, .inl (leBytes 8 status.toNat)), (24, .inr 8)]
  head ++ ((t.regions l).filter (fun r => r.used != 0)).map (fun r => (r.off, .inl (r.part.bytes r.used))) ++
    (t.pieces l).map (fun x => (x.1, .inl x.2))

/-! ## What is reloaded (R311) -/

/-- Pieces of a context part read by their places and lengths, in elements of `u` bytes; one whose page cannot be read is left out. -/
def State.readBack (by_ : Issuer) (core space base u : Nat) : List (Nat × Nat) → State → State × List (Nat × List Byte)
  | [], s => (s, [])
  | (off, n) :: xs, s =>
    let va := va56 (base + off)
    match s.xlatElem core space va n .read with
    | .error _ => State.readBack by_ core space base u xs s
    | .ok ps =>
      let a := s.readParts by_ core va (plainUnits (n / u) u) ps
      let r := State.readBack by_ core space base u xs a.1
      (r.1, (off, a.2) :: r.2)

/-- What was read at a place. -/
def lookAt (xs : List (Nat × List Byte)) (off : Nat) : Option (List Byte) := (xs.find? (fun x => x.1 == off)).map (·.2)

/-- An update by what was read at a place, where it was. -/
def reloadBy {α : Type} (xs : List (Nat × List Byte)) (off : Nat) (f : List Byte → α → α) (a : α) : α :=
  match lookAt xs off with
  | some bs => f bs a
  | none => a

/-- The threads' PCs. -/
def Group.reloadPcs (bs : List Byte) (g : Group) : Group :=
  { g with threads := mapFrom (fun k th => { th with pc := BitVec.ofNat 56 (field bs (8 * k) 8) }) 0 g.threads }

/-- The threads' vector registers: register r of thread k is word r × W + k. -/
def Group.reloadV (bs : List Byte) (g : Group) : Group :=
  let rows := splitBytes (4 * g.width) g.alloc bs
  { g with threads := mapFrom (fun k th => { th with v := rows.map (fun row => BitVec.ofNat 32 (field row (4 * k) 4)) }) 0 g.threads }

/-- The s registers; s0 stays zero (R70). -/
def Group.reloadS (bs : List Byte) (g : Group) : Group :=
  { g with s := (List.range 64).map (fun k => if k = 0 then 0 else BitVec.ofNat 64 (field bs (8 * k) 8)) }

/-- The threads' predicates; p0 stays 1. -/
def Group.reloadP (bs : List Byte) (g : Group) : Group :=
  { g with threads := mapFrom (fun k th =>
      { th with p := BitVec.ofNat 8 (1 + ((rangeFrom 1 7).map (fun n => fld (field bs (8 * n) 8) k 1 * 2 ^ n)).foldl (· + ·) 0) }) 0 g.threads }

/-- The queue contents. -/
def Group.reloadQ (xs : List (Nat × List Byte)) (at_ : Nat) (g : Group) : Group :=
  { g with q := mapFrom (fun n (q : Queue) => { q with slices := mapFrom (fun k (es : List (List Word)) =>
      mapFrom (fun i (e : List Word) => reloadBy xs (at_ + 64 * ((n * (g.width / 16) + k) * 16 + i))
        (fun bs _ => (List.range 16).map (fun m => BitVec.ofNat 32 (field bs (4 * m) 4))) e) 0 es) 0 q.slices }) 0 g.q }

/-- Group j as the context part holds it. -/
def Group.reload (xs : List (Nat × List Byte)) (l : Launch) (j : Nat) (g : Group) : Group :=
  let g := reloadBy xs (2048 + 1536 * j) Group.reloadPcs g
  let g := reloadBy xs (l.groupAt j) Group.reloadV g
  let g := reloadBy xs (l.groupAt j + l.groupLen - 1024) Group.reloadS g
  let g := reloadBy xs (l.groupAt j + l.groupLen - 512) Group.reloadP g
  g.reloadQ xs (l.groupAt j + l.vLen)

/-- A tile put in place of an AT's elements; the list stays rising, without +0. -/
def putTile (a : Nat) (bs : List Byte) (ats : List (Nat × Word)) : List (Nat × Word) :=
  ats.filter (fun c => decide (c.1 < 1024 * a)) ++
    ((mapFrom (fun e (w : List Byte) => (1024 * a + e, (BitVec.ofNat 32 (leNat w) : Word))) 0 (splitBytes 4 1024 bs)).filter
      (fun c => c.2 != 0)) ++
    ats.filter (fun c => decide (1024 * (a + 1) ≤ c.1))

/-- A team's leases as the context part holds their tiles and record contents. -/
def Team.reloadLeases (xs : List (Nat × List Byte)) (t : Team) : List Lease :=
  let tiles := mapFrom (fun k (x : Nat × Nat) => (65536 + 4096 * k, x)) 0 t.tileList
  let places := t.recPlaces
  t.leases.map (fun x =>
    { x with
      ats := (tiles.filter (fun y => y.2.1 == x.core)).foldl (fun ats y => reloadBy xs y.1 (putTile y.2.2) ats) x.ats
      recs := x.recs.map (fun r =>
        match places.find? (fun p => p.2.1 == x.core && p.2.2.handle == r.handle) with
        | none => r
        | some p =>
          match lookAt xs (196608 + 512 * p.1), lookAt xs (327680 + 512 * p.1) with
          | some a, some b => { r with image := a ++ b }
          | _, _ => r) })

/-- `STATUS` as the header holds it (R305). -/
def Team.reloadStatus (bs : List Byte) (t : Team) : Team :=
  let v := leNat bs
  { t with poisonSeen := v % 2 == 1, trapOnPoison := fld v 1 1 == 1, lastCause := fld v 8 8, poisonCnt := fld v 16 16 }

/-- Who reads a context part: the team's first group, by no word. -/
def readerOf (id : TeamId) : Issuer := ⟨id, 0, 0, 3, 0, 0⟩

/-- What a region was read as, put in its place. -/
def Team.reloadPart (xs : List (Nat × List Byte)) (imported : Bool) (t : Team) (r : Region_) : Team :=
  match lookAt xs r.off with
  | none => t
  | some bs =>
    let x := r.part.read (if imported then none else some r.used) bs
    match r.grp with
    | some j => { t with groups := modAt (fun g => g.putPart x) j t.groups }
    | none => t.putPart x

/-- A team reloaded from its context part (R311): first the regions whose encoding the spec does not give, which say what it has, then what
stands at places that follow from that. -/
def State.reload (s : State) (t : Team) (l : Launch) : State :=
  let base := va56 (l.region t.id.idx + l.ctxOff)
  let read (u : Nat) (ps : List (Nat × Nat)) (s : State) : State × List (Nat × List Byte) :=
    State.readBack (readerOf t.id) t.core t.space base u ps s
  let a := read 8 [(16, 8)] s
  let s1 := a.1.modTeam t.id (reloadBy a.2 16 Team.reloadStatus)
  let rs := t.regions l
  let c := read 4 (rs.map (fun r => (r.off, r.len))) s1
  let t1 := rs.foldl (Team.reloadPart c.2 t.imported) t
  let b := read 4 ((t1.pieces l).map (fun x => (x.1, x.2.length))) c.1
  b.1.modTeam t.id (fun t =>
    let t := rs.foldl (Team.reloadPart c.2 t.imported) t
    { t with groups := mapFrom (fun j g => Group.reload b.2 l j g) 0 t.groups, leases := t.reloadLeases b.2 })

/-- Whether bytes of a context part or of a shadow have still to reach their homes, or are held there: the team that they belong to is not
placed before (R163, R203, R310, R352). -/
def State.saveHeld (s : State) (t : Team) (l : Launch) : Bool :=
  let busy (va n : Nat) : Bool :=
    match s.xlatElem t.core t.space (va56 va) n .read with
    | .error _ => false
    | .ok ps => ps.any (fun p => s.partHeld p) || s.partPending ps
  busy (l.region t.id.idx + l.shadowOff) (l.ctxOff - l.shadowOff) || busy (l.region t.id.idx + l.ctxOff) l.ctxLen

end Sys2Proof.Machine
end

