-- ==== Sys2Proof/Machine/Place.lean ====
section
/-! DEFINITION. Placing teams on cores: what fits, allotment of granules, binding of groups, starting a team and
restoring a saved one (R15, R68, R69, R141 to R143, R218, R252, R253, R255, R280, R311). -/

namespace Sys2Proof.Machine

open Sys2Proof

/-! ## What a core has -/

/-- Vector register words of each lane slice that a pipe owns (R68). -/
def Core.pipeWords (c : Core) : Nat := if c.halfWidth then 4096 else 2048

/-- Group frames of a core (R18, R69). -/
def Core.frames (c : Core) : Nat := if c.halfWidth then 24 else 48

/-- The words a group takes in one lane slice (R68). -/
def Group.words (g : Group) : Nat := g.width / 16 * g.alloc

/-- Whether a group keeps its registers and its frame: it has not ended, or loads and other writes of it are in flight (R68, R120). -/
def State.keepsFrame (s : State) (gid : GrpId) (g : Group) : Bool :=
  !g.ended || g.spend.any (fun x => s.flights.any (fun f => f.id == x.2)) || (s.core g.core).loads.any (fun l => decide (l.grp = gid))

/-- The groups bound to a core: those of its teams that have not ended, with the writes that were in flight to them (R68, R120). -/
def State.bound (s : State) (core : Nat) : List Group :=
  (s.teams.filter (fun t => t.pinned)).flatMap (fun t =>
    ((t.grpIds.zip t.groups).filter (fun x => x.2.core == core && s.keepsFrame x.1 x.2)).map (·.2))

/-- The load of each pipe that groups may be bound to: its number, its groups, its words in use. -/
def State.pipeLoads (s : State) (core : Nat) : List (Nat × Nat × Nat) :=
  let gs := s.bound core
  (s.core core).pipes.map (fun k =>
    let mine := gs.filter (fun g => g.pipe == k)
    (k, mine.length, (mine.map Group.words).foldl (· + ·) 0))

/-- The pipe with the fewest groups; ties go to the lower pipe (R252). -/
def fewest : List (Nat × Nat × Nat) → Option (Nat × Nat × Nat)
  | [] => none
  | p :: ps =>
    match fewest ps with
    | none => some p
    | some q => if q.2.1 < p.2.1 then some q else some p

/-- Pipes for groups that need these words, one after the other (R68, R252). -/
def bindPipes (cap : Nat) : List Nat → List (Nat × Nat × Nat) → Option (List Nat)
  | [], _ => some []
  | n :: ns, ps =>
    match fewest (ps.filter (fun p => decide (p.2.1 < 12) && decide (p.2.2 + n ≤ cap))) with
    | none => none
    | some q =>
      (bindPipes cap ns (ps.map (fun p => if p.1 = q.1 then (p.1, p.2.1 + 1, p.2.2 + n) else p))).map (q.1 :: ·)

/-! ## Allotment of granules (R141) -/

/-- An allotment: the granules in the order taken, those of them that leave the L1, and `SCR` afterwards. -/
structure Allot where
  grans : List Nat
  fromL1 : List Nat
  scr : BitVec 20

/-- The granules of a partition that starts at granule `lo`. -/
def scrFrom (lo : Nat) : BitVec 20 := BitVec.ofNat 20 (2 ^ 20 - 2 ^ min lo 20)

/-- Frees the low end of the partition as far as granules are not in use. -/
def trimLow (busy : List Nat) : Nat → Nat → Nat
  | 0, lo => lo
  | k + 1, lo => if lo < 20 && !(busy.contains lo) then trimLow busy k (lo + 1) else lo

/-- The allotment of `n` granules on a core; none when the partition would exceed 16 granules. -/
def State.allotment (s : State) (core n : Nat) : Option Allot :=
  let c := s.core core
  let used := s.usedGrans core
  let have_ := (List.range 20).filter c.scr.getLsbD
  let lo := 20 - have_.length
  let free := (have_.filter (fun g => !(used.contains g))).reverse.take n
  let need := n - free.length
  if 16 < have_.length + need then none
  else
    let l1 := (rangeFrom (lo - need) need).reverse
    let lo' := trimLow (used ++ free ++ l1) 20 (lo - need)
    some { grans := free ++ l1, fromL1 := l1, scr := scrFrom lo' }

/-- The lines of a granule leave the L1: written back when dirty, then dropped (R142). -/
def State.leaveL1 (s : State) (core g : Nat) : State :=
  (((s.core core).tags.filter (fun x => x.gran == g)).map (·.line)).foldl (fun s l => s.dropLine core l) s

/-- An allotment made (R141, R142). -/
def State.applyAllot (s : State) (core : Nat) (a : Allot) : State :=
  (a.fromL1.foldl (fun s g => s.leaveL1 core g) s).modCore core (fun c => { c with scr := a.scr })

/-! ## What fits (R252) -/

/-- What one core must hold of a team. -/
structure Want where
  words : List Nat     -- of each group, per lane slice
  grans : Nat
  fullw : Bool
  parks : Nat
  leases : List Lease

/-- A core that the pool may use: of the partition, not disabled, not dead (R15, R366), at the width asked for (R19). -/
def State.usable (s : State) (core : Nat) (fullw : Bool) : Bool :=
  let c := s.core core
  decide (core < Config.cores) && s.hasWheel (wheelOf core) && !c.disabled && !c.dead && !(s.core (Config.cores + wheelOf core)).dead && !(fullw && c.halfWidth)

/-- Whether a core holds the matrix state of a saved team (R218). -/
def State.fitsMatrix (s : State) (core : Nat) (ls : List Lease) : Bool :=
  let half := (s.core core).halfWidth
  let sum (l : List Nat) : Nat := l.foldl (· + ·) 0
  decide (sum (ls.map (·.nAT)) ≤ s.freeTiles core) &&
    decide (s.usedRecs core + sum (ls.map (fun l => l.recs.length)) ≤ 16) &&
    decide (s.usedGran core + sum (ls.flatMap (fun l => l.recs.map (fun r => r.granules half))) ≤ 256)

/-- Whether a core can take its share of a team (R252). -/
def State.fits (s : State) (core : Nat) (w : Want) : Bool :=
  s.usable core w.fullw &&
    decide ((s.bound core).length + w.words.length ≤ (s.core core).frames) &&
    (bindPipes (s.core core).pipeWords w.words (s.pipeLoads core)).isSome &&
    (s.allotment core w.grans).isSome && s.fitsMatrix core w.leases &&
    decide ((s.core core).replay.length + w.parks ≤ Config.replayQ)

/-- The granules a window needs on each core of its team (R141): whole ones, and an even number for a pair. -/
def gransOf (window : Nat) (paired : Bool) : Nat :=
  let n := (window + 16383) / 16384
  if paired then (n + 1) / 2 else n

/-- The shares of a new team: one core's, or the two cores' of a pair (R252). -/
def Launch.wants (l : Launch) : List Want :=
  let need := l.width / 16 * allot l.vregs
  let g := gransOf l.window l.paired
  let w (n : Nat) : Want := { words := List.replicate n need, grans := g, fullw := l.fullw, parks := 0, leases := [] }
  if l.paired then [w (l.groups / 2), w (l.groups / 2)] else [w l.groups]

/-- The shares of a saved team (R218, R252, R311). -/
def Team.wants (t : Team) (l : Launch) : List Want :=
  let n := if t.paired then t.groups.length / 2 else t.groups.length
  let share (k : Nat) : Want :=
    let ids := rangeFrom (k * n) n
    { words := ((t.groups.drop (k * n)).take n).map (fun g => if g.ended then 0 else g.words)
      grans := gransOf t.wsize t.paired
      fullw := l.fullw
      parks := (t.sparks.filter (fun p => ids.contains p.grp.grp)).length
      leases := t.leases.filter (fun x => x.core == t.core + k) }
  if t.paired then [share 0, share 1] else [share 0]

/-- Whether a place, a core or the lower core of a pair, takes a team. -/
def State.fitsAt (s : State) (core : Nat) (ws : List Want) : Bool :=
  match ws with
  | [w] => s.fits core w
  | [a, b] => core % 2 == 0 && s.fits core a && s.fits (core + 1) b
  | _ => false

/-- The wheels in the order a pool searches (R252). -/
def State.searchOrder (s : State) (w : Nat) : List Nat :=
  ([0, 1, 5, 2, 4, 3].map (fun d => (w + d) % 6)).filter s.hasWheel

/-- The first place that takes a team, searched from a pool's wheel. -/
def State.findPlace (s : State) (wheel : Nat) (ws : List Want) : Option Nat :=
  (s.searchOrder wheel).findSome? (fun w => (rangeFrom (64 * w) 64).find? (fun c => s.fitsAt c ws))

/-- The first place of a vat that takes a team. -/
def State.findInVat (s : State) (vat : Nat) (ws : List Want) : Option Nat :=
  (rangeFrom (4 * vat) 4).find? (fun c => s.fitsAt c ws)

/-! ## Starting a team (R253) -/

/-- The allotments of a place's cores, made; the granules taken in window order (R143). -/
def State.takeGrans (s : State) (core : Nat) : List Want → State × List (Nat × Nat)
  | [] => (s, [])
  | w :: ws =>
    match s.allotment core w.grans with
    | some a =>
      let r := (s.applyAllot core a).takeGrans (core + 1) ws
      (r.1, a.grans.map (fun g => (core, g)) ++ r.2)
    | none => (s, [])

/-- The core and pipe of each group of a team at a place. -/
def State.bindings (s : State) (core : Nat) : List Want → List (Nat × Nat)
  | [] => []
  | w :: ws =>
    ((bindPipes (s.core core).pipeWords w.words (s.pipeLoads core)).getD []).map (fun k => (core, k)) ++
      s.bindings (core + 1) ws

/-- s1 to s6 of a group (R69). -/
def Launch.sregs (l : Launch) (id : TeamId) (j : Nat) : List Reg :=
  [l.args, id.node, id.idx, j, l.window,
    if l.privw = 0 then 0 else va56 (l.region id.idx + j * l.privStride)].map (BitVec.ofNat 64)

/-- The acquire of a start on the cores of a place (R166, R174, R253). -/
def State.acqCores (s : State) (core : Nat) (paired : Bool) : State :=
  let s := s.acqSelf core
  if paired then s.acqSelf (core + 1) else s

/-- A team started at a place (R253, R280). -/
def State.startTeam (s : State) (id : TeamId) (l : Launch) (core : Nat) : State :=
  let ws := l.wants
  let bs := s.bindings core ws
  let r := s.takeGrans core ws
  let gs := mapFrom (fun j (b : Nat × Nat) =>
    Group.fresh b.1 b.2 l.width (allot l.vregs) (BitVec.ofNat 56 l.body) (l.sregs id j) s.cycle) 0 bs
  let t := Team.fresh id core l.paired l.space gs l.window r.2 l.trapOnPoison s.cycle
  ({ r.1 with teams := r.1.teams ++ [t] }).acqCores core l.paired

/-! ## Restoring a saved team (R130, R218, R240, R311) -/

/-- A group as it resumes: bound anew, its paths as old as they were, its wait counts zero, its loop buffers empty, the broadcast address at the path of
its lowest-numbered runnable thread, or still at its handler (R122, R130, R309, R311). -/
def Group.resume (g : Group) (b : Nat × Nat) (cycle : Nat) : Group :=
  let g := { g with core := b.1, pipe := b.2, lastIssue := cycle, packet := none, stream := [], yielded := false, diverged := false,
                    paths := g.paths.map (fun (r : PathRec) => { r with wait := 0, due := none }) }
  ({ g.killLatches with cur := (Mask.list g.eligible g.width).head?.map (fun t => (g.thread t).pc) }).syncPaths cycle

/-- A team that its context part has been reloaded into, placed: granules, pages pinned from the shadow, groups bound, leases laid
out, channels running at their records, replay entries parked again, streams resumed. -/
def State.placeSaved (s : State) (t : Team) (l : Launch) (core : Nat) : State :=
  let ws := t.wants l
  let bs := s.bindings core ws
  let win := (List.range t.wsize).foldl (fun (m : Memory) k => m.write k (s.winByte t k)) []
  let r := s.takeGrans core ws
  let gs := mapFrom (fun _ (x : Group × (Nat × Nat)) => x.1.resume x.2 s.cycle) 0 (t.groups.zip bs)
  let half (c : Nat) : Bool := (s.core c).halfWidth
  let ls := t.leases.map (fun x =>
    let c := core + (x.core - t.core)
    { x with core := c, since := none, recs := x.recs.map (fun y => { y with gran := y.granules (half c) }) })
  let s := r.1.modTeam t.id (fun t =>
    { t with
      core := core
      groups := gs
      win := win
      winBad := (List.range t.wsize).filter (fun k => s.winBadIn t.id k 1)
      grans := r.2
      leases := ls
      loc := .resident
      placedAt := s.cycle
      preempt := false
      saver := none
      imported := false
      sparks := []
      sloads := []
      sstreams := []
      sranges := [] })
  let coreOf (n : Nat) : Nat := ((gs[n]?).map (fun (g : Group) => g.core)).getD core
  let s := t.sparks.foldl (fun s p => s.modCore (coreOf p.grp.grp) (fun c => { c with replay := c.replay ++ [p] })) s
  let s := t.sloads.foldl (fun s p => s.modCore (coreOf p.grp.grp) (fun c => { c with loads := c.loads ++ [p] })) s
  let s := t.sstreams.foldl (fun s p => s.modCore (coreOf p.grp.grp) (fun c => { c with streams := c.streams ++ [p] })) s
  let s := t.sranges.foldl (fun s e => s.modCore (core + e.1) (fun c => { c with ranges := c.ranges ++ [e.2] })) s
  let now := { t with core := core, leases := ls }
  let s := { s with subs := s.subs.map (fun (x : Sub) => if x.team = t.id then { x with core := now.coreAt x.off } else x) }
  let s := (List.range 4).foldl (fun s ch => if (t.chan ch).st = 1 then s.ringAdd now ch else s) s
  let s := t.events.foldl (fun s v => s.modGrp t.eventGroup (fun g => g.pend (outerTrap 15 v))) s
  let s := s.modTeam t.id (fun t => { t with events := [] })
  let s := (List.range gs.length).foldl (fun s j =>
    s.modGrp ⟨t.id, j⟩ (fun g =>
      if g.trapMask.isSome then g
      else ((((s.core g.core).parksOf ⟨t.id, j⟩).foldl (fun (g : Group) p => g.pend p.trap) g)))) s
  (s.acqCores core t.paired).switched t.id

/-- A saved team restored at a place: reloaded from its context part, and placed (R311). -/
def State.restoreTeam (s : State) (t : Team) (l : Launch) (core : Nat) : State :=
  let s1 := s.reload t l
  match s1.team? t.id with
  | some t1 => s1.placeSaved t1 l core
  | none => s1

end Sys2Proof.Machine
end

