-- ==== Sys2Proof/Machine/Launch.lean ====
section
/-! DEFINITION. Launch records, code objects, their signatures, the checks at launch and the entry of a node into a wheel
pool (R247, R250, R253, R255, R268 to R278, R355, R371). -/

namespace Sys2Proof.Machine

open Sys2Proof

/-! ## The device stamp and signatures -/

/-- The device stamp (R272): `CAP0` with `STEP` cleared, `CAP1` and `CAP3` under SHA-384, bytes 0 to 7. -/
def State.stamp (s : State) : Nat :=
  let c0 := s.cap0.toNat - fld s.cap0.toNat 32 8 * 2 ^ 32
  leNat ((sha384 (leBytes 8 c0 ++ leBytes 8 s.cap1.toNat ++ leBytes 8 s.cap3.toNat)).take 8)

/-- The 128 KiB frames that hold an object, where every page of it is mapped. -/
def State.framesOf (s : State) (core space va n : Nat) : Option (List Nat) :=
  match s.xlatElem core space va n .read with
  | .ok ps => some ((ps.map (fun p => s.fwd p.x.pa / 2 ^ 17)).eraseDups)
  | .error _ => none

/-- Whether a signature block signs some bytes under a key of the store (R274, R369). -/
def State.signed (s : State) (sig bs : List Byte) : Bool :=
  match s.keys.find? (fun k => k.id == field sig 0 8) with
  | none => false
  | some k =>
    allZero sig 104 24 && ecdsaOk (k.x, k.y) (sha384 bs) (beNat ((sig.drop 8).take 48)) (beNat ((sig.drop 56).take 48))

/-- The signature of an object verified, or the result kept of it, which stands until its pages are written or unmapped
(`State.unverify`, `Shoot.unmaps`) or its key is revoked (R274, R369). An object that cannot be read whole does not verify. -/
def State.verify (s : State) (by_ : Issuer) (core space code sigoff : Nat) : State × Bool :=
  match s.framesOf core space code (sigoff + 128) with
  | none => (s, false)
  | some fs =>
    match s.verified.find? (fun v => v.space == space && v.code == code && v.len == sigoff && v.pages == fs) with
    | some v => (s, v.ok)
    | none =>
      match s.readVA by_ core space (va56 (code + sigoff)) 128 with
      | .error _ => (s, false)
      | .ok r =>
        match r.1.readVA by_ core space code sigoff with
        | .error _ => (r.1, false)
        | .ok m =>
          let v : Verified :=
            { space := space, code := code, len := sigoff, key := field r.2 0 8, digest := beNat (sha384 m.2),
              ok := m.1.signed r.2 m.2, pages := fs }
          ({ m.1 with verified := v :: m.1.verified }, v.ok)

/-- A body becomes a registered system code segment (R275). -/
def State.register (s : State) (space body len : Nat) : State :=
  let x : Segment := { space := some space, body := body, len := len }
  if s.segments.contains x then s else { s with segments := s.segments ++ [x] }

/-- Whether a handle names a registered segment (R275). -/
def State.registered (s : State) (h : Nat) : Bool :=
  (s.segments ++ s.defaultSeg.toList).any (fun x => x.body + 1 == h)

/-! ## What an empty partition holds (R253, R345) -/

/-- The teams, each of one share, that a core holds when it is empty (R18, R68, R141). -/
def State.teamsOn (s : State) (core : Nat) (w : Want) : Nat :=
  let c := s.core core
  if !s.usable core w.fullw || w.words.isEmpty then 0
  else
    let need := w.words.headD 0
    let per := if need = 0 then 12 else min 12 (c.pipeWords / need)
    let n := min (c.pipes.length * per) c.frames / w.words.length
    if w.grans = 0 then n else min n (16 / w.grans)

/-- The teams that a place holds when it is empty. -/
def State.teamsAt (s : State) (core : Nat) (ws : List Want) : Nat :=
  match ws with
  | [w] => s.teamsOn core w
  | [a, b] => if core % 2 = 0 then min (s.teamsOn core a) (s.teamsOn (core + 1) b) else 0
  | _ => 0

/-- The teams that a vat holds when it is empty. -/
def State.teamsInVat (s : State) (vat : Nat) (ws : List Want) : Nat :=
  ((rangeFrom (4 * vat) 4).map (fun c => s.teamsAt c ws)).foldl (· + ·) 0

/-- Whether a node fits the empty partition: one team of it, and for a `det` node all of them at once. -/
def State.fitsEmpty (s : State) (l : Launch) : Bool :=
  let ws := l.wants
  let cap := ((List.range Config.cores).map (fun c => s.teamsAt c ws))
  if l.det && l.gang then
    let vats := (List.range Config.vats).map (fun v => s.teamsInVat v ws)
    let quads := l.teams / 4
    let rest := l.teams % 4
    decide (quads ≤ (vats.filter (fun n => decide (4 ≤ n))).length) &&
      (rest == 0 || decide (quads + 1 ≤ (vats.filter (fun n => decide (rest ≤ n))).length))
  else if l.det then decide (l.teams ≤ cap.foldl (· + ·) 0)
  else cap.any (fun n => decide (0 < n))

/-! ## The checks (R278) -/

/-- What the checks of a launch find: a refusal with its reason, a failed walk, or the launch record resolved. -/
inductive Checked where
  | refuse (s : State) (reason : Nat)
  | fault (s : State) (e : PFault) (va : Nat)
  | ok (s : State) (l : Launch)

/-- Reason 1: a field of the record (R269). -/
def recBadFields (r : List Byte) : Bool :=
  let f := field r
  let lr2 := f 0 2 == 2
  (f 0 2 != 1 && !lr2) || f 2 2 / 2 ^ 6 != 0 || !allZero r 59 5 || (lr2 && !allZero r 82 46) || f 4 4 == 0 ||
    decide (2 ^ 24 ≤ f 4 4) || decide (4095 < f 30 2) || decide (4096 < f 28 2) ||
    !(f 56 1 == 0 || (decide (0x80 ≤ f 56 1) && decide (f 56 1 ≤ 0x87))) || decide (64 < f 57 1) || decide (15 < f 58 1)

/-- Reason 2: a misaligned address (R269). -/
def recMisaligned (r : List Byte) : Bool :=
  let f := field r
  f 8 8 % 128 != 0 || f 16 8 % 128 != 0 || f 32 8 % 4096 != 0 || f 40 8 % 16 != 0 || f 48 8 % 16 != 0

/-- Reason 3: the header's form (R271). -/
def headBad (h : List Byte) : Bool :=
  let f := field h
  f 0 4 != 0x424F485A || f 4 2 != 1 || f 6 2 == 0 || decide (8 < f 6 2) || !allZero h 41 3 || !allZero h 56 72

/-- An entry of the body table: stamp, offset, length, flags. -/
structure Body where
  stamp : Nat
  off : Nat
  len : Nat
  flags : Nat

/-- The body table. -/
def bodies (t : List Byte) (n : Nat) : List Body :=
  (List.range n).map (fun i =>
    ⟨field t (32 * i) 8, field t (32 * i + 8) 8, field t (32 * i + 16) 8, field t (32 * i + 24) 8⟩)

/-- Reason 4: a header value out of range (R271). -/
def headRange (h : List Byte) (scrkib : Nat) : Bool :=
  let f := field h
  decide (96 < f 32 1) || !([16, 32, 64].contains (f 33 1)) || f 34 1 == 0 || decide (16 < f 34 1) ||
    decide (15 < f 35 1) || decide (512 < f 36 2) || f 38 1 == 0 || decide (64 < f 38 1) || f 39 1 == 0 ||
    decide (15 < f 39 1) || decide (7 < f 40 1) || decide (65536 < f 44 4) || decide (512 < scrkib)

/-- The launch as the record and header resolve it (R269, R270, R271). -/
def launchOf (r h : List Byte) (b : Body) : Launch :=
  let f := field r
  let g := field h
  let lr2 := f 0 2 == 2
  let fl := Nat.lor (g 35 1) (f 2 2 % 16)
  let kib := if lr2 && f 80 2 != 0 then f 80 2 else g 36 2
  { lr2 := lr2, gang := fl.testBit 0, nofair := fl.testBit 1, det := fl.testBit 2, fullw := fl.testBit 3,
    paired := (f 2 2).testBit 4 || decide (256 < kib), trapOnPoison := (f 2 2).testBit 5, teams := f 4 4,
    body := va56 (f 8 8 + b.off), blen := b.len, args := f 16 8, savestr := f 24 4, privw := f 28 2, space := f 30 2,
    save := f 32 8, dep := if f 40 8 = 0 then none else some (f 40 8), done := if f 48 8 = 0 then none else some (f 48 8), prio := if f 56 1 = 0 then g 40 1 else f 56 1 % 8,
    lease := if f 57 1 = 0 then g 38 1 else f 57 1, weight := if f 58 1 = 0 then g 39 1 else f 58 1,
    trapSeg := if lr2 && f 64 8 != 0 then some (f 64 8) else none, vregs := g 32 1, width := g 33 1,
    groups := g 34 1, window := kib * 1024 }

/-- Reasons 8 to 11, of a launch whose body is selected. -/
def State.lateReason (s : State) (l : Launch) (capreq : Nat) : Option Nat :=
  let fullw := fld s.cap2.toNat 9 9
  let vats := 16 * s.wheelList.length
  if Nat.land capreq (2 ^ 64 - 1 - s.cap1.toNat) ≠ 0 || (l.fullw && fullw == 0) ||
      (l.gang && (l.paired || decide (vats < (l.teams + 3) / 4))) then some 8
  else if l.savestr * 4096 < l.ctxOff + l.ctxLen then some 9
  else if (match l.trapSeg with | some h => !s.registered h | none => false) then some 10
  else if !s.fitsEmpty l then some 11
  else none

/-- Bytes of memory as they stand; none when they cannot be read. -/
def State.readImage (s : State) (core space base n : Nat) : Option (List Byte) :=
  match s.xlatElem core space base n .read with
  | .ok ps => some (s.engineRead ps).1
  | .error _ => none

/-- A launch whose checks have to wait for what holds a byte of its object: the header, the body table, and, of a system object, all that
its signature covers (R203, R274). -/
def State.launchHeld (s : State) (core : Nat) (r : List Byte) : Bool :=
  let f := field r
  let code := va56 (f 8 8)
  !recBadFields r && !recMisaligned r && (s.vaHeld core (f 30 2) code 128 .read ||
    (match s.readImage core (f 30 2) code 128 with
    | some h => s.vaHeld core (f 30 2) code (max (128 + 32 * field h 6 2) (if field h 24 8 = 0 then 0 else field h 24 8 + 128)) .read
    | none => false))

/-- The checks of a launch but for its counters, in the order of R278. `core` is the agent that walks. -/
def State.checkLaunch (s : State) (by_ : Issuer) (core : Nat) (r : List Byte) : Checked :=
  let f := field r
  let space := f 30 2
  let code := va56 (f 8 8)
  let lr2 := f 0 2 == 2
  if recBadFields r then .refuse s 1
  else if recMisaligned r then .refuse s 2
  else
    match s.readVA by_ core space code 128 with
    | .error e => .fault s e code
    | .ok (s, h) =>
      if headBad h then .refuse s 3
      else
        match s.readVA by_ core space (va56 (code + 128)) (32 * field h 6 2) with
        | .error e => .fault s e (s.failVA core space (code + 128) (32 * field h 6 2) .read)
        | .ok (s, tab) =>
          let bs := bodies tab (field h 6 2)
          if bs.any (fun b => b.off % 128 != 0 || b.len % 16 != 0 || b.flags / 2 != 0) then .refuse s 3
          else if headRange h (if lr2 then f 80 2 else 0) then .refuse s 4
          else
            let kib := if lr2 && f 80 2 != 0 then f 80 2 else field h 36 2
            if (((f 2 2).testBit 4 || decide (256 < kib)) && field h 34 1 % 2 == 1) || decide (512 < kib) then .refuse s 5
            else
              let want := s.stamp
              match bs.find? (fun b => b.stamp == want) with
              | none => .refuse s 6
              | some b =>
                let l := launchOf r h b
                let sys := b.flags == 1
                let v := if sys && field h 24 8 != 0 && decide (1936 ≤ b.len) then
                    s.verify by_ core space code (field h 24 8)
                  else (s, !sys)
                if !v.2 then .refuse v.1 7
                else
                  let s := if sys then v.1.register space l.body l.blen else v.1
                  match s.lateReason l (if lr2 then f 72 8 else 0) with
                  | some k => .refuse s k
                  | none => .ok s l

/-! ## Entry into a pool (R247, R250, R371) -/

/-- Whether a wheel's pool has a free entry (R247). -/
def State.poolFree (s : State) (wheel : Nat) : Bool :=
  decide ((s.nodes.filter (fun n => n.wheel == wheel && !n.ending)).length < Config.poolEntries)

/-- The next instance id of a pool (R247). -/
def State.nextId (s : State) (wheel : Nat) : Nat :=
  let c := (s.wheel wheel).poolCount
  wheel * 2 ^ 29 + (if 2 ^ 29 - 1 ≤ c then 1 else c + 1)

/-- A counter of a launch translated and checked: its physical address, none for none. -/
inductive CtrRes where
  | ok (pa : Option Nat)
  | bad
  | fault (e : PFault) (va : Nat)

/-- The counter at a virtual address, if there is one (R250, R371); of a poisoned page, what stands for it (`ctrLeaf`, R189). -/
def State.ctrAt (s : State) (core space : Nat) : Option Nat → CtrRes
  | none => .ok none
  | some va =>
    match s.translate core space (va56 va) .write with
    | .error e => .fault e (va56 va)
    | .ok x =>
      if x.memside || (!x.poison && s.ctrReserved x.pa) then .bad else .ok (some (ctrLeaf core x))

/-- What the entry of a node gives. -/
inductive EnterRes where
  | refuse (reason : Nat)
  | fault (e : PFault) (va : Nat)
  | busy
  | ok (s : State) (id : Nat)

/-- A node entered in a wheel's pool: its counters registered, then its context looked for (R250, R355). A `DEPCTR` on a poisoned
page reads 0 there, which is counted, and the node is ready at once (R189). -/
def State.enterNode (s0 : State) (core wheel : Nat) (l : Launch) : EnterRes :=
  match s0.ctrAt core l.space l.dep with
  | .fault e va => .fault e va
  | .bad => .refuse 12
  | .ok at_ =>
    match s0.ctrAt core l.space l.done with
    | .fault e va => .fault e va
    | .bad => .refuse 12
    | .ok done =>
      let onPoison := at_.filter (fun a => decide (poisonPA ≤ a))
      let dep := at_.filter (fun a => decide (a < poisonPA))
      let s := match onPoison with
        | some a => s0.count (a - poisonPA) 0x47 1
        | none => s0
      if dep.any s.ctrBusy then .busy
      else if dep.any (fun a => s.ctrWaiter a != 0) then .refuse 12
      else if !(s.contexts.any (fun c => c.space == l.space)) then .refuse 13
      else
        let id := s.nextId wheel
        let wait := dep.filter (fun a => s.ctrCount a != 0)
        let s1 := match wait with
          | some a => s.homeWriteL 0 (a + 8) (leBytes 4 id)
          | none => s
        let n : Node :=
          { id := id, wheel := wheel, l := { l with dep := dep, done := done }, ready := wait.isNone, readyAt := s.cycle,
            next := 0, left := l.teams, vats := [], ending := false, quanta := 0, phase := 0, mark := 0 }
        .ok ({ s1 with nodes := s1.nodes ++ [n] }.modWheel wheel (fun w => { w with poolCount := id % 2 ^ 29 })) id

/-- The pool's `ICINV` over a node's body, at device scope, before its first team starts (R183, R262). A page of it whose walk fails is
passed over, whatever the failure: no rule says what becomes of one (DESIGN CHOICE, notes/assumptions/43.md). -/
def State.icinvBody (s : State) (wheel : Nat) (l : Launch) : State :=
  let pages := splitParts (l.blen / 4096 + 2) l.body l.blen
  let lines := pages.flatMap (fun p =>
    match s.translate (Config.cores + wheel) l.space p.1 .maint with
    | .ok x => (rangeFrom (lineOf x.pa) (lineOf (x.pa + p.2 - 1) - lineOf x.pa + 1)).map (fun n => lineOf (s.fwd (n * 128)))
    | .error _ => [])
  { s with cores := s.cores.map (fun c => { c with icache := c.icache.filter (fun e => !(lines.contains e.1)) }) }

end Sys2Proof.Machine
end

