-- ==== Sys2Proof/Machine/MemSide.lean ====
section
/-! DEFINITION. Memory-side reduction in the stack base dies: commands, line jobs, completion counters, and the `MS`
family (R281 to R295). -/

namespace Sys2Proof.Machine

open Sys2Proof

/-! ## Commands -/

/-- The bytes a command of `np` + 1 pairs takes, up to the next command (R283). -/
def cmdLen (np : Nat) : Nat := 32 * ((32 + 8 * (np + 1) + 31) / 32)

/-- A command read from its bytes (R283). -/
def msSpecOf (atom : Bool) (bs : List Byte) : MsSpec :=
  let f := field bs
  let cfg := f 23 1
  { atom := atom, row := f 0 8, tbl := f 8 8, stride := f 16 4, len := f 20 2 + 1, zero := cfg.testBit 0,
    sfmt := cfg.testBit 1, ctgt := fld cfg 2 2, tc := cfg.testBit 4, op := fld cfg 5 3, tctr := f 24 8,
    pairs := (List.range (f 22 1 % 16 + 1)).map (fun p => (f (32 + 8 * p) 4, BitVec.ofNat 32 (f (36 + 8 * p) 4))) }

/-- Whether a command is ill formed (R284). -/
def msBad (x : MsSpec) (bs : List Byte) : Bool :=
  let es := if x.sfmt then 2 else 4
  let rowAl := if x.atom then es else 4
  decide (4096 < x.len) || decide (15 < field bs 22 1) || (if x.atom then decide (3 < x.op) else x.op != 0) ||
    x.pairs.any (fun p => decide (2 ^ 22 ≤ p.1)) || (x.tc == (x.tctr == 0)) || x.row % rowAl != 0 ||
    x.tbl % es != 0 || x.stride % es != 0 || (x.atom && x.pairs.any (fun p => (x.tbl + p.1 * x.stride) % 4 != 0)) ||
    (x.op != 0 && (x.sfmt || x.pairs.any (fun p => p.2 != 0))) || x.tctr % 16 != 0

/-- Bytes of a window that a word cannot read yet: a range scoreboard entry covers them, or their shadow's home holds their lines
(R148, R152). -/
def State.scrBusy (s : State) (a : ScrAt) (n : Nat) : Bool := s.inRange a.team a.off n || s.winHeld a.team a.off n

/-- The commands of a word read from the window, header by header: the trap's cause and address, or none while a command's bytes
cannot be read yet (R152, R292); an uncorrectable word of them reads zero (R363). -/
def State.readCmds (s : State) (id : TeamId) (atom : Bool) :
    Nat → Nat → Except (Option (Nat × Nat)) (State × List (MsSpec × List Byte))
  | 0, _ => .ok (s, [])
  | n + 1, addr =>
    match s.scrAt id addr 32 with
    | .error c => .error (some (c, addr))
    | .ok a =>
      if s.scrBusy a 32 then .error none
      else
        let np := field (s.winRead a.team a.off 32) 22 1 % 16
        match s.scrAt id addr (32 + 8 * (np + 1)) with
        | .error c => .error (some (c, addr))
        | .ok a =>
          if s.scrBusy a (32 + 8 * (np + 1)) then .error none
          else
            let b := s.winBlock s.issuer a.team a.off (32 + 8 * (np + 1))
            match b.1.readCmds id atom n (addr + cmdLen np) with
            | .error c => .error c
            | .ok r => .ok (r.1, (msSpecOf atom b.2, b.2) :: r.2)

/-! ## Translation and line jobs (R285, R286, R289) -/

/-- The physical and virtual addresses of byte `off` of some translated parts. -/
def partAt : List Part → Nat → Nat × Nat
  | [], _ => (poisonPA, 0)
  | p :: ps, off =>
    if off < p.n then (if p.x.poison then poisonPA else p.x.pa + off, p.va + off) else partAt ps (off - p.n)

/-- A source element of a line job: byte `off` of some parts, with its weight. -/
def jobSrc (ps : List Part) (off : Nat) (w : Word) : JobSrc := ⟨(partAt ps off).1, (partAt ps off).2, w, none⟩

/-- An element of a line job: byte `off` of some parts, from its sources. -/
def jobAt (ps : List Part) (off : Nat) (srcs : List JobSrc) : JobElem := ⟨(partAt ps off).1, (partAt ps off).2, srcs⟩

/-- Why a command cannot be sent: cause, detail, level, address, and whether the access was a write. -/
structure MsFault where
  cause : Nat
  detail : Nat
  level : Nat
  addr : Nat
  write : Bool

/-- The parts of a row translated in order: each must lie in a `MEMSIDE` page (R289, R312). -/
def State.msParts (s : State) (core space : Nat) (acc : Acc) : List (Nat × Nat) → Except MsFault (List Part)
  | [] => .ok []
  | p :: ps =>
    match s.translate core space p.1 acc with
    | .error e => .error ⟨8, e.detail, e.level, p.1, acc == .write⟩
    | .ok x =>
      if !x.memside then .error ⟨11, 0, 0xFF, p.1, acc == .write⟩
      else
        match s.msParts core space acc ps with
        | .error e => .error e
        | .ok l => .ok (⟨x, p.1, p.2⟩ :: l)

/-- A row translated. -/
def State.msRow (s : State) (core space va n : Nat) (acc : Acc) : Except MsFault (List Part) :=
  s.msParts core space acc (splitParts (n / 4096 + 2) (va56 va) n)

/-- Rows translated, one after the other. -/
def State.msRows (s : State) (core space n : Nat) (acc : Acc) : List Nat → Except MsFault (List (List Part))
  | [] => .ok []
  | va :: vas =>
    match s.msRow core space va n acc with
    | .error e => .error e
    | .ok ps =>
      match s.msRows core space n acc vas with
      | .error e => .error e
      | .ok l => .ok (ps :: l)

/-- The task counter of a command translated, where it has one; it must not lie in a `MEMSIDE` page. -/
def State.msCtr (s : State) (core space : Nat) (x : MsSpec) : Except MsFault (Option Nat) :=
  if !x.tc then .ok none
  else
    match s.translate core space (va56 x.tctr) .write with
    | .error e => .error ⟨8, e.detail, e.level, va56 x.tctr, false⟩
    | .ok y => if y.memside then .error ⟨11, 0, 0xFF, va56 x.tctr, false⟩ else .ok (some (ctrLeaf core y))

/-- Consecutive elements grouped by the line of their destination (R285, R286). -/
def byLine : List JobElem → List (List JobElem)
  | [] => []
  | e :: es =>
    match byLine es with
    | (f :: g) :: r => if lineOf f.dst = lineOf e.dst then (e :: f :: g) :: r else [e] :: (f :: g) :: r
    | r => [e] :: r

/-- The element lists of a command's line jobs, in the order they are sent (R285 to R287). -/
def cmdJobs (x : MsSpec) (row : List Part) (rows : List (List Part)) : List (List JobElem) :=
  let es := if x.sfmt then 2 else 4
  let elems := List.range x.len
  if x.atom then
    (rows.zip x.pairs).flatMap (fun y =>
      byLine (elems.map (fun e => jobAt y.1 (4 * e) [jobSrc row (es * e) y.2.2])))
  else
    byLine (elems.map (fun e =>
      jobAt row (4 * e) ((rows.zip x.pairs).map (fun y => jobSrc y.1 (es * e) y.2.2))))

/-- A command translated: its line jobs and its task counter's physical address. -/
def State.xlatCmd (s : State) (core space : Nat) (x : MsSpec) : Except MsFault (List (List JobElem) × Option Nat) :=
  let es := if x.sfmt then 2 else 4
  let rowN := x.len * (if x.atom then es else 4)
  let tblN := x.len * (if x.atom then 4 else es)
  match s.msRow core space (va56 x.row) rowN (if x.atom then .read else .write) with
  | .error e => .error e
  | .ok row =>
    match s.msRows core space tblN (if x.atom then .write else .read) (x.pairs.map (fun p => va56 (x.tbl + p.1 * x.stride))) with
    | .error e => .error e
    | .ok rows =>
      match s.msCtr core space x with
      | .error e => .error e
      | .ok c => .ok (cmdJobs x row rows, c)

/-- Whether the queues of their channels have room for some line jobs (R281). -/
def State.jobRoom (s : State) (js : List (List JobElem)) : Bool :=
  let chan (es : List JobElem) : Nat := chanOf ((es.headD ⟨0, 0, []⟩).dst)
  js.all (fun es => decide ((s.jobs.filter (fun j => j.chan == chan es)).length +
    (js.filter (fun y => chan y == chan es)).length ≤ Config.jobQueue))

/-- A command's jobs sent to their channels (R281, R287). -/
def State.sendJobs (s : State) (id : Nat) (by_ : Issuer) (core : Nat) (dest : MsDest) (x : MsSpec)
    (js : List (List JobElem)) (tctr : Option Nat) : State :=
  let jobs : List Job := js.map (fun es =>
    { chan := chanOf ((es.headD ⟨0, 0, []⟩).dst), cmd := id, atom := x.atom, zero := x.zero, sfmt := x.sfmt, op := x.op,
      elems := es })
  let c : MsCmd := { id := id, by_ := by_, dest := dest, tctr := tctr, left := jobs.length, core := core }
  { s with cmds := s.cmds ++ [c], jobs := s.jobs ++ jobs }

/-- A command that cannot be translated parks whole, and its trap is pending (R289). -/
def State.parkCmd (s : State) (c : CmdWait) (f : MsFault) : State :=
  let p : Park :=
    { id := c.id, grp := ⟨c.by_.team, c.by_.grp⟩, pc := c.by_.pc, word := c.by_.word, slot := c.by_.slot, beat := 0,
      kind := .cmd c.spec (.counter c.spec.ctgt), elems := [], load := 0, hint := false, mask := c.by_.mask,
      cause := f.cause, addr := f.addr, detail := f.detail, level := f.level, flags := if f.write then 16 else 0 }
  let s := s.modCore c.core (fun k => { k with replay := k.replay ++ [p] })
  s.modGrp ⟨c.by_.team, c.by_.grp⟩ (fun g => g.pend p.trap)

/-- Whether an `MSFENCE` still holds a group's memory-side commands: for what is parked, or for a store of it, replayed, that its home
holds (R295, R352); a handler's are not held by what it has to replay (R165,
notes/assumptions/49.md). -/
def State.sendHeld (s : State) (g : Group) (inTrap : Bool) : Bool :=
  !(inTrap && g.trapMask.isSome) && ((s.core g.core).replay.any (fun p => g.hold.send.contains p.id) ||
    (!g.hold.send.isEmpty && s.stackHeldBy g.core))

/-- A walk for a row of a command, or for its task counter, has to wait for a line that its home does not serve (R199, R203). -/
def State.cmdWalks (s : State) (core space : Nat) (x : MsSpec) : Bool :=
  (x.row :: (x.pairs.map (fun p => x.tbl + p.1 * x.stride)) ++ (if x.tc then [x.tctr] else [])).any (fun a => s.walkWaits core space (va56 a))

/-- A queued command whose jobs find a channel's queue full, so that its sender stalls, or whose walks wait (R20, R203, R281). -/
def State.cmdStuck (s : State) (c : CmdWait) : Bool :=
  match s.team? c.by_.team with
  | some t =>
    s.cmdWalks c.core t.space c.spec ||
    match s.xlatCmd c.core t.space c.spec with
    | .ok (js, _) => !s.jobRoom js
    | .error _ => false
  | none => false

/-- Whether an earlier command of a command's group is stuck: order is kept (R287). -/
def State.behindStuck (s : State) (c : CmdWait) : Bool :=
  s.cmdWaits.any (fun x => decide (x.id < c.id) && decide (x.by_.team = c.by_.team) && x.by_.grp == c.by_.grp && s.cmdStuck x)

/-- Whether a key lookup operation of a group, queued before a command, has still to send its own (R333, R334). -/
def State.klBefore (s : State) (c : CmdWait) : Bool :=
  let mine (b : Issuer) : Bool := decide (b.team = c.by_.team) && b.grp == c.by_.grp
  s.vats.any (fun v =>
    v.klq.any (fun o => mine o.by_ && decide (o.id < c.id) && (o.grad || !o.nogather)) || v.sends.any (fun x => mine x.by_ && decide (x.id < c.id)))

/-- A command of a served key lookup operation sent, where its channels have room (R281, R333). The last one leaves its tag at the memory
side (R342). -/
def State.klPush (s : State) (vat : Nat) (x : KlSend) : State :=
  if (s.vat vat).sends.head?.map (·.id) = some x.id ∧ s.jobRoom x.jobs then
    let s1 := s.modVat vat (fun v => { v with sends := v.sends.drop 1 })
    let s2 := s1.sendJobs x.id x.by_ x.core (.kl x.tag) x.spec x.jobs none
    if (s2.vat vat).sends.any (fun y => decide (y.team = x.team) && y.tag == x.tag) then s2
    else s2.modTeam x.team (fun t => { t with kl := modAt (fun y => { y with st := 3 }) x.tag t.kl })
  else s

/-- Every command of a vat's engine that can be sent, in order. -/
def State.klPushes (s : State) (vat : Nat) : State := (s.vat vat).sends.foldl (fun s x => s.klPush vat x) s

/-- A queued command sent, parked, or left waiting (R289, R292). One that would park in trap mode is a double trap (R299). -/
def State.pumpCmd (s : State) (c : CmdWait) : State :=
  match s.team? c.by_.team, s.grp? ⟨c.by_.team, c.by_.grp⟩ with
  | some t, some g =>
    if s.sendHeld g c.inTrap || !t.pinned || s.klBefore c || s.behindStuck c || s.cmdWalks c.core t.space c.spec then s
    else
      let rest := { s with cmdWaits := s.cmdWaits.filter (fun x => x.id != c.id) }
      match s.xlatCmd c.core t.space c.spec with
      | .ok (js, ctr) => if s.jobRoom js then rest.sendJobs c.id c.by_ c.core (.counter c.spec.ctgt) c.spec js ctr else s
      | .error f =>
        if c.inTrap && g.trapMask.isSome then rest.teamLost t.id g.trapCause f.cause
        else if Config.replayQ ≤ (s.core c.core).replay.length then s else rest.parkCmd c f
  | _, _ => s

/-- Every queued command that can be sent or parked, in order. -/
def State.pump (s : State) : State :=
  let s1 := s.vats.foldl (fun s v => if v.sends.isEmpty then s else s.klPushes v.num) s
  s1.cmdWaits.foldl (fun s c => s.pumpCmd c) s1

/-! ## Performing a line job (R285, R286, R290) -/

/-- Whether a physical word of `n` bytes is uncorrectable or of a poisoned page. -/
def State.msBadAt (s : State) (pa n : Nat) : Bool := decide (poisonPA ≤ pa) || s.stackBad pa n

/-- A poisoned element met by a command: counted, and poison for its team (R290, R305, R363). -/
def State.msPoison (s : State) (by_ : Issuer) (core pa va : Nat) : State :=
  if poisonPA ≤ pa then s.meetPoisonPage by_ core va else s.meetPoison by_ va pa

/-- A source element as FP32 bits, or as the word it is; an uncorrectable one reads +0. -/
def State.msSource (s : State) (sfmt : Bool) (pa : Nat) : Nat :=
  let n := if sfmt then 2 else 4
  if s.msBadAt pa n then 0
  else if sfmt then leNat (s.stackReadN pa 2) * 2 ^ 16 else leNat (s.stackReadN pa 4)

/-- A source of a job: its value, and whether it is uncorrectable, as read now where it has not been read before. -/
def State.srcNow (s : State) (sfmt : Bool) (x : JobSrc) : Nat × Bool :=
  x.got.getD (s.msSource sfmt x.pa, s.msBadAt x.pa (if sfmt then 2 else 4))

/-- A source of a job that another job has to read with the source `y` of its own, in the same line of the same row: read now, since the
line is one request (R333). -/
def State.fixSrc (s : State) (sfmt : Bool) (line : Nat → Nat → Bool) (p : Nat) (x : JobSrc) : JobSrc :=
  if x.got.isNone && line p (lineOf x.pa) then { x with got := some (s.srcNow sfmt x) } else x

/-- The other jobs of a gather's command once a job has read some lines of its rows (R333). -/
def State.fixJobs (s : State) (j : Job) (js : List Job) : List Job :=
  let line (p l : Nat) : Bool := j.elems.any (fun e => (e.srcs[p]?).any (fun x => x.got.isNone && lineOf x.pa == l))
  js.map (fun k =>
    if k.cmd = j.cmd then
      { k with elems := k.elems.map (fun e => { e with srcs := mapFrom (fun p x => s.fixSrc j.sfmt line p x) 0 e.srcs }) }
    else k)

/-- The new value of a destination element (R285, R286). -/
def jobValue (atom zero : Bool) (op old : Nat) (srcs : List (Nat × Word)) : Nat :=
  if !atom || op = 0 then
    srcs.foldl (fun acc x => f32.fma acc x.2.toNat x.1) (if !atom && zero then 0 else old)
  else
    let a : Word := BitVec.ofNat 32 old
    let b : Word := BitVec.ofNat 32 ((srcs.headD (0, 0)).1)
    (if op = 1 then a + b else if op = 2 then (if b.slt a then b else a) else (if a.slt b then b else a)).toNat

/-- One element of a line job, whose sources are read from the state `s0` before the job (R285). -/
def State.jobElem (s0 : State) (by_ : Issuer) (core : Nat) (j : Job) (s : State) (e : JobElem) : State :=
  let vals := e.srcs.map (fun x => ((s0.srcNow j.sfmt x).1, x.w))
  let s1 := (e.srcs.filter (fun x => (s0.srcNow j.sfmt x).2)).foldl (fun s x => s.msPoison by_ core x.pa x.va) s
  if s.msBadAt e.dst 4 then
    let s2 := s1.msPoison by_ core e.dst e.va
    if e.dst < poisonPA ∧ !s.fenced e.dst then s2 else s2.count (if e.dst < poisonPA then s.homeWheel e.dst else wheelOf core) 0x46 1
  else s1.putCells 3 (cellsAt e.dst (leBytes 4 (jobValue j.atom j.zero j.op (leNat (s.stackReadN e.dst 4)) vals)))

/-- A line job that a clock crossing holds up, a line that the host may hold, or a store that its channel holds for the host before it
(R281, R296, R352). -/
def State.jobHeld (s : State) (j : Job) : Bool :=
  s.chanHeld j.chan ||
  j.elems.any (fun e => decide (e.dst < poisonPA) && s.hostLines.contains (lineOf e.dst)) ||
  j.elems.any (fun e => (e.dst :: (e.srcs.filter (·.got.isNone)).map (·.pa)).any (fun a =>
    decide (a < poisonPA) && (s.wheel (s.homeWheel a)).pend))

/-- The first of a channel's jobs, and the others. -/
def takeJob (chan : Nat) : List Job → Option (Job × List Job)
  | [] => none
  | j :: js => if j.chan = chan then some (j, js) else (takeJob chan js).map (fun x => (x.1, j :: x.2))

/-- `LINE_JOB`: a channel performs its oldest line job as one request (R281, R285, R286). -/
def execLineJob (chan : Nat) (s : State) : Host.Outcome State Fault Refusal :=
  match takeJob chan s.jobs with
  | none => .next s
  | some (j, rest) =>
    if s.jobHeld j then .next s
    else
      match s.cmds.find? (fun c => c.id == j.cmd) with
      | none => .next { s with jobs := rest }
      | some c =>
        let left := match c.dest with
          | .kl _ => if j.atom then rest else s.fixJobs j rest
          | .counter _ => rest
        let s1 := j.elems.foldl (s.jobElem c.by_ c.core j) { s with jobs := left }
        .next { s1 with cmds := s1.cmds.map (fun x => if x.id = c.id then { x with left := x.left - 1 } else x) }

/-- A command counted as done (R288, R333). -/
def State.countDone (s : State) (t : TeamId) (d : MsDest) : State :=
  match d with
  | .counter c => s.modTeam t (fun t => { t with ms := modAt (fun x => { x with done := x.done + 1 }) c t.ms })
  | .kl tag => s.modTeam t (fun t => { t with kl := modAt (fun x => { x with cmds := x.cmds - 1 }) tag t.kl })

/-- `MS_COMMAND_COMPLETE`: every line job of a command has been performed (R288). -/
def execMsCommandComplete (id : Nat) (s : State) : Host.Outcome State Fault Refusal :=
  match s.cmds.find? (fun c => c.id == id) with
  | none => .next s
  | some c =>
    if c.left ≠ 0 || c.tctr.any s.ctrBusy then .next s
    else
      let s1 := { s with cmds := s.cmds.filter (fun x => x.id != id) }
      let s2 := s1.countDone c.by_.team c.dest
      .next (match c.tctr with
        | some a => s2.engineDecr a 1
        | none => s2)

/-! ## The MS family (R291 to R294) -/

/-- A completion counter of a team. -/
def Team.msCtr (t : Team) (c : Nat) : MsCounter := t.ms.getD c ⟨0, 0⟩

/-- The commands of a word sent (R288, R292, step 4). -/
def State.sendAll (s : State) (core : Nat) : List MsSpec → State
  | [] => s
  | x :: xs =>
    let inTrap := ((s.grp? s.iss.grp).map (fun g => g.trapMask.isSome)).getD false
    let c : CmdWait := { id := s.fresh, core := core, by_ := s.issuer, inTrap := inTrap, spec := x }
    let s1 := { s.tick with cmdWaits := s.cmdWaits ++ [c] }
    let s2 := s1.modTeam s.iss.grp.team (fun t =>
      { t with ms := modAt (fun y => { y with issued := y.issued + 1 }) x.ctgt t.ms })
    s2.sendAll core xs

/-- The commands that a waiting word has read, kept for its later examinations. -/
def State.keepSends (s : State) (xs : List MsSpec) : State :=
  s.modGrp s.iss.grp (fun g => { g with msends := (s.iss.mask, xs) :: g.msends.filter (fun x => x.1 != s.iss.mask) })

/-- Steps 3 and 4 of `MSRED` and `MSATOM`. -/
def State.msSend (s : State) (g : Group) (q : BitVec 6) (xs : List MsSpec) : Res :=
  if Config.cmdQueue < (s.cmdWaits.filter (fun c => c.core == g.core)).length + xs.length then
    .wait (s.keepSends xs) 0
  else
    let s1 := s.sendAll g.core xs
    let last := (xs.getLast?.map (·.ctgt)).getD 0
    let n := ((s1.team? s.iss.grp.team).map (fun t => (t.msCtr last).issued.toNat)).getD 0
    .done ((s1.pump).putStatus q stOk n)

/-- `MSRED` and `MSATOM` (R292). -/
def State.msWord (s : State) (atom : Bool) (e : EF) (n : Nat) : Host.Outcome State Fault Refusal :=
  s.asE true [e.p.toNat] e.q e.x none (fun t g =>
    let kept := if s.iss.mode = .examine ∨ s.iss.mode = .expire then g.msends.find? (fun x => x.1 == s.iss.mask) else none
    match kept with
    | some x => s.msSend g e.q x.2
    | none =>
      let addr := (g.sreg e.p.toNat).toNat
      match s.scrAt t.id addr 32 with
      | .error c => .trap (s.wordTrap c 0 (va56 addr) 0xFF 0)
      | .ok _ =>
        if addr % 32 ≠ 0 then .trap (s.wordTrap 7 0 addr 0xFF 0)
        else if s.toQueue t then .done s
        else
          match s.readCmds t.id atom n addr with
          | .error none => .stall .busy
          | .error (some c) => .trap (s.wordTrap c.1 0 c.2 0xFF 0)
          | .ok r =>
            Res.gated (match r.2.findIdx? (fun x : MsSpec × List Byte => msBad x.1 x.2) with
              | some k => r.1.fin e.q stRejected k
              | none => r.1.msSend g e.q (r.2.map (fun x : MsSpec × List Byte => x.1))) s t g)

/-- `MSRED` (R285, R292). -/
def execMsred (e : EF) (n : Fin 16) (s : State) : Host.Outcome State Fault Refusal := s.msWord false e (n.val + 1)

/-- `MSATOM` (R286, R292). -/
def execMsatom (e : EF) (n : Fin 16) (s : State) : Host.Outcome State Fault Refusal := s.msWord true e (n.val + 1)

/-- `MSPOLL` (R293): `OK` is an acquire at device scope. -/
def execMspoll (q : BitVec 6) (c : Fin 4) (s : State) : Host.Outcome State Fault Refusal :=
  s.asE true [] q 0 none (fun t g =>
    let x := t.msCtr c.val
    if x.done = x.issued then .done ((s.putStatus q stOk x.done.toNat).acquire t g 6)
    else s.fin q stBusy x.done.toNat)

/-- `MSWAIT` (R294): `OK` is an acquire at device scope. -/
def execMswait (e : EF) (c : Fin 4) (s : State) : Host.Outcome State Fault Refusal :=
  s.asE true [e.p.toNat] e.q e.x none (fun t g =>
    let x := t.msCtr c.val
    let v : BitVec 32 := (g.sreg e.p.toNat).setWidth 32
    if (x.done - v).toNat < 2 ^ 31 then .done ((s.putStatus e.q stOk x.done.toNat).acquire t g 6)
    else .wait s x.done.toNat)

end Sys2Proof.Machine
end

