-- ==== Sys2Proof/Machine/Context.lean ====
section
/-! DEFINITION. The save area, `CTXSAVE`, its completion, and `CTXLOAD` (R147, R148, R218, R240, R309 to R311). -/

namespace Sys2Proof.Machine

open Sys2Proof

/-! ## The save area (R309) -/

/-- The first byte of a team's context part. -/
def Launch.ctxAt (l : Launch) (i : Nat) : Nat := va56 (l.region i + l.ctxOff)

/-- Bytes whose values the spec does not state (notes/assumptions/6.md). -/
def freeBytes (k n : Nat) : List Byte := (List.range n).map (fun i => (Config.freeValue (k + i)).setWidth 8)

/-- A write of a unit that a failed walk drops. -/
def State.tryVA (s : State) (core space va : Nat) (bs : List Byte) : State :=
  match s.writeVA core space va bs with
  | .ok s' => s'
  | .error _ => s

/-- Pieces of a context part written at their offsets: stated bytes, or a number of bytes that the layout does not state. -/
def State.putImage (s : State) (core space base : Nat) : List (Nat × (List Byte ⊕ Nat)) → State
  | [] => s
  | (off, x) :: xs =>
    let r : State × List Byte := match x with
      | .inl bs => (s, bs)
      | .inr n => ({ s with fresh := s.fresh + n }, freeBytes s.fresh n)
    (r.1.tryVA core space (va56 (base + off)) r.2).putImage core space base xs

/-- The save-area checksum: SHA-384 bytes 0 to 7 over every byte of the part but its own (R309). -/
def imageSum (bs : List Byte) : List Byte := (sha384 (bs.take 24 ++ bs.drop 32)).take 8

/-- The checksum of a part written over it. -/
def State.sealImage (s : State) (core space base n : Nat) : State :=
  match s.readImage core space base n with
  | some bs => s.tryVA core space (va56 (base + 24)) (imageSum bs)
  | none => s

/-- A window written to its shadow, page by page (R147, R148). Uncorrectable bytes of a page are not written, and counted (R363). -/
def State.putShadow (s : State) (core space base : Nat) (bad : List Nat) : Nat → Nat → List Byte → State
  | _, 0, _ => s
  | off, n + 1, bs =>
    let page := bs.take 4096
    let lost := bad.filter (fun b => decide (off ≤ b) && decide (b < off + 4096))
    let s' :=
      if lost.isEmpty then s.tryVA core space (va56 (base + off)) page
      else (mapFrom (fun k b => (off + k, b)) 0 page).foldl
        (fun s x => if lost.contains x.1 then s else s.tryVA core space (va56 (base + x.1)) [x.2]) (s.count (wheelOf core) 0x46 1)
    s'.putShadow core space base bad (off + 4096) n (bs.drop 4096)

/-! ## Saving (R310) -/

/-- Every blocked wait of a group taken back (R159); the serial waits of a `det` node stay (R349, R351). -/
def Group.unissueAll (g : Group) : Group :=
  (g.waits.filter (fun w => !w.serial)).foldl (fun g w => g.unissue w) g

/-- Whether the area that a team is saved to is not served for now: its context part or its shadow (R199, R203, R296). -/
def State.areaHeld (s : State) (t : Team) (l : Launch) : Bool :=
  s.vaHeld t.core t.space (va56 (l.region t.id.idx + l.shadowOff)) (l.ctxOff - l.shadowOff + l.ctxLen) .write

/-- Whether a team can be saved now: its other groups stand at pre-emption points, and its engines are at rest (R218,
R261, R310, R338); of a `det` node, between steps 4 and 5 of a quantum end (R349). -/
def State.saveReady (s : State) (t : Team) (j : Nat) : Bool :=
  let mine (x : TeamId) : Bool := decide (x = t.id)
  (mapFrom (fun k (g : Group) => k == j || !(s.ownsRun t.space ⟨t.id, k⟩ g)) 0 t.groups).all id &&
    s.cores.all (fun c => c.streams.all (fun x => !(mine x.grp.team) || x.fly.isNone)) &&
    t.chans.all (fun c => !s.chanBusy t c) && !(((s.launch? t.id).map (s.areaHeld t)).getD false) &&
    !(s.vats.any (fun v => v.klq.any (fun o => mine o.team))) && !(s.cmdWaits.any (fun c => mine c.by_.team)) &&
    !(s.flights.any (fun f => mine f.team && decide (f.kind ≠ .push))) &&
    t.leases.all (fun l => l.tags.all (fun x => x.st != 4) && l.recs.all (fun r => r.st != 1)) &&
    (!(s.isDet t.id) || ((s.node? t.id.node).map (fun n => n.phase == 3)).getD false)

/-- A running channel paused: its record stops with `STOP` 0 and stays its current one (R240). Its count of records completed goes on
where it stood when it runs again: the spec does not say whether it then starts anew (R241; DESIGN CHOICE, notes/assumptions/43.md). -/
def State.pauseChan (s : State) (t : Team) (ch : Nat) : State :=
  let c := t.chan ch
  if c.st ≠ 1 then s
  else
    match c.act with
    | none => s.ringDrop t ch
    | some x =>
      let ctl := x.doneCtl + 1
      if c.cancel then s.stopRecord t ch ctl (x.moved * x.esize) 1
      else
        match s.writeVA t.core t.space (va56 (c.recAddr + 56)) (leBytes 8 (stopCtl ctl (x.moved * x.esize) 0)) with
        | .error _ => s.chanStop t ch 4 true
        | .ok s' =>
          (((s'.fixShapes t c true).freeEntries x.entries).ringDrop t ch).modChan t.id ch (fun c => { c with act := none, waiting := false })

/-- Everything that cores hold of a team moved into it (R309, R310). -/
def State.unload (s : State) (t : Team) : State :=
  let mine (x : TeamId) : Bool := decide (x = t.id)
  let parks := s.cores.flatMap (fun c => c.replay.filter (fun p => mine p.grp.team))
  let loads := s.cores.flatMap (fun c => c.loads.filter (fun p => mine p.grp.team))
  let streams := s.cores.flatMap (fun c => c.streams.filter (fun p => mine p.grp.team))
  let ranges := s.cores.flatMap (fun c => (c.ranges.filter (fun e => mine e.team)).map (fun e => (c.num - t.core, e)))
  let cores : List Core := s.cores.map (fun c =>
    { c with
      replay := c.replay.filter (fun p => !mine p.grp.team)
      loads := c.loads.filter (fun p => !mine p.grp.team)
      streams := c.streams.filter (fun p => !mine p.grp.team)
      ranges := c.ranges.filter (fun e => !mine e.team)
      loopBufs := c.loopBufs.filter (fun b => !mine b.owner.team)
      holder := if c.holder = some t.id then none else c.holder })
  { s with cores := cores }.modTeam t.id (fun t =>
    { t with sparks := parks, sloads := loads, sstreams := streams, sranges := ranges })

/-- The stores that only the L1s of a team's cores hold go to their homes, since it may be restored elsewhere (R163). -/
def State.flushTeam (s : State) (t : Team) : State :=
  if t.paired then (s.relSelf t.core).relSelf (t.core + 1) else s.relSelf t.core

/-- Whether a store of the cores of a team has still to be performed. -/
def State.teamUnflushed (s : State) (t : Team) : Bool := s.unflushed t.core || (t.paired && s.unflushed (t.core + 1))

/-- Steps 3 to 5 of `CTXSAVE` for a team whose groups have stopped (R310). The waits that watch words of the window are examined at the
switch to the shadow (R148, R159). -/
def State.saveRest (s : State) (t : Team) (l : Launch) (hold : Bool) : State :=
  let s1 := (List.range 4).foldl (fun s ch => s.pauseChan t ch) s
  let s2 := (s1.unload t).modTeam t.id (fun t =>
    { t with
      groups := t.groups.map (fun g =>
        { g.unissueAll with packet := none, stream := [], traps := g.traps.filter (fun x => x.cause != 14) })
      leases := t.leases.map (fun x =>
        { x with since := none, tags := x.tags.map (fun y => if y.st = 2 then { y with st := 1 } else y) }) })
  match s2.team? t.id with
  | none => s2
  | some t2 =>
    let base := l.ctxAt t.id.idx
    let s3 := s2.putImage t.core t.space base (t2.image l (s2.statusReg t2) (if hold then 2 else 1))
    let s4 := s3.sealImage t.core t.space base l.ctxLen
    let win := s4.winRead t.id 0 t.wsize
    let s5 := s4.putShadow t.core t.space (l.region t.id.idx + l.shadowOff) t2.winBad 0 ((t.wsize + 4095) / 4096) win
    (s5.modTeam t.id (fun t =>
      { t with
        loc := if hold then .held else .saved
        win := []
        winBad := []
        grans := []
        preempt := false
        saver := none })).switched t.id

/-- `CTXSAVE` takes effect (R310): the issuing group leaves trap mode as `TRET` does, its s[Q] reads `OK` in the image, and
the team is saved. -/
def State.saveTeam (s : State) (t : Team) (hold : Bool) (j q : Nat) : State :=
  let gid : GrpId := ⟨t.id, j⟩
  let s1 := s.leaveTrap gid false
  match (s1.team? t.id).filter (fun x => !x.lost), s1.launch? t.id with
  | some _, some l =>
    let s2 := s1.modGrp gid (fun g => g.setS q (statusVal stOk 0))
    match s2.team? t.id with
    | some t2 => s2.saveRest t2 l hold
    | none => s2
  | _, _ => s1

/-- `CONTEXT_SAVE_COMPLETE` (R310): a team whose save has been asked for, and which is at rest, is saved, once the stores of its cores have
been performed (R163). -/
def execContextSaveComplete (id : TeamId) (s : State) : Host.Outcome State Fault Refusal :=
  .next (match s.team? id with
    | some t =>
      match t.loc, t.saver with
      | .saving hold, some (j, q) =>
        if s.saveReady t j then
          let s1 := s.flushTeam t
          if s1.teamUnflushed t then s1 else s1.saveTeam t hold j q
        else s
      | _, _ => s
    | none => s)

/-- `CTXSAVE` (R310). Its first step is done with the last, so a timeout has nothing to undo. While it waits for the team to come to rest, a
`PREEMPT` of the team is pending (R297), which the save takes with it; after a timeout it is still there (DEDUCED,
notes/assumptions/47.md). -/
def execCtxsave (e : EF) (s : State) : Host.Outcome State Fault Refusal :=
  s.asE false [e.p.toNat] e.q e.x none (fun t g =>
    let p := (g.sreg e.p.toNat).toNat
    let undo := s.modTeam t.id (fun t => { t with loc := .resident, saver := none })
    if !s.iss.sys then s.notPrivileged
    else if g.trapMask.isNone || p / 2 ≠ 0 then s.fin e.q stRejected 0
    else
      match s.iss.mode with
      | .expire => undo.fin e.q stTimeout 0
      | .examine => .stall .busy
      | _ =>
        if t.loc ≠ .resident then .stall .busy
        else if e.x = 0 && !(s.saveReady t s.iss.grp.grp) then s.fin e.q stTimeout 0
        else
          let s1 := s.modTeam t.id (fun t =>
            { t with loc := .saving (p % 2 == 1), saver := some (s.iss.grp.grp, e.q.toNat) })
          let s2 := s1.modGrp t.eventGroup (fun g => g.pend (outerTrap 14 0))
          .done (s2.block [e.p.toNat] [e.q.toNat] (if e.x = 0 then 31 else e.x) none 0))

/-! ## CTXLOAD (R311) -/

/-- The team of a resident node that a context part copied here names, as it stands before anything of it is read: the device has none of
that name (R311, R356; DEDUCED, notes/assumptions/18.md). -/
def State.importTeam (s : State) (id : TeamId) (l : Launch) : Option Team :=
  if l.teams ≤ id.idx ∨ ((s.node? id.node).map (·.ending)).getD true then none
  else
    let half (j : Nat) : Nat := if l.paired ∧ l.groups / 2 ≤ j then 1 else 0
    let gs := (List.range l.groups).map (fun j =>
      Group.fresh (half j) 0 l.width (allot l.vregs) (BitVec.ofNat 56 l.body) (l.sregs id j) s.cycle)
    some { (Team.fresh id 0 l.paired l.space gs l.window [] l.trapOnPoison s.cycle) with loc := .held, imported := true }

/-- The header of a context part that `CTXLOAD` accepts: the team it names, held on this device or copied to it (R311, R356). -/
def State.heldTeam (s : State) (core space va : Nat) : Option (Team × Launch) :=
  if va % 4096 ≠ 0 then none
  else
    match s.readImage core space va 32 with
    | none => none
    | some h =>
      let id : TeamId := ⟨field h 4 4, field h 8 4⟩
      match s.launch? id with
      | some l =>
        match (s.team? id).or (s.importTeam id l) with
        | some t =>
          if field h 0 1 = 1 ∧ field h 12 1 = 2 ∧ t.loc = .held then
            match s.readImage core space va l.ctxLen with
            | some bs => if imageSum bs = (h.drop 24).take 8 then some (t, l) else none
            | none => none
          else none
        | none => none
      | none => none

/-- A held team enters its pool as ready; of one that has been copied here, the device takes what its context part holds. -/
def State.enterHeld (s : State) (h : Team) (l : Launch) : State :=
  if h.imported then (State.reload { s with teams := s.teams ++ [{ h with loc := .saved }] } { h with loc := .saved } l)
  else s.modTeam h.id (fun t => { t with loc := .saved })

/-- `CTXLOAD` (R311): a held team becomes ready in its pool, which still has its node's entry. A word that may wait does so until the
pool's entry arrives. -/
def execCtxload (e : EF) (s : State) : Host.Outcome State Fault Refusal :=
  s.asE false [e.p.toNat] e.q e.x none (fun t g =>
    if !s.iss.sys then s.notPrivileged
    else
      let va := va56 (g.sreg e.p.toNat).toNat
      match s.heldTeam g.core t.space va with
      | none => s.fin e.q stRejected 0
      | some (h, l) =>
        if e.x ≠ 0 ∧ s.iss.mode ≠ .examine then .wait s 0
        else if s.vaHeld g.core t.space va l.ctxLen .write then .wait s 0
        else
          match s.writeVA g.core t.space (va56 (va + 12)) (leBytes 1 1) with
          | .error _ => s.fin e.q stRejected 0
          | .ok s1 => ((s1.sealImage g.core t.space va l.ctxLen).enterHeld h l).fin e.q stOk 0)

end Sys2Proof.Machine
end

