-- ==== Sys2Proof/Machine/Homes.lean ====
section
/-! DEFINITION. What homes do on their own, and accesses of the host: the cleaner, directory regions, dead agents, back-invalidate
snoops, and entries of the range scoreboard (R152, R179, R197 to R199, R216, R235, R352, R363, R366). -/

namespace Sys2Proof.Machine

open Sys2Proof

/-- `CLEANER_WRITEBACK` (R198): the dirty bytes of the line of `pa` in a core's L1 go to their home; the line stays, clean. -/
def execCleanerWriteback (core pa : Nat) (s : State) : Host.Outcome State Fault Refusal :=
  .next (s.writeBack core (lineOf pa))

/-- Whether two regions have the same sharers. -/
def sameSharers (a b : Region) : Bool :=
  a.sharers.all (fun x => b.sharers.any (fun y => x.1 == y.1)) && b.sharers.all (fun x => a.sharers.any (fun y => x.1 == y.1))

/-- Whether a region has had no conflict for 2^16 cycles. -/
def Region.calm (r : Region) (cycle : Nat) : Bool :=
  match r.conflict with
  | some c => decide (c + 2 ^ 16 ≤ cycle)
  | none => true

/-- `REGION_MERGE` (R197): the two halves of the region of `size` bytes at `pa` merge. -/
def execRegionMerge (pa size : Nat) (s : State) : Host.Outcome State Fault Refusal :=
  let half := size / 2
  let at_ (b : Nat) : Option Region := s.regions.find? (fun r => r.base == b && r.size == half)
  .next (match at_ pa, at_ (pa + half) with
    | some a, some b =>
      if half ≠ 0 ∧ size ≤ 65536 ∧ pa % size = 0 ∧ sameSharers a b ∧ a.calm (s.now (wheelAgent (s.homeWheel pa))) ∧ b.calm (s.now (wheelAgent (s.homeWheel pa))) then
        let keep := s.regions.filter (fun r => decide (r ≠ a) && decide (r ≠ b))
        { s with regions := { a with size := size, conflict := none } :: keep }
      else s
    | _, _ => s)

/-! ## Dead agents (R199, R366) -/

/-- The cores that go with an agent: itself, or those of a control die. -/
def coresOf (agent : Nat) : List Nat :=
  if agent < Config.cores then [agent] else agent :: rangeFrom (64 * wheelOf agent) 64

/-- The lines of which a dead core held the only dirty copy are poisoned at home. -/
def State.poisonDirty (s : State) (core : Nat) : State :=
  let mine := s.stale.filter (fun e => e.2.2 == core)
  let lines := (mine.map (fun e => lineOf e.1)).eraseDups
  let bytes := lines.flatMap (fun l => rangeFrom (128 * l) 128)
  { s with
    mem := mine.foldl (fun (m : Memory) e => m.write e.1 e.2.1) s.mem
    stale := s.stale.filter (fun e => e.2.2 != core)
    dirtyBad := s.dirtyBad.filter (fun a => !(mine.any (fun e => e.1 == a)))
    poisoned := s.poisoned ++ bytes.filter (fun a => !(s.poisoned.contains a)) }

/-- The teams that end with an agent: those with a group on the core, or, for a control die, every team of the partition. -/
def State.teamsDying (s : State) (core : Nat) : List Team :=
  s.teams.filter (fun t => decide (Config.cores ≤ core) || (t.pinned && t.groups.any (fun g => g.core == core)))

/-- What a dead core held leaves the homes: its dirty lines are poisoned, its entries scrubbed (R199, R320). -/
def State.scrubCore (s : State) (core : Nat) : State :=
  let s1 := s.poisonDirty core
  let live (x : Sub) : Bool := !(x.core == core && ((s.team? x.team).map (·.pinned)).getD true)
  let s2 := s1.modCore core (fun c => { (Core.reset core) with fairLog := c.fairLog, fail := c.fail, ahead := c.ahead, dead := true })
  { s2 with
    regions := s2.regions.map (fun r => { r with sharers := r.sharers.filter (fun x => x.1 != core) })
    subs := s2.subs.filter live }

/-- A core, or wheel w's control die as agent `Config.cores + w` with its cores, is declared dead by the homes of a wheel, where the event
counts (R364). -/
def State.declareDead (s : State) (agent home : Nat) : State :=
  let dying := s.teamsDying agent
  let s1 := (coresOf agent).foldl State.scrubCore (s.count home 0x4A 1)
  let s2 := dying.foldl (fun s t => s.teamLost t.id 0 0) s1
  if Config.cores ≤ agent then { s2 with nodes := [] } else s2

/-- `DEAD_AGENT_DECLARED` (R199, R366): a home's directory request has waited 2^20 of its cycles for the agent's answer. -/
def execDeadAgentDeclared (core : Nat) (s : State) : Host.Outcome State Fault Refusal :=
  .next (match (s.core core).silent with
    | none => s
    | some r =>
      if (s.core core).dead || decide (s.now (wheelAgent r.1) < r.2 + Config.answerLimit) || !s.hasWheel (wheelOf core) then s
      else s.declareDead core r.1)

/-- An agent leaves a directory request of a wheel's homes unanswered, for a line of a region that it shares (R199). -/
def State.silence (s : State) (agent wheel : Nat) : State :=
  let shares := s.regions.any (fun r => s.homeWheel r.base == wheel && r.sharers.any (fun x => (coresOf agent).contains x.1))
  if decide (Config.cores + Config.wheels ≤ agent) || (s.core agent).dead || (s.core agent).silent.isSome || !shares then s
  else s.modCore agent (fun c => { c with silent := some (wheel, s.now (wheelAgent wheel)) })

/-- `STALE_RESPONSE_DROP` (R199): what a dead agent sends late is dropped and counted. -/
def execStaleResponseDrop (wheel : Nat) (s : State) : Host.Outcome State Fault Refusal :=
  .next (if s.cores.any (·.dead) && s.hasWheel wheel then
      s.modWheel wheel (fun w => { w with stale := min max48 (w.stale + 1) })
    else s)

/-! ## The host (R179, R352) -/

/-- `HOST_CXL_ACCESS` (R352): the host reads `n` bytes, or writes some, at the home of a line of a stack or of host memory (R179),
which it may hold from then on, so that dirty copies of the line go home first. An uncorrectable byte reads zero, and a write to a fenced channel is dropped (R363, R365). -/
def execHostCxlAccess (pa : Nat) (write : Option (List Byte)) (n : Nat) (s : State) : Host.Outcome State Fault Refusal :=
  let size := match write with
    | some bs => bs.length
    | none => n
  let w := s.homeWheel pa
  if !s.powered || decide (size = 0) || decide (128 < pa % 128 + size) || decide (2 ^ 52 ≤ pa) || s.absent pa ||
      s.lineHeld pa then .next s
  else
    let hold (s : State) : State :=
      if s.hostHeld pa then s else { s with hostLines := lineOf (s.fwd pa) :: s.hostLines }
    match write with
    | none =>
      let s1 := match (rangeFrom pa n).find? (fun a => s.bad (s.fwd a)) with
        | some a => s.countBad (s.fwd a)
        | none => s
      let s2 : State := { s1 with hostData := if s.anyBad pa n then List.replicate n 0 else s.physReadN pa n }
      .next (hold (s2.giveBack (fun e => lineOf e.1 == lineOf (s.fwd pa))))
    | some bs =>
      let h : HeldWrite := ⟨cellsAt pa bs, none, true, 0, []⟩
      if s.fenced (s.fwd pa) then .next (s.count w 0x46 1)
      else if s.lockedOld pa then .next (if s.heldFull [pa] then s else s.holdWrite h pa)
      else if s.pushHeldLine (lineOf (s.fwd pa)) || s.noPushRoom (rangeFrom (s.fwd pa) size) then .next s
      else .next (hold (s.perform h))

/-- `BACK_INVALIDATE_ANSWER` (R352): the host gives up the line, and the writes that waited are performed in order. -/
def execBackInvalidateAnswer (pa : Nat) (s : State) : Host.Outcome State Fault Refusal :=
  .next (match s.snoops.find? (fun x => x.line == lineOf pa) with
    | none => s
    | some x =>
      let s1 : State :=
        { s with snoops := s.snoops.filter (fun y => y.line != x.line), hostLines := s.hostLines.filter (fun l => l != x.line) }
      x.writes.foldl (fun s h => s.writeLine h) s1)

/-- `BACK_INVALIDATE_TIMEOUT` (R199, R352): a host that has not answered for 2^20 cycles is treated as dead: the line is poisoned at
home, and the writes to it are dropped and counted. -/
def execBackInvalidateTimeout (pa : Nat) (s : State) : Host.Outcome State Fault Refusal :=
  .next (match s.snoops.find? (fun x => x.line == lineOf pa) with
    | none => s
    | some x =>
      if s.now (wheelAgent (s.homeWheel (128 * x.line))) < x.since + 2 ^ 20 then s
      else
        let w := s.homeWheel (128 * x.line)
        let s1 : State :=
          { s with
            snoops := s.snoops.filter (fun y => y.line != x.line)
            hostLines := s.hostLines.filter (fun l => l != x.line)
            poisoned := s.poisoned ++ (rangeFrom (128 * x.line) 128).filter (fun a => !(s.poisoned.contains a)) }
        (s1.count w 0x46 x.writes.length).count w 0x4A 1)

/-! ## Range scoreboard entries (R152) -/

/-- Whether an engine may have done with a range: an operation's last operand slot has crossed up, which an array that fetches ahead of
its waves may do in any K-step (R215, R228), a streamer side's last byte has moved, a drain's last byte is written (R216, R235). The
entry's team is that of the window, which the engine of another team may use (R152). -/
def State.rangeDone (s : State) (e : RangeEnt) : Bool :=
  let tags (busy : MxTag → Bool) : Bool := s.teams.all (fun t => t.leases.all (fun l => l.tags.all (fun x => !busy x)))
  match e.owner with
  | .stream ch _ =>
    s.teams.all (fun t => !((t.chan ch).act.any (fun x => x.entries.contains e.id && decide (x.moved < x.total))))
  | .mxA _ | .mxScale _ => tags (fun x => x.entries.contains e.id && x.st == 1)
  | .drain _ => tags (fun x => x.drain.any (fun d => d.entry == e.id))
  | .kl .. => s.vats.all (fun v => v.klq.all (fun o => !(o.entries.contains e.id)))

/-- `RANGE_ENTRY_FREED` (R216, R235). -/
def execRangeEntryFreed (core id : Nat) (s : State) : Host.Outcome State Fault Refusal :=
  .next (match (s.core core).ranges.find? (fun e => e.id == id) with
    | some e => if s.rangeDone e then s.freeEntries [id] else s
    | none => s)

end Sys2Proof.Machine
end

