-- ==== Sys2Proof/Machine/Sys.lean ====
section
/-! DEFINITION. System registers, `TRAP`, `TRET`, `CLOCK`, `CAPQ`, and the register events (R10, R124, R136, R296, R305
to R307, R358, R364). -/

namespace Sys2Proof.Machine

open Sys2Proof

/-- `MCLKRATIO` of a wheel (R296). -/
def Wheel.mclk (w : Wheel) : Reg :=
  BitVec.ofNat 64 (w.ratio % 256 + (if w.pend then 256 else 0) + w.eff % 256 * 2 ^ 16)

/-- The value of a system register as a group sees it (R306). -/
def State.sysVal (s : State) (t : Team) (g : Group) (j : Nat) (r : Nat) : Reg :=
  let w := s.wheel (wheelOf g.core)
  if r = 0x00 then s.cap0
  else if r = 0x01 then s.cap1
  else if r = 0x02 then s.cap2
  else if r = 0x03 then s.cap3
  else if r = 0x08 then (s.core g.core).portstat
  else if r = 0x09 then BitVec.ofNat 64 (s.core g.core).fairLog
  else if r = 0x0A then s.scrpart g.core
  else if r = 0x10 then s.spcbase
  else if r = 0x11 then BitVec.ofNat 64 w.stale
  else if r = 0x12 then BitVec.ofNat 64 w.dqbase
  else if r = 0x13 then w.mclk
  else if r = 0x20 then s.statusReg t
  else if r = 0x21 then BitVec.ofNat 64 (((s.launch? t.id).map (fun l => l.frame t.id.idx j)).getD 0)
  else if r = 0x4D then w.throt
  else BitVec.ofNat 64 (w.counters.getD (r - 0x40) 0)

/-- A register that only a system segment may read (R306). -/
def sysReadPriv (r : Nat) : Bool := decide (r ≤ 3)

/-- A register that only a system segment may write (R306, R364). -/
def sysWritePriv (r : Nat) : Bool :=
  r == 0x09 || r == 0x10 || r == 0x11 || r == 0x12 || r == 0x13 || (decide (0x40 ≤ r) && decide (r ≤ 0x4C))

/-- `SYSRD` (R307). -/
def execSysrd (d : BitVec 6) (r : BitVec 8) (s : State) : Host.Outcome State Fault Refusal :=
  s.uWord [] (fun t g =>
    if sysReadPriv r.toNat && !s.iss.sys then s.notPrivileged
    else .done (s.modGrp s.iss.grp (fun x => x.setS d.toNat (s.sysVal t g s.iss.grp.grp r.toNat))))

/-- A write of `FAIRNESS` (R124). -/
def State.writeFairness (s : State) (core : Nat) (v : Reg) : State :=
  let n := v.toNat % 32
  if 4 ≤ n ∧ n ≤ 16 then s.modCore core (fun c => { c with fairLog := n }) else s

/-- A write of `MCLKRATIO` (R296). -/
def State.writeMclk (s : State) (w : Nat) (v : Reg) : State :=
  let n := v.toNat % 256
  if 16 ≤ n ∧ n ≤ 64 then s.modWheel w (fun x => { x with ratio := n, pend := true }) else s

/-- A write of `STATUS` (R305). -/
def State.writeStatus (s : State) (t : TeamId) (v : Reg) : State := s.modTeam t (fun x => x.writeStatus v)

/-- A write of `SPCBASE`: `BASE` and `EN` (R186). -/
def State.writeSpcbase (s : State) (v : Reg) : State := { s with spcbase := v &&& 0x000F_FFFF_FFFF_8001 }

/-- A write of a system register (R306): reserved and read-only fields are ignored (R2). -/
def State.sysWrite (s : State) (t : Team) (g : Group) (r : Nat) (v : Reg) : State :=
  let w := wheelOf g.core
  if r = 0x09 then s.writeFairness g.core v
  else if r = 0x10 then s.writeSpcbase v
  else if r = 0x11 then s.modWheel w (fun x => { x with stale := v.toNat % 2 ^ 48 })
  else if r = 0x12 then s.modWheel w (fun x => { x with dqbase := fld v.toNat 11 41 * 2 ^ 11 })
  else if r = 0x13 then s.writeMclk w v
  else if r = 0x20 then s.writeStatus t.id v
  else if 0x40 ≤ r ∧ r ≤ 0x4C then
    s.modWheel w (fun x => { x with counters := modAt (fun _ => v.toNat % 2 ^ 48) (r - 0x40) x.counters })
  else s

/-- `SYSWR` (R307). -/
def execSyswr (a : BitVec 6) (r : BitVec 8) (s : State) : Host.Outcome State Fault Refusal :=
  s.uWord [a.toNat] (fun t g =>
    if sysWritePriv r.toNat && !s.iss.sys then s.notPrivileged
    else .done (s.sysWrite t g r.toNat (g.sreg a.toNat)))

/-- `FAIRNESS_WRITE`: the effect of a privileged write of `FAIRNESS` (R124). -/
def execFairnessWrite (core : Nat) (v : Reg) (s : State) : Host.Outcome State Fault Refusal :=
  .next (s.writeFairness core v)

/-- `MCLKRATIO_WRITE` (R296). -/
def execMclkratioWrite (wheel : Nat) (v : Reg) (s : State) : Host.Outcome State Fault Refusal :=
  .next (s.writeMclk wheel v)

/-- `MCLKRATIO_TAKE`: the written ratio takes effect (R296). -/
def execMclkratioTake (wheel : Nat) (s : State) : Host.Outcome State Fault Refusal :=
  .next (s.takeMclk wheel)

/-- `STATUS_WRITE` (R305). -/
def execStatusWrite (t : TeamId) (v : Reg) (s : State) : Host.Outcome State Fault Refusal := .next (s.writeStatus t v)

/-- The trap of `TRAP` (R300, R307). -/
def State.softTrap (s : State) (code : BitVec 8) : Trap :=
  { (s.wordTrap 13 0 0 0xFF 0) with aux := code.toNat }

/-- `TRAP` (R298, R307): `SOFTWARE` is taken with `RESUMEPC` after the chain group. Where a wait of the chain group has
blocked the threads, or a trap of a lower cause is pending outside a latch run, it is pending behind that. -/
def execTrap (code : BitVec 8) (s : State) : Host.Outcome State Fault Refusal :=
  s.asWord (fun t g =>
    let lower := g.trapMask.isNone && !(s.inRun t.space g) && (s.nextTrap s.iss.grp g).any (fun x => decide (x.cause < 13))
    if !lower && (Mask.list s.iss.mask g.width).all (fun i => (g.thread i).runnable) then
      .done (s.takeTrap s.iss.grp s.iss.mask (s.softTrap code) s.iss.next)
    else .done (s.modGrp s.iss.grp (fun x => x.pend (s.softTrap code))))

/-- `TRET` (R307): privileged, and legal in trap mode only. -/
def execTret (s : State) : Host.Outcome State Fault Refusal :=
  s.asWord (fun _ g =>
    if !s.iss.sys || g.trapMask.isNone then s.notPrivileged
    else .done (s.leaveTrap s.iss.grp true))

/-- `CLOCK` (R136). -/
def execClock (d : BitVec 6) (s : State) : Host.Outcome State Fault Refusal :=
  s.uSet [] d (fun g => BitVec.ofNat 64 (s.now g.core))

/-- The instance word (R358): the partition's lowest wheel and the device number. -/
def State.instanceWord (s : State) : Reg :=
  BitVec.ofNat 64 ((s.wheelList.headD 0) * 2 ^ 32 + Config.deviceNumber.toNat)

/-- `CAPQ` (R10, R358). -/
def execCapq (d : BitVec 6) (k : Fin 5) (s : State) : Host.Outcome State Fault Refusal :=
  s.uWord [] (fun t _ =>
    let snap := ((s.contexts.find? (fun c => c.space == t.space)).map (·.snap)).getD []
    let v := if k.val = 4 then s.instanceWord else snap.getD k.val 0
    .done (s.modGrp s.iss.grp (fun x => x.setS d.toNat v)))

end Sys2Proof.Machine
end

