-- ==== Sys2Proof/Machine/Host.lean ====
section
/-! DEFINITION. The host's register page: commands, results, team-loss reports, events and fabric groups (R10, R353 to R359). -/

namespace Sys2Proof.Machine

open Sys2Proof

/-! ## Commands (R355) -/

/-- The physical address that a command names. -/
def cmdPA (v : Reg) : Nat := fld v.toNat 6 46 * 64

/-- A command completes: `LSTAT`, and MSI-X vector 0 (R355). -/
def State.complete (s : State) (code reason id : Nat) : State :=
  { s with
    hostq := s.hostq.drop 1
    hostDrop := false
    lstat := { id := id, reason := reason, code := code, seq := (s.lstat.seq + 1) % 256, drop := s.lstat.drop || s.hostDrop }
    msix := 0 :: s.msix }

/-- A command refused for a reason that the spec does not number: one of R278's, 13 or 14 (R355, notes/assumptions/6.md). -/
def State.refuseFree (s : State) : State :=
  { s with fresh := s.fresh + 1 }.complete stRejected (1 + (Config.freeValue s.fresh).toNat % 14) 0

/-- Who a host launch's reads act for: no team. -/
def hostIssuer : Issuer := ⟨⟨0, 0⟩, 0, 0, 3, 0, 0⟩

/-- The oldest queued command, when it is one of those codes. -/
def State.headCmd (s : State) (ok : Nat → Bool) : Option Reg :=
  match s.hostq with
  | v :: _ => if s.powered && ok (v.toNat % 8) then some v else none
  | [] => none

/-- Whether the block of a command lies on a line that its home does not serve (R199, R203). -/
def State.cmdHeld (s : State) (v : Reg) : Bool := s.lineHeld (cmdPA v)

/-- Some bytes read for the host: uncorrectable ones read zero, and the read is counted (R363). -/
def State.hostBytes (s : State) (pa n : Nat) : State × List Byte :=
  (match (rangeFrom pa n).find? (fun a => s.bad (s.fwd a)) with
    | some a => s.countBad (s.fwd a)
    | none => s, s.physReadN pa n)

/-- A launch that has passed its checks enters a pool, or does not; `s0` stands where its counter's home has to be waited for. -/
def State.hostEnter (s0 s : State) (wheel : Nat) (l : Launch) : State :=
  if !(s.poolFree wheel) then s.complete stBusy 0 0
  else
    match s.enterNode (Config.cores + wheel) wheel l with
    | .refuse k => s.complete stRejected k 0
    | .fault _ _ => s.complete stRejected 14 0
    | .busy => s0
    | .ok s' id => s'.complete stOk 0 id

/-- `LAUNCH` (R278, R355): the checks and the entry of `TSPAWN`, without its wait. -/
def execLaunch (s : State) : Host.Outcome State Fault Refusal :=
  .next (match s.headCmd (· == 0) with
    | none => s
    | some v =>
      let wheel := fld v.toNat 3 3
      let pa := cmdPA v
      if !(s.hasWheel wheel) then s.complete stRejected 1 0
      else if s.absent pa then s.complete stRejected 14 0
      else if s.cmdHeld v then s
      else
        let r := s.hostBytes pa 64
        let r2 := if field r.2 0 2 = 2 then r.1.hostBytes (pa + 64) 64 else (r.1, List.replicate 64 0)
        let rec_ := r.2 ++ r2.2
        if s.launchHeld (Config.cores + wheel) rec_ then s
        else
          match r2.1.checkLaunch hostIssuer (Config.cores + wheel) rec_ with
          | .refuse s k => s.complete stRejected k 0
          | .fault s _ _ => s.complete stRejected 14 0
          | .ok s1 l => s.hostEnter s1 wheel l)

/-- Whether a snapshot may be imported (R356). -/
def State.importable (s : State) (snap : List Reg) : Bool :=
  let c (k lo n : Nat) : Nat := fld (snap.getD k 0).toNat lo n
  let fields : List (Nat × Nat) := [(0, 8), (8, 8), (16, 5), (24, 8), (32, 8), (40, 8), (48, 8), (56, 8)]
  c 0 24 8 == fld s.cap0.toNat 24 8 && c 0 16 8 == fld s.cap0.toNat 16 8 && c 0 8 8 == fld s.cap0.toNat 8 8 &&
    (snap.getD 1 0 &&& ~~~s.cap1) == 0 &&
    fields.all (fun f => decide (c 3 f.1 f.2 ≤ fld s.cap3.toNat f.1 f.2)) &&
    decide (c 2 0 9 ≤ fld s.cap2.toNat 0 9) && decide (c 2 9 9 ≤ fld s.cap2.toNat 9 9)

/-- `CREATE` (R10, R355, R356): the context of a space, with a live or an imported snapshot. It completes once it can write the block back: a
line that the host may hold is snooped first (R352). -/
def execCreate (s0 : State) : Host.Outcome State Fault Refusal :=
  .next (match s0.headCmd (· == 1) with
    | none => s0
    | some v =>
      let pa := cmdPA v
      let r := s0.hostBytes pa 64
      let s := r.1
      let b := r.2
      let space := field b 0 2
      let import_ := field b 2 1
      if s0.absent pa then s0.refuseFree
      else if s0.cmdHeld v then s0
      else if decide (4095 < space) || decide (1 < import_) || !allZero b 3 5 || !allZero b 48 16 then s.refuseFree
      else if s.contexts.any (fun c => c.space == space) then s.refuseFree
      else
        let given : List Reg := (List.range 4).map (fun k => BitVec.ofNat 64 (field b (8 + 8 * k) 8))
        if import_ = 1 && !(s.importable given) then s.complete stRejected 8 0
        else
          let snap := if import_ = 1 then given else [s.cap0, s.cap1, s.cap2, s.cap3]
          let bytes := snap.flatMap (fun r => leBytes 8 r.toNat) ++ leBytes 8 s.instanceWord.toNat
          let now : State := { s with contexts := s.contexts ++ [{ space := space, snap := snap }] }
          if s0.hostHeld pa then s0.sendSnoop (lineOf (s0.fwd pa))
          else if s0.writeLocked pa || s0.noPushRoom (rangeFrom (s0.fwd (pa + 8)) 40) then s0
          else (now.homeWriteN 0 (pa + 8) bytes).complete stOk 0 0)

/-- `DESTROY` (R355): the context of a space ends, unless a node of the space is entered in a pool. -/
def execDestroy (s0 : State) : Host.Outcome State Fault Refusal :=
  .next (match s0.headCmd (· == 2) with
    | none => s0
    | some v =>
      let pa := cmdPA v
      let r := s0.hostBytes pa 2
      let s := r.1
      let space := leNat r.2
      if s0.absent pa then s0.refuseFree
      else if s0.cmdHeld v then s0
      else if s.nodes.any (fun n => n.l.space == space && !n.ending) then s.complete stBusy 0 0
      else if !(s.contexts.any (fun c => c.space == space)) then s.complete stRejected 13 0
      else { s with contexts := s.contexts.filter (fun c => c.space != space) }.complete stOk 0 0)

/-- `LAUNCH_RESERVED_CMD` (R355): a command of code 3 to 7 is refused with reason 1. -/
def execLaunchReservedCmd (s : State) : Host.Outcome State Fault Refusal :=
  .next (match s.headCmd (fun c => decide (3 ≤ c)) with
    | none => s
    | some _ => s.complete stRejected 1 0)

/-! ## Registers (R353, R354, R355) -/

/-- The value of `LSTAT`. -/
def State.lstatWord (s : State) : Reg :=
  BitVec.ofNat 64 (s.lstat.id * 2 ^ 32 + s.lstat.reason * 2 ^ 24 + s.lstat.code * 2 ^ 16 + s.lstat.seq * 2 ^ 8 +
    (if s.lstat.drop then 128 else 0) + s.hostq.length)

/-- A read of the register page while it is not enabled: all ones in the course of a reset (R368). -/
def State.readNone (s : State) : State := if s.resetting then { s with hostRead := BitVec.allOnes 64 } else s

/-- `LSTAT_READ`: the latest result; `DROP` clears. -/
def execLstatRead (s : State) : Host.Outcome State Fault Refusal :=
  .next (if s.powered then { s with hostRead := s.lstatWord, lstat := { s.lstat with drop := false } } else s.readNone)

/-- A read of `TDEADA` (R354): the oldest report is removed and its causes latched into `TDEADB`; 0 when there is none. -/
def State.tdeadaRead (s : State) : State :=
  match s.losses with
  | [] => { s with hostRead := 0 }
  | x :: xs =>
    { s with
      hostRead := BitVec.ofNat 64 (x.team.node * 2 ^ 32 + x.team.idx * 2 ^ 8 + (if s.lossDrop then 128 else 0))
      tdeadb := BitVec.ofNat 64 (x.cause1 * 2 ^ 8 + x.cause2)
      losses := xs
      lossDrop := false }

/-- `TDEADA_READ` (R354). -/
def execTdeadaRead (s : State) : Host.Outcome State Fault Refusal := .next (if s.powered then s.tdeadaRead else s.readNone)

/-- Word k of `FENCEMAP`, bits 64k to 64k + 63 (R353, R365). -/
def State.fenceWord64 (s : State) (k : Nat) : Reg :=
  (s.fencemap.filter (fun c => c / 64 == k)).foldl (fun (b : Reg) c => b ||| BitVec.twoPow 64 (c % 64)) 0

/-- The host reads a register of its page at an offset (R353): what a register that the host cannot read gives is not stated
(notes/assumptions/6.md). -/
def State.hostRegRead (s : State) (off : Nat) : State :=
  if !s.powered then s.readNone
  else if off = 0x08 then { s with hostRead := s.lstatWord, lstat := { s.lstat with drop := false } }
  else if 0x20 ≤ off ∧ off < 0x50 ∧ off % 8 = 0 then { s with hostRead := s.fenceWord64 ((off - 0x20) / 8) }
  else if off = 0x50 then s.tdeadaRead
  else if off = 0x58 then { s with hostRead := s.tdeadb }
  else { s.tick with hostRead := Config.freeValue s.fresh }

/-- `HEVENT_WRITE` (R357): an `EVENT` for every resident team of a node; a saved team gets it at its restore. -/
def execHeventWrite (v : Reg) (s : State) : Host.Outcome State Fault Refusal :=
  let node := v.toNat / 2 ^ 32
  let aux := v.toNat % 2 ^ 32
  .next ((s.teams.filter (fun t => t.id.node == node)).foldl (fun s t =>
    if t.pinned then s.modGrp t.eventGroup (fun g => g.pend (outerTrap 15 aux))
    else s.modTeam t.id (fun t => { t with events := t.events ++ [aux] })) s)

/-- `FGRP_DEFINE` (R359). -/
def execFgrpDefine (v : Reg) (s : State) : Host.Outcome State Fault Refusal :=
  let id := fld v.toNat 0 10
  let me := fld v.toNat 10 6
  let ranks := fld v.toNat 16 7
  .next (if fld v.toNat 31 1 = 1 ∧ 1 ≤ ranks ∧ ranks ≤ 64 ∧ me < ranks ∧ s.powered then
      { s with fgroups := ⟨id, ranks, me⟩ :: s.fgroups.filter (fun x => x.id != id) }
    else s)

/-- `FGRP_REMOVE` (R359): dropped where a value is out of range; else the group's running collectives are cancelled. -/
def execFgrpRemove (v : Reg) (s : State) : Host.Outcome State Fault Refusal :=
  let id := fld v.toNat 0 10
  let me := fld v.toNat 10 6
  let ranks := fld v.toNat 16 7
  .next (if fld v.toNat 31 1 = 0 ∧ 1 ≤ ranks ∧ ranks ≤ 64 ∧ me < ranks ∧ s.powered then
      let s1 := { s with fgroups := s.fgroups.filter (fun x => x.id != id) }
      s1.teams.foldl (fun s t => (List.range 4).foldl (fun s k =>
        if (t.coll k).st = 1 && (t.coll k).group == id then s.collStop t.id k else s) s) s1
    else s)

end Sys2Proof.Machine
end

