-- ==== Sys2Proof/Machine/House.lean ====
section
/-! DEFINITION. Iboukan's work: partitions, keys, persistent records, failures of ports and channels, throttling, power and
bring-up (R13, R15, R16, R21, R357, R363 to R370). -/

namespace Sys2Proof.Machine

open Sys2Proof

/-! ## Bring-up (R368) -/

/-- `FAIL0` and `FAIL1` of a core from failed ports (R17). -/
def failBits (ports : List (Nat × Nat)) (core : Nat) : BitVec 16 :=
  (ports.filter (fun p => p.1 == core && decide (p.2 < 16))).foldl (fun b p => b ||| BitVec.twoPow 16 p.2) 0

/-- The cores that failed ports leave with something to remember. -/
def failedCores (ports : List (Nat × Nat)) : List Core :=
  ((List.range Config.cores).filter (fun c => ports.any (fun p => p.1 == c))).map (fun c =>
    { (Core.reset c) with fail := failBits ports c })

/-- `CAP2` of a partition of some wheels (R13, R15). -/
def cap2Of (wset : Nat) (cores : List Core) : Reg :=
  let wheels := (List.range 6).filter wset.testBit
  let hbmBits := (wheels.map (fun w => 2 ^ (2 * w) + 2 ^ (2 * w + 1))).foldl (· + ·) 0
  let mine := cores.filter (fun c => wset.testBit (wheelOf c.num))
  let all := 64 * wheels.length
  let off := (mine.filter Core.disabled).length
  let half := (mine.filter Core.halfWidth).length
  BitVec.ofNat 64 (hbmBits * 2 ^ 24 + wset % 64 * 2 ^ 18 + (all - off - half) * 2 ^ 9 + (all - off))

/-- The set of a partition's wheels as a number. -/
def State.wheelSet (s : State) : Nat := fld s.cap2.toNat 18 6

/-- What survives power removal and every reset: Iboukan's store, what the schedule brings, and the names given so far (R21, R370). Of a key
whose addition or revocation could not be recorded, what is recorded is in force again. Host memory, at physical addresses from 2^51 up, reads
as at reset too: the spec speaks of HBM alone and does not say what becomes of it (DESIGN CHOICE, notes/assumptions/31.md). -/
def State.keep (s : State) : State :=
  { State.reset with
    sched := s.sched, fresh := s.fresh, keys := s.keyRecs, keyRecs := s.keyRecs, badPorts := s.badPorts, retired := s.retired,
    retiredRows := s.retiredRows, fenceRecs := s.fenceRecs, storeFails := s.storeFails, rootSigned := s.rootSigned }

/-- Iboukan records an event; where it cannot, it reports that to the host (R370). -/
def State.record (s : State) (e : RecEvent) (f : State → State) : State :=
  if s.storeFails then { s with unrecorded := e :: s.unrecorded } else f s

/-- Whether Iboukan registers a default handler segment: its packets at every vector, its address that of a handle (R275, R297, R368). -/
def handlerOk (h : Nat × Nat) : Bool := decide (1936 ≤ h.2) && h.1 % 128 == 0 && decide (h.1 + h.2 ≤ 2 ^ 56)

/-- Channels and rows that bring-up retires for the first time are recorded, or reported as not recorded (R370). -/
def State.recordRetired (s : State) (chans : List Nat) (rows : List (Nat × Nat)) : State :=
  let s1 := chans.foldl (fun s c => s.record (.channel c) (fun s => { s with retired := s.retired ++ [c] })) s
  rows.foldl (fun s r => s.record (.row r.1 r.2) (fun s => { s with retiredRows := s.retiredRows ++ [r] })) s1

/-- Steps 2 to 7 of bring-up for a partition of some wheels (R368, R370): channels and rows that fail are retired, and those that were stay
so; recorded ports are treated as failed, whatever self-test finds. Which lines a row holds the spec does not say: its record has no further
effect (notes/assumptions/50.md). -/
def State.bringUpAs (s : State) (wset : Nat) (up : BringUp) : State :=
  let cores := failedCores (s.badPorts ++ up.badPorts)
  let chans := (up.badChans.filter (fun c => decide (c < 384) && wset.testBit (c / 64) && !s.retired.contains c)).eraseDups
  let rows := (up.badRows.filter (fun r => decide (r.1 < 384) && wset.testBit (r.1 / 64) && !s.retiredRows.contains r)).eraseDups
  { s.keep.recordRetired chans rows with
    parts := s.parts
    cores := cores
    gone := s.retired ++ chans
    cap2 := cap2Of wset cores
    defaultSeg := (up.handler.filter handlerOk).map (fun h => ⟨none, h.1, h.2⟩)
    powered := true }

/-- `BRING_UP` (R368): after power is applied; Iboukan stays in recovery when its image fails. -/
def execBringUp (up : BringUp) (s : State) : Host.Outcome State Fault Refusal :=
  .next (if s.powered || s.resetting || !up.image then s else { s with parts := [0x3F] }.bringUpAs 0x3F up)

/-- `PARTITION_RESET` (R368): steps 2 to 7 for the partition's wheels, at the end of the reset that has begun. -/
def execPartitionReset (up : BringUp) (s : State) : Host.Outcome State Fault Refusal :=
  .next (if s.powered || s.resetting then s.bringUpAs s.wheelSet up else s)

/-- Whether some wheel sets divide the device (R357). -/
def dividing (sets : List Nat) : Bool :=
  decide (1 ≤ sets.length) && decide (sets.length ≤ 6) && sets.all (fun x => decide (0 < x) && decide (x < 64)) &&
    (List.range 6).all (fun w => (sets.filter (fun x => x.testBit w)).length == 1)

/-- `PARTITION_SETUP` (R357): the device is divided anew, at a reset of the wheels concerned: a partition whose wheels stay as they were keeps
running (R368). The state goes on as that of the partition that holds the lowest wheel of this one (notes/assumptions/8.md). -/
def execPartitionSetup (wheelSets : List Nat) (up : BringUp) (s : State) : Host.Outcome State Fault Refusal :=
  .next (if (s.powered || s.resetting) && dividing wheelSets then
      let low := s.wheelList.headD 0
      let wset := (wheelSets.find? (fun (x : Nat) => x.testBit low)).getD 0x3F
      let s1 : State := { s with parts := wheelSets }
      if s.powered && wset == s.wheelSet then s1 else s1.bringUpAs wset up
    else s)

/-- `POWER_REMOVAL` (R21, R370): every architectural state is lost; Iboukan's store survives. -/
def execPowerRemoval (s : State) : Host.Outcome State Fault Refusal := .next { s.keep with powered := false }

/-! ## Keys and records (R369, R370) -/

/-- `SPDM_ATTESTATION` (R369): Iboukan reports measurements of its image, the root key, the key store and the fuses; nothing else on the
device changes. -/
def execSpdmAttestation (s : State) : Host.Outcome State Fault Refusal :=
  let m : Attest :=
    { image := Config.imageDigest, root := Config.rootDigest, keys := s.keys, cap0 := s.cap0, cap1 := s.cap1, cap3 := s.cap3 }
  .next { s with attested := some m }

/-- `KEY_STORE_ADD` (R369, R370): a store of up to eight keys; a command that the root key has not signed (`State.rootSigned`) does
nothing. -/
def execKeyStoreAdd (keyId x y : Nat) (s : State) : Host.Outcome State Fault Refusal :=
  .next (if s.rootSigned ∧ s.keys.length < 8 ∧ s.keys.all (fun k => k.id != keyId) then
      State.record { s with rootSigned := false, keys := s.keys ++ [⟨keyId, x, y⟩] } (.key keyId true) (fun (s : State) =>
        { s with keyRecs := s.keyRecs.filter (fun k => k.id != keyId) ++ [⟨keyId, x, y⟩] })
    else { s with rootSigned := false })

/-- `KEY_STORE_REVOKE` (R369, R370): the kept verification results under the key go with it; a command that the root key has not signed
does nothing. -/
def execKeyStoreRevoke (keyId : Nat) (s : State) : Host.Outcome State Fault Refusal :=
  .next (if s.rootSigned then
      State.record { s with rootSigned := false, keys := s.keys.filter (fun k => k.id != keyId),
                            verified := s.verified.filter (fun v => v.key != keyId) }
        (.key keyId false) (fun s => { s with keyRecs := s.keyRecs.filter (fun k => k.id != keyId) })
    else s)

/-- `PERSISTENT_RECORD_CLEAR` (R370): a failed port's record, or a channel's, by a command that the root key has signed. -/
def execPersistentRecordClear (port : Bool) (unit part : Nat) (s : State) : Host.Outcome State Fault Refusal :=
  .next (if !s.rootSigned then s
    else if port then { s with rootSigned := false, badPorts := s.badPorts.filter (fun p => decide (p ≠ (unit, part))) }
    else
      { s with
        rootSigned := false
        retired := s.retired.filter (fun c => c != unit * 32 + part)
        fenceRecs := s.fenceRecs.filter (fun c => c != unit * 32 + part) })

/-! ## Errors (R16, R363 to R365) -/

/-- A slot of a vertical port in error: corrected and counted, or uncorrectable, counted against the port, and its data poisoned: that of the
next load element that the port's half of the core brings up (R16, R363; notes/assumptions/48.md). -/
def State.portError (s : State) (core port : Nat) (fixed : Bool) : State :=
  if fixed then s.count (wheelOf core) 0x44 1
  else
    let n := ((s.portErr.find? (fun x => x.1 == core && x.2.1 == port)).map (fun x => x.2.2)).getD 0
    let rest := s.portErr.filter (fun x => !(x.1 == core && x.2.1 == port))
    ({ s with portErr := (core, port, n + 1) :: rest }.modCore core (fun c =>
      { c with badSlots := if c.badSlots.contains port then c.badSlots else c.badSlots ++ [port] })).count (wheelOf core) 0x45 1

/-- A byte of memory becomes uncorrectable: its dirty copy in an L1, where there is one, else at its home (R363). -/
def State.poisonByte (s : State) (pa : Nat) : State :=
  if s.stale.any (fun e => e.1 == pa) then (if s.dirtyBad.contains pa then s else { s with dirtyBad := pa :: s.dirtyBad })
  else if s.poisoned.contains pa then s
  else { s with poisoned := pa :: s.poisoned }

/-- A byte of a `SELFINV` line in an L1 becomes uncorrectable (R363). -/
def State.selfPoison (s : State) (core pa : Nat) : State :=
  s.modCore core (fun c => { c with self := c.self.map (fun b => if b.pa = pa then { b with bad := true } else b) })

/-- A byte of a team's frames becomes uncorrectable (R363). -/
def State.scrPoison (s : State) (t : TeamId) (off : Nat) : State :=
  s.modTeam t (fun t =>
    if t.pinned && decide (off < t.wsize) && !t.winBad.contains off then { t with winBad := off :: t.winBad } else t)

/-- `PORT_FAIL_RECORD` (R16, R370): a port with uncorrectable slots is recorded as failed; its core runs at half width from
the next reset, if the record can be made. -/
def execPortFailRecord (core port : Nat) (s : State) : Host.Outcome State Fault Refusal :=
  .next (if s.portErr.any (fun x => x.1 == core && x.2.1 == port) && !(s.badPorts.contains (core, port)) then
      s.record (.port core port) (fun s => { s with badPorts := s.badPorts ++ [(core, port)] })
    else s)

/-- `CHANNEL_FENCE` (R365, R370): the channel's lines are poisoned at home from now on; the record is made before the host hears of it. -/
def execChannelFence (stack chan : Nat) (s : State) : Host.Outcome State Fault Refusal :=
  let c := stack * 32 + chan
  .next (if s.hasStack stack && decide (chan < 32) && !(s.fencemap.contains c) then
      let s1 := if s.fenceRecs.contains c then s
        else s.record (.channel c) (fun s => { s with fenceRecs := s.fenceRecs ++ [c] })
      let s2 : State := { s1 with fencemap := c :: s.fencemap, msix := 1 :: s.msix }
      s2.count (stack / 2) 0x49 1
    else s)

/-- `SCRUB` (R363): a line is read and rewritten as it is. -/
def execScrub (_pa : Nat) (s : State) : Host.Outcome State Fault Refusal := .next s

/-- `LINK_ERROR_RETRY` (R364): corrected by retry, and counted. -/
def execLinkErrorRetry (wheel : Nat) (cxl : Bool) (s : State) : Host.Outcome State Fault Refusal :=
  .next (s.count wheel (if cxl then 0x4C else 0x4B) 1)

/-! ## Throttle events (R367) -/

/-- `THROTTLE_EVENT` (R296, R367): `MCLKRATIO` is written, the clock changes, `THROT` is updated, and MSI-X vector 2 is raised. -/
def execThrottleEvent (wheel clk25 reason ratio : Nat) (s : State) : Host.Outcome State Fault Refusal :=
  .next (if s.powered && s.hasWheel wheel then
      let s1 := s.writeMclk wheel (BitVec.ofNat 64 ratio)
      { s1 with msix := 2 :: s1.msix }.modWheel wheel (fun w =>
        { w with throtEvents := (w.throtEvents + 1) % 2 ^ 32, clk25 := clk25 % 256, throtReason := Nat.lor w.throtReason (reason % 32) })
    else s)

/-- `THROTTLE_CAUSE_END` (R367): a cause no longer holds. -/
def execThrottleCauseEnd (wheel bit : Nat) (s : State) : Host.Outcome State Fault Refusal :=
  .next (s.modWheel wheel (fun w =>
    { w with throtReason := if w.throtReason.testBit bit then w.throtReason - 2 ^ bit else w.throtReason }))

end Sys2Proof.Machine
end

