-- ==== Sys2Proof/Machine/KeyLook.lean ====
section
/-! DEFINITION. The key lookup engine: half-key tables, scoring, weights, gathers and gradients, and the `KL` family
(R328 to R344). -/

namespace Sys2Proof.Machine

open Sys2Proof

/-! ## Numbers (R330 to R334) -/

/-- The dot product of R113 from the leaves of a row: blocks of 32, added in order from +0. -/
def dotBlocks : Nat → List Nat → Nat → Nat
  | 0, _, acc => acc
  | n + 1, ls, acc =>
    let b := ls.take 32
    dotBlocks n (ls.drop 32) (f32.add acc (treeSum f32.add 5 (b ++ List.replicate (32 - b.length) 0)))

/-- C[0][0] of R113 of two rows of a format. -/
def dotRows (f : Fmt) (a b : List Nat) : Nat :=
  dotBlocks ((a.length + 31) / 32) ((a.zip b).map (fun x => leaf f f x.1 x.2)) 0

/-- The values of packed little-endian elements of `u` bytes. -/
def elemsOf (u : Nat) (n : Nat) (bs : List Byte) : List Nat := (List.range n).map (fun i => leNat ((bs.drop (u * i)).take u))

/-- Whether a scored index ranks before another (R331). -/
def ranks (x y : Nat × Nat) : Bool :=
  if f32.isNan x.2 then f32.isNan y.2 && decide (x.1 < y.1)
  else if f32.isNan y.2 then true
  else decide (f32.key y.2 < f32.key x.2) || (f32.key x.2 == f32.key y.2 && decide (x.1 < y.1))

/-- A scored index put into a ranked list of at most k. -/
def rankIn (k : Nat) (x : Nat × Nat) (l : List (Nat × Nat)) : List (Nat × Nat) :=
  (l.takeWhile (fun y => ranks y x) ++ x :: l.dropWhile (fun y => ranks y x)).take k

/-- The best k of some scored indexes, in rank order (R331). -/
def best (k : Nat) (l : List (Nat × Nat)) : List (Nat × Nat) := l.foldl (fun acc x => rankIn k x acc) []

/-- The scores of a table's entries under half a query (R330): an uncorrectable entry scores as zeros. -/
def KlTable.scores (t : KlTable) (q : List Nat) : List (Nat × Nat) :=
  (List.range t.n).map (fun i =>
    let e := if t.bad.contains i then List.replicate t.hd 0 else elemsOf 2 t.hd (t.data.drop (2 * t.hd * i))
    (i, dotRows bf16 q e))

/-- The candidates of two half lists (R331). -/
def pairBest (k n : Nat) (a b : List (Nat × Nat)) : List (Nat × Nat) :=
  best k (a.flatMap (fun x => b.map (fun y => (x.1 * n + y.1, f32.add x.2 y.2))))

/-- The sum of some series values and binary exponents, at the least exponent (R332, `SME`). -/
def sumSeries (l : List (Nat × Int)) : Nat × Int :=
  let q := l.foldl (fun m x => min m x.2) 0
  (l.foldl (fun n x => n + x.1 * 2 ^ (x.2 - q).toNat) 0, q)

/-- The weights of the candidates' scores (R332): `WMODE` 0 `SM2`, 1 `SME`, 2 `RAW`. -/
def weights (wmode : Nat) (ss : List Nat) : List Nat :=
  if ss.any (fun x => f32.isNan x || f32.isInf x) then ss.map (fun _ => f32.nan)
  else
    let m := ss.headD 0
    if wmode = 0 then
      let es := ss.map (fun x => f32.round .rn (f32.val (f32.sub x m)).exp2)
      let sum := es.foldl f32.add 0
      es.map (fun e => f32.div e sum)
    else if wmode = 1 then
      let es := ss.map (fun x => expNeg ((f32.val x).add (f32.val m).neg))
      let sum := sumSeries es
      es.map (fun e => f32.round .rn ((Val.fin false e.1 e.2).div (Val.fin false sum.1 sum.2)))
    else ss

/-! ## Tables (R328, R329, R340) -/

/-- A vat's table of a handle, where one is not free. -/
def Vat.table? (v : Vat) (h : Nat) : Option KlTable := v.tables.find? (fun t => t.h == h && t.st != 0)

/-- The granules that a vat's tables hold, but for one handle. -/
def Vat.klUsed (v : Vat) (but : Nat) : Nat :=
  ((v.tables.filter (fun t => t.h != but && t.st != 0)).map (·.gran)).foldl (· + ·) 0

/-- Whether an operation names a handle: a queued one, or the one served, some of whose commands are still to be sent (R340, R344). -/
def Vat.named (v : Vat) (h : Nat) : Bool :=
  v.klq.any (fun o => o.tab1 == h || o.tab2 == h) || v.sends.any (fun o => o.tab1 == h || o.tab2 == h)

/-- The operations in a vat's queue, the one served among them until it has sent its commands (R328, R341, R344). -/
def Vat.queued (v : Vat) : Nat := v.klq.length + (if v.sends.isEmpty then 0 else 1)

/-- A vat's table of a handle removed. -/
def State.freeTable (s : State) (vat h : Nat) : State :=
  s.modVat vat (fun v => { v with tables := v.tables.filter (fun t => t.h != h) })

/-- Whether a `PKTAB` word of a team of the vat waits on a handle (R340). -/
def State.pktabWaits (s : State) (vat h node : Nat) : Bool :=
  s.teams.any (fun t => t.id.node == node && vatOf t.core == vat && t.groups.any (fun g => g.waits.any (fun w =>
    match (decodeWord w.word).toOption with
    | some (.pktab _ r) => r.val == h
    | _ => false)))

/-- Some more pages of a table's image read: the table is ready once the key SRAM holds them all; a fault ends the load, the table being
left free while its word waits, else in state fault (R340). -/
def State.pktabRead (s : State) (vat pages : Nat) (t : KlTable) : State :=
  let total := 2 * t.n * t.hd
  let r := State.readPages t.by_ (4 * vat) t.space t.src total (plainUnits (t.n * t.hd) 2) pages s t.data
  let waits := s.pktabWaits vat t.h t.node
  r.1.modVat vat (fun v => { v with tables := v.tables.map (fun x =>
    if x.h = t.h then
      match r.2.2 with
      | some f => { x with st := if waits then 0 else 3, data := [], flt := if waits then some (f.1.detail, f.1.level, f.2) else none }
      | none => { x with st := if total ≤ r.2.1.length then 2 else 1, data := r.2.1 }
    else x) })

/-- A table of a vat that is loading. -/
def State.pktabOf (s : State) (vat h : Nat) : Option KlTable :=
  ((s.vat vat).table? h).bind (fun t => if t.st = 1 then some t else none)

/-- A load reads one page of its image (R340). -/
def State.pktabPage (s : State) (vat h : Nat) : State :=
  match s.pktabOf vat h with
  | some t => s.pktabRead vat 1 t
  | none => s

/-- `KL_TABLE_LOAD_FINISH` (R340): the image is in the key SRAM and the table ready, or a fault ends the load. -/
def execKlTableLoadFinish (vat h : Nat) (s : State) : Host.Outcome State Fault Refusal :=
  .next (match s.pktabOf vat h with
    | some t => s.pktabRead vat (2 * t.n * t.hd / 2 ^ 17 + 2) t
    | none => s)

/-- The start of a load (R340): the checks of a descriptor address, then the table loading. -/
def State.pktabLoad (s : State) (t : Team) (g : Group) (q : BitVec 6) (h va : Nat) : Res :=
  let vat := vatOf g.core
  let v := s.vat vat
  if va % 16 ≠ 0 then s.fin q stRejected 0
  else
    s.reading t g va 16 (fun s bs =>
      let img := va56 (field bs 0 8)
      let n := field bs 8 2 + 1
      let hd := field bs 10 2 + 1
      let gran := (2 * n * hd + 65535) / 65536
      if img % 64 ≠ 0 || decide (2048 < n) || decide (512 < hd) || !allZero bs 12 4 ||
          (v.table? h).any (fun x => x.node != t.id.node) then s.fin q stRejected 0
      else if v.named h || decide (Config.keyGranules < v.klUsed h + gran) then s.fin q stBusy 0
      else
        let x : KlTable :=
          { h := h, node := t.id.node, n := n, hd := hd, st := 1, gran := gran, space := t.space, src := img,
            by_ := s.issuer, flt := none, data := [], bad := [] }
        .wait ((s.freeTable vat h).modVat vat (fun v => { v with tables := v.tables ++ [x] })) 0)

/-- A later examination of a load (R340). -/
def State.pktabSeen (s : State) (g : Group) (q : BitVec 6) (h : Nat) : Res :=
  match (s.vat (vatOf g.core)).tables.find? (fun x => x.h == h) with
  | none => s.fin q stRejected 0
  | some x =>
    match x.flt with
    | some f => .trap (s.wordTrap 8 f.1 f.2.2 f.2.1 0)
    | none => if x.st = 1 then .wait s 0 else if x.st = 2 then s.fin q stOk x.gran else s.fin q stRejected 0

/-- `PKTAB` (R340, R343): a load is a release at core scope. -/
def execPktab (e : EF) (h : Fin 16) (s : State) : Host.Outcome State Fault Refusal :=
  s.asE true [e.p.toNat] e.q e.x none (fun t g =>
    let p := (g.sreg e.p.toNat).toNat
    let v := s.vat (vatOf g.core)
    if p = 1 then
      match v.table? h.val with
      | some x => s.fin e.q stOk (x.st + x.gran * 2 ^ 8)
      | none => s.fin e.q stOk 0
    else if p = 0 then
      if v.named h.val then s.fin e.q stBusy 0
      else if (v.table? h.val).any (fun x => x.node != t.id.node) then s.fin e.q stRejected 0
      else (s.freeTable (vatOf g.core) h.val).fin e.q stOk 0
    else if s.iss.mode = .issue ∨ s.iss.mode = .serial then
      if s.toQueue t then .done s else
      s.releasing t g 3 (fun s => s.pktabLoad t g e.q h.val (va56 p))
    else s.pktabSeen g e.q h.val)

/-! ## PKLOOK, PKGRAD, PKWAIT (R335, R341, R342) -/

/-- An address of the window that a block or a register names: the place, or the trap's cause and address. -/
def State.klScr (s : State) (t : TeamId) (addr n align : Nat) : Except (Nat × Nat) ScrAt :=
  match s.scrAt t addr n with
  | .error c => .error (c, va56 addr)
  | .ok a => if addr % align ≠ 0 then .error (7, addr) else .ok a

/-- The invalid blocks (R335, R341), of two tables that are ready and alike. -/
def klBad (grad : Bool) (bs : List Byte) (n : Nat) : Bool :=
  let f := field bs
  let md := f 11 1
  let es := if md.testBit 3 then 2 else 4
  !allZero bs 34 6 || !allZero bs 60 68 || md / 64 != 0 || decide (4095 < f 32 2) || md % 4 == 3 ||
    (md.testBit 4 == (f 40 8 == 0)) || f 16 8 % es != 0 || f 12 4 % es != 0 || f 24 8 % 4 != 0 || f 40 8 % 16 != 0 ||
    f 10 1 == 0 || decide (min 64 n < f 10 1) ||
    (if grad then md.testBit 3 || f 48 8 == 0 else (f 24 8 == 0) != md.testBit 5)

/-- A tag that is queued, running, or has line jobs outstanding (R341). -/
def KlTag.busy (x : KlTag) : Bool := x.st == 1 || x.st == 2 || x.st == 3

/-- A team's key lookup tag. -/
def Team.klTag (t : Team) (n : Nat) : KlTag := t.kl.getD n ⟨0, 0, none⟩

/-- An update of a key lookup tag. -/
def State.modKl (s : State) (t : TeamId) (n : Nat) (f : KlTag → KlTag) : State :=
  s.modTeam t (fun t => { t with kl := modAt f n t.kl })

/-- An operation enqueued with its range scoreboard entries (R337, R341): none while there is no room. -/
def State.klEnqueue (s : State) (t : Team) (g : Group) (q : BitVec 6) (tag : Nat) (o : KlOp) (qn : Nat) : Option Res :=
  let vat := vatOf g.core
  let pos := (s.vat vat).queued
  let place (addr n : Nat) : List (Nat × TeamId × Nat × Nat) :=
    match s.scrAt t.id addr n with
    | .ok a => s.spanEntries (spans [(a, n)])
    | .error _ => []
  if Config.klQueue ≤ pos then none
  else
    match s.addEntries (.kl tag false) (if o.grad then [] else place o.q qn) with
    | none => none
    | some r =>
      match r.1.addEntries (.kl tag true) (place o.o 2560) with
      | none => none
      | some r2 =>
        let s1 := r2.1.tick
        let o := { o with id := r2.1.fresh, entries := r.2 ++ r2.2 }
        let s2 := (s1.modVat vat (fun v => { v with klq := v.klq ++ [o] })).modKl t.id tag (fun _ => ⟨1, 0, none⟩)
        some (s2.fin q stOk pos)

/-- The two tables that a block names, where they are ready and alike (R341). -/
def State.klTabs (s : State) (t : Team) (g : Group) (bs : List Byte) : Option KlTable :=
  let ok (h : Nat) : Option KlTable :=
    match (s.vat (vatOf g.core)).table? h with
    | some x => if x.st = 2 ∧ x.node = t.id.node then some x else none
    | none => none
  match ok (field bs 8 1), ok (field bs 9 1) with
  | some x, some y => if x.n = y.n ∧ x.hd = y.hd then some x else none
  | _, _ => none

/-- The operation that a block asks for (R335). -/
def klOpOf (grad : Bool) (bs : List Byte) (t : Team) (g : Group) (tag : Nat) (by_ : Issuer) : KlOp :=
  let f := field bs
  let md := f 11 1
  { id := 0, team := t.id, tag := tag, grad := grad, q := f 0 4, o := f 4 4, tab1 := f 8 1, tab2 := f 9 1,
    k := f 10 1, wmode := md % 4, zero := md.testBit 2, vfmt := md.testBit 3, tc := md.testBit 4,
    nogather := md.testBit 5, stride := f 12 4, vtab := f 16 8, dst := f 24 8, len := f 32 2 + 1,
    tctr := f 40 8, gradv := f 48 8, eta := BitVec.ofNat 32 (f 56 4), entries := [],
    hold := if g.trapMask.isSome then [] else g.hold.send, by_ := by_ }

/-- What `PKLOOK` and `PKGRAD` do with their block (R341). -/
def State.klStart (s : State) (grad : Bool) (t : Team) (g : Group) (q : BitVec 6) (tag : Nat) (bs : List Byte) : Res :=
  let f := field bs
  let tabs := s.klTabs t g bs
  let qn := 4 * ((tabs.map (·.hd)).getD 1)
  let query : Except (Nat × Nat) Unit := if grad then .ok () else (s.klScr t.id (f 0 4) qn 64).map (fun _ => ())
  let places : Except (Nat × Nat) Unit := match query with
    | .error c => .error c
    | .ok _ => (s.klScr t.id (f 4 4) 2560 64).map (fun _ => ())
  match places with
  | .error c => .trap (s.wordTrap c.1 0 c.2 0xFF 0)
  | .ok _ =>
    match tabs with
    | none => s.fin q stRejected 0
    | some x =>
      if klBad grad bs x.n then s.fin q stRejected 0
      else if (t.klTag tag).busy then s.fin q stBusy 0
      else
        match s.klEnqueue t g q tag (klOpOf grad bs t g tag s.issuer) qn with
        | some r => r
        | none => s.waitWith bs

/-- `PKLOOK` and `PKGRAD` (R341): the block is read once (R335). -/
def State.klWord (s : State) (grad : Bool) (e : EF) (tag : Nat) : Host.Outcome State Fault Refusal :=
  s.asE true [e.p.toNat] e.q e.x none (fun t g =>
    match s.keptBlock g with
    | some bs => s.klStart grad t g e.q tag bs
    | none =>
      match s.klScr t.id (g.sreg e.p.toNat).toNat 128 128 with
      | .error c => .trap (s.wordTrap c.1 0 c.2 0xFF 0)
      | .ok a =>
        if s.toQueue t then .done s
        else if s.winHeld a.team a.off 128 then .stall .busy
        else
          let r := s.winBlock s.issuer a.team a.off 128
          (r.1.klStart grad t g e.q tag r.2).gated s t g)

/-- `PKLOOK` (R333, R341). -/
def execPklook (e : EF) (tag : Fin 4) (s : State) : Host.Outcome State Fault Refusal := s.klWord false e tag.val

/-- `PKGRAD` (R334, R341). -/
def execPkgrad (e : EF) (tag : Fin 4) (s : State) : Host.Outcome State Fault Refusal := s.klWord true e tag.val

/-- `PKWAIT` (R342): `OK` is an acquire at device scope. -/
def execPkwait (q : BitVec 6) (x : BitVec 5) (tag : Fin 4) (s : State) : Host.Outcome State Fault Refusal :=
  s.asE true [] q x none (fun t g =>
    let y := t.klTag tag.val
    if y.busy then .wait s y.st
    else if y.st = 4 then .done ((s.putStatus q stOk 4).acquire t g 6)
    else s.fin q stRejected y.st)

/-! ## The engine (R330 to R334, R338, R344) -/

/-- An operation stops (R338): its tag is stopped and its trap pending. -/
def State.klStop (s : State) (o : KlOp) (f : MsFault) : State :=
  (s.modKl o.team o.tag (fun _ => ⟨5, 0, none⟩)).pendAt o.by_ f.cause f.detail f.level f.addr (if f.write then 16 else 0)
    o.by_.slot o.by_.word

/-- Words written in an operation's output area. -/
def State.klOut (s : State) (o : KlOp) (off : Nat) (ws : List Nat) : State :=
  match s.scrAt o.team o.o 2560 with
  | .ok a => s.winWrite a.team (a.off + off) (ws.flatMap (leBytes 4))
  | .error _ => s

/-- Words of an operation's output area at some offsets (R336). -/
def State.klIn (s : State) (o : KlOp) (offs : List Nat) : State × List Nat :=
  match s.scrAt o.team o.o 2560 with
  | .ok a =>
    let r := s.winElems o.by_ a.team 4 (offs.map (a.off + ·))
    (r.1, r.2.map leNat)
  | .error _ => (s, offs.map (fun _ => 0))

/-- The pairs of a gather or scatter cut into commands of 16 (R333, R334). -/
def klCmds (o : KlOp) (ps : List (Nat × Nat)) : List MsSpec :=
  (List.range ((ps.length + 15) / 16)).map (fun c =>
    { atom := o.grad, row := if o.grad then o.gradv else o.dst, tbl := o.vtab, stride := o.stride, len := o.len,
      zero := !o.grad && o.zero && c == 0, sfmt := o.vfmt, ctgt := 0, tc := false, op := 0, tctr := 0,
      pairs := ((ps.drop (16 * c)).take 16).map (fun p => (p.1, BitVec.ofNat 32 p.2)) })

/-- The rows of an operation translated: `DST` or `GRAD`, then the value rows in candidate order (R338). -/
def State.klRows (s : State) (core space : Nat) (o : KlOp) (rs : List Nat) : Except MsFault (List Part × List (List Part)) :=
  let es := if o.vfmt then 2 else 4
  let head : Except MsFault (List Part) :=
    if o.grad then
      match s.xlatElem core space o.gradv (4 * o.len) .read with
      | .error e => .error ⟨8, e.detail, e.level, s.failVA core space o.gradv (4 * o.len) .read, false⟩
      | .ok ps => .ok ps
    else s.msRow core space o.dst (4 * o.len) .write
  match head with
  | .error e => .error e
  | .ok ps =>
    match s.msRows core space (o.len * es) (if o.grad then .write else .read) (rs.map (fun r => va56 (o.vtab + r * o.stride))) with
    | .error e => .error e
    | .ok l => .ok (ps, l)

/-- The task counter of an operation translated (R371). -/
def State.klCtr (s : State) (core space : Nat) (o : KlOp) : Except MsFault (Option Nat) :=
  s.msCtr core space
    { atom := false, row := 0, tbl := 0, stride := 0, len := 0, zero := false, sfmt := false, ctgt := 0, tc := o.tc, op := 0,
      tctr := o.tctr, pairs := [] }

/-- A source of a scatter that the engine has read already: the row g (R334). -/
def gotSrc (g : List Nat) (i : Nat) (x : JobSrc) : JobSrc := if g.isEmpty then x else { x with got := some (g.getD i 0, false) }

/-- The line jobs of a scatter of the row g, as the engine has read it (R334). -/
def gotJobs (g : List Nat) (row : Nat) (js : List (List JobElem)) : List (List JobElem) :=
  js.map (fun es => es.map (fun e => { e with srcs := e.srcs.map (fun x => gotSrc g ((x.va - row) / 4) x) }))

/-- The commands of an operation made, to be sent in order, and counted in its tag (R333). -/
def State.klSend (s : State) (core : Nat) (o : KlOp) (head : List Part) (rows : List (List Part)) (tpa : Option Nat) (g : List Nat) :
    List MsSpec → Nat → State
  | [], n => s.modKl o.team o.tag (fun _ => ⟨if n = 0 then 3 else 2, n, tpa⟩)
  | x :: xs, n =>
    let js := gotJobs g ((head.headD ⟨⟨0, 0, false, false⟩, 0, 0⟩).va) (cmdJobs x head (rows.take x.pairs.length))
    let y : KlSend := { id := s.fresh, team := o.team, tag := o.tag, by_ := o.by_, core := core, tab1 := o.tab1, tab2 := o.tab2, spec := x, jobs := js }
    let s1 := s.tick.modVat (vatOf core) (fun v => { v with sends := v.sends ++ [y] })
    s1.klSend core o head (rows.drop x.pairs.length) tpa g xs (n + 1)

/-- A lookup served (R330 to R333, R336). -/
def State.klLook (s : State) (t : Team) (o : KlOp) (t1 t2 : KlTable) : State :=
  let r0 := match s.scrAt o.team o.q (4 * t1.hd) with
    | .ok a =>
      let r := s.winElems o.by_ a.team 2 ((List.range (2 * t1.hd)).map (fun k => a.off + 2 * k))
      (r.1, r.2.map leNat)
    | .error _ => (s, [])
  let l1 := best o.k (t1.scores (r0.2.take t1.hd))
  let l2 := best o.k (t2.scores (r0.2.drop t1.hd))
  let cand := pairBest o.k t1.n l1 l2
  let ws := weights o.wmode (cand.map (·.2))
  let s := (t1.bad ++ t2.bad).foldl (fun s _ => s.meetSram o.by_ t.core 0) r0.1
  let s := s.klOut o 0 ((cand.zip ws).flatMap (fun x => [x.1.1, x.2, x.1.2, 0]))
  let s := s.klOut o 1024 (l1.flatMap (fun x => [x.1, x.2]))
  let s := s.klOut o 1536 (l2.flatMap (fun x => [x.1, x.2]))
  let s := s.freeEntries o.entries
  let rs := if o.nogather then .ok ([], []) else s.klRows t.core t.space o (cand.map (·.1))
  match rs with
  | .error f => s.klStop o f
  | .ok r =>
    match s.klCtr t.core t.space o with
    | .error f => s.klStop o f
    | .ok c =>
      s.klSend t.core o r.1 r.2 c [] (if o.nogather then [] else klCmds o ((cand.map (·.1)).zip ws)) 0

/-- The values of a row of parts, FP32; an uncorrectable element reads +0 (R290). -/
def State.klRow (s : State) (o : KlOp) (core : Nat) (ps : List Part) : State × List Nat :=
  let r := s.readParts o.by_ core ((ps.headD ⟨⟨0, 0, false, false⟩, 0, 0⟩).va) (plainUnits o.len 4) ps
  (r.1, elemsOf 4 o.len r.2)

/-- ds_p (R334). -/
def klDs (wmode w u dw : Nat) : Nat :=
  if wmode = 0 then f32.mul (f32.mul w u) 0x3F317218 else if wmode = 1 then f32.mul w u else dw

/-- The sums of the ds values over the candidates of each half-list entry (R334). -/
def klSums (idx : List Nat) (of : Nat → Nat) (rs ds : List Nat) : List Nat :=
  idx.map (fun i => (rs.zip ds).foldl (fun acc x => if of x.1 = i then f32.add acc x.2 else acc) 0)

/-- What a gradient reads of its output area: r_p and w_p of the candidates, i_a and j_b of the half lists (R336). -/
def State.klCands (s : State) (o : KlOp) : State × List Nat × List Nat × List Nat × List Nat :=
  let ks := List.range o.k
  let a := s.klIn o (ks.map (16 * ·))
  let b := a.1.klIn o (ks.map (16 * · + 4))
  let c := b.1.klIn o (ks.map (1024 + 8 * ·))
  let d := c.1.klIn o (ks.map (1536 + 8 * ·))
  (d.1, a.2, b.2, c.2, d.2)

/-- A gradient served (R334, R336). -/
def State.klGrad (s : State) (t : Team) (o : KlOp) (t1 : KlTable) : State :=
  let c := s.klCands o
  let s := c.1
  let rs := c.2.1
  let ws := c.2.2.1
  match s.klRows t.core t.space o rs with
  | .error f => (s.freeEntries o.entries).klStop o f
  | .ok r =>
    match s.klCtr t.core t.space o with
    | .error f => (s.freeEntries o.entries).klStop o f
    | .ok ctr =>
      let g := s.klRow o t.core r.1
      let xs := r.2.foldl (fun (a : State × List (List Nat)) ps =>
        let y := a.1.klRow o t.core ps
        (y.1, a.2 ++ [y.2])) (g.1, [])
      let dw := xs.2.map (fun x => dotRows f32 g.2 x)
      let a := (ws.zip dw).foldl (fun acc x => f32.add acc (f32.mul x.1 x.2)) 0
      let ds := (ws.zip dw).map (fun x => klDs o.wmode x.1 (f32.sub x.2 a) x.2)
      let s := mapFrom (fun p d => (p, d)) 0 ds |>.foldl (fun s x => s.klOut o (16 * x.1 + 12) [x.2]) xs.1
      let s := s.klOut o 2048 (klSums c.2.2.2.1 (fun r => r / t1.n) rs ds)
      let s := s.klOut o 2304 (klSums c.2.2.2.2 (fun r => r % t1.n) rs ds)
      let s := s.freeEntries o.entries
      s.klSend t.core o r.1 r.2 ctr g.2 (klCmds o (rs.zip (ws.map (fun w => f32.mul o.eta.toNat w)))) 0

/-- Whether an operation's reads or writes meet what holds them: lines of a sibling's shadow, and, of a gradient, rows across a clock
crossing or on a line that its home does not serve (R148, R199, R203, R296). -/
def State.klHeld (s : State) (t : Team) (o : KlOp) (hd : Nat) : Bool :=
  let win (addr n : Nat) : Bool :=
    match s.scrAt o.team addr n with
    | .ok a => s.winHeld a.team a.off n
    | .error _ => false
  win o.o 2560 || (if o.grad then
      match s.klRows t.core t.space o (s.klCands o).2.1 with
      | .ok r => (r.1 :: r.2).any (fun ps => ps.any s.partHeld)
      | .error _ => false
    else win o.q (4 * hd))

/-- Whether the memory-side work of an operation has to wait: for an `MSFENCE`, for the group's commands before it, or, of a
gradient, for line jobs of the group that its reads would pass (R287, R295, R333, R334). -/
def State.klWaits (s : State) (o : KlOp) : Bool :=
  let mine (b : Issuer) : Bool := decide (b.team = o.team) && b.grp == o.by_.grp
  let inTrap := ((s.grp? ⟨o.team, o.by_.grp⟩).map (fun g => g.trapMask.isSome)).getD false
  (o.grad || !o.nogather) &&
    ((!inTrap && s.cores.any (fun c => c.replay.any (fun p => o.hold.contains p.id))) ||
      s.cmdWaits.any (fun c => mine c.by_ && decide (c.id < o.id)) ||
      (o.grad && s.jobs.any (fun j => s.cmds.any (fun c => c.id == j.cmd && mine c.by_))))

/-- `KL_ACCEPT` (R344): the engine serves the operation at the head of its vat's queue. -/
def execKlAccept (vat : Nat) (s : State) : Host.Outcome State Fault Refusal :=
  let v := s.vat vat
  match v.klq with
  | [] => .next s
  | o :: rest =>
    match s.team? o.team, v.table? o.tab1, v.table? o.tab2 with
    | some t, some t1, some t2 =>
      if !t.onCore || !v.sends.isEmpty || s.klWaits o || s.klHeld t o t1.hd then .next s
      else
        let s1 := s.modVat vat (fun v => { v with klq := rest })
        .next ((if o.grad then s1.klGrad t o t1 else s1.klLook t o t1 t2).klPushes vat)
    | _, _, _ => .next (s.modVat vat (fun v => { v with klq := rest }))

/-- `KL_OPERATION_COMPLETE` (R337): every line job has been performed; the tag becomes complete, then the counter is
decremented. -/
def execKlOperationComplete (t : TeamId) (tag : Nat) (s : State) : Host.Outcome State Fault Refusal :=
  match s.team? t with
  | none => .next s
  | some tm =>
    let x := tm.klTag tag
    if x.st ≠ 3 || x.cmds != 0 || x.tctr.any s.ctrBusy then .next s
    else
      let s1 := s.modKl t tag (fun x => { x with st := 4 })
      .next (match x.tctr with
        | some a => s1.engineDecr a 1
        | none => s1)

/-- A table entry becomes uncorrectable (R330). -/
def State.klPoison (s : State) (vat h i : Nat) : State :=
  s.modVat vat (fun v => { v with tables := v.tables.map (fun t =>
    if t.h = h ∧ t.st = 2 ∧ i < t.n ∧ i ∉ t.bad then { t with bad := i :: t.bad } else t) })

end Sys2Proof.Machine
end

