-- ==== Sys2Proof/Machine/Migrate.lean ====
section
/-! DEFINITION. `SHOOT` and `MIGRATE`: removal of translations, and pages that move (R185, R201 to R203, R320). -/

namespace Sys2Proof.Machine

open Sys2Proof

/-! ## SHOOT -/

/-- The bytes of a region that `SHOOT` names; none for a whole space (R201). -/
def shootBytes : ShootSize → Option Nat
  | .p128k => some (2 ^ 17)
  | .p4m => some (2 ^ 22)
  | .p256m => some (2 ^ 28)
  | _ => none

/-- Whether a shootdown removes a cached entry: leaf or not, every one that translates a byte of the region (R201). -/
def Shoot.hits (x : Shoot) (e : TlbEnt) : Bool :=
  if x.size = .allsp then true
  else
    e.space == x.space &&
      match shootBytes x.size with
      | none => true
      | some n => e.covers (x.va, n)

/-- Whether a shootdown's removal concerns a space. -/
def Shoot.space? (x : Shoot) (space : Nat) : Bool := decide (x.size = .allsp) || x.space == space

/-- The space of a team. -/
def State.spaceOf (s : State) (t : TeamId) : Nat := ((s.launch? t).map (·.space)).getD 0

/-- Whether a shootdown takes the mapping of an object's pages away, with the kept result of its signature (R274). -/
def Shoot.unmaps (x : Shoot) (v : Verified) : Bool :=
  decide (x.size = .allsp) || (v.space == x.space &&
    match shootBytes x.size with
    | none => true
    | some n => overlaps x.va n v.code (v.len + 128))

/-- A shootdown's removal (R185, R201): the entries leave every translation cache, dirty bytes go home, and what is still
on its way under them is noted. -/
def State.shootRemove (s : State) (x : Shoot) : State × Shoot :=
  let s0 := (s.cores.map (·.num)).foldl (fun s c =>
    (s.cleanCore c).modCore c (fun k => { k with tlb := k.tlb.filter (fun e => !x.hits e) })) s
  let s1 : State := { s0 with verified := s0.verified.filter (fun v => !x.unmaps v) }
  let mine (t : TeamId) : Bool := x.space? (s.spaceOf t)
  (s1, { x with
    removed := true
    cmds := (s.cmds.filter (fun c => mine c.by_.team)).map (·.id) ++
      (s.vats.flatMap (fun v => v.sends.filter (fun c => mine c.team))).map (·.id)
    bufs := s.teams.flatMap (fun t => if mine t.id then t.grpIds.filter (fun g =>
      ((s.grp? g).map (fun y => !y.buf.isEmpty)).getD false) else [])
    colls := s.teams.flatMap (fun t => if mine t.id then
      ((List.range 4).filter (fun n => (t.coll n).st == 1)).map (fun n => (t.id, n)) else []) })

/-- Whether everything that a shootdown waits for has reached its home: no home holds a write any more, for a migration, for the host or for
its pushes (R185, R203, R318, R352). -/
def State.shootDone (s : State) (x : Shoot) : Bool :=
  x.cmds.all (fun id => !(s.cmds.any (fun c => c.id == id)) && !(s.vats.any (fun v => v.sends.any (fun c => c.id == id)))) &&
    x.bufs.all (fun g => ((s.grp? g).map (fun y => y.buf.isEmpty)).getD true) &&
    x.colls.all (fun c => ((s.team? c.1).map (fun t => (t.coll c.2).st != 1)).getD true) &&
    s.heldWrites.isEmpty

/-- One shootdown goes on: it removes its entries, or it completes; none when it can do neither. -/
def State.shootStep (s : State) (x : Shoot) : Option (State × Option Shoot) :=
  if !x.removed then
    let r := s.shootRemove x
    some (r.1, if r.1.shootDone r.2 then none else some r.2)
  else if s.shootDone x then some (s, none)
  else none

/-- The shootdowns in order, the first that can go on having done so; one does not pass an earlier one of the same range. -/
def State.shootFirst (s : State) : Nat → List Shoot → List Shoot → Option (State × List Shoot)
  | 0, _, _ => none
  | _, _, [] => none
  | n + 1, done, x :: xs =>
    let blocked := done.any (fun y => decide (y.space = x.space) && decide (y.size = x.size) && y.va == x.va)
    match (if blocked then none else s.shootStep x) with
    | some r => some (r.1, done ++ r.2.toList ++ xs)
    | none => s.shootFirst n (done ++ [x]) xs

/-- `SHOOT_COMPLETE` (R201): a shootdown in flight removes its entries, or completes. -/
def execShootComplete (s : State) : Host.Outcome State Fault Refusal :=
  .next (match s.shootFirst Config.shootLimit [] s.shoots with
    | some r => { r.1 with shoots := r.2 }
    | none => s)

/-- Shootdowns of a word that have not yet started are taken back. -/
def dropQueued (mine : Shoot → Bool) (l : List Shoot) : List Shoot :=
  l.take Config.shootLimit ++ (l.drop Config.shootLimit).filter (fun x => !mine x)

/-- `SHOOT` (R201): a release at device scope, and with `OK` an acquire at it. -/
def execShoot (e : EF) (sz : ShootSize) (s : State) : Host.Outcome State Fault Refusal :=
  s.asE false [e.p.toNat] e.q e.x none (fun t g =>
    if !s.iss.sys then s.notPrivileged
    else
      let va := match shootBytes sz with
        | some n => va56 (g.sreg e.p.toNat).toNat / n * n
        | none => 0
      let mine (x : Shoot) : Bool :=
        decide (x.grp = s.iss.grp) && x.mask == s.iss.mask && x.space == t.space && decide (x.size = sz) && x.va == va
      if s.iss.mode = .issue then
        s.releasing t g 6 (fun s =>
          let x : Shoot :=
            { grp := s.iss.grp, mask := s.iss.mask, space := t.space, size := sz, va := va, removed := false, cmds := [],
              bufs := [], colls := [] }
          if e.x = 0 && decide (Config.shootLimit ≤ s.shoots.length) then .wait s 0
          else .wait { s with shoots := s.shoots ++ [x] } 0)
      else if s.shoots.any mine then
        .wait (if s.iss.mode = .expire then { s with shoots := dropQueued mine s.shoots } else s) 0
      else .done ((s.putStatus e.q stOk 0).acquire t g 6))

/-! ## MIGRATE -/

/-- A parameter block (R202): the bytes of the page, the two pages, the leaf entry's address and its new value. -/
structure MigBlock where
  size : Nat
  old : Nat
  new : Nat
  leafPA : Nat
  leaf : Nat

/-- The parameter block in 32 bytes. -/
def migBlock (bs : List Byte) : MigBlock :=
  let f := field bs
  let sz := f 16 8 % 4
  { size := if sz = 0 then 2 ^ 17 else if sz = 1 then 2 ^ 22 else 2 ^ 28, old := f 0 8, new := f 8 8,
    leafPA := f 16 8 / 8 * 8, leaf := f 24 8 }

/-- What `MIGRATE.go` refuses (R202). -/
def State.migBad (s : State) (bs : List Byte) (m : MigBlock) : Bool :=
  let lv := if m.size = 2 ^ 17 then 3 else if m.size = 2 ^ 22 then 2 else 1
  let gone (pa : Nat) : Bool := decide (hbmTop ≤ pa) || s.absent pa
  fld (field bs 16 8) 0 2 == 3 || fld (field bs 16 8) 2 1 == 1 || decide (2 ^ 52 ≤ m.leafPA) || m.old % m.size != 0 ||
    m.new % m.size != 0 || m.old == m.new || gone m.old || gone m.new || s.absent m.leafPA || m.leaf % 2 == 0 ||
    fld m.leaf 1 1 == 0 || malformed lv m.leaf || fld m.leaf 4 1 == 1 || fld m.leaf 8 44 * 256 != m.new

/-- Two pages overlap. -/
def pagesMeet (a n b m : Nat) : Bool := decide (a < b + m) && decide (b < a + n)

/-- Whether a page overlaps one of a migration in flight. -/
def State.migMeets (s : State) (pa n : Nat) : Bool :=
  s.migrations.any (fun m => pagesMeet pa n m.old m.size || pagesMeet pa n m.new m.size)

/-- A word's wait for the switch of the migration of an old page, in place of any earlier one of its threads. -/
def State.migWait (s : State) (old : Nat) : State :=
  let me := (s.iss.grp, s.iss.mask)
  { s with migrations := s.migrations.map (fun m =>
      let ws := m.waiters.filter (fun w => decide (w ≠ me))
      { m with waiters := if m.old = old then ws ++ [me] else ws }) }

/-- Copies that first-level caches hold of a page's `DIR` lines, gone from them when its lines are locked. -/
def State.lockPage (s : State) (pa n : Nat) : State :=
  let inPage (a : Nat) : Bool := decide (pa ≤ a) && decide (a < pa + n)
  { (s.giveBack (fun e => inPage e.1)) with
    cores := s.cores.map (fun c =>
      { c with tags := c.tags.filter (fun x => !inPage (x.line * 128) || c.self.any (fun b => lineOf b.pa == x.line)) }) }

/-- The bytes of a page copied, with the uncorrectable ones, when its lines are locked: what other writers do to the old page from then on
is held, or, under `MEMSIDE`, never carried over (R203). A kept signature result of an object there goes (R274). -/
def State.copyPage (s : State) (m : MigBlock) : State :=
  let inNew (a : Nat) : Bool := decide (m.new ≤ a) && decide (a < m.new + m.size)
  let inOld (a : Nat) : Bool := decide (m.old ≤ a) && decide (a < m.old + m.size)
  let kept (a : Nat) : Bool := inNew a && s.hostLines.contains (lineOf a)
  let lost : List Nat := if s.fencemap.isEmpty && s.gone.isEmpty then [] else (rangeFrom m.old m.size).filter s.fenced
  let base : Memory := s.mem.filter (fun c => !inNew c.1 || kept c.1)
  { s with
    verified := s.verified.filter (fun v => !(v.pages.any (fun p => inNew (p * 2 ^ 17) || pagesMeet (p * 2 ^ 17) (2 ^ 17) m.new m.size)))
    mem := (s.mem.filter (fun c => inOld c.1 && !kept (m.new + (c.1 - m.old)))).foldl
      (fun (x : Memory) c => x.write (m.new + (c.1 - m.old)) c.2) base
    poisoned := s.poisoned.filter (fun a => !inNew a || kept a) ++
      ((s.poisoned.filter inOld ++ lost).map (fun a => m.new + (a - m.old))).filter (fun a => !kept a) }

/-- The lines of the new page that the host may hold are copied once it has answered a snoop: until then the copy of such a line is a
write that waits (R203, R352). -/
def State.copyHeld (s : State) (m : MigBlock) : State :=
  (s.hostLines.filter (fun l => decide (m.new ≤ 128 * l) && decide (128 * l < m.new + m.size))).foldl (fun s l =>
    let old := m.old + (128 * l - m.new)
    s.snoopWrite ⟨cellsAt (128 * l) ((rangeFrom old 128).map (fun a => if s.homeBad a then 0 else s.atHome a)), none, false, 3, []⟩ l) s

/-- A migration starts: its lines are locked and copied (R203). -/
def State.migStart (s : State) (m : MigBlock) : State :=
  let s1 := (s.lockPage m.old m.size).lockPage m.new m.size
  let x : Migration :=
    { old := m.old, new := m.new, size := m.size, leafPA := m.leafPA, leaf := m.leaf, switched := false, held := [],
      waiters := [] }
  let s2 := (s1.copyPage m).copyHeld m
  { s2 with migrations := s2.migrations ++ [x] }

/-- A later examination of a wait for a switch: a migration that is gone had switched (R202). -/
def State.migSeen (s : State) (t : Team) (g : Group) (q : BitVec 6) : Res :=
  let me := (s.iss.grp, s.iss.mask)
  let out := { s with migrations := s.migrations.map (fun m =>
    { m with waiters := m.waiters.filter (fun w => decide (w ≠ me)) }) }
  if s.migrations.any (fun m => !m.switched && m.waiters.contains me) then
    .wait (if s.iss.mode = .expire then out else s) 0
  else .done ((out.putStatus q stOk 0).acquire t g 6)

/-- A word of `MIGRATE` with its block (R61, R202). -/
def State.migWord (s : State) (e : EF) (f : State → Team → Group → List Byte → Res) : Host.Outcome State Fault Refusal :=
  s.asE false [e.p.toNat] e.q e.x none (fun t g =>
    if !s.iss.sys then s.notPrivileged
    else if s.iss.mode ≠ .issue then s.migSeen t g e.q
    else
      let va := va56 (g.sreg e.p.toNat).toNat
      if va % 32 ≠ 0 then s.fin e.q stRejected 0
      else
        s.reading t g va 32 (fun s bs => f s t g bs))

/-- `MIGRATE.go` (R202, R203). -/
def execMigrateGo (e : EF) (s : State) : Host.Outcome State Fault Refusal :=
  s.migWord e (fun s _ _ bs =>
    let m := migBlock bs
    if s.migBad bs m then s.fin e.q stRejected 0
    else if decide (Config.migrateLimit ≤ s.migrations.length) || s.migMeets m.old m.size || s.migMeets m.new m.size then
      s.fin e.q stBusy 0
    else .wait ((s.migStart m).migWait m.old) 0)

/-- `MIGRATE.wait` (R202). -/
def execMigrateWait (e : EF) (s : State) : Host.Outcome State Fault Refusal :=
  s.migWord e (fun s t g bs =>
    let old := (migBlock bs).old
    match s.migrations.find? (fun m => m.old == old) with
    | none => s.fin e.q stRejected 0
    | some m => if m.switched then .done ((s.putStatus e.q stOk 0).acquire t g 6) else .wait (s.migWait old) 0)

/-- `MIGRATE.end` (R202, R203): accesses to the old page are performed on it again. -/
def execMigrateEnd (e : EF) (s : State) : Host.Outcome State Fault Refusal :=
  s.migWord e (fun s _ _ bs =>
    let old := (migBlock bs).old
    if s.migrations.any (fun m => m.old == old && m.switched) then
      ({ s with migrations := s.migrations.filter (fun m => m.old != old) }).fin e.q stOk 0
    else s.fin e.q stRejected 0)

/-- Whether a migration has still to wait before its switch: for copies of lines that the host may hold, or for the home of its leaf
entry, which holds writes (R203, R352). -/
def State.switchWaits (s : State) (m : Migration) : Bool :=
  let others : State := { s with migrations := s.migrations.filter (fun x => x.old != m.old) }
  (rangeFrom m.leafPA 8).any others.writeLocked ||
    s.snoops.any (fun x => x.writes.any (fun h => h.attr == 3 && h.core.isNone && h.cells.any (fun c =>
      decide (m.new ≤ c.1) && decide (c.1 < m.new + m.size))))

/-- `MIGRATION_SWITCH` (R203, R320): the leaf entry is written, the held writes applied, the locks cleared;
subscriptions move with their lines, and the old page forwards. Where the host may hold the entry's line, it is snooped first (R352). -/
def execMigrationSwitch (old : Nat) (s : State) : Host.Outcome State Fault Refusal :=
  match s.migrations.find? (fun m => m.old == old && !m.switched) with
  | none => .next s
  | some m =>
    if s.switchWaits m then .next (if s.hostHeld m.leafPA then s.sendSnoop (lineOf (s.fwd m.leafPA)) else s)
    else
    let moved (a : Nat) : Nat := if m.old ≤ a ∧ a < m.old + m.size then m.new + (a - m.old) else a
    let s1 : State :=
      { s with
        migrations := s.migrations.map (fun x => if x.old = old then { x with switched := true, held := [] } else x)
        subs := s.subs.map (fun x => { x with pa := moved x.pa })
        causal := s.causal.map (fun e => (moved e.1, e.2)) }
    .next (m.held.foldl (fun s h => s.writeLine h) (s1.homeWriteL 0 m.leafPA (leBytes 8 m.leaf)))

end Sys2Proof.Machine
end

