-- ==== Sys2Proof/Machine/Pool.lean ====
section
/-! DEFINITION. The wheel pools: dispatch steps, pre-emption for room, the completion of a node, and the delivery of
pending traps (R84, R250 to R255, R298, R311, R345). -/

namespace Sys2Proof.Machine

open Sys2Proof

/-! ## Ready nodes (R251) -/

/-- The saved teams of a node that wait for a place, in increasing index. -/
def State.savedTeams (s : State) (n : Node) : List Team :=
  sortBy (fun a b => decide (a.id.idx < b.id.idx)) (s.teams.filter (fun t => t.id.node == n.id && decide (t.loc = .saved)))

/-- Whether a node has a team to place. -/
def State.unplaced (s : State) (n : Node) : Bool :=
  !n.ending && (n.ready && decide (n.next < n.l.teams) || s.teams.any (fun t => t.id.node == n.id && decide (t.loc = .saved)))

/-- The order of ready nodes: priority, then ready cycle, then instance id. -/
def Node.before (a b : Node) : Bool :=
  if a.l.prio ≠ b.l.prio then decide (b.l.prio < a.l.prio)
  else if a.readyAt ≠ b.readyAt then decide (a.readyAt < b.readyAt)
  else decide (a.id < b.id)

/-- The ready nodes of a pool that have a team to place, first one first. -/
def State.readyNodes (s : State) (wheel : Nat) : List Node :=
  sortBy Node.before (s.nodes.filter (fun n => n.wheel == wheel && s.unplaced n))

/-! ## Placing the teams of a node (R251 to R255, R345) -/

/-- The vat of a gang node's quad. -/
def Node.vatOf (n : Node) (idx : Nat) : Option Nat := (n.vats.find? (fun x => x.1 == idx / 4)).map (·.2)

/-- Where a saved team goes: a gang team only into the vat it left (R255). -/
def State.placeOf (s : State) (n : Node) (t : Team) : Option Nat :=
  if s.saveHeld t n.l then none else
  match n.vatOf t.id.idx with
  | some v => s.findInVat v (t.wants n.l)
  | none => s.findPlace n.wheel (t.wants n.l)

/-- The saved teams of a node restored, as many as fit. -/
def State.restoreAll (s : State) (n : Node) : List Team → State
  | [] => s
  | t :: ts =>
    match s.placeOf n t with
    | some c => (s.restoreTeam t n.l c).restoreAll n ts
    | none => s.restoreAll n ts

/-- New teams of a node started from an index on, while they fit; their number. One that has been brought in from another device stands
already (R356). -/
def State.startAll (s : State) (n : Node) (idx : Nat) : Nat → State × Nat
  | 0 => (s, 0)
  | k + 1 =>
    if (s.team? ⟨n.id, idx⟩).isSome then
      let r := s.startAll n (idx + 1) k
      (r.1, r.2 + 1)
    else
    match s.findPlace n.wheel n.l.wants with
    | some c =>
      let r := (s.startTeam ⟨n.id, idx⟩ n.l c).startAll n (idx + 1) k
      (r.1, r.2 + 1)
    | none => (s, 0)

/-- Whether a vat is passed over for a quad: it has a half-width core, and the quad's teams together have more groups than such a core
holds (R18, R19). R271 gives a team at most 16 groups, so that no team alone can (DEDUCED, notes/assumptions/43.md). -/
def State.quadTooWide (s : State) (vat groups : Nat) : Bool :=
  decide (24 < groups) && (rangeFrom (4 * vat) 4).any (fun c => (s.core c).halfWidth)

/-- Teams of one quad started in a vat; none when one of them does not fit. -/
def State.startQuad (s : State) (n : Node) (vat idx : Nat) : Nat → Option State
  | 0 => some s
  | k + 1 =>
    if (s.team? ⟨n.id, idx⟩).isSome then s.startQuad n vat (idx + 1) k
    else
    match s.findInVat vat n.l.wants with
    | some c => (s.startTeam ⟨n.id, idx⟩ n.l c).startQuad n vat (idx + 1) k
    | none => none

/-- The vats in the order a pool searches. -/
def State.searchVats (s : State) (wheel : Nat) : List Nat := (s.searchOrder wheel).flatMap (fun w => rangeFrom (16 * w) 16)

/-- The quads of a gang node started from quad m on, each in a vat of its own; none when one finds no vat (R255). -/
def State.startGang (s : State) (n : Node) (m : Nat) (vats : List Nat) : Nat → Option (State × List (Nat × Nat))
  | 0 => some (s, [])
  | k + 1 =>
    let size := min 4 (n.l.teams - 4 * m)
    match vats.findSome? (fun v =>
      if s.quadTooWide v (size * n.l.groups) then none else (s.startQuad n v (4 * m) size).map (fun s' => (v, s'))) with
    | none => none
    | some (v, s') =>
      match s'.startGang n (m + 1) (vats.filter (fun x => x != v)) k with
      | none => none
      | some r => some (r.1, (m, v) :: r.2)

/-- The teams that cores can hold at most: a bound on what one dispatch step starts. -/
def maxTeams : Nat := Config.cores * 48

/-- New teams of a node placed as its flags say, and the node brought up to date; none when nothing is placed. -/
def State.startNew (s : State) (n : Node) : Option State :=
  let s0 := if n.next = 0 then s.icinvBody n.wheel n.l else s
  if n.l.teams ≤ n.next ∨ !n.ready then none
  else if n.l.gang then
    match s0.startGang n 0 (s.searchVats n.wheel) ((n.l.teams + 3) / 4) with
    | some r => some (r.1.modNode n.id (fun n => { n with next := n.l.teams, vats := r.2 }))
    | none => none
  else
    let r := s0.startAll n n.next (min maxTeams (n.l.teams - n.next))
    if r.2 = 0 || (n.l.det && r.2 != n.l.teams) then none
    else some (r.1.modNode n.id (fun n => { n with next := n.next + r.2 }))

/-- The teams of a node that fit are placed; none when no team fits. -/
def State.placeNode (s : State) (n : Node) : Option State :=
  let saved := s.savedTeams n
  if saved.any (fun t => (s.placeOf n t).isSome) then
    let s1 := s.restoreAll n saved
    some ((s1.startNew n).getD s1)
  else s.startNew n

/-- Whether a pool makes a dispatch step now (R251). -/
def State.dispatchDue (s : State) (wheel : Nat) : Bool :=
  s.hasWheel wheel && !(s.readyNodes wheel).isEmpty &&
    (match (s.wheel wheel).lastDispatch with
      | some c => decide (c + 16 ≤ s.now (wheelAgent wheel))
      | none => true)

/-- `DISPATCH_STEP` (R251 to R255): the first ready node that has a team which fits has its teams placed. -/
def execDispatchStep (wheel : Nat) (s : State) : Host.Outcome State Fault Refusal :=
  .next (if s.dispatchDue wheel then
      let s1 := ((s.readyNodes wheel).findSome? s.placeNode).getD s
      s1.modWheel wheel (fun w => { w with lastDispatch := some (s.now (wheelAgent wheel)) })
    else s)

/-- Whether, of two pools that make a dispatch step in one cycle, the second one's first node ranks higher: its placement is made first
(R251, R252). -/
def State.ranksAbove (s : State) (a b : Nat) : Bool :=
  let first (w : Nat) : Option Node := if s.dispatchDue w then (s.readyNodes w).find? (fun n => (s.placeNode n).isSome) else none
  match first a, first b with
  | some x, some y => y.before x
  | _, _ => false

/-! ## Pre-emption for room (R254) -/

/-- The teams of a node that wait for a place, saved ones first: what each wants, and the vat it is tied to. -/
def State.waiting (s : State) (n : Node) : List (List Want × Option Nat) :=
  (s.savedTeams n).map (fun t => (t.wants n.l, n.vatOf t.id.idx)) ++
    (if n.ready && decide (n.next < n.l.teams) then [(n.l.wants, none)] else [])

/-- The cores on which a team may be placed. -/
def State.coresFor (s : State) (vat : Option Nat) : List Nat :=
  match vat with
  | some v => rangeFrom (4 * v) 4
  | none => (List.range Config.cores).filter (fun c => s.hasWheel (wheelOf c))

/-- The priority of a team's node. -/
def State.prioOf (s : State) (t : Team) : Nat := ((s.launch? t.id).map (·.prio)).getD 0

/-- The cores of a place. -/
def placeCores (core : Nat) (ws : List Want) : List Nat := rangeFrom core ws.length

/-- The teams that a place could save for a node of priority p: lowest priority first, then the one dispatched last. -/
def State.victims (s : State) (p : Nat) (cores : List Nat) : List Team :=
  sortBy (fun a b =>
      if s.prioOf a ≠ s.prioOf b then decide (s.prioOf a < s.prioOf b) else decide (b.placedAt < a.placedAt))
    (s.teams.filter (fun t => t.pinned && t.groups.any (fun g => cores.contains g.core) && decide (s.prioOf t < p)))

/-- The state as the saves of some teams would leave it, as far as room is concerned. -/
def State.without (s : State) (ts : List Team) : State :=
  let gone (x : TeamId) : Bool := ts.any (fun t => decide (t.id = x))
  { s with
    teams := s.teams.filter (fun t => !gone t.id)
    cores := s.cores.map (fun c => { c with replay := c.replay.filter (fun p => !gone p.grp.team) }) }

/-- The number of a place's first victims whose saves make a team fit there. -/
def State.needed (s : State) (core : Nat) (ws : List Want) (vs : List Team) : Option Nat :=
  (rangeFrom 1 vs.length).find? (fun k => (s.without (vs.take k)).fitsAt core ws)

/-- The place that needs the fewest saves, the lowest core first, and its first victim. -/
def State.choosePlace (s : State) (p : Nat) (ws : List Want) : List Nat → Option (Nat × Nat × Team)
  | [] => none
  | c :: cs =>
    let rest := s.choosePlace p ws cs
    let vs := s.victims p (placeCores c ws)
    match (if ws.length = 2 && c % 2 != 0 then none else s.needed c ws vs), vs with
    | some k, v :: _ =>
      match rest with
      | some (k', c', v') => if k ≤ k' then some (k, c, v) else some (k', c', v')
      | none => some (k, c, v)
    | _, _ => rest

/-- A victim of pre-emption that has been asked to save and is still on its cores. -/
def Team.going (t : Team) : Bool := t.preempt || (match t.loc with | .saving _ => true | _ => false)

/-- The victim whose save makes room for a node's first waiting team that fits no core and for which there is one (R254). -/
def State.roomFor (s : State) (n : Node) : Option (List Nat × Team) :=
  (s.waiting n).findSome? (fun w =>
    let cores := s.coresFor w.2
    if cores.any (fun c => s.fitsAt c w.1) then none
    else (s.choosePlace n.l.prio w.1 cores).map (fun x => (placeCores x.2.1 w.1, x.2.2)))

/-- `PREEMPT_FOR_ROOM` (R254): for the first ready node of a pool, where a team of it fits nowhere, the next victim of the chosen
core is asked to save; one at a time. -/
def execPreemptForRoom (wheel : Nat) (s : State) : Host.Outcome State Fault Refusal :=
  .next (match s.readyNodes wheel with
    | [] => s
    | n :: _ =>
      match s.roomFor n with
      | none => s
      | some (cores, v) =>
        if s.teams.any (fun t => t.going && t.groups.any (fun g => cores.contains g.core)) then s
        else
          (s.modTeam v.id (fun t => { t with preempt := true })).modGrp v.eventGroup (fun g => g.pend (outerTrap 14 0)))

/-! ## The end of a node (R250) -/

/-- Whether some write of a node has not been performed at device scope. -/
def State.nodeBusy (s : State) (node : Nat) : Bool :=
  let mine (by_ : Issuer) : Bool := by_.team.node == node
  s.cmds.any (fun c => mine c.by_) || s.cmdWaits.any (fun c => mine c.by_) ||
    s.vats.any (fun v => v.klq.any (fun o => mine o.by_) || v.sends.any (fun x => mine x.by_)) || !s.pushIds.isEmpty || !s.heldWrites.isEmpty

/-- A node's completion: a release at device scope, the decrement of its completion counter, and the end of its entry (R247,
R250). -/
def execNodeDoneDecrement (node : Nat) (s : State) : Host.Outcome State Fault Refusal :=
  .next (match s.node? node with
    | some n =>
      if n.ending && !s.nodeBusy node then
        let s1 := (s.cores.map (·.num)).foldl (fun s c => s.relSelf c) s
        if !s1.heldWrites.isEmpty || !s1.pushIds.isEmpty || s1.cores.any (fun c => s1.unflushed c.num) || n.l.done.any s1.ctrBusy then s1
        else
          let s2 := match n.l.done with
            | some pa => s1.engineDecr pa 1
            | none => s1
          { s2 with nodes := s2.nodes.filter (fun x => x.id != node) }
      else s
    | none => s)

/-! ## Traps and slots -/

/-- `TRAP_DELIVERY` (R298): a pending trap of a group is taken at a switch point or pre-emption point. -/
def execTrapDelivery (g : GrpId) (s : State) : Host.Outcome State Fault Refusal :=
  .next (match s.team? g.team, s.grp? g with
    | some t, some x => if s.canTake g x && !(s.ownsRun t.space g x) then s.deliver g else s
    | _, _ => s)

/-- Whether a deferred claimant of a core's half has something to send, by its class (R84, R215): load data for a queue, a stream whose
queue has room, an operation that runs or an image that an operand buffer loads, a drain. -/
def State.claims (s : State) (core half cls : Nat) : Bool :=
  let inHalf (gid : GrpId) : Bool := ((s.grp? gid).map (fun g => g.core == core && g.pipe / 2 == half)).getD false
  let c := s.core core
  let lease (f : Lease → Bool) : Bool :=
    !(c.halfWidth && c.deadHalf == half) && s.teams.any (fun t => t.pinned && t.leases.any (fun l => l.core == core && f l))
  match cls with
  | 0 => c.loads.any (fun l => l.q.isSome && l.left == 0 && inHalf l.grp)
  | 1 => c.streams.any (fun x => !x.stopped && inHalf x.grp &&
      ((s.grp? x.grp).map (fun g => (g.queue x.q).roomAll (List.range (g.width / 16)))).getD false)
  | 2 => lease (fun l => l.tags.any (fun x => x.st == 2) || l.recs.any (fun r => r.st == 1))
  | 3 => lease (fun l => l.tags.any (fun x => x.st == 4))
  | _ => false

/-- `DEFERRED_CLAIM_GUARD` (R84): each claimant of a half that was short-served for 16 cycles has its need withheld from issue, until it
has been met; the event is one of those that ask then. -/
def execDeferredClaimGuard (core half : Nat) (s : State) : Host.Outcome State Fault Refusal :=
  let due := (List.range 4).filter (fun k => s.claims core half k && !((s.core core).withheld.contains (half, k)))
  .next (if half < 2 && !due.isEmpty then
      s.modCore core (fun c => { c with withheld := due.map (fun k => (half, k)) ++ c.withheld })
    else s)

end Sys2Proof.Machine
end

