-- ==== Sys2Proof/Machine/Replay.lean ====
section
/-! DEFINITION. `REPLAY`: the parked entries of the issuing group performed, dropped or listed (R301, R303, R308). -/

namespace Sys2Proof.Machine

open Sys2Proof

/-- Who a parked entry acts for. -/
def Park.issuer (p : Park) : Issuer :=
  { team := p.grp.team, grp := p.grp.grp, mask := p.mask, slot := p.slot, word := p.word, pc := p.pc }

/-- A core's queue without an entry. -/
def State.dropPark (s : State) (core id : Nat) : State :=
  s.modCore core (fun c => { c with replay := c.replay.filter (fun x => x.id != id) })

/-- An entry changed in its place. -/
def State.modPark (s : State) (core id : Nat) (f : Park → Park) : State :=
  s.modCore core (fun c => { c with replay := c.replay.map (fun x => if x.id = id then f x else x) })

/-- The cache actions of the fences that waited for an entry, once it has been performed; what it has written and not yet landed, or what
a home holds of it, goes on holding those of them that are releases (R165, R166, R327). -/
def State.parkDone (s : State) (core : Nat) (p : Park) : State :=
  let s1 := s.dropPark core p.id
  match s.grp? p.grp with
  | none => s1
  | some g =>
    let s2 := if g.hold.rel.contains p.id then s1.relSelf core else s1
    let s3 := if g.hold.acq.contains p.id then s2.acqSelf core else s2
    if g.hold.st.contains p.id then
      s3.modGrp p.grp (fun g => { g with hold := { g.hold with home := true, pushes := g.hold.pushes ++ s3.pushIds } })
    else s3

/-- One entry replayed (R308): performed and gone, or, where elements stay, parked with them and their failure. -/
def State.replayOne (s : State) (core space : Nat) (p : Park) : State :=
  match p.kind with
  | .cmd spec dest =>
    match s.xlatCmd core space spec with
    | .ok (js, ctr) => (s.dropPark core p.id).sendJobs p.id p.issuer core dest spec js ctr
    | .error f =>
      s.modPark core p.id (fun x =>
        { x with cause := f.cause, detail := f.detail, level := f.level, addr := f.addr, flags := if f.write then 16 else 0,
                 go := false, again := true })
  | _ =>
    let r := s.replayElems core space p p.elems
    match r.2.elems with
    | [] => r.1.parkDone core p
    | e :: es =>
      let f := r.2.first.getD (⟨p.detail, p.level⟩, p.addr)
      r.1.modPark core p.id (fun x =>
        { x with elems := e :: es, mask := maskOf ((e :: es).map (·.thread)), detail := f.1.detail, level := f.1.level,
                 addr := f.2, go := false, again := true })

/-- Whether an atomic of an entry has to wait behind the group's earlier commands: behind line jobs at its channel, or a command that
stalls for room at its channels (R20, R287). -/
def State.jobBefore (s : State) (p : Park) (y : Part) : Bool :=
  let mine (by_ : Issuer) : Bool := decide ((⟨by_.team, by_.grp⟩ : GrpId) = p.grp)
  y.x.memside && (s.jobs.any (fun j => j.chan == chanOf y.x.pa && s.cmds.any (fun c =>
    c.id == j.cmd && decide (c.id < p.id) && mine c.by_)) ||
    s.cmdWaits.any (fun c => decide (c.id < p.id) && mine c.by_ && s.cmdStuck c))

/-- Whether an `MSFENCE.AR` holds a `MEMSIDE` access of an entry for a command that has been sent (R295; notes/assumptions/49.md). -/
def State.fencedBehind (s : State) (p : Park) (y : Part) : Bool :=
  y.x.memside && s.cmds.any (fun c => decide (c.id < p.id) && ((s.grp? p.grp).map (fun g => g.hold.ms.contains c.id)).getD false)

/-- Whether an entry cannot be performed now, for a migration, a clock crossing, a fence, a write that a home holds, or a full channel
(R203, R281, R287, R295, R296, R318, R352). -/
def State.replayBusy (s : State) (core space : Nat) (p : Park) : Bool :=
  match p.kind with
  | .cmd spec _ =>
    match s.xlatCmd core space spec with
    | .ok (js, _) => !s.jobRoom js
    | .error _ => false
  | k =>
    let atom : Bool := match k with | .atom _ => true | _ => false
    p.elems.any (fun e =>
      match s.xlatElem core space e.addr (p.size e) p.acc with
      | .ok l =>
        l.any (fun y => s.partHeld y || s.partOwn core y || s.fencedBehind p y || (atom && (s.homeHolds y || s.jobBefore p y))) ||
          (p.acc == .write && s.senderStalls core (s.partPas l))
      | .error _ => false)

/-- The entries of a group that a `REPLAY.go` has selected, performed oldest first, up to one that cannot be performed now. -/
def State.replayAll (s : State) (core space : Nat) : List Park → State
  | [] => s
  | p :: ps => if s.replayBusy core space p then s else (s.replayOne core space p).replayAll core space ps

/-- The replays under way of a group go on: what is left of earlier ones, whose words have timed out, and that of the latest (R308). -/
def State.replayOn (s : State) (core space : Nat) (gid : GrpId) : State :=
  let ps := ((s.core core).parksOf gid).filter (·.go)
  (s.replayAll core space (ps.filter (fun p => !p.sel))).replayAll core space (ps.filter (·.sel))

/-- One entry dropped (R308): its loads write nothing, and a queue gets a value the spec does not state
(notes/assumptions/6.md); a store of a `det` thread leaves its row without data; a command counts as done. -/
def State.dropOne (s : State) (core : Nat) (p : Park) : State :=
  let s1 := s.dropPark core p.id
  match p.kind with
  | .cmd _ dest => s1.countDone p.grp.team dest
  | .store _ => s1
  | _ =>
    let n := p.elems.length
    let free := mapFrom (fun i (e : ParkElem) => (e.thread, (Config.freeValue (s.fresh + i)).setWidth 32)) 0 p.elems
    let s2 := { s1 with fresh := s1.fresh + n }
    s2.modCore core (fun c => { c with loads := c.loads.map (fun r =>
      if r.id = p.load then { r with vals := free ++ r.vals, left := r.left - n } else r) })

/-- The entries that s[P] selects, oldest first; none when it names no entry or has a reserved bit set (R308). -/
def selectParks (v : Nat) (ps : List Park) : Option (List Park) :=
  let k := v % 128
  if v / 128 ≠ 0 || decide (64 < k) || decide (ps.length < k) then none
  else if k = 0 then some ps
  else some ((ps.drop (k - 1)).take 1)

/-- A word of `REPLAY` (R61, R308): privileged, and refused outside trap mode. -/
def State.replayWord (s : State) (p q : BitVec 6) (x : BitVec 5) (f : Team → Group → List Park → Res) :
    Host.Outcome State Fault Refusal :=
  s.asE false [p.toNat] q x none (fun t g =>
    if !s.iss.sys then s.notPrivileged
    else if g.trapMask.isNone then s.fin q stRejected 0
    else f t g ((s.core g.core).parksOf s.iss.grp))

/-- The number of a group's entries. -/
def State.parkCount (s : State) (core : Nat) (gid : GrpId) : Nat := ((s.core core).parksOf gid).length

/-- The entries that a `REPLAY.go` selects, and no others of the group's, marked as its own; none is noted as failed any more. -/
def State.selectGo (s : State) (core : Nat) (sel : List Park) : State :=
  s.modCore core (fun c => { c with replay := c.replay.map (fun x =>
    if x.grp = s.iss.grp then
      let mine := sel.any (fun y => y.id == x.id)
      { x with go := x.go || mine, sel := mine, again := false }
    else x) })

/-- The end of a replay: `OK` when every entry selected has been performed, else `REJECTED` (R308). -/
def State.replayed (s : State) (core : Nat) (q : BitVec 6) : State :=
  let left := (s.core core).parksOf s.iss.grp
  let s1 := s.modCore core (fun c => { c with replay := c.replay.map (fun x =>
    if x.grp = s.iss.grp then { x with sel := false, again := false } else x) })
  s1.putStatus q (if left.any (fun p => p.sel && p.again) then stRejected else stOk) left.length

/-- `REPLAY.go` (R308): it waits while an entry it has selected cannot be performed, and a timeout lets the replay go on. Poison that
an element meets is a trap of its own word, pending while the group is in trap mode (notes/assumptions/42.md). -/
def execReplayGo (e : EF) (s : State) : Host.Outcome State Fault Refusal :=
  s.replayWord e.p e.q e.x (fun t g ps =>
    if s.iss.mode = .examine ∨ s.iss.mode = .expire then
      if ps.any (fun p => p.go && p.sel) then .wait s ps.length else .done (s.replayed g.core e.q)
    else
      match selectParks (g.sreg e.p.toNat).toNat ps with
      | none => s.fin e.q stRejected ps.length
      | some sel =>
        let s1 := (s.selectGo g.core sel).replayOn g.core t.space s.iss.grp
        let left := (s1.core g.core).parksOf s.iss.grp
        if left.any (fun p => p.go && p.sel) then .wait s1 left.length else .done (s1.replayed g.core e.q))

/-- `REPLAY.drop` (R308). -/
def execReplayDrop (p q : BitVec 6) (s : State) : Host.Outcome State Fault Refusal :=
  s.replayWord p q 0 (fun _ g ps =>
    match selectParks (g.sreg p.toNat).toNat ps with
    | none => s.fin q stRejected ps.length
    | some sel =>
      let s1 := sel.foldl (fun s p => s.dropOne g.core p) s
      s1.fin q stOk (s1.parkCount g.core s.iss.grp))

/-- The 32 bytes that `REPLAY.list` writes for an entry (R308). -/
def Park.listing (p : Park) : List Byte :=
  let kind := match p.kind with | .load _ => 0 | .store _ => 1 | .atom _ => 2 | .cmd .. => 3
  let low := match p.elems with
    | [] => p.addr
    | e :: es => es.foldl (fun a x => min a x.addr) e.addr
  leBytes 8 p.pc.toNat ++ leBytes 4 p.word.toNat ++ leBytes 1 p.beat ++ leBytes 1 kind ++ leBytes 2 0 ++
    leBytes 8 p.mask.toNat ++ leBytes 8 low

/-- `REPLAY.list` (R308). -/
def execReplayList (p q : BitVec 6) (s : State) : Host.Outcome State Fault Refusal :=
  s.replayWord p q 0 (fun t g ps =>
    let va := va56 (g.sreg p.toNat).toNat
    if va % 32 ≠ 0 then s.fin q stRejected 0
    else
      let bs := ps.flatMap Park.listing
      match s.xlatElem g.core t.space va bs.length .write with
      | .error e => s.raiseFault e (s.failVA g.core t.space va bs.length .write) true
      | .ok l =>
        if l.any s.partHeld then .stall .busy
        else (s.storeElem g.core false false l bs).fin q stOk ps.length)

end Sys2Proof.Machine
end

