-- ==== Sys2Proof/Machine/Subs.lean ====
section
/-! DEFINITION. Standing loads: slots, subscriptions, pushes that land, and the `SUB` family (R313 to R326). -/

namespace Sys2Proof.Machine

open Sys2Proof

/-! ## Slots -/

/-- A slot (R313). -/
structure Slot where
  value : Reg
  seq : BitVec 32
  flags : BitVec 32
  deriving DecidableEq, Repr

/-- `LIVE`. -/
def Slot.live (x : Slot) : Bool := x.flags.getLsbD 0
/-- `UNREAD`. -/
def Slot.unread (x : Slot) : Bool := x.flags.getLsbD 1
/-- `OVR`. -/
def Slot.ovr (x : Slot) : Bool := x.flags.getLsbD 2
/-- `ENDING`. -/
def Slot.ending (x : Slot) : Bool := x.flags.getLsbD 3

/-- The slot at an offset of a window. -/
def State.slot (s : State) (t : TeamId) (off : Nat) : Slot :=
  let n := s.winNat t off 16
  { value := BitVec.ofNat 64 n, seq := BitVec.ofNat 32 (n / 2 ^ 64), flags := BitVec.ofNat 32 (n / 2 ^ 96) }

/-- A slot written in one update. -/
def State.setSlot (s : State) (t : TeamId) (off : Nat) (x : Slot) : State :=
  s.winWrite t off (leBytes 8 x.value.toNat ++ leBytes 4 x.seq.toNat ++ leBytes 4 x.flags.toNat)

/-- A push of a value to a slot (R318). -/
def Slot.pushed (x : Slot) (v : Reg) : Slot :=
  { value := v, seq := x.seq + 1, flags := (if x.unread then x.flags ||| 4 else x.flags) ||| 2 }

/-- The read state cleared (R324). -/
def Slot.wasRead (x : Slot) : Slot := { x with flags := x.flags &&& ~~~6 }

/-- `LIVE` and `ENDING` cleared (R321). -/
def Slot.ended (x : Slot) : Slot := { x with flags := x.flags &&& ~~~9 }

/-- The status of a read of a slot (R324). -/
def Slot.status (x : Slot) : Nat := if x.ovr then stOverrun else if x.unread then stOk else stBusy

/-! ## Landings (R318, R321, R323) -/

/-- The core that holds the slot a flight goes to. -/
def State.flightCore (s : State) (f : Flight) : Nat := ((s.team? f.team).map (fun t => t.coreAt f.off)).getD 0

/-- A flight that may not land: its slot overlaps a range scoreboard entry, or its shadow's home holds the slot's line (R148, R152). -/
def State.flightHeld (s : State) (f : Flight) : Bool := s.inRange f.team f.off 16 || s.winHeld f.team f.off 16

/-- A push that came causally before a flight's write and has still to be applied by the subscriber's die (R167, R178, R319). -/
def State.behindCause (s : State) (f : Flight) : Bool :=
  s.flights.any (fun x => f.after.contains x.id && wheelOf (s.flightCore x) == wheelOf (s.flightCore f))

/-- Whether a flight can land now: none for its slot, none that waits at its core, and no push that came causally before it stands
before it (R318, R319). -/
def State.canLand (s : State) (f : Flight) : Bool :=
  !s.flightHeld f && !s.behindCause f &&
    (s.flights.takeWhile (fun x => x.id != f.id)).all (fun x =>
      !(decide (x.team = f.team) && x.off == f.off) && !(s.flightCore x == s.flightCore f && s.flightHeld x))

/-- What comes causally before the value that a flight brings to its slot: the pushes still in flight of its own write and of those before
it (R167, R178). -/
def State.slotFrom (s : State) (f : Flight) : State :=
  let ids := s.kin f
  if ids.isEmpty && s.slotCausal.isEmpty then s
  else { s with slotCausal := s.slotCausal.filter (fun x => !(decide (x.1 = f.team) && x.2.1 == f.off)) ++
      (if ids.isEmpty then [] else [(f.team, f.off, ids)]) }

/-- A flight that lands, with what its landing does; a write that waited for its room may then be performed (R318). -/
def State.land (s : State) (id : Nat) (want : FlightKind → Bool) (f : State → Flight → State) : State :=
  match s.flights.find? (fun x => x.id == id) with
  | some x =>
    if want x.kind && s.canLand x then (f { s with flights := s.flights.filter (fun y => y.id != id) } x).drainPushes else s
  | none => s

/-- `LDSUB_LANDING`: the value read at home lands in the slot and in s[Q+1] (R323). -/
def execLdsubLanding (id : Nat) (s : State) : Host.Outcome State Fault Refusal :=
  .next (s.land id (fun k => match k with | .landing .. => true | _ => false) (fun s f =>
    match f.kind with
    | .landing by_ q n =>
      let flags : BitVec 32 := BitVec.ofNat 32 (1 + (n - 1) * 2 ^ 8)
      let s := (s.slotFrom f).setSlot f.team f.off { value := f.value, seq := 0, flags := flags }
      s.modGrp ⟨by_.team, by_.grp⟩ (fun g => (g.landS f.id q (statusVal stOk 0)).landS f.id (q + 1) f.value)
    | _ => s))

/-- `PUSH_LAND`: the push that is next for its slot lands (R318). -/
def execPushLand (id : Nat) (s : State) : Host.Outcome State Fault Refusal :=
  .next (s.land id (fun k => decide (k = .push)) (fun s f =>
    (s.slotFrom f).setSlot f.team f.off ((s.slot f.team f.off).pushed f.value)))

/-- `UNSUB_END_MARK`: the end mark lands behind the last push, the subscription has ended, and its places are freed (R314, R321). -/
def execUnsubEndMark (id : Nat) (s : State) : Host.Outcome State Fault Refusal :=
  .next (s.land id (fun k => decide (k = .endMark)) (fun s f =>
    State.setSlot { s with subs := s.subs.filter (fun x => !(x.ending && decide (x.team = f.team) && x.off == f.off)) }
      f.team f.off (s.slot f.team f.off).ended))

/-- A flight that can land, landed as its event does. -/
def State.landNext (s : State) : Option State :=
  (s.flights.find? s.canLand).bind (fun f =>
    match (match f.kind with
      | .landing .. => execLdsubLanding f.id s
      | .push => execPushLand f.id s
      | .endMark => execUnsubEndMark f.id s) with
    | .next s' => some s'
    | _ => none)

/-- Some flights landed, the oldest that can first. -/
def State.landSome : Nat → State → State
  | 0, s => s
  | n + 1, s => match s.landNext with
    | some s' => State.landSome n s'
    | none => s

/-- Every flight that can land landed, and those of the writes that have waited for their room. -/
def State.landAll (s : State) : State := State.landSome (s.flights.length + s.subs.length * s.pushq.length) s

/-! ## The SUB family -/

/-- The checks of a slot address (R322): where the slot lies, and whether the address names it as a sibling's, which is refused. -/
def State.slotAt (s : State) (t : Team) (v : Reg) (f : ScrAt → Bool → Res) : Res :=
  let addr := v.toNat
  match s.scrAt t.id addr 16 with
  | .error c => .trap (s.wordTrap c 0 (va56 addr) 0xFF 0)
  | .ok a =>
    if addr % 16 ≠ 0 then .trap (s.wordTrap 7 0 addr 0xFF 0)
    else if s.inRange a.team a.off 16 || s.winHeld a.team a.off 16 then .stall .busy
    else f a (fld addr 22 1 == 1)

/-- A word of the `SUB` family refused: its pair receives the slot's `SEQ` and `VALUE` (R322). -/
def State.subRefused (s : State) (q : BitVec 6) (sl : Slot) : Res := .done (s.putPair q stRejected sl.seq.toNat sl.value)

/-- A word of the `SUB` family that reads a slot: one with an uncorrectable byte reads zero and is counted (R363). -/
def State.readSlot (s : State) (a : ScrAt) (v : Reg) : State × Slot :=
  let s := s.sawSlot s.iss.grp a.team a.off 16
  if s.winBadIn a.team a.off 16 then (s.winMeet s.issuer a.team a.off v.toNat, ⟨0, 0, 0⟩) else (s, s.slot a.team a.off)

/-- Places taken in a team's subscription list: an entry keeps its place until its end mark has landed (R314, R321). -/
def State.subCount (s : State) (t : TeamId) : Nat := (s.subs.filter (fun x => decide (x.team = t))).length

/-- Whether a subscription is refused (R315). -/
def State.noSub (s : State) (t : TeamId) (x : Xlat) : Bool :=
  x.memside || decide (Config.subList ≤ s.subCount t) ||
    decide (Config.subTable ≤ (s.subs.filter (fun y => s.sliceOf y.pa == s.sliceOf (s.fwd x.pa))).length)

/-- What goes home before `LDSUB` reads there: dirty L1 copies of a `DIR` line, and the issuing core's own bytes of a `SELFINV` one
(R163, R323). -/
def State.subClean (s : State) (core : Nat) (x : Xlat) : State :=
  if x.memside then s
  else if x.attr = 0 then s.recallLine (s.fwd x.pa)
  else if x.attr = 1 then s.writeBack core (lineOf x.pa)
  else s

/-- The bytes that a home reads for `LDSUB`; uncorrectable bytes read 0 and are counted (R323). -/
def State.subRead (s : State) (core va : Nat) (x : Xlat) (n : Nat) : State × Reg :=
  if x.poison then (s.meetPoisonPage s.issuer core va, 0)
  else
    let s := s.subClean core x
    let s := s.saw s.iss.grp (s.partPas [⟨x, va, n⟩])
    if (if x.memside then s.stackBad x.pa n else s.anyHomeBad x.pa n) then
      (s.meetAt s.issuer va (s.badSpot none [⟨{ x with attr := 2 }, va, n⟩]), 0)
    else (s, BitVec.ofNat 64 (leNat (if x.memside then s.stackReadN x.pa n else s.homeReadN x.pa n)))

/-- `LDSUB` makes its entry and its value's flight at one point of the location's home order (R323). -/
def State.subscribe (s : State) (t : Team) (q : BitVec 6) (pa size off : Nat) (v : Reg) : State :=
  let id := s.fresh
  let sub : Sub := { id := id, pa := pa, size := size, team := t.id, core := t.coreAt off, off := off, ending := false }
  let fl : Flight :=
    { id := id, team := t.id, off := off, value := v, kind := .landing s.issuer q.toNat size, slice := s.sliceOf pa, write := 0,
      after := [] }
  let s1 := { s.tick with subs := s.subs ++ [sub], flights := s.flights ++ [fl] }
  s1.modGrp s.iss.grp (fun g => g.passOn s.iss.wid id [q.toNat, q.toNat + 1])

/-- `LDSUB` (R323). -/
def execLdsub (p q : BitVec 6) (n : Fin 8) (s : State) : Host.Outcome State Fault Refusal :=
  s.asEPair true [p.toNat, p.toNat + 1] q 0 none (fun t g =>
    s.slotAt t (g.sreg (p.toNat + 1)) (fun a sib =>
      let sl := s.slot a.team a.off
      let va := va56 (g.sreg p.toNat).toNat
      let size := n.val + 1
      if sib || sl.live || sl.ending then s.subRefused q sl
      else
        match s.translate g.core t.space va .read with
        | .error e => s.raiseFault e va false
        | .ok x =>
          if 128 < va % 128 + size then s.subRefused q sl
          else if s.partBusy g ⟨x, va, size⟩ then .stall .busy
          else if !x.poison && (let s1 := s.subClean g.core x; (rangeFrom x.pa size).any (fun a => s1.ownHeld g.core a ||
              x.attr == 1 && (s1.core g.core).self.any (fun b => b.pa == a && b.dirty))) then .stall .flush
          else
            let r := s.subRead g.core va x size
            let s1 := if s.noSub t.id x then
                (r.1.setSlot t.id a.off { value := r.2, seq := 0, flags := BitVec.ofNat 32 (n.val * 2 ^ 8) }).putPair q stNosub 0 r.2
              else r.1.subscribe t q (s.fwd x.pa) size a.off r.2
            Res.gated (.done s1) s t g))

/-- `SLOTRD` (R324). -/
def execSlotrd (p q : BitVec 6) (s : State) : Host.Outcome State Fault Refusal :=
  s.asEPair true [p.toNat] q 0 none (fun t g =>
    s.slotAt t (g.sreg p.toNat) (fun a sib =>
      let r := s.readSlot a (g.sreg p.toNat)
      let sl := r.2
      if sib then s.subRefused q (s.slot a.team a.off)
      else Res.gated (.done ((r.1.setSlot t.id a.off sl.wasRead).putPair q sl.status sl.seq.toNat sl.value)) s t g))

/-- The watch of a `SLOTWAIT` on its slot. -/
def State.slotWatch (s : State) (p : BitVec 6) : Option Watch :=
  match s.grp? s.iss.grp with
  | some g0 =>
    match s.scrAt s.iss.grp.team ((if s.iss.wid = 0 then g0 else g0.withKept s.iss.kept).sreg p.toNat).toNat 16 with
    | .ok a => some (.slot a.team a.off none)
    | .error _ => none
  | none => none

/-- What an examination after a write has found that ends the `SLOTWAIT` in issue (R325). -/
def State.slotGot (s : State) : Option (Nat × Nat × Reg) :=
  match s.found with
  | some (.slot _ _ r) => r
  | _ => none

/-- `SLOTWAIT` (R325): it examines its slot as it issues; later an examination after a write has ended it, or it goes on. -/
def execSlotwait (e : EF) (s : State) : Host.Outcome State Fault Refusal :=
  s.asEPair true [e.p.toNat] e.q e.x (s.slotWatch e.p) (fun t g =>
    match s.slotGot with
    | some r => .done (s.putPair e.q r.1 r.2.1 r.2.2)
    | none =>
      s.slotAt t (g.sreg e.p.toNat) (fun a sib =>
        let r := s.readSlot a (g.sreg e.p.toNat)
        let sl := r.2
        if sib then s.subRefused e.q (s.slot a.team a.off)
        else if sl.unread then
          Res.gated (.done ((r.1.setSlot t.id a.off sl.wasRead).putPair e.q sl.status sl.seq.toNat sl.value)) s t g
        else if !sl.live then Res.gated (.done (r.1.putPair e.q stNosub sl.seq.toNat sl.value)) s t g
        else .wait s sl.seq.toNat))

/-- The removal of a slot's subscription: `ENDING` set, the entry's removal passed at its home, the end mark sent behind its last push
(R321). A slot that no entry feeds has nothing to wait for. -/
def State.startUnsub (s : State) (t : TeamId) (off : Nat) (sl : Slot) : State :=
  let mine (x : Sub) : Bool := decide (x.team = t) && x.off == off
  match s.subs.find? mine with
  | some x =>
    let fl : Flight := { id := s.fresh, team := t, off := off, value := 0, kind := .endMark, slice := s.sliceOf x.pa, write := 0, after := [] }
    let s1 := { s.tick with
      subs := s.subs.map (fun x => if mine x then { x with ending := true } else x), flights := s.flights ++ [fl] }
    s1.setSlot t off { sl with flags := sl.flags ||| 8 }
  | none => s.setSlot t off sl.ended

/-- Whether a slot's end mark is still in flight. -/
def State.endMarkOut (s : State) (t : TeamId) (off : Nat) : Bool :=
  s.flights.any (fun x => decide (x.team = t) && x.off == off && decide (x.kind = .endMark))

/-- `UNSUB` (R321, R326). -/
def execUnsub (e : EF) (s : State) : Host.Outcome State Fault Refusal :=
  s.asE true [e.p.toNat] e.q e.x none (fun t g =>
    s.slotAt t (g.sreg e.p.toNat) (fun a sib =>
      let sl := s.slot a.team a.off
      let starts := s.iss.mode = .issue ∨ s.iss.mode = .serial
      if sib || starts ∧ !sl.live && !sl.ending then s.fin e.q stRejected sl.seq.toNat
      else
        let s1 := if starts && !sl.ending then s.startUnsub t.id a.off sl else s
        if s1.endMarkOut t.id a.off then .wait s1 sl.seq.toNat
        else s1.fin e.q stOk (s1.slot t.id a.off).seq.toNat))

end Sys2Proof.Machine
end

