-- ==== Sys2Proof/Machine/Task.lean ====
section
/-! DEFINITION. `TSPAWN`, `TDEC`, `TWAIT`, the deques, and the queue words of the `TASK` family with the affine address
engine (R256 to R267). -/

namespace Sys2Proof.Machine

open Sys2Proof

/-! ## TSPAWN, TDEC, TWAIT -/

/-- A launch record read at the word: 64 bytes, and 64 more for LR2 (R268, R269). -/
def State.readRecord (s : State) (t : Team) (g : Group) (va : Nat) (f : State → List Byte → Res) : Res :=
  s.reading t g va 64 (fun s a =>
    if field a 0 2 = 2 then s.reading t g (va56 (va + 64)) 64 (fun s b => f s (a ++ b))
    else f s (a ++ List.replicate 64 0))

/-- The launch that a waiting `TSPAWN` has checked, kept for its later examinations. -/
def State.keepSpawn (s : State) (l : Launch) : State :=
  s.modGrp s.iss.grp (fun g => { g with spawns := (s.iss.mask, l) :: g.spawns.filter (fun x => x.1 != s.iss.mask) })

/-- Steps 2 to 4 of `TSPAWN` (R262), of a launch that has passed its checks. -/
def State.spawn (s : State) (g : Group) (q : BitVec 6) (l : Launch) : Res :=
  let wheel := wheelOf g.core
  if s.poolFree wheel then
    match s.enterNode g.core wheel l with
    | .refuse k => s.fin q stRejected k
    | .fault e va => s.raiseFault e va true
    | .busy => .stall .busy
    | .ok s' id => s'.fin q stOk id
  else .wait (s.keepSpawn l) 0

/-- The launch that a waiting `TSPAWN` has checked. -/
def State.spawned (s : State) (g : Group) : Option Launch :=
  if s.iss.mode = .examine ∨ s.iss.mode = .expire then (g.spawns.find? (fun x => x.1 == s.iss.mask)).map (·.2) else none

/-- `TSPAWN` (R262). -/
def execTspawn (e : EF) (s : State) : Host.Outcome State Fault Refusal :=
  s.asE true [e.p.toNat] e.q e.x none (fun t g =>
    s.releasing t g 6 (fun s =>
      match s.spawned g with
      | some l => s.spawn g e.q l
      | none =>
        let va := va56 (g.sreg e.p.toNat).toNat
        if va % 64 ≠ 0 then .trap (s.wordTrap 7 0 va 0xFF 0)
        else if s.toQueue t then .done s
        else
          s.readRecord t g va (fun s bs =>
            if s.launchHeld g.core bs then .stall .busy
            else
              (match s.checkLaunch s.issuer g.core bs with
              | .refuse s k => s.fin e.q stRejected k
              | .fault s x va => s.raiseFault x va false
              | .ok s l => s.spawn g e.q l).gated s t g)))

/-- The counter that a word names in s[P] (R261, R263): its physical address; none when it lies in a `MEMSIDE` page. -/
def State.ctrWord (s : State) (t : Team) (g : Group) (p : BitVec 6) (acc : Acc) (f : Nat → Xlat → Res) : Res :=
  let va := va56 (g.sreg p.toNat).toNat
  if va % 16 ≠ 0 then .trap (s.wordTrap 7 0 va 0xFF 0)
  else
    match s.translate g.core t.space va acc with
    | .error e => s.raiseFault e va (acc == .write)
    | .ok x => if !x.poison && (s.lineHeld x.pa || (acc == .write && s.ctrBusy x.pa)) then .stall .busy else f va x

/-- The count of a counter as a word reads it (R263): of an uncorrectable one, or one of a poisoned page, zero, counted and met as
poison (R189, R263, R363, R365). -/
def State.readCount (s : State) (g : Group) (va : Nat) (x : Xlat) : State × Nat :=
  if x.poison then (s.meetPoisonPage s.issuer g.core va, 0)
  else if s.anyBad x.pa 4 then (s.meetPoison s.issuer va (s.fwd x.pa), 0)
  else (s, s.ctrCount x.pa)

/-- `TDEC` (R249, R263): a decrement of an uncorrectable counter that cannot be performed changes nothing; a write that a fenced channel
or a poisoned page drops is counted (R189, R365). -/
def execTdec (p q : BitVec 6) (n : Fin 16) (s : State) : Host.Outcome State Fault Refusal :=
  s.asE true [p.toNat] q 0 none (fun t g =>
    s.releasing t g 6 (fun s =>
      s.ctrWord t g p .write (fun va x =>
        if x.memside then s.fin q stRejected 0
        else if !x.poison && s.ctrReserved x.pa then s.fin q stRejected 0
        else
          let c := s.readCount g va x
          if x.poison then (c.1.fin q stOverrun 0).gated s t g
          else
            let r := c.1.decrement x.pa (n.val + 1)
            let res : Res := match r.2 with
              | some v => r.1.fin q stOk v
              | none => c.1.fin q stOverrun c.2
            if s.anyBad x.pa 4 then res.gated s t g else res)))

/-- The watch of a `TWAIT` on its counter. -/
def State.ctrWatch (s : State) (p : BitVec 6) : Option Watch :=
  match s.team? s.iss.grp.team, s.grp? s.iss.grp with
  | some t, some g0 =>
    let g := if s.iss.wid = 0 then g0 else g0.withKept s.iss.kept
    match s.translate g.core t.space (va56 (g.sreg p.toNat).toNat) .read with
    | .ok x => if x.poison then none else some (.counter x.pa false)
    | .error _ => none
  | _, _ => none

/-- `TWAIT` (R263): `OK` is an acquire at device scope. A write that has left the count at 0 has ended it. -/
def execTwait (e : EF) (s : State) : Host.Outcome State Fault Refusal :=
  s.asE true [e.p.toNat] e.q e.x (s.ctrWatch e.p) (fun t g =>
    let ok (s : State) : Res := .done ((s.putStatus e.q stOk 0).acquire t g 6)
    match s.found with
    | some (.counter _ true) => ok s
    | _ =>
      s.ctrWord t g e.p .read (fun va x =>
        let c := s.readCount g va x
        if c.2 ≠ 0 then .wait s c.2
        else if x.poison || s.anyBad x.pa 4 then (ok c.1).gated s t g
        else ok s))

/-! ## Deques (R259, R260, R264) -/

/-- A deque's descriptor as its unit reads it. -/
structure Deque where
  pa : Nat
  store : Nat
  cap : Nat
  en : Bool
  top : BitVec 32
  bot : BitVec 32

/-- The descriptor of deque d. -/
def State.deque (s : State) (d : Nat) : Deque :=
  let pa := (s.wheel (d / 64)).dqbase + 32 * (d % 64)
  let bs := s.physReadN pa 32
  { pa := pa, store := field bs 0 8, cap := 2 ^ field bs 8 1, en := field bs 9 1 % 2 == 1,
    top := BitVec.ofNat 32 (field bs 16 4), bot := BitVec.ofNat 32 (field bs 20 4) }

/-- The items of a deque. -/
def Deque.items (x : Deque) : Nat := (x.bot - x.top).toNat

/-- Where the item of an index lies. -/
def Deque.at (x : Deque) (i : BitVec 32) : Nat := x.store + i.toNat % x.cap * 8

/-- Whether a deque word may act on d (R264). -/
def State.dequeOk (s : State) (d : Nat) : Bool := decide (d < 384) && s.hasWheel (d / 64) && (s.deque d).en

/-- The address of the item that an operation takes or stores (R260). -/
def Deque.itemAt (x : Deque) (op : DqOp) : Nat :=
  match op with
  | .push => x.at x.bot
  | .pop => x.at (x.bot - 1)
  | .steal => x.at x.top

/-- A deque's descriptor read by an operation that ends: an uncorrectable byte of it reads zero, and the read is counted (R363). -/
def State.meetDeque (s : State) (d : Nat) : State :=
  if d < 384 ∧ s.hasWheel (d / 64) then
    match (rangeFrom (s.deque d).pa 32).find? (fun a => s.bad (s.fwd a)) with
    | some a => s.countBad (s.fwd a)
    | none => s
  else s

/-- One operation of a deque unit: the item and what is left; none when it cannot be performed (R260). The item is none
when it is uncorrectable, and is counted at the wheel of its home (R363). -/
def State.dequeDo (s : State) (op : DqOp) (d : Nat) (item : Reg) : Option (State × Option Reg × Nat) :=
  let x := s.deque d
  let bad := op != .push && s.anyBad (x.itemAt op) 8
  let took : Option Reg := if bad then none else some (BitVec.ofNat 64 (leNat (s.physReadN (x.itemAt op) 8)))
  let s1 := s.meetDeque d
  let s0 := if bad && x.items != 0 then s1.countBad (x.itemAt op) else s1
  if s.ctrBusy x.pa then none
  else
    match op with
    | .push =>
      if x.cap ≤ x.items || s.ctrBusy (x.at x.bot) then none
      else
        let s2 := s0.homeWriteL 0 (x.at x.bot) (leBytes 8 item.toNat)
        some (s2.homeWriteL 0 (x.pa + 20) (leBytes 4 (x.bot + 1).toNat), some item, (x.bot + 1 - x.top).toNat)
    | .pop =>
      if x.items = 0 then none
      else some (s0.homeWriteL 0 (x.pa + 20) (leBytes 4 (x.bot - 1).toNat), took, (x.bot - 1 - x.top).toNat)
    | .steal =>
      if x.items = 0 then none
      else some (s0.homeWriteL 0 (x.pa + 16) (leBytes 4 (x.top + 1).toNat), took, (x.bot - (x.top + 1)).toNat)

/-- Whether a home that holds writes for a migration or for the host keeps an operation from being performed (R203, R352). -/
def State.dequeHeld (s : State) (op : DqOp) (d : Nat) : Bool :=
  let x := s.deque d
  s.ctrBusy x.pa || (op == .push && decide (x.items < x.cap) && s.ctrBusy (x.at x.bot))

/-- `DEQUE_OPERATION`: an operation reaches the unit of an enabled deque; one that finds it full or empty waits and does
nothing (R260, R264). -/
def execDequeOperation (op : DqOp) (d : Nat) (item : Reg) (s : State) : Host.Outcome State Fault Refusal :=
  .next (if s.dequeOk d then ((s.dequeDo op d item).map (·.1)).getD s else s)

/-- The watch of a waiting deque word on the descriptor of its deque (R264). -/
def State.dequeWatch (s : State) (p : BitVec 6) : Option Watch :=
  match s.grp? s.iss.grp with
  | some g0 => some (.deque (s.deque ((if s.iss.wid = 0 then g0 else g0.withKept s.iss.kept).sreg p.toNat).toNat).pa false)
  | none => none

/-- Whether a deque word is refused: its deque is none or disabled, or a write has disabled it while the word waited (R264). -/
def State.dequeNo (s : State) (d : Nat) : Bool :=
  !s.dequeOk d || (match s.found with | some (.deque _ off) => off | _ => false)

/-- `DQPUSH` (R264): a release at device scope, where it pushes. -/
def execDqpush (e : EF) (s : State) : Host.Outcome State Fault Refusal :=
  s.asE true [e.p.toNat, e.p.toNat + 1] e.q e.x (s.dequeWatch e.p) (fun t g =>
    let d := (g.sreg e.p.toNat).toNat
    let x := s.deque d
    if s.dequeNo d then (s.meetDeque d).fin e.q stRejected 0
    else if s.dequeHeld .push d then .stall .busy
    else if x.cap ≤ x.items then .wait s x.items
    else
      s.releasing t g 6 (fun s =>
        match s.dequeDo .push d (g.sreg (e.p.toNat + 1)) with
        | some r => r.1.fin e.q stOk r.2.2
        | none => .wait s (s.deque d).items))

/-- A pop or steal (R264): `OK` is an acquire at device scope. -/
def State.dequeTake (s : State) (op : DqOp) (e : EF) (t : Team) (g : Group) : Res :=
  let d := (g.sreg e.p.toNat).toNat
  if s.dequeNo d then (s.meetDeque d).fin e.q stRejected 0
  else if s.dequeHeld op d then .stall .busy
  else
    match s.dequeDo op d 0 with
    | some (s1, some v, n) => .done ((s1.putPair e.q stOk n v).acquire t g 6)
    | some (s1, none, n) =>
      (Res.done ((((s1.poisonSeen t.id).poisonTrap s.issuer 0).putPair e.q stOk n 0).acquire t g 6)).gated s t g
    | none => .wait s (s.deque d).items

/-- `DQPOP` (R264). -/
def execDqpop (e : EF) (s : State) : Host.Outcome State Fault Refusal :=
  s.asEPair true [e.p.toNat] e.q e.x (s.dequeWatch e.p) (fun t g => s.dequeTake .pop e t g)

/-- `DQSTEAL` (R264). -/
def execDqsteal (e : EF) (s : State) : Host.Outcome State Fault Refusal :=
  s.asEPair true [e.p.toNat] e.q e.x (s.dequeWatch e.p) (fun t g => s.dequeTake .steal e t g)

/-! ## Queue bindings (R256, R265, R267) -/

/-- Whether a queue of a group is empty in every slice. -/
def Queue.empty (q : Queue) : Bool := q.slices.all (·.isEmpty)

/-- The stream that feeds a queue, or that a fault has stopped (R258). -/
def State.streamOf (s : State) (g : Group) (gid : GrpId) (n : Nat) : Option Stream :=
  (s.core g.core).streams.find? (fun x => decide (x.grp = gid) && x.q == n)

/-- A push to a queue of a group that is still to come: of a load word of the group, or of the one that feeds the queue
(R151, R256). -/
def State.pushComing (s : State) (core : Nat) (gid : GrpId) (n : Nat) : Bool :=
  let q := ((s.grp? gid).map (fun g => g.queue n)).getD ⟨.self, 0, 0, []⟩
  (s.core core).loads.any (fun r =>
    (decide (r.grp = gid) && r.q == some n) ||
      (q.kind == .group && decide (r.grp = ⟨gid.team, q.src⟩) && r.q == some q.srcQ))

/-- `QBIND` (R265). -/
def execQbind (p q : BitVec 6) (n : Fin 8) (s : State) : Host.Outcome State Fault Refusal :=
  s.asE false [p.toNat] q 0 none (fun t g =>
    let v := (g.sreg p.toNat).toNat
    let kind := v % 4
    let gi := fld v 4 4
    let m := fld v 8 4
    let gid := s.iss.grp
    let prod := t.groups[gi]?
    let badProd : Bool := match prod with
      | some x => x.core != g.core || x.width != g.width
      | none => true
    if v / 2 ^ 12 ≠ 0 || fld v 2 2 ≠ 0 || decide (7 < m) || kind == 3 || (kind == 1 && badProd) then s.fin q stRejected 0
    else
      let live := (s.streamOf g gid n.val).any (fun x => !x.stopped)
      let busy := !(g.queue n.val).empty || live || s.pushComing g.core gid n.val
      let prodBusy : Bool := match prod with
        | some x =>
          (x.queue m).kind != .self || !(x.queue m).empty || (t.consumer gi m).isSome || s.pushComing g.core ⟨t.id, gi⟩ m
        | none => false
      if busy || (kind == 1 && prodBusy) then s.fin q stBusy 0
      else
        let k : QKind := if kind = 0 then .self else if kind = 1 then .group else .engine
        (s.modGrp gid (fun g => { g with q := modAt (fun x =>
          { x with kind := k, src := if kind = 1 then gi else 0, srcQ := if kind = 1 then m else 0 }) n.val g.q })).fin q stOk 0)

/-- `QSTAT` (R267). -/
def execQstat (p q : BitVec 6) (n : Fin 8) (s : State) : Host.Outcome State Fault Refusal :=
  s.asE false [p.toNat] q 0 none (fun _ g =>
    let v := (g.sreg p.toNat).toNat
    let st := s.streamOf g s.iss.grp n.val
    if v = 0 then
      let x := g.queue n.val
      let occ := x.slices.map (·.length)
      let kind := match x.kind with | .self => 0 | .group => 1 | .engine => 2
      let hi := (if st.any (·.stopped) then 2 ^ 27 else 0) + (if st.any (fun y => !y.stopped) then 2 ^ 26 else 0) +
        x.srcQ * 2 ^ 22 + x.src * 2 ^ 18 + kind * 2 ^ 16 + occ.foldl max 0 * 2 ^ 8 + occ.foldl min (occ.headD 0)
      s.fin q stOk hi
    else if v = 1 then
      match st with
      | some x => s.fin q stOk x.next
      | none => s.fin q stRejected 0
    else s.fin q stRejected 0)

/-! ## The affine address engine (R258, R266) -/

/-- A stream record (R258), none when it breaks its rules; `total` counts its iterations. -/
def streamOfRec (bs : List Byte) (gid : GrpId) (q : Nat) (by_ : Issuer) : Option Stream :=
  let rank := field bs 8 1
  let elog := field bs 9 1
  let flg := field bs 10 1
  let ext (d : Nat) : Nat := field bs (16 + 4 * d) 4
  let str (d : Nat) : Int := sfield bs (32 + 4 * d) 4
  if rank = 0 || decide (4 < rank) || decide (2 < elog) || flg / 4 != 0 || !allZero bs 11 5 || !allZero bs 56 8 ||
      !(List.range 4).all (fun d => if d < rank then ext d != 0 else ext d == 0 && str d == 0) then none
  else
    let dims := (List.range rank).map (fun d => (ext d, str d))
    some { grp := gid, q := q, base := field bs 0 8, scr := flg % 2 == 1, sgn := flg / 2 == 1, elog := elog, dims := dims,
           tstr := sfield bs 48 4, next := field bs 52 4, total := dims.foldl (fun n d => n * d.1) 1, stopped := false,
           by_ := by_, fly := none, stopping := false }

/-- A core's streams without the one of a queue. -/
def State.dropStream (s : State) (core : Nat) (gid : GrpId) (q : Nat) : State :=
  s.modCore core (fun c => { c with streams := c.streams.filter (fun x => !(decide (x.grp = gid) && x.q == q)) })

/-- `AAEGO` (R266): a release at core scope. A stream that a fault has stopped gives way to the new one. -/
def execAaego (e : EF) (n : Fin 8) (s : State) : Host.Outcome State Fault Refusal :=
  s.asE true [e.p.toNat] e.q e.x none (fun t g =>
    s.releasing t g 3 (fun s =>
      let va := va56 (g.sreg e.p.toNat).toNat
      let gid := s.iss.grp
      let old := s.streamOf g gid n.val
      if va % 64 ≠ 0 then .trap (s.wordTrap 7 0 va 0xFF 0)
      else if s.toQueue t then .done s
      else if (g.queue n.val).kind != .engine || old.any (fun x => !x.stopped) then s.fin e.q stRejected 0
      else
        s.reading t g va 64 (fun s bs =>
          match streamOfRec bs gid n.val s.issuer with
          | none => s.fin e.q stRejected 0
          | some x =>
            if old.isNone && decide (Config.streamSlots ≤ (s.core g.core).streams.length) then .wait s 0
            else
              let s := s.dropStream g.core gid n.val
              let s := if x.total ≤ x.next then s
                else s.modCore g.core (fun c => { c with streams := c.streams ++ [x] })
              s.fin e.q stOk x.total)))

/-- A core's streams with an update of the one of a queue. -/
def State.modStream (s : State) (core : Nat) (gid : GrpId) (q : Nat) (f : Stream → Stream) : State :=
  s.modCore core (fun c => { c with streams := c.streams.map (fun x => if x.grp = gid ∧ x.q = q then f x else x) })

/-- `AAESTOP` (R266): while pushes are in flight it waits for them, and the stop goes ahead whether or not its time runs out. -/
def execAaestop (q : BitVec 6) (x : BitVec 5) (n : Fin 8) (s : State) : Host.Outcome State Fault Refusal :=
  s.asE true [] q x none (fun _ g =>
    match s.streamOf g s.iss.grp n.val with
    | none => s.fin q stRejected 0
    | some st =>
      if st.fly.isSome then
        .wait (s.modStream g.core s.iss.grp n.val (fun y => { y with stopping := true })) st.next
      else (s.dropStream g.core s.iss.grp n.val).fin q stOk st.next)

/-- The address of a stream's element for thread t of its next iteration (R258). -/
def Stream.addr (x : Stream) (t : Nat) : Nat :=
  let m : Int := if x.scr then 2 ^ 23 else 2 ^ 56
  (((x.base : Int) + affineOff x.dims x.next + t * x.tstr) % m).toNat

/-- An element's bytes extended to 32 bits. -/
def Stream.word (x : Stream) (bs : List Byte) : Word :=
  let v := leNat bs
  if x.sgn && x.elog = 0 then (BitVec.ofNat 8 v).signExtend 32
  else if x.sgn && x.elog = 1 then (BitVec.ofNat 16 v).signExtend 32
  else BitVec.ofNat 32 v

/-- What the loads of an iteration give: the values, a fault (cause, detail, level, address), or a wait. -/
inductive Iter where
  | ok (s : State) (vals : List Word)
  | fault (cause detail level addr : Nat)
  | wait

/-- The loads of an iteration for every thread of the consumer group, lowest first. -/
def State.streamLoads (s : State) (t : Team) (core : Nat) (x : Stream) : List Nat → Iter
  | [] => .ok s []
  | k :: ks =>
    let a := x.addr k
    let n := 2 ^ x.elog
    if x.scr then
      match s.scrAt t.id a n with
      | .error c => .fault c 0 0xFF a
      | .ok p =>
        if s.inRange p.team p.off n || s.winHeld p.team p.off n then .wait
        else
          let r0 := s.winElem x.by_ p.team p.off n a
          let r := r0.1.crossUp x.by_ core a r0.2
          match r.1.streamLoads t core x ks with
          | .ok s' vs => .ok s' (x.word r.2 :: vs)
          | r => r
    else
      match s.xlatElem core t.space a n .read with
      | .error e => .fault 8 e.detail e.level a
      | .ok ps =>
        if ps.any s.partHeld then .wait
        else
          let r := s.loadElem x.by_ core a ps false true
          match r.1.streamLoads t core x ks with
          | .ok s' vs => .ok s' (x.word r.2 :: vs)
          | r => r

/-- Whether an `AAESTOP` of a group waits for the stream of a queue (R266). -/
def Group.awaitsStop (g : Group) (q : Nat) : Bool :=
  g.waits.any (fun w =>
    match (decodeWord w.word).toOption with
    | some (.aaestop _ _ n) => n.val == q
    | _ => false)

/-- The entry of an iteration pushed, and the stream behind it: it ends after its last iteration, or where its stop went ahead
(R258, R266). -/
def State.streamLand (s : State) (gr : Group) (x : Stream) (vs : List Word) : State :=
  let s1 := (s.served gr.core (gr.pipe / 2) 1).modGrp x.grp (fun gr =>
    gr.pushQ (List.range (gr.width / 16)) x.q (fun j => vs.getD j 0))
  if (x.next + 1 = x.total ∨ x.stopping) ∧ !gr.awaitsStop x.q then s1.dropStream gr.core x.grp x.q
  else s1.modStream gr.core x.grp x.q (fun y => { y with next := y.next + 1, fly := none })

/-- The next iteration of a stream read: a fault stops it, pushes nothing, and its trap is pending; a full slice, a scratchpad
range in use or a locked page makes it wait (R258). `land` says what becomes of the values. -/
def State.streamRead (s : State) (g : GrpId) (q : Nat) (land : State → Group → Stream → List Word → State) : State :=
  match s.team? g.team, s.grp? g with
  | some t, some gr =>
    match s.streamOf gr g q with
    | none => s
    | some x =>
      if x.stopped || x.stopping || x.fly.isSome || t.loc != .resident ||
          !(gr.queue q).roomAll (List.range (gr.width / 16)) then s
      else
        match s.streamLoads t gr.core x (List.range gr.width) with
        | .wait => s
        | .fault c d l a =>
          (s.modStream gr.core g q (fun y => { y with stopped := true })).pendTrap x.by_ c d l a 0
        | .ok s' vs => land s' gr x vs
  | _, _ => s

/-- A stream reads its next iteration, whose pushes are then in flight (R266). -/
def State.streamFly (s : State) (g : GrpId) (q : Nat) : State :=
  s.streamRead g q (fun s gr x vs => s.modStream gr.core x.grp x.q (fun y => { y with fly := some vs }))

/-- `AAE_STREAM_PUSH`: the stream of a queue pushes its next iteration, or the one in flight lands (R258, R266). -/
def execAaeStreamPush (g : GrpId) (q : Nat) (s : State) : Host.Outcome State Fault Refusal :=
  .next (match (s.grp? g).bind (fun gr => (s.streamOf gr g q).map (fun x => (gr, x))) with
    | some (gr, x) =>
      match x.fly with
      | some vs => s.streamLand gr x vs
      | none => s.streamRead g q State.streamLand
    | none => s)

end Sys2Proof.Machine
end

