-- ==== Sys2Proof/Machine/Waits.lean ====
section
/-! DEFINITION. Words run again after they issued: waits that are examined or expire, and the serial words of a `det`
node (R51, R159, R348, R349). -/

namespace Sys2Proof.Machine

open Sys2Proof

/-- The meaning of a word that may wait or be serial; every other word ends at its issue. -/
def runHeld (i : Instr) (s : State) : Host.Outcome State Fault Refusal :=
  match i with
  | .atom op t m => execAtom op t m s
  | .atoms op t m => execAtoms op t m s
  | .copygo e ch => execCopygo e ch s
  | .copywait q x ch => execCopywait q x ch s
  | .copycancel q x ch => execCopycancel q x ch s
  | .barinit p q => execBarinit p q s
  | .bararrive p q => execBararrive p q s
  | .barexpect p q => execBarexpect p q s
  | .barwait e => execBarwait e s
  | .bartest p q => execBartest p q s
  | .mwait e => execMwait e s
  | .mxlease e => execMxlease e s
  | .mxgo e tag => execMxgo e tag s
  | .mxwait q x tag => execMxwait q x tag s
  | .mxdrain e tag => execMxdrain e tag s
  | .mxrel q x => execMxrel q x s
  | .ores p q r => execOres p q r s
  | .obld e r => execObld e r s
  | .tspawn e => execTspawn e s
  | .tdec p q n => execTdec p q n s
  | .twait e => execTwait e s
  | .dqpush e => execDqpush e s
  | .dqpop e => execDqpop e s
  | .dqsteal e => execDqsteal e s
  | .aaego e q => execAaego e q s
  | .aaestop q x n => execAaestop q x n s
  | .msred e n => execMsred e n s
  | .msatom e n => execMsatom e n s
  | .mspoll q c => execMspoll q c s
  | .mswait e c => execMswait e c s
  | .ldsub p q n => execLdsub p q n s
  | .unsub e => execUnsub e s
  | .slotrd p q => execSlotrd p q s
  | .slotwait e => execSlotwait e s
  | .pktab e h => execPktab e h s
  | .pklook e tag => execPklook e tag s
  | .pkgrad e tag => execPkgrad e tag s
  | .pkwait q x tag => execPkwait q x tag s
  | .replayGo e => execReplayGo e s
  | .ctxsave e => execCtxsave e s
  | .ctxload e => execCtxload e s
  | .shoot e sz => execShoot e sz s
  | .migrateGo e => execMigrateGo e s
  | .migrateWait e => execMigrateWait e s
  | .collGo e slot => execCollGo e slot s
  | .collWait q x slot => execCollWait q x slot s
  | .collTest q slot => execCollTest q slot s
  | .collCancel q slot => execCollCancel q slot s
  | _ => .next s

/-- How a word that is run again ends: done, in a trap, or not, with what a timeout would report; a release's write-backs may be on
their way. -/
inductive Again where
  | done (s : State)
  | trap (x : Trap)
  | flush
  | not (last : Nat)

/-- A word run again with its issue record. -/
def State.again (s : State) (i : Issue) : Again :=
  match decodeWord i.word with
  | .error _ => .not i.last
  | .ok ins =>
    match runHeld ins { s with iss := i } with
    | .next s' =>
      match s'.iss.raised, s'.iss.stalled with
      | some x, _ => .trap x
      | none, some .flush => .flush
      | none, some _ => .not s'.iss.last
      | none, none => .done { s' with iss := Issue.none }
    | _ => .not i.last

/-- A word run again; where it is a release whose write-backs are on their way, once more when they and their pushes have gone as far as
they can. -/
def State.againFlushed (s : State) (i : Issue) : State × Again :=
  match s.again i with
  | .flush =>
    let s1 := (s.relSelf (((s.grp? i.grp).map (·.core)).getD 0)).landAll
    (s1, s1.again i)
  | r => (s, r)

/-- The issue record of a wait. -/
def WaitRec.issue (w : WaitRec) (g : GrpId) (m : Mode) : Issue :=
  { grp := g, mask := w.mask, pc := w.pc, base := w.pc, next := w.next, slot := w.slot, word := w.word, lit := w.lit,
    sys := w.sys, mode := m, raised := none, stalled := none, acted := [], wid := w.id, kept := w.kept, watch := w.watch, last := w.last }

/-- The wait of a group that blocks a thread. -/
def Group.waitOf (g : Group) (t : Nat) : Option WaitRec := g.waits.find? (fun w => !w.held && w.mask.getLsbD t)

/-- A wait ends: its threads run again. -/
def Group.endWait (g : Group) (w : WaitRec) : Group :=
  (g.onThreads w.mask (fun _ t => if t.st = .blocked then { t with st := .runnable } else t)).dropWait w

/-- The local cycles of a group's core (R3). -/
def State.nowOf (s : State) (gid : GrpId) : Nat := ((s.grp? gid).map (fun g => s.now g.core)).getD s.cycle

/-- A trap of a word that is run again: taken with `RESUMEPC` at the word, or, where another path's handler runs, pending
until the group leaves trap mode (R298, R299). -/
def State.againTrap (s : State) (gid : GrpId) (mask : Mask) (x : Trap) (pc : VAddr) : State :=
  let s1 := s.modGrp gid (fun g => g.onThreads mask (fun _ t => { t with pc := pc }))
  match s1.grp? gid with
  | none => s1
  | some g =>
    match g.trapMask with
    | some m => if (mask &&& ~~~m) = 0 then s1.takeTrap gid mask x pc else s1.modGrp gid (fun g => g.pend x)
    | none => s1.takeTrap gid mask x pc

/-- A wait examined or expired: none when it goes on as it stands. -/
def State.retry (s : State) (gid : GrpId) (w : WaitRec) (m : Mode) : Option State :=
  match s.again (w.issue gid m) with
  | .done s' => some (s'.modGrp gid (fun g => g.endWait w))
  | .trap x => some ((s.modGrp gid (fun g => g.endWait w)).againTrap gid w.mask x w.pc)
  | .flush => some (s.relSelf (((s.grp? gid).map (·.core)).getD 0))
  | .not n =>
    if n = w.last then none
    else some (s.modGrp gid (fun g => { g with waits := g.waits.map (fun x => if x.id = w.id then { x with last := n } else x) }))

/-- Whether a group's waits can be examined: its team is on its cores and not being saved. -/
def State.awake (s : State) (gid : GrpId) : Bool :=
  ((s.team? gid.team).map (fun t => decide (t.loc = .resident) || s.isDet t.id)).getD false

/-- The wait words whose condition every write to their object decides: it is examined as each step ends (R159, R263, R264, R325,
R326, notes/assumptions/46.md). `BARWAIT` and `MWAIT` are told by their watch. -/
def Instr.examined (i : Instr) : Bool :=
  match i with
  | .copywait .. | .mxwait .. | .twait .. | .dqpush .. | .dqpop .. | .dqsteal .. | .mswait .. | .slotwait .. | .unsub ..
  | .pkwait .. | .collWait .. | .aaestop .. | .replayGo .. | .mxrel .. => true
  | _ => false

/-- One wait examined as a step ends. -/
def State.examineOne (s : State) (gid : GrpId) (w : WaitRec) : State :=
  if w.serial || w.held || !s.awake gid || !(((decodeWord w.word).toOption.map Instr.examined).getD false) then s
  else (s.retry gid w .examine).getD s

/-- The waits examined as a step ends, each as the ones before it have left the state. -/
def State.examineAll (s : State) : State := s.allWaits.foldl (fun s x => s.examineOne x.1 x.2) s

/-- `WAIT_CONDITION_MET` (R159): the wait that blocks a thread is examined, and ends if its condition holds. A serial word of a
`det` node is examined at quantum ends only (R349). -/
def execWaitConditionMet (g : GrpId) (t : Nat) (s : State) : Host.Outcome State Fault Refusal :=
  .next (match (s.grp? g).bind (fun x => x.waitOf t) with
    | some w => if w.serial || !s.awake g then s else (s.retry g w .examine).getD s
    | none => s)

/-- `WAIT_TIMEOUT` (R51, R159): a wait whose limit has passed ends with `TIMEOUT`. -/
def execWaitTimeout (g : GrpId) (t : Nat) (s : State) : Host.Outcome State Fault Refusal :=
  .next (match (s.grp? g).bind (fun x => x.waitOf t) with
    | some w =>
      if w.serial || !(w.deadline.any (fun d => decide (d ≤ s.nowOf g))) then s else (s.retry g w .expire).getD s
    | none => s)

end Sys2Proof.Machine
end

