-- ==== Sys2Proof/Machine/Quanta.lean ====
section
/-! DEFINITION. The quanta of a `det` node: where a thread stops, and the quantum end (R345 to R350). -/

namespace Sys2Proof.Machine

open Sys2Proof

/-! ## Where a thread stops (R347) -/

/-- A thread that has retired its packets of the quantum and stands at a packet boundary. -/
def Thread.spent (t : Thread) : Bool := t.runnable && t.pkt.isNone && decide (Config.quantumPackets ≤ t.retired)

/-- The threads of a group that stop now: not those inside a latch run, of the current path or alone (R57, R132), nor those of
a handler that runs between two quanta (R349). -/
def State.spentIn (s : State) (space : Nat) (gid : GrpId) (g : Group) : Mask :=
  if g.threads.all (fun t => !t.spent) || s.ending gid.team then 0
  else
    let run := s.inRun space g
    g.maskBy (fun t => t.spent && !(run && g.cur == some t.pc)) &&& ~~~(maskOf (s.loneRuns gid g))

/-- Every thread of the `det` nodes that has used its quantum stops. -/
def State.quantumStops (s : State) : State :=
  { s with teams := s.teams.map (fun t =>
      if s.isDet t.id then
        { t with groups := mapFrom (fun j (g : Group) =>
            g.onThreads (s.spentIn t.space ⟨t.id, j⟩ g) (fun _ th => { th with stopped := true })) 0 t.groups }
      else t) }

/-- `THREAD_QUANTUM_STOP` (R347): a thread that has retired 2,048 packets in the quantum stops at a packet boundary. -/
def execThreadQuantumStop (g : GrpId) (t : Nat) (s : State) : Host.Outcome State Fault Refusal :=
  .next (match s.team? g.team, s.grp? g with
    | some tm, some x =>
      if s.isDet g.team && (s.spentIn tm.space g x).getLsbD t then
        s.modGrp g (fun x => x.onThreads (BitVec.twoPow 64 t) (fun _ th => { th with stopped := true }))
      else s
    | _, _ => s)

/-! ## The quantum end (R349) -/

/-- The teams of a node, in increasing index. -/
def State.nodeTeams (s : State) (node : Nat) : List Team :=
  sortBy (fun a b => decide (a.id.idx < b.id.idx)) (s.teams.filter (fun t => t.id.node == node))

/-- The names of a node's groups, in the order of their thread numbers. -/
def State.nodeGroups (s : State) (node : Nat) : List GrpId := (s.nodeTeams node).flatMap Team.grpIds

/-- A group whose threads have all stopped or exited, or cannot run before the quantum ends: those that wait at a join, or
behind a handler, or for the save that the group has asked for. Without these the quantum of such a group would never end (R347; DEDUCED,
notes/assumptions/22.md). -/
def Group.quiet (g : Group) (saver : Bool) : Bool := g.eligible == 0 && (saver || g.waits.all (·.serial))

/-- A stream that has nothing to do before its group runs: stopped, or waiting for room in its queue. -/
def State.streamRests (s : State) (x : Stream) : Bool :=
  x.stopped || x.fly.isNone && (x.stopping || (match s.grp? x.grp with
    | some g => !((g.queue x.q).roomAll (List.range (g.width / 16)))
    | none => true))

/-- Whether the streams of a team have filled their queues: what they read before a commit does not depend on when it comes (R351). -/
def State.streamsRest (s : State) (t : TeamId) : Bool :=
  s.cores.all (fun c => c.streams.all (fun x => decide (x.grp.team ≠ t) || s.streamRests x))

/-- Whether a node's quantum can end (R347): every team has been placed, its threads have stopped, and no element is
parked. -/
def State.quantumDone (s : State) (n : Node) : Bool :=
  n.l.det && decide (n.next = n.l.teams) && n.phase == 0 &&
    (s.nodeTeams n.id).all (fun t =>
      t.pinned && (mapFrom (fun j (g : Group) => g.quiet (t.saver.any (fun x => x.1 == j))) 0 t.groups).all id &&
        (s.parksOfTeam t.id).all (fun p => p.elems.isEmpty) && s.streamsRest t.id)

/-- Whether a node's commit has to wait: it is a release, so the writes before it and their pushes come first (R327, R350), and its own
writes find room (R20). -/
def State.commitWaits (s : State) (n : Node) : Bool :=
  !s.pushIds.isEmpty || !s.pushq.isEmpty ||
    (s.nodeGroups n.id).any (fun gid =>
      match s.grp? gid with
      | some g => s.unflushed g.core || g.buf.any (fun b => b.parts.any s.partHeld || s.heldFull (s.partPas b.parts))
      | none => false)

/-- One buffered element performed as the store it was (R349, step 1). -/
def State.commitElem (s : State) (core : Nat) (node : Nat) (b : BufElem) : State :=
  match b.scr with
  | some x => s.winStore ⟨node, x.1⟩ x.2 b.data
  | none => s.storeElem core b.hint true b.parts b.data

/-- A group's buffer commits, thread by thread and row by row; the commit is a release (R349, R350). -/
def State.commitGroup (s : State) (gid : GrpId) : State :=
  match s.grp? gid with
  | none => s
  | some g =>
    let s1 := (List.range g.width).foldl (fun s t =>
      (g.buf.filter (fun b => b.thread == t)).foldl (fun s b => s.commitElem g.core gid.team.node b) s) s
    let s2 := (s1.relSelf g.core).modGrp gid (fun g => { g with buf := [] })
    { s2 with shoots := s2.shoots.map (fun x => { x with bufs := x.bufs.filter (fun y => decide (y ≠ gid)) }) }

/-- Whether a home still holds a write of the core of a group (R203, R352). -/
def State.writesHeld (s : State) (gid : GrpId) : Bool := ((s.grp? gid).map (fun g => s.unflushed g.core)).getD false

/-- A serial word with its place in the order: the thread number of its lowest active thread, or of its element's. -/
structure SerialAt where
  n : Nat
  gid : GrpId
  r : SerialRec
  mask : Mask

/-- Whether a word is `ATOM` or `ATOMS`, each element of which takes its own place (R348). -/
def serialByElem (w : Word) : Bool :=
  match (decodeWord w).toOption with
  | some (.atom ..) | some (.atoms ..) => true
  | _ => false

/-- The serial words of a group as they stand in the order. -/
def Group.serials (g : Group) (gid : GrpId) (base : Nat) : List SerialAt :=
  g.serial.flatMap (fun r =>
    let ts := Mask.list r.mask g.width
    if serialByElem r.word then
      ts.map (fun t => { n := base + t, gid := gid, r := r, mask := BitVec.twoPow 64 t })
    else [{ n := base + ts.headD 0, gid := gid, r := r, mask := r.mask }])

/-- The first thread number of a group (R345). -/
def Launch.threadBase (l : Launch) (gid : GrpId) : Nat := gid.team.idx * l.groups * l.width + gid.grp * l.width

/-- The serial words of a node in increasing thread number. -/
def State.serialsOf (s : State) (n : Node) : List SerialAt :=
  sortBy (fun a b => decide (a.n < b.n)) ((s.nodeGroups n.id).flatMap (fun gid =>
    match s.grp? gid with
    | some g => g.serials gid (n.l.threadBase gid)
    | none => []))

/-- A serial word, or one element of it, is no longer queued. -/
def Group.unqueue (g : Group) (x : SerialAt) : Group :=
  { g with serial := g.serial.filterMap (fun r =>
      if r.id = x.r.id then
        let m := r.mask &&& ~~~x.mask
        if m = 0 then none else some { r with mask := m }
      else some r) }

/-- A serial word that has ended leaves no write in flight; one that waits keeps it (R70, R349). -/
def Group.settled (g : Group) (id : Nat) : Group :=
  if g.waits.any (fun w => w.id == id) || g.serial.any (fun r => r.id == id) then g
  else { g with spend := g.spend.filter (fun x => x.2 != id) }

/-- One serial word performed (R349, step 2), and whether it was: it may have to wait, as for writes of its release that a home holds.
The pushes before it land first, and each word's updates of barriers have their own examination (R157, R327). -/
def State.serialOne (s0 : State) (x : SerialAt) : State × Bool :=
  let i : Issue :=
    { grp := x.gid, mask := x.mask, pc := x.r.pc, base := x.r.pc, next := x.r.next, slot := x.r.slot, word := x.r.word,
      lit := x.r.lit, sys := false, mode := .serial, raised := none, stalled := none, acted := [], wid := x.r.id,
      kept := x.r.kept }
  let r := s0.landAll.againFlushed i
  match r.2 with
  | .done s' => ((s'.modGrp x.gid (fun g => (g.unqueue x).settled x.r.id)).barClose.examineAll, true)
  | .trap y => ((r.1.modGrp x.gid (fun g => (g.unqueue x).settled x.r.id)).againTrap x.gid x.mask y x.r.pc, true)
  | .flush | .not _ => (r.1, false)

/-- The serial words performed in order, as far as they can be; whether all were. -/
def State.serialAll (s : State) : List SerialAt → State × Bool
  | [] => (s, true)
  | x :: xs =>
    let r := s.serialOne x
    if r.2 then r.1.serialAll xs else r

/-- Whether every engine operation of a team has completed (R349, step 3); what is parked or stopped waits for its handler. -/
def State.enginesRest (s : State) (t : Team) : Bool :=
  let mine (x : TeamId) : Bool := decide (x = t.id)
  t.chans.all (fun c => c.st != 1) && t.colls.all (fun c => c.st != 1) && t.kl.all (fun k => !k.busy) &&
    t.leases.all (fun l => l.tags.all (fun x => !x.out) && l.recs.all (fun r => r.st != 1)) &&
    !(s.cmds.any (fun c => mine c.by_.team)) && !(s.cmdWaits.any (fun c => mine c.by_.team)) &&
    !(s.vats.any (fun v => v.tables.any (fun x => x.st == 1 && mine x.by_.team) || v.klq.any (fun o => mine o.team))) &&
    !(s.flights.any (fun f => mine f.team && (match f.kind with | .landing .. => true | _ => false))) && s.streamsRest t.id

/-- The wait of a thread as it stands, for one that an earlier examination of the same end may have changed. -/
def State.waitNow (s : State) (gid : GrpId) (w : WaitRec) : Option WaitRec :=
  (s.grp? gid).bind (fun g => g.waits.find? (fun x => x.id == w.id))

/-- One waiting word examined at a quantum end (R349, step 4), the pushes before it landed; the examination counts toward its limit where
it goes on waiting. -/
def State.waitOne (s : State) (gid : GrpId) (w : WaitRec) : State :=
  let s := (s.againFlushed (w.issue gid .examine)).1.landAll
  let s0 := ((s.retry gid w .examine).getD s).barClose
  match s0.waitNow gid w with
  | none => s0
  | some w0 =>
    let w' := { w0 with quanta := w0.quanta + 1 }
    let s1 := s0.modGrp gid (fun g => { g with waits := g.waits.map (fun x => if x.id = w.id then w' else x) })
    if w'.deadline.any (fun d => decide (d ≤ w'.quanta)) then (s1.retry gid w' .expire).getD s1 else s1

/-- The waiting words of a node, in increasing thread number. -/
def State.waitsOf (s : State) (n : Node) : List (Nat × GrpId × WaitRec) :=
  sortBy (fun a b => decide (a.1 < b.1)) ((s.nodeGroups n.id).flatMap (fun gid =>
    match s.grp? gid with
    | some g => (g.waits.filter (fun w => w.serial && !w.held)).map (fun w => (n.l.threadBase gid + Mask.lo w.mask g.width, gid, w))
    | none => []))

/-- Whether a group is being pre-empted: its `PREEMPT` can be taken, or its handler runs between two quanta (R349). Behind another trap's
handler, stopped at the quantum's end, a `PREEMPT` waits for a later quantum end. -/
def Group.preempting (g : Group) : Bool :=
  if g.trapMask.isSome then g.trapCause == 14 else g.traps.any (fun x => x.cause == 14)

/-- The next quantum begins (R349, step 5): an acquire at device scope (R350). -/
def State.nextQuantum (s : State) (n : Node) : State :=
  let s1 := (s.nodeTeams n.id).foldl (fun s t =>
    (s.acqCores t.core t.paired).modTeam t.id (fun t =>
      { t with groups := t.groups.map (fun g =>
          { g with threads := g.threads.map (fun th =>
              { th with stopped := th.stopped && th.st == .blocked, retired := 0 }) }) })) s
  s1.modNode n.id (fun n => { n with phase := 0, quanta := n.quanta + 1 })

/-- `QUANTUM_END` (R349): the quantum end of a node goes on by one of its steps: the buffers commit, behind the writes before them and
their pushes (R327, R350); when the commits' own pushes have landed, the serial words are performed; when the engines are at rest, the waits are examined; when every team is resident,
the next quantum begins. -/
def execQuantumEnd (node : Nat) (s : State) : Host.Outcome State Fault Refusal :=
  .next (match s.node? node with
    | none => s
    | some n =>
      if n.phase = 0 then
        if s.quantumDone n then
          let s0 := s.landAll
          if s0.commitWaits n then s0
          else
          let s1 := (s0.nodeGroups node).foldl State.commitGroup s0
          s1.modNode node (fun n =>
            { n with phase := 1, mark := if (s.nodeGroups node).any s1.writesHeld then 0 else s1.fresh })
        else s
      else if n.phase = 1 then
        if (s.nodeGroups node).any s.writesHeld then
          (s.nodeGroups node).foldl (fun s gid => s.relSelf (((s.grp? gid).map (·.core)).getD 0)) s
        else if n.mark = 0 then s.modNode node (fun n => { n with mark := s.fresh })
        else if s.pushIds.any (fun id => decide (id < n.mark)) then s
        else
          let r := s.serialAll (s.serialsOf n)
          if r.2 then r.1.modNode node (fun n => { n with phase := 2 }) else r.1
      else if n.phase = 2 then
        if (s.nodeTeams node).all s.enginesRest then
          if !s.landAll.pushIds.isEmpty then s.landAll
          else
          let s := s.landAll
          let s1 := (s.waitsOf n).foldl (fun s x =>
            match s.waitNow x.2.1 x.2.2 with
            | some w => s.waitOne x.2.1 w
            | none => s) s
          s1.modNode node (fun n => { n with phase := 3 })
        else s
      else if (s.nodeTeams node).all (fun t => decide (t.loc = .resident) && t.groups.all (fun g => !g.preempting)) then
        s.nextQuantum n
      else s)

end Sys2Proof.Machine
end

