-- ==== Sys2Proof/Machine/Vec.lean ====
section
/-! DEFINITION. The vector pipe: the skeleton of a V word, and every V word (R56, R58, R60, R63, R67, R77, R87 to R104,
R117 to R119). -/

namespace Sys2Proof.Machine

open Sys2Proof

/-- The destination of a V word: an OS, a pair (its upper values, where they are written), or a predicate. -/
inductive VDst where
  | os (d : Os)
  | pair (n : Nat) (hi : Option (Nat → Word))
  | pred (p : Fin 8)

/-- The v registers a destination names, both of a pair (R67). -/
def VDst.regs : VDst → List Nat
  | .os (.v n) => [n.val]
  | .os _ => []
  | .pair n _ => [n, n + 1]
  | .pred _ => []

/-- The queue a destination pushes, unless the write is suppressed (R58). -/
def VDst.push (w : Bool) : VDst → Option Nat
  | .os (.q n) => if w then none else some n.val
  | _ => none

/-- A thread's write of a result to the destination (R58, R63). -/
def Thread.putDst (th : Thread) (w : Bool) (dst : VDst) (i : Nat) (x : Word) : Thread :=
  if w then th
  else
    match dst with
    | .os (.v n) => th.setV n.val x
    | .os _ => th
    | .pair n (some hi) => (th.setV n x).setV (n + 1) (hi i)
    | .pair n none => th.setV n x
    | .pred p => th.setPred p.val (x != 0)

/-- The group after a V word of the threads `m`: queues popped, destinations written, latches aged (R56, R63). -/
def Group.vec (g : Group) (m : Mask) (beats pops : List Nat) (w : Bool) (dst : VDst) (val : Nat → Word) : Group :=
  (pops.foldl (fun g n => g.popQ beats n) g).onThreads m (fun i th => (th.putDst w dst i (val i)).latchPush (val i))

/-- The entry pushed into the queue a V word's destination feeds (R256). -/
def State.vecPush (s : State) (t : Team) (m : Mask) (beats : List Nat) (n : Nat) (val : Nat → Word) : State :=
  let p := t.pushTarget s.iss.grp.grp n
  s.modGrp ⟨s.iss.grp.team, p.1⟩ (fun g => g.pushQ beats p.2 (fun i => if m.getLsbD i then val i else 0))

/-- The state after a V word of the issuing group. -/
def State.vecDone (s : State) (t : Team) (g : Group) (w : Bool) (srcs : List Os) (dst : VDst) (val : Nat → Word) :
    State :=
  let m := s.iss.mask
  let beats := beatsOf g.width m
  let s' := s.modGrp s.iss.grp (fun g => g.vec m beats (popsOf srcs) w dst val)
  match dst.push w with
  | some n => s'.vecPush t m beats n val
  | none => s'

/-- A V word (R45, R63, R85): the register-range check, the queue check, readiness, then the effect. `val` gives a thread's
result from the operands. -/
def State.vecWord (s : State) (w : Bool) (srcs : List Os) (extra : List Nat) (sregs : List Nat)
    (dst : (Os → Nat → Word) → VDst) (val : Group → (Os → Nat → Word) → Nat → Word) :
    Host.Outcome State Fault Refusal :=
  s.asWord (fun t g =>
    let rd := fun o i => g.osVal s.iss.lit o i
    let d := dst rd
    let srcRegs := srcs.flatMap Os.vregs ++ extra
    let pops := popsOf srcs
    let beats := beatsOf g.width s.iss.mask
    if (srcRegs ++ d.regs).any (fun n => decide (g.alloc ≤ n)) then s.raise 3 0
    else if t.queueState s.iss.grp.grp pops (d.push w) then s.raise 10 s.iss.slot
    else if g.vPending s.iss.mask srcRegs then .stall (s.owedBy g s.iss.mask srcRegs)
    else if g.sPending (srcs.flatMap Os.sregs ++ sregs) then .stall .busy
    else if !(t.queuesReady s.iss.grp.grp beats pops (d.push w)) || s.pushHeld s.iss.grp g (d.push w) then .stall .busy
    else .done (s.vecDone t g w srcs d (val g rd)))

/-- A V word of two sources. -/
def State.vec2 (s : State) (w : Bool) (d a b : Os) (f : Word → Word → Word) : Host.Outcome State Fault Refusal :=
  s.vecWord w [a, b] [] [] (fun _ => .os d) (fun _ rd i => f (rd a i) (rd b i))

/-- A V word of one source. -/
def State.vec1 (s : State) (w : Bool) (d a : Os) (f : Word → Word) : Host.Outcome State Fault Refusal :=
  s.vecWord w [a] [] [] (fun _ => .os d) (fun _ rd i => f (rd a i))

/-- An accumulating V word, which reads D (R47). -/
def State.vecAcc (s : State) (w : Bool) (d a b : Os) (f : Word → Word → Word → Word) :
    Host.Outcome State Fault Refusal :=
  s.vecWord w [a, b, d] [] [] (fun _ => .os d) (fun _ rd i => f (rd d i) (rd a i) (rd b i))

/-- The number of a v register; a well-formed pair names no other operand. -/
def vnum : Os → Nat
  | .v n => n.val
  | _ => 0

/-! ## VMISC -/

/-- `NOP` changes no state (R60). -/
def execNop (s : State) : Host.Outcome State Fault Refusal := s.asWord (fun _ _ => .done s)

/-- `VMOV` (R77). -/
def execVmov (w : Bool) (d a : Os) (s : State) : Host.Outcome State Fault Refusal := s.vec1 w d a id

/-- The physical placement of a thread (R77). -/
def laneWord (g : Group) (i : Nat) : Word := w32 (i % 16 + 16 * (i / 16) + 64 * g.pipe + 256 * g.core)

/-- `VLANE` (R77). -/
def execVlane (w : Bool) (d : Os) (s : State) : Host.Outcome State Fault Refusal :=
  s.vecWord w [] [] [] (fun _ => .os d) (fun g _ i => laneWord g i)

/-- `VSPLAT` (R77). -/
def execVsplat (w : Bool) (d : Os) (sr : BitVec 6) (sel : SplatSel) (s : State) : Host.Outcome State Fault Refusal :=
  let v : Reg := ((s.grp? s.iss.grp).map (fun g => g.sreg sr.toNat)).getD 0
  let lo : Word := v.setWidth 32
  let hi : Word := (v >>> 32).setWidth 32
  match sel with
  | .lo => s.vecWord w [] [] [sr.toNat] (fun _ => .os d) (fun _ _ _ => lo)
  | .hi => s.vecWord w [] [] [sr.toNat] (fun _ => .os d) (fun _ _ _ => hi)
  | .pair =>
    s.vecWord w [] [] [sr.toNat] (fun _ => if d = .zero then .os d else .pair (vnum d) (some (fun _ => hi))) (fun _ _ _ => lo)

/-- The odd register of a pair as an operand. -/
def oddOf (o : Os) : Os := .v (Fin.ofNat 96 (vnum o + 1))

/-- `VMOV64` (R77): a source `Z` writes the even register only, and a destination `Z` none. -/
def execVmov64 (w : Bool) (d a : Os) (s : State) : Host.Outcome State Fault Refusal :=
  match a with
  | .zero => s.vecWord w [a] [] [] (fun _ => if d = .zero then .os d else .pair (vnum d) none) (fun _ _ _ => 0)
  | _ =>
    s.vecWord w [a] [vnum a + 1] [] (fun rd => if d = .zero then .os d else .pair (vnum d) (some (fun i => rd (oddOf a) i)))
      (fun _ rd i => rd a i)

/-! ## Arithmetic -/

/-- `VADD` (R90). -/
def execVadd (ty : AddTy) (w : Bool) (d a b : Os) (s : State) : Host.Outcome State Fault Refusal :=
  s.vec2 w d a b (addOp ty)

/-- `VSUB` (R90). -/
def execVsub (ty : AddTy) (w : Bool) (d a b : Os) (s : State) : Host.Outcome State Fault Refusal :=
  s.vec2 w d a b (subOp ty)

/-- `VMUL` (R91). -/
def execVmul (ty : MulTy) (w : Bool) (d a b : Os) (s : State) : Host.Outcome State Fault Refusal :=
  s.vec2 w d a b (mulOp ty)

/-- `VFMA` (R92). -/
def execVfma (ty : FmaTy) (w : Bool) (d a b : Os) (s : State) : Host.Outcome State Fault Refusal :=
  s.vecAcc w d a b (fmaOp ty)

/-- `VFNMA` (R92). -/
def execVfnma (ty : FmaTy) (w : Bool) (d a b : Os) (s : State) : Host.Outcome State Fault Refusal :=
  s.vecAcc w d a b (fnmaOp ty)

/-- `VMIN` (R93). -/
def execVmin (ty : MinTy) (w : Bool) (d a b : Os) (s : State) : Host.Outcome State Fault Refusal :=
  s.vec2 w d a b (minMaxOp false ty)

/-- `VMAX` (R93). -/
def execVmax (ty : MinTy) (w : Bool) (d a b : Os) (s : State) : Host.Outcome State Fault Refusal :=
  s.vec2 w d a b (minMaxOp true ty)

/-- `VLOGIC` (R94). -/
def execVlogic (op : LogicOp) (w : Bool) (d a b : Os) (s : State) : Host.Outcome State Fault Refusal :=
  s.vec2 w d a b (logicOp op)

/-- `VSHIFT.SHL`, `SHR`, `SAR`, `ROTL` (R95). -/
def execVshift (op : ShiftOp) (w : Bool) (d a b : Os) (s : State) : Host.Outcome State Fault Refusal :=
  s.vec2 w d a b (shiftOp op)

/-- A descriptor literal with bits [31:11] nonzero (R46, R62 detail 7). -/
def badDesc (l : Word) : Bool := l.toNat / 2 ^ 11 != 0

/-- `VSHIFT.BFX` (R46, R95). -/
def execVshiftBfx (w : Bool) (d a : Os) (s : State) : Host.Outcome State Fault Refusal :=
  if badDesc s.iss.lit then s.asWord (fun _ _ => s.raise 2 7)
  else s.vecWord w [a] [] [] (fun _ => .os d) (fun _ rd i => bfxOp s.iss.lit (rd a i))

/-- `VSHIFT.BFI` (R46, R95). -/
def execVshiftBfi (w : Bool) (d a : Os) (s : State) : Host.Outcome State Fault Refusal :=
  if badDesc s.iss.lit then s.asWord (fun _ _ => s.raise 2 7)
  else s.vecWord w [a, d] [] [] (fun _ => .os d) (fun _ rd i => bfiOp s.iss.lit (rd d i) (rd a i))

/-- `VCMPI` (R96). -/
def execVcmpi (c : CmpI) (w : Bool) (d : Fin 8) (a b : Os) (s : State) : Host.Outcome State Fault Refusal :=
  s.vecWord w [a, b] [] [] (fun _ => .pred d) (fun _ rd i => boolWord (cmpIOp c (rd a i) (rd b i)))

/-- `VCMPF` (R96). -/
def execVcmpf (c : CmpF) (w : Bool) (d : Fin 8) (a b : Os) (s : State) : Host.Outcome State Fault Refusal :=
  s.vecWord w [a, b] [] [] (fun _ => .pred d) (fun _ rd i => boolWord (cmpFOp c (rd a i) (rd b i)))

/-- `VSEL` (R97). -/
def execVsel (p : Fin 8) (w : Bool) (d a b : Os) (s : State) : Host.Outcome State Fault Refusal :=
  s.vecWord w [a, b] [] [] (fun _ => .os d) (fun g rd i => if (g.thread i).pred p.val then rd a i else rd b i)

/-- `VCVT` (R117 to R119). -/
def execVcvt (m : Rnd) (op : CvtOp) (k : Fin 8) (w : Bool) (d a : Os) (s : State) : Host.Outcome State Fault Refusal :=
  if op.insert then s.vecWord w [a, d] [] [] (fun _ => .os d) (fun _ rd i => cvtOp m op k.val (rd d i) (rd a i))
  else s.vec1 w d a (cvtOp m op k.val 0)

/-- `VBITS` (R99): only `BYTEPERM` reads B. -/
def execVbits (op : BitsOp) (w : Bool) (d a b : Os) (s : State) : Host.Outcome State Fault Refusal :=
  if op = .byteperm then s.vec2 w d a b (bitsOp op) else s.vec1 w d a (fun x => bitsOp op x 0)

/-- `VDIV` (R100). -/
def execVdiv (ty : DivTy) (w : Bool) (d a b : Os) (s : State) : Host.Outcome State Fault Refusal :=
  s.vec2 w d a b (divOp ty)

/-- `VSFU` (R101). -/
def execVsfu (op : SfuOp) (w : Bool) (d a : Os) (s : State) : Host.Outcome State Fault Refusal :=
  s.vec1 w d a (sfuOp op)

/-- `VPERM` (R102): an inactive source supplies nothing. -/
def execVperm (op : PermOp) (w : Bool) (d a b : Os) (s : State) : Host.Outcome State Fault Refusal :=
  s.vecWord w [a, b] [] [] (fun _ => .os d) (fun g rd i =>
    let bLo := (rd b (Mask.lo s.iss.mask g.width)).toNat
    let u := permSource op g.width i (rd b i).toNat bLo
    if s.iss.mask.getLsbD u then rd a u else rd a i)

/-- `VRED` (R103). -/
def execVred (op : RedOp) (w : Bool) (d a : Os) (s : State) : Host.Outcome State Fault Refusal :=
  s.vecWord w [a] [] [] (fun _ => .os d) (fun g rd _ =>
    redOp op ((List.range g.width).map (fun i => if s.iss.mask.getLsbD i then some (rd a i) else none)))

/-- `VDOT` (R104). -/
def execVdot (op : DotOp) (w : Bool) (d a b : Os) (s : State) : Host.Outcome State Fault Refusal :=
  s.vecAcc w d a b (dotOp op)

/-- `VPRED` (R98). -/
def execVpred (op : PredOp) (w : Bool) (d a b : Fin 8) (s : State) : Host.Outcome State Fault Refusal :=
  s.vecWord w [] [] [] (fun _ => .pred d) (fun g _ i =>
    boolWord (predOpOf op ((g.thread i).pred a.val) ((g.thread i).pred b.val)))

end Sys2Proof.Machine
end

