-- ==== Sys2Proof/Machine/Walk.lean ====
section
/-! DEFINITION. Page walks as events: what a core's translation cache keeps (R186 to R192). -/

namespace Sys2Proof.Machine

open Sys2Proof

/-- The entries of a walk that a core does not yet hold, added to those it holds (R191). -/
def State.keepTrail (s : State) (core space va : Nat) : State :=
  let new := (s.trail core space va).filter (fun e => (s.cached core e.space e.level va).isNone)
  s.modCore core (fun c => { c with tlb := c.tlb ++ new })

/-- The uncorrectable entries that a walk has read, counted (R363). -/
def State.countEntries (s : State) (core space va : Nat) : State :=
  ((s.walkReads core space va).filter (fun a => s.anyHomeBad a 8)).foldl (fun s a => s.countRead (s.homeWheel (s.fwd a)) false) s

/-- `WALK_COMPLETE`: a walk of a core for a space of one of its resident teams ends; its valid entries are cached (R191). -/
def execWalkComplete (core space va : Nat) (s : State) : Host.Outcome State Fault Refusal :=
  .next (if s.teams.any (fun t => t.space == space && t.pinned && (t.core == core || (t.paired && t.core + 1 == core))) &&
      !s.walkWaits core space (va56 va)
    then (s.countEntries core space (va56 va)).keepTrail core space (va56 va) else s)

end Sys2Proof.Machine
end

