-- ==== Sys2Proof/Machine/Dispatch.lean ====
section
/-! DEFINITION. The meaning of every instruction: one arm per constructor. -/

namespace Sys2Proof.Machine

open Sys2Proof

/-- The meaning of an instruction: a word acts for the group in issue, an event on what it names. -/
def exec (i : Instr) (s : State) : Host.Outcome State Fault Refusal :=
  match i with
  | .nop => Sys2Proof.Machine.execNop s
  | .vmov w d a => Sys2Proof.Machine.execVmov w d a s
  | .vlane w d => Sys2Proof.Machine.execVlane w d s
  | .vsplat w d r sel => Sys2Proof.Machine.execVsplat w d r sel s
  | .vmov64 w d a => Sys2Proof.Machine.execVmov64 w d a s
  | .vadd ty w d a b => Sys2Proof.Machine.execVadd ty w d a b s
  | .vsub ty w d a b => Sys2Proof.Machine.execVsub ty w d a b s
  | .vmul ty w d a b => Sys2Proof.Machine.execVmul ty w d a b s
  | .vfma ty w d a b => Sys2Proof.Machine.execVfma ty w d a b s
  | .vfnma ty w d a b => Sys2Proof.Machine.execVfnma ty w d a b s
  | .vmin ty w d a b => Sys2Proof.Machine.execVmin ty w d a b s
  | .vmax ty w d a b => Sys2Proof.Machine.execVmax ty w d a b s
  | .vlogic op w d a b => Sys2Proof.Machine.execVlogic op w d a b s
  | .vshift op w d a b => Sys2Proof.Machine.execVshift op w d a b s
  | .vshiftBfx w d a => Sys2Proof.Machine.execVshiftBfx w d a s
  | .vshiftBfi w d a => Sys2Proof.Machine.execVshiftBfi w d a s
  | .vcmpi c w d a b => Sys2Proof.Machine.execVcmpi c w d a b s
  | .vcmpf c w d a b => Sys2Proof.Machine.execVcmpf c w d a b s
  | .vsel p w d a b => Sys2Proof.Machine.execVsel p w d a b s
  | .vcvt m op k w d a => Sys2Proof.Machine.execVcvt m op k w d a s
  | .vbits op w d a b => Sys2Proof.Machine.execVbits op w d a b s
  | .vdiv ty w d a b => Sys2Proof.Machine.execVdiv ty w d a b s
  | .vsfu op w d a => Sys2Proof.Machine.execVsfu op w d a s
  | .vperm op w d a b => Sys2Proof.Machine.execVperm op w d a b s
  | .vred op w d a => Sys2Proof.Machine.execVred op w d a s
  | .vdot op w d a b => Sys2Proof.Machine.execVdot op w d a b s
  | .vpred op w d a b => Sys2Proof.Machine.execVpred op w d a b s
  | .salu op d a b => Sys2Proof.Machine.execSalu op d a b s
  | .mov d b => Sys2Proof.Machine.execMov d b s
  | .li d => Sys2Proof.Machine.execLi d s
  | .lis d => Sys2Proof.Machine.execLis d s
  | .lihi d a => Sys2Proof.Machine.execLihi d a s
  | .fromv d a v => Sys2Proof.Machine.execFromv d a v s
  | .ballot d p => Sys2Proof.Machine.execBallot d p s
  | .popcs d a => Sys2Proof.Machine.execPopcs d a s
  | .sysrd d r => Sys2Proof.Machine.execSysrd d r s
  | .syswr a r => Sys2Proof.Machine.execSyswr a r s
  | .fairnessWrite core v => Sys2Proof.Machine.execFairnessWrite core v s
  | .mclkratioWrite wheel v => Sys2Proof.Machine.execMclkratioWrite wheel v s
  | .mclkratioTake wheel => Sys2Proof.Machine.execMclkratioTake wheel s
  | .statusWrite t v => Sys2Proof.Machine.execStatusWrite t v s
  | .trap code => Sys2Proof.Machine.execTrap code s
  | .tret => Sys2Proof.Machine.execTret s
  | .clock d => Sys2Proof.Machine.execClock d s
  | .capq d k => Sys2Proof.Machine.execCapq d k s
  | .b p off => Sys2Proof.Machine.execB p off s
  | .bz r off => Sys2Proof.Machine.execBz r off s
  | .bnz r off => Sys2Proof.Machine.execBnz r off s
  | .call p off => Sys2Proof.Machine.execCall p off s
  | .ret => Sys2Proof.Machine.execRet s
  | .brx r => Sys2Proof.Machine.execBrx r s
  | .bd p off => Sys2Proof.Machine.execBd p off s
  | .bp p off => Sys2Proof.Machine.execBp p off s
  | .join => Sys2Proof.Machine.execJoin s
  | .yield => Sys2Proof.Machine.execYield s
  | .exit => Sys2Proof.Machine.execExit s
  | .pathDue g pc => Sys2Proof.Machine.execPathDue g pc s
  | .elect d p => Sys2Proof.Machine.execElect d p s
  | .voteall d p => Sys2Proof.Machine.execVoteall d p s
  | .voteany d p => Sys2Proof.Machine.execVoteany d p s
  | .ld ty t m h => Sys2Proof.Machine.execLd ty t m h s
  | .st ty t m h => Sys2Proof.Machine.execSt ty t m h s
  | .lds ty t m => Sys2Proof.Machine.execLds ty t m s
  | .sts ty t m => Sys2Proof.Machine.execSts ty t m s
  | .loadComplete core => Sys2Proof.Machine.execLoadComplete core s
  | .walkComplete core space va => Sys2Proof.Machine.execWalkComplete core space va s
  | .atom op t m => Sys2Proof.Machine.execAtom op t m s
  | .atoms op t m => Sys2Proof.Machine.execAtoms op t m s
  | .fence k sc => Sys2Proof.Machine.execFence k sc s
  | .clean sc r => Sys2Proof.Machine.execClean sc r s
  | .inval sc r => Sys2Proof.Machine.execInval sc r s
  | .icinv sc r => Sys2Proof.Machine.execIcinv sc r s
  | .fetchbar => Sys2Proof.Machine.execFetchbar s
  | .rcfence sc r => Sys2Proof.Machine.execRcfence sc r s
  | .msfence ar => Sys2Proof.Machine.execMsfence ar s
  | .tlbfence sc r => Sys2Proof.Machine.execTlbfence sc r s
  | .copygo e ch => Sys2Proof.Machine.execCopygo e ch s
  | .copywait q x ch => Sys2Proof.Machine.execCopywait q x ch s
  | .chanstat q ch => Sys2Proof.Machine.execChanstat q ch s
  | .copycancel q x ch => Sys2Proof.Machine.execCopycancel q x ch s
  | .transferRecordStart t ch => Sys2Proof.Machine.execTransferRecordStart t ch s
  | .transferRecordComplete t ch => Sys2Proof.Machine.execTransferRecordComplete t ch s
  | .transferRecordStop t ch => Sys2Proof.Machine.execTransferRecordStop t ch s
  | .barinit p q => Sys2Proof.Machine.execBarinit p q s
  | .bararrive p q => Sys2Proof.Machine.execBararrive p q s
  | .barexpect p q => Sys2Proof.Machine.execBarexpect p q s
  | .barwait e => Sys2Proof.Machine.execBarwait e s
  | .bartest p q => Sys2Proof.Machine.execBartest p q s
  | .mwait e => Sys2Proof.Machine.execMwait e s
  | .waitConditionMet g t => Sys2Proof.Machine.execWaitConditionMet g t s
  | .waitTimeout g t => Sys2Proof.Machine.execWaitTimeout g t s
  | .mxlease e => Sys2Proof.Machine.execMxlease e s
  | .mxgo e tag => Sys2Proof.Machine.execMxgo e tag s
  | .mxwait q x tag => Sys2Proof.Machine.execMxwait q x tag s
  | .mxdrain e tag => Sys2Proof.Machine.execMxdrain e tag s
  | .mxrel q x => Sys2Proof.Machine.execMxrel q x s
  | .ores p q r => Sys2Proof.Machine.execOres p q r s
  | .obld e r => Sys2Proof.Machine.execObld e r s
  | .mxstat p q n => Sys2Proof.Machine.execMxstat p q n s
  | .matrixOperationStart core => Sys2Proof.Machine.execMatrixOperationStart core s
  | .kStepCommit core => Sys2Proof.Machine.execKStepCommit core s
  | .matrixOperationStop core => Sys2Proof.Machine.execMatrixOperationStop core s
  | .drainRun t core tag => Sys2Proof.Machine.execDrainRun t core tag s
  | .obldLoadFinish t core r => Sys2Proof.Machine.execObldLoadFinish t core r s
  | .tspawn e => Sys2Proof.Machine.execTspawn e s
  | .tdec p q n => Sys2Proof.Machine.execTdec p q n s
  | .twait e => Sys2Proof.Machine.execTwait e s
  | .dqpush e => Sys2Proof.Machine.execDqpush e s
  | .dqpop e => Sys2Proof.Machine.execDqpop e s
  | .dqsteal e => Sys2Proof.Machine.execDqsteal e s
  | .aaego e q => Sys2Proof.Machine.execAaego e q s
  | .aaestop q x n => Sys2Proof.Machine.execAaestop q x n s
  | .qbind p q n => Sys2Proof.Machine.execQbind p q n s
  | .qstat p q n => Sys2Proof.Machine.execQstat p q n s
  | .dequeOperation op d item => Sys2Proof.Machine.execDequeOperation op d item s
  | .counterDecrement pa amount => Sys2Proof.Machine.execCounterDecrement pa amount s
  | .aaeStreamPush g q => Sys2Proof.Machine.execAaeStreamPush g q s
  | .msred e n => Sys2Proof.Machine.execMsred e n s
  | .msatom e n => Sys2Proof.Machine.execMsatom e n s
  | .mspoll q c => Sys2Proof.Machine.execMspoll q c s
  | .mswait e c => Sys2Proof.Machine.execMswait e c s
  | .lineJob chan => Sys2Proof.Machine.execLineJob chan s
  | .msCommandComplete id => Sys2Proof.Machine.execMsCommandComplete id s
  | .ldsub p q n => Sys2Proof.Machine.execLdsub p q n s
  | .unsub e => Sys2Proof.Machine.execUnsub e s
  | .slotrd p q => Sys2Proof.Machine.execSlotrd p q s
  | .slotwait e => Sys2Proof.Machine.execSlotwait e s
  | .ldsubLanding id => Sys2Proof.Machine.execLdsubLanding id s
  | .pushLand id => Sys2Proof.Machine.execPushLand id s
  | .unsubEndMark id => Sys2Proof.Machine.execUnsubEndMark id s
  | .pktab e h => Sys2Proof.Machine.execPktab e h s
  | .pklook e tag => Sys2Proof.Machine.execPklook e tag s
  | .pkgrad e tag => Sys2Proof.Machine.execPkgrad e tag s
  | .pkwait q x tag => Sys2Proof.Machine.execPkwait q x tag s
  | .klTableLoadFinish vat h => Sys2Proof.Machine.execKlTableLoadFinish vat h s
  | .klAccept vat => Sys2Proof.Machine.execKlAccept vat s
  | .klOperationComplete t tag => Sys2Proof.Machine.execKlOperationComplete t tag s
  | .replayGo e => Sys2Proof.Machine.execReplayGo e s
  | .replayDrop p q => Sys2Proof.Machine.execReplayDrop p q s
  | .replayList p q => Sys2Proof.Machine.execReplayList p q s
  | .ctxsave e => Sys2Proof.Machine.execCtxsave e s
  | .ctxload e => Sys2Proof.Machine.execCtxload e s
  | .shoot e sz => Sys2Proof.Machine.execShoot e sz s
  | .shootComplete => Sys2Proof.Machine.execShootComplete s
  | .migrateGo e => Sys2Proof.Machine.execMigrateGo e s
  | .migrateWait e => Sys2Proof.Machine.execMigrateWait e s
  | .migrateEnd e => Sys2Proof.Machine.execMigrateEnd e s
  | .migrationSwitch old => Sys2Proof.Machine.execMigrationSwitch old s
  | .collGo e slot => Sys2Proof.Machine.execCollGo e slot s
  | .collWait q x slot => Sys2Proof.Machine.execCollWait q x slot s
  | .collTest q slot => Sys2Proof.Machine.execCollTest q slot s
  | .collCancel q slot => Sys2Proof.Machine.execCollCancel q slot s
  | .collHeaderMismatch t slot => Sys2Proof.Machine.execCollHeaderMismatch t slot s
  | .collComplete t slot sends => Sys2Proof.Machine.execCollComplete t slot sends s
  | .trapDelivery g => Sys2Proof.Machine.execTrapDelivery g s
  | .nodeDoneDecrement node => Sys2Proof.Machine.execNodeDoneDecrement node s
  | .dispatchStep wheel => Sys2Proof.Machine.execDispatchStep wheel s
  | .preemptForRoom wheel => Sys2Proof.Machine.execPreemptForRoom wheel s
  | .deferredClaimGuard core half => Sys2Proof.Machine.execDeferredClaimGuard core half s
  | .threadQuantumStop g t => Sys2Proof.Machine.execThreadQuantumStop g t s
  | .quantumEnd node => Sys2Proof.Machine.execQuantumEnd node s
  | .cleanerWriteback core pa => Sys2Proof.Machine.execCleanerWriteback core pa s
  | .regionMerge pa size => Sys2Proof.Machine.execRegionMerge pa size s
  | .deadAgentDeclared core => Sys2Proof.Machine.execDeadAgentDeclared core s
  | .backInvalidateTimeout pa => Sys2Proof.Machine.execBackInvalidateTimeout pa s
  | .hostCxlAccess pa write n => Sys2Proof.Machine.execHostCxlAccess pa write n s
  | .launch => Sys2Proof.Machine.execLaunch s
  | .create => Sys2Proof.Machine.execCreate s
  | .destroy => Sys2Proof.Machine.execDestroy s
  | .launchReservedCmd => Sys2Proof.Machine.execLaunchReservedCmd s
  | .lstatRead => Sys2Proof.Machine.execLstatRead s
  | .tdeadaRead => Sys2Proof.Machine.execTdeadaRead s
  | .heventWrite v => Sys2Proof.Machine.execHeventWrite v s
  | .fgrpDefine v => Sys2Proof.Machine.execFgrpDefine v s
  | .fgrpRemove v => Sys2Proof.Machine.execFgrpRemove v s
  | .partitionSetup wheelSets up => Sys2Proof.Machine.execPartitionSetup wheelSets up s
  | .spdmAttestation => Sys2Proof.Machine.execSpdmAttestation s
  | .keyStoreAdd keyId x y => Sys2Proof.Machine.execKeyStoreAdd keyId x y s
  | .keyStoreRevoke keyId => Sys2Proof.Machine.execKeyStoreRevoke keyId s
  | .persistentRecordClear port unit part => Sys2Proof.Machine.execPersistentRecordClear port unit part s
  | .portFailRecord core port => Sys2Proof.Machine.execPortFailRecord core port s
  | .channelFence stack chan => Sys2Proof.Machine.execChannelFence stack chan s
  | .scrub pa => Sys2Proof.Machine.execScrub pa s
  | .throttleEvent wheel clk25 reason ratio => Sys2Proof.Machine.execThrottleEvent wheel clk25 reason ratio s
  | .powerRemoval => Sys2Proof.Machine.execPowerRemoval s
  | .bringUp up => Sys2Proof.Machine.execBringUp up s
  | .partitionReset up => Sys2Proof.Machine.execPartitionReset up s
  | .contextSaveComplete t => Sys2Proof.Machine.execContextSaveComplete t s
  | .rangeEntryFreed core id => Sys2Proof.Machine.execRangeEntryFreed core id s
  | .staleResponseDrop wheel => Sys2Proof.Machine.execStaleResponseDrop wheel s
  | .backInvalidateAnswer pa => Sys2Proof.Machine.execBackInvalidateAnswer pa s
  | .remoteCollCancel t slot => Sys2Proof.Machine.execRemoteCollCancel t slot s
  | .throttleCauseEnd wheel bit => Sys2Proof.Machine.execThrottleCauseEnd wheel bit s
  | .linkErrorRetry wheel cxl => Sys2Proof.Machine.execLinkErrorRetry wheel cxl s

end Sys2Proof.Machine
end

