-- ==== Sys2Proof/Machine/Issue.lean ====
section
/-! DEFINITION. The issue of a chain group: entry into packets, the words of a chain group, threads that run alone from
loop buffers, and local time (R41 to R45, R56, R57, R121 to R132, R180). -/

namespace Sys2Proof.Machine

open Sys2Proof

/-- How a chain group ends. -/
inductive Ran where
  | ok (s : State)
  | trap (x : Trap) (acted : List (Maint × Nat × Nat))
  | stall (k : Stall)
  | stop (o : Host.Outcome State Fault Refusal)

/-- One word of a chain group (R45): the encoding checks, then its meaning. -/
def State.runWord (s : State) (i : Issue) : Ran :=
  let s := { s with iss := i }
  match decodeWord i.word with
  | .error e => .trap (s.wordTrap 2 e.detail 0 0xFF 0) []
  | .ok ins =>
    match exec ins s with
    | .next s' =>
      match s'.iss.raised, s'.iss.stalled with
      | some x, _ => .trap x s'.iss.acted
      | none, some k => .stall k
      | none, none => .ok s'
    | .fault r => .stop (.fault r)
    | .refused r => .stop (.refused r)

/-- Whether a check needs the word and its binding only, no operand: it is made before the group is ready (R45, R85). -/
def staticCause (c : Nat) : Bool := c == 2 || c == 3 || c == 4 || c == 10

/-- A check that a later word of a chain group fails while an earlier one is not ready (R45, notes/assumptions/45.md). -/
def State.laterTrap (s : State) (is : List Issue) : Option Trap :=
  is.findSome? (fun i =>
    match s.runWord i with
    | .trap x _ => if staticCause x.cause then some x else none
    | _ => none)

/-- The words of a chain group, one after the other (R70). Every word is checked before the group issues (R45). -/
def State.runWords (s : State) : List Issue → Ran
  | [] => .ok s
  | i :: is =>
    match s.runWord i with
    | .ok s' => s'.runWords is
    | .stall k =>
      match s.laterTrap is with
      | some x => .trap x []
      | none => .stall k
    | r => r

/-- Whether word k of a packet is a `TRAP`. -/
def Packet.trapAt (p : Packet) (k : Nat) : Bool :=
  match p.instr k with
  | some (.trap _) => true
  | _ => false

/-- `TRAP` takes effect after the other words of its chain group (R307). -/
def trapLast (p : Packet) (slots : List Nat) : List Nat :=
  slots.filter (fun k => !p.trapAt k) ++ slots.filter p.trapAt

/-- The PC after the chain group that starts in slot k. -/
def Packet.after (p : Packet) (k : Nat) : VAddr :=
  let n := k + p.chainLen k
  if n = 3 then p.addr + 16 else p.addr + BitVec.ofNat 56 (4 * n)

/-- The issue record of word k of a chain group that starts in slot `slot`. -/
def Packet.issue (p : Packet) (gid : GrpId) (mask : Mask) (slot k : Nat) : Issue :=
  { grp := gid, mask := mask, pc := p.addr + BitVec.ofNat 56 (4 * k), base := p.addr + BitVec.ofNat 56 (4 * slot),
    next := p.after slot, slot := k, word := p.word k, lit := p.lit, sys := p.sys, mode := .issue, raised := none,
    stalled := none, acted := [] }

/-- Threads leave the packet: it retires for them (R42, R347). Those that a branch has moved have no live latch (R56), and those
that stay in it after a `FETCHBAR` keep the copy of it (R182). -/
def Group.retire (g : Group) (m : Mask) (p : Packet) (slot : Nat) (fb alone : Bool) : Group :=
  g.onThreads m (fun _ t0 =>
    let t1 := if t0.moved then { t0.killLatches with moved := false } else t0
    let t := { t1 with alone := alone }
    if packetAddr t.pc = p.addr ∧ slot < slotOf t.pc then
      { t with pkt := some p.addr, copy := if fb then some p else t.copy }
    else { t with retired := t.retired + 1, pkt := none, copy := none })

/-- Threads whose buffer has no row left stop before the store word (R347). -/
def Group.stopFull (g : Group) (m : Mask) (cycle : Nat) : Group :=
  let g := g.onThreads m (fun i t => { t with stopped := t.stopped || decide (Config.bufferRows ≤ g.rows i) })
  { g with lastIssue := cycle }

/-- Whether the OS field of a word at a bit names a queue. -/
def queueAt (w : Word) (lo : Nat) : Bool := decide (0x78 ≤ fld w.toNat lo 7)

/-- The up slots that a word claims in a beat (R54): for the v and q sources of a V word, and for a queue that a load fills. -/
def slotsUp (w : Word) : Nat :=
  let m := fld w.toNat 25 6
  if m < 0x20 then
    match decodeWord w with
    | .ok (.vmov64 _ _ a) => if a.crosses then 2 else 0
    | .ok i => (i.osSources.filter Os.crosses).eraseDups.length
    | .error _ => 0
  else if m = 0x30 ∨ m = 0x32 then (if queueAt w 15 then 1 else 0)
  else 0

/-- The down slots that a word claims in a beat (R54): for the v or q destination of a V word, and for the queues that an M word
pops. -/
def slotsDown (w : Word) : Nat :=
  let n := w.toNat
  let m := fld n 25 6
  let d := fld n 14 7
  let q (lo : Nat) : Nat := if queueAt w lo then 1 else 0
  if m < 0x20 then
    if m = 0x0A ∨ m = 0x0B ∨ m = 0x14 ∨ n % 2 ^ 31 = 0 ∨ n.testBit 24 ∨ (0x60 ≤ d ∧ d < 0x78) then 0
    else
      match decodeWord w with
      | .ok (.vmov64 ..) => 2
      | .ok (.vsplat ..) => if fld n 0 7 = 2 then 2 else 1
      | _ => 1
  else if m = 0x30 ∨ m = 0x32 then q 2
  else if m = 0x31 ∨ 0x33 ≤ m ∧ m ≤ 0x35 then q 15 + q 2
  else 0

/-- Whether a claimant of a class still asks for the slots that are withheld for it (R84). -/
def State.owed (s : State) (core half cls : Nat) : Bool :=
  (s.core core).withheld.contains (half, cls) && s.claims core half cls

/-- Whether the slots that a chain group claims are withheld for a deferred claimant (R84): an A stream asks for every up slot,
a drain for every down slot, and one that asks for a single slot takes none from a word (notes/assumptions/33.md). -/
def State.withheldFor (s : State) (gid : GrpId) (p : Packet) (slot : Nat) : Bool :=
  match s.grp? gid with
  | some g =>
    let ws := (rangeFrom slot (p.chainLen slot)).map p.word
    (ws.any (fun w => decide (0 < slotsUp w)) && s.owed g.core (g.pipe / 2) 2) ||
      (ws.any (fun w => decide (0 < slotsDown w)) && s.owed g.core (g.pipe / 2) 3)
  | none => false

/-- Nothing stays withheld for a claimant that asks for nothing any more (R84). -/
def State.trimClaims (s : State) : State :=
  if s.cores.all (fun c => c.withheld.isEmpty) then s
  else { s with cores := s.cores.map (fun c => { c with withheld := c.withheld.filter (fun x => s.claims c.num x.1 x.2) }) }

/-- A path whose thread has issued a word alone counts as having received a packet: its count starts again (R125, R132). -/
def Group.served (g : Group) (pc : VAddr) : Group :=
  { g with paths := g.paths.map (fun r => if r.pc = pc then { r with wait := 0, due := none } else r) }

/-- Waits that a trap at a pre-emption point held up, and whose threads have gone on with other words, are over (R159). -/
def Group.dropHeld (g : Group) (m : Mask) : Group :=
  (g.waits.filter (fun w => w.held && w.mask &&& m != 0)).foldl (fun g w => g.dropWait w) g

/-- The group after a chain group's words: retirement, joins and paths, and whether the packet is still entered. `path` is
the current path's threads, none where a thread runs alone (R42, R121, R132). -/
def Group.chainEnd (g : Group) (path : Option Mask) (mask : Mask) (p : Packet) (slot cycle : Nat) (fb : Bool) : Group :=
  let g := if path.isNone then g.served (p.addr + BitVec.ofNat 56 (4 * slot)) else g
  let g := if g.trapMask.isNone then g.dropHeld mask else g
  let g := (g.retire mask p slot fb path.isNone).settle path cycle
  let keep := match g.cur with
    | some c => packetAddr c == p.addr && decide (slot < slotOf c)
    | none => false
  { g with packet := if path.isNone then g.packet else if keep then g.packet else none, lastIssue := cycle }

/-- A chain group issues for the threads of a mask (R45): all its words take effect, or none does, but for the lines that a
maintenance word had acted on when a page of its range faulted (R181). -/
def State.chain (s : State) (gid : GrpId) (mask : Mask) (p : Packet) (slot : Nat) (solo : Bool) (inrun : Bool) :
    Host.Outcome State Fault Refusal :=
  if s.withheldFor gid p slot then .next s
  else
  let base : VAddr := p.addr + BitVec.ofNat 56 (4 * slot)
  let s1 := s.modGrp gid (fun g => g.onThreads mask (fun _ t => { t with pc := p.after slot }))
  let slots := trapLast p (rangeFrom slot (p.chainLen slot))
  let fb := slots.any (fun k => p.instr k == some .fetchbar)
  match s1.runWords (slots.map (p.issue gid mask slot)) with
  | .ok s2 =>
    let s2 := { s2 with iss := Issue.none }
    let yielded := ((s.grp? gid).map (·.yielded)).getD false
    .next (s2.modGrp gid (fun g =>
      (if solo then { g with yielded := yielded } else g).chainEnd (if solo then none else some mask) mask p slot (s2.now g.core) fb))
  | .trap x l => .next ((s.actAll l).takeTrap gid mask x base)
  | .stall .rows => .next (s.modGrp gid (fun g => g.stopFull mask (s.now g.core)))
  | .stall .flush => .next (s.relSelf (((s.grp? gid).map (·.core)).getD 0))
  | .stall k =>
    if k = .parked ∧ inrun then .next (s.deliverParked gid mask base) else .next s
  | .stop o => o

/-! ## Loop buffers (R131) -/

/-- The lanes of a pipe that a group's threads use. -/
def Group.lanes (g : Group) : List Nat := rangeFrom (16 * g.pipe) (min g.width 16)

/-- Each group that became diverged takes the buffers of its lanes, empty; a buffer stays its own until another group of the
pipe becomes diverged. -/
def State.claimBufs (s : State) : State :=
  let news := s.teams.flatMap (fun t =>
    if t.pinned then (t.grpIds.zip t.groups).filter (fun x => x.2.isDiverged && !x.2.diverged) else [])
  let s1 := news.foldl (fun s x =>
    s.modCore x.2.core (fun c =>
      { c with loopBufs := c.loopBufs.filter (fun b => !(x.2.lanes.contains b.lane)) ++
          x.2.lanes.map (fun l => { lane := l, owner := x.1, packets := [] }) })) s
  s1.modGroups (fun g => { g with diverged := g.isDiverged })

/-- The buffers that a diverged group owns capture the packets of its broadcast address; a full one loses the packet it
captured first. -/
def State.capture (s : State) (gid : GrpId) (p : Packet) : State :=
  match s.grp? gid with
  | some g =>
    if g.diverged then
      s.modCore g.core (fun c =>
        { c with loopBufs := c.loopBufs.map (fun b =>
            if b.owner = gid ∧ b.packets.all (fun q => q.addr != p.addr) then
              { b with packets := (b.packets ++ [p]).drop ((b.packets.length + 1) - Config.loopBuf) }
            else b) })
    else s
  | none => s

/-- Buffers whose owner is no longer diverged are empty; one whose owner has left the pipe has none. -/
def State.trimBufs (s : State) : State :=
  if s.cores.all (fun c => c.loopBufs.isEmpty) then s
  else
    { s with cores := s.cores.map (fun c =>
        { c with loopBufs := c.loopBufs.filterMap (fun b =>
            match s.grp? b.owner with
            | some g =>
              if g.core ≠ c.num then none else if g.isDiverged then some b else some { b with packets := [] }
            | none => none) }) }

/-- The packet that a thread off the current path may run alone: the one at its PC, held in its lane's buffer (R132). -/
def State.soloPacket (s : State) (gid : GrpId) (g : Group) (th : Nat) : Option Packet :=
  let pc := (g.thread th).pc
  if (g.thread th).runnable && g.cur != some pc && g.trapMask.isNone && !badPC pc then
    match (s.core g.core).loopBufs.find? (fun b => b.lane == 16 * g.pipe + th % 16 && decide (b.owner = gid)) with
    | some b => b.packets.find? (fun p => p.addr == packetAddr pc)
    | none => none
  else none

/-- Whether the path at one PC has waited longer than the path at another: by the wait counts, or, of a node without them, by
when each last held the broadcast address (R122, R127, R132). -/
def Group.longer (g : Group) (nofair : Bool) (a b : VAddr) : Bool :=
  match g.paths.find? (fun r => r.pc == a), g.paths.find? (fun r => r.pc == b) with
  | some x, some y => if nofair then decide (x.since < y.since) else decide (y.wait < x.wait)
  | _, _ => false

/-- Whether a thread that may run alone is one whose path has waited longest among those that may (R132). -/
def State.soloFirst (s : State) (gid : GrpId) (g : Group) (th : Nat) : Bool :=
  let nofair := ((s.launch? gid.team).map (·.nofair)).getD false
  (List.range g.width).all (fun u =>
    (s.soloPacket gid g u).isNone || !(g.longer nofair (g.thread u).pc (g.thread th).pc))

/-! ## Entering a packet (R44) -/

/-- What entry into a packet gives: the packet, or the state in which the group took a trap instead. -/
inductive Entered where
  | into (s : State) (p : Packet)
  | trapped (s : State)

/-- `ILLEGAL_PACKET` on entry (R44). -/
def illegalPacket (detail slot : Nat) (word : Word) (mask : Mask) : Trap :=
  { cause := 1, detail := detail, slot := slot, flags := 0, level := 0xFF, addr := 0, aux := 0, mask := mask,
    word := word }

/-- A fetch fault at the fetched PC (R298). -/
def fetchFault (e : PFault) (pc : VAddr) (mask : Mask) : Trap :=
  { cause := 8, detail := e.detail, slot := 3, flags := 8, level := e.level, addr := pc.toNat, aux := 0, mask := mask,
    word := 0 }

/-- A thread enters a packet: it counts in the thread's run of packets that read a latch, once, or it may lead one (R57). -/
def Thread.enters (t : Thread) (p : Packet) : Thread :=
  { t with
    run := if p.readsLatch then t.runBefore p.addr + 1 else 0
    lead := if p.readsLatch then t.lead else p.addr
    pkt := if t.pkt = some p.addr then t.pkt else none }

/-- The bookkeeping of a group that enters a packet (R56, R57). -/
def Group.entered (g : Group) (mask : Mask) (p : Packet) : Group :=
  let g := if p.readsLatch then g else g.killOn mask
  let g := g.onThreads mask (fun _ t => t.enters p)
  { g with packet := some p, expect := p.addr + 16, stream := g.stream.drop 1 }

/-- The current path enters the packet at its PC (R44): every packet fetched there is captured (R131); the rest of a packet after its
`FETCHBAR` comes from the copy already fetched, which is not (R182). -/
def State.enter (s : State) (gid : GrpId) (space : Nat) (pc : VAddr) (mask : Mask) : Entered :=
  let a := packetAddr pc
  match s.grp? gid with
  | none => .trapped s
  | some g0 =>
    let s := if a = g0.expect ∧ slotOf pc = 0 then s
      else s.modGrp gid (fun g => { (g.killOn mask) with stream := [] })
    let copy := (g0.thread (Mask.lo mask g0.width)).copy
    let kept := copy.filter (fun p => p.addr == a && slotOf pc != 0)
    let held : Option Packet :=
      match copy, g0.stream with
      | some _, _ => kept
      | none, p :: _ => if p.addr = a ∧ a = g0.expect then some p else none
      | none, [] => none
    let got : Option (Except PFault (State × Packet)) :=
      match held with
      | some p => some (.ok (s, p))
      | none => if s.fetchHeld g0.core space a then none else some (s.fetch g0.core space a)
    match got with
    | none => .trapped s
    | some (.error e) => .trapped (s.takeTrap gid mask (fetchFault e pc mask) pc)
    | some (.ok (s0, p)) =>
      let s := if kept.isSome then s0 else s0.capture gid p
      match s.grp? gid with
      | none => .trapped s
      | some g =>
        match g.packetDetail mask p (slotOf pc) with
        | some d => .trapped (s.takeTrap gid mask (illegalPacket d (slotOf pc) (p.word (slotOf pc)) mask) pc)
        | none => .into (s.modGrp gid (fun g => g.entered mask p)) p

/-- The current path of a group issues its next chain group (R85, R121, R122). -/
def State.issueCur (s : State) (gid : GrpId) (t : Team) (g : Group) (pc : VAddr) : Host.Outcome State Fault Refusal :=
  let mask := g.pathAt pc
  if badPC pc then .next (s.takeTrap gid mask (illegalPacket 6 3 0 mask) pc)
  else
    let inrun := s.inRun t.space g
    let s := if mask = g.lastMask then s else s.modGrp gid (fun g => { (g.killOn mask) with lastMask := mask })
    match g.packet with
    | some p =>
      if p.addr = packetAddr pc then s.chain gid mask p (slotOf pc) false inrun
      else
        match s.enter gid t.space pc mask with
        | .trapped s => .next s
        | .into s p => s.chain gid mask p (slotOf pc) false inrun
    | none =>
      match s.enter gid t.space pc mask with
      | .trapped s => .next s
      | .into s p => s.chain gid mask p (slotOf pc) false inrun

/-- The turn of a group whose pipe is free for it. A trap pending at a switch point is taken before the switch for which a `YIELD` or
a due path asks there, and the `YIELD` is then spent: the spec does not say which comes first (R122, R298; DESIGN CHOICE,
notes/assumptions/43.md). -/
def State.turnCur (s : State) (gid : GrpId) (t : Team) (g : Group) (inrun : Bool) : Host.Outcome State Fault Refusal :=
  if inrun then
    match g.cur with
    | some pc => s.issueCur gid t g pc
    | none => .next s
  else
    if s.canTake gid g then .next (s.deliver gid)
    else
      let nofair := ((s.launch? t.id).map (·.nofair)).getD false
      let due := !nofair && g.trapMask.isNone && g.paths.any (fun r => r.due.isSome && g.pathAt r.pc != 0)
      let alive := match g.cur with | some pc => g.pathAt pc != 0 | none => false
      if !alive || g.yielded || due then
        match g.nextPath with
        | some r => .next (s.modGrp gid (fun g => g.switchTo r (s.now g.core)))
        | none =>
          match g.cur with
          | some pc => if alive then (s.modGrp gid (fun g => { g with yielded := false })).issueCur gid t g pc else .next s
          | none => .next s
      else
        match g.cur with
        | some pc => s.issueCur gid t g pc
        | none => .next s

/-- The turn of a group one of whose threads runs alone in a latch run: no trap is delivered, and the current path goes on
(R57, R122, R132). -/
def State.turnLone (s : State) (gid : GrpId) (t : Team) (g : Group) : Host.Outcome State Fault Refusal :=
  match g.cur with
  | some pc =>
    if g.pathAt pc != 0 && !g.yielded then s.issueCur gid t g pc
    else
      match g.nextPath with
      | some r => .next (s.modGrp gid (fun g => g.switchTo r (s.now g.core)))
      | none => if g.pathAt pc != 0 then (s.modGrp gid (fun g => { g with yielded := false })).issueCur gid t g pc else .next s
  | none =>
    match g.nextPath with
    | some r => .next (s.modGrp gid (fun g => g.switchTo r (s.now g.core)))
    | none => .next s

/-- Whether a team's groups run: it is on its cores and not being saved; one of a `det` node runs to the end of its quantum
(R310, R349). -/
def State.mayRun (s : State) (t : Team) : Bool := decide (t.loc = .resident) || (t.pinned && s.isDet t.id)

/-- A group's turn: a pending trap is taken, the broadcast address moves, or the current path issues (R85, R122). -/
def State.turn (s : State) (gid : GrpId) : Host.Outcome State Fault Refusal :=
  match s.team? gid.team, s.grp? gid with
  | some t, some g =>
    if !(s.mayRun t) && !(s.ownsRun t.space gid g) then .next s
    else
      match s.runOwner g.core g.pipe with
      | some o =>
        if o ≠ gid then .next s
        else if s.inRun t.space g then s.turnCur gid t g true
        else s.turnLone gid t g
      | none => s.turnCur gid t g false
  | _, _ => .next s

/-- A thread off the current path issues alone from its lane's loop buffer (R132): of those that may, one whose path has waited
longest; not while another group owns a latch run of the pipe (R85), and behind a trap that its path has to take (R298). A word
that reads a latch that has died since its packet was entered traps as it would on entry (R56). -/
def State.soloTurn (s : State) (gid : GrpId) (th : Nat) : Host.Outcome State Fault Refusal :=
  match s.team? gid.team, s.grp? gid with
  | some t, some g =>
    match s.soloPacket gid g th with
    | none => .next s
    | some p =>
      let runs := s.loneRuns gid g
      let mine := runs.contains th
      if !(s.mayRun t || mine) || !(s.soloFirst gid g th) || (s.runOwner g.core g.pipe).any (fun o => decide (o ≠ gid)) then .next s
      else if s.canTake gid g && runs.isEmpty && !(s.inRun t.space g) then .next (s.deliver gid)
      else
        let pc := (g.thread th).pc
        let m : Mask := BitVec.twoPow 64 th
        let trap (d : Nat) : Host.Outcome State Fault Refusal :=
          .next (s.takeTrap gid m (illegalPacket d (slotOf pc) (p.word (slotOf pc)) m) pc)
        if (g.thread th).pkt = some p.addr ∧ (g.thread th).alone then
          if p.readsLatch && p.deadLatch (3 - slotOf pc) (slotOf pc) (g.liveMarks m) then trap 5
          else s.chain gid m p (slotOf pc) true mine
        else
          match g.packetDetail m p (slotOf pc) with
          | some d => trap d
          | none =>
            let s := s.modGrp gid (fun g => g.onThreads m (fun _ t =>
              (if p.readsLatch then t else t.killLatches).enters p))
            s.chain gid m p (slotOf pc) true mine
  | _, _ => .next s

/-- A group's stream fetches the packet after the last one it holds (R180). -/
def State.fetchAhead (s : State) (gid : GrpId) : State :=
  match s.team? gid.team, s.grp? gid with
  | some t, some g =>
    let a := g.expect + BitVec.ofNat 56 (16 * g.stream.length)
    if s.fetchHeld g.core t.space a then s
    else
    match s.fetch g.core t.space a with
    | .ok (s, p) => s.modGrp gid (fun g => { g with stream := g.stream ++ [p] })
    | .error _ => s
  | _, _ => s

/-- The wait counts of a group rise by one local cycle of its core (R125): not while its current path is in a latch run, nor of a
node without fairness (R127). -/
def State.tickGroup (s : State) (t : Team) (g : Group) : Group :=
  if g.paths.isEmpty then g
  else
    g.waitTick (s.inRun t.space g || ((s.launch? t.id).map (·.nofair)).getD false) (2 ^ (s.core g.core).fairLog) (s.now g.core)

/-- One cycle passes: for every agent a local one (R3, R136). -/
def State.passCycle (s : State) : State :=
  let s1 := { s with cycle := s.cycle + 1 }
  { s1 with teams := s1.teams.map (fun t => { t with groups := t.groups.map (s1.tickGroup t) }) }

/-- One local cycle passes at one agent: no other counts it (R3). -/
def State.passLocal (s : State) (agent : Nat) : State :=
  let s1 := s.modCore agent (fun c => { c with ahead := c.ahead + 1 })
  { s1 with teams := s1.teams.map (fun t =>
      { t with groups := t.groups.map (fun g => if g.core = agent then s1.tickGroup t g else g) }) }

/-- Local cycles pass at one agent. -/
def State.passLocals (agent : Nat) : Nat → State → State
  | 0, s => s
  | n + 1, s => State.passLocals agent n (s.passLocal agent)

/-- Cycles pass. -/
def State.passCycles : Nat → State → State
  | 0, s => s
  | n + 1, s => State.passCycles n s.passCycle

end Sys2Proof.Machine
end

