-- ==== Sys2Proof/Machine/Sched.lean ====
section
/-! DEFINITION. What moves next: one item of the schedule, or the default where the schedule is empty
(notes/assumptions/2.md); and what comes about at the end of every step. -/

namespace Sys2Proof.Machine

open Sys2Proof

/-! ## The end of teams (R227, R240, R298, R326, R329) -/

/-- The cause with which a group that has ended loses its team: a trap still pending, or work still parked (R298). -/
def State.endCause (s : State) (gid : GrpId) (g : Group) : Option Nat :=
  if !g.ended then none
  else
    match lowestTrap g.traps with
    | some x => some x.cause
    | none => if ((s.core g.core).parksOf gid).isEmpty then none else some 8

/-- Whether engines still work for a team that has ended: its window is not freed before they have done (R227, R337, R361). -/
def State.exitBusy (s : State) (t : Team) : Bool :=
  let mine (by_ : Issuer) : Bool := decide (by_.team = t.id)
  t.leases.any (fun l => l.tags.any (·.out) || l.recs.any (fun r => r.st == 1)) || t.kl.any (·.busy) ||
    t.colls.any (fun c => c.st == 1) || s.cmdWaits.any (fun c => mine c.by_) ||
    s.vats.any (fun v => v.klq.any (fun o => decide (o.team = t.id)))

/-- A team that has ended: its channels and streams are cancelled, once the writes of their records have been performed; it goes when its engines have done (R227, R240,
R258). -/
def State.exitTeam (s : State) (t : Team) : State :=
  if t.chans.any (s.chanBusy t) then
    s.modTeam t.id (fun t => { t with chans := t.chans.map (fun c => { c with cancel := c.cancel || c.act.isSome }) })
  else
  let s1 := if t.chans.any (fun c => c.st == 1) then
      (List.range 4).foldl (fun s ch => if (t.chan ch).st = 1 then s.chanStop t ch 1 else s) (s.cancelChans t)
    else s
  let s2 : State := { s1 with cores := s1.cores.map (fun c => { c with streams := c.streams.filter (fun x => !decide (x.grp.team = t.id)) }) }
  if s2.exitBusy t then s2 else (s2.scrubTeam t.id).teamGone t.id

/-- What the end of its groups brings for a team. -/
def State.exitStep (s : State) (t : Team) : State :=
  if !t.pinned then s
  else
    match (t.grpIds.zip t.groups).findSome? (fun x => s.endCause x.1 x.2) with
    | some c => s.teamLost t.id c 0
    | none => if t.over then s.exitTeam t else s

/-- Tables whose node has no team left in the vat are freed (R329). -/
def State.freeTables (s : State) : State :=
  if s.vats.all (fun v => v.tables.isEmpty) then s
  else
    { s with vats := s.vats.map (fun v =>
        { v with tables := v.tables.filter (fun x =>
            s.teams.any (fun t => t.id.node == x.node && vatOf t.core == v.num)) }) }

/-- The replays under way go on (R308). -/
def State.replays (s : State) : State :=
  if s.cores.all (fun c => c.replay.all (fun p => !p.go)) then s
  else
    s.teams.foldl (fun s t => t.grpIds.foldl (fun s gid =>
      match s.grp? gid with
      | some g => s.replayOn g.core t.space gid
      | none => s) s) s

/-- Every group after a step: the waits that the step has decided, joins and paths, commands sent, quanta, and the teams that have ended. -/
def State.settleAll (s : State) : State :=
  let s := { s with iss := Issue.none }.replays.barClose.examineAll
  let s := s.modGroups (fun g => g.settle none (s.now g.core))
  let s := s.claimBufs.trimBufs.trimClaims.trimHolds.pump.leaseClock.quantumStops
  let s := if s.teams.all (fun t => t.groups.all (fun g => !g.ended)) then s else s.teams.foldl State.exitStep s
  s.freeTables

/-! ## One item of the schedule -/

/-- The pipe on which an item of the schedule issues. -/
def State.pipeAt (s : State) : Choice → Option (Nat × Nat)
  | .group g | .solo g _ => (s.grp? g).map (fun x => (x.core, x.pipe))
  | _ => none

/-- Two items of one cycle: a pipe issues once in it (R41, R85). -/
def apart (s : State) (a b : Choice) : Bool := (s.pipeAt a).isNone || s.pipeAt a != s.pipeAt b

/-- The wheel whose pool an event lets make a dispatch step. -/
def Instr.pool? : Instr → Option Nat
  | .dispatchStep w => some w
  | _ => none

/-- The wheel whose pool an item of the schedule lets make a dispatch step. -/
def Choice.pool? : Choice → Option Nat
  | .ev i => Instr.pool? i
  | _ => none

/-- Whether the second of two items of one cycle comes first: of two dispatch steps, the one whose node ranks higher (R252). -/
def State.bFirst (s : State) (a b : Choice) : Bool :=
  match a.pool?, b.pool? with
  | some x, some y => s.ranksAbove x y
  | _, _ => false

/-- Whether an item of the schedule does something without power, and in the course of a reset (R21, R368): time passes, the host reads, and
Iboukan's store is not the device's. -/
def Choice.offline : Choice → Bool
  | .tick _ | .drift _ _ | .hostRead _ | .storeFails _ | .rootSigned _ => true
  | _ => false

/-- What one item of the schedule does that is neither an event nor two. -/
def State.actOne (s : State) : Choice → Host.Outcome State Fault Refusal
  | .both _ _ | .ev _ => .next s
  | .group g => s.turn g
  | .solo g t => s.soloTurn g t
  | .ahead g => .next (s.fetchAhead g)
  | .move t ch => .next (s.moveStep t ch)
  | .chanWait t ch on => .next (s.chanWait t ch on)
  | .silence a w => .next (s.silence a w)
  | .tick n => .next (State.passCycles n s)
  | .aaeRead g q => .next (s.streamFly g q)
  | .drift a n => .next (State.passLocals a n s)
  | .hostLaunch v =>
    .next (if s.hostq.length < Config.hostCommands then { s with hostq := s.hostq ++ [v] }
      else { s with hostDrop := true })
  | .icDrop c l => .next (s.modCore c (fun c => { c with icache := c.icache.filter (fun e => e.1 != l) }))
  | .mxPoison t core tag kind row off => .next (s.mxPoison t core tag kind row off)
  | .obldPage t core h => .next (s.obldPage t core h)
  | .pktabPage vat h => .next (s.pktabPage vat h)
  | .hostRead off => .next (s.hostRegRead off)
  | .resetBegin => .next { s with powered := false, resetting := true }
  | .storeFails on => .next { s with storeFails := on }
  | .rootSigned on => .next { s with rootSigned := on }
  | .klPoison vat h i => .next (s.klPoison vat h i)
  | .collWrite t slot lo n sends => .next (s.collWrite t slot lo n sends)
  | .poison pa => .next (s.poisonByte pa)
  | .selfPoison core pa => .next (s.selfPoison core pa)
  | .scrPoison t off => .next (s.scrPoison t off)
  | .portError core port fixed => .next (s.portError core port fixed)
  | .corrected w hbm => .next (s.count w (if hbm then 0x42 else 0x40) 1)
  | .snoop line => .next (if s.hostLines.contains line then s.sendSnoop line else s)

/-- An event of the table: without power, and in the course of a reset, only those of bring-up and of the host's registers (R21, R368). -/
def State.actEvent (s : State) (i : Instr) : Host.Outcome State Fault Refusal :=
  if i.isWord then .next s
  else if s.powered then exec i s
  else
    match i with
    | .bringUp _ | .partitionReset _ | .partitionSetup _ _ | .lstatRead | .tdeadaRead => exec i s
    | _ => .next s

/-- Between two items of one cycle. -/
def State.between (s : State) : State := if s.powered then State.examineAll { s with iss := Issue.none } else { s with iss := Issue.none }

/-- What one item of the schedule does. Between two items of one cycle the waits that the first has decided are examined (R159). Without power
only bring-up does anything (R21), and in the course of a reset nothing of the partition goes on (R368). -/
def State.act (s : State) : Choice → Host.Outcome State Fault Refusal
  | .both a b =>
    if apart s a b then
      if s.bFirst a b then
        match s.act b with
        | .next s' => s'.between.act a
        | r => r
      else
        match s.act a with
        | .next s' => s'.between.act b
        | r => r
    else s.act a
  | .ev i => s.actEvent i
  | c => if s.powered || c.offline then s.actOne c else .next s

/-! ## The default -/

/-- Whether a group is ready (R85): its turn changes something. -/
def State.wants (s : State) (gid : GrpId) (t : Team) (g : Group) : Bool :=
  (s.mayRun t || s.ownsRun t.space gid g) && (g.eligible != 0 || s.canTake gid g) &&
    match s.turn gid with
    | .next s' => decide (s' ≠ s)
    | _ => false

/-- The group of the partition that has gone longest without issuing, of those that are ready (R85). -/
def State.nextGroup (s : State) : Option GrpId :=
  let ids := s.teams.flatMap (fun t =>
    (t.grpIds.zip t.groups).filterMap (fun x => if s.wants x.1 t x.2 then some (x.1, x.2.lastIssue) else none))
  (ids.foldl (fun b x =>
    match b with
    | none => some x
    | some y => if x.2 < y.2 then some x else some y) none).map (·.1)

/-- The events of a core that may be due. -/
def State.coreEvents (s : State) (c : Core) : List Instr :=
  List.flatten [
    if c.loads.isEmpty then [] else [.loadComplete c.num],
    c.streams.map (fun x => .aaeStreamPush x.grp x.q),
    if (s.leasesOf c.num).isEmpty then [] else [.kStepCommit c.num, .matrixOperationStop c.num, .matrixOperationStart c.num]]

/-- The events of a team that may be due. -/
def State.teamEvents (_s : State) (t : Team) : List Instr :=
  let zeros (c : CollSlot) : List (List Byte) := List.replicate c.ranks (List.replicate ((c.send.map (·.n)).foldl (· + ·) 0) 0)
  let running := (List.range 4).filter (fun ch => (t.chan ch).st = 1)
  List.flatten [
    running.flatMap (fun ch => [.transferRecordStart t.id ch, .transferRecordComplete t.id ch, .transferRecordStop t.id ch]),
    t.leases.flatMap (fun l => (l.tags.filter (fun x => x.st == 4)).map (fun x => .drainRun t.id l.core x.tag)),
    t.leases.flatMap (fun l => (l.recs.filter (fun r => r.st == 1)).map (fun r => .obldLoadFinish t.id l.core r.handle)),
    ((List.range 4).filter (fun k => (t.klTag k).st = 3)).map (fun k => .klOperationComplete t.id k),
    ((List.range 4).filter (fun k => (t.coll k).st = 1 ∧ (t.coll k).ranks ≤ 1)).map (fun k => .collComplete t.id k (zeros (t.coll k))),
    if t.loc.leaving then [.contextSaveComplete t.id] else []]

/-- The waits of a team's groups, by the lowest thread of each. -/
def Team.waiters (t : Team) : List (GrpId × Nat × WaitRec) :=
  (t.grpIds.zip t.groups).flatMap (fun x => x.2.waits.map (fun w => (x.1, Mask.lo w.mask x.2.width, w)))

/-- The oldest flight of each slot or landing. -/
def Flight.event (f : Flight) : Instr :=
  match f.kind with
  | .landing .. => .ldsubLanding f.id
  | .push => .pushLand f.id
  | .endMark => .unsubEndMark f.id

/-- The events that may be due. -/
def State.events (s : State) : List Instr :=
  List.flatten [
    s.flights.map Flight.event,
    (s.cmds.filter (fun c => c.left == 0)).map (fun c => .msCommandComplete c.id),
    (s.jobs.map (·.chan)).eraseDups.map .lineJob,
    s.vats.flatMap (fun v => (v.tables.filter (fun x => x.st == 1)).map (fun x => .klTableLoadFinish v.num x.h)),
    (s.vats.filter (fun v => !v.klq.isEmpty)).map (fun v => .klAccept v.num),
    s.cores.flatMap s.coreEvents,
    s.teams.flatMap s.teamEvents,
    s.teams.flatMap (fun t => t.waiters.map (fun x => .waitConditionMet x.1 x.2.1)),
    if s.shoots.isEmpty then [] else [.shootComplete],
    (s.migrations.filter (fun m => !m.switched)).map (fun m => .migrationSwitch m.old),
    s.snoops.map (fun x => .backInvalidateAnswer (128 * x.line)),
    (s.wheels.filter (·.pend)).map (fun w => .mclkratioTake w.num),
    (s.nodes.filter (·.ending)).map (fun n => .nodeDoneDecrement n.id),
    (s.nodes.filter (fun n => n.l.det)).map (fun n => .quantumEnd n.id),
    if s.nodes.isEmpty then [] else s.wheelList.flatMap (fun w => [.dispatchStep w, .preemptForRoom w]),
    if s.hostq.isEmpty then [] else [.launch, .create, .destroy, .launchReservedCmd]]

/-- Whether an event would change something. -/
def State.live (s : State) (i : Instr) : Bool :=
  match exec i s with
  | .next s' => decide (s' ≠ s)
  | _ => false

/-- The time limits that have passed. -/
def State.timeouts (s : State) : List Instr :=
  s.teams.flatMap (fun t => t.waiters.filterMap (fun x =>
    if x.2.2.deadline.any (fun d => decide (d ≤ s.nowOf x.1)) then some (.waitTimeout x.1 x.2.1) else none))

/-- The unit that a streamer moves next: of the first channel of its ring that can move one (R238). -/
def State.nextUnit (s : State) : Option Choice :=
  s.vats.findSome? (fun v => (v.ring.find? (fun x => s.canMove x.team x.ch)).map (fun x => .move x.team x.ch))

/-- The first event or time limit that would change something, or the next unit of a streamer. -/
def State.nextEvent (s : State) : Option Choice :=
  match (s.events ++ s.timeouts).find? s.live with
  | some i => some (.ev i)
  | none => s.nextUnit.or ((s.hostLines.find? (fun l => !(s.snoops.any (fun x => x.line == l)))).map .snoop)

/-- What moves where the schedule names nothing: groups and events take turns. -/
def State.pick (s : State) : Choice :=
  if !s.powered then .tick 0
  else
  let groups := s.nextGroup.map Choice.group
  let first := if s.cycle % 2 = 0 then s.nextEvent.or groups else groups.or s.nextEvent
  first.getD (.tick 0)

/-- The end of a step: everything settles, unless it is without power or in the course of a reset (R21, R368), and one local cycle passes. -/
def State.after (s : State) : State := (if s.powered then s.settleAll else { s with iss := Issue.none }).passCycle

/-- One step: the next item of the schedule, or the default, and the end of the step. -/
def State.stepWith (s : State) : Host.Outcome State Fault Refusal :=
  let r := match s.sched with
    | c :: rest => State.act { s with sched := rest } c
    | [] => s.act s.pick
  match r with
  | .next s' => .next s'.after
  | .fault f => .fault f
  | .refused f => .refused f

end Sys2Proof.Machine
end

