-- ==== Sys2Proof/Machine/Step.lean ====
section
/-! DEFINITION. One step of the device. -/

namespace Sys2Proof.Machine

open Sys2Proof

/-- One step: the next item of the schedule acts, then one local cycle passes. -/
def step (s : State) : Host.Outcome State Fault Refusal :=
  State.stepWith s

/-- The state in which the next step fetches and runs one instruction word, loaded from outside the machine
(notes/assumptions/4.md). -/
def State.withFetchWord (s : State) (nbits w : Nat) : State :=
  State.loadWord s nbits w

end Sys2Proof.Machine
end

