-- ==== Sys2Proof/Safety.lean ====
section
/-! DEFINITION. What counts as a safe run, and the terms in which the statements of this package are written: the
invariant, readiness of a word, and what an instruction leaves unchanged. -/

namespace Sys2Proof

/-- A run of `k` steps from a state that meets no fault and no refusal. -/
def SafeRun (k : Nat) (s : Machine.State) : Prop := ∃ t, Host.Core.run core k s = .next t

/-- Bit `c` of a word is its chain bit; `k` bits above an instruction's 31 (R41). -/
def chainOf (c : Bool) : Nat := if c then 2 ^ 31 else 0

namespace Machine

/-- The invariant of the state that the statements of this package use: memory and every window are in canonical form. -/
def State.Inv (s : State) : Prop :=
  Memory.wf s.mem = true ∧ ∀ t ∈ s.teams, Memory.wf t.win = true

/-! ## Readiness (R45, R70, R85, R169) -/

/-- The word in issue belongs to group `g` of team `t`. -/
def State.Issues (s : State) (t : Team) (g : Group) : Prop :=
  s.team? s.iss.grp.team = some t ∧ s.grp? s.iss.grp = some g

/-- A U word whose s registers are present. -/
def State.UReady (s : State) (t : Team) (g : Group) (rs : List Nat) : Prop := s.Issues t g ∧ g.sPending rs = false

/-- An E word at its issue, outside a `det` node: its registers are present and no fence holds it. -/
def State.EReady (s : State) (t : Team) (g : Group) (rs : List Nat) : Prop :=
  s.Issues t g ∧ s.iss.mode = .issue ∧ s.iss.wid = 0 ∧ g.sPending rs = false ∧ s.held g = none ∧ s.isDet t.id = false

/-- A release of a group at a scope has nothing to wait for: none of its accesses is parked, no write of its core waits at a home or for
room there, and no push is in flight, before the write-back and after it (R165, R166, R203, R327). -/
def State.Released (s : State) (t : Team) (g : Group) (sc : Nat) : Prop :=
  s.relWait g = none ∧ (s.relScope g.core sc t.paired).unflushed g.core = false ∧ (s.relScope g.core sc t.paired).pushIds = []

/-- A record of `n` bytes in memory can be read at once, and what reading it gives (R199, R203, R305). -/
def State.Reads (s : State) (t : Team) (g : Group) (va n : Nat) (s' : State) (bs : List Byte) : Prop :=
  s.vaHeld g.core t.space va n .read = false ∧ s.readVA s.issuer g.core t.space va n = .ok (s', bs)

/-- A launch record can be read at once: 64 bytes, with 64 more for LR2, or zeros (R268, R269). -/
def State.ReadsRecord (s : State) (t : Team) (g : Group) (va : Nat) (s' : State) (bs : List Byte) : Prop :=
  ∃ s1 a, s.Reads t g va 64 s1 a ∧
    (field a 0 2 ≠ 2 ∧ s' = s1 ∧ bs = a ++ List.replicate 64 0 ∨
      field a 0 2 = 2 ∧ ∃ b, s1.Reads t g (va56 (va + 64)) 64 s' b ∧ bs = a ++ b)

/-- A V word that passes its register-range and queue checks and is ready. -/
def State.VReady (s : State) (t : Team) (g : Group) (w : Bool) (srcs : List Os) (extra sregs : List Nat) (d : VDst) : Prop :=
  s.Issues t g ∧
  (∀ n ∈ srcs.flatMap Os.vregs ++ extra ++ d.regs, n < g.alloc) ∧
  t.queueState s.iss.grp.grp (popsOf srcs) (d.push w) = false ∧
  g.vPending s.iss.mask (srcs.flatMap Os.vregs ++ extra) = false ∧
  g.sPending (srcs.flatMap Os.sregs ++ sregs) = false ∧
  t.queuesReady s.iss.grp.grp (beatsOf g.width s.iss.mask) (popsOf srcs) (d.push w) = true ∧
  s.pushHeld s.iss.grp g (d.push w) = false

/-- An M word that passes its register-range and queue checks, is ready, and is held by no fence. -/
def State.MReady (s : State) (t : Team) (g : Group) (regs src sregs pops : List Nat) (push : Option Nat) : Prop :=
  s.Issues t g ∧
  (∀ n ∈ regs, n < g.alloc) ∧
  t.queueState s.iss.grp.grp pops push = false ∧
  g.vPending s.iss.mask src = false ∧
  g.sPending sregs = false ∧
  s.held g = none ∧
  t.queuesReady s.iss.grp.grp (beatsOf g.width s.iss.mask) pops push = true ∧
  s.pushHeld s.iss.grp g push = false ∧
  (push.isSome && s.returnFull g.core (g.pipe / 2)) = false

/-! ## Frames -/

/-- Two states differ at most in one group: every byte of memory, everything else of the device, every other team,
everything else of the group's team, and its other groups are the same. -/
def SameBut (s s' : State) (id : GrpId) : Prop :=
  (∀ a, s'.mem.read a = s.mem.read a) ∧
  { s' with teams := s.teams } = s ∧
  (∀ k, k ≠ id.team → s'.team? k = s.team? k) ∧
  ∀ t, s.team? id.team = some t →
    ∃ t', s'.team? id.team = some t' ∧ { t' with groups := t.groups } = t ∧
      ∀ k, k ≠ id.grp → t'.groups[k]? = t.groups[k]?

/-- The s registers of the issuing group, `g` before, are the same afterwards but that s[Q] holds `v`; with Q = s0 nothing
is written (R65). -/
def State.Wrote (s s' : State) (g : Group) (q : BitVec 6) (v : Reg) : Prop :=
  ∃ g', s'.grp? s.iss.grp = some g' ∧ g'.s = (g.setS q.toNat v).s

/-- Every byte of memory reads as before. -/
def State.SameMem (s s' : State) : Prop := ∀ a, s'.mem.read a = s.mem.read a

/-- A byte of memory that a core's dirty `SELFINV` bytes may still reach: they go home when their line leaves the L1 (R139,
R181). -/
def State.WrittenBack (s : State) (core a : Nat) : Prop := ∃ b ∈ (s.core core).self, b.dirty = true ∧ s.fwd b.pa = a

/-- A byte of a dirty `DIR` copy that would be lost on its way home, as uncorrectable or in a fenced channel: its home keeps its older
value (R198, R363, R365). -/
def State.Lost (s : State) (a : Nat) : Prop := ∃ e ∈ s.stale, e.1 = a ∧ (s.fenced e.1 = true ∨ e.1 ∈ s.dirtyBad)

/-- A byte of a team's slot that a blocked `SLOTWAIT` watches: a write there may end the wait, which updates the slot (R325). -/
def State.SlotWatched (s : State) (id : TeamId) (a : Nat) : Prop :=
  ∃ y ∈ s.allWaits, ∃ o, y.2.watch = some (.slot id o none) ∧ o ≤ a ∧ a < o + 16

/-- A byte that a store to some translated parts may write, by its address or by the new address of a migrated page (R203). -/
def State.StoredAt (s : State) (ps : List Part) (a : Nat) : Prop :=
  ∃ p ∈ ps, ∃ i, i < p.n ∧ (a = p.x.pa + i ∨ a = s.fwd (p.x.pa + i) ∨ a = s.fwd p.x.pa + i)

/-- A byte of a team's window that a scratchpad element covers. -/
def ScrAt.covers (x : ScrAt) (n : Nat) (id : TeamId) (a : Nat) : Prop := x.team = id ∧ x.off ≤ a ∧ a < x.off + n

/-- Two groups differ at most in s registers of a list, and in what is in flight to them. -/
def Group.SameButS (g g' : Group) (ds : List Nat) : Prop :=
  { g' with s := g.s, spend := g.spend } = g ∧ ∀ k, k ∉ ds → g'.sreg k = g.sreg k

/-- Two groups differ at most in the threads of a mask, which are related. -/
def Group.SameButThreads (g g' : Group) (m : Mask) (R : Nat → Thread → Thread → Prop) : Prop :=
  { g' with threads := g.threads } = g ∧ g'.threads.length = g.threads.length ∧
  ∀ k th, g.threads[k]? = some th →
    ∃ th', g'.threads[k]? = some th' ∧ (if m.getLsbD k then R k th th' else th' = th)

/-- What a destination gives v register `n` of a thread whose result is `x` (R63, R67, R77). -/
def VDst.gives (d : VDst) (i : Nat) (x : Word) (n : Nat) : Option Word :=
  match d with
  | .os (.v m) => if n = m.val then some x else none
  | .os _ => none
  | .pair m hi => if n = m then some x else if n = m + 1 then hi.map (fun f => f i) else none
  | .pred _ => none

/-- What a destination gives a predicate of a thread whose result is `x`; p0 is never written (R65, R96). -/
def VDst.givesP (d : VDst) (x : Word) (p : Nat) : Option Bool :=
  match d with
  | .pred k => if p = k.val ∧ p ≠ 0 then some (x != 0) else none
  | _ => none

/-- What a V word does to an active thread: b0 delivers the result and b0 to b2 move on, live; only the destination's
registers change, and nothing when the write is suppressed (R56, R58, R63). -/
def VecThread (w : Bool) (d : VDst) (val : Nat → Word) (i : Nat) (th th' : Thread) : Prop :=
  th'.lat = ⟨val i, true⟩ :: th.lat.take 3 ∧
  (∀ n, n < th.v.length → th'.vreg n = if w then th.vreg n else (d.gives i (val i) n).getD (th.vreg n)) ∧
  (∀ p, p < 8 → th'.pred p = if w then th.pred p else (d.givesP (val i) p).getD (th.pred p)) ∧
  { th' with v := th.v, p := th.p, lat := th.lat, pend := th.pend } = th

/-! ## The V words by shape -/

/-- Two-source V words: write-suppress bit, operands, and the function of the two values. -/
def binaryOf : Instr → Option (Bool × Os × Os × Os × (Word → Word → Word))
  | .vadd ty w d a b => some (w, d, a, b, addOp ty)
  | .vsub ty w d a b => some (w, d, a, b, subOp ty)
  | .vmul ty w d a b => some (w, d, a, b, mulOp ty)
  | .vmin ty w d a b => some (w, d, a, b, minMaxOp false ty)
  | .vmax ty w d a b => some (w, d, a, b, minMaxOp true ty)
  | .vlogic op w d a b => some (w, d, a, b, logicOp op)
  | .vshift op w d a b => some (w, d, a, b, shiftOp op)
  | .vdiv ty w d a b => some (w, d, a, b, divOp ty)
  | .vbits op w d a b => if op = .byteperm then some (w, d, a, b, bitsOp op) else none
  | _ => none

/-- One-source V words, but for the bit-field extract. -/
def unaryOf : Instr → Option (Bool × Os × Os × (Word → Word))
  | .vmov w d a => some (w, d, a, id)
  | .vsfu op w d a => some (w, d, a, sfuOp op)
  | .vcvt m op k w d a => if op.insert then none else some (w, d, a, cvtOp m op k.val 0)
  | .vbits op w d a _ => if op = .byteperm then none else some (w, d, a, fun x => bitsOp op x 0)
  | _ => none

/-- V words that read their destination. -/
def accumOf : Instr → Option (Bool × Os × Os × Os × (Word → Word → Word → Word))
  | .vfma ty w d a b => some (w, d, a, b, fmaOp ty)
  | .vfnma ty w d a b => some (w, d, a, b, fnmaOp ty)
  | .vdot op w d a b => some (w, d, a, b, dotOp op)
  | _ => none

/-- The s registers a scalar word of one result reads, its destination, and the value it gives. -/
def scalarOf (s : State) : Instr → Option (List Nat × BitVec 6 × (Group → Reg))
  | .salu op d a b => some (a.toNat :: b.sregs, d, fun g => saluOp op (g.sreg a.toNat) (g.uVal s.iss.mask s.iss.lit b))
  | .mov d b => some (b.sregs, d, fun g => g.uVal s.iss.mask s.iss.lit b)
  | .li d => some ([], d, fun _ => BitVec.ofNat 64 s.iss.lit.toNat)
  | .lis d => some ([], d, fun _ => BitVec.ofInt 64 s.iss.lit.toInt)
  | .lihi d a => some ([a.toNat], d, fun g =>
      BitVec.ofNat 64 (s.iss.lit.toNat * 2 ^ 32 + (g.sreg a.toNat).toNat % 2 ^ 32))
  | .popcs d a => some ([a.toNat], d, fun g => BitVec.ofNat 64 ((List.range 64).countP (g.sreg a.toNat).getLsbD))
  | .clock d => some ([], d, fun g => BitVec.ofNat 64 (s.now g.core))
  | _ => none

end Machine

end Sys2Proof
end

