-- ==== Sys2Proof/Certificates/Slice0/Obligations.lean ====
section
/-! DEFINITION. The statements for the provers. -/

open Sys2Proof Sys2Proof.Machine

/-! ## Encodings and steps -/

/-- Decoding the word that encoding wrote gives the instruction back, with every operand and the chain bit (R41, R47 to
R53): every well-formed instruction word, at every operand its encoding admits. -/
def Obligations.EncodeThenDecode : Prop :=
  ∀ (c : Bool) (i : Instr), i.isWord = true → WellFormed i = true →
    ∃ w, encode c i = some w ∧ decodeWord w = .ok i ∧ chainBit w = c

/-- Each instruction word has one meaning: a word that decodes is the encoding of what it decodes to, which is well formed
(R47 to R53, R62). -/
def Obligations.DecodeThenEncode : Prop :=
  ∀ (w : Word) (i : Instr), decodeWord w = .ok i →
    i.isWord = true ∧ WellFormed i = true ∧ encode (chainBit w) i = some w

/-- Some words written out from the encodings of R47 to R51 and the examples of R169, R200, R291 and R339 decode to the
instructions they stand for. -/
def Obligations.DecodedWords : Prop :=
  decodeWord 0x00000000 = .ok .nop ∧
  decodeWord 0x7604_13F3 = .ok (.msred ⟨8, 9, 31⟩ 3) ∧
  decodeWord 0x7624_13F0 = .ok (.msatom ⟨8, 9, 31⟩ 0) ∧
  decodeWord 0x7640_1200 = .ok (.mspoll 9 0) ∧
  decodeWord 0x7665_17F0 = .ok (.mswait ⟨10, 11, 31⟩ 0) ∧
  decodeWord 0x7A04_13F0 = .ok (.pktab ⟨8, 9, 31⟩ 0) ∧
  decodeWord 0x7A45_17F1 = .ok (.pkgrad ⟨10, 11, 31⟩ 1) ∧
  decodeWord 0x6DC6_01D4 = .ok (.tlbfence 3 ⟨0, .all, false⟩) ∧
  decodeWord 0x6D8C_0000 = .ok (.msfence false) ∧
  decodeWord 0x6D8D_8000 = .ok (.msfence true)

/-- A step runs the decoded instruction: where the schedule names a group of a team that may run, whose current path
stands in packet `p`, entered now or before, at a word of a chain group of one word, and that word decodes to `i`, the step of a
device with power is the meaning of `i` for the path's threads, with their PCs moved past the word; then the packet retires and
the step ends (R21, R41, R45, R56, R85, R121). -/
def Obligations.StepRunsDecoded : Prop :=
  ∀ (s s1 s3 : State) (gid : GrpId) (rest : List Choice) (t : Team) (g : Group) (pc : VAddr) (p : Packet) (i : Instr),
    s.powered = true → s.sched = .group gid :: rest →
    s.team? gid.team = some t → s.grp? gid = some g → t.loc = .resident →
    State.canTake { s with sched := rest } gid g = false → g.yielded = false → (∀ r ∈ g.paths, r.due = none) →
    g.cur = some pc → g.pathAt pc ≠ 0 → badPC pc = false →
    (State.runOwner { s with sched := rest } g.core g.pipe = none ∨
      State.runOwner { s with sched := rest } g.core g.pipe = some gid) →
    let s0 : State := if g.pathAt pc = g.lastMask then { s with sched := rest } else
      State.modGrp { s with sched := rest } gid (fun x => { (x.killOn (g.pathAt pc)) with lastMask := g.pathAt pc })
    (g.packet = some p ∧ p.addr = packetAddr pc ∧ s1 = s0 ∨
      (∀ q, g.packet = some q → q.addr ≠ packetAddr pc) ∧ s0.enter gid t.space pc (g.pathAt pc) = .into s1 p) →
    p.chainLen (slotOf pc) = 1 → s1.withheldFor gid p (slotOf pc) = false →
    decodeWord (p.word (slotOf pc)) = .ok i →
    exec i { (s1.modGrp gid (fun g => g.onThreads (g.pathAt pc) (fun _ t => { t with pc := p.after (slotOf pc) }))) with
        iss := p.issue gid (g.pathAt pc) (slotOf pc) (slotOf pc) } = .next s3 →
    s3.iss.raised = none → s3.iss.stalled = none →
    step s = .next (State.after ({ s3 with iss := Issue.none }.modGrp gid
      (fun x => x.chainEnd (some (g.pathAt pc)) (g.pathAt pc) p (slotOf pc) (s3.now x.core) (i == Instr.fetchbar))))

/-- From every state in canonical form a step leaves memory and every window in canonical form. That form is the model's own
representation of memory and of windows, and no rule of the spec (notes/assumptions/1.md). -/
def Obligations.StepKeepsInv : Prop :=
  ∀ s s' : State, s.Inv → step s = .next s' → s'.Inv

/-- The state after reset meets the invariant, and holds the values that the spec gives for reset: `FAIRNESS` 8, `MCLKRATIO` 23
with nothing pending, `SPCBASE`, `STALE_RESP`, the counters, `LSTAT` and `SCRPART` zero, no report, no context, no node
and no team, one partition of the six wheels, and the capability registers of the device (R10 to R14, R124, R140, R186, R199,
R296, R354, R355, R364, R368). That memory lists nothing, and that Iboukan's key store, which every reset leaves as it was (R370), holds no
key, are the model's choice (notes/assumptions/1.md). -/
def Obligations.ResetState : Prop :=
  State.reset.Inv ∧
  (∀ n, (State.reset.core n).fairLog = 8 ∧ (State.reset.core n).scr = 0 ∧ (State.reset.core n).tags = [] ∧
    (State.reset.core n).self = [] ∧ (State.reset.core n).tlb = [] ∧ (State.reset.core n).replay = []) ∧
  (∀ n, (State.reset.wheel n).ratio = 23 ∧ (State.reset.wheel n).pend = false ∧ (State.reset.wheel n).stale = 0 ∧
    (State.reset.wheel n).throtEvents = 0 ∧ ∀ k ∈ (State.reset.wheel n).counters, k = 0) ∧
  State.reset.spcbase = 0 ∧ State.reset.lstatWord = 0 ∧ State.reset.losses = [] ∧ State.reset.keys = [] ∧
  State.reset.contexts = [] ∧ State.reset.nodes = [] ∧ State.reset.teams = [] ∧ State.reset.mem = [] ∧
  State.reset.parts = [0x3F] ∧ State.reset.cap0 = 0x0104004D00 ∧ State.reset.cap1 = 0xFD ∧
  State.reset.cap2 = 0x0000000FFFFF0180 ∧ State.reset.cap3 = 0x4020203030104040

/-! ## Vector words -/

/-- 1. A two-source V word of any type completes for every operand form: its effect is the V pipe's, with the function of the
two values that each active thread reads (R56, R63, R90, R91, R93, R94, R95, R100).

2. A one-source V word completes for every operand form; `VSHIFT.BFX` where its descriptor's reserved bits are zero
(R46, R77, R95, R99, R101, R118).

3. A V word that reads its destination completes for every operand form; `VSHIFT.BFI` where its descriptor's reserved bits
are zero, and an inserting `VCVT` (R46, R92, R95, R104, R118). -/
def Obligations.VecArith : Prop :=
  (∀ (s : State) (t : Team) (g : Group) (i : Instr) (w : Bool) (d a b : Os) (f : Word → Word → Word),
     binaryOf i = some (w, d, a, b, f) → s.VReady t g w [a, b] [] [] (.os d) →
     exec i s = .next (s.vecDone t g w [a, b] (.os d)
       (fun k => f (g.osVal s.iss.lit a k) (g.osVal s.iss.lit b k)))) ∧
  ((∀ (s : State) (t : Team) (g : Group) (i : Instr) (w : Bool) (d a : Os) (f : Word → Word),
     unaryOf i = some (w, d, a, f) → s.VReady t g w [a] [] [] (.os d) →
     exec i s = .next (s.vecDone t g w [a] (.os d) (fun k => f (g.osVal s.iss.lit a k)))) ∧
   ∀ (s : State) (t : Team) (g : Group) (w : Bool) (d a : Os),
     s.VReady t g w [a] [] [] (.os d) → s.iss.lit.toNat < 2 ^ 11 →
     exec (.vshiftBfx w d a) s = .next (s.vecDone t g w [a] (.os d)
       (fun k => bfxOp s.iss.lit (g.osVal s.iss.lit a k)))) ∧
  ((∀ (s : State) (t : Team) (g : Group) (i : Instr) (w : Bool) (d a b : Os) (f : Word → Word → Word → Word),
     accumOf i = some (w, d, a, b, f) → s.VReady t g w [a, b, d] [] [] (.os d) →
     exec i s = .next (s.vecDone t g w [a, b, d] (.os d)
       (fun k => f (g.osVal s.iss.lit d k) (g.osVal s.iss.lit a k) (g.osVal s.iss.lit b k)))) ∧
   (∀ (s : State) (t : Team) (g : Group) (w : Bool) (d a : Os),
     s.VReady t g w [a, d] [] [] (.os d) → s.iss.lit.toNat < 2 ^ 11 →
     exec (.vshiftBfi w d a) s = .next (s.vecDone t g w [a, d] (.os d)
       (fun k => bfiOp s.iss.lit (g.osVal s.iss.lit d k) (g.osVal s.iss.lit a k)))) ∧
   ∀ (s : State) (t : Team) (g : Group) (m : Rnd) (op : CvtOp) (k : Fin 8) (w : Bool) (d a : Os), op.insert = true →
     s.VReady t g w [a, d] [] [] (.os d) →
     exec (.vcvt m op k w d a) s = .next (s.vecDone t g w [a, d] (.os d)
       (fun j => cvtOp m op k.val (g.osVal s.iss.lit d j) (g.osVal s.iss.lit a j))))

/-- 1. V words whose result in a thread depends on more than that thread's sources: `VSEL` on a predicate, `VPERM` on another
active thread, `VRED` on all active threads, `VLANE` and `VSPLAT` on the place and on an s register; and the pair of
`VMOV64` and `VSPLAT.PAIR`, of which a destination `Z` takes nothing (R77, R97, R102, R103).

2. V words that write a predicate, and `NOP`, which changes nothing (R60, R96, R98). -/
def Obligations.VecAcross : Prop :=
  (∀ (s : State) (t : Team) (g : Group) (w : Bool) (d : Os),
     (∀ (p : Fin 8) (a b : Os), s.VReady t g w [a, b] [] [] (.os d) →
       exec (.vsel p w d a b) s = .next (s.vecDone t g w [a, b] (.os d)
         (fun k => if (g.thread k).pred p.val then g.osVal s.iss.lit a k else g.osVal s.iss.lit b k))) ∧
     (∀ (op : PermOp) (a b : Os), s.VReady t g w [a, b] [] [] (.os d) →
       exec (.vperm op w d a b) s = .next (s.vecDone t g w [a, b] (.os d) (fun k =>
         let u := permSource op g.width k (g.osVal s.iss.lit b k).toNat
           (g.osVal s.iss.lit b (Mask.lo s.iss.mask g.width)).toNat
         if s.iss.mask.getLsbD u then g.osVal s.iss.lit a u else g.osVal s.iss.lit a k))) ∧
     (∀ (op : RedOp) (a : Os), s.VReady t g w [a] [] [] (.os d) →
       exec (.vred op w d a) s = .next (s.vecDone t g w [a] (.os d) (fun _ =>
         redOp op ((List.range g.width).map (fun k =>
           if s.iss.mask.getLsbD k then some (g.osVal s.iss.lit a k) else none))))) ∧
     (s.VReady t g w [] [] [] (.os d) →
       exec (.vlane w d) s = .next (s.vecDone t g w [] (.os d)
         (fun k => BitVec.ofNat 32 (k % 16 + 16 * (k / 16) + 64 * g.pipe + 256 * g.core)))) ∧
     (∀ n : BitVec 6, s.VReady t g w [] [] [n.toNat] (.os d) →
       exec (.vsplat w d n .lo) s = .next (s.vecDone t g w [] (.os d) (fun _ => (g.sreg n.toNat).setWidth 32)) ∧
       exec (.vsplat w d n .hi) s = .next (s.vecDone t g w [] (.os d) (fun _ => (g.sreg n.toNat >>> 32).setWidth 32))) ∧
     (∀ (m : Fin 96) (n : BitVec 6),
       s.VReady t g w [] [] [n.toNat] (.pair m.val (some (fun _ => (g.sreg n.toNat >>> 32).setWidth 32))) →
       exec (.vsplat w (.v m) n .pair) s = .next (s.vecDone t g w []
         (.pair m.val (some (fun _ => (g.sreg n.toNat >>> 32).setWidth 32))) (fun _ => (g.sreg n.toNat).setWidth 32))) ∧
     (∀ n : BitVec 6, s.VReady t g w [] [] [n.toNat] (.os .zero) →
       exec (.vsplat w .zero n .pair) s =
         .next (s.vecDone t g w [] (.os .zero) (fun _ => (g.sreg n.toNat).setWidth 32))) ∧
     (s.VReady t g w [.zero] [] [] (.os .zero) →
       exec (.vmov64 w .zero .zero) s = .next (s.vecDone t g w [.zero] (.os .zero) (fun _ => 0))) ∧
     (∀ a : Fin 96, a.val < 95 → s.VReady t g w [.v a] [a.val + 1] [] (.os .zero) →
       exec (.vmov64 w .zero (.v a)) s =
         .next (s.vecDone t g w [.v a] (.os .zero) (fun k => (g.thread k).vreg a.val))) ∧
     (∀ m : Fin 96, s.VReady t g w [.zero] [] [] (.pair m.val none) →
       exec (.vmov64 w (.v m) .zero) s = .next (s.vecDone t g w [.zero] (.pair m.val none) (fun _ => 0))) ∧
     (∀ m a : Fin 96, a.val < 95 →
       s.VReady t g w [.v a] [a.val + 1] [] (.pair m.val (some (fun k => (g.thread k).vreg (a.val + 1)))) →
       exec (.vmov64 w (.v m) (.v a)) s = .next (s.vecDone t g w [.v a]
         (.pair m.val (some (fun k => (g.thread k).vreg (a.val + 1)))) (fun k => (g.thread k).vreg a.val)))) ∧
  (∀ (s : State) (t : Team) (g : Group) (w : Bool) (d : Fin 8),
     (∀ (c : CmpI) (a b : Os), s.VReady t g w [a, b] [] [] (.pred d) →
       exec (.vcmpi c w d a b) s = .next (s.vecDone t g w [a, b] (.pred d)
         (fun k => if cmpIOp c (g.osVal s.iss.lit a k) (g.osVal s.iss.lit b k) then 1 else 0))) ∧
     (∀ (c : CmpF) (a b : Os), s.VReady t g w [a, b] [] [] (.pred d) →
       exec (.vcmpf c w d a b) s = .next (s.vecDone t g w [a, b] (.pred d)
         (fun k => if cmpFOp c (g.osVal s.iss.lit a k) (g.osVal s.iss.lit b k) then 1 else 0))) ∧
     (∀ (op : PredOp) (a b : Fin 8), s.VReady t g w [] [] [] (.pred d) →
       exec (.vpred op w d a b) s = .next (s.vecDone t g w [] (.pred d)
         (fun k => if predOpOf op ((g.thread k).pred a.val) ((g.thread k).pred b.val) then 1 else 0))) ∧
     (s.Issues t g → exec .nop s = .next s))

/-- 1. What every V word that pushes no queue changes: in the active threads the destination's registers and the latches, in
the group the queues its sources pop; nothing else of the device, no byte of memory, no other register (R56, R58, R63).

2. What a V word whose destination is a queue changes beside: it pushes one entry into each running beat of the queue that
the destination feeds, an inactive thread's value being 0, and its threads keep every v register and predicate (R256). -/
def Obligations.VecFrame : Prop :=
  (∀ (s : State) (t : Team) (g : Group) (w : Bool) (srcs : List Os) (d : VDst) (val : Nat → Word),
     s.Issues t g → d.push w = none →
     SameBut s (s.vecDone t g w srcs d val) s.iss.grp ∧
     ∃ g', (s.vecDone t g w srcs d val).grp? s.iss.grp = some g' ∧
       Group.SameButThreads { g with q := g'.q } g' s.iss.mask (VecThread w d val) ∧
       ∀ n, g'.queue n = if n ∈ popsOf srcs then (g.queue n).pop (beatsOf g.width s.iss.mask) else g.queue n) ∧
  (∀ (s : State) (t : Team) (g : Group) (srcs : List Os) (n : Fin 8) (val : Nat → Word),
     s.Issues t g →
     let p := t.pushTarget s.iss.grp.grp n.val
     let beats := beatsOf g.width s.iss.mask
     s.vecDone t g false srcs (.os (.q n)) val =
       (s.vecDone t g true srcs (.os (.q n)) val).modGrp ⟨s.iss.grp.team, p.1⟩
         (fun x => x.pushQ beats p.2 (fun k => if s.iss.mask.getLsbD k then val k else 0)))

/-! ## Scalar words -/

/-- The scalar words of one result: s[D] holds it, every other register and every byte of memory is unchanged, and with
D = s0 nothing is written (R65, R78, R79, R136). -/
def Obligations.ScalarResult : Prop :=
  ∀ (s : State) (t : Team) (g : Group) (i : Instr) (rs : List Nat) (d : BitVec 6) (f : Group → Reg),
    scalarOf s i = some (rs, d, f) → s.UReady t g rs → g.s.length = 64 →
    ∃ s' g', exec i s = .next s' ∧ SameBut s s' s.iss.grp ∧ s'.grp? s.iss.grp = some g' ∧
      Group.SameButS g g' [d.toNat] ∧ (if d = 0 then g' = g else g'.sreg d.toNat = f g)

/-- 1. `BALLOT`, `VOTEALL`, `VOTEANY` and `ELECT`: what they read of the active threads' predicates; `ELECT` also sets its
predicate in the lowest active thread alone (R79, R135).

2. `FROMV` copies a thread's v register, or the latch of an executing thread, sign-extended, to s[D]; the thread is
s[A] modulo the width (R79). -/
def Obligations.Ballots : Prop :=
  (∀ (s : State) (t : Team) (g : Group) (d : BitVec 6) (p : Fin 8), s.UReady t g [] →
     let hold := fun k => s.iss.mask.getLsbD k && (g.thread k).pred p.val
     let act := (List.range g.width).filter s.iss.mask.getLsbD
     (∃ v, exec (.ballot d p) s = .next (s.modGrp s.iss.grp (fun x => x.setS d.toNat v)) ∧
       ∀ k, k < 64 → v.getLsbD k = (decide (k < g.threads.length) && hold k)) ∧
     exec (.voteall d p) s = .next (s.modGrp s.iss.grp (fun x => x.setS d.toNat (if act.all hold then 1 else 0))) ∧
     exec (.voteany d p) s = .next (s.modGrp s.iss.grp (fun x => x.setS d.toNat (if act.any hold then 1 else 0))) ∧
     exec (.elect d p) s = .next (s.modGrp s.iss.grp (fun x =>
       (x.onThreads s.iss.mask (fun k th => th.setPred p.val (k == act.headD 0))).setS d.toNat
         (BitVec.ofNat 64 (act.headD 0))))) ∧
  (∀ (s : State) (t : Team) (g : Group) (d a : BitVec 6), s.UReady t g [a.toNat] →
     let k := (g.sreg a.toNat).toNat % g.width
     (∀ n : Fin 96, n.val < g.alloc → g.vPending (BitVec.twoPow 64 k) [n.val] = false →
       exec (.fromv d a (.v n)) s =
         .next (s.modGrp s.iss.grp (fun x => x.setS d.toNat (((g.thread k).vreg n.val).signExtend 64)))) ∧
     (∀ n : Fin 4, exec (.fromv d a (.b n)) s =
       .next (s.modGrp s.iss.grp (fun x => x.setS d.toNat
         (if s.iss.mask.getLsbD k then ((g.thread k).latch n.val).signExtend 64 else 0)))) ∧
     (∀ n : Fin 96, g.alloc ≤ n.val → exec (.fromv d a (.v n)) s = .next (s.trapNow (s.wordTrap 3 0 0 0xFF 0))))

/-- s0 reads zero in every field that names it, OS 0x60 too, and discards writes; p0 reads true, and a word that names it as
its destination, `VCMPI`, `VCMPF`, `VPRED` or `ELECT`, executes but leaves it true, a V word with its delivery into the latches; every
other register reads what was last written, and a write to one leaves the others alone (R65). A fresh group has 64 s registers, 8
queues and width threads (R64, R69). -/
def Obligations.RegisterFile : Prop :=
  (∀ (g : Group) (v : Reg), g.sreg 0 = 0 ∧ g.setS 0 v = g) ∧
  (osOf 0x60 = .s 0 ∧ ∀ (g : Group) (lit : Word) (k : Nat), g.osVal lit (.s 0) k = 0) ∧
  (∀ (th : Thread) (v : Bool), th.pred 0 = true ∧ th.setPred 0 v = th) ∧
  (∀ (s : State) (t : Team) (g : Group) (w : Bool),
    let runs := fun (i : Instr) (x : Nat → Bool) =>
      ∃ s' g', exec i s = .next s' ∧ s'.grp? s.iss.grp = some g' ∧
        ∀ k th, g.threads[k]? = some th → s.iss.mask.getLsbD k = true → ∃ th', g'.threads[k]? = some th' ∧
          th'.pred 0 = true ∧ th'.p = th.p ∧ th'.v = th.v ∧ th'.lat = ⟨if x k then 1 else 0, true⟩ :: th.lat.take 3
    (∀ (c : CmpI) (a b : Os), s.VReady t g w [a, b] [] [] (.pred 0) →
      runs (.vcmpi c w 0 a b) (fun k => cmpIOp c (g.osVal s.iss.lit a k) (g.osVal s.iss.lit b k))) ∧
    (∀ (c : CmpF) (a b : Os), s.VReady t g w [a, b] [] [] (.pred 0) →
      runs (.vcmpf c w 0 a b) (fun k => cmpFOp c (g.osVal s.iss.lit a k) (g.osVal s.iss.lit b k))) ∧
    (∀ (op : PredOp) (a b : Fin 8), s.VReady t g w [] [] [] (.pred 0) →
      runs (.vpred op w 0 a b) (fun k => predOpOf op ((g.thread k).pred a.val) ((g.thread k).pred b.val))) ∧
    ∀ d : BitVec 6, s.UReady t g [] → ∃ s' g', exec (.elect d 0) s = .next s' ∧ s'.grp? s.iss.grp = some g' ∧
      ∀ (k : Nat) (th : Thread), g.threads[k]? = some th → ∃ th' : Thread, g'.threads[k]? = some th' ∧ th'.pred 0 = true ∧ th'.p = th.p ∧ th'.v = th.v) ∧
  (∀ (g : Group) (n k : Nat) (v : Reg), g.s.length = 64 → 0 < n → n < 64 →
    (g.setS n v).sreg n = v ∧ (k ≠ n → (g.setS n v).sreg k = g.sreg k) ∧ (g.setS n v).s.length = 64) ∧
  (∀ (th : Thread) (p k : Nat) (v : Bool), 0 < p → p < 8 →
    (th.setPred p v).pred p = v ∧ (k ≠ p → (th.setPred p v).pred k = th.pred k)) ∧
  (∀ (th : Thread) (n k : Nat) (v : Word), n < th.v.length →
    (th.setV n v).vreg n = v ∧ (k ≠ n → (th.setV n v).vreg k = th.vreg k)) ∧
  ∀ (core pipe width alloc : Nat) (pc : VAddr) (s16 : List Reg) (cycle : Nat), s16.length = 6 →
    (Group.fresh core pipe width alloc pc s16 cycle).s.length = 64 ∧
    (Group.fresh core pipe width alloc pc s16 cycle).q.length = 8 ∧
    (Group.fresh core pipe width alloc pc s16 cycle).threads.length = width

/-! ## Branches (R125 to R134) -/

/-- Uniform branches: one decision, on the lowest active thread's predicate or on an s register, moves every active thread to
the target and clears latch liveness, that of what the chain group delivers too; not taken, nothing changes. `CALL` also writes s7,
only when it is taken (R56, R133, R134). -/
def Obligations.UniformBranches : Prop :=
  ∀ (s : State) (t : Team) (g : Group) (p : Fin 8) (off : BitVec 18) (sr : BitVec 6) (o15 : BitVec 15),
    let pa := packetAddr s.iss.pc
    let go := fun (pc : VAddr) => s.modGrp s.iss.grp (fun x =>
      x.onThreads s.iss.mask (fun _ th => { th.killLatches with pc := pc, moved := true }))
    let lo := (g.thread (((List.range g.width).filter s.iss.mask.getLsbD).headD 0)).pred p.val
    (s.UReady t g [] →
      exec (.b p off) s = .next (if lo then go (pa + BitVec.ofInt 56 (16 * off.toInt)) else s) ∧
      exec (.call p off) s = .next (if lo then
        (go (pa + BitVec.ofInt 56 (16 * off.toInt))).modGrp s.iss.grp (fun x => x.setS 7 ((pa + 16).setWidth 64)) else s)) ∧
    (s.UReady t g [sr.toNat] →
      exec (.bz sr o15) s = .next (if g.sreg sr.toNat = 0 then go (pa + BitVec.ofInt 56 (16 * o15.toInt)) else s) ∧
      exec (.bnz sr o15) s = .next (if g.sreg sr.toNat = 0 then s else go (pa + BitVec.ofInt 56 (16 * o15.toInt))) ∧
      exec (.brx sr) s = .next (go (BitVec.ofNat 56 ((g.sreg sr.toNat).toNat % 2 ^ 56 / 16 * 16)))) ∧
    (s.UReady t g [7] →
      exec .ret s = .next (go (BitVec.ofNat 56 ((g.sreg 7).toNat % 2 ^ 56 / 16 * 16))))

/-- 1. Branches that decide for each thread: a thread whose predicate holds goes to the target, another goes on; `BD` also
opens a join entry, and traps with `JOIN_OVERFLOW` when the join stack is full. Nothing outside the group changes.

2. `JOIN` sends each active thread to its innermost entry's join packet, `YIELD` to the next packet, giving up the turn,
and `EXIT` ends the active threads; no register and no byte of memory changes. -/
def Obligations.ThreadBranches : Prop :=
  (∀ (s : State) (t : Team) (g : Group) (p : Fin 8) (off : BitVec 18), s.UReady t g [] →
     let pa := packetAddr s.iss.pc
     let there := pa + BitVec.ofInt 56 (16 * off.toInt)
     let R := fun (k : Nat) (th th' : Thread) =>
       th'.pc = (if k < 64 ∧ th.pred p.val then there else th.pc) ∧ th'.v = th.v ∧ th'.p = th.p ∧ th'.st = th.st ∧
         th'.lat.map Latch.val = th.lat.map Latch.val
     (∃ s' g', exec (.bp p off) s = .next s' ∧ SameBut s s' s.iss.grp ∧ s'.grp? s.iss.grp = some g' ∧
       { g' with threads := g.threads } = g ∧
       ∀ k th, g.threads[k]? = some th → ∃ th', g'.threads[k]? = some th' ∧
         (if s.iss.mask.getLsbD k then R k th th' else th'.pc = th.pc ∧ th'.v = th.v)) ∧
     (g.joins.length < 32 →
       ∃ s' g', exec (.bd p off) s = .next s' ∧ SameBut s s' s.iss.grp ∧ s'.grp? s.iss.grp = some g' ∧
         g'.joins = ⟨pa + BitVec.ofInt 56 (16 * s.iss.lit.toInt), s.iss.mask, 0⟩ :: g.joins ∧
         { g' with threads := g.threads, joins := g.joins } = g ∧
         ∀ k th, g.threads[k]? = some th → ∃ th', g'.threads[k]? = some th' ∧
           (if s.iss.mask.getLsbD k then R k th th' else th'.pc = th.pc ∧ th'.v = th.v)) ∧
     (32 ≤ g.joins.length → exec (.bd p off) s = .next (s.trapNow (s.wordTrap 4 0 0 0xFF 0)))) ∧
  (∀ (s : State) (t : Team) (g : Group), s.UReady t g [] →
     (∃ s' g', exec .join s = .next s' ∧ SameBut s s' s.iss.grp ∧ s'.grp? s.iss.grp = some g' ∧
       g'.s = g.s ∧ g'.joins = g.joins ∧
       ∀ k th, g.threads[k]? = some th → ∃ th', g'.threads[k]? = some th' ∧ th'.v = th.v ∧
         th'.pc = if s.iss.mask.getLsbD k then
           (match g.joins.find? (fun e => e.members.getLsbD k) with | some e => e.join | none => th.pc) else th.pc) ∧
     (∃ s' g', exec .yield s = .next s' ∧ SameBut s s' s.iss.grp ∧ s'.grp? s.iss.grp = some g' ∧
       g'.s = g.s ∧ g'.yielded = true ∧
       ∀ k th, g.threads[k]? = some th → ∃ th', g'.threads[k]? = some th' ∧ th'.v = th.v ∧
         th'.pc = if s.iss.mask.getLsbD k then packetAddr s.iss.pc + 16 else th.pc) ∧
     (∃ s' g', exec .exit s = .next s' ∧ SameBut s s' s.iss.grp ∧ s'.grp? s.iss.grp = some g' ∧
       Group.SameButThreads g g' s.iss.mask (fun _ th th' => th' = { th with st := .exited })))

/-- A waiting path whose count has reached the fairness interval becomes due, in a node that does not turn fairness off, in the local
cycle of its core; nothing else changes (R3, R125, R127). -/
def Obligations.PathDue : Prop :=
  ∀ (s : State) (id : GrpId) (g : Group) (pc : VAddr), s.grp? id = some g →
    ((s.launch? id.team).map (·.nofair)).getD false = false →
    ∃ s' g', exec (.pathDue id pc) s = .next s' ∧ SameBut s s' id ∧ s'.grp? id = some g' ∧
      { g' with paths := g.paths } = g ∧
      ∀ (k : Nat) (r : PathRec), g.paths[k]? = some r → g'.paths[k]? = some
        (if r.pc = pc ∧ 2 ^ (s.core g.core).fairLog ≤ r.wait ∧ r.due = none then { r with due := some (s.now g.core) } else r)

/-! ## System registers and traps -/

/-- 1. `SYSRD` gives s[D] the register's value for the issuing core, wheel, partition, team or group; the four capability
registers only to a system segment, else `ILLEGAL_OP`, detail 6, and nothing is written. `CAPQ` gives the space's snapshot of a
capability register, and as word 4 the partition's lowest wheel and the device number (R10, R61, R306, R307, R358).

2. `SYSWR` to a register that needs privilege takes `ILLEGAL_OP`, detail 6, outside a system segment; inside it has the
register's effect: `FAIRNESS` takes 4 to 16 and ignores the rest, `MCLKRATIO` takes 16 to 64 and becomes pending, `SPCBASE`
takes `BASE` and `EN`, `STALE_RESP` and the counters 48 bits, `DQBASE` its address; `STATUS` any code may write, and every other
register ignores the write (R2, R61, R124, R186, R296, R305 to R307, R364).

3. The register events: the same effects of a privileged write, and the ratio taking effect, whoever makes them. -/
def Obligations.SystemRegisters : Prop :=
  (∀ (s : State) (t : Team) (g : Group) (d : BitVec 6) (r : BitVec 8), s.UReady t g [] →
     ((3 < r.toNat ∨ s.iss.sys = true) →
       exec (.sysrd d r) s = .next (s.modGrp s.iss.grp (fun x => x.setS d.toNat (s.sysVal t g s.iss.grp.grp r.toNat)))) ∧
     (r.toNat ≤ 3 → s.iss.sys = false → exec (.sysrd d r) s = .next (s.trapNow (s.wordTrap 2 6 0 0xFF 0))) ∧
     ∀ k : Fin 5, ∃ v : Reg,
       exec (.capq d k) s = .next (s.modGrp s.iss.grp (fun x => x.setS d.toNat v)) ∧
       (∀ c, k.val < 4 → s.contexts.find? (fun c => c.space == t.space) = some c → v = c.snap.getD k.val 0) ∧
       (k.val = 4 → v = BitVec.ofNat 64 (s.wheelList.headD 0 * 2 ^ 32 + Config.deviceNumber.toNat))) ∧
  (∀ (s : State) (t : Team) (g : Group) (a : BitVec 6) (r : BitVec 8), s.UReady t g [a.toNat] →
     let v := g.sreg a.toNat
     (sysWritePriv r.toNat = true → s.iss.sys = false →
       exec (.syswr a r) s = .next (s.trapNow (s.wordTrap 2 6 0 0xFF 0))) ∧
     (s.iss.sys = true →
       exec (.syswr a 0x09) s = .next (if 4 ≤ v.toNat % 32 ∧ v.toNat % 32 ≤ 16 then
         s.modCore g.core (fun c => { c with fairLog := v.toNat % 32 }) else s) ∧
       exec (.syswr a 0x13) s = .next (if 16 ≤ v.toNat % 256 ∧ v.toNat % 256 ≤ 64 then
         s.modWheel (wheelOf g.core) (fun x => { x with ratio := v.toNat % 256, pend := true }) else s) ∧
       exec (.syswr a 0x10) s = .next { s with spcbase := v &&& 0x000F_FFFF_FFFF_8001 } ∧
       exec (.syswr a 0x11) s = .next (s.modWheel (wheelOf g.core) (fun x => { x with stale := v.toNat % 2 ^ 48 })) ∧
       exec (.syswr a 0x12) s =
         .next (s.modWheel (wheelOf g.core) (fun x => { x with dqbase := v.toNat / 2 ^ 11 % 2 ^ 41 * 2 ^ 11 })) ∧
       (0x40 ≤ r.toNat → r.toNat ≤ 0x4C → exec (.syswr a r) s = .next (s.modWheel (wheelOf g.core) (fun x =>
         { x with counters := modAt (fun _ => v.toNat % 2 ^ 48) (r.toNat - 0x40) x.counters })))) ∧
     (r.toNat ∉ [0x09, 0x10, 0x11, 0x12, 0x13, 0x20] → ¬ (0x40 ≤ r.toNat ∧ r.toNat ≤ 0x4C) →
       exec (.syswr a r) s = .next s) ∧
     exec (.syswr a 0x20) s = .next (s.modTeam t.id (fun x => x.writeStatus v))) ∧
  (∀ (s : State) (n : Nat) (v : Reg) (id : TeamId),
     exec (.fairnessWrite n v) s = .next (if 4 ≤ v.toNat % 32 ∧ v.toNat % 32 ≤ 16 then
       s.modCore n (fun c => { c with fairLog := v.toNat % 32 }) else s) ∧
     exec (.mclkratioWrite n v) s = .next (if 16 ≤ v.toNat % 256 ∧ v.toNat % 256 ≤ 64 then
       s.modWheel n (fun x => { x with ratio := v.toNat % 256, pend := true }) else s) ∧
     exec (.mclkratioTake n) s = .next (if (s.wheel n).pend then
       s.modWheel n (fun x => { x with eff := x.ratio, pend := false }) else s) ∧
     exec (.statusWrite id v) s = .next (s.modTeam id (fun x => x.writeStatus v)))

/-- 1. Taking a trap: the frame's bytes go to the group's frame slot by its translation, the group is in trap mode for the
receiving path, whose threads stand at the vector, and latch liveness is cleared; every register keeps its value. The frame
holds `RESUMEPC`, the cause, the detail, the address, `AUX`, s8 and s9 at the offsets of TF1 (R297, R299, R300).

2. `TRAP`, with no trap of a lower cause to be taken first, takes `SOFTWARE`: outside trap mode, with a segment for it and
a frame slot that translates, the group is in trap mode, its current path is the vector, its threads that executed the word
stand there, and every register keeps its value; the frame has the code in `AUX` and `RESUMEPC` after the chain group. Where a
wait of the chain group has blocked one of its threads, or a trap of a lower cause can be taken outside a latch run, `SOFTWARE`
is pending behind that (R298, R299, R300, R307). -/
def Obligations.TrapEntry : Prop :=
  (∀ (s : State) (id : GrpId) (t : Team) (g : Group) (l : Launch) (seg : Nat × Option Nat) (ps : List Part) (path : Mask)
     (x : Trap) (pc : VAddr),
     s.team? id.team = some t → s.grp? id = some g → s.launch? id.team = some l → g.trapMask = none →
     let s0 := s.countTrap g.core t.space x
     s0.segmentFor id.team x.cause = some seg →
     let bs := s0.frameBytes t g id x pc l.lr2
     bs.length = (if l.lr2 then 128 else 64) ∧ field bs 0 8 = pc.toNat ∧ field bs 8 1 = x.cause % 256 ∧
     field bs 9 1 = x.detail % 256 ∧ field bs 16 8 = x.addr % 2 ^ 64 ∧ field bs 24 8 = x.aux % 2 ^ 64 ∧
     field bs 32 8 = (g.sreg 8).toNat ∧ field bs 40 8 = (g.sreg 9).toNat ∧
     (s0.xlatElem g.core t.space (l.frame id.team.idx id.grp) bs.length .write = .ok ps →
     let s1 := (s0.crossing ps).storeElem g.core false false ps bs
     (s.takeTrap id path x pc).mem = s1.mem ∧
     ∃ g', (s.takeTrap id path x pc).grp? id = (s1.grp? id).map g' ∧
       ∀ y, (g' y).trapMask = some path ∧ (g' y).trapCause = x.cause ∧
         (g' y).cur = some (BitVec.ofNat 56 (seg.1 + 128 * x.cause)) ∧ (g' y).s = y.s ∧ (g' y).joins = y.joins ∧
         ∀ k th, y.threads[k]? = some th → ∃ th', (g' y).threads[k]? = some th' ∧ th'.v = th.v ∧ th'.p = th.p ∧
           (∀ b ∈ th'.lat, b.live = false) ∧
           th'.pc = if path.getLsbD k then BitVec.ofNat 56 (seg.1 + 128 * x.cause) else th.pc)) ∧
  (∀ (s : State) (t : Team) (g : Group) (code : BitVec 8), s.Issues t g →
     let x : Trap :=
       { cause := 13, detail := 0, slot := s.iss.slot, flags := 0, level := 0xFF, addr := 0,
         aux := code.toNat, mask := s.iss.mask, word := s.iss.word }
     let lower := g.trapMask = none ∧ s.inRun t.space g = false ∧ ∃ y, s.nextTrap s.iss.grp g = some y ∧ y.cause < 13
     (¬ lower → (∀ k, k < g.width → s.iss.mask.getLsbD k = true → (g.thread k).runnable = true) →
       exec (.trap code) s = .next (s.takeTrap s.iss.grp s.iss.mask x s.iss.next)) ∧
     (¬ lower → (∀ k, k < g.width → s.iss.mask.getLsbD k = true → (g.thread k).runnable = true) →
       ∀ (l : Launch) (seg : Nat × Option Nat) (ps : List Part), g.trapMask = none →
         s.launch? s.iss.grp.team = some l → s.segmentFor s.iss.grp.team 13 = some seg →
         let bs := s.frameBytes t g s.iss.grp x s.iss.next l.lr2
         s.xlatElem g.core t.space (l.frame s.iss.grp.team.idx s.iss.grp.grp) bs.length .write = .ok ps →
         field bs 0 8 = s.iss.next.toNat ∧ field bs 8 1 = 13 ∧ field bs 24 8 = code.toNat ∧
         ∃ s' g', exec (.trap code) s = .next s' ∧
           s'.mem = ((s.crossing ps).storeElem g.core false false ps bs).mem ∧
           s'.grp? s.iss.grp = some g' ∧ g'.trapMask = some s.iss.mask ∧ g'.trapCause = 13 ∧
           g'.cur = some (BitVec.ofNat 56 (seg.1 + 128 * 13)) ∧ g'.s = g.s ∧
           ∀ k th, s.iss.mask.getLsbD k = true → g.threads[k]? = some th → ∃ th', g'.threads[k]? = some th' ∧
             th'.pc = BitVec.ofNat 56 (seg.1 + 128 * 13) ∧ th'.v = th.v ∧ th'.p = th.p) ∧
     (∀ k, k < g.width → s.iss.mask.getLsbD k = true → (g.thread k).runnable = false →
       exec (.trap code) s = .next (s.modGrp s.iss.grp (fun y => y.pend x))) ∧
     (lower → exec (.trap code) s = .next (s.modGrp s.iss.grp (fun y => y.pend x))))

/-- A trap in trap mode is a double trap: the team is reported with both causes, and it is gone; where writes of a record of its
channels have still to be performed it stays until they are, with every thread exited and nothing of it pending (R237, R299, R354). -/
def Obligations.DoubleTrap : Prop :=
  ∀ (s : State) (id : GrpId) (t : Team) (g : Group) (l : Launch) (m path : Mask) (x : Trap) (pc : VAddr),
    s.team? id.team = some t → s.grp? id = some g → s.launch? id.team = some l → g.trapMask = some m → t.lost = false →
    s.losses.length < 16 →
    (s.takeTrap id path x pc).losses = s.losses ++ [⟨id.team, g.trapCause, x.cause⟩] ∧
    ((∀ c ∈ t.chans, c.act = none) → (s.takeTrap id path x pc).team? id.team = none) ∧
    ∀ t', (s.takeTrap id path x pc).team? id.team = some t' →
      t'.lost = true ∧ ∀ g' ∈ t'.groups, g'.traps = [] ∧ g'.waits = [] ∧ g'.trapMask = none ∧ ∀ th ∈ g'.threads, th.st = .exited

/-- `TRET` outside a system segment, or outside trap mode, is `ILLEGAL_OP`, detail 6. In trap mode it is the return: the frame is
loaded from its slot; s8 and s9 take their saved values, the receiving path's threads that have not exited run from `RESUMEPC`, and
nothing of the device changes but what the load itself does and the group (R61, R299, R307). A frame of a poisoned page, or with an
uncorrectable byte, is loaded as zeros: the model's choice (notes/assumptions/39.md). -/
def Obligations.ReturnFromTrap : Prop :=
  ∀ (s : State) (t : Team) (g : Group), s.Issues t g →
    ((s.iss.sys = false ∨ g.trapMask = none) → exec .tret s = .next (s.trapNow (s.wordTrap 2 6 0 0xFF 0))) ∧
    (∀ m l ps, s.iss.sys = true → g.trapMask = some m → s.launch? s.iss.grp.team = some l →
      let n := if l.lr2 then 128 else 64
      s.xlatElem g.core t.space (l.frame s.iss.grp.team.idx s.iss.grp.grp) n .read = .ok ps →
      let r := s.frameRead g.core n ps
      let q := (s.crossing ps).loadParts g.core false ps
      (q.2.2 = 0 → r = (q.1, q.2.1)) ∧ (q.2.2 ≠ 0 → r.2 = List.replicate n 0) ∧
      ∃ s' g', exec .tret s = .next s' ∧ SameBut r.1 s' s.iss.grp ∧ s'.grp? s.iss.grp = some g' ∧ g'.trapMask = none ∧
        (g.s.length = 64 → g'.sreg 8 = BitVec.ofNat 64 (field r.2 32 8) ∧ g'.sreg 9 = BitVec.ofNat 64 (field r.2 40 8) ∧
          ∀ k, k < 8 ∨ 16 ≤ k → g'.sreg k = g.sreg k) ∧
        ∀ k th, m.getLsbD k = true → g.threads[k]? = some th → ∃ th', g'.threads[k]? = some th' ∧ th'.v = th.v ∧
          (th.st ≠ .exited → th'.st = .runnable ∧ th'.pc = BitVec.ofNat 56 (field r.2 0 8)))

/-! ## The streamer (R229 to R245) -/

/-- 1. `COPYGO`, a release at core scope: an address of 0 or one that is no multiple of 64 is `REJECTED`, whatever the channel does; on a
running channel it waits, or X = 0 times out; else the channel runs from the record at s[P], with no record completed, and stands in
its vat's ring (R173, R241, R242). That `REJECTED` and `TIMEOUT` carry the channel word is the model's choice
(notes/assumptions/43.md).

2. `COPYWAIT`, `CHANSTAT` and `COPYCANCEL`: what they report of the channel word; that a wait on a running channel waits, or times out
with X = 0; and that a cancel of a channel whose record has not been read stops it with reason 1, while one of a record under way
asks it to stop and waits for that (R241, R243 to R245). That `COPYCANCEL`'s `TIMEOUT` carries the channel word is the model's choice
(notes/assumptions/43.md). -/
def Obligations.CopyWords : Prop :=
  (∀ (s : State) (t : Team) (g : Group) (e : EF) (ch : Fin 4),
     s.EReady t g [e.p.toNat] → t.chans.length = 4 →
     let c := t.chan ch.val
     let p := (g.sreg e.p.toNat).toNat
     (p = 0 ∨ p % 64 ≠ 0 → exec (.copygo e ch) s = .next (s.putStatus e.q stRejected c.word)) ∧
     (p ≠ 0 → p % 64 = 0 → c.st = 1 → exec (.copygo e ch) s =
       .next (if e.x = 0 then s.putStatus e.q stTimeout c.word else s.block [e.p.toNat] [e.q.toNat] e.x none c.word)) ∧
     (p ≠ 0 → p % 64 = 0 → c.st ≠ 1 → s.Released t g 3 →
       ∃ s', exec (.copygo e ch) s = .next s' ∧ s.Wrote s' g e.q (statusVal stOk (16 * (c.reason % 16) + 1)) ∧
         s'.mem = (s.relScope g.core 3 t.paired).mem ∧
         (∃ t' n, s'.team? t.id = some t' ∧ t'.chan ch.val = ⟨1, va56 p, 0, c.reason, false, false, some s.issuer, none, n⟩ ∧
           ∀ k, k ≠ ch.val → t'.chan k = t.chan k) ∧
         ∃ x ∈ (s'.vat (vatOf t.core)).ring, x.team = t.id ∧ x.ch = ch.val)) ∧
  (∀ (s : State) (t : Team) (g : Group) (q : BitVec 6) (x : BitVec 5) (ch : Fin 4), s.EReady t g [] →
     t.chans.length = 4 →
     let c := t.chan ch.val
     let s1 := s.modChan t.id ch.val (fun c => { c with cancel := true })
     c.word = c.recs % 2 ^ 24 * 2 ^ 8 + c.reason % 16 * 2 ^ 4 + c.st % 4 ∧
     exec (.chanstat q ch) s = .next (s.putStatus q stOk c.word) ∧
     (c.st = 0 → exec (.copywait q x ch) s = .next ((s.putStatus q stOk c.word).acquire t g 2)) ∧
     (c.st ≠ 0 → c.st ≠ 1 → exec (.copywait q x ch) s = .next (s.putStatus q stRejected c.word)) ∧
     (c.st = 1 → exec (.copywait q x ch) s =
       .next (if x = 0 then s.putStatus q stTimeout c.word else s.block [] [q.toNat] x none c.word)) ∧
     (c.st ≠ 1 → exec (.copycancel q x ch) s = .next (s.putStatus q stOk c.word)) ∧
     (c.st = 1 → c.act = none → ∃ s', exec (.copycancel q x ch) s = .next s' ∧ s.SameMem s' ∧
       s.Wrote s' g q (statusVal stOk (c.recs % 2 ^ 24 * 2 ^ 8 + 18)) ∧
       ∃ t', s'.team? t.id = some t' ∧ (t'.chan ch.val).st = 2 ∧ (t'.chan ch.val).reason = 1) ∧
     (c.st = 1 → c.act ≠ none → exec (.copycancel q x ch) s =
       .next (if x = 0 then s1.putStatus q stTimeout c.word
         else (s1.keepBlock (leBytes 8 c.gen)).block [] [q.toNat] x none c.word)))

/-- 1. The start of a record: a running channel whose record cannot be read stops with reason 4; one whose `OWN` is 0 becomes
idle; where the record's control word and the shapes it names are served, a malformed record stops the channel with reason 4, also
one that breaks the shapes it keeps from its last stop, and a contiguous record between memory addresses without a completion
starts, at `DONE` bytes (R230 to R232, R234, R237, R239).

2. The end of a record: with every element moved, its count is applied and its control word is written, the channel has completed
one record more, and it goes to the next record, or becomes idle at `NEXT` = 0; a cancel stops the record under way with reason 1.
Neither comes before the record's writes have been performed and its control word is served, nor a count that its place does not
take yet (R232, R235 to R237, R240, R245). -/
def Obligations.Records : Prop :=
  (∀ (s : State) (t : TeamId) (tm : Team) (ch : Nat), s.team? t = some tm → tm.loc = .resident → ch < tm.chans.length →
     let c := tm.chan ch
     let by_ := c.issuer tm
     c.st = 1 → c.act = none → c.cancel = false → s.vaHeld tm.core tm.space (va56 c.recAddr) 64 .read = false →
     let stops := ∃ s' t', exec (.transferRecordStart t ch) s = .next s' ∧ s'.team? t = some t' ∧
       (t'.chan ch).st = 2 ∧ (t'.chan ch).reason = 4
     (∀ f, s.readVA by_ tm.core tm.space (va56 c.recAddr) 64 = .error f →
       stops ∧ ∀ s', exec (.transferRecordStart t ch) s = .next s' → s.SameMem s') ∧
     ∀ s1 bs, s.readVA by_ tm.core tm.space (va56 c.recAddr) 64 = .ok (s1, bs) →
       (field bs 56 8 % 2 = 0 → ∃ s' t', exec (.transferRecordStart t ch) s = .next s' ∧ s.SameMem s' ∧
         s'.team? t = some t' ∧ (t'.chan ch).st = 0) ∧
       (field bs 56 8 % 2 = 1 → s.ctlHeld tm c.recAddr = false → s.shapeHeld tm (field bs 24 8) = false →
         s.shapeHeld tm (field bs 32 8) = false →
         let bad := recBad bs (((s1.launch? t).map (·.gang)).getD false)
         (bad = true → stops) ∧
         (∀ f, bad = false → s1.fixedFor tm.space c.recAddr bs = some f →
           shapesBad (field bs 40 4) (fld (field bs 56 8) 32 32) f.sshape f.dshape = true → stops) ∧
         (bad = false → s1.fixedFor tm.space c.recAddr bs = none → field bs 56 8 % 32 = 1 → field bs 24 8 = 0 →
           field bs 32 8 = 0 →
           ∃ s' t', exec (.transferRecordStart t ch) s = .next s' ∧ s.SameMem s' ∧ s'.team? t = some t' ∧
             (t'.chan ch).st = 1 ∧
             (t'.chan ch).act = some
               { next := field bs 0 8, src := field bs 8 8, dst := field bs 16 8, sshape := none, dshape := none,
                 sva := 0, dva := 0, count := field bs 40 4, esize := 1, moved := fld (field bs 56 8) 32 32, sscr := false,
                 dscr := false, ctype := 0, target := field bs 48 8, tpa := 0, entries := [] }))) ∧
  (∀ (s : State) (t : TeamId) (tm : Team) (ch : Nat) (x : Xfer), s.team? t = some tm → ch < tm.chans.length →
     (tm.chan ch).act = some x →
     let va := va56 ((tm.chan ch).recAddr + 56)
     (∀ s2, x.total ≤ x.moved → (tm.chan ch).cancel = false → s.countHeld t x = false → s.chanBusy tm (tm.chan ch) = false →
       ((s.freeEntries x.entries).recordCount t x).writeVA tm.core tm.space va (leBytes 8 x.doneCtl) = .ok s2 →
       ∃ s' t', exec (.transferRecordComplete t ch) s = .next s' ∧ s'.mem = s2.mem ∧ s'.team? t = some t' ∧
         (t'.chan ch).recs = (tm.chan ch).recs + 1 ∧ (t'.chan ch).act = none ∧
         (if x.next = 0 then (t'.chan ch).st = 0 else
           (t'.chan ch).st = (tm.chan ch).st ∧ (t'.chan ch).recAddr = va56 x.next)) ∧
     ((tm.chan ch).cancel = true → s.chanBusy tm (tm.chan ch) = false → ∀ s2,
       s.writeVA tm.core tm.space va (leBytes 8 (stopCtl (x.doneCtl + 1) (x.moved * x.esize) 1)) = .ok s2 →
       ∃ s' t', exec (.transferRecordStop t ch) s = .next s' ∧ s'.mem = s2.mem ∧ s'.team? t = some t' ∧
         (t'.chan ch).st = 2 ∧ (t'.chan ch).reason = 1 ∧ (t'.chan ch).act = none) ∧
     (s.chanBusy tm (tm.chan ch) = true →
       exec (.transferRecordComplete t ch) s = .next s ∧ exec (.transferRecordStop t ch) s = .next s) ∧
     (s.countHeld t x = true → exec (.transferRecordComplete t ch) s = .next s))

/-! ## Barriers and waits (R156 to R159) -/

/-- 1. One update of a barrier object in a pinned window: it is applied to the object as the cycle's earlier updates left it; the
object reads back as the cycle's one examination leaves it, with the phase advanced where nothing is awaited, and a later update
of the cycle finds it unexamined (R157). That a refused update is followed by the same examination is the model's reading
(notes/assumptions/41.md).

2. The `BAR` words on an object in reach: `BARINIT` sets it up for 1 to 65,535 arrivals, keeping the phase; `BARARRIVE`, a
release at the object's scope, counts max(1, v) arrivals; `BAREXPECT` adds v to the pending bytes; `BARTEST` is `OK`, an
acquire, when the phase differs from v (R156 to R158). A refused update changes nothing itself; that the object is examined after it
as after any other is the model's reading (notes/assumptions/41.md), and that a `BARINIT` which finds another update in its cycle
waits is its choice (notes/assumptions/46.md). -/
def Obligations.Barriers : Prop :=
  (∀ (s : State) (a : ScrAt) (t : Team), s.Inv → s.team? a.team = some t → t.pinned = true →
     let seen := fun (b : Barrier) => if b.arr = 0 ∧ b.bytes = 0 then ⟨0, b.expect, b.expect, b.phase + 1⟩ else b
     (∀ f : Barrier → Barrier, (f (s.barNow a)).expect < 2 ^ 16 → (f (s.barNow a)).arr < 2 ^ 16 →
       (s.barUpdate a f).barrier a = seen (f (s.barNow a)) ∧ (s.barUpdate a f).barNow a = f (s.barNow a) ∧
       s.SameMem (s.barUpdate a f)) ∧
     (s.barExamine a).barrier a = seen (s.barNow a) ∧ s.SameMem (s.barExamine a) ∧
     (s.barBusy a = false → s.barNow a = s.barrier a)) ∧
  (∀ (s : State) (t : Team) (g : Group) (p q : BitVec 6) (a : ScrAt), s.EReady t g [p.toNat] →
     let r := g.sreg p.toNat
     let v := r.toNat / 2 ^ 32
     fld r.toNat 23 9 = 0 → s.scrAt t.id (r.toNat % 2 ^ 32) 16 = .ok a → r.toNat % 16 = 0 →
     s.inRange a.team a.off 16 = false → s.winHeld a.team a.off 16 = false →
     let b := s.barNow a
     (s.barBusy a = false → exec (.barinit p q) s = .next (if 1 ≤ v ∧ v ≤ 65535 then
       (s.barUpdate a (fun b => ⟨0, v, v, b.phase⟩)).putStatus q stOk b.phase.toNat
       else (s.barExamine a).putStatus q stRejected b.phase.toNat)) ∧
     (s.barBusy a = true → exec (.barinit p q) s = .next { s with iss := { s.iss with stalled := some .busy } }) ∧
     (exec (.barexpect p q) s = .next
       ((s.barUpdate a (fun b => { b with bytes := b.bytes + BitVec.ofNat 64 v })).putStatus q stOk b.phase.toNat)) ∧
     (exec (.bartest p q) s = .next (if b.phase.toNat ≠ v then
       (s.putStatus q stOk b.phase.toNat).acquire t g (scrScope r.toNat) else s.putStatus q stBusy b.phase.toNat)) ∧
     (let s1 := s.relScope g.core (scrScope r.toNat) t.paired
      let b1 := s1.barNow a
      s.Released t g (scrScope r.toNat) →
       exec (.bararrive p q) s = .next (if max v 1 ≤ b1.arr then
         (s1.barUpdate a (fun b => { b with arr := b.arr - max v 1 })).putStatus q stOk b1.phase.toNat
         else (s1.barExamine a).putStatus q stOverrun b1.phase.toNat)))

/-- 1. `BARWAIT` and `MWAIT`: where the word differs from v they end at once, `OK`, as an acquire; else they block, keeping their
operand and watching the word, and X = 0 times out; a misaligned address is `MISALIGNED`, with nothing done.

2. A blocked `BARWAIT` or `MWAIT`: the first value that differs from v and that a write left at its word ends it with `OK` and
that value; while no write has left one it goes on, but for the value it has examined last; once its limit has passed so, it ends
with `TIMEOUT` and the value last examined. Either end runs its threads again, and writes its status unless a later word has written
the register. A write of the window is what shows the wait a value (R51, R71, R159). -/
def Obligations.Waits : Prop :=
  (∀ (s : State) (t : Team) (g : Group) (e : EF) (a : ScrAt) (n : Nat) (i : Instr),
     (i = .barwait e ∧ n = 16 ∨ i = .mwait e ∧ n = 4) → s.EReady t g [e.p.toNat] →
     let r := g.sreg e.p.toNat
     let v := r.toNat / 2 ^ 32
     fld r.toNat 23 9 = 0 → s.scrAt t.id (r.toNat % 2 ^ 32) n = .ok a →
     (r.toNat % n ≠ 0 → exec i s = .next (s.trapNow (s.wordTrap 7 0 (r.toNat % 2 ^ 32) 0xFF 0))) ∧
     (r.toNat % n = 0 → s.inRange a.team a.off n = false → s.winHeld a.team a.off n = false →
       let now := s.waitVal a n
       (now ≠ v → exec i s = .next ((s.putStatus e.q stOk now).acquire t g (scrScope r.toNat))) ∧
       (now = v → exec i s = .next (if e.x = 0 then s.putStatus e.q stTimeout now
         else s.block [e.p.toNat] [e.q.toNat] e.x (s.watchOf e.p) now)))) ∧
  ((∀ (s : State) (gid : GrpId) (k : Nat) (t : Team) (g : Group) (w : WaitRec) (e : EF) (i : Instr) (x : WordWatch),
     s.team? gid.team = some t → s.grp? gid = some g → t.loc = .resident → s.isDet gid.team = false →
     g.waitOf k = some w → w.serial = false → w.id ≠ 0 → i = .mwait e ∨ i = .barwait e → decodeWord w.word = .ok i →
     w.watch = some (.word x) →
     let ends := fun (i : Instr) (code : Nat) (v : Word) =>
       ∃ s' g', exec i s = .next s' ∧ s.SameMem s' ∧ s'.grp? gid = some g' ∧ (∀ y ∈ g'.waits, y.id ≠ w.id) ∧
         g'.s = (g.landS w.id e.q.toNat (statusVal code v.toNat)).s ∧
         ∀ (j : Nat) (th : Thread), g.threads[j]? = some th → w.mask.getLsbD j = true → th.st = .blocked →
           ∃ th', g'.threads[j]? = some th' ∧ th'.st = .runnable ∧ th'.v = th.v
     (∀ v, x.seen = some v → ends (.waitConditionMet gid k) stOk v) ∧
     (x.seen = none → exec (.waitConditionMet gid k) s = .next (if w.last = x.last.toNat then s else
         s.modGrp gid (fun g => { g with waits := g.waits.map (fun y => if y.id = w.id then { y with last := x.last.toNat } else y) })) ∧
       ∀ d, w.deadline = some d → d ≤ s.nowOf gid → ends (.waitTimeout gid k) stTimeout x.last)) ∧
   ∀ (s : State) (gid : GrpId) (j : Nat) (g : Group) (w : WaitRec) (x : WordWatch) (off n : Nat),
     s.grp? gid = some g → g.waits[j]? = some w → w.watch = some (.word x) → x.off < off + n → off < x.off + 4 → x.seen = none →
     (∀ y ∈ s.allWaits, ∀ tm o r, y.2.watch ≠ some (.slot tm o r)) →
     let now : Word := BitVec.ofNat 32 (s.winNat x.team x.off 4)
     ∃ g' w', (s.examine x.team off n).grp? gid = some g' ∧ g'.waits[j]? = some w' ∧
       w'.watch = some (.word { x with last := now, seen := if now ≠ x.val then some now else none }) ∧ w'.id = w.id)

/-! ## Loads, stores and atomics (R151 to R155, R171, R172, R301) -/

/-- 1. `LDS` and `ATOMS` on elements in reach: every element is read, in increasing thread order, with what is uncorrectable as
zero, and the results are extended by the load's type, in every destination form; where nothing is uncorrectable, nor the slot in which
a queue's data cross, they are the window's bytes. The atomics' elements are performed in increasing thread order (R146, R153 to R155).

2. What the results of a load whose elements were all performed change: in the active threads the destination's registers,
each with its word, and nothing else of the device, no byte of memory. -/
def Obligations.ScratchLoads : Prop :=
  (∀ (s : State) (t : Team) (g : Group) (d : Os) (m : MAddr),
     let beats := beatsOf g.width s.iss.mask
     (∀ (ty : MemTy) (l : List (Elem × ScrAt)),
       s.MReady t g (d.run ty.regs ++ m.x.vregs) m.x.vregs (m.s.toNat :: m.x.sregs) (popsOf [m.x]) d.queue →
       s.scrElems t.id ty.size 1 (g.elems s.iss.mask s.iss.lit m ty.size) = .ok l →
       (∀ x ∈ l, s.inRange x.2.team x.2.off ty.size = false ∧ s.winHeld x.2.team x.2.off ty.size = false) →
       let r := (s.popAll beats (popsOf [m.x])).scrLoads g (s.isDet t.id) ty d.queue.isSome l
       exec (.lds ty d m) s = .next ((r.1.results t beats (d.run ty.regs) d.queue r.2 [] 0).poisonGate s t g) ∧
       (s.isDet t.id = false → (∀ x ∈ l, s.winBadIn x.2.team x.2.off ty.size = false) →
         (d.queue = none ∨ s.slotBad s.issuer g.core = none) →
         r.2 = l.map (fun x => (x.1.t, loadWords ty (s.winRead x.2.team x.2.off ty.size))) ∧
         (s.slotCausal = [] → r.1 = s.popAll beats (popsOf [m.x])))) ∧
     ∀ (op : AtomOp) (l : List (Elem × ScrAt)), s.iss.wid = 0 →
       s.MReady t g (atomRegs op d ++ m.x.vregs) (atomRegs op d ++ m.x.vregs) (m.s.toNat :: m.x.sregs) (popsOf [m.x]) none →
       s.scrElems t.id 4 4 (g.elems s.iss.mask s.iss.lit m 4) = .ok l →
       (∀ x ∈ l, s.inRange x.2.team x.2.off 4 = false ∧ s.winHeld x.2.team x.2.off 4 = false) → s.isDet t.id = false →
       let r := (s.popAll beats (popsOf [m.x])).atomScr op (s.atomElems g op d m) l
       exec (.atoms op d m) s = .next ((r.1.results t beats (d.run 1) none r.2 [] 0).poisonGate s t g) ∧
       ∀ x, l = [x] → s.winBadIn x.2.team x.2.off 4 = false →
         r.2 = [(x.1.t, [BitVec.ofNat 32 (s.winNat x.2.team x.2.off 4)])] ∧
         r.1 = (s.popAll beats (popsOf [m.x])).winStore x.2.team x.2.off (leBytes 4
           (atomOp op (BitVec.ofNat 32 (s.winNat x.2.team x.2.off 4)) (atomArgs g op d x.1.t).1 (atomArgs g op d x.1.t).2).toNat)) ∧
  (∀ (s : State) (t : Team) (g : Group) (beats regs : List Nat) (vals : List (Nat × List Word)) (load : Nat),
     s.Issues t g → regs.Nodup →
     SameBut s (s.results t beats regs none vals [] load) s.iss.grp ∧
     ∃ g', (s.results t beats regs none vals [] load).grp? s.iss.grp = some g' ∧
       Group.SameButThreads g g' s.iss.mask (fun i th th' =>
         { th' with v := th.v, pend := th.pend } = th ∧
         (∀ n, n ∉ regs → th'.vreg n = th.vreg n) ∧
         ∀ (k n : Nat) (w : Word), regs[k]? = some n → n < th.v.length → (wordsOf vals i)[k]? = some w → th'.vreg n = w))

/-- `STS` on elements in reach, outside a `det` node: the bytes it stores are at their places when no two places overlap;
every other byte of every window, every byte of memory and every register keeps its value. Excepted are the bytes of a slot that a
blocked `SLOTWAIT` watches, which the store may end (R153, R154, R325). -/
def Obligations.ScratchStore : Prop :=
  ∀ (s : State) (t : Team) (g : Group) (ty : MemTy) (d : Os) (m : MAddr) (l : List (Elem × ScrAt)),
    s.MReady t g (d.run ty.regs ++ m.x.vregs) (d.run ty.regs ++ m.x.vregs) (m.s.toNat :: (d.sregs ++ m.x.sregs))
      (popsOf [d, m.x]) none →
    s.isDet t.id = false →
    s.scrElems t.id ty.size 1 (g.elems s.iss.mask s.iss.lit m ty.size) = .ok l →
    (∀ x ∈ l, s.inRange x.2.team x.2.off ty.size = false) →
    (∀ x ∈ l, ∃ y, s.team? x.2.team = some y ∧ y.pinned = true) → s.Inv →
    ∃ s', exec (.sts ty d m) s = .next s' ∧ s.SameMem s' ∧
      (∃ g', s'.grp? s.iss.grp = some g' ∧ g'.s = g.s ∧ g'.threads = g.threads) ∧
      (∀ (id : TeamId) (y : Team) (a : Nat), s.team? id = some y → ¬ s.SlotWatched id a →
        (∀ x ∈ l, ¬ x.2.covers ty.size id a) → ∃ y', s'.team? id = some y' ∧ y'.win.read a = y.win.read a) ∧
      (l.Pairwise (fun x y => ∀ a, ¬ (x.2.covers ty.size y.2.team a ∧ y.2.covers ty.size y.2.team a)) →
        ∀ x ∈ l, (∀ a, x.2.covers ty.size x.2.team a → ¬ s.SlotWatched x.2.team a) →
          s'.winRead x.2.team x.2.off ty.size = storeBytes g s.iss.lit ty d x.1.t)

/-- `LD` and `ATOM` outside trap mode on elements that all translate and wait for nothing: each element is performed, in
increasing thread order, and the results are written, present, in every destination form. One element of a `DIR` page, with no
byte of it uncorrectable, gives the coherent bytes (R139, R151, R153, R154, R171, R172). -/
def Obligations.MemoryLoads : Prop :=
  ∀ (s : State) (t : Team) (g : Group) (d : Os) (m : MAddr), g.trapMask = none →
    (s.core g.core).replay.length ≤ Config.replayQ →
    let beats := beatsOf g.width s.iss.mask
    (∀ (ty : MemTy) (h : Bool),
      s.MReady t g (d.run ty.regs ++ m.x.vregs) m.x.vregs (m.s.toNat :: m.x.sregs) (popsOf [m.x]) d.queue →
      let x := s.sortElems g.core t.space s.iss.grp .read ty.size (g.elems s.iss.mask s.iss.lit m ty.size)
      x.bad = [] → x.first = none → s.pageBusy g x false = false →
      let r := (s.tick.popAll beats (popsOf [m.x])).loadAll g (s.isDet t.id && ty != .prv) ty h d.queue.isSome x.ok
      exec (.ld ty d m h) s = .next (r.1.results t beats (d.run ty.regs) d.queue r.2 [] s.fresh) ∧
      r.2.map (·.1) = x.ok.map (·.1.t) ∧
      ∀ e p, x.ok = [(e, [p])] → s.isDet t.id = false → p.x.poison = false → p.x.memside = false → p.x.attr = 0 →
        s.anyBad p.x.pa p.n = false → (d.queue = none ∨ s.slotBad s.issuer g.core = none) →
        r.2 = [(e.t, loadWords ty (s.physReadN p.x.pa p.n))]) ∧
    ∀ op : AtomOp, s.iss.wid = 0 →
      s.MReady t g (atomRegs op d ++ m.x.vregs) (atomRegs op d ++ m.x.vregs) (m.s.toNat :: m.x.sregs) (popsOf [m.x]) none →
      let es := g.elems s.iss.mask s.iss.lit m 4
      let x := s.sortElems g.core t.space s.iss.grp .write 4 es
      s.isDet t.id = false → misaligned es 4 = none → x.bad = [] → x.first = none → s.pageBusy g x true = false →
      s.atomBusy x = false →
      let r := (s.tick.popAll beats (popsOf [m.x])).atomAll g op (s.atomElems g op d m) x.ok
      exec (.atom op d m) s = .next (r.1.results t beats (d.run 1) none r.2 [] s.fresh)

/-- `ST` outside trap mode and outside a `det` node, on elements that all translate and wait for nothing, completes; every
byte of memory but those it stores to, those that its core's dirty `SELFINV` bytes may reach as lines leave the L1, and those
whose dirty copy is lost as uncorrectable, keeps its value, and so does every window. One element of a `DIR` page that no home
holds up, with no subscription live, reads back as the bytes stored (R76, R139, R153, R154, R198, R363). -/
def Obligations.MemoryStore : Prop :=
  ∀ (s : State) (t : Team) (g : Group) (ty : MemTy) (d : Os) (m : MAddr) (h : Bool), g.trapMask = none →
    (s.core g.core).replay.length ≤ Config.replayQ →
    s.MReady t g (d.run ty.regs ++ m.x.vregs) (d.run ty.regs ++ m.x.vregs) (m.s.toNat :: (d.sregs ++ m.x.sregs))
      (popsOf [d, m.x]) none →
    s.isDet t.id = false →
    let x := s.sortElems g.core t.space s.iss.grp .write ty.size (g.elems s.iss.mask s.iss.lit m ty.size)
    x.bad = [] → x.first = none → s.pageBusy g x true = false → s.Inv →
    ∃ s', exec (.st ty d m h) s = .next s' ∧
      (∀ a, (∀ e ∈ x.ok, ¬ s.StoredAt e.2 a) → ¬ s.WrittenBack g.core a → ¬ s.Lost a → s'.mem.read a = s.mem.read a) ∧
      (∀ (id : TeamId) (y : Team), s.team? id = some y → ∃ y', s'.team? id = some y' ∧ y'.win = y.win) ∧
      (∃ g', s'.grp? s.iss.grp = some g' ∧ g'.s = g.s ∧ g'.threads = g.threads) ∧
      ∀ e p, x.ok = [(e, [p])] → p.x.poison = false → p.x.memside = false → p.x.attr = 0 → s.subs = [] →
        s.migrations = [] → (∀ i, i < p.n → s.writeLocked (p.x.pa + i) = false ∧ s.fenced (p.x.pa + i) = false) →
        s'.physReadN p.x.pa p.n = storeBytes g s.iss.lit ty d e.t

/-- 1. Faulting elements of a load outside trap mode park, one replay entry for each beat that has some, with the
fault of its own first failing thread, and a `PAGE_FAULT` is pending at the group; with no room in the queue the word traps at once, with `NOTPARKED`.

2. `LOAD_COMPLETE`: the oldest load word of a core that has no element outstanding completes: nothing of it is owed any more, and
where it fills a queue its entry is pushed there; with none such, nothing changes. `WALK_COMPLETE`: a walk for a space of a team on the
core, none of whose entries waits, leaves its valid entries cached and the uncorrectable ones that it has read counted; one for another
space, or that waits, changes nothing. No byte of memory changes (R151, R191, R203, R256, R363). -/
def Obligations.LoadFaults : Prop :=
  (∀ (s : State) (t : Team) (g : Group) (ty : MemTy) (d : Os) (m : MAddr) (h : Bool) (f : PFault) (a : Nat),
     g.trapMask = none →
     s.MReady t g (d.run ty.regs ++ m.x.vregs) m.x.vregs (m.s.toNat :: m.x.sregs) (popsOf [m.x]) d.queue →
     let x := s.sortElems g.core t.space s.iss.grp .read ty.size (g.elems s.iss.mask s.iss.lit m ty.size)
     x.first = some (f, a) → s.pageBusy g x false = false →
     (Config.replayQ < (s.core g.core).replay.length + x.beats.length →
       exec (.ld ty d m h) s = .next (s.trapNow (s.wordTrap 8 f.detail a f.level 4))) ∧
     ((s.core g.core).replay.length + x.beats.length ≤ Config.replayQ →
       ∃ s' g' ps, exec (.ld ty d m h) s = .next s' ∧
         (s'.core g.core).replay = (s.core g.core).replay ++ ps ∧ ps.map (·.beat) = x.beats ∧
         (∀ p ∈ ps, p.kind = .load ty ∧ p.grp = s.iss.grp ∧ p.cause = 8 ∧ p.addr = (x.beatFault p.beat).2 ∧
           p.detail = (x.beatFault p.beat).1.detail ∧ p.level = (x.beatFault p.beat).1.level) ∧
         s'.grp? s.iss.grp = some g' ∧ ∃ y ∈ g'.traps, y.cause = 8)) ∧
  (∀ (s : State) (core space va : Nat),
     ((s.core core).loads.find? (fun r => r.left == 0) = none → exec (.loadComplete core) s = .next s) ∧
     (∀ r, (s.core core).loads.find? (fun r => r.left == 0) = some r →
       ∃ s', exec (.loadComplete core) s = .next s' ∧ s.SameMem s' ∧ r ∉ (s'.core core).loads ∧
         (∀ g, s'.grp? r.grp = some g → ∀ th ∈ g.threads, ∀ x ∈ th.pend, x.2 ≠ r.id) ∧
         ∀ n t g y, r.q = some n → s.team? r.grp.team = some t → s.grp? r.grp = some g →
           let p := t.pushTarget r.grp.grp n
           s.grp? ⟨r.grp.team, p.1⟩ = some y → ∃ y', s'.grp? ⟨r.grp.team, p.1⟩ = some y' ∧
             y'.q = (y.pushQ (beatsOf g.width r.mask) p.2
               (fun j => ((r.vals.find? (fun x => x.1 == j)).map (·.2)).getD 0)).q) ∧
     let here := s.teams.any (fun t => t.space == space && t.pinned && (t.core == core || (t.paired && t.core + 1 == core)))
     (here = true → s.walkWaits core space (va56 va) = false → ∃ s', exec (.walkComplete core space va) s = .next s' ∧
       s' = (s.countEntries core space (va56 va)).keepTrail core space (va56 va) ∧ s.SameMem s' ∧
       ∀ e ∈ s.trail core space (va56 va), (s.cached core e.space e.level (va56 va)).isNone = true → e ∈ (s'.core core).tlb) ∧
     (here = false ∨ s.walkWaits core space (va56 va) = true → exec (.walkComplete core space va) s = .next s))

/-! ## Fences and maintenance (R160 to R170, R181, R182, R200, R246, R295) -/

/-- 1. `FENCE`: at thread scope, and in a `det` node, nothing changes. Else it has its cache effect: of a kind that releases, at a scope
that covers the core, the core's dirty `SELFINV` bytes go home, where no page migrates, and only such bytes and copies lost as
uncorrectable change memory; of one that acquires no clean `SELFINV` byte stays; at a lower scope, no cache changes. It holds, outside
trap mode, the group's later M and E words while an access of the group that it orders is parked (R165, R166, R170, R363).

2. `FETCHBAR` empties the group's stream and loop buffers and its latches are no longer live; `RCFENCE` and `TLBFENCE` of
the whole space leave none of the space's shape records, or cached translations, in scope; `MSFENCE` keeps every register
and every byte of memory, and waits while a home holds a `MEMSIDE` store of its core for the host (R182, R200, R246, R281, R295,
R352). -/
def Obligations.Fences : Prop :=
  (∀ (s : State) (t : Team) (g : Group) (k : Kind) (sc : BitVec 3), s.MReady t g [] [] [] [] none →
     (sc = 0 ∨ s.isDet t.id = true → exec (.fence k sc) s = .next s) ∧
     (sc ≠ 0 → s.isDet t.id = false → (k ≠ .acq → (s.fenceDo t g k sc.toNat).unflushed g.core = false) →
       ∃ s' g', exec (.fence k sc) s = .next s' ∧ s'.grp? s.iss.grp = some g' ∧
         { g' with hold := g.hold, after := g.after, waits := g.waits } = g ∧
         (k = .acq → s.SameMem s') ∧
         (∀ a, ¬ s.WrittenBack g.core a → ¬ s.Lost a → s'.mem.read a = s.mem.read a) ∧
         (coreScope sc.toNat t.paired = true →
           (k ≠ .acq → (∀ m ∈ s.migrations, m.switched = true) → ∀ b ∈ (s'.core g.core).self, b.dirty = false) ∧
           (k ≠ .rel → ∀ b ∈ (s'.core g.core).self, b.dirty = true)) ∧
         (coreScope sc.toNat t.paired = false → s'.cores = s.cores ∧ s.SameMem s') ∧
         ∀ p ∈ (s'.core g.core).replay, p.grp = s.iss.grp → p.isAccess = true → (k = .acq → p.reads = true) →
           g.trapMask = none → s'.held g' = some .parked)) ∧
  (∀ (s : State) (t : Team) (g : Group), s.MReady t g [] [] [] [] none →
     (∃ s' g', exec .fetchbar s = .next s' ∧ s.SameMem s' ∧ s'.grp? s.iss.grp = some g' ∧ g'.stream = [] ∧ g'.s = g.s ∧
       (∀ th ∈ g'.threads, ∀ l ∈ th.lat, l.live = false) ∧ 
         ∀ b ∈ (s'.core g.core).loopBufs, b.owner = s.iss.grp → b.packets = []) ∧
     (∀ ar, (s.stackHeldBy g.core = true → exec (.msfence ar) s = .next { s with iss := { s.iss with stalled := some .busy } }) ∧
       (s.stackHeldBy g.core = false → ∃ s', exec (.msfence ar) s = .next s' ∧ SameBut s s' s.iss.grp ∧
         ∃ g', s'.grp? s.iss.grp = some g' ∧ { g' with hold := g.hold } = g)) ∧
     ∀ (sc : BitVec 3) (o : Bool), g.sPending [0] = false →
       (s.parkedStores g s.iss.grp none = false → (s.relSelf g.core).unflushed g.core = false → (s.relSelf g.core).pushIds = [] →
         ∃ s', exec (.rcfence sc ⟨0, .all, o⟩) s = .next s' ∧ s'.mem = (s.relSelf g.core).mem ∧
         ∀ v ∈ s'.vats, vatIn g.core sc.toNat v.num = true → ∀ e ∈ v.shapes, e.space ≠ t.space) ∧
       (s.parkedStores g s.iss.grp none = false → (s.cleanCore g.core).unflushed g.core = false →
         (s.cleanCore g.core).pushIds = [] → ∃ s', exec (.tlbfence sc ⟨0, .all, o⟩) s = .next s' ∧
         s'.mem = (s.cleanCore g.core).mem ∧
         ∀ c ∈ (s.cleanCore g.core).coresIn g.core sc.toNat, ∀ e ∈ (s'.core c).tlb, e.space ≠ t.space))

/-- 1. `CLEAN`, `INVAL` and `ICINV` act on each line that a core in scope holds in the range: a line of the physical pieces that its
pages give, or any line. A page that faults is a `PAGE_FAULT` at the word, with the lines of the pages before it acted on and
no other: that pages are taken in order, and that the lines of those before the faulting one have been acted on, is the model's reading
(notes/assumptions/27.md). A word whose group has a parked store in the range waits (R165, R181).

2. A clean of a core leaves no dirty byte in its L1: no `DIR` copy, and, where no page migrates, no `SELFINV` byte; memory changes at
most where dirty `SELFINV` bytes go home, and where a dirty copy is lost as uncorrectable (R181, R198, R203, R363). -/
def Obligations.CacheMaintenance : Prop :=
  (∀ (s : State) (t : Team) (g : Group) (i : Instr) (k : Maint) (sc : BitVec 3) (r : Range),
     (i = .clean sc r ∧ k = .clean ∨ i = .inval sc r ∧ k = .inval ∨ i = .icinv sc r ∧ k = .icinv) →
     s.MReady t g [] [] (rangeSregs r) [] none →
     let b := (g.range s.iss.lit r).map wholeLines
     let acted := fun (keep : Nat → Bool) => s.actAll (s.toAct k (s.coresIn g.core sc.toNat) keep)
     (s.parkedStores g s.iss.grp b = true → exec i s = .next { s with iss := { s.iss with stalled := some .parked } }) ∧
     (s.parkedStores g s.iss.grp b = false →
       (∀ keep, (b = none ∧ keep = (fun _ => true) ∨
           ∃ x ps, b = some x ∧ s.pieces g.core t.space (x.2 / 2 ^ 17 + 2) x.1 x.2 = (ps, none) ∧ keep = s.lineIn ps) →
         (acted keep).unflushed g.core = false → exec i s = .next (acted keep)) ∧
       ∀ x ps e va, b = some x → s.pieces g.core t.space (x.2 / 2 ^ 17 + 2) x.1 x.2 = (ps, some (e, va)) →
         ∃ s', exec i s = .next s' ∧
           s' = { ((acted (s.lineIn ps)).trapNow (s.wordTrap 8 e.detail va e.level 0)) with iss := s'.iss } ∧
           s'.iss.raised = some (s.wordTrap 8 e.detail va e.level 0))) ∧
  (∀ (s : State) (core : Nat),
     ((∀ m ∈ s.migrations, m.switched = true) → ∀ b ∈ ((s.cleanCore core).core core).self, b.dirty = false) ∧
     (∀ e ∈ (s.cleanCore core).stale, e.2.2 ≠ core) ∧
     ∀ a, ¬ s.WrittenBack core a → ¬ s.Lost a → (s.cleanCore core).mem.read a = s.mem.read a)

/-! ## The matrix arrays (R205 to R227) -/

/-- 1. `MXLEASE` and `MXREL`: a lease of 1 to 32 tiles is granted when so many are free, waits for them, or times out with X = 0, and is
refused to a team that has one; a release frees it, waits while something of it is outstanding, and is refused without one (R220,
R227).

2. `ORES`: a free handle is given to a descriptor that fits, with its granules; a descriptor of 0 frees the handle unless an
operation uses it; a bad descriptor, one too large, or a taken handle is `REJECTED`; a format that the device lacks is
`FORMAT_ABSENT`; with no record or too few granules free it is `BUSY` (R208, R210, R224). -/
def Obligations.MatrixWords : Prop :=
  (∀ (s : State) (t : Team) (g : Group) (e : EF) (q : BitVec 6) (x : BitVec 5), s.EReady t g [e.p.toNat] →
     let n := (g.sreg e.p.toNat).toNat
     let fit := 1 ≤ n ∧ n ≤ 32 ∧ n ≤ (s.core g.core).tiles ∧ t.lease? g.core = none
     (¬ fit → exec (.mxlease e) s = .next (s.putStatus e.q stRejected 0)) ∧
     (fit → n ≤ s.freeTiles g.core → exec (.mxlease e) s = .next
       ((s.modTeam t.id (fun t => { t with leases := t.leases ++ [⟨g.core, n, [], [], [], none⟩] })).putStatus e.q stOk n)) ∧
     (fit → s.freeTiles g.core < n → exec (.mxlease e) s =
       .next (if e.x = 0 then s.putStatus e.q stTimeout 0 else s.block [e.p.toNat] [e.q.toNat] e.x none 0)) ∧
     (t.lease? g.core = none → exec (.mxrel q x) s = .next (s.putStatus q stRejected 0)) ∧
     (∀ l, t.lease? g.core = some l → l.busy = true → exec (.mxrel q x) s =
       .next (if x = 0 then s.putStatus q stTimeout 0 else s.block [] [q.toNat] x none 0)) ∧
     ∀ l, t.lease? g.core = some l → l.busy = false →
       ∃ s' t', exec (.mxrel q x) s = .next s' ∧ s.SameMem s' ∧ s.Wrote s' g q (statusVal stOk 0) ∧
         s'.team? t.id = some t' ∧ t'.lease? g.core = none ∧ (s'.core g.core).holder ≠ some t.id) ∧
  (∀ (s : State) (t : Team) (g : Group) (p q : BitVec 6) (r : Fin 16), s.EReady t g [p.toNat] →
     let v := (g.sreg p.toNat).toNat
     let x := oresRec v r.val
     let n := x.granules (s.core g.core).halfWidth
     (t.lease? g.core = none → exec (.ores p q r) s = .next (s.putStatus q stRejected 0)) ∧
     ∀ l, t.lease? g.core = some l →
       (v = 0 → exec (.ores p q r) s = .next (if l.inUse r.val then s.putStatus q stBusy 0 else
         (s.modLease t.id g.core (fun l => { l with recs := l.recs.filter (fun x => x.handle != r.val) })).putStatus q stOk 0)) ∧
       (v ≠ 0 → (l.rec? r.val).isSome = true ∨ fld v 15 1 = 0 →
         exec (.ores p q r) s = .next (s.putStatus q stRejected 0)) ∧
       (v ≠ 0 → l.rec? r.val = none → fld v 15 1 = 1 → s.formatAbsent v = true →
         exec (.ores p q r) s = .next (s.trapNow (s.wordTrap 9 0 0 0xFF 0))) ∧
       (v ≠ 0 → l.rec? r.val = none → fld v 15 1 = 1 → s.formatAbsent v = false → oresBad v = true ∨ 256 < n →
         exec (.ores p q r) s = .next (s.putStatus q stRejected 0)) ∧
       (v ≠ 0 → l.rec? r.val = none → fld v 15 1 = 1 → s.formatAbsent v = false → oresBad v = false → n ≤ 256 →
         16 ≤ s.usedRecs g.core ∨ 256 < s.usedGran g.core + n → exec (.ores p q r) s = .next (s.putStatus q stBusy 0)) ∧
       (v ≠ 0 → l.rec? r.val = none → fld v 15 1 = 1 → s.formatAbsent v = false → oresBad v = false → n ≤ 256 →
         s.usedRecs g.core < 16 → s.usedGran g.core + n ≤ 256 →
         exec (.ores p q r) s = .next
           ((s.modLease t.id g.core (fun l => { l with recs := l.recs ++ [{ x with gran := n }] })).putStatus q stOk n)))

/-- 1. `OBLD`, a release at core scope: it starts the load of an aligned image into a record that no operation uses, and waits;
examined when the record is ready it is `OK`; where the load met a fault it is that `PAGE_FAULT`.

2. `MXGO`: a parameter block in the team's window that passes its checks is queued under its tag, with the operand bytes that
stand then; one of a tag with an operation outstanding is `BUSY`, a malformed one `REJECTED`. -/
def Obligations.MatrixOps : Prop :=
  (∀ (s : State) (t : Team) (g : Group) (e : EF) (r : Fin 16) (l : Lease) (x : ORec),
     s.Issues t g → g.sPending [e.p.toNat] = false → s.isDet t.id = false → s.Released t g 3 →
     t.lease? g.core = some l → l.rec? r.val = some x →
     let s1 := s.relScope g.core 3 t.paired
     let p := (g.sreg e.p.toNat).toNat
     (s.iss.mode = .issue → s.iss.wid = 0 → s.held g = none →
       (p % 64 ≠ 0 → exec (.obld e r) s = .next (s1.putStatus e.q stRejected 0)) ∧
       (p % 64 = 0 → l.inUse r.val = true → exec (.obld e r) s = .next (s1.putStatus e.q stBusy 0)) ∧
       (p % 64 = 0 → l.inUse r.val = false →
         let s2 := s1.modLease t.id g.core (fun l => l.modRec r.val (fun y =>
           { y with st := 1, src := va56 p, by_ := some s.issuer, flt := none, image := [] }))
         exec (.obld e r) s =
           .next (if e.x = 0 then s2.putStatus e.q stTimeout 0 else s2.block [e.p.toNat] [e.q.toNat] e.x none 0))) ∧
     (s.iss.mode = .examine → x.st = 2 → exec (.obld e r) s = .next (s1.putStatus e.q stOk 0)) ∧
     (s.iss.mode = .examine → x.st ≠ 2 → ∀ d lv a, x.flt = some (d, lv, a) →
       exec (.obld e r) s = .next (s.trapNow (s.wordTrap 8 d a lv 0)))) ∧
  (∀ (s : State) (t : Team) (g : Group) (e : EF) (tag : Fin 4) (a : ScrAt) (l : Lease), s.EReady t g [e.p.toNat] →
     let p := (g.sreg e.p.toNat).toNat
     let bs := s.winRead a.team a.off 128
     p < 2 ^ 23 → s.scrAt t.id p 128 = .ok a → t.lease? g.core = some l →
     s.winHeld a.team a.off 128 = false → s.winBadIn a.team a.off 128 = false →
     (p % 128 ≠ 0 → exec (.mxgo e tag) s = .next (s.trapNow (s.wordTrap 7 0 p 0xFF 0))) ∧
     (p % 128 = 0 → field bs 16 1 ≤ 4 → s.cap1.getLsbD (capFmt (field bs 16 1)) = true →
       (mxBlock t g.core l bs tag.val s.issuer = none → exec (.mxgo e tag) s = .next (s.putStatus e.q stRejected 0)) ∧
       ∀ b, mxBlock t g.core l bs tag.val s.issuer = some b →
         ((l.tag? tag.val).any MxTag.out = true → exec (.mxgo e tag) s = .next (s.putStatus e.q stBusy 0)) ∧
         ((l.tag? tag.val).any MxTag.out = false → s.spanBusy t.id b.a true = false →
           b.scale.any (fun x => s.spanBusy t.id x true) = false → (s.core g.core).ranges.length + 2 ≤ Config.rangeScore →
           ∃ s' t' l' y, exec (.mxgo e tag) s = .next s' ∧ s.SameMem s' ∧ s.Wrote s' g e.q (statusVal stOk 0) ∧
             s'.team? t.id = some t' ∧ t'.lease? g.core = some l' ∧ l'.tag? tag.val = some y ∧ y.st = 1 ∧
             y.counter = field bs 21 1 ∧ l'.ats = l.ats ∧
             y.rows = (List.range y.mrows).map (fun i => s.winRead t.id (field bs 0 4 + i * field bs 4 4) b.rowBytes))))

/-- `MXWAIT`, `MXSTAT` and `MXDRAIN` on a tag of the team's lease: an outstanding operation makes a wait wait, or time out with
X = 0, with the counter; a complete one is `OK`, an acquire; a drain that fits is queued on its tag (R216, R222, R223, R226). -/
def Obligations.MatrixTags : Prop :=
  ∀ (s : State) (t : Team) (g : Group) (e : EF) (q : BitVec 6) (x : BitVec 5) (tag : Fin 4) (l : Lease) (y : MxTag)
    (a : ScrAt), s.EReady t g [e.p.toNat] →
    t.lease? g.core = some l → l.tag? tag.val = some y →
    let n := y.counter % 2 ^ 16
    (y.out = true → exec (.mxwait q x tag) s =
      .next (if x = 0 then s.putStatus q stTimeout n else s.block [] [q.toNat] x none n)) ∧
    (y.st = 3 → exec (.mxwait q x tag) s = .next ((s.putStatus q stOk n).acquire t g 2)) ∧
    (y.st = 0 ∨ y.st = 5 → exec (.mxwait q x tag) s = .next (s.putStatus q stRejected n)) ∧
    (∀ k : Fin 16, k.val = tag.val → g.sreg e.p.toNat = 0 →
      exec (.mxstat e.p q k) s = .next (s.putStatus q stOk (y.st + y.counter % 2 ^ 16 * 2 ^ 8))) ∧
    let p := (g.sreg e.p.toNat).toNat
    let half := fld p 32 1 == 1
    let len := y.mrows * y.ncols * (if half then 2 else 4)
    (0 < y.mrows * y.ncols → p < 2 ^ 33 → fld p 23 9 = 0 → p % 64 = 0 → fld p 22 1 = 0 → y.st ≠ 5 →
      s.scrAt t.id (fld p 0 23) (max 1 len) = .ok a → t.inPart g.core a.off (a.off + len - 1) = true → y.drain = none →
      s.spanBusy t.id (a.off, a.off + len - 1) false = false → (s.core g.core).ranges.length < Config.rangeScore →
      ∃ s' t' l' y' d, exec (.mxdrain e tag) s = .next s' ∧ s.SameMem s' ∧ s.Wrote s' g e.q (statusVal stOk 0) ∧
        s'.team? t.id = some t' ∧ t'.lease? g.core = some l' ∧ l'.tag? tag.val = some y' ∧ y'.drain = some d ∧
        d.target = a.off ∧ d.bf16 = half ∧ y'.st = if y.st = 3 then 4 else y.st)

/-- What a K-step does to the accumulators: element (i, j) of the operation takes its step's value from its own old value
alone, with the operands that are uncorrectable as zero, every other accumulator keeps its value, and the list stays rising. -/
def Obligations.MatrixCommit : Prop :=
  ∀ (x : MxTag) (r : ORec) (ats : List (Nat × Word)) (k : Nat), ats.Pairwise (fun a b => a.1 < b.1) →
    (x.commit r ats k).Pairwise (fun a b => a.1 < b.1) ∧
    (∀ i j, i < x.mrows → j < r.n → atRead (x.commit r ats k) (x.acc0 * 1024 + i * r.n + j) =
      w32 (stepElem x.afmt x.sat r (x.operand r k 0 i (x.rows.getD i [])) (x.operand r k 1 i (x.scales.getD i []))
        (x.operand r k 2 j (r.column j)) (x.operand r k 2 (128 * (j / 128)) (r.column (128 * (j / 128)))) k
        (if x.accz && k == 0 then 0 else (atRead ats (x.acc0 * 1024 + i * r.n + j)).toNat))) ∧
    ∀ n, (∀ i j, i < x.mrows → j < r.n → n ≠ x.acc0 * 1024 + i * r.n + j) → atRead (x.commit r ats k) n = atRead ats n

/-- The engine of the arrays: where an operation can start, the arbiter's choice runs and its team holds the core; a K-step
without an uncorrectable operand or port slot, or of a team without `TRAPONPOISON`, commits, and the counter advances; with one, under
`TRAPONPOISON`, the operation stops; a drain writes its elements, but for the bytes of a slot that a blocked `SLOTWAIT` watches; a load
that has read its whole image over good ports makes its record ready, and one that meets a fault does not (R16, R206, R207, R211,
R214, R217, R223, R225). How much of a port slot's data is poisoned is the model's choice (notes/assumptions/33.md). -/
def Obligations.MatrixEngine : Prop :=
  ∀ (s : State) (core : Nat) (t : Team) (l : Lease) (x : MxTag), s.team? t.id = some t → t.lease? core = some l →
    l.tag? x.tag = some x →
    (∀ new, s.canStart core = true → s.arbitrate core = some (t, l, x, new) →
      ∃ s' t' l' y, exec (.matrixOperationStart core) s = .next s' ∧ s.SameMem s' ∧ (s'.core core).holder = some t.id ∧
        s'.team? t.id = some t' ∧ t'.lease? core = some l' ∧ l'.tag? x.tag = some y ∧ y = { x with st := 2, started := s.fresh }) ∧
    (∀ r, s.running core = some (t, l, x) → l.rec? x.orec = some r →
      x.badIn r x.counter = [] ∧ (s.core core).badSlots = [] ∨ t.trapOnPoison = false →
      ∃ s' t' l' y, exec (.kStepCommit core) s = .next s' ∧ s.SameMem s' ∧
        s'.team? t.id = some t' ∧ t'.lease? core = some l' ∧ l'.tag? x.tag = some y ∧ y.counter = x.counter + 1 ∧
        l'.ats = (x.crossed (s.core core).badSlots.head?).commit r l.ats x.counter) ∧
    (∀ r, s.running core = some (t, l, x) → l.rec? x.orec = some r →
      x.badIn r x.counter ≠ [] ∨ (s.core core).badSlots ≠ [] → t.trapOnPoison = true →
      ∃ s' t' l' y, exec (.matrixOperationStop core) s = .next s' ∧ s.SameMem s' ∧
        s'.team? t.id = some t' ∧ t'.lease? core = some l' ∧ l'.tag? x.tag = some y ∧ y.st = 5 ∧ y.drain = none ∧
        l'.ats = l.ats) ∧
    (∀ d, x.drain = some d → x.st = 4 → t.pinned = true →
      let bs := drainBytes l.ats x.acc0 (x.mrows * x.ncols) d.bf16
      ∃ s' t' l' y, exec (.drainRun t.id core x.tag) s = .next s' ∧ s.SameMem s' ∧
        (s.Inv → (∀ k, k < bs.length → ¬ s.SlotWatched t.id (d.target + k)) → s'.winRead t.id d.target bs.length = bs) ∧
        s'.team? t.id = some t' ∧ t'.lease? core = some l' ∧ l'.tag? x.tag = some y ∧ y.st = 3 ∧ l'.ats = l.ats) ∧
    ∀ (r : Nat) (z : ORec), l.rec? r = some z → z.st = 1 → t.pinned = true → (s.core core).badSlots = [] →
      let total := z.slot * z.n
      let got := State.readPages (z.by_.getD { team := t.id, grp := 0, mask := 0, slot := 3, word := 0, pc := 0 }) core t.space
        z.src total ((List.replicate z.n z.units).flatten) (total / 2 ^ 17 + 2) s z.image
      ∃ s' t' l' y, exec (.obldLoadFinish t.id core r) s = .next s' ∧ s.SameMem s' ∧
        s'.team? t.id = some t' ∧ t'.lease? core = some l' ∧ l'.rec? r = some y ∧
        (got.2.2 = none → total ≤ got.2.1.length → y = { z with st := 2, image := got.2.1 }) ∧
        (got.2.2 ≠ none → y.st = (if t.obldWaits core r then 4 else 3) ∧ y.image = [])

/-! ## Tasks, counters, deques and queues (R248 to R267) -/

/-- `TSPAWN`, a release at device scope: a launch that passes its checks and finds a free entry is in the pool of the core's
wheel, ready unless its dependence counter stands above zero, and s[Q] gives its instance id; a refused launch is
`REJECTED` with the reason; a misaligned record is `MISALIGNED`; with no free entry it waits, keeping the launch it has checked, or times
out with X = 0 (R250, R262, R268, R278). -/
def Obligations.TaskSpawn : Prop :=
  ∀ (s : State) (t : Team) (g : Group) (e : EF), s.EReady t g [e.p.toNat] → s.Released t g 6 →
    let s1 := s.relScope g.core 6 t.paired
    let va := va56 (g.sreg e.p.toNat).toNat
    (va % 64 ≠ 0 → exec (.tspawn e) s = .next (s.trapNow (s.wordTrap 7 0 va 0xFF 0))) ∧
    ∀ s2 bs, va % 64 = 0 → g.trapMask = none → s1.ReadsRecord t g va s2 bs → s2.launchHeld g.core bs = false →
      (∀ s3 k, s2.checkLaunch s2.issuer g.core bs = .refuse s3 k →
        exec (.tspawn e) s = .next (s3.putStatus e.q stRejected k)) ∧
      ∀ s3 l, s2.checkLaunch s2.issuer g.core bs = .ok s3 l →
        (s3.poolFree (wheelOf g.core) = false → exec (.tspawn e) s = .next (if e.x = 0 then
          (s3.keepSpawn l).putStatus e.q stTimeout 0 else (s3.keepSpawn l).block [e.p.toNat] [e.q.toNat] e.x none 0)) ∧
        (s3.poolFree (wheelOf g.core) = true →
          (∀ k, s3.enterNode g.core (wheelOf g.core) l = .refuse k →
            exec (.tspawn e) s = .next (s3.putStatus e.q stRejected k)) ∧
          ∀ s4 id, s3.enterNode g.core (wheelOf g.core) l = .ok s4 id →
            exec (.tspawn e) s = .next (s4.putStatus e.q stOk id) ∧
            ∃ n ∈ s4.nodes, n.id = id ∧ n.wheel = wheelOf g.core ∧ n.left = l.teams ∧ n.next = 0 ∧
              (n.ready = true ↔ n.l.dep = none ∨ ∃ pa, n.l.dep = some pa ∧ s3.ctrCount pa = 0))

/-- 1. A decrement at a counter's home: `COUNT` falls by the amount, and one larger than `COUNT` changes nothing; at zero a
waiting node becomes ready and `WAITER` reads 0; no other byte of memory changes (R249).

2. `TDEC`, a release at device scope, and `TWAIT`, an acquire when it is `OK`: what they report of the counter at s[P]; of a counter
on a poisoned page `TDEC` is `OVERRUN`, of one on a `MEMSIDE` page or with a reserved bit `REJECTED`; a `TWAIT` of one above zero waits,
watching it, or times out with its `COUNT`. An engine's decrement of 1 to 16 reaches the counter's home, and one that finds it too small,
or a poisoned page, is counted and dropped; an uncorrectable counter reads zero and is counted, and met as poison by a word (R189, R249,
R261, R263, R363). -/
def Obligations.Counters : Prop :=
  (∀ (s : State) (pa a : Nat), s.Inv →
     (∀ i, i < 16 → s.fwd (pa + i) = pa + i ∧ s.writeLocked (pa + i) = false ∧ s.fenced (pa + i) = false ∧
       ∀ b, s.Lost b → lineOf b ≠ lineOf (pa + i) ∧ ∀ r ∈ s.regions, r.has (pa + i) = true → r.has b = false) →
     let r := s.decrement pa a
     (s.ctrCount pa < a → r = (s, none)) ∧
     (a ≤ s.ctrCount pa → r.2 = some (s.ctrCount pa - a) ∧ r.1.ctrCount pa = s.ctrCount pa - a ∧
       (∀ b, (b < pa ∨ pa + 4 ≤ b) → (b < pa + 8 ∨ pa + 12 ≤ b) → r.1.mem.read b = s.mem.read b) ∧
       (s.ctrCount pa = a → s.ctrWaiter pa ≠ 0 → r.1.ctrWaiter pa = 0 ∧
         ∀ n ∈ r.1.nodes, n.id = s.ctrWaiter pa → n.ready = true))) ∧
  (∀ (s : State) (t : Team) (g : Group) (e : EF) (n : Fin 16) (x : Xlat), s.EReady t g [e.p.toNat] →
     let va := va56 (g.sreg e.p.toNat).toNat
     let s1 := s.relScope g.core 6 t.paired
     va % 16 = 0 →
     (s.Released t g 6 → s1.translate g.core t.space va .write = .ok x →
       (x.poison = false → s1.lineHeld x.pa = false → s1.ctrBusy x.pa = false →
         (x.memside = true ∨ s1.ctrReserved x.pa = true → exec (.tdec e.p e.q n) s = .next (s1.putStatus e.q stRejected 0)) ∧
         (x.memside = false → s1.ctrReserved x.pa = false → s1.anyBad x.pa 4 = false →
           exec (.tdec e.p e.q n) s = .next (if n.val + 1 ≤ s1.ctrCount x.pa then
             (s1.decrement x.pa (n.val + 1)).1.putStatus e.q stOk (s1.ctrCount x.pa - (n.val + 1))
             else s1.putStatus e.q stOverrun (s1.ctrCount x.pa))) ∧
         (x.memside = false → s1.ctrReserved x.pa = false → s1.anyBad x.pa 4 = true → g.trapMask = none →
           exec (.tdec e.p e.q n) s = .next ((s1.meetPoison s1.issuer va (s1.fwd x.pa)).putStatus e.q stOverrun 0))) ∧
       (x.poison = true → x.memside = false → g.trapMask = none → exec (.tdec e.p e.q n) s = .next
         ((s1.meetPoisonPage s1.issuer g.core va).putStatus e.q stOverrun 0))) ∧
     (s.translate g.core t.space va .read = .ok x → x.poison = false → s.lineHeld x.pa = false →
       (s.anyBad x.pa 4 = true → g.trapMask = none → exec (.twait e) s =
         .next (((s.meetPoison s.issuer va (s.fwd x.pa)).putStatus e.q stOk 0).acquire t g 6)) ∧
       (s.ctrCount x.pa = 0 → s.anyBad x.pa 4 = false → exec (.twait e) s = .next ((s.putStatus e.q stOk 0).acquire t g 6)) ∧
       (s.ctrCount x.pa ≠ 0 → exec (.twait e) s = .next (if e.x = 0 then s.putStatus e.q stTimeout (s.ctrCount x.pa)
         else s.block [e.p.toNat] [e.q.toNat] e.x (some (.counter x.pa false)) (s.ctrCount x.pa)))) ∧
     ∀ pa a, s.ctrBusy pa = false → 1 ≤ a → a ≤ 16 → pa < poisonPA →
       let s2 := if s.anyBad pa 4 then s.countBad (s.fwd pa) else s
       exec (.counterDecrement pa a) s = .next
         (if a ≤ s.ctrCount pa then (s2.decrement pa a).1 else s2.count (s2.homeWheel pa) 0x48 1) ∧
       ∀ w, s.ctrBusy (poisonPA + w) = false →
         exec (.counterDecrement (poisonPA + w) a) s = .next (s.count w 0x46 1))

/-- 1. The deque words: of a deque that is not enabled they are `REJECTED`; a push with room, which is a release, a pop or a steal with an
item are performed at its unit, with the items left and the item taken, an uncorrectable item as 0 and met as poison; else they wait,
watching the deque, or time out with X = 0, with the items there are (R260, R264, R363). That the element met has address 0 is the
model's choice (notes/assumptions/35.md).

2. One operation of a deque's unit: a push is refused when the deque is full, a pop and a steal when it is empty; a pop takes
the item at `BOT` - 1, a steal the one at `TOP`, and each moves its own index; an uncorrectable byte of the descriptor and an
uncorrectable item are counted at their homes; the event performs it on an enabled deque (R259, R260, R363). -/
def Obligations.Deques : Prop :=
  (∀ (s : State) (t : Team) (g : Group) (e : EF), s.EReady t g [e.p.toNat, e.p.toNat + 1] →
     let d := (g.sreg e.p.toNat).toNat
     let x := s.deque d
     let s1 := s.relScope g.core 6 t.paired
     let no := (s.meetDeque d).putStatus e.q stRejected 0
     let waits := fun (rs qs : List Nat) => if e.x = 0 then s.putStatus e.q stTimeout x.items
       else s.block rs qs e.x (s.dequeWatch e.p) x.items
     (s.dequeOk d = false → exec (.dqpush e) s = .next no) ∧
     (s.dequeOk d = true → s.dequeHeld .push d = false → x.cap ≤ x.items →
       exec (.dqpush e) s = .next (waits [e.p.toNat, e.p.toNat + 1] [e.q.toNat])) ∧
     (s.dequeOk d = true → s.dequeHeld .push d = false → x.items < x.cap → s.Released t g 6 →
       ∀ s2 v n, s1.dequeDo .push d (g.sreg (e.p.toNat + 1)) = some (s2, v, n) →
         exec (.dqpush e) s = .next (s2.putStatus e.q stOk n)) ∧
     ∀ (op : DqOp) (i : Instr), (op = .pop ∧ i = .dqpop e ∨ op = .steal ∧ i = .dqsteal e) →
       (s.dequeOk d = false → exec i s = .next no) ∧
       (s.dequeOk d = true → ∀ s2 v n, s.dequeDo op d 0 = some (s2, some v, n) →
         exec i s = .next ((s2.putPair e.q stOk n v).acquire t g 6)) ∧
       (s.dequeOk d = true → g.trapMask = none → ∀ s2 n, s.dequeDo op d 0 = some (s2, none, n) →
         exec i s = .next ((((s2.poisonSeen t.id).poisonTrap s.issuer 0).putPair e.q stOk n 0).acquire t g 6)) ∧
       (s.dequeOk d = true → s.dequeDo op d 0 = none → s.dequeHeld op d = false →
         exec i s = .next (waits [e.p.toNat] [e.q.toNat, e.q.toNat + 1]))) ∧
  (∀ (s : State) (d : Nat) (item : Reg), let x := s.deque d
     let s1 := s.meetDeque d
     let counted := fun (pa : Nat) => if s.anyBad pa 8 then s1.countBad pa else s1
     (s.dequeOk d = true → x.items = 0 → exec (.dequeOperation .pop d item) s = .next s ∧
       exec (.dequeOperation .steal d item) s = .next s) ∧
     (s.dequeOk d = true → x.cap ≤ x.items → exec (.dequeOperation .push d item) s = .next s) ∧
     (s.dequeOk d = true → s.ctrBusy x.pa = false → x.items ≠ 0 →
       exec (.dequeOperation .pop d item) s =
         .next ((counted (x.at (x.bot - 1))).homeWriteL 0 (x.pa + 20) (leBytes 4 (x.bot - 1).toNat)) ∧
       exec (.dequeOperation .steal d item) s =
         .next ((counted (x.at x.top)).homeWriteL 0 (x.pa + 16) (leBytes 4 (x.top + 1).toNat)) ∧
       (s.anyBad (x.at (x.bot - 1)) 8 = false → ∃ r, s.dequeDo .pop d 0 =
         some (r, some (BitVec.ofNat 64 (leNat (s.physReadN (x.at (x.bot - 1)) 8))), x.items - 1)) ∧
       (s.anyBad (x.at x.top) 8 = false → ∃ r, s.dequeDo .steal d 0 =
         some (r, some (BitVec.ofNat 64 (leNat (s.physReadN (x.at x.top) 8))), x.items - 1))) ∧
     (s.dequeOk d = true → s.ctrBusy x.pa = false → s.ctrBusy (x.at x.bot) = false → x.items < x.cap →
       exec (.dequeOperation .push d item) s = .next
         ((s1.homeWriteL 0 (x.at x.bot) (leBytes 8 item.toNat)).homeWriteL 0 (x.pa + 20) (leBytes 4 (x.bot + 1).toNat))))

/-- `QBIND`: an empty queue that nothing feeds is bound to itself, to the address engine, or to a free queue of a group of the
same core and width; a descriptor with a reserved value, or that names no such group, is `REJECTED`; a queue that holds entries or that
something feeds, or a producer's queue that is not free, is `BUSY`. `QSTAT` reports the queue for selector 0 and its stream's next
iteration for selector 1, and is `REJECTED` without a stream and for a selector above 1 (R265, R267). -/
def Obligations.QueueWords : Prop :=
  ∀ (s : State) (t : Team) (g : Group) (p q : BitVec 6) (n : Fin 8), s.EReady t g [p.toNat] →
    let v := (g.sreg p.toNat).toNat
    let bound := fun k src srcQ => (s.modGrp s.iss.grp (fun g =>
      { g with q := modAt (fun x => { x with kind := k, src := src, srcQ := srcQ }) n.val g.q })).putStatus q stOk 0
    let stream := s.streamOf g s.iss.grp n.val
    let idle := (g.queue n.val).empty = true ∧ stream.any (fun x => !x.stopped) = false ∧ s.pushComing g.core s.iss.grp n.val = false
    let free := fun (y : Group) => (y.queue (fld v 8 4)).kind = .self ∧ (y.queue (fld v 8 4)).empty = true ∧
      t.consumer (fld v 4 4) (fld v 8 4) = none ∧ s.pushComing g.core ⟨t.id, fld v 4 4⟩ (fld v 8 4) = false
    (2 ^ 12 ≤ v ∨ fld v 2 2 ≠ 0 ∨ 7 < fld v 8 4 ∨ v % 4 = 3 ∨
      v % 4 = 1 ∧ (∀ y, t.groups[fld v 4 4]? = some y → y.core ≠ g.core ∨ y.width ≠ g.width) →
      exec (.qbind p q n) s = .next (s.putStatus q stRejected 0)) ∧
    (v < 2 ^ 12 → fld v 2 2 = 0 → fld v 8 4 ≤ 7 →
      (v % 4 = 0 ∨ v % 4 = 2 → ¬ idle → exec (.qbind p q n) s = .next (s.putStatus q stBusy 0)) ∧
      (idle → v % 4 = 0 → exec (.qbind p q n) s = .next (bound .self 0 0)) ∧
      (idle → v % 4 = 2 → exec (.qbind p q n) s = .next (bound .engine 0 0)) ∧
      (∀ y, v % 4 = 1 → t.groups[fld v 4 4]? = some y → y.core = g.core → y.width = g.width →
        (idle → free y → exec (.qbind p q n) s = .next (bound .group (fld v 4 4) (fld v 8 4))) ∧
        (¬ (idle ∧ free y) → exec (.qbind p q n) s = .next (s.putStatus q stBusy 0)))) ∧
    let x := g.queue n.val
    let occ := x.slices.map (·.length)
    (v = 0 → exec (.qstat p q n) s = .next (s.putStatus q stOk (
      (if stream.any (·.stopped) then 2 ^ 27 else 0) + (if stream.any (fun y => !y.stopped) then 2 ^ 26 else 0) +
      x.srcQ * 2 ^ 22 + x.src * 2 ^ 18 + (if x.kind = .self then 0 else if x.kind = .group then 1 else 2) * 2 ^ 16 +
      occ.foldl max 0 * 2 ^ 8 + occ.foldl min (occ.headD 0)))) ∧
    (∀ y, v = 1 → stream = some y → exec (.qstat p q n) s = .next (s.putStatus q stOk y.next)) ∧
    (v = 1 → stream = none → exec (.qstat p q n) s = .next (s.putStatus q stRejected 0)) ∧
    (1 < v → exec (.qstat p q n) s = .next (s.putStatus q stRejected 0))

/-- The address engine: `AAEGO`, a release at core scope, starts a well-formed stream on a queue that is bound to it;
`AAESTOP` removes it and reports its next iteration, or waits while pushes are in flight; an iteration whose loads succeed pushes one entry into each beat of the
queue, and the last one ends the stream; one that faults stops it, and pushes nothing. -/
def Obligations.AddressEngine : Prop :=
  (∀ (s : State) (t : Team) (g : Group) (e : EF) (q : BitVec 6) (x : BitVec 5) (n : Fin 8), s.EReady t g [e.p.toNat] →
    (∀ y, s.streamOf g s.iss.grp n.val = some y →
      (y.fly = none → exec (.aaestop q x n) s = .next ((s.dropStream g.core s.iss.grp n.val).putStatus q stOk y.next)) ∧
      (y.fly ≠ none →
        let s2 := s.modStream g.core s.iss.grp n.val (fun y => { y with stopping := true })
        exec (.aaestop q x n) s =
          .next (if x = 0 then s2.putStatus q stTimeout y.next else s2.block [] [q.toNat] x none y.next))) ∧
    (s.streamOf g s.iss.grp n.val = none → exec (.aaestop q x n) s = .next (s.putStatus q stRejected 0)) ∧
    let s1 := s.relScope g.core 3 t.paired
    let va := va56 (g.sreg e.p.toNat).toNat
    ∀ s2 bs y, s.Released t g 3 → va % 64 = 0 → (g.queue n.val).kind = .engine → g.trapMask = none →
      (s1.streamOf g s.iss.grp n.val).any (fun y => !y.stopped) = false → s1.Reads t g va 64 s2 bs →
      streamOfRec bs s.iss.grp n.val s1.issuer = some y →
      (s1.streamOf g s.iss.grp n.val = none → (s2.core g.core).streams.length < Config.streamSlots) →
      y.next < y.total →
      ∃ s', exec (.aaego e n) s = .next s' ∧ s'.mem = s2.mem ∧ s.Wrote s' g e.q (statusVal stOk y.total) ∧
        y ∈ (s'.core g.core).streams) ∧
  ∀ (s : State) (id : GrpId) (t : Team) (g : Group) (q : Nat) (x : Stream), s.team? id.team = some t →
    s.grp? id = some g → s.streamOf g id q = some x → x.stopped = false → x.stopping = false → t.loc = .resident →
    (g.queue q).roomAll (List.range (g.width / 16)) = true →
    (∀ s1 vs, (x.fly = none ∧ s.streamLoads t g.core x (List.range g.width) = .ok s1 vs ∨ x.fly = some vs ∧ s1 = s) →
      ∃ s' g', exec (.aaeStreamPush id q) s = .next s' ∧ s'.mem = s1.mem ∧ s'.grp? id = some g' ∧
        g'.queue q = (g.queue q).push (List.range (g.width / 16)) (fun j => vs.getD j 0) ∧
        (x.next + 1 = x.total → g.awaitsStop q = false → s'.streamOf g id q = none) ∧
        (x.next + 1 ≠ x.total → ∃ y, s'.streamOf g id q = some y ∧ y.next = x.next + 1 ∧ y.fly = none)) ∧
    ∀ c d l a, x.fly = none → s.streamLoads t g.core x (List.range g.width) = .fault c d l a →
      ∃ s' g', exec (.aaeStreamPush id q) s = .next s' ∧ s.SameMem s' ∧ s'.grp? id = some g' ∧ g'.q = g.q ∧
        ∃ y, s'.streamOf g id q = some y ∧ y.stopped = true

/-! ## Memory-side reduction (R281 to R295) -/

/-- `MSRED` and `MSATOM`: commands that lie in the window and are well formed are all queued, each counted in the `ISSUED` of its
counter, and sent as far as they can be, and s[Q] gives the last one's `ISSUED`; the first ill-formed one is `REJECTED` by its
number, with none sent; where their core's queue has no room for all, the word waits with what it has read, or times out with X = 0; a
misaligned address is `MISALIGNED`; while a command's bytes cannot be read yet the word is not ready. A poisoned word of them met in trap
mode ends the team (R152, R288, R292, R299). -/
def Obligations.MemSideWords : Prop :=
  ∀ (s : State) (t : Team) (g : Group) (e : EF) (n : Fin 16) (atom : Bool) (i : Instr) (a : ScrAt),
    (atom = false ∧ i = .msred e n ∨ atom = true ∧ i = .msatom e n) → s.EReady t g [e.p.toNat] →
    let addr := (g.sreg e.p.toNat).toNat
    s.scrAt t.id addr 32 = .ok a →
    (addr % 32 ≠ 0 → exec i s = .next (s.trapNow (s.wordTrap 7 0 addr 0xFF 0))) ∧
    (addr % 32 = 0 → s.readCmds t.id atom (n.val + 1) addr = .error none →
      exec i s = .next { s with iss := { s.iss with stalled := some .busy } }) ∧
    ∀ s1 cs, addr % 32 = 0 → s.readCmds t.id atom (n.val + 1) addr = .ok (s1, cs) →
      (∀ k, cs.findIdx? (fun x => msBad x.1 x.2) = some k →
        exec i s = .next ((s1.putStatus e.q stRejected k).poisonGate s t g)) ∧
      (cs.findIdx? (fun x => msBad x.1 x.2) = none →
        ((s1.cmdWaits.filter (fun c => c.core == g.core)).length + cs.length ≤ Config.cmdQueue →
          let s2 := s1.sendAll g.core (cs.map (·.1))
          exec i s = .next ((s2.pump.putStatus e.q stOk (((s2.team? s1.iss.grp.team).map (fun y =>
            (y.msCtr (((cs.map (·.1)).getLast?.map (·.ctgt)).getD 0)).issued.toNat)).getD 0)).poisonGate s t g) ∧
          s2.cmdWaits.map (·.spec) = s1.cmdWaits.map (·.spec) ++ cs.map (·.1) ∧ s2.jobs = s.jobs ∧ s.SameMem s2) ∧
        (Config.cmdQueue < (s1.cmdWaits.filter (fun c => c.core == g.core)).length + cs.length →
          let s2 := (s1.keepSends (cs.map (·.1))).poisonGate s t g
          exec i s = .next (if e.x = 0 then s2.putStatus e.q stTimeout 0 else s2.block [e.p.toNat] [e.q.toNat] e.x none 0)))

/-- `MSPOLL` of a counter with all its commands done is `OK`, an acquire at device scope, and else `BUSY`, with `DONE` in the high word, at
its issue and as a serial word of a `det` node (R293). `MSWAIT` is `OK`, such an acquire, once `DONE` has reached v in the sense of the
wrapping order, and else waits, or times out with X = 0 (R294). -/
def Obligations.MemSideCounters : Prop :=
  ∀ (s : State) (t : Team) (g : Group) (e : EF) (c : Fin 4),
    let x := t.msCtr c.val
    let polls := fun (g : Group) => exec (.mspoll e.q c) s = .next (if x.done = x.issued then
      (s.putStatus e.q stOk x.done.toNat).acquire t g 6 else s.putStatus e.q stBusy x.done.toNat)
    (s.EReady t g [] → polls g) ∧
    (s.Issues t g → s.iss.mode = .serial → s.iss.wid ≠ 0 → polls (g.withKept s.iss.kept)) ∧
    (s.EReady t g [e.p.toNat] →
      exec (.mswait e c) s = .next (if (x.done - (g.sreg e.p.toNat).setWidth 32).toNat < 2 ^ 31 then
          (s.putStatus e.q stOk x.done.toNat).acquire t g 6
        else if e.x = 0 then s.putStatus e.q stTimeout x.done.toNat
        else s.block [e.p.toNat] [e.q.toNat] e.x none x.done.toNat))

/-- 1. A channel performs its oldest line job: its elements in order, and one job fewer is left of its command; a command with
none left is done, once the home of its task counter serves it, and its counter's `DONE` advances by one, or its key lookup operation's
commands fall by one; a task counter is decremented by one (R281, R285 to R288, R333, R371).

2. A line job's element: a destination that can be read takes the job's value of its old value and its sources, which read
zero where they are uncorrectable, or as another job of its command has read their line; no other byte of memory changes (R285,
R286, R290, R333). -/
def Obligations.MemSideEngine : Prop :=
  (∀ (s : State) (c : MsCmd),
     (∀ chan j rest, takeJob chan s.jobs = some (j, rest) → s.jobHeld j = false →
       s.cmds.find? (fun x => x.id == j.cmd) = some c →
       let left := match c.dest with
         | .kl _ => if j.atom then rest else s.fixJobs j rest
         | .counter _ => rest
       ∃ s', exec (.lineJob chan) s = .next s' ∧ s'.jobs = left ∧ left.length = rest.length ∧
         s'.mem = (j.elems.foldl (s.jobElem c.by_ c.core j) { s with jobs := left }).mem ∧
         s'.cmds = s.cmds.map (fun x => if x.id = c.id then { x with left := x.left - 1 } else x)) ∧
     (s.cmds.find? (fun x => x.id == c.id) = some c →
       let s1 := { s with cmds := s.cmds.filter (fun x => x.id != c.id) }.countDone c.by_.team c.dest
       (c.left ≠ 0 → exec (.msCommandComplete c.id) s = .next s) ∧
       (c.left = 0 → c.tctr = none → exec (.msCommandComplete c.id) s = .next s1) ∧
       (∀ pa, c.left = 0 → c.tctr = some pa → s.ctrBusy pa = false →
         exec (.msCommandComplete c.id) s = .next (s1.engineDecr pa 1)) ∧
       ∀ k t t', c.dest = .counter k → s.team? c.by_.team = some t → k < t.ms.length →
         s1.team? c.by_.team = some t' →
         (t'.msCtr k).done = (t.msCtr k).done + 1 ∧ (t'.msCtr k).issued = (t.msCtr k).issued)) ∧
  (∀ (s0 s : State) (by_ : Issuer) (core : Nat) (j : Job) (e : JobElem), s.msBadAt e.dst 4 = false →
     Memory.wf s.mem = true →
     let v := jobValue j.atom j.zero j.op (leNat (s.stackReadN e.dst 4)) (e.srcs.map (fun x => ((s0.srcNow j.sfmt x).1, x.w)))
     let s' := s0.jobElem by_ core j s e
     s'.stackReadN e.dst 4 = leBytes 4 v ∧ ∀ a, (a < e.dst ∨ e.dst + 4 ≤ a) → s'.mem.read a = s.mem.read a)

/-! ## Standing loads (R313 to R326) -/

/-- 1. A slot written to a pinned window reads back, where no blocked `SLOTWAIT` watches its bytes, and memory keeps its bytes (R313).

2. `SLOTRD` and `SLOTWAIT` outside trap mode: a read gives the slot's status, `SEQ` and value and clears what was unread; a wait
reads an unread slot, is `NOSUB` on one without a subscription, and waits on the others, watching them; what came causally before the
value that is read comes before the reader's later writes (R178). `UNSUB` of a slot without a subscription is
`REJECTED`; of one with, it sends the end mark, frees no place before that has landed, and waits for it; where the mark has landed it
is `OK` with the slot's `SEQ` (R321, R322, R324 to R326). -/
def Obligations.Slots : Prop :=
  (∀ (s : State) (id : TeamId) (t : Team) (off : Nat) (x : Slot), s.Inv → s.team? id = some t → t.pinned = true →
     ((∀ k, k < 16 → ¬ s.SlotWatched id (off + k)) → (s.setSlot id off x).slot id off = x) ∧ s.SameMem (s.setSlot id off x)) ∧
  (∀ (s : State) (t : Team) (g : Group) (e : EF) (a : ScrAt), s.EReady t g [e.p.toNat] →
     let addr := (g.sreg e.p.toNat).toNat
     s.scrAt t.id addr 16 = .ok a → addr % 16 = 0 → s.inRange a.team a.off 16 = false → s.winHeld a.team a.off 16 = false →
     let x := s.slot a.team a.off
     (fld addr 22 1 = 1 → exec (.slotrd e.p e.q) s = .next (s.putPair e.q stRejected x.seq.toNat x.value) ∧
       exec (.slotwait e) s = .next (s.putPair e.q stRejected x.seq.toNat x.value) ∧
       exec (.unsub e) s = .next (s.putStatus e.q stRejected x.seq.toNat)) ∧
     (fld addr 22 1 = 0 →
       let s0 := s.sawSlot s.iss.grp a.team a.off 16
       let read := (s0.setSlot t.id a.off x.wasRead).putPair e.q x.status x.seq.toNat x.value
       (s.winBadIn a.team a.off 16 = false → g.trapMask = none →
         exec (.slotrd e.p e.q) s = .next read ∧
         exec (.slotwait e) s = .next (if x.unread = true then read
           else if x.live = false then s0.putPair e.q stNosub x.seq.toNat x.value
           else if e.x = 0 then s.putStatus e.q stTimeout x.seq.toNat
           else s.block [e.p.toNat] [e.q.toNat, e.q.toNat + 1] e.x (some (.slot a.team a.off none)) x.seq.toNat)) ∧
       (x.live = false → x.ending = false → exec (.unsub e) s = .next (s.putStatus e.q stRejected x.seq.toNat)) ∧
       (x.live = true → s.subs.any (fun y => decide (y.team = t.id) && y.off == a.off) = true → x.ending = false →
         let s1 := s.startUnsub t.id a.off x
         exec (.unsub e) s = .next (if e.x = 0 then s1.putStatus e.q stTimeout x.seq.toNat
           else s1.block [e.p.toNat] [e.q.toNat] e.x none x.seq.toNat) ∧
         s1.subs.length = s.subs.length ∧ ∀ y ∈ s1.subs, y.team = t.id → y.off = a.off → y.ending = true) ∧
       (x.ending = true → s.endMarkOut t.id a.off = false →
         exec (.unsub e) s = .next (s.putStatus e.q stOk x.seq.toNat))))

/-- `LDSUB` of a free slot in the team's own window: where it is refused a subscription, it is a load, `NOSUB`; else its home
entry stands, and its value is in flight to the slot and to s[Q] and s[Q + 1], which nothing may read before it lands. A slot
in use, a sibling's, or a location that crosses a line is `REJECTED` with the slot's `SEQ` and value (R314, R315, R322, R323). -/
def Obligations.Subscribe : Prop :=
  ∀ (s : State) (t : Team) (g : Group) (p q : BitVec 6) (n : Fin 8) (a : ScrAt), s.EReady t g [p.toNat, p.toNat + 1] →
    let addr := (g.sreg (p.toNat + 1)).toNat
    let va := va56 (g.sreg p.toNat).toNat
    s.scrAt t.id addr 16 = .ok a → addr % 16 = 0 → s.inRange a.team a.off 16 = false → s.winHeld a.team a.off 16 = false →
    let sl := s.slot a.team a.off
    let refused := s.putPair q stRejected sl.seq.toNat sl.value
    (fld addr 22 1 = 1 ∨ sl.live = true ∨ sl.ending = true → exec (.ldsub p q n) s = .next refused) ∧
    ∀ x, fld addr 22 1 = 0 → sl.live = false → sl.ending = false → s.translate g.core t.space va .read = .ok x →
      (128 < va % 128 + (n.val + 1) → exec (.ldsub p q n) s = .next refused) ∧
      (va % 128 + (n.val + 1) ≤ 128 → s.partBusy g ⟨x, va, n.val + 1⟩ = false → g.trapMask = none →
        (x.poison = false → ∀ k, k < n.val + 1 → (s.subClean g.core x).ownHeld g.core (x.pa + k) = false ∧
          (x.attr = 1 → ∀ b ∈ ((s.subClean g.core x).core g.core).self, b.pa = x.pa + k → b.dirty = false)) →
        let r := s.subRead g.core va x (n.val + 1)
        (s.noSub t.id x = true → exec (.ldsub p q n) s = .next
          ((r.1.setSlot t.id a.off ⟨r.2, 0, BitVec.ofNat 32 (n.val * 2 ^ 8)⟩).putPair q stNosub 0 r.2)) ∧
        (s.noSub t.id x = false → ∃ s' g' id, exec (.ldsub p q n) s = .next s' ∧ s'.mem = r.1.mem ∧
          s'.subs = s.subs ++ [⟨id, s.fwd x.pa, n.val + 1, t.id, t.coreAt a.off, a.off, false⟩] ∧
          s'.flights = r.1.flights ++
            [⟨id, t.id, a.off, r.2, .landing s.issuer q.toNat (n.val + 1), s.sliceOf (s.fwd x.pa), 0, []⟩] ∧
          s'.grp? s.iss.grp = some g' ∧ (q ≠ 0 → g'.sPending [q.toNat] = true) ∧ g'.sPending [q.toNat + 1] = true))

/-- What lands, in a slot that no blocked `SLOTWAIT` watches, and then what its landing makes room for: a push writes its value, raises `SEQ`, sets `UNREAD`, and `OVR` where the
last value was unread; a landing of `LDSUB` makes the slot live with `SEQ` 0 and writes s[Q] and s[Q + 1], unless a later word has
written them; an end mark clears `LIVE` and `ENDING` and frees the subscription's places. Each lands only behind what was sent to its
slot before it, and none that is not in flight changes anything (R71, R313, R314, R318, R321, R323). -/
def Obligations.Landings : Prop :=
  (∀ (s : State) (id : Nat), (∀ x ∈ s.flights, x.id ≠ id) → exec (.pushLand id) s = .next s ∧
    exec (.unsubEndMark id) s = .next s ∧ exec (.ldsubLanding id) s = .next s) ∧
  ∀ (s : State) (f : Flight) (t : Team), s.Inv → s.flights.find? (fun x => x.id == f.id) = some f → s.canLand f = true →
    s.team? f.team = some t → t.pinned = true → (∀ k, k < 16 → ¬ s.SlotWatched f.team (f.off + k)) →
    let x := s.slot f.team f.off
    let lands := fun (i : Instr) (y : Slot) (R : State → Prop) =>
      ∃ u, exec i s = .next u.drainPushes ∧ s.SameMem u ∧ (∀ y ∈ u.flights, y.id ≠ f.id) ∧ u.slot f.team f.off = y ∧ R u
    (f.kind = .push → lands (.pushLand f.id)
      ⟨f.value, x.seq + 1, (if x.unread then x.flags ||| 4 else x.flags) ||| 2⟩ (fun u => u.subs = s.subs)) ∧
    (f.kind = .endMark → lands (.unsubEndMark f.id) ⟨x.value, x.seq, x.flags &&& ~~~9⟩
      (fun u => ∀ y ∈ u.subs, ¬ (y.ending = true ∧ y.team = f.team ∧ y.off = f.off))) ∧
    ∀ by_ q n g, f.kind = .landing by_ q n → s.grp? ⟨by_.team, by_.grp⟩ = some g →
      lands (.ldsubLanding f.id) ⟨f.value, 0, BitVec.ofNat 32 (1 + (n - 1) * 2 ^ 8)⟩ (fun u =>
        ∃ g', u.grp? ⟨by_.team, by_.grp⟩ = some g' ∧
          g'.s = ((g.landS f.id q (statusVal stOk 0)).landS f.id (q + 1) f.value).s ∧
          (0 < q → q < 63 → g.s.length = 64 → (q, f.id) ∈ g.spend → (q + 1, f.id) ∈ g.spend →
            g'.sreg q = statusVal stOk 0 ∧ g'.sreg (q + 1) = f.value ∧ ∀ k, k ≠ q → k ≠ q + 1 → g'.sreg k = g.sreg k))

/-! ## Key lookup (R328 to R344) -/

/-- `PKTAB`: 1 reports the handle's table, 0 frees it, unless an operation names it or another node owns it; a descriptor that
fits starts a load, a release at core scope, for which the word waits, or times out with X = 0; examined once the table is ready it is
`OK` with its granules (R340, R343). -/
def Obligations.KeyTables : Prop :=
  ∀ (s : State) (t : Team) (g : Group) (e : EF) (h : Fin 16), s.Issues t g → g.sPending [e.p.toNat] = false →
    s.isDet t.id = false →
    let p := (g.sreg e.p.toNat).toNat
    let v := s.vat (vatOf g.core)
    (s.iss.mode = .issue → s.iss.wid = 0 → s.held g = none →
      (p = 1 → exec (.pktab e h) s = .next (s.putStatus e.q stOk
        (((v.table? h.val).map (fun x => x.st + x.gran * 2 ^ 8)).getD 0))) ∧
      (p = 0 → exec (.pktab e h) s = .next
        (if v.named h.val = true then s.putStatus e.q stBusy 0
         else if (v.table? h.val).any (fun x => x.node != t.id.node) = true then s.putStatus e.q stRejected 0
         else (s.freeTable (vatOf g.core) h.val).putStatus e.q stOk 0)) ∧
      (1 < p → s.Released t g 3 → va56 p % 16 ≠ 0 →
        exec (.pktab e h) s = .next ((s.relScope g.core 3 t.paired).putStatus e.q stRejected 0)) ∧
      (1 < p → s.Released t g 3 → va56 p % 16 = 0 → g.trapMask = none →
        ∀ s2 bs, let s1 := s.relScope g.core 3 t.paired
          let n := field bs 8 2 + 1
          let hd := field bs 10 2 + 1
          s1.Reads t g (va56 p) 16 s2 bs →
          va56 (field bs 0 8) % 64 = 0 → n ≤ 2048 → hd ≤ 512 → allZero bs 12 4 = true →
          (v.table? h.val).any (fun x => x.node != t.id.node) = false → v.named h.val = false →
          v.klUsed h.val + (2 * n * hd + 65535) / 65536 ≤ Config.keyGranules →
          ∃ s' x, exec (.pktab e h) s = .next s' ∧ s'.mem = s2.mem ∧ (s'.vat (vatOf g.core)).table? h.val = some x ∧
            x.st = 1 ∧ x.n = n ∧ x.hd = hd ∧ x.src = va56 (field bs 0 8) ∧ x.node = t.id.node ∧
            (e.x = 0 → s.Wrote s' g e.q (statusVal stTimeout 0)) ∧
            (e.x ≠ 0 → ∃ g' w, s'.grp? s.iss.grp = some g' ∧ w ∈ g'.waits ∧ w.mask = s.iss.mask ∧ w.word = s.iss.word))) ∧
    (s.iss.mode = .examine → s.iss.wid ≠ 0 → 1 < ((g.withKept s.iss.kept).sreg e.p.toNat).toNat →
      ∀ x, v.tables.find? (fun x => x.h == h.val) = some x →
        (x.flt = none → x.st = 2 → exec (.pktab e h) s = .next (s.putStatus e.q stOk x.gran)) ∧
        (x.flt = none → x.st = 1 → exec (.pktab e h) s = .next { s with iss := { s.iss with stalled := some .busy } }) ∧
        ∀ d lv a, x.flt = some (d, lv, a) → exec (.pktab e h) s = .next (s.trapNow (s.wordTrap 8 d a lv 0)))

/-- `PKLOOK`, `PKGRAD` and `PKWAIT`: a block of two ready tables of the node, alike, that passes its checks is queued at its vat
under its tag, and s[Q] gives its place, the operation that the engine still serves counted; an invalid block is `REJECTED`, and a tag in
use is `BUSY`. A wait on a complete operation is `OK`, an acquire; on one under way it waits, or times out with X = 0 (R335, R341,
R342, R344).
That a block is read once, at its word, is the model's reading (notes/assumptions/26.md). -/
def Obligations.KeyLookups : Prop :=
  ∀ (s : State) (t : Team) (g : Group) (e : EF) (q : BitVec 6) (x : BitVec 5) (tag : Fin 4) (i : Instr) (grad : Bool)
    (a : ScrAt) (y z : KlTable) (b c : ScrAt), s.EReady t g [e.p.toNat] →
    (let k := t.klTag tag.val
     (k.busy = true → exec (.pkwait q x tag) s =
       .next (if x = 0 then s.putStatus q stTimeout k.st else s.block [] [q.toNat] x none k.st)) ∧
     (k.st = 4 → exec (.pkwait q x tag) s = .next ((s.putStatus q stOk 4).acquire t g 6)) ∧
     (k.st = 0 ∨ k.st = 5 → exec (.pkwait q x tag) s = .next (s.putStatus q stRejected k.st))) ∧
    let p := (g.sreg e.p.toNat).toNat
    let bs := s.winRead a.team a.off 128
    let v := s.vat (vatOf g.core)
    (grad = false ∧ i = .pklook e tag ∨ grad = true ∧ i = .pkgrad e tag) →
    s.klScr t.id p 128 128 = .ok a → s.winHeld a.team a.off 128 = false → s.winBadIn a.team a.off 128 = false →
    v.table? (field bs 8 1) = some y → v.table? (field bs 9 1) = some z → y.st = 2 → z.st = 2 →
    y.node = t.id.node → z.node = t.id.node → y.n = z.n → y.hd = z.hd →
    (grad = true ∨ s.klScr t.id (field bs 0 4) (4 * y.hd) 64 = .ok b) → s.klScr t.id (field bs 4 4) 2560 64 = .ok c →
    (klBad grad bs y.n = true → exec i s = .next (s.putStatus e.q stRejected 0)) ∧
    (klBad grad bs y.n = false → (t.klTag tag.val).busy = true → exec i s = .next (s.putStatus e.q stBusy 0)) ∧
    (klBad grad bs y.n = false → (t.klTag tag.val).busy = false → v.queued < Config.klQueue →
      tag.val < t.kl.length → (∀ core, (s.core core).ranges.length + 4 ≤ Config.rangeScore) →
      ∃ s' t' o, exec i s = .next s' ∧ s.SameMem s' ∧ s.Wrote s' g e.q (statusVal stOk v.queued) ∧
        (s'.vat (vatOf g.core)).klq = v.klq ++ [o] ∧ o.grad = grad ∧ o.tag = tag.val ∧ o.k = field bs 10 1 ∧
        o.tab1 = field bs 8 1 ∧ o.tab2 = field bs 9 1 ∧ s'.team? t.id = some t' ∧ t'.klTag tag.val = ⟨1, 0, none⟩)

/-- The key lookup engine: a finished load makes its table ready; the operation at the head of the queue leaves it as it is
served, and a lookup without a gather and without a counter then has no command outstanding; an operation with none
outstanding is complete, and its task counter is decremented by one (R330, R333, R337, R340, R344, R371). -/
def Obligations.KeyEngine : Prop :=
  (∀ (s : State) (vat h : Nat) (t : KlTable), (s.vat vat).table? h = some t → t.st = 1 →
    (∀ y ∈ (s.vat vat).tables, y.h = h → y = t) →
    let total := 2 * t.n * t.hd
    let got := State.readPages t.by_ (4 * vat) t.space t.src total (plainUnits (t.n * t.hd) 2) (total / 2 ^ 17 + 2) s t.data
    ∃ s', exec (.klTableLoadFinish vat h) s = .next s' ∧ s.SameMem s' ∧
      (got.2.2 = none → total ≤ got.2.1.length → (s'.vat vat).table? h = some { t with st := 2, data := got.2.1 }) ∧
      (got.2.2 ≠ none → s.pktabWaits vat h t.node = true → (s'.vat vat).table? h = none)) ∧
  (∀ (s : State) (vat : Nat) (o : KlOp) (rest : List KlOp) (t : Team) (y z : KlTable), (s.vat vat).klq = o :: rest →
    s.team? o.team = some t → (s.vat vat).table? o.tab1 = some y → (s.vat vat).table? o.tab2 = some z →
    t.pinned = true → (s.vat vat).sends = [] → s.klWaits o = false → s.klHeld t o y.hd = false →
    (∀ a, s.scrAt o.team o.o 2560 = .ok a → ∃ y, s.team? a.team = some y ∧ y.pinned = true) →
    ∃ s', exec (.klAccept vat) s = .next s' ∧ (s'.vat vat).klq = rest ∧
      (o.grad = false → o.nogather = true → o.tc = false → o.tag < t.kl.length → s.SameMem s' ∧
        ∃ t', s'.team? o.team = some t' ∧ t'.klTag o.tag = ⟨3, 0, none⟩)) ∧
  ∀ (s : State) (id : TeamId) (t : Team) (tag : Nat), s.team? id = some t → tag < t.kl.length →
    (t.klTag tag = ⟨3, 0, none⟩ → ∃ s' t', exec (.klOperationComplete id tag) s = .next s' ∧ s.SameMem s' ∧
      s'.team? id = some t' ∧ t'.klTag tag = ⟨4, 0, none⟩) ∧
    ∀ pa, t.klTag tag = ⟨3, 0, some pa⟩ → s.ctrBusy pa = false → ∃ s1 t', exec (.klOperationComplete id tag) s =
      .next (s1.engineDecr pa 1) ∧ s.SameMem s1 ∧ s1.team? id = some t' ∧ t'.klTag tag = ⟨4, 0, some pa⟩

/-! ## Replay, contexts, shootdowns, migrations, collectives -/

/-- `REPLAY`: privileged, and `REJECTED` outside trap mode and on a selection that names no entry; `go` performs the selected
entries oldest first, waits for one that cannot be performed now, and reports how many the group still has; `drop` removes them; `list` writes 32 bytes for each (R61, R308).
What the high word reports of a refused one, and the order of the entries, are the model's readings (notes/assumptions/16.md). -/
def Obligations.ReplayWords : Prop :=
  ∀ (s : State) (t : Team) (g : Group) (e : EF), s.EReady t g [e.p.toNat] →
    let ps := (s.core g.core).parksOf s.iss.grp
    let v := (g.sreg e.p.toNat).toNat
    (∀ i, (i = .replayGo e ∨ i = .replayDrop e.p e.q ∨ i = .replayList e.p e.q) →
      (s.iss.sys = false → exec i s = .next (s.trapNow (s.wordTrap 2 6 0 0xFF 0))) ∧
      (s.iss.sys = true → g.trapMask = none → exec i s = .next (s.putStatus e.q stRejected 0))) ∧
    (s.iss.sys = true → g.trapMask ≠ none →
      (selectParks v ps = none → exec (.replayGo e) s = .next (s.putStatus e.q stRejected ps.length) ∧
        exec (.replayDrop e.p e.q) s = .next (s.putStatus e.q stRejected ps.length)) ∧
      (∀ sel, selectParks v ps = some sel →
        (let s1 := (s.selectGo g.core sel).replayOn g.core t.space s.iss.grp
          let left := (s1.core g.core).parksOf s.iss.grp
          (left.any (fun p => p.go && p.sel) = false → exec (.replayGo e) s = .next (s1.replayed g.core e.q) ∧
            s.Wrote (s1.replayed g.core e.q) g e.q
              (statusVal (if left.any (fun p => p.sel && p.again) then stRejected else stOk) left.length)) ∧
          (left.any (fun p => p.go && p.sel) = true → exec (.replayGo e) s = .next
            (if e.x = 0 then s1.putStatus e.q stTimeout left.length
              else s1.block [e.p.toNat] [e.q.toNat] e.x none left.length))) ∧
        ∃ s', exec (.replayDrop e.p e.q) s = .next s' ∧ s.SameMem s' ∧
          ∀ p ∈ (s'.core g.core).replay, ∀ y ∈ sel, p.id ≠ y.id) ∧
      (va56 v % 32 ≠ 0 → exec (.replayList e.p e.q) s = .next (s.putStatus e.q stRejected 0)) ∧
      ∀ l, va56 v % 32 = 0 →
        s.xlatElem g.core t.space (va56 v) (ps.flatMap Park.listing).length .write = .ok l → l.any s.partHeld = false →
        exec (.replayList e.p e.q) s = .next
          ((s.storeElem g.core false false l (ps.flatMap Park.listing)).putStatus e.q stOk ps.length))

/-- `CTXSAVE` and `CTXLOAD`: privileged; a save is `REJECTED` outside trap mode, and else starts and blocks its threads, a `PREEMPT` of the
team pending; when its team is at rest and the stores of its cores have been performed the team is off its cores, saved or held; a load of
a sealed image of a held team, or of one that has been copied here, makes it ready, at once where it may not wait (R163, R297, R309 to
R311, R356). That the save raises the `PREEMPT` as it starts, and what becomes of a copied image, are the model's readings
(notes/assumptions/18.md, notes/assumptions/47.md). -/
def Obligations.Contexts : Prop :=
  (∀ (s : State) (t : Team) (g : Group) (e : EF), s.EReady t g [e.p.toNat] →
    let v := (g.sreg e.p.toNat).toNat
    let va := va56 v
    (s.iss.sys = false → exec (.ctxsave e) s = .next (s.trapNow (s.wordTrap 2 6 0 0xFF 0)) ∧
      exec (.ctxload e) s = .next (s.trapNow (s.wordTrap 2 6 0 0xFF 0))) ∧
    (s.iss.sys = true →
      (g.trapMask = none ∨ 2 ≤ v → exec (.ctxsave e) s = .next (s.putStatus e.q stRejected 0)) ∧
      (g.trapMask ≠ none → v < 2 → t.loc = .resident → e.x ≠ 0 ∨ s.saveReady t s.iss.grp.grp = true →
        exec (.ctxsave e) s = .next
          (((s.modTeam t.id (fun t => { t with loc := .saving (v % 2 == 1), saver := some (s.iss.grp.grp, e.q.toNat) })).modGrp
            t.eventGroup (fun g => g.pend (outerTrap 14 0))).block [e.p.toNat] [e.q.toNat] (if e.x = 0 then 31 else e.x) none 0)) ∧
      (g.trapMask ≠ none → v < 2 → t.loc = .resident → e.x = 0 → s.saveReady t s.iss.grp.grp = false →
        exec (.ctxsave e) s = .next (s.putStatus e.q stTimeout 0)) ∧
      (s.heldTeam g.core t.space va = none → exec (.ctxload e) s = .next (s.putStatus e.q stRejected 0)) ∧
      (s.heldTeam g.core t.space va ≠ none → e.x ≠ 0 →
        exec (.ctxload e) s = .next (s.block [e.p.toNat] [e.q.toNat] e.x none 0)) ∧
      ∀ h l, s.heldTeam g.core t.space va = some (h, l) → e.x = 0 →
        (s.vaHeld g.core t.space va l.ctxLen .write = true → exec (.ctxload e) s = .next (s.putStatus e.q stTimeout 0)) ∧
        ∀ s1, s.vaHeld g.core t.space va l.ctxLen .write = false →
          s.writeVA g.core t.space (va56 (va + 12)) (leBytes 1 1) = .ok s1 → s.team? h.id = none ∨ h.imported = false →
          ∃ s' h', exec (.ctxload e) s = .next s' ∧ s'.team? h.id = some h' ∧ h'.loc = .saved ∧
            (h.imported = false → h'.chans = h.chans))) ∧
  ∀ (s : State) (id : TeamId) (t : Team) (l : Launch) (hold : Bool) (j q : Nat), s.team? id = some t →
    s.launch? id = some l → t.loc = .saving hold → t.saver = some (j, q) → s.saveReady t j = true →
    ((s.flushTeam t).teamUnflushed t = true → exec (.contextSaveComplete id) s = .next (s.flushTeam t)) ∧
    ((s.flushTeam t).teamUnflushed t = false → ∃ s', exec (.contextSaveComplete id) s = .next s' ∧
      ∀ t', s'.team? id = some t' → t'.lost = false → t'.loc = (if hold then .held else .saved) ∧ t'.saver = none ∧
        ∀ c ∈ s'.cores, ∀ p ∈ c.replay, p.grp.team ≠ id)

/-- 1. `SHOOT`: privileged; a release, it queues a shootdown and waits; when nothing of it is left it is `OK`, an acquire; a
shootdown's first step leaves no cached entry that it hits in any core, and no dirty byte, where no migration holds writes back, and the
shootdown completes when what it waits for has been performed (R20, R61, R201).

2. `MIGRATE`: privileged, a misaligned or malformed block is `REJECTED`, and a page that meets one in flight, or a ninth
migration, is `BUSY`; else its lines are locked and copied: the new page holds the old page's bytes, and no other byte changes. A
wait on a switched migration is `OK`, an acquire, and `end` ends it. The switch writes the leaf entry, and no other byte changes
where no write is held; while the home of the entry holds writes, or a copy waits for the host, nothing switches (R202, R203, R352).
That the page is copied as its lines are locked, and which blocks are refused beyond R202's list, are the model's readings
(notes/assumptions/21.md). -/
def Obligations.ShootMigrate : Prop :=
  ((∀ (s : State) (t : Team) (g : Group) (e : EF) (sz : ShootSize), s.Issues t g →
     (s.iss.mode = .issue → s.iss.wid = 0 → g.sPending [e.p.toNat] = false → s.held g = none →
       (s.iss.sys = false → exec (.shoot e sz) s = .next (s.trapNow (s.wordTrap 2 6 0 0xFF 0))) ∧
       (s.iss.sys = true → s.Released t g 6 → e.x ≠ 0 →
         ∃ s' x, exec (.shoot e sz) s = .next s' ∧ s'.shoots = s.shoots ++ [x] ∧ x.space = t.space ∧ x.size = sz ∧
           x.grp = s.iss.grp ∧ x.mask = s.iss.mask ∧ x.removed = false)) ∧
     (s.iss.mode = .examine → s.iss.wid ≠ 0 → s.iss.sys = true → (∀ x ∈ s.shoots, x.grp ≠ s.iss.grp) →
       exec (.shoot e sz) s = .next ((s.putStatus e.q stOk 0).acquire t (g.withKept s.iss.kept) 6))) ∧
   ∀ (s : State) (x : Shoot), s.shoots = [x] →
     (x.removed = false → ∃ s', exec .shootComplete s = .next s' ∧
       ∀ c ∈ s.cores, (∀ y ∈ (s'.core c.num).tlb, x.hits y = false) ∧
         ((∀ m ∈ s.migrations, m.switched = true) → ∀ b ∈ (s'.core c.num).self, b.dirty = false)) ∧
     (x.removed = true → s.shootDone x = true → exec .shootComplete s = .next { s with shoots := [] }) ∧
     (x.removed = true → s.shootDone x = false → exec .shootComplete s = .next s)) ∧
  ((∀ (s : State) (t : Team) (g : Group) (e : EF), s.EReady t g [e.p.toNat] →
     (∀ i, (i = .migrateGo e ∨ i = .migrateWait e ∨ i = .migrateEnd e) →
       (s.iss.sys = false → exec i s = .next (s.trapNow (s.wordTrap 2 6 0 0xFF 0))) ∧
       (s.iss.sys = true → va56 (g.sreg e.p.toNat).toNat % 32 ≠ 0 → exec i s = .next (s.putStatus e.q stRejected 0))) ∧
     ∀ s1 bs, s.iss.sys = true → g.trapMask = none → va56 (g.sreg e.p.toNat).toNat % 32 = 0 →
       s.Reads t g (va56 (g.sreg e.p.toNat).toNat) 32 s1 bs →
       let m := migBlock bs
       (s1.migBad bs m = true → exec (.migrateGo e) s = .next (s1.putStatus e.q stRejected 0)) ∧
       (s1.migBad bs m = false →
         (Config.migrateLimit ≤ s.migrations.length ∨ s.migMeets m.old m.size = true ∨ s.migMeets m.new m.size = true →
           exec (.migrateGo e) s = .next (s1.putStatus e.q stBusy 0)) ∧
         (s.migrations.length < Config.migrateLimit → s.migMeets m.old m.size = false → s.migMeets m.new m.size = false →
           ∃ s' x, exec (.migrateGo e) s = .next s' ∧ x ∈ s'.migrations ∧ x.old = m.old ∧ x.new = m.new ∧
             x.switched = false ∧ x.waiters = [(s.iss.grp, s.iss.mask)] ∧
             (Memory.wf s.mem = true → s.stale = [] → s.hostLines = [] → pagesMeet m.old m.size m.new m.size = false →
               (∀ k, k < m.size → s'.mem.read (m.new + k) = s.mem.read (m.old + k)) ∧
               ∀ a, a < m.new ∨ m.new + m.size ≤ a → s'.mem.read a = s.mem.read a) ∧
             (e.x = 0 → s.Wrote s' g e.q (statusVal stTimeout 0)) ∧
             (e.x ≠ 0 → ∃ g' w, s'.grp? s.iss.grp = some g' ∧ w ∈ g'.waits ∧ w.mask = s.iss.mask ∧ w.word = s.iss.word))) ∧
       (∀ y, s.migrations.find? (fun z => z.old == m.old) = some y → y.switched = true →
         exec (.migrateWait e) s = .next ((s1.putStatus e.q stOk 0).acquire t g 6) ∧
         exec (.migrateEnd e) s = .next
           ({ s1 with migrations := s1.migrations.filter (fun z => z.old != m.old) }.putStatus e.q stOk 0)) ∧
       ((∀ z ∈ s.migrations, z.old ≠ m.old) → exec (.migrateWait e) s = .next (s1.putStatus e.q stRejected 0) ∧
         exec (.migrateEnd e) s = .next (s1.putStatus e.q stRejected 0))) ∧
   (∀ (s : State) (m : Migration), s.migrations = [m] → m.switched = false → m.held = [] → s.hostLines = [] →
     s.snoops = [] → s.fencemap = [] → s.gone = [] → s.pushq = [] → Memory.wf s.mem = true → s.stale = [] →
     pagesMeet m.leafPA 8 m.old m.size = false → pagesMeet m.leafPA 8 m.new m.size = false →
     ∃ s', exec (.migrationSwitch m.old) s = .next s' ∧ s'.migrations = [{ m with switched := true }] ∧
       (Memory.readN s'.mem m.leafPA 8 = leBytes 8 m.leaf) ∧
       ∀ a, (a < m.leafPA ∨ m.leafPA + 8 ≤ a) → s'.mem.read a = s.mem.read a) ∧
   ∀ (s : State) (m : Migration), s.migrations = [m] → m.switched = false → s.switchWaits m = true →
     exec (.migrationSwitch m.old) s = .next (if s.hostHeld m.leafPA then s.sendSnoop (lineOf (s.fwd m.leafPA)) else s))

/-- `COLL`: a misaligned or malformed descriptor, or one of no group, is `REJECTED`, a running slot `BUSY`, and else the slot
runs; a wait or test of a complete one is `OK`, an acquire; a cancel, of this or another rank, or a mismatch of headers,
cancels a running one; the completion makes the slot complete, with the reduction of the ranks' data in the bytes of `RECV` (R359 to
R362). -/
def Obligations.Collectives : Prop :=
  (∀ (s : State) (t : Team) (g : Group) (e : EF) (q : BitVec 6) (x : BitVec 5) (k : Fin 4), s.EReady t g [e.p.toNat] →
    t.colls.length = 4 →
    let c := t.coll k.val
    let s1 := s.relScope g.core 6 t.paired
    let va := va56 (g.sreg e.p.toNat).toNat
    (c.st = 1 → exec (.collWait q x k) s =
        .next (if x = 0 then s.putStatus q stTimeout 1 else s.block [] [q.toNat] x none 1) ∧
      exec (.collTest q k) s = .next (s.putStatus q stBusy 1)) ∧
    (c.st = 2 → exec (.collWait q x k) s = .next ((s.putStatus q stOk 2).acquire t g 6) ∧
      exec (.collTest q k) s = .next ((s.putStatus q stOk 2).acquire t g 6)) ∧
    (c.st = 0 ∨ c.st = 3 → exec (.collWait q x k) s = .next (s.putStatus q stRejected c.st)) ∧
    (∃ s' t', exec (.collCancel q k) s = .next s' ∧ s.SameMem s' ∧ s'.team? t.id = some t' ∧
      (t'.coll k.val).st = if c.st = 1 then 3 else c.st) ∧
    (s.Released t g 6 →
      (va % 64 ≠ 0 → ∃ s', exec (.collGo e k) s = .next s' ∧ s'.mem = s1.mem ∧
        s.Wrote s' g e.q (statusVal stRejected c.st)) ∧
      ∀ s2 bs, va % 64 = 0 → g.trapMask = none → s1.Reads t g va 64 s2 bs →
        (s2.fgroups.find? (fun y => y.id == field bs 28 2) = none →
          ∃ s', exec (.collGo e k) s = .next s' ∧ s'.mem = s2.mem ∧ s.Wrote s' g e.q (statusVal stRejected c.st)) ∧
        ∀ fg, s2.fgroups.find? (fun y => y.id == field bs 28 2) = some fg →
          (collBad bs fg.ranks = true →
            ∃ s', exec (.collGo e k) s = .next s' ∧ s'.mem = s2.mem ∧ s.Wrote s' g e.q (statusVal stRejected c.st)) ∧
          (collBad bs fg.ranks = false → c.st = 1 →
            ∃ s', exec (.collGo e k) s = .next s' ∧ s'.mem = s2.mem ∧ s.Wrote s' g e.q (statusVal stBusy 1)) ∧
          ∀ a b, collBad bs fg.ranks = false → c.st ≠ 1 → field bs 16 8 = 0 →
            s2.xlatElem g.core t.space (field bs 0 8)
              ((collSizes (field bs 30 1) (field bs 24 4) fg.ranks).1 * dtypeSize (field bs 31 1)) .read = .ok a →
            s2.xlatElem g.core t.space (field bs 8 8)
              ((collSizes (field bs 30 1) (field bs 24 4) fg.ranks).2 * dtypeSize (field bs 31 1)) .write = .ok b →
            ∃ s' t', exec (.collGo e k) s = .next s' ∧ s'.mem = s2.mem ∧ s.Wrote s' g e.q (statusVal stOk 1) ∧
              s'.team? t.id = some t' ∧ (t'.coll k.val).st = 1 ∧ (t'.coll k.val).op = field bs 30 1 ∧
              (t'.coll k.val).send = a ∧ (t'.coll k.val).recv = b ∧ (t'.coll k.val).me = fg.me)) ∧
  ∀ (s : State) (id : TeamId) (t : Team) (k : Nat), s.team? id = some t → k < t.colls.length →
    let c := t.coll k
    (∃ s' t', exec (.remoteCollCancel id k) s = .next s' ∧ s.SameMem s' ∧ s'.team? id = some t' ∧
      (t'.coll k).st = if c.st = 1 then 3 else c.st) ∧
    (c.result = none → ∃ s' t', exec (.collHeaderMismatch id k) s = .next s' ∧ s.SameMem s' ∧ s'.team? id = some t' ∧
      (t'.coll k).st = if c.st = 1 then 3 else c.st) ∧
    ∀ sends, c.st = 1 → c.result = none → c.sound sends = true → c.send.any s.partHeld = false →
      c.recv.any s.partHeld = false → s.migrations = [] → s.snoops = [] → s.hostLines = [] → s.pushq = [] → s.flights = [] →
      (s.badBytes c.send).any (fun b => b) = false → c.done = none →
      let out := c.output (modAt (fun _ => (s.engineRead c.send).1) c.me sends)
      ∃ s' t', exec (.collComplete id k sends) s = .next s' ∧ s'.team? id = some t' ∧ (t'.coll k).st = 2 ∧
        (t'.coll k).result = some out ∧
        (s.Inv → s.stale = [] → (∀ p ∈ c.recv, p.x.poison = false ∧ ∀ i, i < p.n → s.fenced (p.x.pa + i) = false) →
          (c.recv.flatMap (fun p => rangeFrom p.x.pa p.n)).Nodup → (c.recv.map (·.n)).sum = out.length →
          (s'.engineRead c.recv).1 = out)

/-! ## The pool and quanta (R84, R247, R250 to R254, R298, R347, R349) -/

/-- 1. A pending trap is taken outside a latch run when the group can take it, and not else: by the path of the lowest-numbered thread that can
receive it among those that met its condition, or of the group, and it is pending no more. A deferred claimant that has something to send
has its class's need withheld from its half's issue (R84, R298, R299).
When a claimant counts as short-served, and what is withheld for it, are the model's choices (notes/assumptions/33.md).

2. The pool: a dispatch step is made at most every 16 cycles and places the teams of the first ready node that has one which
fits; without a place, a victim of lower priority is asked to save; a node whose teams have all ended, and whose writes have
all been performed, decrements its completion counter, where it has one, and leaves the pool (R247, R250, R251, R254). -/
def Obligations.Pool : Prop :=
  ((∀ (s : State) (id : GrpId) (t : Team) (g : Group), s.team? id.team = some t → s.grp? id = some g →
     ((s.canTake id g = false ∨ s.ownsRun t.space id g = true) → exec (.trapDelivery id) s = .next s) ∧
     ∀ x k, s.nextTrap id g = some x → s.ownsRun t.space id g = false → t.pinned = true → outerCause x.cause = false →
       let able := g.receivers x (s.isDet id.team)
       ((Mask.list (able &&& x.mask) g.width).head?).or (Mask.list able g.width).head? = some k →
       let pc := (g.thread k).pc
       let path := able &&& g.maskBy (fun th => th.pc == pc)
       exec (.trapDelivery id) s = .next
         ((s.modGrp id (fun g => { (g.onThreads path (fun _ th => { th with stopped := false })) with
           traps := g.traps.erase x })).takeTrap id path x pc)) ∧
   ∀ (s : State) (core half : Nat),
     let due := (List.range 4).filter (fun k => s.claims core half k && !((s.core core).withheld.contains (half, k)))
     exec (.deferredClaimGuard core half) s = .next (if half < 2 && !due.isEmpty then
       s.modCore core (fun c => { c with withheld := due.map (fun k => (half, k)) ++ c.withheld }) else s)) ∧
  (∀ (s : State) (wheel : Nat),
     (s.dispatchDue wheel = false → exec (.dispatchStep wheel) s = .next s) ∧
     (∀ s1, s.dispatchDue wheel = true → (s.readyNodes wheel).findSome? s.placeNode = some s1 →
       exec (.dispatchStep wheel) s = .next
         (s1.modWheel wheel (fun w => { w with lastDispatch := some (s.now (wheelAgent wheel)) }))) ∧
     (s.readyNodes wheel = [] → exec (.preemptForRoom wheel) s = .next s) ∧
     (∀ n rest w ws k c v, s.readyNodes wheel = n :: rest → s.waiting n = w :: ws →
       (s.coresFor w.2).any (fun c => s.fitsAt c w.1) = false →
       s.choosePlace n.l.prio w.1 (s.coresFor w.2) = some (k, c, v) →
       s.teams.any (fun t => t.going && t.groups.any (fun g => (placeCores c w.1).contains g.core)) = false →
       s.team? v.id = some v →
       ∃ s' v', exec (.preemptForRoom wheel) s = .next s' ∧ s.SameMem s' ∧ s'.team? v.id = some v' ∧ v'.preempt = true) ∧
     (∀ n rest, s.readyNodes wheel = n :: rest → s.roomFor n = none → exec (.preemptForRoom wheel) s = .next s) ∧
     ∀ node n, s.node? node = some n → n.ending = true → s.nodeBusy node = false →
       let s1 := (s.cores.map (·.num)).foldl (fun s c => s.relSelf c) s
       let ends := fun (s2 : State) => exec (.nodeDoneDecrement node) s = .next { s2 with nodes := s2.nodes.filter (fun x => x.id != node) }
       s1.heldWrites = [] → s1.pushIds = [] → (∀ c ∈ s1.cores, s1.unflushed c.num = false) →
       (n.l.done = none → ends s1) ∧
       ∀ pa, n.l.done = some pa → s1.ctrBusy pa = false → ends (s1.engineDecr pa 1))

/-- Quanta: a thread of a `det` node that has retired its packets stops; a quantum whose threads have all stopped starts to
end, its buffers committing behind the writes and pushes before them; and once its waits are examined and every team is resident and not
being pre-empted, the next one begins, its threads running again (R347, R349, R350). That threads which cannot run before the end count as
stopped is the model's reading (notes/assumptions/22.md). -/
def Obligations.Quanta : Prop :=
  (∀ (s : State) (id : GrpId) (t : Team) (g : Group) (k : Nat), s.team? id.team = some t → s.grp? id = some g →
    exec (.threadQuantumStop id k) s = .next (if s.isDet id.team && (s.spentIn t.space id g).getLsbD k then
      s.modGrp id (fun x => x.onThreads (BitVec.twoPow 64 k) (fun _ th => { th with stopped := true })) else s)) ∧
  ∀ (s : State) (node : Nat) (n : Node), s.node? node = some n →
    (n.phase = 0 → s.quantumDone n = false → exec (.quantumEnd node) s = .next s) ∧
    (n.phase = 0 → s.quantumDone n = true →
      let s0 := s.landAll
      (s0.commitWaits n = true → exec (.quantumEnd node) s = .next s0) ∧
      (s0.commitWaits n = false → ∃ s' n', exec (.quantumEnd node) s = .next s' ∧ s'.node? node = some n' ∧
        n'.phase = 1 ∧ s'.mem = ((s0.nodeGroups node).foldl State.commitGroup s0).mem)) ∧
    (n.phase = 1 → (s.nodeGroups node).any s.writesHeld = false → n.mark ≠ 0 →
      s.pushIds.any (fun id => decide (id < n.mark)) = true → exec (.quantumEnd node) s = .next s) ∧
    (n.phase = 2 → (s.nodeTeams node).all s.enginesRest = false → exec (.quantumEnd node) s = .next s) ∧
    (n.phase = 3 → (s.nodeTeams node).all (fun t => decide (t.loc = .resident) && t.groups.all (fun g => !g.preempting)) = true →
      ∃ s' n', exec (.quantumEnd node) s = .next s' ∧ s.SameMem s' ∧ s'.node? node = some n' ∧ n'.phase = 0 ∧
        n'.quanta = n.quanta + 1 ∧
        ∀ t, s.team? t.id = some t → t.id.node = n.id → ∃ t', s'.team? t.id = some t' ∧
          ∀ g ∈ t'.groups, ∀ th ∈ g.threads, th.retired = 0 ∧ (th.st ≠ .blocked → th.stopped = false))

/-! ## Homes, the host and Iboukan -/

/-- 1. What homes do on their own: the cleaner leaves its line without a dirty byte, where no migration holds writes back; two calm halves of a region merge, and no
byte changes; an entry of the range scoreboard goes when its engine has done with it; a late answer of a dead agent is
counted (R20, R152, R197 to R199).

2. A core that has left a directory request unanswered for 2^20 cycles of the home that made it is declared dead, and none is before:
the `DIR` lines of which its L1 held the only dirty copy are poisoned, its caches are empty, its teams have ended and are gone, or go once
the writes of their records have been performed, and so are its subscriptions but those of teams that are saved (R199, R320, R366). What
else becomes of a dead agent is the model's choice (notes/assumptions/29.md). -/
def Obligations.Homes : Prop :=
  (∀ (s : State),
     (∀ core pa, ∃ s', exec (.cleanerWriteback core pa) s = .next s' ∧
       ((∀ m ∈ s.migrations, m.switched = true) →
         ∀ b ∈ (s'.core core).self, lineOf b.pa = lineOf pa → b.dirty = false) ∧
       (∀ e ∈ s'.stale, lineOf e.1 = lineOf pa → e.2.2 ≠ core) ∧
       ∀ a, ¬ s.WrittenBack core a → ¬ s.Lost a → s'.mem.read a = s.mem.read a) ∧
     (∀ pa size, ∃ s', exec (.regionMerge pa size) s = .next s' ∧ { s' with regions := s.regions } = s ∧
       ∀ a b, s.regions.find? (fun r => r.base == pa && r.size == size / 2) = some a →
         s.regions.find? (fun r => r.base == pa + size / 2 && r.size == size / 2) = some b → 1 < size → size ≤ 65536 →
         pa % size = 0 → sameSharers a b = true → a.calm (s.now (wheelAgent (s.homeWheel pa))) = true →
         b.calm (s.now (wheelAgent (s.homeWheel pa))) = true →
         ∃ r ∈ s'.regions, r.base = pa ∧ r.size = size ∧ r.sharers = a.sharers) ∧
     (∀ core id e, (s.core core).ranges.find? (fun e => e.id == id) = some e → s.rangeDone e = true →
       exec (.rangeEntryFreed core id) s = .next (s.freeEntries [id])) ∧
     ∀ w, s.cores.any (·.dead) = true → s.hasWheel w = true → exec (.staleResponseDrop w) s = .next
       (s.modWheel w (fun x => { x with stale := min (2 ^ 48 - 1) (x.stale + 1) }))) ∧
  (∀ (s : State) (core : Nat), core < Config.cores → (s.core core).dead = false → s.hasWheel (wheelOf core) = true →
     ((s.core core).silent = none → exec (.deadAgentDeclared core) s = .next s) ∧
     ∀ w since, (s.core core).silent = some (w, since) →
       (s.now (wheelAgent w) < since + 2 ^ 20 → exec (.deadAgentDeclared core) s = .next s) ∧
       (since + 2 ^ 20 ≤ s.now (wheelAgent w) →
         ∃ s', exec (.deadAgentDeclared core) s = .next s' ∧ (s'.core core).dead = true ∧ (s'.core core).self = [] ∧
           (s'.core core).tags = [] ∧ (∀ e ∈ s'.stale, e.2.2 ≠ core) ∧
           (∀ x ∈ s'.subs, x.core = core → (s.team? x.team).map (·.pinned) = some false) ∧
           (∀ t ∈ s'.teams, t.pinned = true → t.lost = false → ∀ g ∈ t.groups, g.core ≠ core) ∧
           (s.pushq = [] → (∀ t ∈ s.teamsDying core, ∀ c ∈ t.chans, c.act = none) →
             ∀ e ∈ s.stale, e.2.2 = core → ∀ a, lineOf a = lineOf e.1 → a ∈ s'.poisoned)))

/-- The host's accesses, to lines of the stacks and of host memory: a read gives the coherent bytes, zero where one is uncorrectable,
and a write lands at home, where it reads back, each marking the line as the host's; the host's answer to a snoop gives the line up, and
the writes that waited for it are performed in order; without an answer for 2^20 cycles the line is uncorrectable (R179, R199, R352).
When a home sends its snoop is the model's choice (notes/assumptions/28.md). -/
def Obligations.HostAccess : Prop :=
  ∀ (s : State) (pa n : Nat), s.powered = true → 0 < n → pa % 128 + n ≤ 128 → pa < 2 ^ 52 → s.absent pa = false →
    s.lineHeld pa = false →
    (∃ s', exec (.hostCxlAccess pa none n) s = .next s' ∧ s'.hostHeld pa = true ∧
      (∀ a, ¬ s.Lost a → s'.mem.read a = s.mem.read a) ∧
      s'.hostData = if s.anyBad pa n then List.replicate n 0 else s.physReadN pa n) ∧
    (∀ bs, bs.length = n → s.fenced (s.fwd pa) = false → s.lockedOld pa = false →
      s.pushHeldLine (lineOf (s.fwd pa)) = false → s.noPushRoom (rangeFrom (s.fwd pa) n) = false → ∃ s',
      exec (.hostCxlAccess pa (some bs) n) s = .next s' ∧ s'.hostHeld pa = true ∧
      (∀ a, (∀ i, i < n → a ≠ s.fwd (pa + i)) → ¬ s.Lost a → s'.mem.read a = s.mem.read a) ∧
      (s.Inv → s.migrations = [] → (∀ i, i < n → s.fenced (pa + i) = false) → s'.physReadN pa n = bs)) ∧
    ∀ x, s.snoops.find? (fun x => x.line == lineOf pa) = some x →
      exec (.backInvalidateAnswer pa) s = .next (x.writes.foldl (fun s h => s.writeLine h)
        { s with snoops := s.snoops.filter (fun y => y.line != x.line), hostLines := s.hostLines.filter (fun l => l != x.line) }) ∧
      (s.now (wheelAgent (s.homeWheel (128 * lineOf pa))) < x.since + 2 ^ 20 → exec (.backInvalidateTimeout pa) s = .next s) ∧
      (x.since + 2 ^ 20 ≤ s.now (wheelAgent (s.homeWheel (128 * lineOf pa))) →
        ∃ s', exec (.backInvalidateTimeout pa) s = .next s' ∧ s.SameMem s' ∧
          (lineOf pa) ∉ s'.hostLines ∧ ∀ a, lineOf a = lineOf pa → a ∈ s'.poisoned)

/-- 1. The host's commands, oldest first, each of which completes at once: a launch that passes the checks enters the pool that it
names; a space without a context gets one with a live snapshot, and loses it again when no node uses it; a reserved command is
`REJECTED` with reason 1. Each completion counts, and raises MSI-X vector 0 (R278, R355, R356).
The reasons that the spec does not number are the model's readings (notes/assumptions/30.md).

2. The host's registers, whose accesses complete at once: a read of `LSTAT` gives the last result and clears `DROP`; a read of
`TDEADA` takes the oldest report; a write of `HEVENT` makes an `EVENT` pending at every resident team of its node; `FGRP` defines
and removes a group, and drops a write whose values are out of range (R354, R355, R357, R359). -/
def Obligations.Host : Prop :=
  (∀ (s : State) (v : Reg) (rest : List Reg), s.hostq = v :: rest → s.powered = true →
     let pa := cmdPA v
     let w := fld v.toNat 3 3
     let r := s.hostBytes pa 64
     let b := r.2
     (3 ≤ v.toNat % 8 → exec .launchReservedCmd s = .next (s.complete stRejected 1 0)) ∧
     (v.toNat % 8 = 0 → s.hasWheel w = false → exec .launch s = .next (s.complete stRejected 1 0)) ∧
     (v.toNat % 8 = 0 → s.hasWheel w = true → s.absent pa = false → s.cmdHeld v = false →
       let r2 := if field b 0 2 = 2 then r.1.hostBytes (pa + 64) 64 else (r.1, List.replicate 64 0)
       s.launchHeld (Config.cores + w) (b ++ r2.2) = false →
       (∀ s1 k, r2.1.checkLaunch hostIssuer (Config.cores + w) (b ++ r2.2) = .refuse s1 k →
         exec .launch s = .next (s1.complete stRejected k 0)) ∧
       ∀ s1 l, r2.1.checkLaunch hostIssuer (Config.cores + w) (b ++ r2.2) = .ok s1 l →
         (s1.poolFree w = false → exec .launch s = .next (s1.complete stBusy 0 0)) ∧
         ∀ s2 id, s1.poolFree w = true → s1.enterNode (Config.cores + w) w l = .ok s2 id →
           exec .launch s = .next (s2.complete stOk 0 id)) ∧
     (let space := field b 0 2
      v.toNat % 8 = 1 → s.absent pa = false → s.cmdHeld v = false → s.writeLocked pa = false →
       s.noPushRoom (rangeFrom (s.fwd (pa + 8)) 40) = false → space ≤ 4095 →
       field b 2 1 = 0 → allZero b 3 5 = true → allZero b 48 16 = true → s.contexts.any (fun c => c.space == space) = false →
       ∃ s', exec .create s = .next s' ∧ s'.contexts = s.contexts ++ [⟨space, [s.cap0, s.cap1, s.cap2, s.cap3]⟩] ∧
         s'.lstat.code = stOk ∧ s'.hostq = rest) ∧
     (let s0 := (s.hostBytes pa 2).1
      let space := leNat (s.hostBytes pa 2).2
      v.toNat % 8 = 2 → s.absent pa = false → s.cmdHeld v = false →
       (s.nodes.any (fun n => n.l.space == space && !n.ending) = true → exec .destroy s = .next (s0.complete stBusy 0 0)) ∧
       (s.nodes.any (fun n => n.l.space == space && !n.ending) = false → s.contexts.any (fun c => c.space == space) = true →
         exec .destroy s = .next
           ({ s0 with contexts := s0.contexts.filter (fun c => c.space != space) }.complete stOk 0 0)) ∧
       (s.nodes.any (fun n => n.l.space == space && !n.ending) = false → s.contexts.any (fun c => c.space == space) = false →
         exec .destroy s = .next (s0.complete stRejected 13 0))) ∧
     ∀ code reason id, (s.complete code reason id).hostq = rest ∧ (s.complete code reason id).lstat.seq = (s.lstat.seq + 1) % 256 ∧
       (s.complete code reason id).lstat.code = code ∧ (s.complete code reason id).lstat.reason = reason ∧
       (s.complete code reason id).msix = 0 :: s.msix) ∧
  (∀ (s : State) (v : Reg), s.powered = true →
     exec .lstatRead s = .next { s with hostRead := s.lstatWord, lstat := { s.lstat with drop := false } } ∧
     (s.losses = [] → exec .tdeadaRead s = .next { s with hostRead := 0 }) ∧
     (∀ x xs, s.losses = x :: xs → ∃ s', exec .tdeadaRead s = .next s' ∧ s'.losses = xs ∧
       s'.tdeadb = BitVec.ofNat 64 (x.cause1 * 2 ^ 8 + x.cause2) ∧ s'.lossDrop = false ∧
       s'.hostRead = BitVec.ofNat 64 (x.team.node * 2 ^ 32 + x.team.idx * 2 ^ 8 + (if s.lossDrop then 128 else 0))) ∧
     (∃ s', exec (.heventWrite v) s = .next s' ∧ s.SameMem s' ∧
       ∀ t g, s.team? t.id = some t → t.id.node = v.toNat / 2 ^ 32 → t.pinned = true → s.grp? t.eventGroup = some g →
         (∀ t2 ∈ s.teams, t2.id = t.id → t2 = t) →
         ∃ g', s'.grp? t.eventGroup = some g' ∧ ∃ x ∈ g'.traps, x.cause = 15) ∧
     (let id := fld v.toNat 0 10
      let me := fld v.toNat 10 6
      let ranks := fld v.toNat 16 7
      (1 ≤ ranks → ranks ≤ 64 → me < ranks →
       (fld v.toNat 31 1 = 1 →
         exec (.fgrpDefine v) s = .next { s with fgroups := ⟨id, ranks, me⟩ :: s.fgroups.filter (fun x => x.id != id) }) ∧
       (fld v.toNat 31 1 = 0 → ∃ s', exec (.fgrpRemove v) s = .next s' ∧ s.SameMem s' ∧ (∀ x ∈ s'.fgroups, x.id ≠ id) ∧
         ∀ x ∈ s.fgroups, x.id ≠ id → x ∈ s'.fgroups)) ∧
      (ranks = 0 ∨ 64 < ranks ∨ ranks ≤ me → exec (.fgrpDefine v) s = .next s ∧ exec (.fgrpRemove v) s = .next s)))

/-- Keys, records and errors: a key that the root key has signed for is added to a store with room, and its revocation takes its
verification results with it; a command that the root key has not signed changes nothing; a failed port and a fenced channel are recorded,
or reported as not recorded, and their records can be cleared; a fenced channel's lines read as uncorrectable; a retried link error is
counted; attestation reports the key store and the fuses beside two digests of Iboukan's own, and a scrub changes nothing (R16, R363 to
R365, R369, R370). What the digests are is open (notes/assumptions/31.md). -/
def Obligations.IboukanRecords : Prop :=
  ∀ (s : State) (id x y n k : Nat),
    exec .spdmAttestation s = .next
      { s with attested := some ⟨Config.imageDigest, Config.rootDigest, s.keys, s.cap0, s.cap1, s.cap3⟩ } ∧
    exec (.scrub n) s = .next s ∧
    (s.rootSigned = true → s.keys.length < 8 → s.keys.all (fun z => z.id != id) = true →
      ∃ s', exec (.keyStoreAdd id x y) s = .next s' ∧
      s.SameMem s' ∧ s'.keys = s.keys ++ [⟨id, x, y⟩] ∧ (s.storeFails = false → ⟨id, x, y⟩ ∈ s'.keyRecs) ∧
      (s.storeFails = true → s'.keyRecs = s.keyRecs ∧ s'.unrecorded = .key id true :: s.unrecorded)) ∧
    (8 ≤ s.keys.length → exec (.keyStoreAdd id x y) s = .next { s with rootSigned := false }) ∧
    (s.rootSigned = true → ∃ s', exec (.keyStoreRevoke id) s = .next s' ∧ s.SameMem s' ∧ (∀ z ∈ s'.keys, z.id ≠ id) ∧
      (∀ z ∈ s'.verified, z.key ≠ id) ∧ (s.storeFails = false → ∀ z ∈ s'.keyRecs, z.id ≠ id)) ∧
    (s.rootSigned = false → exec (.keyStoreAdd id x y) s = .next s ∧ exec (.keyStoreRevoke id) s = .next s ∧
      ∀ port, exec (.persistentRecordClear port n k) s = .next s) ∧
    (s.rootSigned = true → ∃ s', exec (.persistentRecordClear true n k) s = .next s' ∧ (n, k) ∉ s'.badPorts ∧ s'.retired = s.retired ∧
      s'.fenceRecs = s.fenceRecs) ∧
    (s.rootSigned = true → ∃ s', exec (.persistentRecordClear false n k) s = .next s' ∧ n * 32 + k ∉ s'.retired ∧ n * 32 + k ∉ s'.fenceRecs ∧
      s'.badPorts = s.badPorts) ∧
    (s.portErr.any (fun z => z.1 == n && z.2.1 == k) = true → s.badPorts.contains (n, k) = false →
      exec (.portFailRecord n k) s = .next (if s.storeFails then { s with unrecorded := .port n k :: s.unrecorded }
        else { s with badPorts := s.badPorts ++ [(n, k)] })) ∧
    (s.hasStack n = true → k < 32 → s.fencemap.contains (n * 32 + k) = false →
      ∃ s', exec (.channelFence n k) s = .next s' ∧ s.SameMem s' ∧ n * 32 + k ∈ s'.fencemap ∧ s'.msix = 1 :: s.msix ∧
        (s.storeFails = false → n * 32 + k ∈ s'.fenceRecs) ∧
        (s.storeFails = true → s.fenceRecs.contains (n * 32 + k) = false → s'.unrecorded = .channel (n * 32 + k) :: s.unrecorded) ∧
        ∀ a, a < hbmTop → chanOf a = n * 32 + k → s'.bad a = true) ∧
    exec (.linkErrorRetry n true) s = .next (s.count n 0x4C 1) ∧ exec (.linkErrorRetry n false) s = .next (s.count n 0x4B 1)

/-- Power and division: power removal leaves only Iboukan's store, and of a key whose addition or revocation could not be recorded what is
recorded; bring-up after it, a reset of the partition and a division of the device that changes the partition leave no team, no node, no
context, nothing in flight, and every register that stands outside a team at its reset value, with the recorded failed ports and channels
out of service; a division that leaves the partition's wheels as they were leaves it running; a throttle event writes the ratio and raises
MSI-X vector 2, and the end of a cause clears its bit (R16, R21, R357, R367, R368, R370). That memory reads as unlisted after a reset, and
the reset values for which the spec gives none, are the model's choice (notes/assumptions/1.md, notes/assumptions/31.md). -/
def Obligations.PowerAndReset : Prop :=
  ∀ (s : State) (up : BringUp) (sets : List Nat) (w clk why ratio : Nat),
    exec .powerRemoval s = .next { State.reset with
      sched := s.sched, fresh := s.fresh, keys := s.keyRecs, keyRecs := s.keyRecs, badPorts := s.badPorts, retired := s.retired,
      retiredRows := s.retiredRows, fenceRecs := s.fenceRecs, storeFails := s.storeFails, rootSigned := s.rootSigned, powered := false } ∧
    (s.powered = false → s.resetting = false → up.image = true → exec (.bringUp up) s =
      .next ({ s with parts := [0x3F] }.bringUpAs 0x3F up)) ∧
    (s.powered = true ∨ s.resetting = true → exec (.partitionReset up) s = .next (s.bringUpAs s.wheelSet up)) ∧
    (s.powered = true → dividing sets = true → ∃ wset ∈ sets, wset.testBit (s.wheelList.headD 0) = true ∧
      exec (.partitionSetup sets up) s = .next
        (if wset = s.wheelSet then { s with parts := sets } else { s with parts := sets }.bringUpAs wset up)) ∧
    (∀ wset, let s' := s.bringUpAs wset up
      (s'.teams = [] ∧ s'.nodes = [] ∧ s'.contexts = [] ∧ s'.segments = [] ∧ s'.fgroups = [] ∧ s'.cmds = [] ∧ s'.jobs = [] ∧
        s'.cmdWaits = [] ∧ s'.subs = [] ∧ s'.flights = [] ∧ s'.shoots = [] ∧ s'.migrations = [] ∧ s'.regions = [] ∧
        s'.verified = [] ∧ s'.hostq = [] ∧ s'.losses = [] ∧ s'.snoops = [] ∧ s'.hostLines = [] ∧ s'.fencemap = [] ∧
        s'.mem = [] ∧ s'.stale = [] ∧ s'.poisoned = []) ∧
      (s'.spcbase = 0 ∧ s'.cap0 = Config.cap0 ∧ s'.cap1 = Config.cap1 ∧ s'.cap3 = Config.cap3 ∧
        s'.lstat = ⟨0, 0, 0, 0, false⟩ ∧ s'.tdeadb = 0 ∧ s'.powered = true) ∧
      (∀ k, (s'.wheel k).stale = 0 ∧ (s'.wheel k).dqbase = 0 ∧ (s'.wheel k).ratio = 23 ∧ (s'.wheel k).pend = false ∧
        (s'.wheel k).eff = 23 ∧ (s'.wheel k).counters = List.replicate 13 0 ∧ (s'.wheel k).throtEvents = 0 ∧
        (s'.wheel k).clk25 = 90 ∧ (s'.wheel k).throtReason = 0 ∧ (s'.wheel k).poolCount = 0) ∧
      (∀ k, (s'.core k).fairLog = 8 ∧ (s'.core k).scr = 0 ∧ (s'.core k).tags = [] ∧ (s'.core k).self = [] ∧
        (s'.core k).icache = [] ∧ (s'.core k).tlb = [] ∧ (s'.core k).replay = [] ∧ (s'.core k).loads = [] ∧
        (s'.core k).ranges = [] ∧ (s'.core k).streams = [] ∧ (s'.core k).dead = false) ∧
      (∀ k, s'.vat k = Vat.reset k) ∧
      s'.keys = s.keyRecs ∧ s'.badPorts = s.badPorts ∧
      (∀ c ∈ s.retired, c ∈ s'.gone ∧ c ∈ s'.retired) ∧
      ∀ p ∈ s.badPorts, p.1 < Config.cores → p.2 < 16 → (s'.core p.1).fail.getLsbD p.2 = true) ∧
    (s.powered = true → s.hasWheel w = true → 16 ≤ ratio → ratio ≤ 64 →
      ∃ s', exec (.throttleEvent w clk why ratio) s = .next s' ∧ s.SameMem s' ∧ s'.msix = 2 :: s.msix ∧
        (s'.wheel w).ratio = ratio ∧ (s'.wheel w).pend = true ∧ (s'.wheel w).clk25 = clk % 256 ∧
        (s'.wheel w).throtEvents = ((s.wheel w).throtEvents + 1) % 2 ^ 32) ∧
    ∃ s', exec (.throttleCauseEnd w why) s = .next s' ∧ s.SameMem s' ∧ (s'.wheel w).throtReason.testBit why = false
end

