-- ==== Sys2Proof/Laws/Encode.lean ====
section
/-! SUPPORT. The fields of an encoded word, and the codes of its operands. -/

namespace Sys2Proof

/-! ## Codes -/

@[simp] theorem addTyOf_code (x : AddTy) : addTyOf (addTyCode x) = some x := by cases x <;> rfl
theorem addTyCode_lt (x : AddTy) : addTyCode x < 8 := by cases x <;> decide
@[simp] theorem mulTyOf_code (x : MulTy) : mulTyOf (mulTyCode x) = some x := by cases x <;> rfl
theorem mulTyCode_lt (x : MulTy) : mulTyCode x < 8 := by cases x <;> decide
@[simp] theorem fmaTyOf_code (x : FmaTy) : fmaTyOf (fmaTyCode x) = some x := by cases x <;> rfl
theorem fmaTyCode_lt (x : FmaTy) : fmaTyCode x < 8 := by cases x <;> decide
@[simp] theorem minTyOf_code (x : MinTy) : minTyOf (minTyCode x) = some x := by cases x <;> rfl
theorem minTyCode_lt (x : MinTy) : minTyCode x < 8 := by cases x <;> decide
@[simp] theorem logicOpOf_code (x : LogicOp) : logicOpOf (logicOpCode x) = some x := by cases x <;> rfl
theorem logicOpCode_lt (x : LogicOp) : logicOpCode x < 8 := by cases x <;> decide
@[simp] theorem shiftOpOf_code (x : ShiftOp) : shiftOpOf (shiftOpCode x) = some x := by cases x <;> rfl
theorem shiftOpCode_lt (x : ShiftOp) : shiftOpCode x < 8 := by cases x <;> decide
@[simp] theorem cmpIOf_code (x : CmpI) : cmpIOf (cmpICode x) = some x := by cases x <;> rfl
theorem cmpICode_lt (x : CmpI) : cmpICode x < 8 := by cases x <;> decide
@[simp] theorem cmpFOf_code (x : CmpF) : cmpFOf (cmpFCode x) = some x := by cases x <;> rfl
theorem cmpFCode_lt (x : CmpF) : cmpFCode x < 8 := by cases x <;> decide
@[simp] theorem rndOf_code (x : Rnd) : rndOf (rndCode x) = some x := by cases x <;> rfl
theorem rndCode_lt (x : Rnd) : rndCode x < 8 := by cases x <;> decide
@[simp] theorem cvtOpOf_code (x : CvtOp) : cvtOpOf (cvtOpCode x) = some x := by cases x <;> rfl
theorem cvtOpCode_lt (x : CvtOp) : cvtOpCode x < 16 := by cases x <;> decide
@[simp] theorem bitsOpOf_code (x : BitsOp) : bitsOpOf (bitsOpCode x) = some x := by cases x <;> rfl
theorem bitsOpCode_lt (x : BitsOp) : bitsOpCode x < 8 := by cases x <;> decide
@[simp] theorem divTyOf_code (x : DivTy) : divTyOf (divTyCode x) = some x := by cases x <;> rfl
theorem divTyCode_lt (x : DivTy) : divTyCode x < 8 := by cases x <;> decide
@[simp] theorem sfuOpOf_code (x : SfuOp) : sfuOpOf (sfuOpCode x) = some x := by cases x <;> rfl
theorem sfuOpCode_lt (x : SfuOp) : sfuOpCode x < 8 := by cases x <;> decide
@[simp] theorem permOpOf_code (x : PermOp) : permOpOf (permOpCode x) = some x := by cases x <;> rfl
theorem permOpCode_lt (x : PermOp) : permOpCode x < 8 := by cases x <;> decide
@[simp] theorem redOpOf_code (x : RedOp) : redOpOf (redOpCode x) = some x := by cases x <;> rfl
theorem redOpCode_lt (x : RedOp) : redOpCode x < 8 := by cases x <;> decide
@[simp] theorem dotOpOf_code (x : DotOp) : dotOpOf (dotOpCode x) = some x := by cases x <;> rfl
theorem dotOpCode_lt (x : DotOp) : dotOpCode x < 8 := by cases x <;> decide
@[simp] theorem predOpOf_code (x : PredOp) : predOpOf (predOpCode x) = some x := by cases x <;> rfl
theorem predOpCode_lt (x : PredOp) : predOpCode x < 8 := by cases x <;> decide
@[simp] theorem saluOpOf_code (x : SaluOp) : saluOpOf (saluOpCode x) = some x := by cases x <;> rfl
theorem saluOpCode_lt (x : SaluOp) : saluOpCode x < 16 := by cases x <;> decide
@[simp] theorem memTyOf_code (x : MemTy) : memTyOf (memTyCode x) = some x := by cases x <;> rfl
theorem memTyCode_lt (x : MemTy) : memTyCode x < 8 := by cases x <;> decide
@[simp] theorem atomOpOf_code (x : AtomOp) : atomOpOf (atomOpCode x) = some x := by cases x <;> rfl
theorem atomOpCode_lt (x : AtomOp) : atomOpCode x < 8 := by cases x <;> decide
@[simp] theorem shootSizeOf_code (x : ShootSize) : shootSizeOf (shootSizeCode x) = some x := by cases x <;> rfl
theorem shootSizeCode_lt (x : ShootSize) : shootSizeCode x < 8 := by cases x <;> decide
@[simp] theorem splatSelOf_code (x : SplatSel) : splatSelOf (splatSelCode x) = some x := by cases x <;> rfl
theorem splatSelCode_lt (x : SplatSel) : splatSelCode x < 8 := by cases x <;> decide

@[simp] theorem kindOf_code (k : Kind) : kindOf (kindCode k) = k := by cases k <;> rfl
theorem kindCode_pos (k : Kind) : 0 < kindCode k ∧ kindCode k < 4 := by cases k <;> decide

theorem osCode_lt (o : Os) : osCode o < 128 := by cases o <;> simp only [osCode] <;> omega
theorem osCode_ne (o : Os) : osCode o ≠ 0x77 := by cases o <;> simp only [osCode] <;> omega
@[simp] theorem osBad_code (o : Os) : osBad (osCode o) = false := by simp [osBad, osCode_ne o]

@[simp] theorem osOf_code (o : Os) : osOf (osCode o) = o := by
  cases o with
  | v n => simp [osCode, osOf]
  | s n =>
    have h1 : ¬ 96 + n.val < 96 := by omega
    have h2 : 96 + n.val < 112 := by omega
    simp [osCode, osOf, h2]
  | b n =>
    have h1 : ¬ 112 + n.val < 96 := by omega
    have h3 : 112 + n.val < 116 := by omega
    simp [osCode, osOf, h1, h3]
  | lit => rfl
  | zero => rfl
  | lane => rfl
  | q n =>
    have h1 : ¬ 120 + n.val < 96 := by omega
    have h2 : ¬ 120 + n.val < 112 := by omega
    have h3 : ¬ 120 + n.val < 116 := by omega
    have h4 : ¬ 120 + n.val = 116 := by omega
    have h5 : ¬ 120 + n.val = 117 := by omega
    have h6 : ¬ 120 + n.val = 118 := by omega
    simp [osCode, osOf, h1, h2, h3, h4, h5, h6]

@[simp] theorem r6_toNat (x : BitVec 6) : r6 x.toNat = x := by simp [r6]
@[simp] theorem f8_val (x : Fin 8) : f8 x.val = x := by simp [f8]
@[simp] theorem f4_val (x : Fin 4) : f4 x.val = x := by simp [f4]
@[simp] theorem f16_val (x : Fin 16) : f16 x.val = x := by simp [f16]

/-! ## Fields -/

theorem fld_low (k n lo len : Nat) (h : lo + len ≤ 31) : fld (k * 2 ^ 31 + n) lo len = fld n lo len := by
  unfold fld
  obtain ⟨d, hd⟩ : ∃ d, 31 = lo + len + d := ⟨31 - (lo + len), by omega⟩
  rw [show k * 2 ^ 31 + n = n + 2 ^ lo * (2 ^ len * (2 ^ d * k)) by
    rw [hd, Nat.pow_add, Nat.pow_add]
    ac_rfl]
  rw [Nat.add_mul_div_left _ _ (Nat.two_pow_pos lo), Nat.add_mul_mod_self_left]

/-- The decoder does not look at the chain bit (R41). -/
theorem decodeNat_chain (k n : Nat) : decodeNat (k * 2 ^ 31 + n) = decodeNat n := by
  unfold decodeNat
  rw [fld_low k n 25 6 (by omega), fld_low k n 21 3 (by omega), fld_low k n 14 7 (by omega), fld_low k n 7 7 (by omega),
    fld_low k n 0 7 (by omega), fld_low k n 24 1 (by omega), fld_low k n 21 4 (by omega), fld_low k n 0 21 (by omega),
    fld_low k n 15 6 (by omega), fld_low k n 9 6 (by omega), fld_low k n 8 1 (by omega), fld_low k n 0 8 (by omega),
    fld_low k n 22 3 (by omega), fld_low k n 15 7 (by omega), fld_low k n 2 7 (by omega), fld_low k n 1 1 (by omega),
    fld_low k n 0 1 (by omega), fld_low k n 4 5 (by omega), fld_low k n 0 4 (by omega)]

theorem decode_encV (major fn : Nat) (w : Bool) (d a b : Nat) (hm : major < 0x20) (hf : fn < 8) (hd : d < 128)
    (ha : a < 128) (hb : b < 128) : decodeNat (encV major fn w d a b) = decodeV major fn d a b w := by
  have h1 : fld (encV major fn w d a b) 25 6 = major := by unfold fld encV; split <;> omega
  have h2 : fld (encV major fn w d a b) 21 3 = fn := by unfold fld encV; split <;> omega
  have h3 : fld (encV major fn w d a b) 14 7 = d := by unfold fld encV; split <;> omega
  have h4 : fld (encV major fn w d a b) 7 7 = a := by unfold fld encV; split <;> omega
  have h5 : fld (encV major fn w d a b) 0 7 = b := by unfold fld encV; split <;> omega
  have h6 : (fld (encV major fn w d a b) 24 1 == 1) = w := by
    have : fld (encV major fn w d a b) 24 1 = if w then 1 else 0 := by unfold fld encV; split <;> omega
    rw [this]
    cases w <;> rfl
  unfold decodeNat
  simp only [h1, h2, h3, h4, h5, h6, if_pos hm]

theorem encV_lt (major fn : Nat) (w : Bool) (d a b : Nat) (hm : major < 0x20) (hf : fn < 8) (hd : d < 128)
    (ha : a < 128) (hb : b < 128) : encV major fn w d a b < 2 ^ 31 := by
  unfold encV; split <;> omega

theorem decode_encU (major fn : Nat) (d a : BitVec 6) (i b : Nat) (hm : 0x20 ≤ major ∧ major < 0x30) (hn : major ≠ 0x24)
    (hf : fn < 16) (hi : i < 2) (hb : b < 256) :
    decodeNat (encU major fn d a (i * 256 + b)) = decodeU major fn d.toNat a.toNat i b := by
  have := d.isLt
  have := a.isLt
  have h1 : fld (encU major fn d a (i * 256 + b)) 25 6 = major := by unfold fld encU; omega
  have h2 : fld (encU major fn d a (i * 256 + b)) 21 4 = fn := by unfold fld encU; omega
  have h3 : fld (encU major fn d a (i * 256 + b)) 15 6 = d.toNat := by unfold fld encU; omega
  have h4 : fld (encU major fn d a (i * 256 + b)) 9 6 = a.toNat := by unfold fld encU; omega
  have h5 : fld (encU major fn d a (i * 256 + b)) 8 1 = i := by unfold fld encU; omega
  have h6 : fld (encU major fn d a (i * 256 + b)) 0 8 = b := by unfold fld encU; omega
  have g1 : ¬ major < 0x20 := by omega
  unfold decodeNat
  simp only [h1, h2, h3, h4, h5, h6, if_neg g1, if_neg hn, if_pos hm.2]

theorem encU_lt (major fn : Nat) (d a : BitVec 6) (ib : Nat) (hm : major < 0x30) (hf : fn < 16) (hb : ib < 512) :
    encU major fn d a ib < 2 ^ 31 := by
  have := d.isLt
  have := a.isLt
  unfold encU; omega

theorem decode_encBR (fn f : Nat) (hf : fn < 16) (h : f < 2 ^ 21) : decodeNat (encBR fn f) = decodeBR fn f := by
  have h1 : fld (encBR fn f) 25 6 = 0x24 := by unfold fld encBR; omega
  have h2 : fld (encBR fn f) 21 4 = fn := by unfold fld encBR; omega
  have h3 : fld (encBR fn f) 0 21 = f := by unfold fld encBR; omega
  unfold decodeNat
  simp only [h1, h2, h3]
  rfl

theorem encBR_lt (fn f : Nat) (hf : fn < 16) (h : f < 2 ^ 21) : encBR fn f < 2 ^ 31 := by
  unfold encBR; omega

theorem decode_encM (major fn t s x : Nat) (o h : Bool) (hm : 0x30 ≤ major ∧ major < 0x37) (hf : fn < 8) (ht : t < 128)
    (hs : s < 64) (hx : x < 128) :
    decodeNat (encM major fn t s x o h) = decodeM major fn t s x o.toNat h.toNat := by
  have h1 : fld (encM major fn t s x o h) 25 6 = major := by unfold fld encM; split <;> split <;> omega
  have h2 : fld (encM major fn t s x o h) 22 3 = fn := by unfold fld encM; split <;> split <;> omega
  have h3 : fld (encM major fn t s x o h) 15 7 = t := by unfold fld encM; split <;> split <;> omega
  have h4 : fld (encM major fn t s x o h) 9 6 = s := by unfold fld encM; split <;> split <;> omega
  have h5 : fld (encM major fn t s x o h) 2 7 = x := by unfold fld encM; split <;> split <;> omega
  have h6 : fld (encM major fn t s x o h) 1 1 = o.toNat := by unfold fld encM; cases o <;> cases h <;> simp <;> omega
  have h7 : fld (encM major fn t s x o h) 0 1 = h.toNat := by unfold fld encM; cases o <;> cases h <;> simp <;> omega
  have g1 : ¬ major < 0x20 := by omega
  have g2 : ¬ major = 0x24 := by omega
  have g3 : ¬ major < 0x30 := by omega
  unfold decodeNat
  simp only [h1, h2, h3, h4, h5, h6, h7, if_neg g1, if_neg g2, if_neg g3, if_pos hm.2]

theorem encM_lt (major fn t s x : Nat) (o h : Bool) (hm : major < 0x37) (hf : fn < 8) (ht : t < 128)
    (hs : s < 64) (hx : x < 128) : encM major fn t s x o h < 2 ^ 31 := by
  unfold encM; split <;> split <;> omega

theorem decode_encE (major fn : Nat) (p q : BitVec 6) (x : BitVec 5) (n : Nat) (hm : 0x37 ≤ major ∧ major < 0x40)
    (hf : fn < 16) (hn : n < 16) :
    decodeNat (encE major fn p q x n) = decodeE major fn p.toNat q.toNat x.toNat n := by
  have := p.isLt
  have := q.isLt
  have := x.isLt
  have h1 : fld (encE major fn p q x n) 25 6 = major := by unfold fld encE; omega
  have h2 : fld (encE major fn p q x n) 21 4 = fn := by unfold fld encE; omega
  have h3 : fld (encE major fn p q x n) 15 6 = p.toNat := by unfold fld encE; omega
  have h4 : fld (encE major fn p q x n) 9 6 = q.toNat := by unfold fld encE; omega
  have h5 : fld (encE major fn p q x n) 4 5 = x.toNat := by unfold fld encE; omega
  have h6 : fld (encE major fn p q x n) 0 4 = n := by unfold fld encE; omega
  have g1 : ¬ major < 0x20 := by omega
  have g2 : ¬ major = 0x24 := by omega
  have g3 : ¬ major < 0x30 := by omega
  have g4 : ¬ major < 0x37 := by omega
  unfold decodeNat
  simp only [h1, h2, h3, h4, h5, h6, if_neg g1, if_neg g2, if_neg g3, if_neg g4]

theorem encE_lt (major fn : Nat) (p q : BitVec 6) (x : BitVec 5) (n : Nat) (hm : major < 0x40) (hf : fn < 16)
    (hn : n < 16) : encE major fn p q x n < 2 ^ 31 := by
  have := p.isLt
  have := q.isLt
  have := x.isLt
  unfold encE; omega

end Sys2Proof
end

