-- ==== Sys2Proof/Laws/Lists.lean ====
section
/-! SUPPORT. Updates at a position, maps with a position, ranges. -/

namespace Sys2Proof.Machine

open Sys2Proof

@[simp] theorem modAt_length {α : Type} (f : α → α) (n : Nat) (l : List α) : (modAt f n l).length = l.length := by
  induction l generalizing n with
  | nil => cases n <;> rfl
  | cons x l ih => cases n <;> simp [modAt, ih]

@[simp] theorem modAt_get_self {α : Type} (f : α → α) (n : Nat) (l : List α) : (modAt f n l)[n]? = l[n]?.map f := by
  induction l generalizing n with
  | nil => cases n <;> rfl
  | cons x l ih => cases n <;> simp [modAt, ih]

theorem modAt_get_ne {α : Type} (f : α → α) {n k : Nat} (l : List α) (h : k ≠ n) : (modAt f n l)[k]? = l[k]? := by
  induction l generalizing n k with
  | nil => cases n <;> rfl
  | cons x l ih =>
    cases n with
    | zero =>
      cases k with
      | zero => exact absurd rfl h
      | succ k => simp [modAt]
    | succ n =>
      cases k with
      | zero => simp [modAt]
      | succ k => simpa [modAt] using ih (by omega)

@[simp] theorem mapFrom_length {α β : Type} (f : Nat → α → β) (i : Nat) (l : List α) :
    (mapFrom f i l).length = l.length := by
  induction l generalizing i with
  | nil => rfl
  | cons x l ih => simp [mapFrom, ih]

theorem mapFrom_get {α β : Type} (f : Nat → α → β) (i k : Nat) (l : List α) :
    (mapFrom f i l)[k]? = l[k]?.map (f (i + k)) := by
  induction l generalizing i k with
  | nil => rfl
  | cons x l ih =>
    cases k with
    | zero => simp [mapFrom]
    | succ k =>
      have : i + 1 + k = i + (k + 1) := by omega
      simp [mapFrom, ih, this]

/-- A map with positions, at a position counted from 0. -/
@[simp] theorem mapFrom_zero_get {α β : Type} (f : Nat → α → β) (k : Nat) (l : List α) :
    (mapFrom f 0 l)[k]? = l[k]?.map (f k) := by
  rw [mapFrom_get, Nat.zero_add]

theorem getD_modAt_self {α : Type} (f : α → α) (d : α) {n : Nat} {l : List α} (h : n < l.length) :
    (modAt f n l).getD n d = f (l.getD n d) := by
  rw [List.getD_eq_getElem?_getD, List.getD_eq_getElem?_getD, modAt_get_self, List.getElem?_eq_getElem h]
  rfl

theorem getD_modAt_ne {α : Type} (f : α → α) (d : α) {n k : Nat} (l : List α) (h : k ≠ n) :
    (modAt f n l).getD k d = l.getD k d := by
  simp [List.getD_eq_getElem?_getD, modAt_get_ne f l h]

theorem mem_rangeFrom {lo n k : Nat} : k ∈ rangeFrom lo n ↔ lo ≤ k ∧ k < lo + n := by
  simp only [rangeFrom, List.mem_map, List.mem_range]
  constructor
  · rintro ⟨a, ha, rfl⟩
    omega
  · intro h
    exact ⟨k - lo, by omega, by omega⟩

end Sys2Proof.Machine
end

