-- ==== Sys2Proof/Laws/State.lean ====
section
/-! SUPPORT. Each update of the state, field by field. -/

namespace Sys2Proof.Machine

open Sys2Proof

@[simp] theorem State.modTeam_cycle (s : State) (i : TeamId) (f : Team → Team) : (s.modTeam i f).cycle = s.cycle := rfl
@[simp] theorem State.modTeam_iss (s : State) (i : TeamId) (f : Team → Team) : (s.modTeam i f).iss = s.iss := rfl
@[simp] theorem State.modTeam_sched (s : State) (i : TeamId) (f : Team → Team) : (s.modTeam i f).sched = s.sched := rfl
@[simp] theorem State.modTeam_fresh (s : State) (i : TeamId) (f : Team → Team) : (s.modTeam i f).fresh = s.fresh := rfl
@[simp] theorem State.modTeam_barOpen (s : State) (i : TeamId) (f : Team → Team) : (s.modTeam i f).barOpen = s.barOpen := rfl
@[simp] theorem State.modTeam_mem (s : State) (i : TeamId) (f : Team → Team) : (s.modTeam i f).mem = s.mem := rfl
@[simp] theorem State.modTeam_stale (s : State) (i : TeamId) (f : Team → Team) : (s.modTeam i f).stale = s.stale := rfl
@[simp] theorem State.modTeam_poisoned (s : State) (i : TeamId) (f : Team → Team) : (s.modTeam i f).poisoned = s.poisoned := rfl
@[simp] theorem State.modTeam_dirtyBad (s : State) (i : TeamId) (f : Team → Team) : (s.modTeam i f).dirtyBad = s.dirtyBad := rfl
@[simp] theorem State.modTeam_pushq (s : State) (i : TeamId) (f : Team → Team) : (s.modTeam i f).pushq = s.pushq := rfl
@[simp] theorem State.modTeam_causal (s : State) (i : TeamId) (f : Team → Team) : (s.modTeam i f).causal = s.causal := rfl
@[simp] theorem State.modTeam_slotCausal (s : State) (i : TeamId) (f : Team → Team) : (s.modTeam i f).slotCausal = s.slotCausal := rfl
@[simp] theorem State.modTeam_fixed (s : State) (i : TeamId) (f : Team → Team) : (s.modTeam i f).fixed = s.fixed := rfl
@[simp] theorem State.modTeam_cores (s : State) (i : TeamId) (f : Team → Team) : (s.modTeam i f).cores = s.cores := rfl
@[simp] theorem State.modTeam_vats (s : State) (i : TeamId) (f : Team → Team) : (s.modTeam i f).vats = s.vats := rfl
@[simp] theorem State.modTeam_wheels (s : State) (i : TeamId) (f : Team → Team) : (s.modTeam i f).wheels = s.wheels := rfl
@[simp] theorem State.modTeam_nodes (s : State) (i : TeamId) (f : Team → Team) : (s.modTeam i f).nodes = s.nodes := rfl
@[simp] theorem State.modTeam_cap0 (s : State) (i : TeamId) (f : Team → Team) : (s.modTeam i f).cap0 = s.cap0 := rfl
@[simp] theorem State.modTeam_cap1 (s : State) (i : TeamId) (f : Team → Team) : (s.modTeam i f).cap1 = s.cap1 := rfl
@[simp] theorem State.modTeam_cap2 (s : State) (i : TeamId) (f : Team → Team) : (s.modTeam i f).cap2 = s.cap2 := rfl
@[simp] theorem State.modTeam_cap3 (s : State) (i : TeamId) (f : Team → Team) : (s.modTeam i f).cap3 = s.cap3 := rfl
@[simp] theorem State.modTeam_spcbase (s : State) (i : TeamId) (f : Team → Team) : (s.modTeam i f).spcbase = s.spcbase := rfl
@[simp] theorem State.modTeam_contexts (s : State) (i : TeamId) (f : Team → Team) : (s.modTeam i f).contexts = s.contexts := rfl
@[simp] theorem State.modTeam_segments (s : State) (i : TeamId) (f : Team → Team) : (s.modTeam i f).segments = s.segments := rfl
@[simp] theorem State.modTeam_defaultSeg (s : State) (i : TeamId) (f : Team → Team) : (s.modTeam i f).defaultSeg = s.defaultSeg := rfl
@[simp] theorem State.modTeam_regions (s : State) (i : TeamId) (f : Team → Team) : (s.modTeam i f).regions = s.regions := rfl
@[simp] theorem State.modTeam_cmds (s : State) (i : TeamId) (f : Team → Team) : (s.modTeam i f).cmds = s.cmds := rfl
@[simp] theorem State.modTeam_jobs (s : State) (i : TeamId) (f : Team → Team) : (s.modTeam i f).jobs = s.jobs := rfl
@[simp] theorem State.modTeam_cmdWaits (s : State) (i : TeamId) (f : Team → Team) : (s.modTeam i f).cmdWaits = s.cmdWaits := rfl
@[simp] theorem State.modTeam_subs (s : State) (i : TeamId) (f : Team → Team) : (s.modTeam i f).subs = s.subs := rfl
@[simp] theorem State.modTeam_flights (s : State) (i : TeamId) (f : Team → Team) : (s.modTeam i f).flights = s.flights := rfl
@[simp] theorem State.modTeam_shoots (s : State) (i : TeamId) (f : Team → Team) : (s.modTeam i f).shoots = s.shoots := rfl
@[simp] theorem State.modTeam_migrations (s : State) (i : TeamId) (f : Team → Team) : (s.modTeam i f).migrations = s.migrations := rfl
@[simp] theorem State.modTeam_fgroups (s : State) (i : TeamId) (f : Team → Team) : (s.modTeam i f).fgroups = s.fgroups := rfl
@[simp] theorem State.modTeam_hostq (s : State) (i : TeamId) (f : Team → Team) : (s.modTeam i f).hostq = s.hostq := rfl
@[simp] theorem State.modTeam_hostDrop (s : State) (i : TeamId) (f : Team → Team) : (s.modTeam i f).hostDrop = s.hostDrop := rfl
@[simp] theorem State.modTeam_lstat (s : State) (i : TeamId) (f : Team → Team) : (s.modTeam i f).lstat = s.lstat := rfl
@[simp] theorem State.modTeam_losses (s : State) (i : TeamId) (f : Team → Team) : (s.modTeam i f).losses = s.losses := rfl
@[simp] theorem State.modTeam_lossDrop (s : State) (i : TeamId) (f : Team → Team) : (s.modTeam i f).lossDrop = s.lossDrop := rfl
@[simp] theorem State.modTeam_tdeadb (s : State) (i : TeamId) (f : Team → Team) : (s.modTeam i f).tdeadb = s.tdeadb := rfl
@[simp] theorem State.modTeam_hostRead (s : State) (i : TeamId) (f : Team → Team) : (s.modTeam i f).hostRead = s.hostRead := rfl
@[simp] theorem State.modTeam_hostData (s : State) (i : TeamId) (f : Team → Team) : (s.modTeam i f).hostData = s.hostData := rfl
@[simp] theorem State.modTeam_msix (s : State) (i : TeamId) (f : Team → Team) : (s.modTeam i f).msix = s.msix := rfl
@[simp] theorem State.modTeam_fencemap (s : State) (i : TeamId) (f : Team → Team) : (s.modTeam i f).fencemap = s.fencemap := rfl
@[simp] theorem State.modTeam_hostLines (s : State) (i : TeamId) (f : Team → Team) : (s.modTeam i f).hostLines = s.hostLines := rfl
@[simp] theorem State.modTeam_snoops (s : State) (i : TeamId) (f : Team → Team) : (s.modTeam i f).snoops = s.snoops := rfl
@[simp] theorem State.modTeam_keys (s : State) (i : TeamId) (f : Team → Team) : (s.modTeam i f).keys = s.keys := rfl
@[simp] theorem State.modTeam_keyRecs (s : State) (i : TeamId) (f : Team → Team) : (s.modTeam i f).keyRecs = s.keyRecs := rfl
@[simp] theorem State.modTeam_verified (s : State) (i : TeamId) (f : Team → Team) : (s.modTeam i f).verified = s.verified := rfl
@[simp] theorem State.modTeam_badPorts (s : State) (i : TeamId) (f : Team → Team) : (s.modTeam i f).badPorts = s.badPorts := rfl
@[simp] theorem State.modTeam_retired (s : State) (i : TeamId) (f : Team → Team) : (s.modTeam i f).retired = s.retired := rfl
@[simp] theorem State.modTeam_retiredRows (s : State) (i : TeamId) (f : Team → Team) : (s.modTeam i f).retiredRows = s.retiredRows := rfl
@[simp] theorem State.modTeam_fenceRecs (s : State) (i : TeamId) (f : Team → Team) : (s.modTeam i f).fenceRecs = s.fenceRecs := rfl
@[simp] theorem State.modTeam_storeFails (s : State) (i : TeamId) (f : Team → Team) : (s.modTeam i f).storeFails = s.storeFails := rfl
@[simp] theorem State.modTeam_rootSigned (s : State) (i : TeamId) (f : Team → Team) : (s.modTeam i f).rootSigned = s.rootSigned := rfl
@[simp] theorem State.modTeam_unrecorded (s : State) (i : TeamId) (f : Team → Team) : (s.modTeam i f).unrecorded = s.unrecorded := rfl
@[simp] theorem State.modTeam_attested (s : State) (i : TeamId) (f : Team → Team) : (s.modTeam i f).attested = s.attested := rfl
@[simp] theorem State.modTeam_gone (s : State) (i : TeamId) (f : Team → Team) : (s.modTeam i f).gone = s.gone := rfl
@[simp] theorem State.modTeam_resetting (s : State) (i : TeamId) (f : Team → Team) : (s.modTeam i f).resetting = s.resetting := rfl
@[simp] theorem State.modTeam_portErr (s : State) (i : TeamId) (f : Team → Team) : (s.modTeam i f).portErr = s.portErr := rfl
@[simp] theorem State.modTeam_parts (s : State) (i : TeamId) (f : Team → Team) : (s.modTeam i f).parts = s.parts := rfl
@[simp] theorem State.modTeam_powered (s : State) (i : TeamId) (f : Team → Team) : (s.modTeam i f).powered = s.powered := rfl

@[simp] theorem State.modGrp_cycle (s : State) (i : GrpId) (f : Group → Group) : (s.modGrp i f).cycle = s.cycle := rfl
@[simp] theorem State.modGrp_iss (s : State) (i : GrpId) (f : Group → Group) : (s.modGrp i f).iss = s.iss := rfl
@[simp] theorem State.modGrp_sched (s : State) (i : GrpId) (f : Group → Group) : (s.modGrp i f).sched = s.sched := rfl
@[simp] theorem State.modGrp_fresh (s : State) (i : GrpId) (f : Group → Group) : (s.modGrp i f).fresh = s.fresh := rfl
@[simp] theorem State.modGrp_barOpen (s : State) (i : GrpId) (f : Group → Group) : (s.modGrp i f).barOpen = s.barOpen := rfl
@[simp] theorem State.modGrp_mem (s : State) (i : GrpId) (f : Group → Group) : (s.modGrp i f).mem = s.mem := rfl
@[simp] theorem State.modGrp_stale (s : State) (i : GrpId) (f : Group → Group) : (s.modGrp i f).stale = s.stale := rfl
@[simp] theorem State.modGrp_poisoned (s : State) (i : GrpId) (f : Group → Group) : (s.modGrp i f).poisoned = s.poisoned := rfl
@[simp] theorem State.modGrp_dirtyBad (s : State) (i : GrpId) (f : Group → Group) : (s.modGrp i f).dirtyBad = s.dirtyBad := rfl
@[simp] theorem State.modGrp_pushq (s : State) (i : GrpId) (f : Group → Group) : (s.modGrp i f).pushq = s.pushq := rfl
@[simp] theorem State.modGrp_causal (s : State) (i : GrpId) (f : Group → Group) : (s.modGrp i f).causal = s.causal := rfl
@[simp] theorem State.modGrp_slotCausal (s : State) (i : GrpId) (f : Group → Group) : (s.modGrp i f).slotCausal = s.slotCausal := rfl
@[simp] theorem State.modGrp_fixed (s : State) (i : GrpId) (f : Group → Group) : (s.modGrp i f).fixed = s.fixed := rfl
@[simp] theorem State.modGrp_cores (s : State) (i : GrpId) (f : Group → Group) : (s.modGrp i f).cores = s.cores := rfl
@[simp] theorem State.modGrp_vats (s : State) (i : GrpId) (f : Group → Group) : (s.modGrp i f).vats = s.vats := rfl
@[simp] theorem State.modGrp_wheels (s : State) (i : GrpId) (f : Group → Group) : (s.modGrp i f).wheels = s.wheels := rfl
@[simp] theorem State.modGrp_nodes (s : State) (i : GrpId) (f : Group → Group) : (s.modGrp i f).nodes = s.nodes := rfl
@[simp] theorem State.modGrp_cap0 (s : State) (i : GrpId) (f : Group → Group) : (s.modGrp i f).cap0 = s.cap0 := rfl
@[simp] theorem State.modGrp_cap1 (s : State) (i : GrpId) (f : Group → Group) : (s.modGrp i f).cap1 = s.cap1 := rfl
@[simp] theorem State.modGrp_cap2 (s : State) (i : GrpId) (f : Group → Group) : (s.modGrp i f).cap2 = s.cap2 := rfl
@[simp] theorem State.modGrp_cap3 (s : State) (i : GrpId) (f : Group → Group) : (s.modGrp i f).cap3 = s.cap3 := rfl
@[simp] theorem State.modGrp_spcbase (s : State) (i : GrpId) (f : Group → Group) : (s.modGrp i f).spcbase = s.spcbase := rfl
@[simp] theorem State.modGrp_contexts (s : State) (i : GrpId) (f : Group → Group) : (s.modGrp i f).contexts = s.contexts := rfl
@[simp] theorem State.modGrp_segments (s : State) (i : GrpId) (f : Group → Group) : (s.modGrp i f).segments = s.segments := rfl
@[simp] theorem State.modGrp_defaultSeg (s : State) (i : GrpId) (f : Group → Group) : (s.modGrp i f).defaultSeg = s.defaultSeg := rfl
@[simp] theorem State.modGrp_regions (s : State) (i : GrpId) (f : Group → Group) : (s.modGrp i f).regions = s.regions := rfl
@[simp] theorem State.modGrp_cmds (s : State) (i : GrpId) (f : Group → Group) : (s.modGrp i f).cmds = s.cmds := rfl
@[simp] theorem State.modGrp_jobs (s : State) (i : GrpId) (f : Group → Group) : (s.modGrp i f).jobs = s.jobs := rfl
@[simp] theorem State.modGrp_cmdWaits (s : State) (i : GrpId) (f : Group → Group) : (s.modGrp i f).cmdWaits = s.cmdWaits := rfl
@[simp] theorem State.modGrp_subs (s : State) (i : GrpId) (f : Group → Group) : (s.modGrp i f).subs = s.subs := rfl
@[simp] theorem State.modGrp_flights (s : State) (i : GrpId) (f : Group → Group) : (s.modGrp i f).flights = s.flights := rfl
@[simp] theorem State.modGrp_shoots (s : State) (i : GrpId) (f : Group → Group) : (s.modGrp i f).shoots = s.shoots := rfl
@[simp] theorem State.modGrp_migrations (s : State) (i : GrpId) (f : Group → Group) : (s.modGrp i f).migrations = s.migrations := rfl
@[simp] theorem State.modGrp_fgroups (s : State) (i : GrpId) (f : Group → Group) : (s.modGrp i f).fgroups = s.fgroups := rfl
@[simp] theorem State.modGrp_hostq (s : State) (i : GrpId) (f : Group → Group) : (s.modGrp i f).hostq = s.hostq := rfl
@[simp] theorem State.modGrp_hostDrop (s : State) (i : GrpId) (f : Group → Group) : (s.modGrp i f).hostDrop = s.hostDrop := rfl
@[simp] theorem State.modGrp_lstat (s : State) (i : GrpId) (f : Group → Group) : (s.modGrp i f).lstat = s.lstat := rfl
@[simp] theorem State.modGrp_losses (s : State) (i : GrpId) (f : Group → Group) : (s.modGrp i f).losses = s.losses := rfl
@[simp] theorem State.modGrp_lossDrop (s : State) (i : GrpId) (f : Group → Group) : (s.modGrp i f).lossDrop = s.lossDrop := rfl
@[simp] theorem State.modGrp_tdeadb (s : State) (i : GrpId) (f : Group → Group) : (s.modGrp i f).tdeadb = s.tdeadb := rfl
@[simp] theorem State.modGrp_hostRead (s : State) (i : GrpId) (f : Group → Group) : (s.modGrp i f).hostRead = s.hostRead := rfl
@[simp] theorem State.modGrp_hostData (s : State) (i : GrpId) (f : Group → Group) : (s.modGrp i f).hostData = s.hostData := rfl
@[simp] theorem State.modGrp_msix (s : State) (i : GrpId) (f : Group → Group) : (s.modGrp i f).msix = s.msix := rfl
@[simp] theorem State.modGrp_fencemap (s : State) (i : GrpId) (f : Group → Group) : (s.modGrp i f).fencemap = s.fencemap := rfl
@[simp] theorem State.modGrp_hostLines (s : State) (i : GrpId) (f : Group → Group) : (s.modGrp i f).hostLines = s.hostLines := rfl
@[simp] theorem State.modGrp_snoops (s : State) (i : GrpId) (f : Group → Group) : (s.modGrp i f).snoops = s.snoops := rfl
@[simp] theorem State.modGrp_keys (s : State) (i : GrpId) (f : Group → Group) : (s.modGrp i f).keys = s.keys := rfl
@[simp] theorem State.modGrp_keyRecs (s : State) (i : GrpId) (f : Group → Group) : (s.modGrp i f).keyRecs = s.keyRecs := rfl
@[simp] theorem State.modGrp_verified (s : State) (i : GrpId) (f : Group → Group) : (s.modGrp i f).verified = s.verified := rfl
@[simp] theorem State.modGrp_badPorts (s : State) (i : GrpId) (f : Group → Group) : (s.modGrp i f).badPorts = s.badPorts := rfl
@[simp] theorem State.modGrp_retired (s : State) (i : GrpId) (f : Group → Group) : (s.modGrp i f).retired = s.retired := rfl
@[simp] theorem State.modGrp_retiredRows (s : State) (i : GrpId) (f : Group → Group) : (s.modGrp i f).retiredRows = s.retiredRows := rfl
@[simp] theorem State.modGrp_fenceRecs (s : State) (i : GrpId) (f : Group → Group) : (s.modGrp i f).fenceRecs = s.fenceRecs := rfl
@[simp] theorem State.modGrp_storeFails (s : State) (i : GrpId) (f : Group → Group) : (s.modGrp i f).storeFails = s.storeFails := rfl
@[simp] theorem State.modGrp_rootSigned (s : State) (i : GrpId) (f : Group → Group) : (s.modGrp i f).rootSigned = s.rootSigned := rfl
@[simp] theorem State.modGrp_unrecorded (s : State) (i : GrpId) (f : Group → Group) : (s.modGrp i f).unrecorded = s.unrecorded := rfl
@[simp] theorem State.modGrp_attested (s : State) (i : GrpId) (f : Group → Group) : (s.modGrp i f).attested = s.attested := rfl
@[simp] theorem State.modGrp_gone (s : State) (i : GrpId) (f : Group → Group) : (s.modGrp i f).gone = s.gone := rfl
@[simp] theorem State.modGrp_resetting (s : State) (i : GrpId) (f : Group → Group) : (s.modGrp i f).resetting = s.resetting := rfl
@[simp] theorem State.modGrp_portErr (s : State) (i : GrpId) (f : Group → Group) : (s.modGrp i f).portErr = s.portErr := rfl
@[simp] theorem State.modGrp_parts (s : State) (i : GrpId) (f : Group → Group) : (s.modGrp i f).parts = s.parts := rfl
@[simp] theorem State.modGrp_powered (s : State) (i : GrpId) (f : Group → Group) : (s.modGrp i f).powered = s.powered := rfl

@[simp] theorem State.modGroups_cycle (s : State) (f : Group → Group) : (s.modGroups f).cycle = s.cycle := rfl
@[simp] theorem State.modGroups_iss (s : State) (f : Group → Group) : (s.modGroups f).iss = s.iss := rfl
@[simp] theorem State.modGroups_sched (s : State) (f : Group → Group) : (s.modGroups f).sched = s.sched := rfl
@[simp] theorem State.modGroups_fresh (s : State) (f : Group → Group) : (s.modGroups f).fresh = s.fresh := rfl
@[simp] theorem State.modGroups_barOpen (s : State) (f : Group → Group) : (s.modGroups f).barOpen = s.barOpen := rfl
@[simp] theorem State.modGroups_mem (s : State) (f : Group → Group) : (s.modGroups f).mem = s.mem := rfl
@[simp] theorem State.modGroups_stale (s : State) (f : Group → Group) : (s.modGroups f).stale = s.stale := rfl
@[simp] theorem State.modGroups_poisoned (s : State) (f : Group → Group) : (s.modGroups f).poisoned = s.poisoned := rfl
@[simp] theorem State.modGroups_dirtyBad (s : State) (f : Group → Group) : (s.modGroups f).dirtyBad = s.dirtyBad := rfl
@[simp] theorem State.modGroups_pushq (s : State) (f : Group → Group) : (s.modGroups f).pushq = s.pushq := rfl
@[simp] theorem State.modGroups_causal (s : State) (f : Group → Group) : (s.modGroups f).causal = s.causal := rfl
@[simp] theorem State.modGroups_slotCausal (s : State) (f : Group → Group) : (s.modGroups f).slotCausal = s.slotCausal := rfl
@[simp] theorem State.modGroups_fixed (s : State) (f : Group → Group) : (s.modGroups f).fixed = s.fixed := rfl
@[simp] theorem State.modGroups_cores (s : State) (f : Group → Group) : (s.modGroups f).cores = s.cores := rfl
@[simp] theorem State.modGroups_vats (s : State) (f : Group → Group) : (s.modGroups f).vats = s.vats := rfl
@[simp] theorem State.modGroups_wheels (s : State) (f : Group → Group) : (s.modGroups f).wheels = s.wheels := rfl
@[simp] theorem State.modGroups_nodes (s : State) (f : Group → Group) : (s.modGroups f).nodes = s.nodes := rfl
@[simp] theorem State.modGroups_cap0 (s : State) (f : Group → Group) : (s.modGroups f).cap0 = s.cap0 := rfl
@[simp] theorem State.modGroups_cap1 (s : State) (f : Group → Group) : (s.modGroups f).cap1 = s.cap1 := rfl
@[simp] theorem State.modGroups_cap2 (s : State) (f : Group → Group) : (s.modGroups f).cap2 = s.cap2 := rfl
@[simp] theorem State.modGroups_cap3 (s : State) (f : Group → Group) : (s.modGroups f).cap3 = s.cap3 := rfl
@[simp] theorem State.modGroups_spcbase (s : State) (f : Group → Group) : (s.modGroups f).spcbase = s.spcbase := rfl
@[simp] theorem State.modGroups_contexts (s : State) (f : Group → Group) : (s.modGroups f).contexts = s.contexts := rfl
@[simp] theorem State.modGroups_segments (s : State) (f : Group → Group) : (s.modGroups f).segments = s.segments := rfl
@[simp] theorem State.modGroups_defaultSeg (s : State) (f : Group → Group) : (s.modGroups f).defaultSeg = s.defaultSeg := rfl
@[simp] theorem State.modGroups_regions (s : State) (f : Group → Group) : (s.modGroups f).regions = s.regions := rfl
@[simp] theorem State.modGroups_cmds (s : State) (f : Group → Group) : (s.modGroups f).cmds = s.cmds := rfl
@[simp] theorem State.modGroups_jobs (s : State) (f : Group → Group) : (s.modGroups f).jobs = s.jobs := rfl
@[simp] theorem State.modGroups_cmdWaits (s : State) (f : Group → Group) : (s.modGroups f).cmdWaits = s.cmdWaits := rfl
@[simp] theorem State.modGroups_subs (s : State) (f : Group → Group) : (s.modGroups f).subs = s.subs := rfl
@[simp] theorem State.modGroups_flights (s : State) (f : Group → Group) : (s.modGroups f).flights = s.flights := rfl
@[simp] theorem State.modGroups_shoots (s : State) (f : Group → Group) : (s.modGroups f).shoots = s.shoots := rfl
@[simp] theorem State.modGroups_migrations (s : State) (f : Group → Group) : (s.modGroups f).migrations = s.migrations := rfl
@[simp] theorem State.modGroups_fgroups (s : State) (f : Group → Group) : (s.modGroups f).fgroups = s.fgroups := rfl
@[simp] theorem State.modGroups_hostq (s : State) (f : Group → Group) : (s.modGroups f).hostq = s.hostq := rfl
@[simp] theorem State.modGroups_hostDrop (s : State) (f : Group → Group) : (s.modGroups f).hostDrop = s.hostDrop := rfl
@[simp] theorem State.modGroups_lstat (s : State) (f : Group → Group) : (s.modGroups f).lstat = s.lstat := rfl
@[simp] theorem State.modGroups_losses (s : State) (f : Group → Group) : (s.modGroups f).losses = s.losses := rfl
@[simp] theorem State.modGroups_lossDrop (s : State) (f : Group → Group) : (s.modGroups f).lossDrop = s.lossDrop := rfl
@[simp] theorem State.modGroups_tdeadb (s : State) (f : Group → Group) : (s.modGroups f).tdeadb = s.tdeadb := rfl
@[simp] theorem State.modGroups_hostRead (s : State) (f : Group → Group) : (s.modGroups f).hostRead = s.hostRead := rfl
@[simp] theorem State.modGroups_hostData (s : State) (f : Group → Group) : (s.modGroups f).hostData = s.hostData := rfl
@[simp] theorem State.modGroups_msix (s : State) (f : Group → Group) : (s.modGroups f).msix = s.msix := rfl
@[simp] theorem State.modGroups_fencemap (s : State) (f : Group → Group) : (s.modGroups f).fencemap = s.fencemap := rfl
@[simp] theorem State.modGroups_hostLines (s : State) (f : Group → Group) : (s.modGroups f).hostLines = s.hostLines := rfl
@[simp] theorem State.modGroups_snoops (s : State) (f : Group → Group) : (s.modGroups f).snoops = s.snoops := rfl
@[simp] theorem State.modGroups_keys (s : State) (f : Group → Group) : (s.modGroups f).keys = s.keys := rfl
@[simp] theorem State.modGroups_keyRecs (s : State) (f : Group → Group) : (s.modGroups f).keyRecs = s.keyRecs := rfl
@[simp] theorem State.modGroups_verified (s : State) (f : Group → Group) : (s.modGroups f).verified = s.verified := rfl
@[simp] theorem State.modGroups_badPorts (s : State) (f : Group → Group) : (s.modGroups f).badPorts = s.badPorts := rfl
@[simp] theorem State.modGroups_retired (s : State) (f : Group → Group) : (s.modGroups f).retired = s.retired := rfl
@[simp] theorem State.modGroups_retiredRows (s : State) (f : Group → Group) : (s.modGroups f).retiredRows = s.retiredRows := rfl
@[simp] theorem State.modGroups_fenceRecs (s : State) (f : Group → Group) : (s.modGroups f).fenceRecs = s.fenceRecs := rfl
@[simp] theorem State.modGroups_storeFails (s : State) (f : Group → Group) : (s.modGroups f).storeFails = s.storeFails := rfl
@[simp] theorem State.modGroups_rootSigned (s : State) (f : Group → Group) : (s.modGroups f).rootSigned = s.rootSigned := rfl
@[simp] theorem State.modGroups_unrecorded (s : State) (f : Group → Group) : (s.modGroups f).unrecorded = s.unrecorded := rfl
@[simp] theorem State.modGroups_attested (s : State) (f : Group → Group) : (s.modGroups f).attested = s.attested := rfl
@[simp] theorem State.modGroups_gone (s : State) (f : Group → Group) : (s.modGroups f).gone = s.gone := rfl
@[simp] theorem State.modGroups_resetting (s : State) (f : Group → Group) : (s.modGroups f).resetting = s.resetting := rfl
@[simp] theorem State.modGroups_portErr (s : State) (f : Group → Group) : (s.modGroups f).portErr = s.portErr := rfl
@[simp] theorem State.modGroups_parts (s : State) (f : Group → Group) : (s.modGroups f).parts = s.parts := rfl
@[simp] theorem State.modGroups_powered (s : State) (f : Group → Group) : (s.modGroups f).powered = s.powered := rfl

@[simp] theorem State.modNode_cycle (s : State) (i : Nat) (f : Node → Node) : (s.modNode i f).cycle = s.cycle := rfl
@[simp] theorem State.modNode_iss (s : State) (i : Nat) (f : Node → Node) : (s.modNode i f).iss = s.iss := rfl
@[simp] theorem State.modNode_sched (s : State) (i : Nat) (f : Node → Node) : (s.modNode i f).sched = s.sched := rfl
@[simp] theorem State.modNode_fresh (s : State) (i : Nat) (f : Node → Node) : (s.modNode i f).fresh = s.fresh := rfl
@[simp] theorem State.modNode_barOpen (s : State) (i : Nat) (f : Node → Node) : (s.modNode i f).barOpen = s.barOpen := rfl
@[simp] theorem State.modNode_mem (s : State) (i : Nat) (f : Node → Node) : (s.modNode i f).mem = s.mem := rfl
@[simp] theorem State.modNode_stale (s : State) (i : Nat) (f : Node → Node) : (s.modNode i f).stale = s.stale := rfl
@[simp] theorem State.modNode_poisoned (s : State) (i : Nat) (f : Node → Node) : (s.modNode i f).poisoned = s.poisoned := rfl
@[simp] theorem State.modNode_dirtyBad (s : State) (i : Nat) (f : Node → Node) : (s.modNode i f).dirtyBad = s.dirtyBad := rfl
@[simp] theorem State.modNode_pushq (s : State) (i : Nat) (f : Node → Node) : (s.modNode i f).pushq = s.pushq := rfl
@[simp] theorem State.modNode_causal (s : State) (i : Nat) (f : Node → Node) : (s.modNode i f).causal = s.causal := rfl
@[simp] theorem State.modNode_slotCausal (s : State) (i : Nat) (f : Node → Node) : (s.modNode i f).slotCausal = s.slotCausal := rfl
@[simp] theorem State.modNode_teams (s : State) (i : Nat) (f : Node → Node) : (s.modNode i f).teams = s.teams := rfl
@[simp] theorem State.modNode_fixed (s : State) (i : Nat) (f : Node → Node) : (s.modNode i f).fixed = s.fixed := rfl
@[simp] theorem State.modNode_cores (s : State) (i : Nat) (f : Node → Node) : (s.modNode i f).cores = s.cores := rfl
@[simp] theorem State.modNode_vats (s : State) (i : Nat) (f : Node → Node) : (s.modNode i f).vats = s.vats := rfl
@[simp] theorem State.modNode_wheels (s : State) (i : Nat) (f : Node → Node) : (s.modNode i f).wheels = s.wheels := rfl
@[simp] theorem State.modNode_cap0 (s : State) (i : Nat) (f : Node → Node) : (s.modNode i f).cap0 = s.cap0 := rfl
@[simp] theorem State.modNode_cap1 (s : State) (i : Nat) (f : Node → Node) : (s.modNode i f).cap1 = s.cap1 := rfl
@[simp] theorem State.modNode_cap2 (s : State) (i : Nat) (f : Node → Node) : (s.modNode i f).cap2 = s.cap2 := rfl
@[simp] theorem State.modNode_cap3 (s : State) (i : Nat) (f : Node → Node) : (s.modNode i f).cap3 = s.cap3 := rfl
@[simp] theorem State.modNode_spcbase (s : State) (i : Nat) (f : Node → Node) : (s.modNode i f).spcbase = s.spcbase := rfl
@[simp] theorem State.modNode_contexts (s : State) (i : Nat) (f : Node → Node) : (s.modNode i f).contexts = s.contexts := rfl
@[simp] theorem State.modNode_segments (s : State) (i : Nat) (f : Node → Node) : (s.modNode i f).segments = s.segments := rfl
@[simp] theorem State.modNode_defaultSeg (s : State) (i : Nat) (f : Node → Node) : (s.modNode i f).defaultSeg = s.defaultSeg := rfl
@[simp] theorem State.modNode_regions (s : State) (i : Nat) (f : Node → Node) : (s.modNode i f).regions = s.regions := rfl
@[simp] theorem State.modNode_cmds (s : State) (i : Nat) (f : Node → Node) : (s.modNode i f).cmds = s.cmds := rfl
@[simp] theorem State.modNode_jobs (s : State) (i : Nat) (f : Node → Node) : (s.modNode i f).jobs = s.jobs := rfl
@[simp] theorem State.modNode_cmdWaits (s : State) (i : Nat) (f : Node → Node) : (s.modNode i f).cmdWaits = s.cmdWaits := rfl
@[simp] theorem State.modNode_subs (s : State) (i : Nat) (f : Node → Node) : (s.modNode i f).subs = s.subs := rfl
@[simp] theorem State.modNode_flights (s : State) (i : Nat) (f : Node → Node) : (s.modNode i f).flights = s.flights := rfl
@[simp] theorem State.modNode_shoots (s : State) (i : Nat) (f : Node → Node) : (s.modNode i f).shoots = s.shoots := rfl
@[simp] theorem State.modNode_migrations (s : State) (i : Nat) (f : Node → Node) : (s.modNode i f).migrations = s.migrations := rfl
@[simp] theorem State.modNode_fgroups (s : State) (i : Nat) (f : Node → Node) : (s.modNode i f).fgroups = s.fgroups := rfl
@[simp] theorem State.modNode_hostq (s : State) (i : Nat) (f : Node → Node) : (s.modNode i f).hostq = s.hostq := rfl
@[simp] theorem State.modNode_hostDrop (s : State) (i : Nat) (f : Node → Node) : (s.modNode i f).hostDrop = s.hostDrop := rfl
@[simp] theorem State.modNode_lstat (s : State) (i : Nat) (f : Node → Node) : (s.modNode i f).lstat = s.lstat := rfl
@[simp] theorem State.modNode_losses (s : State) (i : Nat) (f : Node → Node) : (s.modNode i f).losses = s.losses := rfl
@[simp] theorem State.modNode_lossDrop (s : State) (i : Nat) (f : Node → Node) : (s.modNode i f).lossDrop = s.lossDrop := rfl
@[simp] theorem State.modNode_tdeadb (s : State) (i : Nat) (f : Node → Node) : (s.modNode i f).tdeadb = s.tdeadb := rfl
@[simp] theorem State.modNode_hostRead (s : State) (i : Nat) (f : Node → Node) : (s.modNode i f).hostRead = s.hostRead := rfl
@[simp] theorem State.modNode_hostData (s : State) (i : Nat) (f : Node → Node) : (s.modNode i f).hostData = s.hostData := rfl
@[simp] theorem State.modNode_msix (s : State) (i : Nat) (f : Node → Node) : (s.modNode i f).msix = s.msix := rfl
@[simp] theorem State.modNode_fencemap (s : State) (i : Nat) (f : Node → Node) : (s.modNode i f).fencemap = s.fencemap := rfl
@[simp] theorem State.modNode_hostLines (s : State) (i : Nat) (f : Node → Node) : (s.modNode i f).hostLines = s.hostLines := rfl
@[simp] theorem State.modNode_snoops (s : State) (i : Nat) (f : Node → Node) : (s.modNode i f).snoops = s.snoops := rfl
@[simp] theorem State.modNode_keys (s : State) (i : Nat) (f : Node → Node) : (s.modNode i f).keys = s.keys := rfl
@[simp] theorem State.modNode_keyRecs (s : State) (i : Nat) (f : Node → Node) : (s.modNode i f).keyRecs = s.keyRecs := rfl
@[simp] theorem State.modNode_verified (s : State) (i : Nat) (f : Node → Node) : (s.modNode i f).verified = s.verified := rfl
@[simp] theorem State.modNode_badPorts (s : State) (i : Nat) (f : Node → Node) : (s.modNode i f).badPorts = s.badPorts := rfl
@[simp] theorem State.modNode_retired (s : State) (i : Nat) (f : Node → Node) : (s.modNode i f).retired = s.retired := rfl
@[simp] theorem State.modNode_retiredRows (s : State) (i : Nat) (f : Node → Node) : (s.modNode i f).retiredRows = s.retiredRows := rfl
@[simp] theorem State.modNode_fenceRecs (s : State) (i : Nat) (f : Node → Node) : (s.modNode i f).fenceRecs = s.fenceRecs := rfl
@[simp] theorem State.modNode_storeFails (s : State) (i : Nat) (f : Node → Node) : (s.modNode i f).storeFails = s.storeFails := rfl
@[simp] theorem State.modNode_rootSigned (s : State) (i : Nat) (f : Node → Node) : (s.modNode i f).rootSigned = s.rootSigned := rfl
@[simp] theorem State.modNode_unrecorded (s : State) (i : Nat) (f : Node → Node) : (s.modNode i f).unrecorded = s.unrecorded := rfl
@[simp] theorem State.modNode_attested (s : State) (i : Nat) (f : Node → Node) : (s.modNode i f).attested = s.attested := rfl
@[simp] theorem State.modNode_gone (s : State) (i : Nat) (f : Node → Node) : (s.modNode i f).gone = s.gone := rfl
@[simp] theorem State.modNode_resetting (s : State) (i : Nat) (f : Node → Node) : (s.modNode i f).resetting = s.resetting := rfl
@[simp] theorem State.modNode_portErr (s : State) (i : Nat) (f : Node → Node) : (s.modNode i f).portErr = s.portErr := rfl
@[simp] theorem State.modNode_parts (s : State) (i : Nat) (f : Node → Node) : (s.modNode i f).parts = s.parts := rfl
@[simp] theorem State.modNode_powered (s : State) (i : Nat) (f : Node → Node) : (s.modNode i f).powered = s.powered := rfl

@[simp] theorem State.setCore_cycle (s : State) (c : Core) : (s.setCore c).cycle = s.cycle := rfl
@[simp] theorem State.setCore_iss (s : State) (c : Core) : (s.setCore c).iss = s.iss := rfl
@[simp] theorem State.setCore_sched (s : State) (c : Core) : (s.setCore c).sched = s.sched := rfl
@[simp] theorem State.setCore_fresh (s : State) (c : Core) : (s.setCore c).fresh = s.fresh := rfl
@[simp] theorem State.setCore_barOpen (s : State) (c : Core) : (s.setCore c).barOpen = s.barOpen := rfl
@[simp] theorem State.setCore_mem (s : State) (c : Core) : (s.setCore c).mem = s.mem := rfl
@[simp] theorem State.setCore_stale (s : State) (c : Core) : (s.setCore c).stale = s.stale := rfl
@[simp] theorem State.setCore_poisoned (s : State) (c : Core) : (s.setCore c).poisoned = s.poisoned := rfl
@[simp] theorem State.setCore_dirtyBad (s : State) (c : Core) : (s.setCore c).dirtyBad = s.dirtyBad := rfl
@[simp] theorem State.setCore_pushq (s : State) (c : Core) : (s.setCore c).pushq = s.pushq := rfl
@[simp] theorem State.setCore_causal (s : State) (c : Core) : (s.setCore c).causal = s.causal := rfl
@[simp] theorem State.setCore_slotCausal (s : State) (c : Core) : (s.setCore c).slotCausal = s.slotCausal := rfl
@[simp] theorem State.setCore_teams (s : State) (c : Core) : (s.setCore c).teams = s.teams := rfl
@[simp] theorem State.setCore_fixed (s : State) (c : Core) : (s.setCore c).fixed = s.fixed := rfl
@[simp] theorem State.setCore_vats (s : State) (c : Core) : (s.setCore c).vats = s.vats := rfl
@[simp] theorem State.setCore_wheels (s : State) (c : Core) : (s.setCore c).wheels = s.wheels := rfl
@[simp] theorem State.setCore_nodes (s : State) (c : Core) : (s.setCore c).nodes = s.nodes := rfl
@[simp] theorem State.setCore_cap0 (s : State) (c : Core) : (s.setCore c).cap0 = s.cap0 := rfl
@[simp] theorem State.setCore_cap1 (s : State) (c : Core) : (s.setCore c).cap1 = s.cap1 := rfl
@[simp] theorem State.setCore_cap2 (s : State) (c : Core) : (s.setCore c).cap2 = s.cap2 := rfl
@[simp] theorem State.setCore_cap3 (s : State) (c : Core) : (s.setCore c).cap3 = s.cap3 := rfl
@[simp] theorem State.setCore_spcbase (s : State) (c : Core) : (s.setCore c).spcbase = s.spcbase := rfl
@[simp] theorem State.setCore_contexts (s : State) (c : Core) : (s.setCore c).contexts = s.contexts := rfl
@[simp] theorem State.setCore_segments (s : State) (c : Core) : (s.setCore c).segments = s.segments := rfl
@[simp] theorem State.setCore_defaultSeg (s : State) (c : Core) : (s.setCore c).defaultSeg = s.defaultSeg := rfl
@[simp] theorem State.setCore_regions (s : State) (c : Core) : (s.setCore c).regions = s.regions := rfl
@[simp] theorem State.setCore_cmds (s : State) (c : Core) : (s.setCore c).cmds = s.cmds := rfl
@[simp] theorem State.setCore_jobs (s : State) (c : Core) : (s.setCore c).jobs = s.jobs := rfl
@[simp] theorem State.setCore_cmdWaits (s : State) (c : Core) : (s.setCore c).cmdWaits = s.cmdWaits := rfl
@[simp] theorem State.setCore_subs (s : State) (c : Core) : (s.setCore c).subs = s.subs := rfl
@[simp] theorem State.setCore_flights (s : State) (c : Core) : (s.setCore c).flights = s.flights := rfl
@[simp] theorem State.setCore_shoots (s : State) (c : Core) : (s.setCore c).shoots = s.shoots := rfl
@[simp] theorem State.setCore_migrations (s : State) (c : Core) : (s.setCore c).migrations = s.migrations := rfl
@[simp] theorem State.setCore_fgroups (s : State) (c : Core) : (s.setCore c).fgroups = s.fgroups := rfl
@[simp] theorem State.setCore_hostq (s : State) (c : Core) : (s.setCore c).hostq = s.hostq := rfl
@[simp] theorem State.setCore_hostDrop (s : State) (c : Core) : (s.setCore c).hostDrop = s.hostDrop := rfl
@[simp] theorem State.setCore_lstat (s : State) (c : Core) : (s.setCore c).lstat = s.lstat := rfl
@[simp] theorem State.setCore_losses (s : State) (c : Core) : (s.setCore c).losses = s.losses := rfl
@[simp] theorem State.setCore_lossDrop (s : State) (c : Core) : (s.setCore c).lossDrop = s.lossDrop := rfl
@[simp] theorem State.setCore_tdeadb (s : State) (c : Core) : (s.setCore c).tdeadb = s.tdeadb := rfl
@[simp] theorem State.setCore_hostRead (s : State) (c : Core) : (s.setCore c).hostRead = s.hostRead := rfl
@[simp] theorem State.setCore_hostData (s : State) (c : Core) : (s.setCore c).hostData = s.hostData := rfl
@[simp] theorem State.setCore_msix (s : State) (c : Core) : (s.setCore c).msix = s.msix := rfl
@[simp] theorem State.setCore_fencemap (s : State) (c : Core) : (s.setCore c).fencemap = s.fencemap := rfl
@[simp] theorem State.setCore_hostLines (s : State) (c : Core) : (s.setCore c).hostLines = s.hostLines := rfl
@[simp] theorem State.setCore_snoops (s : State) (c : Core) : (s.setCore c).snoops = s.snoops := rfl
@[simp] theorem State.setCore_keys (s : State) (c : Core) : (s.setCore c).keys = s.keys := rfl
@[simp] theorem State.setCore_keyRecs (s : State) (c : Core) : (s.setCore c).keyRecs = s.keyRecs := rfl
@[simp] theorem State.setCore_verified (s : State) (c : Core) : (s.setCore c).verified = s.verified := rfl
@[simp] theorem State.setCore_badPorts (s : State) (c : Core) : (s.setCore c).badPorts = s.badPorts := rfl
@[simp] theorem State.setCore_retired (s : State) (c : Core) : (s.setCore c).retired = s.retired := rfl
@[simp] theorem State.setCore_retiredRows (s : State) (c : Core) : (s.setCore c).retiredRows = s.retiredRows := rfl
@[simp] theorem State.setCore_fenceRecs (s : State) (c : Core) : (s.setCore c).fenceRecs = s.fenceRecs := rfl
@[simp] theorem State.setCore_storeFails (s : State) (c : Core) : (s.setCore c).storeFails = s.storeFails := rfl
@[simp] theorem State.setCore_rootSigned (s : State) (c : Core) : (s.setCore c).rootSigned = s.rootSigned := rfl
@[simp] theorem State.setCore_unrecorded (s : State) (c : Core) : (s.setCore c).unrecorded = s.unrecorded := rfl
@[simp] theorem State.setCore_attested (s : State) (c : Core) : (s.setCore c).attested = s.attested := rfl
@[simp] theorem State.setCore_gone (s : State) (c : Core) : (s.setCore c).gone = s.gone := rfl
@[simp] theorem State.setCore_resetting (s : State) (c : Core) : (s.setCore c).resetting = s.resetting := rfl
@[simp] theorem State.setCore_portErr (s : State) (c : Core) : (s.setCore c).portErr = s.portErr := rfl
@[simp] theorem State.setCore_parts (s : State) (c : Core) : (s.setCore c).parts = s.parts := rfl
@[simp] theorem State.setCore_powered (s : State) (c : Core) : (s.setCore c).powered = s.powered := rfl

@[simp] theorem State.modCore_cycle (s : State) (i : Nat) (f : Core → Core) : (s.modCore i f).cycle = s.cycle := rfl
@[simp] theorem State.modCore_iss (s : State) (i : Nat) (f : Core → Core) : (s.modCore i f).iss = s.iss := rfl
@[simp] theorem State.modCore_sched (s : State) (i : Nat) (f : Core → Core) : (s.modCore i f).sched = s.sched := rfl
@[simp] theorem State.modCore_fresh (s : State) (i : Nat) (f : Core → Core) : (s.modCore i f).fresh = s.fresh := rfl
@[simp] theorem State.modCore_barOpen (s : State) (i : Nat) (f : Core → Core) : (s.modCore i f).barOpen = s.barOpen := rfl
@[simp] theorem State.modCore_mem (s : State) (i : Nat) (f : Core → Core) : (s.modCore i f).mem = s.mem := rfl
@[simp] theorem State.modCore_stale (s : State) (i : Nat) (f : Core → Core) : (s.modCore i f).stale = s.stale := rfl
@[simp] theorem State.modCore_poisoned (s : State) (i : Nat) (f : Core → Core) : (s.modCore i f).poisoned = s.poisoned := rfl
@[simp] theorem State.modCore_dirtyBad (s : State) (i : Nat) (f : Core → Core) : (s.modCore i f).dirtyBad = s.dirtyBad := rfl
@[simp] theorem State.modCore_pushq (s : State) (i : Nat) (f : Core → Core) : (s.modCore i f).pushq = s.pushq := rfl
@[simp] theorem State.modCore_causal (s : State) (i : Nat) (f : Core → Core) : (s.modCore i f).causal = s.causal := rfl
@[simp] theorem State.modCore_slotCausal (s : State) (i : Nat) (f : Core → Core) : (s.modCore i f).slotCausal = s.slotCausal := rfl
@[simp] theorem State.modCore_teams (s : State) (i : Nat) (f : Core → Core) : (s.modCore i f).teams = s.teams := rfl
@[simp] theorem State.modCore_fixed (s : State) (i : Nat) (f : Core → Core) : (s.modCore i f).fixed = s.fixed := rfl
@[simp] theorem State.modCore_vats (s : State) (i : Nat) (f : Core → Core) : (s.modCore i f).vats = s.vats := rfl
@[simp] theorem State.modCore_wheels (s : State) (i : Nat) (f : Core → Core) : (s.modCore i f).wheels = s.wheels := rfl
@[simp] theorem State.modCore_nodes (s : State) (i : Nat) (f : Core → Core) : (s.modCore i f).nodes = s.nodes := rfl
@[simp] theorem State.modCore_cap0 (s : State) (i : Nat) (f : Core → Core) : (s.modCore i f).cap0 = s.cap0 := rfl
@[simp] theorem State.modCore_cap1 (s : State) (i : Nat) (f : Core → Core) : (s.modCore i f).cap1 = s.cap1 := rfl
@[simp] theorem State.modCore_cap2 (s : State) (i : Nat) (f : Core → Core) : (s.modCore i f).cap2 = s.cap2 := rfl
@[simp] theorem State.modCore_cap3 (s : State) (i : Nat) (f : Core → Core) : (s.modCore i f).cap3 = s.cap3 := rfl
@[simp] theorem State.modCore_spcbase (s : State) (i : Nat) (f : Core → Core) : (s.modCore i f).spcbase = s.spcbase := rfl
@[simp] theorem State.modCore_contexts (s : State) (i : Nat) (f : Core → Core) : (s.modCore i f).contexts = s.contexts := rfl
@[simp] theorem State.modCore_segments (s : State) (i : Nat) (f : Core → Core) : (s.modCore i f).segments = s.segments := rfl
@[simp] theorem State.modCore_defaultSeg (s : State) (i : Nat) (f : Core → Core) : (s.modCore i f).defaultSeg = s.defaultSeg := rfl
@[simp] theorem State.modCore_regions (s : State) (i : Nat) (f : Core → Core) : (s.modCore i f).regions = s.regions := rfl
@[simp] theorem State.modCore_cmds (s : State) (i : Nat) (f : Core → Core) : (s.modCore i f).cmds = s.cmds := rfl
@[simp] theorem State.modCore_jobs (s : State) (i : Nat) (f : Core → Core) : (s.modCore i f).jobs = s.jobs := rfl
@[simp] theorem State.modCore_cmdWaits (s : State) (i : Nat) (f : Core → Core) : (s.modCore i f).cmdWaits = s.cmdWaits := rfl
@[simp] theorem State.modCore_subs (s : State) (i : Nat) (f : Core → Core) : (s.modCore i f).subs = s.subs := rfl
@[simp] theorem State.modCore_flights (s : State) (i : Nat) (f : Core → Core) : (s.modCore i f).flights = s.flights := rfl
@[simp] theorem State.modCore_shoots (s : State) (i : Nat) (f : Core → Core) : (s.modCore i f).shoots = s.shoots := rfl
@[simp] theorem State.modCore_migrations (s : State) (i : Nat) (f : Core → Core) : (s.modCore i f).migrations = s.migrations := rfl
@[simp] theorem State.modCore_fgroups (s : State) (i : Nat) (f : Core → Core) : (s.modCore i f).fgroups = s.fgroups := rfl
@[simp] theorem State.modCore_hostq (s : State) (i : Nat) (f : Core → Core) : (s.modCore i f).hostq = s.hostq := rfl
@[simp] theorem State.modCore_hostDrop (s : State) (i : Nat) (f : Core → Core) : (s.modCore i f).hostDrop = s.hostDrop := rfl
@[simp] theorem State.modCore_lstat (s : State) (i : Nat) (f : Core → Core) : (s.modCore i f).lstat = s.lstat := rfl
@[simp] theorem State.modCore_losses (s : State) (i : Nat) (f : Core → Core) : (s.modCore i f).losses = s.losses := rfl
@[simp] theorem State.modCore_lossDrop (s : State) (i : Nat) (f : Core → Core) : (s.modCore i f).lossDrop = s.lossDrop := rfl
@[simp] theorem State.modCore_tdeadb (s : State) (i : Nat) (f : Core → Core) : (s.modCore i f).tdeadb = s.tdeadb := rfl
@[simp] theorem State.modCore_hostRead (s : State) (i : Nat) (f : Core → Core) : (s.modCore i f).hostRead = s.hostRead := rfl
@[simp] theorem State.modCore_hostData (s : State) (i : Nat) (f : Core → Core) : (s.modCore i f).hostData = s.hostData := rfl
@[simp] theorem State.modCore_msix (s : State) (i : Nat) (f : Core → Core) : (s.modCore i f).msix = s.msix := rfl
@[simp] theorem State.modCore_fencemap (s : State) (i : Nat) (f : Core → Core) : (s.modCore i f).fencemap = s.fencemap := rfl
@[simp] theorem State.modCore_hostLines (s : State) (i : Nat) (f : Core → Core) : (s.modCore i f).hostLines = s.hostLines := rfl
@[simp] theorem State.modCore_snoops (s : State) (i : Nat) (f : Core → Core) : (s.modCore i f).snoops = s.snoops := rfl
@[simp] theorem State.modCore_keys (s : State) (i : Nat) (f : Core → Core) : (s.modCore i f).keys = s.keys := rfl
@[simp] theorem State.modCore_keyRecs (s : State) (i : Nat) (f : Core → Core) : (s.modCore i f).keyRecs = s.keyRecs := rfl
@[simp] theorem State.modCore_verified (s : State) (i : Nat) (f : Core → Core) : (s.modCore i f).verified = s.verified := rfl
@[simp] theorem State.modCore_badPorts (s : State) (i : Nat) (f : Core → Core) : (s.modCore i f).badPorts = s.badPorts := rfl
@[simp] theorem State.modCore_retired (s : State) (i : Nat) (f : Core → Core) : (s.modCore i f).retired = s.retired := rfl
@[simp] theorem State.modCore_retiredRows (s : State) (i : Nat) (f : Core → Core) : (s.modCore i f).retiredRows = s.retiredRows := rfl
@[simp] theorem State.modCore_fenceRecs (s : State) (i : Nat) (f : Core → Core) : (s.modCore i f).fenceRecs = s.fenceRecs := rfl
@[simp] theorem State.modCore_storeFails (s : State) (i : Nat) (f : Core → Core) : (s.modCore i f).storeFails = s.storeFails := rfl
@[simp] theorem State.modCore_rootSigned (s : State) (i : Nat) (f : Core → Core) : (s.modCore i f).rootSigned = s.rootSigned := rfl
@[simp] theorem State.modCore_unrecorded (s : State) (i : Nat) (f : Core → Core) : (s.modCore i f).unrecorded = s.unrecorded := rfl
@[simp] theorem State.modCore_attested (s : State) (i : Nat) (f : Core → Core) : (s.modCore i f).attested = s.attested := rfl
@[simp] theorem State.modCore_gone (s : State) (i : Nat) (f : Core → Core) : (s.modCore i f).gone = s.gone := rfl
@[simp] theorem State.modCore_resetting (s : State) (i : Nat) (f : Core → Core) : (s.modCore i f).resetting = s.resetting := rfl
@[simp] theorem State.modCore_portErr (s : State) (i : Nat) (f : Core → Core) : (s.modCore i f).portErr = s.portErr := rfl
@[simp] theorem State.modCore_parts (s : State) (i : Nat) (f : Core → Core) : (s.modCore i f).parts = s.parts := rfl
@[simp] theorem State.modCore_powered (s : State) (i : Nat) (f : Core → Core) : (s.modCore i f).powered = s.powered := rfl

@[simp] theorem State.modVat_cycle (s : State) (i : Nat) (f : Vat → Vat) : (s.modVat i f).cycle = s.cycle := rfl
@[simp] theorem State.modVat_iss (s : State) (i : Nat) (f : Vat → Vat) : (s.modVat i f).iss = s.iss := rfl
@[simp] theorem State.modVat_sched (s : State) (i : Nat) (f : Vat → Vat) : (s.modVat i f).sched = s.sched := rfl
@[simp] theorem State.modVat_fresh (s : State) (i : Nat) (f : Vat → Vat) : (s.modVat i f).fresh = s.fresh := rfl
@[simp] theorem State.modVat_barOpen (s : State) (i : Nat) (f : Vat → Vat) : (s.modVat i f).barOpen = s.barOpen := rfl
@[simp] theorem State.modVat_mem (s : State) (i : Nat) (f : Vat → Vat) : (s.modVat i f).mem = s.mem := rfl
@[simp] theorem State.modVat_stale (s : State) (i : Nat) (f : Vat → Vat) : (s.modVat i f).stale = s.stale := rfl
@[simp] theorem State.modVat_poisoned (s : State) (i : Nat) (f : Vat → Vat) : (s.modVat i f).poisoned = s.poisoned := rfl
@[simp] theorem State.modVat_dirtyBad (s : State) (i : Nat) (f : Vat → Vat) : (s.modVat i f).dirtyBad = s.dirtyBad := rfl
@[simp] theorem State.modVat_pushq (s : State) (i : Nat) (f : Vat → Vat) : (s.modVat i f).pushq = s.pushq := rfl
@[simp] theorem State.modVat_causal (s : State) (i : Nat) (f : Vat → Vat) : (s.modVat i f).causal = s.causal := rfl
@[simp] theorem State.modVat_slotCausal (s : State) (i : Nat) (f : Vat → Vat) : (s.modVat i f).slotCausal = s.slotCausal := rfl
@[simp] theorem State.modVat_teams (s : State) (i : Nat) (f : Vat → Vat) : (s.modVat i f).teams = s.teams := rfl
@[simp] theorem State.modVat_fixed (s : State) (i : Nat) (f : Vat → Vat) : (s.modVat i f).fixed = s.fixed := rfl
@[simp] theorem State.modVat_cores (s : State) (i : Nat) (f : Vat → Vat) : (s.modVat i f).cores = s.cores := rfl
@[simp] theorem State.modVat_wheels (s : State) (i : Nat) (f : Vat → Vat) : (s.modVat i f).wheels = s.wheels := rfl
@[simp] theorem State.modVat_nodes (s : State) (i : Nat) (f : Vat → Vat) : (s.modVat i f).nodes = s.nodes := rfl
@[simp] theorem State.modVat_cap0 (s : State) (i : Nat) (f : Vat → Vat) : (s.modVat i f).cap0 = s.cap0 := rfl
@[simp] theorem State.modVat_cap1 (s : State) (i : Nat) (f : Vat → Vat) : (s.modVat i f).cap1 = s.cap1 := rfl
@[simp] theorem State.modVat_cap2 (s : State) (i : Nat) (f : Vat → Vat) : (s.modVat i f).cap2 = s.cap2 := rfl
@[simp] theorem State.modVat_cap3 (s : State) (i : Nat) (f : Vat → Vat) : (s.modVat i f).cap3 = s.cap3 := rfl
@[simp] theorem State.modVat_spcbase (s : State) (i : Nat) (f : Vat → Vat) : (s.modVat i f).spcbase = s.spcbase := rfl
@[simp] theorem State.modVat_contexts (s : State) (i : Nat) (f : Vat → Vat) : (s.modVat i f).contexts = s.contexts := rfl
@[simp] theorem State.modVat_segments (s : State) (i : Nat) (f : Vat → Vat) : (s.modVat i f).segments = s.segments := rfl
@[simp] theorem State.modVat_defaultSeg (s : State) (i : Nat) (f : Vat → Vat) : (s.modVat i f).defaultSeg = s.defaultSeg := rfl
@[simp] theorem State.modVat_regions (s : State) (i : Nat) (f : Vat → Vat) : (s.modVat i f).regions = s.regions := rfl
@[simp] theorem State.modVat_cmds (s : State) (i : Nat) (f : Vat → Vat) : (s.modVat i f).cmds = s.cmds := rfl
@[simp] theorem State.modVat_jobs (s : State) (i : Nat) (f : Vat → Vat) : (s.modVat i f).jobs = s.jobs := rfl
@[simp] theorem State.modVat_cmdWaits (s : State) (i : Nat) (f : Vat → Vat) : (s.modVat i f).cmdWaits = s.cmdWaits := rfl
@[simp] theorem State.modVat_subs (s : State) (i : Nat) (f : Vat → Vat) : (s.modVat i f).subs = s.subs := rfl
@[simp] theorem State.modVat_flights (s : State) (i : Nat) (f : Vat → Vat) : (s.modVat i f).flights = s.flights := rfl
@[simp] theorem State.modVat_shoots (s : State) (i : Nat) (f : Vat → Vat) : (s.modVat i f).shoots = s.shoots := rfl
@[simp] theorem State.modVat_migrations (s : State) (i : Nat) (f : Vat → Vat) : (s.modVat i f).migrations = s.migrations := rfl
@[simp] theorem State.modVat_fgroups (s : State) (i : Nat) (f : Vat → Vat) : (s.modVat i f).fgroups = s.fgroups := rfl
@[simp] theorem State.modVat_hostq (s : State) (i : Nat) (f : Vat → Vat) : (s.modVat i f).hostq = s.hostq := rfl
@[simp] theorem State.modVat_hostDrop (s : State) (i : Nat) (f : Vat → Vat) : (s.modVat i f).hostDrop = s.hostDrop := rfl
@[simp] theorem State.modVat_lstat (s : State) (i : Nat) (f : Vat → Vat) : (s.modVat i f).lstat = s.lstat := rfl
@[simp] theorem State.modVat_losses (s : State) (i : Nat) (f : Vat → Vat) : (s.modVat i f).losses = s.losses := rfl
@[simp] theorem State.modVat_lossDrop (s : State) (i : Nat) (f : Vat → Vat) : (s.modVat i f).lossDrop = s.lossDrop := rfl
@[simp] theorem State.modVat_tdeadb (s : State) (i : Nat) (f : Vat → Vat) : (s.modVat i f).tdeadb = s.tdeadb := rfl
@[simp] theorem State.modVat_hostRead (s : State) (i : Nat) (f : Vat → Vat) : (s.modVat i f).hostRead = s.hostRead := rfl
@[simp] theorem State.modVat_hostData (s : State) (i : Nat) (f : Vat → Vat) : (s.modVat i f).hostData = s.hostData := rfl
@[simp] theorem State.modVat_msix (s : State) (i : Nat) (f : Vat → Vat) : (s.modVat i f).msix = s.msix := rfl
@[simp] theorem State.modVat_fencemap (s : State) (i : Nat) (f : Vat → Vat) : (s.modVat i f).fencemap = s.fencemap := rfl
@[simp] theorem State.modVat_hostLines (s : State) (i : Nat) (f : Vat → Vat) : (s.modVat i f).hostLines = s.hostLines := rfl
@[simp] theorem State.modVat_snoops (s : State) (i : Nat) (f : Vat → Vat) : (s.modVat i f).snoops = s.snoops := rfl
@[simp] theorem State.modVat_keys (s : State) (i : Nat) (f : Vat → Vat) : (s.modVat i f).keys = s.keys := rfl
@[simp] theorem State.modVat_keyRecs (s : State) (i : Nat) (f : Vat → Vat) : (s.modVat i f).keyRecs = s.keyRecs := rfl
@[simp] theorem State.modVat_verified (s : State) (i : Nat) (f : Vat → Vat) : (s.modVat i f).verified = s.verified := rfl
@[simp] theorem State.modVat_badPorts (s : State) (i : Nat) (f : Vat → Vat) : (s.modVat i f).badPorts = s.badPorts := rfl
@[simp] theorem State.modVat_retired (s : State) (i : Nat) (f : Vat → Vat) : (s.modVat i f).retired = s.retired := rfl
@[simp] theorem State.modVat_retiredRows (s : State) (i : Nat) (f : Vat → Vat) : (s.modVat i f).retiredRows = s.retiredRows := rfl
@[simp] theorem State.modVat_fenceRecs (s : State) (i : Nat) (f : Vat → Vat) : (s.modVat i f).fenceRecs = s.fenceRecs := rfl
@[simp] theorem State.modVat_storeFails (s : State) (i : Nat) (f : Vat → Vat) : (s.modVat i f).storeFails = s.storeFails := rfl
@[simp] theorem State.modVat_rootSigned (s : State) (i : Nat) (f : Vat → Vat) : (s.modVat i f).rootSigned = s.rootSigned := rfl
@[simp] theorem State.modVat_unrecorded (s : State) (i : Nat) (f : Vat → Vat) : (s.modVat i f).unrecorded = s.unrecorded := rfl
@[simp] theorem State.modVat_attested (s : State) (i : Nat) (f : Vat → Vat) : (s.modVat i f).attested = s.attested := rfl
@[simp] theorem State.modVat_gone (s : State) (i : Nat) (f : Vat → Vat) : (s.modVat i f).gone = s.gone := rfl
@[simp] theorem State.modVat_resetting (s : State) (i : Nat) (f : Vat → Vat) : (s.modVat i f).resetting = s.resetting := rfl
@[simp] theorem State.modVat_portErr (s : State) (i : Nat) (f : Vat → Vat) : (s.modVat i f).portErr = s.portErr := rfl
@[simp] theorem State.modVat_parts (s : State) (i : Nat) (f : Vat → Vat) : (s.modVat i f).parts = s.parts := rfl
@[simp] theorem State.modVat_powered (s : State) (i : Nat) (f : Vat → Vat) : (s.modVat i f).powered = s.powered := rfl

@[simp] theorem State.modWheel_cycle (s : State) (i : Nat) (f : Wheel → Wheel) : (s.modWheel i f).cycle = s.cycle := rfl
@[simp] theorem State.modWheel_iss (s : State) (i : Nat) (f : Wheel → Wheel) : (s.modWheel i f).iss = s.iss := rfl
@[simp] theorem State.modWheel_sched (s : State) (i : Nat) (f : Wheel → Wheel) : (s.modWheel i f).sched = s.sched := rfl
@[simp] theorem State.modWheel_fresh (s : State) (i : Nat) (f : Wheel → Wheel) : (s.modWheel i f).fresh = s.fresh := rfl
@[simp] theorem State.modWheel_barOpen (s : State) (i : Nat) (f : Wheel → Wheel) : (s.modWheel i f).barOpen = s.barOpen := rfl
@[simp] theorem State.modWheel_mem (s : State) (i : Nat) (f : Wheel → Wheel) : (s.modWheel i f).mem = s.mem := rfl
@[simp] theorem State.modWheel_stale (s : State) (i : Nat) (f : Wheel → Wheel) : (s.modWheel i f).stale = s.stale := rfl
@[simp] theorem State.modWheel_poisoned (s : State) (i : Nat) (f : Wheel → Wheel) : (s.modWheel i f).poisoned = s.poisoned := rfl
@[simp] theorem State.modWheel_dirtyBad (s : State) (i : Nat) (f : Wheel → Wheel) : (s.modWheel i f).dirtyBad = s.dirtyBad := rfl
@[simp] theorem State.modWheel_pushq (s : State) (i : Nat) (f : Wheel → Wheel) : (s.modWheel i f).pushq = s.pushq := rfl
@[simp] theorem State.modWheel_causal (s : State) (i : Nat) (f : Wheel → Wheel) : (s.modWheel i f).causal = s.causal := rfl
@[simp] theorem State.modWheel_slotCausal (s : State) (i : Nat) (f : Wheel → Wheel) : (s.modWheel i f).slotCausal = s.slotCausal := rfl
@[simp] theorem State.modWheel_teams (s : State) (i : Nat) (f : Wheel → Wheel) : (s.modWheel i f).teams = s.teams := rfl
@[simp] theorem State.modWheel_fixed (s : State) (i : Nat) (f : Wheel → Wheel) : (s.modWheel i f).fixed = s.fixed := rfl
@[simp] theorem State.modWheel_cores (s : State) (i : Nat) (f : Wheel → Wheel) : (s.modWheel i f).cores = s.cores := rfl
@[simp] theorem State.modWheel_vats (s : State) (i : Nat) (f : Wheel → Wheel) : (s.modWheel i f).vats = s.vats := rfl
@[simp] theorem State.modWheel_nodes (s : State) (i : Nat) (f : Wheel → Wheel) : (s.modWheel i f).nodes = s.nodes := rfl
@[simp] theorem State.modWheel_cap0 (s : State) (i : Nat) (f : Wheel → Wheel) : (s.modWheel i f).cap0 = s.cap0 := rfl
@[simp] theorem State.modWheel_cap1 (s : State) (i : Nat) (f : Wheel → Wheel) : (s.modWheel i f).cap1 = s.cap1 := rfl
@[simp] theorem State.modWheel_cap2 (s : State) (i : Nat) (f : Wheel → Wheel) : (s.modWheel i f).cap2 = s.cap2 := rfl
@[simp] theorem State.modWheel_cap3 (s : State) (i : Nat) (f : Wheel → Wheel) : (s.modWheel i f).cap3 = s.cap3 := rfl
@[simp] theorem State.modWheel_spcbase (s : State) (i : Nat) (f : Wheel → Wheel) : (s.modWheel i f).spcbase = s.spcbase := rfl
@[simp] theorem State.modWheel_contexts (s : State) (i : Nat) (f : Wheel → Wheel) : (s.modWheel i f).contexts = s.contexts := rfl
@[simp] theorem State.modWheel_segments (s : State) (i : Nat) (f : Wheel → Wheel) : (s.modWheel i f).segments = s.segments := rfl
@[simp] theorem State.modWheel_defaultSeg (s : State) (i : Nat) (f : Wheel → Wheel) : (s.modWheel i f).defaultSeg = s.defaultSeg := rfl
@[simp] theorem State.modWheel_regions (s : State) (i : Nat) (f : Wheel → Wheel) : (s.modWheel i f).regions = s.regions := rfl
@[simp] theorem State.modWheel_cmds (s : State) (i : Nat) (f : Wheel → Wheel) : (s.modWheel i f).cmds = s.cmds := rfl
@[simp] theorem State.modWheel_jobs (s : State) (i : Nat) (f : Wheel → Wheel) : (s.modWheel i f).jobs = s.jobs := rfl
@[simp] theorem State.modWheel_cmdWaits (s : State) (i : Nat) (f : Wheel → Wheel) : (s.modWheel i f).cmdWaits = s.cmdWaits := rfl
@[simp] theorem State.modWheel_subs (s : State) (i : Nat) (f : Wheel → Wheel) : (s.modWheel i f).subs = s.subs := rfl
@[simp] theorem State.modWheel_flights (s : State) (i : Nat) (f : Wheel → Wheel) : (s.modWheel i f).flights = s.flights := rfl
@[simp] theorem State.modWheel_shoots (s : State) (i : Nat) (f : Wheel → Wheel) : (s.modWheel i f).shoots = s.shoots := rfl
@[simp] theorem State.modWheel_migrations (s : State) (i : Nat) (f : Wheel → Wheel) : (s.modWheel i f).migrations = s.migrations := rfl
@[simp] theorem State.modWheel_fgroups (s : State) (i : Nat) (f : Wheel → Wheel) : (s.modWheel i f).fgroups = s.fgroups := rfl
@[simp] theorem State.modWheel_hostq (s : State) (i : Nat) (f : Wheel → Wheel) : (s.modWheel i f).hostq = s.hostq := rfl
@[simp] theorem State.modWheel_hostDrop (s : State) (i : Nat) (f : Wheel → Wheel) : (s.modWheel i f).hostDrop = s.hostDrop := rfl
@[simp] theorem State.modWheel_lstat (s : State) (i : Nat) (f : Wheel → Wheel) : (s.modWheel i f).lstat = s.lstat := rfl
@[simp] theorem State.modWheel_losses (s : State) (i : Nat) (f : Wheel → Wheel) : (s.modWheel i f).losses = s.losses := rfl
@[simp] theorem State.modWheel_lossDrop (s : State) (i : Nat) (f : Wheel → Wheel) : (s.modWheel i f).lossDrop = s.lossDrop := rfl
@[simp] theorem State.modWheel_tdeadb (s : State) (i : Nat) (f : Wheel → Wheel) : (s.modWheel i f).tdeadb = s.tdeadb := rfl
@[simp] theorem State.modWheel_hostRead (s : State) (i : Nat) (f : Wheel → Wheel) : (s.modWheel i f).hostRead = s.hostRead := rfl
@[simp] theorem State.modWheel_hostData (s : State) (i : Nat) (f : Wheel → Wheel) : (s.modWheel i f).hostData = s.hostData := rfl
@[simp] theorem State.modWheel_msix (s : State) (i : Nat) (f : Wheel → Wheel) : (s.modWheel i f).msix = s.msix := rfl
@[simp] theorem State.modWheel_fencemap (s : State) (i : Nat) (f : Wheel → Wheel) : (s.modWheel i f).fencemap = s.fencemap := rfl
@[simp] theorem State.modWheel_hostLines (s : State) (i : Nat) (f : Wheel → Wheel) : (s.modWheel i f).hostLines = s.hostLines := rfl
@[simp] theorem State.modWheel_snoops (s : State) (i : Nat) (f : Wheel → Wheel) : (s.modWheel i f).snoops = s.snoops := rfl
@[simp] theorem State.modWheel_keys (s : State) (i : Nat) (f : Wheel → Wheel) : (s.modWheel i f).keys = s.keys := rfl
@[simp] theorem State.modWheel_keyRecs (s : State) (i : Nat) (f : Wheel → Wheel) : (s.modWheel i f).keyRecs = s.keyRecs := rfl
@[simp] theorem State.modWheel_verified (s : State) (i : Nat) (f : Wheel → Wheel) : (s.modWheel i f).verified = s.verified := rfl
@[simp] theorem State.modWheel_badPorts (s : State) (i : Nat) (f : Wheel → Wheel) : (s.modWheel i f).badPorts = s.badPorts := rfl
@[simp] theorem State.modWheel_retired (s : State) (i : Nat) (f : Wheel → Wheel) : (s.modWheel i f).retired = s.retired := rfl
@[simp] theorem State.modWheel_retiredRows (s : State) (i : Nat) (f : Wheel → Wheel) : (s.modWheel i f).retiredRows = s.retiredRows := rfl
@[simp] theorem State.modWheel_fenceRecs (s : State) (i : Nat) (f : Wheel → Wheel) : (s.modWheel i f).fenceRecs = s.fenceRecs := rfl
@[simp] theorem State.modWheel_storeFails (s : State) (i : Nat) (f : Wheel → Wheel) : (s.modWheel i f).storeFails = s.storeFails := rfl
@[simp] theorem State.modWheel_rootSigned (s : State) (i : Nat) (f : Wheel → Wheel) : (s.modWheel i f).rootSigned = s.rootSigned := rfl
@[simp] theorem State.modWheel_unrecorded (s : State) (i : Nat) (f : Wheel → Wheel) : (s.modWheel i f).unrecorded = s.unrecorded := rfl
@[simp] theorem State.modWheel_attested (s : State) (i : Nat) (f : Wheel → Wheel) : (s.modWheel i f).attested = s.attested := rfl
@[simp] theorem State.modWheel_gone (s : State) (i : Nat) (f : Wheel → Wheel) : (s.modWheel i f).gone = s.gone := rfl
@[simp] theorem State.modWheel_resetting (s : State) (i : Nat) (f : Wheel → Wheel) : (s.modWheel i f).resetting = s.resetting := rfl
@[simp] theorem State.modWheel_portErr (s : State) (i : Nat) (f : Wheel → Wheel) : (s.modWheel i f).portErr = s.portErr := rfl
@[simp] theorem State.modWheel_parts (s : State) (i : Nat) (f : Wheel → Wheel) : (s.modWheel i f).parts = s.parts := rfl
@[simp] theorem State.modWheel_powered (s : State) (i : Nat) (f : Wheel → Wheel) : (s.modWheel i f).powered = s.powered := rfl

@[simp] theorem State.count_cycle (s : State) (w r n : Nat) : (s.count w r n).cycle = s.cycle := rfl
@[simp] theorem State.count_iss (s : State) (w r n : Nat) : (s.count w r n).iss = s.iss := rfl
@[simp] theorem State.count_sched (s : State) (w r n : Nat) : (s.count w r n).sched = s.sched := rfl
@[simp] theorem State.count_fresh (s : State) (w r n : Nat) : (s.count w r n).fresh = s.fresh := rfl
@[simp] theorem State.count_barOpen (s : State) (w r n : Nat) : (s.count w r n).barOpen = s.barOpen := rfl
@[simp] theorem State.count_mem (s : State) (w r n : Nat) : (s.count w r n).mem = s.mem := rfl
@[simp] theorem State.count_stale (s : State) (w r n : Nat) : (s.count w r n).stale = s.stale := rfl
@[simp] theorem State.count_poisoned (s : State) (w r n : Nat) : (s.count w r n).poisoned = s.poisoned := rfl
@[simp] theorem State.count_dirtyBad (s : State) (w r n : Nat) : (s.count w r n).dirtyBad = s.dirtyBad := rfl
@[simp] theorem State.count_pushq (s : State) (w r n : Nat) : (s.count w r n).pushq = s.pushq := rfl
@[simp] theorem State.count_causal (s : State) (w r n : Nat) : (s.count w r n).causal = s.causal := rfl
@[simp] theorem State.count_slotCausal (s : State) (w r n : Nat) : (s.count w r n).slotCausal = s.slotCausal := rfl
@[simp] theorem State.count_teams (s : State) (w r n : Nat) : (s.count w r n).teams = s.teams := rfl
@[simp] theorem State.count_fixed (s : State) (w r n : Nat) : (s.count w r n).fixed = s.fixed := rfl
@[simp] theorem State.count_cores (s : State) (w r n : Nat) : (s.count w r n).cores = s.cores := rfl
@[simp] theorem State.count_vats (s : State) (w r n : Nat) : (s.count w r n).vats = s.vats := rfl
@[simp] theorem State.count_nodes (s : State) (w r n : Nat) : (s.count w r n).nodes = s.nodes := rfl
@[simp] theorem State.count_cap0 (s : State) (w r n : Nat) : (s.count w r n).cap0 = s.cap0 := rfl
@[simp] theorem State.count_cap1 (s : State) (w r n : Nat) : (s.count w r n).cap1 = s.cap1 := rfl
@[simp] theorem State.count_cap2 (s : State) (w r n : Nat) : (s.count w r n).cap2 = s.cap2 := rfl
@[simp] theorem State.count_cap3 (s : State) (w r n : Nat) : (s.count w r n).cap3 = s.cap3 := rfl
@[simp] theorem State.count_spcbase (s : State) (w r n : Nat) : (s.count w r n).spcbase = s.spcbase := rfl
@[simp] theorem State.count_contexts (s : State) (w r n : Nat) : (s.count w r n).contexts = s.contexts := rfl
@[simp] theorem State.count_segments (s : State) (w r n : Nat) : (s.count w r n).segments = s.segments := rfl
@[simp] theorem State.count_defaultSeg (s : State) (w r n : Nat) : (s.count w r n).defaultSeg = s.defaultSeg := rfl
@[simp] theorem State.count_regions (s : State) (w r n : Nat) : (s.count w r n).regions = s.regions := rfl
@[simp] theorem State.count_cmds (s : State) (w r n : Nat) : (s.count w r n).cmds = s.cmds := rfl
@[simp] theorem State.count_jobs (s : State) (w r n : Nat) : (s.count w r n).jobs = s.jobs := rfl
@[simp] theorem State.count_cmdWaits (s : State) (w r n : Nat) : (s.count w r n).cmdWaits = s.cmdWaits := rfl
@[simp] theorem State.count_subs (s : State) (w r n : Nat) : (s.count w r n).subs = s.subs := rfl
@[simp] theorem State.count_flights (s : State) (w r n : Nat) : (s.count w r n).flights = s.flights := rfl
@[simp] theorem State.count_shoots (s : State) (w r n : Nat) : (s.count w r n).shoots = s.shoots := rfl
@[simp] theorem State.count_migrations (s : State) (w r n : Nat) : (s.count w r n).migrations = s.migrations := rfl
@[simp] theorem State.count_fgroups (s : State) (w r n : Nat) : (s.count w r n).fgroups = s.fgroups := rfl
@[simp] theorem State.count_hostq (s : State) (w r n : Nat) : (s.count w r n).hostq = s.hostq := rfl
@[simp] theorem State.count_hostDrop (s : State) (w r n : Nat) : (s.count w r n).hostDrop = s.hostDrop := rfl
@[simp] theorem State.count_lstat (s : State) (w r n : Nat) : (s.count w r n).lstat = s.lstat := rfl
@[simp] theorem State.count_losses (s : State) (w r n : Nat) : (s.count w r n).losses = s.losses := rfl
@[simp] theorem State.count_lossDrop (s : State) (w r n : Nat) : (s.count w r n).lossDrop = s.lossDrop := rfl
@[simp] theorem State.count_tdeadb (s : State) (w r n : Nat) : (s.count w r n).tdeadb = s.tdeadb := rfl
@[simp] theorem State.count_hostRead (s : State) (w r n : Nat) : (s.count w r n).hostRead = s.hostRead := rfl
@[simp] theorem State.count_hostData (s : State) (w r n : Nat) : (s.count w r n).hostData = s.hostData := rfl
@[simp] theorem State.count_msix (s : State) (w r n : Nat) : (s.count w r n).msix = s.msix := rfl
@[simp] theorem State.count_fencemap (s : State) (w r n : Nat) : (s.count w r n).fencemap = s.fencemap := rfl
@[simp] theorem State.count_hostLines (s : State) (w r n : Nat) : (s.count w r n).hostLines = s.hostLines := rfl
@[simp] theorem State.count_snoops (s : State) (w r n : Nat) : (s.count w r n).snoops = s.snoops := rfl
@[simp] theorem State.count_keys (s : State) (w r n : Nat) : (s.count w r n).keys = s.keys := rfl
@[simp] theorem State.count_keyRecs (s : State) (w r n : Nat) : (s.count w r n).keyRecs = s.keyRecs := rfl
@[simp] theorem State.count_verified (s : State) (w r n : Nat) : (s.count w r n).verified = s.verified := rfl
@[simp] theorem State.count_badPorts (s : State) (w r n : Nat) : (s.count w r n).badPorts = s.badPorts := rfl
@[simp] theorem State.count_retired (s : State) (w r n : Nat) : (s.count w r n).retired = s.retired := rfl
@[simp] theorem State.count_retiredRows (s : State) (w r n : Nat) : (s.count w r n).retiredRows = s.retiredRows := rfl
@[simp] theorem State.count_fenceRecs (s : State) (w r n : Nat) : (s.count w r n).fenceRecs = s.fenceRecs := rfl
@[simp] theorem State.count_storeFails (s : State) (w r n : Nat) : (s.count w r n).storeFails = s.storeFails := rfl
@[simp] theorem State.count_rootSigned (s : State) (w r n : Nat) : (s.count w r n).rootSigned = s.rootSigned := rfl
@[simp] theorem State.count_unrecorded (s : State) (w r n : Nat) : (s.count w r n).unrecorded = s.unrecorded := rfl
@[simp] theorem State.count_attested (s : State) (w r n : Nat) : (s.count w r n).attested = s.attested := rfl
@[simp] theorem State.count_gone (s : State) (w r n : Nat) : (s.count w r n).gone = s.gone := rfl
@[simp] theorem State.count_resetting (s : State) (w r n : Nat) : (s.count w r n).resetting = s.resetting := rfl
@[simp] theorem State.count_portErr (s : State) (w r n : Nat) : (s.count w r n).portErr = s.portErr := rfl
@[simp] theorem State.count_parts (s : State) (w r n : Nat) : (s.count w r n).parts = s.parts := rfl
@[simp] theorem State.count_powered (s : State) (w r n : Nat) : (s.count w r n).powered = s.powered := rfl

@[simp] theorem State.tick_cycle (s : State) : s.tick.cycle = s.cycle := rfl
@[simp] theorem State.tick_iss (s : State) : s.tick.iss = s.iss := rfl
@[simp] theorem State.tick_sched (s : State) : s.tick.sched = s.sched := rfl
@[simp] theorem State.tick_barOpen (s : State) : s.tick.barOpen = s.barOpen := rfl
@[simp] theorem State.tick_mem (s : State) : s.tick.mem = s.mem := rfl
@[simp] theorem State.tick_stale (s : State) : s.tick.stale = s.stale := rfl
@[simp] theorem State.tick_poisoned (s : State) : s.tick.poisoned = s.poisoned := rfl
@[simp] theorem State.tick_dirtyBad (s : State) : s.tick.dirtyBad = s.dirtyBad := rfl
@[simp] theorem State.tick_pushq (s : State) : s.tick.pushq = s.pushq := rfl
@[simp] theorem State.tick_causal (s : State) : s.tick.causal = s.causal := rfl
@[simp] theorem State.tick_slotCausal (s : State) : s.tick.slotCausal = s.slotCausal := rfl
@[simp] theorem State.tick_teams (s : State) : s.tick.teams = s.teams := rfl
@[simp] theorem State.tick_fixed (s : State) : s.tick.fixed = s.fixed := rfl
@[simp] theorem State.tick_cores (s : State) : s.tick.cores = s.cores := rfl
@[simp] theorem State.tick_vats (s : State) : s.tick.vats = s.vats := rfl
@[simp] theorem State.tick_wheels (s : State) : s.tick.wheels = s.wheels := rfl
@[simp] theorem State.tick_nodes (s : State) : s.tick.nodes = s.nodes := rfl
@[simp] theorem State.tick_cap0 (s : State) : s.tick.cap0 = s.cap0 := rfl
@[simp] theorem State.tick_cap1 (s : State) : s.tick.cap1 = s.cap1 := rfl
@[simp] theorem State.tick_cap2 (s : State) : s.tick.cap2 = s.cap2 := rfl
@[simp] theorem State.tick_cap3 (s : State) : s.tick.cap3 = s.cap3 := rfl
@[simp] theorem State.tick_spcbase (s : State) : s.tick.spcbase = s.spcbase := rfl
@[simp] theorem State.tick_contexts (s : State) : s.tick.contexts = s.contexts := rfl
@[simp] theorem State.tick_segments (s : State) : s.tick.segments = s.segments := rfl
@[simp] theorem State.tick_defaultSeg (s : State) : s.tick.defaultSeg = s.defaultSeg := rfl
@[simp] theorem State.tick_regions (s : State) : s.tick.regions = s.regions := rfl
@[simp] theorem State.tick_cmds (s : State) : s.tick.cmds = s.cmds := rfl
@[simp] theorem State.tick_jobs (s : State) : s.tick.jobs = s.jobs := rfl
@[simp] theorem State.tick_cmdWaits (s : State) : s.tick.cmdWaits = s.cmdWaits := rfl
@[simp] theorem State.tick_subs (s : State) : s.tick.subs = s.subs := rfl
@[simp] theorem State.tick_flights (s : State) : s.tick.flights = s.flights := rfl
@[simp] theorem State.tick_shoots (s : State) : s.tick.shoots = s.shoots := rfl
@[simp] theorem State.tick_migrations (s : State) : s.tick.migrations = s.migrations := rfl
@[simp] theorem State.tick_fgroups (s : State) : s.tick.fgroups = s.fgroups := rfl
@[simp] theorem State.tick_hostq (s : State) : s.tick.hostq = s.hostq := rfl
@[simp] theorem State.tick_hostDrop (s : State) : s.tick.hostDrop = s.hostDrop := rfl
@[simp] theorem State.tick_lstat (s : State) : s.tick.lstat = s.lstat := rfl
@[simp] theorem State.tick_losses (s : State) : s.tick.losses = s.losses := rfl
@[simp] theorem State.tick_lossDrop (s : State) : s.tick.lossDrop = s.lossDrop := rfl
@[simp] theorem State.tick_tdeadb (s : State) : s.tick.tdeadb = s.tdeadb := rfl
@[simp] theorem State.tick_hostRead (s : State) : s.tick.hostRead = s.hostRead := rfl
@[simp] theorem State.tick_hostData (s : State) : s.tick.hostData = s.hostData := rfl
@[simp] theorem State.tick_msix (s : State) : s.tick.msix = s.msix := rfl
@[simp] theorem State.tick_fencemap (s : State) : s.tick.fencemap = s.fencemap := rfl
@[simp] theorem State.tick_hostLines (s : State) : s.tick.hostLines = s.hostLines := rfl
@[simp] theorem State.tick_snoops (s : State) : s.tick.snoops = s.snoops := rfl
@[simp] theorem State.tick_keys (s : State) : s.tick.keys = s.keys := rfl
@[simp] theorem State.tick_keyRecs (s : State) : s.tick.keyRecs = s.keyRecs := rfl
@[simp] theorem State.tick_verified (s : State) : s.tick.verified = s.verified := rfl
@[simp] theorem State.tick_badPorts (s : State) : s.tick.badPorts = s.badPorts := rfl
@[simp] theorem State.tick_retired (s : State) : s.tick.retired = s.retired := rfl
@[simp] theorem State.tick_retiredRows (s : State) : s.tick.retiredRows = s.retiredRows := rfl
@[simp] theorem State.tick_fenceRecs (s : State) : s.tick.fenceRecs = s.fenceRecs := rfl
@[simp] theorem State.tick_storeFails (s : State) : s.tick.storeFails = s.storeFails := rfl
@[simp] theorem State.tick_rootSigned (s : State) : s.tick.rootSigned = s.rootSigned := rfl
@[simp] theorem State.tick_unrecorded (s : State) : s.tick.unrecorded = s.unrecorded := rfl
@[simp] theorem State.tick_attested (s : State) : s.tick.attested = s.attested := rfl
@[simp] theorem State.tick_gone (s : State) : s.tick.gone = s.gone := rfl
@[simp] theorem State.tick_resetting (s : State) : s.tick.resetting = s.resetting := rfl
@[simp] theorem State.tick_portErr (s : State) : s.tick.portErr = s.portErr := rfl
@[simp] theorem State.tick_parts (s : State) : s.tick.parts = s.parts := rfl
@[simp] theorem State.tick_powered (s : State) : s.tick.powered = s.powered := rfl

@[simp] theorem State.putStatus_cycle (s : State) (q : BitVec 6) (c h : Nat) : (s.putStatus q c h).cycle = s.cycle := rfl
@[simp] theorem State.putStatus_iss (s : State) (q : BitVec 6) (c h : Nat) : (s.putStatus q c h).iss = s.iss := rfl
@[simp] theorem State.putStatus_sched (s : State) (q : BitVec 6) (c h : Nat) : (s.putStatus q c h).sched = s.sched := rfl
@[simp] theorem State.putStatus_fresh (s : State) (q : BitVec 6) (c h : Nat) : (s.putStatus q c h).fresh = s.fresh := rfl
@[simp] theorem State.putStatus_barOpen (s : State) (q : BitVec 6) (c h : Nat) : (s.putStatus q c h).barOpen = s.barOpen := rfl
@[simp] theorem State.putStatus_mem (s : State) (q : BitVec 6) (c h : Nat) : (s.putStatus q c h).mem = s.mem := rfl
@[simp] theorem State.putStatus_stale (s : State) (q : BitVec 6) (c h : Nat) : (s.putStatus q c h).stale = s.stale := rfl
@[simp] theorem State.putStatus_poisoned (s : State) (q : BitVec 6) (c h : Nat) : (s.putStatus q c h).poisoned = s.poisoned := rfl
@[simp] theorem State.putStatus_dirtyBad (s : State) (q : BitVec 6) (c h : Nat) : (s.putStatus q c h).dirtyBad = s.dirtyBad := rfl
@[simp] theorem State.putStatus_pushq (s : State) (q : BitVec 6) (c h : Nat) : (s.putStatus q c h).pushq = s.pushq := rfl
@[simp] theorem State.putStatus_causal (s : State) (q : BitVec 6) (c h : Nat) : (s.putStatus q c h).causal = s.causal := rfl
@[simp] theorem State.putStatus_slotCausal (s : State) (q : BitVec 6) (c h : Nat) : (s.putStatus q c h).slotCausal = s.slotCausal := rfl
@[simp] theorem State.putStatus_fixed (s : State) (q : BitVec 6) (c h : Nat) : (s.putStatus q c h).fixed = s.fixed := rfl
@[simp] theorem State.putStatus_cores (s : State) (q : BitVec 6) (c h : Nat) : (s.putStatus q c h).cores = s.cores := rfl
@[simp] theorem State.putStatus_vats (s : State) (q : BitVec 6) (c h : Nat) : (s.putStatus q c h).vats = s.vats := rfl
@[simp] theorem State.putStatus_wheels (s : State) (q : BitVec 6) (c h : Nat) : (s.putStatus q c h).wheels = s.wheels := rfl
@[simp] theorem State.putStatus_nodes (s : State) (q : BitVec 6) (c h : Nat) : (s.putStatus q c h).nodes = s.nodes := rfl
@[simp] theorem State.putStatus_cap0 (s : State) (q : BitVec 6) (c h : Nat) : (s.putStatus q c h).cap0 = s.cap0 := rfl
@[simp] theorem State.putStatus_cap1 (s : State) (q : BitVec 6) (c h : Nat) : (s.putStatus q c h).cap1 = s.cap1 := rfl
@[simp] theorem State.putStatus_cap2 (s : State) (q : BitVec 6) (c h : Nat) : (s.putStatus q c h).cap2 = s.cap2 := rfl
@[simp] theorem State.putStatus_cap3 (s : State) (q : BitVec 6) (c h : Nat) : (s.putStatus q c h).cap3 = s.cap3 := rfl
@[simp] theorem State.putStatus_spcbase (s : State) (q : BitVec 6) (c h : Nat) : (s.putStatus q c h).spcbase = s.spcbase := rfl
@[simp] theorem State.putStatus_contexts (s : State) (q : BitVec 6) (c h : Nat) : (s.putStatus q c h).contexts = s.contexts := rfl
@[simp] theorem State.putStatus_segments (s : State) (q : BitVec 6) (c h : Nat) : (s.putStatus q c h).segments = s.segments := rfl
@[simp] theorem State.putStatus_defaultSeg (s : State) (q : BitVec 6) (c h : Nat) : (s.putStatus q c h).defaultSeg = s.defaultSeg := rfl
@[simp] theorem State.putStatus_regions (s : State) (q : BitVec 6) (c h : Nat) : (s.putStatus q c h).regions = s.regions := rfl
@[simp] theorem State.putStatus_cmds (s : State) (q : BitVec 6) (c h : Nat) : (s.putStatus q c h).cmds = s.cmds := rfl
@[simp] theorem State.putStatus_jobs (s : State) (q : BitVec 6) (c h : Nat) : (s.putStatus q c h).jobs = s.jobs := rfl
@[simp] theorem State.putStatus_cmdWaits (s : State) (q : BitVec 6) (c h : Nat) : (s.putStatus q c h).cmdWaits = s.cmdWaits := rfl
@[simp] theorem State.putStatus_subs (s : State) (q : BitVec 6) (c h : Nat) : (s.putStatus q c h).subs = s.subs := rfl
@[simp] theorem State.putStatus_flights (s : State) (q : BitVec 6) (c h : Nat) : (s.putStatus q c h).flights = s.flights := rfl
@[simp] theorem State.putStatus_shoots (s : State) (q : BitVec 6) (c h : Nat) : (s.putStatus q c h).shoots = s.shoots := rfl
@[simp] theorem State.putStatus_migrations (s : State) (q : BitVec 6) (c h : Nat) : (s.putStatus q c h).migrations = s.migrations := rfl
@[simp] theorem State.putStatus_fgroups (s : State) (q : BitVec 6) (c h : Nat) : (s.putStatus q c h).fgroups = s.fgroups := rfl
@[simp] theorem State.putStatus_hostq (s : State) (q : BitVec 6) (c h : Nat) : (s.putStatus q c h).hostq = s.hostq := rfl
@[simp] theorem State.putStatus_hostDrop (s : State) (q : BitVec 6) (c h : Nat) : (s.putStatus q c h).hostDrop = s.hostDrop := rfl
@[simp] theorem State.putStatus_lstat (s : State) (q : BitVec 6) (c h : Nat) : (s.putStatus q c h).lstat = s.lstat := rfl
@[simp] theorem State.putStatus_losses (s : State) (q : BitVec 6) (c h : Nat) : (s.putStatus q c h).losses = s.losses := rfl
@[simp] theorem State.putStatus_lossDrop (s : State) (q : BitVec 6) (c h : Nat) : (s.putStatus q c h).lossDrop = s.lossDrop := rfl
@[simp] theorem State.putStatus_tdeadb (s : State) (q : BitVec 6) (c h : Nat) : (s.putStatus q c h).tdeadb = s.tdeadb := rfl
@[simp] theorem State.putStatus_hostRead (s : State) (q : BitVec 6) (c h : Nat) : (s.putStatus q c h).hostRead = s.hostRead := rfl
@[simp] theorem State.putStatus_hostData (s : State) (q : BitVec 6) (c h : Nat) : (s.putStatus q c h).hostData = s.hostData := rfl
@[simp] theorem State.putStatus_msix (s : State) (q : BitVec 6) (c h : Nat) : (s.putStatus q c h).msix = s.msix := rfl
@[simp] theorem State.putStatus_fencemap (s : State) (q : BitVec 6) (c h : Nat) : (s.putStatus q c h).fencemap = s.fencemap := rfl
@[simp] theorem State.putStatus_hostLines (s : State) (q : BitVec 6) (c h : Nat) : (s.putStatus q c h).hostLines = s.hostLines := rfl
@[simp] theorem State.putStatus_snoops (s : State) (q : BitVec 6) (c h : Nat) : (s.putStatus q c h).snoops = s.snoops := rfl
@[simp] theorem State.putStatus_keys (s : State) (q : BitVec 6) (c h : Nat) : (s.putStatus q c h).keys = s.keys := rfl
@[simp] theorem State.putStatus_keyRecs (s : State) (q : BitVec 6) (c h : Nat) : (s.putStatus q c h).keyRecs = s.keyRecs := rfl
@[simp] theorem State.putStatus_verified (s : State) (q : BitVec 6) (c h : Nat) : (s.putStatus q c h).verified = s.verified := rfl
@[simp] theorem State.putStatus_badPorts (s : State) (q : BitVec 6) (c h : Nat) : (s.putStatus q c h).badPorts = s.badPorts := rfl
@[simp] theorem State.putStatus_retired (s : State) (q : BitVec 6) (c h : Nat) : (s.putStatus q c h).retired = s.retired := rfl
@[simp] theorem State.putStatus_retiredRows (s : State) (q : BitVec 6) (c h : Nat) : (s.putStatus q c h).retiredRows = s.retiredRows := rfl
@[simp] theorem State.putStatus_fenceRecs (s : State) (q : BitVec 6) (c h : Nat) : (s.putStatus q c h).fenceRecs = s.fenceRecs := rfl
@[simp] theorem State.putStatus_storeFails (s : State) (q : BitVec 6) (c h : Nat) : (s.putStatus q c h).storeFails = s.storeFails := rfl
@[simp] theorem State.putStatus_rootSigned (s : State) (q : BitVec 6) (c h : Nat) : (s.putStatus q c h).rootSigned = s.rootSigned := rfl
@[simp] theorem State.putStatus_unrecorded (s : State) (q : BitVec 6) (c h : Nat) : (s.putStatus q c h).unrecorded = s.unrecorded := rfl
@[simp] theorem State.putStatus_attested (s : State) (q : BitVec 6) (c h : Nat) : (s.putStatus q c h).attested = s.attested := rfl
@[simp] theorem State.putStatus_gone (s : State) (q : BitVec 6) (c h : Nat) : (s.putStatus q c h).gone = s.gone := rfl
@[simp] theorem State.putStatus_resetting (s : State) (q : BitVec 6) (c h : Nat) : (s.putStatus q c h).resetting = s.resetting := rfl
@[simp] theorem State.putStatus_portErr (s : State) (q : BitVec 6) (c h : Nat) : (s.putStatus q c h).portErr = s.portErr := rfl
@[simp] theorem State.putStatus_parts (s : State) (q : BitVec 6) (c h : Nat) : (s.putStatus q c h).parts = s.parts := rfl
@[simp] theorem State.putStatus_powered (s : State) (q : BitVec 6) (c h : Nat) : (s.putStatus q c h).powered = s.powered := rfl

@[simp] theorem State.putPair_cycle (s : State) (q : BitVec 6) (c h : Nat) (v : Reg) : (s.putPair q c h v).cycle = s.cycle := rfl
@[simp] theorem State.putPair_iss (s : State) (q : BitVec 6) (c h : Nat) (v : Reg) : (s.putPair q c h v).iss = s.iss := rfl
@[simp] theorem State.putPair_sched (s : State) (q : BitVec 6) (c h : Nat) (v : Reg) : (s.putPair q c h v).sched = s.sched := rfl
@[simp] theorem State.putPair_fresh (s : State) (q : BitVec 6) (c h : Nat) (v : Reg) : (s.putPair q c h v).fresh = s.fresh := rfl
@[simp] theorem State.putPair_barOpen (s : State) (q : BitVec 6) (c h : Nat) (v : Reg) : (s.putPair q c h v).barOpen = s.barOpen := rfl
@[simp] theorem State.putPair_mem (s : State) (q : BitVec 6) (c h : Nat) (v : Reg) : (s.putPair q c h v).mem = s.mem := rfl
@[simp] theorem State.putPair_stale (s : State) (q : BitVec 6) (c h : Nat) (v : Reg) : (s.putPair q c h v).stale = s.stale := rfl
@[simp] theorem State.putPair_poisoned (s : State) (q : BitVec 6) (c h : Nat) (v : Reg) : (s.putPair q c h v).poisoned = s.poisoned := rfl
@[simp] theorem State.putPair_dirtyBad (s : State) (q : BitVec 6) (c h : Nat) (v : Reg) : (s.putPair q c h v).dirtyBad = s.dirtyBad := rfl
@[simp] theorem State.putPair_pushq (s : State) (q : BitVec 6) (c h : Nat) (v : Reg) : (s.putPair q c h v).pushq = s.pushq := rfl
@[simp] theorem State.putPair_causal (s : State) (q : BitVec 6) (c h : Nat) (v : Reg) : (s.putPair q c h v).causal = s.causal := rfl
@[simp] theorem State.putPair_slotCausal (s : State) (q : BitVec 6) (c h : Nat) (v : Reg) : (s.putPair q c h v).slotCausal = s.slotCausal := rfl
@[simp] theorem State.putPair_fixed (s : State) (q : BitVec 6) (c h : Nat) (v : Reg) : (s.putPair q c h v).fixed = s.fixed := rfl
@[simp] theorem State.putPair_cores (s : State) (q : BitVec 6) (c h : Nat) (v : Reg) : (s.putPair q c h v).cores = s.cores := rfl
@[simp] theorem State.putPair_vats (s : State) (q : BitVec 6) (c h : Nat) (v : Reg) : (s.putPair q c h v).vats = s.vats := rfl
@[simp] theorem State.putPair_wheels (s : State) (q : BitVec 6) (c h : Nat) (v : Reg) : (s.putPair q c h v).wheels = s.wheels := rfl
@[simp] theorem State.putPair_nodes (s : State) (q : BitVec 6) (c h : Nat) (v : Reg) : (s.putPair q c h v).nodes = s.nodes := rfl
@[simp] theorem State.putPair_cap0 (s : State) (q : BitVec 6) (c h : Nat) (v : Reg) : (s.putPair q c h v).cap0 = s.cap0 := rfl
@[simp] theorem State.putPair_cap1 (s : State) (q : BitVec 6) (c h : Nat) (v : Reg) : (s.putPair q c h v).cap1 = s.cap1 := rfl
@[simp] theorem State.putPair_cap2 (s : State) (q : BitVec 6) (c h : Nat) (v : Reg) : (s.putPair q c h v).cap2 = s.cap2 := rfl
@[simp] theorem State.putPair_cap3 (s : State) (q : BitVec 6) (c h : Nat) (v : Reg) : (s.putPair q c h v).cap3 = s.cap3 := rfl
@[simp] theorem State.putPair_spcbase (s : State) (q : BitVec 6) (c h : Nat) (v : Reg) : (s.putPair q c h v).spcbase = s.spcbase := rfl
@[simp] theorem State.putPair_contexts (s : State) (q : BitVec 6) (c h : Nat) (v : Reg) : (s.putPair q c h v).contexts = s.contexts := rfl
@[simp] theorem State.putPair_segments (s : State) (q : BitVec 6) (c h : Nat) (v : Reg) : (s.putPair q c h v).segments = s.segments := rfl
@[simp] theorem State.putPair_defaultSeg (s : State) (q : BitVec 6) (c h : Nat) (v : Reg) : (s.putPair q c h v).defaultSeg = s.defaultSeg := rfl
@[simp] theorem State.putPair_regions (s : State) (q : BitVec 6) (c h : Nat) (v : Reg) : (s.putPair q c h v).regions = s.regions := rfl
@[simp] theorem State.putPair_cmds (s : State) (q : BitVec 6) (c h : Nat) (v : Reg) : (s.putPair q c h v).cmds = s.cmds := rfl
@[simp] theorem State.putPair_jobs (s : State) (q : BitVec 6) (c h : Nat) (v : Reg) : (s.putPair q c h v).jobs = s.jobs := rfl
@[simp] theorem State.putPair_cmdWaits (s : State) (q : BitVec 6) (c h : Nat) (v : Reg) : (s.putPair q c h v).cmdWaits = s.cmdWaits := rfl
@[simp] theorem State.putPair_subs (s : State) (q : BitVec 6) (c h : Nat) (v : Reg) : (s.putPair q c h v).subs = s.subs := rfl
@[simp] theorem State.putPair_flights (s : State) (q : BitVec 6) (c h : Nat) (v : Reg) : (s.putPair q c h v).flights = s.flights := rfl
@[simp] theorem State.putPair_shoots (s : State) (q : BitVec 6) (c h : Nat) (v : Reg) : (s.putPair q c h v).shoots = s.shoots := rfl
@[simp] theorem State.putPair_migrations (s : State) (q : BitVec 6) (c h : Nat) (v : Reg) : (s.putPair q c h v).migrations = s.migrations := rfl
@[simp] theorem State.putPair_fgroups (s : State) (q : BitVec 6) (c h : Nat) (v : Reg) : (s.putPair q c h v).fgroups = s.fgroups := rfl
@[simp] theorem State.putPair_hostq (s : State) (q : BitVec 6) (c h : Nat) (v : Reg) : (s.putPair q c h v).hostq = s.hostq := rfl
@[simp] theorem State.putPair_hostDrop (s : State) (q : BitVec 6) (c h : Nat) (v : Reg) : (s.putPair q c h v).hostDrop = s.hostDrop := rfl
@[simp] theorem State.putPair_lstat (s : State) (q : BitVec 6) (c h : Nat) (v : Reg) : (s.putPair q c h v).lstat = s.lstat := rfl
@[simp] theorem State.putPair_losses (s : State) (q : BitVec 6) (c h : Nat) (v : Reg) : (s.putPair q c h v).losses = s.losses := rfl
@[simp] theorem State.putPair_lossDrop (s : State) (q : BitVec 6) (c h : Nat) (v : Reg) : (s.putPair q c h v).lossDrop = s.lossDrop := rfl
@[simp] theorem State.putPair_tdeadb (s : State) (q : BitVec 6) (c h : Nat) (v : Reg) : (s.putPair q c h v).tdeadb = s.tdeadb := rfl
@[simp] theorem State.putPair_hostRead (s : State) (q : BitVec 6) (c h : Nat) (v : Reg) : (s.putPair q c h v).hostRead = s.hostRead := rfl
@[simp] theorem State.putPair_hostData (s : State) (q : BitVec 6) (c h : Nat) (v : Reg) : (s.putPair q c h v).hostData = s.hostData := rfl
@[simp] theorem State.putPair_msix (s : State) (q : BitVec 6) (c h : Nat) (v : Reg) : (s.putPair q c h v).msix = s.msix := rfl
@[simp] theorem State.putPair_fencemap (s : State) (q : BitVec 6) (c h : Nat) (v : Reg) : (s.putPair q c h v).fencemap = s.fencemap := rfl
@[simp] theorem State.putPair_hostLines (s : State) (q : BitVec 6) (c h : Nat) (v : Reg) : (s.putPair q c h v).hostLines = s.hostLines := rfl
@[simp] theorem State.putPair_snoops (s : State) (q : BitVec 6) (c h : Nat) (v : Reg) : (s.putPair q c h v).snoops = s.snoops := rfl
@[simp] theorem State.putPair_keys (s : State) (q : BitVec 6) (c h : Nat) (v : Reg) : (s.putPair q c h v).keys = s.keys := rfl
@[simp] theorem State.putPair_keyRecs (s : State) (q : BitVec 6) (c h : Nat) (v : Reg) : (s.putPair q c h v).keyRecs = s.keyRecs := rfl
@[simp] theorem State.putPair_verified (s : State) (q : BitVec 6) (c h : Nat) (v : Reg) : (s.putPair q c h v).verified = s.verified := rfl
@[simp] theorem State.putPair_badPorts (s : State) (q : BitVec 6) (c h : Nat) (v : Reg) : (s.putPair q c h v).badPorts = s.badPorts := rfl
@[simp] theorem State.putPair_retired (s : State) (q : BitVec 6) (c h : Nat) (v : Reg) : (s.putPair q c h v).retired = s.retired := rfl
@[simp] theorem State.putPair_retiredRows (s : State) (q : BitVec 6) (c h : Nat) (v : Reg) : (s.putPair q c h v).retiredRows = s.retiredRows := rfl
@[simp] theorem State.putPair_fenceRecs (s : State) (q : BitVec 6) (c h : Nat) (v : Reg) : (s.putPair q c h v).fenceRecs = s.fenceRecs := rfl
@[simp] theorem State.putPair_storeFails (s : State) (q : BitVec 6) (c h : Nat) (v : Reg) : (s.putPair q c h v).storeFails = s.storeFails := rfl
@[simp] theorem State.putPair_rootSigned (s : State) (q : BitVec 6) (c h : Nat) (v : Reg) : (s.putPair q c h v).rootSigned = s.rootSigned := rfl
@[simp] theorem State.putPair_unrecorded (s : State) (q : BitVec 6) (c h : Nat) (v : Reg) : (s.putPair q c h v).unrecorded = s.unrecorded := rfl
@[simp] theorem State.putPair_attested (s : State) (q : BitVec 6) (c h : Nat) (v : Reg) : (s.putPair q c h v).attested = s.attested := rfl
@[simp] theorem State.putPair_gone (s : State) (q : BitVec 6) (c h : Nat) (v : Reg) : (s.putPair q c h v).gone = s.gone := rfl
@[simp] theorem State.putPair_resetting (s : State) (q : BitVec 6) (c h : Nat) (v : Reg) : (s.putPair q c h v).resetting = s.resetting := rfl
@[simp] theorem State.putPair_portErr (s : State) (q : BitVec 6) (c h : Nat) (v : Reg) : (s.putPair q c h v).portErr = s.portErr := rfl
@[simp] theorem State.putPair_parts (s : State) (q : BitVec 6) (c h : Nat) (v : Reg) : (s.putPair q c h v).parts = s.parts := rfl
@[simp] theorem State.putPair_powered (s : State) (q : BitVec 6) (c h : Nat) (v : Reg) : (s.putPair q c h v).powered = s.powered := rfl

@[simp] theorem State.block_cycle (s : State) (rs qs : List Nat) (x : BitVec 5) (w : Option Watch) (n : Nat) : (s.block rs qs x w n).cycle = s.cycle := by by_cases h : s.iss.wid = 0 <;> simp only [State.block, h, if_true, if_false] <;> rfl
@[simp] theorem State.block_iss (s : State) (rs qs : List Nat) (x : BitVec 5) (w : Option Watch) (n : Nat) : (s.block rs qs x w n).iss = s.iss := by by_cases h : s.iss.wid = 0 <;> simp only [State.block, h, if_true, if_false] <;> rfl
@[simp] theorem State.block_sched (s : State) (rs qs : List Nat) (x : BitVec 5) (w : Option Watch) (n : Nat) : (s.block rs qs x w n).sched = s.sched := by by_cases h : s.iss.wid = 0 <;> simp only [State.block, h, if_true, if_false] <;> rfl
@[simp] theorem State.block_barOpen (s : State) (rs qs : List Nat) (x : BitVec 5) (w : Option Watch) (n : Nat) : (s.block rs qs x w n).barOpen = s.barOpen := by by_cases h : s.iss.wid = 0 <;> simp only [State.block, h, if_true, if_false] <;> rfl
@[simp] theorem State.block_mem (s : State) (rs qs : List Nat) (x : BitVec 5) (w : Option Watch) (n : Nat) : (s.block rs qs x w n).mem = s.mem := by by_cases h : s.iss.wid = 0 <;> simp only [State.block, h, if_true, if_false] <;> rfl
@[simp] theorem State.block_stale (s : State) (rs qs : List Nat) (x : BitVec 5) (w : Option Watch) (n : Nat) : (s.block rs qs x w n).stale = s.stale := by by_cases h : s.iss.wid = 0 <;> simp only [State.block, h, if_true, if_false] <;> rfl
@[simp] theorem State.block_poisoned (s : State) (rs qs : List Nat) (x : BitVec 5) (w : Option Watch) (n : Nat) : (s.block rs qs x w n).poisoned = s.poisoned := by by_cases h : s.iss.wid = 0 <;> simp only [State.block, h, if_true, if_false] <;> rfl
@[simp] theorem State.block_dirtyBad (s : State) (rs qs : List Nat) (x : BitVec 5) (w : Option Watch) (n : Nat) : (s.block rs qs x w n).dirtyBad = s.dirtyBad := by by_cases h : s.iss.wid = 0 <;> simp only [State.block, h, if_true, if_false] <;> rfl
@[simp] theorem State.block_pushq (s : State) (rs qs : List Nat) (x : BitVec 5) (w : Option Watch) (n : Nat) : (s.block rs qs x w n).pushq = s.pushq := by by_cases h : s.iss.wid = 0 <;> simp only [State.block, h, if_true, if_false] <;> rfl
@[simp] theorem State.block_causal (s : State) (rs qs : List Nat) (x : BitVec 5) (w : Option Watch) (n : Nat) : (s.block rs qs x w n).causal = s.causal := by by_cases h : s.iss.wid = 0 <;> simp only [State.block, h, if_true, if_false] <;> rfl
@[simp] theorem State.block_slotCausal (s : State) (rs qs : List Nat) (x : BitVec 5) (w : Option Watch) (n : Nat) : (s.block rs qs x w n).slotCausal = s.slotCausal := by by_cases h : s.iss.wid = 0 <;> simp only [State.block, h, if_true, if_false] <;> rfl
@[simp] theorem State.block_fixed (s : State) (rs qs : List Nat) (x : BitVec 5) (w : Option Watch) (n : Nat) : (s.block rs qs x w n).fixed = s.fixed := by by_cases h : s.iss.wid = 0 <;> simp only [State.block, h, if_true, if_false] <;> rfl
@[simp] theorem State.block_cores (s : State) (rs qs : List Nat) (x : BitVec 5) (w : Option Watch) (n : Nat) : (s.block rs qs x w n).cores = s.cores := by by_cases h : s.iss.wid = 0 <;> simp only [State.block, h, if_true, if_false] <;> rfl
@[simp] theorem State.block_vats (s : State) (rs qs : List Nat) (x : BitVec 5) (w : Option Watch) (n : Nat) : (s.block rs qs x w n).vats = s.vats := by by_cases h : s.iss.wid = 0 <;> simp only [State.block, h, if_true, if_false] <;> rfl
@[simp] theorem State.block_wheels (s : State) (rs qs : List Nat) (x : BitVec 5) (w : Option Watch) (n : Nat) : (s.block rs qs x w n).wheels = s.wheels := by by_cases h : s.iss.wid = 0 <;> simp only [State.block, h, if_true, if_false] <;> rfl
@[simp] theorem State.block_nodes (s : State) (rs qs : List Nat) (x : BitVec 5) (w : Option Watch) (n : Nat) : (s.block rs qs x w n).nodes = s.nodes := by by_cases h : s.iss.wid = 0 <;> simp only [State.block, h, if_true, if_false] <;> rfl
@[simp] theorem State.block_cap0 (s : State) (rs qs : List Nat) (x : BitVec 5) (w : Option Watch) (n : Nat) : (s.block rs qs x w n).cap0 = s.cap0 := by by_cases h : s.iss.wid = 0 <;> simp only [State.block, h, if_true, if_false] <;> rfl
@[simp] theorem State.block_cap1 (s : State) (rs qs : List Nat) (x : BitVec 5) (w : Option Watch) (n : Nat) : (s.block rs qs x w n).cap1 = s.cap1 := by by_cases h : s.iss.wid = 0 <;> simp only [State.block, h, if_true, if_false] <;> rfl
@[simp] theorem State.block_cap2 (s : State) (rs qs : List Nat) (x : BitVec 5) (w : Option Watch) (n : Nat) : (s.block rs qs x w n).cap2 = s.cap2 := by by_cases h : s.iss.wid = 0 <;> simp only [State.block, h, if_true, if_false] <;> rfl
@[simp] theorem State.block_cap3 (s : State) (rs qs : List Nat) (x : BitVec 5) (w : Option Watch) (n : Nat) : (s.block rs qs x w n).cap3 = s.cap3 := by by_cases h : s.iss.wid = 0 <;> simp only [State.block, h, if_true, if_false] <;> rfl
@[simp] theorem State.block_spcbase (s : State) (rs qs : List Nat) (x : BitVec 5) (w : Option Watch) (n : Nat) : (s.block rs qs x w n).spcbase = s.spcbase := by by_cases h : s.iss.wid = 0 <;> simp only [State.block, h, if_true, if_false] <;> rfl
@[simp] theorem State.block_contexts (s : State) (rs qs : List Nat) (x : BitVec 5) (w : Option Watch) (n : Nat) : (s.block rs qs x w n).contexts = s.contexts := by by_cases h : s.iss.wid = 0 <;> simp only [State.block, h, if_true, if_false] <;> rfl
@[simp] theorem State.block_segments (s : State) (rs qs : List Nat) (x : BitVec 5) (w : Option Watch) (n : Nat) : (s.block rs qs x w n).segments = s.segments := by by_cases h : s.iss.wid = 0 <;> simp only [State.block, h, if_true, if_false] <;> rfl
@[simp] theorem State.block_defaultSeg (s : State) (rs qs : List Nat) (x : BitVec 5) (w : Option Watch) (n : Nat) : (s.block rs qs x w n).defaultSeg = s.defaultSeg := by by_cases h : s.iss.wid = 0 <;> simp only [State.block, h, if_true, if_false] <;> rfl
@[simp] theorem State.block_regions (s : State) (rs qs : List Nat) (x : BitVec 5) (w : Option Watch) (n : Nat) : (s.block rs qs x w n).regions = s.regions := by by_cases h : s.iss.wid = 0 <;> simp only [State.block, h, if_true, if_false] <;> rfl
@[simp] theorem State.block_cmds (s : State) (rs qs : List Nat) (x : BitVec 5) (w : Option Watch) (n : Nat) : (s.block rs qs x w n).cmds = s.cmds := by by_cases h : s.iss.wid = 0 <;> simp only [State.block, h, if_true, if_false] <;> rfl
@[simp] theorem State.block_jobs (s : State) (rs qs : List Nat) (x : BitVec 5) (w : Option Watch) (n : Nat) : (s.block rs qs x w n).jobs = s.jobs := by by_cases h : s.iss.wid = 0 <;> simp only [State.block, h, if_true, if_false] <;> rfl
@[simp] theorem State.block_cmdWaits (s : State) (rs qs : List Nat) (x : BitVec 5) (w : Option Watch) (n : Nat) : (s.block rs qs x w n).cmdWaits = s.cmdWaits := by by_cases h : s.iss.wid = 0 <;> simp only [State.block, h, if_true, if_false] <;> rfl
@[simp] theorem State.block_subs (s : State) (rs qs : List Nat) (x : BitVec 5) (w : Option Watch) (n : Nat) : (s.block rs qs x w n).subs = s.subs := by by_cases h : s.iss.wid = 0 <;> simp only [State.block, h, if_true, if_false] <;> rfl
@[simp] theorem State.block_flights (s : State) (rs qs : List Nat) (x : BitVec 5) (w : Option Watch) (n : Nat) : (s.block rs qs x w n).flights = s.flights := by by_cases h : s.iss.wid = 0 <;> simp only [State.block, h, if_true, if_false] <;> rfl
@[simp] theorem State.block_shoots (s : State) (rs qs : List Nat) (x : BitVec 5) (w : Option Watch) (n : Nat) : (s.block rs qs x w n).shoots = s.shoots := by by_cases h : s.iss.wid = 0 <;> simp only [State.block, h, if_true, if_false] <;> rfl
@[simp] theorem State.block_migrations (s : State) (rs qs : List Nat) (x : BitVec 5) (w : Option Watch) (n : Nat) : (s.block rs qs x w n).migrations = s.migrations := by by_cases h : s.iss.wid = 0 <;> simp only [State.block, h, if_true, if_false] <;> rfl
@[simp] theorem State.block_fgroups (s : State) (rs qs : List Nat) (x : BitVec 5) (w : Option Watch) (n : Nat) : (s.block rs qs x w n).fgroups = s.fgroups := by by_cases h : s.iss.wid = 0 <;> simp only [State.block, h, if_true, if_false] <;> rfl
@[simp] theorem State.block_hostq (s : State) (rs qs : List Nat) (x : BitVec 5) (w : Option Watch) (n : Nat) : (s.block rs qs x w n).hostq = s.hostq := by by_cases h : s.iss.wid = 0 <;> simp only [State.block, h, if_true, if_false] <;> rfl
@[simp] theorem State.block_hostDrop (s : State) (rs qs : List Nat) (x : BitVec 5) (w : Option Watch) (n : Nat) : (s.block rs qs x w n).hostDrop = s.hostDrop := by by_cases h : s.iss.wid = 0 <;> simp only [State.block, h, if_true, if_false] <;> rfl
@[simp] theorem State.block_lstat (s : State) (rs qs : List Nat) (x : BitVec 5) (w : Option Watch) (n : Nat) : (s.block rs qs x w n).lstat = s.lstat := by by_cases h : s.iss.wid = 0 <;> simp only [State.block, h, if_true, if_false] <;> rfl
@[simp] theorem State.block_losses (s : State) (rs qs : List Nat) (x : BitVec 5) (w : Option Watch) (n : Nat) : (s.block rs qs x w n).losses = s.losses := by by_cases h : s.iss.wid = 0 <;> simp only [State.block, h, if_true, if_false] <;> rfl
@[simp] theorem State.block_lossDrop (s : State) (rs qs : List Nat) (x : BitVec 5) (w : Option Watch) (n : Nat) : (s.block rs qs x w n).lossDrop = s.lossDrop := by by_cases h : s.iss.wid = 0 <;> simp only [State.block, h, if_true, if_false] <;> rfl
@[simp] theorem State.block_tdeadb (s : State) (rs qs : List Nat) (x : BitVec 5) (w : Option Watch) (n : Nat) : (s.block rs qs x w n).tdeadb = s.tdeadb := by by_cases h : s.iss.wid = 0 <;> simp only [State.block, h, if_true, if_false] <;> rfl
@[simp] theorem State.block_hostRead (s : State) (rs qs : List Nat) (x : BitVec 5) (w : Option Watch) (n : Nat) : (s.block rs qs x w n).hostRead = s.hostRead := by by_cases h : s.iss.wid = 0 <;> simp only [State.block, h, if_true, if_false] <;> rfl
@[simp] theorem State.block_hostData (s : State) (rs qs : List Nat) (x : BitVec 5) (w : Option Watch) (n : Nat) : (s.block rs qs x w n).hostData = s.hostData := by by_cases h : s.iss.wid = 0 <;> simp only [State.block, h, if_true, if_false] <;> rfl
@[simp] theorem State.block_msix (s : State) (rs qs : List Nat) (x : BitVec 5) (w : Option Watch) (n : Nat) : (s.block rs qs x w n).msix = s.msix := by by_cases h : s.iss.wid = 0 <;> simp only [State.block, h, if_true, if_false] <;> rfl
@[simp] theorem State.block_fencemap (s : State) (rs qs : List Nat) (x : BitVec 5) (w : Option Watch) (n : Nat) : (s.block rs qs x w n).fencemap = s.fencemap := by by_cases h : s.iss.wid = 0 <;> simp only [State.block, h, if_true, if_false] <;> rfl
@[simp] theorem State.block_hostLines (s : State) (rs qs : List Nat) (x : BitVec 5) (w : Option Watch) (n : Nat) : (s.block rs qs x w n).hostLines = s.hostLines := by by_cases h : s.iss.wid = 0 <;> simp only [State.block, h, if_true, if_false] <;> rfl
@[simp] theorem State.block_snoops (s : State) (rs qs : List Nat) (x : BitVec 5) (w : Option Watch) (n : Nat) : (s.block rs qs x w n).snoops = s.snoops := by by_cases h : s.iss.wid = 0 <;> simp only [State.block, h, if_true, if_false] <;> rfl
@[simp] theorem State.block_keys (s : State) (rs qs : List Nat) (x : BitVec 5) (w : Option Watch) (n : Nat) : (s.block rs qs x w n).keys = s.keys := by by_cases h : s.iss.wid = 0 <;> simp only [State.block, h, if_true, if_false] <;> rfl
@[simp] theorem State.block_keyRecs (s : State) (rs qs : List Nat) (x : BitVec 5) (w : Option Watch) (n : Nat) : (s.block rs qs x w n).keyRecs = s.keyRecs := by by_cases h : s.iss.wid = 0 <;> simp only [State.block, h, if_true, if_false] <;> rfl
@[simp] theorem State.block_verified (s : State) (rs qs : List Nat) (x : BitVec 5) (w : Option Watch) (n : Nat) : (s.block rs qs x w n).verified = s.verified := by by_cases h : s.iss.wid = 0 <;> simp only [State.block, h, if_true, if_false] <;> rfl
@[simp] theorem State.block_badPorts (s : State) (rs qs : List Nat) (x : BitVec 5) (w : Option Watch) (n : Nat) : (s.block rs qs x w n).badPorts = s.badPorts := by by_cases h : s.iss.wid = 0 <;> simp only [State.block, h, if_true, if_false] <;> rfl
@[simp] theorem State.block_retired (s : State) (rs qs : List Nat) (x : BitVec 5) (w : Option Watch) (n : Nat) : (s.block rs qs x w n).retired = s.retired := by by_cases h : s.iss.wid = 0 <;> simp only [State.block, h, if_true, if_false] <;> rfl
@[simp] theorem State.block_retiredRows (s : State) (rs qs : List Nat) (x : BitVec 5) (w : Option Watch) (n : Nat) : (s.block rs qs x w n).retiredRows = s.retiredRows := by by_cases h : s.iss.wid = 0 <;> simp only [State.block, h, if_true, if_false] <;> rfl
@[simp] theorem State.block_fenceRecs (s : State) (rs qs : List Nat) (x : BitVec 5) (w : Option Watch) (n : Nat) : (s.block rs qs x w n).fenceRecs = s.fenceRecs := by by_cases h : s.iss.wid = 0 <;> simp only [State.block, h, if_true, if_false] <;> rfl
@[simp] theorem State.block_storeFails (s : State) (rs qs : List Nat) (x : BitVec 5) (w : Option Watch) (n : Nat) : (s.block rs qs x w n).storeFails = s.storeFails := by by_cases h : s.iss.wid = 0 <;> simp only [State.block, h, if_true, if_false] <;> rfl
@[simp] theorem State.block_rootSigned (s : State) (rs qs : List Nat) (x : BitVec 5) (w : Option Watch) (n : Nat) : (s.block rs qs x w n).rootSigned = s.rootSigned := by by_cases h : s.iss.wid = 0 <;> simp only [State.block, h, if_true, if_false] <;> rfl
@[simp] theorem State.block_unrecorded (s : State) (rs qs : List Nat) (x : BitVec 5) (w : Option Watch) (n : Nat) : (s.block rs qs x w n).unrecorded = s.unrecorded := by by_cases h : s.iss.wid = 0 <;> simp only [State.block, h, if_true, if_false] <;> rfl
@[simp] theorem State.block_attested (s : State) (rs qs : List Nat) (x : BitVec 5) (w : Option Watch) (n : Nat) : (s.block rs qs x w n).attested = s.attested := by by_cases h : s.iss.wid = 0 <;> simp only [State.block, h, if_true, if_false] <;> rfl
@[simp] theorem State.block_gone (s : State) (rs qs : List Nat) (x : BitVec 5) (w : Option Watch) (n : Nat) : (s.block rs qs x w n).gone = s.gone := by by_cases h : s.iss.wid = 0 <;> simp only [State.block, h, if_true, if_false] <;> rfl
@[simp] theorem State.block_resetting (s : State) (rs qs : List Nat) (x : BitVec 5) (w : Option Watch) (n : Nat) : (s.block rs qs x w n).resetting = s.resetting := by by_cases h : s.iss.wid = 0 <;> simp only [State.block, h, if_true, if_false] <;> rfl
@[simp] theorem State.block_portErr (s : State) (rs qs : List Nat) (x : BitVec 5) (w : Option Watch) (n : Nat) : (s.block rs qs x w n).portErr = s.portErr := by by_cases h : s.iss.wid = 0 <;> simp only [State.block, h, if_true, if_false] <;> rfl
@[simp] theorem State.block_parts (s : State) (rs qs : List Nat) (x : BitVec 5) (w : Option Watch) (n : Nat) : (s.block rs qs x w n).parts = s.parts := by by_cases h : s.iss.wid = 0 <;> simp only [State.block, h, if_true, if_false] <;> rfl
@[simp] theorem State.block_powered (s : State) (rs qs : List Nat) (x : BitVec 5) (w : Option Watch) (n : Nat) : (s.block rs qs x w n).powered = s.powered := by by_cases h : s.iss.wid = 0 <;> simp only [State.block, h, if_true, if_false] <;> rfl

@[simp] theorem State.queueSerial_cycle (s : State) (rs qs : List Nat) (es : List KeptElem) : (s.queueSerial rs qs es).cycle = s.cycle := by cases h : (s.grp? s.iss.grp).bind s.heldWait <;> simp only [State.queueSerial, h] <;> rfl
@[simp] theorem State.queueSerial_iss (s : State) (rs qs : List Nat) (es : List KeptElem) : (s.queueSerial rs qs es).iss = s.iss := by cases h : (s.grp? s.iss.grp).bind s.heldWait <;> simp only [State.queueSerial, h] <;> rfl
@[simp] theorem State.queueSerial_sched (s : State) (rs qs : List Nat) (es : List KeptElem) : (s.queueSerial rs qs es).sched = s.sched := by cases h : (s.grp? s.iss.grp).bind s.heldWait <;> simp only [State.queueSerial, h] <;> rfl
@[simp] theorem State.queueSerial_barOpen (s : State) (rs qs : List Nat) (es : List KeptElem) : (s.queueSerial rs qs es).barOpen = s.barOpen := by cases h : (s.grp? s.iss.grp).bind s.heldWait <;> simp only [State.queueSerial, h] <;> rfl
@[simp] theorem State.queueSerial_mem (s : State) (rs qs : List Nat) (es : List KeptElem) : (s.queueSerial rs qs es).mem = s.mem := by cases h : (s.grp? s.iss.grp).bind s.heldWait <;> simp only [State.queueSerial, h] <;> rfl
@[simp] theorem State.queueSerial_stale (s : State) (rs qs : List Nat) (es : List KeptElem) : (s.queueSerial rs qs es).stale = s.stale := by cases h : (s.grp? s.iss.grp).bind s.heldWait <;> simp only [State.queueSerial, h] <;> rfl
@[simp] theorem State.queueSerial_poisoned (s : State) (rs qs : List Nat) (es : List KeptElem) : (s.queueSerial rs qs es).poisoned = s.poisoned := by cases h : (s.grp? s.iss.grp).bind s.heldWait <;> simp only [State.queueSerial, h] <;> rfl
@[simp] theorem State.queueSerial_dirtyBad (s : State) (rs qs : List Nat) (es : List KeptElem) : (s.queueSerial rs qs es).dirtyBad = s.dirtyBad := by cases h : (s.grp? s.iss.grp).bind s.heldWait <;> simp only [State.queueSerial, h] <;> rfl
@[simp] theorem State.queueSerial_pushq (s : State) (rs qs : List Nat) (es : List KeptElem) : (s.queueSerial rs qs es).pushq = s.pushq := by cases h : (s.grp? s.iss.grp).bind s.heldWait <;> simp only [State.queueSerial, h] <;> rfl
@[simp] theorem State.queueSerial_causal (s : State) (rs qs : List Nat) (es : List KeptElem) : (s.queueSerial rs qs es).causal = s.causal := by cases h : (s.grp? s.iss.grp).bind s.heldWait <;> simp only [State.queueSerial, h] <;> rfl
@[simp] theorem State.queueSerial_slotCausal (s : State) (rs qs : List Nat) (es : List KeptElem) : (s.queueSerial rs qs es).slotCausal = s.slotCausal := by cases h : (s.grp? s.iss.grp).bind s.heldWait <;> simp only [State.queueSerial, h] <;> rfl
@[simp] theorem State.queueSerial_fixed (s : State) (rs qs : List Nat) (es : List KeptElem) : (s.queueSerial rs qs es).fixed = s.fixed := by cases h : (s.grp? s.iss.grp).bind s.heldWait <;> simp only [State.queueSerial, h] <;> rfl
@[simp] theorem State.queueSerial_cores (s : State) (rs qs : List Nat) (es : List KeptElem) : (s.queueSerial rs qs es).cores = s.cores := by cases h : (s.grp? s.iss.grp).bind s.heldWait <;> simp only [State.queueSerial, h] <;> rfl
@[simp] theorem State.queueSerial_vats (s : State) (rs qs : List Nat) (es : List KeptElem) : (s.queueSerial rs qs es).vats = s.vats := by cases h : (s.grp? s.iss.grp).bind s.heldWait <;> simp only [State.queueSerial, h] <;> rfl
@[simp] theorem State.queueSerial_wheels (s : State) (rs qs : List Nat) (es : List KeptElem) : (s.queueSerial rs qs es).wheels = s.wheels := by cases h : (s.grp? s.iss.grp).bind s.heldWait <;> simp only [State.queueSerial, h] <;> rfl
@[simp] theorem State.queueSerial_nodes (s : State) (rs qs : List Nat) (es : List KeptElem) : (s.queueSerial rs qs es).nodes = s.nodes := by cases h : (s.grp? s.iss.grp).bind s.heldWait <;> simp only [State.queueSerial, h] <;> rfl
@[simp] theorem State.queueSerial_cap0 (s : State) (rs qs : List Nat) (es : List KeptElem) : (s.queueSerial rs qs es).cap0 = s.cap0 := by cases h : (s.grp? s.iss.grp).bind s.heldWait <;> simp only [State.queueSerial, h] <;> rfl
@[simp] theorem State.queueSerial_cap1 (s : State) (rs qs : List Nat) (es : List KeptElem) : (s.queueSerial rs qs es).cap1 = s.cap1 := by cases h : (s.grp? s.iss.grp).bind s.heldWait <;> simp only [State.queueSerial, h] <;> rfl
@[simp] theorem State.queueSerial_cap2 (s : State) (rs qs : List Nat) (es : List KeptElem) : (s.queueSerial rs qs es).cap2 = s.cap2 := by cases h : (s.grp? s.iss.grp).bind s.heldWait <;> simp only [State.queueSerial, h] <;> rfl
@[simp] theorem State.queueSerial_cap3 (s : State) (rs qs : List Nat) (es : List KeptElem) : (s.queueSerial rs qs es).cap3 = s.cap3 := by cases h : (s.grp? s.iss.grp).bind s.heldWait <;> simp only [State.queueSerial, h] <;> rfl
@[simp] theorem State.queueSerial_spcbase (s : State) (rs qs : List Nat) (es : List KeptElem) : (s.queueSerial rs qs es).spcbase = s.spcbase := by cases h : (s.grp? s.iss.grp).bind s.heldWait <;> simp only [State.queueSerial, h] <;> rfl
@[simp] theorem State.queueSerial_contexts (s : State) (rs qs : List Nat) (es : List KeptElem) : (s.queueSerial rs qs es).contexts = s.contexts := by cases h : (s.grp? s.iss.grp).bind s.heldWait <;> simp only [State.queueSerial, h] <;> rfl
@[simp] theorem State.queueSerial_segments (s : State) (rs qs : List Nat) (es : List KeptElem) : (s.queueSerial rs qs es).segments = s.segments := by cases h : (s.grp? s.iss.grp).bind s.heldWait <;> simp only [State.queueSerial, h] <;> rfl
@[simp] theorem State.queueSerial_defaultSeg (s : State) (rs qs : List Nat) (es : List KeptElem) : (s.queueSerial rs qs es).defaultSeg = s.defaultSeg := by cases h : (s.grp? s.iss.grp).bind s.heldWait <;> simp only [State.queueSerial, h] <;> rfl
@[simp] theorem State.queueSerial_regions (s : State) (rs qs : List Nat) (es : List KeptElem) : (s.queueSerial rs qs es).regions = s.regions := by cases h : (s.grp? s.iss.grp).bind s.heldWait <;> simp only [State.queueSerial, h] <;> rfl
@[simp] theorem State.queueSerial_cmds (s : State) (rs qs : List Nat) (es : List KeptElem) : (s.queueSerial rs qs es).cmds = s.cmds := by cases h : (s.grp? s.iss.grp).bind s.heldWait <;> simp only [State.queueSerial, h] <;> rfl
@[simp] theorem State.queueSerial_jobs (s : State) (rs qs : List Nat) (es : List KeptElem) : (s.queueSerial rs qs es).jobs = s.jobs := by cases h : (s.grp? s.iss.grp).bind s.heldWait <;> simp only [State.queueSerial, h] <;> rfl
@[simp] theorem State.queueSerial_cmdWaits (s : State) (rs qs : List Nat) (es : List KeptElem) : (s.queueSerial rs qs es).cmdWaits = s.cmdWaits := by cases h : (s.grp? s.iss.grp).bind s.heldWait <;> simp only [State.queueSerial, h] <;> rfl
@[simp] theorem State.queueSerial_subs (s : State) (rs qs : List Nat) (es : List KeptElem) : (s.queueSerial rs qs es).subs = s.subs := by cases h : (s.grp? s.iss.grp).bind s.heldWait <;> simp only [State.queueSerial, h] <;> rfl
@[simp] theorem State.queueSerial_flights (s : State) (rs qs : List Nat) (es : List KeptElem) : (s.queueSerial rs qs es).flights = s.flights := by cases h : (s.grp? s.iss.grp).bind s.heldWait <;> simp only [State.queueSerial, h] <;> rfl
@[simp] theorem State.queueSerial_shoots (s : State) (rs qs : List Nat) (es : List KeptElem) : (s.queueSerial rs qs es).shoots = s.shoots := by cases h : (s.grp? s.iss.grp).bind s.heldWait <;> simp only [State.queueSerial, h] <;> rfl
@[simp] theorem State.queueSerial_migrations (s : State) (rs qs : List Nat) (es : List KeptElem) : (s.queueSerial rs qs es).migrations = s.migrations := by cases h : (s.grp? s.iss.grp).bind s.heldWait <;> simp only [State.queueSerial, h] <;> rfl
@[simp] theorem State.queueSerial_fgroups (s : State) (rs qs : List Nat) (es : List KeptElem) : (s.queueSerial rs qs es).fgroups = s.fgroups := by cases h : (s.grp? s.iss.grp).bind s.heldWait <;> simp only [State.queueSerial, h] <;> rfl
@[simp] theorem State.queueSerial_hostq (s : State) (rs qs : List Nat) (es : List KeptElem) : (s.queueSerial rs qs es).hostq = s.hostq := by cases h : (s.grp? s.iss.grp).bind s.heldWait <;> simp only [State.queueSerial, h] <;> rfl
@[simp] theorem State.queueSerial_hostDrop (s : State) (rs qs : List Nat) (es : List KeptElem) : (s.queueSerial rs qs es).hostDrop = s.hostDrop := by cases h : (s.grp? s.iss.grp).bind s.heldWait <;> simp only [State.queueSerial, h] <;> rfl
@[simp] theorem State.queueSerial_lstat (s : State) (rs qs : List Nat) (es : List KeptElem) : (s.queueSerial rs qs es).lstat = s.lstat := by cases h : (s.grp? s.iss.grp).bind s.heldWait <;> simp only [State.queueSerial, h] <;> rfl
@[simp] theorem State.queueSerial_losses (s : State) (rs qs : List Nat) (es : List KeptElem) : (s.queueSerial rs qs es).losses = s.losses := by cases h : (s.grp? s.iss.grp).bind s.heldWait <;> simp only [State.queueSerial, h] <;> rfl
@[simp] theorem State.queueSerial_lossDrop (s : State) (rs qs : List Nat) (es : List KeptElem) : (s.queueSerial rs qs es).lossDrop = s.lossDrop := by cases h : (s.grp? s.iss.grp).bind s.heldWait <;> simp only [State.queueSerial, h] <;> rfl
@[simp] theorem State.queueSerial_tdeadb (s : State) (rs qs : List Nat) (es : List KeptElem) : (s.queueSerial rs qs es).tdeadb = s.tdeadb := by cases h : (s.grp? s.iss.grp).bind s.heldWait <;> simp only [State.queueSerial, h] <;> rfl
@[simp] theorem State.queueSerial_hostRead (s : State) (rs qs : List Nat) (es : List KeptElem) : (s.queueSerial rs qs es).hostRead = s.hostRead := by cases h : (s.grp? s.iss.grp).bind s.heldWait <;> simp only [State.queueSerial, h] <;> rfl
@[simp] theorem State.queueSerial_hostData (s : State) (rs qs : List Nat) (es : List KeptElem) : (s.queueSerial rs qs es).hostData = s.hostData := by cases h : (s.grp? s.iss.grp).bind s.heldWait <;> simp only [State.queueSerial, h] <;> rfl
@[simp] theorem State.queueSerial_msix (s : State) (rs qs : List Nat) (es : List KeptElem) : (s.queueSerial rs qs es).msix = s.msix := by cases h : (s.grp? s.iss.grp).bind s.heldWait <;> simp only [State.queueSerial, h] <;> rfl
@[simp] theorem State.queueSerial_fencemap (s : State) (rs qs : List Nat) (es : List KeptElem) : (s.queueSerial rs qs es).fencemap = s.fencemap := by cases h : (s.grp? s.iss.grp).bind s.heldWait <;> simp only [State.queueSerial, h] <;> rfl
@[simp] theorem State.queueSerial_hostLines (s : State) (rs qs : List Nat) (es : List KeptElem) : (s.queueSerial rs qs es).hostLines = s.hostLines := by cases h : (s.grp? s.iss.grp).bind s.heldWait <;> simp only [State.queueSerial, h] <;> rfl
@[simp] theorem State.queueSerial_snoops (s : State) (rs qs : List Nat) (es : List KeptElem) : (s.queueSerial rs qs es).snoops = s.snoops := by cases h : (s.grp? s.iss.grp).bind s.heldWait <;> simp only [State.queueSerial, h] <;> rfl
@[simp] theorem State.queueSerial_keys (s : State) (rs qs : List Nat) (es : List KeptElem) : (s.queueSerial rs qs es).keys = s.keys := by cases h : (s.grp? s.iss.grp).bind s.heldWait <;> simp only [State.queueSerial, h] <;> rfl
@[simp] theorem State.queueSerial_keyRecs (s : State) (rs qs : List Nat) (es : List KeptElem) : (s.queueSerial rs qs es).keyRecs = s.keyRecs := by cases h : (s.grp? s.iss.grp).bind s.heldWait <;> simp only [State.queueSerial, h] <;> rfl
@[simp] theorem State.queueSerial_verified (s : State) (rs qs : List Nat) (es : List KeptElem) : (s.queueSerial rs qs es).verified = s.verified := by cases h : (s.grp? s.iss.grp).bind s.heldWait <;> simp only [State.queueSerial, h] <;> rfl
@[simp] theorem State.queueSerial_badPorts (s : State) (rs qs : List Nat) (es : List KeptElem) : (s.queueSerial rs qs es).badPorts = s.badPorts := by cases h : (s.grp? s.iss.grp).bind s.heldWait <;> simp only [State.queueSerial, h] <;> rfl
@[simp] theorem State.queueSerial_retired (s : State) (rs qs : List Nat) (es : List KeptElem) : (s.queueSerial rs qs es).retired = s.retired := by cases h : (s.grp? s.iss.grp).bind s.heldWait <;> simp only [State.queueSerial, h] <;> rfl
@[simp] theorem State.queueSerial_retiredRows (s : State) (rs qs : List Nat) (es : List KeptElem) : (s.queueSerial rs qs es).retiredRows = s.retiredRows := by cases h : (s.grp? s.iss.grp).bind s.heldWait <;> simp only [State.queueSerial, h] <;> rfl
@[simp] theorem State.queueSerial_fenceRecs (s : State) (rs qs : List Nat) (es : List KeptElem) : (s.queueSerial rs qs es).fenceRecs = s.fenceRecs := by cases h : (s.grp? s.iss.grp).bind s.heldWait <;> simp only [State.queueSerial, h] <;> rfl
@[simp] theorem State.queueSerial_storeFails (s : State) (rs qs : List Nat) (es : List KeptElem) : (s.queueSerial rs qs es).storeFails = s.storeFails := by cases h : (s.grp? s.iss.grp).bind s.heldWait <;> simp only [State.queueSerial, h] <;> rfl
@[simp] theorem State.queueSerial_rootSigned (s : State) (rs qs : List Nat) (es : List KeptElem) : (s.queueSerial rs qs es).rootSigned = s.rootSigned := by cases h : (s.grp? s.iss.grp).bind s.heldWait <;> simp only [State.queueSerial, h] <;> rfl
@[simp] theorem State.queueSerial_unrecorded (s : State) (rs qs : List Nat) (es : List KeptElem) : (s.queueSerial rs qs es).unrecorded = s.unrecorded := by cases h : (s.grp? s.iss.grp).bind s.heldWait <;> simp only [State.queueSerial, h] <;> rfl
@[simp] theorem State.queueSerial_attested (s : State) (rs qs : List Nat) (es : List KeptElem) : (s.queueSerial rs qs es).attested = s.attested := by cases h : (s.grp? s.iss.grp).bind s.heldWait <;> simp only [State.queueSerial, h] <;> rfl
@[simp] theorem State.queueSerial_gone (s : State) (rs qs : List Nat) (es : List KeptElem) : (s.queueSerial rs qs es).gone = s.gone := by cases h : (s.grp? s.iss.grp).bind s.heldWait <;> simp only [State.queueSerial, h] <;> rfl
@[simp] theorem State.queueSerial_resetting (s : State) (rs qs : List Nat) (es : List KeptElem) : (s.queueSerial rs qs es).resetting = s.resetting := by cases h : (s.grp? s.iss.grp).bind s.heldWait <;> simp only [State.queueSerial, h] <;> rfl
@[simp] theorem State.queueSerial_portErr (s : State) (rs qs : List Nat) (es : List KeptElem) : (s.queueSerial rs qs es).portErr = s.portErr := by cases h : (s.grp? s.iss.grp).bind s.heldWait <;> simp only [State.queueSerial, h] <;> rfl
@[simp] theorem State.queueSerial_parts (s : State) (rs qs : List Nat) (es : List KeptElem) : (s.queueSerial rs qs es).parts = s.parts := by cases h : (s.grp? s.iss.grp).bind s.heldWait <;> simp only [State.queueSerial, h] <;> rfl
@[simp] theorem State.queueSerial_powered (s : State) (rs qs : List Nat) (es : List KeptElem) : (s.queueSerial rs qs es).powered = s.powered := by cases h : (s.grp? s.iss.grp).bind s.heldWait <;> simp only [State.queueSerial, h] <;> rfl

@[simp] theorem Group.setS_core (g : Group) (n : Nat) (v : Reg) : (g.setS n v).core = g.core := by unfold Group.setS; split <;> rfl
@[simp] theorem Group.setS_pipe (g : Group) (n : Nat) (v : Reg) : (g.setS n v).pipe = g.pipe := by unfold Group.setS; split <;> rfl
@[simp] theorem Group.setS_width (g : Group) (n : Nat) (v : Reg) : (g.setS n v).width = g.width := by unfold Group.setS; split <;> rfl
@[simp] theorem Group.setS_threads (g : Group) (n : Nat) (v : Reg) : (g.setS n v).threads = g.threads := by unfold Group.setS; split <;> rfl
@[simp] theorem Group.setS_q (g : Group) (n : Nat) (v : Reg) : (g.setS n v).q = g.q := by unfold Group.setS; split <;> rfl
@[simp] theorem Group.setS_joins (g : Group) (n : Nat) (v : Reg) : (g.setS n v).joins = g.joins := by unfold Group.setS; split <;> rfl
@[simp] theorem Group.setS_cur (g : Group) (n : Nat) (v : Reg) : (g.setS n v).cur = g.cur := by unfold Group.setS; split <;> rfl
@[simp] theorem Group.setS_paths (g : Group) (n : Nat) (v : Reg) : (g.setS n v).paths = g.paths := by unfold Group.setS; split <;> rfl
@[simp] theorem Group.setS_packet (g : Group) (n : Nat) (v : Reg) : (g.setS n v).packet = g.packet := by unfold Group.setS; split <;> rfl
@[simp] theorem Group.setS_stream (g : Group) (n : Nat) (v : Reg) : (g.setS n v).stream = g.stream := by unfold Group.setS; split <;> rfl
@[simp] theorem Group.setS_expect (g : Group) (n : Nat) (v : Reg) : (g.setS n v).expect = g.expect := by unfold Group.setS; split <;> rfl
@[simp] theorem Group.setS_lastMask (g : Group) (n : Nat) (v : Reg) : (g.setS n v).lastMask = g.lastMask := by unfold Group.setS; split <;> rfl
@[simp] theorem Group.setS_trapMask (g : Group) (n : Nat) (v : Reg) : (g.setS n v).trapMask = g.trapMask := by unfold Group.setS; split <;> rfl
@[simp] theorem Group.setS_trapCause (g : Group) (n : Nat) (v : Reg) : (g.setS n v).trapCause = g.trapCause := by unfold Group.setS; split <;> rfl
@[simp] theorem Group.setS_traps (g : Group) (n : Nat) (v : Reg) : (g.setS n v).traps = g.traps := by unfold Group.setS; split <;> rfl
@[simp] theorem Group.setS_waits (g : Group) (n : Nat) (v : Reg) : (g.setS n v).waits = g.waits := by unfold Group.setS; split <;> rfl
@[simp] theorem Group.setS_hold (g : Group) (n : Nat) (v : Reg) : (g.setS n v).hold = g.hold := by unfold Group.setS; split <;> rfl
@[simp] theorem Group.setS_yielded (g : Group) (n : Nat) (v : Reg) : (g.setS n v).yielded = g.yielded := by unfold Group.setS; split <;> rfl
@[simp] theorem Group.setS_lastIssue (g : Group) (n : Nat) (v : Reg) : (g.setS n v).lastIssue = g.lastIssue := by unfold Group.setS; split <;> rfl
@[simp] theorem Group.setS_diverged (g : Group) (n : Nat) (v : Reg) : (g.setS n v).diverged = g.diverged := by unfold Group.setS; split <;> rfl
@[simp] theorem Group.setS_buf (g : Group) (n : Nat) (v : Reg) : (g.setS n v).buf = g.buf := by unfold Group.setS; split <;> rfl
@[simp] theorem Group.setS_serial (g : Group) (n : Nat) (v : Reg) : (g.setS n v).serial = g.serial := by unfold Group.setS; split <;> rfl
@[simp] theorem Group.setS_seen (g : Group) (n : Nat) (v : Reg) : (g.setS n v).seen = g.seen := by unfold Group.setS; split <;> rfl
@[simp] theorem Group.setS_after (g : Group) (n : Nat) (v : Reg) : (g.setS n v).after = g.after := by unfold Group.setS; split <;> rfl
@[simp] theorem Group.setS_spawns (g : Group) (n : Nat) (v : Reg) : (g.setS n v).spawns = g.spawns := by unfold Group.setS; split <;> rfl
@[simp] theorem Group.setS_msends (g : Group) (n : Nat) (v : Reg) : (g.setS n v).msends = g.msends := by unfold Group.setS; split <;> rfl
@[simp] theorem Group.setS_blocks (g : Group) (n : Nat) (v : Reg) : (g.setS n v).blocks = g.blocks := by unfold Group.setS; split <;> rfl

@[simp] theorem Group.onThreads_core (g : Group) (m : Mask) (f : Nat → Thread → Thread) : (g.onThreads m f).core = g.core := rfl
@[simp] theorem Group.onThreads_pipe (g : Group) (m : Mask) (f : Nat → Thread → Thread) : (g.onThreads m f).pipe = g.pipe := rfl
@[simp] theorem Group.onThreads_width (g : Group) (m : Mask) (f : Nat → Thread → Thread) : (g.onThreads m f).width = g.width := rfl
@[simp] theorem Group.onThreads_s (g : Group) (m : Mask) (f : Nat → Thread → Thread) : (g.onThreads m f).s = g.s := rfl
@[simp] theorem Group.onThreads_q (g : Group) (m : Mask) (f : Nat → Thread → Thread) : (g.onThreads m f).q = g.q := rfl
@[simp] theorem Group.onThreads_joins (g : Group) (m : Mask) (f : Nat → Thread → Thread) : (g.onThreads m f).joins = g.joins := rfl
@[simp] theorem Group.onThreads_cur (g : Group) (m : Mask) (f : Nat → Thread → Thread) : (g.onThreads m f).cur = g.cur := rfl
@[simp] theorem Group.onThreads_paths (g : Group) (m : Mask) (f : Nat → Thread → Thread) : (g.onThreads m f).paths = g.paths := rfl
@[simp] theorem Group.onThreads_packet (g : Group) (m : Mask) (f : Nat → Thread → Thread) : (g.onThreads m f).packet = g.packet := rfl
@[simp] theorem Group.onThreads_stream (g : Group) (m : Mask) (f : Nat → Thread → Thread) : (g.onThreads m f).stream = g.stream := rfl
@[simp] theorem Group.onThreads_expect (g : Group) (m : Mask) (f : Nat → Thread → Thread) : (g.onThreads m f).expect = g.expect := rfl
@[simp] theorem Group.onThreads_lastMask (g : Group) (m : Mask) (f : Nat → Thread → Thread) : (g.onThreads m f).lastMask = g.lastMask := rfl
@[simp] theorem Group.onThreads_trapMask (g : Group) (m : Mask) (f : Nat → Thread → Thread) : (g.onThreads m f).trapMask = g.trapMask := rfl
@[simp] theorem Group.onThreads_trapCause (g : Group) (m : Mask) (f : Nat → Thread → Thread) : (g.onThreads m f).trapCause = g.trapCause := rfl
@[simp] theorem Group.onThreads_traps (g : Group) (m : Mask) (f : Nat → Thread → Thread) : (g.onThreads m f).traps = g.traps := rfl
@[simp] theorem Group.onThreads_waits (g : Group) (m : Mask) (f : Nat → Thread → Thread) : (g.onThreads m f).waits = g.waits := rfl
@[simp] theorem Group.onThreads_spend (g : Group) (m : Mask) (f : Nat → Thread → Thread) : (g.onThreads m f).spend = g.spend := rfl
@[simp] theorem Group.onThreads_hold (g : Group) (m : Mask) (f : Nat → Thread → Thread) : (g.onThreads m f).hold = g.hold := rfl
@[simp] theorem Group.onThreads_yielded (g : Group) (m : Mask) (f : Nat → Thread → Thread) : (g.onThreads m f).yielded = g.yielded := rfl
@[simp] theorem Group.onThreads_lastIssue (g : Group) (m : Mask) (f : Nat → Thread → Thread) : (g.onThreads m f).lastIssue = g.lastIssue := rfl
@[simp] theorem Group.onThreads_diverged (g : Group) (m : Mask) (f : Nat → Thread → Thread) : (g.onThreads m f).diverged = g.diverged := rfl
@[simp] theorem Group.onThreads_buf (g : Group) (m : Mask) (f : Nat → Thread → Thread) : (g.onThreads m f).buf = g.buf := rfl
@[simp] theorem Group.onThreads_serial (g : Group) (m : Mask) (f : Nat → Thread → Thread) : (g.onThreads m f).serial = g.serial := rfl
@[simp] theorem Group.onThreads_seen (g : Group) (m : Mask) (f : Nat → Thread → Thread) : (g.onThreads m f).seen = g.seen := rfl
@[simp] theorem Group.onThreads_after (g : Group) (m : Mask) (f : Nat → Thread → Thread) : (g.onThreads m f).after = g.after := rfl
@[simp] theorem Group.onThreads_spawns (g : Group) (m : Mask) (f : Nat → Thread → Thread) : (g.onThreads m f).spawns = g.spawns := rfl
@[simp] theorem Group.onThreads_msends (g : Group) (m : Mask) (f : Nat → Thread → Thread) : (g.onThreads m f).msends = g.msends := rfl
@[simp] theorem Group.onThreads_blocks (g : Group) (m : Mask) (f : Nat → Thread → Thread) : (g.onThreads m f).blocks = g.blocks := rfl

@[simp] theorem Group.killLatches_core (g : Group) : g.killLatches.core = g.core := rfl
@[simp] theorem Group.killLatches_pipe (g : Group) : g.killLatches.pipe = g.pipe := rfl
@[simp] theorem Group.killLatches_width (g : Group) : g.killLatches.width = g.width := rfl
@[simp] theorem Group.killLatches_s (g : Group) : g.killLatches.s = g.s := rfl
@[simp] theorem Group.killLatches_q (g : Group) : g.killLatches.q = g.q := rfl
@[simp] theorem Group.killLatches_joins (g : Group) : g.killLatches.joins = g.joins := rfl
@[simp] theorem Group.killLatches_cur (g : Group) : g.killLatches.cur = g.cur := rfl
@[simp] theorem Group.killLatches_paths (g : Group) : g.killLatches.paths = g.paths := rfl
@[simp] theorem Group.killLatches_packet (g : Group) : g.killLatches.packet = g.packet := rfl
@[simp] theorem Group.killLatches_stream (g : Group) : g.killLatches.stream = g.stream := rfl
@[simp] theorem Group.killLatches_expect (g : Group) : g.killLatches.expect = g.expect := rfl
@[simp] theorem Group.killLatches_lastMask (g : Group) : g.killLatches.lastMask = g.lastMask := rfl
@[simp] theorem Group.killLatches_trapMask (g : Group) : g.killLatches.trapMask = g.trapMask := rfl
@[simp] theorem Group.killLatches_trapCause (g : Group) : g.killLatches.trapCause = g.trapCause := rfl
@[simp] theorem Group.killLatches_traps (g : Group) : g.killLatches.traps = g.traps := rfl
@[simp] theorem Group.killLatches_waits (g : Group) : g.killLatches.waits = g.waits := rfl
@[simp] theorem Group.killLatches_spend (g : Group) : g.killLatches.spend = g.spend := rfl
@[simp] theorem Group.killLatches_hold (g : Group) : g.killLatches.hold = g.hold := rfl
@[simp] theorem Group.killLatches_yielded (g : Group) : g.killLatches.yielded = g.yielded := rfl
@[simp] theorem Group.killLatches_lastIssue (g : Group) : g.killLatches.lastIssue = g.lastIssue := rfl
@[simp] theorem Group.killLatches_diverged (g : Group) : g.killLatches.diverged = g.diverged := rfl
@[simp] theorem Group.killLatches_buf (g : Group) : g.killLatches.buf = g.buf := rfl
@[simp] theorem Group.killLatches_serial (g : Group) : g.killLatches.serial = g.serial := rfl
@[simp] theorem Group.killLatches_seen (g : Group) : g.killLatches.seen = g.seen := rfl
@[simp] theorem Group.killLatches_after (g : Group) : g.killLatches.after = g.after := rfl
@[simp] theorem Group.killLatches_spawns (g : Group) : g.killLatches.spawns = g.spawns := rfl
@[simp] theorem Group.killLatches_msends (g : Group) : g.killLatches.msends = g.msends := rfl
@[simp] theorem Group.killLatches_blocks (g : Group) : g.killLatches.blocks = g.blocks := rfl

@[simp] theorem Group.killOn_core (g : Group) (m : Mask) : (g.killOn m).core = g.core := rfl
@[simp] theorem Group.killOn_pipe (g : Group) (m : Mask) : (g.killOn m).pipe = g.pipe := rfl
@[simp] theorem Group.killOn_width (g : Group) (m : Mask) : (g.killOn m).width = g.width := rfl
@[simp] theorem Group.killOn_s (g : Group) (m : Mask) : (g.killOn m).s = g.s := rfl
@[simp] theorem Group.killOn_q (g : Group) (m : Mask) : (g.killOn m).q = g.q := rfl
@[simp] theorem Group.killOn_joins (g : Group) (m : Mask) : (g.killOn m).joins = g.joins := rfl
@[simp] theorem Group.killOn_cur (g : Group) (m : Mask) : (g.killOn m).cur = g.cur := rfl
@[simp] theorem Group.killOn_paths (g : Group) (m : Mask) : (g.killOn m).paths = g.paths := rfl
@[simp] theorem Group.killOn_packet (g : Group) (m : Mask) : (g.killOn m).packet = g.packet := rfl
@[simp] theorem Group.killOn_stream (g : Group) (m : Mask) : (g.killOn m).stream = g.stream := rfl
@[simp] theorem Group.killOn_expect (g : Group) (m : Mask) : (g.killOn m).expect = g.expect := rfl
@[simp] theorem Group.killOn_lastMask (g : Group) (m : Mask) : (g.killOn m).lastMask = g.lastMask := rfl
@[simp] theorem Group.killOn_trapMask (g : Group) (m : Mask) : (g.killOn m).trapMask = g.trapMask := rfl
@[simp] theorem Group.killOn_trapCause (g : Group) (m : Mask) : (g.killOn m).trapCause = g.trapCause := rfl
@[simp] theorem Group.killOn_traps (g : Group) (m : Mask) : (g.killOn m).traps = g.traps := rfl
@[simp] theorem Group.killOn_waits (g : Group) (m : Mask) : (g.killOn m).waits = g.waits := rfl
@[simp] theorem Group.killOn_spend (g : Group) (m : Mask) : (g.killOn m).spend = g.spend := rfl
@[simp] theorem Group.killOn_hold (g : Group) (m : Mask) : (g.killOn m).hold = g.hold := rfl
@[simp] theorem Group.killOn_yielded (g : Group) (m : Mask) : (g.killOn m).yielded = g.yielded := rfl
@[simp] theorem Group.killOn_lastIssue (g : Group) (m : Mask) : (g.killOn m).lastIssue = g.lastIssue := rfl
@[simp] theorem Group.killOn_diverged (g : Group) (m : Mask) : (g.killOn m).diverged = g.diverged := rfl
@[simp] theorem Group.killOn_buf (g : Group) (m : Mask) : (g.killOn m).buf = g.buf := rfl
@[simp] theorem Group.killOn_serial (g : Group) (m : Mask) : (g.killOn m).serial = g.serial := rfl
@[simp] theorem Group.killOn_seen (g : Group) (m : Mask) : (g.killOn m).seen = g.seen := rfl
@[simp] theorem Group.killOn_after (g : Group) (m : Mask) : (g.killOn m).after = g.after := rfl
@[simp] theorem Group.killOn_spawns (g : Group) (m : Mask) : (g.killOn m).spawns = g.spawns := rfl
@[simp] theorem Group.killOn_msends (g : Group) (m : Mask) : (g.killOn m).msends = g.msends := rfl
@[simp] theorem Group.killOn_blocks (g : Group) (m : Mask) : (g.killOn m).blocks = g.blocks := rfl

@[simp] theorem Group.popQ_core (g : Group) (b : List Nat) (n : Nat) : (g.popQ b n).core = g.core := rfl
@[simp] theorem Group.popQ_pipe (g : Group) (b : List Nat) (n : Nat) : (g.popQ b n).pipe = g.pipe := rfl
@[simp] theorem Group.popQ_width (g : Group) (b : List Nat) (n : Nat) : (g.popQ b n).width = g.width := rfl
@[simp] theorem Group.popQ_threads (g : Group) (b : List Nat) (n : Nat) : (g.popQ b n).threads = g.threads := rfl
@[simp] theorem Group.popQ_s (g : Group) (b : List Nat) (n : Nat) : (g.popQ b n).s = g.s := rfl
@[simp] theorem Group.popQ_joins (g : Group) (b : List Nat) (n : Nat) : (g.popQ b n).joins = g.joins := rfl
@[simp] theorem Group.popQ_cur (g : Group) (b : List Nat) (n : Nat) : (g.popQ b n).cur = g.cur := rfl
@[simp] theorem Group.popQ_paths (g : Group) (b : List Nat) (n : Nat) : (g.popQ b n).paths = g.paths := rfl
@[simp] theorem Group.popQ_packet (g : Group) (b : List Nat) (n : Nat) : (g.popQ b n).packet = g.packet := rfl
@[simp] theorem Group.popQ_stream (g : Group) (b : List Nat) (n : Nat) : (g.popQ b n).stream = g.stream := rfl
@[simp] theorem Group.popQ_expect (g : Group) (b : List Nat) (n : Nat) : (g.popQ b n).expect = g.expect := rfl
@[simp] theorem Group.popQ_lastMask (g : Group) (b : List Nat) (n : Nat) : (g.popQ b n).lastMask = g.lastMask := rfl
@[simp] theorem Group.popQ_trapMask (g : Group) (b : List Nat) (n : Nat) : (g.popQ b n).trapMask = g.trapMask := rfl
@[simp] theorem Group.popQ_trapCause (g : Group) (b : List Nat) (n : Nat) : (g.popQ b n).trapCause = g.trapCause := rfl
@[simp] theorem Group.popQ_traps (g : Group) (b : List Nat) (n : Nat) : (g.popQ b n).traps = g.traps := rfl
@[simp] theorem Group.popQ_waits (g : Group) (b : List Nat) (n : Nat) : (g.popQ b n).waits = g.waits := rfl
@[simp] theorem Group.popQ_spend (g : Group) (b : List Nat) (n : Nat) : (g.popQ b n).spend = g.spend := rfl
@[simp] theorem Group.popQ_hold (g : Group) (b : List Nat) (n : Nat) : (g.popQ b n).hold = g.hold := rfl
@[simp] theorem Group.popQ_yielded (g : Group) (b : List Nat) (n : Nat) : (g.popQ b n).yielded = g.yielded := rfl
@[simp] theorem Group.popQ_lastIssue (g : Group) (b : List Nat) (n : Nat) : (g.popQ b n).lastIssue = g.lastIssue := rfl
@[simp] theorem Group.popQ_diverged (g : Group) (b : List Nat) (n : Nat) : (g.popQ b n).diverged = g.diverged := rfl
@[simp] theorem Group.popQ_buf (g : Group) (b : List Nat) (n : Nat) : (g.popQ b n).buf = g.buf := rfl
@[simp] theorem Group.popQ_serial (g : Group) (b : List Nat) (n : Nat) : (g.popQ b n).serial = g.serial := rfl
@[simp] theorem Group.popQ_seen (g : Group) (b : List Nat) (n : Nat) : (g.popQ b n).seen = g.seen := rfl
@[simp] theorem Group.popQ_after (g : Group) (b : List Nat) (n : Nat) : (g.popQ b n).after = g.after := rfl
@[simp] theorem Group.popQ_spawns (g : Group) (b : List Nat) (n : Nat) : (g.popQ b n).spawns = g.spawns := rfl
@[simp] theorem Group.popQ_msends (g : Group) (b : List Nat) (n : Nat) : (g.popQ b n).msends = g.msends := rfl
@[simp] theorem Group.popQ_blocks (g : Group) (b : List Nat) (n : Nat) : (g.popQ b n).blocks = g.blocks := rfl

@[simp] theorem Group.pushQ_core (g : Group) (b : List Nat) (n : Nat) (v : Nat → Word) : (g.pushQ b n v).core = g.core := rfl
@[simp] theorem Group.pushQ_pipe (g : Group) (b : List Nat) (n : Nat) (v : Nat → Word) : (g.pushQ b n v).pipe = g.pipe := rfl
@[simp] theorem Group.pushQ_width (g : Group) (b : List Nat) (n : Nat) (v : Nat → Word) : (g.pushQ b n v).width = g.width := rfl
@[simp] theorem Group.pushQ_threads (g : Group) (b : List Nat) (n : Nat) (v : Nat → Word) : (g.pushQ b n v).threads = g.threads := rfl
@[simp] theorem Group.pushQ_s (g : Group) (b : List Nat) (n : Nat) (v : Nat → Word) : (g.pushQ b n v).s = g.s := rfl
@[simp] theorem Group.pushQ_joins (g : Group) (b : List Nat) (n : Nat) (v : Nat → Word) : (g.pushQ b n v).joins = g.joins := rfl
@[simp] theorem Group.pushQ_cur (g : Group) (b : List Nat) (n : Nat) (v : Nat → Word) : (g.pushQ b n v).cur = g.cur := rfl
@[simp] theorem Group.pushQ_paths (g : Group) (b : List Nat) (n : Nat) (v : Nat → Word) : (g.pushQ b n v).paths = g.paths := rfl
@[simp] theorem Group.pushQ_packet (g : Group) (b : List Nat) (n : Nat) (v : Nat → Word) : (g.pushQ b n v).packet = g.packet := rfl
@[simp] theorem Group.pushQ_stream (g : Group) (b : List Nat) (n : Nat) (v : Nat → Word) : (g.pushQ b n v).stream = g.stream := rfl
@[simp] theorem Group.pushQ_expect (g : Group) (b : List Nat) (n : Nat) (v : Nat → Word) : (g.pushQ b n v).expect = g.expect := rfl
@[simp] theorem Group.pushQ_lastMask (g : Group) (b : List Nat) (n : Nat) (v : Nat → Word) : (g.pushQ b n v).lastMask = g.lastMask := rfl
@[simp] theorem Group.pushQ_trapMask (g : Group) (b : List Nat) (n : Nat) (v : Nat → Word) : (g.pushQ b n v).trapMask = g.trapMask := rfl
@[simp] theorem Group.pushQ_trapCause (g : Group) (b : List Nat) (n : Nat) (v : Nat → Word) : (g.pushQ b n v).trapCause = g.trapCause := rfl
@[simp] theorem Group.pushQ_traps (g : Group) (b : List Nat) (n : Nat) (v : Nat → Word) : (g.pushQ b n v).traps = g.traps := rfl
@[simp] theorem Group.pushQ_waits (g : Group) (b : List Nat) (n : Nat) (v : Nat → Word) : (g.pushQ b n v).waits = g.waits := rfl
@[simp] theorem Group.pushQ_spend (g : Group) (b : List Nat) (n : Nat) (v : Nat → Word) : (g.pushQ b n v).spend = g.spend := rfl
@[simp] theorem Group.pushQ_hold (g : Group) (b : List Nat) (n : Nat) (v : Nat → Word) : (g.pushQ b n v).hold = g.hold := rfl
@[simp] theorem Group.pushQ_yielded (g : Group) (b : List Nat) (n : Nat) (v : Nat → Word) : (g.pushQ b n v).yielded = g.yielded := rfl
@[simp] theorem Group.pushQ_lastIssue (g : Group) (b : List Nat) (n : Nat) (v : Nat → Word) : (g.pushQ b n v).lastIssue = g.lastIssue := rfl
@[simp] theorem Group.pushQ_diverged (g : Group) (b : List Nat) (n : Nat) (v : Nat → Word) : (g.pushQ b n v).diverged = g.diverged := rfl
@[simp] theorem Group.pushQ_buf (g : Group) (b : List Nat) (n : Nat) (v : Nat → Word) : (g.pushQ b n v).buf = g.buf := rfl
@[simp] theorem Group.pushQ_serial (g : Group) (b : List Nat) (n : Nat) (v : Nat → Word) : (g.pushQ b n v).serial = g.serial := rfl
@[simp] theorem Group.pushQ_seen (g : Group) (b : List Nat) (n : Nat) (v : Nat → Word) : (g.pushQ b n v).seen = g.seen := rfl
@[simp] theorem Group.pushQ_after (g : Group) (b : List Nat) (n : Nat) (v : Nat → Word) : (g.pushQ b n v).after = g.after := rfl
@[simp] theorem Group.pushQ_spawns (g : Group) (b : List Nat) (n : Nat) (v : Nat → Word) : (g.pushQ b n v).spawns = g.spawns := rfl
@[simp] theorem Group.pushQ_msends (g : Group) (b : List Nat) (n : Nat) (v : Nat → Word) : (g.pushQ b n v).msends = g.msends := rfl
@[simp] theorem Group.pushQ_blocks (g : Group) (b : List Nat) (n : Nat) (v : Nat → Word) : (g.pushQ b n v).blocks = g.blocks := rfl

@[simp] theorem Thread.setPred_v (t : Thread) (n : Nat) (v : Bool) : (t.setPred n v).v = t.v := by unfold Thread.setPred; split <;> rfl
@[simp] theorem Thread.setPred_lat (t : Thread) (n : Nat) (v : Bool) : (t.setPred n v).lat = t.lat := by unfold Thread.setPred; split <;> rfl
@[simp] theorem Thread.setPred_pc (t : Thread) (n : Nat) (v : Bool) : (t.setPred n v).pc = t.pc := by unfold Thread.setPred; split <;> rfl
@[simp] theorem Thread.setPred_st (t : Thread) (n : Nat) (v : Bool) : (t.setPred n v).st = t.st := by unfold Thread.setPred; split <;> rfl
@[simp] theorem Thread.setPred_pend (t : Thread) (n : Nat) (v : Bool) : (t.setPred n v).pend = t.pend := by unfold Thread.setPred; split <;> rfl
@[simp] theorem Thread.setPred_run (t : Thread) (n : Nat) (v : Bool) : (t.setPred n v).run = t.run := by unfold Thread.setPred; split <;> rfl
@[simp] theorem Thread.setPred_pkt (t : Thread) (n : Nat) (v : Bool) : (t.setPred n v).pkt = t.pkt := by unfold Thread.setPred; split <;> rfl
@[simp] theorem Thread.setPred_copy (t : Thread) (n : Nat) (v : Bool) : (t.setPred n v).copy = t.copy := by unfold Thread.setPred; split <;> rfl
@[simp] theorem Thread.setPred_moved (t : Thread) (n : Nat) (v : Bool) : (t.setPred n v).moved = t.moved := by unfold Thread.setPred; split <;> rfl
@[simp] theorem Thread.setPred_alone (t : Thread) (n : Nat) (v : Bool) : (t.setPred n v).alone = t.alone := by unfold Thread.setPred; split <;> rfl
@[simp] theorem Thread.setPred_lead (t : Thread) (n : Nat) (v : Bool) : (t.setPred n v).lead = t.lead := by unfold Thread.setPred; split <;> rfl
@[simp] theorem Thread.setPred_stopped (t : Thread) (n : Nat) (v : Bool) : (t.setPred n v).stopped = t.stopped := by unfold Thread.setPred; split <;> rfl
@[simp] theorem Thread.setPred_retired (t : Thread) (n : Nat) (v : Bool) : (t.setPred n v).retired = t.retired := by unfold Thread.setPred; split <;> rfl

@[simp] theorem Thread.setV_p (t : Thread) (n : Nat) (v : Word) : (t.setV n v).p = t.p := rfl
@[simp] theorem Thread.setV_lat (t : Thread) (n : Nat) (v : Word) : (t.setV n v).lat = t.lat := rfl
@[simp] theorem Thread.setV_pc (t : Thread) (n : Nat) (v : Word) : (t.setV n v).pc = t.pc := rfl
@[simp] theorem Thread.setV_st (t : Thread) (n : Nat) (v : Word) : (t.setV n v).st = t.st := rfl
@[simp] theorem Thread.setV_run (t : Thread) (n : Nat) (v : Word) : (t.setV n v).run = t.run := rfl
@[simp] theorem Thread.setV_pkt (t : Thread) (n : Nat) (v : Word) : (t.setV n v).pkt = t.pkt := rfl
@[simp] theorem Thread.setV_copy (t : Thread) (n : Nat) (v : Word) : (t.setV n v).copy = t.copy := rfl
@[simp] theorem Thread.setV_moved (t : Thread) (n : Nat) (v : Word) : (t.setV n v).moved = t.moved := rfl
@[simp] theorem Thread.setV_alone (t : Thread) (n : Nat) (v : Word) : (t.setV n v).alone = t.alone := rfl
@[simp] theorem Thread.setV_lead (t : Thread) (n : Nat) (v : Word) : (t.setV n v).lead = t.lead := rfl
@[simp] theorem Thread.setV_stopped (t : Thread) (n : Nat) (v : Word) : (t.setV n v).stopped = t.stopped := rfl
@[simp] theorem Thread.setV_retired (t : Thread) (n : Nat) (v : Word) : (t.setV n v).retired = t.retired := rfl

@[simp] theorem Thread.latchPush_v (t : Thread) (v : Word) : (t.latchPush v).v = t.v := rfl
@[simp] theorem Thread.latchPush_p (t : Thread) (v : Word) : (t.latchPush v).p = t.p := rfl
@[simp] theorem Thread.latchPush_pc (t : Thread) (v : Word) : (t.latchPush v).pc = t.pc := rfl
@[simp] theorem Thread.latchPush_st (t : Thread) (v : Word) : (t.latchPush v).st = t.st := rfl
@[simp] theorem Thread.latchPush_pend (t : Thread) (v : Word) : (t.latchPush v).pend = t.pend := rfl
@[simp] theorem Thread.latchPush_run (t : Thread) (v : Word) : (t.latchPush v).run = t.run := rfl
@[simp] theorem Thread.latchPush_pkt (t : Thread) (v : Word) : (t.latchPush v).pkt = t.pkt := rfl
@[simp] theorem Thread.latchPush_copy (t : Thread) (v : Word) : (t.latchPush v).copy = t.copy := rfl
@[simp] theorem Thread.latchPush_moved (t : Thread) (v : Word) : (t.latchPush v).moved = t.moved := rfl
@[simp] theorem Thread.latchPush_alone (t : Thread) (v : Word) : (t.latchPush v).alone = t.alone := rfl
@[simp] theorem Thread.latchPush_lead (t : Thread) (v : Word) : (t.latchPush v).lead = t.lead := rfl
@[simp] theorem Thread.latchPush_stopped (t : Thread) (v : Word) : (t.latchPush v).stopped = t.stopped := rfl
@[simp] theorem Thread.latchPush_retired (t : Thread) (v : Word) : (t.latchPush v).retired = t.retired := rfl

@[simp] theorem Thread.killLatches_v (t : Thread) : t.killLatches.v = t.v := rfl
@[simp] theorem Thread.killLatches_p (t : Thread) : t.killLatches.p = t.p := rfl
@[simp] theorem Thread.killLatches_pc (t : Thread) : t.killLatches.pc = t.pc := rfl
@[simp] theorem Thread.killLatches_st (t : Thread) : t.killLatches.st = t.st := rfl
@[simp] theorem Thread.killLatches_pend (t : Thread) : t.killLatches.pend = t.pend := rfl
@[simp] theorem Thread.killLatches_run (t : Thread) : t.killLatches.run = t.run := rfl
@[simp] theorem Thread.killLatches_pkt (t : Thread) : t.killLatches.pkt = t.pkt := rfl
@[simp] theorem Thread.killLatches_copy (t : Thread) : t.killLatches.copy = t.copy := rfl
@[simp] theorem Thread.killLatches_moved (t : Thread) : t.killLatches.moved = t.moved := rfl
@[simp] theorem Thread.killLatches_alone (t : Thread) : t.killLatches.alone = t.alone := rfl
@[simp] theorem Thread.killLatches_lead (t : Thread) : t.killLatches.lead = t.lead := rfl
@[simp] theorem Thread.killLatches_stopped (t : Thread) : t.killLatches.stopped = t.stopped := rfl
@[simp] theorem Thread.killLatches_retired (t : Thread) : t.killLatches.retired = t.retired := rfl

end Sys2Proof.Machine
end

