-- ==== Sys2Proof/Laws/Groups.lean ====
section
/-! SUPPORT. Teams, groups, threads and registers looked up after an update. -/

namespace Sys2Proof.Machine

open Sys2Proof

/-! ## Teams and groups -/

@[simp] theorem Team.modGroup_id (t : Team) (n : Nat) (f : Group → Group) : (t.modGroup n f).id = t.id := rfl

theorem find_map_id {f : Team → Team} (hf : ∀ t, (f t).id = t.id) (k : TeamId) (l : List Team) :
    (l.map f).find? (fun t => decide (t.id = k)) = (l.find? (fun t => decide (t.id = k))).map f := by
  induction l with
  | nil => rfl
  | cons t l ih =>
    simp only [List.map_cons, List.find?_cons, hf]
    split
    · rfl
    · exact ih

theorem State.team?_id {s : State} {k : TeamId} {t : Team} (h : s.team? k = some t) : t.id = k := by
  have := List.find?_some h
  simpa using this

/-- A team after an update of one that keeps its name. -/
theorem State.team?_modTeam (s : State) (i k : TeamId) {f : Team → Team} (hf : ∀ t, (f t).id = t.id) :
    (s.modTeam i f).team? k = (s.team? k).map (fun t => if t.id = i then f t else t) := by
  unfold State.team? State.modTeam
  exact find_map_id (f := fun t => if t.id = i then f t else t) (fun t => by split <;> simp [hf]) k s.teams

theorem State.team?_modTeam_self (s : State) (i : TeamId) {f : Team → Team} (hf : ∀ t, (f t).id = t.id) :
    (s.modTeam i f).team? i = (s.team? i).map f := by
  rw [State.team?_modTeam s i i hf]
  cases h : s.team? i with
  | none => rfl
  | some t => simp [State.team?_id h]

theorem State.team?_modTeam_ne (s : State) {i k : TeamId} {f : Team → Team} (hf : ∀ t, (f t).id = t.id) (hk : k ≠ i) :
    (s.modTeam i f).team? k = s.team? k := by
  rw [State.team?_modTeam s i k hf]
  cases h : s.team? k with
  | none => rfl
  | some t => simp [State.team?_id h, hk]

/-- The issuing team after an update of one of its groups. -/
@[simp] theorem State.team?_modGrp_self (s : State) (i : GrpId) (f : Group → Group) :
    (s.modGrp i f).team? i.team = (s.team? i.team).map (fun t => t.modGroup i.grp f) :=
  State.team?_modTeam_self s i.team (fun _ => rfl)

theorem State.team?_modGrp_ne (s : State) {i : GrpId} {k : TeamId} (f : Group → Group) (hk : k ≠ i.team) :
    (s.modGrp i f).team? k = s.team? k :=
  State.team?_modTeam_ne s (fun _ => rfl) hk

/-- The group after its own update. -/
@[simp] theorem State.grp?_modGrp_self (s : State) (i : GrpId) (f : Group → Group) :
    (s.modGrp i f).grp? i = (s.grp? i).map f := by
  unfold State.grp?
  rw [State.team?_modGrp_self]
  cases s.team? i.team with
  | none => rfl
  | some t => simp [Team.modGroup]

/-- Another group is left alone. -/
theorem State.grp?_modGrp_ne (s : State) {i k : GrpId} (f : Group → Group) (hk : k ≠ i) :
    (s.modGrp i f).grp? k = s.grp? k := by
  unfold State.grp?
  by_cases h : k.team = i.team
  · rw [h, State.team?_modGrp_self]
    have hg : k.grp ≠ i.grp := by
      intro e
      apply hk
      cases k; cases i; simp_all
    cases s.team? i.team with
    | none => rfl
    | some t => simp [Team.modGroup, modAt_get_ne f _ hg]
  · rw [State.team?_modGrp_ne s f h]

/-! ## Threads -/

@[simp] theorem Group.onThreads_length (g : Group) (m : Mask) (f : Nat → Thread → Thread) :
    (g.onThreads m f).threads.length = g.threads.length := by
  simp [Group.onThreads]

@[simp] theorem Group.onThreads_get (g : Group) (m : Mask) (f : Nat → Thread → Thread) (k : Nat) :
    (g.onThreads m f).threads[k]? = g.threads[k]?.map (fun t => if m.getLsbD k then f k t else t) := by
  simp [Group.onThreads]

/-- An active thread after an update. -/
theorem Group.onThreads_active (g : Group) {m : Mask} (f : Nat → Thread → Thread) {k : Nat} (hk : m.getLsbD k = true) :
    (g.onThreads m f).threads[k]? = g.threads[k]?.map (f k) := by
  simp [hk]

/-- A thread outside the mask is left alone. -/
theorem Group.onThreads_inactive (g : Group) {m : Mask} (f : Nat → Thread → Thread) {k : Nat}
    (hk : m.getLsbD k = false) : (g.onThreads m f).threads[k]? = g.threads[k]? := by
  simp [hk]

@[simp] theorem Group.popQ_foldl_threads (b : List Nat) (l : List Nat) (g : Group) :
    (l.foldl (fun g n => g.popQ b n) g).threads = g.threads := by
  induction l generalizing g with
  | nil => rfl
  | cons n l ih => simp [ih]

@[simp] theorem Group.popQ_foldl_s (b : List Nat) (l : List Nat) (g : Group) :
    (l.foldl (fun g n => g.popQ b n) g).s = g.s := by
  induction l generalizing g with
  | nil => rfl
  | cons n l ih => simp [ih]

/-! ## Registers -/

@[simp] theorem Group.sreg_zero (g : Group) : g.sreg 0 = 0 := rfl

/-- s0 is not written (R65). -/
@[simp] theorem Group.setS_zero (g : Group) (v : Reg) : g.setS 0 v = g := rfl

/-- The register just written. -/
theorem Group.sreg_setS_self (g : Group) {n : Nat} (v : Reg) (h0 : n ≠ 0) (hn : n < g.s.length) :
    (g.setS n v).sreg n = v := by
  unfold Group.setS Group.sreg
  rw [if_neg h0, if_neg h0, getD_modAt_self _ _ hn]

/-- Another register is left alone. -/
theorem Group.sreg_setS_ne (g : Group) {n k : Nat} (v : Reg) (h : k ≠ n) : (g.setS n v).sreg k = g.sreg k := by
  unfold Group.setS Group.sreg
  by_cases h0 : n = 0
  · rw [if_pos h0]
  · rw [if_neg h0]
    simp only [getD_modAt_ne _ _ _ h]

@[simp] theorem Group.setS_length (g : Group) (n : Nat) (v : Reg) : (g.setS n v).s.length = g.s.length := by
  unfold Group.setS
  split
  · rfl
  · simp

/-- The v register just written. -/
theorem Thread.vreg_setV_self (t : Thread) {n : Nat} (v : Word) (hn : n < t.v.length) : (t.setV n v).vreg n = v := by
  unfold Thread.setV Thread.vreg
  rw [getD_modAt_self _ _ hn]

theorem Thread.vreg_setV_ne (t : Thread) {n k : Nat} (v : Word) (h : k ≠ n) : (t.setV n v).vreg k = t.vreg k := by
  unfold Thread.setV Thread.vreg
  simp only [getD_modAt_ne _ _ _ h]

/-- p0 reads true (R65). -/
@[simp] theorem Thread.pred_zero (t : Thread) : t.pred 0 = true := rfl

/-- p0 is not written (R65). -/
@[simp] theorem Thread.setPred_zero (t : Thread) (v : Bool) : t.setPred 0 v = t := rfl

theorem Thread.pred_setPred_self (t : Thread) {p : Nat} (v : Bool) (h0 : p ≠ 0) (hp : p < 8) :
    (t.setPred p v).pred p = v := by
  unfold Thread.setPred Thread.pred
  rw [if_neg h0]
  have h : (p == 0) = false := by simp [h0]
  cases v <;> simp [h, hp]

theorem Thread.pred_setPred_ne (t : Thread) {p k : Nat} (v : Bool) (h : k ≠ p) : (t.setPred p v).pred k = t.pred k := by
  unfold Thread.setPred Thread.pred
  split
  · rfl
  · by_cases hk : k < 8
    · cases v <;> simp [hk, h]
    · have := BitVec.getLsbD_of_ge t.p k (by omega)
      cases v <;> simp [this, BitVec.getLsbD_twoPow, Ne.symm h]

@[simp] theorem Thread.latchPush_latch_zero (t : Thread) (v : Word) : (t.latchPush v).latch 0 = v := rfl

/-- The delivery moves b0 to b2 on to b1 to b3 (R56). -/
theorem Thread.latchPush_latch_succ (t : Thread) (v : Word) {n : Nat} (h : n < 3) :
    (t.latchPush v).latch (n + 1) = t.latch n := by
  simp [Thread.latchPush, Thread.latch, List.getD_eq_getElem?_getD, h]

end Sys2Proof.Machine
end

