-- ==== Sys2Proof/Laws/Memory.lean ====
section
/-! SUPPORT. Memory: reading after writing, and the canonical form. -/

namespace Sys2Proof.Machine

open Sys2Proof

@[simp] theorem Memory.read_nil (a : Nat) : Memory.read [] a = unlisted := rfl

/-- Below its lower bound a memory in canonical form lists nothing. -/
theorem Memory.read_below {lo a : Nat} {m : Memory} (h : Memory.wfFrom lo m = true) (ha : a < lo) :
    Memory.read m a = unlisted := by
  induction m generalizing lo with
  | nil => rfl
  | cons c m ih =>
    simp only [Memory.wfFrom, Bool.and_eq_true, decide_eq_true_eq] at h
    have hne : c.1 ≠ a := by omega
    simp only [Memory.read, if_neg hne]
    exact ih h.2 (by omega)

theorem Memory.wfFrom_mono {lo lo' : Nat} {m : Memory} (h : Memory.wfFrom lo m = true) (hl : lo' ≤ lo) :
    Memory.wfFrom lo' m = true := by
  cases m with
  | nil => rfl
  | cons c m =>
    simp only [Memory.wfFrom, Bool.and_eq_true, decide_eq_true_eq] at h ⊢
    exact ⟨⟨by omega, h.1.2⟩, h.2⟩

/-- A write keeps the canonical form. -/
theorem Memory.write_wfFrom {lo a : Nat} {m : Memory} (v : Byte) (h : Memory.wfFrom lo m = true) (ha : lo ≤ a) :
    Memory.wfFrom lo (Memory.write m a v) = true := by
  induction m generalizing lo with
  | nil =>
    unfold Memory.write
    split
    · rfl
    · next hv => simp [Memory.wfFrom, ha, hv]
  | cons c m ih =>
    simp only [Memory.wfFrom, Bool.and_eq_true, decide_eq_true_eq] at h
    obtain ⟨⟨h1, h2⟩, h3⟩ := h
    unfold Memory.write
    split
    · next hlt =>
      split
      · simp [Memory.wfFrom, h1, h2, h3]
      · next hv =>
        simp only [Memory.wfFrom, Bool.and_eq_true, decide_eq_true_eq]
        exact ⟨⟨ha, hv⟩, ⟨by omega, h2⟩, h3⟩
    · split
      · next heq =>
        split
        · exact Memory.wfFrom_mono h3 (by omega)
        · next hv =>
          simp only [Memory.wfFrom, Bool.and_eq_true, decide_eq_true_eq]
          exact ⟨⟨ha, hv⟩, heq ▸ h3⟩
      · next hne =>
        simp only [Memory.wfFrom, Bool.and_eq_true, decide_eq_true_eq]
        exact ⟨⟨h1, h2⟩, ih h3 (by omega)⟩

/-- A write keeps the canonical form. -/
theorem Memory.write_wf {m : Memory} (a : Nat) (v : Byte) (h : Memory.wf m = true) :
    Memory.wf (Memory.write m a v) = true :=
  Memory.write_wfFrom v h (Nat.zero_le a)

/-- A write of several bytes keeps the canonical form. -/
theorem Memory.writeN_wf {m : Memory} (a : Nat) (bs : List Byte) (h : Memory.wf m = true) :
    Memory.wf (Memory.writeN m a bs) = true := by
  induction bs generalizing m a with
  | nil => exact h
  | cons b bs ih => exact ih (a + 1) (Memory.write_wf a b h)

/-- A fold of writes keeps the canonical form. -/
theorem Memory.foldl_write_wf {α : Type} (f : α → Nat) (v : α → Byte) (l : List α) {m : Memory}
    (h : Memory.wf m = true) : Memory.wf (l.foldl (fun m x => Memory.write m (f x) (v x)) m) = true := by
  induction l generalizing m with
  | nil => exact h
  | cons x l ih => exact ih (Memory.write_wf (f x) (v x) h)

/-- A memory without some of its entries keeps the canonical form. -/
theorem Memory.filter_wfFrom (p : Host.Cell → Bool) {lo : Nat} {m : Memory} (h : Memory.wfFrom lo m = true) :
    Memory.wfFrom lo (m.filter p) = true := by
  induction m generalizing lo with
  | nil => rfl
  | cons c m ih =>
    simp only [Memory.wfFrom, Bool.and_eq_true, decide_eq_true_eq] at h
    obtain ⟨⟨h1, h2⟩, h3⟩ := h
    rw [List.filter_cons]
    split
    · simp only [Memory.wfFrom, Bool.and_eq_true, decide_eq_true_eq]
      exact ⟨⟨h1, h2⟩, ih h3⟩
    · exact ih (Memory.wfFrom_mono h3 (by omega))

/-- What reading gives after a write, in canonical form. -/
theorem Memory.read_write_from {lo a : Nat} {m : Memory} (v : Byte) (b : Nat) (h : Memory.wfFrom lo m = true)
    (ha : lo ≤ a) : Memory.read (Memory.write m a v) b = if b = a then v else Memory.read m b := by
  induction m generalizing lo with
  | nil =>
    unfold Memory.write
    split
    · next hv => split <;> simp [Memory.read, hv]
    · simp only [Memory.read]
      split <;> split <;> first | rfl | omega
  | cons c m ih =>
    simp only [Memory.wfFrom, Bool.and_eq_true, decide_eq_true_eq] at h
    obtain ⟨⟨h1, h2⟩, h3⟩ := h
    unfold Memory.write
    split
    · next hlt =>
      split
      · next hv =>
        split
        · next hb =>
          subst hb
          have hne : c.1 ≠ b := by omega
          simp only [Memory.read, if_neg hne]
          rw [Memory.read_below h3 (by omega), hv]
        · rfl
      · simp only [Memory.read]
        by_cases hb : b = a
        · simp [hb]
        · have hba : ¬ a = b := fun e => hb e.symm
          simp [hb, hba]
    · split
      · next heq =>
        split
        · next hv =>
          split
          · next hb =>
            subst hb
            rw [Memory.read_below h3 (by omega), hv]
          · next hb =>
            have hne : c.1 ≠ b := by omega
            simp only [Memory.read, if_neg hne]
        · simp only [Memory.read]
          by_cases hb : b = a
          · simp [hb]
          · have h1 : ¬ a = b := fun e => hb e.symm
            have h2 : ¬ c.1 = b := by omega
            simp [hb, h1, h2]
      · next hne =>
        simp only [Memory.read]
        by_cases hb : c.1 = b
        · have : b ≠ a := by omega
          simp [hb, this]
        · simp only [if_neg hb]
          exact ih h3 (by omega)

/-- Reading the byte just written. -/
theorem Memory.read_write_self {m : Memory} (a : Nat) (v : Byte) (h : Memory.wf m = true) :
    Memory.read (Memory.write m a v) a = v := by
  rw [Memory.read_write_from v a h (Nat.zero_le a), if_pos rfl]

/-- A write leaves every other byte alone. -/
theorem Memory.read_write_ne {m : Memory} {a b : Nat} (v : Byte) (h : Memory.wf m = true) (hb : b ≠ a) :
    Memory.read (Memory.write m a v) b = Memory.read m b := by
  rw [Memory.read_write_from v b h (Nat.zero_le a), if_neg hb]

/-- A write of several bytes leaves every byte outside them alone. -/
theorem Memory.read_writeN_out {m : Memory} {a b : Nat} (bs : List Byte) (h : Memory.wf m = true)
    (hb : b < a ∨ a + bs.length ≤ b) : Memory.read (Memory.writeN m a bs) b = Memory.read m b := by
  induction bs generalizing m a with
  | nil => rfl
  | cons x bs ih =>
    simp only [List.length_cons] at hb
    rw [Memory.writeN, ih (Memory.write_wf a x h) (by omega), Memory.read_write_ne x h (by omega)]

end Sys2Proof.Machine
end

