-- ==== Sys2Proof/Laws/PerInstr.lean ====
section
/-! SUPPORT. Statements per instruction: decoding gives back what encoding wrote. -/

set_option linter.unusedSimpArgs false

namespace Sys2Proof.Laws.RoundTrip

set_option Elab.async false

open Sys2Proof

/-- An event has no encoding; a well-formed instruction's word decodes to it. -/
def Statement (i : Instr) : Prop :=
  match encodeNat i with
  | none => i.isWord = false
  | some n => n < 2 ^ 31 ∧ (WellFormed i = true → decodeNat n = .ok i)

theorem of_some {i : Instr} {n : Nat} (he : encodeNat i = some n) (hn : n < 2 ^ 31)
    (h : WellFormed i = true → decodeNat n = .ok i) : Statement i := by
  simp only [Statement, he]
  exact ⟨hn, h⟩

theorem of_encV {i : Instr} {major fn : Nat} {w : Bool} {d a b : Nat} (he : encodeNat i = some (encV major fn w d a b))
    (hm : major < 0x20) (hf : fn < 8) (hd : d < 128) (ha : a < 128) (hb : b < 128)
    (h : WellFormed i = true → decodeV major fn d a b w = .ok i) : Statement i :=
  of_some he (encV_lt _ _ _ _ _ _ hm hf hd ha hb) (fun x => by rw [decode_encV _ _ _ _ _ _ hm hf hd ha hb]; exact h x)

theorem of_encU {i : Instr} {major fn : Nat} {d a : BitVec 6} (k b : Nat)
    (he : encodeNat i = some (encU major fn d a (k * 256 + b))) (hm : 0x20 ≤ major ∧ major < 0x30) (hn : major ≠ 0x24)
    (hf : fn < 16) (hi : k < 2) (hb : b < 256)
    (h : WellFormed i = true → decodeU major fn d.toNat a.toNat k b = .ok i) : Statement i :=
  of_some he (encU_lt _ _ _ _ _ hm.2 hf (by omega)) (fun x => by rw [decode_encU _ _ _ _ _ _ hm hn hf hi hb]; exact h x)

theorem of_encBR {i : Instr} {fn f : Nat} (he : encodeNat i = some (encBR fn f)) (hf : fn < 16) (hb : f < 2 ^ 21)
    (h : decodeBR fn f = .ok i) : Statement i :=
  of_some he (encBR_lt _ _ hf hb) (fun _ => by rw [decode_encBR _ _ hf hb]; exact h)

theorem of_encM {i : Instr} {major fn t s x : Nat} {o h : Bool} (he : encodeNat i = some (encM major fn t s x o h))
    (hm : 0x30 ≤ major ∧ major < 0x37) (hf : fn < 8) (ht : t < 128) (hs : s < 64) (hx : x < 128)
    (hd : WellFormed i = true → decodeM major fn t s x o.toNat h.toNat = .ok i) : Statement i :=
  of_some he (encM_lt _ _ _ _ _ _ _ hm.2 hf ht hs hx)
    (fun y => by rw [decode_encM _ _ _ _ _ _ _ hm hf ht hs hx]; exact hd y)

theorem of_encE {i : Instr} {major fn : Nat} {p q : BitVec 6} {x : BitVec 5} {n : Nat}
    (he : encodeNat i = some (encE major fn p q x n)) (hm : 0x37 ≤ major ∧ major < 0x40) (hf : fn < 16) (hn : n < 16)
    (h : WellFormed i = true → decodeE major fn p.toNat q.toNat x.toNat n = .ok i) : Statement i :=
  of_some he (encE_lt _ _ _ _ _ _ hm.2 hf hn) (fun y => by rw [decode_encE _ _ _ _ _ _ hm hf hn]; exact h y)

@[simp] theorem verdict_ok (i : Instr) : verdict false false false false i = .ok i := rfl

@[simp] theorem toNat_beq_one (o : Bool) : (o.toNat == 1) = o := by cases o <;> rfl

@[simp] theorem bv5_toNat (x : BitVec 5) : BitVec.ofNat 5 x.toNat = x := by simp

@[simp] theorem usrcOf_code (y : USrc) : usrcOf (usrcCode y / 256) (usrcCode y % 256) = y := by
  cases y with
  | imm n =>
    have := n.isLt
    have h1 : (256 + n.toNat) / 256 = 1 := by omega
    have h2 : (256 + n.toNat) % 256 = n.toNat := by omega
    simp only [usrcCode, usrcOf, h1, h2]
    simp
  | s n =>
    have := n.isLt
    have h1 : n.toNat / 256 = 0 := by omega
    have h2 : n.toNat % 256 = n.toNat := by omega
    simp [usrcCode, usrcOf, h1, h2, this]
  | latch n =>
    have h1 : (64 + n.val) / 256 = 0 := by omega
    have h2 : (64 + n.val) % 256 = 64 + n.val := by omega
    have h3 : ¬ 64 + n.val < 64 := by omega
    have h4 : 64 + n.val < 68 := by omega
    simp [usrcCode, usrcOf, h1, h2, h4]
  | lit => rfl

@[simp] theorem uBad_code (y : USrc) : uBad (usrcCode y / 256) (usrcCode y % 256) = false := by
  cases y with
  | imm n =>
    have := n.isLt
    have h1 : (256 + n.toNat) / 256 = 1 := by omega
    simp [usrcCode, uBad, h1]
  | s n =>
    have := n.isLt
    have h2 : n.toNat % 256 = n.toNat := by omega
    have h3 : ¬ 68 ≤ n.toNat := by omega
    simp [usrcCode, uBad, h2, h3]
  | latch n =>
    have h2 : (64 + n.val) % 256 = 64 + n.val := by omega
    have h3 : ¬ 68 ≤ 64 + n.val := by omega
    simp [usrcCode, uBad, h2]
    omega
  | lit => rfl

theorem usrcCode_lt (y : USrc) : usrcCode y < 512 := by
  cases y with
  | imm n => have := n.isLt; simp only [usrcCode]; omega
  | s n => have := n.isLt; simp only [usrcCode]; omega
  | latch n => simp only [usrcCode]; omega
  | lit => decide

theorem vsrcCode_lt (y : VSrc) : vsrcCode y < 128 := by cases y <;> simp only [vsrcCode] <;> omega

@[simp] theorem vsrcOf_code (y : VSrc) : vsrcOf (vsrcCode y) = y := by
  cases y with
  | v n => simp [vsrcCode, vsrcOf]
  | b n =>
    have h : ¬ 112 + n.val < 96 := by omega
    simp [vsrcCode, vsrcOf, h]

@[simp] theorem vsrcOk_code (y : VSrc) : vsrcOk (vsrcCode y) = true := by
  cases y with
  | v n => simp [vsrcCode, vsrcOk]
  | b n =>
    have h : 112 + n.val < 116 := by omega
    simp [vsrcCode, vsrcOk, h]

theorem uBad_one (b : Nat) : uBad 1 b = false := rfl

theorem rlenCode_lt (r : RLen) : rlenCode r < 128 := by cases r <;> simp only [rlenCode] <;> omega

@[simp] theorem rlenOf_code (r : RLen) : rlenOf (rlenCode r) = some r := by
  cases r with
  | s n =>
    have h1 : ¬ 96 + n.val = 116 := by omega
    have h2 : ¬ 96 + n.val = 117 := by omega
    have h3 : 96 + n.val < 112 := by omega
    simp [rlenCode, rlenOf, h1, h2, h3]
  | lit => rfl
  | all => rfl

@[simp] theorem osBad_rlen (r : RLen) : osBad (rlenCode r) = false := by
  cases r with
  | s n =>
    have h1 : ¬ 96 + n.val = 0x77 := by omega
    simp [rlenCode, osBad, h1]
  | lit => rfl
  | all => rfl

/-- A range word decodes to its range (R169). -/
theorem decodeRange_code (lo : Nat) (sc : BitVec 3) (r : Range) (k : BitVec 3 → Range → Instr) (hl : lo ≤ sc.toNat)
    (hh : sc.toNat ≤ 6) (hr : r.ok = true) :
    decodeRange lo (sc.toNat * 4) r.s.toNat (rlenCode r.len) r.o.toNat false.toNat k = .ok (k sc r) := by
  have := sc.isLt
  have h1 : fld (sc.toNat * 4) 2 3 = sc.toNat := by unfold fld; omega
  have h2 : fld (sc.toNat * 4) 5 2 = 0 := by unfold fld; omega
  have h3 : fld (sc.toNat * 4) 0 2 = 0 := by unfold fld; omega
  have h4 : ¬ sc.toNat < lo := by omega
  have h5 : ¬ 6 < sc.toNat := by omega
  have hall : (r.len == RLen.all && (r.s.toNat != 0 || r.o.toNat != 0)) = false := by
    unfold Range.ok at hr
    cases hx : r.len with
    | all =>
      rw [hx] at hr
      simp only [Bool.and_eq_true, beq_iff_eq, Bool.not_eq_true'] at hr
      simp [hr.1, hr.2]
    | s n => rfl
    | lit => rfl
  have hall' : (r.len == RLen.all && (r.s.toNat != 0 || r.o)) = false := by
    rw [← hall]; cases r.o <;> rfl
  simp [decodeRange, verdict, h1, h2, h3, h4, h5, hall']

theorem nop : Statement (.nop) :=
  of_some (n := 0) rfl (by decide) (fun _ => rfl)

theorem vmov (w : Bool) (d a : Os) : Statement (.vmov w d a) := by
  refine of_encV rfl (by decide) ?_ ?_ ?_ ?_ (fun h => ?_)
  all_goals first | (first | decide | exact osCode_lt _ | exact addTyCode_lt _ | exact mulTyCode_lt _ | exact fmaTyCode_lt _ | exact minTyCode_lt _ | exact logicOpCode_lt _ | exact cmpICode_lt _ | exact cmpFCode_lt _ | exact rndCode_lt _ | exact bitsOpCode_lt _ | exact divTyCode_lt _ | exact sfuOpCode_lt _ | exact permOpCode_lt _ | exact redOpCode_lt _ | exact dotOpCode_lt _ | exact predOpCode_lt _ | exact saluOpCode_lt _ | exact memTyCode_lt _ | exact atomOpCode_lt _ | exact usrcCode_lt _) | simp_all [decodeV, WellFormed, onFn, v2, v3, verdict]

theorem vlane (w : Bool) (d : Os) : Statement (.vlane w d) := by
  refine of_encV rfl (by decide) ?_ ?_ ?_ ?_ (fun h => ?_)
  all_goals first | (first | decide | exact osCode_lt _ | exact addTyCode_lt _ | exact mulTyCode_lt _ | exact fmaTyCode_lt _ | exact minTyCode_lt _ | exact logicOpCode_lt _ | exact cmpICode_lt _ | exact cmpFCode_lt _ | exact rndCode_lt _ | exact bitsOpCode_lt _ | exact divTyCode_lt _ | exact sfuOpCode_lt _ | exact permOpCode_lt _ | exact redOpCode_lt _ | exact dotOpCode_lt _ | exact predOpCode_lt _ | exact saluOpCode_lt _ | exact memTyCode_lt _ | exact atomOpCode_lt _ | exact usrcCode_lt _) | simp_all [decodeV, WellFormed, onFn, v2, v3, verdict]

theorem vsplat (w : Bool) (d : Os) (s : BitVec 6) (sel : SplatSel) : Statement (.vsplat w d s sel) := by
  refine of_encV rfl (by decide) ?_ ?_ ?_ ?_ (fun h => ?_)
  · decide
  · exact osCode_lt d
  · have := s.isLt; omega
  · cases sel <;> decide
  · have hs := s.isLt
    have h1 : ¬ 64 ≤ s.toNat := by omega
    cases sel <;> simp_all [decodeV, WellFormed, verdict, splatSelCode, splatSelOf]

theorem vmov64 (w : Bool) (d a : Os) : Statement (.vmov64 w d a) := by
  refine of_encV rfl (by decide) ?_ ?_ ?_ ?_ (fun h => ?_)
  all_goals first | (first | decide | exact osCode_lt _ | exact addTyCode_lt _ | exact mulTyCode_lt _ | exact fmaTyCode_lt _ | exact minTyCode_lt _ | exact logicOpCode_lt _ | exact cmpICode_lt _ | exact cmpFCode_lt _ | exact rndCode_lt _ | exact bitsOpCode_lt _ | exact divTyCode_lt _ | exact sfuOpCode_lt _ | exact permOpCode_lt _ | exact redOpCode_lt _ | exact dotOpCode_lt _ | exact predOpCode_lt _ | exact saluOpCode_lt _ | exact memTyCode_lt _ | exact atomOpCode_lt _ | exact usrcCode_lt _) | simp_all [decodeV, WellFormed, onFn, v2, v3, verdict]

theorem vadd (ty : AddTy) (w : Bool) (d a b : Os) : Statement (.vadd ty w d a b) := by
  refine of_encV rfl (by decide) ?_ ?_ ?_ ?_ (fun h => ?_)
  all_goals first | (first | decide | exact osCode_lt _ | exact addTyCode_lt _ | exact mulTyCode_lt _ | exact fmaTyCode_lt _ | exact minTyCode_lt _ | exact logicOpCode_lt _ | exact cmpICode_lt _ | exact cmpFCode_lt _ | exact rndCode_lt _ | exact bitsOpCode_lt _ | exact divTyCode_lt _ | exact sfuOpCode_lt _ | exact permOpCode_lt _ | exact redOpCode_lt _ | exact dotOpCode_lt _ | exact predOpCode_lt _ | exact saluOpCode_lt _ | exact memTyCode_lt _ | exact atomOpCode_lt _ | exact usrcCode_lt _) | simp_all [decodeV, WellFormed, onFn, v2, v3, verdict]

theorem vsub (ty : AddTy) (w : Bool) (d a b : Os) : Statement (.vsub ty w d a b) := by
  refine of_encV rfl (by decide) ?_ ?_ ?_ ?_ (fun h => ?_)
  all_goals first | (first | decide | exact osCode_lt _ | exact addTyCode_lt _ | exact mulTyCode_lt _ | exact fmaTyCode_lt _ | exact minTyCode_lt _ | exact logicOpCode_lt _ | exact cmpICode_lt _ | exact cmpFCode_lt _ | exact rndCode_lt _ | exact bitsOpCode_lt _ | exact divTyCode_lt _ | exact sfuOpCode_lt _ | exact permOpCode_lt _ | exact redOpCode_lt _ | exact dotOpCode_lt _ | exact predOpCode_lt _ | exact saluOpCode_lt _ | exact memTyCode_lt _ | exact atomOpCode_lt _ | exact usrcCode_lt _) | simp_all [decodeV, WellFormed, onFn, v2, v3, verdict]

theorem vmul (ty : MulTy) (w : Bool) (d a b : Os) : Statement (.vmul ty w d a b) := by
  refine of_encV rfl (by decide) ?_ ?_ ?_ ?_ (fun h => ?_)
  all_goals first | (first | decide | exact osCode_lt _ | exact addTyCode_lt _ | exact mulTyCode_lt _ | exact fmaTyCode_lt _ | exact minTyCode_lt _ | exact logicOpCode_lt _ | exact cmpICode_lt _ | exact cmpFCode_lt _ | exact rndCode_lt _ | exact bitsOpCode_lt _ | exact divTyCode_lt _ | exact sfuOpCode_lt _ | exact permOpCode_lt _ | exact redOpCode_lt _ | exact dotOpCode_lt _ | exact predOpCode_lt _ | exact saluOpCode_lt _ | exact memTyCode_lt _ | exact atomOpCode_lt _ | exact usrcCode_lt _) | simp_all [decodeV, WellFormed, onFn, v2, v3, verdict]

theorem vfma (ty : FmaTy) (w : Bool) (d a b : Os) : Statement (.vfma ty w d a b) := by
  refine of_encV rfl (by decide) ?_ ?_ ?_ ?_ (fun h => ?_)
  all_goals first | (first | decide | exact osCode_lt _ | exact addTyCode_lt _ | exact mulTyCode_lt _ | exact fmaTyCode_lt _ | exact minTyCode_lt _ | exact logicOpCode_lt _ | exact cmpICode_lt _ | exact cmpFCode_lt _ | exact rndCode_lt _ | exact bitsOpCode_lt _ | exact divTyCode_lt _ | exact sfuOpCode_lt _ | exact permOpCode_lt _ | exact redOpCode_lt _ | exact dotOpCode_lt _ | exact predOpCode_lt _ | exact saluOpCode_lt _ | exact memTyCode_lt _ | exact atomOpCode_lt _ | exact usrcCode_lt _) | simp_all [decodeV, WellFormed, onFn, v2, v3, verdict]

theorem vfnma (ty : FmaTy) (w : Bool) (d a b : Os) : Statement (.vfnma ty w d a b) := by
  refine of_encV rfl (by decide) ?_ ?_ ?_ ?_ (fun h => ?_)
  all_goals first | (first | decide | exact osCode_lt _ | exact addTyCode_lt _ | exact mulTyCode_lt _ | exact fmaTyCode_lt _ | exact minTyCode_lt _ | exact logicOpCode_lt _ | exact cmpICode_lt _ | exact cmpFCode_lt _ | exact rndCode_lt _ | exact bitsOpCode_lt _ | exact divTyCode_lt _ | exact sfuOpCode_lt _ | exact permOpCode_lt _ | exact redOpCode_lt _ | exact dotOpCode_lt _ | exact predOpCode_lt _ | exact saluOpCode_lt _ | exact memTyCode_lt _ | exact atomOpCode_lt _ | exact usrcCode_lt _) | simp_all [decodeV, WellFormed, onFn, v2, v3, verdict]

theorem vmin (ty : MinTy) (w : Bool) (d a b : Os) : Statement (.vmin ty w d a b) := by
  refine of_encV rfl (by decide) ?_ ?_ ?_ ?_ (fun h => ?_)
  all_goals first | (first | decide | exact osCode_lt _ | exact addTyCode_lt _ | exact mulTyCode_lt _ | exact fmaTyCode_lt _ | exact minTyCode_lt _ | exact logicOpCode_lt _ | exact cmpICode_lt _ | exact cmpFCode_lt _ | exact rndCode_lt _ | exact bitsOpCode_lt _ | exact divTyCode_lt _ | exact sfuOpCode_lt _ | exact permOpCode_lt _ | exact redOpCode_lt _ | exact dotOpCode_lt _ | exact predOpCode_lt _ | exact saluOpCode_lt _ | exact memTyCode_lt _ | exact atomOpCode_lt _ | exact usrcCode_lt _) | simp_all [decodeV, WellFormed, onFn, v2, v3, verdict]

theorem vmax (ty : MinTy) (w : Bool) (d a b : Os) : Statement (.vmax ty w d a b) := by
  refine of_encV rfl (by decide) ?_ ?_ ?_ ?_ (fun h => ?_)
  all_goals first | (first | decide | exact osCode_lt _ | exact addTyCode_lt _ | exact mulTyCode_lt _ | exact fmaTyCode_lt _ | exact minTyCode_lt _ | exact logicOpCode_lt _ | exact cmpICode_lt _ | exact cmpFCode_lt _ | exact rndCode_lt _ | exact bitsOpCode_lt _ | exact divTyCode_lt _ | exact sfuOpCode_lt _ | exact permOpCode_lt _ | exact redOpCode_lt _ | exact dotOpCode_lt _ | exact predOpCode_lt _ | exact saluOpCode_lt _ | exact memTyCode_lt _ | exact atomOpCode_lt _ | exact usrcCode_lt _) | simp_all [decodeV, WellFormed, onFn, v2, v3, verdict]

theorem vlogic (op : LogicOp) (w : Bool) (d a b : Os) : Statement (.vlogic op w d a b) := by
  refine of_encV rfl (by decide) ?_ ?_ ?_ ?_ (fun h => ?_)
  all_goals first | (first | decide | exact osCode_lt _ | exact addTyCode_lt _ | exact mulTyCode_lt _ | exact fmaTyCode_lt _ | exact minTyCode_lt _ | exact logicOpCode_lt _ | exact cmpICode_lt _ | exact cmpFCode_lt _ | exact rndCode_lt _ | exact bitsOpCode_lt _ | exact divTyCode_lt _ | exact sfuOpCode_lt _ | exact permOpCode_lt _ | exact redOpCode_lt _ | exact dotOpCode_lt _ | exact predOpCode_lt _ | exact saluOpCode_lt _ | exact memTyCode_lt _ | exact atomOpCode_lt _ | exact usrcCode_lt _) | simp_all [decodeV, WellFormed, onFn, v2, v3, verdict]

theorem vshift (op : ShiftOp) (w : Bool) (d a b : Os) : Statement (.vshift op w d a b) := by
  refine of_encV rfl (by decide) ?_ ?_ ?_ ?_ (fun h => ?_)
  · cases op <;> decide
  · exact osCode_lt d
  · exact osCode_lt a
  · exact osCode_lt b
  · have hd : d.dst = true := h
    cases op <;> simp [decodeV, onFn, v3, verdict, shiftOpCode, shiftOpOf, hd]

theorem vshiftBfx (w : Bool) (d a : Os) : Statement (.vshiftBfx w d a) := by
  refine of_encV rfl (by decide) ?_ ?_ ?_ ?_ (fun h => ?_)
  · decide
  · exact osCode_lt d
  · exact osCode_lt a
  · decide
  · have hb : osBad 116 = false := rfl
    simp_all [decodeV, WellFormed, verdict]

theorem vshiftBfi (w : Bool) (d a : Os) : Statement (.vshiftBfi w d a) := by
  refine of_encV rfl (by decide) ?_ ?_ ?_ ?_ (fun h => ?_)
  · decide
  · exact osCode_lt d
  · exact osCode_lt a
  · decide
  · have hb : osBad 116 = false := rfl
    simp_all [decodeV, WellFormed, verdict]

theorem vcmpi (c : CmpI) (w : Bool) (d : Fin 8) (a b : Os) : Statement (.vcmpi c w d a b) := by
  refine of_encV rfl (by decide) ?_ ?_ ?_ ?_ (fun h => ?_)
  · exact cmpICode_lt c
  · omega
  · exact osCode_lt a
  · exact osCode_lt b
  · have h1 : ¬ 8 ≤ d.val := by omega
    simp [decodeV, onFn, verdict, h1]

theorem vcmpf (c : CmpF) (w : Bool) (d : Fin 8) (a b : Os) : Statement (.vcmpf c w d a b) := by
  refine of_encV rfl (by decide) ?_ ?_ ?_ ?_ (fun h => ?_)
  · exact cmpFCode_lt c
  · omega
  · exact osCode_lt a
  · exact osCode_lt b
  · have h1 : ¬ 8 ≤ d.val := by omega
    simp [decodeV, onFn, verdict, h1]

theorem vsel (p : Fin 8) (w : Bool) (d a b : Os) : Statement (.vsel p w d a b) := by
  refine of_encV rfl (by decide) ?_ ?_ ?_ ?_ (fun h => ?_)
  · omega
  · exact osCode_lt d
  · exact osCode_lt a
  · exact osCode_lt b
  · simp_all [decodeV, WellFormed, v3, verdict]

theorem vcvt (m : Rnd) (op : CvtOp) (k : Fin 8) (w : Bool) (d a : Os) : Statement (.vcvt m op k w d a) := by
  refine of_encV rfl (by decide) ?_ ?_ ?_ ?_ (fun h => ?_)
  · exact rndCode_lt m
  · exact osCode_lt d
  · exact osCode_lt a
  · have := cvtOpCode_lt op; omega
  · have h1 : (cvtOpCode op * 8 + k.val) / 8 = cvtOpCode op := by omega
    have h2 : (cvtOpCode op * 8 + k.val) % 8 = k.val := by omega
    simp only [WellFormed, Bool.and_eq_true, decide_eq_true_eq] at h
    have h3 : ¬ op.positions ≤ k.val := by omega
    have h4 : (if op.insert = true then !d.acc else !d.dst) = false := by
      have := h.2
      split <;> simp_all
    simp only [decodeV, onFn, rndOf_code, h1, h2, cvtOpOf_code, osBad_code, osOf_code, f8_val, h.1.2, h4]
    simp [verdict, h3]

theorem vbits (op : BitsOp) (w : Bool) (d a b : Os) : Statement (.vbits op w d a b) := by
  refine of_encV rfl (by decide) ?_ ?_ ?_ ?_ (fun h => ?_)
  · exact bitsOpCode_lt op
  · exact osCode_lt d
  · exact osCode_lt a
  · exact osCode_lt b
  · simp only [WellFormed, Bool.and_eq_true, Bool.or_eq_true, decide_eq_true_eq] at h
    obtain ⟨h1, h2⟩ := h
    cases op with
    | byteperm => simp [decodeV, onFn, v3, verdict, h1]
    | _ =>
      have hb : b = .v 0 := by simpa using h2
      subst hb
      have hz : osCode (.v 0) = 0 := rfl
      have ho : osOf 0 = .v 0 := rfl
      simp [decodeV, onFn, v2, verdict, h1, hz, ho]

theorem vdiv (ty : DivTy) (w : Bool) (d a b : Os) : Statement (.vdiv ty w d a b) := by
  refine of_encV rfl (by decide) ?_ ?_ ?_ ?_ (fun h => ?_)
  all_goals first | (first | decide | exact osCode_lt _ | exact addTyCode_lt _ | exact mulTyCode_lt _ | exact fmaTyCode_lt _ | exact minTyCode_lt _ | exact logicOpCode_lt _ | exact cmpICode_lt _ | exact cmpFCode_lt _ | exact rndCode_lt _ | exact bitsOpCode_lt _ | exact divTyCode_lt _ | exact sfuOpCode_lt _ | exact permOpCode_lt _ | exact redOpCode_lt _ | exact dotOpCode_lt _ | exact predOpCode_lt _ | exact saluOpCode_lt _ | exact memTyCode_lt _ | exact atomOpCode_lt _ | exact usrcCode_lt _) | simp_all [decodeV, WellFormed, onFn, v2, v3, verdict]

theorem vsfu (op : SfuOp) (w : Bool) (d a : Os) : Statement (.vsfu op w d a) := by
  refine of_encV rfl (by decide) ?_ ?_ ?_ ?_ (fun h => ?_)
  all_goals first | (first | decide | exact osCode_lt _ | exact addTyCode_lt _ | exact mulTyCode_lt _ | exact fmaTyCode_lt _ | exact minTyCode_lt _ | exact logicOpCode_lt _ | exact cmpICode_lt _ | exact cmpFCode_lt _ | exact rndCode_lt _ | exact bitsOpCode_lt _ | exact divTyCode_lt _ | exact sfuOpCode_lt _ | exact permOpCode_lt _ | exact redOpCode_lt _ | exact dotOpCode_lt _ | exact predOpCode_lt _ | exact saluOpCode_lt _ | exact memTyCode_lt _ | exact atomOpCode_lt _ | exact usrcCode_lt _) | simp_all [decodeV, WellFormed, onFn, v2, v3, verdict]

theorem vperm (op : PermOp) (w : Bool) (d a b : Os) : Statement (.vperm op w d a b) := by
  refine of_encV rfl (by decide) ?_ ?_ ?_ ?_ (fun h => ?_)
  all_goals first | (first | decide | exact osCode_lt _ | exact addTyCode_lt _ | exact mulTyCode_lt _ | exact fmaTyCode_lt _ | exact minTyCode_lt _ | exact logicOpCode_lt _ | exact cmpICode_lt _ | exact cmpFCode_lt _ | exact rndCode_lt _ | exact bitsOpCode_lt _ | exact divTyCode_lt _ | exact sfuOpCode_lt _ | exact permOpCode_lt _ | exact redOpCode_lt _ | exact dotOpCode_lt _ | exact predOpCode_lt _ | exact saluOpCode_lt _ | exact memTyCode_lt _ | exact atomOpCode_lt _ | exact usrcCode_lt _) | simp_all [decodeV, WellFormed, onFn, v2, v3, verdict]

theorem vred (op : RedOp) (w : Bool) (d a : Os) : Statement (.vred op w d a) := by
  refine of_encV rfl (by decide) ?_ ?_ ?_ ?_ (fun h => ?_)
  all_goals first | (first | decide | exact osCode_lt _ | exact addTyCode_lt _ | exact mulTyCode_lt _ | exact fmaTyCode_lt _ | exact minTyCode_lt _ | exact logicOpCode_lt _ | exact cmpICode_lt _ | exact cmpFCode_lt _ | exact rndCode_lt _ | exact bitsOpCode_lt _ | exact divTyCode_lt _ | exact sfuOpCode_lt _ | exact permOpCode_lt _ | exact redOpCode_lt _ | exact dotOpCode_lt _ | exact predOpCode_lt _ | exact saluOpCode_lt _ | exact memTyCode_lt _ | exact atomOpCode_lt _ | exact usrcCode_lt _) | simp_all [decodeV, WellFormed, onFn, v2, v3, verdict]

theorem vdot (op : DotOp) (w : Bool) (d a b : Os) : Statement (.vdot op w d a b) := by
  refine of_encV rfl (by decide) ?_ ?_ ?_ ?_ (fun h => ?_)
  all_goals first | (first | decide | exact osCode_lt _ | exact addTyCode_lt _ | exact mulTyCode_lt _ | exact fmaTyCode_lt _ | exact minTyCode_lt _ | exact logicOpCode_lt _ | exact cmpICode_lt _ | exact cmpFCode_lt _ | exact rndCode_lt _ | exact bitsOpCode_lt _ | exact divTyCode_lt _ | exact sfuOpCode_lt _ | exact permOpCode_lt _ | exact redOpCode_lt _ | exact dotOpCode_lt _ | exact predOpCode_lt _ | exact saluOpCode_lt _ | exact memTyCode_lt _ | exact atomOpCode_lt _ | exact usrcCode_lt _) | simp_all [decodeV, WellFormed, onFn, v2, v3, verdict]

theorem vpred (op : PredOp) (w : Bool) (d a b : Fin 8) : Statement (.vpred op w d a b) := by
  refine of_encV rfl (by decide) ?_ ?_ ?_ ?_ (fun h => ?_)
  · exact predOpCode_lt op
  · omega
  · omega
  · omega
  · have h1 : ¬ 8 ≤ d.val := by omega
    have h2 : ¬ 8 ≤ a.val := by omega
    have h3 : ¬ 8 ≤ b.val := by omega
    cases op <;> simp [WellFormed] at h <;> simp [decodeV, onFn, predOpOf, predOpCode, verdict, h1, h2, h3, h, show f8 0 = 0 from rfl]

theorem salu (op : SaluOp) (d a : BitVec 6) (b : USrc) : Statement (.salu op d a b) := by
  have hu := usrcCode_lt b
  refine of_encU (usrcCode b / 256) (usrcCode b % 256) (major := 0x20) (fn := (saluOpCode op)) (d := d) (a := a) ?_ (by decide) (by decide) ?_ (by omega) (by omega) (fun _ => ?_)
  · rw [Nat.div_add_mod']; rfl
  · exact saluOpCode_lt _
  · simp [decodeU, onFn, verdict]

theorem mov (d : BitVec 6) (b : USrc) : Statement (.mov d b) := by
  have hu := usrcCode_lt b
  refine of_encU (usrcCode b / 256) (usrcCode b % 256) (major := 0x21) (fn := 0) (d := d) (a := 0) ?_ (by decide) (by decide) ?_ (by omega) (by omega) (fun _ => ?_)
  · rw [Nat.div_add_mod']; rfl
  · decide
  · simp [decodeU, onFn, verdict]

theorem li (d : BitVec 6) : Statement (.li d) :=
  of_encU 0 255 rfl (by decide) (by decide) (by decide) (by decide) (by decide) (fun _ => by simp [decodeU, verdict, uBad])

theorem lis (d : BitVec 6) : Statement (.lis d) :=
  of_encU 0 255 rfl (by decide) (by decide) (by decide) (by decide) (by decide) (fun _ => by simp [decodeU, verdict, uBad])

theorem lihi (d a : BitVec 6) : Statement (.lihi d a) :=
  of_encU 0 255 rfl (by decide) (by decide) (by decide) (by decide) (by decide) (fun _ => by simp [decodeU, verdict, uBad])

theorem fromv (d a : BitVec 6) (v : VSrc) : Statement (.fromv d a v) := by
  have hb := vsrcCode_lt v
  refine of_encU 1 (vsrcCode v) rfl (by decide) (by decide) (by decide) (by decide) (by omega) (fun h => ?_)
  simp [decodeU, verdict, uBad]

theorem ballot (d : BitVec 6) (p : Fin 8) : Statement (.ballot d p) := by
  have hb := p.isLt
  refine of_encU 1 (p.val) rfl (by decide) (by decide) (by decide) (by decide) (by omega) (fun h => ?_)
  have h1 : ¬ 8 ≤ p.val := by omega
  simp [decodeU, verdict, uBad, h1]

theorem popcs (d a : BitVec 6) : Statement (.popcs d a) :=
  of_encU 0 0 rfl (by decide) (by decide) (by decide) (by decide) (by decide) (fun _ => by simp [decodeU, verdict, uBad])

theorem sysrd (d : BitVec 6) (r : BitVec 8) : Statement (.sysrd d r) := by
  have hb := r.isLt
  refine of_encU 1 (r.toNat) rfl (by decide) (by decide) (by decide) (by decide) (by omega) (fun h => ?_)
  have hr : sysregAssigned r = true := h
  simp [decodeU, verdict, uBad, hr]

theorem syswr (a : BitVec 6) (r : BitVec 8) : Statement (.syswr a r) := by
  have hb := r.isLt
  refine of_encU 1 (r.toNat) rfl (by decide) (by decide) (by decide) (by decide) (by omega) (fun h => ?_)
  have hr : sysregAssigned r = true := h
  simp [decodeU, verdict, uBad, hr]

theorem fairnessWrite (core : Nat) (v : Reg) : Statement (.fairnessWrite core v) := rfl
theorem mclkratioWrite (wheel : Nat) (v : Reg) : Statement (.mclkratioWrite wheel v) := rfl
theorem mclkratioTake (wheel : Nat) : Statement (.mclkratioTake wheel) := rfl
theorem statusWrite (t : TeamId) (v : Reg) : Statement (.statusWrite t v) := rfl
theorem trap (code : BitVec 8) : Statement (.trap code) := by
  have hb := code.isLt
  refine of_encU 1 (code.toNat) rfl (by decide) (by decide) (by decide) (by decide) (by omega) (fun h => ?_)
  simp [decodeU, verdict, uBad]

theorem tret : Statement (.tret) :=
  of_encU 0 0 rfl (by decide) (by decide) (by decide) (by decide) (by decide) (fun _ => by simp [decodeU, verdict, uBad, uLatch])

theorem clock (d : BitVec 6) : Statement (.clock d) :=
  of_encU 0 0 rfl (by decide) (by decide) (by decide) (by decide) (by decide) (fun _ => by simp [decodeU, verdict, uBad, uLatch])

theorem capq (d : BitVec 6) (k : Fin 5) : Statement (.capq d k) := by
  have hb := k.isLt
  refine of_encU 1 (k.val) rfl (by decide) (by decide) (by decide) (by decide) (by omega) (fun h => ?_)
  have h1 : ¬ 5 ≤ k.val := by omega
  simp [decodeU, verdict, uBad, h1]

theorem b (p : Fin 8) (off : BitVec 18) : Statement (.b p off) := by
  have := off.isLt
  have h1 : fld (p.val * 262144 + off.toNat) 18 3 = p.val := by unfold fld; omega
  have h2 : fld (p.val * 262144 + off.toNat) 0 18 = off.toNat := by unfold fld; omega
  exact of_encBR rfl (by decide) (by omega) (by simp [decodeBR, h1, h2])

theorem bz (s : BitVec 6) (off : BitVec 15) : Statement (.bz s off) := by
  have := s.isLt
  have := off.isLt
  have h1 : fld (s.toNat * 32768 + off.toNat) 15 6 = s.toNat := by unfold fld; omega
  have h2 : fld (s.toNat * 32768 + off.toNat) 0 15 = off.toNat := by unfold fld; omega
  exact of_encBR rfl (by decide) (by omega) (by simp [decodeBR, h1, h2])

theorem bnz (s : BitVec 6) (off : BitVec 15) : Statement (.bnz s off) := by
  have := s.isLt
  have := off.isLt
  have h1 : fld (s.toNat * 32768 + off.toNat) 15 6 = s.toNat := by unfold fld; omega
  have h2 : fld (s.toNat * 32768 + off.toNat) 0 15 = off.toNat := by unfold fld; omega
  exact of_encBR rfl (by decide) (by omega) (by simp [decodeBR, h1, h2])

theorem call (p : Fin 8) (off : BitVec 18) : Statement (.call p off) := by
  have := off.isLt
  have h1 : fld (p.val * 262144 + off.toNat) 18 3 = p.val := by unfold fld; omega
  have h2 : fld (p.val * 262144 + off.toNat) 0 18 = off.toNat := by unfold fld; omega
  exact of_encBR rfl (by decide) (by omega) (by simp [decodeBR, h1, h2])

theorem ret : Statement (.ret) :=
  of_encBR rfl (by decide) (by decide) rfl

theorem brx (s : BitVec 6) : Statement (.brx s) := by
  have := s.isLt
  have h1 : fld (s.toNat * 32768) 15 6 = s.toNat := by unfold fld; omega
  have h2 : fld (s.toNat * 32768) 0 15 = 0 := by unfold fld; omega
  exact of_encBR rfl (by decide) (by omega) (by simp [decodeBR, h1, h2])

theorem bd (p : Fin 8) (off : BitVec 18) : Statement (.bd p off) := by
  have := off.isLt
  have h1 : fld (p.val * 262144 + off.toNat) 18 3 = p.val := by unfold fld; omega
  have h2 : fld (p.val * 262144 + off.toNat) 0 18 = off.toNat := by unfold fld; omega
  exact of_encBR rfl (by decide) (by omega) (by simp [decodeBR, h1, h2])

theorem bp (p : Fin 8) (off : BitVec 18) : Statement (.bp p off) := by
  have := off.isLt
  have h1 : fld (p.val * 262144 + off.toNat) 18 3 = p.val := by unfold fld; omega
  have h2 : fld (p.val * 262144 + off.toNat) 0 18 = off.toNat := by unfold fld; omega
  exact of_encBR rfl (by decide) (by omega) (by simp [decodeBR, h1, h2])

theorem join : Statement (.join) :=
  of_encBR rfl (by decide) (by decide) rfl

theorem yield : Statement (.yield) :=
  of_encBR rfl (by decide) (by decide) rfl

theorem exit : Statement (.exit) :=
  of_encBR rfl (by decide) (by decide) rfl

theorem pathDue (g : GrpId) (pc : VAddr) : Statement (.pathDue g pc) := rfl
theorem elect (d : BitVec 6) (p : Fin 8) : Statement (.elect d p) := by
  have hb := p.isLt
  refine of_encU 1 (p.val) rfl (by decide) (by decide) (by decide) (by decide) (by omega) (fun h => ?_)
  have h1 : ¬ 8 ≤ p.val := by omega
  simp [decodeU, verdict, uBad, h1]

theorem voteall (d : BitVec 6) (p : Fin 8) : Statement (.voteall d p) := by
  have hb := p.isLt
  refine of_encU 1 (p.val) rfl (by decide) (by decide) (by decide) (by decide) (by omega) (fun h => ?_)
  have h1 : ¬ 8 ≤ p.val := by omega
  simp [decodeU, verdict, uBad, h1]

theorem voteany (d : BitVec 6) (p : Fin 8) : Statement (.voteany d p) := by
  have hb := p.isLt
  refine of_encU 1 (p.val) rfl (by decide) (by decide) (by decide) (by decide) (by omega) (fun h => ?_)
  have h1 : ¬ 8 ≤ p.val := by omega
  simp [decodeU, verdict, uBad, h1]

theorem ld (ty : MemTy) (t : Os) (m : MAddr) (h : Bool) : Statement (.ld ty t m h) := by
  refine of_encM rfl (by decide) (memTyCode_lt ty) (osCode_lt t) m.s.isLt (osCode_lt m.x) (fun hw => ?_)
  simp_all [decodeM, WellFormed, onFn, mword, verdict]

theorem st (ty : MemTy) (t : Os) (m : MAddr) (h : Bool) : Statement (.st ty t m h) := by
  refine of_encM rfl (by decide) (memTyCode_lt ty) (osCode_lt t) m.s.isLt (osCode_lt m.x) (fun hw => ?_)
  simp_all [decodeM, WellFormed, onFn, mword, verdict]

theorem lds (ty : MemTy) (t : Os) (m : MAddr) : Statement (.lds ty t m) := by
  refine of_encM rfl (by decide) (memTyCode_lt ty) (osCode_lt t) m.s.isLt (osCode_lt m.x) (fun hw => ?_)
  cases ty <;> simp_all [decodeM, WellFormed, onFn, mword, verdict, memTyCode, memTyOf]

theorem sts (ty : MemTy) (t : Os) (m : MAddr) : Statement (.sts ty t m) := by
  refine of_encM rfl (by decide) (memTyCode_lt ty) (osCode_lt t) m.s.isLt (osCode_lt m.x) (fun hw => ?_)
  cases ty <;> simp_all [decodeM, WellFormed, onFn, mword, verdict, memTyCode, memTyOf]

theorem loadComplete (core : Nat) : Statement (.loadComplete core) := rfl
theorem walkComplete (core space va : Nat) : Statement (.walkComplete core space va) := rfl
theorem atom (op : AtomOp) (t : Os) (m : MAddr) : Statement (.atom op t m) := by
  refine of_encM rfl (by decide) (atomOpCode_lt op) (osCode_lt t) m.s.isLt (osCode_lt m.x) (fun hw => ?_)
  simp_all [decodeM, WellFormed, onFn, mword, verdict]

theorem atoms (op : AtomOp) (t : Os) (m : MAddr) : Statement (.atoms op t m) := by
  refine of_encM rfl (by decide) (atomOpCode_lt op) (osCode_lt t) m.s.isLt (osCode_lt m.x) (fun hw => ?_)
  simp_all [decodeM, WellFormed, onFn, mword, verdict]

theorem fence (k : Kind) (sc : BitVec 3) : Statement (.fence k sc) := by
  have := sc.isLt
  have hk := kindCode_pos k
  refine of_encM rfl (by decide) (by decide) (by omega) (by decide) (by decide) (fun _ => ?_)
  have h1 : fld (sc.toNat * 4 + kindCode k) 2 3 = sc.toNat := by unfold fld; omega
  have h2 : fld (sc.toNat * 4 + kindCode k) 0 2 = kindCode k := by unfold fld; omega
  have h3 : fld (sc.toNat * 4 + kindCode k) 5 2 = 0 := by unfold fld; omega
  have h4 : ¬ kindCode k = 0 := by omega
  simp [decodeM, decodeFence, verdict, h1, h2, h3, h4]

theorem clean (sc : BitVec 3) (r : Range) : Statement (.clean sc r) := by
  have := sc.isLt
  refine of_encM rfl (by decide) (by decide) (by omega) r.s.isLt (rlenCode_lt _) (fun hw => ?_)
  simp only [WellFormed, Bool.and_eq_true, decide_eq_true_eq] at hw
  exact decodeRange_code _ sc r _ hw.1.1 hw.1.2 hw.2

theorem inval (sc : BitVec 3) (r : Range) : Statement (.inval sc r) := by
  have := sc.isLt
  refine of_encM rfl (by decide) (by decide) (by omega) r.s.isLt (rlenCode_lt _) (fun hw => ?_)
  simp only [WellFormed, Bool.and_eq_true, decide_eq_true_eq] at hw
  exact decodeRange_code _ sc r _ hw.1.1 hw.1.2 hw.2

theorem icinv (sc : BitVec 3) (r : Range) : Statement (.icinv sc r) := by
  have := sc.isLt
  refine of_encM rfl (by decide) (by decide) (by omega) r.s.isLt (rlenCode_lt _) (fun hw => ?_)
  simp only [WellFormed, Bool.and_eq_true, decide_eq_true_eq] at hw
  exact decodeRange_code _ sc r _ hw.1.1 hw.1.2 hw.2

theorem fetchbar : Statement (.fetchbar) :=
  of_encM rfl (by decide) (by decide) (by decide) (by decide) (by decide) (fun _ => rfl)

theorem rcfence (sc : BitVec 3) (r : Range) : Statement (.rcfence sc r) := by
  have := sc.isLt
  refine of_encM rfl (by decide) (by decide) (by omega) r.s.isLt (rlenCode_lt _) (fun hw => ?_)
  simp only [WellFormed, Bool.and_eq_true, decide_eq_true_eq] at hw
  exact decodeRange_code _ sc r _ hw.1.1 hw.1.2 hw.2

theorem msfence (ar : Bool) : Statement (.msfence ar) := by
  cases ar <;> exact of_encM rfl (by decide) (by decide) (by decide) (by decide) (by decide) (fun _ => rfl)

theorem tlbfence (sc : BitVec 3) (r : Range) : Statement (.tlbfence sc r) := by
  have := sc.isLt
  refine of_encM rfl (by decide) (by decide) (by omega) r.s.isLt (rlenCode_lt _) (fun hw => ?_)
  simp only [WellFormed, Bool.and_eq_true, decide_eq_true_eq] at hw
  exact decodeRange_code _ sc r _ hw.1.1 hw.1.2 hw.2

theorem copygo (e : EF) (ch : Fin 4) : Statement (.copygo e ch) := by
  have h1 : ¬ 4 ≤ ch.val := by omega
  exact of_encE rfl (by decide) (by decide) (by omega) (fun _ => by simp [decodeE, ew, verdict, h1])

theorem copywait (q : BitVec 6) (x : BitVec 5) (ch : Fin 4) : Statement (.copywait q x ch) := by
  have h1 : ¬ 4 ≤ ch.val := by omega
  exact of_encE rfl (by decide) (by decide) (by omega) (fun _ => by simp [decodeE, ew, verdict, h1])

theorem chanstat (q : BitVec 6) (ch : Fin 4) : Statement (.chanstat q ch) := by
  have h1 : ¬ 4 ≤ ch.val := by omega
  exact of_encE rfl (by decide) (by decide) (by omega) (fun _ => by simp [decodeE, ew, verdict, h1])

theorem copycancel (q : BitVec 6) (x : BitVec 5) (ch : Fin 4) : Statement (.copycancel q x ch) := by
  have h1 : ¬ 4 ≤ ch.val := by omega
  exact of_encE rfl (by decide) (by decide) (by omega) (fun _ => by simp [decodeE, ew, verdict, h1])

theorem transferRecordStart (t : TeamId) (ch : Nat) : Statement (.transferRecordStart t ch) := rfl
theorem transferRecordComplete (t : TeamId) (ch : Nat) : Statement (.transferRecordComplete t ch) := rfl
theorem transferRecordStop (t : TeamId) (ch : Nat) : Statement (.transferRecordStop t ch) := rfl
theorem barinit (p q : BitVec 6) : Statement (.barinit p q) :=
  of_encE rfl (by decide) (by decide) (by decide) (fun _ => by simp [decodeE, ew, verdict])

theorem bararrive (p q : BitVec 6) : Statement (.bararrive p q) :=
  of_encE rfl (by decide) (by decide) (by decide) (fun _ => by simp [decodeE, ew, verdict])

theorem barexpect (p q : BitVec 6) : Statement (.barexpect p q) :=
  of_encE rfl (by decide) (by decide) (by decide) (fun _ => by simp [decodeE, ew, verdict])

theorem barwait (e : EF) : Statement (.barwait e) :=
  of_encE rfl (by decide) (by decide) (by decide) (fun _ => by simp [decodeE, ew, verdict])

theorem bartest (p q : BitVec 6) : Statement (.bartest p q) :=
  of_encE rfl (by decide) (by decide) (by decide) (fun _ => by simp [decodeE, ew, verdict])

theorem mwait (e : EF) : Statement (.mwait e) :=
  of_encE rfl (by decide) (by decide) (by decide) (fun _ => by simp [decodeE, ew, verdict])

theorem waitConditionMet (g : GrpId) (t : Nat) : Statement (.waitConditionMet g t) := rfl
theorem waitTimeout (g : GrpId) (t : Nat) : Statement (.waitTimeout g t) := rfl
theorem mxlease (e : EF) : Statement (.mxlease e) :=
  of_encE rfl (by decide) (by decide) (by decide) (fun _ => by simp [decodeE, ew, verdict])

theorem mxgo (e : EF) (tag : Fin 4) : Statement (.mxgo e tag) := by
  have h1 : ¬ 4 ≤ tag.val := by omega
  exact of_encE rfl (by decide) (by decide) (by omega) (fun _ => by simp [decodeE, ew, verdict, h1])

theorem mxwait (q : BitVec 6) (x : BitVec 5) (tag : Fin 4) : Statement (.mxwait q x tag) := by
  have h1 : ¬ 4 ≤ tag.val := by omega
  exact of_encE rfl (by decide) (by decide) (by omega) (fun _ => by simp [decodeE, ew, verdict, h1])

theorem mxdrain (e : EF) (tag : Fin 4) : Statement (.mxdrain e tag) := by
  have h1 : ¬ 4 ≤ tag.val := by omega
  exact of_encE rfl (by decide) (by decide) (by omega) (fun _ => by simp [decodeE, ew, verdict, h1])

theorem mxrel (q : BitVec 6) (x : BitVec 5) : Statement (.mxrel q x) :=
  of_encE rfl (by decide) (by decide) (by decide) (fun _ => by simp [decodeE, ew, verdict])

theorem ores (p q : BitVec 6) (r : Fin 16) : Statement (.ores p q r) :=
  of_encE rfl (by decide) (by decide) (by omega) (fun _ => by simp [decodeE, ew])

theorem obld (e : EF) (r : Fin 16) : Statement (.obld e r) :=
  of_encE rfl (by decide) (by decide) (by omega) (fun _ => by simp [decodeE, ew])

theorem mxstat (p q : BitVec 6) (n : Fin 16) : Statement (.mxstat p q n) :=
  of_encE rfl (by decide) (by decide) (by omega) (fun _ => by simp [decodeE, ew])

theorem matrixOperationStart (core : Nat) : Statement (.matrixOperationStart core) := rfl
theorem kStepCommit (core : Nat) : Statement (.kStepCommit core) := rfl
theorem matrixOperationStop (core : Nat) : Statement (.matrixOperationStop core) := rfl
theorem drainRun (t : TeamId) (core tag : Nat) : Statement (.drainRun t core tag) := rfl
theorem obldLoadFinish (t : TeamId) (core r : Nat) : Statement (.obldLoadFinish t core r) := rfl
theorem tspawn (e : EF) : Statement (.tspawn e) :=
  of_encE rfl (by decide) (by decide) (by decide) (fun _ => by simp [decodeE, ew, verdict])

theorem tdec (p q : BitVec 6) (n : Fin 16) : Statement (.tdec p q n) :=
  of_encE rfl (by decide) (by decide) (by omega) (fun _ => by simp [decodeE, ew])

theorem twait (e : EF) : Statement (.twait e) :=
  of_encE rfl (by decide) (by decide) (by decide) (fun _ => by simp [decodeE, ew, verdict])

theorem dqpush (e : EF) : Statement (.dqpush e) := by
  refine of_encE rfl (by decide) (by decide) (by decide) (fun h => ?_)
  simp_all [decodeE, WellFormed, ew, verdict]

theorem dqpop (e : EF) : Statement (.dqpop e) := by
  refine of_encE rfl (by decide) (by decide) (by decide) (fun h => ?_)
  simp_all [decodeE, WellFormed, ew, verdict]

theorem dqsteal (e : EF) : Statement (.dqsteal e) := by
  refine of_encE rfl (by decide) (by decide) (by decide) (fun h => ?_)
  simp_all [decodeE, WellFormed, ew, verdict]

theorem aaego (e : EF) (q : Fin 8) : Statement (.aaego e q) := by
  have h1 : ¬ 8 ≤ q.val := by omega
  exact of_encE rfl (by decide) (by decide) (by omega) (fun _ => by simp [decodeE, ew, verdict, h1])

theorem aaestop (q : BitVec 6) (x : BitVec 5) (n : Fin 8) : Statement (.aaestop q x n) := by
  have h1 : ¬ 8 ≤ n.val := by omega
  exact of_encE rfl (by decide) (by decide) (by omega) (fun _ => by simp [decodeE, ew, verdict, h1])

theorem qbind (p q : BitVec 6) (n : Fin 8) : Statement (.qbind p q n) := by
  have h1 : ¬ 8 ≤ n.val := by omega
  exact of_encE rfl (by decide) (by decide) (by omega) (fun _ => by simp [decodeE, ew, verdict, h1])

theorem qstat (p q : BitVec 6) (n : Fin 8) : Statement (.qstat p q n) := by
  have h1 : ¬ 8 ≤ n.val := by omega
  exact of_encE rfl (by decide) (by decide) (by omega) (fun _ => by simp [decodeE, ew, verdict, h1])

theorem dequeOperation (op : DqOp) (d : Nat) (item : Reg) : Statement (.dequeOperation op d item) := rfl
theorem counterDecrement (pa amount : Nat) : Statement (.counterDecrement pa amount) := rfl
theorem aaeStreamPush (g : GrpId) (q : Nat) : Statement (.aaeStreamPush g q) := rfl
theorem msred (e : EF) (n : Fin 16) : Statement (.msred e n) :=
  of_encE rfl (by decide) (by decide) (by omega) (fun _ => by simp [decodeE, ew])

theorem msatom (e : EF) (n : Fin 16) : Statement (.msatom e n) :=
  of_encE rfl (by decide) (by decide) (by omega) (fun _ => by simp [decodeE, ew])

theorem mspoll (q : BitVec 6) (c : Fin 4) : Statement (.mspoll q c) := by
  have h1 : ¬ 4 ≤ c.val := by omega
  exact of_encE rfl (by decide) (by decide) (by omega) (fun _ => by simp [decodeE, ew, verdict, h1])

theorem mswait (e : EF) (c : Fin 4) : Statement (.mswait e c) := by
  have h1 : ¬ 4 ≤ c.val := by omega
  exact of_encE rfl (by decide) (by decide) (by omega) (fun _ => by simp [decodeE, ew, verdict, h1])

theorem lineJob (chan : Nat) : Statement (.lineJob chan) := rfl
theorem msCommandComplete (id : Nat) : Statement (.msCommandComplete id) := rfl
theorem ldsub (p q : BitVec 6) (n : Fin 8) : Statement (.ldsub p q n) := by
  have h1 : ¬ 8 ≤ n.val := by omega
  refine of_encE rfl (by decide) (by decide) (by omega) (fun h => ?_)
  simp_all [decodeE, WellFormed, ew, verdict]

theorem unsub (e : EF) : Statement (.unsub e) :=
  of_encE rfl (by decide) (by decide) (by decide) (fun _ => by simp [decodeE, ew, verdict])

theorem slotrd (p q : BitVec 6) : Statement (.slotrd p q) := by
  refine of_encE rfl (by decide) (by decide) (by decide) (fun h => ?_)
  simp_all [decodeE, WellFormed, ew, verdict]

theorem slotwait (e : EF) : Statement (.slotwait e) := by
  refine of_encE rfl (by decide) (by decide) (by decide) (fun h => ?_)
  simp_all [decodeE, WellFormed, ew, verdict]

theorem ldsubLanding (id : Nat) : Statement (.ldsubLanding id) := rfl
theorem pushLand (id : Nat) : Statement (.pushLand id) := rfl
theorem unsubEndMark (id : Nat) : Statement (.unsubEndMark id) := rfl
theorem pktab (e : EF) (h : Fin 16) : Statement (.pktab e h) :=
  of_encE rfl (by decide) (by decide) (by omega) (fun _ => by simp [decodeE, ew])

theorem pklook (e : EF) (tag : Fin 4) : Statement (.pklook e tag) := by
  have h1 : ¬ 4 ≤ tag.val := by omega
  exact of_encE rfl (by decide) (by decide) (by omega) (fun _ => by simp [decodeE, ew, verdict, h1])

theorem pkgrad (e : EF) (tag : Fin 4) : Statement (.pkgrad e tag) := by
  have h1 : ¬ 4 ≤ tag.val := by omega
  exact of_encE rfl (by decide) (by decide) (by omega) (fun _ => by simp [decodeE, ew, verdict, h1])

theorem pkwait (q : BitVec 6) (x : BitVec 5) (tag : Fin 4) : Statement (.pkwait q x tag) := by
  have h1 : ¬ 4 ≤ tag.val := by omega
  exact of_encE rfl (by decide) (by decide) (by omega) (fun _ => by simp [decodeE, ew, verdict, h1])

theorem klTableLoadFinish (vat h : Nat) : Statement (.klTableLoadFinish vat h) := rfl
theorem klAccept (vat : Nat) : Statement (.klAccept vat) := rfl
theorem klOperationComplete (t : TeamId) (tag : Nat) : Statement (.klOperationComplete t tag) := rfl
theorem replayGo (e : EF) : Statement (.replayGo e) :=
  of_encE rfl (by decide) (by decide) (by decide) (fun _ => by simp [decodeE, ew, verdict])

theorem replayDrop (p q : BitVec 6) : Statement (.replayDrop p q) :=
  of_encE rfl (by decide) (by decide) (by decide) (fun _ => by simp [decodeE, ew, verdict])

theorem replayList (p q : BitVec 6) : Statement (.replayList p q) :=
  of_encE rfl (by decide) (by decide) (by decide) (fun _ => by simp [decodeE, ew, verdict])

theorem ctxsave (e : EF) : Statement (.ctxsave e) :=
  of_encE rfl (by decide) (by decide) (by decide) (fun _ => by simp [decodeE, ew, verdict])

theorem ctxload (e : EF) : Statement (.ctxload e) :=
  of_encE rfl (by decide) (by decide) (by decide) (fun _ => by simp [decodeE, ew, verdict])

theorem shoot (e : EF) (sz : ShootSize) : Statement (.shoot e sz) := by
  cases sz <;> exact of_encE rfl (by decide) (by decide) (by decide) (fun _ => by simp [decodeE, shootSizeOf, shootSizeCode])

theorem shootComplete : Statement (.shootComplete) := rfl
theorem migrateGo (e : EF) : Statement (.migrateGo e) :=
  of_encE rfl (by decide) (by decide) (by decide) (fun _ => by simp [decodeE, ew, verdict])

theorem migrateWait (e : EF) : Statement (.migrateWait e) :=
  of_encE rfl (by decide) (by decide) (by decide) (fun _ => by simp [decodeE, ew, verdict])

theorem migrateEnd (e : EF) : Statement (.migrateEnd e) :=
  of_encE rfl (by decide) (by decide) (by decide) (fun _ => by simp [decodeE, ew, verdict])

theorem migrationSwitch (old : Nat) : Statement (.migrationSwitch old) := rfl
theorem collGo (e : EF) (slot : Fin 4) : Statement (.collGo e slot) := by
  have := slot.isLt
  have h1 : slot.val % 4 = slot.val := by omega
  have h2 : slot.val / 4 = 0 := by omega
  refine of_encE rfl (by decide) (by decide) (by omega) (fun _ => ?_)
  simp [decodeE, ew, h1, h2]

theorem collWait (q : BitVec 6) (x : BitVec 5) (slot : Fin 4) : Statement (.collWait q x slot) := by
  have := slot.isLt
  have h1 : (4 + slot.val) % 4 = slot.val := by omega
  have h2 : (4 + slot.val) / 4 = 1 := by omega
  refine of_encE rfl (by decide) (by decide) (by omega) (fun _ => ?_)
  simp [decodeE, ew, h1, h2]

theorem collTest (q : BitVec 6) (slot : Fin 4) : Statement (.collTest q slot) := by
  have := slot.isLt
  have h1 : (8 + slot.val) % 4 = slot.val := by omega
  have h2 : (8 + slot.val) / 4 = 2 := by omega
  refine of_encE rfl (by decide) (by decide) (by omega) (fun _ => ?_)
  simp [decodeE, ew, h1, h2]

theorem collCancel (q : BitVec 6) (slot : Fin 4) : Statement (.collCancel q slot) := by
  have := slot.isLt
  have h1 : (12 + slot.val) % 4 = slot.val := by omega
  have h2 : (12 + slot.val) / 4 = 3 := by omega
  refine of_encE rfl (by decide) (by decide) (by omega) (fun _ => ?_)
  simp [decodeE, ew, h1, h2]

theorem collHeaderMismatch (t : TeamId) (slot : Nat) : Statement (.collHeaderMismatch t slot) := rfl
theorem collComplete (t : TeamId) (slot : Nat) (sends : List (List Byte)) : Statement (.collComplete t slot sends) := rfl
theorem trapDelivery (g : GrpId) : Statement (.trapDelivery g) := rfl
theorem nodeDoneDecrement (node : Nat) : Statement (.nodeDoneDecrement node) := rfl
theorem dispatchStep (wheel : Nat) : Statement (.dispatchStep wheel) := rfl
theorem preemptForRoom (wheel : Nat) : Statement (.preemptForRoom wheel) := rfl
theorem deferredClaimGuard (core half : Nat) : Statement (.deferredClaimGuard core half) := rfl
theorem threadQuantumStop (g : GrpId) (t : Nat) : Statement (.threadQuantumStop g t) := rfl
theorem quantumEnd (node : Nat) : Statement (.quantumEnd node) := rfl
theorem cleanerWriteback (core pa : Nat) : Statement (.cleanerWriteback core pa) := rfl
theorem regionMerge (pa size : Nat) : Statement (.regionMerge pa size) := rfl
theorem deadAgentDeclared (core : Nat) : Statement (.deadAgentDeclared core) := rfl
theorem backInvalidateTimeout (pa : Nat) : Statement (.backInvalidateTimeout pa) := rfl
theorem hostCxlAccess (pa : Nat) (write : Option (List Byte)) (n : Nat) : Statement (.hostCxlAccess pa write n) := rfl
theorem launch : Statement (.launch) := rfl
theorem create : Statement (.create) := rfl
theorem destroy : Statement (.destroy) := rfl
theorem launchReservedCmd : Statement (.launchReservedCmd) := rfl
theorem lstatRead : Statement (.lstatRead) := rfl
theorem tdeadaRead : Statement (.tdeadaRead) := rfl
theorem heventWrite (v : Reg) : Statement (.heventWrite v) := rfl
theorem fgrpDefine (v : Reg) : Statement (.fgrpDefine v) := rfl
theorem fgrpRemove (v : Reg) : Statement (.fgrpRemove v) := rfl
theorem partitionSetup (wheelSets : List Nat) (up : BringUp) : Statement (.partitionSetup wheelSets up) := rfl
theorem spdmAttestation : Statement (.spdmAttestation) := rfl
theorem keyStoreAdd (keyId x y : Nat) : Statement (.keyStoreAdd keyId x y) := rfl
theorem keyStoreRevoke (keyId : Nat) : Statement (.keyStoreRevoke keyId) := rfl
theorem persistentRecordClear (port : Bool) (unit part : Nat) : Statement (.persistentRecordClear port unit part) := rfl
theorem portFailRecord (core port : Nat) : Statement (.portFailRecord core port) := rfl
theorem channelFence (stack chan : Nat) : Statement (.channelFence stack chan) := rfl
theorem scrub (pa : Nat) : Statement (.scrub pa) := rfl
theorem throttleEvent (wheel : Nat) (clk25 reason ratio : Nat)
    : Statement (.throttleEvent wheel clk25 reason ratio) := rfl
theorem powerRemoval : Statement (.powerRemoval) := rfl
theorem bringUp (up : BringUp) : Statement (.bringUp up) := rfl
theorem partitionReset (up : BringUp) : Statement (.partitionReset up) := rfl
theorem contextSaveComplete (t : TeamId) : Statement (.contextSaveComplete t) := rfl
theorem rangeEntryFreed (core id : Nat) : Statement (.rangeEntryFreed core id) := rfl
theorem staleResponseDrop (wheel : Nat) : Statement (.staleResponseDrop wheel) := rfl
theorem backInvalidateAnswer (pa : Nat) : Statement (.backInvalidateAnswer pa) := rfl
theorem remoteCollCancel (t : TeamId) (slot : Nat) : Statement (.remoteCollCancel t slot) := rfl
theorem throttleCauseEnd (wheel bit : Nat) : Statement (.throttleCauseEnd wheel bit) := rfl
theorem linkErrorRetry (wheel : Nat) (cxl : Bool) : Statement (.linkErrorRetry wheel cxl) := rfl

end Sys2Proof.Laws.RoundTrip
end

