-- ==== Sys2Proof/Laws/Words.lean ====
section
/-! SUPPORT. What a word's skeleton can do: its effect, its trap, not ready, or a wait. -/

namespace Sys2Proof.Machine

open Sys2Proof

/-! ## Words without a timeout -/

/-- The meaning of a word whose group issues. -/
theorem State.asWord_eq {s : State} {t : Team} {g : Group} (ht : s.team? s.iss.grp.team = some t)
    (hg : s.grp? s.iss.grp = some g) (f : Team → Group → Res) : s.asWord f = s.finish (f t g) := by
  simp [State.asWord, ht, hg]

/-- A U word whose registers are present. -/
theorem State.uWord_eq {s : State} {t : Team} {g : Group} (ht : s.team? s.iss.grp.team = some t)
    (hg : s.grp? s.iss.grp = some g) {rs : List Nat} (hr : g.sPending rs = false) (f : Team → Group → Res) :
    s.uWord rs f = s.finish (f t g) := by
  simp [State.uWord, State.asWord_eq ht hg, hr]

/-- Everything a word without a timeout can do when it answers a next state; where no group issues it, nothing. -/
theorem State.asWord_next {s s' : State} {f : Team → Group → Res} (h : s.asWord f = .next s') :
    s' = s ∨ ∃ t g, s.team? s.iss.grp.team = some t ∧ s.grp? s.iss.grp = some g ∧
      (f t g = .done s' ∨ (∃ x, f t g = .trap x ∧ s' = s.trapNow x) ∨
        (∃ k, f t g = .stall k ∧ s' = { s with iss := { s.iss with stalled := some k } }) ∨
        (∃ u n, f t g = .wait u n ∧ s' = u.block [] [] 31 none n)) := by
  unfold State.asWord at h
  split at h
  · next t g ht hg =>
    refine .inr ⟨t, g, ht, hg, ?_⟩
    cases hf : f t g with
    | done u =>
      rw [hf] at h
      exact .inl (by simpa [State.finish] using h)
    | trap x =>
      rw [hf] at h
      exact .inr (.inl ⟨x, rfl, by simpa [State.finish] using h.symm⟩)
    | stall k =>
      rw [hf] at h
      exact .inr (.inr (.inl ⟨k, rfl, by simpa [State.finish] using h.symm⟩))
    | wait u n =>
      rw [hf] at h
      exact .inr (.inr (.inr ⟨u, n, rfl, by simpa [State.finish] using h.symm⟩))
  · exact .inl (by simpa using h.symm)

/-! ## Words with a timeout -/

/-- Without the write of its own wait, a group owes no more. -/
theorem State.ownWait_sPending {s : State} {g : Group} {rs : List Nat} (hr : g.sPending rs = false) :
    (s.ownWait g).sPending rs = false := by
  unfold State.ownWait
  split
  · simp only [Group.sPending, List.any_eq_false] at hr ⊢
    intro x hx
    exact hr x (List.mem_of_mem_filter hx)
  · exact hr

/-- The meaning of an E word that its group issues, with its registers present, no fence holding it, and no quantum to wait
for. -/
theorem State.asEWith_eq {s : State} {t : Team} {g : Group} (ht : s.team? s.iss.grp.team = some t)
    (hg : s.grp? s.iss.grp = some g) (hw : s.iss.wid = 0) {rs : List Nat} (hr : g.sPending rs = false)
    (hh : s.iss.mode = .issue → s.held g = none) {serial : Bool} (hd : (serial && s.toQueue t) = false)
    (qs : List Nat) (q : BitVec 6) (x : BitVec 5) (w : Option Watch) (f : Team → Group → Res) :
    s.asEWith serial rs qs q x w f = s.finishWait rs qs q x w (f t g) := by
  unfold State.asEWith
  rw [ht, hg]
  have hk : (if s.iss.mode = .issue then s.held g else none) = none := by
    split
    · next h => exact hh h
    · rfl
  simp [hw, State.ownWait_sPending hr, hk, hd]

/-- The meaning of an E word that writes s[Q]. -/
theorem State.asE_eq {s : State} {t : Team} {g : Group} (ht : s.team? s.iss.grp.team = some t)
    (hg : s.grp? s.iss.grp = some g) (hw : s.iss.wid = 0) {rs : List Nat} (hr : g.sPending rs = false)
    (hh : s.iss.mode = .issue → s.held g = none) {serial : Bool} (hd : (serial && s.toQueue t) = false)
    (q : BitVec 6) (x : BitVec 5) (w : Option Watch) (f : Team → Group → Res) :
    s.asE serial rs q x w f = s.finishWait rs [q.toNat] q x w (f t g) := State.asEWith_eq ht hg hw hr hh hd _ q x w f

@[simp] theorem State.finishWait_done (s u : State) (rs qs : List Nat) (q : BitVec 6) (x : BitVec 5) (w : Option Watch) :
    s.finishWait rs qs q x w (.done u) = .next u := rfl

/-- A wait that polls once, or one that blocks (R51, R159). -/
theorem State.finishWait_wait {s : State} (hm : s.iss.mode = .issue) (u : State) (n : Nat) (rs qs : List Nat) (q : BitVec 6)
    (x : BitVec 5) (w : Option Watch) :
    s.finishWait rs qs q x w (.wait u n) =
      .next (if x = 0 then u.putStatus q stTimeout n else u.block rs qs x w n) := by
  unfold State.finishWait
  simp only [hm]
  split <;> rfl

/-- Everything an E word can do when it answers a next state. -/
theorem State.finishWait_next {s s' : State} {rs qs : List Nat} {q : BitVec 6} {x : BitVec 5} {w : Option Watch} {r : Res}
    (h : s.finishWait rs qs q x w r = .next s') :
    r = .done s' ∨ (∃ y, r = .trap y ∧ s' = s.trapNow y) ∨
      (∃ k, r = .stall k ∧ s' = { s with iss := { s.iss with stalled := some k } }) ∨
      (s.iss.mode = .expire ∧ s' = s.putStatus q stTimeout s.iss.last) ∨
      (∃ u n, r = .wait u n ∧ (s' = u.putStatus q stTimeout n ∨ s' = u.block rs qs x w n ∨
        s' = { u with iss := { u.iss with stalled := some .busy, last := n } })) := by
  cases r with
  | done u => exact .inl (by simpa [State.finishWait] using h)
  | trap y =>
    simp only [State.finishWait, State.expired] at h
    split at h
    · next hm => exact .inr (.inr (.inr (.inl ⟨hm, by simpa using h.symm⟩)))
    · exact .inr (.inl ⟨y, rfl, by simpa using h.symm⟩)
  | stall k =>
    simp only [State.finishWait, State.expired] at h
    split at h
    · next hm => exact .inr (.inr (.inr (.inl ⟨hm, by simpa using h.symm⟩)))
    · exact .inr (.inr (.inl ⟨k, rfl, by simpa using h.symm⟩))
  | wait u n =>
    refine .inr (.inr (.inr (.inr ⟨u, n, rfl, ?_⟩)))
    unfold State.finishWait at h
    simp only at h
    split at h
    · split at h
      · exact .inl (by simpa using h.symm)
      · exact .inr (.inl (by simpa using h.symm))
    · exact .inr (.inl (by simpa using h.symm))
    · exact .inr (.inr (by simpa using h.symm))
    · exact .inl (by simpa using h.symm)

/-! ## Vector words -/

/-- A V word that passes its checks and is ready. -/
theorem State.vecWord_eq {s : State} {t : Team} {g : Group} (ht : s.team? s.iss.grp.team = some t)
    (hg : s.grp? s.iss.grp = some g) (w : Bool) (srcs : List Os) (extra sregs : List Nat)
    (dst : (Os → Nat → Word) → VDst) (val : Group → (Os → Nat → Word) → Nat → Word)
    (hr : (srcs.flatMap Os.vregs ++ extra ++ (dst (fun o i => g.osVal s.iss.lit o i)).regs).any
      (fun n => decide (g.alloc ≤ n)) = false)
    (hq : t.queueState s.iss.grp.grp (popsOf srcs) ((dst (fun o i => g.osVal s.iss.lit o i)).push w) = false)
    (hv : g.vPending s.iss.mask (srcs.flatMap Os.vregs ++ extra) = false)
    (hs : g.sPending (srcs.flatMap Os.sregs ++ sregs) = false)
    (hb : t.queuesReady s.iss.grp.grp (beatsOf g.width s.iss.mask) (popsOf srcs)
      ((dst (fun o i => g.osVal s.iss.lit o i)).push w) = true)
    (hp : s.pushHeld s.iss.grp g ((dst (fun o i => g.osVal s.iss.lit o i)).push w) = false) :
    s.vecWord w srcs extra sregs dst val =
      .next (s.vecDone t g w srcs (dst (fun o i => g.osVal s.iss.lit o i)) (val g (fun o i => g.osVal s.iss.lit o i))) := by
  unfold State.vecWord
  rw [State.asWord_eq ht hg]
  simp only [hr, hq, hv, hs, hb, hp]
  rfl

end Sys2Proof.Machine
end

