-- ==== Sys2Proof/Tests/Slice0.lean ====
section
/-! SUPPORT. Tests: ill-formed instructions are refused, words written out from the encoding tables of the spec decode to
what they stand for, and for every statement with hypotheses a state and operands that meet them. -/

namespace Sys2Proof.Tests

set_option Elab.async false

open Sys2Proof Sys2Proof.Machine

/-! ## Well-formedness: one ill-formed term for each check (R47 to R53, R77, R99, R118, R153, R169) -/

theorem test_wf_vec : [
    Instr.vmov false .lit (.v 0), .vlane false .lane, .vsplat false (.v 1) 0 .pair, .vsplat false (.s 0) 0 .lo,
    .vmov64 false (.v 1) (.v 0), .vmov64 false (.v 0) (.v 1), .vadd .i32 false (.b 0) (.v 0) (.v 0),
    .vsub .i32 false (.s 1) (.v 0) (.v 0), .vmul .f32 false .lit (.v 0) (.v 0), .vfma .f32 false (.q 0) (.v 0) (.v 0),
    .vfnma .f32 false (.q 0) (.v 0) (.v 0), .vmin .i32 false .lane (.v 0) (.v 0), .vmax .i32 false .lit (.v 0) (.v 0),
    .vlogic .and false (.b 1) (.v 0) (.v 0), .vshift .shl false .lit (.v 0) (.v 0), .vshiftBfx false .lit (.v 0),
    .vshiftBfi false (.q 1) (.v 0), .vsel 1 false .lane (.v 0) (.v 0), .vcvt .rn .f32i32 1 false (.v 0) (.v 0),
    .vcvt .rn .e8m0f32 0 false (.v 0) (.v 0), .vcvt .rn .f16f32 0 false (.q 0) (.v 0), .vcvt .rn .f32f16 0 false .lit (.v 0),
    .vbits .popc false .lane (.v 0) (.v 0), .vbits .popc false (.v 0) (.v 0) (.v 1), .vdiv .i32 false .lit (.v 0) (.v 0),
    .vperm .idx false .lit (.v 0) (.v 0), .vsfu .rcp false .lit (.v 0), .vred .addI false .lit (.v 0),
    .vdot .i8 false (.q 0) (.v 0) (.v 0), .vpred .not false 1 1 1].all (fun i => !WellFormed i) = true := by decide

theorem test_wf_others : [
    Instr.sysrd 8 0x04, .syswr 8 0x4E, .ld .b64 (.v 1) ⟨8, .lane, false⟩ false, .ld .b128 (.v 2) ⟨8, .lane, false⟩ false,
    .ld .prv (.q 0) ⟨8, .lane, false⟩ false, .ld .b32 (.s 0) ⟨8, .lane, false⟩ false, .ld .b32 (.v 0) ⟨8, .b 0, false⟩ false,
    .st .b64 (.v 1) ⟨8, .lane, false⟩ false, .st .b128 (.v 2) ⟨8, .lane, false⟩ false, .st .b32 (.b 0) ⟨8, .lane, false⟩ false,
    .st .b32 (.v 0) ⟨8, .b 0, false⟩ false, .lds .prv (.v 0) ⟨8, .lane, false⟩, .lds .b64 (.v 1) ⟨8, .lane, false⟩,
    .sts .prv (.v 0) ⟨8, .lane, false⟩, .sts .b32 (.b 1) ⟨8, .lane, false⟩, .atom .addI (.q 0) ⟨8, .lane, false⟩,
    .atom .cas (.v 1) ⟨8, .lane, false⟩, .atoms .addI .lit ⟨8, .lane, false⟩, .clean 2 ⟨0, .all, false⟩,
    .inval 7 ⟨0, .all, false⟩, .icinv 3 ⟨1, .all, false⟩, .tlbfence 3 ⟨0, .all, true⟩, .rcfence 3 ⟨0, .all, false⟩,
    .dqpush ⟨9, 0, 0⟩, .dqpop ⟨0, 0, 0⟩, .dqsteal ⟨0, 9, 0⟩, .ldsub 9 10 0, .ldsub 8 0 0, .slotrd 0 9,
    .slotwait ⟨0, 0, 0⟩].all (fun i => !WellFormed i) = true := by decide

theorem test_wf_good : [
    Instr.vsplat false (.v 94) 63 .pair, .vmov64 true (.v 94) .zero, .vcvt .rz .e8m0f32 3 false (.v 95) .lit,
    .vcvt .rns .f32e2m1 7 false (.q 7) (.b 3), .vbits .byteperm false .zero (.v 1) (.v 2), .ld .b128 (.v 92) ⟨63, .q 7, true⟩ true,
    .atom .cas (.v 94) ⟨0, .zero, false⟩, .rcfence 6 ⟨63, .s 15, true⟩, .ldsub 62 62 7, .pathDue ⟨⟨1, 0⟩, 0⟩ 0].all WellFormed
    = true := by decide

/-! ## Words written out from the encodings of R47 to R51: every row of the opcode map -/

/-- A word and the instruction that it stands for. -/
def standsFor (w : Word) (i : Instr) : Bool :=
  match decodeWord w with
  | .ok j => decide (j = i)
  | .error _ => false

theorem test_words_vmisc :
    standsFor 0b1_000000_0_000_0000000_0000000_0000000 (.nop) &&
    standsFor 0b0_000000_0_001_0000101_0000001_0000000 (.vmov false (.v 5) (.v 1)) &&
    standsFor 0b0_000000_1_010_1111111_0000000_0000000 (.vlane true (.q 7)) &&
    standsFor 0b0_000000_0_011_0000010_0010100_0000000 (.vsplat false (.v 2) 20 .lo) &&
    standsFor 0b0_000000_0_011_1011110_0111111_0000010 (.vsplat false (.v 94) 63 .pair) &&
    standsFor 0b0_000000_0_011_1110101_0111111_0000010 (.vsplat false .zero 63 .pair) &&
    standsFor 0b0_000000_1_100_1110101_0000100_0000000 (.vmov64 true .zero (.v 4)) &&
    standsFor 0b0_000000_0_100_0001010_0000100_0000000 (.vmov64 false (.v 10) (.v 4)) = true := by decide

theorem test_words_varith :
    standsFor 0b0_000001_0_011_0000011_0000001_0000010 (.vadd .f32 false (.v 3) (.v 1) (.v 2)) &&
    standsFor 0b0_000010_0_010_0000011_1101111_1110000 (.vsub .n32s false (.v 3) (.s 15) (.b 0)) &&
    standsFor 0b0_000011_1_110_1110101_1111000_1110100 (.vmul .i16x2 true .zero (.q 0) .lit) &&
    standsFor 0b1_000100_0_001_0000011_0000001_1110100 (.vfma .f32 false (.v 3) (.v 1) .lit) &&
    standsFor 0b0_000101_0_010_1011111_1110110_1110101 (.vfnma .h2 false (.v 95) .lane .zero) &&
    standsFor 0b0_000110_0_100_0000001_0000010_0000011 (.vmin .bh2 false (.v 1) (.v 2) (.v 3)) &&
    standsFor 0b0_000111_0_001_0000001_0000010_0000011 (.vmax .n32 false (.v 1) (.v 2) (.v 3)) &&
    standsFor 0b0_001000_0_101_0000001_0000010_0000011 (.vlogic .xnor false (.v 1) (.v 2) (.v 3)) &&
    standsFor 0b0_001001_0_011_0000001_0000010_0000011 (.vshift .rotl false (.v 1) (.v 2) (.v 3)) &&
    standsFor 0b0_001001_0_100_0000001_0000010_1110100 (.vshiftBfx false (.v 1) (.v 2)) &&
    standsFor 0b0_001001_0_101_0000001_0000010_1110100 (.vshiftBfi false (.v 1) (.v 2)) = true := by decide

theorem test_words_vother :
    standsFor 0b0_001010_0_100_0000111_0000001_0000010 (.vcmpi .ltn false 7 (.v 1) (.v 2)) &&
    standsFor 0b0_001011_0_110_0000001_0000001_0000010 (.vcmpf .un false 1 (.v 1) (.v 2)) &&
    standsFor 0b0_001100_0_111_0000001_0000010_0000011 (.vsel 7 false (.v 1) (.v 2) (.v 3)) &&
    standsFor 0b0_001101_0_100_0000001_0000010_1110111 (.vcvt .rns .f32e2m1 7 false (.v 1) (.v 2)) &&
    standsFor 0b0_001110_0_011_0000001_0000010_0000011 (.vbits .byteperm false (.v 1) (.v 2) (.v 3)) &&
    standsFor 0b0_001110_0_101_0000001_0000010_0000000 (.vbits .neg false (.v 1) (.v 2) (.v 0)) &&
    standsFor 0b0_001111_0_010_0000001_0000010_0000011 (.vdiv .remI32 false (.v 1) (.v 2) (.v 3)) &&
    standsFor 0b0_010000_0_010_0000001_0000010_0000000 (.vsfu .rsqrt false (.v 1) (.v 2)) &&
    standsFor 0b0_010001_0_001_0000001_0000010_0000011 (.vperm .up false (.v 1) (.v 2) (.v 3)) &&
    standsFor 0b0_010010_0_101_0000001_0000010_0000000 (.vred .maxF false (.v 1) (.v 2)) &&
    standsFor 0b0_010011_0_011_0000001_0000010_0000011 (.vdot .e4m3 false (.v 1) (.v 2) (.v 3)) &&
    standsFor 0b0_010100_0_010_0000111_0000001_0000010 (.vpred .xor false 7 1 2) = true := by decide

theorem test_words_scalar :
    standsFor 0b0_100000_0000_001001_001001_1_11111111 (.salu .add 9 9 (.imm 0xFF)) &&
    standsFor 0b0_100000_1111_111111_000001_0_01000011 (.salu .slt 63 1 (.latch 3)) &&
    standsFor 0b0_100001_0000_001000_000000_0_00111111 (.mov 8 (.s 63)) &&
    standsFor 0b0_100001_0001_001000_000000_0_11111111 (.li 8) &&
    standsFor 0b0_100001_0010_001000_000000_0_11111111 (.lis 8) &&
    standsFor 0b0_100001_0011_001000_001000_0_11111111 (.lihi 8 8) &&
    standsFor 0b0_100001_0100_001000_001001_1_01110010 (.fromv 8 9 (.b 2)) &&
    standsFor 0b0_100001_0101_001000_000000_1_00000111 (.ballot 8 7) &&
    standsFor 0b0_100001_0110_001000_001001_0_00000000 (.popcs 8 9) &&
    standsFor 0b0_100011_0000_001000_000000_1_01001101 (.sysrd 8 0x4D) &&
    standsFor 0b0_100011_0001_000000_001000_1_00100000 (.syswr 8 0x20) &&
    standsFor 0b0_100011_0010_000000_000000_1_11111111 (.trap 0xFF) &&
    standsFor 0b0_100011_0011_000000_000000_0_00000000 (.tret) &&
    standsFor 0b0_100011_0100_001010_000000_0_00000000 (.clock 10) &&
    standsFor 0b0_100011_0101_001000_000000_1_00000100 (.capq 8 4) = true := by decide

theorem test_words_branch :
    standsFor 0b0_100100_0000_000_111111111111111111 (.b 0 0x3FFFF) &&
    standsFor 0b0_100100_0001_111111_000000000000001 (.bz 63 1) &&
    standsFor 0b0_100100_0010_001000_100000000000000 (.bnz 8 0x4000) &&
    standsFor 0b0_100100_0011_111_100000000000000000 (.call 7 0x20000) &&
    standsFor 0b0_100100_0100_000000_000000000000000 (.ret) &&
    standsFor 0b0_100100_0101_001001_000000000000000 (.brx 9) &&
    standsFor 0b0_100100_0110_001_000000000000000010 (.bd 1 2) &&
    standsFor 0b0_100100_0111_010_000000000000000011 (.bp 2 3) &&
    standsFor 0b0_100100_1000_000000_000000000000000 (.join) &&
    standsFor 0b0_100100_1001_000000_000000000000000 (.yield) &&
    standsFor 0b0_100100_1010_000000_000000000000000 (.exit) &&
    standsFor 0b0_100101_0000_001000_000000_1_00000001 (.elect 8 1) &&
    standsFor 0b0_100101_0001_001000_000000_1_00000111 (.voteall 8 7) &&
    standsFor 0b0_100101_0010_001001_000000_1_00000010 (.voteany 9 2) = true := by decide

theorem test_words_memory :
    standsFor 0b0_110000_100_0000100_001000_0000010_0_0 (.ld .b32 (.v 4) ⟨8, .v 2, false⟩ false) &&
    standsFor 0b0_110001_111_0010100_000101_1110110_1_0 (.st .prv (.v 20) ⟨5, .lane, true⟩ false) &&
    standsFor 0b0_110000_110_1011100_111111_1111111_1_1 (.ld .b128 (.v 92) ⟨63, .q 7, true⟩ true) &&
    standsFor 0b0_110010_000_0000001_001000_1110101_0_0 (.lds .n8 (.v 1) ⟨8, .zero, false⟩) &&
    standsFor 0b0_110011_011_1101111_001000_1110101_0_0 (.sts .i16 (.s 15) ⟨8, .zero, false⟩) &&
    standsFor 0b0_110100_111_1011110_001000_0000001_0_0 (.atom .cas (.v 94) ⟨8, .v 1, false⟩) &&
    standsFor 0b0_110101_001_1011111_001000_0000001_0_0 (.atoms .addF (.v 95) ⟨8, .v 1, false⟩) &&
    standsFor 0b0_110110_000_00_111_11_000000_0000000_0_0 (.fence .ar 7) &&
    standsFor 0b0_110110_001_00_110_00_001000_1100000_0_0 (.clean 6 ⟨8, .s 0, false⟩) &&
    standsFor 0b0_110110_010_00_011_00_001000_1110100_1_0 (.inval 3 ⟨8, .lit, true⟩) &&
    standsFor 0b0_110110_011_00_011_00_000000_1110101_0_0 (.icinv 3 ⟨0, .all, false⟩) &&
    standsFor 0b0_110110_100_00_000_00_000000_0000000_0_0 (.fetchbar) &&
    standsFor 0b0_110110_101_00_100_00_001000_1101111_0_0 (.rcfence 4 ⟨8, .s 15, false⟩) &&
    standsFor 0b0_110110_110_00_110_00_000000_0000000_0_0 (.msfence false) &&
    standsFor 0b0_110110_110_00_110_11_000000_0000000_0_0 (.msfence true) &&
    standsFor 0b0_110110_111_00_011_00_000000_1110101_0_0 (.tlbfence 3 ⟨0, .all, false⟩) = true := by decide

theorem test_words_streamer :
    standsFor 0b0_110111_0000_001000_001001_11111_0011 (.copygo ⟨8, 9, 31⟩ 3) &&
    standsFor 0b0_110111_0001_000000_001001_11111_0011 (.copywait 9 31 3) &&
    standsFor 0b0_110111_0010_000000_001001_00000_0001 (.chanstat 9 1) &&
    standsFor 0b0_110111_0011_000000_001001_00101_0010 (.copycancel 9 5 2) &&
    standsFor 0b0_111000_0000_001000_001001_00000_0000 (.barinit 8 9) &&
    standsFor 0b0_111000_0001_001000_001001_00000_0000 (.bararrive 8 9) &&
    standsFor 0b0_111000_0010_001000_001001_00000_0000 (.barexpect 8 9) &&
    standsFor 0b0_111000_0011_001000_001001_10100_0000 (.barwait ⟨8, 9, 20⟩) &&
    standsFor 0b0_111000_0100_001010_001011_00000_0000 (.bartest 10 11) &&
    standsFor 0b0_111000_0101_001000_001001_00000_0000 (.mwait ⟨8, 9, 0⟩) = true := by decide

theorem test_words_matrix :
    standsFor 0b0_111001_0000_001000_001001_11111_0000 (.mxlease ⟨8, 9, 31⟩) &&
    standsFor 0b0_111001_0001_001000_001001_11111_0011 (.mxgo ⟨8, 9, 31⟩ 3) &&
    standsFor 0b0_111001_0010_000000_001001_11111_0011 (.mxwait 9 31 3) &&
    standsFor 0b0_111001_0011_001000_001001_11111_0011 (.mxdrain ⟨8, 9, 31⟩ 3) &&
    standsFor 0b0_111001_0100_000000_001001_11111_0000 (.mxrel 9 31) &&
    standsFor 0b0_111001_0101_001000_001001_00000_1111 (.ores 8 9 15) &&
    standsFor 0b0_111001_0110_001000_001001_11111_1111 (.obld ⟨8, 9, 31⟩ 15) &&
    standsFor 0b0_111001_0111_001000_001001_00000_0100 (.mxstat 8 9 4) = true := by decide

theorem test_words_tasks :
    standsFor 0b0_111010_0000_001000_001001_11111_0000 (.tspawn ⟨8, 9, 31⟩) &&
    standsFor 0b0_111010_0001_001010_001001_00000_1111 (.tdec 10 9 15) &&
    standsFor 0b0_111010_0010_001010_001011_10100_0000 (.twait ⟨10, 11, 20⟩) &&
    standsFor 0b0_111010_0011_001000_001001_11111_0000 (.dqpush ⟨8, 9, 31⟩) &&
    standsFor 0b0_111010_0100_001000_001010_11111_0000 (.dqpop ⟨8, 10, 31⟩) &&
    standsFor 0b0_111010_0101_001000_001010_11111_0000 (.dqsteal ⟨8, 10, 31⟩) &&
    standsFor 0b0_111010_0110_001000_001001_11111_0111 (.aaego ⟨8, 9, 31⟩ 7) &&
    standsFor 0b0_111010_0111_000000_001001_11111_0010 (.aaestop 9 31 2) &&
    standsFor 0b0_111010_1000_001100_001001_00000_0011 (.qbind 12 9 3) &&
    standsFor 0b0_111010_1001_000000_001001_00000_0011 (.qstat 0 9 3) = true := by decide

theorem test_words_units :
    standsFor 0b0_111011_0000_001000_001001_11111_0011 (.msred ⟨8, 9, 31⟩ 3) &&
    standsFor 0b0_111011_0001_001000_001001_11111_1111 (.msatom ⟨8, 9, 31⟩ 15) &&
    standsFor 0b0_111011_0010_000000_001001_00000_0011 (.mspoll 9 3) &&
    standsFor 0b0_111011_0011_001010_001011_11111_0000 (.mswait ⟨10, 11, 31⟩ 0) &&
    standsFor 0b0_111100_0000_001000_001010_00000_0111 (.ldsub 8 10 7) &&
    standsFor 0b0_111100_0001_001000_001001_11111_0000 (.unsub ⟨8, 9, 31⟩) &&
    standsFor 0b0_111100_0010_001000_001010_00000_0000 (.slotrd 8 10) &&
    standsFor 0b0_111100_0011_001000_001010_11111_0000 (.slotwait ⟨8, 10, 31⟩) &&
    standsFor 0b0_111101_0000_001000_001001_11111_1111 (.pktab ⟨8, 9, 31⟩ 15) &&
    standsFor 0b0_111101_0001_001000_001001_11111_0011 (.pklook ⟨8, 9, 31⟩ 3) &&
    standsFor 0b0_111101_0010_001000_001001_11111_0011 (.pkgrad ⟨8, 9, 31⟩ 3) &&
    standsFor 0b0_111101_0011_000000_001001_11111_0011 (.pkwait 9 31 3) = true := by decide

theorem test_words_system :
    standsFor 0b0_111110_0000_001000_001001_00101_0000 (.replayGo ⟨8, 9, 5⟩) &&
    standsFor 0b0_111110_0000_001000_001001_00000_0001 (.replayDrop 8 9) &&
    standsFor 0b0_111110_0000_001000_001001_00000_0010 (.replayList 8 9) &&
    standsFor 0b0_111110_0001_001000_001001_11111_0000 (.ctxsave ⟨8, 9, 31⟩) &&
    standsFor 0b0_111110_0010_001000_001001_11111_0000 (.ctxload ⟨8, 9, 31⟩) &&
    standsFor 0b0_111110_0011_001000_001001_11111_0100 (.shoot ⟨8, 9, 31⟩ .allsp) &&
    standsFor 0b0_111110_0100_001000_001001_11111_0000 (.migrateGo ⟨8, 9, 31⟩) &&
    standsFor 0b0_111110_0100_001000_001001_11111_0001 (.migrateWait ⟨8, 9, 31⟩) &&
    standsFor 0b0_111110_0100_001000_001001_11111_0010 (.migrateEnd ⟨8, 9, 31⟩) &&
    standsFor 0b0_111110_0101_001000_001001_11111_0011 (.collGo ⟨8, 9, 31⟩ 3) &&
    standsFor 0b0_111110_0101_000000_001001_11111_0111 (.collWait 9 31 3) &&
    standsFor 0b0_111110_0101_000000_001001_00000_1000 (.collTest 9 0) &&
    standsFor 0b0_111110_0101_000000_001001_00000_1111 (.collCancel 9 3) = true := by decide

/-- The detail with which a word is refused (R62). -/
def refuses (w : Word) (d : Nat) : Bool :=
  match decodeWord w with
  | .ok _ => false
  | .error e => e.detail == d

/-- One word for each detail of R62 and each format. -/
theorem test_words_refused :
    refuses 0b0_010101_0_000_0000000_0000000_0000000 1 &&
    refuses 0b0_000001_0_111_0000000_0000000_0000000 2 &&
    refuses 0b0_000001_0_000_0000001_1110111_0000000 3 &&
    refuses 0b0_000001_0_000_1110100_0000000_0000000 4 &&
    refuses 0b0_000000_1_000_0000000_0000000_0000000 5 &&
    refuses 0b0_001101_0_000_0000001_0000010_0100000 8 &&
    refuses 0b0_100000_0000_001000_001000_0_01000100 3 &&
    refuses 0b0_100011_0100_001010_000000_0_01000000 4 &&
    refuses 0b0_110000_100_0000100_001000_1110000_0_0 4 &&
    refuses 0b0_110110_000_00_000_00_000000_0000000_0_0 8 &&
    refuses 0b0_110111_0000_001000_001001_00000_0100 3 &&
    refuses 0b0_111010_0011_001001_001001_00000_0000 4 &&
    refuses 0b0_110111_0010_001000_001001_00000_0000 5 = true := by decide

/-! ## Small states -/

/-- The group of the placed team. -/
def gid : GrpId := ⟨⟨1, 0⟩, 0⟩

/-- The placed team's only group with a word in issue for the threads of a mask, in or out of a system segment, and some s
registers set. -/
def st (mask : Mask) (sys : Bool) (regs : List (Nat × Reg)) : State :=
  let s := State.loadWord .reset 32 0
  let s := s.modGrp gid (fun g => regs.foldl (fun g x => g.setS x.1 x.2) g)
  { s with
    sched := []
    iss :=
      { grp := gid, mask := mask, pc := BitVec.ofNat 56 bootCode, base := BitVec.ofNat 56 bootCode,
        next := BitVec.ofNat 56 (bootCode + 4), slot := 0, word := 0, lit := 0x7FF, sys := sys, mode := .issue,
        raised := none, stalled := none, acted := [] } }

/-- The team in issue. -/
def tm (s : State) : Team := (s.team? s.iss.grp.team).getD (Team.fresh ⟨0, 0⟩ 0 false 0 [] 0 [] false 0)

/-- The group in issue. -/
def gr (s : State) : Group := (s.grp? s.iss.grp).getD (Group.fresh 0 0 0 0 0 [] 0)

/-- A value that a computation gives holds a property. -/
def okAnd {ε α : Type} (r : Except ε α) (f : α → Bool) : Bool :=
  match r with
  | .ok x => f x
  | .error _ => false

/-- The word ends in a next state with a property. -/
def nextAnd (r : Host.Outcome State Fault Refusal) (f : State → Bool) : Bool :=
  match r with
  | .next s => f s
  | _ => false

/-! ## States and operands that meet the hypotheses of the statements -/

/-- `EncodeThenDecode`, `DecodeThenEncode`. -/
theorem test_meets_Encode :
    (Instr.vadd .i32 true (.v 95) .lit (.q 7)).isWord = true ∧ WellFormed (.vadd .i32 true (.v 95) .lit (.q 7)) = true ∧
    standsFor 0x0000_0000 .nop = true := by decide

/-- `StepRunsDecoded`: `ADD s9, s9, -1` as the first word after reset. -/
theorem test_meets_StepRunsDecoded :
    let s := State.loadWord .reset 32 0x400493FF
    let u : State := { s with sched := [] }
    let t := (s.team? gid.team).getD (tm s)
    let g := (s.grp? gid).getD (gr s)
    let pc := BitVec.ofNat 56 bootCode
    let s0 := u.modGrp gid (fun x => { (x.killOn (g.pathAt pc)) with lastMask := g.pathAt pc })
    s.sched = [.group gid] ∧ s.team? gid.team = some t ∧ s.grp? gid = some g ∧ t.loc = .resident ∧
    u.canTake gid g = false ∧ g.yielded = false ∧ (∀ r ∈ g.paths, r.due = none) ∧
    g.cur = some pc ∧ g.pathAt pc ≠ 0 ∧ g.pathAt pc ≠ g.lastMask ∧ badPC pc = false ∧
    u.runOwner g.core g.pipe = none ∧ g.packet = none ∧
    (match s0.enter gid t.space pc (g.pathAt pc) with
     | .into s1 p =>
       p.chainLen (slotOf pc) == 1 && !s1.withheldFor gid p (slotOf pc) &&
         standsFor (p.word (slotOf pc)) (.salu .add 9 9 (.imm 0xFF)) &&
         nextAnd (exec (.salu .add 9 9 (.imm 0xFF))
           { (s1.modGrp gid (fun g => g.onThreads (g.pathAt pc) (fun _ t => { t with pc := p.after (slotOf pc) }))) with
             iss := p.issue gid (g.pathAt pc) (slotOf pc) (slotOf pc) })
           (fun s3 => s3.iss.raised.isNone && s3.iss.stalled.isNone)
     | .trapped _ => false) = true := by decide +kernel

/-- `StepKeepsInv`. -/
theorem test_meets_StepKeepsInv :
    let s := State.loadWord .reset 32 0x400493FF
    Memory.wf s.mem = true ∧ (∀ t ∈ s.teams, Memory.wf t.win = true) ∧ nextAnd (step s) (fun _ => true) = true := by
  decide +kernel
/-- `VecArith`: each shape, at the last registers, from a queue's empty side not at all. -/
theorem test_meets_VecArith :
    let s := st 0x8001 false []
    binaryOf (.vadd .i32 false (.v 95) (.v 94) .lit) = some (false, .v 95, .v 94, .lit, addOp .i32) ∧
    s.VReady (tm s) (gr s) false [.v 94, .lit] [] [] (.os (.v 95)) ∧
    unaryOf (.vmov true (.q 7) (.s 15)) = some (true, .q 7, .s 15, id) ∧
    s.VReady (tm s) (gr s) true [.s 15] [] [] (.os (.q 7)) ∧
    s.VReady (tm s) (gr s) false [.b 3] [] [] (.os .zero) ∧ s.iss.lit.toNat < 2 ^ 11 ∧
    accumOf (.vfma .f32 false (.v 3) (.v 1) .lit) = some (false, .v 3, .v 1, .lit, fmaOp .f32) ∧
    s.VReady (tm s) (gr s) false [.v 1, .lit, .v 3] [] [] (.os (.v 3)) ∧
    s.VReady (tm s) (gr s) false [.v 95, .zero] [] [] (.os .zero) ∧ CvtOp.e8m0f32.insert = true ∧
    s.VReady (tm s) (gr s) false [.lane, .v 0] [] [] (.os (.v 0)) := by
  refine ⟨rfl, ?_, rfl, ?_, ?_, ?_, rfl, ?_, ?_, rfl, ?_⟩ <;> (try unfold State.VReady State.Issues) <;> decide +kernel

/-- `VecAcross`. -/
theorem test_meets_VecAcross :
    let s := st 0x8000 false [(63, 5)]
    let g := gr s
    s.VReady (tm s) g false [.v 95, .v 0] [] [] (.os (.v 95)) ∧
    s.VReady (tm s) g false [.lane] [] [] (.os (.q 0)) ∧
    s.VReady (tm s) g false [] [] [] (.os .zero) ∧ s.VReady (tm s) g true [] [] [63] (.os (.v 0)) ∧
    s.VReady (tm s) g false [] [] [63] (.pair 94 (some (fun _ => (g.sreg 63 >>> 32).setWidth 32))) ∧
    s.VReady (tm s) g false [.zero] [] [] (.pair 94 none) ∧
    s.VReady (tm s) g false [.v 94] [95] [] (.pair 94 (some (fun k => (g.thread k).vreg 95))) ∧
    s.VReady (tm s) g false [.v 95, .s 15] [] [] (.pred 7) ∧ s.VReady (tm s) g false [] [] [] (.pred 0) ∧
    s.Issues (tm s) g := by
  refine ⟨?_, ?_, ?_, ?_, ?_, ?_, ?_, ?_, ?_, ?_⟩ <;> (try unfold State.VReady) <;> unfold State.Issues <;> decide +kernel

/-- `VecFrame`. -/
theorem test_meets_VecFrame :
    let s := st 0x1 false []
    s.Issues (tm s) (gr s) ∧ (VDst.os (.q 7)).push true = none ∧ (VDst.os (.v 95)).push false = none := by
  refine ⟨?_, rfl, rfl⟩; unfold State.Issues; decide +kernel

/-- `ScalarResult`, `Ballots` and the branches: words of one, two and no s registers. -/
theorem test_meets_Scalar :
    let s := st 0xFFFF false [(63, 1), (7, 0x100010)]
    scalarOf s (.salu .add 63 63 (.s 63)) = some ([63, 63], 63,
      fun g => saluOp .add (g.sreg 63) (g.uVal s.iss.mask s.iss.lit (.s 63))) ∧
    s.UReady (tm s) (gr s) [63, 63] ∧ (gr s).s.length = 64 ∧ s.UReady (tm s) (gr s) [] ∧ s.UReady (tm s) (gr s) [7] ∧
    (95 < (gr s).alloc ∧ (gr s).vPending (BitVec.twoPow 64 (((gr s).sreg 63).toNat % (gr s).width)) [95] = false) ∧
    (gr s).joins.length < 32 := by
  refine ⟨rfl, ?_, ?_, ?_, ?_, ?_, ?_⟩ <;> (try unfold State.UReady State.Issues) <;> decide +kernel

/-- A team with 8 registers for each thread and a full join stack. -/
def stSmall : State :=
  let s := st 0xFFFF true []
  s.modGrp gid (fun _ =>
    { Group.fresh 0 0 16 8 (BitVec.ofNat 56 bootCode) [0, 0, 0, 0, 0, 0] 0 with joins := List.replicate 32 ⟨0, 0, 0⟩ })

/-- `Ballots`: a register beyond the allocation; `ThreadBranches`: a full join stack. -/
theorem test_meets_Small :
    stSmall.UReady (tm stSmall) (gr stSmall) [] ∧ (gr stSmall).alloc ≤ 8 ∧ 32 ≤ (gr stSmall).joins.length := by
  unfold State.UReady State.Issues; decide +kernel

/-- `RegisterFile`: the last s register, predicate and v register. -/
theorem test_meets_RegisterFile :
    let s := st 0x1 false []
    s.VReady (tm s) (gr s) true [.v 0, .lane] [] [] (.pred 0) ∧ s.UReady (tm s) (gr s) [] ∧ (gr s).s.length = 64 ∧ (0 < 63 ∧ 63 < 64) ∧ (0 < 7 ∧ 7 < 8) ∧
    95 < ((gr s).thread 15).v.length ∧ ([0, 0, 0, 0, 0, 0] : List Reg).length = 6 := by
  refine ⟨?_, ?_, ?_, ?_, ?_, ?_, ?_⟩ <;> (try unfold State.VReady) <;> (try unfold State.UReady) <;> (try unfold State.Issues) <;>
    decide +kernel

/-- `PathDue`: a path at the fairness interval. -/
theorem test_meets_PathDue :
    let s := (st 0x1 false []).modGrp gid (fun g => { g with paths := [⟨0, 0, 256, none⟩] })
    s.grp? gid = some (gr s) ∧ ((s.launch? gid.team).map (·.nofair)).getD false = false ∧
    (gr s).paths.all (fun r => decide (2 ^ (s.core (gr s).core).fairLog ≤ r.wait)) = true := by decide +kernel

/-- `SystemRegisters`: inside and outside a system segment, with the least and the largest value that `FAIRNESS` takes. -/
theorem test_meets_SystemRegisters :
    let s := st 0xFFFF true [(8, 4), (9, 16), (10, 64)]
    let u := st 0xFFFF false []
    s.UReady (tm s) (gr s) [8] ∧ s.UReady (tm s) (gr s) [] ∧ s.iss.sys = true ∧ u.UReady (tm u) (gr u) [63] ∧
    u.iss.sys = false ∧ sysWritePriv 9 = true ∧ (3 : BitVec 8).toNat ≤ 3 ∧
    (0x21 : BitVec 8).toNat ∉ [0x09, 0x10, 0x11, 0x12, 0x13, 0x20] ∧ ¬ (0x40 ≤ (0x21 : BitVec 8).toNat) ∧
    0x40 ≤ (0x40 : BitVec 8).toNat ∧ (0x4C : BitVec 8).toNat ≤ 0x4C ∧
    (s.contexts.find? (fun c => c.space == (tm s).space)).isSome = true := by
  refine ⟨?_, ?_, ?_, ?_, ?_, ?_, ?_, ?_, ?_, ?_, ?_, ?_⟩ <;> (try unfold State.UReady State.Issues) <;> decide +kernel

/-- A device whose placed team has a handler segment at 0x20_0000, and whose group is in trap mode where `m` says so. -/
def stTrap (m : Option Mask) (sys : Bool) (regs : List (Nat × Reg)) : State :=
  let s := (st 0xFFFF sys regs).modGrp gid (fun g => { g with trapMask := m, trapCause := 13 })
  { s with defaultSeg := some ⟨none, 0x20_0000, 4096⟩ }

/-- `TrapEntry`: the entry, and `TRAP` for threads that run, for threads that have blocked, and behind a lower cause. -/
theorem test_meets_TrapEntry :
    let s := stTrap none false []
    let b := s.modGrp gid (fun g => g.onThreads 0xFFFF (fun _ t => { t with st := .blocked }))
    let x := s.wordTrap 13 0 0 0xFF 0
    let low := s.modGrp gid (fun g => g.pend (s.wordTrap 12 0 0 0xFF 0))
    s.team? gid.team = some (tm s) ∧ s.grp? gid = some (gr s) ∧ (s.launch? gid.team).isSome = true ∧
    (gr s).trapMask = none ∧ (s.segmentFor gid.team x.cause).isSome = true ∧
    (match s.launch? gid.team with
     | some l =>
       okAnd (s.xlatElem (gr s).core (tm s).space (l.frame 0 0)
         (s.frameBytes (tm s) (gr s) gid { x with aux := 255 } s.iss.next l.lr2).length .write) (fun _ => true)
     | none => false) = true ∧
    (∀ k, k < (gr s).width → s.iss.mask.getLsbD k = true → ((gr s).thread k).runnable = true) ∧
    (∀ k, k < (gr b).width → b.iss.mask.getLsbD k = true → ((gr b).thread k).runnable = false) ∧
    b.grp? gid = some (gr b) ∧ s.nextTrap gid (gr s) = none ∧ (gr low).trapMask = none ∧
    low.inRun (tm low).space (gr low) = false ∧ (low.nextTrap gid (gr low)).any (fun y => decide (y.cause < 13)) = true := by
  decide +kernel

/-- `DoubleTrap`, `ReturnFromTrap`: a group in trap mode, with room for a report. -/
theorem test_meets_TrapMode :
    let s := stTrap (some 0xFFFF) true []
    let u := stTrap none true []
    s.Issues (tm s) (gr s) ∧ (s.launch? gid.team).isSome = true ∧ (gr s).trapMask = some 0xFFFF ∧ s.losses.length < 16 ∧
    (tm s).lost = false ∧ (∀ c ∈ (tm s).chans, c.act = none) ∧
    s.iss.sys = true ∧ (gr u).trapMask = none ∧
    (match s.launch? gid.team with
     | some l => okAnd (s.xlatElem (gr s).core (tm s).space (l.frame 0 0) (if l.lr2 then 128 else 64) .read) (fun _ => true)
     | none => false) = true := by
  unfold State.Issues; decide +kernel
/-- A channel of the placed team set. -/
def withChan (s : State) (ch : Nat) (c : Chan) : State :=
  s.modTeam ⟨1, 0⟩ (fun t => { t with chans := modAt (fun _ => c) ch t.chans })

/-- Bytes of memory set. -/
def withMem (s : State) (a : Nat) (bs : List Byte) : State := { s with mem := s.mem.writeN a bs }

/-- `CopyWords`: an address of 0, one that is no multiple of 64, and the first that is one, on an idle, a running and a
stopped channel. -/
theorem test_meets_CopyWords :
    let s := st 0xFFFF false [(8, 0), (9, 63), (10, 64)]
    s.EReady (tm s) (gr s) [8] ∧ s.EReady (tm s) (gr s) [9] ∧ s.EReady (tm s) (gr s) [10] ∧ s.EReady (tm s) (gr s) [] ∧
    s.Released (tm s) (gr s) 3 ∧ (tm s).chans.length = 4 ∧ ((tm s).chan 0).st = 0 ∧
    ∀ k ∈ [1, 2],
      let u := withChan s 3 { Chan.fresh with st := k }
      ((tm u).chan 3).st = k ∧ ((tm u).chan 3).act = none ∧ (tm u).chans.length = 4 ∧ u.Released (tm u) (gr u) 3 ∧
        u.EReady (tm u) (gr u) [] := by
  unfold State.EReady State.Issues State.Released; decide +kernel

/-- A record of 64 bytes: `NEXT`, `SRC`, `DST`, `COUNT` and the control word. -/
def recBytes (next src dst count ctl : Nat) : List Byte :=
  leBytes 8 next ++ leBytes 8 src ++ leBytes 8 dst ++ leBytes 16 0 ++ leBytes 8 count ++ leBytes 8 0 ++ leBytes 8 ctl

/-- A record under way, of 4 bytes, of which all have been moved. -/
def xfer0 (next : Nat) : Xfer :=
  { next := next, src := 0, dst := 0, sshape := none, dshape := none, sva := 0, dva := 0, count := 4, esize := 1, moved := 4,
    sscr := false, dscr := false, ctype := 0, target := 0, tpa := 0, entries := [] }

/-- A running channel with a record under way. -/
def ending (s : State) (x : Xfer) (cancel : Bool) : State :=
  withChan s 3 { Chan.fresh with st := 1, recAddr := 0x20_0000, cancel := cancel, act := some x }

/-- A write of byte 0 that its home holds. -/
def held0 : HeldWrite := ⟨[(0, 0)], none, true, 0, []⟩

/-- `CopyWords`: the cancel of a record under way. `DoubleTrap`: a team whose record still has a write to be performed. -/
theorem test_meets_Channels :
    let s := ending (st 0xFFFF false []) (xfer0 0) false
    let d := { ending (stTrap (some 0xFFFF) true []) (xfer0 0) false with pushq := [held0] }
    ((tm s).chan 3).st = 1 ∧ ((tm s).chan 3).act ≠ none ∧ s.EReady (tm s) (gr s) [] ∧ (tm s).chans.length = 4 ∧
    ((d.takeTrap gid 0xFFFF (d.wordTrap 12 0 0 0xFF 0) 0).team? gid.team).isSome = true := by
  unfold State.EReady State.Issues; decide +kernel

/-- `Records`: a record that cannot be read, one whose `OWN` is 0, a malformed one, one that starts and one that breaks the shapes it
keeps; one at its end, the last and not the last, and one that is cancelled; one with a write that has still to be performed, and one
whose count waits for its counter's home. -/
theorem test_meets_Records :
    let run (a : Nat) (bs : List Byte) : State :=
      withMem (withChan (st 0xFFFF false []) 0 { Chan.fresh with st := 1, recAddr := a }) a bs
    let reads (s : State) (f : List Byte → Bool) : Bool :=
      let c := (tm s).chan 0
      c.st == 1 && c.act.isNone && !c.cancel && decide ((tm s).loc = .resident) && (tm s).chans.length == 4 &&
        !s.vaHeld (tm s).core (tm s).space (va56 c.recAddr) 64 .read &&
        okAnd (s.readVA (c.issuer (tm s)) (tm s).core (tm s).space (va56 c.recAddr) 64) (fun x => f x.2)
    let run1 := run 0x20_0000 (recBytes 0 0 0x1000 4 1)
    let keeps : State :=
      { run1 with fixed := [⟨0, 0x20_0000, 0, 0, some ⟨2, [(2, 4)]⟩, none, true⟩] }
    (let s := run 0x2000_0000 []
     okAnd (s.readVA (((tm s).chan 0).issuer (tm s)) (tm s).core (tm s).space 0x2000_0000 64) (fun _ => true)) = false ∧
    reads (run 0x20_0000 (recBytes 0 0 0 0 0)) (fun bs => field bs 56 8 % 2 == 0) = true ∧
    reads (run 0x20_0000 (recBytes 1 0 0 0 1)) (fun bs => field bs 56 8 % 2 == 1 && recBad bs false) = true ∧
    [run 0x20_0000 (recBytes 1 0 0 0 1), run1, keeps].all (fun s => !s.ctlHeld (tm s) 0x20_0000 && !s.shapeHeld (tm s) 0) = true ∧
    reads run1 (fun bs => field bs 56 8 % 32 == 1 && !recBad bs false && field bs 24 8 == 0 && field bs 32 8 == 0 &&
      decide (run1.fixedFor 0 0x20_0000 bs = none)) = true ∧
    reads keeps (fun bs => !recBad bs false && (keeps.fixedFor 0 0x20_0000 bs).any (fun f =>
      shapesBad (field bs 40 4) (fld (field bs 56 8) 32 32) f.sshape f.dshape)) = true ∧
    [ending (st 1 false []) (xfer0 0) false, ending (st 1 false []) (xfer0 64) false].all (fun s =>
      match ((tm s).chan 3).act with
      | some y => decide (y.total ≤ y.moved) && !s.countHeld ⟨1, 0⟩ y && !((tm s).chan 3).cancel &&
          !s.chanBusy (tm s) ((tm s).chan 3) &&
          okAnd (((s.freeEntries y.entries).recordCount ⟨1, 0⟩ y).writeVA (tm s).core (tm s).space
            (va56 (((tm s).chan 3).recAddr + 56)) (leBytes 8 y.doneCtl)) (fun _ => true)
      | none => false) = true ∧
    (let s := ending (st 1 false []) (xfer0 0) true
     ((tm s).chan 3).cancel && !s.chanBusy (tm s) ((tm s).chan 3) &&
       okAnd (s.writeVA (tm s).core (tm s).space (va56 (((tm s).chan 3).recAddr + 56))
         (leBytes 8 (stopCtl ((xfer0 0).doneCtl + 1) ((xfer0 0).moved * (xfer0 0).esize) 1))) (fun _ => true)) = true ∧
    (let s := { ending (st 1 false []) (xfer0 0) false with pushq := [held0] }
     s.chanBusy (tm s) ((tm s).chan 3)) = true ∧
    (let y := { xfer0 0 with ctype := 2 }
     let s := { ending (st 1 false []) y false with pushq := [held0] }
     s.countHeld ⟨1, 0⟩ y) = true := by decide +kernel

/-- `Barriers`, `Waits`: the last place of the window, with values at and beyond the bounds of `BARINIT`, and one that is not
aligned; a barrier that an update of the cycle has reached. -/
theorem test_meets_Barriers :
    let v (n : Nat) : Reg := BitVec.ofNat 64 (n * 2 ^ 32 + 16368)
    let s := st 0xFFFF false [(8, v 0), (9, v 1), (10, v 65535), (11, v 65536), (12, 4), (13, 2), (14, 16380)]
    let a : ScrAt := ⟨⟨1, 0⟩, 16368⟩
    let busy := s.barUpdate a id
    (tm s).pinned = true ∧ s.team? a.team = some (tm s) ∧ (s.barNow a).expect < 2 ^ 16 ∧ (s.barNow a).arr < 2 ^ 16 ∧
    s.barBusy a = false ∧ busy.barBusy a = true ∧
    (∀ u ∈ [s, busy], ∀ p ∈ [8, 9, 10, 11], u.EReady (tm u) (gr u) [p] ∧ fld ((gr u).sreg p).toNat 23 9 = 0 ∧
      ((gr u).sreg p).toNat % 16 = 0 ∧ okAnd (u.scrAt (tm u).id (((gr u).sreg p).toNat % 2 ^ 32) 16) (fun x => decide (x = a)) = true ∧
      u.inRange a.team a.off 16 = false ∧ u.winHeld a.team a.off 16 = false) ∧ s.Released (tm s) (gr s) 3 ∧
    okAnd (s.scrAt (tm s).id 4 16) (fun _ => true) = true ∧ 4 % 16 ≠ 0 ∧
    okAnd (s.scrAt (tm s).id 2 4) (fun _ => true) = true ∧ 2 % 4 ≠ 0 ∧ s.EReady (tm s) (gr s) [14] ∧
    okAnd (s.scrAt (tm s).id 16380 4) (fun a => !s.inRange a.team a.off 4 && !s.winHeld a.team a.off 4 &&
      s.waitVal a 4 == 0) = true := by
  unfold State.EReady State.Issues State.Released; decide +kernel

/-- A blocked `MWAIT` of the placed group for the word at 8 of its window to differ from 0, and what it has seen. -/
def wait0 (seen : Option Word) : WaitRec :=
  { id := 5, kept := ⟨[(8, 8)], []⟩, held := false, mask := 0xFFFF, watch := some (.word ⟨⟨1, 0⟩, 8, none, 0, seen, 0⟩), pc := 0, base := 0, next := 0,
    slot := 0, word := (encode false (.mwait ⟨8, 10, 3⟩)).getD 0, lit := 0, sys := false, last := 0, serial := false, deadline := some 0,
    quanta := 0 }
def stWait (seen : Option Word) : State :=
  (st 0xFFFF false []).modGrp gid (fun g =>
    { (g.onThreads 0xFFFF (fun _ t => { t with st := .blocked })) with waits := [wait0 seen] })

/-- `Waits`, second part: a blocked `MWAIT` that has seen a value and one that has not, with a limit that has passed; a write that
covers a byte of its word. -/
theorem test_meets_WaitEnds :
    ([none, some 7].all fun seen =>
      let s := stWait seen
      decide (s.team? gid.team = some (tm s)) && (s.grp? gid).isSome && decide ((tm s).loc = .resident) && !s.isDet gid.team &&
        decide ((gr s).waitOf 15 = some (wait0 seen)) && standsFor (wait0 seen).word (.mwait ⟨8, 10, 3⟩) && decide (0 ≤ s.nowOf gid) &&
        decide ((gr s).waits[0]? = some (wait0 seen)) && !(wait0 seen).serial && s.allWaits.all (fun y => match y.2.watch with
          | some (.slot ..) => false
          | _ => true)) = true ∧ 8 < 5 + 4 ∧ 5 < 8 + 4 := by decide +kernel

/-- `ScratchLoads`, `ScratchStore`: elements up to the window's last byte. -/
theorem test_meets_Scratch :
    let s := st 0x8001 false [(8, 16384 - 256)]
    let m : MAddr := ⟨8, .lane, false⟩
    s.MReady (tm s) (gr s) [92, 93, 94, 95] [] [8] [] none ∧
    okAnd (s.scrElems (tm s).id 16 1 ((gr s).elems s.iss.mask s.iss.lit m 16))
      (fun l => l.length == 2 && l.all (fun x => !s.inRange x.2.team x.2.off 16 && !s.winHeld x.2.team x.2.off 16 &&
        !s.winBadIn x.2.team x.2.off 16 && (s.team? x.2.team).any Team.pinned)) = true ∧
    s.MReady (tm s) (gr s) [94, 95] [94, 95] [8] [] none ∧ s.iss.wid = 0 ∧ s.slotBad s.issuer (gr s).core = none ∧
    okAnd (s.scrElems (tm s).id 4 4 ((gr s).elems s.iss.mask s.iss.lit m 4))
      (fun l => l.all (fun x => !s.inRange x.2.team x.2.off 4 && !s.winHeld x.2.team x.2.off 4)) = true ∧
    okAnd (s.scrElems (tm s).id 4 4 ((gr s).elems 1 s.iss.lit m 4))
      (fun l => l.length == 1 && l.all (fun x => !s.winBadIn x.2.team x.2.off 4)) = true ∧
    s.isDet (tm s).id = false ∧ s.slotCausal = [] ∧ s.Issues (tm s) (gr s) ∧ [0, 95].Nodup ∧ s.Inv ∧ s.allWaits = [] := by
  unfold State.MReady State.Issues State.Inv; decide +kernel

/-- `MemoryLoads`, `MemoryStore`, `LoadFaults`: the last mapped bytes, and the first that are not. -/
theorem test_meets_Memory :
    let s := st 0x8001 false [(8, 0x1000_0000 - 64), (9, 0x1000_0000)]
    let x (p : BitVec 6) (acc : Acc) : Sorted :=
      s.sortElems (gr s).core (tm s).space s.iss.grp acc 4 ((gr s).elems s.iss.mask s.iss.lit ⟨p, .lane, false⟩ 4)
    (gr s).trapMask = none ∧ (s.core (gr s).core).replay.length ≤ Config.replayQ ∧ s.iss.wid = 0 ∧
    s.MReady (tm s) (gr s) [95] [] [8] [] none ∧ s.MReady (tm s) (gr s) [95] [95] [8] [] none ∧
    s.MReady (tm s) (gr s) [] [] [9] [] (some 7) ∧ s.isDet (tm s).id = false ∧
    (∀ acc ∈ [Acc.read, Acc.write], (x 8 acc).bad = [] ∧ (x 8 acc).first = none ∧
      s.pageBusy (gr s) (x 8 acc) (acc == .write) = false ∧ s.atomBusy (x 8 acc) = false ∧ (x 8 acc).ok.length = 2) ∧
    misaligned ((gr s).elems s.iss.mask s.iss.lit ⟨8, .lane, false⟩ 4) 4 = none ∧
    (let y := s.sortElems (gr s).core (tm s).space s.iss.grp .read 4 ((gr s).elems 1 s.iss.lit ⟨8, .lane, false⟩ 4)
     y.ok.all (fun e => e.2.all (fun p => !p.x.poison && !p.x.memside && p.x.attr == 0 && !s.anyBad p.x.pa p.n)) &&
       y.ok.map (fun e => e.2.length) == [1] &&
       y.ok.all (fun e => e.2.all (fun p => (List.range p.n).all (fun i =>
         !s.writeLocked (p.x.pa + i) && !s.fenced (p.x.pa + i))))) = true ∧ s.slotBad s.issuer (gr s).core = none ∧
    s.Inv ∧ s.subs = [] ∧ s.migrations = [] ∧
    (x 9 .read).first.isSome = true ∧ s.pageBusy (gr s) (x 9 .read) false = false ∧
    (s.core (gr s).core).replay.length + (x 9 .read).beats.length ≤ Config.replayQ := by
  unfold State.MReady State.Issues State.Inv; decide +kernel

/-- An entry of the replay queue of the placed group: a load of thread 0 from a page that is not mapped. -/
def park0 (id : Nat) : Park :=
  { id := id, grp := gid, pc := 0, word := 0, slot := 0, beat := 0, kind := .load .b32,
    elems := [⟨0, 0x2000_0000, [], [4], 0⟩], load := 7, hint := false, mask := 1, cause := 8, addr := 0x2000_0000, detail := 1,
    level := 4, flags := 0 }

/-- Core 0 changed. -/
def withCore (s : State) (f : Core → Core) : State := s.modCore 0 f

/-- `LoadFaults`: no room in the replay queue. -/
theorem test_meets_LoadFaults :
    let s := withCore (st 0x8001 false [(9, 0x1000_0000)])
      (fun c => { c with replay := List.replicate Config.replayQ { (park0 1) with grp := ⟨⟨9, 0⟩, 0⟩ } })
    let x := s.sortElems (gr s).core (tm s).space s.iss.grp .read 4 ((gr s).elems s.iss.mask s.iss.lit ⟨9, .lane, false⟩ 4)
    (gr s).trapMask = none ∧ s.MReady (tm s) (gr s) [95] [] [9] [] none ∧ x.first.isSome = true ∧
    s.pageBusy (gr s) x false = false ∧ Config.replayQ < (s.core (gr s).core).replay.length + x.beats.length := by
  unfold State.MReady State.Issues; decide +kernel

/-- `LoadFaults`, second part: a load word with nothing outstanding, to a register and to a queue; a space with a team on the core and one
without, and a walk that waits. -/
theorem test_meets_LoadAndWalkEnd :
    let r : LoadRec := ⟨7, gid, some 0, 1, [(0, 5)], 0⟩
    let s := withCore (st 0x1 false []) (fun c => { c with loads := [r] })
    let held : State := { s with migrations := [⟨0, 0x1_0000, 2 ^ 17, 0, 0, false, [], []⟩] }
    let here (space : Nat) : Bool :=
      s.teams.any (fun t => t.space == space && t.pinned && (t.core == 0 || (t.paired && t.core + 1 == 0)))
    s.cores.all (fun c => c.num == 0) = true ∧ (s.core 1).loads.find? (fun r => r.left == 0) = none ∧
    (s.core 0).loads.find? (fun r => r.left == 0) = some r ∧ s.grp? gid = some (gr s) ∧ s.team? gid.team = some (tm s) ∧
    (s.grp? ⟨gid.team, ((tm s).pushTarget 0 0).1⟩).isSome = true ∧ here 0 = true ∧ s.walkWaits 0 0 (va56 0x20_0000) = false ∧
    here 1 = false ∧ held.walkWaits 0 0 (va56 0x20_0000) = true ∧
    (s.trail 0 0 (va56 0x20_0000)).any (fun e => (s.cached 0 e.space e.level (va56 0x20_0000)).isNone) = true := by
  decide +kernel

/-- `Fences`, `CacheMaintenance`: no parked element, a parked load, a parked store, a range and the whole space. -/
theorem test_meets_Fences :
    let s := st 0xFFFF false [(8, 0x20_0000), (9, 129)]
    let u := withCore s (fun c => { c with replay := [park0 1] })
    let w := withCore s (fun c => { c with replay := [{ (park0 1) with kind := .store false }] })
    let f := withCore (st 0xFFFF false [(8, 0xFFF_FF80), (9, 129)]) (fun c => { c with tlb := [⟨0, 1, 1, 2 ^ 52 + 0x63⟩] })
    s.MReady (tm s) (gr s) [] [] [] [] none ∧ u.MReady (tm u) (gr u) [] [] [] [] none ∧ s.isDet (tm s).id = false ∧
    (∀ k ∈ [Kind.acq, .rel, .ar], (u.fenceDo (tm u) (gr u) k 7).unflushed (gr u).core = false) ∧
    (∀ p ∈ (u.core 0).replay, p.grp = u.iss.grp ∧ p.isAccess = true ∧ p.reads = true) ∧ (gr s).sPending [0] = false ∧
    s.parkedStores (gr s) s.iss.grp none = false ∧ (s.cleanCore (gr s).core).unflushed (gr s).core = false ∧
    w.parkedStores (gr w) w.iss.grp (((gr w).range w.iss.lit ⟨0, .all, false⟩).map wholeLines) = true ∧
    (s.relSelf (gr s).core).unflushed (gr s).core = false ∧ (s.relSelf (gr s).core).pushIds = [] ∧
    (s.cleanCore (gr s).core).pushIds = [] ∧
    s.MReady (tm s) (gr s) [] [] (rangeSregs ⟨8, .s 9, false⟩) [] none ∧
    (match ((gr s).range s.iss.lit ⟨8, .s 9, false⟩).map wholeLines with
     | some b =>
       let r := s.pieces (gr s).core (tm s).space (b.2 / 2 ^ 17 + 2) b.1 b.2
       !r.1.isEmpty && r.2.isNone
     | none => false) = true ∧
    (match ((gr f).range f.iss.lit ⟨8, .s 9, false⟩).map wholeLines with
     | some b =>
       let r := f.pieces (gr f).core (tm f).space (b.2 / 2 ^ 17 + 2) b.1 b.2
       !r.1.isEmpty && decide (r.2 = some (⟨4, 1⟩, 2 ^ 28))
     | none => false) = true ∧ f.parkedStores (gr f) f.iss.grp (((gr f).range f.iss.lit ⟨8, .s 9, false⟩).map wholeLines) = false ∧
    f.MReady (tm f) (gr f) [] [] (rangeSregs ⟨8, .s 9, false⟩) [] none ∧
    (gr s).range s.iss.lit ⟨0, .all, false⟩ = none := by
  unfold State.MReady State.Issues; decide +kernel

/-- `Fences`, `CacheMaintenance`, on what homes hold: nothing, and a `MEMSIDE` store that waits for the host; scopes of and below the
core. -/
theorem test_meets_FencesHeld :
    let s := st 0xFFFF false []
    let m : State := { s with snoops := [⟨3, 0, [⟨[(400, 0)], some 0, false, 3, []⟩]⟩] }
    s.migrations = [] ∧ coreScope 7 (tm s).paired = true ∧ coreScope 1 (tm s).paired = false ∧
    s.stackHeldBy (gr s).core = false ∧ m.stackHeldBy (gr m).core = true ∧ m.MReady (tm m) (gr m) [] [] [] [] none ∧
    (s.actAll (s.toAct .clean (s.coresIn 0 6) (fun _ => true))).unflushed (gr s).core = false := by
  unfold State.MReady State.Issues; decide +kernel

/-- An operand-buffer record, a tag and a lease of the placed team. -/
def rec0 (stt : Nat) : ORec :=
  { handle := 15, st := stt, kb := 4, n := 16, scl := 0, sp := false, fmt := 3, gran := 1, src := 0, by_ := none, flt := none,
    image := List.replicate 1024 0 }
def tag0 (stt : Nat) (bad : List (Nat × Nat × Nat)) (drain : Option Drain) : MxTag :=
  { tag := 3, st := stt, counter := 0, orec := 15, afmt := 3, mrows := 16, ncols := 16, acc0 := 0, accz := true, sat := false, first := 0,
    aaddr := 0, apitch := 64, saddr := 0, spitch := 0, started := 0, rows := List.replicate 16 (List.replicate 64 0), scales := [], bad := bad, entries := [],
    drain := drain, seq := 0, by_ := ⟨⟨1, 0⟩, 0, 1, 0, 0, 0⟩ }
def lease0 (recs : List ORec) (tags : List MxTag) : Lease := ⟨0, 32, [], recs, tags, none⟩
def withLease (s : State) (l : List Lease) : State := s.modTeam ⟨1, 0⟩ (fun t => { t with leases := l })

/-- `MatrixWords`: leases of 0, 1, 32 and 33 tiles, with and without one, and with the tiles taken; descriptors of every kind. -/
theorem test_meets_MatrixWords :
    let s := st 0xFFFF false [(8, 0), (9, 1), (10, 32), (11, 33), (12, 0x0303_8000), (13, 0x0303_8004), (14, 0x0303_8003)]
    let u := withLease s [lease0 [rec0 2] []]
    let w := withLease s [lease0 [rec0 2] [tag0 1 [] none]]
    let other := { s with teams := s.teams ++ [{ (tm s) with id := ⟨2, 0⟩, leases := [lease0 [] []] }] }
    (∀ p ∈ [8, 9, 10, 11, 12, 13, 14], s.EReady (tm s) (gr s) [p] ∧ u.EReady (tm u) (gr u) [p]) ∧
    (tm s).lease? (gr s).core = none ∧ (s.core (gr s).core).tiles = 32 ∧ 32 ≤ s.freeTiles (gr s).core ∧
    other.EReady (tm other) (gr other) [9] ∧ other.freeTiles 0 < 1 ∧ (tm other).lease? 0 = none ∧
    (tm u).lease? 0 = some (lease0 [rec0 2] []) ∧ (lease0 [rec0 2] []).busy = false ∧
    (tm w).lease? 0 = some (lease0 [rec0 2] [tag0 1 [] none]) ∧ (lease0 [rec0 2] [tag0 1 [] none]).inUse 15 = true ∧
    ((lease0 [rec0 2] []).rec? 15).isSome = true ∧ (lease0 [rec0 2] []).rec? 0 = none ∧
    (fld 0x0303_8004 15 1 = 1 ∧ u.formatAbsent 0x0303_8004 = true) ∧
    (fld 0x0303_8003 15 1 = 1 ∧ u.formatAbsent 0x0303_8003 = false ∧ oresBad 0x0303_8003 = false ∧
      (oresRec 0x0303_8003 0).granules (u.core 0).halfWidth ≤ 256 ∧ u.usedRecs 0 < 16 ∧
      u.usedGran 0 + (oresRec 0x0303_8003 0).granules (u.core 0).halfWidth ≤ 256) := by
  unfold State.EReady State.Issues; decide +kernel

/-- `MatrixWords`: a descriptor that is bad, and a core whose records are all taken. -/
theorem test_meets_OresFull :
    let u := withLease (st 0xFFFF false [(8, 0x0303_8103)]) [lease0 [rec0 2] []]
    let full := withLease (st 0xFFFF false [(8, 0x0303_8003)]) [lease0 (List.replicate 16 (rec0 2)) []]
    u.EReady (tm u) (gr u) [8] ∧ fld 0x0303_8103 15 1 = 1 ∧ u.formatAbsent 0x0303_8103 = false ∧ oresBad 0x0303_8103 = true ∧
    full.EReady (tm full) (gr full) [8] ∧ (tm full).lease? 0 = some (lease0 (List.replicate 16 (rec0 2)) []) ∧
    (lease0 (List.replicate 16 (rec0 2)) []).rec? 0 = none ∧ full.formatAbsent 0x0303_8003 = false ∧ oresBad 0x0303_8003 = false ∧
    (oresRec 0x0303_8003 0).granules (full.core 0).halfWidth ≤ 256 ∧ 16 ≤ full.usedRecs 0 := by
  unfold State.EReady State.Issues; decide +kernel

/-- A parameter block of `MXGO` at address 0 of the window: A rows at 128, format 3, record 15, 16 rows. -/
def mxParams : List Byte :=
  leBytes 4 128 ++ leBytes 4 64 ++ leBytes 8 0 ++ [3, 15, 0, 0, 1, 0] ++ List.replicate 106 0

/-- `MatrixOps`: `OBLD` of an aligned image, an image that is not aligned, a record in use, at its issue and at its
examination; `MXGO` of a good block, of a malformed one, of one that is not aligned and of a tag in use. -/
theorem test_meets_MatrixOps :
    let s := (st 0xFFFF false [(8, 0), (9, 64), (10, 1)])
    let u := withLease s [lease0 [rec0 2] []]
    let used := withLease s [lease0 [rec0 2] [tag0 1 [] none]]
    let ex (r : ORec) : State := let v := withLease s [lease0 [r] []]; { v with iss := { v.iss with mode := .examine } }
    let good := u.winWrite ⟨1, 0⟩ 0 mxParams
    (∀ v ∈ [u, used], v.Issues (tm v) (gr v) ∧ (gr v).sPending [9] = false ∧ v.isDet (tm v).id = false ∧
      v.Released (tm v) (gr v) 3 ∧ v.held (gr v) = none ∧ v.iss.mode = .issue ∧ v.iss.wid = 0) ∧
    ((gr u).sreg 9).toNat % 64 = 0 ∧ ((gr u).sreg 10).toNat % 64 ≠ 0 ∧
    (lease0 [rec0 2] []).inUse 15 = false ∧ (lease0 [rec0 2] [tag0 1 [] none]).inUse 15 = true ∧
    (∀ r ∈ [rec0 2, { (rec0 3) with flt := some (1, 4, 64) }], let v := ex r
      v.Issues (tm v) (gr v) ∧ (tm v).lease? 0 = some (lease0 [r] []) ∧ (lease0 [r] []).rec? 15 = some r ∧
        v.iss.mode = .examine) ∧
    good.EReady (tm good) (gr good) [8] ∧ okAnd (good.scrAt ⟨1, 0⟩ 0 128) (fun a => decide (a = ⟨⟨1, 0⟩, 0⟩)) = true ∧
    good.winHeld ⟨1, 0⟩ 0 128 = false ∧ good.winBadIn ⟨1, 0⟩ 0 128 = false ∧
    okAnd (good.scrAt ⟨1, 0⟩ 1 128) (fun _ => true) = true ∧ field (good.winRead ⟨1, 0⟩ 0 128) 16 1 ≤ 4 ∧
    good.cap1.getLsbD (capFmt 3) = true ∧
    (match mxBlock (tm good) 0 (lease0 [rec0 2] []) (good.winRead ⟨1, 0⟩ 0 128) 3 good.issuer with
     | some b => !good.spanBusy ⟨1, 0⟩ b.a true && !b.scale.any (fun x => good.spanBusy ⟨1, 0⟩ x true) &&
        !((lease0 [rec0 2] []).tag? 3).any MxTag.out && ((lease0 [rec0 2] [tag0 1 [] none]).tag? 3).any MxTag.out
     | none => false) = true ∧
    mxBlock (tm u) 0 (lease0 [rec0 2] []) (List.replicate 128 0) 3 u.issuer = none ∧
    (good.core 0).ranges.length + 2 ≤ Config.rangeScore := by
  unfold State.EReady State.Issues State.Released; decide +kernel

/-- `MatrixTags`: a tag outstanding, complete, unused and stopped, and a drain to the last bytes that it fits. -/
theorem test_meets_MatrixTags :
    ([0, 1, 3, 5].all fun k =>
      let s := withLease (st 0xFFFF false [(8, 16384 - 1024), (9, 0)]) [lease0 [rec0 2] [tag0 k [] none]]
      let p := ((gr s).sreg 8).toNat
      decide ((tm s).lease? 0 = some (lease0 [rec0 2] [tag0 k [] none])) &&
        decide ((lease0 [rec0 2] [tag0 k [] none]).tag? 3 = some (tag0 k [] none)) && (tag0 k [] none).st == k &&
        decide (0 < (tag0 k [] none).mrows * (tag0 k [] none).ncols) && decide (p < 2 ^ 33) && fld p 23 9 == 0 && p % 64 == 0 &&
        fld p 22 1 == 0 && fld p 32 1 == 0 &&
        okAnd (s.scrAt ⟨1, 0⟩ (fld p 0 23) 1024) (fun a => (tm s).inPart 0 a.off (a.off + 1023) &&
          !s.spanBusy ⟨1, 0⟩ (a.off, a.off + 1023) false) && (tag0 k [] none).drain.isNone &&
        decide ((s.core 0).ranges.length < Config.rangeScore)) = true ∧
    (let s := withLease (st 0xFFFF false [(8, 16384 - 1024)]) [lease0 [rec0 2] [tag0 1 [] none]]
     s.EReady (tm s) (gr s) [8]) := by
  unfold State.EReady State.Issues; decide +kernel

/-- `MatrixCommit`: two elements, the last of the array. -/
theorem test_meets_MatrixCommit : ([(5, 1), (1023, 2)] : List (Nat × Word)).Pairwise (fun a b => a.1 < b.1) := by decide

/-- `MatrixEngine`: an operation queued, running, running with an uncorrectable operand, draining, and a record loading from pages
that are mapped and from ones that are not. -/
theorem test_meets_MatrixEngine :
    let mk (r : ORec) (x : MxTag) : State := withLease (st 0xFFFF false []) [lease0 [r] [x]]
    let q := mk (rec0 2) (tag0 1 [] none)
    let holds (s : State) : State := withCore s (fun c => { c with holder := some ⟨1, 0⟩ })
    let run := holds (mk (rec0 2) (tag0 2 [] none))
    let bad := (holds (mk (rec0 2) (tag0 2 [(0, 0, 0)] none))).modTeam ⟨1, 0⟩ (fun t => { t with trapOnPoison := true })
    let d := mk (rec0 2) (tag0 4 [] (some ⟨false, 1024, 0⟩))
    let ld := mk (rec0 1) (tag0 0 [] none)
    let got (src : Nat) : State × List Byte × Option (PFault × Nat) :=
      let z := { (rec0 1) with image := [] }
      State.readPages ⟨⟨1, 0⟩, 0, 0, 3, 0, 0⟩ 0 (tm ld).space src (z.slot * z.n) ((List.replicate z.n z.units).flatten)
        (z.slot * z.n / 2 ^ 17 + 2) ld []
    q.canStart 0 = true ∧ (q.arbitrate 0).map (fun x => (x.1, x.2.1, x.2.2.1)) = some (tm q, lease0 [rec0 2] [tag0 1 [] none], tag0 1 [] none) ∧
    q.team? (tm q).id = some (tm q) ∧ (tm q).lease? 0 = some (lease0 [rec0 2] [tag0 1 [] none]) ∧
    (lease0 [rec0 2] [tag0 1 [] none]).tag? 3 = some (tag0 1 [] none) ∧
    (run.running 0).map (fun x => (x.1.id, x.2.2)) = some (⟨1, 0⟩, tag0 2 [] none) ∧
    (lease0 [rec0 2] []).rec? (tag0 2 [] none).orec = some (rec0 2) ∧ (tag0 2 [] none).badIn (rec0 2) 0 = [] ∧
    (run.core 0).badSlots = [] ∧ (let w := withCore bad (fun c => { c with badSlots := [3] })
      (w.running 0).isSome = true ∧ (w.core 0).badSlots ≠ [] ∧ (tm w).trapOnPoison = true) ∧
    (bad.running 0).isSome = true ∧ (tag0 2 [(0, 0, 0)] none).badIn (rec0 2) 0 ≠ [] ∧ (tm bad).trapOnPoison = true ∧
    (tm d).lease? 0 = some (lease0 [rec0 2] [tag0 4 [] (some ⟨false, 1024, 0⟩)]) ∧ (tm d).pinned = true ∧ d.Inv ∧ d.allWaits = [] ∧ (ld.core 0).badSlots = [] ∧
    (tm ld).lease? 0 = some (lease0 [rec0 1] [tag0 0 [] none]) ∧ (tm ld).pinned = true ∧
    (got 0).2.2 = none ∧ (rec0 1).slot * (rec0 1).n ≤ (got 0).2.1.length ∧ (got 0x2000_0000).2.2 ≠ none := by
  unfold State.Inv; decide +kernel
/-- A launch record (R269) of one team from the code object at 0x20_0000, with `DEPCTR`. -/
def launchRec (dep : Nat) : List Byte :=
  leBytes 4 1 ++ leBytes 4 1 ++ leBytes 8 0x20_0000 ++ leBytes 8 0 ++ leBytes 8 256 ++ leBytes 8 0x100_0000 ++ leBytes 8 dep ++
    leBytes 16 0

/-- A code object of one body, of 8 registers, width 16 and one group (R271), for a device stamp. -/
def codeObj (stamp : Nat) : List Byte :=
  leBytes 4 0x424F485A ++ [1, 0, 1, 0] ++ leBytes 24 0 ++ [8, 16, 1, 0, 16, 0, 1, 1] ++ leBytes 88 0 ++ leBytes 8 stamp ++
    leBytes 8 256 ++ leBytes 8 16 ++ leBytes 8 0

/-- A node like the placed one. -/
def node0 (id : Nat) (l : Launch) (next : Nat) : Node :=
  { id := id, wheel := 0, l := l, ready := true, readyAt := 0, next := next, left := 1, vats := [], ending := false, quanta := 0,
    phase := 0, mark := 0 }

/-- `TaskSpawn`: a full pool, a record of zeros is refused, a good one enters the pool, one whose counter has a waiter does not. -/
theorem test_meets_TaskSpawn :
    let s := st 0xFFFF false [(8, 0x30_0000), (9, 0x30_0001)]
    let stamp := s.stamp
    let with_ (r : List Byte) : State :=
      withMem (withMem (withMem s 0x20_0000 (codeObj stamp)) 0x30_0000 r) 0x21_0008 (leBytes 4 7)
    let checks (u : State) (f : Checked → Bool) : Bool :=
      let u1 := u.relScope (gr u).core 6 (tm u).paired
      decide (u.iss.mode = .issue) && !u1.vaHeld (gr u).core (tm u).space 0x30_0000 64 .read &&
        okAnd (u1.readVA u1.issuer (gr u).core (tm u).space 0x30_0000 64) (fun r =>
          field r.2 0 2 != 2 && !r.1.launchHeld (gr u).core (r.2 ++ List.replicate 64 0) &&
            f (r.1.checkLaunch r.1.issuer (gr u).core (r.2 ++ List.replicate 64 0)))
    let enters (u : State) (f : EnterRes → Bool) : Bool :=
      checks u (fun c => match c with
        | .ok u3 l => u3.poolFree (wheelOf (gr u).core) && f (u3.enterNode (gr u).core (wheelOf (gr u).core) l)
        | _ => false)
    s.EReady (tm s) (gr s) [8] ∧ s.EReady (tm s) (gr s) [9] ∧ 0x30_0001 % 64 ≠ 0 ∧ s.Released (tm s) (gr s) 6 ∧
    (gr s).trapMask = none ∧
    checks (with_ []) (fun c => match c with | .refuse _ k => k == 1 | _ => false) = true ∧
    enters (with_ (launchRec 0)) (fun r => match r with | .ok _ _ => true | _ => false) = true ∧
    enters (with_ (launchRec 0x21_0000)) (fun r => match r with | .refuse k => k == 12 | _ => false) = true ∧
    checks { with_ (launchRec 0) with nodes := List.replicate Config.poolEntries ((s.nodes[0]?).getD (node0 1 bootLaunch 0)) }
      (fun c => match c with
        | .ok u3 _ => !u3.poolFree 0
        | _ => false) = true := by
  unfold State.EReady State.Issues State.Released; decide +kernel

/-- `Counters`: a counter at 16, at 0, with a waiter, with a reserved bit, and on a poisoned page; its home holds no write. -/
theorem test_meets_Counters :
    let s := st 0xFFFF false [(8, 0x20_0000), (9, 0x20_0010), (10, 0x20_0020)]
    let u := withMem (withMem s 0x20_0000 (leBytes 4 16 ++ leBytes 4 0 ++ leBytes 4 1)) 0x20_0024 [1]
    let p := withMem s 0x4_0000 (leBytes 8 (0x63 + 2 ^ 7))
    u.EReady (tm u) (gr u) [8] ∧ u.EReady (tm u) (gr u) [9] ∧
    (∀ i, i < 16 → u.fwd (0x20_0000 + i) = 0x20_0000 + i ∧ u.writeLocked (0x20_0000 + i) = false ∧
      u.fenced (0x20_0000 + i) = false) ∧ u.stale = [] ∧ u.Inv ∧ poisonPA ≠ 0x20_0000 ∧ u.ctrBusy (poisonPA + 5) = false ∧
    0x20_0000 < poisonPA ∧
    u.ctrCount 0x20_0000 = 16 ∧ u.ctrWaiter 0x20_0000 ≠ 0 ∧ u.ctrCount 0x20_0010 = 0 ∧ u.Released (tm u) (gr u) 6 ∧
    (let u1 := u.relScope (gr u).core 6 (tm u).paired
     [(0x20_0000, false), (0x20_0020, true)].all (fun c => okAnd (u1.translate (gr u).core (tm u).space c.1 .write) (fun x =>
       decide (x.pa = c.1) && !x.memside && !x.poison && !u1.lineHeld x.pa && !u1.ctrBusy x.pa &&
         u1.ctrReserved x.pa == c.2))) = true ∧
    (∀ p ∈ [0x20_0000, 0x20_0010], okAnd (u.translate (gr u).core (tm u).space p .read) (fun x =>
      decide (x.pa = p) && !x.memside && !x.poison && !u.lineHeld x.pa) = true) ∧ u.ctrBusy 0x20_0000 = false ∧
    p.EReady (tm p) (gr p) [8] ∧ p.Released (tm p) (gr p) 6 ∧ (gr p).trapMask = none ∧
    okAnd ((p.relScope 0 6 false).translate 0 0 0x20_0000 .write) (fun x => x.poison && !x.memside) = true := by
  unfold State.EReady State.Issues State.Released State.Inv; decide +kernel

/-- `Counters`: a counter with an uncorrectable byte. -/
theorem test_meets_BadCounter :
    let s : State := { st 0xFFFF false [(8, 0x20_0000)] with poisoned := [0x20_0001] }
    let s1 := s.relScope 0 6 false
    s.EReady (tm s) (gr s) [8] ∧ s.Released (tm s) (gr s) 6 ∧ (tm s).paired = false ∧ (gr s).trapMask = none ∧
    [Acc.write, .read].all (fun acc => okAnd (s1.translate 0 0 0x20_0000 acc) (fun x =>
      decide (x.pa = 0x20_0000) && !x.memside && !x.poison && !s1.lineHeld x.pa && !s1.ctrBusy x.pa && !s1.ctrReserved x.pa &&
        s1.anyBad x.pa 4)) = true ∧ s.ctrBusy 0x20_0000 = false ∧ s.anyBad 0x20_0000 4 = true := by
  unfold State.EReady State.Issues State.Released; decide +kernel

/-- The descriptor of deque 0 (R259): storage at 0x20_1000 for two items, `TOP` and `BOT`. -/
def dqDesc (en : Nat) (top bot : Nat) : List Byte :=
  leBytes 8 0x20_1000 ++ [1, BitVec.ofNat 8 en] ++ leBytes 6 0 ++ leBytes 4 top ++ leBytes 4 bot ++ leBytes 8 0

/-- `Deques`: one that is not enabled, an empty, a full and a half full one, its indices about to wrap. -/
theorem test_meets_Deques :
    let s := (st 0xFFFF false [(8, 0), (9, 5)]).modWheel 0 (fun w => { w with dqbase := 0x20_0000 })
    let d (en top bot : Nat) : State := withMem s 0x20_0000 (dqDesc en top bot)
    let rel (u : State) : State := u.relScope (gr u).core 6 (tm u).paired
    (∀ u ∈ [d 0 0 0, d 1 0 0, d 1 0xFFFF_FFFF 1, d 1 0xFFFF_FFFF 0], u.EReady (tm u) (gr u) [8, 9] ∧
      u.Released (tm u) (gr u) 6) ∧
    (d 0 0 0).dequeOk 0 = false ∧ (rel (d 0 0 0)).dequeOk 0 = false ∧
    ((d 1 0 0).dequeOk 0 = true ∧ ((d 1 0 0).deque 0).items = 0 ∧ ((d 1 0 0).dequeDo .pop 0 0).isNone = true ∧
      ((d 1 0 0).dequeDo .steal 0 0).isNone = true ∧ (∀ op ∈ [DqOp.pop, .steal], (d 1 0 0).dequeHeld op 0 = false)) ∧
    (let u := rel (d 1 0xFFFF_FFFF 1); u.dequeOk 0 = true ∧ (u.deque 0).cap ≤ (u.deque 0).items ∧
      (u.dequeDo .push 0 5).isNone = true ∧ u.dequeHeld .push 0 = false) ∧
    (let u := d 1 0xFFFF_FFFF 0; u.dequeOk 0 = true ∧ u.ctrBusy (u.deque 0).pa = false ∧ (u.deque 0).items = 1 ∧
      (u.deque 0).items < (u.deque 0).cap ∧ u.ctrBusy ((u.deque 0).at (u.deque 0).bot) = false ∧
      u.anyBad ((u.deque 0).at ((u.deque 0).bot - 1)) 8 = false ∧ u.anyBad ((u.deque 0).at (u.deque 0).top) 8 = false ∧
      ((rel u).dequeDo .push 0 5).isSome = true ∧
      (∀ op ∈ [DqOp.pop, .steal], ((u.dequeDo op 0 0).bind (fun x => x.2.1)).isSome = true ∧
        ({ u with poisoned := rangeFrom 0x20_1000 16 } : State).dequeOk 0 = true ∧ (gr u).trapMask = none ∧
        (({ u with poisoned := rangeFrom 0x20_1000 16 } : State).dequeDo op 0 0).any (fun x => x.2.1.isNone) = true)) := by
  unfold State.EReady State.Issues State.Released; decide +kernel

/-- A stream of the placed group's queue 7: two iterations from 0x20_0000. -/
def strm (next : Nat) (base : Nat) : Stream :=
  { grp := gid, q := 7, base := base, scr := false, sgn := false, elog := 2, dims := [(2, 4)], tstr := 4, next := next,
    total := 2, stopped := false, by_ := ⟨⟨1, 0⟩, 0, 1, 0, 0, 0⟩, fly := none, stopping := false }

/-- `QueueWords`: descriptors with a reserved value, of each kind, and of a group that can feed; a queue with an entry, and one
with a stream. -/
theorem test_meets_QueueWords :
    let s0 := st 0xFFFF false [(8, 0), (9, 1), (10, 2), (11, 3), (12, 4096), (13, 0x011)]
    let s := s0.modTeam ⟨1, 0⟩ (fun t => { t with groups := t.groups ++ t.groups })
    let full := s.modGrp gid (fun g => { g with q := modAt (fun x => x.push [0] (fun _ => 1)) 7 g.q })
    let str := withCore s (fun c => { c with streams := [strm 0 0x20_0000] })
    (∀ p ∈ [8, 9, 10, 11, 12, 13], s.EReady (tm s) (gr s) [p]) ∧ full.EReady (tm full) (gr full) [8] ∧
    str.EReady (tm str) (gr str) [9] ∧ (full.grp? gid).any (fun g => !(g.queue 7).empty) = true ∧
    ((gr s).queue 7).empty = true ∧ (s.streamOf (gr s) gid 7).any (fun x => !x.stopped) = false ∧
    s.pushComing (gr s).core gid 7 = false ∧
    (match (tm s).groups[1]? with
     | some y => decide (y.core = (gr s).core) && decide (y.width = (gr s).width) && decide ((y.queue 0).kind = .self) &&
        (y.queue 0).empty && ((tm s).consumer 1 0).isNone && !s.pushComing (gr s).core ⟨⟨1, 0⟩, 1⟩ 0
     | none => false) = true ∧
    str.streamOf (gr str) gid 7 = some (strm 0 0x20_0000) ∧
    (let y := s.modGrp ⟨⟨1, 0⟩, 1⟩ (fun g => { g with q := modAt (fun x => x.push [0] (fun _ => 1)) 0 g.q })
     y.EReady (tm y) (gr y) [13] ∧ fld 0x011 4 4 = 1 ∧ fld 0x011 8 4 = 0 ∧
     ((tm y).groups[1]?).any (fun z => decide (z.core = (gr y).core) && decide (z.width = (gr y).width) &&
       !(z.queue 0).empty) = true) ∧ s.streamOf (gr s) gid 7 = none := by
  unfold State.EReady State.Issues; decide +kernel

/-- A stream record (R258) from 0x20_0000: rank 1, 4-byte elements, two iterations. -/
def strRec : List Byte :=
  leBytes 8 0x20_0000 ++ [1, 2] ++ leBytes 6 0 ++ leBytes 4 2 ++ leBytes 12 0 ++ leBytes 4 4 ++ leBytes 12 0 ++ leBytes 4 4 ++
    leBytes 12 0

/-- `AddressEngine`: a queue bound to the engine with and without a stream; a stream at its last iteration, one whose pushes are in
flight, and one that faults. -/
theorem test_meets_AddressEngine :
    let s0 := (st 0xFFFF false [(8, 0x30_0000)]).modGrp gid (fun g =>
      { g with q := modAt (fun x => { x with kind := .engine }) 7 g.q })
    let s := withMem s0 0x30_0000 strRec
    let u := withCore s (fun c => { c with streams := [strm 1 0x20_0000] })
    let fly := withCore s (fun c => { c with streams := [{ strm 1 0x20_0000 with fly := some [] }] })
    let bad := withCore s (fun c => { c with streams := [strm 1 0x2000_0000] })
    let s1 := s.relScope (gr s).core 3 (tm s).paired
    s.EReady (tm s) (gr s) [8] ∧ s.streamOf (gr s) gid 7 = none ∧ s1.streamOf (gr s) gid 7 = none ∧ s.Released (tm s) (gr s) 3 ∧
    ((gr s).queue 7).kind = .engine ∧ (gr s).trapMask = none ∧ s1.vaHeld (gr s).core (tm s).space 0x30_0000 64 .read = false ∧
    okAnd (s1.readVA s1.issuer (gr s).core (tm s).space 0x30_0000 64) (fun r =>
      (streamOfRec r.2 gid 7 r.1.issuer).any (fun y => decide (y.next < y.total)) &&
        decide ((r.1.core (gr s).core).streams.length < Config.streamSlots)) = true ∧
    (∀ v ∈ [u, fly, bad], v.EReady (tm v) (gr v) [] ∧ (v.streamOf (gr v) gid 7).any (fun x => !x.stopped && !x.stopping) = true ∧
      (tm v).loc = .resident ∧ ((gr v).queue 7).roomAll (List.range ((gr v).width / 16)) = true ∧ (gr v).awaitsStop 7 = false) ∧
    (u.streamOf (gr u) gid 7).any (fun y => y.fly.isNone) = true ∧ (fly.streamOf (gr fly) gid 7).any (fun y => y.fly.isSome) = true ∧
    (match u.streamLoads (tm u) 0 (strm 1 0x20_0000) (List.range 16) with | .ok _ _ => true | _ => false) = true ∧
    (match bad.streamLoads (tm bad) 0 (strm 1 0x2000_0000) (List.range 16) with | .fault .. => true | _ => false) = true := by
  unfold State.EReady State.Issues State.Released; decide +kernel

/-- A command (R283) of one pair: element 0 of row 0x20_0000, of one element. -/
def msCmdBytes : List Byte := leBytes 8 0x20_0000 ++ leBytes 8 0x21_0000 ++ leBytes 16 0 ++ leBytes 32 0

/-- A command that waits at core 0. -/
def waiting0 : CmdWait := ⟨7, 0, ⟨⟨9, 0⟩, 0, 1, 0, 0, 0⟩, false, ⟨false, 0, 0, 0, 1, false, false, 0, false, 0, 0, []⟩⟩

/-- `MemSideWords`: the last command of the window, one that is not aligned, an ill-formed one, one whose number of pairs stands in
a range that an engine fills, and one whose core's queue is full. -/
theorem test_meets_MemSideWords :
    let s := st 0xFFFF false [(8, 16384 - 64), (9, 1)]
    let u := s.winWrite ⟨1, 0⟩ (16384 - 64) msCmdBytes
    let ill := u.winWrite ⟨1, 0⟩ (16384 - 64) [1]
    let held := withCore u (fun c => { c with ranges := [⟨4, ⟨1, 0⟩, .stream 0 false, 16384 - 64, 16383⟩] })
    let full : State := { u with cmdWaits := List.replicate Config.cmdQueue waiting0 }
    (∀ v ∈ [u, ill, held, full], v.EReady (tm v) (gr v) [8] ∧ okAnd (v.scrAt ⟨1, 0⟩ (16384 - 64) 32) (fun _ => true) = true) ∧
    [(u, true), (full, false)].all (fun v => okAnd (v.1.readCmds ⟨1, 0⟩ false 1 (16384 - 64)) (fun r =>
      (r.2.findIdx? (fun x => msBad x.1 x.2)).isNone &&
      decide ((r.1.cmdWaits.filter (fun c => c.core == 0)).length + r.2.length ≤ Config.cmdQueue) == v.2)) = true ∧
    okAnd (ill.readCmds ⟨1, 0⟩ false 1 (16384 - 64)) (fun r => r.2.findIdx? (fun x => msBad x.1 x.2) == some 0) = true ∧
    (match held.readCmds ⟨1, 0⟩ false 1 (16384 - 64) with | .error none => true | _ => false) = true ∧
    u.EReady (tm u) (gr u) [9] ∧ okAnd (u.scrAt ⟨1, 0⟩ 1 32) (fun _ => true) = true ∧ 1 % 32 ≠ 0 := by
  unfold State.EReady State.Issues; decide +kernel

/-- `MemSideCounters`: a counter with everything done and one with a command outstanding, at the issue of a word and as a serial word;
a value that `DONE` has reached and one that it has not. -/
theorem test_meets_MemSideCounters :
    let s := st 0xFFFF false [(9, 1)]
    let busy := s.modTeam ⟨1, 0⟩ (fun t => { t with ms := List.replicate 4 ⟨1, 0⟩ })
    let ser (v : State) : State := { v with iss := { v.iss with mode := .serial, wid := 5 } }
    ((tm s).msCtr 3).done = ((tm s).msCtr 3).issued ∧ ((tm busy).msCtr 3).done ≠ ((tm busy).msCtr 3).issued ∧
    (∀ v ∈ [s, busy], v.EReady (tm v) (gr v) [] ∧ (ser v).Issues (tm (ser v)) (gr (ser v)) ∧ (ser v).iss.mode = .serial ∧
      (ser v).iss.wid ≠ 0) ∧
    busy.EReady (tm busy) (gr busy) [9] ∧ ¬ (((tm busy).msCtr 3).done - ((gr busy).sreg 9).setWidth 32).toNat < 2 ^ 31 ∧
    s.EReady (tm s) (gr s) [0] ∧ (((tm s).msCtr 3).done - ((gr s).sreg 0).setWidth 32).toNat < 2 ^ 31 := by
  unfold State.EReady State.Issues; decide +kernel

/-- `MemSideEngine`: a line job of a command with one left, a command with none left, an element whose old value can be read. -/
theorem test_meets_MemSideEngine :
    let j : Job := { chan := 3, cmd := 9, atom := false, zero := false, sfmt := false, op := 0,
                     elems := [⟨0x20_0000, 0x20_0000, [⟨0x21_0000, 0x21_0000, 1, none⟩]⟩] }
    let c (left : Nat) : MsCmd := { id := 9, by_ := ⟨⟨1, 0⟩, 0, 1, 0, 0, 0⟩, dest := .counter 3, tctr := none, left := left, core := 0 }
    let s : State := { st 1 false [] with jobs := [{ j with chan := 4 }, j], cmds := [c 1] }
    let u : State := { st 1 false [] with cmds := [c 0] }
    takeJob 3 s.jobs = some (j, [{ j with chan := 4 }]) ∧ s.jobHeld j = false ∧
    s.cmds.find? (fun x => x.id == j.cmd) = some (c 1) ∧ u.cmds.find? (fun x => x.id == 9) = some (c 0) ∧ (c 0).left = 0 ∧
    (c 0).tctr = none ∧ 3 < (tm u).ms.length ∧ s.msBadAt 0x20_0000 4 = false ∧ Memory.wf s.mem = true ∧ u.ctrBusy 0x20_0000 = false ∧
    ({ u with cmds := [{ c 0 with tctr := some 0x20_0000 }] } : State).cmds.find? (fun x => x.id == 9) =
      some { c 0 with tctr := some 0x20_0000 } := by decide +kernel
/-- `Slots`, `Subscribe`: a slot at the window's last place that is unused, live and read, live and unread, and ending; one of a
sibling's window; a location that crosses a line; no place left. -/
theorem test_meets_Slots :
    let s0 := st 0xFFFF false [(8, 0x20_0079), (9, 16368), (10, 16368)]
    let a : ScrAt := ⟨⟨1, 0⟩, 16368⟩
    let sub : Sub := ⟨3, 0x20_0000, 1, ⟨1, 0⟩, 0, 16368, false⟩
    let mk (f : BitVec 32) : State := s0.setSlot a.team a.off ⟨5, 7, f⟩
    let live := { mk 1 with subs := [sub] }
    (∀ s ∈ [mk 0, mk 1, mk 3, mk 9, live], s.EReady (tm s) (gr s) [10] ∧ s.EReady (tm s) (gr s) [8, 9] ∧ (tm s).pinned = true ∧
      s.team? a.team = some (tm s) ∧ okAnd (s.scrAt (tm s).id 16368 16) (fun x => decide (x = a)) = true ∧
      s.inRange a.team a.off 16 = false ∧ s.winHeld a.team a.off 16 = false ∧ s.winBadIn a.team a.off 16 = false) ∧
    16368 % 16 = 0 ∧ fld 16368 22 1 = 0 ∧ (gr s0).trapMask = none ∧
    ((mk 0).slot a.team a.off).live = false ∧ ((mk 0).slot a.team a.off).ending = false ∧
    ((mk 3).slot a.team a.off).unread = true ∧
    (((mk 1).slot a.team a.off).live = true ∧ ((mk 1).slot a.team a.off).unread = false) ∧
    ((live.slot a.team a.off).live = true ∧ (live.slot a.team a.off).ending = false ∧
      live.subs.any (fun y => decide (y.team = ⟨1, 0⟩) && y.off == a.off) = true) ∧
    (((mk 9).slot a.team a.off).ending = true ∧ (mk 9).endMarkOut a.team a.off = false) ∧
    okAnd ((mk 0).translate 0 0 0x20_0079 .read) (fun x => !(mk 0).partBusy (gr s0) ⟨x, 0x20_0079, 7⟩ && !(mk 0).noSub ⟨1, 0⟩ x) = true ∧
    (128 < 0x20_0079 % 128 + 8 ∧ 0x20_0079 % 128 + 7 ≤ 128) ∧
    (let full := { mk 0 with subs := List.replicate Config.subList { sub with off := 0 } }
     okAnd (full.translate 0 0 0x20_0079 .read) (fun x => full.noSub ⟨1, 0⟩ x && !full.partBusy (gr s0) ⟨x, 0x20_0079, 7⟩)) = true := by
  unfold State.EReady State.Issues; decide +kernel

/-- `Slots`, `Subscribe`: canonical form, no wait that watches a slot, and no byte of the location that a home holds or the L1 has dirty. -/
theorem test_meets_SlotsCalm :
    let s := (st 0xFFFF false [(8, 0x20_0079), (9, 16368), (10, 16368)]).setSlot ⟨1, 0⟩ 16368 ⟨5, 7, 0⟩
    s.Inv ∧ s.allWaits = [] ∧ okAnd (s.translate 0 0 0x20_0079 .read) (fun x => !x.poison &&
      (List.range 8).all (fun k => !(s.subClean 0 x).ownHeld 0 (x.pa + k)) && decide (((s.subClean 0 x).core 0).self = [])) = true := by
  unfold State.Inv; decide +kernel

/-- `Slots`, `Subscribe`: a slot of a sibling's window. -/
theorem test_meets_SiblingSlot :
    let s := (st 0xFFFF false [(10, 0x40_0000)]).modNode 1 (fun n => { n with l := { n.l with gang := true } })
    s.EReady (tm s) (gr s) [10] ∧ fld 0x40_0000 22 1 = 1 ∧ 0x40_0000 % 16 = 0 ∧
    okAnd (s.scrAt (tm s).id 0x40_0000 16) (fun x => !s.inRange x.team x.off 16 && !s.winHeld x.team x.off 16) = true := by
  unfold State.EReady State.Issues; decide +kernel

/-- `Landings`: a push, an end mark, and the landing of an `LDSUB` to the last pair. -/
theorem test_meets_Landings :
    let by_ : Issuer := ⟨⟨1, 0⟩, 0, 1, 0, 0, 0⟩
    (∀ k ∈ [FlightKind.push, .endMark, .landing by_ 62 8],
      let f : Flight := ⟨4, ⟨1, 0⟩, 16, 5, k, 0, 0, []⟩
      let s : State := { (st 1 false []).modGrp gid (fun g => { g with spend := [(62, 4), (63, 4)] }) with flights := [f] }
      s.flights.find? (fun x => x.id == 4) = some f ∧ s.canLand f = true ∧ s.team? ⟨1, 0⟩ = some (tm s) ∧
      (tm s).pinned = true ∧ s.grp? gid = some (gr s) ∧ (gr s).s.length = 64 ∧ (62, 4) ∈ (gr s).spend ∧
      (62 + 1, 4) ∈ (gr s).spend ∧ s.Inv ∧ s.allWaits = []) ∧ 0 < 62 ∧ 62 < 63 ∧ (∀ x ∈ State.reset.flights, x.id ≠ 4) := by
  unfold State.Inv; decide +kernel

/-- A half-key table of 2 entries of 2 dimensions. -/
def tab (h stt node : Nat) : KlTable :=
  { h := h, node := node, n := 2, hd := 2, st := stt, gran := 1, space := 0, src := 0x20_0000,
    by_ := ⟨⟨1, 0⟩, 0, 1, 0, 0, 0⟩, flt := none, data := List.replicate 8 0, bad := [] }

/-- Vat 0 changed. -/
def withVat (s : State) (ts : List KlTable) (q : List KlOp) : State :=
  s.modVat 0 (fun v => { v with tables := ts, klq := q })

/-- `KeyTables`: each value of s[P], a table ready and one loading, one whose load has met a fault, and a descriptor of 2,048
entries of 32 dimensions. -/
theorem test_meets_KeyTables :
    let s := withMem (st 0xFFFF false [(8, 0), (9, 1), (10, 0x30_0001), (11, 0x30_0000)]) 0x30_0000
      (leBytes 8 0x20_0000 ++ leBytes 2 2047 ++ leBytes 2 31 ++ leBytes 4 0)
    let ex (y : KlTable) : State :=
      { (withVat s [y] []) with iss := { s.iss with mode := .examine, wid := 5, kept := ⟨[(11, 0x30_0000)], []⟩ } }
    (∀ p ∈ [8, 9, 10, 11], s.Issues (tm s) (gr s) ∧ (gr s).sPending [p] = false) ∧ s.isDet (tm s).id = false ∧
    s.iss.mode = .issue ∧ s.iss.wid = 0 ∧ s.held (gr s) = none ∧ s.Released (tm s) (gr s) 3 ∧ (gr s).trapMask = none ∧
    va56 0x30_0001 % 16 ≠ 0 ∧ va56 0x30_0000 % 16 = 0 ∧
    (let s1 := s.relScope (gr s).core 3 (tm s).paired
     !s1.vaHeld (gr s).core (tm s).space 0x30_0000 16 .read &&
     okAnd (s1.readVA s1.issuer (gr s).core (tm s).space 0x30_0000 16) (fun r =>
       let n := field r.2 8 2 + 1
       let hd := field r.2 10 2 + 1
       va56 (field r.2 0 8) % 64 == 0 && n == 2048 && decide (hd ≤ 512) && allZero r.2 12 4 &&
         decide ((s.vat 0).klUsed 15 + (2 * n * hd + 65535) / 65536 ≤ Config.keyGranules)) &&
       !((s.vat 0).table? 15).any (fun x => x.node != 1) && !(s.vat 0).named 15) = true ∧
    (∀ y ∈ [tab 15 1 1, tab 15 2 1, { tab 15 3 1 with flt := some (1, 4, 64) }], (ex y).Issues (tm (ex y)) (gr (ex y)) ∧
      (ex y).iss.mode = .examine ∧ (ex y).iss.wid ≠ 0 ∧ 1 < (((gr (ex y)).withKept (ex y).iss.kept).sreg 11).toNat ∧
      ((ex y).vat 0).tables.find? (fun x => x.h == 15) = some y) := by
  unfold State.Issues State.Released; decide +kernel

/-- A parameter block (R335) of a lookup and of a gradient: query at 0, output at 64, tables 0 and 1, K = 1. -/
def klParams (grad : Bool) : List Byte :=
  leBytes 4 0 ++ leBytes 4 64 ++ [0, 1, 1, if grad then 0 else 0x20] ++ leBytes 4 0 ++ leBytes 8 0 ++
    leBytes 8 0 ++ leBytes 8 0 ++ leBytes 8 0 ++ leBytes 8 (if grad then 0x20_0000 else 0) ++ leBytes 72 0

/-- `KeyLookups`, of both kinds: good blocks, malformed ones, a tag in use and every state of a tag. -/
theorem test_meets_KeyLookups :
    let s0 := withVat (st 0xFFFF false [(8, 12288)]) [tab 0 2 1, tab 1 2 1] []
    (∀ grad ∈ [false, true],
      let s := s0.winWrite ⟨1, 0⟩ 12288 (klParams grad)
      let bs := s.winRead ⟨1, 0⟩ 12288 128
      let bad := (s.winWrite ⟨1, 0⟩ 12298 [3]).winRead ⟨1, 0⟩ 12288 128
      s.EReady (tm s) (gr s) [8] ∧ okAnd (s.klScr ⟨1, 0⟩ 12288 128 128) (fun a => !s.winHeld a.team a.off 128 && !s.winBadIn a.team a.off 128 && !s.inRange a.team a.off 128) = true ∧
      (s.vat 0).table? (field bs 8 1) = some (tab 0 2 1) ∧ (s.vat 0).table? (field bs 9 1) = some (tab 1 2 1) ∧
      okAnd (s.klScr ⟨1, 0⟩ (field bs 0 4) 8 64) (fun _ => true) = true ∧
      okAnd (s.klScr ⟨1, 0⟩ (field bs 4 4) 2560 64) (fun _ => true) = true ∧
      klBad grad bs 2 = false ∧ klBad grad bad 2 = true ∧ (s.vat 0).queued < Config.klQueue ∧ 3 < (tm s).kl.length ∧
      ∀ c ∈ s.cores, c.ranges.length + 4 ≤ Config.rangeScore) ∧
    (∀ k ∈ [0, 1, 2, 3, 4, 5], let s := (s0.winWrite ⟨1, 0⟩ 12288 (klParams false)).modKl ⟨1, 0⟩ 3 (fun x => { x with st := k })
      s.EReady (tm s) (gr s) [8] ∧ ((tm s).klTag 3).st = k ∧ (((tm s).klTag 3).busy = true ↔ 1 ≤ k ∧ k ≤ 3)) := by
  unfold State.EReady State.Issues; decide +kernel

/-- `KeyLookups`: where every core listed has room for the entries, every core has. -/
theorem test_ranges_room (s : State) (h : ∀ c ∈ s.cores, c.ranges.length + 4 ≤ Config.rangeScore) (n : Nat) :
    (s.core n).ranges.length + 4 ≤ Config.rangeScore := by
  unfold State.core
  cases hf : s.cores.find? (fun c => c.num == n) with
  | none => exact (by decide : ([] : List RangeEnt).length + 4 ≤ Config.rangeScore)
  | some c => exact h c (List.mem_of_find?_eq_some hf)

/-- A queued lookup without a gather and without a counter. -/
def klOp0 : KlOp :=
  { id := 1, team := ⟨1, 0⟩, tag := 3, grad := false, q := 0, o := 64, tab1 := 0, tab2 := 1, k := 1, wmode := 0, zero := false,
    vfmt := false, tc := false, nogather := true, stride := 0, vtab := 0, dst := 0, len := 1, tctr := 0, gradv := 0, eta := 0,
    entries := [], hold := [], by_ := ⟨⟨1, 0⟩, 0, 1, 0, 0, 0⟩ }

/-- `KeyEngine`: a table loading from a page that is mapped and one that is not, an operation at the head of its queue, a tag with
no command outstanding. -/
theorem test_meets_KeyEngine :
    let ld := withVat (st 1 false []) [tab 15 1 1] []
    let s := withVat (st 1 false []) [tab 0 2 1, tab 1 2 1] [klOp0]
    let d (p : Option Nat) := (st 1 false []).modKl ⟨1, 0⟩ 3 (fun _ => ⟨3, 0, p⟩)
    let w := ld.modGrp gid (fun g => { g with waits := [{ wait0 none with word := (encode false (.pktab ⟨8, 9, 3⟩ 15)).getD 0 }] })
    let got (src : Nat) : State × List Byte × Option (PFault × Nat) :=
      State.readPages (tab 15 1 1).by_ 0 0 src 8 (plainUnits 4 2) 2 ld []
    (ld.vat 0).table? 15 = some (tab 15 1 1) ∧ (∀ y ∈ (ld.vat 0).tables, y.h = 15 → y = tab 15 1 1) ∧
    (got 0x20_0000).2.2 = none ∧ 8 ≤ (got 0x20_0000).2.1.length ∧ (got 0x2000_0000).2.2 ≠ none ∧ w.pktabWaits 0 15 1 = true ∧
    (s.vat 0).klq = [klOp0] ∧ s.team? ⟨1, 0⟩ = some (tm s) ∧ (s.vat 0).table? 0 = some (tab 0 2 1) ∧
    (s.vat 0).table? 1 = some (tab 1 2 1) ∧ (tm s).pinned = true ∧ (s.vat 0).sends = [] ∧ s.klWaits klOp0 = false ∧
    s.klHeld (tm s) klOp0 2 = false ∧
    okAnd (s.scrAt ⟨1, 0⟩ 64 2560) (fun a => (s.team? a.team).any Team.pinned) = true ∧ 3 < (tm s).kl.length ∧
    (∀ p ∈ [none, some 0], (d p).team? ⟨1, 0⟩ = some (tm (d p)) ∧ (tm (d p)).klTag 3 = ⟨3, 0, p⟩ ∧ (d p).ctrBusy 0 = false) ∧
    3 < (tm (d none)).kl.length := by decide +kernel

/-- `ReplayWords`: in trap mode with one entry, selections 0, 1 and 2, a list's place that is not aligned, and an entry that a
migration holds up. -/
theorem test_meets_ReplayWords :
    let s0 := stTrap (some 0xFFFF) true [(8, 0), (9, 1), (10, 2), (11, 0x30_0000), (12, 0x30_0001)]
    let s := withCore s0 (fun c => { c with replay := [park0 1] })
    let held : State :=
      { withCore s0 (fun c => { c with replay := [{ park0 1 with elems := [⟨0, 0x40_0000, [], [4], 0⟩] }] }) with
        migrations := [⟨0x80_0000, 0x40_0000, 2 ^ 17, 0, 0, false, [], []⟩] }
    let left (v : State) (sel : List Park) : List Park :=
      ((((v.selectGo 0 sel).replayOn 0 0 gid).core 0).parksOf gid).filter (fun p => p.go && p.sel)
    let u := st 0xFFFF false [(8, 0)]
    let n := stTrap none true [(8, 0)]
    (∀ p ∈ [8, 9, 10, 11, 12], s.EReady (tm s) (gr s) [p]) ∧ u.EReady (tm u) (gr u) [8] ∧ u.iss.sys = false ∧
    n.EReady (tm n) (gr n) [8] ∧ n.iss.sys = true ∧ (gr n).trapMask = none ∧ s.iss.sys = true ∧ (gr s).trapMask ≠ none ∧
    (let ps := (s.core (gr s).core).parksOf s.iss.grp
     selectParks 2 ps = none ∧ selectParks 0 ps = some [park0 1] ∧ selectParks 1 ps = some [park0 1] ∧
     left s [park0 1] = [] ∧ left held ((held.core 0).parksOf gid) ≠ [] ∧ va56 0x30_0001 % 32 ≠ 0 ∧ va56 0x30_0000 % 32 = 0 ∧
     okAnd (s.xlatElem (gr s).core (tm s).space 0x30_0000 (ps.flatMap Park.listing).length .write)
       (fun l => !l.any s.partHeld) = true) := by
  unfold State.EReady State.Issues; decide +kernel

/-- `ShootMigrate`, shootdowns: a word outside and inside a system segment, at its issue and with nothing of it left; one that
has not removed its entries, one that has, and one that waits for a command. -/
theorem test_meets_Shootdowns :
    let s := st 0xFFFF true [(8, 0x20_0000)]
    let u := st 0xFFFF false [(8, 0x20_0000)]
    let ex : State := { s with iss := { s.iss with mode := .examine, wid := 5 } }
    let x (r : Bool) (cmds : List Nat) : Shoot :=
      { grp := gid, mask := 0xFFFF, space := 0, size := .allsp, va := 0, removed := r, cmds := cmds, bufs := [], colls := [] }
    let c : MsCmd := { id := 9, by_ := ⟨⟨1, 0⟩, 0, 1, 0, 0, 0⟩, dest := .counter 3, tctr := none, left := 1, core := 0 }
    (∀ v ∈ [s, u], v.Issues (tm v) (gr v) ∧ (gr v).sPending [8] = false ∧ v.iss.mode = .issue ∧ v.iss.wid = 0 ∧
      v.held (gr v) = none) ∧ u.iss.sys = false ∧ s.iss.sys = true ∧ s.Released (tm s) (gr s) 6 ∧
    ex.Issues (tm ex) (gr ex) ∧ ex.iss.mode = .examine ∧ ex.iss.wid ≠ 0 ∧ ex.iss.sys = true ∧
    (∀ y ∈ ex.shoots, y.grp ≠ ex.iss.grp) ∧ (x false []).removed = false ∧ (x true []).removed = true ∧
    ({ s with shoots := [x true []] } : State).shootDone (x true []) = true ∧
    ({ s with shoots := [x true [9]], cmds := [c] } : State).shootDone (x true [9]) = false := by
  unfold State.Issues State.Released; decide +kernel

/-- A migration of the page at 0x20_0000 to 0x22_0000. -/
def mig0 (switched : Bool) : Migration :=
  { old := 0x20_0000, new := 0x22_0000, size := 2 ^ 17, leafPA := 0x4_0008, leaf := 0x22_0063, switched := switched, held := [],
    waiters := [] }

/-- `ShootMigrate`, migrations: blocks that are not aligned, malformed and good; none in flight, eight, and the page's own,
switched or not. -/
theorem test_meets_Migrations :
    let blk (new : Nat) : List Byte := leBytes 8 0x20_0000 ++ leBytes 8 new ++ leBytes 8 0x4_0008 ++ leBytes 8 0x22_0063
    let s := withMem (st 0xFFFF true [(8, 0x30_0000), (9, 0x30_0001)]) 0x30_0000 (blk 0x22_0000)
    let bad := withMem s 0x30_0000 (blk 0x20_0000)
    let u := st 0xFFFF false [(8, 0x30_0000)]
    let full : State := { s with migrations := List.replicate 8 { mig0 false with old := 0x40_0000, new := 0x50_0000 } }
    let done : State := { s with migrations := [mig0 true] }
    let wait : State := { s with migrations := [mig0 false] }
    let reads (v : State) (f : State → List Byte → MigBlock → Bool) : Bool :=
      !v.vaHeld (gr v).core (tm v).space 0x30_0000 32 .read && (gr v).trapMask.isNone &&
        okAnd (v.readVA v.issuer (gr v).core (tm v).space 0x30_0000 32) (fun r => f r.1 r.2 (migBlock r.2))
    (∀ v ∈ [s, bad, full, done], v.EReady (tm v) (gr v) [8] ∧ v.iss.sys = true) ∧ u.EReady (tm u) (gr u) [8] ∧
    u.iss.sys = false ∧ s.EReady (tm s) (gr s) [9] ∧ va56 0x30_0001 % 32 ≠ 0 ∧ va56 0x30_0000 % 32 = 0 ∧
    reads bad (fun v bs m => v.migBad bs m) = true ∧
    reads s (fun v bs m => !v.migBad bs m && decide (s.migrations.length < Config.migrateLimit) && !s.migMeets m.old m.size &&
      !s.migMeets m.new m.size && s.migrations.all (fun z => z.old != m.old)) = true ∧
    reads full (fun v bs m => !v.migBad bs m && decide (Config.migrateLimit ≤ full.migrations.length)) = true ∧
    reads done (fun v bs m => !v.migBad bs m && done.migMeets m.old m.size &&
      (done.migrations.find? (fun z => z.old == m.old)).any (·.switched)) = true ∧
    wait.migrations = [mig0 false] ∧ (mig0 false).switched = false ∧ (mig0 false).held = [] ∧ wait.hostLines = [] ∧
    wait.fencemap = [] ∧ wait.gone = [] ∧ wait.pushq = [] ∧ Memory.wf wait.mem = true ∧ wait.stale = [] ∧ Memory.wf s.mem = true ∧
    s.stale = [] ∧
    pagesMeet (mig0 false).old (mig0 false).size (mig0 false).new (mig0 false).size = false ∧
    pagesMeet (mig0 false).leafPA 8 (mig0 false).old (mig0 false).size = false ∧
    pagesMeet (mig0 false).leafPA 8 (mig0 false).new (mig0 false).size = false := by
  unfold State.EReady State.Issues; decide +kernel

/-- `ShootMigrate`: a switch whose leaf entry the host may hold, and one with nothing to wait for. -/
theorem test_meets_SwitchWaits :
    let m := mig0 false
    let calm : State := { st 1 true [] with migrations := [m] }
    let wait : State := { calm with hostLines := [lineOf m.leafPA] }
    m.switched = false ∧ wait.migrations = [m] ∧ wait.switchWaits m = true ∧ calm.snoops = [] ∧ calm.switchWaits m = false ∧
    pagesMeet 0x20_0000 (2 ^ 17) 0x22_0000 (2 ^ 17) = false ∧ calm.hostLines = [] := by decide +kernel

/-- A collective slot of the placed team set. -/
def withColl (s : State) (stt : Nat) : State :=
  s.modTeam ⟨1, 0⟩ (fun t => { t with colls := modAt (fun _ =>
    { CollSlot.fresh with st := stt, send := [⟨⟨0x20_0000, 0, false, false⟩, 0x20_0000, 4⟩],
                          recv := [⟨⟨0x21_0000, 0, false, false⟩, 0x21_0000, 4⟩], count := 1, ranks := 2, me := 1 }) 3 t.colls })

/-- `Collectives`: every state of a slot; descriptors that are not aligned, of no group, malformed and good; the completion of a
reduction by two ranks. -/
theorem test_meets_Collectives :
    let desc (op : Nat) (id : Nat) : List Byte :=
      leBytes 8 0x20_0000 ++ leBytes 8 0x21_0000 ++ leBytes 8 0 ++ leBytes 4 1 ++ leBytes 2 id ++ [BitVec.ofNat 8 op, 0, 0, 0] ++
        leBytes 30 0
    let s0 : State := { st 0xFFFF false [(8, 0x30_0000), (9, 0x30_0001)] with fgroups := [⟨5, 2, 1⟩] }
    let s := withMem s0 0x30_0000 (desc 0 5)
    (∀ k ∈ [0, 1, 2, 3], let v := withColl s k
      v.EReady (tm v) (gr v) [8] ∧ (tm v).colls.length = 4 ∧ ((tm v).coll 3).st = k ∧ ((tm v).coll 3).result = none ∧
        v.Released (tm v) (gr v) 6 ∧ (gr v).trapMask = none) ∧
    s.EReady (tm s) (gr s) [9] ∧ va56 0x30_0001 % 64 ≠ 0 ∧ va56 0x30_0000 % 64 = 0 ∧
    (∀ x ∈ [(desc 0 4, none, false), (desc 5 5, some (⟨5, 2, 1⟩ : FGroup), true), (desc 0 5, some ⟨5, 2, 1⟩, false)],
      let v := withMem s 0x30_0000 x.1
      let v1 := v.relScope (gr v).core 6 (tm v).paired
      (!v1.vaHeld (gr v).core (tm v).space 0x30_0000 64 .read && okAnd (v1.readVA v1.issuer (gr v).core (tm v).space 0x30_0000 64) (fun r =>
        decide (r.1.fgroups.find? (fun y => y.id == field r.2 28 2) = x.2.1) &&
          (x.2.1.isNone || collBad r.2 2 == x.2.2) && (x.2.1.isNone || x.2.2 ||
          (field r.2 16 8 == 0 &&
            okAnd (r.1.xlatElem 0 0 (field r.2 0 8)
              ((collSizes (field r.2 30 1) (field r.2 24 4) 2).1 * dtypeSize (field r.2 31 1)) .read) (fun _ => true) &&
            okAnd (r.1.xlatElem 0 0 (field r.2 8 8)
              ((collSizes (field r.2 30 1) (field r.2 24 4) 2).2 * dtypeSize (field r.2 31 1)) .write) (fun _ => true))))) = true) ∧
    (let v := withColl s 1
     let c := (tm v).coll 3
     3 < (tm v).colls.length ∧ c.st = 1 ∧ c.result = none ∧ c.sound [leBytes 4 1, leBytes 4 2] = true ∧
       c.send.any v.partHeld = false ∧ c.recv.any v.partHeld = false ∧ v.migrations = [] ∧ v.snoops = [] ∧ v.hostLines = [] ∧
       v.pushq = [] ∧ v.flights = [] ∧ (v.badBytes c.send).any (fun b => b) = false ∧
       c.done = none ∧ v.Inv ∧ v.stale = [] ∧ (∀ p ∈ c.recv, p.x.poison = false ∧ ∀ i, i < p.n → v.fenced (p.x.pa + i) = false) ∧
       (c.recv.flatMap (fun p => rangeFrom p.x.pa p.n)).Nodup ∧
       (c.recv.map (·.n)).sum = (c.output (modAt (fun _ => (v.engineRead c.send).1) c.me [leBytes 4 1, leBytes 4 2])).length) := by
  unfold State.EReady State.Issues State.Released State.Inv; decide +kernel

/-- `Pool`: a group with nothing to take and one with a pending trap; a team to place, one that fits only in a victim's place,
and a node at its end. -/
theorem test_meets_Pool :
    let s := st 0xFFFF false []
    let x := s.wordTrap 12 0 0 0xFF 0
    let u := s.modGrp gid (fun g => g.pend x)
    let d : State := { s with nodes := s.nodes ++ [node0 2 bootLaunch 0] }
    let p : State :=
      { s with
        nodes := s.nodes ++ [node0 2 { bootLaunch with prio := 7, window := 262144 } 0]
        cap2 := 0x4_0180
        cores := s.cores ++ (rangeFrom 1 63).map (fun n => { Core.reset n with dead := true }) }
    let e : State := { s with nodes := [{ node0 1 bootLaunch 1 with ending := true }], teams := [] }
    s.canTake gid (gr s) = false ∧ u.ownsRun (tm u).space gid (gr u) = false ∧ (tm u).pinned = true ∧
    u.nextTrap gid (gr u) = some x ∧ outerCause x.cause = false ∧
    ((Mask.list ((gr u).receivers x (u.isDet gid.team) &&& x.mask) (gr u).width).head?).or
      (Mask.list ((gr u).receivers x (u.isDet gid.team)) (gr u).width).head? = some 0 ∧
    s.dispatchDue 0 = false ∧ s.readyNodes 0 = [] ∧ d.dispatchDue 0 = true ∧
    ((d.readyNodes 0).findSome? d.placeNode).isSome = true ∧
    (match p.readyNodes 0 with
     | n :: _ =>
       match p.waiting n with
       | w :: _ =>
         !(p.coresFor w.2).any (fun c => p.fitsAt c w.1) &&
           (match p.choosePlace n.l.prio w.1 (p.coresFor w.2) with
            | some (_, c, v) => decide (p.team? v.id = some v) &&
              !p.teams.any (fun t => t.going && t.groups.any (fun g => (placeCores c w.1).contains g.core))
            | none => false)
       | [] => false
     | [] => false) = true ∧
    (match d.readyNodes 0 with | n :: _ => (d.roomFor n).isNone | [] => false) = true ∧
    (e.node? 1).any (fun n => n.ending && n.l.done.isNone) = true ∧ e.nodeBusy 1 = false ∧
    (let e1 := (e.cores.map (·.num)).foldl (fun s c => s.relSelf c) e
     e1.heldWrites = [] ∧ e1.pushIds = [] ∧ (∀ c ∈ e1.cores, e1.unflushed c.num = false) ∧ e1.ctrBusy 0x20_0000 = false) := by decide +kernel

/-- `Quanta`: a `det` node whose quantum goes on, one whose threads have all stopped, one with a push in flight, one whose
channel runs, and one at the end of its waits. -/
theorem test_meets_Quanta :
    let det (phase : Nat) (stopped : Bool) : State :=
      let s := (st 0xFFFF false []).modGrp gid (fun g => g.onThreads 0xFFFF (fun _ t => { t with stopped := stopped }))
      { s with nodes := [{ node0 1 { bootLaunch with det := true } 1 with phase := phase, mark := 9 }] }
    let node (s : State) : Node := (s.node? 1).getD (node0 0 bootLaunch 0)
    let push : State := { det 1 true with flights := [⟨4, ⟨1, 0⟩, 16, 5, .push, 0, 0, []⟩] }
    let busy := withChan (det 2 true) 0 { Chan.fresh with st := 1 }
    (det 0 false).quantumDone (node (det 0 false)) = false ∧ (det 0 true).quantumDone (node (det 0 true)) = true ∧
    (det 0 true).landAll.commitWaits (node (det 0 true)) = false ∧
    (let h : State := { det 0 true with pushq := [⟨[(0, 0)], some 0, true, 0, []⟩] }
     h.quantumDone (node h) = true ∧ h.landAll.commitWaits (node h) = true) ∧
    (node push).mark ≠ 0 ∧ (push.nodeGroups 1).any push.writesHeld = false ∧
    (node push).phase = 1 ∧ push.pushIds.any (fun id => decide (id < (node push).mark)) = true ∧
    (node busy).phase = 2 ∧ (busy.nodeTeams 1).all busy.enginesRest = false ∧
    (node (det 3 true)).phase = 3 ∧ ((det 3 true).nodeTeams 1).all (fun t => decide (t.loc = .resident) && t.groups.all (fun g => !g.preempting)) = true ∧
    (det 0 false).isDet ⟨1, 0⟩ = true := by decide +kernel

/-- `Homes`: two calm halves of a region, an entry whose engine has done with it, a dead core, and one that dies. -/
theorem test_meets_Homes :
    let s : State := { st 1 false [] with cycle := 2 ^ 16, regions := [⟨0x20_0000, 32768, [(0, 5)], some 0⟩, ⟨0x20_8000, 32768, [(0, 6)], none⟩] }
    let r := withCore s (fun c => { c with ranges := [⟨4, ⟨1, 0⟩, .stream 0 true, 0, 63⟩] })
    let d := s.modCore 5 (fun c => { c with dead := true })
    (match s.regions.find? (fun r => r.base == 0x20_0000 && r.size == 65536 / 2),
           s.regions.find? (fun r => r.base == 0x20_0000 + 65536 / 2 && r.size == 65536 / 2) with
     | some a, some b => sameSharers a b && a.calm (s.now (wheelAgent (s.homeWheel 0x20_0000))) && b.calm (s.now (wheelAgent (s.homeWheel 0x20_0000)))
     | _, _ => false) = true ∧
    ((r.core 0).ranges.find? (fun e => e.id == 4)).any r.rangeDone = true ∧ d.cores.any (·.dead) = true ∧
    d.hasWheel 5 = true ∧ (s.core 383).dead = false ∧ s.hasWheel (wheelOf 383) = true ∧
    (s.core 383).silent = none ∧ s.pushq = [] ∧ (∀ t ∈ s.teamsDying 0, ∀ c ∈ t.chans, c.act = none) ∧
    (let q : State := { withCore s (fun c => { c with silent := some (3, 0) }) with cycle := 2 ^ 20 }
     let r : State := { withCore s (fun c => { c with silent := some (3, 1) }) with cycle := 2 ^ 20 }
     (q.core 0).silent = some (3, 0) ∧ 0 + 2 ^ 20 ≤ q.now (wheelAgent 3) ∧ (r.core 0).silent = some (3, 1) ∧
       r.now (wheelAgent 3) < 1 + 2 ^ 20) := by decide +kernel

/-- `HostAccess`: the last byte of a line of a stack and of host memory, and a snoop that has waited 2^20 cycles and one that has
not. -/
theorem test_meets_HostAccess :
    let s : State := { State.reset with cycle := 2 ^ 20, snoops := [⟨lineOf 0x20_007F, 0, []⟩, ⟨3, 1, []⟩] }
    s.powered = true ∧
    (∀ pa ∈ [0x20_007F, 2 ^ 51 + 127], pa % 128 + 1 ≤ 128 ∧ pa < 2 ^ 52 ∧ s.absent pa = false ∧ s.lineHeld pa = false ∧
      s.fenced (s.fwd pa) = false ∧ s.lockedOld pa = false ∧ s.pushHeldLine (lineOf (s.fwd pa)) = false ∧
      s.noPushRoom (rangeFrom (s.fwd pa) 1) = false ∧ s.fenced (pa + 0) = false) ∧ s.Inv ∧ s.migrations = [] ∧
    s.snoops.find? (fun x => x.line == lineOf 0x20_007F) = some ⟨lineOf 0x20_007F, 0, []⟩ ∧
    0 + 2 ^ 20 ≤ s.now (wheelAgent (s.homeWheel (128 * lineOf 0x20_007F))) ∧
    s.snoops.find? (fun x => x.line == lineOf 400) = some ⟨3, 1, []⟩ ∧
    s.now (wheelAgent (s.homeWheel (128 * lineOf 400))) < 1 + 2 ^ 20 := by
  unfold State.Inv; decide +kernel

/-- `Host`, commands: each kind of command, of a space with a context and a node, with a context alone, and with none. -/
theorem test_meets_HostCommands :
    let s := st 1 false []
    let q (v : Reg) (f : State → State) : State := { f s with hostq := [v] }
    let ok := q 0x30_0000 (fun s => withMem (withMem s 0x20_0000 (codeObj s.stamp)) 0x30_0000 (launchRec 0))
    let cr := q 0x30_0001 (fun s => withMem s 0x30_0000 (leBytes 2 4095))
    let held := q 0x30_0002 id
    let gone : State := { (q 0x30_0002 id) with nodes := [] }
    let checks (v : State) : Checked :=
      let r := v.hostBytes 0x30_0000 64
      r.1.checkLaunch hostIssuer Config.cores (r.2 ++ List.replicate 64 0)
    s.powered = true ∧ 3 ≤ (0x30_0003 : Reg).toNat % 8 ∧ s.hasWheel 7 = false ∧ fld (0x30_0038 : Reg).toNat 3 3 = 7 ∧
    s.hasWheel 0 = true ∧ s.absent (cmdPA 0x30_0000) = false ∧ ok.cmdHeld 0x30_0000 = false ∧
    field (ok.hostBytes (cmdPA 0x30_0000) 64).2 0 2 ≠ 2 ∧
    (∀ u ∈ [ok, q 0x30_0000 id],
      u.launchHeld Config.cores ((u.hostBytes (cmdPA 0x30_0000) 64).2 ++ List.replicate 64 0) = false) ∧
    (match checks (q 0x30_0000 id) with | .refuse _ k => k == 1 | _ => false) = true ∧
    (match checks ok with
     | .ok v l => v.poolFree 0 && (match v.enterNode Config.cores 0 l with | .ok _ _ => true | _ => false)
     | _ => false) = true ∧
    (let b := (cr.hostBytes (cmdPA 0x30_0001) 64).2
     field b 0 2 ≤ 4095 ∧ field b 2 1 = 0 ∧ allZero b 3 5 = true ∧ allZero b 48 16 = true ∧ cr.cmdHeld 0x30_0001 = false ∧
       cr.writeLocked (cmdPA 0x30_0001) = false ∧ cr.noPushRoom (rangeFrom (cr.fwd (cmdPA 0x30_0001 + 8)) 40) = false ∧ cr.contexts.any (fun c => c.space == field b 0 2) = false) ∧
    held.nodes.any (fun n => n.l.space == leNat (held.hostBytes (cmdPA 0x30_0002) 2).2 && !n.ending) = true ∧
    held.cmdHeld 0x30_0002 = false ∧ gone.nodes.any (fun n => n.l.space == 0 && !n.ending) = false ∧
    gone.contexts.any (fun c => c.space == leNat (gone.hostBytes (cmdPA 0x30_0002) 2).2) = true ∧
    (let full : State := { ok with nodes := List.replicate Config.poolEntries (node0 2 bootLaunch 0) }
     match checks full with | .ok v _ => !v.poolFree 0 | _ => false) = true := by decide +kernel

/-- `Host`, registers: reports, an event for the placed node, and the largest group. -/
theorem test_meets_HostRegisters :
    let s : State := { st 1 false [] with losses := [⟨⟨1, 0⟩, 7, 8⟩] }
    let v : Reg := 0x0000_0001_0000_0005
    let w : Reg := 0x8040_FFFF
    s.powered = true ∧ State.reset.losses = [] ∧ s.losses = [⟨⟨1, 0⟩, 7, 8⟩] ∧ (tm s).id.node = v.toNat / 2 ^ 32 ∧
    s.team? (tm s).id = some (tm s) ∧ (tm s).pinned = true ∧ (s.grp? (tm s).eventGroup).isSome = true ∧
    (∀ t2 ∈ s.teams, t2.id = (tm s).id → t2 = tm s) ∧ fld w.toNat 31 1 = 1 ∧ fld w.toNat 16 7 = 64 ∧ fld w.toNat 10 6 = 63 ∧
    fld v.toNat 31 1 = 0 ∧ fld (0x0040_0000 : Reg).toNat 31 1 = 0 ∧ fld (0x0040_0000 : Reg).toNat 16 7 = 64 ∧
    fld v.toNat 16 7 = 0 ∧ 1 ≤ 64 ∧ 63 < 64 := by decide +kernel

/-- `IboukanRecords`, `PowerAndReset`: a store with room and a full one, a port in error, the last channel of a stack, power on
and off, a division, and the least and greatest ratio. -/
theorem test_meets_Iboukan :
    let s := State.reset
    let keys : State := { s with keys := List.replicate 8 ⟨0, 0, 0⟩ }
    let port : State := { s with portErr := [(3, 15, 1)] }
    let off : State := { s with powered := false }
    let up : BringUp := { image := true, handler := none, badPorts := [(383, 15)], badChans := [383], badRows := [] }
    s.keys.length < 8 ∧ s.keys.all (fun z => z.id != 7) = true ∧ 8 ≤ keys.keys.length ∧
    port.portErr.any (fun z => z.1 == 3 && z.2.1 == 15) = true ∧ s.hasStack 11 = true ∧ 31 < 32 ∧
    s.rootSigned = false ∧ ({ s with rootSigned := true } : State).rootSigned = true ∧
    s.fencemap.contains (11 * 32 + 31) = false ∧ port.badPorts.contains (3, 15) = false ∧ s.storeFails = false ∧
    ({ s with storeFails := true } : State).fenceRecs.contains (11 * 32 + 31) = false ∧
    ({ s with badPorts := [(383, 15)], retired := [383] } : State).badPorts.all (fun p => decide (p.1 < Config.cores) && decide (p.2 < 16)) =
      true ∧ off.powered = false ∧ off.resetting = false ∧ up.image = true ∧ s.powered = true ∧
    dividing [1, 0x3E] = true ∧ s.hasWheel 5 = true ∧ 16 ≤ 16 ∧ 64 ≤ 64 := by decide +kernel
/-! ### A held team's sealed image

The image is longer than a kernel evaluation can sum, so its checksum stands in the state as it is defined. -/

/-- A group in trap mode in a system segment, a held team of node 2, and a cached translation of the first 256 MiB. -/
def ctxBase : State :=
  let s := stTrap (some 0xFFFF) true [(8, 0x20_0000), (9, 1), (10, 2)]
  let s := withCore s (fun c => { c with tlb := [⟨0, 1, 0, 0x63⟩] })
  { s with
    nodes := s.nodes ++ [node0 2 bootLaunch 0]
    teams := s.teams ++ [{ (tm s) with id := ⟨2, 0⟩, loc := .held }] }

/-- The state with some memory. -/
def ctxWith (m : Memory) : State := { ctxBase with mem := m }

/-- The header (R309) of the held team's context part, without its checksum. -/
def ctxMem0 : Memory := Memory.writeN [] 0x20_0000 ([1, 0, 0, 0] ++ leBytes 4 2 ++ leBytes 4 0 ++ [2])

/-- Bytes of memory. -/
def bytesAt (m : Memory) (l : List Nat) : List Byte := l.map m.read

/-- The parts of the image after its first 32 bytes. -/
def ctxRest : List (Nat × Nat) := (splitParts (bootLaunch.ctxLen / 4096 + 2) 0x20_0000 bootLaunch.ctxLen).drop 1

/-- The image but for its checksum. -/
def ctxTail (m : Memory) : List Byte :=
  bytesAt m (rangeFrom 0x20_0020 4064) ++ ctxRest.flatMap (fun p => bytesAt m (rangeFrom p.1 p.2))

/-- The checksum of the image. -/
def ctxSum : List Byte := (sha384 (bytesAt ctxMem0 (rangeFrom 0x20_0000 24) ++ ctxTail ctxMem0)).take 8

/-- The memory with the sealed image. -/
def ctxMem : Memory := ctxMem0.writeN 0x20_0018 ctxSum

theorem ctx_cached (m : Memory) (lv a : Nat) :
    (ctxWith m).cached 0 0 lv a = if lv = 1 ∧ a / 2 ^ 28 = 0 then some 0x63 else none := by
  have h : ((ctxWith m).core 0).tlb = [⟨0, 1, 0, 0x63⟩] := rfl
  unfold State.cached
  rw [h]
  simp only [List.find?_cons, List.find?_nil, beq_self_eq_true, Bool.true_and]
  by_cases h1 : lv = 1
  · subst h1
    have hk : tlbKey 1 a = a / 2 ^ 28 := rfl
    rw [hk]
    by_cases h2 : a / 2 ^ 28 = 0
    · rw [h2]; rfl
    · have : ((0 : Nat) == a / 2 ^ 28) = false := beq_eq_false_iff_ne.mpr (fun e => h2 e.symm)
      rw [this, if_neg (fun e => h2 e.2)]; rfl
  · have : ((1 : Nat) == lv) = false := by simp; omega
    simp [h1, this]

theorem ctx_translate (m : Memory) (a : Nat) (ha : a < 2 ^ 28) (acc : Acc) (hacc : acc = .read ∨ acc = .write) :
    (ctxWith m).translate 0 0 a acc = .ok ⟨a, 0, false, false⟩ := by
  have hs : ¬ (ctxWith m).spcbase.toNat % 2 = 0 := by
    have : (ctxWith m).spcbase = 0x1_0001 := rfl
    rw [this]; decide
  have hd : a / 2 ^ 28 = 0 := Nat.div_eq_of_lt ha
  have hab : (ctxWith m).absent 0 = false := by
    have : (ctxWith m).cap2 = Config.cap2 := rfl
    unfold State.absent State.hasStack
    simp only [this]; decide
  have he : (ctxWith m).entryOf 1 0x63 a acc = .page ⟨0 + a % 2 ^ 28, 0, false, false⟩ := by
    unfold State.entryOf
    rcases hacc with rfl | rfl <;> simp [malformed, fld, levelShift, hab]
  unfold State.translate
  rw [if_neg hs]
  simp only [ctx_cached, hd, and_true]
  simp [State.walkFrom, he]
  simpa using ha

theorem ctx_parts (m : Memory) (l : List (Nat × Nat)) (h : ∀ p ∈ l, p.1 < 2 ^ 28) (acc : Acc)
    (hacc : acc = .read ∨ acc = .write) :
    (ctxWith m).xlatParts 0 0 acc l = .ok (l.map (fun p => ⟨⟨p.1, 0, false, false⟩, p.1, p.2⟩)) := by
  induction l with
  | nil => rfl
  | cons p l ih =>
    unfold State.xlatParts
    rw [ctx_translate m p.1 (h p (by simp)) acc hacc, ih (fun q hq => h q (by simp [hq]))]
    rfl

theorem ctx_read (m : Memory) (l : List (Nat × Nat)) :
    ((ctxWith m).engineRead (l.map (fun p => ⟨⟨p.1, 0, false, false⟩, p.1, p.2⟩))).1 =
      l.flatMap (fun p => bytesAt m (rangeFrom p.1 p.2)) := by
  induction l with
  | nil => rfl
  | cons p l ih =>
    have hr : ∀ a, (ctxWith m).physRead a = m.read a := by
      intro a
      have h1 : (ctxWith m).fwd a = a := rfl
      have h2 : (ctxWith m).bad a = false := by
        have h1 : (ctxWith m).poisoned = [] := rfl
        have h2 : (ctxWith m).fencemap = [] := rfl
        have h3 : (ctxWith m).stale = [] := rfl
        have h4 : (ctxWith m).gone = [] := rfl
        simp [State.bad, State.homeBad, State.fenced, h1, h2, h3, h4]
      unfold State.physRead
      rw [h1, h2]; rfl
    rw [List.map_cons, List.flatMap_cons, ← ih]
    have hc : ∀ (x : Part) (ps : List Part), x.x.poison = false → x.x.memside = false → x.x.attr = 0 →
        ((ctxWith m).engineRead (x :: ps)).1 = (ctxWith m).physReadN x.x.pa x.n ++ ((ctxWith m).engineRead ps).1 := by
      intro x ps h1 h2 h3
      rw [State.engineRead]
      simp [h1, h2, h3]
    rw [hc _ _ rfl rfl rfl]
    congr 1
    exact List.map_congr_left (fun a _ => hr a)

theorem ctx_image (m : Memory) (va n : Nat) (h : ∀ p ∈ splitParts (n / 4096 + 2) (va56 va) n, p.1 < 2 ^ 28) :
    (ctxWith m).readImage 0 0 va n =
      some ((splitParts (n / 4096 + 2) (va56 va) n).flatMap (fun p => bytesAt m (rangeFrom p.1 p.2))) := by
  unfold State.readImage State.xlatElem
  rw [ctx_parts m _ h .read (.inl rfl)]
  simp [ctx_read]

theorem ctx_team (m : Memory) : (ctxWith m).team? ⟨2, 0⟩ = some { (tm ctxBase) with id := ⟨2, 0⟩, loc := .held } := by
  have h : (ctxWith m).teams = ctxBase.teams := rfl
  unfold State.team?
  rw [h]; decide +kernel

theorem ctx_launch (m : Memory) : (ctxWith m).launch? ⟨2, 0⟩ = some bootLaunch := by
  have h : (ctxWith m).nodes = ctxBase.nodes := rfl
  unfold State.launch? State.node?
  rw [h]; decide +kernel

theorem leBytes_length (k n : Nat) : (leBytes k n).length = k := by
  induction k generalizing n with
  | zero => rfl
  | succ k ih => simp [leBytes, ih]

theorem sha384_length (m : List Byte) : (sha384 m).length = 48 := by
  unfold sha384
  generalize shaBlocks _ _ _ = r
  simp [beBytes, leBytes_length]

theorem rangeFrom_append (a m n : Nat) : rangeFrom a (m + n) = rangeFrom a m ++ rangeFrom (a + m) n := by
  simp [rangeFrom, List.range_add, Nat.add_assoc, Function.comp_def]

theorem bytesAt_writeN_self (m : Memory) (a : Nat) (bs : List Byte) (h : Memory.wf m = true) :
    bytesAt (Memory.writeN m a bs) (rangeFrom a bs.length) = bs := by
  induction bs generalizing m a with
  | nil => rfl
  | cons b bs ih =>
    have h1 : rangeFrom a (b :: bs).length = a :: rangeFrom (a + 1) bs.length := by
      rw [List.length_cons, Nat.add_comm, rangeFrom_append]; simp [rangeFrom]
    rw [h1]
    simp only [bytesAt, List.map_cons, Memory.writeN]
    rw [Memory.read_writeN_out bs (Memory.write_wf a b h) (.inl (by omega)), Memory.read_write_self a b h]
    congr 1
    exact ih _ _ (Memory.write_wf a b h)

theorem ctxSum_length : ctxSum.length = 8 := by simp [ctxSum, sha384_length]

theorem bytesAt_ctxMem {l : List Nat} (h : ∀ a ∈ l, a < 0x20_0018 ∨ 0x20_0020 ≤ a) : bytesAt ctxMem l = bytesAt ctxMem0 l := by
  refine List.map_congr_left (fun a ha => Memory.read_writeN_out _ (by decide +kernel) ?_)
  have := h a ha
  rw [ctxSum_length]
  omega

theorem ctxTail_eq : ctxTail ctxMem = ctxTail ctxMem0 := by
  have hr : ∀ p ∈ ctxRest, 0x20_0020 ≤ p.1 := by decide +kernel
  have e1 : bytesAt ctxMem (rangeFrom 0x20_0020 4064) = bytesAt ctxMem0 (rangeFrom 0x20_0020 4064) :=
    bytesAt_ctxMem (fun a ha => by rw [mem_rangeFrom] at ha; omega)
  have e2 : ctxRest.flatMap (fun p => bytesAt ctxMem (rangeFrom p.1 p.2)) =
      ctxRest.flatMap (fun p => bytesAt ctxMem0 (rangeFrom p.1 p.2)) := by
    refine List.flatMap_congr (fun p hp => bytesAt_ctxMem (fun a ha => ?_))
    rw [mem_rangeFrom] at ha
    have := hr p hp
    omega
  rw [ctxTail, ctxTail, e1, e2]

theorem ctx_head : bytesAt ctxMem (rangeFrom 0x20_0000 24) = [1, 0, 0, 0, 2, 0, 0, 0, 0, 0, 0, 0, 2, 0, 0, 0, 0, 0, 0, 0, 0, 0, 0, 0] := by
  rw [bytesAt_ctxMem (fun a ha => by rw [mem_rangeFrom] at ha; omega)]
  decide +kernel

theorem ctx_sum : bytesAt ctxMem (rangeFrom 0x20_0018 8) = ctxSum := by
  have := bytesAt_writeN_self ctxMem0 0x20_0018 ctxSum (by decide +kernel)
  rw [ctxSum_length] at this
  exact this

theorem heldTeam_eq {s : State} {core space va : Nat} {h bs : List Byte} {id : TeamId} {t : Team} {l : Launch}
    (h0 : ¬ va % 4096 ≠ 0) (h1 : s.readImage core space va 32 = some h) (h2 : (⟨field h 4 4, field h 8 4⟩ : TeamId) = id)
    (h3 : s.team? id = some t) (h4 : s.launch? id = some l)
    (h5 : field h 0 1 = 1 ∧ field h 12 1 = 2 ∧ t.loc = .held) (h6 : s.readImage core space va l.ctxLen = some bs)
    (h7 : imageSum bs = (h.drop 24).take 8) : s.heldTeam core space va = some (t, l) := by
  subst h2
  unfold State.heldTeam
  rw [if_neg h0, h1]
  dsimp only
  rw [h4]
  dsimp only
  rw [h3, Option.some_or]
  dsimp only
  rw [if_pos h5, h6]
  dsimp only
  rw [if_pos h7]

theorem ctx_free (m : Memory) : (ctxWith m).vaHeld 0 0 0x20_0000 bootLaunch.ctxLen .write = false := by
  have hc : (ctxWith m).cores.all (fun c => c.silent.isNone) = true := (rfl : _ = ctxBase.cores.all (fun c => c.silent.isNone)).trans (by decide +kernel)
  have hw : ∀ va, (ctxWith m).walkWaits 0 0 va = false := by
    intro va
    have hm : (ctxWith m).migrations = [] := rfl
    simp [State.walkWaits, hm, hc]
  have hl : ∀ pa, (ctxWith m).lineHeld pa = false := by
    intro pa
    have hm : (ctxWith m).migrations = [] := rfl
    have hn : ∀ c ∈ (ctxWith m).cores, c.silent = none := by simpa using hc
    have h2 : (ctxWith m).mute pa = false := by
      rw [State.mute, List.any_eq_false]
      intro c hcm
      simp [hn c hcm]
    simp [State.lineHeld, State.lockedNew, hm, h2]
  unfold State.vaHeld State.xlatElem
  rw [ctx_parts m _ (by decide +kernel) .write (.inr rfl)]
  simp [hw, hl, State.partHeld]

/-- `Contexts`: `CTXLOAD` of the sealed image of a held team. -/
theorem test_meets_CtxLoad :
    let s := ctxWith ctxMem
    s.iss.sys = true ∧ ∃ h l, s.heldTeam 0 0 0x20_0000 = some (h, l) ∧ h.imported = false ∧
      s.vaHeld 0 0 0x20_0000 l.ctxLen .write = false ∧ ∃ s1, s.writeVA 0 0 (va56 (0x20_0000 + 12)) (leBytes 1 1) = .ok s1 := by
  have h32 : rangeFrom 0x20_0000 32 = rangeFrom 0x20_0000 24 ++ rangeFrom 0x20_0018 8 := rangeFrom_append 0x20_0000 24 8
  have h4096 : rangeFrom 0x20_0000 4096 = rangeFrom 0x20_0000 24 ++ rangeFrom 0x20_0018 8 ++ rangeFrom 0x20_0020 4064 := by
    rw [← h32]; exact rangeFrom_append 0x20_0000 32 4064
  have p1 : splitParts (32 / 4096 + 2) (va56 0x20_0000) 32 = [(0x20_0000, 32)] := by decide +kernel
  have p2 : splitParts (bootLaunch.ctxLen / 4096 + 2) (va56 0x20_0000) bootLaunch.ctxLen = (0x20_0000, 4096) :: ctxRest := by
    decide +kernel
  have lo : ∀ p ∈ ctxRest, p.1 < 2 ^ 28 := by decide +kernel
  have r1 := ctx_image ctxMem 0x20_0000 32 (by rw [p1]; decide)
  have r2 := ctx_image ctxMem 0x20_0000 bootLaunch.ctxLen (by
    rw [p2]; intro p hp; rcases List.mem_cons.mp hp with rfl | hp
    · decide
    · exact lo p hp)
  rw [p1] at r1
  rw [p2] at r2
  simp only [List.flatMap_cons, List.flatMap_nil, List.append_nil] at r1 r2
  rw [h32, bytesAt, List.map_append] at r1
  rw [h4096, bytesAt, List.map_append, List.map_append] at r2
  change _ = some (bytesAt ctxMem _ ++ bytesAt ctxMem _) at r1
  change _ = some (bytesAt ctxMem _ ++ bytesAt ctxMem _ ++ bytesAt ctxMem _ ++ _) at r2
  rw [ctx_head, ctx_sum] at r1
  rw [ctx_head, ctx_sum, List.append_assoc] at r2
  change _ = some (_ ++ ctxTail ctxMem) at r2
  rw [ctxTail_eq] at r2
  have hsum : ∀ rest : List Byte, rest = ctxTail ctxMem0 →
      imageSum (([1, 0, 0, 0, 2, 0, 0, 0, 0, 0, 0, 0, 2, 0, 0, 0, 0, 0, 0, 0, 0, 0, 0, 0] ++ ctxSum) ++ rest) = ctxSum := by
    intro rest hrest
    rw [List.append_assoc]
    have h24 : bytesAt ctxMem0 (rangeFrom 0x20_0000 24) =
        [1, 0, 0, 0, 2, 0, 0, 0, 0, 0, 0, 0, 2, 0, 0, 0, 0, 0, 0, 0, 0, 0, 0, 0] := by decide +kernel
    rw [imageSum, List.take_left' (by rfl), show (32 : Nat) = 24 + 8 from rfl, ← List.drop_drop, List.drop_left' (by rfl),
      List.drop_left' ctxSum_length, hrest, ctxSum, h24]
  have f1 : ∀ x : List Byte, (⟨field ([1, 0, 0, 0, 2, 0, 0, 0, 0, 0, 0, 0, 2, 0, 0, 0, 0, 0, 0, 0, 0, 0, 0, 0] ++ x) 4 4,
    field ([1, 0, 0, 0, 2, 0, 0, 0, 0, 0, 0, 0, 2, 0, 0, 0, 0, 0, 0, 0, 0, 0, 0, 0] ++ x) 8 4⟩ : TeamId) = ⟨2, 0⟩ := fun x => rfl
  refine ⟨rfl, { (tm ctxBase) with id := ⟨2, 0⟩, loc := .held }, bootLaunch, ?_, rfl, ctx_free _, ?_⟩
  · exact heldTeam_eq (by decide) r1 (f1 ctxSum) (ctx_team _) (ctx_launch _) ⟨rfl, rfl, rfl⟩ r2
      (by rw [hsum _ rfl, List.drop_left' (by rfl), List.take_of_length_le (Nat.le_of_eq ctxSum_length)])
  · unfold State.writeVA State.xlatElem
    rw [ctx_parts ctxMem _ (by decide +kernel) .write (.inr rfl)]
    exact ⟨_, rfl⟩

/-- `Contexts`, the other hypotheses: outside and inside a system segment, in trap mode or not, a register past 1, a resident team, no
held team at an address, and a save whose parts have all stopped. -/
theorem test_meets_Contexts :
    let u := st 0xFFFF false [(8, 0)]
    let s := stTrap (some 0xFFFF) true [(8, 1), (9, 2), (10, 0x20_0001)]
    let n := stTrap none true [(8, 1)]
    let sv := s.modTeam ⟨1, 0⟩ (fun t => { t with loc := .saving true, saver := some (0, 7) })
    u.EReady (tm u) (gr u) [8] ∧ u.iss.sys = false ∧ s.EReady (tm s) (gr s) [8] ∧ s.EReady (tm s) (gr s) [9] ∧
    n.EReady (tm n) (gr n) [8] ∧ s.iss.sys = true ∧ n.iss.sys = true ∧ (gr n).trapMask = none ∧
    2 ≤ ((gr s).sreg 9).toNat ∧ (gr s).trapMask ≠ none ∧ ((gr s).sreg 8).toNat < 2 ∧ (tm s).loc = .resident ∧
    s.EReady (tm s) (gr s) [10] ∧ s.heldTeam (gr s).core (tm s).space (va56 ((gr s).sreg 10).toNat) = none ∧
    sv.team? ⟨1, 0⟩ = some (tm sv) ∧ sv.launch? ⟨1, 0⟩ = some bootLaunch ∧ (tm sv).loc = .saving true ∧
    (tm sv).saver = some (0, 7) ∧ sv.saveReady (tm sv) 0 = true ∧ (sv.flushTeam (tm sv)).teamUnflushed (tm sv) = false ∧
    (let w : State := { sv with pushq := [⟨[(0, 0)], some 0, true, 0, []⟩] }
     w.saveReady (tm w) 0 = true ∧ (w.flushTeam (tm w)).teamUnflushed (tm w) = true) := by
  unfold State.EReady State.Issues; decide +kernel

/-- `Contexts`: `CTXSAVE` of a team that is quiet and of one whose tag still drains. -/
theorem test_meets_CtxSave :
    let s := stTrap (some 0xFFFF) true [(8, 1)]
    let busy := withLease s [lease0 [rec0 2] [tag0 4 [] none]]
    s.EReady (tm s) (gr s) [8] ∧ s.saveReady (tm s) 0 = true ∧ busy.EReady (tm busy) (gr busy) [8] ∧
    (gr busy).trapMask ≠ none ∧ (tm busy).loc = .resident ∧ busy.iss.sys = true ∧ busy.saveReady (tm busy) 0 = false := by
  unfold State.EReady State.Issues; decide +kernel

/-- `UniformBranches`: a predicate that holds and one that does not; a register of 0 and one that is not 0, and s7. -/
theorem test_meets_UniformBranches :
    let s := st 0xFFFF false [(7, 0x20_0003), (9, 1), (10, 0)]
    let u := s.modGrp gid (fun g => g.onThreads 0xFFFF (fun _ t => { t with p := 0xFF }))
    s.UReady (tm s) (gr s) [] ∧ s.UReady (tm s) (gr s) [7] ∧ s.UReady (tm s) (gr s) [9] ∧ s.UReady (tm s) (gr s) [10] ∧
    u.UReady (tm u) (gr u) [] ∧ (gr s).sreg 9 ≠ 0 ∧ (gr s).sreg 10 = 0 ∧ ((gr s).thread 0).pred 3 = false ∧
    ((gr u).thread 0).pred 3 = true := by
  unfold State.UReady State.Issues; decide +kernel

end Sys2Proof.Tests
end

/-! # The system registers (R61, R306, R307)

What `SYSRD`, `SYSWR` and `CAPQ` come to for a word that is ready, in lemmas of their own, and then the statement. -/

namespace Sys2Proof.Machine

open Sys2Proof

/-! ## How a ready U word ends -/

@[simp] theorem State.finish_done (s u : State) : s.finish (.done u) = .next u := rfl

@[simp] theorem State.finish_notPrivileged (s : State) :
    s.finish s.notPrivileged = .next (s.trapNow (s.wordTrap 2 6 0 0xFF 0)) := rfl

theorem State.UReady.uWord_eq {s : State} {t : Team} {g : Group} {rs : List Nat} (h : s.UReady t g rs)
    (f : Team → Group → Res) : s.uWord rs f = s.finish (f t g) := by
  obtain ⟨⟨ht, hg⟩, hr⟩ := h
  exact State.uWord_eq ht hg hr f

/-! ## `SYSRD` and `CAPQ` -/

section
variable {s : State} {t : Team} {g : Group}

theorem exec_sysrd (h : s.UReady t g []) (d : BitVec 6) (r : BitVec 8) :
    exec (.sysrd d r) s = s.finish (if sysReadPriv r.toNat && !s.iss.sys then s.notPrivileged
      else .done (s.modGrp s.iss.grp (fun x => x.setS d.toNat (s.sysVal t g s.iss.grp.grp r.toNat)))) :=
  h.uWord_eq _

theorem exec_sysrd_permitted (h : s.UReady t g []) (d : BitVec 6) {r : BitVec 8}
    (hp : 3 < r.toNat ∨ s.iss.sys = true) :
    exec (.sysrd d r) s =
      .next (s.modGrp s.iss.grp (fun x => x.setS d.toNat (s.sysVal t g s.iss.grp.grp r.toNat))) := by
  have hn : ¬ (sysReadPriv r.toNat && !s.iss.sys) = true := by
    rcases hp with hr | hs
    · simp [sysReadPriv, hr]
    · simp [hs]
  rw [exec_sysrd h, if_neg hn, State.finish_done]

theorem exec_sysrd_refused (h : s.UReady t g []) (d : BitVec 6) {r : BitVec 8} (hr : r.toNat ≤ 3)
    (hs : s.iss.sys = false) : exec (.sysrd d r) s = .next (s.trapNow (s.wordTrap 2 6 0 0xFF 0)) := by
  have hp : (sysReadPriv r.toNat && !s.iss.sys) = true := by simp [sysReadPriv, hr, hs]
  rw [exec_sysrd h, if_pos hp, State.finish_notPrivileged]

/-- What `CAPQ` reads: the instance word, or a word of the snapshot that the team's space keeps (R10, R358). -/
def State.capWord (s : State) (t : Team) (k : Nat) : Reg :=
  if k = 4 then s.instanceWord
  else (((s.contexts.find? (fun c => c.space == t.space)).map (·.snap)).getD []).getD k 0

theorem exec_capq (h : s.UReady t g []) (d : BitVec 6) (k : Fin 5) :
    exec (.capq d k) s = .next (s.modGrp s.iss.grp (fun x => x.setS d.toNat (s.capWord t k.val))) :=
  h.uWord_eq _

theorem State.capWord_snap {c : Ctx} {k : Nat} (hk : k < 4)
    (hc : s.contexts.find? (fun c => c.space == t.space) = some c) : s.capWord t k = c.snap.getD k 0 := by
  have hne : k ≠ 4 := by omega
  simp only [State.capWord, if_neg hne, hc, Option.map_some, Option.getD_some]

theorem State.capWord_instance (s : State) (t : Team) : s.capWord t 4 = s.instanceWord := rfl

/-! ## `SYSWR` -/

theorem exec_syswr {a : BitVec 6} (h : s.UReady t g [a.toNat]) (r : BitVec 8) :
    exec (.syswr a r) s = s.finish (if sysWritePriv r.toNat && !s.iss.sys then s.notPrivileged
      else .done (s.sysWrite t g r.toNat (g.sreg a.toNat))) :=
  h.uWord_eq _

theorem exec_syswr_refused {a : BitVec 6} (h : s.UReady t g [a.toNat]) {r : BitVec 8}
    (hp : sysWritePriv r.toNat = true) (hs : s.iss.sys = false) :
    exec (.syswr a r) s = .next (s.trapNow (s.wordTrap 2 6 0 0xFF 0)) := by
  simp [exec_syswr h, hp, hs]

theorem exec_syswr_inSystem {a : BitVec 6} (h : s.UReady t g [a.toNat]) (hs : s.iss.sys = true) (r : BitVec 8) :
    exec (.syswr a r) s = .next (s.sysWrite t g r.toNat (g.sreg a.toNat)) := by
  simp [exec_syswr h, hs]

theorem exec_syswr_unprivileged {a : BitVec 6} (h : s.UReady t g [a.toNat]) {r : BitVec 8}
    (hp : sysWritePriv r.toNat = false) :
    exec (.syswr a r) s = .next (s.sysWrite t g r.toNat (g.sreg a.toNat)) := by
  simp [exec_syswr h, hp]

theorem State.sysWrite_counter {r : Nat} (hlo : 0x40 ≤ r) (hhi : r ≤ 0x4C) (v : Reg) :
    s.sysWrite t g r v = s.modWheel (wheelOf g.core)
      (fun x => { x with counters := modAt (fun _ => v.toNat % 2 ^ 48) (r - 0x40) x.counters }) := by
  unfold State.sysWrite
  rw [if_neg (by omega), if_neg (by omega), if_neg (by omega), if_neg (by omega), if_neg (by omega),
    if_neg (by omega), if_pos ⟨hlo, hhi⟩]

/-- A register that is none of those that take a write, the counters among them (R306). -/
def sysWriteIgnored (r : Nat) : Prop :=
  r ∉ [0x09, 0x10, 0x11, 0x12, 0x13, 0x20] ∧ ¬ (0x40 ≤ r ∧ r ≤ 0x4C)

theorem sysWritePriv_of_ignored {r : Nat} (h : sysWriteIgnored r) : sysWritePriv r = false := by
  obtain ⟨hl, hc⟩ := h
  simp only [List.mem_cons, List.not_mem_nil, or_false, not_or] at hl
  simpa [sysWritePriv, hl] using hc

theorem State.sysWrite_ignored {r : Nat} (h : sysWriteIgnored r) (v : Reg) : s.sysWrite t g r v = s := by
  obtain ⟨hl, hc⟩ := h
  simp only [List.mem_cons, List.not_mem_nil, or_false, not_or] at hl
  simp [State.sysWrite, hl, hc]

theorem exec_syswr_ignored {a : BitVec 6} (h : s.UReady t g [a.toNat]) {r : BitVec 8}
    (hr : sysWriteIgnored r.toNat) : exec (.syswr a r) s = .next s := by
  rw [exec_syswr_unprivileged h (sysWritePriv_of_ignored hr), State.sysWrite_ignored hr]

theorem exec_syswr_counter {a : BitVec 6} (h : s.UReady t g [a.toNat]) (hs : s.iss.sys = true) {r : BitVec 8}
    (hlo : 0x40 ≤ r.toNat) (hhi : r.toNat ≤ 0x4C) :
    exec (.syswr a r) s = .next (s.modWheel (wheelOf g.core) (fun x =>
      { x with counters := modAt (fun _ => (g.sreg a.toNat).toNat % 2 ^ 48) (r.toNat - 0x40) x.counters })) := by
  rw [exec_syswr_inSystem h hs, State.sysWrite_counter hlo hhi]

end

/-- Settles O16: the privilege check decides each word once; what it lets through is the register's value or the write's effect. -/
theorem systemRegisters : Obligations.SystemRegisters := by
  unfold Obligations.SystemRegisters
  refine ⟨fun s t g d r h => ⟨exec_sysrd_permitted h d, exec_sysrd_refused h d, fun k => ⟨_, exec_capq h d k, ?_, ?_⟩⟩,
    fun s t g a r h => ⟨exec_syswr_refused h, fun hs => ⟨?fairness, ?mclkratio, ?spcbase, ?staleResp, ?dqbase, ?counter⟩,
      fun hl hc => exec_syswr_ignored h ⟨hl, hc⟩, ?status⟩,
    fun s n v id => ⟨rfl, rfl, rfl, rfl⟩⟩
  · exact fun _ hk hc => State.capWord_snap hk hc
  · intro hk
    rw [hk]
    exact State.capWord_instance s t
  -- inside a system segment each write is its own row of `State.sysWrite`
  case fairness => exact exec_syswr_inSystem h hs 0x09
  case mclkratio => exact exec_syswr_inSystem h hs 0x13
  case spcbase => exact exec_syswr_inSystem h hs 0x10
  case staleResp => exact exec_syswr_inSystem h hs 0x11
  case dqbase => exact exec_syswr_inSystem h hs 0x12
  case counter => exact exec_syswr_counter h hs
  case status => exact exec_syswr_unprivileged h (r := 0x20) rfl

end Sys2Proof.Machine

/-! # Cores, vats and wheels looked up after an update

The lists of cores, vats and wheels are read by number; an update is put back in its place. -/

namespace Sys2Proof.Machine

open Sys2Proof

theorem insCore_find_self (c : Core) (l : List Core) : (insCore c l).find? (fun d => d.num == c.num) = some c := by
  induction l with
  | nil => simp [insCore]
  | cons d l ih =>
    unfold insCore
    split
    · simp
    · next hlt =>
      split
      · simp
      · next hne =>
        have hd : (d.num == c.num) = false := by simpa using Ne.symm hne
        rw [List.find?_cons, hd]
        exact ih

theorem insCore_find_ne {c : Core} {n : Nat} (h : n ≠ c.num) (l : List Core) :
    (insCore c l).find? (fun d => d.num == n) = l.find? (fun d => d.num == n) := by
  have hc : (c.num == n) = false := by simpa using Ne.symm h
  induction l with
  | nil => simp [insCore, hc]
  | cons d l ih =>
    unfold insCore
    split
    · rw [List.find?_cons, hc]
    · split
      · next heq =>
        have hd : (d.num == n) = false := by simpa using heq ▸ Ne.symm h
        rw [List.find?_cons, hc, List.find?_cons, hd]
      · rw [List.find?_cons, List.find?_cons, ih]

theorem insWheel_find_self (w : Wheel) (l : List Wheel) : (insWheel w l).find? (fun d => d.num == w.num) = some w := by
  induction l with
  | nil => simp [insWheel]
  | cons d l ih =>
    unfold insWheel
    split
    · simp
    · split
      · simp
      · next hne =>
        have hd : (d.num == w.num) = false := by simpa using Ne.symm hne
        rw [List.find?_cons, hd]
        exact ih

section
variable (s : State)

/-- A core is listed under its own number. -/
@[simp] theorem State.core_num (n : Nat) : (s.core n).num = n := by
  unfold State.core
  cases h : s.cores.find? (fun c => c.num == n) with
  | none => rfl
  | some c => simpa using List.find?_some h

theorem State.core_setCore_self (c : Core) : (s.setCore c).core c.num = c := by
  unfold State.core State.setCore
  rw [insCore_find_self]
  rfl

theorem State.core_setCore_ne {c : Core} {n : Nat} (h : n ≠ c.num) : (s.setCore c).core n = s.core n := by
  unfold State.core State.setCore
  rw [insCore_find_ne h]

theorem State.core_modCore_self (n : Nat) (f : Core → Core) : (s.modCore n f).core n = { f (s.core n) with num := n } :=
  s.core_setCore_self { f (s.core n) with num := n }

theorem State.core_modCore_ne {n k : Nat} (f : Core → Core) (h : k ≠ n) : (s.modCore n f).core k = s.core k :=
  s.core_setCore_ne (c := { f (s.core n) with num := n }) h

theorem State.wheel_modWheel_self (n : Nat) (f : Wheel → Wheel) :
    (s.modWheel n f).wheel n = { f (s.wheel n) with num := n } := by
  unfold State.wheel State.modWheel
  rw [insWheel_find_self { f (s.wheel n) with num := n }]
  rfl

end

end Sys2Proof.Machine

/-! # Keys, records and errors (R16, R363 to R365, R369, R370)

What each of Iboukan's commands does, a lemma each, and then the statement. -/

namespace Sys2Proof.Machine

open Sys2Proof

section
variable {s : State}

/-! ## Records -/

theorem State.record_made (h : s.storeFails = false) (e : RecEvent) (f : State → State) : s.record e f = f s := by
  simp [State.record, h]

theorem State.record_refused (h : s.storeFails = true) (e : RecEvent) (f : State → State) :
    s.record e f = { s with unrecorded := e :: s.unrecorded } := by
  simp [State.record, h]

/-- Whether the record is made or refused, a fact that neither outcome touches holds of what is left. -/
theorem State.record_ind {P : State → Prop} {e : RecEvent} {f : State → State} (hmade : P (f s))
    (hrefused : P { s with unrecorded := e :: s.unrecorded }) : P (s.record e f) := by
  unfold State.record
  split
  · exact hrefused
  · exact hmade

/-! ## The key store -/

/-- The store with a key added, as it is in force. -/
def State.withKey (s : State) (id x y : Nat) : State := { s with rootSigned := false, keys := s.keys ++ [⟨id, x, y⟩] }

/-- The store without the keys of a name, as it is in force, and the verification results under them. -/
def State.withoutKey (s : State) (id : Nat) : State :=
  { s with rootSigned := false, keys := s.keys.filter (fun k => k.id != id),
           verified := s.verified.filter (fun v => v.key != id) }

theorem exec_keyStoreAdd_room {id : Nat} (x y : Nat) (hs : s.rootSigned = true) (hr : s.keys.length < 8)
    (hn : s.keys.all (fun z => z.id != id) = true) :
    exec (.keyStoreAdd id x y) s = .next ((s.withKey id x y).record (.key id true) (fun s =>
      { s with keyRecs := s.keyRecs.filter (fun k => k.id != id) ++ [⟨id, x, y⟩] })) :=
  congrArg _ (if_pos ⟨hs, hr, hn⟩)

theorem exec_keyStoreAdd_full (id x y : Nat) (hr : 8 ≤ s.keys.length) :
    exec (.keyStoreAdd id x y) s = .next { s with rootSigned := false } :=
  congrArg _ (if_neg fun h => absurd h.2.1 (Nat.not_lt.2 hr))

theorem exec_keyStoreAdd_unsigned (id x y : Nat) (hs : s.rootSigned = false) : exec (.keyStoreAdd id x y) s = .next s := by
  have hsame : { s with rootSigned := false } = s := by rw [← hs]
  exact congrArg _ ((if_neg fun h => by simp [hs] at h).trans hsame)

theorem exec_keyStoreRevoke_signed (id : Nat) (hs : s.rootSigned = true) :
    exec (.keyStoreRevoke id) s = .next ((s.withoutKey id).record (.key id false) (fun s =>
      { s with keyRecs := s.keyRecs.filter (fun k => k.id != id) })) :=
  congrArg _ (if_pos hs)

theorem exec_keyStoreRevoke_unsigned (id : Nat) (hs : s.rootSigned = false) :
    exec (.keyStoreRevoke id) s = .next s :=
  congrArg _ (if_neg (by simp [hs]))

theorem exec_keyStoreAdd_result {id : Nat} (x y : Nat) (hs : s.rootSigned = true) (hr : s.keys.length < 8)
    (hn : s.keys.all (fun z => z.id != id) = true) :
    ∃ s', exec (.keyStoreAdd id x y) s = .next s' ∧ s.SameMem s' ∧ s'.keys = s.keys ++ [⟨id, x, y⟩] ∧
      (s.storeFails = false → ⟨id, x, y⟩ ∈ s'.keyRecs) ∧
      (s.storeFails = true → s'.keyRecs = s.keyRecs ∧ s'.unrecorded = .key id true :: s.unrecorded) := by
  refine ⟨_, exec_keyStoreAdd_room x y hs hr hn, ?_⟩
  cases hf : s.storeFails with
  | false =>
    rw [State.record_made (s := s.withKey id x y) hf]
    exact ⟨fun _ => rfl, rfl, by simp, by simp⟩
  | true =>
    rw [State.record_refused (s := s.withKey id x y) hf]
    exact ⟨fun _ => rfl, rfl, by simp, fun _ => ⟨rfl, rfl⟩⟩

theorem exec_keyStoreRevoke_result (id : Nat) (hs : s.rootSigned = true) :
    ∃ s', exec (.keyStoreRevoke id) s = .next s' ∧ s.SameMem s' ∧ (∀ z ∈ s'.keys, z.id ≠ id) ∧
      (∀ z ∈ s'.verified, z.key ≠ id) ∧ (s.storeFails = false → ∀ z ∈ s'.keyRecs, z.id ≠ id) := by
  refine ⟨_, exec_keyStoreRevoke_signed id hs, ?_⟩
  cases hf : s.storeFails with
  | false =>
    rw [State.record_made (s := s.withoutKey id) hf]
    exact ⟨fun _ => rfl, by simp [State.withoutKey], by simp [State.withoutKey], by simp⟩
  | true =>
    rw [State.record_refused (s := s.withoutKey id) hf]
    exact ⟨fun _ => rfl, by simp [State.withoutKey], by simp [State.withoutKey], by simp⟩

/-! ## Records cleared -/

theorem exec_persistentRecordClear_unsigned (port : Bool) (n k : Nat) (hs : s.rootSigned = false) :
    exec (.persistentRecordClear port n k) s = .next s :=
  congrArg _ (if_pos (by simp [hs]))

theorem exec_persistentRecordClear_port (n k : Nat) (hs : s.rootSigned = true) :
    exec (.persistentRecordClear true n k) s =
      .next { s with rootSigned := false, badPorts := s.badPorts.filter (fun p => decide (p ≠ (n, k))) } :=
  congrArg _ ((if_neg (by simp [hs])).trans (if_pos rfl))

theorem exec_persistentRecordClear_channel (n k : Nat) (hs : s.rootSigned = true) :
    exec (.persistentRecordClear false n k) s =
      .next { s with rootSigned := false, retired := s.retired.filter (fun c => c != n * 32 + k),
                     fenceRecs := s.fenceRecs.filter (fun c => c != n * 32 + k) } :=
  congrArg _ ((if_neg (by simp [hs])).trans (if_neg (by simp)))

/-! ## Failed ports and fenced channels -/

theorem exec_portFailRecord {n k : Nat} (he : s.portErr.any (fun z => z.1 == n && z.2.1 == k) = true)
    (hb : s.badPorts.contains (n, k) = false) :
    exec (.portFailRecord n k) s = .next (if s.storeFails then { s with unrecorded := .port n k :: s.unrecorded }
      else { s with badPorts := s.badPorts ++ [(n, k)] }) :=
  congrArg _ (if_pos (by rw [he, hb]; rfl))

/-- The record of a fenced channel, where there is none yet. -/
def State.recordFence (s : State) (c : Nat) : State :=
  if s.fenceRecs.contains c then s else s.record (.channel c) (fun s => { s with fenceRecs := s.fenceRecs ++ [c] })

theorem State.recordFence_sameMem (c : Nat) : s.SameMem (s.recordFence c) := by
  unfold State.recordFence
  split
  · exact fun _ => rfl
  · exact State.record_ind (P := s.SameMem) (fun _ => rfl) (fun _ => rfl)

theorem State.recordFence_made {c : Nat} (h : s.storeFails = false) : c ∈ (s.recordFence c).fenceRecs := by
  unfold State.recordFence
  split
  · next hc => simpa using hc
  · simp [State.record_made h]

theorem State.recordFence_refused {c : Nat} (h : s.storeFails = true) (hc : s.fenceRecs.contains c = false) :
    (s.recordFence c).unrecorded = .channel c :: s.unrecorded := by
  unfold State.recordFence
  rw [hc, State.record_refused h]
  rfl

theorem exec_channelFence {n k : Nat} (hn : s.hasStack n = true) (hk : k < 32)
    (hf : s.fencemap.contains (n * 32 + k) = false) :
    exec (.channelFence n k) s = .next (State.count { s.recordFence (n * 32 + k) with
      fencemap := (n * 32 + k) :: s.fencemap, msix := 1 :: s.msix } (n / 2) 0x49 1) :=
  congrArg _ (if_pos (by rw [hn, hf, decide_eq_true hk]; rfl))

/-- A byte of a fenced channel reads as uncorrectable (R365). -/
theorem State.bad_of_fenced {a : Nat} (h : s.fenced a = true) : s.bad a = true := by
  unfold State.bad State.homeBad
  split <;> simp [h]

theorem State.fenced_of_fencemap {a c : Nat} (ha : a < hbmTop) (hc : chanOf a = c) (hm : c ∈ s.fencemap) :
    s.fenced a = true := by
  simp [State.fenced, ha, hc, hm]

end

/-- Settles O59: each command is one lemma; what the record's outcome leaves is read off `State.record`. -/
theorem iboukanRecords : Obligations.IboukanRecords := by
  unfold Obligations.IboukanRecords
  intro s id x y n k
  refine ⟨rfl, rfl, exec_keyStoreAdd_result x y, exec_keyStoreAdd_full id x y, exec_keyStoreRevoke_result id,
    fun hs => ⟨exec_keyStoreAdd_unsigned id x y hs, exec_keyStoreRevoke_unsigned id hs,
      fun port => exec_persistentRecordClear_unsigned port n k hs⟩, ?_, ?_, exec_portFailRecord, ?_, rfl, rfl⟩
  · intro hs
    exact ⟨_, exec_persistentRecordClear_port n k hs, by simp, rfl, rfl⟩
  · intro hs
    exact ⟨_, exec_persistentRecordClear_channel n k hs, by simp, by simp, rfl⟩
  · intro hn hk hf
    exact ⟨_, exec_channelFence hn hk hf, State.recordFence_sameMem _, List.mem_cons_self, rfl, State.recordFence_made,
      State.recordFence_refused, fun a ha hc => State.bad_of_fenced (State.fenced_of_fencemap ha hc List.mem_cons_self)⟩

end Sys2Proof.Machine

/-! # Power, division and throttling (R16, R21, R357, R367, R368, R370) -/

namespace Sys2Proof.Machine

open Sys2Proof

/-! ## What bring-up leaves -/

/-- A state that differs from another at most in what is retired and in the events reported as not recorded, and that keeps every
retired channel. -/
def State.RetiresOn (s s' : State) : Prop :=
  s.retired ⊆ s'.retired ∧
  s' = { s with retired := s'.retired, retiredRows := s'.retiredRows, unrecorded := s'.unrecorded }

theorem State.RetiresOn.trans {s s1 s2 : State} (h1 : s.RetiresOn s1) (h2 : s1.RetiresOn s2) : s.RetiresOn s2 := by
  obtain ⟨hr1, he1⟩ := h1
  obtain ⟨hr2, he2⟩ := h2
  refine ⟨List.Subset.trans hr1 hr2, ?_⟩
  rw [he2, he1]

theorem State.RetiresOn.foldl {α : Type} {f : State → α → State} (hf : ∀ (s : State) (x : α), s.RetiresOn (f s x)) (l : List α)
    (s : State) : s.RetiresOn (l.foldl f s) := by
  induction l generalizing s with
  | nil => exact ⟨List.Subset.refl _, rfl⟩
  | cons x l ih => exact (hf s x).trans (ih (f s x))

theorem State.recordRetired_retiresOn (s : State) (chans : List Nat) (rows : List (Nat × Nat)) :
    s.RetiresOn (s.recordRetired chans rows) := by
  have hchan (s : State) (c : Nat) :
      s.RetiresOn (s.record (.channel c) (fun s => { s with retired := s.retired ++ [c] })) :=
    State.record_ind (P := s.RetiresOn) ⟨List.subset_append_left _ _, rfl⟩ ⟨List.Subset.refl _, rfl⟩
  have hrow (s : State) (r : Nat × Nat) :
      s.RetiresOn (s.record (.row r.1 r.2) (fun s => { s with retiredRows := s.retiredRows ++ [r] })) :=
    State.record_ind (P := s.RetiresOn) ⟨List.Subset.refl _, rfl⟩ ⟨List.Subset.refl _, rfl⟩
  exact (State.RetiresOn.foldl hchan chans s).trans (State.RetiresOn.foldl hrow rows _)

/-- What bring-up leaves: what survives a reset, with the cores of the failed ports and what is retired. -/
def State.broughtUp (s : State) (wset : Nat) (up : BringUp) (s1 : State) (gone : List Nat) : State :=
  { s.keep with
    retired := s1.retired, retiredRows := s1.retiredRows, unrecorded := s1.unrecorded, parts := s.parts, gone := gone
    cores := failedCores (s.badPorts ++ up.badPorts), cap2 := cap2Of wset (failedCores (s.badPorts ++ up.badPorts))
    defaultSeg := (up.handler.filter handlerOk).map (fun h => ⟨none, h.1, h.2⟩), powered := true }

theorem State.bringUpAs_eq (s : State) (wset : Nat) (up : BringUp) :
    ∃ s1 gone, s.retired ⊆ s1.retired ∧ s.retired ⊆ gone ∧ s.bringUpAs wset up = s.broughtUp wset up s1 gone := by
  unfold State.bringUpAs
  generalize (up.badChans.filter _).eraseDups = chans, (up.badRows.filter _).eraseDups = rows
  obtain ⟨hsub, heq⟩ := s.keep.recordRetired_retiresOn chans rows
  refine ⟨s.keep.recordRetired chans rows, s.retired ++ chans, hsub, List.subset_append_left _ _, ?_⟩
  dsimp only
  rw [heq]
  rfl

/-! ## Cores with failed ports -/

theorem find_num_map {f : Nat → Core} (hf : ∀ c, (f c).num = c) (l : List Nat) (k : Nat) :
    (l.map f).find? (fun c => c.num == k) = if k ∈ l then some (f k) else none := by
  induction l with
  | nil => rfl
  | cons c l ih =>
    rw [List.map_cons, List.find?_cons, hf, ih]
    by_cases h : c = k
    · simp [h]
    · have hck : (c == k) = false := by simpa using h
      simp [hck, Ne.symm h]

/-- A core of a state that bring-up leaves is as reset makes it but for its failed ports. -/
theorem State.core_failedCores {s : State} {ports : List (Nat × Nat)} (h : s.cores = failedCores ports) (k : Nat) :
    s.core k = if k < Config.cores ∧ ports.any (fun p => p.1 == k) = true then { (Core.reset k) with fail := failBits ports k }
      else Core.reset k := by
  unfold State.core
  rw [h, failedCores, find_num_map fun _ => rfl]
  simp only [List.mem_filter, List.mem_range]
  split <;> rfl

theorem foldl_or_twoPow (l : List (Nat × Nat)) (b : BitVec 16) (k : Nat) :
    (l.foldl (fun b p => b ||| BitVec.twoPow 16 p.2) b).getLsbD k =
      (b.getLsbD k || l.any (fun p => decide (p.2 < 16) && decide (p.2 = k))) := by
  induction l generalizing b with
  | nil => simp
  | cons p l ih => simp [ih, BitVec.getLsbD_twoPow, Bool.or_assoc]

/-- A recorded port of a core is failed there (R17). -/
theorem failBits_of_mem {ports : List (Nat × Nat)} {p : Nat × Nat} (h : p ∈ ports) (hp : p.2 < 16) :
    (failBits ports p.1).getLsbD p.2 = true := by
  unfold failBits
  rw [foldl_or_twoPow]
  have hany : (ports.filter (fun q => q.1 == p.1 && decide (q.2 < 16))).any (fun q => decide (q.2 < 16) && decide (q.2 = p.2)) = true :=
    List.any_eq_true.2 ⟨p, List.mem_filter.2 ⟨h, by simp [hp]⟩, by simp [hp]⟩
  rw [hany, Bool.or_true]

/-! ## The device divided -/

theorem State.wheelList_headD_lt (s : State) : s.wheelList.headD 0 < 6 := by
  cases h : s.wheelList with
  | nil => decide
  | cons w l =>
    have hw : w ∈ s.wheelList := by rw [h]; exact List.mem_cons_self
    exact List.mem_range.1 (List.mem_of_mem_filter hw)

/-- A division has one set with each wheel (R357). -/
theorem dividing_find {sets : List Nat} (h : dividing sets = true) {w : Nat} (hw : w < 6) :
    ∃ wset ∈ sets, wset.testBit w = true ∧ sets.find? (fun x => x.testBit w) = some wset := by
  have hone : (sets.filter (fun x => x.testBit w)).length = 1 := by
    simp only [dividing, Bool.and_eq_true, List.all_eq_true, List.mem_range, beq_iff_eq] at h
    exact h.2 w hw
  cases hf : sets.find? (fun x => x.testBit w) with
  | some wset =>
    have hbit := List.find?_some hf
    exact ⟨wset, List.mem_of_find?_eq_some hf, hbit, rfl⟩
  | none =>
    rw [List.find?_eq_none] at hf
    rw [List.filter_eq_nil_iff.2 hf] at hone
    cases hone

theorem exec_partitionSetup {s : State} {sets : List Nat} (up : BringUp) (hp : s.powered = true)
    (hd : dividing sets = true) : ∃ wset ∈ sets, wset.testBit (s.wheelList.headD 0) = true ∧
      exec (.partitionSetup sets up) s = .next
        (if wset = s.wheelSet then { s with parts := sets } else { s with parts := sets }.bringUpAs wset up) := by
  obtain ⟨wset, hmem, hbit, hfind⟩ := dividing_find hd s.wheelList_headD_lt
  refine ⟨wset, hmem, hbit, congrArg _ ((if_pos (by simp [hp, hd])).trans ?_)⟩
  simp only [hfind, Option.getD_some, hp, Bool.true_and, beq_iff_eq]

/-! ## Throttling -/

theorem State.writeMclk_inRange {ratio : Nat} (s : State) (w : Nat) (hlo : 16 ≤ ratio) (hhi : ratio ≤ 64) :
    s.writeMclk w (BitVec.ofNat 64 ratio) = s.modWheel w (fun x => { x with ratio := ratio, pend := true }) := by
  have hv : (BitVec.ofNat 64 ratio).toNat % 256 = ratio := by
    rw [BitVec.toNat_ofNat]
    omega
  simp only [State.writeMclk, hv, if_pos (And.intro hlo hhi)]

/-- What a throttle event does to its wheel. -/
def Wheel.throttled (w : Wheel) (clk why : Nat) : Wheel :=
  { w with throtEvents := (w.throtEvents + 1) % 2 ^ 32, clk25 := clk % 256, throtReason := Nat.lor w.throtReason (why % 32) }

theorem exec_throttleEvent {s : State} {w ratio : Nat} (clk why : Nat) (hp : s.powered = true) (hw : s.hasWheel w = true)
    (hlo : 16 ≤ ratio) (hhi : ratio ≤ 64) :
    exec (.throttleEvent w clk why ratio) s =
      .next (State.modWheel { (s.modWheel w (fun x => { x with ratio := ratio, pend := true })) with msix := 2 :: s.msix } w
        (·.throttled clk why)) := by
  refine congrArg _ ((if_pos (by simp [hp, hw])).trans ?_)
  simp only [State.writeMclk_inRange s w hlo hhi]
  rfl

theorem testBit_sub_two_pow {n i : Nat} (h : n.testBit i = true) : (n - 2 ^ i).testBit i = false := by
  have hdiv : (n - 2 ^ i) / 2 ^ i = n / 2 ^ i - 1 := by
    simpa using Nat.sub_mul_div n (2 ^ i) 1
  rw [Nat.testBit_eq_decide_div_mod_eq] at h ⊢
  rw [hdiv]
  simp only [decide_eq_true_eq, decide_eq_false_iff_not] at h ⊢
  omega

theorem throttleCauseEnd_clears (s : State) (w why : Nat) : ∃ s', exec (.throttleCauseEnd w why) s = .next s' ∧
    s.SameMem s' ∧ (s'.wheel w).throtReason.testBit why = false := by
  refine ⟨_, rfl, fun _ => rfl, ?_⟩
  rw [State.wheel_modWheel_self]
  dsimp only
  split
  · next h => exact testBit_sub_two_pow h
  · next h => simpa using h

/-- Settles O60: bring-up is what survives a reset, with what is retired and the failed ports' cores beside it. -/
theorem powerAndReset : Obligations.PowerAndReset := by
  unfold Obligations.PowerAndReset
  intro s up sets w clk why ratio
  refine ⟨rfl, ?bringUp, ?partitionReset, exec_partitionSetup up, fun wset => ?left, ?throttle, throttleCauseEnd_clears s w why⟩
  case bringUp =>
    intro hp hr hi
    exact congrArg _ (if_neg (by simp [hp, hr, hi]))
  case partitionReset =>
    intro h
    exact congrArg _ (if_pos (by simpa using h))
  case left =>
    obtain ⟨s1, gone, hret, hgone, heq⟩ := s.bringUpAs_eq wset up
    simp only [heq]
    refine ⟨⟨rfl, rfl, rfl, rfl, rfl, rfl, rfl, rfl, rfl, rfl, rfl, rfl, rfl, rfl, rfl, rfl, rfl, rfl, rfl, rfl, rfl, rfl⟩,
      ⟨rfl, rfl, rfl, rfl, rfl, rfl, rfl⟩, fun _ => ⟨rfl, rfl, rfl, rfl, rfl, rfl, rfl, rfl, rfl, rfl⟩, fun k => ?_,
      fun _ => rfl, rfl, rfl, fun c hc => ⟨hgone hc, hret hc⟩, fun p hp hcore hport => ?_⟩
    · rw [State.core_failedCores rfl]
      split <;> exact ⟨rfl, rfl, rfl, rfl, rfl, rfl, rfl, rfl, rfl, rfl, rfl⟩
    · have hmem : p ∈ s.badPorts ++ up.badPorts := List.mem_append_left _ hp
      rw [State.core_failedCores rfl, if_pos ⟨hcore, List.any_eq_true.2 ⟨p, hmem, by simp⟩⟩]
      exact failBits_of_mem hmem hport
  case throttle =>
    intro hp hw hlo hhi
    refine ⟨_, exec_throttleEvent clk why hp hw hlo hhi, fun _ => rfl, rfl, ?_⟩
    have hwheel : State.wheel { (s.modWheel w (fun x => { x with ratio := ratio, pend := true })) with msix := 2 :: s.msix } w =
        { s.wheel w with ratio := ratio, pend := true, num := w } := State.wheel_modWheel_self s w (fun x => { x with ratio := ratio, pend := true })
    rw [State.wheel_modWheel_self, hwheel]
    exact ⟨rfl, rfl, rfl, rfl⟩

end Sys2Proof.Machine

/-! # Reset (R10 to R14, R124, R140, R186, R199, R296, R354, R355, R364, R368) -/

namespace Sys2Proof.Machine

open Sys2Proof

/-- Reset lists no core, so each is as a core resets. -/
@[simp] theorem State.core_reset (n : Nat) : State.reset.core n = Core.reset n := rfl

/-- Reset lists no wheel, so each is as a wheel resets. -/
@[simp] theorem State.wheel_reset (n : Nat) : State.reset.wheel n = Wheel.reset n := rfl

theorem Wheel.reset_counters_zero (n : Nat) : ∀ k ∈ (Wheel.reset n).counters, k = 0 :=
  fun _ hk => List.eq_of_mem_replicate hk

/-- Memory and the windows list nothing after reset, so they are in canonical form. -/
theorem State.reset_inv : State.reset.Inv := ⟨rfl, fun _ ht => absurd ht List.not_mem_nil⟩

/-- Settles O6: a core and a wheel that reset does not list are as they reset; the registers are `State.reset`'s own fields. -/
theorem resetState : Obligations.ResetState := by
  unfold Obligations.ResetState
  refine ⟨State.reset_inv, fun n => ?core, fun n => ?wheel,
    rfl, rfl, rfl, rfl, rfl, rfl, rfl, rfl, rfl, rfl, rfl, rfl, rfl⟩
  case core =>
    rw [State.core_reset]
    exact ⟨rfl, rfl, rfl, rfl, rfl, rfl⟩
  case wheel =>
    rw [State.wheel_reset]
    exact ⟨rfl, rfl, rfl, rfl, Wheel.reset_counters_zero n⟩

end Sys2Proof.Machine

/-! # A step and the word that it runs

`Obligations.StepRunsDecoded` moves the PCs of each listed team's own threads at the word, where the step moves those of the
path that it has found in the team of that name (`State.team?`, the first of the list). The two differ in a state that lists
two teams of one name, which no hypothesis of the statement excludes. -/

namespace Sys2Proof.Machine

open Sys2Proof

/-- The only group of both teams. -/
def twinGid : GrpId := ⟨⟨1, 0⟩, 0⟩

/-- A packet of three `NOP`s, at the boot address. -/
def twinPacket : Packet := { addr := BitVec.ofNat 56 bootCode, w0 := 0, w1 := 0, w2 := 0, lit := 0, sys := false }

/-- A group of 16 threads at the first word of the packet, thread 0 in a given state. -/
def twinGroup (x : ThreadSt) : Group :=
  let g := Group.fresh 0 0 16 96 twinPacket.addr [0, 1, 0, 0, 16384, 0] 0
  { g with packet := some twinPacket, threads := modAt (fun th => { th with st := x }) 0 g.threads }

/-- A team of that group alone. -/
def twinTeam (x : ThreadSt) : Team := Team.fresh twinGid.team 0 false 0 [twinGroup x] 16384 [(0, 19)] false 0

/-- Two teams of one name: thread 0 of the first has exited, that of the second stands at the word. -/
def twins : State := { State.reset with sched := [.group twinGid], teams := [twinTeam .exited, twinTeam .runnable] }

/-- The twins as the path enters the word, by the statement's reading. -/
def twinsEntered : State :=
  State.modGrp { twins with sched := [] } twinGid (fun x =>
    { (x.killOn ((twinGroup .exited).pathAt twinPacket.addr)) with lastMask := (twinGroup .exited).pathAt twinPacket.addr })

/-- The twins as the word is run, by the statement's reading: the second team's thread 0 has moved past the word too. -/
def twinsMoved : State :=
  { (twinsEntered.modGrp twinGid (fun g => g.onThreads (g.pathAt twinPacket.addr) (fun _ t => { t with pc := twinPacket.after 0 }))) with
    iss := twinPacket.issue twinGid ((twinGroup .exited).pathAt twinPacket.addr) 0 0 }

/-- The PC of thread 0 of the second team that the next state lists. -/
def secondTeamPC : Host.Outcome State Fault Refusal → Option VAddr
  | .next s => ((s.teams[1]?.bind (·.groups[0]?)).bind (·.threads[0]?)).map (·.pc)
  | _ => none

/-- `NOP` changes nothing, whoever issues it (R77). -/
theorem exec_nop (s : State) : exec .nop s = .next s := by
  have hword : exec .nop s = s.asWord (fun _ _ => .done s) := rfl
  rw [hword, State.asWord]
  split <;> rfl

/-- Refutes O4: of two teams of one name the step moves the second one's threads as the first one's path, so that its thread 0
stays at the word; the statement moves it past. -/
theorem not_stepRunsDecoded : ¬ Obligations.StepRunsDecoded := by
  unfold Obligations.StepRunsDecoded
  intro h
  have hstep := h twins twinsEntered twinsMoved twinGid [] (twinTeam .exited) (twinGroup .exited) twinPacket.addr twinPacket .nop
    rfl rfl rfl rfl rfl rfl rfl (fun _ hr => absurd hr List.not_mem_nil) rfl (by decide) (by decide) (by decide +kernel)
    (.inl ⟨rfl, by decide, by rw [if_neg (by decide)]; rfl⟩) (by decide) (by decide +kernel) (by decide) (exec_nop twinsMoved) rfl rfl
  have hpc := congrArg secondTeamPC hstep
  revert hpc
  decide +kernel

end Sys2Proof.Machine

/-! # A dead agent and its teams

`Obligations.Homes` says that no listed team that is pinned and not lost has a group on the dead core. The end of a team
finds it by its name (`State.team?`, the first of the list), so that of two teams of one name the second one may stay; no
hypothesis of the statement excludes such a state. -/

namespace Sys2Proof.Machine

open Sys2Proof

/-- A team of one group on core 0, which it has not left. -/
def pinnedTeam : Team := Team.fresh ⟨1, 0⟩ 0 false 0 [Group.fresh 0 0 16 96 0 [0, 0, 0, 0, 0, 0] 0] 0 [] false 0

/-- Core 0 has been silent for 2^20 cycles of the home of wheel 0; the first team of two of one name has ended and been reported. -/
def silentCore : State :=
  State.modCore { State.reset with cycle := 2 ^ 20, teams := [{ pinnedTeam with lost := true }, pinnedTeam] } 0
    (fun c => { c with silent := some (0, 0) })

/-- Whether the second of the next state's teams still runs on core 0. -/
def secondTeamOnCore0 : Host.Outcome State Fault Refusal → Bool
  | .next s => s.teams.any (fun t => t.pinned && !t.lost && t.groups.any (fun g => g.core == 0))
  | _ => false

/-- A team that runs on core 0 is there for the statement to speak of, and it is none that ends. -/
theorem team_on_core0_stays : secondTeamOnCore0 (exec (.deadAgentDeclared 0) silentCore) = true := by
  decide +kernel

/-- Refutes O56: of two teams of one name of which the first has ended, the second one is not found and stays on the dead core. -/
theorem not_homes : ¬ Obligations.Homes := by
  unfold Obligations.Homes
  intro h
  obtain ⟨-, hsince⟩ := h.2 silentCore 0 (by decide) (by decide +kernel) (by decide +kernel)
  obtain ⟨s', hexec, -, -, -, -, -, hteams, -⟩ := (hsince 0 0 (by decide +kernel)).2 (by decide +kernel)
  have hstay := team_on_core0_stays
  rw [hexec] at hstay
  simp only [secondTeamOnCore0, List.any_eq_true, Bool.and_eq_true, Bool.not_eq_true', beq_iff_eq] at hstay
  obtain ⟨t, ht, ⟨hpinned, hlost⟩, g, hg, hcore⟩ := hstay
  exact hteams t ht hpinned hlost g hg hcore

end Sys2Proof.Machine

/-! # What the operations of homes may change

A home's operation changes memory, what the caches hold and the waits that watch the bytes, and nothing else of the device. Of a
core it leaves the translations as they are, and a `SELFINV` byte at most loses stores; of a migration it changes the held writes
only. The relation `AtHomes` says so once, and holds of every operation. -/

namespace Sys2Proof.Machine

open Sys2Proof

/-- A relation that every step of a fold keeps holds from its start to its end. -/
theorem foldl_related {α β : Type} {R : α → α → Prop} (refl : ∀ a, R a a) (trans : ∀ {a b c}, R a b → R b c → R a c)
    {f : α → β → α} (step : ∀ a x, R a (f a x)) (l : List β) (a : α) : R a (l.foldl f a) := by
  induction l generalizing a with
  | nil => exact refl a
  | cons x l ih => exact trans (step a x) (ih (f a x))

/-- What homes may change of a state, taken from another. -/
def State.withHomes (s r : State) : State :=
  { s with
    mem := r.mem, stale := r.stale, poisoned := r.poisoned, dirtyBad := r.dirtyBad, pushq := r.pushq, causal := r.causal,
    teams := r.teams, cores := r.cores, wheels := r.wheels, regions := r.regions, flights := r.flights, fresh := r.fresh,
    verified := r.verified, migrations := r.migrations, snoops := r.snoops }

/-- A migration without the writes that it holds. -/
def Migration.unheld (m : Migration) : Migration := { m with held := [] }

/-- A core keeps its translations, and its `SELFINV` bytes at most lose stores. -/
def Core.Sheds (c d : Core) : Prop :=
  d.tlb = c.tlb ∧ ∀ b ∈ d.self, ∃ a ∈ c.self, a.pa = b.pa ∧ ∀ x ∈ b.stores, x ∈ a.stores

theorem Core.Sheds.refl (c : Core) : c.Sheds c := ⟨rfl, fun b hb => ⟨b, hb, rfl, fun _ hx => hx⟩⟩

theorem Core.Sheds.trans {c d e : Core} (h1 : c.Sheds d) (h2 : d.Sheds e) : c.Sheds e := by
  refine ⟨h2.1.trans h1.1, fun b hb => ?_⟩
  obtain ⟨a, ha, hpa, hst⟩ := h2.2 b hb
  obtain ⟨a', ha', hpa', hst'⟩ := h1.2 a ha
  exact ⟨a', ha', hpa'.trans hpa, fun x hx => hst' x (hst x hx)⟩

theorem Core.Sheds.of_filter (c : Core) (p : SelfByte → Bool) : c.Sheds { c with self := c.self.filter p } :=
  ⟨rfl, fun b hb => ⟨b, List.mem_of_mem_filter hb, rfl, fun _ hx => hx⟩⟩

theorem Core.Sheds.of_stores_filter (c : Core) (p : SelfStore → Bool) :
    c.Sheds { c with self := c.self.map (fun b => { b with stores := b.stores.filter p }) } := by
  refine ⟨rfl, fun b hb => ?_⟩
  obtain ⟨a, ha, rfl⟩ := List.mem_map.1 hb
  exact ⟨a, ha, rfl, fun x hx => List.mem_of_mem_filter hx⟩

/-- From one state to another homes have worked, and nothing else. -/
structure AtHomes (s s' : State) : Prop where
  rest : s'.withHomes s = s
  core : ∀ n, (s.core n).Sheds (s'.core n)
  migr : s'.migrations.map Migration.unheld = s.migrations.map Migration.unheld

namespace AtHomes

theorem refl (s : State) : AtHomes s s := ⟨rfl, fun _ => .refl _, rfl⟩

theorem trans {s s' s'' : State} (h1 : AtHomes s s') (h2 : AtHomes s' s'') : AtHomes s s'' where
  rest := by
    have h : s''.withHomes s = (s''.withHomes s').withHomes s := rfl
    rw [h, h2.rest, h1.rest]
  core n := (h1.core n).trans (h2.core n)
  migr := h2.migr.trans h1.migr

/-- What homes do not change of a state is as before. -/
theorem keep {s s' : State} (h : AtHomes s s') {α : Type} (p : State → α) (hp : ∀ a r : State, p (a.withHomes r) = p a) : p s' = p s := by
  rw [← h.rest, hp]

/-- Where neither a core nor a migration changes, only the rest has to be the same. -/
theorem of_rest {s s' : State} (hc : s'.cores = s.cores) (hm : s'.migrations = s.migrations) (h : s'.withHomes s = s) :
    AtHomes s s' where
  rest := h
  core n := by
    have hn : s'.core n = s.core n := by unfold State.core; rw [hc]
    exact hn ▸ .refl _
  migr := by rw [hm]

theorem foldl {β : Type} {f : State → β → State} (step : ∀ s x, AtHomes s (f s x)) (l : List β) (s : State) :
    AtHomes s (l.foldl f s) :=
  foldl_related (R := AtHomes) refl trans step l s

/-- Every core changed in the same way. -/
theorem map_cores (s : State) {f : Core → Core} (hn : ∀ c : Core, (f c).num = c.num) (h : ∀ c : Core, c.Sheds (f c)) :
    AtHomes s { s with cores := s.cores.map f } where
  rest := rfl
  core n := by
    have hf : (s.cores.map f).find? (fun c => c.num == n) = (s.cores.find? (fun c => c.num == n)).map f := by
      rw [List.find?_map]
      exact congrArg (Option.map f) (congrArg (s.cores.find? ·) (funext fun c => by simp [hn]))
    unfold State.core
    rw [hf]
    cases s.cores.find? (fun c => c.num == n) with
    | none => exact .refl _
    | some c => exact h c
  migr := rfl

/-- One core changed. -/
theorem modCore (s : State) (n : Nat) {f : Core → Core} (h : (s.core n).Sheds (f (s.core n))) : AtHomes s (s.modCore n f) where
  rest := rfl
  core k := by
    by_cases hk : k = n
    · subst hk
      rw [State.core_modCore_self]
      exact h
    · rw [State.core_modCore_ne s f hk]
      exact .refl _
  migr := rfl

theorem modTeam (s : State) (id : TeamId) (f : Team → Team) : AtHomes s (s.modTeam id f) := of_rest rfl rfl rfl

theorem count (s : State) (w reg n : Nat) : AtHomes s (s.count w reg n) := of_rest rfl rfl rfl

theorem countBad (s : State) (pa : Nat) : AtHomes s (s.countBad pa) := (count s _ _ _).trans (count _ _ _ _)

theorem giveBack (s : State) (p : Nat × Byte × Nat → Bool) : AtHomes s (s.giveBack p) := by
  unfold State.giveBack
  extract_lets out lost isLost s1
  have h1 : AtHomes s s1 := of_rest rfl rfl rfl
  exact h1.trans (foldl (fun s _ => count s _ _ _) _ s1)

/-- Tags alone go from the cores. -/
theorem drop_tags (s : State) {f : Core → List L1Line} : AtHomes s { s with cores := s.cores.map (fun c => { c with tags := f c }) } :=
  map_cores s (fun _ => rfl) (fun c => ⟨rfl, (Core.Sheds.refl c).2⟩)

theorem recallLine (s : State) (pa : Nat) : AtHomes s (s.recallLine pa) := (giveBack s _).trans (drop_tags _)

theorem putRegions (s : State) (pa : Nat) (rs : List Region) : AtHomes s (s.putRegions pa rs) := of_rest rfl rfl rfl

theorem regionDrop (s : State) (r : Region) (core : Option Nat) : AtHomes s (s.regionDrop r core) := by
  refine (giveBack s _).trans (map_cores _ (fun c => ?_) (fun c => ?_))
  · split <;> rfl
  · split
    · exact ⟨rfl, (Core.Sheds.refl c).2⟩
    · exact .refl c

theorem recallAll (s : State) (pa : Nat) : AtHomes s (s.recallAll pa) := by
  unfold State.recallAll
  refine AtHomes.trans ?_ (recallLine _ pa)
  split
  · exact (regionDrop s _ _).trans (putRegions _ _ _)
  · exact refl s

theorem unverify (s : State) (pa : Nat) : AtHomes s (s.unverify pa) := by
  unfold State.unverify
  split
  · exact refl s
  · exact of_rest rfl rfl rfl

theorem homePut (s : State) (pa : Nat) (v : Byte) : AtHomes s (s.homePut pa v) := by
  unfold State.homePut
  split
  · exact refl s
  · refine (unverify s pa).trans ?_
    extract_lets
    split <;> exact of_rest rfl rfl rfl

theorem putCells (s : State) (attr : Nat) (cells : List (Nat × Byte)) : AtHomes s (s.putCells attr cells) := by
  induction cells generalizing s with
  | nil => exact refl s
  | cons c cs ih => exact (homePut s _ _).trans (ih _)

theorem noticed (s : State) (pas : List Nat) : AtHomes s (s.noticed pas) := by
  unfold State.noticed
  split
  · exact of_rest rfl rfl rfl
  · exact refl s

theorem pushesAt (s : State) (after pas : List Nat) : AtHomes s (s.pushesAt after pas) := by
  refine foldl (fun s x => ?_) _ _
  split
  · extract_lets fl bad s1
    have h1 : AtHomes s s1 := of_rest rfl rfl rfl
    split
    · exact (h1.trans (countBad s1 x.pa)).trans (modTeam _ _ _)
    · exact h1
  · exact refl s

theorem wrote (s : State) (after pas : List Nat) : AtHomes s (s.wrote after pas) := by
  unfold State.wrote
  extract_lets behind s1 ids
  have h1 : AtHomes s s1 := pushesAt s behind pas
  split
  · exact h1
  · exact h1.trans (of_rest rfl rfl rfl)

theorem perform (s : State) (h : HeldWrite) : AtHomes s (s.perform h) := by
  unfold State.perform
  extract_lets s0 s1
  have h0 : AtHomes s s0 := by
    unfold s0
    split
    · cases h.cells with
      | nil => exact refl s
      | cons c cs => exact recallAll s _
    · exact refl s
  have h1 : AtHomes s s1 := (h0.trans (putCells _ _ _)).trans (noticed _ _)
  split
  · exact h1.trans (wrote _ _ _)
  · exact h1

theorem holdWrite (s : State) (h : HeldWrite) (pa : Nat) : AtHomes s (s.holdWrite h pa) where
  rest := rfl
  core _ := .refl _
  migr := by
    unfold State.holdWrite
    rw [List.map_map]
    refine List.map_congr_left (fun m _ => ?_)
    rw [Function.comp]
    split <;> rfl

theorem sendSnoop (s : State) (line : Nat) : AtHomes s (s.sendSnoop line) := by
  unfold State.sendSnoop
  split
  · exact refl s
  · exact of_rest rfl rfl rfl

theorem snoopWrite (s : State) (h : HeldWrite) (line : Nat) : AtHomes s (s.snoopWrite h line) :=
  (sendSnoop s line).trans (of_rest rfl rfl rfl)

theorem writeLine (s : State) (h : HeldWrite) : AtHomes s (s.writeLine h) := by
  unfold State.writeLine
  split
  · exact refl s
  · extract_lets p
    split
    · exact count s _ _ _
    · split
      · exact holdWrite s h _
      · split
        · exact snoopWrite s h _
        · split
          · exact of_rest rfl rfl rfl
          · exact perform s h

theorem writeCells (s : State) (core : Option Nat) (attr : Nat) (push : Bool) (cells : List (Nat × Byte)) :
    AtHomes s (s.writeCells core attr push cells) :=
  foldl (fun s _ => writeLine s _) _ s

theorem homeWriteN (s : State) (attr pa : Nat) (bs : List Byte) : AtHomes s (s.homeWriteN attr pa bs) := writeCells s _ _ _ _

theorem selfOut (s : State) (core line : Nat) (ids : List Nat) : AtHomes s (s.selfOut core line ids) := by
  induction ids generalizing s with
  | nil => exact refl s
  | cons id ids ih =>
    unfold State.selfOut
    extract_lets mine cells s1
    split
    · exact refl s
    · have h1 : AtHomes s s1 := modCore s core (Core.Sheds.of_stores_filter _ _)
      exact (h1.trans (writeLine _ _)).trans (ih _)

theorem writeBack (s : State) (core line : Nat) : AtHomes s (s.writeBack core line) := by
  unfold State.writeBack
  extract_lets s0 lost s1
  have h0 : AtHomes s s0 := giveBack s _
  have h1 : AtHomes s0 s1 := by
    unfold s1
    split
    · exact (modCore _ _ (Core.Sheds.of_filter _ _)).trans (count _ _ _ _)
    · exact refl _
  exact (h0.trans h1).trans (selfOut _ _ _ _)

theorem cleanCore (s : State) (core : Nat) : AtHomes s (s.cleanCore core) := foldl (fun s l => writeBack s core l) _ s

theorem relSelf (s : State) (core : Nat) : AtHomes s (s.relSelf core) := foldl (fun s l => writeBack s core l) _ s

theorem relScope (s : State) (core sc : Nat) (paired : Bool) : AtHomes s (s.relScope core sc paired) := by
  unfold State.relScope
  split
  · exact relSelf s core
  · exact refl s

end AtHomes

end Sys2Proof.Machine

/-! # The host's commands and registers -/

namespace Sys2Proof.Machine

open Sys2Proof

section
variable {s : State} {v : Reg} {rest : List Reg}

/-- The oldest command is taken up by the word for its code, where the device is powered. -/
theorem State.headCmd_of_hostq {ok : Nat → Bool} (hq : s.hostq = v :: rest) (hp : s.powered = true) (hok : ok (v.toNat % 8) = true) :
    s.headCmd ok = some v := by
  simp [State.headCmd, hq, hp, hok]

/-- The bytes that the host reads are counted at most. -/
theorem AtHomes.hostBytes (s : State) (pa n : Nat) : AtHomes s (s.hostBytes pa n).1 := by
  unfold State.hostBytes
  dsimp only
  split
  · exact countBad s _
  · exact refl s

theorem execLaunchReservedCmd_eq (h : s.headCmd (fun c => decide (3 ≤ c)) = some v) :
    exec .launchReservedCmd s = .next (s.complete stRejected 1 0) := by
  have hexec : exec .launchReservedCmd s = execLaunchReservedCmd s := rfl
  rw [hexec, execLaunchReservedCmd, h]

theorem execLaunch_no_wheel (h : s.headCmd (· == 0) = some v) (hw : s.hasWheel (fld v.toNat 3 3) = false) :
    exec .launch s = .next (s.complete stRejected 1 0) := by
  have hexec : exec .launch s = execLaunch s := rfl
  simp [hexec, execLaunch, h, hw]

/-- The record of a launch, in one block or two, as the host reads it: the state after it, and its bytes. -/
def State.launchBlock (s : State) (pa : Nat) : State × List Byte :=
  let r := s.hostBytes pa 64
  let r2 := if field r.2 0 2 = 2 then r.1.hostBytes (pa + 64) 64 else (r.1, List.replicate 64 0)
  (r2.1, r.2 ++ r2.2)

/-- A launch whose block can be read is checked. -/
theorem execLaunch_checked (h : s.headCmd (· == 0) = some v) (hw : s.hasWheel (fld v.toNat 3 3) = true)
    (ha : s.absent (cmdPA v) = false) (hc : s.cmdHeld v = false)
    (hl : s.launchHeld (Config.cores + fld v.toNat 3 3) (s.launchBlock (cmdPA v)).2 = false) :
    exec .launch s = .next (match (s.launchBlock (cmdPA v)).1.checkLaunch hostIssuer (Config.cores + fld v.toNat 3 3)
        (s.launchBlock (cmdPA v)).2 with
      | .refuse s k => s.complete stRejected k 0
      | .fault s _ _ => s.complete stRejected 14 0
      | .ok s1 l => s.hostEnter s1 (fld v.toNat 3 3) l) := by
  have hexec : exec .launch s = execLaunch s := rfl
  rw [hexec, execLaunch, h]
  exact congrArg _ ((if_neg (by simp [hw])).trans ((if_neg (ne_true_of_eq_false ha)).trans
    ((if_neg (ne_true_of_eq_false hc)).trans (if_neg (ne_true_of_eq_false hl)))))

/-- A launch that has passed its checks finds its pool full, or enters it. -/
theorem hostEnter_full {s0 s : State} {wheel : Nat} {l : Launch} (h : s.poolFree wheel = false) :
    s0.hostEnter s wheel l = s.complete stBusy 0 0 := by
  simp [State.hostEnter, h]

theorem hostEnter_ok {s0 s s2 : State} {wheel id : Nat} {l : Launch} (h : s.poolFree wheel = true)
    (he : s.enterNode (Config.cores + wheel) wheel l = .ok s2 id) : s0.hostEnter s wheel l = s2.complete stOk 0 id := by
  simp [State.hostEnter, h, he]

/-- The nodes of a space stand in the way of its context's end. -/
def State.spaceInUse (s : State) (space : Nat) : Bool := s.nodes.any (fun n => n.l.space == space && !n.ending)

/-- `DESTROY` of a block that can be read, by whether a node uses the space and whether the space has a context. -/
theorem execDestroy_eq (h : s.headCmd (· == 2) = some v) (ha : s.absent (cmdPA v) = false) (hc : s.cmdHeld v = false) :
    let s0 := (s.hostBytes (cmdPA v) 2).1
    let space := leNat (s.hostBytes (cmdPA v) 2).2
    exec .destroy s = .next (if s.spaceInUse space then s0.complete stBusy 0 0
      else if !(s.contexts.any (fun c => c.space == space)) then s0.complete stRejected 13 0
      else { s0 with contexts := s0.contexts.filter (fun c => c.space != space) }.complete stOk 0 0) := by
  intro s0 space
  have hexec : exec .destroy s = execDestroy s := rfl
  have hnodes : s0.nodes = s.nodes := (AtHomes.hostBytes s _ _).keep State.nodes (fun _ _ => rfl)
  have hctx : s0.contexts = s.contexts := (AtHomes.hostBytes s _ _).keep State.contexts (fun _ _ => rfl)
  rw [hexec, execDestroy, h, State.spaceInUse, ← hnodes, ← hctx]
  exact congrArg _ ((if_neg (ne_true_of_eq_false ha)).trans (if_neg (ne_true_of_eq_false hc)))

/-- A space gets a context with a live snapshot. -/
def State.withContext (s : State) (space : Nat) : State :=
  { s with contexts := s.contexts ++ [⟨space, [s.cap0, s.cap1, s.cap2, s.cap3]⟩] }

/-- `CREATE` of a well-formed block for a live snapshot, of a space without a context. -/
theorem execCreate_live (h : s.headCmd (· == 1) = some v) (ha : s.absent (cmdPA v) = false) (hc : s.cmdHeld v = false)
    (hw : s.writeLocked (cmdPA v) = false) (hroom : s.noPushRoom (rangeFrom (s.fwd (cmdPA v + 8)) 40) = false)
    {s0 : State} {b : List Byte} (hb : s.hostBytes (cmdPA v) 64 = (s0, b)) (hspace : field b 0 2 ≤ 4095) (himp : field b 2 1 = 0)
    (hz : allZero b 3 5 = true) (hz2 : allZero b 48 16 = true) (hctx : s0.contexts.any (fun c => c.space == field b 0 2) = false) :
    ∃ bytes, exec .create s =
      .next (((s0.withContext (field b 0 2)).homeWriteN 0 (cmdPA v + 8) bytes).complete stOk 0 0) := by
  have hexec : exec .create s = execCreate s := rfl
  have hhost : s.hostHeld (cmdPA v) = false := by
    simp only [State.writeLocked, Bool.or_eq_false_iff] at hw
    exact hw.1.2
  have hbad : (decide (4095 < field b 0 2) || decide (1 < field b 2 1) || !allZero b 3 5 || !allZero b 48 16) = false := by
    simp [hspace, himp, hz, hz2]
  have hlive : ¬ field b 2 1 = 1 := by omega
  have hnow (given : List Reg) :
      { s0 with contexts := s0.contexts ++ [⟨field b 0 2, if field b 2 1 = 1 then given else [s0.cap0, s0.cap1, s0.cap2, s0.cap3]⟩] } =
        s0.withContext (field b 0 2) := by
    rw [if_neg hlive]
    rfl
  rw [hexec, execCreate, h]
  dsimp only
  rw [hb]
  refine ⟨_, congrArg _ ((if_neg (ne_true_of_eq_false ha)).trans ((if_neg (ne_true_of_eq_false hc)).trans
    ((if_neg (ne_true_of_eq_false hbad)).trans ((if_neg (ne_true_of_eq_false hctx)).trans ((if_neg (by simp [hlive])).trans
    ((if_neg (ne_true_of_eq_false hhost)).trans ((if_neg (by simp [hw, hroom])).trans
    (congrArg (fun n => (State.homeWriteN n 0 (cmdPA v + 8) _).complete stOk 0 0) (hnow _)))))))))⟩

end

/-! ## Events (R357) -/

/-- A team of a node takes an event: at once where it is resident, at its restore where it is saved. -/
def State.eventTo (aux : Nat) (s : State) (t : Team) : State :=
  if t.pinned then s.modGrp t.eventGroup (fun g => g.pend (outerTrap 15 aux))
  else s.modTeam t.id (fun t => { t with events := t.events ++ [aux] })

theorem execHeventWrite_eq (s : State) (v : Reg) :
    exec (.heventWrite v) s = .next ((s.teams.filter (fun t => t.id.node == v.toNat / 2 ^ 32)).foldl
      (State.eventTo (v.toNat % 2 ^ 32)) s) := rfl

theorem State.eventTo_mem (aux : Nat) (s : State) (t : Team) : (s.eventTo aux t).mem = s.mem := by
  unfold State.eventTo
  split <;> rfl

/-- Two traps that are one have one cause, and so has what they become. -/
theorem Trap.join_cause {x y : Trap} (h : x.shares y = true) : (y.join x).cause = x.cause ∧ y.cause = x.cause := by
  simp only [Trap.shares, Bool.and_eq_true, beq_iff_eq] at h
  unfold Trap.join
  split
  · exact ⟨rfl, h.1.symm⟩
  · exact ⟨h.1.symm, h.1.symm⟩

/-- A trap that is added is pending, by itself or as one of its cause that was pending before. -/
theorem Group.pend_cause (g : Group) (x : Trap) : ∃ y ∈ (g.pend x).traps, y.cause = x.cause := by
  unfold Group.pend
  split
  · next h =>
    obtain ⟨y, hy, hshare⟩ := List.any_eq_true.1 h
    exact ⟨y.join x, List.mem_map.2 ⟨y, hy, if_pos hshare⟩, (Trap.join_cause hshare).1⟩
  · exact ⟨x, by simp, rfl⟩

/-- A pending trap stays pending when another is added. -/
theorem Group.pend_keeps {g : Group} {c : Nat} (x : Trap) (h : ∃ y ∈ g.traps, y.cause = c) : ∃ y ∈ (g.pend x).traps, y.cause = c := by
  obtain ⟨y, hy, hc⟩ := h
  unfold Group.pend
  split
  · refine ⟨_, List.mem_map.2 ⟨y, hy, rfl⟩, ?_⟩
    split
    · next hshare => rw [(Trap.join_cause hshare).1, ← (Trap.join_cause hshare).2, hc]
    · exact hc
  · exact ⟨y, List.mem_append_left _ hy, hc⟩

/-- A change of a team that keeps its groups keeps every group. -/
theorem State.grp?_modTeam (s : State) (id : TeamId) (k : GrpId) {f : Team → Team} (hid : ∀ t, (f t).id = t.id)
    (hg : ∀ t, (f t).groups = t.groups) : (s.modTeam id f).grp? k = s.grp? k := by
  unfold State.grp?
  rw [State.team?_modTeam s id k.team hid]
  cases s.team? k.team with
  | none => rfl
  | some t => simp only [Option.map_some, Option.bind_some]; split <;> simp [hg]

/-- A group stands, and a trap of a cause is pending at it. -/
def State.Pends (s : State) (k : GrpId) (c : Nat) : Prop := ∃ g, s.grp? k = some g ∧ ∃ x ∈ g.traps, x.cause = c

/-- An event that a team takes leaves every group standing, with what is pending at it. -/
theorem State.grp?_eventTo (aux : Nat) {s : State} (t : Team) {k : GrpId} {g : Group} (h : s.grp? k = some g) :
    ∃ g', (s.eventTo aux t).grp? k = some g' ∧ ∀ c, (∃ x ∈ g.traps, x.cause = c) → ∃ x ∈ g'.traps, x.cause = c := by
  unfold State.eventTo
  split
  · by_cases hk : k = t.eventGroup
    · subst hk
      exact ⟨_, by rw [State.grp?_modGrp_self, h]; rfl, fun c hc => Group.pend_keeps _ hc⟩
    · exact ⟨g, by rw [State.grp?_modGrp_ne s _ hk, h], fun _ hc => hc⟩
  · exact ⟨g, (State.grp?_modTeam s t.id k (f := fun t => { t with events := t.events ++ [aux] }) (fun _ => rfl)
      (fun _ => rfl)).trans h, fun _ hc => hc⟩

theorem State.grp?_events (aux : Nat) {s : State} (l : List Team) {k : GrpId} {g : Group} (h : s.grp? k = some g) :
    ∃ g', (l.foldl (State.eventTo aux) s).grp? k = some g' ∧ ∀ c, (∃ x ∈ g.traps, x.cause = c) → ∃ x ∈ g'.traps, x.cause = c := by
  induction l generalizing s g with
  | nil => exact ⟨g, h, fun _ hc => hc⟩
  | cons t l ih =>
    obtain ⟨g1, h1, hk1⟩ := State.grp?_eventTo aux t h
    obtain ⟨g2, h2, hk2⟩ := ih h1
    exact ⟨g2, h2, fun c hc => hk2 c (hk1 c hc)⟩

/-- An event is pending at every resident team of those that take it. -/
theorem State.events_pend (aux : Nat) {s : State} {l : List Team} {t : Team} (ht : t ∈ l) (hp : t.pinned = true) {g : Group}
    (h : s.grp? t.eventGroup = some g) : (l.foldl (State.eventTo aux) s).Pends t.eventGroup 15 := by
  obtain ⟨l1, l2, rfl⟩ := List.append_of_mem ht
  obtain ⟨g1, h1, -⟩ := State.grp?_events aux l1 h
  have hstep : ((l1.foldl (State.eventTo aux) s).eventTo aux t).grp? t.eventGroup = some (g1.pend (outerTrap 15 aux)) := by
    rw [State.eventTo, if_pos hp, State.grp?_modGrp_self, h1]
    rfl
  obtain ⟨g2, h2, hkeep⟩ := State.grp?_events aux l2 hstep
  rw [List.foldl_append, List.foldl_cons]
  exact ⟨g2, h2, hkeep 15 (g1.pend_cause (outerTrap 15 aux))⟩

/-! ## Fabric groups (R359) -/

/-- A group's end cancels its collectives; memory and the groups stay as they are. -/
theorem collStops_keep (id : Nat) (l : List Team) (s : State) :
    let s' := l.foldl (fun s t => (List.range 4).foldl (fun s k =>
      if (t.coll k).st = 1 && (t.coll k).group == id then s.collStop t.id k else s) s) s
    s'.mem = s.mem ∧ s'.fgroups = s.fgroups := by
  refine foldl_related (R := fun s s' : State => s'.mem = s.mem ∧ s'.fgroups = s.fgroups) (fun _ => ⟨rfl, rfl⟩)
    (fun h1 h2 => ⟨h2.1.trans h1.1, h2.2.trans h1.2⟩) (fun s t => ?_) l s
  refine foldl_related (R := fun s s' : State => s'.mem = s.mem ∧ s'.fgroups = s.fgroups) (fun _ => ⟨rfl, rfl⟩)
    (fun h1 h2 => ⟨h2.1.trans h1.1, h2.2.trans h1.2⟩) (fun s k => ?_) _ s
  split <;> exact ⟨rfl, rfl⟩

/-- Settles O58: each command by the equation of its word, the events by induction over the teams of the node. -/
theorem host : Obligations.Host := by
  unfold Obligations.Host
  refine ⟨fun s v rest hq hp => ⟨fun hcode => ?_, fun hcode hw => ?_, fun hcode hw ha hc hl => ?_,
    fun hcode ha hc hw hroom hspace himp hz hz2 hctx => ?_, fun hcode ha hc => ?_, fun code reason id => ?_⟩,
    fun s v hp => ⟨?_, fun hl => ?_, fun x xs hl => ?_, ?_, fun h1 h64 hme => ⟨fun hon => ?_, fun hoff => ?_⟩, fun hbad => ?_⟩⟩
  · exact execLaunchReservedCmd_eq (State.headCmd_of_hostq hq hp (by simpa using hcode))
  · exact execLaunch_no_wheel (State.headCmd_of_hostq hq hp (by simpa using hcode)) hw
  · have hexec := execLaunch_checked (State.headCmd_of_hostq hq hp (by simpa using hcode)) hw ha hc hl
    refine ⟨fun s1 k hr => ?_, fun s1 l hr => ⟨fun hfull => ?_, fun s2 id hfree he => ?_⟩⟩
    · rw [hexec, State.launchBlock, hr]
    · rw [hexec, State.launchBlock, hr]
      exact congrArg _ (hostEnter_full hfull)
    · rw [hexec, State.launchBlock, hr]
      exact congrArg _ (hostEnter_ok hfree he)
  · have hr := AtHomes.hostBytes s (cmdPA v) 64
    have hctx0 : (s.hostBytes (cmdPA v) 64).1.contexts = s.contexts := hr.keep State.contexts (fun _ _ => rfl)
    have hq0 : (s.hostBytes (cmdPA v) 64).1.hostq = s.hostq := hr.keep State.hostq (fun _ _ => rfl)
    obtain ⟨bytes, hexec⟩ := execCreate_live (State.headCmd_of_hostq hq hp (by simpa using hcode)) ha hc hw hroom
      (Prod.mk.eta (p := s.hostBytes (cmdPA v) 64)).symm hspace himp hz hz2 (hctx0 ▸ hctx)
    have hhome := AtHomes.homeWriteN ((s.hostBytes (cmdPA v) 64).1.withContext (field (s.hostBytes (cmdPA v) 64).2 0 2)) 0
      (cmdPA v + 8) bytes
    exact ⟨_, hexec, (hhome.keep State.contexts (fun _ _ => rfl)).trans
        (hr.keep (fun a => (a.withContext (field (s.hostBytes (cmdPA v) 64).2 0 2)).contexts) (fun _ _ => rfl)), rfl,
      congrArg (List.drop 1) ((hhome.keep State.hostq (fun _ _ => rfl)).trans (hq0.trans hq))⟩
  · have hexec := execDestroy_eq (State.headCmd_of_hostq hq hp (by simpa using hcode)) ha hc
    refine ⟨fun hn => ?_, fun hn hs => ?_, fun hn hs => ?_⟩
    · rw [hexec, State.spaceInUse, if_pos hn]
    · rw [hexec, State.spaceInUse, if_neg (ne_true_of_eq_false hn), if_neg (by simp [hs])]
    · rw [hexec, State.spaceInUse, if_neg (ne_true_of_eq_false hn), if_pos (by simp [hs])]
  · exact ⟨by simp [State.complete, hq], rfl, rfl, rfl, rfl⟩
  · exact congrArg Host.Outcome.next (if_pos hp)
  · exact congrArg Host.Outcome.next ((if_pos hp).trans (by rw [State.tdeadaRead, hl]))
  · exact ⟨_, congrArg Host.Outcome.next ((if_pos hp).trans (by rw [State.tdeadaRead, hl])), rfl, rfl, rfl, rfl⟩
  · refine ⟨_, execHeventWrite_eq s v, fun a => ?_, fun t g ht hnode hpin hg _ => ?_⟩
    · exact congrArg (·.read a) (foldl_related (R := fun s s' : State => s'.mem = s.mem) (fun _ => rfl) (fun h1 h2 => h2.trans h1)
        (State.eventTo_mem _) _ s)
    · exact State.events_pend _ (List.mem_filter.2 ⟨List.mem_of_find?_eq_some ht, by simpa using hnode⟩) hpin hg
  · exact congrArg Host.Outcome.next (if_pos ⟨hon, h1, h64, hme, hp⟩)
  · have hkeep := collStops_keep (fld v.toNat 0 10) s.teams { s with fgroups := s.fgroups.filter (fun x => x.id != fld v.toNat 0 10) }
    refine ⟨_, congrArg Host.Outcome.next (if_pos ⟨hoff, h1, h64, hme, hp⟩), fun a => congrArg (·.read a) hkeep.1, fun x hx => ?_,
      fun x hx hne => ?_⟩
    · rw [hkeep.2] at hx
      simpa using List.of_mem_filter hx
    · rw [hkeep.2]
      exact List.mem_filter.2 ⟨hx, by simpa using hne⟩
  · have hrange : ¬ (1 ≤ fld v.toNat 16 7 ∧ fld v.toNat 16 7 ≤ 64 ∧ fld v.toNat 10 6 < fld v.toNat 16 7) := by omega
    exact ⟨congrArg Host.Outcome.next (if_neg fun h => hrange ⟨h.2.1, h.2.2.1, h.2.2.2.1⟩),
      congrArg Host.Outcome.next (if_neg fun h => hrange ⟨h.2.1, h.2.2.1, h.2.2.2.1⟩)⟩

end Sys2Proof.Machine

/-! # What a count, a poisoned element, a freed entry or an examination leaves of memory and the teams

These change the counters, what is pending at groups, the range scoreboard and the waits; memory stays as it is, and of each team
the leases, the place and the window. Poison leaves, besides, everything but the teams and the wheels, and the s registers. -/

namespace Sys2Proof.Machine

open Sys2Proof

/-- Memory is the same, and a projection of every team. -/
structure TeamsKeep {α : Type} (p : Team → α) (s s' : State) : Prop where
  mem : s'.mem = s.mem
  team : ∀ id, (s'.team? id).map p = (s.team? id).map p

/-- The leases of a team and its place. -/
def Team.seat (t : Team) : List Lease × Loc := (t.leases, t.loc)

/-- The place of a team and its window. -/
def Team.window (t : Team) : Loc × Memory × List Nat := (t.loc, t.win, t.winBad)

/-- The leases of a team, its place and its window. -/
def Team.frame (t : Team) : List Lease × Loc × Memory × List Nat := (t.leases, t.window)

namespace TeamsKeep

section
variable {α : Type} {p : Team → α}

theorem refl (s : State) : TeamsKeep p s s := ⟨rfl, fun _ => rfl⟩

theorem trans {s s' s'' : State} (h1 : TeamsKeep p s s') (h2 : TeamsKeep p s' s'') : TeamsKeep p s s'' :=
  ⟨h2.mem.trans h1.mem, fun id => (h2.team id).trans (h1.team id)⟩

theorem foldl {β : Type} {f : State → β → State} (step : ∀ s x, TeamsKeep p s (f s x)) (l : List β) (s : State) :
    TeamsKeep p s (l.foldl f s) :=
  foldl_related (R := TeamsKeep p) refl trans step l s

theorem of_same {s s' : State} (hm : s'.mem = s.mem) (ht : s'.teams = s.teams) : TeamsKeep p s s' :=
  ⟨hm, fun id => by rw [State.team?, State.team?, ht]⟩

/-- Every team changed in a way that the projection does not see. -/
theorem of_map {s s' : State} (hm : s'.mem = s.mem) {f : Team → Team} (ht : s'.teams = s.teams.map f) (hid : ∀ t, (f t).id = t.id)
    (hp : ∀ t, p (f t) = p t) : TeamsKeep p s s' where
  mem := hm
  team id := by
    rw [State.team?, State.team?, ht, find_map_id hid, Option.map_map]
    exact congrArg (Option.map · _) (funext hp)

theorem modTeam (s : State) (id : TeamId) {f : Team → Team} (hid : ∀ t, (f t).id = t.id) (hp : ∀ t, p (f t) = p t) :
    TeamsKeep p s (s.modTeam id f) :=
  of_map rfl rfl (fun t => by split <;> simp [hid]) (fun t => by split <;> simp [hp])

/-- The team of a name still stands, with the same projection. -/
theorem some_of {s s' : State} (h : TeamsKeep p s s') {id : TeamId} {t : Team} (ht : s.team? id = some t) :
    ∃ t', s'.team? id = some t' ∧ p t' = p t := by
  have hid := h.team id
  rw [ht, Option.map_some, Option.map_eq_some_iff] at hid
  exact hid

end

/-- What is the same of every team determines what a function of it gives. -/
theorem coarsen {α β : Type} {p : Team → α} {s s' : State} (h : TeamsKeep p s s') (q : α → β) : TeamsKeep (q ∘ p) s s' where
  mem := h.mem
  team id := by rw [← Option.map_map, ← Option.map_map, h.team id]

theorem seat {s s' : State} (h : TeamsKeep Team.frame s s') : TeamsKeep Team.seat s s' := h.coarsen (fun x => (x.1, x.2.1))

theorem window {s s' : State} (h : TeamsKeep Team.frame s s') : TeamsKeep Team.window s s' := h.coarsen Prod.snd

theorem count (s : State) (w reg n : Nat) : TeamsKeep Team.frame s (s.count w reg n) := of_same rfl rfl

theorem modGrp (s : State) (g : GrpId) (f : Group → Group) : TeamsKeep Team.frame s (s.modGrp g f) :=
  modTeam s g.team (fun _ => rfl) (fun _ => rfl)

theorem modGroups (s : State) (f : Group → Group) : TeamsKeep Team.frame s (s.modGroups f) :=
  of_map rfl rfl (fun _ => rfl) (fun _ => rfl)

theorem served (s : State) (core half cls : Nat) : TeamsKeep Team.frame s (s.served core half cls) := by
  unfold State.served
  split
  · exact of_same rfl rfl
  · exact refl s

theorem freeEntries (s : State) (ids : List Nat) : TeamsKeep Team.frame s (s.freeEntries ids) :=
  of_map rfl rfl (fun _ => rfl) (fun _ => rfl)

theorem examineWords (s : State) (id : TeamId) (off n : Nat) : TeamsKeep Team.frame s (s.examineWords id off n) := modGroups s _

theorem sawSlot (s : State) (g : GrpId) (id : TeamId) (off n : Nat) : TeamsKeep Team.frame s (s.sawSlot g id off n) := by
  unfold State.sawSlot
  extract_lets ids
  split
  · exact refl s
  · exact modGrp s _ _

end TeamsKeep

/-! ## Poison -/

/-- Poison is met: counted, and pending at groups, whose registers stay. -/
structure Poisons (s s' : State) : Prop where
  rest : { s' with teams := s.teams, wheels := s.wheels } = s
  regs : ∀ k, (s'.grp? k).map Group.s = (s.grp? k).map Group.s
  frame : TeamsKeep Team.frame s s'

namespace Poisons

theorem refl (s : State) : Poisons s s := ⟨rfl, fun _ => rfl, .refl s⟩

theorem trans {s s' s'' : State} (h1 : Poisons s s') (h2 : Poisons s' s'') : Poisons s s'' where
  rest := by
    have h : { s'' with teams := s.teams, wheels := s.wheels } =
        { { s'' with teams := s'.teams, wheels := s'.wheels } with teams := s.teams, wheels := s.wheels } := rfl
    rw [h, h2.rest, h1.rest]
  regs k := (h2.regs k).trans (h1.regs k)
  frame := h1.frame.trans h2.frame

theorem foldl {β : Type} {f : State → β → State} (step : ∀ s x, Poisons s (f s x)) (l : List β) (s : State) : Poisons s (l.foldl f s) :=
  foldl_related (R := Poisons) refl trans step l s

/-- What poison does not change of a state is as before. -/
theorem keep {s s' : State} (h : Poisons s s') {α : Type} (p : State → α)
    (hp : ∀ (a : State) (ts : List Team) (ws : List Wheel), p { a with teams := ts, wheels := ws } = p a) : p s' = p s :=
  (hp s' s.teams s.wheels).symm.trans (congrArg p h.rest)

theorem count (s : State) (w reg n : Nat) : Poisons s (s.count w reg n) := ⟨rfl, fun _ => rfl, .count s w reg n⟩

theorem modTeam (s : State) (id : TeamId) {f : Team → Team} (hid : ∀ t, (f t).id = t.id) (hg : ∀ t, (f t).groups = t.groups)
    (hf : ∀ t, (f t).frame = t.frame) : Poisons s (s.modTeam id f) :=
  ⟨rfl, fun k => by rw [State.grp?_modTeam s id k hid hg], .modTeam s id hid hf⟩

theorem modGrp (s : State) (k : GrpId) {f : Group → Group} (hf : ∀ g, (f g).s = g.s) : Poisons s (s.modGrp k f) where
  rest := rfl
  regs j := by
    by_cases hj : j = k
    · subst hj
      rw [State.grp?_modGrp_self, Option.map_map]
      exact congrArg (Option.map · _) (funext hf)
    · rw [State.grp?_modGrp_ne s f hj]
  frame := .modGrp s k f

theorem pend_s (g : Group) (x : Trap) : (g.pend x).s = g.s := by
  unfold Group.pend
  split <;> rfl

theorem poisonTrap (s : State) (by_ : Issuer) (addr : Nat) : Poisons s (s.poisonTrap by_ addr) := by
  unfold State.poisonTrap
  split
  · split
    · exact (modGrp s _ (fun g => pend_s g _)).trans (modTeam _ by_.team (fun _ => rfl) (fun _ => rfl) (fun _ => rfl))
    · exact refl s
  · exact refl s

theorem poisonSeen (s : State) (id : TeamId) : Poisons s (s.poisonSeen id) := modTeam s id (fun _ => rfl) (fun _ => rfl) (fun _ => rfl)

/-- An element is met as poison by a team. -/
theorem met (s : State) (by_ : Issuer) (addr : Nat) : Poisons s ((s.poisonSeen by_.team).poisonTrap by_ addr) :=
  (poisonSeen s by_.team).trans (poisonTrap _ by_ addr)

theorem meetAt (s : State) (by_ : Issuer) (addr : Nat) (spot : Nat × Bool) : Poisons s (s.meetAt by_ addr spot) :=
  ((count s _ _ _).trans (count _ _ _ _)).trans (met _ by_ addr)

theorem meetPoisonPage (s : State) (by_ : Issuer) (core addr : Nat) : Poisons s (s.meetPoisonPage by_ core addr) :=
  (count s _ _ _).trans (met _ by_ addr)

theorem meetSram (s : State) (by_ : Issuer) (core addr : Nat) : Poisons s (s.meetSram by_ core addr) :=
  ((count s _ _ _).trans (count _ _ _ _)).trans (met _ by_ addr)

theorem meetUnit (s : State) (by_ : Issuer) (core va : Nat) (ps : List Part) (k : Nat) : Poisons s (s.meetUnit by_ core va ps k) := by
  unfold State.meetUnit
  split
  · exact refl s
  · split
    · exact meetPoisonPage s by_ core va
    · exact meetAt s by_ va _

theorem readParts (s : State) (by_ : Issuer) (core va : Nat) (us : List Unit_) (ps : List Part) :
    Poisons s (s.readParts by_ core va us ps).1 := by
  unfold State.readParts
  extract_lets bs bad
  split
  · exact foldl (fun s k => meetUnit s by_ core _ ps _) _ s
  · exact refl s

theorem readPages (by_ : Issuer) (core space src total : Nat) (us : List Unit_) (pages : Nat) (s : State) (bs : List Byte) :
    Poisons s (State.readPages by_ core space src total us pages s bs).1 := by
  induction pages generalizing s bs with
  | zero => exact refl s
  | succ k ih =>
    unfold State.readPages
    split
    · exact refl s
    · extract_lets va n
      split
      · exact refl s
      · split
        · exact refl s
        · exact (readParts s by_ core va _ _).trans (ih _ _)

theorem readVA {s s1 : State} {by_ : Issuer} {core space va n : Nat} {bs : List Byte}
    (h : s.readVA by_ core space va n = .ok (s1, bs)) : Poisons s s1 := by
  unfold State.readVA at h
  split at h
  · cases h
  · dsimp only at h
    split at h
    · cases h; exact refl s
    · split at h
      · cases h; exact meetPoisonPage s by_ core va
      · cases h; exact meetAt s by_ va _

end Poisons

/-- An element that a bad port slot has carried is met as poison. -/
theorem TeamsKeep.meetSlot (s : State) (by_ : Issuer) (core port va : Nat) : TeamsKeep Team.frame s (s.meetSlot by_ core port va) :=
  TeamsKeep.trans (s' := s.modCore core (fun c => { c with badSlots := c.badSlots.erase port })) (of_same rfl rfl) (Poisons.met _ by_ va).frame

end Sys2Proof.Machine

/-! # A pinned window read after a write

A write of a pinned window is examined by the waits on its bytes, and the examination of a blocked `SLOTWAIT` may clear a bit of
the slot that it watches. Outside watched slots the bytes stand as they were written. -/

namespace Sys2Proof.Machine

open Sys2Proof

/-- A write of several bytes is read back. -/
theorem Memory.read_writeN_in {m : Memory} {a : Nat} {bs : List Byte} (h : Memory.wf m = true) {k : Nat} (hk : k < bs.length) :
    Memory.read (Memory.writeN m a bs) (a + k) = bs[k] := by
  induction bs generalizing m a k with
  | nil => simp at hk
  | cons x bs ih =>
    rw [Memory.writeN]
    cases k with
    | zero => rw [Memory.read_writeN_out bs (Memory.write_wf a x h) (by omega), Nat.add_zero, Memory.read_write_self a x h]; rfl
    | succ k =>
      have hread := ih (a := a + 1) (Memory.write_wf a x h) (k := k) (by simpa using hk)
      rw [show a + (k + 1) = a + 1 + k by omega, hread]
      rfl

@[simp] theorem length_leBytes (k n : Nat) : (leBytes k n).length = k := by
  induction k generalizing n with
  | zero => rfl
  | succ k ih => simp [leBytes, ih]

/-- A wait of some group. -/
def State.Waits (s : State) (w : WaitRec) : Prop := ∃ t ∈ s.teams, ∃ g ∈ t.groups, w ∈ g.waits

theorem State.waits_of_allWaits {s : State} {x : GrpId × WaitRec} (h : x ∈ s.allWaits) : s.Waits x.2 := by
  simp only [State.allWaits, List.mem_flatMap, List.mem_map] at h
  obtain ⟨t, ht, y, hy, w, hw, rfl⟩ := h
  exact ⟨t, ht, y.2, (List.of_mem_zip hy).2, hw⟩

theorem State.Waits.mem_allWaits {s : State} {w : WaitRec} (h : s.Waits w) : ∃ x ∈ s.allWaits, x.2 = w := by
  obtain ⟨t, ht, g, hg, hw⟩ := h
  obtain ⟨n, hn, rfl⟩ := List.mem_iff_getElem.1 hg
  have hlen : n < t.grpIds.length := by simpa [Team.grpIds] using hn
  refine ⟨(t.grpIds[n], w), ?_, rfl⟩
  simp only [State.allWaits, List.mem_flatMap, List.mem_map]
  refine ⟨t, ht, (t.grpIds[n], t.groups[n]), ?_, w, hw, rfl⟩
  rw [List.mem_iff_getElem]
  exact ⟨n, by simp [hn, hlen], by simp⟩

/-- A slot of a team that some wait watches unfound. -/
def State.WatchesSlot (s : State) (id : TeamId) (o : Nat) : Prop := ∃ w, s.Waits w ∧ w.watch = some (.slot id o none)

theorem State.WatchesSlot.watched {s : State} {id : TeamId} {o a : Nat} (h : s.WatchesSlot id o) (ho : o ≤ a) (ha : a < o + 16) :
    s.SlotWatched id a := by
  obtain ⟨w, hw, hslot⟩ := h
  obtain ⟨x, hx, rfl⟩ := hw.mem_allWaits
  exact ⟨x, hx, o, hslot, ho, ha⟩

/-- An examination of words changes no watch of a slot. -/
theorem State.lookWord_slot {s : State} {id k : TeamId} {off n o : Nat} {w : WaitRec}
    (h : (s.lookWord id off n w).watch = some (.slot k o none)) : w.watch = some (.slot k o none) := by
  unfold State.lookWord at h
  split at h
  · split at h
    · simp at h
    · exact h
  · exact h

theorem State.watchesSlot_of_examineWords {s : State} {id k : TeamId} {off n o : Nat} (h : (s.examineWords id off n).WatchesSlot k o) :
    s.WatchesSlot k o := by
  obtain ⟨w, ⟨t, ht, g, hg, hw⟩, hslot⟩ := h
  obtain ⟨t0, ht0, rfl⟩ := List.mem_map.1 ht
  obtain ⟨g0, hg0, rfl⟩ := List.mem_map.1 hg
  obtain ⟨w0, hw0, rfl⟩ := List.mem_map.1 hw
  exact ⟨w0, ⟨t0, ht0, g0, hg0, hw0⟩, State.lookWord_slot hslot⟩

/-- A change of a team that keeps its groups changes no watch. -/
theorem State.watchesSlot_of_modTeam {s : State} {i k : TeamId} {o : Nat} {f : Team → Team} (hf : ∀ t, (f t).groups = t.groups)
    (h : (s.modTeam i f).WatchesSlot k o) : s.WatchesSlot k o := by
  obtain ⟨w, ⟨t, ht, g, hg, hw⟩, hslot⟩ := h
  obtain ⟨t0, ht0, rfl⟩ := List.mem_map.1 ht
  refine ⟨w, ⟨t0, ht0, g, ?_, hw⟩, hslot⟩
  split at hg
  · rwa [hf] at hg
  · exact hg

/-- The window of a team after a write of it, while it is pinned. -/
def Team.put (t : Team) (off : Nat) (bs : List Byte) : Team :=
  { t with win := t.win.writeN off bs, winBad := t.winBad.filter (fun o => decide (o < off) || decide (off + bs.length ≤ o)) }

theorem State.winPut_pinned {s : State} {id : TeamId} {t : Team} (ht : s.team? id = some t) (hp : t.pinned = true) (off : Nat)
    (bs : List Byte) (push : Bool) : s.winPut id off bs push = s.modTeam id (fun t => t.put off bs) := by
  unfold State.winPut
  simp only [ht, hp, if_true]
  rfl

theorem State.winPut_team {s : State} {id : TeamId} {t : Team} (ht : s.team? id = some t) (hp : t.pinned = true) (off : Nat)
    (bs : List Byte) (push : Bool) : (s.winPut id off bs push).team? id = some (t.put off bs) := by
  rw [State.winPut_pinned ht hp, State.team?_modTeam_self s id (f := fun t => t.put off bs) (fun _ => rfl), ht]
  rfl

/-- A team is pinned while its place is the same. -/
theorem Team.pinned_of_loc {t t' : Team} (h : t'.loc = t.loc) : t'.pinned = t.pinned := by
  unfold Team.pinned
  rw [h]

/-- A write of a pinned window leaves memory, the leases and the places of teams. -/
theorem TeamsKeep.winPut {s : State} {id : TeamId} {t : Team} (ht : s.team? id = some t) (hp : t.pinned = true) (off : Nat)
    (bs : List Byte) (push : Bool) : TeamsKeep Team.seat s (s.winPut id off bs push) := by
  rw [State.winPut_pinned ht hp]
  exact modTeam s id (fun _ => rfl) (fun _ => rfl)

/-- An examination of a `SLOTWAIT` changes nothing, or, where the wait watches a slot of the team, at most that slot and the groups. -/
theorem State.lookSlot_cases (s : State) (id : TeamId) (off n : Nat) (gid : GrpId) (w : WaitRec) :
    s.lookSlot id off n gid w = s ∨ ∃ o s1, w.watch = some (.slot id o none) ∧
      (s1 = s ∨ ∃ v, s1 = s.winPut id o (leBytes 16 v) false) ∧ TeamsKeep Team.frame s1 (s.lookSlot id off n gid w) := by
  unfold State.lookSlot
  split
  · next tm o hw =>
    split
    · exact .inl rfl
    · next hskip =>
      have htm : tm = id := by
        simp only [Bool.or_eq_true, decide_eq_true_eq, not_or, Decidable.not_not] at hskip
        exact hskip.1.1.1.2
      split
      · exact .inl rfl
      · next r hr =>
        refine .inr ⟨o, _, htm ▸ hw, ?_, ((TeamsKeep.examineWords _ id o 16).trans (TeamsKeep.sawSlot _ gid id o 16)).trans
          (TeamsKeep.modGrp _ gid _)⟩
        split
        · exact .inl rfl
        · exact .inr ⟨_, rfl⟩
  · exact .inl rfl

/-- Examinations of slots of a pinned window leave memory, the leases and the places of teams. -/
theorem TeamsKeep.lookSlot {s : State} {id : TeamId} {t : Team} (ht : s.team? id = some t) (hp : t.pinned = true) (off n : Nat)
    (gid : GrpId) (w : WaitRec) : TeamsKeep Team.seat s (s.lookSlot id off n gid w) := by
  obtain h | ⟨o, s1, -, rfl | ⟨v, rfl⟩, hkeep⟩ := s.lookSlot_cases id off n gid w
  · rw [h]; exact .refl s
  · exact hkeep.seat
  · exact (TeamsKeep.winPut ht hp o _ false).trans hkeep.seat

theorem TeamsKeep.lookSlots {id : TeamId} (off n : Nat) (l : List (GrpId × WaitRec)) {s : State} {t : Team}
    (ht : s.team? id = some t) (hp : t.pinned = true) :
    TeamsKeep Team.seat s (l.foldl (fun s x => s.lookSlot id off n x.1 x.2) s) := by
  induction l generalizing s t with
  | nil => exact .refl s
  | cons x l ih =>
    have hstep := TeamsKeep.lookSlot ht hp off n x.1 x.2
    obtain ⟨t', ht', hseat⟩ := hstep.some_of ht
    exact hstep.trans (ih ht' ((Team.pinned_of_loc (congrArg Prod.snd hseat)).trans hp))

/-- A write of a pinned window, with what examines it, leaves memory, the leases and the places of teams. -/
theorem TeamsKeep.winWrite {s : State} {id : TeamId} {t : Team} (ht : s.team? id = some t) (hp : t.pinned = true) (off : Nat)
    (bs : List Byte) : TeamsKeep Team.seat s (s.winWrite id off bs) := by
  have hput := TeamsKeep.winPut ht hp off bs false
  unfold State.winWrite State.examine
  split
  · have hwords := TeamsKeep.examineWords (s.winPut id off bs false) id off bs.length
    obtain ⟨t', ht', hseat⟩ := (hput.trans hwords.seat).some_of ht
    exact (hput.trans hwords.seat).trans (lookSlots off bs.length _ ht' ((Team.pinned_of_loc (congrArg Prod.snd hseat)).trans hp))
  · exact hput

/-- A pinned window holds some bytes, none of them uncorrectable. -/
def State.WinHolds (s : State) (id : TeamId) (off : Nat) (bs : List Byte) : Prop :=
  ∃ t, s.team? id = some t ∧ t.pinned = true ∧ Memory.wf t.win = true ∧
    ∀ k, (h : k < bs.length) → t.winBad.contains (off + k) = false ∧ t.win.read (off + k) = bs[k]

namespace State.WinHolds

section
variable {s : State} {id : TeamId} {off : Nat} {bs : List Byte}

theorem of_winPut {t : Team} (ht : s.team? id = some t) (hp : t.pinned = true) (hwf : Memory.wf t.win = true) (push : Bool) :
    (s.winPut id off bs push).WinHolds id off bs := by
  refine ⟨_, State.winPut_team ht hp off bs push, hp, Memory.writeN_wf off bs hwf, fun k hk => ⟨?_, Memory.read_writeN_in hwf hk⟩⟩
  have hout : ¬ (off + k < off ∨ off + bs.length ≤ off + k) := by omega
  simp only [Team.put, List.contains_eq_mem, decide_eq_false_iff_not, List.mem_filter, Bool.or_eq_true, decide_eq_true_eq]
  exact fun h => hout h.2

/-- A write elsewhere in the window leaves the bytes. -/
theorem winPut_elsewhere (h : s.WinHolds id off bs) {o : Nat} {cs : List Byte}
    (hout : ∀ k, k < bs.length → off + k < o ∨ o + cs.length ≤ off + k) (push : Bool) : (s.winPut id o cs push).WinHolds id off bs := by
  obtain ⟨t, ht, hp, hwf, hbytes⟩ := h
  refine ⟨_, State.winPut_team ht hp o cs push, hp, Memory.writeN_wf o cs hwf, fun k hk => ⟨?_, ?_⟩⟩
  · have hk := (hbytes k hk).1
    simp only [Team.put, List.contains_eq_mem, decide_eq_false_iff_not, List.mem_filter] at hk ⊢
    exact fun hmem => hk hmem.1
  · exact (Memory.read_writeN_out cs hwf (hout k hk)).trans (hbytes k hk).2

theorem keep (h : s.WinHolds id off bs) {s' : State} (hk : TeamsKeep Team.window s s') : s'.WinHolds id off bs := by
  obtain ⟨t, ht, hp, hwf, hbytes⟩ := h
  obtain ⟨t', ht', hwin⟩ := hk.some_of ht
  simp only [Team.window, Prod.mk.injEq] at hwin
  obtain ⟨hloc, hwin, hbad⟩ := hwin
  exact ⟨t', ht', (Team.pinned_of_loc hloc).trans hp, hwin ▸ hwf, hwin ▸ hbad ▸ hbytes⟩

theorem lookSlots (h : s.WinHolds id off bs) (a n : Nat) (l : List (GrpId × WaitRec))
    (hl : ∀ x ∈ l, ∀ o, x.2.watch = some (.slot id o none) → ∀ k, k < bs.length → off + k < o ∨ o + 16 ≤ off + k) :
    (l.foldl (fun s x => s.lookSlot id a n x.1 x.2) s).WinHolds id off bs := by
  induction l generalizing s with
  | nil => exact h
  | cons x l ih =>
    refine ih ?_ (fun y hy => hl y (List.mem_cons_of_mem _ hy))
    obtain he | ⟨o, s1, hwatch, rfl | ⟨v, rfl⟩, hkeep⟩ := s.lookSlot_cases id a n x.1 x.2
    · exact (congrArg (State.WinHolds · id off bs) he).mpr h
    · exact h.keep hkeep.window
    · have hout := hl x List.mem_cons_self o hwatch
      exact (h.winPut_elsewhere (cs := leBytes 16 v) (by rwa [length_leBytes]) false).keep hkeep.window

/-- A write of a pinned window stands outside watched slots. -/
theorem of_winWrite {t : Team} (ht : s.team? id = some t) (hp : t.pinned = true) (hwf : Memory.wf t.win = true)
    (hw : ∀ k, k < bs.length → ¬ s.SlotWatched id (off + k)) : (s.winWrite id off bs).WinHolds id off bs := by
  have hput := of_winPut (off := off) (bs := bs) ht hp hwf false
  unfold State.winWrite State.examine
  split
  · refine (hput.keep (TeamsKeep.examineWords _ id off bs.length).window).lookSlots off bs.length _ (fun x hx o hwatch k hk => ?_)
    have hslot := State.watchesSlot_of_examineWords ⟨x.2, State.waits_of_allWaits hx, hwatch⟩
    rw [State.winPut_pinned ht hp] at hslot
    have hslot := State.watchesSlot_of_modTeam (f := fun t => t.put off bs) (fun _ => rfl) hslot
    by_contra hin
    exact hw k hk (hslot.watched (by omega) (by omega))
  · exact hput

/-- What a pinned window holds is read. -/
theorem winRead (h : s.WinHolds id off bs) : s.winRead id off bs.length = bs := by
  obtain ⟨t, ht, hp, -, hbytes⟩ := h
  unfold State.winRead
  rw [ht]
  refine List.ext_getElem (by simp [rangeFrom]) (fun k hk1 hk2 => ?_)
  obtain ⟨hbad, hread⟩ := hbytes k hk2
  simp only [rangeFrom, List.getElem_map, List.getElem_range, State.winByte, hp, if_true, hbad, Bool.false_eq_true, if_false, hread]

end

end State.WinHolds

end Sys2Proof.Machine

/-! # The matrix engine's events

Each event changes one lease of one team. What else it does (counts, poison, freed entries, the write of a drain) leaves the
leases of every team, so that the lease is found again as the event has left it. -/

namespace Sys2Proof.Machine

open Sys2Proof

/-- An entry found by its key, after an update of the entries of that key that keeps it. -/
theorem find_update {α : Type} {key : α → Nat} {n : Nat} {f : α → α} (hf : ∀ a, key a = n → key (f a) = n) {l : List α} {a : α}
    (h : l.find? (fun x => key x == n) = some a) :
    (l.map (fun x => if key x = n then f x else x)).find? (fun x => key x == n) = some (f a) := by
  have hkey : (fun x => key (if key x = n then f x else x) == n) = (fun x => key x == n) := by
    funext x
    split
    · next hx => rw [hf x hx, hx]
    · rfl
  have ha : key a = n := by simpa using List.find?_some h
  rw [List.find?_map, Function.comp_def, hkey, h, Option.map_some, if_pos ha]

theorem Lease.tag?_modTag {l : Lease} {n : Nat} {f : MxTag → MxTag} (hf : ∀ x, x.tag = n → (f x).tag = n) {x : MxTag}
    (h : l.tag? n = some x) : (l.modTag n f).tag? n = some (f x) :=
  find_update (key := MxTag.tag) hf h

theorem Lease.rec?_modRec {l : Lease} {n : Nat} {f : ORec → ORec} (hf : ∀ x, x.handle = n → (f x).handle = n) {x : ORec}
    (h : l.rec? n = some x) : (l.modRec n f).rec? n = some (f x) :=
  find_update (key := ORec.handle) hf h

/-- A lease as an event leaves it: nothing but its update touches the leases, before it or after it. -/
theorem lease_after {s s1 s2 : State} {id : TeamId} {core : Nat} (f : Lease → Lease) (h1 : TeamsKeep Team.seat s s1)
    (h2 : TeamsKeep Team.seat (s1.modLease id core f) s2) (hf : ∀ l, (f l).core = l.core) {t : Team} {l : Lease}
    (ht : s.team? id = some t) (hl : t.lease? core = some l) :
    s.SameMem s2 ∧ ∃ t', s2.team? id = some t' ∧ t'.lease? core = some (f l) := by
  obtain ⟨t1, ht1, hseat1⟩ := h1.some_of ht
  have hmod : (s1.modLease id core f).team? id =
      some { t1 with leases := t1.leases.map (fun l => if l.core = core then f l else l) } := by
    unfold State.modLease
    rw [State.team?_modTeam_self s1 id
      (f := fun t => { t with leases := t.leases.map (fun l => if l.core = core then f l else l) }) (fun _ => rfl), ht1]
    rfl
  obtain ⟨t2, ht2, hseat2⟩ := h2.some_of hmod
  refine ⟨fun a => congrArg (·.read a) (h2.mem.trans h1.mem), t2, ht2, ?_⟩
  have hl1 : t1.leases = t.leases := congrArg Prod.fst hseat1
  have hl2 : t2.leases = t1.leases.map (fun l => if l.core = core then f l else l) := congrArg Prod.fst hseat2
  unfold Team.lease? at hl ⊢
  rw [hl2, hl1]
  exact find_update (key := Lease.core) (fun l h => (hf l).trans h) hl

section
variable {s : State} {core : Nat} {t : Team} {l : Lease} {x : MxTag} {r : ORec}

/-- A lease as its tag's operation starts, at a place in the order of starts. -/
def Lease.start (l : Lease) (n now : Nat) : Lease :=
  { (l.modTag n (fun y => { y with st := 2, started := now })) with since := none }

/-- A lease as the running operation of a tag commits a K-step, which a bad port slot may have crossed. -/
def Lease.commit (l : Lease) (x : MxTag) (r : ORec) (slot : Option Nat) : Lease :=
  { (l.modTag x.tag (fun _ => x.committed r)) with ats := (x.crossed slot).commit r l.ats x.counter }

/-- A lease as poison stops its tag's operation. -/
def Lease.stop (l : Lease) (n : Nat) : Lease := l.modTag n (fun y => { y with st := 5, drain := none, entries := [] })

/-- A lease as its tag's drain is over. -/
def Lease.drained (l : Lease) (n : Nat) : Lease := l.modTag n (fun y => { y with st := 3, drain := none })

/-- The core as a team's operation starts. -/
def Core.heldBy (c : Core) (id : TeamId) (new : Bool) : Core :=
  { c with holder := some id, holdCount := if new then 1 else c.holdCount + 1 }

/-- The arbiter's choice starts. -/
theorem execMatrixOperationStart_eq {new : Bool} (hc : s.canStart core = true) (ha : s.arbitrate core = some (t, l, x, new)) :
    exec (.matrixOperationStart core) s = .next ((s.tick.modCore core (·.heldBy t.id new)).modLease t.id core
      (·.start x.tag s.fresh)) := by
  have hexec : exec (.matrixOperationStart core) s = execMatrixOperationStart core s := rfl
  rw [hexec, execMatrixOperationStart, if_neg (by simp [hc]), ha]
  rfl

theorem TeamsKeep.ite_freeEntries (p : Prop) [Decidable p] (s : State) (ids : List Nat) :
    TeamsKeep Team.frame s (if p then s else s.freeEntries ids) := by
  split
  · exact .refl s
  · exact .freeEntries s ids

/-- What a K-step meets before it commits: an uncorrectable port slot, and uncorrectable operands. -/
def State.stepMeets (s : State) (core : Nat) (x : MxTag) (r : ORec) : State :=
  ((x.badIn r x.counter).flatMap (fun b => List.replicate (x.holds r b) b)).foldl
    (fun s b => s.meetSram x.by_ core (x.badAddr r b)) (((match (s.core core).badSlots.head? with
      | some p => s.meetSlot x.by_ core p x.aaddr
      | none => s).served core 0 2).served core 1 2)

theorem TeamsKeep.stepMeets (s : State) (core : Nat) (x : MxTag) (r : ORec) : TeamsKeep Team.frame s (s.stepMeets core x r) := by
  unfold State.stepMeets
  refine TeamsKeep.trans ?_ (foldl (fun s b => (Poisons.meetSram s x.by_ core _).frame) _ _)
  refine TeamsKeep.trans ?_ ((served _ core 0 2).trans (served _ core 1 2))
  split
  · exact meetSlot s x.by_ core _ _
  · exact .refl s

/-- A K-step without poison, or of a team that goes on with it, commits. -/
theorem execKStepCommit_eq (hrun : s.running core = some (t, l, x)) (hr : l.rec? x.orec = some r)
    (hgo : x.badIn r x.counter = [] ∧ (s.core core).badSlots = [] ∨ t.trapOnPoison = false) :
    let s2 := (s.stepMeets core x r).modLease t.id core (·.commit x r (s.core core).badSlots.head?)
    exec (.kStepCommit core) s = .next (if (x.committed r).st = 2 then s2 else s2.freeEntries x.entries) := by
  intro s2
  have hexec : exec (.kStepCommit core) s = execKStepCommit core s := rfl
  have hno : ((!(x.badIn r x.counter).isEmpty || (s.core core).badSlots.head?.isSome) && t.trapOnPoison) = false := by
    obtain ⟨hb, hs⟩ | ht := hgo
    · simp [hb, hs]
    · simp [ht]
  rw [hexec, execKStepCommit, hrun]
  dsimp only
  rw [hr]
  exact if_neg (ne_true_of_eq_false hno)

/-- An operation that poison stops. -/
theorem execMatrixOperationStop_eq (hrun : s.running core = some (t, l, x)) (hr : l.rec? x.orec = some r)
    (hbad : x.badIn r x.counter ≠ [] ∨ (s.core core).badSlots ≠ []) (ht : t.trapOnPoison = true) :
    ∃ s', exec (.matrixOperationStop core) s = .next s' ∧
      TeamsKeep Team.frame ((s.freeEntries (x.entries ++ (x.drain.map (·.entry)).toList)).modLease t.id core (·.stop x.tag)) s' := by
  have hexec : exec (.matrixOperationStop core) s = execMatrixOperationStop core s := rfl
  rw [hexec, execMatrixOperationStop, hrun]
  dsimp only
  rw [hr]
  dsimp only
  rw [ht]
  cases hb : x.badIn r x.counter with
  | cons b bs => exact ⟨_, rfl, (Poisons.meetSram _ _ _ _).frame⟩
  | nil =>
    cases hs : (s.core core).badSlots with
    | cons p ps => exact ⟨_, rfl, TeamsKeep.meetSlot _ _ _ _ _⟩
    | nil => exact absurd hbad (by simp [hb, hs])

@[simp] theorem State.served_teams (s : State) (core half cls : Nat) : (s.served core half cls).teams = s.teams := by
  unfold State.served
  split <;> rfl

theorem State.slotWatched_of_teams {s s' : State} {id : TeamId} {a : Nat} (h : s'.teams = s.teams) (hw : s'.SlotWatched id a) :
    s.SlotWatched id a := by
  unfold State.SlotWatched State.allWaits at hw ⊢
  rwa [h] at hw

/-- A drain writes its elements to the window, frees its entry and is over. -/
theorem execDrainRun_eq {d : Drain} {tag : Nat} (ht : s.team? t.id = some t) (hl : t.lease? core = some l) (hx : l.tag? tag = some x)
    (hd : x.drain = some d) (hst : x.st = 4) (hp : t.pinned = true) :
    exec (.drainRun t.id core tag) s = .next (((((s.served core 0 3).served core 1 3).winWrite t.id d.target
      (drainBytes l.ats x.acc0 (x.mrows * x.ncols) d.bf16)).freeEntries [d.entry]).modLease t.id core
        (·.drained tag)) := by
  have hexec : exec (.drainRun t.id core tag) s = execDrainRun t.id core tag s := rfl
  rw [hexec, execDrainRun, ht]
  dsimp only
  rw [hl, Option.bind_some, hx, Option.map_some]
  dsimp only
  rw [hd]
  exact if_neg (by simp [hst, Team.onCore, hp])

/-- A record after what its load has read: ready once it holds the whole image, still loading, or ended by a fault. -/
def ORec.loaded (z : ORec) (total : Nat) (waits : Bool) (bs : List Byte) (flt : Option (PFault × Nat)) : ORec :=
  match flt with
  | some f => { z with st := if waits then 4 else 3, image := [], flt := if waits then some (f.1.detail, f.1.level, f.2) else none }
  | none => { z with st := if total ≤ bs.length then 2 else 1, image := bs }

theorem ORec.loaded_handle (z : ORec) (total : Nat) (waits : Bool) (bs : List Byte) (flt : Option (PFault × Nat)) :
    (z.loaded total waits bs flt).handle = z.handle := by
  unfold ORec.loaded
  split <;> rfl

theorem ORec.loaded_whole (z : ORec) {total : Nat} (waits : Bool) {bs : List Byte} (h : total ≤ bs.length) :
    z.loaded total waits bs none = { z with st := 2, image := bs } := by
  simp [ORec.loaded, h]

theorem ORec.loaded_fault (z : ORec) (total : Nat) (waits : Bool) (bs : List Byte) {flt : Option (PFault × Nat)} (h : flt ≠ none) :
    (z.loaded total waits bs flt).st = (if waits then 4 else 3) ∧ (z.loaded total waits bs flt).image = [] := by
  obtain ⟨f, rfl⟩ := Option.ne_none_iff_exists'.1 h
  exact ⟨rfl, rfl⟩

/-- The rest of a record's image as its load reads it. -/
def State.restOfImage (s : State) (t : Team) (core : Nat) (z : ORec) : State × List Byte × Option (PFault × Nat) :=
  State.readPages (z.by_.getD { team := t.id, grp := 0, mask := 0, slot := 3, word := 0, pc := 0 }) core t.space z.src (z.slot * z.n)
    ((List.replicate z.n z.units).flatten) (z.slot * z.n / 2 ^ 17 + 2) s z.image

theorem TeamsKeep.restOfImage (s : State) (t : Team) (core : Nat) (z : ORec) : TeamsKeep Team.frame s (s.restOfImage t core z).1 :=
  (Poisons.readPages _ core t.space z.src _ _ _ s z.image).frame

/-- A load over good port slots ends with what it reads. -/
theorem execObldLoadFinish_eq {h : Nat} {z : ORec} (ht : s.team? t.id = some t) (hl : t.lease? core = some l) (hz : l.rec? h = some z)
    (hst : z.st = 1) (hp : t.pinned = true) (hgood : (s.core core).badSlots = []) :
    exec (.obldLoadFinish t.id core h) s = .next ((((s.restOfImage t core z).1.served core 0 2).served core 1 2).modLease t.id core
      (fun l => l.modRec z.handle (fun y => y.loaded (z.slot * z.n) (t.obldWaits core z.handle) (s.restOfImage t core z).2.1
        (s.restOfImage t core z).2.2))) := by
  have hexec : exec (.obldLoadFinish t.id core h) s = execObldLoadFinish t.id core h s := rfl
  have hof : s.obldOf t.id core h = some (t, z) := by
    rw [State.obldOf, ht, Option.bind_some, hl, Option.bind_some, hz, Option.bind_some]
    exact if_pos (by simp [hst, Team.onCore, hp])
  rw [hexec, execObldLoadFinish, hof]
  dsimp only
  rw [State.obldRead, hgood]
  rfl

end

/-- Settles O35: each event by the equation of its step, and by `lease_after` for the lease that it changes. -/
theorem matrixEngine : Obligations.MatrixEngine := by
  unfold Obligations.MatrixEngine
  intro s core t l x ht hl hx
  refine ⟨fun new hc ha => ?_, fun r hrun hr hgo => ?_, fun r hrun hr hbad htrap => ?_, fun d hd hst hp => ?_,
    fun h z hz hst hp hgood => ?_⟩
  · obtain ⟨hmem, t', ht', hl'⟩ := lease_after (s := s) (·.start x.tag s.fresh)
      (s1 := s.tick.modCore core (·.heldBy t.id new))
      (.of_same rfl rfl) (.refl _) (fun _ => rfl) ht hl
    refine ⟨_, t', _, _, execMatrixOperationStart_eq hc ha, hmem, ?_, ht', hl',
      Lease.tag?_modTag (f := fun y => { y with st := 2, started := s.fresh }) (fun _ h => h) hx, rfl⟩
    exact congrArg Core.holder (s.tick.core_modCore_self core (·.heldBy t.id new))
  · obtain ⟨hmem, t', ht', hl'⟩ := lease_after (·.commit x r (s.core core).badSlots.head?) (TeamsKeep.stepMeets s core x r).seat
      (TeamsKeep.ite_freeEntries ((x.committed r).st = 2) _ x.entries).seat (fun _ => rfl) ht hl
    have hcommit : (x.committed r).tag = x.tag ∧ (x.committed r).counter = x.counter + 1 := by
      unfold MxTag.committed
      dsimp only
      split <;> exact ⟨rfl, rfl⟩
    exact ⟨_, t', _, _, execKStepCommit_eq hrun hr hgo, hmem, ht', hl',
      Lease.tag?_modTag (f := fun _ => x.committed r) (fun _ _ => hcommit.1) hx, hcommit.2, rfl⟩
  · obtain ⟨s', hexec, hkeep⟩ := execMatrixOperationStop_eq hrun hr hbad htrap
    obtain ⟨hmem, t', ht', hl'⟩ := lease_after (·.stop x.tag) (TeamsKeep.freeEntries s _).seat hkeep.seat (fun _ => rfl) ht hl
    exact ⟨s', t', _, _, hexec, hmem, ht', hl',
      Lease.tag?_modTag (f := fun y => { y with st := 5, drain := none, entries := [] }) (fun _ h => h) hx, rfl, rfl, rfl⟩
  · have hserved := (TeamsKeep.served s core 0 3).trans (.served _ core 1 3)
    obtain ⟨t0, ht0, hframe⟩ := hserved.some_of ht
    simp only [Team.frame, Team.window, Prod.mk.injEq] at hframe
    obtain ⟨-, hloc, hwin, -⟩ := hframe
    have hp0 : t0.pinned = true := (Team.pinned_of_loc hloc).trans hp
    have hdrain := (hserved.seat.trans (TeamsKeep.winWrite ht0 hp0 d.target
      (drainBytes l.ats x.acc0 (x.mrows * x.ncols) d.bf16))).trans (TeamsKeep.freeEntries _ [d.entry]).seat
    obtain ⟨hmem, t', ht', hl'⟩ := lease_after (·.drained x.tag) hdrain (.refl _) (fun _ => rfl) ht hl
    refine ⟨_, t', _, _, execDrainRun_eq ht hl hx hd hst hp, hmem, fun hinv hw => ?_, ht', hl',
      Lease.tag?_modTag (f := fun y => { y with st := 3, drain := none }) (fun _ h => h) hx, rfl, rfl⟩
    have hwf : Memory.wf t0.win = true := hwin ▸ hinv.2 t (List.mem_of_find?_eq_some ht)
    have hw0 : ∀ k, k < (drainBytes l.ats x.acc0 (x.mrows * x.ncols) d.bf16).length →
        ¬ ((s.served core 0 3).served core 1 3).SlotWatched t.id (d.target + k) := fun k hk h =>
      hw k hk (State.slotWatched_of_teams ((State.served_teams _ core 1 3).trans (State.served_teams s core 0 3)) h)
    refine ((State.WinHolds.of_winWrite ht0 hp0 hwf hw0).keep ?_).winRead
    exact (TeamsKeep.freeEntries _ [d.entry]).window.trans (TeamsKeep.modTeam _ t.id (fun _ => rfl) (fun _ => rfl))
  · obtain rfl : z.handle = h := by simpa using List.find?_some hz
    obtain ⟨hmem, t', ht', hl'⟩ := lease_after (fun l => l.modRec z.handle (fun y => y.loaded (z.slot * z.n)
      (t.obldWaits core z.handle) (s.restOfImage t core z).2.1 (s.restOfImage t core z).2.2))
      (((TeamsKeep.restOfImage s t core z).trans (.served _ core 0 2)).trans (.served _ core 1 2)).seat (.refl _) (fun _ => rfl) ht hl
    refine ⟨_, t', _, _, execObldLoadFinish_eq ht hl hz hst hp hgood, hmem, ht', hl', Lease.rec?_modRec
      (fun y hy => (ORec.loaded_handle y _ _ _ _).trans hy) hz, fun hnone htotal => ?_, fun hfault => ?_⟩
    · exact (congrArg (z.loaded _ _ _) hnone).trans (ORec.loaded_whole z _ htotal)
    · exact ORec.loaded_fault z _ _ _ hfault

end Sys2Proof.Machine

/-! # Shootdowns (R201)

A write-back cleans its line wherever no migration holds writes back, so that the removal of a shootdown leaves no core with a
dirty byte, and with no translation that the shootdown hits. -/

namespace Sys2Proof.Machine

open Sys2Proof

theorem mem_insBy {α : Type} {before : α → α → Bool} {x a : α} {l : List α} (h : a = x ∨ a ∈ l) : a ∈ insBy before x l := by
  induction l with
  | nil => simpa [insBy] using h
  | cons y l ih =>
    unfold insBy
    split
    · simpa using h
    · rcases h with rfl | h
      · exact List.mem_cons_of_mem _ (ih (.inl rfl))
      · rcases List.mem_cons.1 h with rfl | h
        · exact List.mem_cons_self
        · exact List.mem_cons_of_mem _ (ih (.inr h))

theorem mem_sortBy {α : Type} {before : α → α → Bool} {a : α} {l : List α} (h : a ∈ l) : a ∈ sortBy before l := by
  induction l with
  | nil => exact h
  | cons y l ih => exact mem_insBy ((List.mem_cons.1 h).imp id ih)

/-- No migration holds writes back. -/
def State.AllSwitched (s : State) : Prop := ∀ m ∈ s.migrations, m.switched = true

section
variable {s s' : State}

theorem AtHomes.allSwitched (h : AtHomes s s') (hs : s.AllSwitched) : s'.AllSwitched := by
  intro m hm
  obtain ⟨m0, hm0, he⟩ := List.mem_map.1 (h.migr ▸ List.mem_map_of_mem (f := Migration.unheld) hm)
  exact (congrArg Migration.switched he).symm.trans (hs m0 hm0)

theorem State.AllSwitched.heldFull (hs : s.AllSwitched) (pas : List Nat) : s.heldFull pas = false := by
  have hlock (a : Nat) : s.lockedOld a = false := by
    rw [State.lockedOld, List.any_eq_false]
    intro m hm
    simp [hs m hm]
  simp [State.heldFull, hlock]

/-- The stores that a line's write-back has sent home are no byte's any more. -/
theorem State.AllSwitched.selfOut (hs : s.AllSwitched) (core line : Nat) (ids : List Nat) :
    ∀ b ∈ ((s.selfOut core line ids).core core).self, ∀ x ∈ b.stores, x.id ∉ ids := by
  induction ids generalizing s with
  | nil => simp
  | cons id ids ih =>
    unfold State.selfOut
    extract_lets mine cells s1
    rw [if_neg (ne_true_of_eq_false (hs.heldFull _))]
    have h1 : AtHomes s s1 := AtHomes.modCore s core (Core.Sheds.of_stores_filter _ _)
    have hw : AtHomes s1 (s1.writeLine ⟨cells, some core, mine.any (·.2.push), 1, mine.flatMap (·.2.after)⟩) := AtHomes.writeLine _ _
    intro b hb x hx hmem
    rcases List.mem_cons.1 hmem with rfl | hmem
    · obtain ⟨a, ha, -, hst⟩ := ((hw.trans (AtHomes.selfOut _ core line ids)).core core).2 b hb
      have hself : (s1.core core).self = (s.core core).self.map (fun b => { b with stores := b.stores.filter (fun y => y.id != x.id) }) :=
        congrArg Core.self (s.core_modCore_self core _)
      rw [hself] at ha
      obtain ⟨a0, -, rfl⟩ := List.mem_map.1 ha
      simpa using List.of_mem_filter (hst x hx)
    · exact ih ((h1.trans hw).allSwitched hs) b hb x hx hmem

/-- A line that has been written back has no store left. -/
theorem State.AllSwitched.writeBack (hs : s.AllSwitched) (core line : Nat) :
    ∀ b ∈ ((s.writeBack core line).core core).self, lineOf b.pa = line → b.stores = [] := by
  unfold State.writeBack
  extract_lets s0 lost s1
  have h0 : AtHomes s s0 := AtHomes.giveBack s _
  have h1 : AtHomes s0 s1 := by
    unfold s1
    split
    · exact (AtHomes.modCore _ _ (Core.Sheds.of_filter _ _)).trans (AtHomes.count _ _ _ _)
    · exact .refl _
  intro b hb hline
  obtain ⟨a, ha, hpa, hst⟩ := ((AtHomes.selfOut s1 core line ((s1.core core).storeIds line)).core core).2 b hb
  refine List.eq_nil_iff_forall_not_mem.2 (fun x hx => ?_)
  refine ((h0.trans h1).allSwitched hs).selfOut core line _ b hb x hx (mem_sortBy (List.mem_eraseDups.2 ?_))
  exact List.mem_flatMap.2 ⟨a, List.mem_filter.2 ⟨ha, by simp [hpa, hline]⟩, List.mem_map.2 ⟨x, hst x hx, rfl⟩⟩

/-- A core that has been cleaned has no dirty byte. -/
theorem State.AllSwitched.cleanCore (hs : s.AllSwitched) (core : Nat) : ∀ b ∈ ((s.cleanCore core).core core).self, b.dirty = false := by
  have hlines (l : List Nat) : ∀ s : State, s.AllSwitched → ∀ b ∈ ((l.foldl (fun s l => s.writeBack core l) s).core core).self,
      lineOf b.pa ∈ l → b.stores = [] := by
    induction l with
    | nil => simp
    | cons line l ih =>
      intro s hs b hb hmem
      rw [List.foldl_cons] at hb
      have hb1 := AtHomes.writeBack s core line
      rcases List.mem_cons.1 hmem with hline | hmem
      · obtain ⟨a, ha, hpa, hst⟩ := ((AtHomes.foldl (fun s l => AtHomes.writeBack s core l) l (s.writeBack core line)).core core).2 b hb
        have hnil := hs.writeBack core line a ha (by rw [hpa, hline])
        exact List.eq_nil_iff_forall_not_mem.2 (fun x hx => by simpa [hnil] using hst x hx)
      · exact ih _ (hb1.allSwitched hs) b hb hmem
  intro b hb
  obtain ⟨a, ha, hpa, -⟩ := ((AtHomes.cleanCore s core).core core).2 b hb
  have hmem : lineOf b.pa ∈ s.coreLines core := by
    rw [State.coreLines, List.mem_eraseDups, ← hpa]
    exact List.mem_append_left _ (List.mem_append_right _ (List.mem_map.2 ⟨a, ha, rfl⟩))
  simp [SelfByte.dirty, hlines _ s hs b hb hmem]

end

/-! ## The removal -/

/-- One core gives up what a shootdown hits. -/
def State.shootCore (x : Shoot) (s : State) (c : Nat) : State :=
  (s.cleanCore c).modCore c (fun k => { k with tlb := k.tlb.filter (fun e => !x.hits e) })

/-- What a removal does to the cores and the migrations: translations go, and stores go home. -/
structure Removes (s s' : State) : Prop where
  tlb : ∀ n, ∀ y ∈ (s'.core n).tlb, y ∈ (s.core n).tlb
  self : ∀ n, ∀ b ∈ (s'.core n).self, ∃ a ∈ (s.core n).self, ∀ z ∈ b.stores, z ∈ a.stores
  calm : s.AllSwitched → s'.AllSwitched

namespace Removes

theorem refl (s : State) : Removes s s := ⟨fun _ _ h => h, fun _ b h => ⟨b, h, fun _ hz => hz⟩, id⟩

theorem trans {s s' s'' : State} (h1 : Removes s s') (h2 : Removes s' s'') : Removes s s'' where
  tlb n y hy := h1.tlb n y (h2.tlb n y hy)
  self n b hb := by
    obtain ⟨a, ha, hst⟩ := h2.self n b hb
    obtain ⟨a', ha', hst'⟩ := h1.self n a ha
    exact ⟨a', ha', fun z hz => hst' z (hst z hz)⟩
  calm h := h2.calm (h1.calm h)

theorem of_atHomes {s s' : State} (h : AtHomes s s') : Removes s s' where
  tlb n y hy := (h.core n).1 ▸ hy
  self n b hb := by
    obtain ⟨a, ha, -, hst⟩ := (h.core n).2 b hb
    exact ⟨a, ha, hst⟩
  calm := h.allSwitched

theorem modCore_tlb (s : State) (c : Nat) (p : TlbEnt → Bool) :
    Removes s (s.modCore c (fun k => { k with tlb := k.tlb.filter p })) where
  tlb n y hy := by
    by_cases hn : n = c
    · subst hn
      rw [State.core_modCore_self] at hy
      exact List.mem_of_mem_filter hy
    · rwa [State.core_modCore_ne s _ hn] at hy
  self n b hb := by
    refine ⟨b, ?_, fun _ hz => hz⟩
    by_cases hn : n = c
    · subst hn
      rwa [State.core_modCore_self] at hb
    · rwa [State.core_modCore_ne s _ hn] at hb
  calm h := h

theorem shootCore (x : Shoot) (s : State) (c : Nat) : Removes s (s.shootCore x c) :=
  (of_atHomes (.cleanCore s c)).trans (modCore_tlb _ c _)

end Removes

/-- A core of those that give up what a shootdown hits keeps no entry that it hits, and no dirty byte where no migration holds writes. -/
theorem shootCores_clean (x : Shoot) {s : State} {l : List Nat} {c : Nat} (hc : c ∈ l) :
    (∀ y ∈ ((l.foldl (State.shootCore x) s).core c).tlb, x.hits y = false) ∧
      (s.AllSwitched → ∀ b ∈ ((l.foldl (State.shootCore x) s).core c).self, b.dirty = false) := by
  obtain ⟨l1, l2, rfl⟩ := List.append_of_mem hc
  rw [List.foldl_append, List.foldl_cons]
  have hfold (l : List Nat) (s : State) : Removes s (l.foldl (State.shootCore x) s) :=
    foldl_related (R := Removes) .refl .trans (Removes.shootCore x) l s
  generalize hs1 : l1.foldl (State.shootCore x) s = s1
  have h2 := hfold l2 (s1.shootCore x c)
  have hcore : (s1.shootCore x c).core c =
      { (s1.cleanCore c).core c with tlb := ((s1.cleanCore c).core c).tlb.filter (fun e => !x.hits e), num := c } :=
    State.core_modCore_self _ c _
  refine ⟨fun y hy => ?_, fun hcalm b hb => ?_⟩
  · have hy := h2.tlb c y hy
    rw [hcore] at hy
    simpa using List.of_mem_filter hy
  · obtain ⟨a, ha, hst⟩ := h2.self c b hb
    rw [hcore] at ha
    have hclean := (hs1 ▸ (hfold l1 s).calm hcalm : s1.AllSwitched).cleanCore c a ha
    simp only [SelfByte.dirty, Bool.not_eq_false', List.isEmpty_iff] at hclean ⊢
    exact List.eq_nil_iff_forall_not_mem.2 (fun z hz => by simpa [hclean] using hst z hz)

/-- The removal of a shootdown, core by core. -/
theorem State.shootRemove_core (s : State) (x : Shoot) (n : Nat) :
    (s.shootRemove x).1.core n = ((s.cores.map (·.num)).foldl (State.shootCore x) s).core n := rfl

/-- The only shootdown in flight goes on. -/
theorem execShootComplete_one {s : State} {x : Shoot} (h : s.shoots = [x]) :
    exec .shootComplete s = .next (match s.shootStep x with
      | some r => { r.1 with shoots := r.2.toList }
      | none => s) := by
  have hexec : exec .shootComplete s = execShootComplete s := rfl
  have hfirst : s.shootFirst Config.shootLimit [] [x] = (s.shootStep x).map (fun r => (r.1, r.2.toList)) := by
    simp only [Config.shootLimit, State.shootFirst, List.any_nil]
    cases s.shootStep x <;> simp
  rw [hexec, execShootComplete, h, hfirst]
  cases s.shootStep x <;> rfl

/-- A shootdown's first step leaves no translation that it hits, and no dirty byte where no migration holds writes back. -/
theorem execShootComplete_removes {s : State} {x : Shoot} (h : s.shoots = [x]) (hx : x.removed = false) :
    ∃ s', exec .shootComplete s = .next s' ∧ ∀ c ∈ s.cores, (∀ y ∈ (s'.core c.num).tlb, x.hits y = false) ∧
      (s.AllSwitched → ∀ b ∈ (s'.core c.num).self, b.dirty = false) := by
  have hstep : ∃ o, s.shootStep x = some ((s.shootRemove x).1, o) := ⟨_, by rw [State.shootStep, if_pos (by simp [hx])]⟩
  obtain ⟨o, ho⟩ := hstep
  rw [execShootComplete_one h, ho]
  exact ⟨_, rfl, fun c hc => shootCores_clean x (s := s) (l := s.cores.map Core.num) (c := c.num) (List.mem_map_of_mem hc)⟩

theorem execShootComplete_done {s : State} {x : Shoot} (h : s.shoots = [x]) (hx : x.removed = true) (hd : s.shootDone x = true) :
    exec .shootComplete s = .next { s with shoots := [] } := by
  rw [execShootComplete_one h, State.shootStep, if_neg (by simp [hx]), if_pos hd]
  rfl

theorem execShootComplete_waits {s : State} {x : Shoot} (h : s.shoots = [x]) (hx : x.removed = true) (hd : s.shootDone x = false) :
    exec .shootComplete s = .next s := by
  rw [execShootComplete_one h, State.shootStep, if_neg (by simp [hx]), if_neg (by simp [hd])]

/-! ## The word -/

section
variable {s : State} {t : Team} {g : Group}

/-- A release that has nothing to wait for has its effect once the core's writes have gone home. -/
theorem State.Released.releasing {sc : Nat} (h : s.Released t g sc) (f : State → Res) :
    s.releasing t g sc f = f (s.relScope g.core sc t.paired) := by
  obtain ⟨hwait, hflush, hpush⟩ := h
  simp [State.releasing, hwait, hflush, hpush]

/-- `SHOOT` needs system mode. -/
theorem exec_shoot_user (h : s.Issues t g) (hm : s.iss.mode = .issue) (hw : s.iss.wid = 0) {e : EF} (hp : g.sPending [e.p.toNat] = false)
    (hh : s.held g = none) (hs : s.iss.sys = false) (sz : ShootSize) :
    exec (.shoot e sz) s = .next (s.trapNow (s.wordTrap 2 6 0 0xFF 0)) := by
  have hexec : exec (.shoot e sz) s = execShoot e sz s := rfl
  rw [hexec, execShoot, State.asE_eq h.1 h.2 hw hp (fun _ => hh) rfl]
  refine (congrArg (s.finishWait _ _ _ _ _) (if_pos (by simp [hs]))).trans ?_
  simp [State.finishWait, State.notPrivileged, State.raise, hm]

/-- The shootdown that a `SHOOT` of a group queues. -/
def State.shootOf (s : State) (t : Team) (g : Group) (e : EF) (sz : ShootSize) : Shoot :=
  { grp := s.iss.grp, mask := s.iss.mask, space := t.space, size := sz,
    va := match shootBytes sz with
      | some n => va56 (g.sreg e.p.toNat).toNat / n * n
      | none => 0
    removed := false, cmds := [], bufs := [], colls := [] }

/-- `SHOOT` queues its shootdown, behind a release, and waits. -/
theorem exec_shoot_queues (h : s.Issues t g) (hm : s.iss.mode = .issue) (hw : s.iss.wid = 0) {e : EF} (hp : g.sPending [e.p.toNat] = false)
    (hh : s.held g = none) (hs : s.iss.sys = true) (hr : s.Released t g 6) (hx : e.x ≠ 0) (sz : ShootSize) :
    ∃ s', exec (.shoot e sz) s = .next s' ∧ s'.shoots = s.shoots ++ [s.shootOf t g e sz] := by
  have hexec : exec (.shoot e sz) s = execShoot e sz s := rfl
  have hhome := AtHomes.relScope s g.core 6 t.paired
  have hshoots : (s.relScope g.core 6 t.paired).shoots = s.shoots := hhome.keep State.shoots (fun _ _ => rfl)
  have hof : (s.relScope g.core 6 t.paired).shootOf t g e sz = s.shootOf t g e sz :=
    hhome.keep (fun s => s.shootOf t g e sz) (fun _ _ => rfl)
  rw [hexec, execShoot, State.asE_eq h.1 h.2 hw hp (fun _ => hh) rfl]
  refine ⟨_, (congrArg (s.finishWait _ _ _ _ _) ((if_neg (by simp [hs])).trans ((if_pos hm).trans ((hr.releasing _).trans
    (if_neg fun hq => hx (of_decide_eq_true (Bool.and_eq_true_iff.1 hq).1)))))).trans
    ((State.finishWait_wait hm _ 0 _ _ _ _ _).trans (congrArg Host.Outcome.next (if_neg hx))), ?_⟩
  rw [State.block_shoots, ← hof, ← hshoots]
  rfl

/-- A `SHOOT` of which nothing is left is `OK`, and an acquire. -/
theorem exec_shoot_ok (h : s.Issues t g) (hm : s.iss.mode = .examine) (hw : s.iss.wid ≠ 0) (hs : s.iss.sys = true)
    (hnone : ∀ x ∈ s.shoots, x.grp ≠ s.iss.grp) (e : EF) (sz : ShootSize) :
    exec (.shoot e sz) s = .next ((s.putStatus e.q stOk 0).acquire t (g.withKept s.iss.kept) 6) := by
  have hexec : exec (.shoot e sz) s = execShoot e sz s := rfl
  have hmine (p : Shoot → Bool) : s.shoots.any (fun x => decide (x.grp = s.iss.grp) && p x) = false := by
    rw [List.any_eq_false]
    intro x hx
    simp [hnone x hx]
  rw [hexec, execShoot, State.asE, State.asEWith, h.1, h.2]
  simp only [hm, hw, hs, Bool.and_assoc, hmine]
  rfl

end

end Sys2Proof.Machine

/-! # Pages copied and bytes written at homes that nothing holds -/

namespace Sys2Proof.Machine

open Sys2Proof

/-! ## Memory -/

/-- The bytes at some addresses alone. -/
theorem Memory.read_filter (m : Memory) (p : Nat → Bool) (a : Nat) :
    Memory.read (m.filter (fun c => p c.1)) a = if p a then m.read a else unlisted := by
  induction m with
  | nil => simp
  | cons c m ih =>
    rw [List.filter_cons]
    by_cases hc : c.1 = a
    · subst hc
      by_cases hp : p c.1 = true
      · simp [hp, Memory.read]
      · simp [hp, ih]
    · split <;> simp [Memory.read, hc, ih]

/-- A page's bytes copied to another page, as memory is after it. -/
def Memory.copied (m : Memory) (old new size : Nat) : Memory :=
  (m.filter (fun c => decide (old ≤ c.1) && decide (c.1 < old + size))).foldl
    (fun (x : Memory) c => x.write (new + (c.1 - old)) c.2) (m.filter (fun c => !(decide (new ≤ c.1) && decide (c.1 < new + size))))

/-- Writes elsewhere leave a byte. -/
theorem Memory.read_foldl_write_ne {α : Type} (f : α → Nat) (v : α → Byte) (l : List α) {m : Memory} (h : Memory.wf m = true) {b : Nat}
    (hb : ∀ c ∈ l, b ≠ f c) : Memory.read (l.foldl (fun x c => x.write (f c) (v c)) m) b = m.read b := by
  induction l generalizing m with
  | nil => rfl
  | cons c l ih =>
    rw [List.foldl_cons, ih (Memory.write_wf _ _ h) (fun d hd => hb d (List.mem_cons_of_mem _ hd)),
      Memory.read_write_ne _ h (hb c List.mem_cons_self)]

/-- Listed bytes written at their offsets from another place are read there; the others are as before. -/
theorem Memory.read_foldl_copy {old new lo : Nat} {l : Memory} (hl : Memory.wfFrom lo l = true) (hlo : ∀ c ∈ l, old ≤ c.1) {m : Memory}
    (h : Memory.wf m = true) (k : Nat) :
    Memory.read (List.foldl (fun (x : Memory) c => x.write (new + (c.1 - old)) c.2) m l) (new + k) =
      if l.read (old + k) = unlisted then m.read (new + k) else l.read (old + k) := by
  induction l generalizing lo m with
  | nil => simp
  | cons c l ih =>
    simp only [Memory.wfFrom, Bool.and_eq_true, decide_eq_true_eq] at hl
    obtain ⟨⟨-, hv⟩, hl⟩ := hl
    have hc := hlo c List.mem_cons_self
    rw [List.foldl_cons, ih hl (fun d hd => hlo d (List.mem_cons_of_mem _ hd)) (Memory.write_wf _ _ h)]
    by_cases hk : c.1 = old + k
    · have hnone : Memory.read l (old + k) = unlisted := Memory.read_below hl (by omega)
      have hat : new + (c.1 - old) = new + k := by omega
      rw [if_pos hnone, hat, Memory.read_write_self _ _ h]
      simp [Memory.read, hk, hv]
    · rw [Memory.read_write_ne _ h (by omega)]
      simp [Memory.read, hk]

theorem Memory.filter_wf (p : Host.Cell → Bool) {m : Memory} (h : Memory.wf m = true) : Memory.wf (m.filter p) = true :=
  Memory.filter_wfFrom p h

/-- The new page holds the old page's bytes. -/
theorem Memory.read_copied {m : Memory} (h : Memory.wf m = true) {old new size k : Nat} (hk : k < size) :
    (m.copied old new size).read (new + k) = m.read (old + k) := by
  have hold : ∀ c ∈ m.filter (fun c => decide (old ≤ c.1) && decide (c.1 < old + size)), old ≤ c.1 := fun c hc => by
    have hc := List.of_mem_filter hc
    simp only [Bool.and_eq_true, decide_eq_true_eq] at hc
    exact hc.1
  rw [Memory.copied, Memory.read_foldl_copy (Memory.filter_wf _ h) hold (Memory.filter_wf _ h),
    Memory.read_filter m (fun a => decide (old ≤ a) && decide (a < old + size)),
    Memory.read_filter m (fun a => !(decide (new ≤ a) && decide (a < new + size)))]
  have h1 : (decide (old ≤ old + k) && decide (old + k < old + size)) = true := by simp [hk]
  have h2 : (!(decide (new ≤ new + k) && decide (new + k < new + size))) = false := by simp [hk]
  simp only [h1, h2, if_true, Bool.false_eq_true, if_false]
  split
  · next he => exact he.symm
  · rfl

/-- The bytes outside the new page are as before. -/
theorem Memory.read_copied_out {m : Memory} (h : Memory.wf m = true) {old new size a : Nat} (ha : a < new ∨ new + size ≤ a) :
    (m.copied old new size).read a = m.read a := by
  rw [Memory.copied, Memory.read_foldl_write_ne (fun c : Host.Cell => new + (c.1 - old)) Prod.snd _ (Memory.filter_wf _ h),
    Memory.read_filter m (fun a => !(decide (new ≤ a) && decide (a < new + size))), if_pos]
  · simp only [Bool.not_eq_true', Bool.and_eq_false_iff, decide_eq_false_iff_not]
    omega
  · intro c hc
    have hc := List.of_mem_filter hc
    simp only [Bool.and_eq_true, decide_eq_true_eq] at hc
    omega

/-- A write of bytes is its cells' writes in order. -/
theorem Memory.writeN_eq_cells (m : Memory) (a : Nat) (bs : List Byte) :
    m.writeN a bs = (cellsAt a bs).foldl (fun (m : Memory) c => m.write c.1 c.2) m := by
  induction bs generalizing m a with
  | nil => rfl
  | cons b bs ih =>
    have hcells : cellsAt a (b :: bs) = (a, b) :: cellsAt (a + 1) bs := by
      simp only [cellsAt, rangeFrom, List.length_cons, List.range_succ_eq_map, List.map_cons, List.map_map, List.zip_cons_cons]
      congr 2
      exact List.map_congr_left (fun k _ => by simp only [Function.comp]; omega)
    rw [Memory.writeN, ih, hcells]
    rfl

theorem Memory.readN_eq_map (m : Memory) (a n : Nat) : m.readN a n = (List.range n).map (fun k => m.read (a + k)) := by
  induction n generalizing a with
  | zero => rfl
  | succ n ih =>
    rw [Memory.readN, ih, List.range_succ_eq_map, List.map_cons, List.map_map]
    congr 1
    exact List.map_congr_left (fun k _ => by simp only [Function.comp]; congr 1; omega)

/-- Bytes written are read back. -/
theorem Memory.readN_writeN {m : Memory} (h : Memory.wf m = true) (a : Nat) (bs : List Byte) :
    (m.writeN a bs).readN a bs.length = bs := by
  rw [Memory.readN_eq_map]
  exact List.ext_getElem (by simp) (fun k _ hk => by simpa using Memory.read_writeN_in h hk)

/-! ## Homes that nothing holds -/

/-- Neither memory nor what waits at homes changes. -/
structure Quiet (s s' : State) : Prop where
  mem : s'.mem = s.mem
  stale : s'.stale = s.stale
  pushq : s'.pushq = s.pushq
  migr : s'.migrations = s.migrations

namespace Quiet

theorem refl (s : State) : Quiet s s := ⟨rfl, rfl, rfl, rfl⟩

theorem trans {s s' s'' : State} (h1 : Quiet s s') (h2 : Quiet s' s'') : Quiet s s'' :=
  ⟨h2.mem.trans h1.mem, h2.stale.trans h1.stale, h2.pushq.trans h1.pushq, h2.migr.trans h1.migr⟩

theorem count (s : State) (w reg n : Nat) : Quiet s (s.count w reg n) := ⟨rfl, rfl, rfl, rfl⟩

/-- Without dirty copies nothing goes home. -/
theorem giveBack {s : State} (h : s.stale = []) (p : Nat × Byte × Nat → Bool) : Quiet s (s.giveBack p) := by
  unfold State.giveBack
  extract_lets out lost isLost s1
  have hlost : lost = [] := by simp [lost, out, h]
  have h1 : Quiet s s1 := ⟨by simp [s1, hlost], by simp [s1, h], rfl, rfl⟩
  exact h1.trans (foldl_related (R := Quiet) refl trans (fun s _ => count s _ _ _) _ s1)

theorem recallLine {s : State} (h : s.stale = []) (pa : Nat) : Quiet s (s.recallLine pa) :=
  (giveBack h _).trans ⟨rfl, rfl, rfl, rfl⟩

theorem regionDrop {s : State} (h : s.stale = []) (r : Region) (core : Option Nat) : Quiet s (s.regionDrop r core) :=
  (giveBack h _).trans ⟨rfl, rfl, rfl, rfl⟩

theorem recallAll {s : State} (h : s.stale = []) (pa : Nat) : Quiet s (s.recallAll pa) := by
  unfold State.recallAll
  split
  · next r _ =>
    have hdrop : Quiet s ((s.regionDrop r none).putRegions pa [{ r with sharers := [] }]) :=
      (regionDrop h r none).trans ⟨rfl, rfl, rfl, rfl⟩
    exact hdrop.trans (recallLine (hdrop.stale.trans h) pa)
  · exact recallLine h pa

theorem noticed (s : State) (pas : List Nat) : Quiet s (s.noticed pas) := by
  unfold State.noticed
  split
  · exact ⟨rfl, rfl, rfl, rfl⟩
  · exact refl s

end Quiet

/-- No home holds a write, no channel is fenced and no byte is dirty. -/
structure State.Plain (s : State) : Prop where
  fences : s.fencemap = [] ∧ s.gone = []
  host : s.hostLines = []
  pushq : s.pushq = []
  stale : s.stale = []
  calm : s.AllSwitched

section
variable {s : State}

theorem State.Plain.fenced (h : s.Plain) (pa : Nat) : s.fenced pa = false := by
  simp [State.fenced, h.fences.1, h.fences.2]

theorem State.AllSwitched.unlocked (h : s.AllSwitched) (pa : Nat) : s.lockedOld pa = false ∧ s.lockedNew pa = false := by
  constructor
  · rw [State.lockedOld, List.any_eq_false]
    intro m hm
    simp [h m hm]
  · rw [State.lockedNew, List.any_eq_false]
    intro m hm
    simp [h m hm]

/-- From a state without anything held, homes have written some memory. -/
structure State.Plain.Writes (s s' : State) (m : Memory) : Prop where
  plain : s'.Plain
  migr : s'.migrations = s.migrations
  mem : s'.mem = m

/-- A plain state stays plain under work of homes that keeps what waits there. -/
theorem State.Plain.of_atHomes {s' : State} (h : s.Plain) (ha : AtHomes s s') (hp : s'.pushq = s.pushq) (hst : s'.stale = s.stale) :
    s'.Plain where
  fences := ⟨(ha.keep State.fencemap (fun _ _ => rfl)).trans h.fences.1, (ha.keep State.gone (fun _ _ => rfl)).trans h.fences.2⟩
  host := (ha.keep State.hostLines (fun _ _ => rfl)).trans h.host
  pushq := hp.trans h.pushq
  stale := hst.trans h.stale
  calm := ha.allSwitched h.calm

theorem State.Plain.homePut (h : s.Plain) (pa : Nat) (v : Byte) : State.Plain.Writes s (s.homePut pa v) (s.mem.write pa v) := by
  have hkeep : (s.homePut pa v).mem = s.mem.write pa v ∧ (s.homePut pa v).pushq = s.pushq ∧ (s.homePut pa v).stale = s.stale ∧
      (s.homePut pa v).migrations = s.migrations := by
    have hv : (s.unverify pa).mem = s.mem ∧ (s.unverify pa).pushq = s.pushq ∧ (s.unverify pa).stale = s.stale ∧
        (s.unverify pa).migrations = s.migrations := by
      unfold State.unverify
      split <;> exact ⟨rfl, rfl, rfl, rfl⟩
    rw [State.homePut, if_neg (ne_true_of_eq_false (h.fenced pa)), if_neg]
    · exact ⟨congrArg (·.write pa v) hv.1, hv.2⟩
    · simp [hv.2.2.1, h.stale]
  exact ⟨h.of_atHomes (.homePut s pa v) hkeep.2.1 hkeep.2.2.1, hkeep.2.2.2, hkeep.1⟩

/-- Where an access goes depends on the migrations alone. -/
theorem State.fwd_of_migrations {s' : State} (h : s'.migrations = s.migrations) (pa : Nat) : s'.fwd pa = s.fwd pa := by
  rw [State.fwd, State.fwd, h]

theorem State.Plain.putCells (h : s.Plain) {cells : List (Nat × Byte)} (hf : ∀ c ∈ cells, s.fwd c.1 = c.1) :
    State.Plain.Writes s (s.putCells 0 cells) (cells.foldl (fun (m : Memory) c => m.write c.1 c.2) s.mem) := by
  induction cells generalizing s with
  | nil => exact ⟨h, rfl, rfl⟩
  | cons c cs ih =>
    have ht : s.target 0 c.1 = c.1 := (if_neg (by decide)).trans (hf c List.mem_cons_self)
    have h1 := h.homePut c.1 c.2
    have h2 := ih h1.plain (fun d hd => (State.fwd_of_migrations h1.migr d.1).trans (hf d (List.mem_cons_of_mem _ hd)))
    rw [State.putCells, ht, List.foldl_cons, ← h1.mem]
    exact ⟨h2.plain, h2.migr.trans h1.migr, h2.mem⟩

/-- A write through `DIR` without pushes is performed. -/
theorem State.Plain.writeLine (h : s.Plain) {cells : List (Nat × Byte)} (hf : ∀ c ∈ cells, s.fwd c.1 = c.1) (core : Option Nat)
    (after : List Nat) : State.Plain.Writes s (s.writeLine ⟨cells, core, false, 0, after⟩)
      (cells.foldl (fun (m : Memory) c => m.write c.1 c.2) s.mem) := by
  cases hcells : cells with
  | nil => exact ⟨h, rfl, rfl⟩
  | cons c cs =>
    have hq := Quiet.recallAll h.stale (s.fwd c.1)
    have hp0 := h.of_atHomes (.recallAll s (s.fwd c.1)) hq.pushq hq.stale
    have hput := hp0.putCells (cells := c :: cs) (fun d hd => (State.fwd_of_migrations hq.migr d.1).trans (hf d (hcells ▸ hd)))
    have hn := Quiet.noticed ((s.recallAll (s.fwd c.1)).putCells 0 (c :: cs)) ((c :: cs).map (fun c => s.target 0 c.1))
    have hperform : s.writeLine ⟨c :: cs, core, false, 0, after⟩ = s.perform ⟨c :: cs, core, false, 0, after⟩ := by
      simp [State.writeLine, h.fenced, (h.calm.unlocked c.1).1, (h.calm.unlocked c.1).2, h.host, State.pushHeldLine, h.pushq]
    have hdone : s.perform ⟨c :: cs, core, false, 0, after⟩ = ((s.recallAll (s.fwd c.1)).putCells 0 (c :: cs)).noticed
        ((c :: cs).map (fun c => s.target 0 c.1)) := rfl
    rw [hperform, hdone, ← hq.mem]
    exact ⟨hput.plain.of_atHomes (.noticed _ _) hn.pushq hn.stale, hn.migr.trans (hput.migr.trans hq.migr), hn.mem.trans hput.mem⟩

theorem lineRuns_ne_nil_cons (cells : List (Nat × Byte)) (rs : List (List (Nat × Byte))) : lineRuns cells ≠ [] :: rs := by
  cases cells with
  | nil => simp [lineRuns]
  | cons c cs =>
    unfold lineRuns
    split
    · split <;> simp
    · simp

/-- The runs of some cells are those cells. -/
theorem lineRuns_flatten (cells : List (Nat × Byte)) : (lineRuns cells).flatten = cells := by
  induction cells with
  | nil => rfl
  | cons c cs ih =>
    unfold lineRuns
    split
    · next d r rs hr =>
      rw [hr] at ih
      split
      · simpa using ih
      · simpa using ih
    · next hr =>
      cases hruns : lineRuns cs with
      | nil => simpa [hruns] using ih
      | cons l ls =>
        cases l with
        | nil => exact absurd hruns (lineRuns_ne_nil_cons cs ls)
        | cons d r => exact absurd hruns (hr d r ls)

/-- A write through `DIR` without pushes, in one line or several. -/
theorem State.Plain.writeCells (h : s.Plain) {cells : List (Nat × Byte)} (hf : ∀ c ∈ cells, s.fwd c.1 = c.1) (core : Option Nat) :
    State.Plain.Writes s (s.writeCells core 0 false cells) (cells.foldl (fun (m : Memory) c => m.write c.1 c.2) s.mem) := by
  have hruns (runs : List (List (Nat × Byte))) : ∀ s : State, s.Plain → (∀ c ∈ runs.flatten, s.fwd c.1 = c.1) →
      State.Plain.Writes s (runs.foldl (fun s l => s.writeLine ⟨l, core, false, 0, s.writerAfter⟩) s)
        (runs.flatten.foldl (fun (m : Memory) c => m.write c.1 c.2) s.mem) := by
    induction runs with
    | nil => exact fun s h _ => ⟨h, rfl, rfl⟩
    | cons l runs ih =>
      intro s h hf
      have h1 := h.writeLine (cells := l) (fun c hc => hf c (by simp [hc])) core s.writerAfter
      have h2 := ih _ h1.plain (fun c hc => (State.fwd_of_migrations h1.migr c.1).trans (hf c (by simp [hc])))
      rw [List.foldl_cons, List.flatten_cons, List.foldl_append, ← h1.mem]
      exact ⟨h2.plain, h2.migr.trans h1.migr, h2.mem⟩
  have h1 := hruns (lineRuns cells) s h (by rwa [lineRuns_flatten])
  rwa [lineRuns_flatten] at h1

end

end Sys2Proof.Machine

/-! # Migrations (R202, R203)

A word of `MIGRATE` reads its block, which may meet poison, and then does its own part; the start of a migration copies the page. -/

namespace Sys2Proof.Machine

open Sys2Proof

/-- Outside trap mode poison does not change how a word ends. -/
theorem Res.gated_of_no_trap (r : Res) (s : State) (t : Team) {g : Group} (h : g.trapMask = none) : r.gated s t g = r := by
  have hgate (u : State) : u.poisonGate s t g = u := by
    unfold State.poisonGate
    split
    · simp [h]
    · rfl
  unfold Res.gated
  split <;> simp [hgate]

/-! ## Words with a parameter block -/

section
variable {s : State} {t : Team} {g : Group} {e : EF} {f : State → Team → Group → List Byte → Res}

/-- A word of `MIGRATE` needs system mode. -/
theorem State.migWord_user (h : s.EReady t g [e.p.toNat]) (hs : s.iss.sys = false) :
    s.migWord e f = .next (s.trapNow (s.wordTrap 2 6 0 0xFF 0)) := by
  obtain ⟨hi, hm, hw, hp, hh, -⟩ := h
  rw [State.migWord, State.asE_eq hi.1 hi.2 hw hp (fun _ => hh) rfl]
  refine (congrArg (s.finishWait _ _ _ _ _) (if_pos (by simp [hs]))).trans ?_
  simp [State.finishWait, State.notPrivileged, State.raise, hm]

/-- A misaligned block is refused. -/
theorem State.migWord_misaligned (h : s.EReady t g [e.p.toNat]) (hs : s.iss.sys = true)
    (ha : va56 (g.sreg e.p.toNat).toNat % 32 ≠ 0) : s.migWord e f = .next (s.putStatus e.q stRejected 0) := by
  obtain ⟨hi, hm, hw, hp, hh, -⟩ := h
  rw [State.migWord, State.asE_eq hi.1 hi.2 hw hp (fun _ => hh) rfl]
  exact congrArg (s.finishWait _ _ _ _ _) ((if_neg (by simp [hs])).trans ((if_neg (by simp [hm])).trans (if_pos ha)))

/-- A block that can be read goes to the word's own part. -/
theorem State.migWord_eq (h : s.EReady t g [e.p.toNat]) (hs : s.iss.sys = true) (ht : g.trapMask = none)
    (ha : va56 (g.sreg e.p.toNat).toNat % 32 = 0) {s1 : State} {bs : List Byte}
    (hr : s.Reads t g (va56 (g.sreg e.p.toNat).toNat) 32 s1 bs) :
    s.migWord e f = s.finishWait [e.p.toNat] [e.q.toNat] e.q e.x none (f s1 t g bs) := by
  obtain ⟨hi, hm, hw, hp, hh, -⟩ := h
  obtain ⟨hheld, hread⟩ := hr
  have hreading (f : State → List Byte → Res) : s.reading t g (va56 (g.sreg e.p.toNat).toNat) 32 f = f s1 bs := by
    unfold State.reading
    rw [if_neg (ne_true_of_eq_false hheld), hread]
    exact Res.gated_of_no_trap _ s t ht
  rw [State.migWord, State.asE_eq hi.1 hi.2 hw hp (fun _ => hh) rfl]
  exact congrArg (s.finishWait _ _ _ _ _) ((if_neg (by simp [hs])).trans ((if_neg (by simp [hm])).trans
    ((if_neg (by simp [ha])).trans (hreading _))))

end

/-- The words of `MIGRATE` all read their block first. -/
theorem exec_migrate_word {i : Instr} {e : EF} (h : i = .migrateGo e ∨ i = .migrateWait e ∨ i = .migrateEnd e) (s : State) :
    ∃ f, exec i s = s.migWord e f := by
  obtain rfl | rfl | rfl := h
  · exact ⟨_, show execMigrateGo e s = _ by rw [execMigrateGo]⟩
  · exact ⟨_, show execMigrateWait e s = _ by rw [execMigrateWait]⟩
  · exact ⟨_, show execMigrateEnd e s = _ by rw [execMigrateEnd]⟩

/-! ## The start of a migration -/

/-- The migration of a block, as it starts. -/
def MigBlock.started (m : MigBlock) : Migration :=
  { old := m.old, new := m.new, size := m.size, leafPA := m.leafPA, leaf := m.leaf, switched := false, held := [], waiters := [] }

/-- The start of a migration but for its entry: the pages locked and copied. -/
def State.migCopied (s : State) (m : MigBlock) : State :=
  State.copyHeld (State.copyPage ((s.lockPage m.old m.size).lockPage m.new m.size) m) m

theorem State.migStart_eq (s : State) (m : MigBlock) :
    s.migStart m = { s.migCopied m with migrations := (s.migCopied m).migrations ++ [m.started] } := by
  rw [State.migStart, State.migCopied, MigBlock.started]

/-- The teams, the migrations, the word in issue and the host's lines are the same. -/
structure Locks (s s' : State) : Prop where
  teams : s'.teams = s.teams
  migr : s'.migrations = s.migrations
  iss : s'.iss = s.iss
  host : s'.hostLines = s.hostLines

namespace Locks

theorem refl (s : State) : Locks s s := ⟨rfl, rfl, rfl, rfl⟩

theorem trans {s s' s'' : State} (h1 : Locks s s') (h2 : Locks s' s'') : Locks s s'' :=
  ⟨h2.teams.trans h1.teams, h2.migr.trans h1.migr, h2.iss.trans h1.iss, h2.host.trans h1.host⟩

theorem count (s : State) (w reg n : Nat) : Locks s (s.count w reg n) := ⟨rfl, rfl, rfl, rfl⟩

theorem lockPage (s : State) (pa n : Nat) : Locks s (s.lockPage pa n) := by
  have hback (p : Nat × Byte × Nat → Bool) : Locks s (s.giveBack p) := by
    unfold State.giveBack
    extract_lets out lost isLost s1
    have h1 : Locks s s1 := ⟨rfl, rfl, rfl, rfl⟩
    exact h1.trans (foldl_related (R := Locks) refl trans (fun s _ => count s _ _ _) _ s1)
  exact (hback _).trans ⟨rfl, rfl, rfl, rfl⟩

theorem snoopWrite (s : State) (h : HeldWrite) (line : Nat) : Locks s (s.snoopWrite h line) := by
  have hsend : Locks s (s.sendSnoop line) := by
    unfold State.sendSnoop
    split <;> exact ⟨rfl, rfl, rfl, rfl⟩
  exact hsend.trans ⟨rfl, rfl, rfl, rfl⟩

theorem copyHeld (s : State) (m : MigBlock) : Locks s (s.copyHeld m) :=
  foldl_related (R := Locks) refl trans (fun s l => snoopWrite s _ l) _ s

theorem copyPage (s : State) (m : MigBlock) : Locks s (s.copyPage m) := ⟨rfl, rfl, rfl, rfl⟩

theorem lockPages (s : State) (m : MigBlock) : Locks s ((s.lockPage m.old m.size).lockPage m.new m.size) :=
  (lockPage s _ _).trans (lockPage _ _ _)

theorem start (s : State) (m : MigBlock) : Locks s (s.migCopied m) := ((lockPages s m).trans (copyPage _ m)).trans (copyHeld _ m)

end Locks

theorem Quiet.lockPage {s : State} (h : s.stale = []) (pa n : Nat) : Quiet s (s.lockPage pa n) :=
  (giveBack h _).trans ⟨rfl, rfl, rfl, rfl⟩

section
variable {s : State} {m : MigBlock}

@[simp] theorem State.migStart_teams (s : State) (m : MigBlock) : (s.migStart m).teams = s.teams := by
  rw [State.migStart_eq]
  exact (Locks.start s m).teams

@[simp] theorem State.migStart_iss (s : State) (m : MigBlock) : (s.migStart m).iss = s.iss := by
  rw [State.migStart_eq]
  exact (Locks.start s m).iss

@[simp] theorem State.migStart_migrations (s : State) (m : MigBlock) : (s.migStart m).migrations = s.migrations ++ [m.started] := by
  rw [State.migStart_eq]
  exact congrArg (· ++ [m.started]) (Locks.start s m).migr

/-- Where the host holds no line, and no core a dirty copy, a start copies the page. -/
theorem State.migStart_mem (hst : s.stale = []) (hh : s.hostLines = []) (m : MigBlock) :
    (s.migStart m).mem = s.mem.copied m.old m.new m.size := by
  have hq1 := Quiet.lockPage hst m.old m.size
  have hq := hq1.trans (Quiet.lockPage (hq1.stale.trans hst) m.new m.size)
  have hhost := (Locks.lockPages s m).host.trans hh
  have hcopy (u : State) (hu : u.hostLines = []) : (u.copyPage m).mem = u.mem.copied m.old m.new m.size := by
    simp [State.copyPage, Memory.copied, hu]
  have hheld (u : State) (hu : u.hostLines = []) : u.copyHeld m = u := by
    simp [State.copyHeld, hu]
  have hmem : (s.migStart m).mem = (s.migCopied m).mem := by rw [State.migStart_eq]
  rw [hmem, State.migCopied, hheld _ ((Locks.copyPage _ m).host.trans hhost), hcopy _ hhost, hq.mem]

@[simp] theorem State.migWait_teams (s : State) (old : Nat) : (s.migWait old).teams = s.teams := rfl
@[simp] theorem State.migWait_iss (s : State) (old : Nat) : (s.migWait old).iss = s.iss := rfl
@[simp] theorem State.migWait_mem (s : State) (old : Nat) : (s.migWait old).mem = s.mem := rfl

/-- The migration that has started, with the word in issue waiting for its switch. -/
def MigBlock.awaited (m : MigBlock) (s : State) : Migration := { m.started with waiters := [(s.iss.grp, s.iss.mask)] }

theorem State.awaited_mem_migWait (s : State) (m : MigBlock) : m.awaited s ∈ ((s.migStart m).migWait m.old).migrations := by
  unfold State.migWait
  rw [State.migStart_migrations, State.migStart_iss]
  refine List.mem_map.2 ⟨m.started, List.mem_append_right _ List.mem_cons_self, ?_⟩
  simp [MigBlock.awaited, MigBlock.started]

end

/-! ## `MIGRATE.go`, `.wait` and `.end` -/

section
variable {s s1 : State} {t : Team} {g : Group} {e : EF} {bs : List Byte}

/-- What the words need of the state to read their block: system mode, and a block that is aligned and can be read outside trap mode. -/
structure MigReads (s : State) (t : Team) (g : Group) (e : EF) (s1 : State) (bs : List Byte) : Prop where
  ready : s.EReady t g [e.p.toNat]
  sys : s.iss.sys = true
  noTrap : g.trapMask = none
  aligned : va56 (g.sreg e.p.toNat).toNat % 32 = 0
  reads : s.Reads t g (va56 (g.sreg e.p.toNat).toNat) 32 s1 bs

theorem MigReads.migWord (h : MigReads s t g e s1 bs) (f : State → Team → Group → List Byte → Res) :
    s.migWord e f = s.finishWait [e.p.toNat] [e.q.toNat] e.q e.x none (f s1 t g bs) :=
  State.migWord_eq h.ready h.sys h.noTrap h.aligned h.reads

theorem MigReads.poisons (h : MigReads s t g e s1 bs) : Poisons s s1 := Poisons.readVA h.reads.2

theorem MigReads.migrations (h : MigReads s t g e s1 bs) : s1.migrations = s.migrations :=
  h.poisons.keep State.migrations (fun _ _ _ => rfl)

/-- The block decides that the word is done. -/
theorem MigReads.done (h : MigReads s t g e s1 bs) {f : State → Team → Group → List Byte → Res} {u : State} (hf : f s1 t g bs = .done u) :
    s.migWord e f = .next u := by
  rw [h.migWord, hf, State.finishWait_done]

theorem MigReads.go_rejected (h : MigReads s t g e s1 bs) (hb : s1.migBad bs (migBlock bs) = true) :
    exec (.migrateGo e) s = .next (s1.putStatus e.q stRejected 0) := by
  have hexec : exec (.migrateGo e) s = execMigrateGo e s := rfl
  rw [hexec, execMigrateGo]
  exact h.done (if_pos hb)

theorem MigReads.migMeets (h : MigReads s t g e s1 bs) (pa n : Nat) : s1.migMeets pa n = s.migMeets pa n :=
  h.poisons.keep (fun s => s.migMeets pa n) (fun _ _ _ => rfl)

theorem MigReads.go_busy (h : MigReads s t g e s1 bs) (hb : s1.migBad bs (migBlock bs) = false)
    (hbusy : Config.migrateLimit ≤ s.migrations.length ∨ s.migMeets (migBlock bs).old (migBlock bs).size = true ∨
      s.migMeets (migBlock bs).new (migBlock bs).size = true) :
    exec (.migrateGo e) s = .next (s1.putStatus e.q stBusy 0) := by
  have hexec : exec (.migrateGo e) s = execMigrateGo e s := rfl
  rw [hexec, execMigrateGo]
  refine h.done ((if_neg (ne_true_of_eq_false hb)).trans (if_pos ?_))
  simpa only [Bool.or_eq_true, decide_eq_true_eq, h.migrations, h.migMeets, or_assoc] using hbusy

/-- A word that waits blocks, or, with X = 0, reports at once that it does not (R51). -/
def State.waits (u : State) (e : EF) : State :=
  if e.x = 0 then u.putStatus e.q stTimeout 0 else u.block [e.p.toNat] [e.q.toNat] e.x none 0

@[simp] theorem State.waits_migrations (u : State) (e : EF) : (u.waits e).migrations = u.migrations := by
  unfold State.waits
  split
  · rfl
  · exact State.block_migrations _ _ _ _ _ _

@[simp] theorem State.waits_mem (u : State) (e : EF) : (u.waits e).mem = u.mem := by
  unfold State.waits
  split
  · rfl
  · exact State.block_mem _ _ _ _ _ _

/-- A block that nothing refuses starts its migration, for whose switch the word waits. -/
theorem MigReads.go_starts (h : MigReads s t g e s1 bs) (hb : s1.migBad bs (migBlock bs) = false)
    (hn : s.migrations.length < Config.migrateLimit) (hold : s.migMeets (migBlock bs).old (migBlock bs).size = false)
    (hnew : s.migMeets (migBlock bs).new (migBlock bs).size = false) :
    exec (.migrateGo e) s = .next (((s1.migStart (migBlock bs)).migWait (migBlock bs).old).waits e) := by
  have hexec : exec (.migrateGo e) s = execMigrateGo e s := rfl
  have hfree : ¬ (decide (Config.migrateLimit ≤ s1.migrations.length) || s1.migMeets (migBlock bs).old (migBlock bs).size ||
      s1.migMeets (migBlock bs).new (migBlock bs).size) = true := by
    simp [h.migrations, h.migMeets, hold, hnew, hn]
  rw [hexec, execMigrateGo, h.migWord, if_neg (ne_true_of_eq_false hb), if_neg hfree, State.waits]
  exact State.finishWait_wait h.ready.2.1 _ 0 _ _ _ _ _

/-- The word in issue blocks on its condition. -/
theorem State.block_waits {s : State} {g : Group} (hw : s.iss.wid = 0) (hg : s.grp? s.iss.grp = some g) (rs qs : List Nat) (x : BitVec 5)
    (w : Option Watch) (n : Nat) : ∃ g' w', (s.block rs qs x w n).grp? s.iss.grp = some g' ∧ w' ∈ g'.waits ∧
      w'.mask = s.iss.mask ∧ w'.word = s.iss.word := by
  have htick : (if s.iss.wid = 0 then s.tick else s).grp? s.iss.grp = some g := by
    rw [if_pos hw]
    exact hg
  unfold State.block
  dsimp only
  rw [State.grp?_modGrp_self, htick]
  exact ⟨_, _, rfl, List.mem_append_right _ List.mem_cons_self, rfl, rfl⟩

theorem Group.setS_s {g g' : Group} (h : g'.s = g.s) (n : Nat) (v : Reg) : (g'.setS n v).s = (g.setS n v).s := by
  unfold Group.setS
  split
  · exact h
  · exact congrArg (modAt _ n) h

/-- The next state of a word that has started a migration: the migration is in flight with the word among its waiters, the page has been
copied, and the word waits or reports that it does not. -/
theorem MigReads.go_next (h : MigReads s t g e s1 bs) (hb : s1.migBad bs (migBlock bs) = false)
    (hn : s.migrations.length < Config.migrateLimit) (hold : s.migMeets (migBlock bs).old (migBlock bs).size = false)
    (hnew : s.migMeets (migBlock bs).new (migBlock bs).size = false) :
    ∃ s', exec (.migrateGo e) s = .next s' ∧ (migBlock bs).awaited s ∈ s'.migrations ∧
      (s.stale = [] → s.hostLines = [] → s'.mem = s.mem.copied (migBlock bs).old (migBlock bs).new (migBlock bs).size) ∧
      (e.x = 0 → s.Wrote s' g e.q (statusVal stTimeout 0)) ∧
      (e.x ≠ 0 → ∃ g' w, s'.grp? s.iss.grp = some g' ∧ w ∈ g'.waits ∧ w.mask = s.iss.mask ∧ w.word = s.iss.word) := by
  have hp := h.poisons
  have hexec := h.go_starts hb hn hold hnew
  have hiss1 : s1.iss = s.iss := hp.keep State.iss (fun _ _ _ => rfl)
  have hmig := State.awaited_mem_migWait s1 (migBlock bs)
  rw [MigBlock.awaited, hiss1] at hmig
  have hmem (hst : s.stale = []) (hh : s.hostLines = []) : ((s1.migStart (migBlock bs)).migWait (migBlock bs).old).mem =
      s.mem.copied (migBlock bs).old (migBlock bs).new (migBlock bs).size := by
    rw [State.migWait_mem, State.migStart_mem ((hp.keep State.stale (fun _ _ _ => rfl)).trans hst)
      ((hp.keep State.hostLines (fun _ _ _ => rfl)).trans hh), hp.keep State.mem (fun _ _ _ => rfl)]
  have hiss : ((s1.migStart (migBlock bs)).migWait (migBlock bs).old).iss = s.iss := by
    rw [State.migWait_iss, State.migStart_iss, hiss1]
  have hteams : ((s1.migStart (migBlock bs)).migWait (migBlock bs).old).teams = s1.teams := by
    rw [State.migWait_teams, State.migStart_teams]
  generalize (s1.migStart (migBlock bs)).migWait (migBlock bs).old = u at hexec hmig hmem hiss hteams
  obtain ⟨g1, hg1, hregs⟩ : ∃ g1, u.grp? u.iss.grp = some g1 ∧ g1.s = g.s := by
    have hregs := hp.regs s.iss.grp
    rw [h.ready.1.2, Option.map_some, Option.map_eq_some_iff] at hregs
    obtain ⟨g1, hg1, hs1⟩ := hregs
    refine ⟨g1, ?_, hs1⟩
    rw [hiss, State.grp?, State.team?, hteams]
    exact hg1
  have hwid : u.iss.wid = 0 := hiss ▸ h.ready.2.2.1
  refine ⟨u.waits e, hexec, ?_, fun hst hh => ?_, fun hx => ?_, fun hx => ?_⟩
  · rw [State.waits_migrations]
    exact hmig
  · rw [State.waits_mem, hmem hst hh]
  · rw [State.waits, if_pos hx]
    refine ⟨g1.putS u.iss.wid e.q.toNat (statusVal stTimeout 0), ?_, ?_⟩
    · rw [State.putStatus, ← hiss, State.grp?_modGrp_self, hg1]
      rfl
    · rw [Group.putS, if_pos hwid]
      exact Group.setS_s hregs _ _
  · rw [State.waits, if_neg hx, ← hiss]
    exact State.block_waits hwid hg1 _ _ _ _ _

theorem MigReads.wait_ok (h : MigReads s t g e s1 bs) {y : Migration}
    (hy : s.migrations.find? (fun z => z.old == (migBlock bs).old) = some y) (hsw : y.switched = true) :
    exec (.migrateWait e) s = .next ((s1.putStatus e.q stOk 0).acquire t g 6) := by
  have hexec : exec (.migrateWait e) s = execMigrateWait e s := rfl
  rw [hexec, execMigrateWait]
  refine h.done ?_
  dsimp only
  rw [h.migrations, hy]
  exact if_pos hsw

theorem MigReads.end_ok (h : MigReads s t g e s1 bs) {y : Migration}
    (hy : s.migrations.find? (fun z => z.old == (migBlock bs).old) = some y) (hsw : y.switched = true) :
    exec (.migrateEnd e) s = .next
      ({ s1 with migrations := s1.migrations.filter (fun z => z.old != (migBlock bs).old) }.putStatus e.q stOk 0) := by
  have hexec : exec (.migrateEnd e) s = execMigrateEnd e s := rfl
  have hany : s1.migrations.any (fun m => m.old == (migBlock bs).old && m.switched) = true := by
    rw [h.migrations, List.any_eq_true]
    have hold := List.find?_some hy
    exact ⟨y, List.mem_of_find?_eq_some hy, by simpa [hsw] using hold⟩
  rw [hexec, execMigrateEnd]
  exact h.done (if_pos hany)

theorem MigReads.wait_none (h : MigReads s t g e s1 bs) (hno : ∀ z ∈ s.migrations, z.old ≠ (migBlock bs).old) :
    exec (.migrateWait e) s = .next (s1.putStatus e.q stRejected 0) := by
  have hexec : exec (.migrateWait e) s = execMigrateWait e s := rfl
  have hfind : s.migrations.find? (fun z => z.old == (migBlock bs).old) = none := by
    rw [List.find?_eq_none]
    intro z hz
    simpa using hno z hz
  rw [hexec, execMigrateWait]
  refine h.done ?_
  dsimp only
  rw [h.migrations, hfind]
  rfl

theorem MigReads.end_none (h : MigReads s t g e s1 bs) (hno : ∀ z ∈ s.migrations, z.old ≠ (migBlock bs).old) :
    exec (.migrateEnd e) s = .next (s1.putStatus e.q stRejected 0) := by
  have hexec : exec (.migrateEnd e) s = execMigrateEnd e s := rfl
  have hany : ¬ s1.migrations.any (fun m => m.old == (migBlock bs).old && m.switched) = true := by
    rw [h.migrations, List.any_eq_true]
    rintro ⟨z, hz, hold⟩
    simp [hno z hz] at hold
  rw [hexec, execMigrateEnd]
  exact h.done (if_neg hany)

end

/-! ## The switch -/

section
variable {s : State} {m : Migration}

/-- An entry that meets no page of a migration is written where it stands. -/
theorem State.fwd_of_no_meet {pa n k : Nat} (hm : s.migrations = [m]) (hmeet : pagesMeet pa n m.old m.size = false) (hk : k < n) :
    s.fwd (pa + k) = pa + k := by
  have hout : ¬ (m.old ≤ pa + k ∧ pa + k < m.old + m.size) := by
    simp only [pagesMeet, Bool.and_eq_false_iff, decide_eq_false_iff_not] at hmeet
    omega
  have hfind : s.migrations.find? (fun x => x.switched && decide (x.old ≤ pa + k) && decide (pa + k < x.old + x.size)) = none := by
    rw [hm, List.find?_eq_none]
    intro x hx
    obtain rfl := List.mem_singleton.1 hx
    simp only [Bool.and_eq_true, decide_eq_true_eq]
    exact fun h => hout ⟨h.1.2, h.2⟩
  rw [State.fwd, hfind]

/-- The state as a migration has switched: its lines forward, and what names them follows. -/
def State.switchedTo (s : State) (m : Migration) : State :=
  let moved (a : Nat) : Nat := if m.old ≤ a ∧ a < m.old + m.size then m.new + (a - m.old) else a
  { s with
    migrations := s.migrations.map (fun x => if x.old = m.old then { x with switched := true, held := [] } else x)
    subs := s.subs.map (fun x => { x with pa := moved x.pa })
    causal := s.causal.map (fun e => (moved e.1, e.2)) }

theorem State.find_unswitched (hm : s.migrations = [m]) (hsw : m.switched = false) :
    s.migrations.find? (fun x => x.old == m.old && !x.switched) = some m := by
  simp [hm, hsw]

theorem execMigrationSwitch_waits (hm : s.migrations = [m]) (hsw : m.switched = false) (hw : s.switchWaits m = true) :
    exec (.migrationSwitch m.old) s = .next (if s.hostHeld m.leafPA then s.sendSnoop (lineOf (s.fwd m.leafPA)) else s) := by
  have hexec : exec (.migrationSwitch m.old) s = execMigrationSwitch m.old s := rfl
  rw [hexec, execMigrationSwitch, State.find_unswitched hm hsw]
  simp only [hw, if_true]

theorem execMigrationSwitch_eq (hm : s.migrations = [m]) (hsw : m.switched = false) (hheld : m.held = []) (hw : s.switchWaits m = false) :
    exec (.migrationSwitch m.old) s = .next ((s.switchedTo m).homeWriteL 0 m.leafPA (leBytes 8 m.leaf)) := by
  have hexec : exec (.migrationSwitch m.old) s = execMigrationSwitch m.old s := rfl
  rw [hexec, execMigrationSwitch, State.find_unswitched hm hsw]
  simp only [hw, Bool.false_eq_true, if_false, hheld, List.foldl_nil]
  rfl

/-- Where no home holds a write a switch does not wait. -/
theorem State.switchWaits_plain (hm : s.migrations = [m]) (hh : s.hostLines = []) (hsn : s.snoops = []) (hpq : s.pushq = []) :
    s.switchWaits m = false := by
  simp [State.switchWaits, State.writeLocked, State.lockedOld, State.lockedNew, State.hostHeld, State.pushHeldLine, hm, hh, hsn, hpq]

/-- The state as its only migration has switched lets every home write. -/
theorem State.plain_switchedTo (hm : s.migrations = [m]) (hh : s.hostLines = []) (hf : s.fencemap = []) (hg : s.gone = [])
    (hpq : s.pushq = []) (hst : s.stale = []) : (s.switchedTo m).Plain where
  fences := ⟨hf, hg⟩
  host := hh
  pushq := hpq
  stale := hst
  calm x hx := by
    simp only [State.switchedTo, hm, List.map_cons, List.map_nil, if_true, List.mem_singleton] at hx
    rw [hx]

/-- The switch writes the leaf entry and nothing else. -/
theorem execMigrationSwitch_plain (hm : s.migrations = [m]) (hsw : m.switched = false) (hheld : m.held = []) (hh : s.hostLines = [])
    (hsn : s.snoops = []) (hf : s.fencemap = []) (hg : s.gone = []) (hpq : s.pushq = []) (hst : s.stale = [])
    (hold : pagesMeet m.leafPA 8 m.old m.size = false) :
    ∃ s', exec (.migrationSwitch m.old) s = .next s' ∧ s'.migrations = [{ m with switched := true }] ∧
      s'.mem = s.mem.writeN m.leafPA (leBytes 8 m.leaf) := by
  have hto : (s.switchedTo m).migrations = [{ m with switched := true }] := by
    simp [State.switchedTo, hm, ← hheld]
  have hfwd : ∀ c ∈ cellsAt m.leafPA (leBytes 8 m.leaf), (s.switchedTo m).fwd c.1 = c.1 := fun c hc => by
    have hr := (List.of_mem_zip hc).1
    rw [length_leBytes, mem_rangeFrom] at hr
    obtain ⟨k, hk⟩ := Nat.exists_eq_add_of_le hr.1
    rw [hk]
    exact State.fwd_of_no_meet (n := 8) hto hold (by omega)
  have hw := (State.plain_switchedTo hm hh hf hg hpq hst).writeCells hfwd none
  refine ⟨_, execMigrationSwitch_eq hm hsw hheld (State.switchWaits_plain hm hh hsn hpq), hw.migr.trans hto, hw.mem.trans ?_⟩
  rw [Memory.writeN_eq_cells]
  rfl

end

/-- Settles O52: the shootdown by what write-backs leave, the words of `MIGRATE` by their block, and the switch by the write of its leaf
entry, which no home holds. -/
theorem shootMigrate : Obligations.ShootMigrate := by
  unfold Obligations.ShootMigrate
  refine ⟨⟨fun s t g e sz hi => ⟨fun hm hw hp hh => ⟨fun hs => exec_shoot_user hi hm hw hp hh hs sz, fun hs hr hx => ?_⟩,
      fun hm hw hs hno => exec_shoot_ok hi hm hw hs hno e sz⟩, fun s x hx => ⟨fun hr => execShootComplete_removes hx hr,
      fun hr hd => execShootComplete_done hx hr hd, fun hr hd => execShootComplete_waits hx hr hd⟩⟩,
    ⟨fun s t g e h => ⟨?_, ?_⟩, ?_, ?_⟩⟩
  · obtain ⟨s', hexec, hshoots⟩ := exec_shoot_queues hi hm hw hp hh hs hr hx sz
    exact ⟨s', _, hexec, hshoots, rfl, rfl, rfl, rfl, rfl⟩
  · intro i hi
    obtain ⟨f, hf⟩ := exec_migrate_word hi s
    rw [hf]
    exact ⟨fun hs => State.migWord_user h hs, fun hs ha => State.migWord_misaligned h hs ha⟩
  · intro s1 bs hs hnt ha hr
    have hmr : MigReads s t g e s1 bs := ⟨h, hs, hnt, ha, hr⟩
    intro m
    refine ⟨fun hb => ?_, fun hb => ⟨fun hbusy => ?_, fun hn hold hnew => ?_⟩, fun y hy hsw => ⟨?_, ?_⟩, fun hno => ⟨?_, ?_⟩⟩
    · exact hmr.go_rejected hb
    · exact hmr.go_busy hb hbusy
    · obtain ⟨s', hexec, hmig, hmem, hwrote, hwaits⟩ := hmr.go_next hb hn hold hnew
      refine ⟨s', m.awaited s, hexec, hmig, rfl, rfl, rfl, rfl, fun hwf hst hh _ => ?_, hwrote, hwaits⟩
      rw [hmem hst hh]
      exact ⟨fun k hk => Memory.read_copied hwf hk, fun a ha => Memory.read_copied_out hwf ha⟩
    · exact hmr.wait_ok hy hsw
    · exact hmr.end_ok hy hsw
    · exact hmr.wait_none hno
    · exact hmr.end_none hno
  · intro s m hm hsw hheld hh hsn hf hg hpq hwf hst hold _
    obtain ⟨s', hexec, hmig, hmem⟩ := execMigrationSwitch_plain hm hsw hheld hh hsn hf hg hpq hst hold
    refine ⟨s', hexec, hmig, ?_, fun a ha => ?_⟩
    · rw [hmem]
      simpa using Memory.readN_writeN hwf m.leafPA (leBytes 8 m.leaf)
    · rw [hmem]
      exact Memory.read_writeN_out _ hwf (by simpa using ha)
  · exact fun s m hm hsw hw => execMigrationSwitch_waits hm hsw hw

end Sys2Proof.Machine

/-! # Encoding and decoding (R41, R47 to R53, R62)

That a word decodes back is put together from the instructions' round trips. That a word which decodes is an encoding is read off the
decoder format by format: a row's checks leave each field at the code that the encoder writes. -/

namespace Sys2Proof

open Sys2Proof.Laws

/-- Every instruction's word decodes to it, and no event has a word. -/
theorem roundTrip (i : Instr) : RoundTrip.Statement i := by
  cases i with
  | nop => exact RoundTrip.nop
  | vmov => exact RoundTrip.vmov _ _ _
  | vlane => exact RoundTrip.vlane _ _
  | vsplat => exact RoundTrip.vsplat _ _ _ _
  | vmov64 => exact RoundTrip.vmov64 _ _ _
  | vadd => exact RoundTrip.vadd _ _ _ _ _
  | vsub => exact RoundTrip.vsub _ _ _ _ _
  | vmul => exact RoundTrip.vmul _ _ _ _ _
  | vfma => exact RoundTrip.vfma _ _ _ _ _
  | vfnma => exact RoundTrip.vfnma _ _ _ _ _
  | vmin => exact RoundTrip.vmin _ _ _ _ _
  | vmax => exact RoundTrip.vmax _ _ _ _ _
  | vlogic => exact RoundTrip.vlogic _ _ _ _ _
  | vshift => exact RoundTrip.vshift _ _ _ _ _
  | vshiftBfx => exact RoundTrip.vshiftBfx _ _ _
  | vshiftBfi => exact RoundTrip.vshiftBfi _ _ _
  | vcmpi => exact RoundTrip.vcmpi _ _ _ _ _
  | vcmpf => exact RoundTrip.vcmpf _ _ _ _ _
  | vsel => exact RoundTrip.vsel _ _ _ _ _
  | vcvt => exact RoundTrip.vcvt _ _ _ _ _ _
  | vbits => exact RoundTrip.vbits _ _ _ _ _
  | vdiv => exact RoundTrip.vdiv _ _ _ _ _
  | vsfu => exact RoundTrip.vsfu _ _ _ _
  | vperm => exact RoundTrip.vperm _ _ _ _ _
  | vred => exact RoundTrip.vred _ _ _ _
  | vdot => exact RoundTrip.vdot _ _ _ _ _
  | vpred => exact RoundTrip.vpred _ _ _ _ _
  | salu => exact RoundTrip.salu _ _ _ _
  | mov => exact RoundTrip.mov _ _
  | li => exact RoundTrip.li _
  | lis => exact RoundTrip.lis _
  | lihi => exact RoundTrip.lihi _ _
  | fromv => exact RoundTrip.fromv _ _ _
  | ballot => exact RoundTrip.ballot _ _
  | popcs => exact RoundTrip.popcs _ _
  | sysrd => exact RoundTrip.sysrd _ _
  | syswr => exact RoundTrip.syswr _ _
  | trap => exact RoundTrip.trap _
  | tret => exact RoundTrip.tret
  | clock => exact RoundTrip.clock _
  | capq => exact RoundTrip.capq _ _
  | b => exact RoundTrip.b _ _
  | bz => exact RoundTrip.bz _ _
  | bnz => exact RoundTrip.bnz _ _
  | call => exact RoundTrip.call _ _
  | ret => exact RoundTrip.ret
  | brx => exact RoundTrip.brx _
  | bd => exact RoundTrip.bd _ _
  | bp => exact RoundTrip.bp _ _
  | join => exact RoundTrip.join
  | yield => exact RoundTrip.yield
  | exit => exact RoundTrip.exit
  | elect => exact RoundTrip.elect _ _
  | voteall => exact RoundTrip.voteall _ _
  | voteany => exact RoundTrip.voteany _ _
  | ld => exact RoundTrip.ld _ _ _ _
  | st => exact RoundTrip.st _ _ _ _
  | lds => exact RoundTrip.lds _ _ _
  | sts => exact RoundTrip.sts _ _ _
  | atom => exact RoundTrip.atom _ _ _
  | atoms => exact RoundTrip.atoms _ _ _
  | fence => exact RoundTrip.fence _ _
  | clean => exact RoundTrip.clean _ _
  | inval => exact RoundTrip.inval _ _
  | icinv => exact RoundTrip.icinv _ _
  | fetchbar => exact RoundTrip.fetchbar
  | rcfence => exact RoundTrip.rcfence _ _
  | msfence => exact RoundTrip.msfence _
  | tlbfence => exact RoundTrip.tlbfence _ _
  | copygo => exact RoundTrip.copygo _ _
  | copywait => exact RoundTrip.copywait _ _ _
  | chanstat => exact RoundTrip.chanstat _ _
  | copycancel => exact RoundTrip.copycancel _ _ _
  | barinit => exact RoundTrip.barinit _ _
  | bararrive => exact RoundTrip.bararrive _ _
  | barexpect => exact RoundTrip.barexpect _ _
  | barwait => exact RoundTrip.barwait _
  | bartest => exact RoundTrip.bartest _ _
  | mwait => exact RoundTrip.mwait _
  | mxlease => exact RoundTrip.mxlease _
  | mxgo => exact RoundTrip.mxgo _ _
  | mxwait => exact RoundTrip.mxwait _ _ _
  | mxdrain => exact RoundTrip.mxdrain _ _
  | mxrel => exact RoundTrip.mxrel _ _
  | ores => exact RoundTrip.ores _ _ _
  | obld => exact RoundTrip.obld _ _
  | mxstat => exact RoundTrip.mxstat _ _ _
  | tspawn => exact RoundTrip.tspawn _
  | tdec => exact RoundTrip.tdec _ _ _
  | twait => exact RoundTrip.twait _
  | dqpush => exact RoundTrip.dqpush _
  | dqpop => exact RoundTrip.dqpop _
  | dqsteal => exact RoundTrip.dqsteal _
  | aaego => exact RoundTrip.aaego _ _
  | aaestop => exact RoundTrip.aaestop _ _ _
  | qbind => exact RoundTrip.qbind _ _ _
  | qstat => exact RoundTrip.qstat _ _ _
  | msred => exact RoundTrip.msred _ _
  | msatom => exact RoundTrip.msatom _ _
  | mspoll => exact RoundTrip.mspoll _ _
  | mswait => exact RoundTrip.mswait _ _
  | ldsub => exact RoundTrip.ldsub _ _ _
  | unsub => exact RoundTrip.unsub _
  | slotrd => exact RoundTrip.slotrd _ _
  | slotwait => exact RoundTrip.slotwait _
  | pktab => exact RoundTrip.pktab _ _
  | pklook => exact RoundTrip.pklook _ _
  | pkgrad => exact RoundTrip.pkgrad _ _
  | pkwait => exact RoundTrip.pkwait _ _ _
  | replayGo => exact RoundTrip.replayGo _
  | replayDrop => exact RoundTrip.replayDrop _ _
  | replayList => exact RoundTrip.replayList _ _
  | ctxsave => exact RoundTrip.ctxsave _
  | ctxload => exact RoundTrip.ctxload _
  | shoot => exact RoundTrip.shoot _ _
  | migrateGo => exact RoundTrip.migrateGo _
  | migrateWait => exact RoundTrip.migrateWait _
  | migrateEnd => exact RoundTrip.migrateEnd _
  | collGo => exact RoundTrip.collGo _ _
  | collWait => exact RoundTrip.collWait _ _ _
  | collTest => exact RoundTrip.collTest _ _
  | collCancel => exact RoundTrip.collCancel _ _
  | _ => rfl

theorem encodeNat_of_isWord {i : Instr} (h : i.isWord = true) : ∃ n, encodeNat i = some n ∧ n < 2 ^ 31 := by
  have hr := roundTrip i
  unfold RoundTrip.Statement at hr
  cases hn : encodeNat i with
  | none => simp [hn, h] at hr
  | some n => exact ⟨n, rfl, by simp only [hn] at hr; exact hr.1⟩

theorem decodeNat_encodeNat {i : Instr} {n : Nat} (hw : WellFormed i = true) (hn : encodeNat i = some n) : decodeNat n = .ok i := by
  have hr := roundTrip i
  simp only [RoundTrip.Statement, hn] at hr
  exact hr.2 hw

/-! ## The chain bit (R41) -/

/-- A word is its chain bit above an instruction's 31 bits. -/
theorem toNat_withChain {c : Bool} {n : Nat} (h : n < 2 ^ 31) :
    (BitVec.ofNat 32 ((if c then 2 ^ 31 else 0) + n)).toNat = c.toNat * 2 ^ 31 + n := by
  cases c
  · simp; omega
  · simp; omega

theorem decodeWord_withChain (c : Bool) {n : Nat} (h : n < 2 ^ 31) :
    decodeWord (BitVec.ofNat 32 ((if c then 2 ^ 31 else 0) + n)) = decodeNat n := by
  unfold decodeWord
  rw [toNat_withChain h, decodeNat_chain]

theorem chainBit_withChain (c : Bool) {n : Nat} (h : n < 2 ^ 31) :
    chainBit (BitVec.ofNat 32 ((if c then 2 ^ 31 else 0) + n)) = c := by
  unfold chainBit
  rw [toNat_withChain h]
  cases c
  · simp; omega
  · simp

/-- Settles O1: each instruction's own round trip, under the chain bit. -/
theorem encodeThenDecode : Obligations.EncodeThenDecode := by
  unfold Obligations.EncodeThenDecode
  intro c i hi hw
  obtain ⟨n, hn, hlt⟩ := encodeNat_of_isWord hi
  exact ⟨_, by simp [encode, hn], (decodeWord_withChain c hlt).trans (decodeNat_encodeNat hw hn), chainBit_withChain c hlt⟩

/-- Settles O3: the decoder reads each of the words. -/
theorem decodedWords : Obligations.DecodedWords := by
  unfold Obligations.DecodedWords
  exact ⟨rfl, rfl, rfl, rfl, rfl, rfl, rfl, rfl, rfl, rfl⟩

/-! ## What a decoded word tells of its fields (R47 to R53, R62) -/

/-- `n` is the word, its chain bit left out, of the well-formed instruction `i`. -/
def Encodes (n : Nat) (i : Instr) : Prop := i.isWord = true ∧ WellFormed i = true ∧ encodeNat i = some n

theorem encodes_of {i : Instr} {n m : Nat} (hi : i.isWord = true) (hw : WellFormed i = true) (he : encodeNat i = some n) (hn : n = m) :
    Encodes m i := ⟨hi, hw, hn ▸ he⟩

theorem verdict_eq_ok {bad3 bad4 bad5 bad8 : Bool} {i j : Instr} :
    verdict bad3 bad4 bad5 bad8 i = .ok j ↔ bad3 = false ∧ bad4 = false ∧ bad5 = false ∧ bad8 = false ∧ i = j := by
  unfold verdict
  cases bad3 <;> cases bad4 <;> cases bad5 <;> cases bad8 <;> simp

theorem onFn_eq_ok {α : Type} {f : Option α} {k : α → Except DecodeError Instr} {i : Instr} :
    onFn f k = .ok i ↔ ∃ x, f = some x ∧ k x = .ok i := by
  cases f <;> simp [onFn]

theorem addTyCode_of {n : Nat} {x : AddTy} (h : addTyOf n = some x) : addTyCode x = n := by
  unfold addTyOf at h; split at h <;> cases h <;> rfl
theorem mulTyCode_of {n : Nat} {x : MulTy} (h : mulTyOf n = some x) : mulTyCode x = n := by
  unfold mulTyOf at h; split at h <;> cases h <;> rfl
theorem fmaTyCode_of {n : Nat} {x : FmaTy} (h : fmaTyOf n = some x) : fmaTyCode x = n := by
  unfold fmaTyOf at h; split at h <;> cases h <;> rfl
theorem minTyCode_of {n : Nat} {x : MinTy} (h : minTyOf n = some x) : minTyCode x = n := by
  unfold minTyOf at h; split at h <;> cases h <;> rfl
theorem logicOpCode_of {n : Nat} {x : LogicOp} (h : logicOpOf n = some x) : logicOpCode x = n := by
  unfold logicOpOf at h; split at h <;> cases h <;> rfl
theorem shiftOpCode_of {n : Nat} {x : ShiftOp} (h : shiftOpOf n = some x) : shiftOpCode x = n := by
  unfold shiftOpOf at h; split at h <;> cases h <;> rfl
theorem cmpICode_of {n : Nat} {x : CmpI} (h : cmpIOf n = some x) : cmpICode x = n := by
  unfold cmpIOf at h; split at h <;> cases h <;> rfl
theorem cmpFCode_of {n : Nat} {x : CmpF} (h : cmpFOf n = some x) : cmpFCode x = n := by
  unfold cmpFOf at h; split at h <;> cases h <;> rfl
theorem rndCode_of {n : Nat} {x : Rnd} (h : rndOf n = some x) : rndCode x = n := by
  unfold rndOf at h; split at h <;> cases h <;> rfl
theorem cvtOpCode_of {n : Nat} {x : CvtOp} (h : cvtOpOf n = some x) : cvtOpCode x = n := by
  unfold cvtOpOf at h; split at h <;> cases h <;> rfl
theorem bitsOpCode_of {n : Nat} {x : BitsOp} (h : bitsOpOf n = some x) : bitsOpCode x = n := by
  unfold bitsOpOf at h; split at h <;> cases h <;> rfl
theorem divTyCode_of {n : Nat} {x : DivTy} (h : divTyOf n = some x) : divTyCode x = n := by
  unfold divTyOf at h; split at h <;> cases h <;> rfl
theorem sfuOpCode_of {n : Nat} {x : SfuOp} (h : sfuOpOf n = some x) : sfuOpCode x = n := by
  unfold sfuOpOf at h; split at h <;> cases h <;> rfl
theorem permOpCode_of {n : Nat} {x : PermOp} (h : permOpOf n = some x) : permOpCode x = n := by
  unfold permOpOf at h; split at h <;> cases h <;> rfl
theorem redOpCode_of {n : Nat} {x : RedOp} (h : redOpOf n = some x) : redOpCode x = n := by
  unfold redOpOf at h; split at h <;> cases h <;> rfl
theorem dotOpCode_of {n : Nat} {x : DotOp} (h : dotOpOf n = some x) : dotOpCode x = n := by
  unfold dotOpOf at h; split at h <;> cases h <;> rfl
theorem predOpCode_of {n : Nat} {x : PredOp} (h : predOpOf n = some x) : predOpCode x = n := by
  unfold predOpOf at h; split at h <;> cases h <;> rfl
theorem saluOpCode_of {n : Nat} {x : SaluOp} (h : saluOpOf n = some x) : saluOpCode x = n := by
  unfold saluOpOf at h; split at h <;> cases h <;> rfl
theorem memTyCode_of {n : Nat} {x : MemTy} (h : memTyOf n = some x) : memTyCode x = n := by
  unfold memTyOf at h; split at h <;> cases h <;> rfl
theorem atomOpCode_of {n : Nat} {x : AtomOp} (h : atomOpOf n = some x) : atomOpCode x = n := by
  unfold atomOpOf at h; split at h <;> cases h <;> rfl
theorem shootSizeCode_of {n : Nat} {x : ShootSize} (h : shootSizeOf n = some x) : shootSizeCode x = n := by
  unfold shootSizeOf at h; split at h <;> cases h <;> rfl
theorem splatSelCode_of {n : Nat} {x : SplatSel} (h : splatSelOf n = some x) : splatSelCode x = n := by
  unfold splatSelOf at h; split at h <;> cases h <;> rfl

theorem osCode_osOf {n : Nat} (hn : n < 128) (h : osBad n = false) : osCode (osOf n) = n := by
  simp only [osBad, beq_eq_false_iff_ne] at h
  unfold osOf
  split_ifs <;> simp only [osCode, Fin.ofNat] <;> omega

theorem usrcCode_usrcOf {i b : Nat} (hi : i < 2) (hb : b < 256) (h : uBad i b = false) : usrcCode (usrcOf i b) = i * 256 + b := by
  simp only [uBad, Bool.and_eq_false_iff, beq_eq_false_iff_ne, decide_eq_false_iff_not] at h
  unfold usrcOf
  split_ifs <;> simp only [usrcCode, Fin.ofNat, BitVec.toNat_ofNat] <;> omega

theorem vsrcCode_vsrcOf {b : Nat} (h : vsrcOk b = true) : vsrcCode (vsrcOf b) = b := by
  simp only [vsrcOk, Bool.or_eq_true, Bool.and_eq_true, decide_eq_true_eq] at h
  unfold vsrcOf
  split_ifs
  · rfl
  · simp only [vsrcCode, Fin.ofNat]
    omega

theorem rlenCode_of {x : Nat} {r : RLen} (h : rlenOf x = some r) : rlenCode r = x := by
  unfold rlenOf at h
  split_ifs at h <;> cases h <;> simp only [rlenCode, Fin.ofNat] <;> omega

theorem toNat_r6 {n : Nat} (h : n < 64) : (r6 n).toNat = n := by
  simp only [r6, BitVec.toNat_ofNat]
  omega
theorem val_f8 {n : Nat} (h : n < 8) : (f8 n).val = n := Nat.mod_eq_of_lt h
theorem val_f4 {n : Nat} (h : n < 4) : (f4 n).val = n := Nat.mod_eq_of_lt h
theorem val_f16 {n : Nat} (h : n < 16) : (f16 n).val = n := Nat.mod_eq_of_lt h

theorem fld_lt (n lo len : Nat) : fld n lo len < 2 ^ len := Nat.mod_lt _ (Nat.two_pow_pos len)

/-! ## Format V3 (R47) -/

section
variable {major fn d a b : Nat} {w : Bool} {i : Instr}

theorem v3_ok {ok : Os → Bool} {j : Instr} (hd : d < 128) (ha : a < 128) (hb : b < 128) (h : v3 ok d a b i = .ok j) :
    i = j ∧ ok (osOf d) = true ∧ osCode (osOf d) = d ∧ osCode (osOf a) = a ∧ osCode (osOf b) = b := by
  simp only [v3, verdict_eq_ok, Bool.or_eq_false_iff, Bool.not_eq_false'] at h
  obtain ⟨⟨⟨hbd, hba⟩, hbb⟩, hok, -, -, hij⟩ := h
  exact ⟨hij, hok, osCode_osOf hd hbd, osCode_osOf ha hba, osCode_osOf hb hbb⟩

theorem v2_ok {ok : Os → Bool} {j : Instr} (hd : d < 128) (ha : a < 128) (h : v2 ok d a b i = .ok j) :
    i = j ∧ ok (osOf d) = true ∧ osCode (osOf d) = d ∧ osCode (osOf a) = a ∧ b = 0 := by
  simp only [v2, verdict_eq_ok, Bool.or_eq_false_iff, Bool.not_eq_false', bne_eq_false_iff_eq] at h
  obtain ⟨⟨hbd, hba⟩, hok, hb, -, hij⟩ := h
  exact ⟨hij, hok, osCode_osOf hd hbd, osCode_osOf ha hba, hb⟩

/-- A word of two sources whose function code `f` reads and `code` writes. -/
theorem onFn_v3_encodes {α : Type} {f : Nat → Option α} {code : α → Nat} (hc : ∀ {n x}, f n = some x → code x = n)
    {ok : Os → Bool} {mk : α → Instr} (hd : d < 128) (ha : a < 128) (hb : b < 128)
    (hmk : ∀ x, ok (osOf d) = true →
      Encodes (encV major (code x) w (osCode (osOf d)) (osCode (osOf a)) (osCode (osOf b))) (mk x))
    (h : onFn (f fn) (fun x => v3 ok d a b (mk x)) = .ok i) : Encodes (encV major fn w d a b) i := by
  obtain ⟨x, hx, h⟩ := onFn_eq_ok.1 h
  obtain ⟨rfl, hok, hd, ha, hb⟩ := v3_ok hd ha hb h
  have := hmk x hok
  rwa [hc hx, hd, ha, hb] at this

/-- A word of one source whose function code `f` reads and `code` writes. -/
theorem onFn_v2_encodes {α : Type} {f : Nat → Option α} {code : α → Nat} (hc : ∀ {n x}, f n = some x → code x = n)
    {ok : Os → Bool} {mk : α → Instr} (hd : d < 128) (ha : a < 128)
    (hmk : ∀ x, ok (osOf d) = true → Encodes (encV major (code x) w (osCode (osOf d)) (osCode (osOf a)) 0) (mk x))
    (h : onFn (f fn) (fun x => v2 ok d a b (mk x)) = .ok i) : Encodes (encV major fn w d a b) i := by
  obtain ⟨x, hx, h⟩ := onFn_eq_ok.1 h
  obtain ⟨rfl, hok, hd, ha, rfl⟩ := v2_ok hd ha h
  have := hmk x hok
  rwa [hc hx, hd, ha] at this

/-- A comparison, whose destination is a predicate. -/
theorem onFn_cmp_encodes {α : Type} {f : Nat → Option α} {code : α → Nat} (hc : ∀ {n x}, f n = some x → code x = n)
    {mk : α → Instr} (ha : a < 128) (hb : b < 128)
    (hmk : ∀ x, Encodes (encV major (code x) w (f8 d).val (osCode (osOf a)) (osCode (osOf b))) (mk x))
    (h : onFn (f fn) (fun x => verdict (osBad a || osBad b) false (8 ≤ d) false (mk x)) = .ok i) :
    Encodes (encV major fn w d a b) i := by
  obtain ⟨x, hx, h⟩ := onFn_eq_ok.1 h
  simp only [verdict_eq_ok, Bool.or_eq_false_iff, decide_eq_false_iff_not, Nat.not_le] at h
  obtain ⟨⟨hba, hbb⟩, -, hd, -, rfl⟩ := h
  have := hmk x
  rwa [hc hx, val_f8 hd, osCode_osOf ha hba, osCode_osOf hb hbb] at this

theorem decodeVmisc_encodes (hd : d < 128) (ha : a < 128) (h : decodeV 0x00 fn d a b w = .ok i) :
    Encodes (encV 0x00 fn w d a b) i := by
  simp only [decodeV] at h
  split at h
  · simp only [verdict_eq_ok, Bool.or_eq_false_iff, bne_eq_false_iff_eq] at h
    obtain ⟨-, -, ⟨⟨⟨rfl, rfl⟩, rfl⟩, rfl⟩, -, rfl⟩ := h
    exact ⟨rfl, rfl, rfl⟩
  · obtain ⟨rfl, hok, hd, ha, rfl⟩ := v2_ok hd ha h
    exact encodes_of rfl hok rfl (by simp only [hd, ha])
  · simp only [verdict_eq_ok, Bool.or_eq_false_iff, bne_eq_false_iff_eq, Bool.not_eq_false'] at h
    obtain ⟨hbd, hok, ⟨rfl, rfl⟩, -, rfl⟩ := h
    exact encodes_of rfl hok rfl (by simp only [osCode_osOf hd hbd])
  · split at h
    · next sel hsel =>
      simp only [verdict_eq_ok, decide_eq_false_iff_not, Nat.not_le] at h
      obtain ⟨hbd, hok, ha, -, rfl⟩ := h
      refine encodes_of rfl ?_ rfl (by simp only [osCode_osOf hd hbd, toNat_r6 ha, splatSelCode_of hsel])
      cases sel <;> simpa [WellFormed] using hok
    · cases h
  · simp only [verdict_eq_ok, Bool.or_eq_false_iff, bne_eq_false_iff_eq, Bool.not_eq_false'] at h
    obtain ⟨⟨hbd, hba⟩, ⟨hokd, hoka⟩, rfl, -, rfl⟩ := h
    exact encodes_of rfl (by simp [WellFormed, hokd, hoka]) rfl (by simp only [osCode_osOf hd hbd, osCode_osOf ha hba])
  · cases h

/-- `VSHIFT`, whose descriptor of a bit field stands in the literal. -/
theorem decodeVshift_encodes (hd : d < 128) (ha : a < 128) (hb : b < 128) (h : decodeV 0x09 fn d a b w = .ok i) :
    Encodes (encV 0x09 fn w d a b) i := by
  simp only [decodeV] at h
  split at h
  · simp only [verdict_eq_ok, Bool.or_eq_false_iff, bne_eq_false_iff_eq, Bool.not_eq_false'] at h
    obtain ⟨⟨⟨hbd, hba⟩, -⟩, ⟨hok, rfl⟩, -, -, rfl⟩ := h
    exact encodes_of rfl hok rfl (by simp only [osCode_osOf hd hbd, osCode_osOf ha hba])
  · simp only [verdict_eq_ok, Bool.or_eq_false_iff, bne_eq_false_iff_eq, Bool.not_eq_false'] at h
    obtain ⟨⟨⟨hbd, hba⟩, -⟩, ⟨hok, rfl⟩, -, -, rfl⟩ := h
    exact encodes_of rfl hok rfl (by simp only [osCode_osOf hd hbd, osCode_osOf ha hba])
  · exact onFn_v3_encodes shiftOpCode_of hd ha hb (fun _ hok => ⟨rfl, hok, rfl⟩) h

theorem wellFormed_vcvt {m : Rnd} {op : CvtOp} {k : Fin 8} {d a : Os} : WellFormed (.vcvt m op k w d a) = true ↔
    k.val < op.positions ∧ op.accepts m = true ∧ (if op.insert then d.acc else d.dst) = true := by
  simp [WellFormed, and_assoc]

theorem decodeVcvt_encodes (hd : d < 128) (ha : a < 128) (h : decodeV 0x0D fn d a b w = .ok i) :
    Encodes (encV 0x0D fn w d a b) i := by
  obtain ⟨m, hm, h⟩ := onFn_eq_ok.1 h
  split at h
  · next op hop =>
    simp only [verdict_eq_ok, Bool.or_eq_false_iff, decide_eq_false_iff_not, Nat.not_le, Bool.not_eq_false'] at h
    obtain ⟨⟨⟨hbd, hba⟩, hk⟩, hok, -, hacc, rfl⟩ := h
    refine encodes_of rfl ?_ rfl ?_
    · rw [wellFormed_vcvt, val_f8 (Nat.mod_lt b (by decide : 0 < 8))]
      exact ⟨hk, hacc, by split at hok <;> simp_all⟩
    · rw [osCode_osOf hd hbd, osCode_osOf ha hba, rndCode_of hm, cvtOpCode_of hop, val_f8 (Nat.mod_lt b (by decide : 0 < 8)),
        Nat.div_add_mod']
  · cases h

theorem decodeVbits_encodes (hd : d < 128) (ha : a < 128) (hb : b < 128) (h : decodeV 0x0E fn d a b w = .ok i) :
    Encodes (encV 0x0E fn w d a b) i := by
  obtain ⟨op, hop, h⟩ := onFn_eq_ok.1 h
  split at h
  · obtain ⟨rfl, hok, hd, ha, hb⟩ := v3_ok hd ha hb h
    exact encodes_of rfl (by simp [WellFormed, hok]) rfl (by simp only [hd, ha, hb, bitsOpCode_of hop])
  · obtain ⟨rfl, hok, hd, ha, rfl⟩ := v2_ok hd ha h
    exact encodes_of rfl (by simp [WellFormed, hok]; exact .inr rfl) rfl (by simp only [hd, ha, bitsOpCode_of hop]; rfl)

theorem decodeVpred_encodes (h : decodeV 0x14 fn d a b w = .ok i) : Encodes (encV 0x14 fn w d a b) i := by
  obtain ⟨op, hop, h⟩ := onFn_eq_ok.1 h
  simp only [verdict_eq_ok, Bool.or_eq_false_iff, decide_eq_false_iff_not, Nat.not_le] at h
  obtain ⟨-, -, ⟨⟨⟨hd, ha⟩, hb⟩, hop2⟩, -, rfl⟩ := h
  refine encodes_of rfl ?_ rfl (by simp only [val_f8 hd, val_f8 ha, val_f8 hb, predOpCode_of hop])
  cases op <;> simp_all [WellFormed, f8]

theorem decodeV_encodes (hf : fn < 8) (hd : d < 128) (ha : a < 128) (hb : b < 128) (h : decodeV major fn d a b w = .ok i) :
    Encodes (encV major fn w d a b) i := by
  have h0 := h
  unfold decodeV at h
  split at h
  case h_1 => exact decodeVmisc_encodes hd ha h0
  case h_2 => exact onFn_v3_encodes addTyCode_of hd ha hb (fun _ hok => ⟨rfl, hok, rfl⟩) h
  case h_3 => exact onFn_v3_encodes addTyCode_of hd ha hb (fun _ hok => ⟨rfl, hok, rfl⟩) h
  case h_4 => exact onFn_v3_encodes mulTyCode_of hd ha hb (fun _ hok => ⟨rfl, hok, rfl⟩) h
  case h_5 => exact onFn_v3_encodes fmaTyCode_of hd ha hb (fun _ hok => ⟨rfl, hok, rfl⟩) h
  case h_6 => exact onFn_v3_encodes fmaTyCode_of hd ha hb (fun _ hok => ⟨rfl, hok, rfl⟩) h
  case h_7 => exact onFn_v3_encodes minTyCode_of hd ha hb (fun _ hok => ⟨rfl, hok, rfl⟩) h
  case h_8 => exact onFn_v3_encodes minTyCode_of hd ha hb (fun _ hok => ⟨rfl, hok, rfl⟩) h
  case h_9 => exact onFn_v3_encodes logicOpCode_of hd ha hb (fun _ hok => ⟨rfl, hok, rfl⟩) h
  case h_10 => exact decodeVshift_encodes hd ha hb h0
  case h_11 => exact onFn_cmp_encodes cmpICode_of ha hb (fun _ => ⟨rfl, rfl, rfl⟩) h
  case h_12 => exact onFn_cmp_encodes cmpFCode_of ha hb (fun _ => ⟨rfl, rfl, rfl⟩) h
  case h_13 =>
    obtain ⟨rfl, hok, hd, ha, hb⟩ := v3_ok hd ha hb h
    exact encodes_of rfl hok rfl (by simp only [hd, ha, hb, val_f8 hf])
  case h_14 => exact decodeVcvt_encodes hd ha h0
  case h_15 => exact decodeVbits_encodes hd ha hb h0
  case h_16 => exact onFn_v3_encodes divTyCode_of hd ha hb (fun _ hok => ⟨rfl, hok, rfl⟩) h
  case h_17 => exact onFn_v2_encodes sfuOpCode_of hd ha (fun _ hok => ⟨rfl, hok, rfl⟩) h
  case h_18 => exact onFn_v3_encodes permOpCode_of hd ha hb (fun _ hok => ⟨rfl, hok, rfl⟩) h
  case h_19 => exact onFn_v2_encodes redOpCode_of hd ha (fun _ hok => ⟨rfl, hok, rfl⟩) h
  case h_20 => exact onFn_v3_encodes dotOpCode_of hd ha hb (fun _ hok => ⟨rfl, hok, rfl⟩) h
  case h_21 => exact decodeVpred_encodes h0
  case h_22 => cases h

end

/-! ## Format U (R48) -/

section
variable {major fn d a k b : Nat} {i : Instr}

/-- The words of `SALU`, `SMOV`, `SYS` and `GRP`: what the checks of a row leave of its fields is what the encoder writes. -/
theorem decodeU_encodes (hk : k < 2) (hb : b < 256) (h : decodeU major fn d a k b = .ok i) :
    Encodes (encU major fn (r6 d) (r6 a) (k * 256 + b)) i := by
  unfold decodeU at h
  split at h
  case h_1 =>
    obtain ⟨op, hop, h⟩ := onFn_eq_ok.1 h
    obtain ⟨hbad, -, -, -, rfl⟩ := verdict_eq_ok.1 h
    exact encodes_of rfl rfl rfl (by rw [saluOpCode_of hop, usrcCode_usrcOf hk hb hbad])
  case h_2 =>
    split at h
    case h_1 =>
      obtain ⟨hbad, -, hu, -, rfl⟩ := verdict_eq_ok.1 h
      exact encodes_of rfl rfl rfl (by simp_all [usrcCode_usrcOf hk hb hbad, r6])
    case h_8 => cases h
    all_goals
      obtain ⟨-, hi, hu, -, rfl⟩ := verdict_eq_ok.1 h
      exact encodes_of rfl rfl rfl (by simp_all [vsrcCode_vsrcOf, val_f8, r6])
  case h_3 =>
    split at h
    case h_7 => cases h
    all_goals
      obtain ⟨hbad, hi, hu, -, rfl⟩ := verdict_eq_ok.1 h
      exact encodes_of rfl (by simp_all [WellFormed]) rfl (by simp_all [Nat.mod_eq_of_lt, r6])
  case h_4 =>
    split at h
    case h_4 => cases h
    all_goals
      obtain ⟨-, hi, hu, -, rfl⟩ := verdict_eq_ok.1 h
      exact encodes_of rfl rfl rfl (by simp_all [val_f8, r6])
  case h_5 => cases h

/-! ## Format BR (R50) -/

theorem pred_field {f : Nat} (hf : f < 2 ^ 21) : (f8 (fld f 18 3)).val * 2 ^ 18 + (BitVec.ofNat 18 (fld f 0 18)).toNat = f := by
  rw [val_f8 (fld_lt f 18 3), BitVec.toNat_ofNat]
  unfold fld
  omega

theorem sreg_field {f : Nat} (hf : f < 2 ^ 21) : (r6 (fld f 15 6)).toNat * 2 ^ 15 + (BitVec.ofNat 15 (fld f 0 15)).toNat = f := by
  rw [toNat_r6 (fld_lt f 15 6), BitVec.toNat_ofNat]
  unfold fld
  omega

theorem sreg_field_only {f : Nat} (hf : f < 2 ^ 21) (h0 : fld f 0 15 = 0) : (r6 (fld f 15 6)).toNat * 2 ^ 15 = f := by
  rw [toNat_r6 (fld_lt f 15 6)]
  unfold fld at h0 ⊢
  omega

theorem decodeBR_encodes {f : Nat} (hf : f < 2 ^ 21) (h : decodeBR fn f = .ok i) : Encodes (encBR fn f) i := by
  unfold decodeBR at h
  split at h
  case h_12 => cases h
  case h_1 | h_4 | h_7 | h_8 =>
    obtain rfl : _ = i := Except.ok.inj h
    exact encodes_of rfl rfl rfl (by rw [pred_field hf])
  case h_2 | h_3 =>
    obtain rfl : _ = i := Except.ok.inj h
    exact encodes_of rfl rfl rfl (by rw [sreg_field hf])
  case h_5 | h_9 | h_10 | h_11 =>
    obtain ⟨-, -, hu, -, rfl⟩ := verdict_eq_ok.1 h
    exact encodes_of rfl rfl rfl (by simp_all)
  case h_6 =>
    obtain ⟨-, -, hu, -, rfl⟩ := verdict_eq_ok.1 h
    exact encodes_of rfl rfl rfl (by rw [sreg_field_only hf (bne_eq_false_iff_eq.1 hu)])

end

/-! ## Format M (R49) -/

section
variable {major fn t s x o h : Nat} {i j : Instr}

theorem mword_ok {ok : Os → Bool} {hOk : Bool} (ht : t < 128) (hx : x < 128) (hm : mword ok hOk t x h i = .ok j) :
    i = j ∧ ok (osOf t) = true ∧ (osOf x).srcM = true ∧ osCode (osOf t) = t ∧ osCode (osOf x) = x ∧ (hOk = false → h = 0) := by
  simp only [mword, verdict_eq_ok, Bool.or_eq_false_iff, Bool.not_eq_false', Bool.and_eq_false_iff, Bool.not_eq_false',
    bne_eq_false_iff_eq] at hm
  obtain ⟨⟨hbt, hbx⟩, ⟨hok, hsrc⟩, hh, -, hij⟩ := hm
  exact ⟨hij, hok, hsrc, osCode_osOf ht hbt, osCode_osOf hx hbx, fun e => hh.resolve_left (by simp [e])⟩

/-- A load, store or atomic whose function code `f` reads and `code` writes; where H is no hint, it is 0. -/
theorem onFn_mword_encodes {α : Type} {f : Option α} {code : α → Nat} (hc : ∀ {x}, f = some x → code x = fn)
    {ok : α → Os → Bool} {hOk : Bool} {mk : α → Instr} (hs : s < 64) (ht : t < 128) (hx : x < 128)
    (hmk : ∀ y, f = some y → ok y (osOf t) = true → (osOf x).srcM = true →
      Encodes (encMA major (code y) (osOf t) ⟨r6 s, osOf x, o == 1⟩ (hOk && h == 1)) (mk y))
    (hm : onFn f (fun y => mword (ok y) hOk t x h (mk y)) = .ok i) : Encodes (encM major fn t s x (o == 1) (h == 1)) i := by
  obtain ⟨y, hy, hm⟩ := onFn_eq_ok.1 hm
  obtain ⟨rfl, hok, hsrc, hct, hcx, hh⟩ := mword_ok ht hx hm
  have hhint : (hOk && h == 1) = (h == 1) := by
    cases hOk with
    | true => rfl
    | false => rw [hh rfl]; rfl
  have := hmk y hy hok hsrc
  rwa [encMA, hc hy, hct, hcx, toNat_r6 hs, hhint] at this

/-- A range word, of scope `lo` to 6 and kind 0. -/
theorem decodeRange_encodes {lo : Nat} {mk : BitVec 3 → Range → Instr} (hs : s < 64) (ht : t < 128)
    (hmk : ∀ sc r, (mk sc r).isWord = true ∧ encodeNat (mk sc r) = some (encRange fn sc r))
    (hw : ∀ sc r, lo ≤ sc.toNat ∧ sc.toNat ≤ 6 → r.ok = true → WellFormed (mk sc r) = true)
    (hm : decodeRange lo t s x o h mk = .ok i) : Encodes (encM 0x36 fn t s x (o == 1) (h == 1)) i := by
  obtain ⟨-, hlen, hu, h8, rfl⟩ := verdict_eq_ok.1 hm
  simp only [Bool.or_eq_false_iff, bne_eq_false_iff_eq, decide_eq_false_iff_not, Nat.not_lt] at hu h8
  obtain ⟨⟨hhigh, rfl⟩, hall⟩ := hu
  obtain ⟨⟨hkind, hlo⟩, hhi⟩ := h8
  have hsc : (BitVec.ofNat 3 (fld t 2 3)).toNat = fld t 2 3 := Nat.mod_eq_of_lt (fld_lt t 2 3)
  have ht4 : fld t 2 3 * 4 = t := by
    unfold fld at hhigh hkind ⊢
    omega
  cases hr : rlenOf x with
  | none => simp [hr] at hlen
  | some r =>
    refine encodes_of (hmk _ _).1 (hw _ _ (by rw [hsc]; exact ⟨hlo, hhi⟩) ?_) (hmk _ _).2 ?_
    · cases r <;> simp_all [Range.ok, r6]
    · simp only [encRange, hsc, ht4, toNat_r6 hs, Option.getD_some, rlenCode_of hr]
      rfl

theorem kindCode_kindOf {k : Nat} (h0 : k ≠ 0) (h4 : k < 4) : kindCode (kindOf k) = k := by
  interval_cases k
  · exact absurd rfl h0
  all_goals rfl

/-- A fence that is no range word has its scope and kind in T and nothing else. -/
theorem fence_rest (ht : t < 128) (hu : (fld t 5 2 != 0 || s != 0 || x != 0 || o != 0 || h != 0) = false) :
    fld t 2 3 * 4 + fld t 0 2 = t ∧ s = 0 ∧ x = 0 ∧ o = 0 ∧ h = 0 := by
  simp only [Bool.or_eq_false_iff, bne_eq_false_iff_eq] at hu
  obtain ⟨⟨⟨⟨ht5, hs⟩, hx⟩, ho⟩, hh⟩ := hu
  refine ⟨?_, hs, hx, ho, hh⟩
  unfold fld at ht5 ⊢
  omega

theorem decodeFence_encodes (hf : fn < 8) (hs : s < 64) (ht : t < 128) (hm : decodeFence fn t s x o h = .ok i) :
    Encodes (encM 0x36 fn t s x (o == 1) (h == 1)) i := by
  unfold decodeFence at hm
  split at hm
  case h_1 =>
    obtain ⟨-, -, hu, hk, rfl⟩ := verdict_eq_ok.1 hm
    obtain ⟨hfld, rfl, rfl, rfl, rfl⟩ := fence_rest ht hu
    have hsc : (BitVec.ofNat 3 (fld t 2 3)).toNat = fld t 2 3 := Nat.mod_eq_of_lt (fld_lt t 2 3)
    exact encodes_of rfl rfl rfl (by rw [hsc, kindCode_kindOf (by simpa using hk) (fld_lt t 0 2), hfld]; rfl)
  case h_5 =>
    obtain ⟨-, -, hu, hk, rfl⟩ := verdict_eq_ok.1 hm
    obtain ⟨hfld, rfl, rfl, rfl, rfl⟩ := fence_rest ht hu
    simp only [Bool.or_eq_false_iff, bne_eq_false_iff_eq] at hk
    exact encodes_of rfl rfl rfl (by rw [← hfld, hk.1, hk.2]; rfl)
  case h_7 =>
    obtain ⟨-, -, hu, hk, rfl⟩ := verdict_eq_ok.1 hm
    obtain ⟨hfld, rfl, rfl, rfl, rfl⟩ := fence_rest ht hu
    simp only [Bool.or_eq_false_iff, Bool.and_eq_false_iff, bne_eq_false_iff_eq] at hk
    obtain ⟨hsc, hk⟩ := hk
    refine encodes_of rfl rfl rfl ?_
    rw [← hfld, hsc]
    rcases hk with hk | hk <;> rw [hk] <;> rfl
  case h_8 =>
    obtain rfl : fn = 7 := by interval_cases fn <;> simp_all
    exact decodeRange_encodes hs ht (fun _ _ => ⟨rfl, rfl⟩) (fun _ _ hsc hr => by simp [WellFormed, hsc, hr]) hm
  all_goals exact decodeRange_encodes hs ht (fun _ _ => ⟨rfl, rfl⟩) (fun _ _ hsc hr => by simp [WellFormed, hsc, hr]) hm

theorem decodeM_encodes (hf : fn < 8) (hs : s < 64) (ht : t < 128) (hx : x < 128) (hm : decodeM major fn t s x o h = .ok i) :
    Encodes (encM major fn t s x (o == 1) (h == 1)) i := by
  unfold decodeM at hm
  split at hm
  case h_1 =>
    exact onFn_mword_encodes memTyCode_of hs ht hx (fun _ _ hok hsrc => ⟨rfl, by simp [WellFormed, hok, hsrc], rfl⟩) hm
  case h_2 =>
    exact onFn_mword_encodes memTyCode_of hs ht hx (fun _ _ hok hsrc => ⟨rfl, by simp [WellFormed, hok, hsrc], rfl⟩) hm
  case h_3 =>
    split at hm
    · cases hm
    · next hprv =>
      exact onFn_mword_encodes memTyCode_of hs ht hx
        (fun y hy hok hsrc => ⟨rfl, by simp [WellFormed, hok, hsrc]; exact fun e => hprv (e ▸ hy), rfl⟩) hm
  case h_4 =>
    split at hm
    · cases hm
    · next hprv =>
      exact onFn_mword_encodes memTyCode_of hs ht hx
        (fun y hy hok hsrc => ⟨rfl, by simp [WellFormed, hok, hsrc]; exact fun e => hprv (e ▸ hy), rfl⟩) hm
  case h_5 =>
    exact onFn_mword_encodes atomOpCode_of hs ht hx (fun _ _ hok hsrc => ⟨rfl, by simp [WellFormed, hok, hsrc], rfl⟩) hm
  case h_6 =>
    exact onFn_mword_encodes atomOpCode_of hs ht hx (fun _ _ hok hsrc => ⟨rfl, by simp [WellFormed, hok, hsrc], rfl⟩) hm
  case h_7 => exact decodeFence_encodes hf hs ht hm
  case h_8 => cases hm

end

/-! ## Format E (R51) -/

section
variable {fn p q x n : Nat} {i j : Instr}

/-- A row of format E: where its checks pass, the fields that the encoder writes are those that the word holds. -/
theorem ew_encodes {major N : Nat} {badN badReg unused : Bool} {P : BitVec 6} {X : BitVec 5} (hi : i.isWord = true)
    (he : encodeNat i = some (encE major fn P (r6 q) X N)) (hw : badReg = false → WellFormed i = true)
    (hf : badN = false → unused = false → P = r6 p ∧ X = BitVec.ofNat 5 x ∧ N = n) (h : ew badN badReg unused i = .ok j) :
    Encodes (encE major fn (r6 p) (r6 q) (BitVec.ofNat 5 x) n) j := by
  obtain ⟨hn, hr, hu, -, rfl⟩ := verdict_eq_ok.1 h
  obtain ⟨rfl, rfl, rfl⟩ := hf hn hu
  exact ⟨hi, hw hr, he⟩

/-- The words of the units: each row's checks leave its channel, tag or queue in range, and its unused fields zero. -/
theorem decodeE_units {major : Nat} (hm : major ≠ 0x3E) (hn16 : n < 16) (h : decodeE major fn p q x n = .ok i) :
    Encodes (encE major fn (r6 p) (r6 q) (BitVec.ofNat 5 x) n) i := by
  unfold decodeE at h
  split at h
  case h_1 =>
    split at h
    case h_5 => cases h
    all_goals exact ew_encodes rfl rfl (fun hr => by simp_all [WellFormed]) (fun hn hu => by simp_all [val_f4, r6]) h
  case h_2 =>
    split at h
    case h_7 => cases h
    all_goals exact ew_encodes rfl rfl (fun hr => by simp_all [WellFormed]) (fun hn hu => by simp_all [r6]) h
  case h_3 =>
    split at h
    case h_9 => cases h
    all_goals exact ew_encodes rfl rfl (fun hr => by simp_all [WellFormed]) (fun hn hu => by simp_all [val_f4, val_f16, r6]) h
  case h_4 =>
    split at h
    case h_11 => cases h
    all_goals exact ew_encodes rfl rfl (fun hr => by simp_all [WellFormed]) (fun hn hu => by simp_all [val_f8, val_f16, r6]) h
  case h_5 =>
    split at h
    case h_5 => cases h
    all_goals exact ew_encodes rfl rfl (fun hr => by simp_all [WellFormed]) (fun hn hu => by simp_all [val_f4, val_f16, r6]) h
  case h_6 =>
    split at h
    case h_5 => cases h
    all_goals exact ew_encodes rfl rfl (fun hr => by simp_all [WellFormed]) (fun hn hu => by simp_all [val_f8, r6]) h
  case h_7 =>
    split at h
    case h_5 => cases h
    all_goals exact ew_encodes rfl rfl (fun hr => by simp_all [WellFormed]) (fun hn hu => by simp_all [val_f4, val_f16, r6]) h
  case h_8 => exact absurd rfl hm
  case h_9 => cases h

theorem decodeXS_encodes (hn : n < 16) (h : decodeE 0x3E fn p q x n = .ok i) :
    Encodes (encE 0x3E fn (r6 p) (r6 q) (BitVec.ofNat 5 x) n) i := by
  simp only [decodeE] at h
  split at h
  case h_1 =>
    split at h
    case h_1 => exact Except.ok.inj h ▸ ⟨rfl, rfl, rfl⟩
    case h_4 => cases h
    all_goals exact ew_encodes rfl rfl (fun _ => rfl) (fun _ hu => by simp_all) h
  case h_2 | h_3 => exact ew_encodes rfl rfl (fun _ => rfl) (fun _ hu => by simp_all) h
  case h_4 =>
    split at h
    · next sz hsz => 
      obtain rfl := Except.ok.inj h
      exact encodes_of rfl rfl rfl (by rw [shootSizeCode_of hsz]; rfl)
    · cases h
  case h_5 =>
    split at h
    case h_4 => cases h
    all_goals exact Except.ok.inj h ▸ ⟨rfl, rfl, rfl⟩
  case h_6 =>
    have hslot : (f4 (n % 4)).val = n % 4 := val_f4 (Nat.mod_lt n (by decide))
    split at h
    case h_1 hq =>
      obtain rfl := Except.ok.inj h
      exact encodes_of rfl rfl rfl (by rw [hslot, Nat.mod_eq_of_lt (by omega)]; rfl)
    case h_2 hq => exact ew_encodes rfl rfl (fun _ => rfl) (fun _ hu => ⟨by simp_all [r6], rfl, by omega⟩) h
    case h_3 hq => exact ew_encodes rfl rfl (fun _ => rfl) (fun _ hu => ⟨by simp_all [r6], by simp_all, by omega⟩) h
    case h_4 h0 h1 h2 =>
      have hq : n / 4 ≠ 0 ∧ n / 4 ≠ 1 ∧ n / 4 ≠ 2 := ⟨h0, h1, h2⟩
      exact ew_encodes rfl rfl (fun _ => rfl) (fun _ hu => ⟨by simp_all [r6], by simp_all, by omega⟩) h
  case h_7 => cases h

theorem decodeE_encodes {major : Nat} (hn : n < 16) (h : decodeE major fn p q x n = .ok i) :
    Encodes (encE major fn (r6 p) (r6 q) (BitVec.ofNat 5 x) n) i := by
  by_cases hm : major = 0x3E
  · subst hm
    exact decodeXS_encodes hn h
  · exact decodeE_units hm hn h

end

/-! ## Words -/

/-! The fields of a number below its 32nd bit, put together as each format has them (R47 to R51). -/

theorem encV_fields (n : Nat) :
    encV (fld n 25 6) (fld n 21 3) (fld n 24 1 == 1) (fld n 14 7) (fld n 7 7) (fld n 0 7) = n % 2 ^ 31 := by
  simp only [encV, beq_iff_eq, fld]
  split <;> omega

theorem encBR_fields {n : Nat} (h : fld n 25 6 = 0x24) : encBR (fld n 21 4) (fld n 0 21) = n % 2 ^ 31 := by
  simp only [encBR, fld] at h ⊢
  omega

theorem encU_fields (n : Nat) :
    encU (fld n 25 6) (fld n 21 4) (r6 (fld n 15 6)) (r6 (fld n 9 6)) (fld n 8 1 * 256 + fld n 0 8) = n % 2 ^ 31 := by
  rw [encU, toNat_r6 (fld_lt n 15 6), toNat_r6 (fld_lt n 9 6)]
  simp only [fld]
  omega

theorem encM_fields (n : Nat) :
    encM (fld n 25 6) (fld n 22 3) (fld n 15 7) (fld n 9 6) (fld n 2 7) (fld n 1 1 == 1) (fld n 0 1 == 1) = n % 2 ^ 31 := by
  simp only [encM, beq_iff_eq, fld]
  split <;> split <;> omega

theorem encE_fields (n : Nat) :
    encE (fld n 25 6) (fld n 21 4) (r6 (fld n 15 6)) (r6 (fld n 9 6)) (BitVec.ofNat 5 (fld n 4 5)) (fld n 0 4) = n % 2 ^ 31 := by
  have hx : (BitVec.ofNat 5 (fld n 4 5)).toNat = fld n 4 5 := Nat.mod_eq_of_lt (fld_lt n 4 5)
  rw [encE, toNat_r6 (fld_lt n 15 6), toNat_r6 (fld_lt n 9 6), hx]
  simp only [fld]
  omega

theorem decodeNat_encodes {n : Nat} {i : Instr} (h : decodeNat n = .ok i) : Encodes (n % 2 ^ 31) i := by
  simp only [decodeNat] at h
  split at h
  · rw [← encV_fields]
    exact decodeV_encodes (fld_lt n 21 3) (fld_lt n 14 7) (fld_lt n 7 7) (fld_lt n 0 7) h
  split at h
  · next hmajor =>
    rw [← encBR_fields hmajor]
    exact decodeBR_encodes (fld_lt n 0 21) h
  split at h
  · rw [← encU_fields]
    exact decodeU_encodes (fld_lt n 8 1) (fld_lt n 0 8) h
  split at h
  · rw [← encM_fields]
    exact decodeM_encodes (fld_lt n 22 3) (fld_lt n 9 6) (fld_lt n 15 7) (fld_lt n 2 7) h
  · rw [← encE_fields]
    exact decodeE_encodes (fld_lt n 0 4) h

/-- Settles O2: each format's rows, read back from the fields that the decoder took. -/
theorem decodeThenEncode : Obligations.DecodeThenEncode := by
  unfold Obligations.DecodeThenEncode
  intro w i h
  obtain ⟨hi, hw, he⟩ := decodeNat_encodes h
  refine ⟨hi, hw, ?_⟩
  have hlt := w.isLt
  have hsum : (if chainBit w then 2 ^ 31 else 0) + w.toNat % 2 ^ 31 = w.toNat := by
    simp only [chainBit, decide_eq_true_eq]
    split <;> omega
  simp only [encode, he, Option.map_some, hsum, BitVec.ofNat_toNat, BitVec.setWidth_eq]

end Sys2Proof

/-! # Vector words (R56, R58, R63, R77, R87 to R104, R256)

Every V word is one skeleton, `State.vecWord`: a ready one ends in `State.vecDone` with the word's own value. What that state changes is
said once, thread by thread. -/

namespace Sys2Proof.Machine

open Sys2Proof

/-! ## A ready word completes -/

section
variable {s : State} {t : Team} {g : Group} {w : Bool}

/-- A V word that is ready for the destination which its operands give it. -/
theorem State.VReady.vecWord {srcs : List Os} {extra sregs : List Nat} {d : VDst} (h : s.VReady t g w srcs extra sregs d)
    {dst : (Os → Nat → Word) → VDst} (hd : dst (fun o k => g.osVal s.iss.lit o k) = d)
    (val : Group → (Os → Nat → Word) → Nat → Word) :
    s.vecWord w srcs extra sregs dst val = .next (s.vecDone t g w srcs d (val g (fun o k => g.osVal s.iss.lit o k))) := by
  obtain ⟨⟨ht, hg⟩, hregs, hq, hv, hs, hb, hp⟩ := h
  subst hd
  refine State.vecWord_eq ht hg w srcs extra sregs dst val ?_ hq hv hs hb hp
  simp only [List.any_eq_false, decide_eq_true_eq, Nat.not_le]
  exact hregs

theorem exec_binary {i : Instr} {d a b : Os} {f : Word → Word → Word} (hi : binaryOf i = some (w, d, a, b, f)) (s : State) :
    exec i s = s.vec2 w d a b f := by
  cases i <;> simp only [binaryOf, Option.some.injEq, Prod.mk.injEq, reduceCtorEq] at hi
  case vbits op w' d' a' b' =>
    split at hi
    · next hop =>
      obtain ⟨rfl, rfl, rfl, rfl, rfl⟩ := by simpa using hi
      exact if_pos hop
    · cases hi
  all_goals
    obtain ⟨rfl, rfl, rfl, rfl, rfl⟩ := hi
    rfl

theorem exec_unary {i : Instr} {d a : Os} {f : Word → Word} (hi : unaryOf i = some (w, d, a, f)) (s : State) :
    exec i s = s.vec1 w d a f := by
  cases i <;> simp only [unaryOf, Option.some.injEq, Prod.mk.injEq, reduceCtorEq] at hi
  case vbits op w' d' a' b' =>
    split at hi
    · cases hi
    · next hop =>
      obtain ⟨rfl, rfl, rfl, rfl⟩ := by simpa using hi
      exact if_neg hop
  case vcvt m op k w' d' a' =>
    split at hi
    · cases hi
    · next hop =>
      obtain ⟨rfl, rfl, rfl, rfl⟩ := by simpa using hi
      exact if_neg hop
  all_goals
    obtain ⟨rfl, rfl, rfl, rfl⟩ := hi
    rfl

theorem exec_accum {i : Instr} {d a b : Os} {f : Word → Word → Word → Word} (hi : accumOf i = some (w, d, a, b, f)) (s : State) :
    exec i s = s.vecAcc w d a b f := by
  cases i <;> simp only [accumOf, Option.some.injEq, Prod.mk.injEq, reduceCtorEq] at hi
  all_goals
    obtain ⟨rfl, rfl, rfl, rfl, rfl⟩ := hi
    rfl

theorem badDesc_eq_false {l : Word} (h : l.toNat < 2 ^ 11) : badDesc l = false := by
  rw [badDesc, Nat.div_eq_of_lt h]
  rfl

end

/-- Settles O7: each shape's word is the skeleton with its function, and a ready skeleton completes. -/
theorem vecArith : Obligations.VecArith := by
  unfold Obligations.VecArith
  refine ⟨fun s t g i w d a b f hi h => ?_, ⟨fun s t g i w d a f hi h => ?_, fun s t g w d a h hl => ?_⟩,
    fun s t g i w d a b f hi h => ?_, fun s t g w d a h hl => ?_, fun s t g m op k w d a hop h => ?_⟩
  · rw [exec_binary hi]
    exact h.vecWord rfl _
  · rw [exec_unary hi]
    exact h.vecWord rfl _
  · exact (if_neg (by simp [badDesc_eq_false hl])).trans (h.vecWord rfl _)
  · rw [exec_accum hi]
    exact h.vecWord rfl _
  · exact (if_neg (by simp [badDesc_eq_false hl])).trans (h.vecWord rfl _)
  · exact (if_pos hop).trans (h.vecWord rfl _)

/-! ## Words across threads, on predicates, and pairs -/

section
variable {s : State} {t : Team} {g : Group} {w : Bool}

/-- `VSPLAT` reads its s register of the issuing group. -/
theorem exec_vsplat (hg : s.grp? s.iss.grp = some g) (d : Os) (n : BitVec 6) (sel : SplatSel) :
    exec (.vsplat w d n sel) s =
      match sel with
      | .lo => s.vecWord w [] [] [n.toNat] (fun _ => .os d) (fun _ _ _ => (g.sreg n.toNat).setWidth 32)
      | .hi => s.vecWord w [] [] [n.toNat] (fun _ => .os d) (fun _ _ _ => (g.sreg n.toNat >>> 32).setWidth 32)
      | .pair => s.vecWord w [] [] [n.toNat]
          (fun _ => if d = .zero then .os d else .pair (vnum d) (some (fun _ => (g.sreg n.toNat >>> 32).setWidth 32)))
          (fun _ _ _ => (g.sreg n.toNat).setWidth 32) := by
  show execVsplat w d n sel s = _
  cases sel <;> simp only [execVsplat, hg, Option.map_some, Option.getD_some]

theorem exec_vmov64_zero (d : Os) : exec (.vmov64 w d .zero) s =
    s.vecWord w [.zero] [] [] (fun _ => if d = .zero then .os d else .pair (vnum d) none) (fun _ _ _ => 0) := rfl

theorem exec_vmov64_v (d : Os) (a : Fin 96) : exec (.vmov64 w d (.v a)) s =
    s.vecWord w [.v a] [a.val + 1] []
      (fun rd => if d = .zero then .os d else .pair (vnum d) (some (fun k => rd (oddOf (.v a)) k))) (fun _ rd k => rd (.v a) k) := rfl

/-- `VMOV64` of a pair of v registers reads both. -/
theorem osVal_oddOf {a : Fin 96} (ha : a.val < 95) (lit : Word) (k : Nat) :
    g.osVal lit (oddOf (.v a)) k = (g.thread k).vreg (a.val + 1) := by
  have hval : (Fin.ofNat 96 (a.val + 1)).val = a.val + 1 := Nat.mod_eq_of_lt (by omega)
  show (g.thread k).vreg (Fin.ofNat 96 (a.val + 1)).val = _
  rw [hval]

end

/-- Settles O8: each word is the skeleton with its own value and destination, and a ready skeleton completes. -/
theorem vecAcross : Obligations.VecAcross := by
  unfold Obligations.VecAcross
  refine ⟨fun s t g w d => ⟨fun p a b h => ?vsel, fun op a b h => ?vperm, fun op a h => ?vred, fun h => ?vlane, fun n h => ?vsplat,
      fun m n h => ?vsplatPair, fun n h => ?vsplatNone, fun h => ?vmovNone, fun a ha h => ?vmovNoneOf, fun m h => ?vmovZero,
      fun m a ha h => ?vmovPair⟩,
    fun s t g w d => ⟨fun c a b h => ?vcmpi, fun c a b h => ?vcmpf, fun op a b h => ?vpred, fun _ => exec_nop s⟩⟩
  case vsel =>
    show execVsel p w d a b s = _
    exact h.vecWord rfl _
  case vperm =>
    show execVperm op w d a b s = _
    exact h.vecWord rfl _
  case vred =>
    show execVred op w d a s = _
    exact h.vecWord rfl _
  case vlane =>
    show execVlane w d s = _
    exact h.vecWord rfl _
  case vsplat =>
    rw [exec_vsplat h.1.2, exec_vsplat h.1.2]
    exact ⟨h.vecWord rfl _, h.vecWord rfl _⟩
  case vsplatPair =>
    rw [exec_vsplat h.1.2]
    exact h.vecWord rfl _
  case vsplatNone =>
    rw [exec_vsplat h.1.2]
    exact h.vecWord rfl _
  case vmovNone =>
    rw [exec_vmov64_zero]
    exact h.vecWord rfl _
  case vmovNoneOf =>
    rw [exec_vmov64_v]
    exact h.vecWord rfl _
  case vmovZero =>
    rw [exec_vmov64_zero]
    exact h.vecWord rfl _
  case vmovPair =>
    rw [exec_vmov64_v]
    exact h.vecWord (by simp only [reduceCtorEq, if_false, osVal_oddOf ha]; rfl) _
  case vcmpi =>
    show execVcmpi c w d a b s = _
    exact h.vecWord rfl _
  case vcmpf =>
    show execVcmpf c w d a b s = _
    exact h.vecWord rfl _
  case vpred =>
    show execVpred op w d a b s = _
    exact h.vecWord rfl _

end Sys2Proof.Machine

/-! # What a vector word changes (R56, R58, R63, R256) -/

namespace Sys2Proof.Machine

open Sys2Proof

/-! ## One group updated -/

/-- An update of one group leaves the rest of the device. -/
theorem SameBut.modGrp (s : State) (id : GrpId) (f : Group → Group) : SameBut s (s.modGrp id f) id := by
  refine ⟨fun _ => rfl, rfl, fun k hk => State.team?_modGrp_ne s f hk, fun t ht => ⟨t.modGroup id.grp f, ?_, rfl, fun k hk => ?_⟩⟩
  · simp [ht]
  · exact modAt_get_ne f t.groups hk

/-! ## Queues popped -/

theorem Queue.pop_default (b : List Nat) : (⟨.self, 0, 0, []⟩ : Queue).pop b = ⟨.self, 0, 0, []⟩ := rfl

theorem Group.queue_popQ_self (g : Group) (b : List Nat) (n : Nat) : (g.popQ b n).queue n = (g.queue n).pop b := by
  unfold Group.popQ Group.queue
  by_cases hn : n < g.q.length
  · exact getD_modAt_self _ _ hn
  · have hout : g.q.getD n ⟨.self, 0, 0, []⟩ = ⟨.self, 0, 0, []⟩ := by simp [List.getD_eq_getElem?_getD, Nat.le_of_not_lt hn]
    rw [hout, Queue.pop_default]
    simp [List.getD_eq_getElem?_getD, Nat.le_of_not_lt hn]

theorem Group.queue_popQ_ne (g : Group) (b : List Nat) {n k : Nat} (h : k ≠ n) : (g.popQ b n).queue k = g.queue k := by
  unfold Group.popQ Group.queue
  exact getD_modAt_ne _ _ _ h

/-- Each queue of a list without repeats is popped once (R54). -/
theorem Group.queue_popQ_foldl (b : List Nat) {l : List Nat} (hl : l.Nodup) (g : Group) (n : Nat) :
    (l.foldl (fun g k => g.popQ b k) g).queue n = if n ∈ l then (g.queue n).pop b else g.queue n := by
  induction l generalizing g with
  | nil => rfl
  | cons k l ih =>
    obtain ⟨hk, hl⟩ := List.nodup_cons.1 hl
    rw [List.foldl_cons, ih hl]
    by_cases hn : n = k
    · subst hn
      simp [hk, Group.queue_popQ_self]
    · simp [hn, Group.queue_popQ_ne g b hn]

theorem nodup_eraseDups (l : List Nat) : l.eraseDups.Nodup := by
  match l with
  | [] => exact List.nodup_nil
  | a :: l =>
    rw [List.eraseDups_cons]
    refine List.nodup_cons.2 ⟨by simp, nodup_eraseDups _⟩
termination_by l.length
decreasing_by simpa using Nat.lt_succ_of_le (List.length_filter_le _ l)

theorem popsOf_nodup (l : List Os) : (popsOf l).Nodup := nodup_eraseDups _

/-- Pops change nothing but the queues. -/
theorem Group.popQ_foldl_eq (b l : List Nat) (g : Group) : ∃ q, l.foldl (fun g n => g.popQ b n) g = { g with q := q } := by
  induction l generalizing g with
  | nil => exact ⟨g.q, rfl⟩
  | cons n l ih =>
    obtain ⟨q, hq⟩ := ih (g.popQ b n)
    exact ⟨q, hq⟩

/-! ## A thread's destination -/

section
variable (th : Thread) (w : Bool) (d : VDst) (i : Nat) (x : Word)

theorem Thread.putDst_vreg {n : Nat} (hn : n < th.v.length) :
    (th.putDst w d i x).vreg n = if w then th.vreg n else (d.gives i x n).getD (th.vreg n) := by
  cases w with
  | true => rfl
  | false =>
    cases d with
    | os o =>
      cases o with
      | v m =>
        by_cases h : n = m.val
        · subst h
          simpa [Thread.putDst, VDst.gives] using Thread.vreg_setV_self th x hn
        · simpa [Thread.putDst, VDst.gives, h] using Thread.vreg_setV_ne th x h
      | _ => rfl
    | pair m hi =>
      by_cases h1 : n = m + 1
      · subst h1
        cases hi with
        | none => simpa [Thread.putDst, VDst.gives] using Thread.vreg_setV_ne th x (by omega)
        | some f => 
          have hlen : m + 1 < (th.setV m x).v.length := by simpa [Thread.setV] using hn
          simpa [Thread.putDst, VDst.gives] using Thread.vreg_setV_self (th.setV m x) (f i) hlen
      · have hset : (th.putDst false (.pair m hi) i x).vreg n = (th.setV m x).vreg n := by
          cases hi with
          | none => rfl
          | some f => exact Thread.vreg_setV_ne (th.setV m x) (f i) h1
        by_cases h0 : n = m
        · subst h0
          simpa [hset, VDst.gives] using Thread.vreg_setV_self th x hn
        · simpa [hset, VDst.gives, h0, h1] using Thread.vreg_setV_ne th x h0
    | pred p => simp [Thread.putDst, VDst.gives, Thread.vreg]

theorem Thread.putDst_pred {p : Nat} (hp : p < 8) :
    (th.putDst w d i x).pred p = if w then th.pred p else (d.givesP x p).getD (th.pred p) := by
  cases w with
  | true => rfl
  | false =>
    cases d with
    | os o => cases o <;> rfl
    | pair m hi => cases hi <;> rfl
    | pred k =>
      by_cases h : p = k.val ∧ p ≠ 0
      · obtain ⟨hk, h0⟩ := h
        simpa [Thread.putDst, VDst.givesP, ← hk, h0] using Thread.pred_setPred_self th (x != 0) h0 hp
      · by_cases hk : p = k.val
        · have h0 : p = 0 := by omega
          simp [VDst.givesP, h0]
        · simpa [Thread.putDst, VDst.givesP, hk] using Thread.pred_setPred_ne th (x != 0) hk

theorem Thread.putDst_lat : (th.putDst w d i x).lat = th.lat := by
  unfold Thread.putDst
  split
  · rfl
  · split <;> simp

theorem Thread.putDst_rest : { th.putDst w d i x with v := th.v, p := th.p, pend := th.pend } = th := by
  unfold Thread.putDst
  split
  · rfl
  · split
    · rfl
    · rfl
    · rfl
    · rfl
    · unfold Thread.setPred
      split <;> rfl

end

/-- A delivery to an active thread is what `VecThread` says. -/
theorem vecThread_putDst (w : Bool) (d : VDst) (val : Nat → Word) (i : Nat) (th : Thread) :
    VecThread w d val i th ((th.putDst w d i (val i)).latchPush (val i)) := by
  refine ⟨?_, fun n hn => th.putDst_vreg w d i (val i) hn, fun p hp => th.putDst_pred w d i (val i) hp,
    congrArg (fun x : Thread => { x with lat := th.lat }) (th.putDst_rest w d i (val i))⟩
  rw [Thread.latchPush, Thread.putDst_lat]

/-! ## The group and the state -/

theorem State.vecDone_no_push {s : State} {d : VDst} {w : Bool} (h : d.push w = none) (t : Team) (g : Group) (srcs : List Os)
    (val : Nat → Word) : s.vecDone t g w srcs d val =
      s.modGrp s.iss.grp (fun x => x.vec s.iss.mask (beatsOf g.width s.iss.mask) (popsOf srcs) w d val) := by
  simp only [State.vecDone, h]

theorem Group.sameButThreads_vec (g : Group) (m : Mask) (beats pops : List Nat) (w : Bool) (d : VDst) (val : Nat → Word) :
    Group.SameButThreads { g with q := (g.vec m beats pops w d val).q } (g.vec m beats pops w d val) m (VecThread w d val) := by
  refine ⟨?_, by simp [Group.vec], fun k th hk => ?_⟩
  · obtain ⟨q, hq⟩ := Group.popQ_foldl_eq beats pops g
    rw [Group.vec, hq]
    rfl
  · have hget : g.threads[k]? = some th := hk
    refine ⟨_, by rw [Group.vec, Group.onThreads_get, Group.popQ_foldl_threads, hget, Option.map_some], ?_⟩
    cases m.getLsbD k
    · rfl
    · exact vecThread_putDst w d val k th

/-- Settles O9: the group by what pops and a delivery change, and a queue destination by the push that alone tells it from a suppressed
write. -/
theorem vecFrame : Obligations.VecFrame := by
  unfold Obligations.VecFrame
  refine ⟨fun s t g w srcs d val h hpush => ?_, fun s t g srcs n val h => rfl⟩
  rw [State.vecDone_no_push hpush]
  refine ⟨SameBut.modGrp s _ _, _, by rw [State.grp?_modGrp_self, h.2]; rfl, Group.sameButThreads_vec g _ _ _ _ _ _, fun n => ?_⟩
  exact Group.queue_popQ_foldl _ (popsOf_nodup srcs) g n

end Sys2Proof.Machine

/-! # What the operations of homes leave of the teams

A write at a home is an examination of waits, and a push of an uncorrectable value is poison to its team; of the teams, an operation
of homes or first-level caches changes nothing else, and it parks nothing. The relation `Notices` says so, of every operation that a
core's load or store, an engine's write and the load of a frame are made of. -/

namespace Sys2Proof.Machine

open Sys2Proof

/-- A group without its waits. -/
def Group.waitless (g : Group) : Group := { g with waits := [] }

theorem Group.s_of_waitless {g g' : Group} (h : g'.waitless = g.waitless) : g'.s = g.s := by
  change g'.waitless.s = g.waitless.s
  rw [h]

theorem Group.threads_of_waitless {g g' : Group} (h : g'.waitless = g.waitless) : g'.threads = g.threads := by
  change g'.waitless.threads = g.waitless.threads
  rw [h]

/-- A team without its groups' waits and the poison it has met. -/
def Team.noticeless (t : Team) : Team :=
  { t with groups := t.groups.map Group.waitless, poisonSeen := false, poisonCnt := 0 }

/-- From one state to another, waits have been examined and teams have met poison; nothing else of a team changes, nor does a
node or the word in issue, and no entry is parked. -/
structure Notices (s s' : State) : Prop where
  iss : s'.iss = s.iss
  nodes : s'.nodes = s.nodes
  team : ∀ id, (s'.team? id).map Team.noticeless = (s.team? id).map Team.noticeless
  parks : ∀ c ∈ s'.cores, ∀ p ∈ c.replay, ∃ d ∈ s.cores, p ∈ d.replay

/-- The parts of a state of which `Notices` speaks. -/
def State.roster (s : State) : Issue × List Node × List Team × List Core := (s.iss, s.nodes, s.teams, s.cores)

theorem mem_insCore {c d : Core} {l : List Core} (h : d ∈ insCore c l) : d = c ∨ d ∈ l := by
  induction l with
  | nil => exact .inl (List.mem_singleton.1 h)
  | cons x l ih =>
    unfold insCore at h
    split at h
    · exact List.mem_cons.1 h
    · split at h
      · exact (List.mem_cons.1 h).imp_right (List.mem_cons_of_mem x)
      · rcases List.mem_cons.1 h with rfl | h
        · exact .inr List.mem_cons_self
        · exact (ih h).imp_right (List.mem_cons_of_mem x)

/-- What is parked at a core is parked at one of the state's cores: a core not there has nothing parked. -/
theorem State.parked_core {s : State} {n : Nat} {p : Park} (h : p ∈ (s.core n).replay) : ∃ d ∈ s.cores, p ∈ d.replay := by
  unfold State.core at h
  cases hf : s.cores.find? (fun c => c.num == n) with
  | none =>
    rw [hf] at h
    exact absurd h List.not_mem_nil
  | some d =>
    rw [hf] at h
    exact ⟨d, List.mem_of_find?_eq_some hf, h⟩

namespace Notices

theorem refl (s : State) : Notices s s := ⟨rfl, rfl, fun _ => rfl, fun c hc _ hp => ⟨c, hc, hp⟩⟩

theorem trans {s s' s'' : State} (h1 : Notices s s') (h2 : Notices s' s'') : Notices s s'' where
  iss := h2.iss.trans h1.iss
  nodes := h2.nodes.trans h1.nodes
  team id := (h2.team id).trans (h1.team id)
  parks c hc p hp := by
    obtain ⟨d, hd, hpd⟩ := h2.parks c hc p hp
    exact h1.parks d hd p hpd

theorem foldl {β : Type} {f : State → β → State} (step : ∀ s x, Notices s (f s x)) (l : List β) (s : State) :
    Notices s (l.foldl f s) :=
  foldl_related (R := Notices) refl trans step l s

theorem of_roster {s s' : State} (h : s'.roster = s.roster) : Notices s s' := by
  simp only [State.roster, Prod.mk.injEq] at h
  obtain ⟨hi, hn, ht, hc⟩ := h
  exact ⟨hi, hn, fun id => by rw [State.team?, State.team?, ht], fun c hm p hp => ⟨c, hc ▸ hm, hp⟩⟩

/-- Every team changed in its waits and its poison. -/
theorem map_teams (s : State) {f : Team → Team} (hid : ∀ t, (f t).id = t.id) (hf : ∀ t, (f t).noticeless = t.noticeless) :
    Notices s { s with teams := s.teams.map f } where
  iss := rfl
  nodes := rfl
  team id := by
    rw [State.team?, State.team?, find_map_id hid, Option.map_map]
    exact congrArg (Option.map · _) (funext hf)
  parks c hc _ hp := ⟨c, hc, hp⟩

/-- Every core changed, but for its replay queue. -/
theorem of_cores {s s' : State} {f : Core → Core} (h : s'.roster = (s.iss, s.nodes, s.teams, s.cores.map f))
    (hf : ∀ c, (f c).replay = c.replay) : Notices s s' := by
  simp only [State.roster, Prod.mk.injEq] at h
  obtain ⟨hi, hn, ht, hc⟩ := h
  refine ⟨hi, hn, fun id => by rw [State.team?, State.team?, ht], fun c hm p hp => ?_⟩
  obtain ⟨d, hd, rfl⟩ := List.mem_map.1 (hc ▸ hm)
  exact ⟨d, hd, hf d ▸ hp⟩

/-- One core changed, but for its replay queue. -/
theorem modCore (s : State) (n : Nat) {f : Core → Core} (hf : ∀ c, (f c).replay = c.replay) : Notices s (s.modCore n f) where
  iss := rfl
  nodes := rfl
  team _ := rfl
  parks c hc p hp := by
    rcases mem_insCore hc with rfl | hc
    · exact State.parked_core (n := n) (hf (s.core n) ▸ hp)
    · exact ⟨c, hc, hp⟩

/-- What does not depend on waits and poison is the same of every team. -/
theorem team_map {s s' : State} (h : Notices s s') {α : Type} (p : Team → α) (hp : ∀ t : Team, p t.noticeless = p t) (id : TeamId) :
    (s'.team? id).map p = (s.team? id).map p := by
  have hcomp : p = p ∘ Team.noticeless := funext fun t => (hp t).symm
  rw [hcomp, ← Option.map_map, ← Option.map_map, h.team id]

/-- A team still stands, the same but for waits and poison. -/
theorem team_some {s s' : State} (h : Notices s s') {id : TeamId} {t : Team} (ht : s.team? id = some t) :
    ∃ t', s'.team? id = some t' ∧ t'.noticeless = t.noticeless := by
  have hid := h.team id
  rwa [ht, Option.map_some, Option.map_eq_some_iff] at hid

/-- A group still stands, the same but for its waits. -/
theorem grp_some {s s' : State} (h : Notices s s') {k : GrpId} {g : Group} (hg : s.grp? k = some g) :
    ∃ g', s'.grp? k = some g' ∧ g'.waitless = g.waitless := by
  rw [State.grp?, Option.bind_eq_some_iff] at hg
  obtain ⟨t, ht, hg⟩ := hg
  obtain ⟨t', ht', heq⟩ := h.team_some ht
  have hgroups : t'.groups.map Group.waitless = t.groups.map Group.waitless := congrArg Team.groups heq
  have hk := congrArg (fun l : List Group => l[k.grp]?) hgroups
  simp only [List.getElem?_map, hg, Option.map_some, Option.map_eq_some_iff] at hk
  obtain ⟨g', hg', hw⟩ := hk
  exact ⟨g', by rw [State.grp?, ht', Option.bind_some, hg'], hw⟩

theorem modGroups (s : State) {f : Group → Group} (hf : ∀ g, (f g).waitless = g.waitless) : Notices s (s.modGroups f) :=
  map_teams s (fun _ => rfl) (fun t => by simp [Team.noticeless, Function.comp_def, hf])

theorem modTeam (s : State) (id : TeamId) {f : Team → Team} (hid : ∀ t, (f t).id = t.id) (hf : ∀ t, (f t).noticeless = t.noticeless) :
    Notices s (s.modTeam id f) :=
  map_teams s (fun t => by split <;> simp [hid]) (fun t => by split <;> simp [hf])

theorem count (s : State) (w reg n : Nat) : Notices s (s.count w reg n) := of_roster rfl

theorem countRead (s : State) (w : Nat) (sram : Bool) : Notices s (s.countRead w sram) := of_roster rfl

theorem poisonSeen (s : State) (id : TeamId) : Notices s (s.poisonSeen id) := modTeam s id (fun _ => rfl) (fun _ => rfl)

theorem giveBack (s : State) (p : Nat × Byte × Nat → Bool) : Notices s (s.giveBack p) := by
  unfold State.giveBack
  extract_lets out lost isLost s1
  have h1 : Notices s s1 := of_roster rfl
  exact h1.trans (foldl (fun s _ => count s _ _ _) _ s1)

theorem recallLine (s : State) (pa : Nat) : Notices s (s.recallLine pa) := (giveBack s _).trans (of_cores rfl fun _ => rfl)

theorem regionLoad (s : State) (core pa : Nat) : Notices s (s.regionLoad core pa) := of_roster rfl

theorem regionDrop (s : State) (r : Region) (core : Option Nat) : Notices s (s.regionDrop r core) :=
  (giveBack s _).trans (of_cores rfl fun c => by split <;> rfl)

theorem recallAll (s : State) (pa : Nat) : Notices s (s.recallAll pa) := by
  unfold State.recallAll
  refine Notices.trans ?_ (recallLine _ pa)
  split
  · exact (regionDrop s _ _).trans (of_roster rfl)
  · exact refl s

theorem regionStore (s : State) (core pa : Nat) (stays : Bool) : Notices s (s.regionStore core pa stays) := by
  unfold State.regionStore
  extract_lets r line now conflict h rs s1 after
  refine Notices.trans (s' := s1) ?_ (of_roster rfl)
  unfold s1
  split
  · exact regionDrop s _ _
  · exact refl s

theorem unverify (s : State) (pa : Nat) : Notices s (s.unverify pa) := by
  unfold State.unverify
  split
  · exact refl s
  · exact of_roster rfl

theorem homePut (s : State) (pa : Nat) (v : Byte) : Notices s (s.homePut pa v) := by
  unfold State.homePut
  split
  · exact refl s
  · refine (unverify s pa).trans ?_
    extract_lets
    split <;> exact of_roster rfl

theorem putCells (s : State) (attr : Nat) (cells : List (Nat × Byte)) : Notices s (s.putCells attr cells) := by
  induction cells generalizing s with
  | nil => exact refl s
  | cons c cs ih => exact (homePut s _ _).trans (ih _)

theorem noticed (s : State) (pas : List Nat) : Notices s (s.noticed pas) := by
  unfold State.noticed
  split
  · exact modGroups s (fun _ => rfl)
  · exact refl s

theorem pushesAt (s : State) (after pas : List Nat) : Notices s (s.pushesAt after pas) := by
  refine foldl (fun s x => ?_) _ _
  split
  · extract_lets fl bad s1
    have h1 : Notices s s1 := of_roster rfl
    split
    · exact (h1.trans (countRead s1 _ _)).trans (poisonSeen _ _)
    · exact h1
  · exact refl s

theorem wrote (s : State) (after pas : List Nat) : Notices s (s.wrote after pas) := by
  unfold State.wrote
  extract_lets behind s1 ids
  have h1 : Notices s s1 := pushesAt s behind pas
  split
  · exact h1
  · exact h1.trans (of_roster rfl)

theorem perform (s : State) (h : HeldWrite) : Notices s (s.perform h) := by
  unfold State.perform
  extract_lets s0 s1
  have h0 : Notices s s0 := by
    unfold s0
    split
    · cases h.cells with
      | nil => exact refl s
      | cons c cs => exact recallAll s _
    · exact refl s
  have h1 : Notices s s1 := (h0.trans (putCells _ _ _)).trans (noticed _ _)
  split
  · exact h1.trans (wrote _ _ _)
  · exact h1

theorem sendSnoop (s : State) (line : Nat) : Notices s (s.sendSnoop line) := by
  unfold State.sendSnoop
  split
  · exact refl s
  · exact of_roster rfl

theorem snoopWrite (s : State) (h : HeldWrite) (line : Nat) : Notices s (s.snoopWrite h line) :=
  (sendSnoop s line).trans (of_roster rfl)

theorem writeLine (s : State) (h : HeldWrite) : Notices s (s.writeLine h) := by
  unfold State.writeLine
  split
  · exact refl s
  · extract_lets p
    split
    · exact count s _ _ _
    · split
      · exact of_roster rfl
      · split
        · exact snoopWrite s h _
        · split
          · exact of_roster rfl
          · exact perform s h

theorem writeCells (s : State) (core : Option Nat) (attr : Nat) (push : Bool) (cells : List (Nat × Byte)) :
    Notices s (s.writeCells core attr push cells) :=
  foldl (fun s _ => writeLine s _) _ s

theorem drainPushes (s : State) : Notices s s.drainPushes :=
  Notices.trans (s' := { s with pushq := [] }) (of_roster rfl) (foldl writeLine _ _)

/-! ## First-level caches -/

theorem selfOut (s : State) (core line : Nat) (ids : List Nat) : Notices s (s.selfOut core line ids) := by
  induction ids generalizing s with
  | nil => exact refl s
  | cons id ids ih =>
    unfold State.selfOut
    extract_lets mine cells s1
    split
    · exact refl s
    · have h1 : Notices s s1 := modCore s core fun _ => rfl
      exact (h1.trans (writeLine _ _)).trans (ih _)

theorem writeBack (s : State) (core line : Nat) : Notices s (s.writeBack core line) := by
  unfold State.writeBack
  extract_lets s0 lost s1
  have h0 : Notices s s0 := giveBack s _
  have h1 : Notices s0 s1 := by
    unfold s1
    split
    · have hcore : Notices s0 (s0.modCore core fun c => { c with self := c.self.filter (fun b => !lost b) }) :=
        modCore s0 core fun _ => rfl
      exact hcore.trans (count _ _ _ _)
    · exact refl _
  exact (h0.trans h1).trans (selfOut _ _ _ _)

theorem cleanCore (s : State) (core : Nat) : Notices s (s.cleanCore core) := foldl (fun s l => writeBack s core l) _ s

theorem relSelf (s : State) (core : Nat) : Notices s (s.relSelf core) := foldl (fun s l => writeBack s core l) _ s

theorem dropLine (s : State) (core line : Nat) : Notices s (s.dropLine core line) :=
  (writeBack s core line).trans (modCore _ _ fun _ => rfl)

theorem touchLine (s : State) (core pa : Nat) (hint : Bool) : Notices s (s.touchLine core pa hint) := by
  unfold State.touchLine
  extract_lets line c inSet place
  split
  · exact modCore s _ fun _ => rfl
  · split
    · exact modCore s _ fun _ => rfl
    · split
      · exact (dropLine s core _).trans (modCore _ _ fun _ => rfl)
      · exact refl s

theorem dirStore (s : State) (core pa : Nat) (v : Byte) : Notices s (s.dirStore core pa v) := by
  unfold State.dirStore
  split
  · exact (giveBack s _).trans (homePut _ pa v)
  · extract_lets s1 s2 s3
    have h1 : Notices s s1 := (unverify s pa).trans (giveBack _ _)
    have h2 : Notices s1 s2 := of_cores rfl fun c => by split <;> rfl
    refine (h1.trans (h2.trans (Notices.trans (s' := s3) ?_ (of_roster rfl))))
    unfold s3
    split <;> exact of_roster rfl

theorem selfStore (s : State) (core pa : Nat) (v : Byte) (push : Bool) (id : Nat) : Notices s (s.selfStore core pa v push id) := by
  unfold State.selfStore
  exact modCore s core fun _ => rfl

theorem storeLine (s : State) (core attr : Nat) (hint push : Bool) (cells : List (Nat × Byte)) :
    Notices s (s.storeLine core attr hint push cells) := by
  unfold State.storeLine
  split
  · exact refl s
  · next c cs =>
    extract_lets p pas s1
    split
    · have htick : Notices s s.tick := of_roster rfl
      exact (htick.trans (touchLine _ core _ hint)).trans (foldl (fun s1 x => selfStore s1 core _ _ push _) _ _)
    · split
      · have h1 : Notices s s1 :=
          ((regionStore s core p true).trans (touchLine _ core p hint)).trans
            ((foldl (fun s x => dirStore s core _ _) _ _).trans (noticed _ pas))
        split
        · exact h1.trans (wrote _ _ _)
        · exact h1
      · exact writeLine s _

theorem storePart (s : State) (core attr pa : Nat) (bs : List Byte) (hint push : Bool) :
    Notices s (s.storePart core attr pa bs hint push) :=
  foldl (fun s l => storeLine s core attr hint push l) _ s

theorem selfFill (s : State) (core pa : Nat) : Notices s (s.selfFill core pa) := by
  unfold State.selfFill
  exact modCore s core fun _ => rfl

theorem loadPart (s : State) (core attr pa n : Nat) (hint : Bool) : Notices s (s.loadPart core attr pa n hint).1 := by
  unfold State.loadPart
  split
  · exact foldl (fun s a => (regionLoad s core _).trans (touchLine _ core _ hint)) _ s
  · split
    · refine foldl (fun s a => ?_) _ s
      extract_lets s1
      have h1 : Notices s s1 := touchLine s core a hint
      split
      · exact h1
      · exact h1.trans (selfFill s1 core a)
    · exact refl s

/-! ## Elements and frames -/

theorem loadParts (s : State) (core : Nat) (hint : Bool) (ps : List Part) : Notices s (s.loadParts core hint ps).1 := by
  induction ps generalizing s with
  | nil => exact refl s
  | cons p ps ih =>
    unfold State.loadParts
    split
    · exact ih s
    · extract_lets a r
      refine Notices.trans (s' := a.1) ?_ (ih _)
      unfold a
      split
      · exact refl s
      · exact loadPart s core _ _ _ hint

theorem storeElem (s : State) (core : Nat) (hint push : Bool) (ps : List Part) (bs : List Byte) :
    Notices s (s.storeElem core hint push ps bs) := by
  induction ps generalizing s bs with
  | nil => exact refl s
  | cons p ps ih =>
    unfold State.storeElem
    extract_lets s1
    refine Notices.trans (s' := s1) ?_ (ih _ _)
    unfold s1
    split
    · exact count s _ _ _
    · split
      · exact writeCells s _ _ _ _
      · exact storePart s core _ _ _ hint push

theorem engineWrite (s : State) (wheel : Nat) (push : Bool) (ps : List Part) (bs : List Byte) :
    Notices s (s.engineWrite wheel push ps bs) := by
  induction ps generalizing s bs with
  | nil => exact refl s
  | cons p ps ih =>
    unfold State.engineWrite
    extract_lets s1
    refine Notices.trans (s' := s1) ?_ (ih _ _)
    unfold s1
    split
    · exact count s _ _ _
    · split <;> exact writeCells s _ _ _ _

theorem writeVA {s s1 : State} {core space va : Nat} {bs : List Byte} (h : s.writeVA core space va bs = .ok s1) : Notices s s1 := by
  unfold State.writeVA at h
  split at h
  · cases h
  · cases h
    exact engineWrite s _ _ _ _

theorem crossing (s : State) (ps : List Part) : Notices s (s.crossing ps) := by
  refine foldl (fun s p => ?_) _ s
  split
  · unfold State.takeMclk
    split
    · exact of_roster rfl
    · exact refl s
  · exact refl s

theorem frameRead (s : State) (core n : Nat) (ps : List Part) : Notices s (s.frameRead core n ps).1 := by
  unfold State.frameRead
  extract_lets r
  have h : Notices s r.1 := (crossing s ps).trans (loadParts _ core false ps)
  split
  · exact h
  · split
    · exact h.trans (count _ _ _ _)
    · exact h.trans (countRead _ _ _)

end Notices

end Sys2Proof.Machine

/-! # Return from a trap (R61, R299, R307)

The frame is loaded; then the group alone changes, by `Group.returned`. -/

namespace Sys2Proof.Machine

open Sys2Proof

theorem exec_tret (s : State) : exec .tret s = execTret s := rfl

/-- The s registers of a group as a frame's bytes restore them (R300, R307). -/
def Group.restored (g : Group) (lr2 : Bool) (bs : List Byte) : Group :=
  let g := (g.setS 8 (BitVec.ofNat 64 (field bs 32 8))).setS 9 (BitVec.ofNat 64 (field bs 40 8))
  if lr2 then (List.range 6).foldl (fun g k => g.setS (10 + k) (BitVec.ofNat 64 (field bs (64 + 8 * k) 8))) g else g

/-- The threads of a returning group: no latch is live, and those of the receiving path run from the frame's `RESUMEPC` (R307). -/
def Group.resumed (g : Group) (m : Mask) (pc : VAddr) (stopped : Bool) : Group :=
  g.killLatches.onThreads m (fun _ th => if th.st = .exited then th else { th with pc := pc, st := .runnable, stopped := stopped })

/-- The group of a name after `TRET`, by the bytes of its frame (R307). -/
def State.returned (s : State) (gid : GrpId) (lr2 : Bool) (m : Mask) (bs : List Byte) (g0 : Group) : Group :=
  let pc : VAddr := BitVec.ofNat 56 (field bs 0 8)
  let g := (g0.restored lr2 bs).resumed m pc (s.ending gid.team)
  { g with
    trapMask := none
    cur := some pc
    packet := none
    stream := []
    lastMask := 0
    traps := (((s.core g.core).parksOf gid).foldl (fun (g : Group) p => g.pend p.trap)
      { g with traps := g.traps.filter (fun x => !x.parked) }).traps
    paths := g.paths.map (fun p => { p with wait := 0, due := none }) }

/-- A frame that translates is loaded, and then the group alone changes. -/
theorem State.leaveTrap_eq {s : State} {gid : GrpId} {t : Team} {g : Group} {l : Launch} {m : Mask} {ps : List Part}
    (ht : s.team? gid.team = some t) (hg : s.grp? gid = some g) (hl : s.launch? gid.team = some l) (hm : g.trapMask = some m)
    (hx : s.xlatElem g.core t.space (l.frame gid.team.idx gid.grp) (if l.lr2 then 128 else 64) .read = .ok ps) :
    s.leaveTrap gid true =
      (s.frameRead g.core (if l.lr2 then 128 else 64) ps).1.modGrp gid
        (s.returned gid l.lr2 m (s.frameRead g.core (if l.lr2 then 128 else 64) ps).2) := by
  simp only [State.leaveTrap, ht, hg, hl, hm, hx]
  rfl

/-! ## Registers and threads restored -/

theorem Group.sreg_setS_foldl (r : Nat → Nat) (v : Nat → Reg) (l : List Nat) (g : Group) {k : Nat} (hk : ∀ x ∈ l, k ≠ r x) :
    (l.foldl (fun g x => g.setS (r x) (v x)) g).sreg k = g.sreg k := by
  induction l generalizing g with
  | nil => rfl
  | cons x l ih =>
    rw [List.foldl_cons, ih _ fun y hy => hk y (List.mem_cons_of_mem x hy), Group.sreg_setS_ne g _ (hk x List.mem_cons_self)]

theorem Group.threads_setS_foldl (r : Nat → Nat) (v : Nat → Reg) (l : List Nat) (g : Group) :
    (l.foldl (fun g x => g.setS (r x) (v x)) g).threads = g.threads := by
  induction l generalizing g with
  | nil => rfl
  | cons x l ih => rw [List.foldl_cons, ih, Group.setS_threads]

/-- A frame's s10 to s15 leave the other registers. -/
theorem Group.sreg_restored (g : Group) (lr2 : Bool) (bs : List Byte) {k : Nat} (hk : k < 10 ∨ 16 ≤ k) :
    (g.restored lr2 bs).sreg k =
      ((g.setS 8 (BitVec.ofNat 64 (field bs 32 8))).setS 9 (BitVec.ofNat 64 (field bs 40 8))).sreg k := by
  unfold Group.restored
  split
  · refine Group.sreg_setS_foldl _ _ _ _ fun x hx => ?_
    have := List.mem_range.1 hx
    omega
  · rfl

theorem Group.sreg_restored_eight (g : Group) (lr2 : Bool) (bs : List Byte) (h : g.s.length = 64) :
    (g.restored lr2 bs).sreg 8 = BitVec.ofNat 64 (field bs 32 8) := by
  rw [Group.sreg_restored g lr2 bs (by omega), Group.sreg_setS_ne _ _ (by omega), Group.sreg_setS_self g _ (by omega) (by omega)]

theorem Group.sreg_restored_nine (g : Group) (lr2 : Bool) (bs : List Byte) (h : g.s.length = 64) :
    (g.restored lr2 bs).sreg 9 = BitVec.ofNat 64 (field bs 40 8) := by
  rw [Group.sreg_restored g lr2 bs (by omega), Group.sreg_setS_self _ _ (by omega) (by rw [Group.setS_length]; omega)]

theorem Group.sreg_restored_other (g : Group) (lr2 : Bool) (bs : List Byte) {k : Nat} (hk : k < 8 ∨ 16 ≤ k) :
    (g.restored lr2 bs).sreg k = g.sreg k := by
  rw [Group.sreg_restored g lr2 bs (by omega), Group.sreg_setS_ne _ _ (by omega), Group.sreg_setS_ne _ _ (by omega)]

theorem Group.threads_restored (g : Group) (lr2 : Bool) (bs : List Byte) : (g.restored lr2 bs).threads = g.threads := by
  unfold Group.restored
  split
  · rw [Group.threads_setS_foldl, Group.setS_threads, Group.setS_threads]
  · rw [Group.setS_threads, Group.setS_threads]

/-- A thread of the receiving path keeps its v registers, and runs from `RESUMEPC` unless it has exited. -/
theorem Group.resumed_thread {g : Group} {m : Mask} (pc : VAddr) (stopped : Bool) {k : Nat} {th : Thread} (hk : m.getLsbD k = true)
    (hth : g.threads[k]? = some th) :
    ∃ th', (g.resumed m pc stopped).threads[k]? = some th' ∧ th'.v = th.v ∧
      (th.st ≠ .exited → th'.st = .runnable ∧ th'.pc = pc) := by
  have hkill : g.killLatches.threads[k]? = some th.killLatches := by simp [Group.killLatches, hth]
  rw [Group.resumed, Group.onThreads_active _ _ hk, hkill, Option.map_some]
  refine ⟨_, rfl, ?_, fun hst => ?_⟩
  · split <;> rfl
  · rw [if_neg (show th.killLatches.st ≠ .exited from hst)]
    exact ⟨rfl, rfl⟩

/-! ## `TRET` -/

/-- Settles O19. After the load of the frame, which leaves of the group all but its waits (`Notices.frameRead`), the word updates
one group. -/
theorem returnFromTrap : Obligations.ReturnFromTrap := by
  intro s t g ⟨ht, hg⟩
  refine ⟨fun hno => ?_, fun m l ps hsys hm hl => ?_⟩
  · have hcond : (!s.iss.sys || g.trapMask.isNone) = true := by
      rcases hno with h | h <;> simp [h]
    rw [exec_tret, execTret, State.asWord_eq ht hg, if_pos hcond, State.finish_notPrivileged]
  intro n hx r q
  refine ⟨fun hq => ?_, fun hq => ?_, ?_⟩
  · exact if_pos hq
  · show (s.frameRead g.core n ps).2 = _
    rw [State.frameRead, if_neg hq]
    split <;> rfl
  · have hexec : exec .tret s = .next (r.1.modGrp s.iss.grp (s.returned s.iss.grp l.lr2 m r.2)) := by
      rw [exec_tret, execTret, State.asWord_eq ht hg, if_neg (by simp [hsys, hm]), State.leaveTrap_eq ht hg hl hm hx]
      rfl
    obtain ⟨g1, hg1, hsame⟩ := (Notices.frameRead s g.core n ps).grp_some hg
    have hs1 : g1.s = g.s := Group.s_of_waitless hsame
    have hthreads : g1.threads = g.threads := Group.threads_of_waitless hsame
    refine ⟨_, s.returned s.iss.grp l.lr2 m r.2 g1, hexec, SameBut.modGrp r.1 _ _, ?_, rfl, fun hlen => ?_, fun k th hk hth => ?_⟩
    · rw [State.grp?_modGrp_self, hg1, Option.map_some]
    · have hlen1 : g1.s.length = 64 := hs1 ▸ hlen
      refine ⟨g1.sreg_restored_eight l.lr2 r.2 hlen1, g1.sreg_restored_nine l.lr2 r.2 hlen1, fun k hk => ?_⟩
      have hsreg : g1.sreg k = g.sreg k := by rw [Group.sreg, Group.sreg, hs1]
      exact (g1.sreg_restored_other l.lr2 r.2 hk).trans hsreg
    · have hth1 : (g1.restored l.lr2 r.2).threads[k]? = some th := by rw [Group.threads_restored, hthreads, hth]
      exact Group.resumed_thread _ _ hk hth1

end Sys2Proof.Machine

/-! # What a window reads, whatever the groups hold

Translation and the windows do not depend on the groups of the teams: a group that pops queues, has read a slot or whose waits are
examined leaves every read of a window as it was. -/

namespace Sys2Proof.Machine

open Sys2Proof

theorem any_eq_false_iff {α : Type} {p : α → Bool} {l : List α} : l.any p = false ↔ ∀ x ∈ l, p x = false := by
  simp

/-- A state whose teams have other groups. -/
def State.withGroups (s : State) (f : Team → List Group) : State :=
  { s with teams := s.teams.map (fun t => { t with groups := f t }) }

theorem State.modGroups_eq (s : State) (f : Group → Group) : s.modGroups f = s.withGroups (fun t => t.groups.map f) := rfl

theorem State.modGrp_eq (s : State) (k : GrpId) (f : Group → Group) :
    s.modGrp k f = s.withGroups (fun t => if t.id = k.team then modAt f k.grp t.groups else t.groups) := by
  refine congrArg (fun ts => { s with teams := ts }) (List.map_congr_left fun t _ => ?_)
  by_cases h : t.id = k.team <;> simp [h, Team.modGroup]

section
variable (s : State) (f : Team → List Group)

theorem State.team?_withGroups (id : TeamId) :
    (s.withGroups f).team? id = (s.team? id).map (fun t => { t with groups := f t }) :=
  find_map_id (f := fun t => { t with groups := f t }) (fun _ => rfl) id s.teams

theorem State.walkFrom_withGroups (va : Nat) (acc : Acc) (fuel lv e : Nat) :
    (s.withGroups f).walkFrom va acc fuel lv e = s.walkFrom va acc fuel lv e := by
  have hentry : ∀ lv e, (s.withGroups f).entryOf lv e va acc = s.entryOf lv e va acc := fun _ _ => rfl
  induction fuel generalizing lv e with
  | zero => rw [State.walkFrom, State.walkFrom, hentry]
  | succ n ih =>
    rw [State.walkFrom, State.walkFrom, hentry]
    cases s.entryOf lv e va acc with
    | table base => exact ih _ _
    | page x => rfl
    | bad d => rfl

theorem State.translate_withGroups (core space va : Nat) (acc : Acc) :
    (s.withGroups f).translate core space va acc = s.translate core space va acc := by
  simp only [State.translate, State.walkFrom_withGroups]
  rfl

theorem State.shadowPA_withGroups (t : Team) (gs : List Group) (off : Nat) (acc : Acc) :
    (s.withGroups f).shadowPA { t with groups := gs } off acc = s.shadowPA t off acc := by
  simp only [State.shadowPA, State.translate_withGroups]
  rfl

theorem State.winByte_withGroups (t : Team) (gs : List Group) (off : Nat) :
    (s.withGroups f).winByte { t with groups := gs } off = s.winByte t off := by
  simp only [State.winByte, State.shadowPA_withGroups]
  rfl

theorem State.winRead_withGroups (id : TeamId) (off n : Nat) : (s.withGroups f).winRead id off n = s.winRead id off n := by
  unfold State.winRead
  rw [State.team?_withGroups]
  cases s.team? id with
  | none => rfl
  | some t => exact List.map_congr_left fun o _ => State.winByte_withGroups s f t _ o

theorem State.winBadIn_withGroups (id : TeamId) (off n : Nat) : (s.withGroups f).winBadIn id off n = s.winBadIn id off n := by
  unfold State.winBadIn
  rw [State.team?_withGroups]
  cases s.team? id with
  | none => rfl
  | some t =>
    simp only [Option.map_some, State.shadowPA_withGroups]
    rfl

end

/-- Two states read the same of every window, and the same port slot carries an issuer's data. -/
structure SameReads (s u : State) : Prop where
  iss : u.iss = s.iss
  slots : u.slotCausal = s.slotCausal
  read : ∀ id off n, u.winRead id off n = s.winRead id off n
  bad : ∀ id off n, u.winBadIn id off n = s.winBadIn id off n
  port : ∀ by_ core, u.slotBad by_ core = s.slotBad by_ core

namespace SameReads

theorem refl (s : State) : SameReads s s := ⟨rfl, rfl, fun _ _ _ => rfl, fun _ _ _ => rfl, fun _ _ => rfl⟩

theorem trans {s u v : State} (h1 : SameReads s u) (h2 : SameReads u v) : SameReads s v where
  iss := h2.iss.trans h1.iss
  slots := h2.slots.trans h1.slots
  read id off n := (h2.read id off n).trans (h1.read id off n)
  bad id off n := (h2.bad id off n).trans (h1.bad id off n)
  port by_ core := (h2.port by_ core).trans (h1.port by_ core)

/-- A group changes, but stays on its pipe. -/
theorem modGrp (s : State) (k : GrpId) {f : Group → Group} (hf : ∀ g, (f g).pipe = g.pipe) : SameReads s (s.modGrp k f) where
  iss := rfl
  slots := rfl
  read id off n := by rw [State.modGrp_eq, State.winRead_withGroups]
  bad id off n := by rw [State.modGrp_eq, State.winBadIn_withGroups]
  port by_ core := by
    have hpipe : ∀ j, ((s.modGrp k f).grp? j).map (fun g => g.pipe / 2) = (s.grp? j).map (fun g => g.pipe / 2) := fun j => by
      by_cases hj : j = k
      · subst hj
        rw [State.grp?_modGrp_self, Option.map_map]
        exact congrArg (Option.map · _) (funext fun g => congrArg (· / 2) (hf g))
      · rw [State.grp?_modGrp_ne s f hj]
    unfold State.slotBad
    rw [hpipe]
    rfl

theorem popAll (s : State) (beats pops : List Nat) : SameReads s (s.popAll beats pops) :=
  modGrp s s.iss.grp fun g => by
    obtain ⟨q, hq⟩ := Group.popQ_foldl_eq beats pops g
    rw [hq]

theorem sawSlot (s : State) (g : GrpId) (id : TeamId) (off n : Nat) : SameReads s (s.sawSlot g id off n) := by
  unfold State.sawSlot
  extract_lets ids
  split
  · exact refl s
  · exact modGrp s g fun _ => rfl

end SameReads

/-- Without a push that stands in a slot, a read of a window changes nothing. -/
theorem State.sawSlot_of_none {s : State} (h : s.slotCausal = []) (g : GrpId) (id : TeamId) (off n : Nat) :
    s.sawSlot g id off n = s := by
  simp [State.sawSlot, h]

/-- Where no byte of a range is uncorrectable, none of it is. -/
theorem State.winBadIn_byte {s : State} {id : TeamId} {off n o : Nat} (h : s.winBadIn id off n = false) (ho : o ∈ rangeFrom off n) :
    s.winBadIn id o 1 = false := by
  unfold State.winBadIn at h ⊢
  cases hid : s.team? id with
  | none => rfl
  | some t =>
    have hone : rangeFrom o 1 = [o] := rfl
    simp only [hid, hone, List.any_cons, List.any_nil, Bool.or_false] at h ⊢
    split at h
    · next hp =>
      rw [if_pos hp]
      cases hbad : t.winBad.isEmpty with
      | true => rfl
      | false =>
        rw [hbad] at h
        exact any_eq_false_iff.1 h o ho
    · next hp =>
      rw [if_neg hp]
      exact any_eq_false_iff.1 h o ho

@[simp] theorem State.length_winRead (s : State) (id : TeamId) (off n : Nat) : (s.winRead id off n).length = n := by
  unfold State.winRead
  split
  · simp [rangeFrom]
  · exact List.length_replicate

theorem State.winElem_good {s : State} {id : TeamId} {off n : Nat} (h : s.winBadIn id off n = false) (by_ : Issuer) (va : Nat) :
    s.winElem by_ id off n va = (s, s.winRead id off n) := by
  simp [State.winElem, h]

end Sys2Proof.Machine

/-! # LDS and ATOMS, and what a load's results change (R146, R151 to R155) -/

namespace Sys2Proof.Machine

open Sys2Proof

/-! ## The skeleton of M words -/

/-- An M word that is ready performs its own part. -/
theorem State.MReady.asM_eq {s : State} {t : Team} {g : Group} {regs src sregs pops : List Nat} {push : Option Nat}
    (h : s.MReady t g regs src sregs pops push) (f : Team → Group → List Nat → Res) :
    s.asM regs src sregs pops push f = s.finish (f t g (beatsOf g.width s.iss.mask)) := by
  obtain ⟨⟨ht, hg⟩, hregs, hqueue, hv, hs, hheld, hready, hpush, hfull⟩ := h
  have hrange : regs.any (fun n => decide (g.alloc ≤ n)) = false :=
    any_eq_false_iff.2 fun n hn => decide_eq_false (Nat.not_le.2 (hregs n hn))
  rw [State.asM, State.asWord_eq ht hg]
  simp [hrange, hqueue, hv, hs, hheld, hready, hpush, hfull]

/-- A scratchpad word whose elements are all in reach has its effect. -/
theorem State.scrWord_ok {s : State} {t : Team} {n align : Nat} {es : List Elem} {l : List (Elem × ScrAt)}
    (hl : s.scrElems t.id n align es = .ok l)
    (hfree : ∀ x ∈ l, s.inRange x.2.team x.2.off n = false ∧ s.winHeld x.2.team x.2.off n = false)
    (f : List (Elem × ScrAt) → Res) : s.scrWord t n align es f = f l := by
  have hany : l.any (fun x => s.inRange x.2.team x.2.off n || s.winHeld x.2.team x.2.off n) = false :=
    any_eq_false_iff.2 fun x hx => by rw [(hfree x hx).1, (hfree x hx).2]; rfl
  simp [State.scrWord, hl, hany]

/-- The places found are those of the elements asked for. -/
theorem State.scrElems_fst {s : State} {id : TeamId} {n align : Nat} {es : List Elem} {l : List (Elem × ScrAt)}
    (h : s.scrElems id n align es = .ok l) : l.map (·.1) = es := by
  induction es generalizing l with
  | nil => cases h; rfl
  | cons e es ih =>
    unfold State.scrElems at h
    split at h
    · cases h
    · split at h
      · cases h
      · split at h
        · cases h
        · next hrest =>
          cases h
          simp [ih hrest]

/-! ## Elements read -/

/-- Of a group without buffered stores, an element with no uncorrectable byte is the window's bytes. -/
theorem State.scrLoad_good {s : State} {g : Group} {n : Nat} {up : Bool} {x : Elem × ScrAt}
    (hbad : s.winBadIn x.2.team x.2.off n = false) (hport : up = false ∨ s.slotBad s.issuer g.core = none) :
    s.scrLoad g false n up x = (s.sawSlot s.iss.grp x.2.team x.2.off n, s.winRead x.2.team x.2.off n) := by
  have hsaw := SameReads.sawSlot s s.iss.grp x.2.team x.2.off n
  have hgood : ((((rangeFrom x.2.off n).map (fun _ => (none : Option Byte))).zip (rangeFrom x.2.off n)).any
      (fun y => y.1.isNone && (s.sawSlot s.iss.grp x.2.team x.2.off n).winBadIn x.2.team y.2 1)) = false :=
    any_eq_false_iff.2 fun y hy => by
      rw [hsaw.bad, State.winBadIn_byte hbad (List.of_mem_zip hy).2, Bool.and_false]
  have hbytes : ((((rangeFrom x.2.off n).map (fun _ => (none : Option Byte))).zip (s.winRead x.2.team x.2.off n)).map
      (fun y => y.1.getD y.2)) = s.winRead x.2.team x.2.off n := by
    refine List.ext_getElem (by simp [rangeFrom]) fun k h1 h2 => by simp
  have hslot : up = true → ∀ by_ : Issuer, by_.team = s.iss.grp.team → by_.grp = s.iss.grp.grp →
      (s.sawSlot s.iss.grp x.2.team x.2.off n).slotBad by_ g.core = none := fun hup by_ hteam hgrp => by
    rw [hsaw.port, ← hport.resolve_left (by simp [hup])]
    simp [State.slotBad, State.issuer, hteam, hgrp]
  simp only [State.scrLoad, Bool.false_eq_true, if_false, hgood, hsaw.read, hbytes]
  split
  · next hup => simp [State.crossUp, hslot hup { s.issuer with mask := BitVec.twoPow 64 x.1.t } rfl rfl]
  · rfl

/-- The elements of a load in which nothing is uncorrectable. -/
theorem State.scrLoads_good {g : Group} (ty : MemTy) {up : Bool} (l : List (Elem × ScrAt)) {s : State}
    (hbad : ∀ x ∈ l, s.winBadIn x.2.team x.2.off ty.size = false) (hport : up = false ∨ s.slotBad s.issuer g.core = none) :
    (s.scrLoads g false ty up l).2 = l.map (fun x => (x.1.t, loadWords ty (s.winRead x.2.team x.2.off ty.size))) ∧
      (s.slotCausal = [] → (s.scrLoads g false ty up l).1 = s) := by
  induction l generalizing s with
  | nil => exact ⟨rfl, fun _ => rfl⟩
  | cons x l ih =>
    have hsaw := SameReads.sawSlot s s.iss.grp x.2.team x.2.off ty.size
    have hport' : up = false ∨ (s.sawSlot s.iss.grp x.2.team x.2.off ty.size).slotBad
        (s.sawSlot s.iss.grp x.2.team x.2.off ty.size).issuer g.core = none := by
      rw [hsaw.port, State.issuer, hsaw.iss]
      exact hport
    obtain ⟨hval, hstate⟩ := ih (s := s.sawSlot s.iss.grp x.2.team x.2.off ty.size)
      (fun y hy => (hsaw.bad _ _ _).trans (hbad y (List.mem_cons_of_mem x hy))) hport'
    simp only [State.scrLoads, State.scrLoad_good (hbad x List.mem_cons_self) hport, hval, hsaw.read, List.map_cons, true_and]
    intro hnone
    rw [State.sawSlot_of_none hnone] at hstate ⊢
    exact hstate hnone

/-! ## Atomics -/

/-- The operands of an element of the word's own list. -/
theorem State.opsOf_atomElems {s : State} {g : Group} (op : AtomOp) (d : Os) (m : MAddr) (hwid : s.iss.wid = 0) {e : Elem}
    (he : e ∈ g.elems s.iss.mask s.iss.lit m 4) : opsOf (s.atomElems g op d m) e.t = atomArgs g op d e.t := by
  have hfound : ∃ x, (s.atomElems g op d m).find? (fun k => k.t == e.t) = some x := by
    rw [← Option.isSome_iff_exists, List.find?_isSome, State.atomElems, if_pos hwid]
    exact ⟨_, List.mem_map.2 ⟨e, he, rfl⟩, beq_self_eq_true _⟩
  obtain ⟨x, hx⟩ := hfound
  have ht : x.t = e.t := by simpa using List.find?_some hx
  have hmem := List.mem_of_find?_eq_some hx
  rw [State.atomElems, if_pos hwid] at hmem
  obtain ⟨e', -, rfl⟩ := List.mem_map.1 hmem
  rw [opsOf, hx, Option.map_some, Option.getD_some, ← ht]

theorem State.atomElems_elem {s : State} (g : Group) (op : AtomOp) (d : Os) (m : MAddr) (hwid : s.iss.wid = 0) :
    (s.atomElems g op d m).map KeptElem.elem = g.elems s.iss.mask s.iss.lit m 4 := by
  rw [State.atomElems, if_pos hwid, List.map_map]
  exact (List.map_congr_left fun _ _ => rfl).trans (List.map_id _)

/-! ## Results -/

/-- Entries that are owed no more. -/
def Thread.unowe (regs : List Nat) (th : Thread) : Thread :=
  regs.foldl (fun th r => { th with pend := th.pend.filter (fun x => x.1 != r) }) th

theorem Thread.unowe_eq (regs : List Nat) (th : Thread) : ∃ p, th.unowe regs = { th with pend := p } := by
  induction regs generalizing th with
  | nil => exact ⟨_, rfl⟩
  | cons r regs ih => exact ih _

theorem Thread.loadRegs_eq (th : Thread) (regs : List Nat) (ws : List Word) :
    ∃ v p, th.loadRegs regs ws = { th with v := v, pend := p } ∧ v.length = th.v.length := by
  unfold Thread.loadRegs
  induction regs.zip ws generalizing th with
  | nil => exact ⟨_, _, rfl, rfl⟩
  | cons x l ih =>
    obtain ⟨v, p, heq, hlen⟩ := ih (th.setV x.1 x.2)
    exact ⟨v, p, heq, by rw [hlen, Thread.setV, modAt_length]⟩

/-- A register that no word is written to. -/
theorem Thread.vreg_setV_foldl_ne (l : List (Nat × Word)) (th : Thread) {n : Nat} (h : ∀ x ∈ l, n ≠ x.1) :
    (l.foldl (fun t x => t.setV x.1 x.2) th).vreg n = th.vreg n := by
  induction l generalizing th with
  | nil => rfl
  | cons x l ih =>
    rw [List.foldl_cons, ih _ fun y hy => h y (List.mem_cons_of_mem x hy), Thread.vreg_setV_ne _ _ (h x List.mem_cons_self)]

theorem Thread.vreg_loadRegs_ne (th : Thread) {regs : List Nat} (ws : List Word) {n : Nat} (h : n ∉ regs) :
    (th.loadRegs regs ws).vreg n = th.vreg n :=
  Thread.vreg_setV_foldl_ne _ _ fun _ hx heq => h (heq ▸ (List.of_mem_zip hx).1)

/-- Each register of a list without repeats takes its word. -/
theorem Thread.vreg_loadRegs {regs : List Nat} (hnd : regs.Nodup) {ws : List Word} {k n : Nat} {w : Word} (th : Thread)
    (hk : regs[k]? = some n) (hn : n < th.v.length) (hw : ws[k]? = some w) : (th.loadRegs regs ws).vreg n = w := by
  induction regs generalizing th ws k with
  | nil => simp at hk
  | cons r regs ih =>
    obtain ⟨hr, hnd⟩ := List.nodup_cons.1 hnd
    cases ws with
    | nil => simp at hw
    | cons y ws =>
      change ((th.setV r y).loadRegs regs ws).vreg n = w
      cases k with
      | zero =>
        obtain rfl : r = n := by simpa using hk
        obtain rfl : y = w := by simpa using hw
        rw [Thread.vreg_loadRegs_ne _ ws hr, Thread.vreg_setV_self _ _ hn]
      | succ k => exact ih hnd (th.setV r y) (by simpa using hk) (by simpa [Thread.setV] using hn) (by simpa using hw)

/-- A thread whose element of a load has given some words (R73, R151). -/
def Thread.loaded (th : Thread) (regs : List Nat) (ws : List Word) : Thread := (th.unowe regs).loadRegs regs ws

theorem Thread.loaded_eq (th : Thread) (regs : List Nat) (ws : List Word) :
    { th.loaded regs ws with v := th.v, pend := th.pend } = th := by
  obtain ⟨p, hp⟩ := th.unowe_eq regs
  obtain ⟨v, p', hv, -⟩ := (th.unowe regs).loadRegs_eq regs ws
  rw [Thread.loaded, hv, hp]

theorem Thread.vreg_loaded_ne (th : Thread) {regs : List Nat} (ws : List Word) {n : Nat} (h : n ∉ regs) :
    (th.loaded regs ws).vreg n = th.vreg n := by
  obtain ⟨p, hp⟩ := th.unowe_eq regs
  rw [Thread.loaded, Thread.vreg_loadRegs_ne _ ws h, hp]
  rfl

theorem Thread.vreg_loaded (th : Thread) {regs : List Nat} (hnd : regs.Nodup) {ws : List Word} {k n : Nat} {w : Word}
    (hk : regs[k]? = some n) (hn : n < th.v.length) (hw : ws[k]? = some w) : (th.loaded regs ws).vreg n = w := by
  obtain ⟨p, hp⟩ := th.unowe_eq regs
  exact Thread.vreg_loadRegs hnd _ hk (by rw [hp]; exact hn) hw

/-- The results of a load whose elements were all performed, for no queue, are one update of the issuing group. -/
theorem State.results_performed (s : State) (t : Team) (beats regs : List Nat) (vals : List (Nat × List Word)) (load : Nat) :
    s.results t beats regs none vals [] load =
      s.modGrp s.iss.grp (fun g => g.onThreads s.iss.mask (fun j th => th.loaded regs (wordsOf vals j))) := rfl

/-! ## The obligation -/

/-- Settles O24. -/
theorem scratchLoads : Obligations.ScratchLoads := by
  refine ⟨fun s t g d m => ⟨fun ty l hready hl hfree => ⟨?_, fun hdet hbad hport => ?_⟩,
      fun op l hwid hready hl hfree hdet => ?_⟩,
    fun s t g beats regs vals load ⟨ht, hg⟩ hnd => ?_⟩
  · change execLds ty d m s = _
    rw [execLds, hready.asM_eq, State.scrWord_ok hl hfree]
    rfl
  · have hpop := SameReads.popAll s (beatsOf g.width s.iss.mask) (popsOf [m.x])
    have hport' : d.queue.isSome = false ∨ (s.popAll (beatsOf g.width s.iss.mask) (popsOf [m.x])).slotBad
        (s.popAll (beatsOf g.width s.iss.mask) (popsOf [m.x])).issuer g.core = none := by
      rcases hport with hnone | hslot
      · exact .inl (by rw [hnone]; rfl)
      · rw [hpop.port]
        exact .inr hslot
    obtain ⟨hval, hstate⟩ := State.scrLoads_good (g := g) ty l (fun x hx => (hpop.bad _ _ _).trans (hbad x hx)) hport'
    rw [hdet]
    refine ⟨?_, fun hnone => hstate hnone⟩
    simpa only [hpop.read] using hval
  · intro r
    have hkeep : (s.atomElems g op d m).map KeptElem.elem = g.elems s.iss.mask s.iss.lit m 4 := State.atomElems_elem g op d m hwid
    refine ⟨?_, fun x hx hgood => ?_⟩
    · change execAtoms op d m s = _
      rw [execAtoms, State.atomWord, if_pos hwid, hready.asM_eq]
      dsimp only
      rw [hkeep, State.scrWord_ok hl hfree, State.toQueue, hdet, State.atomPop,
        if_pos hwid]
      rfl
    · subst hx
      have helem : x.1 ∈ g.elems s.iss.mask s.iss.lit m 4 := by
        rw [← State.scrElems_fst hl]
        exact List.mem_singleton.2 rfl
      have hpop := SameReads.popAll s (beatsOf g.width s.iss.mask) (popsOf [m.x])
      have hgood' := (hpop.bad x.2.team x.2.off 4).trans hgood
      have hops := State.opsOf_atomElems op d m hwid helem
      have hr : r = ((s.popAll (beatsOf g.width s.iss.mask) (popsOf [m.x])).winStore x.2.team x.2.off (leBytes 4
          (atomOp op (BitVec.ofNat 32 (s.winNat x.2.team x.2.off 4)) (atomArgs g op d x.1.t).1 (atomArgs g op d x.1.t).2).toNat),
          [(x.1.t, [BitVec.ofNat 32 (s.winNat x.2.team x.2.off 4)])]) := by
        simp only [r, State.atomScr, State.winElem_good hgood', hgood', hpop.read, hops, State.winNat]
        rfl
      rw [hr]
      exact ⟨rfl, rfl⟩
  · rw [State.results_performed]
    refine ⟨SameBut.modGrp s _ _, _, (State.grp?_modGrp_self s s.iss.grp _).trans (congrArg (Option.map _) hg), rfl,
      Group.onThreads_length _ _ _, fun k th hth => ?_⟩
    refine ⟨_, (Group.onThreads_get _ _ _ k).trans (congrArg (Option.map _) hth), ?_⟩
    cases hk : s.iss.mask.getLsbD k with
    | false => rfl
    | true => exact ⟨th.loaded_eq regs _, fun n hn => th.vreg_loaded_ne _ hn, fun j n w hj hn hw => th.vreg_loaded hnd hj hn hw⟩

end Sys2Proof.Machine

/-! # BARWAIT and MWAIT (R51, R71, R158, R159) -/

namespace Sys2Proof.Machine

open Sys2Proof

/-! ## What an acquire leaves of the group in issue -/

theorem State.acqScope_grp (s : State) (core sc : Nat) (paired : Bool) (k : GrpId) :
    (s.acqScope core sc paired).grp? k = s.grp? k := by
  unfold State.acqScope
  split <;> rfl

theorem State.acqScope_same (s : State) (core sc : Nat) (paired : Bool) :
    (s.acqScope core sc paired).mem = s.mem ∧ (s.acqScope core sc paired).iss = s.iss := by
  unfold State.acqScope
  split <;> exact ⟨rfl, rfl⟩

theorem State.orders_same (s : State) (t : Team) (g : Group) (sc : Nat) :
    (s.orders t g sc).mem = s.mem ∧ (s.orders t g sc).iss = s.iss := by
  unfold State.orders
  split <;> exact ⟨rfl, rfl⟩

theorem State.orders_grp {s : State} {x : Group} (hx : s.grp? s.iss.grp = some x) (t : Team) (g : Group) (sc : Nat) :
    ∃ a, (s.orders t g sc).grp? s.iss.grp = some { x with after := a } := by
  unfold State.orders
  split
  · exact ⟨x.after, hx⟩
  · exact ⟨_, by rw [State.grp?_modGrp_self, hx, Option.map_some]⟩

theorem State.acquire_same (s : State) (t : Team) (g : Group) (sc : Nat) :
    (s.acquire t g sc).mem = s.mem ∧ (s.acquire t g sc).iss = s.iss := by
  obtain ⟨hmem, hiss⟩ := (s.acqScope g.core sc t.paired).orders_same t g sc
  obtain ⟨hmem0, hiss0⟩ := s.acqScope_same g.core sc t.paired
  exact ⟨hmem.trans hmem0, hiss.trans hiss0⟩

/-- An acquire changes of its group what its later words wait for and what its later writes follow. -/
theorem State.acquire_grp {s : State} {x : Group} (hx : s.grp? s.iss.grp = some x) (t : Team) (g : Group) (sc : Nat) :
    ∃ a h, (s.acquire t g sc).grp? s.iss.grp = some { x with after := a, hold := h } := by
  obtain ⟨-, hiss⟩ := s.acqScope_same g.core sc t.paired
  have hx0 : (s.acqScope g.core sc t.paired).grp? (s.acqScope g.core sc t.paired).iss.grp = some x := by
    rw [State.acqScope_grp, hiss, hx]
  obtain ⟨a, ha⟩ := State.orders_grp hx0 t g sc
  rw [hiss] at ha
  exact ⟨a, _, by rw [State.acquire, State.grp?_modGrp_self, ha, Option.map_some]; rfl⟩

/-! ## The wait as it issues -/

/-- The bytes that a wait word examines. -/
def waitBytes : Instr → Option (EF × Nat)
  | .barwait e => some (e, 16)
  | .mwait e => some (e, 4)
  | _ => none

theorem exec_waitOn {i : Instr} {e : EF} {n : Nat} (h : waitBytes i = some (e, n)) (s : State) : exec i s = s.waitOn e n := by
  cases i <;> cases h <;> rfl

theorem runHeld_waitOn {i : Instr} {e : EF} {n : Nat} (h : waitBytes i = some (e, n)) (s : State) : runHeld i s = s.waitOn e n := by
  cases i <;> cases h <;> rfl

theorem State.EReady.grp_eq {s : State} {t : Team} {g : Group} {rs : List Nat} (h : s.EReady t g rs) : s.grp? s.iss.grp = some g := by
  obtain ⟨⟨-, hg⟩, -⟩ := h
  exact hg

theorem State.EReady.mode_eq {s : State} {t : Team} {g : Group} {rs : List Nat} (h : s.EReady t g rs) : s.iss.mode = .issue := by
  obtain ⟨-, hmode, -⟩ := h
  exact hmode

theorem State.EReady.wid_eq {s : State} {t : Team} {g : Group} {rs : List Nat} (h : s.EReady t g rs) : s.iss.wid = 0 := by
  obtain ⟨-, -, hwid, -⟩ := h
  exact hwid

theorem State.EReady.asE_eq {s : State} {t : Team} {g : Group} {rs : List Nat} (h : s.EReady t g rs) (serial : Bool) (q : BitVec 6)
    (x : BitVec 5) (w : Option Watch) (f : Team → Group → Res) :
    s.asE serial rs q x w f = s.finishWait rs [q.toNat] q x w (f t g) := by
  obtain ⟨⟨ht, hg⟩, -, hwid, hr, hheld, hdet⟩ := h
  exact State.asE_eq ht hg hwid hr (fun _ => hheld) (by simp [State.toQueue, hdet]) q x w f

/-- An E word that is privileged traps outside a system segment (R61). -/
theorem State.EReady.finishWait_notPrivileged {s : State} {t : Team} {g : Group} {rs : List Nat} (h : s.EReady t g rs)
    (rs' qs : List Nat) (q : BitVec 6) (x : BitVec 5) (w : Option Watch) :
    s.finishWait rs' qs q x w s.notPrivileged = .next (s.trapNow (s.wordTrap 2 6 0 0xFF 0)) := by
  simp [State.notPrivileged, State.raise, State.finishWait, h.mode_eq]

/-- A wait that issues makes the checks of its address, then examines the word. -/
theorem State.EReady.waitOn_eq {s : State} {t : Team} {g : Group} {e : EF} (h : s.EReady t g [e.p.toNat]) (n : Nat) :
    s.waitOn e n = s.finishWait [e.p.toNat] [e.q.toNat] e.q e.x (s.watchOf e.p)
      (s.barAt t (g.sreg e.p.toNat) n (fun a =>
        s.waitWord t g e.q (s.waitVal a n) (barV (g.sreg e.p.toNat)) (scrScope (g.sreg e.p.toNat).toNat))) := by
  rw [State.waitOn, h.asE_eq]
  simp [h.mode_eq]

theorem barV_eq (r : Reg) : barV r = r.toNat / 2 ^ 32 := by
  have := r.isLt
  unfold barV fld
  omega

/-- A wait word as it issues: misaligned, ending at once, or blocked. -/
theorem wait_issues {s : State} {t : Team} {g : Group} {e : EF} {a : ScrAt} {n : Nat} {i : Instr}
    (hi : i = .barwait e ∧ n = 16 ∨ i = .mwait e ∧ n = 4) (h : s.EReady t g [e.p.toNat]) :
    let r := g.sreg e.p.toNat
    let v := r.toNat / 2 ^ 32
    fld r.toNat 23 9 = 0 → s.scrAt t.id (r.toNat % 2 ^ 32) n = .ok a →
    (r.toNat % n ≠ 0 → exec i s = .next (s.trapNow (s.wordTrap 7 0 (r.toNat % 2 ^ 32) 0xFF 0))) ∧
    (r.toNat % n = 0 → s.inRange a.team a.off n = false → s.winHeld a.team a.off n = false →
      let now := s.waitVal a n
      (now ≠ v → exec i s = .next ((s.putStatus e.q stOk now).acquire t g (scrScope r.toNat))) ∧
      (now = v → exec i s = .next (if e.x = 0 then s.putStatus e.q stTimeout now
        else s.block [e.p.toNat] [e.q.toNat] e.x (s.watchOf e.p) now))) := by
  intro r v hfld hat
  have hmode := h.mode_eq
  have hexec : exec i s = s.waitOn e n := exec_waitOn (by rcases hi with ⟨rfl, rfl⟩ | ⟨rfl, rfl⟩ <;> rfl) s
  have haddr : fld r.toNat 0 32 = r.toNat % 2 ^ 32 := by simp [fld]
  have hmod : r.toNat % 2 ^ 32 % n = r.toNat % n := by rcases hi with ⟨-, rfl⟩ | ⟨-, rfl⟩ <;> omega
  rw [hexec, h.waitOn_eq, State.barAt, if_neg (by simpa using hfld), haddr, hat]
  dsimp only
  refine ⟨fun hmis => ?_, fun hal hrange hwin => ?_⟩
  · rw [if_pos (hmod ▸ hmis), State.finishWait, if_neg (by simp [hmode])]
  · rw [if_neg (by rw [hmod, hal]; exact fun h => h rfl), hrange, hwin, barV_eq, State.waitWord]
    refine ⟨fun hne => ?_, fun heq => ?_⟩
    · rw [if_pos hne]
      rfl
    · have hsame : ¬ s.waitVal a n ≠ r.toNat / 2 ^ 32 := not_not_intro heq
      rw [if_neg hsame]
      exact State.finishWait_wait hmode _ _ _ _ _ _ _

/-! ## The wait examined again -/

/-- The state in which a wait is run again. -/
def State.rerun (s : State) (w : WaitRec) (gid : GrpId) (m : Mode) : State := { s with iss := w.issue gid m }

/-- A word that is run again and ends, in neither a trap nor a stall. -/
theorem State.again_done {s s2 : State} {w : WaitRec} {gid : GrpId} {m : Mode} {i : Instr} (hdec : decodeWord w.word = .ok i)
    (hrun : runHeld i (s.rerun w gid m) = .next s2) (hiss : s2.iss = w.issue gid m) :
    s.again (w.issue gid m) = .done { s2 with iss := Issue.none } := by
  have hword : (w.issue gid m).word = w.word := rfl
  have hraised : s2.iss.raised = none := congrArg Issue.raised hiss
  have hstalled : s2.iss.stalled = none := congrArg Issue.stalled hiss
  have hrun' : runHeld i { s with iss := w.issue gid m } = .next s2 := hrun
  rw [State.again, hword, hdec]
  simp only [hrun', hraised, hstalled]

theorem State.retry_done {s s2 : State} {w : WaitRec} {gid : GrpId} {m : Mode} {i : Instr} (hdec : decodeWord w.word = .ok i)
    (hrun : runHeld i (s.rerun w gid m) = .next s2) (hiss : s2.iss = w.issue gid m) :
    s.retry gid w m = some (({ s2 with iss := Issue.none } : State).modGrp gid (fun g => g.endWait w)) := by
  rw [State.retry, State.again_done hdec hrun hiss]

theorem State.waitAgain_seen {s : State} {x : WordWatch} {v : Word} (hw : s.iss.watch = some (.word x)) (hseen : x.seen = some v)
    (t : Team) (g : Group) (q : BitVec 6) (sc : Nat) :
    s.waitAgain t g q sc = .done ((s.putStatus q stOk v.toNat).acquire t g sc) := by
  simp only [State.waitAgain, hw, hseen]

theorem State.waitAgain_unseen {s : State} {x : WordWatch} (hw : s.iss.watch = some (.word x)) (hseen : x.seen = none)
    (t : Team) (g : Group) (q : BitVec 6) (sc : Nat) : s.waitAgain t g q sc = .wait s x.last.toNat := by
  simp only [State.waitAgain, hw, hseen]

/-- A wait that is run again ends with the first differing value that a write has left, or goes on. -/
theorem State.runHeld_wait {s : State} {gid : GrpId} {t : Team} {g : Group} {w : WaitRec} {e : EF} {n : Nat} {i : Instr} {m : Mode}
    (ht : s.team? gid.team = some t) (hg : s.grp? gid = some g) (hdet : s.isDet gid.team = false) (hid : w.id ≠ 0)
    (hi : waitBytes i = some (e, n)) (hm : m = .examine ∨ m = .expire) :
    runHeld i (s.rerun w gid m) =
      (s.rerun w gid m).finishWait [e.p.toNat] [e.q.toNat] e.q e.x ((s.rerun w gid m).watchOf e.p)
        ((s.rerun w gid m).waitAgain t (g.withKept w.kept) e.q (scrScope ((g.withKept w.kept).sreg e.p.toNat).toNat)) := by
  have hiss : m ≠ .issue := by rcases hm with rfl | rfl <;> decide
  have htid : t.id = gid.team := State.team?_id ht
  have ht1 : (s.rerun w gid m).team? (s.rerun w gid m).iss.grp.team = some t := ht
  have hg1 : (s.rerun w gid m).grp? (s.rerun w gid m).iss.grp = some g := hg
  have hdet1 : (s.rerun w gid m).isDet t.id = false := by rw [htid]; exact hdet
  have hmode : (s.rerun w gid m).iss.mode = m := rfl
  have hwid : (s.rerun w gid m).iss.wid = w.id := rfl
  have hkept : (s.rerun w gid m).iss.kept = w.kept := rfl
  rw [runHeld_waitOn hi, State.waitOn, State.asE, State.asEWith, ht1, hg1]
  simp [hmode, hwid, hkept, hid, hiss, hm, State.toQueue, hdet1]

/-- A status written by a word that is run again, of a group that stands. -/
theorem State.putStatus_again {s : State} {g : Group} (hg : s.grp? s.iss.grp = some g) (hid : s.iss.wid ≠ 0)
    (q : BitVec 6) (code hi : Nat) : (s.putStatus q code hi).grp? s.iss.grp = some (g.landS s.iss.wid q.toNat (statusVal code hi)) := by
  rw [State.putStatus, State.grp?_modGrp_self, hg, Option.map_some, Group.putS, if_neg hid]

theorem Group.landS_threads (g : Group) (id n : Nat) (v : Reg) : (g.landS id n v).threads = g.threads := by
  unfold Group.landS
  split <;> rfl

/-- What is left of a wait that has ended with a status, in a state whose group is `g`. -/
def State.Ended (s s' : State) (gid : GrpId) (g : Group) (w : WaitRec) (q : BitVec 6) (v : Reg) : Prop :=
  ∃ g', s.SameMem s' ∧ s'.grp? gid = some g' ∧ (∀ y ∈ g'.waits, y.id ≠ w.id) ∧ g'.s = (g.landS w.id q.toNat v).s ∧
    ∀ (j : Nat) (th : Thread), g.threads[j]? = some th → w.mask.getLsbD j = true → th.st = .blocked →
      ∃ th', g'.threads[j]? = some th' ∧ th'.st = .runnable ∧ th'.v = th.v

/-- Once the word has written its status, its wait goes and its threads run. -/
theorem State.Ended.of_endWait {s : State} (s2 : State) {gid : GrpId} {g g2 : Group} {w : WaitRec} {q : BitVec 6} {v : Reg}
    (hmem : s2.mem = s.mem) (hg2 : s2.grp? gid = some g2) (hs : g2.s = (g.landS w.id q.toNat v).s) (hth : g2.threads = g.threads) :
    s.Ended (({ s2 with iss := Issue.none } : State).modGrp gid (fun g => g.endWait w)) gid g w q v := by
  refine ⟨g2.endWait w, fun a => congrArg (·.read a) hmem, ?_, fun y hy => ?_, hs, fun j th hj hmask hst => ?_⟩
  · rw [State.grp?_modGrp_self]
    exact congrArg (Option.map _) hg2
  · simpa using (List.mem_filter.1 hy).2
  · refine ⟨{ th with st := .runnable }, ?_, rfl, rfl⟩
    have hget : (g2.endWait w).threads[j]? =
        (g2.threads[j]?).map (fun t => if t.st = .blocked then { t with st := .runnable } else t) := Group.onThreads_active g2 _ hmask
    rw [hget, hth, hj, Option.map_some, if_pos hst]

section
variable {s : State} {gid : GrpId} {t : Team} {g : Group} {w : WaitRec} {e : EF} {n : Nat} {i : Instr} {x : WordWatch}
  (ht : s.team? gid.team = some t) (hg : s.grp? gid = some g) (hdet : s.isDet gid.team = false) (hid : w.id ≠ 0)
  (hi : waitBytes i = some (e, n)) (hdec : decodeWord w.word = .ok i) (hw : w.watch = some (.word x))
include ht hg hdet hid hi hdec hw

/-- A wait to which a write has shown a value ends with it. -/
theorem State.retry_seen {v : Word} (hseen : x.seen = some v) :
    ∃ s', s.retry gid w .examine = some s' ∧ s.Ended s' gid g w e.q (statusVal stOk v.toNat) := by
  have hrun := State.runHeld_wait (m := .examine) ht hg hdet hid hi (.inl rfl)
  rw [State.waitAgain_seen (s := s.rerun w gid .examine) hw hseen, State.finishWait_done] at hrun
  obtain ⟨hmem, hiss⟩ := ((s.rerun w gid .examine).putStatus e.q stOk v.toNat).acquire_same t (g.withKept w.kept)
    (scrScope ((g.withKept w.kept).sreg e.p.toNat).toNat)
  have hput := State.putStatus_again (s := s.rerun w gid .examine) hg hid e.q stOk v.toNat
  obtain ⟨a, h, hg2⟩ := State.acquire_grp hput t (g.withKept w.kept) (scrScope ((g.withKept w.kept).sreg e.p.toNat).toNat)
  exact ⟨_, State.retry_done hdec hrun hiss, State.Ended.of_endWait _ hmem hg2 rfl (Group.landS_threads _ _ _ _)⟩

/-- A wait to which no write has shown a value goes on, with what it has examined last. -/
theorem State.retry_unseen (hseen : x.seen = none) :
    s.retry gid w .examine = if x.last.toNat = w.last then none
      else some (s.modGrp gid (fun g =>
        { g with waits := g.waits.map (fun y => if y.id = w.id then { y with last := x.last.toNat } else y) })) := by
  have hrun := State.runHeld_wait (m := .examine) ht hg hdet hid hi (.inl rfl)
  rw [State.waitAgain_unseen (s := s.rerun w gid .examine) hw hseen] at hrun
  have hagain : s.again (w.issue gid .examine) = .not x.last.toNat := by
    have hword : (w.issue gid .examine).word = w.word := rfl
    have hrun' : runHeld i { s with iss := w.issue gid .examine } = _ := hrun
    rw [State.again, hword, hdec]
    simp only [hrun']
    rfl
  rw [State.retry, hagain]

/-- A wait whose limit has passed ends with the value it has examined last. -/
theorem State.retry_expired (hseen : x.seen = none) :
    ∃ s', s.retry gid w .expire = some s' ∧ s.Ended s' gid g w e.q (statusVal stTimeout x.last.toNat) := by
  have hrun := State.runHeld_wait (m := .expire) ht hg hdet hid hi (.inr rfl)
  rw [State.waitAgain_unseen (s := s.rerun w gid .expire) hw hseen] at hrun
  have hput := State.putStatus_again (s := s.rerun w gid .expire) hg hid e.q stTimeout x.last.toNat
  exact ⟨_, State.retry_done hdec hrun rfl, State.Ended.of_endWait _ rfl hput rfl (Group.landS_threads _ _ _ _)⟩

end

/-! ## What shows a wait a value -/

theorem State.lookSlot_not_slot {s : State} {w : WaitRec} (h : ∀ tm o, w.watch ≠ some (.slot tm o none)) (id : TeamId) (off n : Nat)
    (gid : GrpId) : s.lookSlot id off n gid w = s := by
  unfold State.lookSlot
  split
  · next tm o heq => exact absurd heq (h tm o)
  · rfl

/-- Where no wait is on a slot, an examination is one of words. -/
theorem State.examine_words {s : State} (h : ∀ tm o, ¬ s.WatchesSlot tm o) (hw : s.watched = true) (id : TeamId) (off n : Nat) :
    s.examine id off n = s.examineWords id off n := by
  have hfold : ∀ (l : List (GrpId × WaitRec)) (u : State), (∀ y ∈ l, ∀ tm o, y.2.watch ≠ some (.slot tm o none)) →
      l.foldl (fun s x => s.lookSlot id off n x.1 x.2) u = u := fun l => by
    induction l with
    | nil => exact fun _ _ => rfl
    | cons y l ih =>
      intro u hl
      rw [List.foldl_cons, State.lookSlot_not_slot (hl y List.mem_cons_self)]
      exact ih u fun z hz => hl z (List.mem_cons_of_mem y hz)
  rw [State.examine, if_pos hw]
  exact hfold _ _ fun y hy tm o heq => h tm o (State.watchesSlot_of_examineWords ⟨y.2, State.waits_of_allWaits hy, heq⟩)

theorem State.grp?_modGroups (s : State) (f : Group → Group) (k : GrpId) : (s.modGroups f).grp? k = (s.grp? k).map f := by
  rw [State.modGroups_eq, State.grp?, State.grp?, State.team?_withGroups]
  cases s.team? k.team with
  | none => rfl
  | some t => exact List.getElem?_map

/-- A group's wait that watches something makes the state watched. -/
theorem State.watched_of_wait {s : State} {gid : GrpId} {g : Group} {w : WaitRec} (hg : s.grp? gid = some g) (hw : w ∈ g.waits)
    (hs : w.watch.isSome = true) : s.watched = true := by
  obtain ⟨t, ht, hgt⟩ := Option.bind_eq_some_iff.1 hg
  exact List.any_eq_true.2 ⟨t, List.mem_of_find?_eq_some ht,
    List.any_eq_true.2 ⟨g, List.mem_of_getElem? hgt, List.any_eq_true.2 ⟨w, hw, hs⟩⟩⟩

/-! ## The obligation -/

/-- Settles O23. -/
theorem waits : Obligations.Waits := by
  refine ⟨fun s t g e a n i hi h => wait_issues hi h, fun s gid k t g w e i x ht hg hloc hdet hwait hser hid hi hdec hw => ?_,
    fun s gid j g w x off n hg hj hw hlo hhi hseen hslot => ?_⟩
  · intro ends
    obtain ⟨n, hn⟩ : ∃ n, waitBytes i = some (e, n) := by rcases hi with rfl | rfl <;> exact ⟨_, rfl⟩
    have hfound : (s.grp? gid).bind (fun x => x.waitOf k) = some w := by rw [hg]; exact hwait
    have hawake : s.awake gid = true := by simp [State.awake, ht, hloc]
    have hmet : exec (.waitConditionMet gid k) s = .next ((s.retry gid w .examine).getD s) := by
      change execWaitConditionMet gid k s = _
      simp [execWaitConditionMet, hfound, hser, hawake]
    refine ⟨fun v hv => ?_, fun hnone => ⟨?_, fun d hd hle => ?_⟩⟩
    · obtain ⟨s', hs', g', hended⟩ := State.retry_seen ht hg hdet hid hn hdec hw hv
      exact ⟨s', g', by rw [hmet, hs']; rfl, hended⟩
    · rw [hmet, State.retry_unseen ht hg hdet hid hn hdec hw hnone]
      by_cases hlast : w.last = x.last.toNat
      · rw [if_pos hlast, if_pos hlast.symm]
        rfl
      · rw [if_neg hlast, if_neg (Ne.symm hlast)]
        rfl
    · obtain ⟨s', hs', g', hended⟩ := State.retry_expired ht hg hdet hid hn hdec hw hnone
      refine ⟨s', g', ?_, hended⟩
      change execWaitTimeout gid k s = _
      simp [execWaitTimeout, hfound, hser, hd, hle, hs']
  · intro now
    have hno : ∀ tm o, ¬ s.WatchesSlot tm o := fun tm o ⟨_, hwait, hs⟩ => by
      obtain ⟨z, hz, rfl⟩ := hwait.mem_allWaits
      exact hslot z hz tm o none hs
    have hwatched := State.watched_of_wait hg (List.mem_of_getElem? hj) (by rw [hw]; rfl)
    refine ⟨{ g with waits := g.waits.map (s.lookWord x.team off n) }, s.lookWord x.team off n w, ?_, ?_, ?_, ?_⟩
    · rw [State.examine_words hno hwatched, State.examineWords, State.grp?_modGroups, hg, Option.map_some]
    · rw [List.getElem?_map, hj, Option.map_some]
    · simp only [State.lookWord, hw, hlo, hhi, and_self, if_true, hseen, true_and]
      rfl
    · simp only [State.lookWord, hw]
      split <;> rfl

end Sys2Proof.Machine

/-! # REPLAY (R61, R301, R308)

A replay performs loads, stores and atomics for its group. None of them writes an s register: of what they change of the groups, the
relation `RegsKeep` remembers no more. -/

namespace Sys2Proof.Machine

open Sys2Proof

/-- From one state to another the s registers of every group are the same, and the word in issue. -/
structure RegsKeep (s s' : State) : Prop where
  iss : s'.iss = s.iss
  regs : ∀ k, (s'.grp? k).map Group.s = (s.grp? k).map Group.s

namespace RegsKeep

theorem refl (s : State) : RegsKeep s s := ⟨rfl, fun _ => rfl⟩

theorem trans {s s' s'' : State} (h1 : RegsKeep s s') (h2 : RegsKeep s' s'') : RegsKeep s s'' :=
  ⟨h2.iss.trans h1.iss, fun k => (h2.regs k).trans (h1.regs k)⟩

theorem of_teams {s s' : State} (hi : s'.iss = s.iss) (h : s'.teams = s.teams) : RegsKeep s s' :=
  ⟨hi, fun k => by rw [State.grp?, State.grp?, State.team?, State.team?, h]⟩

theorem of_notices {s s' : State} (h : Notices s s') : RegsKeep s s' where
  iss := h.iss
  regs k := by
    have hgrp : ∀ u : State, (u.grp? k).map Group.s =
        ((u.team? k.team).map Team.noticeless).bind (fun t => (t.groups[k.grp]?).map Group.s) := fun u => by
      rw [State.grp?]
      cases u.team? k.team with
      | none => rfl
      | some t => simp [Team.noticeless, Function.comp_def, Group.waitless]
    rw [hgrp, hgrp, h.team]

theorem of_poisons {s s' : State} (h : Poisons s s') : RegsKeep s s' := ⟨h.keep State.iss (fun _ _ _ => rfl), h.regs⟩

theorem modGrp (s : State) (k : GrpId) {f : Group → Group} (hf : ∀ g, (f g).s = g.s) : RegsKeep s (s.modGrp k f) :=
  of_poisons (Poisons.modGrp s k hf)

theorem modCore (s : State) (n : Nat) (f : Core → Core) : RegsKeep s (s.modCore n f) := of_teams rfl rfl

/-! ## Loads -/

theorem saw (s : State) (g : GrpId) (pas : List Nat) : RegsKeep s (s.saw g pas) := by
  unfold State.saw
  extract_lets ids
  split
  · exact refl s
  · exact modGrp s g fun _ => rfl

theorem crossUp (s : State) (by_ : Issuer) (core va : Nat) (bs : List Byte) : RegsKeep s (s.crossUp by_ core va bs).1 := by
  unfold State.crossUp
  split
  · exact refl s
  · exact (modCore s core _).trans (of_poisons (Poisons.met _ by_ va))

theorem loadElem (s : State) (by_ : Issuer) (core va : Nat) (ps : List Part) (hint up : Bool) :
    RegsKeep s (s.loadElem by_ core va ps hint up).1 := by
  unfold State.loadElem
  extract_lets r zero
  have hr : RegsKeep s r.1 := (saw s _ _).trans (of_notices (Notices.loadParts _ core hint ps))
  split
  · split
    · exact hr.trans (crossUp _ by_ core va _)
    · exact hr
  · split
    · exact hr.trans (of_poisons (Poisons.meetPoisonPage _ by_ core va))
    · exact hr.trans (of_poisons (Poisons.meetAt _ by_ va _))

theorem loadDet (s : State) (by_ : Issuer) (g : Group) (e : Elem) (ps : List Part) (hint up : Bool) :
    RegsKeep s (s.loadDet by_ g e ps hint up).1 := by
  unfold State.loadDet
  extract_lets own cross r
  have hcross : ∀ (u : State) (bs : List Byte), RegsKeep u (cross u bs).1 := fun u bs => by
    unfold cross
    split
    · exact crossUp u by_ _ _ bs
    · exact refl u
  split
  · exact hcross s _
  · split
    · exact loadElem s by_ _ _ ps hint up
    · exact (of_notices (Notices.loadParts s g.core hint ps)).trans (hcross _ _)

/-! ## Atomics -/

theorem atomClean (s : State) (core : Nat) (x : Xlat) : RegsKeep s (s.atomClean core x) := by
  unfold State.atomClean
  extract_lets clean s1
  have hclean : ∀ (u : State) (pa : Nat), RegsKeep u (clean u pa) := fun u pa => by
    unfold clean
    split
    · exact of_notices (Notices.dropLine u core _)
    · exact of_notices (Notices.writeBack u core _)
  split
  · exact hclean s _
  · exact (hclean s _).trans (hclean _ _)

/-- One atomic at its home. -/
theorem atomAt (s : State) (by_ : Issuer) (core : Nat) (op : AtomOp) (va : Nat) (ps : List Part) (v n : Word) :
    RegsKeep s (s.atomAt by_ core op va ps v n).1 := by
  unfold State.atomAt
  split
  · exact refl s
  · next p _ =>
    split
    · exact (of_poisons (Poisons.meetPoisonPage s by_ core va)).trans (of_poisons (Poisons.count _ _ _ _))
    · extract_lets s1 s2 old bs s3 s4
      have h1 : RegsKeep s s1 := (atomClean s core p.x).trans (saw _ _ _)
      split
      · refine h1.trans (RegsKeep.trans (s' := s2) (of_poisons (Poisons.meetAt s1 by_ va _)) ?_)
        dsimp only
        split
        · exact of_poisons (Poisons.count _ _ _ _)
        · exact refl s2
      · have h3 : RegsKeep s1 s3 := by
          unfold s3
          split
          · exact of_notices (Notices.regionStore s1 core _ false)
          · exact refl s1
        have h4 : RegsKeep s3 s4 := by
          unfold s4
          split <;> exact of_notices (Notices.writeCells s3 _ _ _ _)
        exact ((h1.trans h3).trans h4).trans (saw _ _ _)

/-! ## Entries replayed -/

theorem parkResult (s : State) (core : Nat) (p : Park) (e : ParkElem) (ws : List Word) : RegsKeep s (s.parkResult core p e ws) := by
  unfold State.parkResult
  extract_lets s1
  have h1 : RegsKeep s s1 := modGrp s p.grp fun _ => rfl
  exact h1.trans (modCore s1 core _)

theorem replayElem (s : State) (core : Nat) (p : Park) (e : ParkElem) (ps : List Part) : RegsKeep s (s.replayElem core p e ps) := by
  unfold State.replayElem
  extract_lets by_
  split
  · next ty _ =>
    split
    · exact refl s
    · next g _ =>
      extract_lets r
      refine RegsKeep.trans (s' := r.1) ?_ (parkResult _ core p e _)
      unfold r
      split
      · exact loadDet s by_ g _ ps p.hint _
      · exact loadElem s by_ core e.addr ps p.hint _
  · split
    · exact modGrp s p.grp fun _ => rfl
    · exact of_notices (Notices.storeElem s core p.hint _ ps e.data)
  · exact (atomAt s by_ core _ e.addr ps _ _).trans (parkResult _ core p e _)
  · exact refl s

theorem replayElems (core space : Nat) (p : Park) (es : List ParkElem) (s : State) :
    RegsKeep s (s.replayElems core space p es).1 := by
  induction es generalizing s with
  | nil => exact refl s
  | cons e es ih =>
    unfold State.replayElems
    split
    · exact ih s
    · split
      · exact (replayElem s core p e _).trans (ih _)
      · exact ih s

theorem parkDone (s : State) (core : Nat) (p : Park) : RegsKeep s (s.parkDone core p) := by
  unfold State.parkDone
  extract_lets s1
  have h1 : RegsKeep s s1 := modCore s core _
  split
  · exact h1
  · next g _ =>
    extract_lets s2 s3
    have h2 : RegsKeep s1 s2 := by
      unfold s2
      split
      · exact of_notices (Notices.relSelf s1 core)
      · exact refl s1
    have h3 : RegsKeep s2 s3 := by
      unfold s3
      split
      · exact modCore s2 core _
      · exact refl s2
    split
    · exact ((h1.trans h2).trans h3).trans (modGrp s3 p.grp fun _ => rfl)
    · exact (h1.trans h2).trans h3

theorem replayOne (s : State) (core space : Nat) (p : Park) : RegsKeep s (s.replayOne core space p) := by
  unfold State.replayOne
  split
  · split
    · have hdrop : RegsKeep s (s.dropPark core p.id) := modCore s core _
      exact hdrop.trans (of_teams rfl rfl)
    · exact modCore s core _
  · extract_lets r
    have hr : RegsKeep s r.1 := replayElems core space p p.elems s
    split
    · exact hr.trans (parkDone _ core p)
    · exact hr.trans (modCore _ core _)

theorem replayAll (core space : Nat) (ps : List Park) (s : State) : RegsKeep s (s.replayAll core space ps) := by
  induction ps generalizing s with
  | nil => exact refl s
  | cons p ps ih =>
    unfold State.replayAll
    split
    · exact refl s
    · exact (replayOne s core space p).trans (ih _)

theorem replayOn (s : State) (core space : Nat) (gid : GrpId) : RegsKeep s (s.replayOn core space gid) :=
  (replayAll core space _ s).trans (replayAll core space _ _)

theorem selectGo (s : State) (core : Nat) (sel : List Park) : RegsKeep s (s.selectGo core sel) := modCore s core _

end RegsKeep

/-- A status is written over the registers that a replay has left. -/
theorem State.Wrote.of_regsKeep {s s1 : State} {g : Group} (hg : s.grp? s.iss.grp = some g) (hwid : s.iss.wid = 0) (h : RegsKeep s s1)
    (q : BitVec 6) (code hi : Nat) : s.Wrote (s1.putStatus q code hi) g q (statusVal code hi) := by
  have hregs := h.regs s.iss.grp
  rw [hg, Option.map_some, Option.map_eq_some_iff] at hregs
  obtain ⟨g1, hg1, hs⟩ := hregs
  refine ⟨_, ?_, Group.setS_s hs _ _⟩
  rw [State.putStatus, h.iss, State.grp?_modGrp_self, hg1, Option.map_some, Group.putS, if_pos hwid]

/-! ## `REPLAY.drop` -/

/-- From one state to another entries have gone from the replay queues, and memory is the same. -/
structure Drops (s s' : State) : Prop where
  mem : s'.mem = s.mem
  left : ∀ n, ∀ p ∈ (s'.core n).replay, p ∈ (s.core n).replay

theorem Drops.trans {s s' s'' : State} (h1 : Drops s s') (h2 : Drops s' s'') : Drops s s'' :=
  ⟨h2.mem.trans h1.mem, fun n p hp => h1.left n p (h2.left n p hp)⟩

/-- A core changed, whose queue at most loses entries. -/
theorem Drops.modCore (s : State) (n : Nat) {f : Core → Core} (hf : ∀ p ∈ (f (s.core n)).replay, p ∈ (s.core n).replay) :
    Drops s (s.modCore n f) where
  mem := rfl
  left k p hp := by
    by_cases hk : k = n
    · subst hk
      rw [State.core_modCore_self] at hp
      exact hf p hp
    · rwa [State.core_modCore_ne s f hk] at hp

theorem Drops.dropPark (s : State) (core id : Nat) : Drops s (s.dropPark core id) :=
  Drops.modCore s core fun _ hp => List.mem_of_mem_filter hp

theorem State.dropPark_gone (s : State) (core id : Nat) : ∀ p ∈ ((s.dropPark core id).core core).replay, p.id ≠ id := by
  intro p hp
  rw [State.dropPark, State.core_modCore_self] at hp
  simpa using (List.mem_filter.1 hp).2

/-- What follows the removal of a dropped entry changes no queue. -/
theorem Drops.dropOne (s : State) (core : Nat) (p : Park) : Drops (s.dropPark core p.id) (s.dropOne core p) := by
  unfold State.dropOne
  split
  · next dest _ => cases dest <;> exact ⟨rfl, fun _ _ hq => hq⟩
  · exact ⟨rfl, fun _ _ hq => hq⟩
  · extract_lets s1 n free s2
    have h2 : Drops (s.dropPark core p.id) s2 := ⟨rfl, fun _ _ hq => hq⟩
    exact h2.trans (Drops.modCore s2 core fun _ hq => hq)

/-- Entries dropped one after the other are gone. -/
theorem State.dropAll (core : Nat) (sel : List Park) (s : State) :
    Drops s (sel.foldl (fun s p => s.dropOne core p) s) ∧
      ∀ p ∈ ((sel.foldl (fun s p => s.dropOne core p) s).core core).replay, ∀ y ∈ sel, p.id ≠ y.id := by
  induction sel generalizing s with
  | nil => exact ⟨⟨rfl, fun _ _ hp => hp⟩, fun _ _ y hy => absurd hy List.not_mem_nil⟩
  | cons x sel ih =>
    obtain ⟨hdrops, hgone⟩ := ih (s.dropOne core x)
    have hone := Drops.dropOne s core x
    refine ⟨((Drops.dropPark s core x.id).trans hone).trans hdrops, fun p hp y hy => ?_⟩
    rcases List.mem_cons.1 hy with rfl | hy
    · exact s.dropPark_gone core y.id p (hone.left core p (hdrops.left core p hp))
    · exact hgone p hp y hy

/-! ## The obligation -/

section
variable {s : State} {t : Team} {g : Group} {e : EF} (h : s.EReady t g [e.p.toNat])
include h

/-- A word of `REPLAY` as its group issues it. -/
theorem State.EReady.replayWord_eq (x : BitVec 5) (f : Team → Group → List Park → Res) :
    s.replayWord e.p e.q x f = s.finishWait [e.p.toNat] [e.q.toNat] e.q x none
      (if !s.iss.sys then s.notPrivileged
        else if g.trapMask.isNone then s.fin e.q stRejected 0
        else f t g ((s.core g.core).parksOf s.iss.grp)) := by
  rw [State.replayWord, h.asE_eq]

theorem replay_user (hsys : s.iss.sys = false) (x : BitVec 5) (f : Team → Group → List Park → Res) :
    s.replayWord e.p e.q x f = .next (s.trapNow (s.wordTrap 2 6 0 0xFF 0)) := by
  rw [h.replayWord_eq, hsys, if_pos (by simp)]
  exact h.finishWait_notPrivileged _ _ _ _ _

theorem replay_outside (hsys : s.iss.sys = true) (htrap : g.trapMask = none) (x : BitVec 5) (f : Team → Group → List Park → Res) :
    s.replayWord e.p e.q x f = .next (s.putStatus e.q stRejected 0) := by
  rw [h.replayWord_eq, hsys, htrap]
  rfl

theorem replay_inside (hsys : s.iss.sys = true) (htrap : g.trapMask ≠ none) (x : BitVec 5) (f : Team → Group → List Park → Res) :
    s.replayWord e.p e.q x f = s.finishWait [e.p.toNat] [e.q.toNat] e.q x none (f t g ((s.core g.core).parksOf s.iss.grp)) := by
  rw [h.replayWord_eq, hsys, if_neg (by simp), if_neg (by simpa using htrap)]

end

/-- Settles O50. -/
theorem replayWords : Obligations.ReplayWords := by
  intro s t g e h ps v
  have hmode := h.mode_eq
  have hgo : exec (.replayGo e) s = execReplayGo e s := rfl
  have hdrop : exec (.replayDrop e.p e.q) s = execReplayDrop e.p e.q s := rfl
  have hlist : exec (.replayList e.p e.q) s = execReplayList e.p e.q s := rfl
  refine ⟨fun i hi => ⟨fun hsys => ?_, fun hsys htrap => ?_⟩, fun hsys htrap =>
    ⟨fun hnone => ⟨?_, ?_⟩, fun sel hsel => ⟨?_, ?_⟩, fun hal => ?_, fun l hal hx hheld => ?_⟩⟩
  · rcases hi with rfl | rfl | rfl
    · exact hgo.trans (replay_user h hsys _ _)
    · exact hdrop.trans (replay_user h hsys _ _)
    · exact hlist.trans (replay_user h hsys _ _)
  · rcases hi with rfl | rfl | rfl
    · exact hgo.trans (replay_outside h hsys htrap _ _)
    · exact hdrop.trans (replay_outside h hsys htrap _ _)
    · exact hlist.trans (replay_outside h hsys htrap _ _)
  · rw [hgo, execReplayGo, replay_inside h hsys htrap, if_neg (by simp [hmode]), hnone]
    rfl
  · rw [hdrop, execReplayDrop, replay_inside h hsys htrap, hnone]
    rfl
  · intro s1 left
    have hexec : exec (.replayGo e) s = s.finishWait [e.p.toNat] [e.q.toNat] e.q e.x none
        (if left.any (fun p => p.go && p.sel) then .wait s1 left.length else .done (s1.replayed g.core e.q)) := by
      rw [hgo, execReplayGo, replay_inside h hsys htrap, if_neg (by simp [hmode]), hsel]
    refine ⟨fun hfree => ⟨?_, ?_⟩, fun hbusy => ?_⟩
    · rw [hexec, hfree]
      rfl
    · have hkeep : RegsKeep s s1 := (RegsKeep.selectGo s g.core sel).trans (RegsKeep.replayOn _ g.core t.space s.iss.grp)
      have hleft : (s1.core g.core).parksOf s1.iss.grp = left := by rw [hkeep.iss]
      rw [State.replayed, hleft]
      exact State.Wrote.of_regsKeep h.grp_eq h.wid_eq (hkeep.trans (RegsKeep.modCore _ _ _)) _ _ _
    · rw [hexec, hbusy]
      exact State.finishWait_wait hmode _ _ _ _ _ _ _
  · obtain ⟨hdrops, hgone⟩ := State.dropAll g.core sel s
    have hexec : exec (.replayDrop e.p e.q) s = .next (State.putStatus (sel.foldl (fun s p => s.dropOne g.core p) s) e.q stOk
        (State.parkCount (sel.foldl (fun s p => s.dropOne g.core p) s) g.core s.iss.grp)) := by
      rw [hdrop, execReplayDrop, replay_inside h hsys htrap, hsel]
      rfl
    exact ⟨_, hexec, fun a => congrArg (·.read a) hdrops.mem, hgone⟩
  · rw [hlist, execReplayList, replay_inside h hsys htrap, if_pos hal]
    rfl
  · rw [hlist, execReplayList, replay_inside h hsys htrap, if_neg (by simpa using hal)]
    dsimp only
    rw [hx]
    dsimp only
    rw [hheld]
    rfl

end Sys2Proof.Machine

/-! # CTXSAVE and CTXLOAD (R163, R297, R309 to R311) -/

namespace Sys2Proof.Machine

open Sys2Proof

/-! ## `CTXSAVE` and `CTXLOAD` as they issue -/

section
variable {s : State} {t : Team} {g : Group} {e : EF} (h : s.EReady t g [e.p.toNat])
include h

/-- Neither word is performed outside a system segment (R61). -/
theorem State.EReady.ctx_user (hsys : s.iss.sys = false) :
    exec (.ctxsave e) s = .next (s.trapNow (s.wordTrap 2 6 0 0xFF 0)) ∧
      exec (.ctxload e) s = .next (s.trapNow (s.wordTrap 2 6 0 0xFF 0)) := by
  have hsave : exec (.ctxsave e) s = execCtxsave e s := rfl
  have hload : exec (.ctxload e) s = execCtxload e s := rfl
  refine ⟨?_, ?_⟩
  · rw [hsave, execCtxsave, h.asE_eq]
    dsimp only
    rw [if_pos (by simp [hsys])]
    exact h.finishWait_notPrivileged _ _ _ _ _
  · rw [hload, execCtxload, h.asE_eq]
    dsimp only
    rw [if_pos (by simp [hsys])]
    exact h.finishWait_notPrivileged _ _ _ _ _

theorem exec_ctxsave_rejected (hsys : s.iss.sys = true) (hno : g.trapMask = none ∨ 2 ≤ (g.sreg e.p.toNat).toNat) :
    exec (.ctxsave e) s = .next (s.putStatus e.q stRejected 0) := by
  have hexec : exec (.ctxsave e) s = execCtxsave e s := rfl
  have hcond : (g.trapMask.isNone || decide ((g.sreg e.p.toNat).toNat / 2 ≠ 0)) = true := by
    rcases hno with hno | hno
    · simp [hno]
    · have : (g.sreg e.p.toNat).toNat / 2 ≠ 0 := by omega
      simp [this]
  rw [hexec, execCtxsave, h.asE_eq]
  dsimp only
  rw [if_neg (by simp [hsys]), if_pos hcond]
  rfl

/-- A save in trap mode, of a team that is on its cores. -/
theorem exec_ctxsave_inside (hsys : s.iss.sys = true) (htrap : g.trapMask ≠ none) (hv : (g.sreg e.p.toNat).toNat < 2)
    (hloc : t.loc = .resident) : exec (.ctxsave e) s =
      if e.x = 0 && !(s.saveReady t s.iss.grp.grp) then .next (s.putStatus e.q stTimeout 0)
      else .next (((s.modTeam t.id (fun t => { t with
          loc := .saving ((g.sreg e.p.toNat).toNat % 2 == 1), saver := some (s.iss.grp.grp, e.q.toNat) })).modGrp
        t.eventGroup (fun g => g.pend (outerTrap 14 0))).block [e.p.toNat] [e.q.toNat] (if e.x = 0 then 31 else e.x) none 0) := by
  have hexec : exec (.ctxsave e) s = execCtxsave e s := rfl
  have hmode := h.mode_eq
  have hdiv : (g.sreg e.p.toNat).toNat / 2 = 0 := by omega
  rw [hexec, execCtxsave, h.asE_eq]
  dsimp only
  rw [if_neg (by simp [hsys]), if_neg (by simp [hdiv, htrap]), hmode]
  dsimp only
  rw [if_neg (not_not_intro hloc)]
  split <;> rfl

/-- A load of what is no sealed image of a held team. -/
theorem exec_ctxload_rejected (hsys : s.iss.sys = true) (hnone : s.heldTeam g.core t.space (va56 (g.sreg e.p.toNat).toNat) = none) :
    exec (.ctxload e) s = .next (s.putStatus e.q stRejected 0) := by
  have hexec : exec (.ctxload e) s = execCtxload e s := rfl
  rw [hexec, execCtxload, h.asE_eq]
  dsimp only
  rw [if_neg (by simp [hsys]), hnone]
  rfl

/-- A load of a held team's image: it waits where it may, or until the image is not held; else it is performed. -/
theorem exec_ctxload_held (hsys : s.iss.sys = true) {h' : Team} {l : Launch}
    (hheld : s.heldTeam g.core t.space (va56 (g.sreg e.p.toNat).toNat) = some (h', l)) :
    (e.x ≠ 0 → exec (.ctxload e) s = .next (s.block [e.p.toNat] [e.q.toNat] e.x none 0)) ∧
    (e.x = 0 → s.vaHeld g.core t.space (va56 (g.sreg e.p.toNat).toNat) l.ctxLen .write = true →
      exec (.ctxload e) s = .next (s.putStatus e.q stTimeout 0)) ∧
    ∀ s1, e.x = 0 → s.vaHeld g.core t.space (va56 (g.sreg e.p.toNat).toNat) l.ctxLen .write = false →
      s.writeVA g.core t.space (va56 (va56 (g.sreg e.p.toNat).toNat + 12)) (leBytes 1 1) = .ok s1 →
      exec (.ctxload e) s =
        .next (((s1.sealImage g.core t.space (va56 (g.sreg e.p.toNat).toNat) l.ctxLen).enterHeld h' l).putStatus e.q stOk 0) := by
  have hexec : exec (.ctxload e) s = execCtxload e s := rfl
  have hmode := h.mode_eq
  rw [hexec, execCtxload, h.asE_eq]
  dsimp only
  rw [if_neg (by simp [hsys]), hheld]
  dsimp only
  refine ⟨fun hx => ?_, fun hx hbusy => ?_, fun s1 hx hfree hwrite => ?_⟩
  · rw [if_pos ⟨hx, by rw [hmode]; decide⟩, State.finishWait_wait hmode, if_neg hx]
  · rw [if_neg (by simp [hx]), hbusy, if_pos rfl, State.finishWait_wait hmode, if_pos hx]
  · rw [if_neg (by simp [hx]), hfree, if_neg (by simp), hwrite]
    rfl

end

/-! ## A held team enters its pool -/

/-- A status written to a group leaves the rest of its team. -/
theorem State.putStatus_team {s : State} {id : TeamId} {t : Team} (ht : s.team? id = some t) (q : BitVec 6) (code hi : Nat) :
    ∃ gs, (s.putStatus q code hi).team? id = some { t with groups := gs } := by
  rw [State.putStatus, State.modGrp_eq, State.team?_withGroups, ht]
  exact ⟨_, rfl⟩

/-- A team of an image that has been copied here carries the image's name. -/
theorem State.importTeam_some {s : State} {id : TeamId} {l : Launch} {t : Team} (h : s.importTeam id l = some t) :
    t.id = id ∧ t.imported = true := by
  unfold State.importTeam at h
  split at h
  · cases h
  · cases h
    exact ⟨rfl, rfl⟩

/-- The team that an image names stands under its name, or is one that has been copied here. -/
theorem State.heldTeam_some {s : State} {core space va : Nat} {h : Team} {l : Launch} (hheld : s.heldTeam core space va = some (h, l)) :
    s.team? h.id = some h ∨ s.team? h.id = none ∧ h.imported = true := by
  have hname : ∃ id l', (s.team? id).or (s.importTeam id l') = some h := by
    unfold State.heldTeam at hheld
    split at hheld
    · cases hheld
    · split at hheld
      · cases hheld
      · extract_lets id at hheld
        split at hheld
        · next l' _ =>
          split at hheld
          · next t ht =>
            split at hheld
            · split at hheld
              · split at hheld
                · cases hheld
                  exact ⟨id, l, ht⟩
                · cases hheld
              · cases hheld
            · cases hheld
          · cases hheld
        · cases hheld
  obtain ⟨id, l', hor⟩ := hname
  rcases Option.or_eq_some_iff.1 hor with ht | ⟨hnone, himp⟩
  · rw [State.team?_id ht]
    exact .inl ht
  · obtain ⟨hid, himported⟩ := State.importTeam_some himp
    exact .inr ⟨hid ▸ hnone, himported⟩

theorem Notices.tryVA (s : State) (core space va : Nat) (bs : List Byte) : Notices s (s.tryVA core space va bs) := by
  unfold State.tryVA
  split
  · next hok => exact Notices.writeVA hok
  · exact refl s

theorem Notices.sealImage (s : State) (core space base n : Nat) : Notices s (s.sealImage core space base n) := by
  unfold State.sealImage
  split
  · exact tryVA s core space _ _
  · exact refl s

/-- No team stands under a name where none stood. -/
theorem Notices.team_none {s s' : State} (h : Notices s s') {id : TeamId} (ht : s.team? id = none) : s'.team? id = none := by
  have hid := h.team id
  rwa [ht, Option.map_none, Option.map_eq_none_iff] at hid

/-- The team of an image, after writes at homes: it stands where it was held, or has still to enter. -/
theorem State.heldTeam_kept {s s' : State} {core space va : Nat} {h : Team} {l : Launch} (hheld : s.heldTeam core space va = some (h, l))
    (hteam : s.team? h.id = none ∨ h.imported = false) (hkeep : Notices s s') :
    ∃ h0 : Team, (h.imported = false ∧ s'.team? h.id = some h0 ∨ h.imported = true ∧ s'.team? h.id = none) ∧
      (h.imported = false → h0.chans = h.chans) := by
  rcases State.heldTeam_some hheld with hhere | ⟨hnone, himp⟩
  · have himp : h.imported = false := hteam.resolve_left (by simp [hhere])
    obtain ⟨y, hy, heq⟩ := hkeep.team_some hhere
    have hchans : y.noticeless.chans = h.noticeless.chans := congrArg Team.chans heq
    exact ⟨y, .inl ⟨himp, hy⟩, fun _ => hchans⟩
  · exact ⟨h, .inr ⟨himp, hkeep.team_none hnone⟩, fun _ => rfl⟩

/-- A region of a context part put in its place leaves the name and the place of the team. -/
theorem Team.putPart_keeps (t : Team) (x : SavedPart) : (t.putPart x).id = t.id ∧ (t.putPart x).loc = t.loc := by
  cases x <;> exact ⟨rfl, rfl⟩

theorem Team.reloadPart_keeps (xs : List (Nat × List Byte)) (imported : Bool) (t : Team) (r : Region_) :
    (t.reloadPart xs imported r).id = t.id ∧ (t.reloadPart xs imported r).loc = t.loc := by
  unfold Team.reloadPart
  split
  · exact ⟨rfl, rfl⟩
  · extract_lets x
    split
    · exact ⟨rfl, rfl⟩
    · exact t.putPart_keeps x

theorem Team.reloadParts_keep (xs : List (Nat × List Byte)) (imported : Bool) (rs : List Region_) (t : Team) :
    (rs.foldl (Team.reloadPart xs imported) t).id = t.id ∧ (rs.foldl (Team.reloadPart xs imported) t).loc = t.loc := by
  induction rs generalizing t with
  | nil => exact ⟨rfl, rfl⟩
  | cons r rs ih =>
    obtain ⟨hid, hloc⟩ := ih (t.reloadPart xs imported r)
    obtain ⟨hid', hloc'⟩ := t.reloadPart_keeps xs imported r
    exact ⟨hid.trans hid', hloc.trans hloc'⟩

theorem Team.reloadStatus_keeps (xs : List (Nat × List Byte)) (off : Nat) (t : Team) :
    (reloadBy xs off Team.reloadStatus t).id = t.id ∧ (reloadBy xs off Team.reloadStatus t).loc = t.loc := by
  unfold reloadBy
  split <;> exact ⟨rfl, rfl⟩

theorem Poisons.readBack (by_ : Issuer) (core space base u : Nat) (ps : List (Nat × Nat)) (s : State) :
    Poisons s (State.readBack by_ core space base u ps s).1 := by
  induction ps generalizing s with
  | nil => exact refl s
  | cons p ps ih =>
    unfold State.readBack
    extract_lets va
    split
    · exact ih s
    · exact (readParts s by_ core va _ _).trans (ih _)

/-- A reload of a team's image leaves the places of the teams. -/
theorem TeamsKeep.reload (s : State) (t : Team) (l : Launch) : TeamsKeep Team.loc s (s.reload t l) := by
  have hread : ∀ (u : Nat) (ps : List (Nat × Nat)) (v : State), TeamsKeep Team.loc v
      (State.readBack (readerOf t.id) t.core t.space (va56 (l.region t.id.idx + l.ctxOff)) u ps v).1 := fun u ps v =>
    (Poisons.readBack _ _ _ _ u ps v).frame.coarsen (fun x => x.2.1)
  unfold State.reload
  extract_lets base read a s1 rs c t1 b
  have h1 : TeamsKeep Team.loc s s1 := (hread 8 _ s).trans
    (TeamsKeep.modTeam _ t.id (fun x => (x.reloadStatus_keeps _ _).1) (fun x => (x.reloadStatus_keeps _ _).2))
  have hb : TeamsKeep Team.loc s1 b.1 := (hread 4 _ s1).trans (hread 4 _ c.1)
  refine (h1.trans hb).trans (TeamsKeep.modTeam _ t.id (fun x => ?_) (fun x => ?_))
  · exact (Team.reloadParts_keep c.2 x.imported rs x).1
  · exact (Team.reloadParts_keep c.2 x.imported rs x).2

/-- A team that enters its pool stands there as saved; one that was held here has its channels as they were. -/
theorem State.enterHeld_team {s : State} {h h0 : Team} {l : Launch}
    (hs : h.imported = false ∧ s.team? h.id = some h0 ∨ h.imported = true ∧ s.team? h.id = none) :
    ∃ h', (s.enterHeld h l).team? h.id = some h' ∧ h'.loc = .saved ∧ (h.imported = false → h'.chans = h0.chans) := by
  unfold State.enterHeld
  rcases hs with ⟨himp, ht⟩ | ⟨himp, hnone⟩
  · rw [if_neg (by simp [himp]), State.team?_modTeam_self s h.id (f := fun t => { t with loc := .saved }) (fun _ => rfl), ht]
    exact ⟨_, rfl, rfl, fun _ => rfl⟩
  · rw [if_pos himp]
    have hadd : ({ s with teams := s.teams ++ [{ h with loc := .saved }] } : State).team? h.id = some { h with loc := .saved } := by
      have hfind : s.teams.find? (fun t => decide (t.id = h.id)) = none := hnone
      simp [State.team?, List.find?_append, hfind]
    have hkeep := TeamsKeep.reload { s with teams := s.teams ++ [{ h with loc := .saved }] } { h with loc := .saved } l
    obtain ⟨h', hh', hloc⟩ := hkeep.some_of hadd
    exact ⟨h', hh', hloc, fun hno => by simp [himp] at hno⟩

/-! ## A team saved (R163, R310) -/

/-- A team that has ended as after a double trap is gone, or marked as lost. -/
theorem State.teamLost_team {s : State} {id : TeamId} {c1 c2 : Nat} {t' : Team} (h : (s.teamLost id c1 c2).team? id = some t') :
    t'.lost = true := by
  unfold State.teamLost at h
  split at h
  · next hnone => rw [hnone] at h; cases h
  · next t ht =>
    split at h
    · next hlost =>
      rw [ht] at h
      cases h
      exact hlost
    · extract_lets s1 at h
      split at h
      · rw [State.leaveLost, State.team?_modTeam_self _ _ ?_, Option.map_eq_some_iff] at h
        · obtain ⟨y, -, rfl⟩ := h
          rfl
        · exact fun _ => rfl
      · have hgone : ((s1.cancelChans t).scrubTeam id).team? id = none := by
          unfold State.scrubTeam
          refine (Notices.drainPushes _).team_none ?_
          simp [State.team?]
        rw [show (((s1.cancelChans t).scrubTeam id).teamGone id).team? id = _ from hgone] at h
        cases h

/-- What a return from a trap can do: nothing, the end of the team, or the load of a frame and an update of the group. -/
theorem State.leaveTrap_cases (s : State) (gid : GrpId) (resume : Bool) :
    s.leaveTrap gid resume = s ∨ (∃ c1 c2, s.leaveTrap gid resume = s.teamLost gid.team c1 c2) ∨
      ∃ core n ps f, s.leaveTrap gid resume = (s.frameRead core n ps).1.modGrp gid f := by
  unfold State.leaveTrap
  split
  · split
    · exact .inl rfl
    · dsimp only
      split
      · exact .inr (.inl ⟨_, _, rfl⟩)
      · exact .inr (.inr ⟨_, _, _, _, rfl⟩)
  · exact .inl rfl

/-- A team that leaves a trap and has not ended has its node as it was. -/
theorem State.leaveTrap_nodes {s : State} {gid : GrpId} {resume : Bool} {t' : Team} (h : (s.leaveTrap gid resume).team? gid.team = some t')
    (hlost : t'.lost = false) : (s.leaveTrap gid resume).nodes = s.nodes := by
  rcases s.leaveTrap_cases gid resume with heq | ⟨c1, c2, heq⟩ | ⟨core, n, ps, f, heq⟩
  · rw [heq]
  · rw [heq] at h
    rw [State.teamLost_team h] at hlost
    cases hlost
  · rw [heq]
    exact (Notices.frameRead s core n ps).nodes

/-! ## The state that a save leaves -/

/-- Nothing of a team is parked at a core. -/
def State.Unparked (s : State) (id : TeamId) : Prop := ∀ c ∈ s.cores, ∀ p ∈ c.replay, p.grp.team ≠ id

theorem Notices.unparked {s s' : State} (h : Notices s s') {id : TeamId} (hs : s.Unparked id) : s'.Unparked id := fun c hc p hp => by
  obtain ⟨d, hd, hpd⟩ := h.parks c hc p hp
  exact hs d hd p hpd

theorem State.unload_unparked (s : State) (t : Team) : (s.unload t).Unparked t.id := fun c hc p hp => by
  obtain ⟨d, -, rfl⟩ := List.mem_map.1 hc
  simpa using (List.mem_filter.1 hp).2

theorem Notices.putImage (core space base : Nat) (xs : List (Nat × (List Byte ⊕ Nat))) (s : State) :
    Notices s (s.putImage core space base xs) := by
  induction xs generalizing s with
  | nil => exact refl s
  | cons x xs ih =>
    obtain ⟨off, y⟩ := x
    unfold State.putImage
    extract_lets r
    have hr : Notices s r.1 := by
      cases y <;> exact of_roster rfl
    exact (hr.trans (tryVA r.1 core space _ _)).trans (ih _)

theorem Notices.putShadow (core space base : Nat) (bad : List Nat) (off n : Nat) (bs : List Byte) (s : State) :
    Notices s (s.putShadow core space base bad off n bs) := by
  induction n generalizing s off bs with
  | zero => exact refl s
  | succ n ih =>
    unfold State.putShadow
    extract_lets page lost s1
    have h1 : Notices s s1 := by
      unfold s1
      split
      · exact tryVA s core space _ _
      · refine (count s _ _ _).trans (foldl (fun u x => ?_) _ _)
        split
        · exact refl u
        · exact tryVA u core space _ _
    exact h1.trans (ih _ _ _)

/-- The switch of a window examines waits only. -/
theorem Notices.switched (s : State) (id : TeamId) : Notices s (s.switched id) := by
  unfold State.switched
  split
  · extract_lets s1
    have h1 : Notices s s1 := modGroups s fun _ => rfl
    exact h1.trans (modGroups s1 fun _ => rfl)
  · exact refl s

/-- A team at the end of its save (R310, step 5). -/
def Team.offCores (hold : Bool) (t : Team) : Team :=
  { t with loc := if hold then .held else .saved, win := [], winBad := [], grans := [], preempt := false, saver := none }

/-- Steps 3 to 5 of a save, but for the last, leave nothing of the team parked (R310). -/
theorem State.saveRest_cases (s : State) (t : Team) (l : Launch) (hold : Bool) :
    (s.saveRest t l hold).team? t.id = none ∨
      ∃ u : State, u.Unparked t.id ∧ s.saveRest t l hold = (u.modTeam t.id (Team.offCores hold)).switched t.id := by
  unfold State.saveRest
  extract_lets s1 s2
  have h2 : s2.Unparked t.id := State.unload_unparked s1 t
  split
  · next hnone => exact .inl hnone
  · next t2 _ =>
    extract_lets s3 s4 win s5
    have h3 : Notices s2 s3 := Notices.putImage t.core t.space _ _ s2
    have h4 : Notices s3 s4 := Notices.sealImage s3 t.core t.space _ l.ctxLen
    have h5 : Notices s4 s5 := Notices.putShadow t.core t.space _ t2.winBad 0 _ win s4
    exact .inr ⟨s5, ((h3.trans h4).trans h5).unparked h2, rfl⟩

/-- A team whose save has ended is off its cores, with nothing of it parked (R310). -/
theorem State.saveRest_team {s : State} {t : Team} {l : Launch} {hold : Bool} {t' : Team} (h : (s.saveRest t l hold).team? t.id = some t') :
    t'.loc = (if hold then .held else .saved) ∧ t'.saver = none ∧ (s.saveRest t l hold).Unparked t.id := by
  rcases s.saveRest_cases t l hold with hnone | ⟨u, hu, heq⟩
  · rw [hnone] at h
    cases h
  · have hswitch := Notices.switched (u.modTeam t.id (Team.offCores hold)) t.id
    rw [heq] at h ⊢
    have hteam := hswitch.team t.id
    rw [h, State.team?_modTeam_self u t.id (f := Team.offCores hold) (fun _ => rfl), Option.map_map, Option.map_some] at hteam
    obtain ⟨y, -, hy⟩ := Option.map_eq_some_iff.1 hteam.symm
    have hloc : (Team.offCores hold y).noticeless.loc = t'.noticeless.loc := congrArg Team.loc hy
    have hsaver : (Team.offCores hold y).noticeless.saver = t'.noticeless.saver := congrArg Team.saver hy
    exact ⟨hloc.symm, hsaver.symm, hswitch.unparked hu⟩

/-- What a save can leave: the team lost as it left its trap, or gone, or steps 3 to 5 done (R299, R310). -/
theorem State.saveTeam_cases {s : State} {t : Team} {l : Launch} (hl : s.launch? t.id = some l) (hold : Bool) (j q : Nat) :
    (∀ t', (s.saveTeam t hold j q).team? t.id = some t' → t'.lost = true) ∨
      ∃ (u : State) (t2 : Team) (l2 : Launch), u.team? t.id = some t2 ∧ s.saveTeam t hold j q = u.saveRest t2 l2 hold := by
  unfold State.saveTeam
  extract_lets gid s1
  split
  · split
    · next t2 ht2 => exact .inr ⟨_, t2, _, ht2, rfl⟩
    · next hnone => exact .inl fun t' ht' => absurd (hnone.symm.trans ht') (by simp)
  · next hno =>
    refine .inl fun t' ht' => ?_
    by_contra hlost
    rw [Bool.not_eq_true] at hlost
    have hnodes : s1.nodes = s.nodes := State.leaveTrap_nodes (gid := gid) ht' hlost
    have hlaunch : s1.launch? t.id = some l := by
      rw [← hl, State.launch?, State.launch?, State.node?, State.node?, hnodes]
    exact hno t' l (by rw [ht']; simp [hlost]) hlaunch

/-- A team that has been saved, and not lost, is off its cores. -/
theorem State.saveTeam_team {s : State} {t t' : Team} {l : Launch} {hold : Bool} {j q : Nat} (hl : s.launch? t.id = some l)
    (h : (s.saveTeam t hold j q).team? t.id = some t') (hlost : t'.lost = false) :
    t'.loc = (if hold then .held else .saved) ∧ t'.saver = none ∧ (s.saveTeam t hold j q).Unparked t.id := by
  rcases State.saveTeam_cases hl hold j q with hall | ⟨u, t2, l2, ht2, heq⟩
  · rw [hall t' h] at hlost
    cases hlost
  · rw [heq] at h ⊢
    rw [← State.team?_id ht2] at h ⊢
    exact State.saveRest_team h

/-! ## The obligation -/

/-- Settles O51. -/
theorem contexts : Obligations.Contexts := by
  refine ⟨fun s t g e h => ?_, fun s id t l hold j q ht hl hloc hsaver hready => ?_⟩
  · intro v va
    refine ⟨fun hsys => h.ctx_user hsys, fun hsys => ⟨fun hno => exec_ctxsave_rejected h hsys hno, fun htrap hv hloc hx => ?_,
      fun htrap hv hloc hx hready => ?_, fun hnone => exec_ctxload_rejected h hsys hnone, fun hheld hx => ?_,
      fun h' l hheld hx => ⟨fun hbusy => ?_, fun s1 hfree hwrite hteam => ?_⟩⟩⟩
    · have hno : ¬ ((decide (e.x = 0) && !(s.saveReady t s.iss.grp.grp)) = true) := by
        rcases hx with hx | hx
        · rw [decide_eq_false hx, Bool.false_and]
          exact Bool.false_ne_true
        · simp [hx]
      rw [exec_ctxsave_inside h hsys htrap hv hloc, if_neg hno]
    · rw [exec_ctxsave_inside h hsys htrap hv hloc, if_pos (by simp [hx, hready])]
    · obtain ⟨y, hy⟩ := Option.ne_none_iff_exists'.1 hheld
      exact (exec_ctxload_held h hsys hy).1 hx
    · exact (exec_ctxload_held h hsys hheld).2.1 hx hbusy
    · have hexec := (exec_ctxload_held h hsys hheld).2.2 s1 hx hfree hwrite
      have hkeep : Notices s (s1.sealImage g.core t.space va l.ctxLen) := (Notices.writeVA hwrite).trans (Notices.sealImage s1 _ _ _ _)
      obtain ⟨h0, hh0, hchans⟩ := State.heldTeam_kept hheld hteam hkeep
      obtain ⟨y, hy, hsaved, hsame⟩ := State.enterHeld_team (l := l) hh0
      obtain ⟨gs, hput⟩ := State.putStatus_team hy e.q stOk 0
      exact ⟨_, _, hexec, hput, hsaved, fun himp => (hsame himp).trans (hchans himp)⟩
  · have hid : t.id = id := State.team?_id ht
    subst hid
    have hexec : exec (.contextSaveComplete t.id) s =
        .next (if (s.flushTeam t).teamUnflushed t then s.flushTeam t else (s.flushTeam t).saveTeam t hold j q) := by
      have hcomplete : exec (.contextSaveComplete t.id) s = execContextSaveComplete t.id s := rfl
      rw [hcomplete, execContextSaveComplete, ht]
      simp only [hloc, hsaver, hready, if_true]
    have hnodes : (s.flushTeam t).nodes = s.nodes := by
      unfold State.flushTeam
      split
      · exact ((Notices.relSelf s _).trans (Notices.relSelf _ _)).nodes
      · exact (Notices.relSelf s _).nodes
    have hl' : (s.flushTeam t).launch? t.id = some l := by
      rw [← hl, State.launch?, State.launch?, State.node?, State.node?, hnodes]
    refine ⟨fun hbusy => ?_, fun hfree => ⟨(s.flushTeam t).saveTeam t hold j q, ?_,
      fun t' ht' hlost => State.saveTeam_team hl' ht' hlost⟩⟩
    · rw [hexec, if_pos hbusy]
    · rw [hexec, if_neg (by simp [hfree])]

end Sys2Proof.Machine

/-! # Scalar words and ballots (R65, R78, R79, R135, R136)

Every scalar word of one result is `State.uSet`, and a ready one writes s[D] of its group. -/

namespace Sys2Proof.Machine

open Sys2Proof

/-! ## Scalar words of one result -/

theorem State.UReady.uSet_eq {s : State} {t : Team} {g : Group} {rs : List Nat} (h : s.UReady t g rs) (d : BitVec 6) (f : Group → Reg) :
    s.uSet rs d f = .next (s.modGrp s.iss.grp (fun x => x.setS d.toNat (f g))) :=
  h.uWord_eq _

/-- The ones of a register counted from below are its set bits. -/
theorem popCount_eq_countP (r : Reg) (n : Nat) : popCount r.toNat n = (List.range n).countP r.getLsbD := by
  induction n with
  | zero => rfl
  | succ n ih =>
    rw [popCount, ih, List.range_succ, List.countP_append, List.countP_singleton, Nat.add_comm]
    rfl

/-- `LIHI` puts the literal above the low half of its source. -/
theorem lihi_eq_ofNat (l : Word) (r : Reg) : l ++ r.setWidth 32 = BitVec.ofNat 64 (l.toNat * 2 ^ 32 + r.toNat % 2 ^ 32) := by
  apply BitVec.eq_of_toNat_eq
  have hl := l.isLt
  rw [BitVec.toNat_append, BitVec.toNat_setWidth, BitVec.toNat_ofNat, Nat.shiftLeft_eq, Nat.mul_comm,
    ← Nat.two_pow_add_eq_or_of_lt (Nat.mod_lt _ (by decide))]
  omega

/-- Each scalar word of one result writes s[D] with its value. -/
theorem exec_scalar {s : State} {i : Instr} {rs : List Nat} {d : BitVec 6} {f : Group → Reg} (hi : scalarOf s i = some (rs, d, f)) :
    exec i s = s.uSet rs d f := by
  cases i <;> simp only [scalarOf, Option.some.injEq, Prod.mk.injEq, reduceCtorEq] at hi
  all_goals obtain ⟨rfl, rfl, rfl⟩ := hi
  case lihi d a =>
    show s.uSet [a.toNat] d (fun g => s.iss.lit ++ (g.sreg a.toNat).setWidth 32) = _
    simp only [lihi_eq_ofNat]
  case popcs d a =>
    show s.uSet [a.toNat] d (fun g => BitVec.ofNat 64 (popCount (g.sreg a.toNat).toNat 64)) = _
    simp only [popCount_eq_countP]
  case li d =>
    show s.uSet [] d (fun _ => s.iss.lit.setWidth 64) = _
    rw [BitVec.ofNat_toNat]
  case lis => rfl
  case salu => rfl
  case mov => rfl
  case clock => rfl

/-- A write of one s register changes no other. -/
theorem Group.sameButS_setS (g : Group) (n : Nat) (v : Reg) : Group.SameButS g (g.setS n v) [n] := by
  refine ⟨?_, fun k hk => Group.sreg_setS_ne g v (by simpa using hk)⟩
  unfold Group.setS
  split <;> rfl

/-- Settles O10: each word is one write of s[D], which changes nothing else. -/
theorem scalarResult : Obligations.ScalarResult := by
  unfold Obligations.ScalarResult
  intro s t g i rs d f hi h hlen
  have hgrp : (s.modGrp s.iss.grp (fun x => x.setS d.toNat (f g))).grp? s.iss.grp = some (g.setS d.toNat (f g)) := by
    rw [State.grp?_modGrp_self, h.1.2, Option.map_some]
  refine ⟨_, _, (exec_scalar hi).trans (h.uSet_eq d f), SameBut.modGrp s _ _, hgrp, Group.sameButS_setS g _ _, ?_⟩
  have hd := d.isLt
  split
  · next h0 => rw [h0]; rfl
  · next h0 => exact Group.sreg_setS_self g _ (fun hz => h0 (BitVec.eq_of_toNat_eq hz)) (by omega)

/-! ## Ballots and votes -/

theorem getLsbD_foldl_or_twoPow (l : List Nat) (m : Mask) (k : Nat) :
    (l.foldl (fun m t => m ||| BitVec.twoPow 64 t) m).getLsbD k = (m.getLsbD k || decide (k < 64 ∧ k ∈ l)) := by
  induction l generalizing m with
  | nil => simp
  | cons t l ih =>
    rw [List.foldl_cons, ih, BitVec.getLsbD_or, BitVec.getLsbD_twoPow, Bool.or_assoc]
    congr 1
    by_cases hk : k = t
    · by_cases h64 : t < 64 <;> simp [hk, h64]
    · simp [hk, Ne.symm hk]

/-- A bit of the mask of some threads. -/
theorem getLsbD_maskOf {l : List Nat} {k : Nat} (hk : k < 64) : (maskOf l).getLsbD k = decide (k ∈ l) := by
  rw [maskOf, getLsbD_foldl_or_twoPow]
  simp [hk]

/-- The threads of a group that satisfy a condition, as a mask. -/
theorem Group.getLsbD_maskBy (g : Group) (f : Thread → Bool) {k : Nat} (hk : k < 64) :
    (g.maskBy f).getLsbD k = (decide (k < g.threads.length) && f (g.thread k)) := by
  rw [Group.maskBy, getLsbD_maskOf hk, Bool.eq_iff_iff, decide_eq_true_eq, Bool.and_eq_true, decide_eq_true_eq]
  simp only [List.mem_filterMap, Option.ite_none_right_eq_some, Option.some.injEq]
  constructor
  · rintro ⟨x, hx, hf, rfl⟩
    obtain ⟨j, hj⟩ := List.mem_iff_getElem?.1 hx
    rw [mapFrom_zero_get, Option.map_eq_some_iff] at hj
    obtain ⟨th, hth, rfl⟩ := hj
    obtain ⟨hlt, hget⟩ := List.getElem?_eq_some_iff.1 hth
    refine ⟨hlt, ?_⟩
    rw [Group.thread, List.getD_eq_getElem?_getD, hth]
    exact hf
  · rintro ⟨hlt, hf⟩
    refine ⟨(k, f g.threads[k]), List.mem_iff_getElem?.2 ⟨k, ?_⟩, ?_, rfl⟩
    · rw [mapFrom_zero_get, List.getElem?_eq_getElem hlt, Option.map_some]
    · rw [Group.thread, List.getD_eq_getElem?_getD, List.getElem?_eq_getElem hlt] at hf
      exact hf

/-- A bit of a ballot. -/
theorem getLsbD_ballot (g : Group) (m : Mask) (p : Nat) {k : Nat} (hk : k < 64) :
    (ballot g m p).getLsbD k = (decide (k < g.threads.length) && (m.getLsbD k && (g.thread k).pred p)) := by
  rw [ballot, BitVec.getLsbD_and, Group.getLsbD_maskBy g _ hk, Bool.and_left_comm]

section
variable {s : State} {t : Team} {g : Group}

/-- The votes of the active threads alone ask for the predicate. -/
theorem all_active_pred (m : Mask) (p w : Nat) :
    (Mask.list m w).all (fun k => (g.thread k).pred p) =
      ((List.range w).filter m.getLsbD).all (fun k => m.getLsbD k && (g.thread k).pred p) := by
  unfold Mask.list
  rw [Bool.eq_iff_iff, List.all_eq_true, List.all_eq_true]
  refine forall₂_congr fun k hk => ?_
  rw [(List.mem_filter.1 hk).2, Bool.true_and]

theorem any_active_pred (m : Mask) (p w : Nat) :
    (Mask.list m w).any (fun k => (g.thread k).pred p) =
      ((List.range w).filter m.getLsbD).any (fun k => m.getLsbD k && (g.thread k).pred p) := by
  unfold Mask.list
  rw [Bool.eq_iff_iff, List.any_eq_true, List.any_eq_true]
  refine exists_congr fun k => and_congr_right fun hk => ?_
  rw [(List.mem_filter.1 hk).2, Bool.true_and]

theorem exec_elect (h : s.UReady t g []) (d : BitVec 6) (p : Fin 8) :
    exec (.elect d p) s = .next (s.modGrp s.iss.grp (fun x =>
      (x.onThreads s.iss.mask (fun k th => th.setPred p.val (k == Mask.lo s.iss.mask g.width))).setS d.toNat
        (BitVec.ofNat 64 (Mask.lo s.iss.mask g.width)))) :=
  h.uWord_eq _

/-! ## `FROMV` -/

theorem exec_fromv_v {a : BitVec 6} (h : s.UReady t g [a.toNat]) (d : BitVec 6) (n : Fin 96) :
    exec (.fromv d a (.v n)) s = s.finish (
      let k := (g.sreg a.toNat).toNat % g.width
      if g.alloc ≤ n.val then s.raise 3 0
      else if g.vPending (BitVec.twoPow 64 k) [n.val] then .stall (s.owedBy g (BitVec.twoPow 64 k) [n.val])
      else .done (s.modGrp s.iss.grp (fun x => x.setS d.toNat (((g.thread k).vreg n.val).signExtend 64)))) :=
  h.uWord_eq _

theorem exec_fromv_b {a : BitVec 6} (h : s.UReady t g [a.toNat]) (d : BitVec 6) (n : Fin 4) :
    exec (.fromv d a (.b n)) s = .next (s.modGrp s.iss.grp (fun x => x.setS d.toNat
      (if s.iss.mask.getLsbD ((g.sreg a.toNat).toNat % g.width) then
        ((g.thread ((g.sreg a.toNat).toNat % g.width)).latch n.val).signExtend 64 else 0))) :=
  h.uWord_eq _

end

/-- Settles O11: a ballot bit by bit, the votes by what the active threads say, and `FROMV` by its checks. -/
theorem ballots : Obligations.Ballots := by
  unfold Obligations.Ballots
  refine ⟨fun s t g d p h => ⟨⟨_, h.uSet_eq d _, fun k hk => getLsbD_ballot g _ _ hk⟩, ?all, ?any, exec_elect h d p⟩,
    fun s t g d a h => ⟨fun n hn hv => ?_, exec_fromv_b h d, fun n hn => ?_⟩⟩
  case all => rw [← all_active_pred]; exact h.uSet_eq d _
  case any => rw [← any_active_pred]; exact h.uSet_eq d _
  · rw [exec_fromv_v h, if_neg (Nat.not_le.2 hn), hv]
    rfl
  · rw [exec_fromv_v h, if_pos hn]
    rfl

end Sys2Proof.Machine

/-! # The register file (R64, R65, R69) -/

namespace Sys2Proof.Machine

open Sys2Proof

theorem Group.fresh_lengths (core pipe width alloc : Nat) (pc : VAddr) {s16 : List Reg} (cycle : Nat) (h : s16.length = 6) :
    (Group.fresh core pipe width alloc pc s16 cycle).s.length = 64 ∧
      (Group.fresh core pipe width alloc pc s16 cycle).q.length = 8 ∧
      (Group.fresh core pipe width alloc pc s16 cycle).threads.length = width := by
  simp [Group.fresh, h]

/-- A V word whose destination is p0 executes: its result goes to the latches of the active threads alone. -/
theorem State.vecDone_pred_zero {s : State} {t : Team} {g : Group} (h : s.Issues t g) (w : Bool) (srcs : List Os) (val : Nat → Word) :
    ∃ g', (s.vecDone t g w srcs (.pred 0) val).grp? s.iss.grp = some g' ∧
      ∀ k th, g.threads[k]? = some th → s.iss.mask.getLsbD k = true →
        g'.threads[k]? = some { th with lat := ⟨val k, true⟩ :: th.lat.take 3 } := by
  rw [State.vecDone_no_push rfl]
  refine ⟨g.vec s.iss.mask (beatsOf g.width s.iss.mask) (popsOf srcs) w (.pred 0) val, by rw [State.grp?_modGrp_self, h.2]; rfl,
    fun k th hk hm => ?_⟩
  rw [Group.vec, Group.onThreads_active _ _ hm, Group.popQ_foldl_threads, hk, Option.map_some]
  cases w <;> rfl

/-- `ELECT` of p0 leaves every thread as it is. -/
theorem Group.onThreads_setPred_zero (g : Group) (m : Mask) (v : Nat → Bool) :
    (g.onThreads m (fun k th => th.setPred 0 (v k))).threads = g.threads := by
  refine List.ext_getElem? fun k => ?_
  rw [Group.onThreads_get]
  cases g.threads[k]? with
  | none => rfl
  | some th => simp

/-- Settles O12: the registers by their own lemmas; a V word whose destination is p0 delivers to the latches alone, and `ELECT` of p0 to
no thread. -/
theorem registerFile : Obligations.RegisterFile := by
  unfold Obligations.RegisterFile
  refine ⟨fun g v => ⟨rfl, rfl⟩, ⟨rfl, fun _ _ _ => rfl⟩, fun th v => ⟨rfl, rfl⟩, fun s t g w => ?_,
    fun g n k v hlen h0 hn => ⟨Group.sreg_setS_self g v (by omega) (by omega), Group.sreg_setS_ne g v, (g.setS_length n v).trans hlen⟩,
    fun th p k v h0 hp => ⟨Thread.pred_setPred_self th v (by omega) hp, Thread.pred_setPred_ne th v⟩,
    fun th n k v hn => ⟨Thread.vreg_setV_self th v hn, Thread.vreg_setV_ne th v⟩,
    fun core pipe width alloc pc s16 cycle => Group.fresh_lengths core pipe width alloc pc cycle⟩
  intro runs
  have hruns : ∀ (i : Instr) (srcs : List Os) (x : Nat → Bool), s.Issues t g →
      exec i s = .next (s.vecDone t g w srcs (.pred 0) (fun k => if x k then 1 else 0)) → runs i x := by
    intro i srcs x h hexec
    obtain ⟨g', hg', hth⟩ := State.vecDone_pred_zero h w srcs (fun k => if x k then 1 else 0)
    exact ⟨_, g', hexec, hg', fun k th hk hm => ⟨_, hth k th hk hm, rfl, rfl, rfl, rfl⟩⟩
  obtain ⟨hcmpi, hcmpf, hpred, -⟩ := vecAcross.2 s t g w 0
  refine ⟨fun c a b h => hruns _ _ _ h.1 (hcmpi c a b h), fun c a b h => hruns _ _ _ h.1 (hcmpf c a b h),
    fun op a b h => hruns _ _ _ h.1 (hpred op a b h), fun d h => ?_⟩
  refine ⟨_, _, exec_elect h d 0, by rw [State.grp?_modGrp_self, h.1.2]; rfl, fun k th hk => ⟨th, ?_, rfl, rfl, rfl⟩⟩
  rw [Group.setS_threads]
  exact (congrArg (·[k]?) (Group.onThreads_setPred_zero g _ _)).trans hk

end Sys2Proof.Machine

/-! # What lands in a slot (R71, R313, R314, R318, R321, R323)

A landing takes its flight off, writes its slot in one update, and for `LDSUB` the pair of s registers; then the writes that waited for
its room are tried again. What the slot's write leaves alone besides the window is the relation `LandKeeps`. -/

namespace Sys2Proof.Machine

open Sys2Proof

/-! ## A slot read after its write -/

/-- The 16 bytes of a slot (R313). -/
def Slot.bytes (x : Slot) : List Byte := leBytes 8 x.value.toNat ++ leBytes 4 x.seq.toNat ++ leBytes 4 x.flags.toNat

theorem Slot.length_bytes (x : Slot) : x.bytes.length = 16 := by
  simp [Slot.bytes]

theorem State.setSlot_eq (s : State) (id : TeamId) (off : Nat) (x : Slot) : s.setSlot id off x = s.winWrite id off x.bytes := rfl

theorem leNat_append (a b : List Byte) : leNat (a ++ b) = leNat a + 256 ^ a.length * leNat b := by
  induction a with
  | nil => simp [leNat]
  | cons x a ih => rw [List.cons_append, leNat, leNat, ih, List.length_cons, Nat.pow_succ]; ring

theorem leNat_leBytes (k n : Nat) : leNat (leBytes k n) = n % 256 ^ k := by
  induction k generalizing n with
  | zero => simp [leBytes, leNat, Nat.mod_one]
  | succ k ih => 
    have hmod : n % 256 ^ (k + 1) = n % 256 + 256 * (n / 256 % 256 ^ k) := by rw [Nat.pow_succ', Nat.mod_mul]
    rw [leBytes, leNat, ih, BitVec.toNat_ofNat, hmod]

/-- The bytes of a slot are those of one number, its `VALUE` lowest. -/
theorem Slot.leNat_bytes (x : Slot) : leNat x.bytes = x.value.toNat + 2 ^ 64 * x.seq.toNat + 2 ^ 96 * x.flags.toNat := by
  have hv := x.value.isLt
  have hq := x.seq.isLt
  have hf := x.flags.isLt
  simp only [Slot.bytes, leNat_append, leNat_leBytes, List.length_append, length_leBytes]
  omega

/-- A window that holds a slot's bytes holds the slot. -/
theorem State.WinHolds.slot {s : State} {id : TeamId} {off : Nat} {x : Slot} (h : s.WinHolds id off x.bytes) : s.slot id off = x := by
  have hv := x.value.isLt
  have hq := x.seq.isLt
  have hf := x.flags.isLt
  have hread := h.winRead
  rw [Slot.length_bytes] at hread
  have hnat : s.winNat id off 16 = x.value.toNat + 2 ^ 64 * x.seq.toNat + 2 ^ 96 * x.flags.toNat := by
    rw [State.winNat, hread, Slot.leNat_bytes]
  have hvalue : BitVec.ofNat 64 (s.winNat id off 16) = x.value := BitVec.eq_of_toNat_eq (by rw [BitVec.toNat_ofNat, hnat]; omega)
  have hseq : BitVec.ofNat 32 (s.winNat id off 16 / 2 ^ 64) = x.seq := BitVec.eq_of_toNat_eq (by rw [BitVec.toNat_ofNat, hnat]; omega)
  have hflags : BitVec.ofNat 32 (s.winNat id off 16 / 2 ^ 96) = x.flags := BitVec.eq_of_toNat_eq (by rw [BitVec.toNat_ofNat, hnat]; omega)
  show Slot.mk (BitVec.ofNat 64 (s.winNat id off 16)) (BitVec.ofNat 32 (s.winNat id off 16 / 2 ^ 64))
    (BitVec.ofNat 32 (s.winNat id off 16 / 2 ^ 96)) = x
  rw [hvalue, hseq, hflags]

/-- A slot of a pinned window is read of the teams alone. -/
theorem State.slot_of_teams {s u : State} (h : u.teams = s.teams) {id : TeamId} {t : Team} (ht : s.team? id = some t)
    (hp : t.pinned = true) (off : Nat) : u.slot id off = s.slot id off := by
  have htu : u.team? id = some t := by rw [State.team?, h]; exact ht
  have hread : u.winRead id off 16 = s.winRead id off 16 := by
    unfold State.winRead
    rw [ht, htu]
    exact List.map_congr_left fun o _ => by simp only [State.winByte, hp, if_true]
  rw [State.slot, State.slot, State.winNat, State.winNat, hread]

/-- An update of a group that leaves it on its pipe changes no slot. -/
theorem State.slot_modGrp (s : State) (k : GrpId) {f : Group → Group} (hf : ∀ g, (f g).pipe = g.pipe) (id : TeamId) (off : Nat) :
    (s.modGrp k f).slot id off = s.slot id off := by
  rw [State.slot, State.slot, State.winNat, State.winNat, (SameReads.modGrp s k hf).read]

/-! ## What the write of a slot leaves alone -/

/-- The s registers of a group, and the writes in flight to them. -/
def Group.sFile (g : Group) : List Reg × List (Nat × Nat) := (g.s, g.spend)

/-- From one state to another what is in flight and the subscriptions are the same, and each group's s registers with the writes in flight
to them. -/
structure LandKeeps (s s' : State) : Prop where
  flights : s'.flights = s.flights
  subs : s'.subs = s.subs
  regs : ∀ k, (s'.grp? k).map Group.sFile = (s.grp? k).map Group.sFile

namespace LandKeeps

theorem refl (s : State) : LandKeeps s s := ⟨rfl, rfl, fun _ => rfl⟩

theorem trans {s s' s'' : State} (h1 : LandKeeps s s') (h2 : LandKeeps s' s'') : LandKeeps s s'' :=
  ⟨h2.flights.trans h1.flights, h2.subs.trans h1.subs, fun k => (h2.regs k).trans (h1.regs k)⟩

theorem modTeam (s : State) (id : TeamId) {f : Team → Team} (hid : ∀ t, (f t).id = t.id) (hg : ∀ t, (f t).groups = t.groups) :
    LandKeeps s (s.modTeam id f) :=
  ⟨rfl, rfl, fun k => by rw [State.grp?_modTeam s id k hid hg]⟩

theorem modGroups (s : State) {f : Group → Group} (hf : ∀ g, (f g).sFile = g.sFile) : LandKeeps s (s.modGroups f) :=
  ⟨rfl, rfl, fun k => by rw [State.grp?_modGroups, Option.map_map]; exact congrArg (Option.map · _) (funext hf)⟩

theorem modGrp (s : State) (k : GrpId) {f : Group → Group} (hf : ∀ g, (f g).sFile = g.sFile) : LandKeeps s (s.modGrp k f) where
  flights := rfl
  subs := rfl
  regs j := by
    by_cases hj : j = k
    · subst hj
      rw [State.grp?_modGrp_self, Option.map_map]
      exact congrArg (Option.map · _) (funext hf)
    · rw [State.grp?_modGrp_ne s f hj]

theorem sawSlot (s : State) (g : GrpId) (id : TeamId) (off n : Nat) : LandKeeps s (s.sawSlot g id off n) := by
  unfold State.sawSlot
  extract_lets ids
  split
  · exact refl s
  · exact modGrp s g fun _ => rfl

theorem examineWords (s : State) (id : TeamId) (off n : Nat) : LandKeeps s (s.examineWords id off n) := modGroups s fun _ => rfl

theorem winPut {s : State} {id : TeamId} {t : Team} (ht : s.team? id = some t) (hp : t.pinned = true) (off : Nat) (bs : List Byte)
    (push : Bool) : LandKeeps s (s.winPut id off bs push) := by
  rw [State.winPut_pinned ht hp]
  exact modTeam s id (fun _ => rfl) (fun _ => rfl)

theorem lookSlot {s : State} {id : TeamId} {t : Team} (ht : s.team? id = some t) (hp : t.pinned = true) (off n : Nat) (gid : GrpId)
    (w : WaitRec) : LandKeeps s (s.lookSlot id off n gid w) := by
  unfold State.lookSlot
  split
  · split
    · exact refl s
    · split
      · exact refl s
      · refine ((LandKeeps.trans ?_ (examineWords _ _ _ _)).trans (sawSlot _ _ _ _ _)).trans (modGrp _ _ fun _ => rfl)
        split
        · exact refl s
        · exact winPut ht hp _ _ _
  · exact refl s

theorem lookSlots {id : TeamId} (off n : Nat) (l : List (GrpId × WaitRec)) {s : State} {t : Team} (ht : s.team? id = some t)
    (hp : t.pinned = true) : LandKeeps s (l.foldl (fun s x => s.lookSlot id off n x.1 x.2) s) := by
  induction l generalizing s t with
  | nil => exact refl s
  | cons x l ih =>
    obtain ⟨t', ht', hseat⟩ := (TeamsKeep.lookSlot ht hp off n x.1 x.2).some_of ht
    exact (lookSlot ht hp off n x.1 x.2).trans (ih ht' ((Team.pinned_of_loc (congrArg Prod.snd hseat)).trans hp))

/-- The write of a pinned window, with what examines it. -/
theorem winWrite {s : State} {id : TeamId} {t : Team} (ht : s.team? id = some t) (hp : t.pinned = true) (off : Nat) (bs : List Byte) :
    LandKeeps s (s.winWrite id off bs) := by
  have hput := winPut ht hp off bs false
  unfold State.winWrite State.examine
  split
  · obtain ⟨t', ht', hseat⟩ :=
      ((TeamsKeep.winPut ht hp off bs false).trans (TeamsKeep.examineWords (s.winPut id off bs false) id off bs.length).seat).some_of ht
    exact (hput.trans (examineWords _ id off _)).trans
      (lookSlots off bs.length _ ht' ((Team.pinned_of_loc (congrArg Prod.snd hseat)).trans hp))
  · exact hput

end LandKeeps

/-! ## A flight that lands -/

/-- The state without a flight that lands. -/
def State.unflown (s : State) (id : Nat) : State := { s with flights := s.flights.filter (fun y => y.id != id) }

theorem State.land_none {s : State} {id : Nat} (h : ∀ x ∈ s.flights, x.id ≠ id) (want : FlightKind → Bool) (f : State → Flight → State) :
    s.land id want f = s := by
  have hfind : s.flights.find? (fun x => x.id == id) = none := List.find?_eq_none.2 fun x hx => by simpa using h x hx
  rw [State.land, hfind]

theorem State.land_eq {s : State} {x : Flight} (hfind : s.flights.find? (fun y => y.id == x.id) = some x) (hland : s.canLand x = true)
    {want : FlightKind → Bool} (hwant : want x.kind = true) (f : State → Flight → State) :
    s.land x.id want f = (f (s.unflown x.id) x).drainPushes := by
  rw [State.land, hfind]
  exact if_pos (by simp [hwant, hland])

theorem State.slotFrom_eq (s : State) (f : Flight) : ∃ c, s.slotFrom f = { s with slotCausal := c } := by
  unfold State.slotFrom
  extract_lets ids
  split
  · exact ⟨s.slotCausal, rfl⟩
  · exact ⟨_, rfl⟩

/-- A landing has written its slot over a state that has the teams and the memory of `s` and not its flight any more. -/
structure State.Landed (s : State) (f : Flight) (y : Slot) (u0 u : State) : Prop where
  mem : s.SameMem u
  gone : ∀ x ∈ u.flights, x.id ≠ f.id
  slot : u.slot f.team f.off = y
  keeps : LandKeeps u0 u

theorem State.Landed.of_setSlot {s u0 : State} {f : Flight} {t : Team} (hinv : s.Inv) (ht : s.team? f.team = some t)
    (hp : t.pinned = true) (hw : ∀ k, k < 16 → ¬ s.SlotWatched f.team (f.off + k)) (hmem : u0.mem = s.mem) (hteams : u0.teams = s.teams)
    (hflights : u0.flights = s.flights.filter (fun x => x.id != f.id)) (y : Slot) :
    s.Landed f y u0 (u0.setSlot f.team f.off y) := by
  have ht0 : u0.team? f.team = some t := by rw [State.team?, hteams]; exact ht
  have hwait : u0.allWaits = s.allWaits := by rw [State.allWaits, State.allWaits, hteams]
  have hwatch : ∀ k, k < y.bytes.length → ¬ u0.SlotWatched f.team (f.off + k) := fun k hk => by
    rw [State.SlotWatched, hwait]
    exact hw k (y.length_bytes ▸ hk)
  have hkeeps := LandKeeps.winWrite ht0 hp f.off y.bytes
  have hwf := hinv.2 t (List.mem_of_find?_eq_some ht)
  rw [State.setSlot_eq]
  refine ⟨fun a => ?_, fun x hx => ?_, (State.WinHolds.of_winWrite ht0 hp hwf hwatch).slot, hkeeps⟩
  · rw [(TeamsKeep.winWrite ht0 hp f.off y.bytes).mem, hmem]
  · rw [hkeeps.flights, hflights] at hx
    simpa using (List.mem_filter.1 hx).2

/-! ## The pair of `LDSUB` -/

/-- The pair of s registers of `LDSUB` as its landing leaves it (R71, R323). -/
def Group.landPair (g : Group) (id q : Nat) (v : Reg) : Group := (g.landS id q (statusVal stOk 0)).landS id (q + 1) v

theorem Group.landPair_pipe (g : Group) (id q : Nat) (v : Reg) : (g.landPair id q v).pipe = g.pipe := by
  have hland (g : Group) (n : Nat) (v : Reg) : (g.landS id n v).pipe = g.pipe := by
    unfold Group.landS
    split <;> rfl
  rw [Group.landPair, hland, hland]

theorem Group.sFile_landS {g g1 : Group} (h : g1.sFile = g.sFile) (id n : Nat) (v : Reg) : (g1.landS id n v).sFile = (g.landS id n v).sFile := by
  obtain ⟨hs, hspend⟩ := Prod.mk.inj h
  unfold Group.landS
  rw [hspend]
  split
  · simp only [Group.sFile, hs]
  · exact h

theorem Group.sFile_landS_of_mem {g : Group} {id n : Nat} (h : (n, id) ∈ g.spend) (v : Reg) : (g.landS id n v).sFile =
    (if n = 0 then g.s else modAt (fun _ => v) n g.s, g.spend.filter (fun x => !(x.1 == n && x.2 == id))) := by
  unfold Group.landS
  rw [if_pos (by simpa using h)]
  rfl

/-- Where no later word has written the pair, a landing writes both registers and no other. -/
theorem Group.sreg_landPair {g g' : Group} {id q : Nat} {v : Reg} (hg : g'.s = (g.landPair id q v).s) (h0 : 0 < q) (hq : q < 63)
    (hlen : g.s.length = 64) (hmem : (q, id) ∈ g.spend) (hmem1 : (q + 1, id) ∈ g.spend) :
    g'.sreg q = statusVal stOk 0 ∧ g'.sreg (q + 1) = v ∧ ∀ k, k ≠ q → k ≠ q + 1 → g'.sreg k = g.sreg k := by
  obtain ⟨hs1, hspend1⟩ := Prod.mk.inj (Group.sFile_landS_of_mem hmem (statusVal stOk 0))
  have hkept : (q + 1, id) ∈ (g.landS id q (statusVal stOk 0)).spend := by
    rw [hspend1]
    exact List.mem_filter.2 ⟨hmem1, by simp⟩
  obtain ⟨hs2, -⟩ := Prod.mk.inj (Group.sFile_landS_of_mem hkept v)
  rw [if_neg (by omega)] at hs1 hs2
  have hs : g'.s = modAt (fun _ => v) (q + 1) (modAt (fun _ => statusVal stOk 0) q g.s) := by
    rw [hg, Group.landPair, hs2, hs1]
  have hlen1 : q + 1 < (modAt (fun _ => statusVal stOk 0) q g.s).length := by rw [modAt_length]; omega
  simp only [Group.sreg, hs]
  refine ⟨?_, ?_, fun k hk hk1 => ?_⟩
  · rw [if_neg (by omega), getD_modAt_ne _ _ _ (by omega), getD_modAt_self _ _ (by omega)]
  · rw [if_neg (by omega), getD_modAt_self _ _ hlen1]
  · rw [getD_modAt_ne _ _ _ hk1, getD_modAt_ne _ _ _ hk]

/-! ## The obligation -/

/-- Settles O46: a flight that is none changes nothing; one that can land writes its slot over the state without it, which keeps the
registers that `LDSUB`'s landing then writes. -/
theorem landings : Obligations.Landings := by
  unfold Obligations.Landings
  refine ⟨fun s id hno => ⟨congrArg _ (State.land_none hno _ _), congrArg _ (State.land_none hno _ _), congrArg _ (State.land_none hno _ _)⟩,
    fun s f t hinv hfind hland ht hp hw => ?_⟩
  intro x lands
  have hlanded (u0 : State) := State.Landed.of_setSlot (u0 := u0) hinv ht hp hw
  have hslot : (s.unflown f.id).slot f.team f.off = s.slot f.team f.off := State.slot_of_teams (s := s) (u := s.unflown f.id) rfl ht hp f.off
  obtain ⟨c, hc⟩ := (s.unflown f.id).slotFrom_eq f
  refine ⟨fun hk => ?push, fun hk => ?mark, fun by_ q n g hk hg => ?landing⟩
  case push =>
    have hl := hlanded { s.unflown f.id with slotCausal := c } rfl rfl rfl (x.pushed f.value)
    refine ⟨_, congrArg Host.Outcome.next ((State.land_eq hfind hland (by simp [hk]) _).trans ?_), hl.mem, hl.gone, hl.slot, hl.keeps.subs⟩
    dsimp only
    rw [hc, hslot]
  case mark =>
    let u0 : State := { s.unflown f.id with subs := s.subs.filter (fun x => !(x.ending && decide (x.team = f.team) && x.off == f.off)) }
    have hl := hlanded u0 rfl rfl rfl x.ended
    refine ⟨_, congrArg Host.Outcome.next ((State.land_eq hfind hland (by simp [hk]) _).trans ?_), hl.mem, hl.gone, hl.slot, fun y hy => ?_⟩
    · rw [hslot]
      rfl
    · rw [hl.keeps.subs] at hy
      rintro ⟨hend, hteam, hoff⟩
      simpa [hend, hteam, hoff] using (List.mem_filter.1 hy).2
  case landing =>
    let y : Slot := ⟨f.value, 0, BitVec.ofNat 32 (1 + (n - 1) * 2 ^ 8)⟩
    have hl := hlanded { s.unflown f.id with slotCausal := c } rfl rfl rfl y
    have hexec : exec (.ldsubLanding f.id) s = .next (State.modGrp (State.setSlot { s.unflown f.id with slotCausal := c } f.team f.off y)
        ⟨by_.team, by_.grp⟩ (fun g => g.landPair f.id q f.value)).drainPushes := by
      refine congrArg Host.Outcome.next ((State.land_eq hfind hland (by simp [hk]) _).trans ?_)
      simp only [hk, hc]
      rfl
    generalize State.setSlot { s.unflown f.id with slotCausal := c } f.team f.off y = u at hl hexec
    obtain ⟨g1, hg1, hfile⟩ : ∃ g1, u.grp? ⟨by_.team, by_.grp⟩ = some g1 ∧ g1.sFile = g.sFile :=
      Option.map_eq_some_iff.1 ((hl.keeps.regs ⟨by_.team, by_.grp⟩).trans (congrArg (Option.map _) hg))
    have hs : (g1.landPair f.id q f.value).s = (g.landPair f.id q f.value).s :=
      congrArg Prod.fst (Group.sFile_landS (Group.sFile_landS hfile f.id q _) f.id (q + 1) f.value)
    exact ⟨_, hexec, hl.mem, hl.gone, (u.slot_modGrp _ (fun g => g.landPair_pipe f.id q f.value) _ _).trans hl.slot,
      _, by rw [State.grp?_modGrp_self, hg1, Option.map_some], hs, Group.sreg_landPair hs⟩

end Sys2Proof.Machine

/-! # What a store may change of memory (R76, R139, R153, R154, R171, R198, R203)

A store changes the bytes that it stores to; the lines that it displaces send their dirty `SELFINV` bytes home; and a dirty `DIR` copy that
is lost on its way home uncovers its home's older value. A `Zone` names such bytes, and `Confined` says of every operation that a store
is made of that it changes no other byte and uncovers no uncorrectable one. -/

namespace Sys2Proof.Machine

open Sys2Proof

/-! ## Runs of cells -/

/-- The cells of a write lie in one line. -/
def OneLine (cells : List (Nat × Byte)) : Prop := ∀ c ∈ cells, ∀ d ∈ cells, lineOf d.1 = lineOf c.1

/-- The lines of two runs rise from the one to the other. -/
def LinesRise (r r' : List (Nat × Byte)) : Prop := ∀ c ∈ r, ∀ d ∈ r', lineOf c.1 < lineOf d.1

theorem lineRuns_oneLine (cells : List (Nat × Byte)) : ∀ r ∈ lineRuns cells, OneLine r := by
  induction cells with
  | nil => simp [lineRuns]
  | cons c cs ih =>
    unfold lineRuns
    split
    · next d r rs hr =>
      rw [hr] at ih
      have hdr := ih (d :: r) List.mem_cons_self
      split
      · next hline =>
        intro x hx
        rcases List.mem_cons.1 hx with rfl | hx
        · have hall : ∀ a ∈ c :: d :: r, lineOf a.1 = lineOf d.1 := fun a ha => by
            rcases List.mem_cons.1 ha with rfl | ha
            · exact hline
            · exact hdr d List.mem_cons_self a ha
          exact fun a ha b hb => (hall b hb).trans (hall a ha).symm
        · exact ih x (List.mem_cons_of_mem _ hx)
      · intro x hx
        rcases List.mem_cons.1 hx with rfl | hx
        · intro a ha b hb
          rw [List.mem_singleton.1 ha, List.mem_singleton.1 hb]
        · exact ih x hx
    · intro x hx a ha b hb
      obtain rfl := List.mem_singleton.1 hx
      rw [List.mem_singleton.1 ha, List.mem_singleton.1 hb]

/-- Runs of cells with rising addresses are in rising lines. -/
theorem lineRuns_rise {cells : List (Nat × Byte)} (h : cells.Pairwise (fun c d => c.1 < d.1)) : (lineRuns cells).Pairwise LinesRise := by
  induction cells with
  | nil => simp [lineRuns]
  | cons c cs ih =>
    obtain ⟨hc, hcs⟩ := List.pairwise_cons.1 h
    have hle : ∀ d ∈ (lineRuns cs).flatten, lineOf c.1 ≤ lineOf d.1 := fun d hd =>
      Nat.div_le_div_right (Nat.le_of_lt (hc d (lineRuns_flatten cs ▸ hd)))
    have ih := ih hcs
    have hone := lineRuns_oneLine cs
    unfold lineRuns
    split
    · next d r rs hr =>
      rw [hr] at ih hone hle
      obtain ⟨hdr, hrs⟩ := List.pairwise_cons.1 ih
      split
      · next hline =>
        refine List.pairwise_cons.2 ⟨fun r' hr' a ha e he => ?_, hrs⟩
        rcases List.mem_cons.1 ha with rfl | ha
        · rw [hline]
          exact hdr r' hr' d List.mem_cons_self e he
        · exact hdr r' hr' a ha e he
      · next hline =>
        refine List.pairwise_cons.2 ⟨fun r' hr' a ha e he => ?_, ih⟩
        obtain rfl := List.mem_singleton.1 ha
        have had : lineOf a.1 ≤ lineOf d.1 := hle d (by simp)
        rcases List.mem_cons.1 hr' with rfl | hr'
        · rw [hone _ List.mem_cons_self d List.mem_cons_self e he]
          omega
        · have := hdr r' hr' d List.mem_cons_self e he
          omega
    · exact List.pairwise_singleton _ _

theorem mem_cellsAt {pa : Nat} {bs : List Byte} {c : Nat × Byte} (h : c ∈ cellsAt pa bs) :
    ∃ k, k < bs.length ∧ c.1 = pa + k := by
  obtain ⟨k, hk, rfl⟩ := List.mem_iff_getElem.1 h
  have hlen : k < bs.length := by simpa [cellsAt, rangeFrom] using hk
  exact ⟨k, hlen, by simp [cellsAt, rangeFrom]⟩

theorem mem_cellsAt_of_lt (pa : Nat) {bs : List Byte} {k : Nat} (hk : k < bs.length) : (pa + k, bs[k]) ∈ cellsAt pa bs :=
  List.mem_iff_getElem.2 ⟨k, by simpa [cellsAt, rangeFrom] using hk, by simp [cellsAt, rangeFrom]⟩

theorem cellsAt_rise (pa : Nat) (bs : List Byte) : (cellsAt pa bs).Pairwise (fun c d => c.1 < d.1) := by
  rw [List.pairwise_iff_getElem]
  intro i j hi hj hij
  simpa [cellsAt, rangeFrom] using hij

/-! ## Zones -/

/-- Bytes of memory that some stores of a core may change, in a device whose migrations forward as `fwd`; `line` are the lines of the
core's L1 that may be displaced. -/
structure Zone where
  core : Nat
  fwd : Nat → Nat
  byte : Nat → Prop
  line : Nat → Prop

/-- Where a write goes, by the `attr` of its page (R194, R203). -/
def Zone.target (z : Zone) (attr a : Nat) : Nat := if attr = 3 then a else z.fwd a

/-- In this state, what may be lost and what displaced lines may write back lies in the zone. -/
structure State.Within (s : State) (z : Zone) : Prop where
  wf : Memory.wf s.mem = true
  fwd : ∀ a, s.fwd a = z.fwd a
  lost : ∀ a, s.Lost a → z.byte a
  back : ∀ b ∈ (s.core z.core).self, b.dirty = true → z.line (lineOf b.pa) → z.byte (z.fwd b.pa)

/-- What decides at a home whether a write is performed, but for the migrations and the writes that wait. -/
def State.gates (s : State) : List Nat × List Nat × List Nat × List Sub := (s.fencemap, s.gone, s.hostLines, s.subs)

/-- What of a state a write at a home reads, beside the cores and the word in issue. -/
def State.homes (s : State) : Memory × List (Nat × Byte × Nat) × List Nat × List Nat × List Migration × List HeldWrite ×
    (List Nat × List Nat × List Nat × List Sub) :=
  (s.mem, s.stale, s.poisoned, s.dirtyBad, s.migrations, s.pushq, s.gates)

/-- From a state within a zone to another nothing outside the zone has changed, and no home holds more lines. -/
structure Zone.Keeps (z : Zone) (s s' : State) : Prop where
  within : s'.Within z
  mem : ∀ a, ¬ z.byte a → s'.mem.read a = s.mem.read a
  good : ∀ a, ¬ z.byte a → s.bad a = false → s'.bad a = false
  gates : s'.gates = s.gates
  migr : s'.migrations.map Migration.unheld = s.migrations.map Migration.unheld
  queue : s.migrations = [] → s.subs = [] → ∀ l, s'.pushHeldLine l = true → s.pushHeldLine l = true

/-- A step from one state to another that keeps to a zone. -/
def Confined (z : Zone) (s s' : State) : Prop := s.Within z → z.Keeps s s'

theorem State.fwd_of_unheld {s s' : State} (h : s'.migrations.map Migration.unheld = s.migrations.map Migration.unheld) (pa : Nat) :
    s'.fwd pa = s.fwd pa := by
  have hfwd (u : State) : u.fwd pa = ((u.migrations.map Migration.unheld).find?
      (fun m => m.switched && decide (m.old ≤ pa) && decide (pa < m.old + m.size))).elim pa (fun m => m.new + (pa - m.old)) := by
    have hcomp : (fun m : Migration => m.switched && decide (m.old ≤ pa) && decide (pa < m.old + m.size)) ∘ Migration.unheld =
        fun m => m.switched && decide (m.old ≤ pa) && decide (pa < m.old + m.size) := rfl
    rw [State.fwd, List.find?_map, hcomp]
    cases u.migrations.find? (fun m => m.switched && decide (m.old ≤ pa) && decide (pa < m.old + m.size)) <;> rfl
  rw [hfwd, hfwd, h]

theorem State.fenced_of_gates {s s' : State} (h : s'.gates = s.gates) (pa : Nat) : s'.fenced pa = s.fenced pa := by
  simp only [State.gates, Prod.mk.injEq] at h
  rw [State.fenced, State.fenced, h.1, h.2.1]

/-- A byte that is not uncorrectable is in no fenced channel. -/
theorem State.fenced_of_good {s : State} {a : Nat} (h : s.bad a = false) : s.fenced a = false := by
  unfold State.bad State.homeBad at h
  split at h <;> exact (Bool.or_eq_false_iff.1 h).2

/-- What a step does to the bytes that the L1s and the homes hold. -/
structure Zone.Bytes (z : Zone) (s s' : State) : Prop where
  wf : Memory.wf s'.mem = true
  mem : ∀ a, ¬ z.byte a → s'.mem.read a = s.mem.read a
  stale : ∀ e ∈ s'.stale, z.byte e.1 ∨ ∃ d ∈ s.stale, d.1 = e.1
  dirtyBad : ∀ a ∈ s'.dirtyBad, a ∈ s.dirtyBad
  poisoned : ∀ a ∈ s'.poisoned, ¬ z.byte a → a ∈ s.poisoned ∧ ((∃ d ∈ s.stale, d.1 = a) → ∃ e ∈ s'.stale, e.1 = a)

theorem Zone.Bytes.good {z : Zone} {s s' : State} (h : z.Bytes s s') (hg : s'.gates = s.gates) (hlost : ∀ a, s'.Lost a → z.byte a) {a : Nat}
    (ha : ¬ z.byte a) (hgood : s.bad a = false) : s'.bad a = false := by
  have hfence : s'.fenced a = false := (State.fenced_of_gates hg a).trans (State.fenced_of_good hgood)
  unfold State.bad State.homeBad
  rw [hfence, Bool.or_false, Bool.or_false]
  split
  · next hst =>
    obtain ⟨e, he, hea⟩ := List.any_eq_true.1 hst
    obtain rfl : e.1 = a := by simpa using hea
    exact Bool.eq_false_iff.2 fun hbad => ha (hlost e.1 ⟨e, he, rfl, .inr (by simpa using hbad)⟩)
  · next hst =>
    refine Bool.eq_false_iff.2 fun hpois => ?_
    obtain ⟨hmem, hkept⟩ := h.poisoned a (by simpa using hpois) ha
    have hno : ¬ ∃ d ∈ s.stale, d.1 = a := fun hd => hst (by simpa [List.any_eq_true] using hkept hd)
    have hnone : s.stale.any (fun e => e.1 == a) = false := by
      rw [List.any_eq_false]
      exact fun e he hea => hno ⟨e, he, by simpa using hea⟩
    rw [State.bad, hnone, State.homeBad] at hgood
    simp [hmem] at hgood

section
variable {z : Zone}

namespace Confined

theorem refl (s : State) : Confined z s s := fun h => ⟨h, fun _ _ => rfl, fun _ _ h => h, rfl, rfl, fun _ _ _ h => h⟩

theorem trans {s s' s'' : State} (h1 : Confined z s s') (h2 : Confined z s' s'') : Confined z s s'' := fun h => by
  have k1 := h1 h
  have k2 := h2 k1.within
  refine ⟨k2.within, fun a ha => (k2.mem a ha).trans (k1.mem a ha), fun a ha hg => k2.good a ha (k1.good a ha hg), k2.gates.trans k1.gates,
    k2.migr.trans k1.migr, fun hm hs l hl => k1.queue hm hs l (k2.queue ?_ ?_ l hl)⟩
  · have hmap := k1.migr
    rw [hm] at hmap
    exact List.map_eq_nil_iff.1 hmap
  · have hsubs : s'.subs = s.subs := congrArg (·.2.2.2) k1.gates
    rw [hsubs, hs]

theorem foldl {β : Type} {f : State → β → State} (l : List β) (step : ∀ s, ∀ x ∈ l, Confined z s (f s x)) (s : State) :
    Confined z s (l.foldl f s) := by
  induction l generalizing s with
  | nil => exact refl s
  | cons x l ih => exact (step s x List.mem_cons_self).trans (ih (fun s y hy => step s y (List.mem_cons_of_mem x hy)) _)

/-- A step by what it does to the bytes, to the core's own bytes and to the writes that wait. -/
theorem of_bytes {s s' : State} (hgates : s'.gates = s.gates)
    (hmigr : s'.migrations.map Migration.unheld = s.migrations.map Migration.unheld)
    (hqueue : s.migrations = [] → s.subs = [] → ∀ l, s'.pushHeldLine l = true → s.pushHeldLine l = true)
    (hself : ∀ b ∈ (s'.core z.core).self, b.dirty = true →
      z.byte (z.fwd b.pa) ∨ ∃ a ∈ (s.core z.core).self, a.dirty = true ∧ a.pa = b.pa)
    (hbytes : s.Within z → z.Bytes s s') : Confined z s s' := fun h => by
  have hb := hbytes h
  have hlost : ∀ a, s'.Lost a → z.byte a := by
    rintro a ⟨e, he, rfl, hcause⟩
    rcases hb.stale e he with hz | ⟨d, hd, hde⟩
    · exact hz
    · refine h.lost e.1 ⟨d, hd, hde, ?_⟩
      rw [hde]
      exact hcause.imp (fun hf => State.fenced_of_gates hgates e.1 ▸ hf) (hb.dirtyBad e.1)
  refine ⟨⟨hb.wf, fun a => (State.fwd_of_unheld hmigr a).trans (h.fwd a), hlost, fun b hmem hd hl => ?_⟩, hb.mem,
    fun a ha hg => hb.good hgates hlost ha hg, hgates, hmigr, hqueue⟩
  rcases hself b hmem hd with hz | ⟨a, ha, had, hpa⟩
  · exact hz
  · exact hpa ▸ h.back a ha had (hpa ▸ hl)

/-- A step that changes of the bytes none but those of the cores. -/
theorem of_homes {s s' : State} (h : s'.homes = s.homes) (hself : ∀ b ∈ (s'.core z.core).self, b.dirty = true →
    z.byte (z.fwd b.pa) ∨ ∃ a ∈ (s.core z.core).self, a.dirty = true ∧ a.pa = b.pa) : Confined z s s' := by
  simp only [State.homes, Prod.mk.injEq] at h
  obtain ⟨hmem, hstale, hpois, hbad, hmigr, hpushq, hgates⟩ := h
  refine of_bytes hgates (by rw [hmigr]) (fun _ _ l hl => ?_) hself (fun hw => ⟨hmem ▸ hw.wf, fun a _ => by rw [hmem],
    fun e he => .inr ⟨e, hstale ▸ he, rfl⟩, fun a ha => hbad ▸ ha, fun a ha _ => ⟨hpois ▸ ha, fun hd => hstale ▸ hd⟩⟩)
  simpa only [State.pushHeldLine, State.fwd, hpushq, hmigr] using hl

/-- A step that changes no byte. -/
theorem of_same {s s' : State} (h : s'.homes = s.homes) (hc : s'.cores = s.cores) : Confined z s s' :=
  of_homes h fun b hb hd => .inr ⟨b, by rwa [State.core, ← hc], hd, rfl⟩

theorem modCore (s : State) (n : Nat) {f : Core → Core} (hf : ∀ b ∈ (f (s.core z.core)).self, b.dirty = true →
    z.byte (z.fwd b.pa) ∨ ∃ a ∈ (s.core z.core).self, a.dirty = true ∧ a.pa = b.pa) : Confined z s (s.modCore n f) := by
  refine of_homes rfl fun b hb hd => ?_
  by_cases hn : z.core = n
  · subst hn
    rw [State.core_modCore_self] at hb
    exact hf b hb hd
  · rw [State.core_modCore_ne s f hn] at hb
    exact .inr ⟨b, hb, hd, rfl⟩

theorem modCore_self (s : State) (n : Nat) {f : Core → Core} (hf : ∀ c, (f c).self = c.self) : Confined z s (s.modCore n f) :=
  modCore s n fun b hb hd => .inr ⟨b, hf _ ▸ hb, hd, rfl⟩

theorem modCore_filter (s : State) (n : Nat) {f : Core → Core} {p : SelfByte → Bool} (hf : ∀ c, (f c).self = c.self.filter p) :
    Confined z s (s.modCore n f) :=
  modCore s n fun b hb hd => .inr ⟨b, List.mem_of_mem_filter (hf _ ▸ hb), hd, rfl⟩

/-- Tags alone go from the cores. -/
theorem drop_tags {s s' : State} {f : Core → Core} (h : s'.homes = s.homes) (hc : s'.cores = s.cores.map f)
    (hn : ∀ c, (f c).num = c.num) (hf : ∀ c, (f c).self = c.self) : Confined z s s' := by
  refine of_homes h fun b hb hd => .inr ⟨b, ?_, hd, rfl⟩
  have hfind : (s.cores.map f).find? (fun c => c.num == z.core) = (s.cores.find? (fun c => c.num == z.core)).map f := by
    rw [List.find?_map]
    exact congrArg (Option.map f) (congrArg (s.cores.find? ·) (funext fun c => by simp [hn]))
  rw [State.core, hc, hfind] at hb
  rw [State.core]
  cases hcore : s.cores.find? (fun c => c.num == z.core) with
  | none =>
    rw [hcore] at hb
    exact hb
  | some c =>
    rw [hcore] at hb
    exact hf c ▸ hb

theorem count (s : State) (w reg n : Nat) : Confined z s (s.count w reg n) := of_same rfl rfl

/-- Dirty copies go home: what is lost uncovers the home's value, in the zone. -/
theorem giveBack (s : State) (p : Nat × Byte × Nat → Bool) : Confined z s (s.giveBack p) := by
  unfold State.giveBack
  extract_lets out lost isLost s1
  have hlost : ∀ e ∈ lost, s.Lost e.1 := fun e he => by
    obtain ⟨hout, hcause⟩ := List.mem_filter.1 he
    exact ⟨e, List.mem_of_mem_filter hout, rfl, by simpa using hcause⟩
  have h1 : Confined z s s1 := by
    refine of_bytes rfl rfl (fun _ _ _ hl => hl) (fun b hb hd => .inr ⟨b, hb, hd, rfl⟩) fun hw => ⟨?_, fun a ha => ?_,
      fun e he => .inr ⟨e, List.mem_of_mem_filter he, rfl⟩, fun a ha => List.mem_of_mem_filter ha, fun a ha hz => ?_⟩
    · exact Memory.foldl_write_wf _ _ lost hw.wf
    · exact Memory.read_foldl_write_ne _ _ lost hw.wf fun e he hae => ha (hae ▸ hw.lost e.1 (hlost e he))
    · obtain ⟨hmem, hkept⟩ := List.mem_filter.1 ha
      refine ⟨hmem, fun ⟨d, hd, hda⟩ => ?_⟩
      by_cases hp : p d = true
      · have hout : out.any (fun e => e.1 == a) = true := List.any_eq_true.2 ⟨d, List.mem_filter.2 ⟨hd, hp⟩, by simpa using hda⟩
        have hisLost : isLost a = true := by
          rw [hout] at hkept
          simpa using hkept
        obtain ⟨e, he, hea⟩ := List.any_eq_true.1 hisLost
        obtain rfl : e.1 = a := by simpa using hea
        exact absurd (hw.lost _ (hlost e he)) hz
      · exact ⟨d, List.mem_filter.2 ⟨hd, by simpa using hp⟩, hda⟩
  exact h1.trans (foldl _ (fun s _ _ => count s _ _ _) s1)

theorem recallLine (s : State) (pa : Nat) : Confined z s (s.recallLine pa) :=
  (giveBack s _).trans (drop_tags (f := fun c => { c with tags := c.tags.filter (fun x => x.line != lineOf pa || c.holdsSelf x.line) })
    rfl rfl (fun _ => rfl) (fun _ => rfl))

theorem regionDrop (s : State) (r : Region) (core : Option Nat) : Confined z s (s.regionDrop r core) :=
  (giveBack s _).trans (drop_tags rfl rfl (fun c => by split <;> rfl) (fun c => by split <;> rfl))

theorem recallAll (s : State) (pa : Nat) : Confined z s (s.recallAll pa) := by
  unfold State.recallAll
  refine Confined.trans ?_ (recallLine _ pa)
  split
  · exact (regionDrop s _ _).trans (of_same rfl rfl)
  · exact refl s

theorem regionStore (s : State) (core pa : Nat) (stays : Bool) : Confined z s (s.regionStore core pa stays) := by
  unfold State.regionStore
  extract_lets r line now conflict h rs s1 after
  refine Confined.trans (s' := s1) ?_ (of_same rfl rfl)
  unfold s1
  split
  · exact regionDrop s _ _
  · exact refl s

theorem unverify (s : State) (pa : Nat) : Confined z s (s.unverify pa) := by
  unfold State.unverify
  split
  · exact refl s
  · exact of_same rfl rfl

theorem noticed (s : State) (pas : List Nat) : Confined z s (s.noticed pas) := by
  unfold State.noticed
  split
  · exact of_same rfl rfl
  · exact refl s

theorem wrote (s : State) (after pas : List Nat) : Confined z s (s.wrote after pas) := by
  have hpush (s : State) (after : List Nat) : Confined z s (s.pushesAt after pas) := by
    refine foldl _ (fun s x _ => ?_) s
    split
    · extract_lets fl bad s1
      have h1 : Confined z s s1 := of_same rfl rfl
      split
      · exact h1.trans (of_same rfl rfl)
      · exact h1
    · exact refl s
  unfold State.wrote
  extract_lets behind s1 ids
  have h1 : Confined z s s1 := hpush s behind
  split
  · exact h1
  · exact h1.trans (of_same rfl rfl)

/-! ## Writes at homes -/

/-- A byte of the zone is written at its home. -/
theorem write_mem (s : State) {pa : Nat} (hpa : z.byte pa) (v : Byte) : Confined z s { s with mem := s.mem.write pa v } :=
  of_bytes rfl rfl (fun _ _ _ hl => hl) (fun b hb hd => .inr ⟨b, hb, hd, rfl⟩) fun hw => ⟨Memory.write_wf pa v hw.wf,
    fun _ ha => Memory.read_write_ne v hw.wf fun h => ha (h ▸ hpa), fun e he => .inr ⟨e, he, rfl⟩, fun _ ha => ha,
    fun _ ha _ => ⟨ha, id⟩⟩

theorem homePut (s : State) {pa : Nat} (hpa : z.byte pa) (v : Byte) : Confined z s (s.homePut pa v) := by
  unfold State.homePut
  split
  · exact refl s
  · refine (unverify s pa).trans ?_
    extract_lets s1 s2
    have h2 : Confined z s1 s2 :=
      of_bytes rfl rfl (fun _ _ _ hl => hl) (fun b hb hd => .inr ⟨b, hb, hd, rfl⟩) fun hw => ⟨hw.wf, fun _ _ => rfl,
        fun e he => .inr ⟨e, he, rfl⟩, fun _ ha => ha, fun _ ha _ => ⟨List.mem_of_mem_filter ha, id⟩⟩
    split
    · refine h2.trans (of_bytes rfl rfl (fun _ _ _ hl => hl) (fun b hb hd => .inr ⟨b, hb, hd, rfl⟩) fun hw => ⟨hw.wf, fun _ _ => rfl,
        fun e he => ?_, fun _ ha => ha, fun _ ha _ => ⟨ha, fun ⟨d, hd, hda⟩ => ?_⟩⟩)
      · obtain ⟨d, hd, rfl⟩ := List.mem_map.1 he
        split
        · exact .inl hpa
        · exact .inr ⟨d, hd, rfl⟩
      · refine ⟨_, List.mem_map.2 ⟨d, hd, rfl⟩, ?_⟩
        split
        · next h => exact h.symm.trans hda
        · exact hda
    · exact h2.trans (write_mem s2 hpa v)

theorem putCells (s : State) (attr : Nat) {cells : List (Nat × Byte)} (hz : ∀ c ∈ cells, z.byte (z.target attr c.1)) :
    Confined z s (s.putCells attr cells) := by
  induction cells generalizing s with
  | nil => exact refl s
  | cons c cs ih =>
    intro hw
    have htarget : s.target attr c.1 = z.target attr c.1 := by rw [State.target, Zone.target, hw.fwd]
    have hput : Confined z s (s.homePut (s.target attr c.1) c.2) := homePut s (htarget ▸ hz c List.mem_cons_self) c.2
    exact (hput.trans (ih _ fun d hd => hz d (List.mem_cons_of_mem c hd))) hw

theorem perform (s : State) (h : HeldWrite) (hz : ∀ c ∈ h.cells, z.byte (z.target h.attr c.1)) : Confined z s (s.perform h) := by
  unfold State.perform
  extract_lets s0 s1
  have h0 : Confined z s s0 := by
    unfold s0
    split
    · cases h.cells with
      | nil => exact refl s
      | cons c cs => exact recallAll s _
    · exact refl s
  have h1 : Confined z s s1 := (h0.trans (putCells s0 _ hz)).trans (noticed _ _)
  split
  · exact h1.trans (wrote _ _ _)
  · exact h1

theorem holdWrite (s : State) (h : HeldWrite) (pa : Nat) : Confined z s (s.holdWrite h pa) := by
  have hmigr := (AtHomes.holdWrite s h pa).migr
  refine of_bytes rfl hmigr (fun hm _ l hl => ?_) (fun b hb hd => .inr ⟨b, hb, hd, rfl⟩) fun hw => ⟨hw.wf, fun _ _ => rfl,
    fun e he => .inr ⟨e, he, rfl⟩, fun _ ha => ha, fun _ ha _ => ⟨ha, id⟩⟩
  simp only [State.pushHeldLine, State.fwd_of_unheld hmigr] at hl ⊢
  exact hl

theorem snoopWrite (s : State) (h : HeldWrite) (line : Nat) : Confined z s (s.snoopWrite h line) := by
  have hsend : Confined z s (s.sendSnoop line) := by
    unfold State.sendSnoop
    split
    · exact refl s
    · exact of_same rfl rfl
  exact hsend.trans (of_same rfl rfl)

/-- A write that waits for room makes its home hold no line that it did not hold: without migrations all its cells are in that line. -/
theorem queued {s : State} {h : HeldWrite} {c : Nat × Byte} (hone : ∀ d ∈ h.cells, lineOf d.1 = lineOf c.1)
    (hheld : s.subs = [] → s.pushHeldLine (lineOf (s.fwd c.1)) = true) : Confined z s { s with pushq := s.pushq ++ [h] } := by
  refine of_bytes rfl rfl (fun hm hs l hl => ?_) (fun b hb hd => .inr ⟨b, hb, hd, rfl⟩) fun hw => ⟨hw.wf, fun _ _ => rfl,
    fun e he => .inr ⟨e, he, rfl⟩, fun _ ha => ha, fun _ ha _ => ⟨ha, id⟩⟩
  have hfwd (a : Nat) : s.fwd a = a := by simp [State.fwd, hm]
  have hall : s.pushHeldLine l = true ∨ h.cells.any (fun c => lineOf (s.fwd c.1) == l) = true := by
    have hany : ((s.pushq ++ [h]).any fun h => h.cells.any fun c => lineOf (s.fwd c.1) == l) = true := hl
    rwa [List.any_append, List.any_cons, List.any_nil, Bool.or_false, Bool.or_eq_true] at hany
  rcases hall with hold | hnew
  · exact hold
  · obtain ⟨d, hd, hline⟩ := List.any_eq_true.1 hnew
    have hl' : l = lineOf (s.fwd c.1) := by
      rw [hfwd, beq_iff_eq] at hline
      rw [hfwd, ← hone d hd, hline]
    rw [hl']
    exact hheld hs

theorem writeLine (s : State) (h : HeldWrite) (hone : OneLine h.cells)
    (hz : ∀ c ∈ h.cells, z.byte (z.target h.attr c.1)) : Confined z s (s.writeLine h) := by
  unfold State.writeLine
  split
  · exact refl s
  · next c cs hcells =>
    have hc : c ∈ h.cells := hcells ▸ List.mem_cons_self
    extract_lets p
    split
    · exact count s _ _ _
    · split
      · exact holdWrite s h _
      · split
        · exact snoopWrite s h _
        · split
          · next hroom =>
            refine queued (hone c hc) fun hsubs => ?_
            have hnone (pas : List Nat) : s.noPushRoom pas = false := by simp [State.noPushRoom, hsubs]
            rw [hnone] at hroom
            simp only [Bool.and_eq_true, decide_eq_true_eq, Bool.and_false, Bool.or_false] at hroom
            have hp : p = s.fwd c.1 := if_neg hroom.1
            exact hp ▸ hroom.2
          · exact perform s h hz

end Confined
end

/-! ## Stores of a core -/

theorem mem_of_mem_insBy {α : Type} {before : α → α → Bool} {x a : α} {l : List α} (h : a ∈ insBy before x l) : a = x ∨ a ∈ l := by
  induction l with
  | nil => exact .inl (List.mem_singleton.1 h)
  | cons y l ih =>
    unfold insBy at h
    split at h
    · exact List.mem_cons.1 h
    · rcases List.mem_cons.1 h with rfl | h
      · exact .inr List.mem_cons_self
      · exact (ih h).imp_right (List.mem_cons_of_mem y)

theorem mem_of_mem_sortBy {α : Type} {before : α → α → Bool} {a : α} {l : List α} (h : a ∈ sortBy before l) : a ∈ l := by
  induction l with
  | nil => exact h
  | cons y l ih =>
    rcases mem_of_mem_insBy h with rfl | h
    · exact List.mem_cons_self
    · exact List.mem_cons_of_mem y (ih h)

/-- An address that a core may store to: it lies in the zone, and so does all that its line may displace. -/
structure Zone.Allows (z : Zone) (a : Nat) : Prop where
  here : z.byte a
  there : z.byte (z.fwd a)
  line : ∀ l, l % 128 = lineOf a % 128 ∨ l % 128 = lineOf (z.fwd a) % 128 → z.line l

theorem Zone.Allows.target {z : Zone} {a : Nat} (h : z.Allows a) (attr : Nat) : z.byte (z.target attr a) := by
  unfold Zone.target
  split
  · exact h.here
  · exact h.there

section
variable {z : Zone}

namespace Confined

theorem writeCells (s : State) (core : Option Nat) (attr : Nat) (push : Bool) {cells : List (Nat × Byte)}
    (hz : ∀ c ∈ cells, z.byte (z.target attr c.1)) : Confined z s (s.writeCells core attr push cells) :=
  foldl _ (fun s r hr => writeLine s _ (lineRuns_oneLine cells r hr)
    fun c hc => hz c (lineRuns_flatten cells ▸ List.mem_flatten_of_mem hr hc)) s

/-- The stores that a core's line has still to send home go into the zone. -/
theorem selfOut (s : State) {line : Nat} (hline : z.line line) (ids : List Nat) : Confined z s (s.selfOut z.core line ids) := by
  induction ids generalizing s with
  | nil => exact refl s
  | cons id ids ih =>
    unfold State.selfOut
    extract_lets mine cells s1
    split
    · exact refl s
    · intro hw
      have hcells : ∀ c ∈ cells, lineOf c.1 = line ∧ z.byte (z.fwd c.1) := fun c hc => by
        obtain ⟨x, hx, rfl⟩ := List.mem_map.1 (mem_of_mem_sortBy hc)
        obtain ⟨b, hb, hx⟩ := List.mem_flatMap.1 hx
        obtain ⟨y, hy, rfl⟩ := List.mem_map.1 hx
        obtain ⟨hbself, hbline⟩ := List.mem_filter.1 hb
        have hbline : lineOf b.pa = line := by simpa using hbline
        have hdirty : b.dirty = true := by
          simpa [SelfByte.dirty] using List.ne_nil_of_mem (List.mem_of_mem_filter hy)
        exact ⟨hbline, hw.back b hbself hdirty (hbline.symm ▸ hline)⟩
      have h1 : Confined z s s1 := modCore s z.core fun b hb hd => by
        obtain ⟨a, ha, rfl⟩ := List.mem_map.1 hb
        refine .inr ⟨a, ha, ?_, rfl⟩
        simp only [SelfByte.dirty, Bool.not_eq_true', List.isEmpty_eq_false_iff] at hd ⊢
        exact fun hnil => hd (by rw [hnil]; rfl)
      have h2 := writeLine s1 ⟨cells, some z.core, mine.any (·.2.push), 1, mine.flatMap (·.2.after)⟩
        (fun c hc d hd => (hcells d hd).1.trans (hcells c hc).1.symm) (fun c hc => (hcells c hc).2)
      exact ((h1.trans h2).trans (ih _)) hw

theorem writeBack (s : State) {line : Nat} (hline : z.line line) : Confined z s (s.writeBack z.core line) := by
  unfold State.writeBack
  extract_lets s0 lost s1
  have h0 : Confined z s s0 := giveBack s _
  have h1 : Confined z s0 s1 := by
    unfold s1
    split
    · exact (modCore_filter _ _ (p := fun b => !lost b) fun _ => rfl).trans (count _ _ _ _)
    · exact refl _
  exact (h0.trans h1).trans (selfOut _ hline _)

theorem dropLine (s : State) {line : Nat} (hline : z.line line) : Confined z s (s.dropLine z.core line) :=
  (writeBack s hline).trans (modCore_filter _ _ (p := fun b => lineOf b.pa != line || b.dirty) fun _ => rfl)

theorem touchLine (s : State) {pa : Nat} (hline : ∀ l, l % 128 = lineOf pa % 128 → z.line l) (hint : Bool) :
    Confined z s (s.touchLine z.core pa hint) := by
  unfold State.touchLine
  extract_lets line c inSet place
  have hplace (s : State) (g : Nat) : Confined z s (place s g) := modCore_self s _ fun _ => rfl
  split
  · exact modCore_self s _ fun _ => rfl
  · split
    · exact hplace s _
    · split
      · next v hv =>
        have hset := (List.mem_filter.1 (List.mem_of_getLast? hv)).2
        exact (dropLine s (hline v.line (by simpa using hset))).trans (hplace _ _)
      · exact refl s

theorem dirStore (s : State) (core : Nat) {pa : Nat} (hpa : z.byte pa) (v : Byte) : Confined z s (s.dirStore core pa v) := by
  unfold State.dirStore
  split
  · exact (giveBack s _).trans (homePut _ hpa v)
  · extract_lets s1 s2 s3
    have h1 : Confined z s s1 := (unverify s pa).trans (giveBack _ _)
    have hclean : Confined z s1 { s1 with dirtyBad := s1.dirtyBad.filter (fun a => a != pa) } :=
      of_bytes rfl rfl (fun _ _ _ hl => hl) (fun b hb hd => .inr ⟨b, hb, hd, rfl⟩) fun hw => ⟨hw.wf, fun _ _ => rfl,
        fun e he => .inr ⟨e, he, rfl⟩, fun _ ha => List.mem_of_mem_filter ha, fun _ ha _ => ⟨ha, id⟩⟩
    have h2 : Confined z s1 s2 :=
      hclean.trans (drop_tags rfl rfl (fun c => by split <;> rfl) (fun c => by split <;> rfl))
    have h3 : Confined z s2 s3 := by
      unfold s3
      split
      · exact refl s2
      · refine of_bytes rfl rfl (fun _ _ _ hl => hl) (fun b hb hd => .inr ⟨b, hb, hd, rfl⟩) fun hw => ⟨hw.wf, fun _ _ => rfl,
          fun e he => ?_, fun _ ha => ha, fun _ ha _ => ⟨ha, fun ⟨d, hd, hda⟩ => ⟨d, List.mem_append_left _ hd, hda⟩⟩⟩
        rcases List.mem_append.1 he with he | he
        · exact .inr ⟨e, he, rfl⟩
        · rw [List.mem_singleton.1 he]
          exact .inl hpa
    exact ((h1.trans h2).trans h3).trans (write_mem s3 hpa v)

theorem selfStore (s : State) {pa : Nat} (hpa : z.byte (z.fwd pa)) (v : Byte) (push : Bool) (id : Nat) :
    Confined z s (s.selfStore z.core pa v push id) := by
  refine modCore s z.core fun b hb hd => ?_
  rcases List.mem_cons.1 hb with rfl | hb
  · exact .inl hpa
  · exact .inr ⟨b, List.mem_of_mem_filter hb, hd, rfl⟩

theorem storeLine (s : State) (attr : Nat) (hint push : Bool) {cells : List (Nat × Byte)} (hone : OneLine cells)
    (hz : ∀ c ∈ cells, z.Allows c.1) : Confined z s (s.storeLine z.core attr hint push cells) := by
  unfold State.storeLine
  split
  · exact refl s
  · next c cs =>
    have hc := hz c List.mem_cons_self
    extract_lets p pas s1
    intro hw
    split
    · have htick : Confined z s s.tick := of_same rfl rfl
      exact ((htick.trans (touchLine _ (fun l hl => hc.line l (.inl hl)) hint)).trans
        (foldl _ (fun s x hx => selfStore s (hz x hx).there x.2 push _) _)) hw
    · split
      · have htouch : Confined z s ((s.regionStore z.core p true).touchLine z.core p hint) :=
          (regionStore s _ p true).trans (touchLine _ (fun l hl => hc.line l (.inr (hw.fwd c.1 ▸ hl))) hint)
        have hstore (u : State) (x : Nat × Byte) (hx : x ∈ c :: cs) : Confined z u (u.dirStore z.core (u.fwd x.1) x.2) := fun hu =>
          dirStore u z.core (hu.fwd x.1 ▸ (hz x hx).there) x.2 hu
        have h1 : Confined z s s1 := (htouch.trans (foldl _ hstore _)).trans (noticed _ _)
        split
        · exact (h1.trans (wrote _ _ _)) hw
        · exact h1 hw
      · exact writeLine s ⟨c :: cs, some z.core, push, attr, s.writerAfter⟩ hone (fun x hx => (hz x hx).target attr) hw

theorem storePart (s : State) (attr pa : Nat) (bs : List Byte) (hint push : Bool) (hz : ∀ k, k < bs.length → z.Allows (pa + k)) :
    Confined z s (s.storePart z.core attr pa bs hint push) := by
  refine foldl _ (fun s r hr => storeLine s attr hint push (lineRuns_oneLine _ r hr) fun c hc => ?_) s
  obtain ⟨k, hk, hpa⟩ := mem_cellsAt (lineRuns_flatten (cellsAt pa bs) ▸ List.mem_flatten_of_mem hr hc)
  exact hpa ▸ hz k hk

/-- A store element changes what its parts' bytes allow. -/
theorem storeElem (s : State) (hint push : Bool) (ps : List Part) (bs : List Byte)
    (hz : ∀ p ∈ ps, ∀ k, k < p.n → z.Allows (p.x.pa + k)) : Confined z s (s.storeElem z.core hint push ps bs) := by
  induction ps generalizing s bs with
  | nil => exact refl s
  | cons p ps ih =>
    unfold State.storeElem
    extract_lets s1
    have hp : ∀ k, k < (bs.take p.n).length → z.Allows (p.x.pa + k) := fun k hk =>
      hz p List.mem_cons_self k (lt_of_lt_of_le hk (List.length_take_le _ _))
    refine Confined.trans (s' := s1) ?_ (ih _ _ fun q hq => hz q (List.mem_cons_of_mem p hq))
    unfold s1
    split
    · exact count s _ _ _
    · split
      · refine writeCells s _ 3 false fun c hc => ?_
        obtain ⟨k, hk, hpa⟩ := mem_cellsAt hc
        exact hpa ▸ (hp k hk).here
      · exact storePart s _ _ _ hint push hp

end Confined
end

/-! ## Bytes stored through a `DIR` page read back -/

/-- What a core's stores to some bytes may change from a state on, where displaced lines may be those given. -/
def State.zoneOf (s : State) (core : Nat) (stored line : Nat → Prop) : Zone where
  core := core
  fwd := s.fwd
  byte a := stored a ∨ s.Lost a ∨ ∃ b ∈ (s.core core).self, b.dirty = true ∧ line (lineOf b.pa) ∧ s.fwd b.pa = a
  line := line

theorem State.within_zoneOf {s : State} (h : Memory.wf s.mem = true) (core : Nat) (stored line : Nat → Prop) :
    s.Within (s.zoneOf core stored line) :=
  ⟨h, fun _ => rfl, fun _ hl => .inr (.inl hl), fun b hb hd hl => .inr (.inr ⟨b, hb, hd, hl, rfl⟩)⟩

theorem State.byte_zoneOf {s : State} {core a : Nat} {stored line : Nat → Prop} (h : stored a) : (s.zoneOf core stored line).byte a := .inl h

/-- No migration forwards, no subscription pushes, and memory is in canonical form. -/
structure State.Lone (s : State) : Prop where
  wf : Memory.wf s.mem = true
  migr : s.migrations = []
  subs : s.subs = []

theorem State.Lone.fwd {s : State} (h : s.Lone) (a : Nat) : s.fwd a = a := by
  simp [State.fwd, h.migr]

theorem State.Lone.allows_zoneOf {s : State} (h : s.Lone) {core a : Nat} {stored line : Nat → Prop} (ha : stored a)
    (hl : ∀ l, l % 128 = lineOf a % 128 → line l) : (s.zoneOf core stored line).Allows a := by
  have hfwd : (s.zoneOf core stored line).fwd a = a := h.fwd a
  refine ⟨State.byte_zoneOf ha, State.byte_zoneOf (by rwa [hfwd]), fun l hor => hl l ?_⟩
  rwa [hfwd, or_self] at hor

theorem Zone.Keeps.lone {z : Zone} {s s' : State} (k : z.Keeps s s') (h : s.Lone) : s'.Lone where
  wf := k.within.wf
  migr := List.map_eq_nil_iff.1 (k.migr.trans (by rw [h.migr]; rfl))
  subs := (congrArg (·.2.2.2) k.gates : s'.subs = s.subs).trans h.subs

/-- A write of a byte is performed at once: no home holds it, and its channel is not fenced. -/
def State.Free (s : State) (a : Nat) : Prop := s.writeLocked a = false ∧ s.fenced a = false

theorem Zone.Keeps.free {z : Zone} {s s' : State} (k : z.Keeps s s') (h : s.Lone) {a : Nat} (ha : s.Free a) : s'.Free a := by
  obtain ⟨hlock, hfence⟩ := ha
  refine ⟨?_, (State.fenced_of_gates k.gates a).trans hfence⟩
  have hhost : s'.hostLines = s.hostLines := congrArg (·.2.2.1) k.gates
  simp only [State.writeLocked, State.lockedOld, State.lockedNew, State.hostHeld, h.migr, (k.lone h).migr, h.fwd, (k.lone h).fwd,
    List.any_nil, Bool.false_or, Bool.or_eq_false_iff, hhost] at hlock ⊢
  exact ⟨hlock.1, Bool.eq_false_iff.2 fun hl => Bool.eq_false_iff.1 hlock.2 (k.queue h.migr h.subs _ hl)⟩

/-- A byte reads as a value, and is not uncorrectable. -/
def State.Holds (s : State) (a : Nat) (v : Byte) : Prop := s.mem.read a = v ∧ s.bad a = false

theorem State.Holds.not_lost {s : State} {a : Nat} {v : Byte} (h : s.Holds a v) : ¬ s.Lost a := by
  rintro ⟨e, he, rfl, hcause⟩
  have hbad := h.2
  have hst : s.stale.any (fun d => d.1 == e.1) = true := List.any_eq_true.2 ⟨e, he, beq_self_eq_true _⟩
  rw [State.bad, hst, if_pos rfl, Bool.or_eq_false_iff] at hbad
  rcases hcause with hf | hd
  · rw [hf] at hbad
    exact absurd hbad.2 (by simp)
  · simp [hd] at hbad

/-- A byte held is held on while a step keeps to a zone that it is not in. -/
theorem State.Holds.keep {s s' : State} {a : Nat} {v : Byte} (h : s.Holds a v) {z : Zone} (k : z.Keeps s s') (ha : ¬ z.byte a) :
    s'.Holds a v :=
  ⟨(k.mem a ha).trans h.1, k.good a ha h.2⟩

/-- A byte held is held on by a step of a core's stores to other bytes, if no displaced line holds a store to it. -/
theorem State.Holds.keep_zoneOf {s s' : State} {a core : Nat} {v : Byte} (h : s.Holds a v) (hs : s.Lone) {stored line : Nat → Prop}
    (ha : ¬ stored a) (hl : ¬ line (lineOf a)) (hc : Confined (s.zoneOf core stored line) s s') : s'.Holds a v := by
  refine h.keep (hc (State.within_zoneOf hs.wf core stored line)) ?_
  rintro (hst | hlost | ⟨b, -, -, hline, hpa⟩)
  · exact ha hst
  · exact h.not_lost hlost
  · rw [hs.fwd] at hpa
    exact hl (hpa ▸ hline)

/-- A byte that a core has stored through a `DIR` page is held. -/
theorem State.Lone.dirStore_holds {s : State} (h : s.Lone) {a : Nat} (hf : s.fenced a = false) (core : Nat) (v : Byte) :
    (s.dirStore core a v).Holds a v := by
  have hkeep := Confined.dirStore (z := s.zoneOf core (· = a) (fun _ => False)) s core (.inl rfl) v (State.within_zoneOf h.wf _ _ _)
  have hfence : (s.dirStore core a v).fenced a = false := (State.fenced_of_gates hkeep.gates a).trans hf
  have hback := ((Confined.unverify (z := s.zoneOf core (· = a) (fun _ => False)) s a).trans
    (Confined.giveBack _ (fun e => lineOf e.1 == lineOf a && e.2.2 != core))) (State.within_zoneOf h.wf _ _ _)
  have hsub : s.subscribedLine a = false := by simp [State.subscribedLine, h.subs]
  unfold State.Holds State.bad
  rw [hfence]
  unfold State.dirStore
  rw [hsub, if_neg (by simp)]
  extract_lets s1 s2 s3
  have hs3 : s3.mem = s1.mem ∧ s3.dirtyBad = s1.dirtyBad.filter (fun x => x != a) ∧ s3.stale.any (fun e => e.1 == a) = true := by
    unfold s3
    split
    · next hst => exact ⟨rfl, rfl, hst⟩
    · exact ⟨rfl, rfl, by simp⟩
  obtain ⟨hmem, hbad, hst⟩ := hs3
  refine ⟨Memory.read_write_self a v (hmem ▸ hback.within.wf), ?_⟩
  rw [if_pos hst, hbad]
  simp

theorem State.Lone.dirStores_hold {cells : List (Nat × Byte)} (hnd : (cells.map Prod.fst).Nodup) {s : State} (h : s.Lone)
    (hf : ∀ c ∈ cells, s.fenced c.1 = false) (core : Nat) :
    ∀ c ∈ cells, (cells.foldl (fun s x => s.dirStore core (s.fwd x.1) x.2) s).Holds c.1 c.2 := by
  induction cells generalizing s with
  | nil => simp
  | cons c cs ih =>
    obtain ⟨hc, hnd⟩ := List.nodup_cons.1 hnd
    rw [List.foldl_cons, h.fwd]
    have hkeep := Confined.dirStore (z := s.zoneOf core (· = c.1) (fun _ => False)) s core (.inl rfl) c.2 (State.within_zoneOf h.wf _ _ _)
    have h1 := hkeep.lone h
    have hhold := h.dirStore_holds (hf c List.mem_cons_self) core c.2
    generalize s.dirStore core c.1 c.2 = s1 at hkeep h1 hhold
    intro d hd
    rcases List.mem_cons.1 hd with rfl | hd
    · refine hhold.keep_zoneOf (core := core) h1 (stored := (· ∈ cs.map Prod.fst)) (line := fun _ => False) hc id
        (Confined.foldl _ (fun u x hx hu => ?_) s1)
      refine Confined.dirStore u core ?_ x.2 hu
      have hfwd : u.fwd x.1 = x.1 := (hu.fwd x.1).trans (h1.fwd x.1)
      rw [hfwd]
      exact .inl (List.mem_map_of_mem hx)
    · exact ih hnd h1 (fun x hx => (State.fenced_of_gates hkeep.gates x.1).trans (hf x (List.mem_cons_of_mem c hx))) d hd

theorem State.Lone.lone_dirStores {s : State} (h : s.Lone) (core : Nat) (cells : List (Nat × Byte)) :
    (cells.foldl (fun s x => s.dirStore core (s.fwd x.1) x.2) s).Lone :=
  (Confined.foldl (z := s.zoneOf core (fun _ => True) (fun _ => False)) cells (fun u x _ => Confined.dirStore u core (State.byte_zoneOf trivial) x.2) s
    (State.within_zoneOf h.wf _ _ _)).lone h

/-- The cells of one line that a core stores through a `DIR` page are held, where no home holds them up. -/
theorem State.Lone.storeLine_holds {s : State} (h : s.Lone) {cells : List (Nat × Byte)} (hnd : (cells.map Prod.fst).Nodup)
    (hfree : ∀ c ∈ cells, s.Free c.1) (core : Nat) (hint push : Bool) :
    ∀ c ∈ cells, (s.storeLine core 0 hint push cells).Holds c.1 c.2 := by
  unfold State.storeLine
  split
  · simp
  · next c cs =>
    extract_lets p pas s1
    have hp : p = c.1 := h.fwd c.1
    have hlock : s.cellsLocked (c :: cs) = false := any_eq_false_iff.2 fun x hx => (hfree x hx).1
    have hroom : s.noPushRoom pas = false := by simp [State.noPushRoom, h.subs]
    have hfence : s.fenced p = false := hp ▸ (hfree c List.mem_cons_self).2
    rw [if_neg (by decide), if_pos (by simp [hfence, hlock, hroom])]
    have htouch : Confined (s.zoneOf core (fun _ => False) (fun _ => True)) s ((s.regionStore core p true).touchLine core p hint) :=
      (Confined.regionStore s core p true).trans
        (Confined.touchLine (z := s.zoneOf core (fun _ => False) (fun _ => True)) _ (fun _ _ => trivial) hint)
    have hkeep := htouch (State.within_zoneOf h.wf _ _ _)
    have h1 := hkeep.lone h
    have hhold := h1.dirStores_hold hnd (fun x hx => (State.fenced_of_gates hkeep.gates x.1).trans (hfree x hx).2) core
    intro d hd
    refine (hhold d hd).keep_zoneOf (core := core) (h1.lone_dirStores core (c :: cs)) (stored := fun _ => False)
      (line := fun _ => False) id id ?_
    split
    · exact (Confined.noticed _ _).trans (Confined.wrote _ _ _)
    · exact Confined.noticed _ _

/-- The cells of several lines that a core stores through a `DIR` page are held, where the lines lie in different sets of its L1: what one
line displaces holds no store to another. -/
theorem State.Lone.storeLines_hold {runs : List (List (Nat × Byte))} (hone : ∀ r ∈ runs, OneLine r)
    (hnd : ∀ r ∈ runs, (r.map Prod.fst).Nodup)
    (hsets : runs.Pairwise (fun r r' => ∀ c ∈ r, ∀ d ∈ r', lineOf c.1 % 128 ≠ lineOf d.1 % 128)) {s : State} (h : s.Lone)
    (hfree : ∀ r ∈ runs, ∀ c ∈ r, s.Free c.1) (core : Nat) (hint push : Bool) :
    ∀ r ∈ runs, ∀ c ∈ r, (runs.foldl (fun s l => s.storeLine core 0 hint push l) s).Holds c.1 c.2 := by
  induction runs generalizing s with
  | nil => simp
  | cons r runs ih =>
    obtain ⟨hr, hsets⟩ := List.pairwise_cons.1 hsets
    have hhold := h.storeLine_holds (hnd r List.mem_cons_self) (hfree r List.mem_cons_self) core hint push
    have hallow : ∀ c ∈ r, (s.zoneOf core (· ∈ r.map Prod.fst) (fun _ => True)).Allows c.1 := fun c hc =>
      h.allows_zoneOf (List.mem_map_of_mem hc) fun _ _ => trivial
    have hkeep := Confined.storeLine s 0 hint push (hone r List.mem_cons_self) hallow (State.within_zoneOf h.wf _ _ _)
    have h1 := hkeep.lone h
    rw [List.foldl_cons]
    have hih := ih (fun x hx => hone x (List.mem_cons_of_mem r hx)) (fun x hx => hnd x (List.mem_cons_of_mem r hx)) hsets h1
      (fun x hx c hc => hkeep.free h (hfree x (List.mem_cons_of_mem r hx) c hc))
    intro x hx c hc
    rcases List.mem_cons.1 hx with rfl | hx
    · refine (hhold c hc).keep_zoneOf (core := core) h1 (stored := fun a => ∃ y ∈ runs, ∃ d ∈ y, d.1 = a)
        (line := fun l => ∃ y ∈ runs, ∃ d ∈ y, l % 128 = lineOf d.1 % 128) ?_ ?_ (Confined.foldl _ (fun u y hy => ?_) _)
      · rintro ⟨y, hy, d, hd, hda⟩
        exact hr y hy c hc d hd (by rw [hda])
      · rintro ⟨y, hy, d, hd, hset⟩
        exact hr y hy c hc d hd hset
      · refine Confined.storeLine u 0 hint push (hone y (List.mem_cons_of_mem _ hy)) fun d hd => ?_
        exact h1.allows_zoneOf ⟨y, hy, d, hd, rfl⟩ fun l hl => ⟨y, hy, d, hd, hl⟩
    · exact hih x hx c hc

/-- An element of at most 16 bytes that a core stores through a `DIR` page reads back (R139, R154). -/
theorem State.Lone.storePart_reads {s : State} (h : s.Lone) {pa : Nat} {bs : List Byte} (hlen : bs.length ≤ 16)
    (hfree : ∀ k, k < bs.length → s.Free (pa + k)) (core : Nat) (hint push : Bool) :
    (s.storePart core 0 pa bs hint push).physReadN pa bs.length = bs := by
  have hrise := cellsAt_rise pa bs
  have hflat := lineRuns_flatten (cellsAt pa bs)
  have hcell : ∀ r ∈ lineRuns (cellsAt pa bs), ∀ c ∈ r, ∃ k, k < bs.length ∧ c.1 = pa + k := fun r hr c hc =>
    mem_cellsAt (hflat ▸ List.mem_flatten_of_mem hr hc)
  have hhold := h.storeLines_hold (lineRuns_oneLine (cellsAt pa bs)) (fun r hr => ?nodup) ?sets (fun r hr c hc => ?free) core hint push
  case nodup =>
    have hsub : r.Sublist (cellsAt pa bs) := hflat ▸ List.sublist_flatten_of_mem hr
    exact List.pairwise_map.2 ((hrise.sublist hsub).imp Nat.ne_of_lt)
  case sets =>
    refine (lineRuns_rise hrise).imp_of_mem fun hr hr' hlines c hc d hd => ?_
    obtain ⟨k, hk, hck⟩ := hcell _ hr c hc
    obtain ⟨j, hj, hdj⟩ := hcell _ hr' d hd
    have hlt := hlines c hc d hd
    unfold lineOf at hlt ⊢
    omega
  case free =>
    obtain ⟨k, hk, hck⟩ := hcell r hr c hc
    exact hck ▸ hfree k hk
  have hlone : (s.storePart core 0 pa bs hint push).Lone := by
    refine (Confined.storePart (z := s.zoneOf core (fun _ => True) (fun _ => True)) s 0 pa bs hint push (fun k _ =>
      h.allows_zoneOf trivial fun _ _ => trivial) (State.within_zoneOf h.wf _ _ _)).lone h
  refine List.ext_getElem (by simp [State.physReadN, rangeFrom]) fun k hk1 hk2 => ?_
  have hmem : (pa + k, bs[k]) ∈ (lineRuns (cellsAt pa bs)).flatten := by
    rw [hflat]
    exact mem_cellsAt_of_lt pa hk2
  obtain ⟨r, hr, hc⟩ := List.mem_flatten.1 hmem
  obtain ⟨hval, hgood⟩ := hhold r hr _ hc
  simp only [State.physReadN, rangeFrom, List.map_map, List.getElem_map, List.getElem_range, Function.comp, State.physRead, hlone.fwd]
  exact (if_neg (ne_true_of_eq_false hgood)).trans hval

/-! ## The word `ST` -/

@[simp] theorem length_storeBytes (g : Group) (lit : Word) (ty : MemTy) (d : Os) (i : Nat) : (storeBytes g lit ty d i).length = ty.size := by
  cases d with
  | v n => cases ty <;> simp [storeBytes, MemTy.size, MemTy.regs, List.length_flatMap]
  | _ => simp [storeBytes]

theorem memTy_size_le (ty : MemTy) : ty.size ≤ 16 := by cases ty <;> decide

/-- The elements of a word that are performed are its own, each with its translated parts. -/
theorem State.mem_sortElems_ok {s : State} {core space n : Nat} {gid : GrpId} {acc : Acc} {es : List Elem} {e : Elem} {ps : List Part}
    (h : (e, ps) ∈ (s.sortElems core space gid acc n es).ok) : s.xlatElem core space e.addr n acc = .ok ps := by
  induction es with
  | nil => exact absurd h List.not_mem_nil
  | cons x es ih =>
    simp only [State.sortElems] at h
    split at h
    · exact ih h
    · split at h
      · next hx =>
        rcases List.mem_cons.1 h with heq | h
        · obtain ⟨rfl, rfl⟩ := Prod.mk.inj heq
          exact hx
        · exact ih h
      · exact ih h

/-- Translation keeps the lengths of an element's parts. -/
theorem State.xlatParts_n {s : State} {core space : Nat} {acc : Acc} {l : List (Nat × Nat)} {ps : List Part}
    (h : s.xlatParts core space acc l = .ok ps) : ps.map Part.n = l.map Prod.snd := by
  induction l generalizing ps with
  | nil => cases h; rfl
  | cons x l ih =>
    unfold State.xlatParts at h
    split at h
    · cases h
    · split at h
      · cases h
      · next hrest =>
        cases h
        simp [ih hrest]

/-- An element in one part has all its bytes there. -/
theorem State.xlatElem_one {s : State} {core space va n : Nat} {acc : Acc} {p : Part} (hn : n ≤ 16)
    (h : s.xlatElem core space va n acc = .ok [p]) : p.n = n := by
  have hlen := State.xlatParts_n h
  have hfuel : n / 4096 + 2 = 2 := by omega
  rw [hfuel, splitParts] at hlen
  split at hlen
  · split at hlen
    · cases hlen
    · simpa using hlen
  · next hroom =>
    rw [splitParts] at hlen
    split at hlen
    · split at hlen
      · omega
      · simp at hlen
    · simp at hlen

section
variable {s : State} {t : Team} {g : Group} {ty : MemTy} {d : Os} {m : MAddr}

/-- A store outside `det` nodes, of elements that all translate and wait for nothing, pops its queues and stores its elements in order
(R153, R154). -/
theorem exec_st (h : s.MReady t g (d.run ty.regs ++ m.x.vregs) (d.run ty.regs ++ m.x.vregs) (m.s.toNat :: (d.sregs ++ m.x.sregs))
      (popsOf [d, m.x]) none) (htrap : g.trapMask = none) (hroom : (s.core g.core).replay.length ≤ Config.replayQ)
    (hdet : s.isDet t.id = false) (hint : Bool) {x : Sorted}
    (hx : s.sortElems g.core t.space s.iss.grp .write ty.size (g.elems s.iss.mask s.iss.lit m ty.size) = x)
    (hbad : x.bad = []) (hfirst : x.first = none) (hbusy : s.pageBusy g x true = false) :
    exec (.st ty d m hint) s = .next (x.ok.foldl (fun u e => u.storeElem g.core hint (!(ty == .prv)) e.2 (storeBytes g s.iss.lit ty d e.1.t))
      (s.popAll (beatsOf g.width s.iss.mask) (popsOf [d, m.x]))) := by
  have hbeats : x.beats = [] := by simp [Sorted.beats, hbad]
  have hgate (f : Res) : s.memGate g x true f = f := by
    simp [State.memGate, hbusy, hbeats, hroom, htrap]
  have hpark (u : State) (k : ParkKind) (mk : Elem → ParkElem) : (u.parkBeats g.core k 0 hint x mk x.beats).parkTrap x true = u := by
    rw [hbeats, State.parkBeats, State.parkTrap, hfirst]
  show execSt ty d m hint s = _
  rw [execSt, h.asM_eq]
  simp only [hdet, hx, hgate, hpark, Bool.false_and, Bool.false_eq_true, if_false, State.storeOne, State.finish_done]

end

/-- The bytes that some performed elements may store to (R154). -/
def State.storedTo (s : State) (ok : List (Elem × List Part)) (a : Nat) : Prop := ∃ e ∈ ok, s.StoredAt e.2 a

/-- Elements of a word performed one after the other stay among the bytes that they store to, and what their core's dirty lines may reach. -/
theorem Confined.storeElems {s : State} {core : Nat} {ok : List (Elem × List Part)} (hint push : Bool) (data : Elem → List Byte) :
    Confined (s.zoneOf core (s.storedTo ok) (fun _ => True)) s (ok.foldl (fun s e => s.storeElem core hint push e.2 (data e.1)) s) := by
  refine Confined.foldl ok (fun u e he => Confined.storeElem u hint push e.2 (data e.1) fun p hp k hk => ?_) s
  exact ⟨State.byte_zoneOf ⟨e, he, p, hp, k, hk, .inl rfl⟩, State.byte_zoneOf ⟨e, he, p, hp, k, hk, .inr (.inl rfl)⟩, fun _ _ => trivial⟩

/-- An update of a group leaves every team's window. -/
theorem State.modGrp_win (s : State) (i : GrpId) (f : Group → Group) {id : TeamId} {y : Team} (hy : s.team? id = some y) :
    ∃ y', (s.modGrp i f).team? id = some y' ∧ y'.win = y.win := by
  by_cases hid : id = i.team
  · subst hid
    exact ⟨y.modGroup i.grp f, by rw [State.team?_modGrp_self, hy, Option.map_some], rfl⟩
  · exact ⟨y, by rw [State.team?_modGrp_ne s f hid, hy], rfl⟩

/-- What homes notice leaves every team's window. -/
theorem Notices.win {s s' : State} (h : Notices s s') {id : TeamId} {y : Team} (hy : s.team? id = some y) :
    ∃ y', s'.team? id = some y' ∧ y'.win = y.win := by
  obtain ⟨y', hy', heq⟩ := h.team_some hy
  have hwin : y'.noticeless.win = y.noticeless.win := by rw [heq]
  exact ⟨y', hy', hwin⟩

/-- The bytes of an element of one part, of a `DIR` page that no home holds up, read back (R139, R154). -/
theorem State.Lone.storeElem_reads {s : State} (h : s.Lone) {p : Part} {bs : List Byte} (hpoison : p.x.poison = false)
    (hmem : p.x.memside = false) (hattr : p.x.attr = 0) (hn : p.n = bs.length) (hlen : bs.length ≤ 16)
    (hfree : ∀ k, k < bs.length → s.Free (p.x.pa + k)) (core : Nat) (hint push : Bool) :
    (s.storeElem core hint push [p] bs).physReadN p.x.pa p.n = bs := by
  have helem : s.storeElem core hint push [p] bs = s.storePart core 0 p.x.pa bs hint push := by
    simp [State.storeElem, hpoison, hmem, hattr, hn]
  rw [helem, hn]
  exact h.storePart_reads hlen hfree core hint push

/-- Popping its queues is all that a word's pops change of its group. -/
theorem State.popAll_grp (s : State) (beats pops : List Nat) :
    (s.popAll beats pops).grp? s.iss.grp = (s.grp? s.iss.grp).map (fun g => pops.foldl (fun g n => g.popQ beats n) g) := by
  rw [State.popAll, State.grp?_modGrp_self]

/-- Settles O27: the frame by what a store's zone leaves out, the windows and the group by what homes notice, and the bytes of one element
by the read of what a `DIR` store has left. -/
theorem memoryStore : Obligations.MemoryStore := by
  unfold Obligations.MemoryStore
  intro s t g ty d m hint htrap hroom hready hdet x hbad hfirst hbusy hinv
  have hx : s.sortElems g.core t.space s.iss.grp .write ty.size (g.elems s.iss.mask s.iss.lit m ty.size) = x := rfl
  clear_value x
  have ⟨⟨_, hgrp⟩, _⟩ := hready
  let s1 := s.popAll (beatsOf g.width s.iss.mask) (popsOf [d, m.x])
  have hnotices := Notices.foldl (f := fun u e => u.storeElem g.core hint (!(ty == .prv)) e.2 (storeBytes g s.iss.lit ty d e.1.t))
    (fun u e => Notices.storeElem u _ _ _ _ _) x.ok s1
  refine ⟨_, exec_st hready htrap hroom hdet hint hx hbad hfirst hbusy, fun a hstored hback hlost => ?frame, fun id y hy => ?window, ?group,
    ?read⟩
  case frame =>
    have hwithin := State.within_zoneOf (s := s1) hinv.1 g.core (s1.storedTo x.ok) (fun _ => True)
    refine (Confined.storeElems hint _ (fun e => storeBytes g s.iss.lit ty d e.t) hwithin).mem a ?_
    rintro (⟨e, he, hst⟩ | hl | ⟨b, hb, hd, -, hpa⟩)
    · exact hstored e he hst
    · exact hlost hl
    · exact hback ⟨b, hb, hd, hpa⟩
  case window =>
    obtain ⟨y1, hy1, hwin1⟩ := State.modGrp_win s s.iss.grp _ hy
    obtain ⟨y2, hy2, hwin2⟩ := hnotices.win hy1
    exact ⟨y2, hy2, hwin2.trans hwin1⟩
  case group =>
    have hg1 : s1.grp? s.iss.grp = some ((popsOf [d, m.x]).foldl (fun y n => y.popQ (beatsOf g.width s.iss.mask) n) g) := by
      rw [State.popAll_grp, hgrp, Option.map_some]
    obtain ⟨g2, hg2, hless⟩ := hnotices.grp_some hg1
    exact ⟨g2, hg2, (Group.s_of_waitless hless).trans (Group.popQ_foldl_s _ _ g),
      (Group.threads_of_waitless hless).trans (Group.popQ_foldl_threads _ _ g)⟩
  case read =>
    intro e p hok hpoison hmem hattr hsubs hmigr hfree
    have hxlat : s.xlatElem g.core t.space e.addr ty.size .write = .ok [p] := State.mem_sortElems_ok (hx ▸ hok ▸ List.mem_singleton.2 rfl)
    have hn : p.n = (storeBytes g s.iss.lit ty d e.t).length := by
      rw [length_storeBytes, State.xlatElem_one (memTy_size_le ty) hxlat]
    have hlone : s1.Lone := ⟨hinv.1, hmigr, hsubs⟩
    rw [hok]
    exact hlone.storeElem_reads hpoison hmem hattr hn (length_storeBytes .. ▸ memTy_size_le ty) (fun k hk => hfree k (hn ▸ hk)) _ _ _

end Sys2Proof.Machine

/-! # Pending traps, withheld claims and the pools

What the events of the pools and the delivery of traps do, one equation for each branch of their definitions (R84, R247 to R254, R298,
R299). -/

namespace Sys2Proof.Machine

open Sys2Proof

/-! ## The events -/

theorem exec_trapDelivery (id : GrpId) (s : State) : exec (.trapDelivery id) s = execTrapDelivery id s := rfl

theorem exec_deferredClaimGuard (core half : Nat) (s : State) :
    exec (.deferredClaimGuard core half) s = execDeferredClaimGuard core half s := rfl

theorem exec_dispatchStep (wheel : Nat) (s : State) : exec (.dispatchStep wheel) s = execDispatchStep wheel s := rfl

theorem exec_preemptForRoom (wheel : Nat) (s : State) : exec (.preemptForRoom wheel) s = execPreemptForRoom wheel s := rfl

theorem exec_nodeDoneDecrement (node : Nat) (s : State) : exec (.nodeDoneDecrement node) s = execNodeDoneDecrement node s := rfl

/-! ## The delivery of a pending trap (R298, R299) -/

section

variable {s : State} {id : GrpId} {t : Team} {g : Group} {x : Trap}

theorem exec_trapDelivery_of_grp (ht : s.team? id.team = some t) (hg : s.grp? id = some g) :
    exec (.trapDelivery id) s = .next (if s.canTake id g && !s.ownsRun t.space id g then s.deliver id else s) := by
  rw [exec_trapDelivery, execTrapDelivery, ht, hg]

/-- A group that can take nothing, or that owns a latch run, is left as it is. -/
theorem exec_trapDelivery_waits (ht : s.team? id.team = some t) (hg : s.grp? id = some g)
    (hwait : s.canTake id g = false ∨ s.ownsRun t.space id g = true) : exec (.trapDelivery id) s = .next s := by
  rw [exec_trapDelivery_of_grp ht hg]
  rcases hwait with hnone | hrun
  · simp [hnone]
  · simp [hrun]

theorem State.deliver_of_nextTrap (ht : s.team? id.team = some t) (hg : s.grp? id = some g) (hpin : t.pinned = true)
    (hx : s.nextTrap id g = some x) : s.deliver id = s.deliverTrap id x := by
  simp [State.deliver, ht, hg, hpin, hx]

/-- A trap of the group's own words is taken by the path of thread `k`, the lowest-numbered able one that met its condition, or else the
lowest-numbered able one: the definition chooses between the PCs of the two threads, which is the PC of the chosen thread. -/
theorem State.deliverTrap_own (hg : s.grp? id = some g) (hown : outerCause x.cause = false) {able : Mask}
    (hable : g.receivers x (s.isDet id.team) = able) {k : Nat}
    (hk : ((Mask.list (able &&& x.mask) g.width).head?).or (Mask.list able g.width).head? = some k) :
    s.deliverTrap id x =
      s.enterTrap id x x (able &&& g.maskBy (fun th => th.pc == (g.thread k).pc)) (g.thread k).pc := by
  have hpc := congrArg (Option.map (fun i => (g.thread i).pc)) hk
  rw [Option.map_or, Option.map_some] at hpc
  simp [State.deliverTrap, hg, hown, hable, hpc]

/-- A pending trap of the group's own words is taken outside a latch run. -/
theorem exec_trapDelivery_takes (ht : s.team? id.team = some t) (hg : s.grp? id = some g) (hx : s.nextTrap id g = some x)
    (hrun : s.ownsRun t.space id g = false) (hpin : t.pinned = true) (hown : outerCause x.cause = false) {able : Mask}
    (hable : g.receivers x (s.isDet id.team) = able) {k : Nat}
    (hk : ((Mask.list (able &&& x.mask) g.width).head?).or (Mask.list able g.width).head? = some k) :
    exec (.trapDelivery id) s =
      .next (s.enterTrap id x x (able &&& g.maskBy (fun th => th.pc == (g.thread k).pc)) (g.thread k).pc) := by
  have hcan : s.canTake id g = true := by rw [State.canTake, hx, Option.isSome_some]
  rw [exec_trapDelivery_of_grp ht hg, hcan, hrun, State.deliver_of_nextTrap ht hg hpin hx, State.deliverTrap_own hg hown hable hk]
  rfl

end

/-! ## Dispatch steps (R251) -/

section

variable {s : State} {wheel : Nat}

theorem exec_dispatchStep_early (hdue : s.dispatchDue wheel = false) : exec (.dispatchStep wheel) s = .next s := by
  rw [exec_dispatchStep, execDispatchStep, hdue]
  rfl

/-- A step that is due places the teams of the first ready node for which some fit. -/
theorem exec_dispatchStep_places {s1 : State} (hdue : s.dispatchDue wheel = true)
    (hplace : (s.readyNodes wheel).findSome? s.placeNode = some s1) :
    exec (.dispatchStep wheel) s =
      .next (s1.modWheel wheel (fun w => { w with lastDispatch := some (s.now (wheelAgent wheel)) })) := by
  rw [exec_dispatchStep, execDispatchStep, hdue, hplace]
  rfl

/-! ## Pre-emption for room (R254) -/

/-- A team is asked to save itself: it is marked, and its `PREEMPT` is pending at the group that takes it. -/
def State.askSave (s : State) (v : Team) : State :=
  (s.modTeam v.id (fun t => { t with preempt := true })).modGrp v.eventGroup (fun g => g.pend (outerTrap 14 0))

/-- Asking a team to save itself marks it. -/
theorem State.askSave_team {v : Team} (hv : s.team? v.id = some v) :
    ∃ v', (s.askSave v).team? v.id = some v' ∧ v'.preempt = true := by
  have hmark := State.team?_modTeam_self s v.id (f := fun t => { t with preempt := true }) (fun _ => rfl)
  rw [hv, Option.map_some] at hmark
  have hpend := State.team?_modGrp_self (s.modTeam v.id (fun t => { t with preempt := true })) v.eventGroup
    (fun g => g.pend (outerTrap 14 0))
  have hteam : v.eventGroup.team = v.id := rfl
  rw [hteam, hmark, Option.map_some] at hpend
  exact ⟨_, hpend, rfl⟩

theorem exec_preemptForRoom_idle (hnone : s.readyNodes wheel = []) : exec (.preemptForRoom wheel) s = .next s := by
  rw [exec_preemptForRoom, execPreemptForRoom, hnone]

variable {n : Node} {rest : List Node}

theorem exec_preemptForRoom_noVictim (hready : s.readyNodes wheel = n :: rest) (hroom : s.roomFor n = none) :
    exec (.preemptForRoom wheel) s = .next s := by
  simp [exec_preemptForRoom, execPreemptForRoom, hready, hroom]

/-- The chosen place's first victim is asked to save itself when none of its cores waits for an earlier victim. -/
theorem exec_preemptForRoom_asks {cores : List Nat} {v : Team} (hready : s.readyNodes wheel = n :: rest)
    (hroom : s.roomFor n = some (cores, v))
    (hfree : s.teams.any (fun t => t.going && t.groups.any (fun g => cores.contains g.core)) = false) :
    exec (.preemptForRoom wheel) s = .next (s.askSave v) := by
  rw [exec_preemptForRoom, execPreemptForRoom, hready]
  simp only [hroom, hfree]
  rfl

/-- A node's first waiting team that fits nowhere gets the place chosen for it. -/
theorem State.roomFor_first {w : List Want × Option Nat} {ws : List (List Want × Option Nat)} {k c : Nat} {v : Team}
    (hwaits : s.waiting n = w :: ws) (hfull : (s.coresFor w.2).any (fun c => s.fitsAt c w.1) = false)
    (hplace : s.choosePlace n.l.prio w.1 (s.coresFor w.2) = some (k, c, v)) :
    s.roomFor n = some (placeCores c w.1, v) := by
  rw [State.roomFor, hwaits, List.findSome?_cons]
  simp only [hfull, hplace]
  rfl

end

/-! ## The end of a node (R247, R250) -/

section

variable {s s1 : State} {node : Nat} {n : Node}

/-- A node's entry leaves its pool. -/
def State.leavePool (s : State) (node : Nat) : State := { s with nodes := s.nodes.filter (fun x => x.id != node) }

/-- A node at its end whose writes have been performed, before the release and after it, decrements the counter that it names and leaves the
pool. -/
theorem exec_nodeDoneDecrement_ends (hn : s.node? node = some n) (hend : n.ending = true) (hidle : s.nodeBusy node = false)
    (hrel : (s.cores.map (·.num)).foldl (fun s c => s.relSelf c) s = s1) (hheld : s1.heldWrites = []) (hpush : s1.pushIds = [])
    (hflushed : ∀ c ∈ s1.cores, s1.unflushed c.num = false) (hctr : n.l.done.any s1.ctrBusy = false) :
    exec (.nodeDoneDecrement node) s = .next ((n.l.done.elim s1 (fun pa => s1.engineDecr pa 1)).leavePool node) := by
  have hcores : s1.cores.any (fun c => s1.unflushed c.num) = false := by simpa using hflushed
  rw [exec_nodeDoneDecrement, execNodeDoneDecrement, hn]
  simp only [hrel, hend, hidle, hheld, hpush, hcores, hctr]
  cases n.l.done <;> rfl

end

/-- Settles O54, event by event, through the equation of the branch that the hypotheses select; a victim's mark is found again after its
`PREEMPT` has been made pending. -/
theorem pool : Obligations.Pool := by
  unfold Obligations.Pool
  refine ⟨⟨fun s id t g ht hg => ⟨exec_trapDelivery_waits ht hg, ?takes⟩, fun s core half => exec_deferredClaimGuard core half s⟩,
    fun s wheel => ⟨exec_dispatchStep_early, fun s1 => exec_dispatchStep_places, exec_preemptForRoom_idle, ?asks,
      fun n rest => exec_preemptForRoom_noVictim, ?ends⟩⟩
  case takes =>
    intro x k hx hrun hpin hown able hk
    exact exec_trapDelivery_takes ht hg hx hrun hpin hown rfl hk
  case asks =>
    intro n rest w ws k c v hready hwaits hfull hplace hfree hv
    obtain ⟨v', hv', hmark⟩ := State.askSave_team hv
    exact ⟨_, v', exec_preemptForRoom_asks hready (State.roomFor_first hwaits hfull hplace) hfree, fun _ => rfl, hv', hmark⟩
  case ends =>
    intro node n hn hend hidle s1 ends hheld hpush hflushed
    have hs1 : (s.cores.map (·.num)).foldl (fun s c => s.relSelf c) s = s1 := rfl
    have hleaves := exec_nodeDoneDecrement_ends hn hend hidle hs1 hheld hpush hflushed
    refine ⟨fun hdone => ?_, fun pa hdone hctr => ?_⟩
    · rw [hdone] at hleaves
      exact hleaves rfl
    · rw [hdone] at hleaves
      exact hleaves hctr

end Sys2Proof.Machine

/-! # Branches, `JOIN`, `YIELD`, `EXIT` and the paths due (R120 to R134)

Each of these words and events is one update of its group: the frame is that of `State.modGrp`, and what is left is what the update does
to the threads. -/

namespace Sys2Proof.Machine

open Sys2Proof

/-! ## Two updates of one group -/

theorem modAt_modAt {α : Type} (f f' : α → α) (n : Nat) (l : List α) :
    modAt f' n (modAt f n l) = modAt (fun x => f' (f x)) n l := by
  induction l generalizing n with
  | nil => cases n <;> rfl
  | cons x l ih => cases n <;> simp [modAt, ih]

theorem State.modGrp_modGrp (s : State) (i : GrpId) (f f' : Group → Group) :
    (s.modGrp i f).modGrp i f' = s.modGrp i (fun g => f' (f g)) := by
  simp only [State.modGrp, State.modTeam, List.map_map]
  refine congrArg (fun ts => { s with teams := ts }) (List.map_congr_left fun t _ => ?_)
  by_cases h : t.id = i.team <;> simp [h, Team.modGroup, modAt_modAt]

/-- What leads to the update of one group leaves the rest of the device, and of the group what the update leaves. -/
theorem exists_next_modGrp {s : State} {id : GrpId} {g : Group} {i : Instr} {f : Group → Group} {P : Group → Prop}
    (hg : s.grp? id = some g) (he : exec i s = .next (s.modGrp id f)) (hP : P (f g)) :
    ∃ s' g', exec i s = .next s' ∧ SameBut s s' id ∧ s'.grp? id = some g' ∧ P g' :=
  ⟨_, f g, he, SameBut.modGrp s id f, by rw [State.grp?_modGrp_self, hg, Option.map_some], hP⟩

theorem State.UReady.grp_eq {s : State} {t : Team} {g : Group} {rs : List Nat} (h : s.UReady t g rs) :
    s.grp? s.iss.grp = some g := by
  obtain ⟨⟨-, hg⟩, -⟩ := h
  exact hg

/-! ## Uniform branches -/

/-- The packet of an address is the address without its low four bits. -/
theorem packetAddr_eq_ofNat (a : VAddr) : packetAddr a = BitVec.ofNat 56 (a.toNat / 16 * 16) := by
  refine BitVec.eq_of_getLsbD_eq fun i hi => ?_
  have hlow : (0xF#56).getLsbD i = decide (i < 4) := Nat.testBit_two_pow_sub_one 4 i
  have hhigh : (a.toNat / 16 * 16).testBit i = (!decide (i < 4) && a.getLsbD i) := by
    rw [show 16 = 2 ^ 4 from rfl, Nat.testBit_mul_two_pow, Nat.testBit_div_two_pow, BitVec.getLsbD]
    rcases Nat.lt_or_ge i 4 with h | h
    · simp [h, Nat.not_le.2 h]
    · simp [h, Nat.not_lt.2 h]
  rw [packetAddr, BitVec.getLsbD_and, BitVec.getLsbD_not, hlow, BitVec.getLsbD_ofNat, hhigh]
  simp [hi, Bool.and_comm]

/-- The target that an s register names (R134). -/
theorem regTarget_eq_ofNat (v : Reg) : regTarget v = BitVec.ofNat 56 (v.toNat % 2 ^ 56 / 16 * 16) := by
  rw [regTarget, packetAddr_eq_ofNat, BitVec.toNat_setWidth]

theorem State.UReady.uniform_eq {s : State} {t : Team} {g : Group} {rs : List Nat} (h : s.UReady t g rs) (taken : Group → Bool)
    (pc : Group → VAddr) :
    s.uniform rs taken pc = .next (if taken g then s.modGrp s.iss.grp (fun x => x.jump s.iss.mask (pc g)) else s) :=
  h.uWord_eq _

section
variable {s : State} {t : Team} {g : Group} {sr : BitVec 6}

theorem exec_bz (h : s.UReady t g [sr.toNat]) (off : BitVec 15) :
    exec (.bz sr off) s = .next (if g.sreg sr.toNat = 0 then
      s.modGrp s.iss.grp (fun x => x.jump s.iss.mask (target s.pa off.toInt)) else s) := by
  have he : exec (.bz sr off) s = _ := h.uniform_eq (fun g => g.sreg sr.toNat == 0) (fun _ => target s.pa off.toInt)
  simpa only [beq_iff_eq] using he

theorem exec_bnz (h : s.UReady t g [sr.toNat]) (off : BitVec 15) :
    exec (.bnz sr off) s = .next (if g.sreg sr.toNat = 0 then s else
      s.modGrp s.iss.grp (fun x => x.jump s.iss.mask (target s.pa off.toInt))) := by
  have he : exec (.bnz sr off) s = _ := h.uniform_eq (fun g => g.sreg sr.toNat != 0) (fun _ => target s.pa off.toInt)
  simpa only [bne_iff_ne, ne_eq, ite_not] using he

theorem exec_brx (h : s.UReady t g [sr.toNat]) :
    exec (.brx sr) s = .next (s.modGrp s.iss.grp (fun x => x.jump s.iss.mask (regTarget (g.sreg sr.toNat)))) :=
  h.uniform_eq _ _

theorem exec_ret (h : s.UReady t g [7]) :
    exec .ret s = .next (s.modGrp s.iss.grp (fun x => x.jump s.iss.mask (regTarget (g.sreg 7)))) :=
  h.uniform_eq _ _

/-- `CALL` jumps and then writes s7. -/
theorem exec_call (h : s.UReady t g []) (p : Fin 8) (off : BitVec 18) :
    exec (.call p off) s = .next (if s.loPred g p then
      (s.modGrp s.iss.grp (fun x => x.jump s.iss.mask (target s.pa off.toInt))).modGrp s.iss.grp
        (fun x => x.setS 7 ((s.pa + 16).setWidth 64)) else s) := by
  rw [State.modGrp_modGrp]
  exact h.uWord_eq _

end

/-- Settles O13: each word is `State.uniform` of its own decision and target; `CALL` adds the write of s7. -/
theorem uniformBranches : Obligations.UniformBranches := by
  unfold Obligations.UniformBranches
  refine fun s t g p off sr o15 => ⟨fun h => ⟨h.uniform_eq _ _, exec_call h p off⟩,
    fun h => ⟨exec_bz h o15, exec_bnz h o15, ?brx⟩, fun h => ?ret⟩
  case brx => rw [← regTarget_eq_ofNat]; exact exec_brx h
  case ret => rw [← regTarget_eq_ofNat]; exact exec_ret h

/-! ## Threads that branch, join, yield and exit -/

@[simp] theorem Thread.killLatches_lat_val (th : Thread) : th.killLatches.lat.map Latch.val = th.lat.map Latch.val := by
  simp [Thread.killLatches, Function.comp_def]

/-- An active thread after a branch that decides for each thread: at the target where its predicate holds, its registers, its state and
the values of its latches as before (R134). -/
def Thread.Branched (p : Fin 8) (there : VAddr) (k : Nat) (th th' : Thread) : Prop :=
  th'.pc = (if k < 64 ∧ th.pred p.val then there else th.pc) ∧ th'.v = th.v ∧ th'.p = th.p ∧ th'.st = th.st ∧
    th'.lat.map Latch.val = th.lat.map Latch.val

/-- An active thread is in the ballot where its predicate holds. -/
theorem getLsbD_ballot_active {g : Group} {m : Mask} {k : Nat} {th : Thread} (hget : g.threads[k]? = some th)
    (hk : m.getLsbD k = true) (p : Nat) : (ballot g m p).getLsbD k = th.pred p := by
  obtain ⟨hlen, -⟩ := List.getElem?_eq_some_iff.1 hget
  rw [getLsbD_ballot g m p (BitVec.lt_of_getLsbD hk), hk, Group.thread, List.getD_eq_getElem?_getD, hget]
  simp [hlen]

/-- A thread outside the mask is in no ballot. -/
theorem getLsbD_ballot_inactive (g : Group) {m : Mask} {k : Nat} (hk : m.getLsbD k = false) (p : Nat) :
    (ballot g m p).getLsbD k = false := by
  rw [ballot, BitVec.getLsbD_and, hk, Bool.false_and]

theorem Group.split_get (g : Group) (m : Mask) (p : Fin 8) (there : VAddr) {k : Nat} {th : Thread}
    (hget : g.threads[k]? = some th) : ∃ th', (g.split m p there).threads[k]? = some th' ∧
      (if m.getLsbD k then Thread.Branched p there k th th' else th' = th) := by
  unfold Group.split
  cases hk : m.getLsbD k with
  | false =>
    refine ⟨th, ?_, rfl⟩
    split
    · exact hget
    · simp [Group.jump, Group.killOn, hget, hk, getLsbD_ballot_inactive g hk]
  | true =>
    have hb := getLsbD_ballot_active hget hk p.val
    have h64 := BitVec.lt_of_getLsbD hk
    by_cases h0 : ballot g m p.val = 0
    · rw [if_pos h0]
      have hp : th.pred p.val = false := by rw [← hb, h0]; exact BitVec.getLsbD_zero
      exact ⟨th, hget, by simp [hp], rfl, rfl, rfl, rfl⟩
    · rw [if_neg h0]
      refine ⟨_, by rw [Group.jump, Group.onThreads_get, Group.killOn, Group.onThreads_get, hget]; rfl, ?_⟩
      simp only [hb, hk, if_true]
      cases hp : th.pred p.val <;> simp [Thread.Branched, hp, h64]

/-- A branch that decides for each thread changes nothing of its group but the active threads. -/
theorem Group.sameButThreads_split (g : Group) (m : Mask) (p : Fin 8) (there : VAddr) :
    Group.SameButThreads g (g.split m p there) m (Thread.Branched p there) := by
  refine ⟨?_, ?_, fun k th hget => g.split_get m p there hget⟩ <;> unfold Group.split <;> split
  · rfl
  · rfl
  · rfl
  · simp [Group.jump, Group.killOn]

section
variable {s : State} {t : Team} {g : Group}

theorem exec_bp (h : s.UReady t g []) (p : Fin 8) (off : BitVec 18) :
    exec (.bp p off) s =
      .next (s.modGrp s.iss.grp (fun x => x.split s.iss.mask p (target s.pa off.toInt))) := h.uWord_eq _

/-- The entry that `BD` opens (R128). -/
def bdEntry (s : State) : JoinEntry := { join := target s.pa s.iss.lit.toInt, members := s.iss.mask, arrived := 0 }

theorem exec_bd (h : s.UReady t g []) (p : Fin 8) (off : BitVec 18) :
    exec (.bd p off) s = s.finish (if Config.joinDepth ≤ g.joins.length then s.raise 4 0 else
      .done (s.modGrp s.iss.grp (fun x =>
        { (x.split s.iss.mask p (target s.pa off.toInt)) with joins := bdEntry s :: x.joins }))) := h.uWord_eq _

theorem exec_bd_opens (h : s.UReady t g []) (p : Fin 8) (off : BitVec 18) (hj : g.joins.length < Config.joinDepth) :
    exec (.bd p off) s = .next (s.modGrp s.iss.grp (fun x =>
      { (x.split s.iss.mask p (target s.pa off.toInt)) with joins := bdEntry s :: x.joins })) := by
  rw [exec_bd h, if_neg (Nat.not_le.2 hj), State.finish_done]

theorem exec_bd_overflows (h : s.UReady t g []) (p : Fin 8) (off : BitVec 18) (hj : Config.joinDepth ≤ g.joins.length) :
    exec (.bd p off) s = .next (s.trapNow (s.wordTrap 4 0 0 0xFF 0)) := by
  rw [exec_bd h, if_pos hj]
  rfl

theorem exec_join (h : s.UReady t g []) :
    exec .join s = .next (s.modGrp s.iss.grp (fun x => (x.killOn s.iss.mask).onThreads s.iss.mask (fun k th =>
      match g.innermost k with
      | some e => { th with pc := e.join, moved := true }
      | none => { th with moved := true }))) := h.uWord_eq _

theorem exec_yield (h : s.UReady t g []) :
    exec .yield s = .next (s.modGrp s.iss.grp (fun x => { (x.jump s.iss.mask (s.pa + 16)) with yielded := true })) :=
  h.uWord_eq _

theorem exec_exit (h : s.UReady t g []) :
    exec .exit s = .next (s.modGrp s.iss.grp (fun x => x.onThreads s.iss.mask (fun _ th => { th with st := .exited }))) :=
  h.uWord_eq _

end

/-- Of a thread outside the mask, the PC and the registers alone. -/
theorem Group.SameButThreads.inactive_pc_v {g g' : Group} {m : Mask} {R : Nat → Thread → Thread → Prop}
    (h : Group.SameButThreads g g' m R) : ∀ k th, g.threads[k]? = some th → ∃ th', g'.threads[k]? = some th' ∧
      (if m.getLsbD k then R k th th' else th'.pc = th.pc ∧ th'.v = th.v) := by
  obtain ⟨-, -, hth⟩ := h
  intro k th hget
  obtain ⟨th', hget', hrel⟩ := hth k th hget
  refine ⟨th', hget', ?_⟩
  by_cases hk : m.getLsbD k = true
  · rw [if_pos hk] at hrel ⊢
    exact hrel
  · rw [if_neg hk] at hrel ⊢
    exact ⟨congrArg Thread.pc hrel, congrArg Thread.v hrel⟩

/-- Settles O14: the branches by what a split leaves and does to an active thread, `JOIN`, `YIELD` and `EXIT` by their one update of the
active threads. -/
theorem threadBranches : Obligations.ThreadBranches := by
  unfold Obligations.ThreadBranches
  refine ⟨fun s t g p off h => ?branches, fun s t g h => ?others⟩
  case branches =>
    have hsplit := g.sameButThreads_split s.iss.mask p (target s.pa off.toInt)
    have hthreads := hsplit.inactive_pc_v
    obtain ⟨hrest, -, -⟩ := hsplit
    refine ⟨exists_next_modGrp h.grp_eq (exec_bp h p off) ⟨hrest, hthreads⟩, fun hj =>
      exists_next_modGrp h.grp_eq (exec_bd_opens h p off hj)
        ⟨rfl, congrArg (fun x : Group => { x with joins := g.joins }) hrest, hthreads⟩, exec_bd_overflows h p off⟩
  case others =>
    refine ⟨exists_next_modGrp h.grp_eq (exec_join h) ⟨rfl, rfl, fun k th hget => ?join⟩,
      exists_next_modGrp h.grp_eq (exec_yield h) ⟨rfl, rfl, fun k th hget => ?yield⟩,
      exists_next_modGrp h.grp_eq (exec_exit h) ⟨rfl, by simp, fun k th hget => ?exit⟩⟩
    case join =>
      refine ⟨_, by rw [Group.onThreads_get, Group.killOn, Group.onThreads_get, hget]; rfl, ?_⟩
      unfold Group.innermost
      cases s.iss.mask.getLsbD k
      · exact ⟨rfl, rfl⟩
      · cases g.joins.find? (fun e => e.members.getLsbD k) <;> exact ⟨rfl, rfl⟩
    case yield =>
      refine ⟨_, by rw [Group.jump, Group.onThreads_get, hget]; rfl, ?_⟩
      cases s.iss.mask.getLsbD k <;> exact ⟨rfl, rfl⟩
    case exit =>
      refine ⟨_, by rw [Group.onThreads_get, hget]; rfl, ?_⟩
      cases s.iss.mask.getLsbD k <;> rfl

/-! ## Paths that become due -/

/-- Where a group's node keeps fairness, the event is one update of its group's records (R125, R127). -/
theorem exec_pathDue {s : State} {id : GrpId} {g : Group} (hg : s.grp? id = some g)
    (hfair : ((s.launch? id.team).map (·.nofair)).getD false = false) (pc : VAddr) :
    exec (.pathDue id pc) s = .next (s.modGrp id (fun y => { y with paths := y.paths.map (fun r =>
      if r.pc = pc ∧ 2 ^ (s.core g.core).fairLog ≤ r.wait ∧ r.due = none then { r with due := some (s.now g.core) }
      else r) })) := by
  show execPathDue id pc s = _
  rw [execPathDue, hg]
  simp only [hfair]
  rfl

/-- Settles O15: the event maps the group's records one by one. -/
theorem pathDue : Obligations.PathDue := by
  unfold Obligations.PathDue
  intro s id g pc hg hfair
  refine exists_next_modGrp hg (exec_pathDue hg hfair pc) ⟨rfl, fun k r hr => ?_⟩
  rw [List.getElem?_map, hr, Option.map_some]

end Sys2Proof.Machine

/-! # Barrier objects and the `BAR` words (R156 to R158) -/

namespace Sys2Proof.Machine

open Sys2Proof

/-! ## A barrier object in its window -/

/-- The counts of a barrier fit the fields of its object (R156). -/
def Barrier.Fits (b : Barrier) : Prop := b.expect < 2 ^ 16 ∧ b.arr < 2 ^ 16

theorem Barrier.fits_barOf (n : Nat) : (barOf n).Fits := ⟨fld_lt n 32 16, fld_lt n 48 16⟩

theorem Barrier.Fits.settle {b : Barrier} (h : b.Fits) : b.settle.Fits := by
  have ⟨hexpect, _⟩ := h
  unfold Barrier.settle
  split
  · exact ⟨hexpect, hexpect⟩
  · exact h

/-- The examination, with its condition's bytes put in (R157). -/
theorem Barrier.settle_eq (b : Barrier) :
    b.settle = if b.arr = 0 ∧ b.bytes = 0 then ⟨0, b.expect, b.expect, b.phase + 1⟩ else b := by
  unfold Barrier.settle
  split
  · next h =>
    obtain ⟨-, hbytes⟩ := h
    rw [hbytes]
  · rfl

theorem Barrier.barOf_encode {b : Barrier} (h : b.Fits) : barOf (leNat b.encode) = b := by
  obtain ⟨bytes, arr, expect, phase⟩ := b
  obtain ⟨hexpect, harr⟩ := h
  have hbytes := bytes.isLt
  have hphase := phase.isLt
  dsimp only at hexpect harr
  unfold barOf fld Barrier.encode
  dsimp only
  rw [leNat_leBytes]
  congr 1
  · exact BitVec.eq_of_toNat_eq (by rw [BitVec.toNat_ofNat]; omega)
  · omega
  · omega
  · exact BitVec.eq_of_toNat_eq (by rw [BitVec.toNat_ofNat]; omega)

theorem Barrier.length_encode (b : Barrier) : b.encode.length = 16 := length_leBytes 16 _

theorem State.WinHolds.barrier {s : State} {a : ScrAt} {b : Barrier} (h : s.WinHolds a.team a.off b.encode) (hb : b.Fits) :
    s.barrier a = b := by
  have hread := h.winRead
  rw [b.length_encode] at hread
  rw [State.barrier, State.winNat, hread, Barrier.barOf_encode hb]

theorem State.barNow_fits (s : State) (a : ScrAt) : (s.barNow a).Fits := by
  unfold State.barNow
  split
  · split <;> exact Barrier.fits_barOf _
  · exact Barrier.fits_barOf _

/-- Without an update in its cycle a barrier stands as its object reads. -/
theorem State.barNow_of_idle {s : State} {a : ScrAt} (h : s.barBusy a = false) : s.barNow a = s.barrier a := by
  have hnone : s.barOpen.find? (fun x => decide (x.1 = a.team) && x.2.1 == a.off) = none :=
    List.find?_eq_none.2 fun x hx => Bool.eq_false_iff.1 (any_eq_false_iff.1 h x hx)
  rw [State.barNow, hnone]

/-- The object is the examination of what the cycle's updates have left. -/
theorem State.barrier_of_settled {s : State} {a : ScrAt} (h : (s.barNow a).settle = s.barNow a) :
    s.barrier a = (s.barNow a).settle := by
  unfold State.barNow at h ⊢
  split
  · next x hx =>
    rw [hx] at h
    dsimp only at h
    split
    · assumption
    · next hne => rw [if_neg hne] at h; exact h.symm
  · next hx => rw [hx] at h; exact h.symm

/-- The state that remembers an update of a barrier in this cycle, before its object is written. -/
def State.opened (s : State) (a : ScrAt) (b : Barrier) : State :=
  { s with barOpen := (a.team, a.off, leNat b.encode) :: s.barOpen.filter (fun x => !(decide (x.1 = a.team) && x.2.1 == a.off)) }

theorem State.barUpdate_eq (s : State) (a : ScrAt) (f : Barrier → Barrier) :
    s.barUpdate a f = (s.opened a (f (s.barNow a))).winPut a.team a.off (f (s.barNow a)).settle.encode false := rfl

section
variable {s : State} {a : ScrAt} {t : Team} (ht : s.team? a.team = some t) (hp : t.pinned = true) (f : Barrier → Barrier)
include ht hp

theorem State.barUpdate_pinned : s.barUpdate a f =
    (s.opened a (f (s.barNow a))).modTeam a.team (fun t => t.put a.off (f (s.barNow a)).settle.encode) :=
  State.winPut_pinned (s := s.opened a _) ht hp _ _ _

theorem State.barUpdate_sameMem : s.SameMem (s.barUpdate a f) := fun _ => by
  rw [State.barUpdate_pinned ht hp]
  rfl

theorem State.barrier_barUpdate (hwf : Memory.wf t.win = true) (hf : (f (s.barNow a)).Fits) :
    (s.barUpdate a f).barrier a = (f (s.barNow a)).settle := by
  rw [State.barUpdate_eq]
  exact (State.WinHolds.of_winPut (s := s.opened a _) ht hp hwf false).barrier hf.settle

/-- A later update of the cycle finds the barrier as the update has left it, unexamined (R157). -/
theorem State.barNow_barUpdate (hwf : Memory.wf t.win = true) (hf : (f (s.barNow a)).Fits) :
    (s.barUpdate a f).barNow a = f (s.barNow a) := by
  have hopen : (s.barUpdate a f).barOpen.find? (fun x => decide (x.1 = a.team) && x.2.1 == a.off) =
      some (a.team, a.off, leNat (f (s.barNow a)).encode) := by
    rw [State.barUpdate_pinned ht hp, State.modTeam_barOpen, State.opened, List.find?_cons_of_pos (by simp)]
  rw [State.barNow, hopen]
  dsimp only
  rw [Barrier.barOf_encode hf, if_pos (State.barrier_barUpdate ht hp f hwf hf)]

theorem State.barrier_barExamine (hwf : Memory.wf t.win = true) : (s.barExamine a).barrier a = (s.barNow a).settle := by
  unfold State.barExamine
  split
  · next h => exact State.barrier_of_settled h
  · exact State.barrier_barUpdate ht hp id hwf (s.barNow_fits a)

theorem State.barExamine_sameMem : s.SameMem (s.barExamine a) := by
  unfold State.barExamine
  split
  · exact fun _ => rfl
  · exact State.barUpdate_sameMem ht hp id

end

/-! ## The words -/

section
variable {s : State} {t : Team} {g : Group} {p : BitVec 6} {a : ScrAt} (h : s.EReady t g [p.toNat])
  (hfld : fld (g.sreg p.toNat).toNat 23 9 = 0) (hat : s.scrAt t.id ((g.sreg p.toNat).toNat % 2 ^ 32) 16 = .ok a)
  (hal : (g.sreg p.toNat).toNat % 16 = 0) (hrange : s.inRange a.team a.off 16 = false) (hheld : s.winHeld a.team a.off 16 = false)
  {v : Nat} (hv : barV (g.sreg p.toNat) = v) (q : BitVec 6)
include h hfld hat hal hrange hheld hv

/-- A `BAR` word on an object in reach performs its own part, with the address in the low half of s[P] and v in the high one (R158). -/
theorem State.EReady.barWord_eq (f : Team → Group → ScrAt → Nat → Res) :
    s.barWord p q 0 none 16 f = s.finishWait [p.toNat] [q.toNat] q 0 none (f t g a v) := by
  have haddr : fld (g.sreg p.toNat).toNat 0 32 = (g.sreg p.toNat).toNat % 2 ^ 32 := by simp [fld]
  have hal' : ¬ (g.sreg p.toNat).toNat % 2 ^ 32 % 16 ≠ 0 := by omega
  rw [State.barWord, h.asE_eq, State.barAt, if_neg (not_not_intro hfld), haddr, hat]
  dsimp only
  rw [if_neg hal', hrange, hheld, hv]
  rfl

theorem exec_barinit_idle (hidle : s.barBusy a = false) :
    exec (.barinit p q) s = .next (if 1 ≤ v ∧ v ≤ 65535 then
      (s.barUpdate a (fun b => ⟨0, v, v, b.phase⟩)).putStatus q stOk
        (s.barNow a).phase.toNat
      else (s.barExamine a).putStatus q stRejected (s.barNow a).phase.toNat) := by
  change execBarinit p q s = _
  rw [execBarinit, h.barWord_eq hfld hat hal hrange hheld hv]
  dsimp only
  rw [hidle, if_neg Bool.false_ne_true]
  split <;> rfl

/-- A `BARINIT` that finds another update in its cycle is not ready. -/
theorem exec_barinit_busy (hbusy : s.barBusy a = true) :
    exec (.barinit p q) s = .next { s with iss := { s.iss with stalled := some .busy } } := by
  change execBarinit p q s = _
  rw [execBarinit, h.barWord_eq hfld hat hal hrange hheld hv]
  dsimp only
  rw [if_pos hbusy, State.finishWait, if_neg (by simp [h.mode_eq])]

theorem exec_barexpect :
    exec (.barexpect p q) s = .next ((s.barUpdate a (fun b =>
      { b with bytes := b.bytes + BitVec.ofNat 64 v })).putStatus q stOk
        (s.barNow a).phase.toNat) := by
  change execBarexpect p q s = _
  rw [execBarexpect, h.barWord_eq hfld hat hal hrange hheld hv]
  rfl

theorem exec_bartest :
    exec (.bartest p q) s = .next (if (s.barNow a).phase.toNat ≠ v then
      (s.putStatus q stOk (s.barNow a).phase.toNat).acquire t g (scrScope (g.sreg p.toNat).toNat)
      else s.putStatus q stBusy (s.barNow a).phase.toNat) := by
  change execBartest p q s = _
  rw [execBartest, h.barWord_eq hfld hat hal hrange hheld hv]
  dsimp only
  split <;> rfl

/-- Once its release has nothing to wait for, `BARARRIVE` counts its arrivals on the object as the write-back leaves it. -/
theorem exec_bararrive (hrel : s.Released t g (scrScope (g.sreg p.toNat).toNat)) :
    let s1 := s.relScope g.core (scrScope (g.sreg p.toNat).toNat) t.paired
    let n := max v 1
    exec (.bararrive p q) s = .next (if n ≤ (s1.barNow a).arr then
      (s1.barUpdate a (fun b => { b with arr := b.arr - n })).putStatus q stOk (s1.barNow a).phase.toNat
      else (s1.barExamine a).putStatus q stOverrun (s1.barNow a).phase.toNat) := by
  obtain ⟨hwait, hflush, hpush⟩ := hrel
  intro s1 n
  change execBararrive p q s = _
  rw [execBararrive, h.barWord_eq hfld hat hal hrange hheld hv]
  dsimp only
  rw [State.releasing, hwait]
  dsimp only
  rw [hflush, hpush]
  simp only [List.isEmpty_nil, Bool.not_true, Bool.or_self, Bool.false_eq_true, if_false]
  split <;> rfl

end

/-- Settles O22: an update read back through the object's encoding, and the words by their effects on an object in reach. -/
theorem barriers : Obligations.Barriers := by
  unfold Obligations.Barriers
  refine ⟨fun s a t hinv ht hp => ?object, fun s t g p q a h => ?words⟩
  case object =>
    obtain ⟨-, hwins⟩ := hinv
    have hwf : Memory.wf t.win = true := hwins t (List.mem_of_find?_eq_some ht)
    intro seen
    have hseen : ∀ b : Barrier, seen b = b.settle := fun b => b.settle_eq.symm
    simp only [hseen]
    exact ⟨fun f hexpect harr => ⟨State.barrier_barUpdate ht hp f hwf ⟨hexpect, harr⟩,
        State.barNow_barUpdate ht hp f hwf ⟨hexpect, harr⟩, State.barUpdate_sameMem ht hp f⟩,
      State.barrier_barExamine ht hp hwf, State.barExamine_sameMem ht hp, State.barNow_of_idle⟩
  case words =>
    intro r v hfld hat hal hrange hheld
    have hv : barV r = v := barV_eq r
    exact ⟨exec_barinit_idle h hfld hat hal hrange hheld hv q, exec_barinit_busy h hfld hat hal hrange hheld hv q,
      exec_barexpect h hfld hat hal hrange hheld hv q, exec_bartest h hfld hat hal hrange hheld hv q,
      exec_bararrive h hfld hat hal hrange hheld hv q⟩

end Sys2Proof.Machine

/-! # `MSRED` and `MSATOM` (R283, R288, R292, R299, R363) -/

namespace Sys2Proof.Machine

open Sys2Proof

/-! ## Commands read from the window

What a word reads of a window changes the state as far as poison does. -/

namespace Poisons

theorem countBad (s : State) (pa : Nat) : Poisons s (s.countBad pa) := (count s _ _ _).trans (count _ _ _ _)

theorem winMeet (s : State) (by_ : Issuer) (id : TeamId) (off va : Nat) : Poisons s (s.winMeet by_ id off va) := by
  unfold State.winMeet
  extract_lets s1
  refine Poisons.trans (s' := s1) ?_ (met s1 by_ va)
  unfold s1
  split
  · split
    · exact (count s _ _ _).trans (count _ _ _ _)
    · split
      · split
        · exact count s _ _ _
        · exact countBad s _
      · exact refl s
  · exact refl s

theorem winElem (s : State) (by_ : Issuer) (id : TeamId) (off n va : Nat) : Poisons s (s.winElem by_ id off n va).1 := by
  unfold State.winElem
  split
  · exact winMeet s by_ id off va
  · exact refl s

theorem winElems (by_ : Issuer) (id : TeamId) (n : Nat) (offs : List Nat) (s : State) : Poisons s (s.winElems by_ id n offs).1 := by
  induction offs generalizing s with
  | nil => exact refl s
  | cons off offs ih => exact (winElem s by_ id off n off).trans (ih _)

theorem winBlock (s : State) (by_ : Issuer) (id : TeamId) (off n : Nat) : Poisons s (s.winBlock by_ id off n).1 := by
  unfold State.winBlock
  split
  · exact winElems by_ id 4 _ s
  · exact refl s

theorem readCmds {id : TeamId} {atom : Bool} {n addr : Nat} {s : State} {r : State × List (MsSpec × List Byte)}
    (h : s.readCmds id atom n addr = .ok r) : Poisons s r.1 := by
  induction n generalizing s addr r with
  | zero =>
    cases h
    exact refl s
  | succ n ih =>
    rw [State.readCmds] at h
    split at h
    · cases h
    · split at h
      · cases h
      · dsimp only at h
        split at h
        · cases h
        · split at h
          · cases h
          · split at h
            · cases h
            · next hrest =>
              cases h
              have hlater := ih hrest
              exact (winBlock s _ _ _ _).trans hlater

end Poisons

/-! ## Commands sent to their core's queue -/

/-- The commands sent stand behind those that wait already, in their order. -/
theorem State.sendAll_specs (core : Nat) (xs : List MsSpec) (s : State) :
    (s.sendAll core xs).cmdWaits.map (·.spec) = s.cmdWaits.map (·.spec) ++ xs := by
  induction xs generalizing s with
  | nil => exact (List.append_nil _).symm
  | cons x xs ih =>
    rw [State.sendAll, ih]
    simp

theorem State.sendAll_jobs (core : Nat) (xs : List MsSpec) (s : State) : (s.sendAll core xs).jobs = s.jobs := by
  induction xs generalizing s with
  | nil => rfl
  | cons x xs ih =>
    rw [State.sendAll, ih]
    rfl

theorem State.sendAll_mem (core : Nat) (xs : List MsSpec) (s : State) : (s.sendAll core xs).mem = s.mem := by
  induction xs generalizing s with
  | nil => rfl
  | cons x xs ih =>
    rw [State.sendAll, ih]
    rfl

/-! ## The word -/

/-- What a word does with the commands that it has read: it refuses the first ill-formed one, or sends them all (R292). -/
def State.msAct (s : State) (t : Team) (g : Group) (q : BitVec 6) (r : State × List (MsSpec × List Byte)) : Res :=
  Res.gated (match r.2.findIdx? (fun x => msBad x.1 x.2) with
    | some k => r.1.fin q stRejected k
    | none => r.1.msSend g q (r.2.map (·.1))) s t g

/-- The word and whether its commands are of `MSATOM`. -/
theorem exec_ms {i : Instr} {e : EF} {n : Fin 16} {atom : Bool} (hi : atom = false ∧ i = .msred e n ∨ atom = true ∧ i = .msatom e n)
    (s : State) : exec i s = s.msWord atom e (n.val + 1) := by
  rcases hi with ⟨rfl, rfl⟩ | ⟨rfl, rfl⟩ <;> rfl

section
variable {s : State} {t : Team} {g : Group} {e : EF} {a : ScrAt} (h : s.EReady t g [e.p.toNat])
  (hat : s.scrAt t.id (g.sreg e.p.toNat).toNat 32 = .ok a) (atom : Bool) (n : Nat)
include h hat

theorem State.EReady.msWord_misaligned (hal : (g.sreg e.p.toNat).toNat % 32 ≠ 0) :
    s.msWord atom e n = .next (s.trapNow (s.wordTrap 7 0 (g.sreg e.p.toNat).toNat 0xFF 0)) := by
  rw [State.msWord, h.asE_eq]
  simp only [h.mode_eq, hat, reduceCtorEq, or_self, if_false, if_pos hal, State.finishWait]

theorem State.EReady.msWord_unread (hal : (g.sreg e.p.toNat).toNat % 32 = 0)
    (hread : s.readCmds t.id atom n (g.sreg e.p.toNat).toNat = .error none) :
    s.msWord atom e n = .next { s with iss := { s.iss with stalled := some .busy } } := by
  obtain ⟨-, hmode, -, -, -, hdet⟩ := id h
  rw [State.msWord, h.asE_eq]
  simp [hmode, hat, hal, State.toQueue, hdet, hread, State.finishWait]

theorem State.EReady.msWord_read (hal : (g.sreg e.p.toNat).toNat % 32 = 0) {r : State × List (MsSpec × List Byte)}
    (hread : s.readCmds t.id atom n (g.sreg e.p.toNat).toNat = .ok r) :
    s.msWord atom e n = s.finishWait [e.p.toNat] [e.q.toNat] e.q e.x none (s.msAct t g e.q r) := by
  obtain ⟨-, hmode, -, -, -, hdet⟩ := id h
  rw [State.msWord, h.asE_eq]
  simp only [hmode, hat, hal, State.toQueue, hdet, hread, reduceCtorEq, or_self, if_false, ne_eq, not_true_eq_false, Bool.false_and,
    Bool.false_eq_true]
  rfl

end

section
variable {s : State} {t : Team} {g : Group} {s1 : State} {cs : List (MsSpec × List Byte)} (q : BitVec 6)

theorem State.msAct_rejects {k : Nat} (hbad : cs.findIdx? (fun x => msBad x.1 x.2) = some k) :
    s.msAct t g q (s1, cs) = .done ((s1.putStatus q stRejected k).poisonGate s t g) := by
  unfold State.msAct
  rw [hbad]
  rfl

theorem State.msAct_sends (hgood : cs.findIdx? (fun x => msBad x.1 x.2) = none)
    (hroom : (s1.cmdWaits.filter (fun c => c.core == g.core)).length + cs.length ≤ Config.cmdQueue) :
    let s2 := s1.sendAll g.core (cs.map (·.1))
    s.msAct t g q (s1, cs) = .done ((s2.pump.putStatus q stOk (((s2.team? s1.iss.grp.team).map (fun y =>
      (y.msCtr (((cs.map (·.1)).getLast?.map (·.ctgt)).getD 0)).issued.toNat)).getD 0)).poisonGate s t g) := by
  unfold State.msAct
  rw [hgood]
  dsimp only
  rw [State.msSend, List.length_map, if_neg (Nat.not_lt.2 hroom)]
  rfl

theorem State.msAct_waits (hgood : cs.findIdx? (fun x => msBad x.1 x.2) = none)
    (hfull : Config.cmdQueue < (s1.cmdWaits.filter (fun c => c.core == g.core)).length + cs.length) :
    s.msAct t g q (s1, cs) = .wait ((s1.keepSends (cs.map (·.1))).poisonGate s t g) 0 := by
  unfold State.msAct
  rw [hgood]
  dsimp only
  rw [State.msSend, List.length_map, if_pos hfull]
  rfl

end

/-- Settles O41: the word as far as its commands can be read, then what it does with those it has read. -/
theorem memSideWords : Obligations.MemSideWords := by
  unfold Obligations.MemSideWords
  intro s t g e n atom i a hi h addr hat
  rw [exec_ms hi]
  refine ⟨h.msWord_misaligned hat atom _, h.msWord_unread hat atom _, fun s1 cs hal hread => ?_⟩
  rw [h.msWord_read hat atom _ hal hread]
  refine ⟨fun k hbad => ?rejected, fun hgood => ⟨fun hroom => ?sent, fun hfull => ?waits⟩⟩
  case rejected => rw [State.msAct_rejects e.q hbad, State.finishWait_done]
  case sent =>
    have hpoison := Poisons.readCmds hread
    rw [State.msAct_sends e.q hgood hroom, State.finishWait_done]
    exact ⟨rfl, State.sendAll_specs _ _ _, (State.sendAll_jobs _ _ _).trans (hpoison.keep State.jobs fun _ _ _ => rfl),
      fun _ => by rw [State.sendAll_mem, hpoison.frame.mem]⟩
  case waits => rw [State.msAct_waits e.q hgood hfull, State.finishWait_wait h.mode_eq]

end Sys2Proof.Machine

/-! # What the operations of homes and caches leave of the cores

Of a core, an operation of homes or first-level caches changes what its L1 holds and nothing else: its replay queue, its loads and its
port slots stay. The relation `CachesOnly` says so, of every operation that a core's load is made of. -/

namespace Sys2Proof.Machine

open Sys2Proof

/-- A core without what its first-level cache holds. -/
def Core.cacheless (c : Core) : Core := { c with tags := [], self := [] }

theorem Core.num_of_cacheless {c d : Core} (h : d.cacheless = c.cacheless) : d.num = c.num := by
  change d.cacheless.num = c.cacheless.num
  rw [h]

theorem Core.with_own_num {c : Core} {n : Nat} (h : c.num = n) : { c with num := n } = c := by
  subst h
  rfl

/-- From one state to another cores differ at most in what their first-level caches hold. -/
def CachesOnly (s s' : State) : Prop := ∀ n, (s'.core n).cacheless = (s.core n).cacheless

namespace CachesOnly

theorem refl (s : State) : CachesOnly s s := fun _ => rfl

theorem trans {s s' s'' : State} (h1 : CachesOnly s s') (h2 : CachesOnly s' s'') : CachesOnly s s'' :=
  fun n => (h2 n).trans (h1 n)

theorem foldl {β : Type} {f : State → β → State} (step : ∀ s x, CachesOnly s (f s x)) (l : List β) (s : State) :
    CachesOnly s (l.foldl f s) :=
  foldl_related (R := CachesOnly) refl trans step l s

/-- What does not depend on the caches is the same of every core. -/
theorem core_map {s s' : State} (h : CachesOnly s s') {α : Type} (p : Core → α) (hp : ∀ c : Core, p c.cacheless = p c) (n : Nat) :
    p (s'.core n) = p (s.core n) := by
  rw [← hp, h n, hp]

theorem of_cores {s s' : State} (h : s'.cores = s.cores) : CachesOnly s s' := fun n => by
  rw [State.core, State.core, h]

/-- Every core changed in its cache. -/
theorem map_cores {s s' : State} {f : Core → Core} (h : s'.cores = s.cores.map f) (hf : ∀ c, (f c).cacheless = c.cacheless) :
    CachesOnly s s' := fun n => by
  have hn : ∀ c, (f c).num = c.num := fun c => Core.num_of_cacheless (hf c)
  have hfind : (s.cores.map f).find? (fun c => c.num == n) = (s.cores.find? (fun c => c.num == n)).map f := by
    rw [List.find?_map]
    exact congrArg (Option.map f) (congrArg (s.cores.find? ·) (funext fun c => by simp [hn]))
  rw [State.core, State.core, h, hfind]
  cases s.cores.find? (fun c => c.num == n) with
  | none => rfl
  | some c => exact hf c

theorem modCore (s : State) (n : Nat) {f : Core → Core} (hf : ∀ c, (f c).cacheless = c.cacheless) : CachesOnly s (s.modCore n f) :=
  fun k => by
    by_cases hk : k = n
    · subst hk
      have hnum : (f (s.core k)).num = k := (Core.num_of_cacheless (hf _)).trans (s.core_num k)
      rw [State.core_modCore_self, Core.with_own_num hnum, hf]
    · rw [State.core_modCore_ne s f hk]

theorem count (s : State) (w reg n : Nat) : CachesOnly s (s.count w reg n) := of_cores rfl

/-! ## Homes -/

theorem giveBack (s : State) (p : Nat × Byte × Nat → Bool) : CachesOnly s (s.giveBack p) := by
  unfold State.giveBack
  extract_lets out lost isLost s1
  have h1 : CachesOnly s s1 := of_cores rfl
  exact h1.trans (foldl (fun s _ => count s _ _ _) _ s1)

theorem recallLine (s : State) (pa : Nat) : CachesOnly s (s.recallLine pa) := (giveBack s _).trans (map_cores rfl fun _ => rfl)

theorem regionDrop (s : State) (r : Region) (core : Option Nat) : CachesOnly s (s.regionDrop r core) :=
  (giveBack s _).trans (map_cores rfl fun c => by split <;> rfl)

theorem recallAll (s : State) (pa : Nat) : CachesOnly s (s.recallAll pa) := by
  unfold State.recallAll
  refine CachesOnly.trans ?_ (recallLine _ pa)
  split
  · exact (regionDrop s _ _).trans (of_cores rfl)
  · exact refl s

theorem homePut (s : State) (pa : Nat) (v : Byte) : CachesOnly s (s.homePut pa v) := by
  have hunverify : CachesOnly s (s.unverify pa) := by
    unfold State.unverify
    split <;> exact of_cores rfl
  unfold State.homePut
  split
  · exact refl s
  · refine hunverify.trans ?_
    extract_lets
    split <;> exact of_cores rfl

theorem putCells (s : State) (attr : Nat) (cells : List (Nat × Byte)) : CachesOnly s (s.putCells attr cells) := by
  induction cells generalizing s with
  | nil => exact refl s
  | cons c cs ih => exact (homePut s _ _).trans (ih _)

theorem noticed (s : State) (pas : List Nat) : CachesOnly s (s.noticed pas) := by
  unfold State.noticed
  split <;> exact of_cores rfl

theorem wrote (s : State) (after pas : List Nat) : CachesOnly s (s.wrote after pas) := by
  have hpushes (after : List Nat) : CachesOnly s (s.pushesAt after pas) := by
    refine foldl (fun s x => ?_) _ _
    split
    · extract_lets fl bad s1
      split <;> exact of_cores rfl
    · exact refl s
  unfold State.wrote
  extract_lets behind s1 ids
  have h1 : CachesOnly s s1 := hpushes behind
  split
  · exact h1
  · exact h1.trans (of_cores rfl)

theorem perform (s : State) (h : HeldWrite) : CachesOnly s (s.perform h) := by
  unfold State.perform
  extract_lets s0 s1
  have h0 : CachesOnly s s0 := by
    unfold s0
    split
    · cases h.cells with
      | nil => exact refl s
      | cons c cs => exact recallAll s _
    · exact refl s
  have h1 : CachesOnly s s1 := (h0.trans (putCells _ _ _)).trans (noticed _ _)
  split
  · exact h1.trans (wrote _ _ _)
  · exact h1

theorem snoopWrite (s : State) (h : HeldWrite) (line : Nat) : CachesOnly s (s.snoopWrite h line) := by
  have hsnoop : CachesOnly s (s.sendSnoop line) := by
    unfold State.sendSnoop
    split <;> exact of_cores rfl
  exact hsnoop.trans (of_cores rfl)

theorem writeLine (s : State) (h : HeldWrite) : CachesOnly s (s.writeLine h) := by
  unfold State.writeLine
  split
  · exact refl s
  · extract_lets p
    split
    · exact count s _ _ _
    · split
      · exact of_cores rfl
      · split
        · exact snoopWrite s h _
        · split
          · exact of_cores rfl
          · exact perform s h

/-! ## First-level caches -/

theorem selfOut (s : State) (core line : Nat) (ids : List Nat) : CachesOnly s (s.selfOut core line ids) := by
  induction ids generalizing s with
  | nil => exact refl s
  | cons id ids ih =>
    unfold State.selfOut
    extract_lets mine cells s1
    split
    · exact refl s
    · have h1 : CachesOnly s s1 := modCore s core fun _ => rfl
      exact (h1.trans (writeLine _ _)).trans (ih _)

theorem writeBack (s : State) (core line : Nat) : CachesOnly s (s.writeBack core line) := by
  unfold State.writeBack
  extract_lets s0 lost s1
  have h0 : CachesOnly s s0 := giveBack s _
  have h1 : CachesOnly s0 s1 := by
    unfold s1
    split
    · have hself : CachesOnly s0 (s0.modCore core fun c => { c with self := c.self.filter (fun b => !lost b) }) :=
        modCore s0 core fun _ => rfl
      exact hself.trans (count _ _ _ _)
    · exact refl _
  exact (h0.trans h1).trans (selfOut _ _ _ _)

theorem touchLine (s : State) (core pa : Nat) (hint : Bool) : CachesOnly s (s.touchLine core pa hint) := by
  have hdrop (line : Nat) : CachesOnly s (s.dropLine core line) := (writeBack s core line).trans (modCore _ _ fun _ => rfl)
  unfold State.touchLine
  extract_lets line c inSet place
  split
  · exact modCore s _ fun _ => rfl
  · split
    · exact modCore s _ fun _ => rfl
    · split
      · exact (hdrop _).trans (modCore _ _ fun _ => rfl)
      · exact refl s

theorem selfFill (s : State) (core pa : Nat) : CachesOnly s (s.selfFill core pa) := by
  unfold State.selfFill
  exact modCore s core fun _ => rfl

theorem loadPart (s : State) (core attr pa n : Nat) (hint : Bool) : CachesOnly s (s.loadPart core attr pa n hint).1 := by
  unfold State.loadPart
  split
  · refine foldl (fun s a => ?_) _ s
    have hregion : CachesOnly s (s.regionLoad core (s.fwd a)) := of_cores rfl
    exact hregion.trans (touchLine _ core _ hint)
  · split
    · refine foldl (fun s a => ?_) _ s
      extract_lets s1
      have h1 : CachesOnly s s1 := touchLine s core a hint
      split
      · exact h1
      · exact h1.trans (selfFill s1 core a)
    · exact refl s

theorem loadParts (s : State) (core : Nat) (hint : Bool) (ps : List Part) : CachesOnly s (s.loadParts core hint ps).1 := by
  induction ps generalizing s with
  | nil => exact refl s
  | cons p ps ih =>
    unfold State.loadParts
    split
    · exact ih s
    · extract_lets a r
      refine CachesOnly.trans (s' := a.1) ?_ (ih _)
      unfold a
      split
      · exact refl s
      · exact loadPart s core _ _ _ hint

end CachesOnly

end Sys2Proof.Machine

/-! # `LD` and `ATOM` on elements that all translate (R139, R151, R153, R154, R171, R172) -/

namespace Sys2Proof.Machine

open Sys2Proof

/-! ## A word of which nothing parks -/

theorem State.memGate_passes {s : State} {g : Group} {x : Sorted} {write : Bool} (htrap : g.trapMask = none)
    (hroom : (s.core g.core).replay.length + x.beats.length ≤ Config.replayQ) (hbusy : s.pageBusy g x write = false) (f : Res) :
    s.memGate g x write f = f := by
  simp [State.memGate, hbusy, htrap, hroom]

theorem Sorted.beats_of_bad {x : Sorted} (h : x.bad = []) : x.beats = [] := by
  simp [Sorted.beats, h]

/-- Where every element translates, nothing parks and no trap is pending. -/
theorem State.parks_nothing {x : Sorted} (hbad : x.bad = []) (hfirst : x.first = none) (s : State) (core : Nat) (kind : ParkKind)
    (load : Nat) (hint : Bool) (mk : Elem → ParkElem) (write : Bool) :
    (s.parkBeats core kind load hint x mk x.beats).parkTrap x write = s := by
  rw [Sorted.beats_of_bad hbad, State.parkBeats, State.parkTrap, hfirst]

/-- Outside trap mode poison ends no team (R299). -/
theorem State.poisonGate_outside {g : Group} (h : g.trapMask = none) (s before : State) (t : Team) : s.poisonGate before t g = s := by
  unfold State.poisonGate
  split
  · simp [h]
  · rfl

/-- An element of a load as it parks (R301). -/
def Elem.loadPark (regs : List Nat) (e : Elem) : ParkElem := { thread := e.t, addr := e.addr, data := [], regs := regs, row := 0 }

section
variable {s : State} {t : Team} {g : Group} {d : Os} {m : MAddr}

/-- A load outside trap mode performs the elements that translate, in order, and parks the others, where the replay queue has room
(R151, R153, R154, R301). -/
theorem exec_ld_parks {ty : MemTy}
    (h : s.MReady t g (d.run ty.regs ++ m.x.vregs) m.x.vregs (m.s.toNat :: m.x.sregs) (popsOf [m.x]) d.queue)
    (htrap : g.trapMask = none) (hint : Bool) {x : Sorted}
    (hx : s.sortElems g.core t.space s.iss.grp .read ty.size (g.elems s.iss.mask s.iss.lit m ty.size) = x)
    (hroom : (s.core g.core).replay.length + x.beats.length ≤ Config.replayQ) (hbusy : s.pageBusy g x false = false) :
    let beats := beatsOf g.width s.iss.mask
    let r := (s.tick.popAll beats (popsOf [m.x])).loadAll g (s.isDet t.id && ty != .prv) ty hint d.queue.isSome x.ok
    exec (.ld ty d m hint) s = .next (((r.1.results t beats (d.run ty.regs) d.queue r.2 x.bad s.fresh).parkBeats g.core (.load ty)
      s.fresh hint x (Elem.loadPark (d.run ty.regs)) x.beats).parkTrap x false) := by
  show execLd ty d m hint s = _
  rw [execLd, h.asM_eq]
  simp only [hx, State.memGate_passes htrap hroom hbusy, State.poisonGate_outside htrap, State.finish_done]
  rfl

/-- Where its elements all translate, a load performs them. -/
theorem exec_ld {ty : MemTy} (h : s.MReady t g (d.run ty.regs ++ m.x.vregs) m.x.vregs (m.s.toNat :: m.x.sregs) (popsOf [m.x]) d.queue)
    (htrap : g.trapMask = none) (hroom : (s.core g.core).replay.length ≤ Config.replayQ) (hint : Bool) {x : Sorted}
    (hx : s.sortElems g.core t.space s.iss.grp .read ty.size (g.elems s.iss.mask s.iss.lit m ty.size) = x)
    (hbad : x.bad = []) (hfirst : x.first = none) (hbusy : s.pageBusy g x false = false) :
    let beats := beatsOf g.width s.iss.mask
    let r := (s.tick.popAll beats (popsOf [m.x])).loadAll g (s.isDet t.id && ty != .prv) ty hint d.queue.isSome x.ok
    exec (.ld ty d m hint) s = .next (r.1.results t beats (d.run ty.regs) d.queue r.2 [] s.fresh) := by
  have hroom' : (s.core g.core).replay.length + x.beats.length ≤ Config.replayQ := by
    rwa [Sorted.beats_of_bad hbad]
  intro beats r
  rw [exec_ld_parks h htrap hint hx hroom' hbusy, State.parks_nothing hbad hfirst, hbad]

/-- An atomic outside trap mode, of aligned elements that all translate and wait for nothing, performs them in order (R171, R172). -/
theorem exec_atom {op : AtomOp} (h : s.MReady t g (atomRegs op d ++ m.x.vregs) (atomRegs op d ++ m.x.vregs)
      (m.s.toNat :: m.x.sregs) (popsOf [m.x]) none) (hwid : s.iss.wid = 0) (htrap : g.trapMask = none)
    (hroom : (s.core g.core).replay.length ≤ Config.replayQ) (hdet : s.isDet t.id = false)
    (hal : misaligned (g.elems s.iss.mask s.iss.lit m 4) 4 = none) {x : Sorted}
    (hx : s.sortElems g.core t.space s.iss.grp .write 4 (g.elems s.iss.mask s.iss.lit m 4) = x)
    (hbad : x.bad = []) (hfirst : x.first = none) (hbusy : s.pageBusy g x true = false) (hatom : s.atomBusy x = false) :
    let beats := beatsOf g.width s.iss.mask
    let r := (s.tick.popAll beats (popsOf [m.x])).atomAll g op (s.atomElems g op d m) x.ok
    exec (.atom op d m) s = .next (r.1.results t beats (d.run 1) none r.2 [] s.fresh) := by
  have hroom' : (s.core g.core).replay.length + x.beats.length ≤ Config.replayQ := by
    rwa [Sorted.beats_of_bad hbad]
  have hpop (beats : List Nat) : s.tick.atomPop m beats = s.tick.popAll beats (popsOf [m.x]) := if_pos hwid
  show execAtom op d m s = _
  rw [execAtom, State.atomWord, if_pos hwid, h.asM_eq]
  simp only [State.atomElems_elem g op d m hwid, hal, State.toQueue, hdet, Bool.false_and, Bool.false_eq_true, if_false, hx,
    State.memGate_passes htrap hroom' hbusy, hatom, hpop, State.parks_nothing hbad hfirst, State.poisonGate_outside htrap,
    State.finish_done, hbad]

end

/-! ## One element of a `DIR` page -/

/-- Each performed element gives its thread's words, in the word's order. -/
theorem State.loadAll_threads (g : Group) (det : Bool) (ty : MemTy) (hint up : Bool) (l : List (Elem × List Part)) (s : State) :
    (s.loadAll g det ty hint up l).2.map (·.1) = l.map (·.1.t) := by
  induction l generalizing s with
  | nil => rfl
  | cons x l ih => exact congrArg (x.1.t :: ·) (ih _)

theorem SameReads.saw (s : State) (g : GrpId) (pas : List Nat) : SameReads s (s.saw g pas) := by
  unfold State.saw
  extract_lets ids
  split
  · exact refl s
  · exact modGrp s g fun _ => rfl

/-- What a group has seen is no part of memory. -/
theorem State.physReadN_saw (s : State) (g : GrpId) (pas : List Nat) (pa n : Nat) : (s.saw g pas).physReadN pa n = s.physReadN pa n := by
  unfold State.saw
  extract_lets ids
  split <;> rfl

theorem State.anyBad_saw (s : State) (g : GrpId) (pas : List Nat) (pa n : Nat) : (s.saw g pas).anyBad pa n = s.anyBad pa n := by
  unfold State.saw
  extract_lets ids
  split <;> rfl

/-- What does not depend on its waits is the same of every group. -/
theorem Notices.grp_map {s u : State} (h : Notices s u) {α : Type} (p : Group → α) (hp : ∀ g : Group, p g.waitless = p g) (k : GrpId) :
    (u.grp? k).map p = (s.grp? k).map p := by
  have hgrp : ∀ v : State, (v.grp? k).map p =
      ((v.team? k.team).map Team.noticeless).bind (fun t => (t.groups[k.grp]?).map p) := fun v => by
    rw [State.grp?]
    cases v.team? k.team with
    | none => rfl
    | some t => simp [Team.noticeless, Function.comp_def, hp]
  rw [hgrp, hgrp, h.team]

/-- Work of homes and caches puts no port slot right and makes none bad. -/
theorem Notices.slotBad {s u : State} (h : Notices s u) (hc : CachesOnly s u) (by_ : Issuer) (core : Nat) :
    u.slotBad by_ core = s.slotBad by_ core := by
  have hpipe := h.grp_map (fun g => g.pipe / 2) (fun _ => rfl) ⟨by_.team, by_.grp⟩
  unfold State.slotBad
  rw [hpipe, hc.core_map Core.badSlots (fun _ => rfl)]

/-- An element of one part of a `DIR` page, with no byte uncorrectable, that crosses in a good slot where it crosses at all, gives the
coherent bytes (R139, R154). -/
theorem State.loadElem_dir {s : State} {by_ : Issuer} {core : Nat} {p : Part} {up : Bool} (hpoison : p.x.poison = false)
    (hmem : p.x.memside = false) (hattr : p.x.attr = 0) (hgood : s.anyBad p.x.pa p.n = false)
    (hport : up = false ∨ s.slotBad by_ core = none) (va : Nat) (hint : Bool) :
    (s.loadElem by_ core va [p] hint up).2 = s.physReadN p.x.pa p.n := by
  let u := s.saw ⟨by_.team, by_.grp⟩ (s.partPas [p])
  have hgood' : u.anyBad p.x.pa p.n = false := (s.anyBad_saw _ _ _ _).trans hgood
  have hread : u.physReadN p.x.pa p.n = s.physReadN p.x.pa p.n := s.physReadN_saw _ _ _ _
  have hparts : u.loadParts core hint [p] = ((u.loadPart core 0 p.x.pa p.n hint).1, s.physReadN p.x.pa p.n, 0) := by
    simp [State.loadParts, State.loadPart, hpoison, hmem, hattr, hgood', hread]
  have hslot : up = true → (u.loadPart core 0 p.x.pa p.n hint).1.slotBad by_ core = none := fun hup => by
    rw [(Notices.loadPart u core 0 _ _ hint).slotBad (CachesOnly.loadPart u core 0 _ _ hint), (SameReads.saw s _ _).port]
    exact hport.resolve_left (by simp [hup])
  unfold State.loadElem
  rw [hparts]
  dsimp only
  rw [if_pos rfl]
  split
  · next hup => rw [State.crossUp, hslot hup]
  · rfl

/-- Settles O26: the words as their skeleton leaves them, and one element by the read of its part. -/
theorem memoryLoads : Obligations.MemoryLoads := by
  unfold Obligations.MemoryLoads
  intro s t g d m htrap hroom beats
  refine ⟨fun ty hint hready => ?ld, fun op hwid hready => ?atom⟩
  case ld =>
    intro x hbad hfirst hbusy r
    refine ⟨exec_ld hready htrap hroom hint rfl hbad hfirst hbusy, State.loadAll_threads g _ ty hint _ x.ok _,
      fun e p hok hdet hpoison hmem hattr hgood hport => ?_⟩
    have hpop := SameReads.popAll s.tick beats (popsOf [m.x])
    have hport' : d.queue.isSome = false ∨
        (s.tick.popAll beats (popsOf [m.x])).slotBad { s.issuer with mask := BitVec.twoPow 64 e.t } g.core = none := by
      rcases hport with hnone | hslot
      · exact .inl (by rw [hnone]; rfl)
      · rw [hpop.port]
        exact .inr hslot
    have helem := State.loadElem_dir (s := s.tick.popAll beats (popsOf [m.x])) hpoison hmem hattr hgood hport' e.addr hint
    change ((s.tick.popAll beats (popsOf [m.x])).loadAll g (s.isDet t.id && ty != .prv) ty hint d.queue.isSome x.ok).2 = _
    rw [hok, hdet]
    exact congrArg (fun bs => [(e.t, loadWords ty bs)]) helem
  case atom =>
    intro es x hdet hal hbad hfirst hbusy hatom
    exact exec_atom hready hwid htrap hroom hdet hal rfl hbad hfirst hbusy hatom

end Sys2Proof.Machine

/-! # Loads that fault and park, the end of a load word and of a walk (R151, R191, R256, R301, R302, R363) -/

namespace Sys2Proof.Machine

open Sys2Proof

/-! ## What a load leaves of the replay queues -/

/-- From one state to another every core's replay queue is the same. -/
def ReplayKeeps (s s' : State) : Prop := ∀ n, (s'.core n).replay = (s.core n).replay

namespace ReplayKeeps

theorem refl (s : State) : ReplayKeeps s s := fun _ => rfl

theorem trans {s s' s'' : State} (h1 : ReplayKeeps s s') (h2 : ReplayKeeps s' s'') : ReplayKeeps s s'' :=
  fun n => (h2 n).trans (h1 n)

theorem of_cores {s s' : State} (h : s'.cores = s.cores) : ReplayKeeps s s' := fun n => by
  rw [State.core, State.core, h]

theorem of_caches {s s' : State} (h : CachesOnly s s') : ReplayKeeps s s' := h.core_map Core.replay fun _ => rfl

theorem of_poisons {s s' : State} (h : Poisons s s') : ReplayKeeps s s' := of_cores (h.keep State.cores fun _ _ _ => rfl)

theorem modCore (s : State) (n : Nat) {f : Core → Core} (hf : ∀ c, (f c).replay = c.replay) : ReplayKeeps s (s.modCore n f) :=
  fun k => by
    by_cases hk : k = n
    · subst hk
      rw [State.core_modCore_self]
      exact hf _
    · rw [State.core_modCore_ne s f hk]

theorem saw (s : State) (g : GrpId) (pas : List Nat) : ReplayKeeps s (s.saw g pas) := by
  unfold State.saw
  extract_lets ids
  split <;> exact of_cores rfl

theorem crossUp (s : State) (by_ : Issuer) (core va : Nat) (bs : List Byte) : ReplayKeeps s (s.crossUp by_ core va bs).1 := by
  unfold State.crossUp
  split
  · exact refl s
  · next p _ =>
    have hslot : ReplayKeeps s (s.modCore core fun c => { c with badSlots := c.badSlots.erase p }) := modCore s core fun _ => rfl
    exact hslot.trans (of_poisons (Poisons.met _ by_ va))

theorem loadElem (s : State) (by_ : Issuer) (core va : Nat) (ps : List Part) (hint up : Bool) :
    ReplayKeeps s (s.loadElem by_ core va ps hint up).1 := by
  unfold State.loadElem
  extract_lets r zero
  have hr : ReplayKeeps s r.1 := (saw s _ _).trans (of_caches (CachesOnly.loadParts _ core hint ps))
  split
  · split
    · exact hr.trans (crossUp _ by_ core va _)
    · exact hr
  · split
    · exact hr.trans (of_poisons (Poisons.meetPoisonPage _ by_ core va))
    · exact hr.trans (of_poisons (Poisons.meetAt _ by_ va _))

theorem loadDet (s : State) (by_ : Issuer) (g : Group) (e : Elem) (ps : List Part) (hint up : Bool) :
    ReplayKeeps s (s.loadDet by_ g e ps hint up).1 := by
  unfold State.loadDet
  extract_lets own cross r
  have hcross : ∀ (u : State) (bs : List Byte), ReplayKeeps u (cross u bs).1 := fun u bs => by
    unfold cross
    split
    · exact crossUp u by_ _ _ bs
    · exact refl u
  split
  · exact hcross s _
  · split
    · exact loadElem s by_ _ _ ps hint up
    · exact (of_caches (CachesOnly.loadParts s g.core hint ps)).trans (hcross _ _)

theorem loadAll (g : Group) (det : Bool) (ty : MemTy) (hint up : Bool) (l : List (Elem × List Part)) (s : State) :
    ReplayKeeps s (s.loadAll g det ty hint up l).1 := by
  induction l generalizing s with
  | nil => exact refl s
  | cons x l ih =>
    obtain ⟨e, ps⟩ := x
    cases det with
    | false => exact (loadElem s _ g.core e.addr ps hint up).trans (ih _)
    | true => exact (loadDet s _ g e ps hint up).trans (ih _)

theorem results (s : State) (t : Team) (beats regs : List Nat) (q : Option Nat) (vals : List (Nat × List Word)) (bad : List Elem)
    (load : Nat) : ReplayKeeps s (s.results t beats regs q vals bad load) := by
  unfold State.results
  extract_lets i s1 s2 r
  split
  · split <;> exact of_cores rfl
  · have h2 : ReplayKeeps s s2 := of_cores rfl
    split
    · exact h2.trans (modCore s2 _ fun _ => rfl)
    · exact h2

end ReplayKeeps

theorem RegsKeep.loadAll (g : Group) (det : Bool) (ty : MemTy) (hint up : Bool) (l : List (Elem × List Part)) (s : State) :
    RegsKeep s (s.loadAll g det ty hint up l).1 := by
  induction l generalizing s with
  | nil => exact refl s
  | cons x l ih =>
    obtain ⟨e, ps⟩ := x
    cases det with
    | false => exact (loadElem s _ g.core e.addr ps hint up).trans (ih _)
    | true => exact (loadDet s _ g e ps hint up).trans (ih _)

theorem RegsKeep.results (s : State) (t : Team) (beats regs : List Nat) (q : Option Nat) (vals : List (Nat × List Word)) (bad : List Elem)
    (load : Nat) : RegsKeep s (s.results t beats regs q vals bad load) := by
  unfold State.results
  extract_lets i s1 s2 r
  have h1 : RegsKeep s s1 := modGrp s _ fun _ => rfl
  split
  · split
    · exact h1.trans (modGrp s1 _ fun _ => rfl)
    · exact h1
  · have h2 : RegsKeep s s2 := h1.trans (modGrp s1 _ fun _ => rfl)
    split
    · exact h2.trans (modCore s2 _ _)
    · exact h2

/-! ## Elements that park -/

/-- An entry of a load's elements in one beat, with the fault of the beat's own first failing thread (R301). -/
def Park.ofBeat (gid : GrpId) (kind : ParkKind) (x : Sorted) (p : Park) : Prop :=
  p.kind = kind ∧ p.grp = gid ∧ p.cause = 8 ∧ p.addr = (x.beatFault p.beat).2 ∧ p.detail = (x.beatFault p.beat).1.detail ∧
    p.level = (x.beatFault p.beat).1.level

/-- Parking adds one entry for each beat at the end of the core's replay queue. -/
theorem State.parkBeats_replay (core : Nat) (kind : ParkKind) (load : Nat) (hint : Bool) (x : Sorted) (mk : Elem → ParkElem)
    (ks : List Nat) (s : State) :
    ∃ ps, ((s.parkBeats core kind load hint x mk ks).core core).replay = (s.core core).replay ++ ps ∧ ps.map (·.beat) = ks ∧
      ∀ p ∈ ps, p.ofBeat s.iss.grp kind x := by
  induction ks generalizing s with
  | nil => exact ⟨[], (List.append_nil _).symm, rfl, fun _ hp => absurd hp List.not_mem_nil⟩
  | cons k ks ih =>
    unfold State.parkBeats
    extract_lets es f p u
    obtain ⟨ps, hreplay, hbeats, hps⟩ := ih u
    have hu : (u.core core).replay = (s.core core).replay ++ [p] := by
      unfold u
      rw [State.core_modCore_self]
      rfl
    refine ⟨p :: ps, by rw [hreplay, hu, List.append_assoc]; rfl, congrArg (k :: ·) hbeats, fun y hy => ?_⟩
    rcases List.mem_cons.1 hy with rfl | hy
    · exact ⟨rfl, rfl, rfl, rfl, rfl, rfl⟩
    · exact hps y hy

theorem State.parkBeats_regs (core : Nat) (kind : ParkKind) (load : Nat) (hint : Bool) (x : Sorted) (mk : Elem → ParkElem)
    (ks : List Nat) (s : State) : RegsKeep s (s.parkBeats core kind load hint x mk ks) := by
  induction ks generalizing s with
  | nil => exact .refl s
  | cons k ks ih =>
    unfold State.parkBeats
    extract_lets es f p u
    have hu : RegsKeep s u := .of_teams rfl rfl
    exact hu.trans (ih u)

/-- A word whose first failure is known has a `PAGE_FAULT` pending at its group (R298, R301). -/
theorem State.parkTrap_pends {s : State} {x : Sorted} {e : PFault × Nat} {g : Group} (hfirst : x.first = some e)
    (hg : s.grp? s.iss.grp = some g) (write : Bool) :
    ∃ g', (s.parkTrap x write).grp? s.iss.grp = some g' ∧ ∃ y ∈ g'.traps, y.cause = 8 := by
  unfold State.parkTrap
  rw [hfirst]
  dsimp only
  rw [State.grp?_modGrp_self, hg]
  exact ⟨_, rfl, Group.pend_cause g _⟩

theorem State.parkTrap_replay (s : State) (x : Sorted) (write : Bool) : ReplayKeeps s (s.parkTrap x write) := by
  unfold State.parkTrap
  split <;> exact .of_cores rfl

theorem RegsKeep.grp_some {s s' : State} (h : RegsKeep s s') {k : GrpId} {g : Group} (hg : s.grp? k = some g) :
    ∃ g', s'.grp? k = some g' := by
  have hregs := h.regs k
  rw [hg, Option.map_some, Option.map_eq_some_iff] at hregs
  obtain ⟨g', hg', -⟩ := hregs
  exact ⟨g', hg'⟩

section
variable {s : State} {t : Team} {g : Group} {ty : MemTy} {d : Os} {m : MAddr} {x : Sorted} {f : PFault} {a : Nat}
  (h : s.MReady t g (d.run ty.regs ++ m.x.vregs) m.x.vregs (m.s.toNat :: m.x.sregs) (popsOf [m.x]) d.queue)
  (htrap : g.trapMask = none)
  (hx : s.sortElems g.core t.space s.iss.grp .read ty.size (g.elems s.iss.mask s.iss.lit m ty.size) = x)
  (hfirst : x.first = some (f, a)) (hbusy : s.pageBusy g x false = false) (hint : Bool)
include h hx hfirst hbusy

/-- Without room in the replay queue the word traps at once, `NOTPARKED` (R301, R302). -/
theorem exec_ld_notParked (hfull : Config.replayQ < (s.core g.core).replay.length + x.beats.length) :
    exec (.ld ty d m hint) s = .next (s.trapNow (s.wordTrap 8 f.detail a f.level 4)) := by
  have hgate (r : Res) : s.memGate g x false r = .trap (s.wordTrap 8 f.detail a f.level 4) := by
    simp [State.memGate, hbusy, hfull, Sorted.fault, hfirst]
  show execLd ty d m hint s = _
  rw [execLd, h.asM_eq]
  simp only [hx, hgate]
  rfl

include htrap

theorem exec_ld_parked (hroom : (s.core g.core).replay.length + x.beats.length ≤ Config.replayQ) :
    ∃ s' g' ps, exec (.ld ty d m hint) s = .next s' ∧ (s'.core g.core).replay = (s.core g.core).replay ++ ps ∧
      ps.map (·.beat) = x.beats ∧ (∀ p ∈ ps, p.ofBeat s.iss.grp (.load ty) x) ∧ s'.grp? s.iss.grp = some g' ∧
      ∃ y ∈ g'.traps, y.cause = 8 := by
  have hexec := exec_ld_parks h htrap hint hx hroom hbusy
  obtain ⟨⟨-, hg⟩, -⟩ := h
  let u := s.tick.popAll (beatsOf g.width s.iss.mask) (popsOf [m.x])
  let r := u.loadAll g (s.isDet t.id && ty != .prv) ty hint d.queue.isSome x.ok
  let s1 := r.1.results t (beatsOf g.width s.iss.mask) (d.run ty.regs) d.queue r.2 x.bad s.fresh
  let s2 := s1.parkBeats g.core (.load ty) s.fresh hint x (Elem.loadPark (d.run ty.regs)) x.beats
  have hpop : RegsKeep s u := RegsKeep.trans (s' := s.tick) (.of_teams rfl rfl) (.modGrp s.tick _ fun g => Group.popQ_foldl_s _ _ g)
  have hpopReplay : ReplayKeeps s u := .of_cores rfl
  have hregs : RegsKeep s s1 := (hpop.trans (.loadAll ..)).trans (.results ..)
  have hreplay : ReplayKeeps s s1 := (hpopReplay.trans (.loadAll g _ ty hint _ x.ok u)).trans (.results r.1 t _ _ _ _ _ _)
  have hregs2 : RegsKeep s s2 := hregs.trans (State.parkBeats_regs ..)
  obtain ⟨ps, hps, hbeats, hof⟩ := State.parkBeats_replay g.core (.load ty) s.fresh hint x (Elem.loadPark (d.run ty.regs)) x.beats s1
  obtain ⟨g2, hg2⟩ := hregs2.grp_some hg
  obtain ⟨g', hg', hpend⟩ := State.parkTrap_pends (write := false) hfirst (hregs2.iss ▸ hg2)
  rw [hregs2.iss] at hg'
  rw [hregs.iss] at hof
  refine ⟨_, g', ps, hexec, ?_, hbeats, hof, hg', hpend⟩
  rw [State.parkTrap_replay _ x false, hps, hreplay]

end

/-! ## The end of a load word -/

/-- A group of which nothing is owed to a load word any more (R151). -/
def Group.paid (id : Nat) (g : Group) : Group :=
  { g with threads := g.threads.map (fun th => { th with pend := th.pend.filter (fun x => x.2 != id) }) }

theorem Group.paid_pend {id : Nat} {g : Group} {th : Thread} (hth : th ∈ (g.paid id).threads) {x : Nat × Nat} (hx : x ∈ th.pend) :
    x.2 ≠ id := by
  obtain ⟨th0, -, rfl⟩ := List.mem_map.1 hth
  simpa using List.of_mem_filter hx

/-- Who consumes a group's queue is told by the queues alone. -/
theorem Team.pushTarget_modGroup (t : Team) (k : Nat) {f : Group → Group} (hf : ∀ g, (f g).q = g.q) (gi n : Nat) :
    (t.modGroup k f).pushTarget gi n = t.pushTarget gi n := by
  have hqueue (g : Group) (j : Nat) : (f g).queue j = g.queue j := by rw [Group.queue, Group.queue, hf]
  unfold Team.pushTarget Team.consumer Team.modGroup
  rw [modAt_length]
  congr 2
  funext i
  by_cases hi : i = k
  · subst hi
    rw [modAt_get_self]
    cases t.groups[i]? with
    | none => rfl
    | some g => simp only [Option.map_some, hqueue]
  · rw [modAt_get_ne f _ hi]

/-- A core without a load word, whose group is owed nothing by it. -/
def State.loadDone (s : State) (core : Nat) (r : LoadRec) : State :=
  (s.modCore core (fun c => { c with loads := c.loads.filter (fun x => x.id != r.id) })).modGrp r.grp (Group.paid r.id)

/-- What a load word's values push into its queue (R151, R256). -/
def LoadRec.value (r : LoadRec) (j : Nat) : Word := ((r.vals.find? (fun x => x.1 == j)).map (·.2)).getD 0

section
variable (s : State) (core : Nat) (r : LoadRec)

/-- A load word that completes is taken off; where it fills a queue, and its group stands, its entry is pushed there. -/
theorem State.completeLoad_cases : s.completeLoad core r = s.loadDone core r ∨
    ∃ n t beats, s.completeLoad core r = (s.loadDone core r).pushLoad t r.grp.grp n beats r.value := by
  unfold State.completeLoad
  extract_lets s1 s2
  split
  · exact .inr ⟨_, _, _, rfl⟩
  · exact .inl rfl

theorem State.completeLoad_sameMem : s.SameMem (s.completeLoad core r) := fun _ => by
  obtain h | ⟨n, t, beats, h⟩ := s.completeLoad_cases core r
  · rw [h]
    rfl
  · rw [h]
    rfl

theorem State.not_mem_completeLoad : r ∉ ((s.completeLoad core r).core core).loads := by
  have hloads : ((s.completeLoad core r).core core).loads = ((s.loadDone core r).core core).loads := by
    obtain h | ⟨n, t, beats, h⟩ := s.completeLoad_cases core r
    · rw [h]
    · rw [h]
      rfl
  have hdone : ((s.loadDone core r).core core).loads = (s.core core).loads.filter (fun x => x.id != r.id) := by
    show ((s.modCore core (fun c => { c with loads := c.loads.filter (fun x => x.id != r.id) })).core core).loads = _
    rw [State.core_modCore_self]
  rw [hloads, hdone]
  exact fun hmem => by simpa using List.of_mem_filter hmem

theorem State.completeLoad_pend {g : Group} (hg : (s.completeLoad core r).grp? r.grp = some g) {th : Thread} (hth : th ∈ g.threads)
    {x : Nat × Nat} (hx : x ∈ th.pend) : x.2 ≠ r.id := by
  have hpaid : ∀ g, (s.loadDone core r).grp? r.grp = some g → ∀ th ∈ g.threads, ∀ x ∈ th.pend, x.2 ≠ r.id :=
      fun g hg th hth x hx => by
    rw [State.loadDone, State.grp?_modGrp_self, Option.map_eq_some_iff] at hg
    obtain ⟨g0, -, rfl⟩ := hg
    exact Group.paid_pend hth hx
  obtain h | ⟨n, t, beats, h⟩ := s.completeLoad_cases core r
  · exact hpaid g (h ▸ hg) th hth x hx
  · rw [h, State.pushLoad] at hg
    generalize (⟨t.id, (t.pushTarget r.grp.grp n).1⟩ : GrpId) = k at hg
    by_cases hk : r.grp = k
    · subst hk
      rw [State.grp?_modGrp_self, Option.map_eq_some_iff] at hg
      obtain ⟨g0, hg0, rfl⟩ := hg
      exact hpaid g0 hg0 th hth x hx
    · rw [State.grp?_modGrp_ne _ _ hk] at hg
      exact hpaid g hg th hth x hx

/-- The entry of a load word that fills a queue is pushed where its consumer takes it (R151, R256). -/
theorem State.completeLoad_push {n : Nat} {t : Team} {g y : Group} (hn : r.q = some n) (ht : s.team? r.grp.team = some t)
    (hg : s.grp? r.grp = some g) (hy : s.grp? ⟨r.grp.team, (t.pushTarget r.grp.grp n).1⟩ = some y) :
    ∃ y', (s.completeLoad core r).grp? ⟨r.grp.team, (t.pushTarget r.grp.grp n).1⟩ = some y' ∧
      y'.q = (y.pushQ (beatsOf g.width r.mask) (t.pushTarget r.grp.grp n).2 r.value).q := by
  let p := t.pushTarget r.grp.grp n
  have htarget : (t.modGroup r.grp.grp (Group.paid r.id)).pushTarget r.grp.grp n = p :=
    t.pushTarget_modGroup _ (f := Group.paid r.id) (fun _ => rfl) _ _
  have hid : t.id = r.grp.team := State.team?_id ht
  have ht1 : (s.loadDone core r).team? r.grp.team = some (t.modGroup r.grp.grp (Group.paid r.id)) := by
    rw [State.loadDone, State.team?_modGrp_self]
    exact congrArg (Option.map _) ht
  have hg1 : (s.loadDone core r).grp? r.grp = some (g.paid r.id) := by
    rw [State.loadDone, State.grp?_modGrp_self]
    exact congrArg (Option.map _) hg
  have hpush : s.completeLoad core r =
      (s.loadDone core r).modGrp ⟨r.grp.team, p.1⟩ (fun y => y.pushQ (beatsOf g.width r.mask) p.2 r.value) := by
    unfold State.completeLoad
    extract_lets s1 s2
    have hs2 : s2 = s.loadDone core r := rfl
    rw [hs2, hn, ht1, hg1]
    dsimp only
    rw [State.pushLoad, htarget, Team.modGroup_id, hid]
    rfl
  have hy1 : ∃ y1, (s.loadDone core r).grp? ⟨r.grp.team, p.1⟩ = some y1 ∧ y1.q = y.q := by
    by_cases hk : (⟨r.grp.team, p.1⟩ : GrpId) = r.grp
    · refine ⟨y.paid r.id, ?_, rfl⟩
      rw [hk] at hy ⊢
      rw [State.loadDone, State.grp?_modGrp_self]
      exact congrArg (Option.map _) hy
    · exact ⟨y, by rw [State.loadDone, State.grp?_modGrp_ne _ _ hk]; exact hy, rfl⟩
  obtain ⟨y1, hy1, hq⟩ := hy1
  refine ⟨_, by rw [hpush, State.grp?_modGrp_self, hy1]; rfl, ?_⟩
  exact congrArg (modAt _ _) hq

end

/-! ## The end of a walk -/

theorem Poisons.countEntries (s : State) (core space va : Nat) : Poisons s (s.countEntries core space va) :=
  foldl (fun s _ => (count s _ _ _).trans (count _ _ _ _)) _ s

/-- Translations are read of the tables and the caches, and neither of the teams nor of what is counted. -/
theorem State.trailFrom_counted (s : State) (ts : List Team) (ws : List Wheel) (core space va fuel lv base : Nat) :
    ({ s with teams := ts, wheels := ws } : State).trailFrom core space va fuel lv base = s.trailFrom core space va fuel lv base := by
  have hentry : ∀ lv base, ({ s with teams := ts, wheels := ws } : State).levelEntry core space va lv base =
      s.levelEntry core space va lv base := fun _ _ => rfl
  have hkind : ∀ lv e, ({ s with teams := ts, wheels := ws } : State).entryOf lv e va .maint = s.entryOf lv e va .maint := fun _ _ => rfl
  induction fuel generalizing lv base with
  | zero =>
    rw [State.trailFrom, hentry, hkind, State.trailFrom]
    cases s.entryOf lv (s.levelEntry core space va lv base) va .maint <;> rfl
  | succ n ih =>
    rw [State.trailFrom, hentry, hkind, State.trailFrom]
    cases s.entryOf lv (s.levelEntry core space va lv base) va .maint with
    | table next =>
      dsimp only
      rw [ih]
    | page x => rfl
    | bad c => rfl

theorem State.trail_counted (s : State) (ts : List Team) (ws : List Wheel) (core space va : Nat) :
    ({ s with teams := ts, wheels := ws } : State).trail core space va = s.trail core space va := by
  unfold State.trail
  simp only [State.trailFrom_counted]
  rfl

/-- A walk's entries that the core did not hold stand in its translation cache (R191). -/
theorem State.mem_tlb_keepTrail {s : State} {core space va : Nat} {e : TlbEnt} (he : e ∈ s.trail core space va)
    (hnew : (s.cached core e.space e.level va).isNone = true) : e ∈ ((s.keepTrail core space va).core core).tlb := by
  rw [State.keepTrail, State.core_modCore_self]
  exact List.mem_append_right _ (List.mem_filter.2 ⟨he, hnew⟩)

/-! ## The obligation -/

theorem exec_loadComplete_none {s : State} {core : Nat} (h : (s.core core).loads.find? (fun r => r.left == 0) = none) :
    exec (.loadComplete core) s = .next s := by
  show execLoadComplete core s = _
  rw [execLoadComplete, h]

/-- The state in which a load word completes: a claim of its half for a queue has been served (R84). -/
def State.loadServed (s : State) (core : Nat) (r : LoadRec) : State :=
  if r.q.isSome then s.served core (((s.grp? r.grp).map (fun g => g.pipe / 2)).getD 0) 0 else s

theorem exec_loadComplete_some {s : State} {core : Nat} {r : LoadRec}
    (h : (s.core core).loads.find? (fun r => r.left == 0) = some r) :
    exec (.loadComplete core) s = .next ((s.loadServed core r).completeLoad core r) := by
  show execLoadComplete core s = _
  rw [execLoadComplete, h]
  rfl

theorem State.loadServed_keeps (s : State) (core : Nat) (r : LoadRec) : TeamsKeep id s (s.loadServed core r) := by
  unfold State.loadServed
  split
  · unfold State.served
    split <;> exact .of_same rfl rfl
  · exact .refl s

/-- Settles O28: a load by its skeleton and what parking adds, the end of a load word by its two updates, and a walk by what it adds. -/
theorem loadFaults : Obligations.LoadFaults := by
  unfold Obligations.LoadFaults
  refine ⟨fun s t g ty d m hint f a htrap hready => ?parks,
    fun s core space va => ⟨exec_loadComplete_none, fun r hr => ?completes, ?walks⟩⟩
  case parks =>
    intro x hfirst hbusy
    exact ⟨exec_ld_notParked hready rfl hfirst hbusy hint, exec_ld_parked hready htrap rfl hfirst hbusy hint⟩
  case completes =>
    have hkeep := s.loadServed_keeps core r
    have hteam (id : TeamId) : (s.loadServed core r).team? id = s.team? id := by simpa using hkeep.team id
    have hgrp (k : GrpId) : (s.loadServed core r).grp? k = s.grp? k := by rw [State.grp?, State.grp?, hteam]
    refine ⟨_, exec_loadComplete_some hr, fun _ => ?_, State.not_mem_completeLoad _ core r, fun g hg th hth x hx =>
      State.completeLoad_pend _ core r hg hth hx, fun n t g y hn ht hg => ?_⟩
    · rw [State.completeLoad_sameMem, hkeep.mem]
    · intro p hy
      exact State.completeLoad_push _ core r hn ((hteam _).trans ht) ((hgrp _).trans hg) ((hgrp _).trans hy)
  case walks =>
    intro here
    have hcounted := Poisons.countEntries s core space (va56 va)
    have hexec : exec (.walkComplete core space va) s = .next (if here && !s.walkWaits core space (va56 va) then
      (s.countEntries core space (va56 va)).keepTrail core space (va56 va) else s) := rfl
    refine ⟨fun hhere hwaits => ⟨_, ?_, rfl, fun _ => ?_, fun e he hnew => State.mem_tlb_keepTrail ?_ ?_⟩, fun hidle => ?_⟩
    · rw [hexec, hhere, hwaits]
      rfl
    · rw [State.keepTrail, State.modCore_mem, hcounted.frame.mem]
    · rwa [hcounted.keep (fun u => u.trail core space (va56 va)) fun u ts ws => u.trail_counted ts ws core space _]
    · rwa [hcounted.keep (fun u => u.cached core e.space e.level (va56 va)) fun _ _ _ => rfl]
    · rw [hexec]
      rcases hidle with hhere | hwaits
      · rw [hhere]
        rfl
      · rw [hwaits, Bool.not_true, Bool.and_false]
        rfl

end Sys2Proof.Machine

/-! # `STS` (R146, R151, R153, R154, R325)

A store of a pinned window changes the bytes it is given; its examination ends waits, and may clear a bit of a slot that a blocked
`SLOTWAIT` watches. Nothing else of a window, of memory or of a group's registers changes. The relation `Stores` says so of the
bytes that may change, and is kept by every store of a word. -/

namespace Sys2Proof.Machine

open Sys2Proof

/-- The elements of a scratchpad store performed in order (R154). -/
def State.storeScr (s : State) (data : Elem → List Byte) (l : List (Elem × ScrAt)) : State :=
  l.foldl (fun s x => s.winStore x.2.team x.2.off (data x.1)) s

/-! ## What stores of windows may change -/

theorem mem_modAt {α : Type} {f : α → α} {n : Nat} {l : List α} {x : α} (h : x ∈ modAt f n l) : x ∈ l ∨ ∃ y ∈ l, x = f y := by
  obtain ⟨k, hk⟩ := List.getElem?_of_mem h
  by_cases hkn : k = n
  · rw [hkn, modAt_get_self, Option.map_eq_some_iff] at hk
    obtain ⟨y, hy, rfl⟩ := hk
    exact .inr ⟨y, List.mem_of_getElem? hy, rfl⟩
  · rw [modAt_get_ne f l hkn] at hk
    exact .inl (List.mem_of_getElem? hk)

/-- Every window is in canonical form. -/
def State.WindowsWf (s : State) : Prop := ∀ t ∈ s.teams, Memory.wf t.win = true

theorem State.WindowsWf.team {s : State} (h : s.WindowsWf) {id : TeamId} {t : Team} (ht : s.team? id = some t) :
    Memory.wf t.win = true :=
  h t (List.mem_of_find?_eq_some ht)

/-- A team's scratch pages are pinned. -/
def State.Pinned (s : State) (id : TeamId) : Prop := ∃ t, s.team? id = some t ∧ t.pinned = true

/-- A byte of a team's window as it stands, and whether it is uncorrectable. -/
def Team.byteAt (a : Nat) (t : Team) : Byte × Bool := (t.win.read a, t.winBad.contains a)

/-- The s registers and the threads of a group. -/
def Group.file (g : Group) : List Reg × List Thread := (g.s, g.threads)

theorem State.slotWatched_iff {s : State} {id : TeamId} {a : Nat} :
    s.SlotWatched id a ↔ ∃ o, s.WatchesSlot id o ∧ o ≤ a ∧ a < o + 16 :=
  ⟨fun ⟨x, hx, o, hwatch, ho, ha⟩ => ⟨o, ⟨x.2, State.waits_of_allWaits hx, hwatch⟩, ho, ha⟩, fun ⟨_, h, ho, ha⟩ => h.watched ho ha⟩

/-- What stands after stores to windows: outside some bytes the windows are the same, and so are memory, the places of teams and the
registers; windows stay in canonical form, and no slot is newly watched. -/
structure WindowsKeep (P : TeamId → Nat → Prop) (s s' : State) : Prop where
  wf : s'.WindowsWf
  mem : s'.mem = s.mem
  loc : ∀ id, (s'.team? id).map Team.loc = (s.team? id).map Team.loc
  byte : ∀ id a, ¬ P id a → (s'.team? id).map (Team.byteAt a) = (s.team? id).map (Team.byteAt a)
  file : ∀ k, (s'.grp? k).map Group.file = (s.grp? k).map Group.file
  watch : ∀ id o, s'.WatchesSlot id o → s.WatchesSlot id o

/-- Of windows in canonical form, stores change some bytes at most. -/
def Stores (P : TeamId → Nat → Prop) (s s' : State) : Prop := s.WindowsWf → WindowsKeep P s s'

namespace WindowsKeep

variable {P : TeamId → Nat → Prop} {s s' : State}

theorem pinned (h : WindowsKeep P s s') {id : TeamId} (hp : s.Pinned id) : s'.Pinned id := by
  obtain ⟨t, ht, hp⟩ := hp
  have hloc := h.loc id
  rw [ht, Option.map_some, Option.map_eq_some_iff] at hloc
  obtain ⟨t', ht', hloc⟩ := hloc
  exact ⟨t', ht', (Team.pinned_of_loc hloc).trans hp⟩

theorem slotWatched (h : WindowsKeep P s s') {id : TeamId} {a : Nat} (hw : s'.SlotWatched id a) : s.SlotWatched id a := by
  obtain ⟨o, hslot, hin⟩ := State.slotWatched_iff.1 hw
  exact State.slotWatched_iff.2 ⟨o, h.watch id o hslot, hin⟩

theorem byte_some (h : WindowsKeep P s s') {id : TeamId} {t : Team} (ht : s.team? id = some t) {a : Nat} (ha : ¬ P id a) :
    ∃ t', s'.team? id = some t' ∧ t'.byteAt a = t.byteAt a := by
  have hbyte := h.byte id a ha
  rwa [ht, Option.map_some, Option.map_eq_some_iff] at hbyte

/-- Bytes that a window holds stay where none of them may change. -/
theorem winHolds (h : WindowsKeep P s s') {id : TeamId} {off : Nat} {bs : List Byte} (hb : s.WinHolds id off bs)
    (hout : ∀ k, k < bs.length → ¬ P id (off + k)) : s'.WinHolds id off bs := by
  obtain ⟨t, ht, hp, -, hbytes⟩ := hb
  obtain ⟨t', ht', hp'⟩ := h.pinned ⟨t, ht, hp⟩
  refine ⟨t', ht', hp', h.wf.team ht', fun k hk => ?_⟩
  obtain ⟨u, hu, hbyte⟩ := h.byte_some ht (hout k hk)
  obtain rfl : u = t' := Option.some.inj (hu.symm.trans ht')
  obtain ⟨hread, hbad⟩ := Prod.mk.inj hbyte
  obtain ⟨hgood, hval⟩ := hbytes k hk
  exact ⟨hbad.trans hgood, hread.trans hval⟩

end WindowsKeep

namespace Stores

variable {P : TeamId → Nat → Prop}

theorem refl (s : State) : Stores P s s := fun h => ⟨h, rfl, fun _ => rfl, fun _ _ _ => rfl, fun _ => rfl, fun _ _ h => h⟩

theorem trans {s s' s'' : State} (h1 : Stores P s s') (h2 : WindowsKeep P s s' → Stores P s' s'') : Stores P s s'' := fun h => by
  have k1 := h1 h
  have k2 := h2 k1 k1.wf
  exact ⟨k2.wf, k2.mem.trans k1.mem, fun id => (k2.loc id).trans (k1.loc id), fun id a ha => (k2.byte id a ha).trans (k1.byte id a ha),
    fun k => (k2.file k).trans (k1.file k), fun id o hw => k1.watch id o (k2.watch id o hw)⟩

/-- The groups of the teams changed, but for their registers; watches of slots at most end. -/
theorem withGroups (s : State) {f : Team → List Group} (hfile : ∀ t, (f t).map Group.file = t.groups.map Group.file)
    (hwatch : ∀ t, ∀ g ∈ f t, ∀ w ∈ g.waits, ∀ id o, w.watch = some (.slot id o none) →
      ∃ g' ∈ t.groups, ∃ w' ∈ g'.waits, w'.watch = some (.slot id o none)) : Stores P s (s.withGroups f) := by
  intro h
  have hteam (id : TeamId) := State.team?_withGroups s f id
  refine ⟨fun t ht => ?wf, rfl, fun id => ?loc, fun id a _ => ?byte, fun k => ?file, fun id o => ?watch⟩
  case wf =>
    obtain ⟨t0, ht0, rfl⟩ := List.mem_map.1 ht
    exact h t0 ht0
  case loc =>
    rw [hteam, Option.map_map]
    rfl
  case byte =>
    rw [hteam, Option.map_map]
    rfl
  case file =>
    have hget (t : Team) : ((f t)[k.grp]?).map Group.file = (t.groups[k.grp]?).map Group.file := by
      rw [← List.getElem?_map, ← List.getElem?_map, hfile]
    rw [State.grp?, State.grp?, hteam]
    cases s.team? k.team with
    | none => rfl
    | some t => exact hget t
  case watch =>
    rintro ⟨w, ⟨t, ht, g, hg, hw⟩, hslot⟩
    obtain ⟨t0, ht0, rfl⟩ := List.mem_map.1 ht
    obtain ⟨g', hg', w', hw', hslot'⟩ := hwatch t0 g hg w hw id o hslot
    exact ⟨w', ⟨t0, ht0, g', hg', hw'⟩, hslot'⟩

theorem modGroups (s : State) {f : Group → Group} (hfile : ∀ g, (f g).file = g.file)
    (hwatch : ∀ g, ∀ w ∈ (f g).waits, ∀ id o, w.watch = some (.slot id o none) → ∃ w' ∈ g.waits, w'.watch = some (.slot id o none)) :
    Stores P s (s.modGroups f) := by
  refine withGroups s (fun t => ?_) fun t g hg w hw id o hslot => ?_
  · rw [List.map_map]
    exact List.map_congr_left fun g _ => hfile g
  · obtain ⟨g0, hg0, rfl⟩ := List.mem_map.1 hg
    obtain ⟨w', hw', hslot'⟩ := hwatch g0 w hw id o hslot
    exact ⟨g0, hg0, w', hw', hslot'⟩

theorem modGrp (s : State) (k : GrpId) {f : Group → Group} (hfile : ∀ g, (f g).file = g.file)
    (hwatch : ∀ g, ∀ w ∈ (f g).waits, ∀ id o, w.watch = some (.slot id o none) → ∃ w' ∈ g.waits, w'.watch = some (.slot id o none)) :
    Stores P s (s.modGrp k f) := by
  rw [State.modGrp_eq]
  refine withGroups s (fun t => ?_) fun t g hg w hw id o hslot => ?_
  · split
    · refine List.ext_getElem? fun n => ?_
      rw [List.getElem?_map, List.getElem?_map]
      by_cases hn : n = k.grp
      · rw [hn, modAt_get_self, Option.map_map]
        exact congrArg (Option.map · _) (funext hfile)
      · rw [modAt_get_ne f _ hn]
    · rfl
  · split at hg
    · rcases mem_modAt hg with hg | ⟨g0, hg0, rfl⟩
      · exact ⟨g, hg, w, hw, hslot⟩
      · obtain ⟨w', hw', hslot'⟩ := hwatch g0 w hw id o hslot
        exact ⟨g0, hg0, w', hw', hslot'⟩
    · exact ⟨g, hg, w, hw, hslot⟩

theorem popAll (s : State) (beats pops : List Nat) : Stores P s (s.popAll beats pops) := by
  refine modGrp s s.iss.grp (fun g => ?_) fun g w hw id o hslot => ?_
  · obtain ⟨q, hq⟩ := Group.popQ_foldl_eq beats pops g
    rw [hq]
    rfl
  · obtain ⟨q, hq⟩ := Group.popQ_foldl_eq beats pops g
    rw [hq] at hw
    exact ⟨w, hw, hslot⟩

theorem examineWords (s : State) (id : TeamId) (off n : Nat) : Stores P s (s.examineWords id off n) :=
  modGroups s (fun _ => rfl) fun _ _ hw _ _ hslot => by
    obtain ⟨w0, hw0, rfl⟩ := List.mem_map.1 hw
    exact ⟨w0, hw0, State.lookWord_slot hslot⟩

theorem sawSlot (s : State) (g : GrpId) (id : TeamId) (off n : Nat) : Stores P s (s.sawSlot g id off n) := by
  unfold State.sawSlot
  extract_lets ids
  split
  · exact refl s
  · exact modGrp s g (fun _ => rfl) fun _ w hw _ _ hslot => ⟨w, hw, hslot⟩

theorem winPut {s : State} {id : TeamId} (hpin : s.Pinned id) {off : Nat} {bs : List Byte}
    (hP : ∀ a, off ≤ a → a < off + bs.length → P id a) (push : Bool) : Stores P s (s.winPut id off bs push) := fun h => by
  obtain ⟨t, ht, hp⟩ := hpin
  have hid : ∀ y : Team, (y.put off bs).id = y.id := fun _ => rfl
  rw [State.winPut_pinned ht hp]
  refine ⟨fun y hy => ?_, rfl, (TeamsKeep.modTeam s id (p := Team.loc) hid fun _ => rfl).team, fun i a ha => ?_,
    fun k => by rw [State.grp?_modTeam s id k hid fun _ => rfl], fun i o => State.watchesSlot_of_modTeam (fun _ => rfl)⟩
  · obtain ⟨y0, hy0, rfl⟩ := List.mem_map.1 hy
    split
    · exact Memory.writeN_wf off bs (h y0 hy0)
    · exact h y0 hy0
  · by_cases hi : i = id
    · subst hi
      have hout : a < off ∨ off + bs.length ≤ a := by
        by_contra hin
        exact ha (hP a (by omega) (by omega))
      rw [State.team?_modTeam_self s i hid, ht]
      refine congrArg some (Prod.ext (Memory.read_writeN_out bs (h.team ht) hout) ?_)
      simp only [Team.put, Team.byteAt, List.contains_eq_mem, List.mem_filter, Bool.or_eq_true, decide_eq_true_eq, hout, and_true]
    · rw [State.team?_modTeam_ne s hid hi]

theorem lookSlot {s : State} {id : TeamId} (hpin : s.Pinned id) (off n : Nat) (gid : GrpId) {w : WaitRec}
    (hP : ∀ o, w.watch = some (.slot id o none) → ∀ a, o ≤ a → a < o + 16 → P id a) : Stores P s (s.lookSlot id off n gid w) := by
  unfold State.lookSlot
  split
  · next tm o hw =>
    split
    · exact refl s
    · next hskip =>
      have htm : tm = id := by
        simp only [Bool.or_eq_true, decide_eq_true_eq, not_or, Decidable.not_not] at hskip
        obtain ⟨⟨⟨⟨-, htm⟩, -⟩, -⟩, -⟩ := hskip
        exact htm
      subst htm
      split
      · exact refl s
      · refine ((Stores.trans ?_ fun _ => examineWords _ _ _ _).trans fun _ => sawSlot _ _ _ _ _).trans fun _ =>
          modGrp _ _ (fun _ => rfl) fun _ x hx i p hslot => ?_
        · split
          · exact refl s
          · exact winPut hpin (by simpa using hP o hw) _
        · obtain ⟨y, hy, rfl⟩ := List.mem_map.1 hx
          split at hslot
          · cases hslot
          · exact ⟨y, hy, hslot⟩
  · exact refl s

theorem lookSlots {id : TeamId} (off n : Nat) (l : List (GrpId × WaitRec)) {s : State} (hpin : s.Pinned id)
    (hP : ∀ x ∈ l, ∀ o, x.2.watch = some (.slot id o none) → ∀ a, o ≤ a → a < o + 16 → P id a) :
    Stores P s (l.foldl (fun s x => s.lookSlot id off n x.1 x.2) s) := by
  induction l generalizing s with
  | nil => exact refl s
  | cons x l ih =>
    exact (lookSlot hpin off n x.1 (hP x List.mem_cons_self)).trans fun k =>
      ih (k.pinned hpin) fun y hy => hP y (List.mem_cons_of_mem x hy)

/-- A store of a pinned window, with what examines it, changes its own bytes and those of watched slots. -/
theorem winStore {s : State} {id : TeamId} (hpin : s.Pinned id) {off : Nat} {bs : List Byte}
    (hP : ∀ a, off ≤ a → a < off + bs.length → P id a) (hslot : ∀ a, s.SlotWatched id a → P id a) :
    Stores P s (s.winStore id off bs) := by
  unfold State.winStore State.examine
  refine (winPut hpin hP true).trans fun k1 => ?_
  split
  · exact (examineWords _ id off _).trans fun k2 => lookSlots off _ _ (k2.pinned (k1.pinned hpin)) fun x hx o hwatch a ho ha =>
      hslot a ((k1.watch id o (k2.watch id o ⟨x.2, State.waits_of_allWaits hx, hwatch⟩)).watched ho ha)
  · exact refl _

/-- The stores of a word change the bytes that it covers and those of watched slots. -/
theorem storeScr {n : Nat} {data : Elem → List Byte} (hlen : ∀ e, (data e).length = n) (l : List (Elem × ScrAt)) {s : State}
    (hpin : ∀ x ∈ l, s.Pinned x.2.team) (hP : ∀ x ∈ l, ∀ id a, x.2.covers n id a → P id a) (hslot : ∀ id a, s.SlotWatched id a → P id a) :
    Stores P s (s.storeScr data l) := by
  induction l generalizing s with
  | nil => exact refl s
  | cons x l ih =>
    have hx : Stores P s (s.winStore x.2.team x.2.off (data x.1)) :=
      winStore (hpin x List.mem_cons_self) (fun a ho ha => hP x List.mem_cons_self _ a ⟨rfl, ho, hlen x.1 ▸ ha⟩) (hslot _)
    exact hx.trans fun k => ih (fun y hy => k.pinned (hpin y (List.mem_cons_of_mem x hy)))
      (fun y hy => hP y (List.mem_cons_of_mem x hy)) fun id a hw => hslot id a (k.slotWatched hw)

end Stores

/-! ## Bytes stored read back -/

/-- Only into a shadow does it matter whether a write pushes (R316). -/
theorem State.winStore_pinned {s : State} {id : TeamId} (hpin : s.Pinned id) (off : Nat) (bs : List Byte) :
    s.winStore id off bs = s.winWrite id off bs := by
  obtain ⟨t, ht, hp⟩ := hpin
  rw [State.winStore, State.winWrite, State.winPut_pinned ht hp, State.winPut_pinned ht hp]

/-- The bytes that a word may change: those that some of its elements cover, and those of slots watched as it begins. -/
def State.storedBy (s : State) (n : Nat) (l : List (Elem × ScrAt)) (id : TeamId) (a : Nat) : Prop :=
  s.SlotWatched id a ∨ ∃ x ∈ l, x.2.covers n id a

/-- Where no two places overlap, each element's bytes stand at its place, but for bytes of watched slots (R154). -/
theorem State.storeScr_holds {n : Nat} {data : Elem → List Byte} (hlen : ∀ e, (data e).length = n) {l : List (Elem × ScrAt)}
    (hapart : l.Pairwise (fun x y => ∀ a, ¬ (x.2.covers n y.2.team a ∧ y.2.covers n y.2.team a))) {s : State} (hwf : s.WindowsWf)
    (hpin : ∀ x ∈ l, s.Pinned x.2.team) {x : Elem × ScrAt} (hx : x ∈ l)
    (hslot : ∀ a, x.2.covers n x.2.team a → ¬ s.SlotWatched x.2.team a) :
    (s.storeScr data l).WinHolds x.2.team x.2.off (data x.1) := by
  have hcovers : ∀ k, k < (data x.1).length → x.2.covers n x.2.team (x.2.off + k) := fun k hk =>
    ⟨rfl, Nat.le_add_right _ _, by rw [hlen] at hk; omega⟩
  induction hapart generalizing s with
  | nil => exact absurd hx List.not_mem_nil
  | @cons y l hy hl ih =>
    have hpiny := hpin y List.mem_cons_self
    have hstep : WindowsKeep (s.storedBy n [y]) s (s.winStore y.2.team y.2.off (data y.1)) :=
      Stores.winStore hpiny (fun a ho ha => .inr ⟨y, List.mem_singleton.2 rfl, rfl, ho, hlen y.1 ▸ ha⟩) (fun a hw => .inl hw) hwf
    have hpin' : ∀ z ∈ l, (s.winStore y.2.team y.2.off (data y.1)).Pinned z.2.team := fun z hz =>
      hstep.pinned (hpin z (List.mem_cons_of_mem y hz))
    have hslot' : ∀ a, x.2.covers n x.2.team a → ¬ (s.winStore y.2.team y.2.off (data y.1)).SlotWatched x.2.team a := fun a ha hw =>
      hslot a ha (hstep.slotWatched hw)
    rcases List.mem_cons.1 hx with rfl | hx
    · have hput : (s.winStore x.2.team x.2.off (data x.1)).WinHolds x.2.team x.2.off (data x.1) := by
        obtain ⟨t, ht, hp⟩ := hpiny
        rw [State.winStore_pinned ⟨t, ht, hp⟩]
        exact .of_winWrite ht hp (hwf.team ht) fun k hk => hslot _ (hcovers k hk)
      refine (Stores.storeScr (P := State.storedBy _ n l) hlen l hpin' (fun z hz id a hc => .inr ⟨z, hz, hc⟩)
        (fun id a hw => .inl hw) hstep.wf).winHolds hput fun k hk => ?_
      rintro (hw | ⟨z, hz, hteam, hin⟩)
      · exact hslot' _ (hcovers k hk) hw
      · exact hy z hz (x.2.off + k) ⟨hteam ▸ hcovers k hk, rfl, hin⟩
    · exact ih hstep.wf hpin' hx hslot'

/-! ## The word -/

/-- A pinned window waits for no home. -/
theorem State.Pinned.winHeld {s : State} {id : TeamId} (h : s.Pinned id) (off n : Nat) : s.winHeld id off n = false := by
  obtain ⟨t, ht, hp⟩ := h
  simp [State.winHeld, ht, hp]

/-- A scratchpad store outside `det` nodes pops its queues and stores its elements in order (R153, R154). -/
theorem exec_sts {s : State} {t : Team} {g : Group} {ty : MemTy} {d : Os} {m : MAddr} {l : List (Elem × ScrAt)}
    (h : s.MReady t g (d.run ty.regs ++ m.x.vregs) (d.run ty.regs ++ m.x.vregs) (m.s.toNat :: (d.sregs ++ m.x.sregs))
      (popsOf [d, m.x]) none) (hdet : s.isDet t.id = false)
    (hl : s.scrElems t.id ty.size 1 (g.elems s.iss.mask s.iss.lit m ty.size) = .ok l)
    (hfree : ∀ x ∈ l, s.inRange x.2.team x.2.off ty.size = false ∧ s.winHeld x.2.team x.2.off ty.size = false) :
    exec (.sts ty d m) s = .next ((s.popAll (beatsOf g.width s.iss.mask) (popsOf [d, m.x])).storeScr
      (fun e => storeBytes g s.iss.lit ty d e.t) l) := by
  show execSts ty d m s = _
  rw [execSts, h.asM_eq]
  simp only [hdet, State.scrWord_ok hl hfree, Bool.false_and, Bool.false_eq_true, if_false, State.finish_done]
  rfl

/-- Settles O25: what the stores of the word may change, and what they leave at their places. -/
theorem scratchStore : Obligations.ScratchStore := by
  unfold Obligations.ScratchStore
  intro s t g ty d m l hready hdet hl hrange hpin hinv
  obtain ⟨⟨-, hg⟩, -⟩ := id hready
  obtain ⟨-, hwf⟩ := hinv
  let s1 := s.popAll (beatsOf g.width s.iss.mask) (popsOf [d, m.x])
  let data (e : Elem) : List Byte := storeBytes g s.iss.lit ty d e.t
  have hlen : ∀ e, (data e).length = ty.size := fun e => length_storeBytes g s.iss.lit ty d e.t
  have hpop : WindowsKeep (s.storedBy ty.size l) s s1 := Stores.popAll s _ _ hwf
  have hpin1 : ∀ x ∈ l, s1.Pinned x.2.team := fun x hx => hpop.pinned (hpin x hx)
  have hall : WindowsKeep (s.storedBy ty.size l) s (s1.storeScr data l) :=
    Stores.trans (fun _ => hpop) (fun _ => Stores.storeScr hlen l hpin1 (fun x hx _ _ hc => .inr ⟨x, hx, hc⟩)
      fun id a hw => .inl (hpop.slotWatched hw)) hwf
  refine ⟨_, exec_sts hready hdet hl fun x hx => ⟨hrange x hx, State.Pinned.winHeld (hpin x hx) _ _⟩,
    fun a => congrArg (Memory.read · a) hall.mem, ?group, fun id y a hy hslot hout => ?frame, fun hapart x hx hslot => ?stored⟩
  case group =>
    have hfile := hall.file s.iss.grp
    rw [hg, Option.map_some, Option.map_eq_some_iff] at hfile
    obtain ⟨g', hg', heq⟩ := hfile
    obtain ⟨hs, hthreads⟩ := Prod.mk.inj heq
    exact ⟨g', hg', hs, hthreads⟩
  case frame =>
    have hkept : ¬ s.storedBy ty.size l id a := by
      rintro (hw | ⟨x, hx, hc⟩)
      · exact hslot hw
      · exact hout x hx hc
    obtain ⟨y', hy', hbyte⟩ := hall.byte_some hy hkept
    exact ⟨y', hy', congrArg Prod.fst hbyte⟩
  case stored =>
    have hholds := State.storeScr_holds hlen hapart hpop.wf hpin1 hx fun a ha hw => hslot a ha (hpop.slotWatched hw)
    have hread := hholds.winRead
    rwa [hlen] at hread

end Sys2Proof.Machine

/-! # The `COPY` words (R173, R241 to R245) -/

namespace Sys2Proof.Machine

open Sys2Proof

/-! ## Channels and rings -/

theorem insVat_find_self (v : Vat) (l : List Vat) : (insVat v l).find? (fun d => d.num == v.num) = some v := by
  induction l with
  | nil => simp [insVat]
  | cons d l ih =>
    unfold insVat
    split
    · simp
    · split
      · simp
      · next hne =>
        have hd : (d.num == v.num) = false := by simpa using Ne.symm hne
        rw [List.find?_cons, hd]
        exact ih

theorem State.vat_modVat_self (s : State) (n : Nat) (f : Vat → Vat) : (s.modVat n f).vat n = { f (s.vat n) with num := n } := by
  unfold State.vat State.modVat
  rw [insVat_find_self { f (s.vat n) with num := n }]
  rfl

theorem mem_ringIns (x : RingEnt) (ring : List RingEnt) : x ∈ ringIns x ring := by
  unfold ringIns
  dsimp only
  split <;> simp

/-- A channel that has joined its vat's ring stands there. -/
theorem State.ringAdd_mem (s : State) (t : Team) (ch : Nat) :
    ∃ x ∈ ((s.ringAdd t ch).vat (vatOf t.core)).ring, x.team = t.id ∧ x.ch = ch := by
  unfold State.ringAdd
  rw [State.vat_modVat_self]
  exact ⟨_, mem_ringIns _ _, rfl, rfl⟩

/-- A team whose channel changes. -/
def Team.modChan (t : Team) (ch : Nat) (f : Chan → Chan) : Team := { t with chans := modAt f ch t.chans }

theorem State.team?_modChan {s : State} {id : TeamId} {t : Team} (ht : s.team? id = some t) (ch : Nat) (f : Chan → Chan) :
    (s.modChan id ch f).team? id = some (t.modChan ch f) := by
  have hself := State.team?_modTeam_self s id (f := fun t => t.modChan ch f) fun _ => rfl
  rw [ht] at hself
  exact hself

theorem Team.chan_modChan_self {t : Team} {ch : Nat} (h : ch < t.chans.length) (f : Chan → Chan) :
    (t.modChan ch f).chan ch = f (t.chan ch) := getD_modAt_self f _ h

theorem Team.chan_modChan_ne (t : Team) {ch k : Nat} (h : k ≠ ch) (f : Chan → Chan) : (t.modChan ch f).chan k = t.chan k :=
  getD_modAt_ne f _ _ h

/-- The channels of a team are the same where its `chans` are. -/
theorem Team.chan_eq {t t' : Team} (h : t'.chans = t.chans) (k : Nat) : t'.chan k = t.chan k := by rw [Team.chan, Team.chan, h]

theorem RegsKeep.modChan (s : State) (id : TeamId) (ch : Nat) (f : Chan → Chan) : RegsKeep s (s.modChan id ch f) :=
  ⟨rfl, fun k => congrArg (Option.map Group.s) (State.grp?_modTeam s id k (fun _ => rfl) fun _ => rfl)⟩

theorem State.team?_putStatus {s : State} {id : TeamId} {t : Team} (ht : s.team? id = some t) (q : BitVec 6) (code hi : Nat) :
    ∃ t', (s.putStatus q code hi).team? id = some t' ∧ t'.chans = t.chans := by
  let f (t : Team) : Team := t.modGroup s.iss.grp.grp (fun g => g.putS s.iss.wid q.toNat (statusVal code hi))
  have hteam := State.team?_modTeam s s.iss.grp.team id (f := f) fun _ => rfl
  rw [ht, Option.map_some] at hteam
  refine ⟨_, hteam, ?_⟩
  split <;> rfl

/-- A status of the family carries the channel's word (R241). -/
theorem State.finChan_eq {s : State} {id : TeamId} {t : Team} (ht : s.team? id = some t) (q : BitVec 6) (code ch : Nat) :
    s.finChan id q code ch = .done (s.putStatus q code (t.chan ch).word) := by
  rw [State.finChan, ht]
  rfl

theorem State.EReady.team_eq {s : State} {t : Team} {g : Group} {rs : List Nat} (h : s.EReady t g rs) : s.team? t.id = some t := by
  obtain ⟨⟨ht, -⟩, -⟩ := h
  rwa [State.team?_id ht]

/-! ## `COPYGO` -/

/-- A channel as `COPYGO` sets it going (R242). -/
def Chan.started (c : Chan) (p : Nat) (by_ : Issuer) (gen : Nat) : Chan :=
  { c with st := 1, recAddr := va56 p, recs := 0, cancel := false, waiting := false, by_ := some by_, act := none, gen := gen }

/-- The state in which `COPYGO` has set a channel going, and it stands in its ring. -/
def State.goChan (s : State) (t : Team) (ch p : Nat) : State :=
  (s.tick.modChan t.id ch (fun c => c.started p s.issuer s.fresh)).ringAdd t ch

theorem State.goChan_team {s : State} {t t1 : Team} (ht : s.team? t.id = some t1) (ch p : Nat) :
    (s.goChan t ch p).team? t.id = some (t1.modChan ch (fun c => c.started p s.issuer s.fresh)) :=
  State.team?_modChan (s := s.tick) ht ch _

theorem State.goChan_mem (s : State) (t : Team) (ch p : Nat) : (s.goChan t ch p).mem = s.mem := rfl

theorem State.goChan_ring (s : State) (t : Team) (ch p : Nat) (q : BitVec 6) (code hi : Nat) :
    ∃ x ∈ (((s.goChan t ch p).putStatus q code hi).vat (vatOf t.core)).ring, x.team = t.id ∧ x.ch = ch :=
  State.ringAdd_mem (s.tick.modChan t.id ch (fun c => c.started p s.issuer s.fresh)) t ch

theorem RegsKeep.goChan (s : State) (t : Team) (ch p : Nat) : RegsKeep s (s.goChan t ch p) := by
  have htick : RegsKeep s s.tick := of_teams rfl rfl
  exact (htick.trans (modChan s.tick t.id ch _)).trans (of_teams rfl rfl)

section
variable {s : State} {t : Team} {g : Group} {e : EF} (h : s.EReady t g [e.p.toNat]) (ch : Fin 4)
include h

theorem exec_copygo_eq : exec (.copygo e ch) s = s.finishWait [e.p.toNat] [e.q.toNat] e.q e.x none
    (if (g.sreg e.p.toNat).toNat = 0 ∨ (g.sreg e.p.toNat).toNat % 64 ≠ 0 then s.finChan t.id e.q stRejected ch.val
     else if (t.chan ch.val).st = 1 then .wait s (t.chan ch.val).word
     else s.releasing t g 3 (fun s => (s.goChan t ch.val (g.sreg e.p.toNat).toNat).finChan t.id e.q stOk ch.val)) := by
  change execCopygo e ch s = _
  rw [execCopygo, h.asE_eq]
  rfl

theorem exec_copygo_refused (hp : (g.sreg e.p.toNat).toNat = 0 ∨ (g.sreg e.p.toNat).toNat % 64 ≠ 0) :
    exec (.copygo e ch) s = .next (s.putStatus e.q stRejected (t.chan ch.val).word) := by
  rw [exec_copygo_eq h, if_pos hp, State.finChan_eq h.team_eq, State.finishWait_done]

variable (hp : ¬ ((g.sreg e.p.toNat).toNat = 0 ∨ (g.sreg e.p.toNat).toNat % 64 ≠ 0))
include hp

theorem exec_copygo_waits (hst : (t.chan ch.val).st = 1) : exec (.copygo e ch) s =
    .next (if e.x = 0 then s.putStatus e.q stTimeout (t.chan ch.val).word
      else s.block [e.p.toNat] [e.q.toNat] e.x none (t.chan ch.val).word) := by
  rw [exec_copygo_eq h, if_neg hp, if_pos hst, State.finishWait_wait h.mode_eq]

/-- A channel that does not run is set going, behind a release. -/
theorem exec_copygo_starts (hst : (t.chan ch.val).st ≠ 1) (hrel : s.Released t g 3) :
    exec (.copygo e ch) s = s.finishWait [e.p.toNat] [e.q.toNat] e.q e.x none
      (((s.relScope g.core 3 t.paired).goChan t ch.val (g.sreg e.p.toNat).toNat).finChan t.id e.q stOk ch.val) := by
  rw [exec_copygo_eq h, if_neg hp, if_neg hst, hrel.releasing]

end

/-- A release examines waits only, besides what homes do. -/
theorem Notices.relScope (s : State) (core sc : Nat) (paired : Bool) : Notices s (s.relScope core sc paired) := by
  unfold State.relScope
  split
  · exact relSelf s core
  · exact refl s

theorem Chan.word_started (c : Chan) (p : Nat) (by_ : Issuer) (gen : Nat) : (c.started p by_ gen).word = 16 * (c.reason % 16) + 1 := by
  simp only [Chan.word, Chan.started]
  omega

/-- What `COPYGO` leaves of a channel that it has set going, over the state that its release has left. -/
theorem State.goChan_status {s s1 : State} {t : Team} {g : Group} {rs : List Nat} {ch : Nat} (h : s.EReady t g rs)
    (hch : ch < t.chans.length) (hrel : Notices s s1) (p : Nat) (q : BitVec 6) :
    ∃ s', (s1.goChan t ch p).finChan t.id q stOk ch = .done s' ∧
      s.Wrote s' g q (statusVal stOk (16 * ((t.chan ch).reason % 16) + 1)) ∧ s'.mem = s1.mem ∧
      (∃ t' n, s'.team? t.id = some t' ∧ t'.chan ch = (t.chan ch).started p s.issuer n ∧ ∀ k, k ≠ ch → t'.chan k = t.chan k) ∧
      ∃ x ∈ (s'.vat (vatOf t.core)).ring, x.team = t.id ∧ x.ch = ch := by
  obtain ⟨t1, ht1, heq⟩ := hrel.team_some h.team_eq
  have hchans : t1.noticeless.chans = t.noticeless.chans := congrArg Team.chans heq
  change t1.chans = t.chans at hchans
  have hissuer : s1.issuer = s.issuer := by rw [State.issuer, State.issuer, hrel.iss]
  have hgo := State.goChan_team ht1 ch p
  have hself : (t1.modChan ch (fun c => c.started p s1.issuer s1.fresh)).chan ch = (t.chan ch).started p s.issuer s1.fresh := by
    rw [Team.chan_modChan_self (hchans ▸ hch), Team.chan_eq hchans, hissuer]
  have hdone := State.finChan_eq hgo q stOk ch
  rw [hself, Chan.word_started] at hdone
  obtain ⟨t', ht', hchans'⟩ := State.team?_putStatus hgo q stOk (16 * ((t.chan ch).reason % 16) + 1)
  refine ⟨_, hdone, .of_regsKeep h.grp_eq h.wid_eq ((RegsKeep.of_notices hrel).trans (.goChan s1 t ch p)) q _ _, ?_,
    ⟨t', s1.fresh, ht', ?_, fun k hk => ?_⟩, State.goChan_ring s1 t ch p q _ _⟩
  · rw [State.putStatus_mem, State.goChan_mem]
  · rw [Team.chan_eq hchans', hself]
  · rw [Team.chan_eq hchans', Team.chan_modChan_ne _ hk, Team.chan_eq hchans]

/-! ## `CHANSTAT`, `COPYWAIT` and `COPYCANCEL` -/

/-- A channel without a record under way stops with its reason, and its record is left alone (R237, R245). -/
theorem State.chanStop_idle {s : State} {t : Team} {ch : Nat} (ht : s.team? t.id = some t) (hch : ch < t.chans.length)
    (hact : (t.chan ch).act = none) (reason : Nat) :
    RegsKeep s (s.chanStop t ch reason) ∧ s.SameMem (s.chanStop t ch reason) ∧
      ∃ t', (s.chanStop t ch reason).team? t.id = some t' ∧
        t'.chan ch = { t.chan ch with st := 2, act := none, cancel := false, waiting := false, reason := reason } := by
  let stopped (c : Chan) : Chan := { c with st := 2, act := none, cancel := false, waiting := false, reason := reason }
  have heq : s.chanStop t ch reason = ((s.freeEntries []).modChan t.id ch stopped).ringDrop t ch := by
    simp only [State.chanStop, State.fixShapes, hact]
    rfl
  have hteam : (s.freeEntries []).team? t.id = some { t with sranges := t.sranges.filter (fun e => !([].contains e.2.id)) } := by
    have hmap := find_map_id (f := fun t : Team => { t with sranges := t.sranges.filter (fun e => !([].contains e.2.id)) }) (fun _ => rfl)
      t.id s.teams
    exact hmap.trans (congrArg (Option.map _) ht)
  have hfree : RegsKeep s (s.freeEntries []) := ⟨rfl, fun k => by
    have hmap := find_map_id (f := fun t : Team => { t with sranges := t.sranges.filter (fun e => !([].contains e.2.id)) }) (fun _ => rfl)
      k.team s.teams
    have hk : (s.freeEntries []).team? k.team = _ := hmap
    rw [State.grp?, hk, State.grp?, State.team?]
    cases s.teams.find? (fun t => decide (t.id = k.team)) <;> rfl⟩
  rw [heq]
  refine ⟨(hfree.trans (.modChan _ t.id ch stopped)).trans (.of_teams rfl rfl), fun _ => rfl, _,
    State.team?_modChan hteam ch stopped, ?_⟩
  exact Team.chan_modChan_self (t := { t with sranges := _ }) hch stopped

section
variable {s : State} {t : Team} {g : Group} (h : s.EReady t g []) (q : BitVec 6) (x : BitVec 5) (ch : Fin 4)
include h

theorem exec_chanstat : exec (.chanstat q ch) s = .next (s.putStatus q stOk (t.chan ch.val).word) := by
  change execChanstat q ch s = _
  rw [execChanstat, h.asE_eq, State.finChan_eq h.team_eq, State.finishWait_done]

theorem exec_copywait_eq : exec (.copywait q x ch) s = s.finishWait [] [q.toNat] q x none
    (if (t.chan ch.val).st = 1 then .wait s (t.chan ch.val).word
     else if (t.chan ch.val).st = 0 then .done ((s.putStatus q stOk (t.chan ch.val).word).acquire t g 2)
     else s.finChan t.id q stRejected ch.val) := by
  change execCopywait q x ch s = _
  rw [execCopywait, h.asE_eq]

theorem exec_copywait_running (hst : (t.chan ch.val).st = 1) : exec (.copywait q x ch) s =
    .next (if x = 0 then s.putStatus q stTimeout (t.chan ch.val).word else s.block [] [q.toNat] x none (t.chan ch.val).word) := by
  rw [exec_copywait_eq h, if_pos hst, State.finishWait_wait h.mode_eq]

theorem exec_copywait_idle (hst : (t.chan ch.val).st = 0) :
    exec (.copywait q x ch) s = .next ((s.putStatus q stOk (t.chan ch.val).word).acquire t g 2) := by
  rw [exec_copywait_eq h, if_neg (by omega), if_pos hst, State.finishWait_done]

theorem exec_copywait_stopped (h0 : (t.chan ch.val).st ≠ 0) (h1 : (t.chan ch.val).st ≠ 1) :
    exec (.copywait q x ch) s = .next (s.putStatus q stRejected (t.chan ch.val).word) := by
  rw [exec_copywait_eq h, if_neg h1, if_neg h0, State.finChan_eq h.team_eq, State.finishWait_done]

/-- A cancel that issues is of the chain that runs. -/
theorem exec_copycancel_eq : exec (.copycancel q x ch) s = s.finishWait [] [q.toNat] q x none
    (if (t.chan ch.val).st ≠ 1 then s.finChan t.id q stOk ch.val
     else if (t.chan ch.val).act.isNone then (s.chanStop t ch.val 1).finChan t.id q stOk ch.val
     else
       let s1 := s.modChan t.id ch.val (fun c => { c with cancel := true })
       .wait (if x = 0 then s1 else s1.keepBlock (leBytes 8 (t.chan ch.val).gen)) (t.chan ch.val).word) := by
  change execCopycancel q x ch s = _
  rw [execCopycancel, h.asE_eq]
  simp only [State.keptBlock, h.mode_eq, reduceCtorEq, or_self, if_false, Option.map_none, Option.getD_none, ne_eq, not_true_eq_false,
    or_false]

theorem exec_copycancel_not_running (hst : (t.chan ch.val).st ≠ 1) :
    exec (.copycancel q x ch) s = .next (s.putStatus q stOk (t.chan ch.val).word) := by
  rw [exec_copycancel_eq h, if_pos hst, State.finChan_eq h.team_eq, State.finishWait_done]

variable (hst : (t.chan ch.val).st = 1)
include hst

/-- A cancel of a channel that has read no record stops it. -/
theorem exec_copycancel_unread (hch : ch.val < t.chans.length) (hact : (t.chan ch.val).act = none) :
    ∃ s', exec (.copycancel q x ch) s = .next s' ∧ s.SameMem s' ∧
      s.Wrote s' g q (statusVal stOk ((t.chan ch.val).recs % 2 ^ 24 * 2 ^ 8 + 18)) ∧
      ∃ t', s'.team? t.id = some t' ∧ (t'.chan ch.val).st = 2 ∧ (t'.chan ch.val).reason = 1 := by
  obtain ⟨hregs, hmem, t1, ht1, hchan⟩ := State.chanStop_idle h.team_eq hch hact 1
  have hword : (t1.chan ch.val).word = (t.chan ch.val).recs % 2 ^ 24 * 2 ^ 8 + 18 := by
    simp only [hchan, Chan.word]
    omega
  obtain ⟨t', ht', hchans⟩ := State.team?_putStatus ht1 q stOk ((t.chan ch.val).recs % 2 ^ 24 * 2 ^ 8 + 18)
  refine ⟨(s.chanStop t ch.val 1).putStatus q stOk _, ?_, hmem, .of_regsKeep h.grp_eq h.wid_eq hregs q _ _, t', ht', ?_⟩
  · rw [exec_copycancel_eq h, if_neg (not_not_intro hst), if_pos (by simp [hact]), State.finChan_eq ht1, hword, State.finishWait_done]
  · rw [Team.chan_eq hchans, hchan]
    exact ⟨rfl, rfl⟩

/-- A record under way is asked to stop, and the cancel waits for that. -/
theorem exec_copycancel_under_way (hact : (t.chan ch.val).act ≠ none) :
    let s1 := s.modChan t.id ch.val (fun c => { c with cancel := true })
    exec (.copycancel q x ch) s = .next (if x = 0 then s1.putStatus q stTimeout (t.chan ch.val).word
      else (s1.keepBlock (leBytes 8 (t.chan ch.val).gen)).block [] [q.toNat] x none (t.chan ch.val).word) := by
  intro s1
  rw [exec_copycancel_eq h, if_neg (not_not_intro hst), if_neg (by simpa using hact)]
  dsimp only
  rw [State.finishWait_wait h.mode_eq]
  split <;> rfl

end

/-- Settles O20: each word by what it does with its channel; `COPYGO` sets it going over what its release has left. -/
theorem copyWords : Obligations.CopyWords := by
  unfold Obligations.CopyWords
  refine ⟨fun s t g e ch h hlen => ?go, fun s t g q x ch h hlen => ?others⟩
  case go =>
    intro c p
    have hp (h0 : p ≠ 0) (h64 : p % 64 = 0) : ¬ (p = 0 ∨ p % 64 ≠ 0) := by omega
    refine ⟨exec_copygo_refused h ch, fun h0 h64 => exec_copygo_waits h ch (hp h0 h64), fun h0 h64 hst hrel => ?_⟩
    obtain ⟨s', hdone, hrest⟩ := State.goChan_status h (ch := ch.val) (by omega) (Notices.relScope s g.core 3 t.paired) p e.q
    exact ⟨s', by rw [exec_copygo_starts h ch (hp h0 h64) hst hrel, hdone, State.finishWait_done], hrest⟩
  case others =>
    exact ⟨rfl, exec_chanstat h q ch, exec_copywait_idle h q x ch, exec_copywait_stopped h q x ch, exec_copywait_running h q x ch,
      exec_copycancel_not_running h q x ch, fun hst => exec_copycancel_unread h q x ch hst (by omega),
      fun hst => exec_copycancel_under_way h q x ch hst⟩

end Sys2Proof.Machine

/-! # `OBLD` and `MXGO` (R173, R175, R211 to R213, R216, R225, R226, R299) -/

namespace Sys2Proof.Machine

open Sys2Proof

/-! ## An E word as it issues or is run again -/

/-- A group as the word in issue sees it: run again, with the sources that it read at its issue (R6, R70). -/
def State.seenBy (s : State) (g : Group) : Group := if s.iss.wid = 0 then g else g.withKept s.iss.kept

theorem State.seenBy_issued {s : State} (h : s.iss.wid = 0) (g : Group) : s.seenBy g = g := if_pos h

theorem State.seenBy_core (s : State) (g : Group) : (s.seenBy g).core = g.core := by
  unfold State.seenBy
  split <;> rfl

theorem State.seenBy_released {s : State} {t : Team} {g : Group} {sc : Nat} (h : s.Released t g sc) : s.Released t (s.seenBy g) sc := by
  unfold State.seenBy
  split <;> exact h

/-- An E word outside `det` nodes does its own part, with what it sees of its group. -/
theorem State.asE_seen {s : State} {t : Team} {g : Group} {rs : List Nat} (h : s.Issues t g) (hr : g.sPending rs = false)
    (hh : s.iss.mode = .issue → s.held (s.seenBy g) = none) (hdet : s.isDet t.id = false) (serial : Bool) (q : BitVec 6) (x : BitVec 5)
    (w : Option Watch) (f : Team → Group → Res) : s.asE serial rs q x w f = s.finishWait rs [q.toNat] q x w (f t (s.seenBy g)) := by
  obtain ⟨ht, hg⟩ := h
  have hheld : (if s.iss.mode = .issue then s.held (s.seenBy g) else none) = none := by
    split
    · next hm => exact hh hm
    · rfl
  rw [State.asE, State.asEWith, ht, hg]
  unfold State.seenBy at hheld ⊢
  simp only [State.ownWait_sPending hr, Bool.and_false, Bool.false_eq_true, if_false, hheld, State.toQueue, hdet, Bool.false_and]

/-! ## `OBLD` -/

/-- The load of an image into a record of a lease has started (R211). -/
def State.loadImage (s : State) (id : TeamId) (core handle p : Nat) (by_ : Issuer) : State :=
  s.modLease id core (fun l => l.modRec handle (fun y => { y with st := 1, src := va56 p, by_ := some by_, flt := none, image := [] }))

section
variable {s : State} {t : Team} {g : Group} {e : EF} {r : Fin 16} {l : Lease} {x : ORec} (h : s.Issues t g)
  (hp : g.sPending [e.p.toNat] = false) (hdet : s.isDet t.id = false) (hrel : s.Released t g 3)
  (hl : t.lease? g.core = some l) (hx : l.rec? r.val = some x)
include h hp hdet hrel hl hx

/-- `OBLD` as it issues: refused, busy, or loading. -/
theorem exec_obld_issues (hmode : s.iss.mode = .issue) (hwid : s.iss.wid = 0) (hheld : s.held g = none) :
    let s1 := s.relScope g.core 3 t.paired
    let p := (g.sreg e.p.toNat).toNat
    exec (.obld e r) s = s.finishWait [e.p.toNat] [e.q.toNat] e.q e.x none
      (if p % 64 ≠ 0 then s1.fin e.q stRejected 0
       else if l.inUse r.val then s1.fin e.q stBusy 0
       else .wait (s1.loadImage t.id g.core r.val p s.issuer) 0) := by
  intro s1 p
  have hiss : s1.iss = s.iss := (Notices.relScope s g.core 3 t.paired).iss
  have hissuer : s1.issuer = s.issuer := by rw [State.issuer, State.issuer, hiss]
  change execObld e r s = _
  rw [execObld, State.asE_seen h hp (fun _ => by rwa [State.seenBy_issued hwid]) hdet, State.seenBy_issued hwid, hrel.releasing]
  dsimp only
  rw [hl, Option.bind_some, hx, Option.map_some]
  dsimp only
  rw [if_pos (.inl (by rw [hiss, hmode])), hissuer]
  rfl

variable (hmode : s.iss.mode = .examine)
include hmode

/-- `OBLD` run again ends once the record is ready. -/
theorem exec_obld_ready (hst : x.st = 2) :
    exec (.obld e r) s = .next ((s.relScope g.core 3 t.paired).putStatus e.q stOk 0) := by
  have hiss := (Notices.relScope s g.core 3 t.paired).iss
  change execObld e r s = _
  rw [execObld, State.asE_seen h hp (by simp [hmode]) hdet, (State.seenBy_released hrel).releasing, State.seenBy_core]
  dsimp only
  rw [hl, Option.bind_some, hx, Option.map_some]
  dsimp only
  rw [if_neg (by simp [hiss, hmode]), if_pos hst]
  rfl

/-- `OBLD` run again takes the fault that its load has met. -/
theorem exec_obld_faulted (hst : x.st ≠ 2) {d lv a : Nat} (hflt : x.flt = some (d, lv, a)) :
    exec (.obld e r) s = .next (s.trapNow (s.wordTrap 8 d a lv 0)) := by
  have hiss := (Notices.relScope s g.core 3 t.paired).iss
  have htrap : (s.relScope g.core 3 t.paired).wordTrap 8 d a lv 0 = s.wordTrap 8 d a lv 0 := by
    rw [State.wordTrap, State.wordTrap, hiss]
  change execObld e r s = _
  rw [execObld, State.asE_seen h hp (by simp [hmode]) hdet, (State.seenBy_released hrel).releasing, State.seenBy_core]
  dsimp only
  rw [hl, Option.bind_some, hx, Option.map_some]
  dsimp only
  rw [if_neg (by simp [hiss, hmode]), if_neg hst, hflt]
  dsimp only
  rw [htrap, State.finishWait, if_neg (by simp [hmode])]

end

/-! ## A word that meets no poison -/

/-- What a word has left of its team's poison count and its group's pending traps is as before: it has met no poison. -/
structure State.Unpoisoned (s u : State) (t : Team) : Prop where
  iss : u.iss = s.iss
  count : (u.team? t.id).map Team.poisonCnt = (s.team? t.id).map Team.poisonCnt
  traps : (u.grp? s.iss.grp).map Group.traps = (s.grp? s.iss.grp).map Group.traps

theorem State.Unpoisoned.poisonGate {s u : State} {t : Team} {g : Group} (h : s.Unpoisoned u t) (hg : s.grp? s.iss.grp = some g) :
    u.poisonGate s t g = u := by
  unfold State.poisonGate
  split
  · next y z hy hz =>
    have hcount := h.count
    rw [hy, hz] at hcount
    have hcnt : y.poisonCnt = z.poisonCnt := Option.some.inj hcount
    have htraps := h.traps
    rw [hg, Option.map_some, Option.map_eq_some_iff] at htraps
    obtain ⟨g', hg', hsame⟩ := htraps
    have hno : ¬ (y.poisonCnt ≠ z.poisonCnt ∨ (g.traps.all (fun x => x.cause != 12) ∧
        ((u.grp? u.iss.grp).map (fun x => x.traps.any (fun w => w.cause == 12))).getD false)) := by
      rw [h.iss, hg', Option.map_some, Option.getD_some, hsame]
      rintro (hne | ⟨hall, hany⟩)
      · exact hne hcnt
      · obtain ⟨w, hw, hcause⟩ := List.any_eq_true.1 hany
        simpa [beq_iff_eq.1 hcause] using List.all_eq_true.1 hall w hw
    refine if_neg fun hc => hno ?_
    simp only [Bool.and_eq_true, decide_eq_true_eq] at hc
    exact hc.2
  · rfl

theorem Group.putS_traps (g : Group) (id n : Nat) (v : Reg) : (g.putS id n v).traps = g.traps := by
  unfold Group.putS
  split
  · exact Group.setS_traps g n v
  · unfold Group.landS
    split <;> rfl

/-- A status written meets no poison. -/
theorem State.Unpoisoned.putStatus {s u : State} {t : Team} (h : s.Unpoisoned u t) (q : BitVec 6) (code hi : Nat) :
    s.Unpoisoned (u.putStatus q code hi) t where
  iss := h.iss
  count := by
    let f (t : Team) : Team := t.modGroup u.iss.grp.grp (fun g => g.putS u.iss.wid q.toNat (statusVal code hi))
    have hteam := State.team?_modTeam u u.iss.grp.team t.id (f := f) fun _ => rfl
    refine Eq.trans ?_ h.count
    refine (congrArg (Option.map Team.poisonCnt) hteam).trans ?_
    rw [Option.map_map]
    exact congrArg (Option.map · _) (funext fun t => by rw [Function.comp]; split <;> rfl)
  traps := by
    rw [State.putStatus, h.iss, State.grp?_modGrp_self, Option.map_map, ← h.traps]
    exact congrArg (Option.map · _) (funext fun g => Group.putS_traps g _ _ _)

theorem State.Unpoisoned.refl (s : State) (t : Team) : s.Unpoisoned s t := ⟨rfl, rfl, rfl⟩

/-- A word that ends with a status over a state without new poison ends so in trap mode too (R299). -/
theorem State.Unpoisoned.fin_gated {s u : State} {t : Team} {g : Group} (h : s.Unpoisoned u t) (hg : s.grp? s.iss.grp = some g)
    (q : BitVec 6) (code hi : Nat) : (u.fin q code hi).gated s t g = .done (u.putStatus q code hi) :=
  congrArg Res.done ((h.putStatus q code hi).poisonGate hg)

/-! ## Operations queued -/

/-- What an accepted parameter block says of its operation (R212). -/
theorem mxBlock_some {t : Team} {core : Nat} {l : Lease} {bs : List Byte} {tag : Nat} {by_ : Issuer} {b : MxBlock}
    (h : mxBlock t core l bs tag by_ = some b) :
    b.x.tag = tag ∧ b.x.st = 1 ∧ b.x.counter = field bs 21 1 ∧ b.a.1 = field bs 0 4 ∧ b.apitch = field bs 4 4 := by
  unfold mxBlock at h
  dsimp only at h
  split at h
  · cases h
  · obtain ⟨-, hb⟩ := Option.ite_none_left_eq_some.1 h
    obtain rfl := Option.some.inj hb
    exact ⟨rfl, rfl, rfl, rfl, rfl⟩

/-- Entries made on one core's range scoreboard with room for them (R152): nothing else but names changes. -/
theorem State.addEntries_room (owner : RangeOwner) (core : Nat) {es : List (Nat × TeamId × Nat × Nat)} (hes : ∀ e ∈ es, e.1 = core)
    {s : State} (hroom : (s.core core).ranges.length + es.length ≤ Config.rangeScore) :
    ∃ u ids, s.addEntries owner es = some (u, ids) ∧ u.teams = s.teams ∧ u.mem = s.mem ∧ u.iss = s.iss ∧
      (u.core core).ranges.length = (s.core core).ranges.length + es.length := by
  induction es generalizing s with
  | nil => exact ⟨s, [], rfl, rfl, rfl, rfl, rfl⟩
  | cons e es ih =>
    obtain rfl := hes e List.mem_cons_self
    rw [List.length_cons] at hroom
    let r : RangeEnt := { id := s.fresh, team := e.2.1, owner := owner, lo := e.2.2.1, hi := e.2.2.2 }
    let s1 := s.tick.modCore e.1 (fun c => { c with ranges := c.ranges ++ [r] })
    have hlen : (s1.core e.1).ranges.length = (s.core e.1).ranges.length + 1 := by
      rw [State.core_modCore_self]
      simp only [List.length_append, List.length_singleton]
      rfl
    obtain ⟨u, ids, hadd, hteams, hmem, hiss, hu⟩ := ih (s := s1) (fun d hd => hes d (List.mem_cons_of_mem e hd)) (by omega)
    refine ⟨u, s.fresh :: ids, ?_, hteams, hmem, hiss, by rw [hu, hlen, List.length_cons]; omega⟩
    rw [State.addEntries, if_neg (by omega)]
    exact congrArg (Option.map _) hadd

/-- A lease with an operation under its tag in place of what the tag held. -/
def Lease.putTag (l : Lease) (y : MxTag) : Lease := { l with tags := l.tags.filter (fun z => z.tag != y.tag) ++ [y] }

theorem Lease.tag?_putTag (l : Lease) (y : MxTag) : (l.putTag y).tag? y.tag = some y := by
  have hnone : (l.tags.filter (fun z => z.tag != y.tag)).find? (fun z => z.tag == y.tag) = none := by
    rw [List.find?_eq_none]
    intro z hz
    simpa using (List.mem_filter.1 hz).2
  simp [Lease.tag?, Lease.putTag, List.find?_append, hnone]

/-- The operation that a block queues, with its operands and the names of its entries (R175, R216). -/
def State.queuedTag (s : State) (id : TeamId) (b : MxBlock) (entries : List Nat) (seq : Nat) : MxTag :=
  let scaleAt := leNat (leBytes 4 ((b.scale.map (·.1)).getD 0))
  { b.x with
    rows := s.mxRows id b.a.1 b.apitch b.rowBytes b.x.mrows
    scales := if b.scaleLen = 0 then [] else s.mxRows id scaleAt b.spitch b.scaleLen b.x.mrows
    bad := s.mxBad id 0 b.a.1 b.apitch b.rowBytes b.x.mrows ++ s.mxBad id 1 scaleAt b.spitch b.scaleLen b.x.mrows
    entries := entries
    seq := seq }

/-- Where the scoreboard has room for its operands' entries, an operation is queued with the bytes that stand then (R175, R216). -/
theorem State.mxQueue_room {s : State} {id : TeamId} {core : Nat} {b : MxBlock}
    (hroom : (s.core core).ranges.length + 2 ≤ Config.rangeScore) :
    ∃ (u : State) (y : MxTag), s.mxQueue id core b = some (u.modLease id core (·.putTag y)) ∧
      u.teams = s.teams ∧ u.mem = s.mem ∧ u.iss = s.iss ∧ y.tag = b.x.tag ∧ y.st = b.x.st ∧ y.counter = b.x.counter ∧ y.mrows = b.x.mrows ∧
      y.rows = s.mxRows id b.a.1 b.apitch b.rowBytes b.x.mrows := by
  obtain ⟨u1, ids1, h1, hteams1, hmem1, hiss1, hlen1⟩ := State.addEntries_room (.mxA b.x.tag) core (es := [(core, id, b.a.1, b.a.2)])
    (by simp) (s := s) (by simp only [List.length_singleton]; omega)
  have hscale : ((b.scale.map (fun x => (core, id, x.1, x.2))).toList).length ≤ 1 := by cases b.scale <;> simp
  rw [List.length_singleton] at hlen1
  obtain ⟨u2, ids2, h2, hteams2, hmem2, hiss2, -⟩ := State.addEntries_room (.mxScale b.x.tag) core
    (es := (b.scale.map (fun x => (core, id, x.1, x.2))).toList) (by cases b.scale <;> simp) (s := u1) (by omega)
  refine ⟨u2.tick, s.queuedTag id b (ids1 ++ ids2) u2.fresh, ?_, hteams2.trans hteams1, hmem2.trans hmem1, hiss2.trans hiss1, rfl, rfl, rfl,
    rfl, rfl⟩
  unfold State.mxQueue
  dsimp only
  rw [h1]
  dsimp only
  rw [h2]
  rfl

/-! ## `MXGO` -/

theorem State.team?_modLease {s : State} {id : TeamId} {t : Team} (ht : s.team? id = some t) (core : Nat) (f : Lease → Lease) :
    (s.modLease id core f).team? id = some { t with leases := t.leases.map (fun l => if l.core = core then f l else l) } := by
  have hself := State.team?_modTeam_self s id
    (f := fun t => { t with leases := t.leases.map (fun l => if l.core = core then f l else l) }) fun _ => rfl
  rw [ht] at hself
  exact hself

/-- The lease of a core after its update. -/
theorem Team.lease?_map {t : Team} {core : Nat} {l : Lease} (hl : t.lease? core = some l) {f : Lease → Lease}
    (hf : ∀ l, (f l).core = l.core) :
    ({ t with leases := t.leases.map (fun l => if l.core = core then f l else l) } : Team).lease? core = some (f l) := by
  have hcore : l.core = core := by simpa using List.find?_some hl
  have hcomp : (fun l : Lease => l.core == core) ∘ (fun l => if l.core = core then f l else l) = fun l => l.core == core := by
    funext k
    simp only [Function.comp]
    split <;> simp [hf]
  rw [Team.lease?, List.find?_map, hcomp]
  refine (congrArg (Option.map _) hl).trans ?_
  rw [Option.map_some, if_pos hcore]

section
variable {s : State} {t : Team} {g : Group} {e : EF} {tag : Fin 4} {a : ScrAt} {l : Lease} (h : s.EReady t g [e.p.toNat])
  (hlt : (g.sreg e.p.toNat).toNat < 2 ^ 23) (hat : s.scrAt t.id (g.sreg e.p.toNat).toNat 128 = .ok a)
include h hlt hat

theorem exec_mxgo_misaligned (hal : (g.sreg e.p.toNat).toNat % 128 ≠ 0) :
    exec (.mxgo e tag) s = .next (s.trapNow (s.wordTrap 7 0 (g.sreg e.p.toNat).toNat 0xFF 0)) := by
  have hdiv : ¬ (g.sreg e.p.toNat).toNat / 2 ^ 23 ≠ 0 := by omega
  change execMxgo e tag s = _
  rw [execMxgo, h.asE_eq]
  simp only [State.keptBlock, h.mode_eq, reduceCtorEq, or_self, if_false, if_neg hdiv, hat, if_pos hal, State.finishWait]

/-- `MXGO` on a block in reach checks and queues what the block says (R212). -/
theorem exec_mxgo_block (hal : (g.sreg e.p.toNat).toNat % 128 = 0) (hl : t.lease? g.core = some l)
    (hheld : s.winHeld a.team a.off 128 = false) (hgood : s.winBadIn a.team a.off 128 = false) :
    exec (.mxgo e tag) s = s.finishWait [e.p.toNat] [e.q.toNat] e.q e.x none
      ((s.mxStart t g e.q tag.val (s.winRead a.team a.off 128)).gated s t g) := by
  obtain ⟨-, -, -, -, -, hdet⟩ := id h
  have hdiv : ¬ (g.sreg e.p.toNat).toNat / 2 ^ 23 ≠ 0 := by omega
  have hblock : s.winBlock s.issuer a.team a.off 128 = (s, s.winRead a.team a.off 128) := if_neg (ne_true_of_eq_false hgood)
  change execMxgo e tag s = _
  rw [execMxgo, h.asE_eq]
  simp only [State.keptBlock, h.mode_eq, reduceCtorEq, or_self, if_false, if_neg hdiv, hat, if_neg (not_not_intro hal), State.toQueue, hdet,
    hl, hheld, hblock, Bool.false_and, Bool.false_eq_true, Option.isNone_some]

end

section
variable {s : State} {t : Team} {g : Group} {q : BitVec 6} {tag : Nat} {bs : List Byte} {l : Lease}
  (hl : t.lease? g.core = some l) (hfmt : s.cap1.getLsbD (capFmt (field bs 16 1)) = true)
include hl hfmt

theorem State.mxStart_rejected (hb : mxBlock t g.core l bs tag s.issuer = none) : s.mxStart t g q tag bs = s.fin q stRejected 0 := by
  rw [State.mxStart, hl]
  simp only [hfmt, hb, Bool.not_true, Bool.and_false, Bool.false_eq_true, if_false]

variable {b : MxBlock} (hb : mxBlock t g.core l bs tag s.issuer = some b)
include hb

theorem State.mxStart_busy (hout : (l.tag? tag).any MxTag.out = true) : s.mxStart t g q tag bs = s.fin q stBusy 0 := by
  rw [State.mxStart, hl]
  simp only [hfmt, hb, hout, Bool.not_true, Bool.and_false, Bool.false_eq_true, if_false, if_true]

theorem State.mxStart_queues (hout : (l.tag? tag).any MxTag.out = false) (hspan : s.spanBusy t.id b.a true = false)
    (hscale : b.scale.any (fun x => s.spanBusy t.id x true) = false) {s' : State} (hq : s.mxQueue t.id g.core b = some s') :
    s.mxStart t g q tag bs = s'.fin q stOk 0 := by
  rw [State.mxStart, hl]
  simp only [hfmt, hb, hout, hspan, hscale, hq, Bool.not_true, Bool.and_false, Bool.or_self, Bool.false_eq_true, if_false]

end

/-- A lease changed meets no poison, and no register. -/
theorem State.modLease_keeps {s u : State} (ht : u.teams = s.teams) (hi : u.iss = s.iss) (id : TeamId) (core : Nat) (f : Lease → Lease)
    (t : Team) : s.Unpoisoned (u.modLease id core f) t ∧ RegsKeep s (u.modLease id core f) := by
  let fill (t : Team) : Team := { t with leases := t.leases.map (fun l => if l.core = core then f l else l) }
  have hgrp (k : GrpId) : (u.modLease id core f).grp? k = s.grp? k := by
    rw [State.modLease, State.grp?_modTeam u id k (f := fill) (fun _ => rfl) (fun _ => rfl), State.grp?, State.grp?, State.team?, State.team?, ht]
  refine ⟨⟨hi, ?_, by rw [hgrp]⟩, ⟨hi, fun k => by rw [hgrp]⟩⟩
  have hteam := State.team?_modTeam u id t.id (f := fill) fun _ => rfl
  refine (congrArg (Option.map Team.poisonCnt) hteam).trans ?_
  rw [State.team?, ht, Option.map_map]
  exact congrArg (Option.map · _) (funext fun t => by rw [Function.comp]; split <;> rfl)

/-- A team's leases are as they stood once a status is written. -/
theorem State.team?_putStatus_leases {s : State} {id : TeamId} {t : Team} (ht : s.team? id = some t) (q : BitVec 6) (code hi : Nat) :
    ∃ t', (s.putStatus q code hi).team? id = some t' ∧ t'.leases = t.leases := by
  obtain ⟨t', ht', hframe⟩ := (TeamsKeep.modGrp s s.iss.grp (fun g => g.putS s.iss.wid q.toNat (statusVal code hi))).some_of ht
  exact ⟨t', ht', congrArg Prod.fst hframe⟩

/-- Settles O32: `OBLD` by its issue and its examinations, `MXGO` by its block's checks and the operation that it queues. -/
theorem matrixOps : Obligations.MatrixOps := by
  unfold Obligations.MatrixOps
  refine ⟨fun s t g e r l x h hp hdet hrel hl hx => ?obld, fun s t g e tag a l h => ?mxgo⟩
  case obld =>
    intro s1 p
    refine ⟨fun hmode hwid hheld => ?_, exec_obld_ready h hp hdet hrel hl hx, fun hmode hst d lv a =>
      exec_obld_faulted h hp hdet hrel hl hx hmode hst⟩
    rw [exec_obld_issues h hp hdet hrel hl hx hmode hwid hheld]
    refine ⟨fun hal => ?_, fun hal huse => ?_, fun hal huse => ?_⟩
    · rw [if_pos hal]
      rfl
    · rw [if_neg (not_not_intro hal), if_pos huse]
      rfl
    · rw [if_neg (not_not_intro hal), if_neg (ne_true_of_eq_false huse), State.finishWait_wait hmode]
      rfl
  case mxgo =>
    intro p bs hlt hat hl hheld hgood
    refine ⟨exec_mxgo_misaligned h hlt hat, fun hal hle hfmt => ?_⟩
    rw [exec_mxgo_block h hlt hat hal hl hheld hgood]
    refine ⟨fun hb => ?rejected, fun b hb => ⟨fun hout => ?busy, fun hout hspan hscale hroom => ?queued⟩⟩
    case rejected =>
      rw [State.mxStart_rejected hl hfmt hb, (State.Unpoisoned.refl s t).fin_gated h.grp_eq, State.finishWait_done]
    case busy =>
      rw [State.mxStart_busy hl hfmt hb hout, (State.Unpoisoned.refl s t).fin_gated h.grp_eq, State.finishWait_done]
    case queued =>
      obtain ⟨htag, hst, hctr, ha, hpitch⟩ := mxBlock_some hb
      obtain ⟨u, y, hq, hteams, hmem, hiss, hytag, hyst, hyctr, hymr, hyrows⟩ := State.mxQueue_room (s := s) (id := t.id) (b := b) hroom
      obtain ⟨hpoison, hregs⟩ := State.modLease_keeps hteams hiss t.id g.core (·.putTag y) t
      have htu : u.team? t.id = some t := by rw [State.team?, hteams]; exact h.team_eq
      obtain ⟨t', ht', hleases⟩ := State.team?_putStatus_leases (State.team?_modLease htu g.core (·.putTag y)) e.q stOk 0
      have hlease : t'.lease? g.core = some (l.putTag y) := by
        rw [Team.lease?, hleases]
        exact Team.lease?_map hl fun _ => rfl
      refine ⟨(u.modLease t.id g.core (·.putTag y)).putStatus e.q stOk 0, t', l.putTag y, y, ?_, fun a => congrArg (Memory.read · a) hmem,
        .of_regsKeep h.grp_eq h.wid_eq hregs e.q stOk 0, ht', hlease, ?_, hyst.trans hst, hyctr.trans hctr, rfl, ?_⟩
      · rw [State.mxStart_queues hl hfmt hb hout hspan hscale hq, hpoison.fin_gated h.grp_eq, State.finishWait_done]
      · rw [← htag, ← hytag]
        exact l.tag?_putTag y
      · rw [hyrows, hymr, ha, hpitch]
        rfl

end Sys2Proof.Machine

/-! # The bytes that stay as they were (R139, R181, R196, R198, R203, R363)

What homes and first-level caches do with writes and write-backs changes, of memory, the bytes that are written and those that a lost
dirty copy uncovers. `Spares` says so of a set of bytes, of a memory in any form, canonical or not. -/

namespace Sys2Proof.Machine

open Sys2Proof

/-- A write of one byte leaves the others, of a memory in any form. -/
theorem Memory.read_write_other (m : Memory) {a b : Nat} (v : Byte) (h : b ≠ a) : (m.write a v).read b = m.read b := by
  have hab : a ≠ b := h.symm
  induction m with
  | nil =>
    unfold Memory.write
    split
    · rfl
    · simp [Memory.read, hab]
  | cons c m ih =>
    unfold Memory.write
    split
    · split
      · rfl
      · simp [Memory.read, hab]
    · split
      · next heq =>
        subst heq
        split <;> simp [Memory.read, hab]
      · simp only [Memory.read, ih]

theorem Memory.read_writes_other {α : Type} (f : α → Nat) (v : α → Byte) (l : List α) (m : Memory) {b : Nat} (hb : ∀ x ∈ l, b ≠ f x) :
    (l.foldl (fun m x => m.write (f x) (v x)) m).read b = m.read b := by
  induction l generalizing m with
  | nil => rfl
  | cons x l ih =>
    rw [List.foldl_cons, ih _ fun y hy => hb y (List.mem_cons_of_mem x hy), Memory.read_write_other m _ (hb x List.mem_cons_self)]

/-- What of a state says which bytes stand, which may be lost, and what is in flight. -/
def State.standing (s : State) : Memory × List (Nat × Byte × Nat) × List Nat × (List Nat × List Nat) × List Flight :=
  (s.mem, s.stale, s.dirtyBad, (s.fencemap, s.gone), s.flights)

/-- From one state to another no byte outside `z` has changed in memory, where what may be lost is in `z`; no dirty copy has come up, and
no flight has ended. -/
structure Spares (z : Nat → Prop) (s s' : State) : Prop where
  fences : (s'.fencemap, s'.gone) = (s.fencemap, s.gone)
  stale : ∀ e ∈ s'.stale, ∃ d ∈ s.stale, d.1 = e.1 ∧ d.2.2 = e.2.2
  dirtyBad : ∀ a ∈ s'.dirtyBad, a ∈ s.dirtyBad
  flights : ∀ x ∈ s.flights, x ∈ s'.flights
  mem : (∀ a, s.Lost a → z a) → ∀ a, ¬ z a → s'.mem.read a = s.mem.read a

section
variable {z : Nat → Prop}

namespace Spares

theorem fenced {s s' : State} (h : Spares z s s') (a : Nat) : s'.fenced a = s.fenced a := by
  obtain ⟨hmap, hgone⟩ := Prod.mk.inj h.fences
  rw [State.fenced, State.fenced, hmap, hgone]

/-- What may be lost might have been before. -/
theorem lost {s s' : State} (h : Spares z s s') {a : Nat} (ha : s'.Lost a) : s.Lost a := by
  obtain ⟨e, he, rfl, hcause⟩ := ha
  obtain ⟨d, hd, hpa, -⟩ := h.stale e he
  refine ⟨d, hd, hpa, ?_⟩
  rw [hpa]
  exact hcause.imp (fun hf => h.fenced e.1 ▸ hf) (h.dirtyBad e.1)

theorem refl (s : State) : Spares z s s := ⟨rfl, fun e he => ⟨e, he, rfl, rfl⟩, fun _ ha => ha, fun _ hx => hx, fun _ _ _ => rfl⟩

theorem trans {s s' s'' : State} (h1 : Spares z s s') (h2 : Spares z s' s'') : Spares z s s'' where
  fences := h2.fences.trans h1.fences
  stale e he := by
    obtain ⟨d, hd, hpa, hcore⟩ := h2.stale e he
    obtain ⟨c, hc, hpa', hcore'⟩ := h1.stale d hd
    exact ⟨c, hc, hpa'.trans hpa, hcore'.trans hcore⟩
  dirtyBad a ha := h1.dirtyBad a (h2.dirtyBad a ha)
  flights x hx := h2.flights x (h1.flights x hx)
  mem hz a ha := (h2.mem (fun b hb => hz b (h1.lost hb)) a ha).trans (h1.mem hz a ha)

theorem foldl {β : Type} {f : State → β → State} (step : ∀ s x, Spares z s (f s x)) (l : List β) (s : State) :
    Spares z s (l.foldl f s) :=
  foldl_related (R := Spares z) refl trans step l s

theorem of_standing {s s' : State} (h : s'.standing = s.standing) : Spares z s s' := by
  simp only [State.standing, Prod.mk.injEq] at h
  obtain ⟨hmem, hstale, hbad, ⟨hmap, hgone⟩, hflights⟩ := h
  exact ⟨by rw [hmap, hgone], fun e he => ⟨e, hstale ▸ he, rfl, rfl⟩, fun a ha => hbad ▸ ha, fun x hx => hflights ▸ hx,
    fun _ a _ => by rw [hmem]⟩

theorem count (s : State) (w reg n : Nat) : Spares z s (s.count w reg n) := of_standing rfl

/-! ## Homes -/

/-- Dirty copies go home: memory changes where one is lost. -/
theorem giveBack (s : State) (p : Nat × Byte × Nat → Bool) : Spares z s (s.giveBack p) := by
  unfold State.giveBack
  extract_lets out lost isLost s1
  have h1 : Spares z s s1 := by
    refine ⟨rfl, fun e he => ⟨e, List.mem_of_mem_filter he, rfl, rfl⟩, fun a ha => List.mem_of_mem_filter ha, fun _ hx => hx,
      fun hz a ha => ?_⟩
    refine Memory.read_writes_other _ _ lost s.mem fun e he hae => ha (hz a ?_)
    obtain ⟨hout, hcause⟩ := List.mem_filter.1 he
    exact ⟨e, List.mem_of_mem_filter hout, hae.symm, by simpa using hcause⟩
  exact h1.trans (foldl (fun s _ => count s _ _ _) _ s1)

theorem recallLine (s : State) (pa : Nat) : Spares z s (s.recallLine pa) := (giveBack s _).trans (of_standing rfl)

theorem recallAll (s : State) (pa : Nat) : Spares z s (s.recallAll pa) := by
  have hdrop (r : Region) : Spares z s (s.regionDrop r none) := (giveBack s _).trans (of_standing rfl)
  unfold State.recallAll
  refine Spares.trans ?_ (recallLine _ pa)
  split
  · exact (hdrop _).trans (of_standing rfl)
  · exact refl s

theorem unverify (s : State) (pa : Nat) : Spares z s (s.unverify pa) := by
  unfold State.unverify
  split
  · exact refl s
  · exact of_standing rfl

/-- A byte written at its home: under a dirty copy, or in memory. -/
theorem homePut (s : State) {pa : Nat} (hpa : z pa) (v : Byte) : Spares z s (s.homePut pa v) := by
  unfold State.homePut
  split
  · exact refl s
  · refine (unverify s pa).trans ?_
    extract_lets s1 s2
    have h2 : Spares z s1 s2 := of_standing rfl
    refine h2.trans ?_
    split
    · refine ⟨rfl, fun e he => ?_, fun _ ha => ha, fun _ hx => hx, fun _ _ _ => rfl⟩
      obtain ⟨d, hd, rfl⟩ := List.mem_map.1 he
      refine ⟨d, hd, ?_⟩
      split
      · next heq => exact ⟨heq, rfl⟩
      · exact ⟨rfl, rfl⟩
    · exact ⟨rfl, fun e he => ⟨e, he, rfl, rfl⟩, fun _ ha => ha, fun _ hx => hx,
        fun _ a ha => Memory.read_write_other _ v fun h => ha (h ▸ hpa)⟩

theorem target_of_atHomes {s s' : State} (h : AtHomes s s') (attr a : Nat) : s'.target attr a = s.target attr a := by
  rw [State.target, State.target, State.fwd_of_unheld h.migr]

theorem putCells (s : State) (attr : Nat) {cells : List (Nat × Byte)} (hz : ∀ c ∈ cells, z (s.target attr c.1)) :
    Spares z s (s.putCells attr cells) := by
  induction cells generalizing s with
  | nil => exact refl s
  | cons c cs ih =>
    refine (homePut s (hz c List.mem_cons_self) c.2).trans (ih _ fun d hd => ?_)
    rw [target_of_atHomes (AtHomes.homePut s _ _)]
    exact hz d (List.mem_cons_of_mem c hd)

theorem noticed (s : State) (pas : List Nat) : Spares z s (s.noticed pas) := by
  unfold State.noticed
  split
  · exact of_standing rfl
  · exact refl s

/-- The pushes of a write join what is in flight. -/
theorem wrote (s : State) (after pas : List Nat) : Spares z s (s.wrote after pas) := by
  have hpush (after : List Nat) : Spares z s (s.pushesAt after pas) := by
    refine foldl (fun s x => ?_) _ s
    split
    · extract_lets fl bad s1
      have h1 : Spares z s s1 :=
        ⟨rfl, fun e he => ⟨e, he, rfl, rfl⟩, fun _ ha => ha, fun _ hx => List.mem_append_left _ hx, fun _ _ _ => rfl⟩
      split
      · exact h1.trans (of_standing rfl)
      · exact h1
    · exact refl s
  unfold State.wrote
  extract_lets behind s1 ids
  have h1 : Spares z s s1 := hpush behind
  split
  · exact h1
  · exact h1.trans (of_standing rfl)

theorem perform (s : State) (h : HeldWrite) (hz : ∀ c ∈ h.cells, z (s.target h.attr c.1)) : Spares z s (s.perform h) := by
  unfold State.perform
  extract_lets s0 s1
  have h0 : Spares z s s0 ∧ AtHomes s s0 := by
    unfold s0
    split
    · cases h.cells with
      | nil => exact ⟨refl s, .refl s⟩
      | cons c cs => exact ⟨recallAll s _, .recallAll s _⟩
    · exact ⟨refl s, .refl s⟩
  have h1 : Spares z s s1 :=
    (h0.1.trans (putCells s0 _ fun c hc => target_of_atHomes h0.2 h.attr c.1 ▸ hz c hc)).trans (noticed _ _)
  split
  · exact h1.trans (wrote _ _ _)
  · exact h1

theorem snoopWrite (s : State) (h : HeldWrite) (line : Nat) : Spares z s (s.snoopWrite h line) := by
  have hsend : Spares z s (s.sendSnoop line) := by
    unfold State.sendSnoop
    split <;> exact of_standing rfl
  exact hsend.trans (of_standing rfl)

theorem writeLine (s : State) (h : HeldWrite) (hz : ∀ c ∈ h.cells, z (s.target h.attr c.1)) : Spares z s (s.writeLine h) := by
  unfold State.writeLine
  split
  · exact refl s
  · extract_lets p
    split
    · exact count s _ _ _
    · split
      · exact of_standing rfl
      · split
        · exact snoopWrite s h _
        · split
          · exact of_standing rfl
          · exact perform s h hz

/-! ## First-level caches -/

/-- The bytes at home of the dirty bytes of a core's L1 are in `z`. -/
def Back (z : Nat → Prop) (s : State) (core : Nat) : Prop := ∀ b ∈ (s.core core).self, b.dirty = true → z (s.fwd b.pa)

/-- What homes do makes no byte of a core's L1 dirty. -/
theorem Back.atHomes {s s' : State} {core : Nat} (h : Back z s core) (hh : AtHomes s s') : Back z s' core := fun b hb hd => by
  obtain ⟨a, ha, hpa, hstores⟩ := (hh.core core).2 b hb
  have hda : a.dirty = true := by
    obtain ⟨x, hx⟩ := List.exists_mem_of_ne_nil b.stores (by simpa [SelfByte.dirty] using hd)
    simpa [SelfByte.dirty] using List.ne_nil_of_mem (hstores x hx)
  rw [State.fwd_of_unheld hh.migr, ← hpa]
  exact h a ha hda

theorem selfOut (s : State) {core : Nat} (hback : Back z s core) (line : Nat) (ids : List Nat) : Spares z s (s.selfOut core line ids) := by
  induction ids generalizing s with
  | nil => exact refl s
  | cons id ids ih =>
    unfold State.selfOut
    extract_lets mine cells s1
    split
    · exact refl s
    · have h1 : AtHomes s s1 := .modCore s core (Core.Sheds.of_stores_filter _ _)
      have hcells : ∀ c ∈ cells, z (s1.target 1 c.1) := fun c hc => by
        obtain ⟨⟨pa, x⟩, hx, rfl⟩ := List.mem_map.1 (mem_of_mem_sortBy hc)
        obtain ⟨b, hb, hbx⟩ := List.mem_flatMap.1 hx
        obtain ⟨y, hy, heq⟩ := List.mem_map.1 hbx
        obtain ⟨rfl, rfl⟩ := Prod.mk.inj heq
        rw [target_of_atHomes h1]
        exact hback b (List.mem_of_mem_filter hb) (by simpa [SelfByte.dirty] using List.ne_nil_of_mem (List.mem_of_mem_filter hy))
      have hs1 : Spares z s s1 := of_standing rfl
      exact (hs1.trans (writeLine s1 _ hcells)).trans (ih _ (hback.atHomes (h1.trans (.writeLine s1 _))))

theorem writeBack (s : State) {core : Nat} (hback : Back z s core) (line : Nat) : Spares z s (s.writeBack core line) := by
  unfold State.writeBack
  extract_lets s0 lost s1
  have h0 : Spares z s s0 := giveBack s _
  have h1 : Spares z s0 s1 ∧ AtHomes s0 s1 := by
    unfold s1
    split
    · exact ⟨of_standing rfl, (AtHomes.modCore _ _ (Core.Sheds.of_filter _ _)).trans (.count _ _ _ _)⟩
    · exact ⟨refl _, .refl _⟩
  exact (h0.trans h1.1).trans (selfOut s1 (hback.atHomes ((AtHomes.giveBack s _).trans h1.2)) line _)

theorem writeBacks {core : Nat} (lines : List Nat) (s : State) (hback : Back z s core) :
    Spares z s (lines.foldl (fun s l => s.writeBack core l) s) := by
  induction lines generalizing s with
  | nil => exact refl s
  | cons l lines ih => exact (writeBack s hback l).trans (ih _ (hback.atHomes (.writeBack s core l)))

theorem cleanCore (s : State) {core : Nat} (hback : Back z s core) : Spares z s (s.cleanCore core) := writeBacks _ s hback

theorem relSelf (s : State) {core : Nat} (hback : Back z s core) : Spares z s (s.relSelf core) := writeBacks _ s hback

end Spares
end

/-- Where a core's dirty bytes go home and where what is lost may uncover memory. -/
def State.MayGoHome (s : State) (core a : Nat) : Prop := s.WrittenBack core a ∨ s.Lost a

theorem Spares.Back.of_writtenBack (s : State) (core : Nat) : Back (s.MayGoHome core) s core := fun b hb hd => .inl ⟨b, hb, hd, rfl⟩

/-- Memory outside those bytes is as it was. -/
theorem Spares.read {s s' : State} {core : Nat} (h : Spares (s.MayGoHome core) s s') {a : Nat} (hw : ¬ s.WrittenBack core a) (hl : ¬ s.Lost a) :
    s'.mem.read a = s.mem.read a := h.mem (fun _ hb => .inr hb) a (not_or.2 ⟨hw, hl⟩)

end Sys2Proof.Machine

/-! # Slots and the words that read and end them (R313, R321, R322, R324 to R326) -/

namespace Sys2Proof.Machine

open Sys2Proof

/-! ## What a window's write leaves of the homes

Into the shadow of a window that is not pinned, a write goes as a write at the homes. -/

/-- From one state to another homes have worked, no flight has ended, and nothing else has changed but teams. -/
structure InFlight (s s' : State) : Prop where
  homes : AtHomes s s'
  flights : ∀ x ∈ s.flights, x ∈ s'.flights

namespace InFlight

theorem refl (s : State) : InFlight s s := ⟨.refl s, fun _ hx => hx⟩

theorem trans {s s' s'' : State} (h1 : InFlight s s') (h2 : InFlight s' s'') : InFlight s s'' :=
  ⟨h1.homes.trans h2.homes, fun x hx => h2.flights x (h1.flights x hx)⟩

theorem foldl {β : Type} {f : State → β → State} (step : ∀ s x, InFlight s (f s x)) (l : List β) (s : State) :
    InFlight s (l.foldl f s) :=
  foldl_related (R := InFlight) refl trans step l s

theorem of_teams (s : State) (ts : List Team) : InFlight s { s with teams := ts } := ⟨.of_rest rfl rfl rfl, fun _ hx => hx⟩

theorem modGrp (s : State) (k : GrpId) (f : Group → Group) : InFlight s (s.modGrp k f) := of_teams s _

theorem examineWords (s : State) (id : TeamId) (off n : Nat) : InFlight s (s.examineWords id off n) := of_teams s _

theorem sawSlot (s : State) (g : GrpId) (id : TeamId) (off n : Nat) : InFlight s (s.sawSlot g id off n) := by
  unfold State.sawSlot
  extract_lets ids
  split
  · exact refl s
  · exact modGrp s g _

theorem writeCells (s : State) (core : Option Nat) (attr : Nat) (push : Bool) (cells : List (Nat × Byte)) :
    InFlight s (s.writeCells core attr push cells) :=
  foldl (fun s _ => ⟨.writeLine s _, (Spares.writeLine (z := fun _ => True) s _ fun _ _ => trivial).flights⟩) _ s

theorem shadowPut (t : Team) (push : Bool) (ps : List (Nat × Nat)) (s : State) (off : Nat) (bs : List Byte) :
    InFlight s (s.shadowPut t push off ps bs) := by
  induction ps generalizing s off bs with
  | nil => exact refl s
  | cons p ps ih =>
    unfold State.shadowPut
    refine InFlight.trans ?_ (ih _ _ _)
    split
    · split
      · exact ⟨.count s _ _ _, fun _ hx => hx⟩
      · exact writeCells s _ _ _ _
    · exact refl s

theorem winPut (s : State) (id : TeamId) (off : Nat) (bs : List Byte) (push : Bool) : InFlight s (s.winPut id off bs push) := by
  unfold State.winPut
  split
  · split
    · exact of_teams s _
    · exact shadowPut _ _ _ s _ _
  · exact refl s

theorem lookSlot (s : State) (id : TeamId) (off n : Nat) (gid : GrpId) (w : WaitRec) : InFlight s (s.lookSlot id off n gid w) := by
  unfold State.lookSlot
  split
  · split
    · exact refl s
    · split
      · exact refl s
      · refine ((InFlight.trans ?_ (examineWords _ _ _ _)).trans (sawSlot _ _ _ _ _)).trans (modGrp _ _ _)
        split
        · exact refl s
        · exact winPut s _ _ _ _
  · exact refl s

theorem setSlot (s : State) (id : TeamId) (off : Nat) (x : Slot) : InFlight s (s.setSlot id off x) := by
  have hput := winPut s id off x.bytes false
  rw [State.setSlot_eq]
  unfold State.winWrite State.examine
  split
  · exact (hput.trans (examineWords _ _ _ _)).trans (foldl (fun s x => lookSlot s _ _ _ _ _) _ _)
  · exact hput

theorem subs {s s' : State} (h : InFlight s s') : s'.subs = s.subs := h.homes.keep State.subs fun _ _ => rfl

end InFlight

/-! ## The end of a subscription -/

/-- A subscription's entry that is being removed, where it feeds a slot (R321). -/
def Sub.endingAt (id : TeamId) (off : Nat) (x : Sub) : Sub := if decide (x.team = id) && x.off == off then { x with ending := true } else x

theorem Sub.ending_of_endingAt {id : TeamId} {off : Nat} {x : Sub} (ht : (x.endingAt id off).team = id) (ho : (x.endingAt id off).off = off) :
    (x.endingAt id off).ending = true := by
  unfold Sub.endingAt at ht ho ⊢
  split
  · rfl
  · next h =>
    rw [if_neg h] at ht ho
    exact absurd (by simp [ht, ho]) h

/-- A slot with an entry that feeds it: its entries are being removed, and its end mark is in flight (R321). -/
theorem State.startUnsub_sends {s : State} {id : TeamId} {off : Nat} (hmine : s.subs.any (fun y => decide (y.team = id) && y.off == off) = true)
    (x : Slot) : (s.startUnsub id off x).endMarkOut id off = true ∧ (s.startUnsub id off x).subs = s.subs.map (Sub.endingAt id off) := by
  obtain ⟨y, hy⟩ : ∃ y, s.subs.find? (fun y => decide (y.team = id) && y.off == off) = some y := by
    rw [← Option.isSome_iff_exists, List.find?_isSome]
    exact List.any_eq_true.1 hmine
  let fl : Flight := { id := s.fresh, team := id, off := off, value := 0, kind := .endMark, slice := s.sliceOf y.pa, write := 0, after := [] }
  let s1 : State := { s.tick with subs := s.subs.map (Sub.endingAt id off), flights := s.flights ++ [fl] }
  have hstart : s.startUnsub id off x = s1.setSlot id off { x with flags := x.flags ||| 8 } := by
    unfold State.startUnsub
    dsimp only
    rw [hy]
    rfl
  have hkeeps := InFlight.setSlot s1 id off { x with flags := x.flags ||| 8 }
  rw [hstart]
  refine ⟨List.any_eq_true.2 ⟨fl, hkeeps.flights fl (List.mem_append_right _ List.mem_cons_self), ?_⟩, hkeeps.subs⟩
  simp [fl]

/-! ## The words -/

/-- An address that names a slot of the team's own window lies in it (R144). -/
theorem State.scrAt_own {s : State} {id : TeamId} {addr n : Nat} {a : ScrAt} (h : s.scrAt id addr n = .ok a) (hown : fld addr 22 1 = 0) :
    a.team = id := by
  unfold State.scrAt at h
  rw [if_neg (show ¬ fld addr 22 1 = 1 by omega)] at h
  split at h
  · cases h
  · split at h
    · cases h
    · split at h
      · cases h
        rfl
      · cases h

/-- An E word that writes a pair does its own part. -/
theorem State.EReady.asEPair_eq {s : State} {t : Team} {g : Group} {rs : List Nat} (h : s.EReady t g rs) (serial : Bool) (q : BitVec 6)
    (x : BitVec 5) (w : Option Watch) (f : Team → Group → Res) :
    s.asEPair serial rs q x w f = s.finishWait rs [q.toNat, q.toNat + 1] q x w (f t g) := by
  obtain ⟨⟨ht, hg⟩, -, hwid, hr, hheld, hdet⟩ := h
  exact State.asEWith_eq ht hg hwid hr (fun _ => hheld) (by simp [State.toQueue, hdet]) _ q x w f

section
variable {s : State} {t : Team} {g : Group} {e : EF} {a : ScrAt} (h : s.EReady t g [e.p.toNat])
  (hat : s.scrAt t.id (g.sreg e.p.toNat).toNat 16 = .ok a) (hal : (g.sreg e.p.toNat).toNat % 16 = 0)
  (hrange : s.inRange a.team a.off 16 = false) (hheld : s.winHeld a.team a.off 16 = false)

include hat hal hrange hheld in
/-- A slot in reach: the word goes on with it. -/
theorem State.slotAt_eq (f : ScrAt → Bool → Res) : s.slotAt t (g.sreg e.p.toNat) f = f a (fld (g.sreg e.p.toNat).toNat 22 1 == 1) := by
  unfold State.slotAt
  dsimp only
  rw [hat]
  dsimp only
  rw [if_neg (not_not_intro hal), hrange, hheld]
  rfl

theorem State.slotGot_issued (hwid : s.iss.wid = 0) : s.slotGot = none := by
  unfold State.slotGot State.found
  simp [hwid]

/-- A slot without an uncorrectable byte read by a word of the `SUB` family. -/
theorem State.readSlot_good (hgood : s.winBadIn a.team a.off 16 = false) (v : Reg) :
    s.readSlot a v = (s.sawSlot s.iss.grp a.team a.off 16, s.slot a.team a.off) := by
  have hsaw := SameReads.sawSlot s s.iss.grp a.team a.off 16
  unfold State.readSlot
  dsimp only
  rw [hsaw.bad, hgood, State.slot, State.slot, State.winNat, State.winNat, hsaw.read]
  rfl

include h hat in
theorem State.slotWatch_eq : s.slotWatch e.p = some (.slot a.team a.off none) := by
  obtain ⟨⟨ht, hg⟩, -, hwid, -⟩ := h
  have hid : t.id = s.iss.grp.team := State.team?_id ht
  unfold State.slotWatch
  rw [hg]
  dsimp only
  rw [if_pos hwid, ← hid, hat]

include h hat hal hrange hheld

/-- `SLOTRD` of a slot in reach. -/
theorem exec_slotrd : exec (.slotrd e.p e.q) s = s.finishWait [e.p.toNat] [e.q.toNat, e.q.toNat + 1] e.q 0 none
    (let r := s.readSlot a (g.sreg e.p.toNat)
     if fld (g.sreg e.p.toNat).toNat 22 1 == 1 then s.subRefused e.q (s.slot a.team a.off)
     else Res.gated (.done ((r.1.setSlot t.id a.off r.2.wasRead).putPair e.q r.2.status r.2.seq.toNat r.2.value)) s t g) := by
  change execSlotrd e.p e.q s = _
  rw [execSlotrd, h.asEPair_eq, State.slotAt_eq hat hal hrange hheld]

/-- `SLOTWAIT` of a slot in reach, as it issues. -/
theorem exec_slotwait : exec (.slotwait e) s = s.finishWait [e.p.toNat] [e.q.toNat, e.q.toNat + 1] e.q e.x (some (.slot a.team a.off none))
    (let r := s.readSlot a (g.sreg e.p.toNat)
     if fld (g.sreg e.p.toNat).toNat 22 1 == 1 then s.subRefused e.q (s.slot a.team a.off)
     else if r.2.unread then Res.gated (.done ((r.1.setSlot t.id a.off r.2.wasRead).putPair e.q r.2.status r.2.seq.toNat r.2.value)) s t g
     else if !r.2.live then Res.gated (.done (r.1.putPair e.q stNosub r.2.seq.toNat r.2.value)) s t g
     else .wait s r.2.seq.toNat) := by
  change execSlotwait e s = _
  rw [execSlotwait, h.asEPair_eq, State.slotGot_issued h.wid_eq, State.slotWatch_eq h hat]
  dsimp only
  rw [State.slotAt_eq hat hal hrange hheld]

/-- `UNSUB` of a slot in reach, as it issues. -/
theorem exec_unsub : exec (.unsub e) s = s.finishWait [e.p.toNat] [e.q.toNat] e.q e.x none
    (let x := s.slot a.team a.off
     if fld (g.sreg e.p.toNat).toNat 22 1 == 1 || !x.live && !x.ending then s.fin e.q stRejected x.seq.toNat
     else
       let s1 := if !x.ending then s.startUnsub t.id a.off x else s
       if s1.endMarkOut t.id a.off then .wait s1 x.seq.toNat else s1.fin e.q stOk (s1.slot t.id a.off).seq.toNat) := by
  change execUnsub e s = _
  rw [execUnsub, h.asE_eq, State.slotAt_eq hat hal hrange hheld]
  simp [h.mode_eq]

end

/-- Settles O44: a slot written and read back through its 16 bytes; the words by what they do with a slot in reach. -/
theorem slots : Obligations.Slots := by
  unfold Obligations.Slots
  refine ⟨fun s id t off x hinv ht hp => ⟨fun hw => ?reads, fun b => ?mem⟩, fun s t g e a h => ?words⟩
  case reads =>
    have hwf := hinv.2 t (List.mem_of_find?_eq_some ht)
    rw [State.setSlot_eq]
    exact (State.WinHolds.of_winWrite ht hp hwf fun k hk => hw k (x.length_bytes ▸ hk)).slot
  case mem => rw [State.setSlot_eq, (TeamsKeep.winWrite ht hp off x.bytes).mem]
  case words =>
    intro addr hat hal hrange hheld x
    have hrd := exec_slotrd h hat hal hrange hheld
    have hwait := exec_slotwait h hat hal hrange hheld
    have hunsub := exec_unsub h hat hal hrange hheld
    refine ⟨fun hsib => ?sibling, fun hown => ?own⟩
    case sibling =>
      rw [hrd, hwait, hunsub, hsib]
      exact ⟨rfl, rfl, rfl⟩
    case own =>
      have hmine : a.team = t.id := State.scrAt_own hat hown
      rw [hown] at hrd hwait hunsub
      refine ⟨fun hgood hmask => ?reads, fun hlive hend => ?refused, fun hlive hsub hend => ?starts, fun hend hout => ?ended⟩
      case reads =>
        rw [State.readSlot_good hgood] at hrd hwait
        dsimp only at hrd hwait
        simp only [Res.gated_of_no_trap _ s t hmask] at hrd hwait
        refine ⟨hrd, hwait.trans ?_⟩
        by_cases hu : x.unread = true
        · simp only [x] at hu ⊢
          simp [hu]
        · by_cases hlive : x.live = false
          · simp only [x] at hu hlive ⊢
            simp [hu, hlive]
          · simp only [x] at hu hlive ⊢
            simp [hu, hlive, State.finishWait_wait h.mode_eq]
      case refused =>
        simp only [x] at hlive hend
        rw [hunsub]
        simp [hlive, hend, State.fin, x]
      case starts =>
        obtain ⟨hout, hsubs⟩ := State.startUnsub_sends hsub x
        simp only [x] at hlive hend hout
        refine ⟨?_, by rw [hsubs, List.length_map], fun y hy hyt hyo => ?_⟩
        · rw [hunsub]
          simp [hlive, hend, hout, State.finishWait_wait h.mode_eq, x]
        · obtain ⟨z, -, rfl⟩ := List.mem_map.1 (hsubs ▸ hy)
          exact Sub.ending_of_endingAt hyt hyo
      case ended =>
        simp only [x] at hend
        rw [hunsub]
        rw [← hmine] at hout ⊢
        simp [hend, hout, State.fin, x]

end Sys2Proof.Machine

/-! # `FENCE`, `FETCHBAR`, `RCFENCE`, `TLBFENCE` and `MSFENCE` (R165, R166, R170, R182, R200, R246, R281, R295) -/

namespace Sys2Proof.Machine

open Sys2Proof

/-! ## The cache actions of a fence -/

section
variable {s : State}

/-- Lines that have been written back, one after the other, have no store left. -/
theorem State.AllSwitched.writeBacks (hs : s.AllSwitched) (core : Nat) (lines : List Nat) :
    ∀ b ∈ ((lines.foldl (fun s l => s.writeBack core l) s).core core).self, lineOf b.pa ∈ lines → b.stores = [] := by
  induction lines generalizing s with
  | nil => simp
  | cons line lines ih =>
    intro b hb hmem
    rw [List.foldl_cons] at hb
    rcases List.mem_cons.1 hmem with hline | hmem
    · obtain ⟨a, ha, hpa, hst⟩ := ((AtHomes.foldl (fun s l => AtHomes.writeBack s core l) lines (s.writeBack core line)).core core).2 b hb
      have hnil := hs.writeBack core line a ha (by rw [hpa, hline])
      exact List.eq_nil_iff_forall_not_mem.2 fun x hx => by simpa [hnil] using hst x hx
    · exact ih ((AtHomes.writeBack s core line).allSwitched hs) b hb hmem

/-- A core has no dirty `SELFINV` byte after a release, where no page migrates (R166). -/
theorem State.AllSwitched.relSelf (hs : s.AllSwitched) (core : Nat) : ∀ b ∈ ((s.relSelf core).core core).self, b.dirty = false := by
  intro b hb
  obtain ⟨a, ha, hpa, hst⟩ := ((AtHomes.relSelf s core).core core).2 b hb
  refine Bool.eq_false_iff.2 fun hd => ?_
  have hne : b.stores ≠ [] := by simpa [SelfByte.dirty] using hd
  obtain ⟨x, hx⟩ := List.exists_mem_of_ne_nil b.stores hne
  have hda : a.dirty = true := by simpa [SelfByte.dirty] using List.ne_nil_of_mem (hst x hx)
  refine hne (hs.writeBacks core _ b hb (List.mem_eraseDups.2 ?_))
  rw [← hpa]
  exact List.mem_map.2 ⟨a, List.mem_filter.2 ⟨ha, hda⟩, rfl⟩

/-- After an acquire a core holds no clean `SELFINV` byte (R166). -/
theorem State.acqSelf_core (s : State) (core : Nat) : ((s.acqSelf core).core core).self = (s.core core).self.filter (·.dirty) :=
  congrArg Core.self (s.core_modCore_self core _)

/-- The state after the release that a fence of a kind is (R166). -/
def State.fenceReleased (s : State) (t : Team) (g : Group) (k : Kind) (sc : Nat) : State :=
  if k = .acq then s else s.relScope g.core sc t.paired

/-- The state after the release and the acquire that a fence of a kind is (R166). -/
def State.fenceActed (s : State) (t : Team) (g : Group) (k : Kind) (sc : Nat) : State :=
  if k = .rel then s.fenceReleased t g k sc else ((s.fenceReleased t g k sc).acqScope g.core sc t.paired).orders t g sc

/-- A fence then holds its group's later words (R165). -/
theorem State.fenceDo_eq (s : State) (t : Team) (g : Group) (k : Kind) (sc : Nat) :
    s.fenceDo t g k sc = (s.fenceActed t g k sc).modGrp s.iss.grp (fun x => x.holdFor
      ((s.fenceActed t g k sc).parkIds g.core s.iss.grp (fun p => k != .acq || p.reads))
      (if k = .acq then [] else (s.fenceActed t g k sc).pushIds) (k != .acq) (k != .acq && coreScope sc t.paired)
      (k != .rel && coreScope sc t.paired)) := rfl

variable {t : Team} {g : Group} {k : Kind} {sc : Nat}

theorem Notices.fenceReleased (s : State) (t : Team) (g : Group) (k : Kind) (sc : Nat) : Notices s (s.fenceReleased t g k sc) := by
  unfold State.fenceReleased
  split
  · exact .refl s
  · exact .relScope s _ _ _

theorem Spares.fenceReleased (s : State) (t : Team) (g : Group) (k : Kind) (sc : Nat) :
    Spares (s.MayGoHome g.core) s (s.fenceReleased t g k sc) := by
  unfold State.fenceReleased State.relScope
  split
  · exact .refl s
  · split
    · exact .relSelf s (Spares.Back.of_writtenBack s g.core)
    · exact .refl s

theorem State.orders_cores (s : State) (t : Team) (g : Group) (sc : Nat) : (s.orders t g sc).cores = s.cores := by
  unfold State.orders
  split <;> rfl

theorem State.fenceActed_mem (s : State) (t : Team) (g : Group) (k : Kind) (sc : Nat) :
    (s.fenceActed t g k sc).mem = (s.fenceReleased t g k sc).mem := by
  unfold State.fenceActed
  split
  · rfl
  · rw [(State.orders_same _ t g sc).1, (State.acqScope_same _ _ _ _).1]

/-- Of the group in issue the actions change its waits, and what its later writes follow. -/
theorem State.fenceActed_grp (hg : s.grp? s.iss.grp = some g) :
    ∃ (x : Group) (a : List Nat), (s.fenceActed t g k sc).grp? s.iss.grp = some { x with after := a } ∧ x.waitless = g.waitless := by
  have hnotices := Notices.fenceReleased s t g k sc
  obtain ⟨x, hx, hsame⟩ := hnotices.grp_some hg
  unfold State.fenceActed
  split
  · exact ⟨x, x.after, hx, hsame⟩
  · have hiss : ((s.fenceReleased t g k sc).acqScope g.core sc t.paired).iss = s.iss := (State.acqScope_same _ _ _ _).2.trans hnotices.iss
    have hx1 : ((s.fenceReleased t g k sc).acqScope g.core sc t.paired).grp?
        ((s.fenceReleased t g k sc).acqScope g.core sc t.paired).iss.grp = some x := by
      rw [hiss, State.acqScope_grp, hx]
    obtain ⟨a, ha⟩ := State.orders_grp hx1 t g sc
    rw [hiss] at ha
    exact ⟨x, a, ha, hsame⟩

/-- At a scope below the core's, no cache acts. -/
theorem State.fenceActed_shallow (hsc : coreScope sc t.paired = false) :
    (s.fenceActed t g k sc).cores = s.cores ∧ (s.fenceActed t g k sc).mem = s.mem := by
  have hrel : s.fenceReleased t g k sc = s := by
    simp [State.fenceReleased, State.relScope, hsc]
  rw [State.fenceActed_mem, hrel]
  refine ⟨?_, rfl⟩
  unfold State.fenceActed
  rw [hrel]
  split
  · rfl
  · rw [State.orders_cores, State.acqScope, if_neg (ne_true_of_eq_false hsc)]

/-- At a scope that covers the core, an acquire keeps the dirty `SELFINV` bytes that the release has left. -/
theorem State.fenceActed_self (hsc : coreScope sc t.paired = true) : ((s.fenceActed t g k sc).core g.core).self =
    if k = .rel then ((s.fenceReleased t g k sc).core g.core).self
    else ((s.fenceReleased t g k sc).core g.core).self.filter (·.dirty) := by
  unfold State.fenceActed
  split
  · rfl
  · rw [State.core, State.orders_cores, State.acqScope, if_pos hsc]
    exact State.acqSelf_core _ g.core

end

/-- After the release of a fence that releases, at a scope that covers the core, it has no dirty `SELFINV` byte, where no page migrates. -/
theorem State.AllSwitched.fenceReleased {s : State} (hs : s.AllSwitched) {t : Team} {g : Group} {k : Kind} {sc : Nat} (hk : k ≠ .acq)
    (hsc : coreScope sc t.paired = true) : ∀ b ∈ ((s.fenceReleased t g k sc).core g.core).self, b.dirty = false := by
  rw [State.fenceReleased, if_neg hk, State.relScope, if_pos hsc]
  exact hs.relSelf g.core

/-! ## What a fence holds -/

/-- A group held for what is parked: outside trap mode it waits for that too. -/
theorem Group.parked_holdFor {g : Group} (h : g.trapMask = none) (parked pushes : List Nat) (st rel acq : Bool) :
    (g.holdFor parked pushes st rel acq).hold.parked = g.hold.parked ++ parked := by
  simp [Group.holdFor, h]

/-- A word of a group that waits for a parked access is held. -/
theorem State.held_parked {s : State} {g : Group} {p : Park} (ht : g.trapMask = none) (hp : p ∈ (s.core g.core).replay)
    (hid : p.id ∈ g.hold.parked) : s.held g = some .parked := by
  have hany : (s.core g.core).replay.any (fun p => g.hold.parked.contains p.id) = true :=
    List.any_eq_true.2 ⟨p, hp, by simpa using hid⟩
  rw [State.held, if_pos (by rw [ht, hany]; rfl)]

theorem State.mem_parkIds {s : State} {core : Nat} {gid : GrpId} {f : Park → Bool} {p : Park} (hp : p ∈ (s.core core).replay) (hg : p.grp = gid)
    (ha : p.isAccess = true) (hf : f p = true) : p.id ∈ s.parkIds core gid f :=
  List.mem_map.2 ⟨p, List.mem_filter.2 ⟨List.mem_filter.2 ⟨hp, by simpa using hg⟩, by simp [ha, hf]⟩, rfl⟩

/-! ## The words -/

/-- A word of the fence family that is ready does its own part. -/
theorem State.fenceWord_eq {s : State} {t : Team} {g : Group} (h : s.MReady t g [] [] [] [] none) {sregs : List Nat}
    (hs : g.sPending sregs = false) (f : Team → Group → Res) : s.fenceWord sregs f = s.finish (f t g) := by
  obtain ⟨hi, hregs, hqueue, hv, -, hrest⟩ := h
  exact State.MReady.asM_eq (regs := []) (src := []) (sregs := sregs) (pops := []) (push := none) ⟨hi, hregs, hqueue, hv, hs, hrest⟩ _

section
variable {s : State} {t : Team} {g : Group} (h : s.MReady t g [] [] [] [] none)
include h

/-- A word of the fence family without s registers does its own part. -/
theorem State.fenceWord_alone (f : Team → Group → Res) : s.fenceWord [] f = s.finish (f t g) := by
  obtain ⟨-, -, -, -, hs, -⟩ := id h
  exact State.fenceWord_eq h hs f

theorem exec_fence_nothing {k : Kind} {sc : BitVec 3} (hno : sc = 0 ∨ s.isDet t.id = true) : exec (.fence k sc) s = .next s := by
  change execFence k sc s = _
  rw [execFence, State.fenceWord_alone h, if_pos (by simpa using hno)]
  rfl

theorem exec_fence_acts {k : Kind} {sc : BitVec 3} (hsc : sc ≠ 0) (hdet : s.isDet t.id = false)
    (hflush : k ≠ .acq → (s.fenceDo t g k sc.toNat).unflushed g.core = false) :
    exec (.fence k sc) s = .next (s.fenceDo t g k sc.toNat) := by
  have hstall : (k != .acq && (s.fenceDo t g k sc.toNat).unflushed g.core) = false := by
    by_cases hk : k = .acq
    · simp [hk]
    · simp [hflush hk]
  change execFence k sc s = _
  rw [execFence, State.fenceWord_alone h, if_neg (by rw [decide_eq_false hsc, hdet]; exact Bool.false_ne_true)]
  dsimp only
  rw [hstall]
  rfl

end

/-- The loop buffers of a core with those of a group empty (R182). -/
def Core.emptyBufs (c : Core) (k : GrpId) : Core :=
  { c with loopBufs := c.loopBufs.map (fun b => if b.owner = k then { b with packets := [] } else b) }

theorem Core.packets_emptyBufs {c : Core} {k : GrpId} {b : LoopBuf} (hb : b ∈ (c.emptyBufs k).loopBufs) (hk : b.owner = k) : b.packets = [] := by
  obtain ⟨d, -, rfl⟩ := List.mem_map.1 hb
  by_cases hd : d.owner = k
  · rw [if_pos hd]
  · rw [if_neg hd] at hk
    exact absurd hk hd

theorem Group.live_killLatches {g : Group} {th : Thread} (h : th ∈ g.killLatches.threads) : ∀ l ∈ th.lat, l.live = false := by
  obtain ⟨x, -, rfl⟩ := List.mem_map.1 h
  intro l hl
  obtain ⟨m, -, rfl⟩ := List.mem_map.1 hl
  rfl

section
variable {s : State} {t : Team} {g : Group} (h : s.MReady t g [] [] [] [] none)
include h

theorem exec_fetchbar : exec .fetchbar s =
    .next ((s.modCore g.core (·.emptyBufs s.iss.grp)).modGrp s.iss.grp (fun x => { x.killLatches with stream := [] })) := by
  change execFetchbar s = _
  rw [execFetchbar, State.fenceWord_alone h]
  rfl

theorem exec_msfence_waits (hheld : s.stackHeldBy g.core = true) (ar : Bool) :
    exec (.msfence ar) s = .next { s with iss := { s.iss with stalled := some .busy } } := by
  change execMsfence ar s = _
  rw [execMsfence, State.fenceWord_alone h, if_pos hheld]
  rfl

/-- `MSFENCE` changes of its group what its later words wait for. -/
theorem exec_msfence_holds (hfree : s.stackHeldBy g.core = false) (ar : Bool) :
    ∃ s', exec (.msfence ar) s = .next s' ∧ SameBut s s' s.iss.grp ∧
      ∃ g', s'.grp? s.iss.grp = some g' ∧ { g' with hold := g.hold } = g := by
  obtain ⟨⟨-, hg⟩, -⟩ := id h
  have hexec : ∃ f : Group → Group, exec (.msfence ar) s = .next (s.modGrp s.iss.grp f) ∧ { f g with hold := g.hold } = g := by
    change ∃ f : Group → Group, execMsfence ar s = _ ∧ _
    rw [execMsfence, State.fenceWord_alone h, if_neg (ne_true_of_eq_false hfree)]
    exact ⟨_, rfl, rfl⟩
  obtain ⟨f, hf, hsame⟩ := hexec
  exact ⟨_, hf, SameBut.modGrp s _ f, f g, by rw [State.grp?_modGrp_self, hg, Option.map_some], hsame⟩

variable (h0 : g.sPending [0] = false)
include h0

/-- `RCFENCE` of the whole space (R246). -/
theorem exec_rcfence_all {sc : BitVec 3} {o : Bool} (hpark : s.parkedStores g s.iss.grp none = false)
    (hflush : (s.relSelf g.core).unflushed g.core = false) (hpush : (s.relSelf g.core).pushIds = []) :
    exec (.rcfence sc ⟨0, .all, o⟩) s = .next { s.relSelf g.core with
      vats := (s.relSelf g.core).vats.map (fun (v : Vat) =>
        if vatIn g.core sc.toNat v.num then { v with shapes := v.shapes.filter (fun e => !(e.space == t.space && true)) } else v) } := by
  change execRcfence sc ⟨0, .all, o⟩ s = _
  rw [execRcfence, State.fenceWord_eq h (sregs := rangeSregs ⟨0, .all, o⟩) h0]
  simp only [Group.range, Option.map_none, hpark, hflush, hpush, Bool.false_eq_true, if_false, List.isEmpty_nil, Bool.not_true, Bool.or_self]
  rfl

end

/-- A core's translations without those that a fence removes (R200). -/
def State.keepTlb (s : State) (p : TlbEnt → Bool) (n : Nat) : State := s.modCore n (fun c => { c with tlb := c.tlb.filter p })

theorem State.tlb_keepTlb {s : State} {p : TlbEnt → Bool} {n m : Nat} {e : TlbEnt} (he : e ∈ ((s.keepTlb p n).core m).tlb) :
    e ∈ (s.core m).tlb ∧ (m = n → p e = true) := by
  by_cases hm : m = n
  · subst hm
    have htlb : ((s.keepTlb p m).core m).tlb = (s.core m).tlb.filter p := congrArg Core.tlb (s.core_modCore_self m _)
    obtain ⟨hmem, hp⟩ := List.mem_filter.1 (htlb ▸ he)
    exact ⟨hmem, fun _ => hp⟩
  · rw [State.keepTlb, State.core_modCore_ne s _ hm] at he
    exact ⟨he, fun hmn => absurd hmn hm⟩

/-- The translations of some cores without those that a fence removes. -/
theorem State.tlb_keepTlbs (p : TlbEnt → Bool) (cs : List Nat) (s : State) : (cs.foldl (fun s c => s.keepTlb p c) s).mem = s.mem ∧
    ∀ m e, e ∈ ((cs.foldl (fun s c => s.keepTlb p c) s).core m).tlb → e ∈ (s.core m).tlb ∧ (m ∈ cs → p e = true) := by
  induction cs generalizing s with
  | nil => exact ⟨rfl, fun m e he => ⟨he, fun hm => absurd hm List.not_mem_nil⟩⟩
  | cons c cs ih =>
    obtain ⟨hmem, hrest⟩ := ih (s.keepTlb p c)
    refine ⟨hmem, fun m e he => ?_⟩
    obtain ⟨he1, hp1⟩ := hrest m e he
    obtain ⟨he2, hp2⟩ := State.tlb_keepTlb he1
    exact ⟨he2, fun hm => (List.mem_cons.1 hm).elim hp2 hp1⟩

/-- `TLBFENCE` of the whole space (R200). -/
theorem exec_tlbfence_all {s : State} {t : Team} {g : Group} (h : s.MReady t g [] [] [] [] none) (h0 : g.sPending [0] = false)
    {sc : BitVec 3} {o : Bool} (hpark : s.parkedStores g s.iss.grp none = false)
    (hflush : (s.cleanCore g.core).unflushed g.core = false) (hpush : (s.cleanCore g.core).pushIds = []) :
    exec (.tlbfence sc ⟨0, .all, o⟩) s = .next (((s.cleanCore g.core).coresIn g.core sc.toNat).foldl
      (fun s c => s.keepTlb (fun e => !(e.space == t.space && true)) c) (s.cleanCore g.core)) := by
  change execTlbfence sc ⟨0, .all, o⟩ s = _
  rw [execTlbfence, State.fenceWord_eq h (sregs := rangeSregs ⟨0, .all, o⟩) h0]
  simp only [Group.range, Option.map_none, hpark, hflush, hpush, Bool.false_eq_true, if_false, List.isEmpty_nil, Bool.not_true, Bool.or_self]
  rfl

/-- Settles O29: a fence by its cache actions and then its holds; the other words by the one update that each makes. -/
theorem fences : Obligations.Fences := by
  unfold Obligations.Fences
  refine ⟨fun s t g k sc h => ⟨fun hno => exec_fence_nothing h hno, fun hsc hdet hflush => ?fence⟩, fun s t g h => ?others⟩
  case fence =>
    obtain ⟨⟨-, hg⟩, -⟩ := id h
    obtain ⟨x, a, hx, hsame⟩ := State.fenceActed_grp (t := t) (k := k) (sc := sc.toNat) hg
    have hgrp := State.grp?_modGrp_self (s.fenceActed t g k sc.toNat) s.iss.grp (fun x => x.holdFor
      ((s.fenceActed t g k sc.toNat).parkIds g.core s.iss.grp (fun p => k != .acq || p.reads))
      (if k = .acq then [] else (s.fenceActed t g k sc.toNat).pushIds) (k != .acq) (k != .acq && coreScope sc.toNat t.paired)
      (k != .rel && coreScope sc.toNat t.paired))
    rw [hx, Option.map_some] at hgrp
    have hmem : (s.fenceDo t g k sc.toNat).mem = (s.fenceReleased t g k sc.toNat).mem := State.fenceActed_mem s t g k sc.toNat
    refine ⟨s.fenceDo t g k sc.toNat, _, exec_fence_acts h hsc hdet hflush, hgrp,
      congrArg (fun x : Group => { x with hold := g.hold, after := g.after, waits := g.waits }) hsame, fun hk b => ?_, fun b hw hl => ?_,
      fun hcore => ⟨fun hk hcalm => ?_, fun hk => ?_⟩, fun hcore => ?_, fun p hp hpg hpa hpr hmask => ?_⟩
    · rw [hmem, State.fenceReleased, if_pos hk]
    · rw [hmem]
      exact (Spares.fenceReleased s t g k sc.toNat).read hw hl
    · change ∀ b ∈ ((s.fenceActed t g k sc.toNat).core g.core).self, b.dirty = false
      have hclean := State.AllSwitched.fenceReleased (s := s) hcalm (g := g) hk hcore
      rw [State.fenceActed_self hcore]
      split
      · exact hclean
      · exact fun b hb => hclean b (List.mem_of_mem_filter hb)
    · change ∀ b ∈ ((s.fenceActed t g k sc.toNat).core g.core).self, b.dirty = true
      rw [State.fenceActed_self hcore, if_neg hk]
      exact fun b hb => (List.mem_filter.1 hb).2
    · obtain ⟨hcores, hmem0⟩ := State.fenceActed_shallow (s := s) (g := g) (k := k) hcore
      exact ⟨hcores, fun b => congrArg (Memory.read · b) hmem0⟩
    · have hxmask : x.trapMask = none := by
        have hx : x.waitless.trapMask = g.waitless.trapMask := congrArg Group.trapMask hsame
        exact hx.trans hmask
      have hxcore : x.core = g.core := by
        have hx : x.waitless.core = g.waitless.core := congrArg Group.core hsame
        exact hx
      refine State.held_parked hxmask (hxcore ▸ hp) ?_
      rw [Group.parked_holdFor (g := { x with after := a }) hxmask]
      refine List.mem_append_right _ (State.mem_parkIds hp hpg hpa ?_)
      by_cases hk : k = .acq
      · simp [hpr hk]
      · simp [hk]
  case others =>
    obtain ⟨⟨-, hg⟩, -⟩ := id h
    refine ⟨?fetchbar, fun ar => ⟨fun hheld => exec_msfence_waits h hheld ar, fun hfree => exec_msfence_holds h hfree ar⟩,
      fun sc o h0 => ⟨fun hpark hflush hpush => ?rcfence, fun hpark hflush hpush => ?tlbfence⟩⟩
    case fetchbar =>
      refine ⟨_, { g.killLatches with stream := [] }, exec_fetchbar h, fun _ => rfl, ?_, rfl, rfl, fun th hth => g.live_killLatches hth,
        fun b hb hk => ?_⟩
      · rw [State.grp?_modGrp_self]
        exact congrArg (Option.map _) hg
      · have hbufs : ((s.modCore g.core (·.emptyBufs s.iss.grp)).core g.core).loopBufs = ((s.core g.core).emptyBufs s.iss.grp).loopBufs := by
          rw [State.core_modCore_self]
        exact Core.packets_emptyBufs (hbufs ▸ hb) hk
    case rcfence =>
      refine ⟨_, exec_rcfence_all h h0 hpark hflush hpush, rfl, fun v hv hin e he => ?_⟩
      obtain ⟨u, -, rfl⟩ := List.mem_map.1 hv
      split at he
      · simpa using (List.mem_filter.1 he).2
      · next hout =>
        rw [if_neg hout] at hin
        exact absurd hin hout
    case tlbfence =>
      obtain ⟨hmem, hkept⟩ := State.tlb_keepTlbs (fun e => !(e.space == t.space && true)) ((s.cleanCore g.core).coresIn g.core sc.toNat)
        (s.cleanCore g.core)
      refine ⟨_, exec_tlbfence_all h h0 hpark hflush hpush, hmem, fun c hc e he => ?_⟩
      simpa using (hkept c e he).2 hc

end Sys2Proof.Machine

/-! # `CLEAN`, `INVAL` and `ICINV` (R165, R181, R198, R203, R363) -/

namespace Sys2Proof.Machine

open Sys2Proof

/-! ## The word -/

section
variable {s : State} {t : Team} {g : Group} {k : Maint} {sc : BitVec 3} {r : Range} (h : s.MReady t g [] [] (rangeSregs r) [] none)
include h

/-- A maintenance word waits for a parked store of its range. -/
theorem State.maintain_parked (hpark : s.parkedStores g s.iss.grp ((g.range s.iss.lit r).map wholeLines) = true) :
    s.maintain k sc r = .next { s with iss := { s.iss with stalled := some .parked } } := by
  rw [State.maintain, State.fenceWord, State.MReady.asM_eq h]
  dsimp only
  rw [if_pos hpark]
  rfl

variable (hfree : s.parkedStores g s.iss.grp ((g.range s.iss.lit r).map wholeLines) = false)
include hfree

/-- A maintenance word of the whole space acts on every line in scope. -/
theorem State.maintain_all (hb : (g.range s.iss.lit r).map wholeLines = none)
    (hflush : (s.actAll (s.toAct k (s.coresIn g.core sc.toNat) fun _ => true)).unflushed g.core = false) :
    s.maintain k sc r = .next (s.actAll (s.toAct k (s.coresIn g.core sc.toNat) fun _ => true)) := by
  rw [State.maintain, State.fenceWord, State.MReady.asM_eq h]
  dsimp only
  rw [if_neg (ne_true_of_eq_false hfree), hb]
  dsimp only
  rw [if_neg (ne_true_of_eq_false hflush)]
  rfl

variable {x : Nat × Nat} {ps : List (Nat × Nat)} (hb : (g.range s.iss.lit r).map wholeLines = some x)
include hb

/-- A maintenance word whose pages all translate acts on the lines of its pieces. -/
theorem State.maintain_pieces (hps : s.pieces g.core t.space (x.2 / 2 ^ 17 + 2) x.1 x.2 = (ps, none))
    (hflush : (s.actAll (s.toAct k (s.coresIn g.core sc.toNat) (s.lineIn ps))).unflushed g.core = false) :
    s.maintain k sc r = .next (s.actAll (s.toAct k (s.coresIn g.core sc.toNat) (s.lineIn ps))) := by
  rw [State.maintain, State.fenceWord, State.MReady.asM_eq h]
  dsimp only
  rw [if_neg (ne_true_of_eq_false hfree), hb]
  dsimp only
  rw [hps]
  dsimp only
  rw [if_neg (ne_true_of_eq_false hflush)]
  rfl

/-- A maintenance word that meets a page fault traps, with the lines of the pages before it acted on. -/
theorem State.maintain_fault {e : PFault} {va : Nat} (hps : s.pieces g.core t.space (x.2 / 2 ^ 17 + 2) x.1 x.2 = (ps, some (e, va))) :
    let s1 := (s.actAll (s.toAct k (s.coresIn g.core sc.toNat) (s.lineIn ps))).trapNow (s.wordTrap 8 e.detail va e.level 0)
    s.maintain k sc r = .next { s1 with iss := { s1.iss with acted := s.toAct k (s.coresIn g.core sc.toNat) (s.lineIn ps) } } := by
  intro s1
  rw [State.maintain, State.fenceWord, State.MReady.asM_eq h]
  dsimp only
  rw [if_neg (ne_true_of_eq_false hfree), hb]
  dsimp only
  rw [hps]
  rfl

end

/-! ## A core cleaned -/

theorem State.stale_giveBack (s : State) (p : Nat × Byte × Nat → Bool) : (s.giveBack p).stale = s.stale.filter (fun e => !p e) := by
  unfold State.giveBack
  extract_lets out lost isLost s1
  have hcounts (l : List Nat) : ∀ s : State, (l.foldl (fun s l => s.count (s.homeWheel (128 * l)) 0x46 1) s).stale = s.stale := by
    induction l with
    | nil => exact fun _ => rfl
    | cons x l ih => exact fun s => ih _
  exact hcounts _ s1

/-- A core has no dirty copy of a line that it has written back. -/
theorem State.stale_writeBack {s : State} {core line : Nat} {e : Nat × Byte × Nat} (he : e ∈ (s.writeBack core line).stale) :
    ¬ (lineOf e.1 = line ∧ e.2.2 = core) := by
  unfold State.writeBack at he
  extract_lets s0 lost s1 at he
  have h1 : Spares (fun _ => True) s0 s1 := by
    unfold s1
    split
    · exact .of_standing rfl
    · exact .refl s0
  obtain ⟨d, hd, hpa, hcore⟩ := (h1.trans (Spares.selfOut s1 (fun _ _ _ => trivial) line _)).stale e he
  rw [State.stale_giveBack] at hd
  rintro ⟨hline, hcore'⟩
  simpa [hpa, hcore, hline, hcore'] using (List.mem_filter.1 hd).2

/-- A core has no dirty copy of the lines that it has written back, one after the other. -/
theorem State.stale_writeBacks {core : Nat} (lines : List Nat) {s : State} {e : Nat × Byte × Nat}
    (he : e ∈ (lines.foldl (fun s l => s.writeBack core l) s).stale) : ¬ (lineOf e.1 ∈ lines ∧ e.2.2 = core) := by
  induction lines generalizing s with
  | nil => exact fun h => List.not_mem_nil h.1
  | cons line lines ih =>
    rintro ⟨hline, hcore⟩
    rcases List.mem_cons.1 hline with hline | hline
    · obtain ⟨d, hd, hpa, hdc⟩ := (Spares.writeBacks (z := fun _ => True) lines (s.writeBack core line) fun _ _ _ => trivial).stale e he
      exact State.stale_writeBack hd ⟨by rw [hpa, hline], hdc.trans hcore⟩
    · exact ih he ⟨hline, hcore⟩

/-- A core that has been cleaned has no dirty `DIR` copy (R181). -/
theorem State.stale_cleanCore {s : State} {core : Nat} {e : Nat × Byte × Nat} (he : e ∈ (s.cleanCore core).stale) : e.2.2 ≠ core := by
  intro hcore
  obtain ⟨d, hd, hpa, hdc⟩ := (Spares.cleanCore (z := fun _ => True) (core := core) s fun _ _ _ => trivial).stale e he
  refine State.stale_writeBacks (s.coreLines core) he ⟨List.mem_eraseDups.2 (List.mem_append_right _ ?_), hcore⟩
  exact List.mem_map.2 ⟨d, List.mem_filter.2 ⟨hd, by simp [hdc, hcore]⟩, by rw [hpa]⟩

theorem exec_maint {i : Instr} {k : Maint} {sc : BitVec 3} {r : Range}
    (h : i = .clean sc r ∧ k = .clean ∨ i = .inval sc r ∧ k = .inval ∨ i = .icinv sc r ∧ k = .icinv) (s : State) :
    exec i s = s.maintain k sc r := by
  rcases h with ⟨rfl, rfl⟩ | ⟨rfl, rfl⟩ | ⟨rfl, rfl⟩ <;> rfl

/-- Settles O30: the word by its range; a cleaned core by its lines, which are all that it holds dirty. -/
theorem cacheMaintenance : Obligations.CacheMaintenance := by
  unfold Obligations.CacheMaintenance
  refine ⟨fun s t g i k sc r hi h => ?word, fun s core => ⟨fun hcalm => State.AllSwitched.cleanCore hcalm core,
    fun e he => State.stale_cleanCore he, fun a hw hl => (Spares.cleanCore s (Spares.Back.of_writtenBack s core)).read hw hl⟩⟩
  case word =>
    intro b acted
    rw [exec_maint hi]
    refine ⟨State.maintain_parked h, fun hfree => ⟨fun keep hkeep hflush => ?_, fun x ps e va hb hps => ?_⟩⟩
    · rcases hkeep with ⟨hb, rfl⟩ | ⟨x, ps, hb, hps, rfl⟩
      · exact State.maintain_all h hfree hb hflush
      · exact State.maintain_pieces h hfree hb hps hflush
    · exact ⟨_, State.maintain_fault h hfree hb hps, rfl, rfl⟩

end Sys2Proof.Machine

/-! # The host's accesses and snoops (R179, R199, R352) -/

namespace Sys2Proof.Machine

open Sys2Proof

/-! ## A write performed at its home reads back -/

/-- A byte whose home holds it alone, in no fenced channel, is held once it is written there. -/
theorem State.homePut_holds {s : State} (hwf : Memory.wf s.mem = true) {a : Nat} (hf : s.fenced a = false) (hst : ∀ e ∈ s.stale, e.1 ≠ a)
    (v : Byte) : (s.homePut a v).Holds a v := by
  have hv : (s.unverify a).mem = s.mem ∧ (s.unverify a).stale = s.stale ∧ (s.unverify a).fenced a = false := by
    unfold State.unverify
    split <;> exact ⟨rfl, rfl, hf⟩
  obtain ⟨hmem, hstale, hfence⟩ := hv
  have hnone : (s.unverify a).stale.any (fun e => e.1 == a) = false := any_eq_false_iff.2 fun e he => by
    simpa using hst e (hstale ▸ he)
  rw [State.homePut, if_neg (ne_true_of_eq_false hf)]
  extract_lets s1 s2
  rw [if_neg (ne_true_of_eq_false hnone)]
  refine ⟨Memory.read_write_self a v (show Memory.wf s1.mem = true from hmem ▸ hwf), ?_⟩
  have hgood : s2.homeBad a = false := by
    have hfence2 : s2.fenced a = false := hfence
    rw [State.homeBad, hfence2]
    simp [s2]
  exact (if_neg (ne_true_of_eq_false hnone)).trans hgood

/-- What a write of some cells at their homes may change. -/
def State.cellZone (s : State) (cells : List (Nat × Byte)) : Zone := s.zoneOf 0 (· ∈ cells.map Prod.fst) (fun _ => False)

/-- A byte held is none that is lost, and no other write reaches it. -/
theorem State.Holds.not_cell {s : State} {a : Nat} {v : Byte} (h : s.Holds a v) {cells : List (Nat × Byte)} (ha : a ∉ cells.map Prod.fst) :
    ¬ (s.cellZone cells).byte a := by
  rintro (hmem | hlost | ⟨b, -, -, hline, -⟩)
  · exact ha hmem
  · exact h.not_lost hlost
  · exact hline

theorem State.fwd_of_no_migration {s : State} (h : s.migrations = []) (a : Nat) : s.fwd a = a := by
  simp [State.fwd, h]

theorem AtHomes.no_migration {s s' : State} (h : AtHomes s s') (hm : s.migrations = []) : s'.migrations = [] :=
  List.map_eq_nil_iff.1 (h.migr.trans (by rw [hm]; rfl))

/-- The cells of a write are held, where no L1 holds a dirty copy of them. -/
theorem State.putCells_hold {cells : List (Nat × Byte)} (hnd : (cells.map Prod.fst).Nodup) {s : State} (hwf : Memory.wf s.mem = true)
    (hm : s.migrations = []) (hf : ∀ c ∈ cells, s.fenced c.1 = false) (hst : ∀ e ∈ s.stale, ∀ c ∈ cells, e.1 ≠ c.1) :
    ∀ c ∈ cells, (s.putCells 0 cells).Holds c.1 c.2 := by
  induction cells generalizing s with
  | nil => simp
  | cons c cs ih =>
    obtain ⟨hc, hnd⟩ := List.nodup_cons.1 hnd
    have htarget : s.target 0 c.1 = c.1 := (if_neg (by decide)).trans (State.fwd_of_no_migration hm c.1)
    rw [State.putCells, htarget]
    have hspares : Spares (· = c.1) s (s.homePut c.1 c.2) :=
      Spares.homePut (z := (· = c.1)) s rfl c.2
    have hhold := State.homePut_holds hwf (hf c List.mem_cons_self) (fun e he => hst e he c List.mem_cons_self) c.2
    have hkeep := Confined.homePut (z := s.cellZone [c]) s (State.byte_zoneOf (show c.1 ∈ [c].map Prod.fst by simp)) c.2
      (State.within_zoneOf hwf _ _ _)
    have hm1 := (AtHomes.homePut s c.1 c.2).no_migration hm
    generalize s.homePut c.1 c.2 = s1 at hspares hhold hkeep hm1
    intro d hd
    rcases List.mem_cons.1 hd with rfl | hd
    · refine hhold.keep (Confined.putCells (z := s1.cellZone cs) s1 0 (fun x hx => ?_) (State.within_zoneOf hkeep.within.wf _ _ _))
        (hhold.not_cell hc)
      have hzone : (s1.cellZone cs).target 0 x.1 = x.1 := (if_neg (by decide)).trans (State.fwd_of_no_migration hm1 x.1)
      rw [hzone]
      exact State.byte_zoneOf (List.mem_map_of_mem hx)
    · refine ih hnd hkeep.within.wf hm1 (fun x hx => (hspares.fenced x.1).trans (hf x (List.mem_cons_of_mem c hx))) (fun e he x hx => ?_) d hd
      obtain ⟨y, hy, hpa, -⟩ := hspares.stale e he
      exact hpa ▸ hst y hy x (List.mem_cons_of_mem c hx)

/-- No L1 holds a dirty copy of a line that has been recalled. -/
theorem State.stale_recallAll {s : State} {pa : Nat} {e : Nat × Byte × Nat} (he : e ∈ (s.recallAll pa).stale) : lineOf e.1 ≠ lineOf pa := by
  unfold State.recallAll State.recallLine at he
  dsimp only at he
  rw [State.stale_giveBack] at he
  simpa using (List.mem_filter.1 he).2

/-- The cells of a write of one line are held once it is performed (R179). -/
theorem State.perform_hold {s : State} {h : HeldWrite} (hattr : h.attr = 0) (hone : OneLine h.cells) (hnd : (h.cells.map Prod.fst).Nodup)
    (hwf : Memory.wf s.mem = true) (hm : s.migrations = []) (hf : ∀ c ∈ h.cells, s.fenced c.1 = false) :
    ∀ c ∈ h.cells, (s.perform h).Holds c.1 c.2 := by
  intro c hc
  obtain ⟨x, hx⟩ : ∃ x, h.cells.head? = some x := Option.isSome_iff_exists.1 (by
    rw [List.isSome_head?]
    exact List.ne_nil_of_mem hc)
  have hrecall := Confined.recallAll (z := s.cellZone []) s x.1 (State.within_zoneOf hwf _ _ _)
  have hm0 := (AtHomes.recallAll s x.1).no_migration hm
  have hhold := State.putCells_hold hnd hrecall.within.wf hm0 (fun d hd => (State.fenced_of_gates hrecall.gates d.1).trans (hf d hd))
    (fun e he d hd heq => State.stale_recallAll he (heq ▸ hone x (List.mem_of_mem_head? hx) d hd)) c hc
  have hput : Confined ((s.recallAll x.1).cellZone h.cells) (s.recallAll x.1) ((s.recallAll x.1).putCells 0 h.cells) := by
    refine Confined.putCells _ 0 fun d hd => ?_
    have hzone : ((s.recallAll x.1).cellZone h.cells).target 0 d.1 = d.1 := (if_neg (by decide)).trans (State.fwd_of_no_migration hm0 d.1)
    rw [hzone]
    exact State.byte_zoneOf (List.mem_map_of_mem hd)
  have hwf1 := (hput (State.within_zoneOf hrecall.within.wf _ _ _)).within.wf
  have hwithin : ((s.recallAll x.1).putCells 0 h.cells).Within (((s.recallAll x.1).putCells 0 h.cells).cellZone []) :=
    State.within_zoneOf hwf1 _ _ _
  have hcell : ¬ (((s.recallAll x.1).putCells 0 h.cells).cellZone []).byte c.1 := hhold.not_cell (by simp)
  unfold State.perform
  rw [if_pos hattr, hx, Option.map_some, Option.getD_some, State.fwd_of_no_migration hm, hattr]
  extract_lets u0 u1
  refine hhold.keep ?_ hcell
  split
  · exact ((Confined.noticed _ _).trans (Confined.wrote u1 _ _)) hwithin
  · exact Confined.noticed _ _ hwithin

/-! ## The host's accesses -/

/-- A line marked as one that the host may hold (R352). -/
def State.holdLine (s : State) (pa : Nat) : State :=
  if s.hostHeld pa then s else { s with hostLines := lineOf (s.fwd pa) :: s.hostLines }

theorem State.hostHeld_holdLine (s : State) (pa : Nat) : (s.holdLine pa).hostHeld pa = true := by
  unfold State.holdLine
  split
  · next h => exact h
  · have hfwd : State.fwd { s with hostLines := lineOf (s.fwd pa) :: s.hostLines } pa = s.fwd pa := rfl
    simp [State.hostHeld, hfwd]

/-- The mark changes no byte, and nothing that the host has read. -/
theorem State.holdLine_same (s : State) (pa : Nat) : (s.holdLine pa).mem = s.mem ∧ (s.holdLine pa).hostData = s.hostData ∧
    ∀ a n, (s.holdLine pa).physReadN a n = s.physReadN a n := by
  unfold State.holdLine
  split
  · exact ⟨rfl, rfl, fun _ _ => rfl⟩
  · exact ⟨rfl, rfl, fun _ _ => rfl⟩

section
variable {s : State} {pa n : Nat} (hpow : s.powered = true) (hn : 0 < n) (hline : pa % 128 + n ≤ 128) (hpa : pa < 2 ^ 52)
  (habsent : s.absent pa = false) (hfree : s.lineHeld pa = false)

/-- What the host reads: uncorrectable bytes are counted, and read zero (R352, R363). -/
def State.hostCxlRead (s : State) (pa n : Nat) : State :=
  let s1 := match (rangeFrom pa n).find? (fun a => s.bad (s.fwd a)) with
    | some a => s.countBad (s.fwd a)
    | none => s
  { s1 with hostData := if s.anyBad pa n then List.replicate n 0 else s.physReadN pa n }

include hpow hn hline hpa habsent hfree

/-- An access in one line of a device that is powered, at an address that is present and held for no migration or agent, is made. -/
theorem State.hostAccess_made : (!s.powered || decide (n = 0) || decide (128 < pa % 128 + n) || decide (2 ^ 52 ≤ pa) || s.absent pa ||
    s.lineHeld pa) = false := by
  rw [hpow, habsent, hfree, decide_eq_false (Nat.ne_of_gt hn), decide_eq_false (Nat.not_lt.2 hline), decide_eq_false (Nat.not_le.2 hpa)]
  rfl

theorem exec_hostCxlAccess_read : exec (.hostCxlAccess pa none n) s =
    .next (((s.hostCxlRead pa n).giveBack (fun e => lineOf e.1 == lineOf (s.fwd pa))).holdLine pa) := by
  change execHostCxlAccess pa none n s = _
  rw [execHostCxlAccess]
  dsimp only
  rw [if_neg (ne_true_of_eq_false (State.hostAccess_made hpow hn hline hpa habsent hfree))]
  rfl

theorem exec_hostCxlAccess_write {bs : List Byte} (hlen : bs.length = n) (hfence : s.fenced (s.fwd pa) = false)
    (hlock : s.lockedOld pa = false) (hpush : s.pushHeldLine (lineOf (s.fwd pa)) = false)
    (hroom : s.noPushRoom (rangeFrom (s.fwd pa) n) = false) :
    exec (.hostCxlAccess pa (some bs) n) s = .next ((s.perform ⟨cellsAt pa bs, none, true, 0, []⟩).holdLine pa) := by
  subst hlen
  change execHostCxlAccess pa (some bs) bs.length s = _
  rw [execHostCxlAccess]
  dsimp only
  rw [if_neg (ne_true_of_eq_false (State.hostAccess_made hpow hn hline hpa habsent hfree)), hfence, hlock, hpush, hroom]
  rfl

end

theorem Spares.hostCxlRead {z : Nat → Prop} (s : State) (pa n : Nat) : Spares z s (s.hostCxlRead pa n) := by
  unfold State.hostCxlRead
  extract_lets s1
  have h1 : Spares z s s1 := by
    unfold s1
    split <;> exact .of_standing rfl
  exact h1.trans (.of_standing rfl)

/-- What the host writes to a line reads back (R179, R352). -/
theorem State.physReadN_perform {s : State} (hwf : Memory.wf s.mem = true) (hm : s.migrations = []) {pa : Nat} {bs : List Byte}
    (hline : pa % 128 + bs.length ≤ 128) (hf : ∀ i, i < bs.length → s.fenced (pa + i) = false)
    (by_ : Option Nat) (after : List Nat) (push : Bool) :
    (s.perform ⟨cellsAt pa bs, by_, push, 0, after⟩).physReadN pa bs.length = bs := by
  have hcell : ∀ c ∈ cellsAt pa bs, ∃ k, k < bs.length ∧ c.1 = pa + k := fun c hc => mem_cellsAt hc
  have hone : OneLine (cellsAt pa bs) := fun c hc d hd => by
    obtain ⟨k, hk, hck⟩ := hcell c hc
    obtain ⟨j, hj, hdj⟩ := hcell d hd
    unfold lineOf
    omega
  have hhold := State.perform_hold (s := s) (h := ⟨cellsAt pa bs, by_, push, 0, after⟩) rfl hone
    (List.pairwise_map.2 ((cellsAt_rise pa bs).imp Nat.ne_of_lt)) hwf hm (fun c hc => by
      obtain ⟨k, hk, hck⟩ := hcell c hc
      exact hck ▸ hf k hk)
  have hm1 := (AtHomes.perform s ⟨cellsAt pa bs, by_, push, 0, after⟩).no_migration hm
  refine List.ext_getElem (by simp [State.physReadN, rangeFrom]) fun k hk1 hk2 => ?_
  obtain ⟨hval, hgood⟩ := hhold _ (mem_cellsAt_of_lt pa hk2)
  simp only [State.physReadN, rangeFrom, List.map_map, List.getElem_map, List.getElem_range, Function.comp, State.physRead,
    State.fwd_of_no_migration hm1]
  exact (if_neg (ne_true_of_eq_false hgood)).trans hval

/-! ## Snoops -/

section
variable {s : State} {pa : Nat} {x : Snoop} (hx : s.snoops.find? (fun x => x.line == lineOf pa) = some x)
include hx

theorem exec_backInvalidateAnswer : exec (.backInvalidateAnswer pa) s = .next (x.writes.foldl (fun s h => s.writeLine h)
    { s with snoops := s.snoops.filter (fun y => y.line != x.line), hostLines := s.hostLines.filter (fun l => l != x.line) }) := by
  change execBackInvalidateAnswer pa s = _
  rw [execBackInvalidateAnswer, hx]

theorem snoop_line : x.line = lineOf pa := by
  simpa using List.find?_some hx

theorem exec_backInvalidateTimeout_early (hnow : s.now (wheelAgent (s.homeWheel (128 * lineOf pa))) < x.since + 2 ^ 20) :
    exec (.backInvalidateTimeout pa) s = .next s := by
  rw [← snoop_line hx] at hnow
  change execBackInvalidateTimeout pa s = _
  rw [execBackInvalidateTimeout, hx]
  exact congrArg _ (if_pos hnow)

/-- A host that has not answered in time: the line is the host's no more, and it is uncorrectable (R199). -/
theorem exec_backInvalidateTimeout_late (hnow : x.since + 2 ^ 20 ≤ s.now (wheelAgent (s.homeWheel (128 * lineOf pa)))) :
    exec (.backInvalidateTimeout pa) s = .next ((({ s with
      snoops := s.snoops.filter (fun y => y.line != x.line)
      hostLines := s.hostLines.filter (fun l => l != x.line)
      poisoned := s.poisoned ++ (rangeFrom (128 * x.line) 128).filter (fun a => !(s.poisoned.contains a)) } : State).count
        (s.homeWheel (128 * x.line)) 0x46 x.writes.length).count (s.homeWheel (128 * x.line)) 0x4A 1) := by
  rw [← snoop_line hx] at hnow
  change execBackInvalidateTimeout pa s = _
  rw [execBackInvalidateTimeout, hx]
  exact congrArg _ (if_neg (Nat.not_lt.2 hnow))

end

/-- Settles O57: the host's reads and writes by what they do at the line's home; a snoop by its answer or its timeout. -/
theorem hostAccess : Obligations.HostAccess := by
  unfold Obligations.HostAccess
  refine fun s pa n hpow hn hline hpa habsent hfree => ⟨?read, fun bs hlen hfence hlock hpush hroom => ?write, fun x hx => ?snoop⟩
  case read =>
    let s1 := (s.hostCxlRead pa n).giveBack (fun e => lineOf e.1 == lineOf (s.fwd pa))
    obtain ⟨hmem, hdata, -⟩ := s1.holdLine_same pa
    have hspares : Spares s.Lost s s1 := (Spares.hostCxlRead s pa n).trans (.giveBack _ _)
    refine ⟨_, exec_hostCxlAccess_read hpow hn hline hpa habsent hfree, s1.hostHeld_holdLine pa, fun a ha => ?_, ?_⟩
    · exact (congrArg (Memory.read · a) hmem).trans (hspares.mem (fun _ hb => hb) a ha)
    · exact hdata.trans ((AtHomes.giveBack (s.hostCxlRead pa n) _).keep State.hostData fun _ _ => rfl)
  case write =>
    let h : HeldWrite := ⟨cellsAt pa bs, none, true, 0, []⟩
    obtain ⟨hmem, -, hread⟩ := (s.perform h).holdLine_same pa
    refine ⟨_, exec_hostCxlAccess_write hpow hn hline hpa habsent hfree hlen hfence hlock hpush hroom, (s.perform h).hostHeld_holdLine pa,
      fun a ha hlost => ?_, fun hinv hm hf => ?_⟩
    · have hspares : Spares (fun b => s.Lost b ∨ ∃ i, i < n ∧ b = s.fwd (pa + i)) s (s.perform h) := .perform s h fun c hc => by
        obtain ⟨k, hk, hck⟩ := mem_cellsAt hc
        exact .inr ⟨k, hlen ▸ hk, (if_neg (show ¬ (0 : Nat) = 3 by decide)).trans (congrArg s.fwd hck)⟩
      refine (congrArg (Memory.read · a) hmem).trans (hspares.mem (fun _ hb => .inl hb) a ?_)
      rintro (hl | ⟨i, hi, hai⟩)
      · exact hlost hl
      · exact ha i hi hai
    · subst hlen
      exact (hread pa bs.length).trans (State.physReadN_perform hinv.1 hm hline hf none [] true)
  case snoop =>
    refine ⟨exec_backInvalidateAnswer hx, exec_backInvalidateTimeout_early hx, fun hlate =>
      ⟨_, exec_backInvalidateTimeout_late hx hlate, fun _ => rfl, fun hmem => ?_, fun a ha => ?_⟩⟩
    · simpa [snoop_line hx] using (List.mem_filter.1 hmem).2
    · by_cases hold : a ∈ s.poisoned
      · exact List.mem_append_left _ hold
      · refine List.mem_append_right _ (List.mem_filter.2 ⟨mem_rangeFrom.2 ?_, by simpa using hold⟩)
        rw [snoop_line hx, ← ha]
        unfold lineOf
        omega

end Sys2Proof.Machine

/-! # The accumulators after a K-step (R205, R212 to R214, R217)

A list of accumulators is read and written by index. A K-step is one pass over the elements of its operation, each at an index of
its own: every element is written once, from what stood there before the step. -/

namespace Sys2Proof.Machine

open Sys2Proof

/-- A list of accumulators by rising index (R205). -/
def Rising (l : List (Nat × Word)) : Prop := l.Pairwise (fun a b => a.1 < b.1)

/-! ## One accumulator -/

/-- Below the first index listed, every accumulator is +0. -/
theorem atRead_below {l : List (Nat × Word)} {k : Nat} (h : ∀ c ∈ l, k < c.1) : atRead l k = 0 := by
  induction l with
  | nil => rfl
  | cons c l ih =>
    have hk : k < c.1 := h c List.mem_cons_self
    rw [atRead, if_neg (by omega)]
    exact ih fun d hd => h d (List.mem_cons_of_mem c hd)

/-- What a write lists, at its index or as before. -/
theorem mem_atWrite {l : List (Nat × Word)} {k : Nat} {v : Word} {d : Nat × Word} (h : d ∈ atWrite l k v) : d.1 = k ∨ d ∈ l := by
  have hput {l' : List (Nat × Word)} (h : d ∈ (k, v) :: l') : d.1 = k ∨ d ∈ l' := (List.mem_cons.1 h).imp_left (congrArg Prod.fst)
  induction l with
  | nil =>
    unfold atWrite at h
    split at h
    · exact .inr h
    · exact hput h
  | cons c l ih =>
    unfold atWrite at h
    split at h
    · split at h
      · exact .inr h
      · exact hput h
    · split at h
      · split at h
        · exact .inr (List.mem_cons_of_mem c h)
        · exact (hput h).imp_right (List.mem_cons_of_mem c)
      · obtain rfl | hd := List.mem_cons.1 h
        · exact .inr List.mem_cons_self
        · exact (ih hd).imp_right (List.mem_cons_of_mem c)

theorem Rising.atWrite {l : List (Nat × Word)} (h : Rising l) (k : Nat) (v : Word) : Rising (atWrite l k v) := by
  induction l with
  | nil =>
    unfold Machine.atWrite
    split
    · exact h
    · exact List.pairwise_singleton _ _
  | cons c l ih =>
    obtain ⟨hc, hl⟩ := List.pairwise_cons.1 h
    unfold Machine.atWrite
    split
    · next hlt =>
      split
      · exact h
      · refine List.pairwise_cons.2 ⟨fun d hd => ?_, h⟩
        obtain rfl | hd := List.mem_cons.1 hd
        · exact hlt
        · exact hlt.trans (hc d hd)
    · next hge =>
      split
      · next heq =>
        split
        · exact hl
        · exact List.pairwise_cons.2 ⟨fun d hd => heq ▸ hc d hd, hl⟩
      · next hne =>
        refine List.pairwise_cons.2 ⟨fun d hd => ?_, ih hl⟩
        obtain hk | hd := mem_atWrite hd
        · omega
        · exact hc d hd

theorem atRead_atWrite_self {l : List (Nat × Word)} (h : Rising l) (k : Nat) (v : Word) : atRead (atWrite l k v) k = v := by
  induction l with
  | nil =>
    unfold atWrite
    split
    · next hv => rw [hv]; rfl
    · exact if_pos rfl
  | cons c l ih =>
    obtain ⟨hc, hl⟩ := List.pairwise_cons.1 h
    unfold atWrite
    split
    · next hlt =>
      split
      · next hv =>
        rw [hv]
        refine atRead_below fun d hd => ?_
        obtain rfl | hd := List.mem_cons.1 hd
        · exact hlt
        · exact hlt.trans (hc d hd)
      · exact if_pos rfl
    · split
      · next heq =>
        split
        · next hv =>
          rw [hv]
          exact atRead_below fun d hd => heq ▸ hc d hd
        · exact if_pos rfl
      · next hne => exact (if_neg (Ne.symm hne)).trans (ih hl)

theorem atRead_atWrite_ne (l : List (Nat × Word)) {k n : Nat} (v : Word) (h : n ≠ k) : atRead (atWrite l k v) n = atRead l n := by
  have hkn : ¬ k = n := h.symm
  induction l with
  | nil =>
    unfold atWrite
    split
    · rfl
    · exact if_neg hkn
  | cons c l ih =>
    unfold atWrite
    split
    · split
      · rfl
      · exact if_neg hkn
    · split
      · next heq =>
        have hcn : ¬ c.1 = n := heq ▸ hkn
        split
        · exact (if_neg hcn).symm
        · exact (if_neg hkn).trans (if_neg hcn).symm
      · rw [atRead, atRead, ih]

/-! ## A pass over elements at indices of their own -/

/-- Accumulators written in turn, each from its own old value: element `a` at index `key a`. -/
def atPass {α : Type} (key : α → Nat) (f : α → Word → Word) (as : List α) (l : List (Nat × Word)) : List (Nat × Word) :=
  as.foldl (fun l a => atWrite l (key a) (f a (atRead l (key a)))) l

section
variable {α : Type} {key : α → Nat} {f : α → Word → Word} {as : List α}

theorem Rising.atPass {l : List (Nat × Word)} (h : Rising l) : Rising (atPass key f as l) := by
  induction as generalizing l with
  | nil => exact h
  | cons a as ih => exact ih (h.atWrite _ _)

theorem atRead_atPass_other {l : List (Nat × Word)} {n : Nat} (hn : ∀ a ∈ as, n ≠ key a) : atRead (atPass key f as l) n = atRead l n := by
  induction as generalizing l with
  | nil => rfl
  | cons a as ih =>
    exact (ih fun b hb => hn b (List.mem_cons_of_mem a hb)).trans (atRead_atWrite_ne l _ (hn a List.mem_cons_self))

/-- Where no two elements share an index, each takes its value from what stood there before the pass. -/
theorem atRead_atPass {l : List (Nat × Word)} (h : Rising l) (has : as.Pairwise (fun a b => key a ≠ key b)) {a : α} (ha : a ∈ as) :
    atRead (atPass key f as l) (key a) = f a (atRead l (key a)) := by
  induction as generalizing l with
  | nil => cases ha
  | cons b as ih =>
    obtain ⟨hb, has⟩ := List.pairwise_cons.1 has
    obtain rfl | ha := List.mem_cons.1 ha
    · exact (atRead_atPass_other hb).trans (atRead_atWrite_self h _ _)
    · exact (ih (h.atWrite _ _) has ha).trans (congrArg (f a) (atRead_atWrite_ne l _ (hb a ha).symm))

end

/-! ## A K-step -/

/-- The accumulator of element (i, j) of an operation (R212). -/
def MxTag.elemAt (x : MxTag) (r : ORec) (e : Nat × Nat) : Nat := x.acc0 * 1024 + e.1 * r.n + e.2

/-- The value of element (i, j) after K-step s, from its old one (R213, R214, R217). -/
def MxTag.elemStep (x : MxTag) (r : ORec) (s : Nat) (e : Nat × Nat) (old : Word) : Word :=
  w32 (stepElem x.afmt x.sat r (x.operand r s 0 e.1 (x.rows.getD e.1 [])) (x.operand r s 1 e.1 (x.scales.getD e.1 []))
    (x.operand r s 2 e.2 (r.column e.2)) (x.operand r s 2 (128 * (e.2 / 128)) (r.column (128 * (e.2 / 128)))) s
    (if x.accz && s == 0 then 0 else old.toNat))

/-- The elements of an operation, row by row. -/
def MxTag.elems (x : MxTag) (r : ORec) : List (Nat × Nat) := List.range x.mrows ×ˢ List.range r.n

theorem MxTag.mem_elems {x : MxTag} {r : ORec} {i j : Nat} : (i, j) ∈ x.elems r ↔ i < x.mrows ∧ j < r.n := by
  rw [MxTag.elems, List.mem_product, List.mem_range, List.mem_range]

/-- A K-step is a pass over the operation's elements. -/
theorem MxTag.commit_eq_atPass (x : MxTag) (r : ORec) (l : List (Nat × Word)) (s : Nat) :
    x.commit r l s = atPass (x.elemAt r) (x.elemStep r s) (x.elems r) l := by
  change _ = atPass _ _ ((List.range x.mrows).flatMap fun i => (List.range r.n).map (Prod.mk i)) l
  rw [atPass, List.foldl_flatMap]
  simp only [List.foldl_map]
  rfl

/-- No two elements of an operation share an accumulator (R212). -/
theorem MxTag.elemAt_pairwise_ne (x : MxTag) (r : ORec) : (x.elems r).Pairwise (fun a b => x.elemAt r a ≠ x.elemAt r b) := by
  refine (List.nodup_range.product List.nodup_range).imp_of_mem fun {a b} ha hb hab heq => hab ?_
  obtain ⟨i, j⟩ := a
  obtain ⟨i', j'⟩ := b
  have hj : j < r.n := (MxTag.mem_elems.1 ha).2
  have hj' : j' < r.n := (MxTag.mem_elems.1 hb).2
  have hsum : j + r.n * i = j' + r.n * i' := by
    simp only [MxTag.elemAt, Nat.mul_comm _ r.n] at heq
    omega
  have hcol : j = j' := by simpa [Nat.mod_eq_of_lt, hj, hj'] using congrArg (· % r.n) hsum
  have hrow : r.n * i = r.n * i' := by omega
  exact Prod.ext (Nat.eq_of_mul_eq_mul_left (Nat.zero_lt_of_lt hj) hrow) hcol

/-- Settles O34: a K-step is a pass over the operation's elements, no two of which share an accumulator. -/
theorem matrixCommit : Obligations.MatrixCommit := by
  unfold Obligations.MatrixCommit
  intro x r l s hl
  rw [x.commit_eq_atPass]
  refine ⟨Rising.atPass hl, fun i j hi hj => ?_, fun n hn => atRead_atPass_other fun e he => ?_⟩
  · exact atRead_atPass (key := x.elemAt r) hl (x.elemAt_pairwise_ne r) (MxTag.mem_elems.2 ⟨hi, hj⟩)
  · exact hn e.1 e.2 (MxTag.mem_elems.1 he).1 (MxTag.mem_elems.1 he).2

end Sys2Proof.Machine

/-! # Leases, `ORES`, and the words on a tag (R206, R208 to R210, R216, R220, R222 to R224, R226, R227) -/

namespace Sys2Proof.Machine

open Sys2Proof

/-- A word that is ready with registers to read is ready with none. -/
theorem State.EReady.nil {s : State} {t : Team} {g : Group} {rs : List Nat} (h : s.EReady t g rs) : s.EReady t g [] := by
  obtain ⟨hi, hmode, hwid, -, hheld, hdet⟩ := h
  exact ⟨hi, hmode, hwid, List.any_eq_false.2 fun _ _ => by simp, hheld, hdet⟩

/-! ## `MXLEASE` and `MXREL` -/

/-- A number of tiles that a team can lease of a core (R220). -/
def State.leasable (s : State) (t : Team) (core n : Nat) : Prop :=
  1 ≤ n ∧ n ≤ 32 ∧ n ≤ (s.core core).tiles ∧ t.lease? core = none

theorem State.leasable_iff {s : State} {t : Team} {core n : Nat} :
    s.leasable t core n ↔ ¬ (n = 0 ∨ 32 < n ∨ (s.core core).tiles < n ∨ (t.lease? core).isSome = true) := by
  simp only [State.leasable, not_or, not_lt, Option.not_isSome_iff_eq_none, Nat.one_le_iff_ne_zero, ne_eq]

section
variable {s : State} {t : Team} {g : Group} {e : EF} (h : s.EReady t g [e.p.toNat])
include h

theorem exec_mxlease_refused (hfit : ¬ s.leasable t g.core (g.sreg e.p.toNat).toNat) :
    exec (.mxlease e) s = .next (s.putStatus e.q stRejected 0) := by
  change execMxlease e s = _
  rw [execMxlease, h.asE_eq]
  dsimp only
  rw [if_pos (not_not.1 (mt State.leasable_iff.2 hfit))]
  rfl

/-- A number of tiles that can be leased is granted, or waited for. -/
theorem exec_mxlease_eq (hfit : s.leasable t g.core (g.sreg e.p.toNat).toNat) :
    exec (.mxlease e) s = s.finishWait [e.p.toNat] [e.q.toNat] e.q e.x none
      (if s.freeTiles g.core < (g.sreg e.p.toNat).toNat then .wait s 0
       else (s.modTeam t.id (fun t =>
         { t with leases := t.leases ++ [⟨g.core, (g.sreg e.p.toNat).toNat, [], [], [], none⟩] })).fin e.q stOk (g.sreg e.p.toNat).toNat) := by
  change execMxlease e s = _
  rw [execMxlease, h.asE_eq]
  dsimp only
  rw [if_neg (State.leasable_iff.1 hfit)]
  rfl

end

section
variable {s : State} {t : Team} {g : Group} {q : BitVec 6} {x : BitVec 5} (h : s.EReady t g [])
include h

theorem exec_mxrel_unheld (hl : t.lease? g.core = none) : exec (.mxrel q x) s = .next (s.putStatus q stRejected 0) := by
  change execMxrel q x s = _
  rw [execMxrel, h.asE_eq, hl]
  rfl

/-- A lease is given up, unless something of it is outstanding. -/
theorem exec_mxrel_eq {l : Lease} (hl : t.lease? g.core = some l) : exec (.mxrel q x) s =
    s.finishWait [] [q.toNat] q x none (if l.busy then .wait s 0 else (s.dropLease t.id g.core).fin q stOk 0) := by
  change execMxrel q x s = _
  rw [execMxrel, h.asE_eq, hl]

end

/-- A lease given up: its team has none of the core any more, and does not hold its arbiter (R227). -/
theorem State.dropLease_team {s : State} {id : TeamId} {t : Team} (ht : s.team? id = some t) (core : Nat) :
    ∃ t', (s.dropLease id core).team? id = some t' ∧ t'.lease? core = none := by
  have hself := State.team?_modTeam_self s id (f := fun t => { t with leases := t.leases.filter (fun l => l.core != core) }) fun _ => rfl
  rw [ht] at hself
  refine ⟨_, hself, List.find?_eq_none.2 fun l hl => ?_⟩
  simpa using (List.mem_filter.1 hl).2

theorem State.dropLease_holder (s : State) (id : TeamId) (core : Nat) : ((s.dropLease id core).core core).holder ≠ some id := by
  rw [State.dropLease, State.core_modCore_self]
  dsimp only
  split
  · exact nofun
  · assumption

theorem RegsKeep.dropLease (s : State) (id : TeamId) (core : Nat) : RegsKeep s (s.dropLease id core) := by
  have hteam : RegsKeep s (s.modTeam id (fun t => { t with leases := t.leases.filter (fun l => l.core != core) })) :=
    ⟨rfl, fun k => congrArg (Option.map Group.s) (State.grp?_modTeam s id k (fun _ => rfl) (fun _ => rfl))⟩
  exact hteam.trans (.modCore _ core _)

/-! ## `ORES` -/

section
variable {s : State} {t : Team} {g : Group} {p q : BitVec 6} {r : Fin 16} (h : s.EReady t g [p.toNat])
include h

theorem exec_ores_unleased (hl : t.lease? g.core = none) : exec (.ores p q r) s = .next (s.putStatus q stRejected 0) := by
  change execOres p q r s = _
  rw [execOres, h.asE_eq, hl]
  rfl

/-- `ORES` of a team with a lease: 0, or a descriptor by its checks in order, and its record. -/
theorem exec_ores_leased {l : Lease} (hl : t.lease? g.core = some l) {v n : Nat} (hv : (g.sreg p.toNat).toNat = v)
    (hn : (oresRec v r.val).granules (s.core g.core).halfWidth = n) :
    exec (.ores p q r) s = s.finishWait [p.toNat] [q.toNat] q 0 none
      (if v = 0 then
        if l.inUse r.val then s.fin q stBusy 0
        else (s.modLease t.id g.core (fun l => { l with recs := l.recs.filter (fun x => x.handle != r.val) })).fin q stOk 0
      else if (l.rec? r.val).isSome then s.fin q stRejected 0
      else if fld v 15 1 = 0 then s.fin q stRejected 0
      else if s.formatAbsent v then s.raise 9 0
      else if oresBad v then s.fin q stRejected 0
      else if 256 < n then s.fin q stRejected 0
      else if 16 ≤ s.usedRecs g.core ∨ 256 < s.usedGran g.core + n then s.fin q stBusy 0
      else (s.modLease t.id g.core (fun l => { l with recs := l.recs ++ [{ oresRec v r.val with gran := n }] })).fin q stOk n) := by
  subst hv hn
  change execOres p q r s = _
  rw [execOres, h.asE_eq, hl]

end

/-- Settles O31: `MXLEASE` and `MXREL` by whether they are refused, wait or go on, `ORES` by its checks in order. -/
theorem matrixWords : Obligations.MatrixWords := by
  unfold Obligations.MatrixWords
  refine ⟨fun s t g e q x h => ?leases, fun s t g p q r h => ?ores⟩
  case leases =>
    intro n fit
    refine ⟨exec_mxlease_refused h, fun hfit hfree => ?granted, fun hfit hfull => ?waits, exec_mxrel_unheld h.nil, fun l hl hbusy => ?outstanding,
      fun l hl hidle => ?released⟩
    case granted =>
      rw [exec_mxlease_eq h hfit, if_neg (by omega)]
      rfl
    case waits => rw [exec_mxlease_eq h hfit, if_pos hfull, State.finishWait_wait h.mode_eq]
    case outstanding => rw [exec_mxrel_eq h.nil hl, if_pos hbusy, State.finishWait_wait h.mode_eq]
    case released =>
      obtain ⟨t1, ht1, hnone⟩ := State.dropLease_team h.team_eq g.core
      obtain ⟨t', ht', hleases⟩ := State.team?_putStatus_leases ht1 q stOk 0
      refine ⟨(s.dropLease t.id g.core).putStatus q stOk 0, t', ?_, fun _ => rfl,
        .of_regsKeep h.grp_eq h.wid_eq (.dropLease s t.id g.core) q stOk 0, ht', ?_, s.dropLease_holder t.id g.core⟩
      · rw [exec_mxrel_eq h.nil hl, if_neg (ne_true_of_eq_false hidle)]
        rfl
      · rw [Team.lease?, hleases]
        exact hnone
  case ores =>
    intro v x n
    refine ⟨exec_ores_unleased h, fun l hl => ?_⟩
    rw [exec_ores_leased (v := v) (n := n) h hl rfl rfl]
    refine ⟨fun hzero => ?freed, fun hv hbad => ?refused, fun hv hfree hmark hfmt => ?absent, fun hv hfree hmark hfmt hbad => ?rejected,
      fun hv hfree hmark hfmt hgood hn hfull => ?busy, fun hv hfree hmark hfmt hgood hn hrecs hgran => ?reserved⟩
    case freed =>
      rw [if_pos hzero]
      split <;> rfl
    case refused =>
      rw [if_neg hv]
      split
      · rfl
      · next htaken =>
        rw [if_pos (hbad.resolve_left htaken)]
        rfl
    all_goals
      have hheld : ¬ (l.rec? r.val).isSome = true := by simp [hfree]
      rw [if_neg hv, if_neg hheld, if_neg (by omega)]
    case absent =>
      rw [if_pos hfmt, State.raise, State.finishWait, if_neg (by simp [h.mode_eq])]
    all_goals rw [if_neg (ne_true_of_eq_false hfmt)]
    case rejected =>
      split
      · rfl
      · next hgood =>
        rw [if_pos (hbad.resolve_left hgood)]
        rfl
    all_goals rw [if_neg (ne_true_of_eq_false hgood), if_neg (not_lt.2 hn)]
    case busy =>
      rw [if_pos hfull]
      rfl
    case reserved =>
      rw [if_neg (not_or.2 ⟨not_le.2 hrecs, not_lt.2 hgran⟩)]
      rfl

/-! ## `MXWAIT` and `MXSTAT` -/

section
variable {s : State} {t : Team} {g : Group} {q : BitVec 6} {l : Lease} {y : MxTag} (hl : t.lease? g.core = some l)
include hl

/-- A wait on a tag that the team has used goes by the tag's state, and reports its counter. -/
theorem exec_mxwait_eq (h : s.EReady t g []) {x : BitVec 5} {tag : Fin 4} (hy : l.tag? tag.val = some y) :
    exec (.mxwait q x tag) s = s.finishWait [] [q.toNat] q x none
      (if y.out then .wait s (y.counter % 2 ^ 16)
       else if y.st = 3 then .done ((s.putStatus q stOk (y.counter % 2 ^ 16)).acquire t g 2)
       else s.fin q stRejected (y.counter % 2 ^ 16)) := by
  change execMxwait q x tag s = _
  rw [execMxwait, h.asE_eq, hl, Option.bind_some, hy]

theorem exec_mxstat_tag {p : BitVec 6} {k : Fin 16} (h : s.EReady t g [p.toNat]) (hk : k.val < 4) (hy : l.tag? k.val = some y)
    (hv : g.sreg p.toNat = 0) : exec (.mxstat p q k) s = .next (s.putStatus q stOk (y.st + y.counter % 2 ^ 16 * 2 ^ 8)) := by
  have hzero : (g.sreg p.toNat).toNat = 0 := congrArg BitVec.toNat hv
  change execMxstat p q k s = _
  rw [execMxstat, h.asE_eq, hl]
  dsimp only
  rw [if_pos hzero, if_neg (by omega), Option.bind_some, hy]
  rfl

end

theorem MxTag.out_iff (y : MxTag) : y.out = true ↔ y.st = 1 ∨ y.st = 2 ∨ y.st = 4 := by
  simp [MxTag.out, or_assoc]

/-! ## `MXDRAIN` -/

/-- A tag with a drain queued on it, which runs once the operation is complete (R223). -/
def MxTag.queueDrain (y : MxTag) (d : Drain) : MxTag := { y with drain := some d, st := if y.st = 3 then 4 else y.st }

/-- The bytes that a drain of a tag writes, in the format that its descriptor names (R223). -/
def MxTag.drainLen (y : MxTag) (p : Nat) : Nat := y.mrows * y.ncols * (if fld p 32 1 == 1 then 2 else 4)

/-- A drain passes every check of `MXDRAIN`: its descriptor `p` is well formed and leads to `a`, its tag has an operation and no
drain, and nothing that it must wait for covers the target (R216, R223). -/
structure State.Drainable (s : State) (t : Team) (core p : Nat) (y : MxTag) (a : ScrAt) : Prop where
  operation : 0 < y.mrows * y.ncols
  high : p < 2 ^ 33
  reserved : fld p 23 9 = 0
  aligned : p % 64 = 0
  own : fld p 22 1 = 0
  going : y.st ≠ 5
  reach : s.scrAt t.id (fld p 0 23) (max 1 (y.drainLen p)) = .ok a
  inPart : t.inPart core a.off (a.off + y.drainLen p - 1) = true
  undrained : y.drain = none
  uncovered : s.spanBusy t.id (a.off, a.off + y.drainLen p - 1) false = false

/-- A drain that fits is queued on its tag with the entry made for it. -/
theorem exec_mxdrain_queues {s u : State} {t : Team} {g : Group} {e : EF} {tag : Fin 4} {l : Lease} {y : MxTag} {a : ScrAt} {p : Nat}
    {ids : List Nat} (h : s.EReady t g [e.p.toNat]) (hl : t.lease? g.core = some l) (hy : l.tag? tag.val = some y)
    (hp : (g.sreg e.p.toNat).toNat = p) (hd : s.Drainable t g.core p y a)
    (hadd : s.addEntries (.drain tag.val) [(g.core, t.id, a.off, a.off + y.drainLen p - 1)] = some (u, ids)) :
    exec (.mxdrain e tag) s = .next ((u.modLease t.id g.core (fun l => l.modTag tag.val
      (·.queueDrain ⟨fld p 32 1 == 1, a.off, ids.headD 0⟩))).putStatus e.q stOk 0) := by
  obtain ⟨hpos, hhigh, hres, halign, hown, hst, hat, hpart, hdrain, hspan⟩ := hd
  have hdiv : p / 2 ^ 33 = 0 := by omega
  have htarget : fld p 0 23 % 64 = 0 := by unfold fld; omega
  have hsib : fld (fld p 0 23) 22 1 = 0 := by unfold fld at *; omega
  unfold MxTag.drainLen at *
  subst hp
  change execMxdrain e tag s = _
  rw [execMxdrain, h.asE_eq, hl, Option.bind_some, hy]
  dsimp only [Option.map_some, Option.getD_some]
  rw [hat]
  dsimp only
  rw [if_neg (by simp only [hpos.ne', hdiv, hres, htarget, hsib, hpart, hst, ne_eq, not_true_eq_false, zero_ne_one, decide_false,
    Bool.not_true, Bool.or_self, Bool.false_eq_true, not_false_eq_true]), hdrain, if_neg (by simp), if_neg (ne_true_of_eq_false hspan), hadd]
  rfl

/-- Settles O33: a wait and a report by the tag's state, and a drain that fits by the entry made for it. -/
theorem matrixTags : Obligations.MatrixTags := by
  unfold Obligations.MatrixTags
  intro s t g e q x tag l y a h hl hy n
  refine ⟨fun hout => ?out, fun hst => ?complete, fun hst => ?rejected, fun k hk hv => ?stat, ?drain⟩
  case out => rw [exec_mxwait_eq hl h.nil hy, if_pos hout, State.finishWait_wait h.mode_eq]
  case complete =>
    have hout : ¬ y.out = true := by rw [y.out_iff]; omega
    rw [exec_mxwait_eq hl h.nil hy, if_neg hout, if_pos hst]
    rfl
  case rejected =>
    have hout : ¬ y.out = true := by rw [y.out_iff]; omega
    rw [exec_mxwait_eq hl h.nil hy, if_neg hout, if_neg (by omega)]
    rfl
  case stat => exact exec_mxstat_tag hl h (by omega) (hk ▸ hy) hv
  case drain =>
    intro p half len hpos hhigh hres halign hown hst hat hpart hdrain hspan hroom
    obtain ⟨u, ids, hadd, hteams, hmem, hiss, -⟩ := State.addEntries_room (.drain tag.val) g.core
      (es := [(g.core, t.id, a.off, a.off + len - 1)]) (by simp) (s := s) (by simpa using hroom)
    let d : Drain := ⟨half, a.off, ids.headD 0⟩
    obtain ⟨hsame, t', ht', hl'⟩ := lease_after (fun l => l.modTag tag.val (·.queueDrain d)) (.of_same hmem hteams)
      (TeamsKeep.modGrp _ _ _).seat (fun _ => rfl) h.team_eq hl
    exact ⟨_, t', _, y.queueDrain d, d, exec_mxdrain_queues h hl hy rfl
      ⟨hpos, hhigh, hres, halign, hown, hst, hat, hpart, hdrain, hspan⟩ hadd, hsame,
      .of_regsKeep h.grp_eq h.wid_eq (State.modLease_keeps hteams hiss t.id g.core _ t).2 e.q stOk 0, ht', hl',
      Lease.tag?_modTag (f := (·.queueDrain d)) (fun _ htag => htag) hy, rfl, rfl, rfl, rfl⟩

end Sys2Proof.Machine

/-! # The end of a team in trap mode (R299, R354)

A trap that a group in trap mode takes ends its team as after a double trap: with a report, the team is gone at once, or stays,
stopped, until its records' writes have been performed. -/

namespace Sys2Proof.Machine

open Sys2Proof

/-! ## What homes leave of the reports -/

theorem AtHomes.engineWrite (s : State) (wheel : Nat) (push : Bool) (ps : List Part) (bs : List Byte) :
    AtHomes s (s.engineWrite wheel push ps bs) := by
  induction ps generalizing s bs with
  | nil => exact refl s
  | cons p ps ih =>
    unfold State.engineWrite
    extract_lets s1
    refine AtHomes.trans (s' := s1) ?_ (ih _ _)
    unfold s1
    split
    · exact count s _ _ _
    · split <;> exact writeCells s _ _ _ _

theorem AtHomes.writeVA {s s1 : State} {core space va : Nat} {bs : List Byte} (h : s.writeVA core space va bs = .ok s1) :
    AtHomes s s1 := by
  unfold State.writeVA at h
  split at h
  · cases h
  · cases h
    exact engineWrite s _ _ _ _

theorem AtHomes.drainPushes (s : State) : AtHomes s s.drainPushes :=
  AtHomes.trans (s' := { s with pushq := [] }) (of_rest rfl rfl rfl) (foldl writeLine _ _)

theorem AtHomes.losses {s s' : State} (h : AtHomes s s') : s'.losses = s.losses := h.keep State.losses fun _ _ => rfl

theorem State.cancelChans_losses (s : State) (t : Team) : (s.cancelChans t).losses = s.losses := by
  refine foldl_related (R := fun s s' : State => s'.losses = s.losses) (fun _ => rfl) (fun h1 h2 => h2.trans h1) (fun s c => ?_) _ s
  cases hact : c.act with
  | none => rfl
  | some x =>
    have hfix : (s.fixShapes t c false).losses = s.losses := by simp only [State.fixShapes, hact]
    dsimp only
    split
    · next s1 hw => exact (AtHomes.writeVA hw).losses.trans hfix
    · exact hfix

/-! ## A lost team -/

/-- The state in which a team's end is reported, and its node's completion counter will not be written (R299, R354). -/
def State.lossReported (s : State) (id : TeamId) (c1 c2 : Nat) : State :=
  (s.report id c1 c2).modNode id.node (fun n => { n with l := { n.l with done := none } })

theorem State.lossReported_losses {s : State} (h : s.losses.length < 16) (id : TeamId) (c1 c2 : Nat) :
    (s.lossReported id c1 c2).losses = s.losses ++ [⟨id, c1, c2⟩] := by
  rw [State.lossReported, State.modNode_losses, State.report, if_pos (show s.losses.length < Config.lossReports from h)]

theorem State.lossReported_teams (s : State) (id : TeamId) (c1 c2 : Nat) : (s.lossReported id c1 c2).teams = s.teams := by
  change (s.report id c1 c2).teams = s.teams
  unfold State.report
  split <;> rfl

/-- A team that ends is reported; it stays where a record of its channels is still busy, and is gone otherwise (R299). -/
theorem State.teamLost_eq {s : State} {id : TeamId} {t : Team} (ht : s.team? id = some t) (hlost : t.lost = false) (c1 c2 : Nat) :
    s.teamLost id c1 c2 = if t.chans.any ((s.lossReported id c1 c2).chanBusy t) then (s.lossReported id c1 c2).leaveLost id
      else (((s.lossReported id c1 c2).cancelChans t).scrubTeam id).teamGone id := by
  rw [State.teamLost, ht]
  dsimp only
  rw [if_neg (ne_true_of_eq_false hlost)]
  rfl

theorem State.leaveLost_groups {s : State} {id : TeamId} {t t' : Team} (ht : s.team? id = some t)
    (h : (s.leaveLost id).team? id = some t') : t'.groups = t.groups.map Group.stopAll := by
  rw [State.leaveLost, State.team?_modTeam_self _ _ ?_, Option.map_eq_some_iff] at h
  · obtain ⟨y, hy, rfl⟩ := h
    obtain rfl : t = y := Option.some.inj (ht.symm.trans hy)
    rfl
  · exact fun _ => rfl

theorem State.scrubTeam_none (s : State) (id : TeamId) : (s.scrubTeam id).team? id = none :=
  (Notices.drainPushes _).team_none (by simp [State.team?])

theorem State.scrubTeam_losses (s : State) (id : TeamId) : (s.scrubTeam id).losses = s.losses := (AtHomes.drainPushes _).losses

section
variable {s : State} {id : TeamId} {t : Team} (ht : s.team? id = some t) (hlost : t.lost = false) (c1 c2 : Nat)
include ht hlost

theorem State.teamLost_losses (hroom : s.losses.length < 16) : (s.teamLost id c1 c2).losses = s.losses ++ [⟨id, c1, c2⟩] := by
  rw [State.teamLost_eq ht hlost, ← State.lossReported_losses hroom]
  split
  · rfl
  · exact (State.scrubTeam_losses _ id).trans (State.cancelChans_losses _ t)

/-- Without a record under way a team that ends is gone at once. -/
theorem State.teamLost_none (hidle : ∀ c ∈ t.chans, c.act = none) : (s.teamLost id c1 c2).team? id = none := by
  have hbusy : ¬ t.chans.any ((s.lossReported id c1 c2).chanBusy t) = true := by
    simp only [List.any_eq_true, not_exists, not_and]
    intro c hc
    simp [State.chanBusy, hidle c hc]
  rw [State.teamLost_eq ht hlost, if_neg hbusy]
  exact State.scrubTeam_none _ id

/-- A team that stays after its end has nothing left to run. -/
theorem State.teamLost_stopped {t' : Team} (h : (s.teamLost id c1 c2).team? id = some t') :
    t'.groups = t.groups.map Group.stopAll := by
  rw [State.teamLost_eq ht hlost] at h
  split at h
  · have hteam : (s.lossReported id c1 c2).team? id = some t := by rw [State.team?, State.lossReported_teams]; exact ht
    exact State.leaveLost_groups hteam h
  · have hnone := State.scrubTeam_none ((s.lossReported id c1 c2).cancelChans t) id
    cases hnone.symm.trans h

end

/-- A group that a trap finds in trap mode ends its team, with both causes (R299). -/
theorem State.takeTrap_inTrapMode {s : State} {id : GrpId} {t : Team} {g : Group} {l : Launch} {m : Mask}
    (ht : s.team? id.team = some t) (hg : s.grp? id = some g) (hl : s.launch? id.team = some l) (hm : g.trapMask = some m)
    (path : Mask) (x : Trap) (pc : VAddr) : s.takeTrap id path x pc = s.teamLost id.team g.trapCause x.cause := by
  simp only [State.takeTrap, ht, hg, hl, hm]

/-- Settles O18: the trap ends the team, and what stays of it is marked as lost and stopped. -/
theorem doubleTrap : Obligations.DoubleTrap := by
  unfold Obligations.DoubleTrap
  intro s id t g l m path x pc ht hg hl hm hlost hroom
  rw [State.takeTrap_inTrapMode ht hg hl hm]
  refine ⟨State.teamLost_losses ht hlost _ _ hroom, State.teamLost_none ht hlost _ _, fun t' ht' => ?_⟩
  refine ⟨State.teamLost_team ht', fun g' hg' => ?_⟩
  rw [State.teamLost_stopped ht hlost _ _ ht'] at hg'
  obtain ⟨g0, -, rfl⟩ := List.mem_map.1 hg'
  refine ⟨rfl, rfl, rfl, fun th hth => ?_⟩
  obtain ⟨th0, -, rfl⟩ := List.mem_map.1 hth
  rfl

end Sys2Proof.Machine

/-! # Transfer records: start, end and stop (R230 to R237, R239, R240, R245)

A channel changes where its record starts, ends or stops. What happens before that, the read of a record, its count and the write of its
control word, leaves the channels of every team as they are: the relation `ChansKeep` says so. -/

namespace Sys2Proof.Machine

open Sys2Proof

/-! ## What leaves the channels -/

/-- From one state to another the channels of every team are the same. -/
structure ChansKeep (s s' : State) : Prop where
  team : ∀ id, (s'.team? id).map Team.chans = (s.team? id).map Team.chans

namespace ChansKeep

theorem refl (s : State) : ChansKeep s s := ⟨fun _ => rfl⟩

theorem trans {s s' s'' : State} (h1 : ChansKeep s s') (h2 : ChansKeep s' s'') : ChansKeep s s'' :=
  ⟨fun id => (h2.team id).trans (h1.team id)⟩

theorem of_teamsKeep {s s' : State} (h : TeamsKeep Team.chans s s') : ChansKeep s s' := ⟨h.team⟩

theorem of_teams {s s' : State} (h : s'.teams = s.teams) : ChansKeep s s' := ⟨fun id => by rw [State.team?, State.team?, h]⟩

theorem of_notices {s s' : State} (h : Notices s s') : ChansKeep s s' := ⟨h.team_map Team.chans fun _ => rfl⟩

theorem modTeam (s : State) (id : TeamId) {f : Team → Team} (hid : ∀ t, (f t).id = t.id) (hf : ∀ t, (f t).chans = t.chans) :
    ChansKeep s (s.modTeam id f) := of_teamsKeep (.modTeam s id hid hf)

theorem freeEntries (s : State) (ids : List Nat) : ChansKeep s (s.freeEntries ids) :=
  of_teamsKeep (.of_map (s' := s.freeEntries ids) rfl rfl (fun _ => rfl) fun _ => rfl)

theorem fixShapes (s : State) (t : Team) (c : Chan) (unsaid : Bool) : ChansKeep s (s.fixShapes t c unsaid) := by
  unfold State.fixShapes
  split <;> exact of_teams rfl

/-! ## A record read -/

theorem poisonTrap (s : State) (by_ : Issuer) (addr : Nat) : ChansKeep s (s.poisonTrap by_ addr) := by
  unfold State.poisonTrap
  split
  · next t _ =>
    split
    · have hpend : ChansKeep s (s.pendTrap by_ 12 0 0xFF ((t.poisonAddr).getD addr) 0) := modTeam s _ (fun _ => rfl) fun _ => rfl
      exact hpend.trans (modTeam _ by_.team (fun _ => rfl) fun _ => rfl)
    · exact refl s
  · exact refl s

/-- An element is met as poison by a team. -/
theorem met (s : State) (by_ : Issuer) (addr : Nat) : ChansKeep s ((s.poisonSeen by_.team).poisonTrap by_ addr) :=
  (of_notices (.poisonSeen s by_.team)).trans (poisonTrap _ by_ addr)

theorem readVA {s s1 : State} {by_ : Issuer} {core space va n : Nat} {bs : List Byte}
    (h : s.readVA by_ core space va n = .ok (s1, bs)) : ChansKeep s s1 := by
  unfold State.readVA at h
  split at h
  · cases h
  · dsimp only at h
    split at h
    · cases h
      exact refl s
    · split at h
      · cases h
        exact (of_notices (.count s _ _ _)).trans (met _ by_ va)
      · cases h
        exact (of_notices (.countRead s _ _)).trans (met _ by_ va)

/-! ## A count -/

theorem shadowPut (t : Team) (push : Bool) (ps : List (Nat × Nat)) (s : State) (off : Nat) (bs : List Byte) :
    ChansKeep s (s.shadowPut t push off ps bs) := by
  induction ps generalizing s off bs with
  | nil => exact refl s
  | cons p ps ih =>
    unfold State.shadowPut
    refine ChansKeep.trans ?_ (ih _ _ _)
    split
    · split
      · exact of_notices (.count s _ _ _)
      · exact of_notices (.writeCells s _ _ _ _)
    · exact refl s

theorem winPut (s : State) (id : TeamId) (off : Nat) (bs : List Byte) (push : Bool) : ChansKeep s (s.winPut id off bs push) := by
  unfold State.winPut
  split
  · split
    · exact modTeam s id (fun _ => rfl) fun _ => rfl
    · exact shadowPut _ push _ s off bs
  · exact refl s

theorem barComplete (s : State) (a : ScrAt) (n : Nat) : ChansKeep s (s.barComplete a n) := by
  have hopen (b : Barrier) : ChansKeep s (s.opened a b) := of_teams rfl
  rw [State.barComplete, State.barUpdate_eq]
  exact (hopen _).trans (winPut _ a.team a.off _ false)

theorem homeWriteL (s : State) (attr pa : Nat) (bs : List Byte) : ChansKeep s (s.homeWriteL attr pa bs) :=
  of_notices (.writeCells s _ _ _ _)

theorem decrement (s : State) (pa a : Nat) : ChansKeep s (s.decrement pa a).1 := by
  unfold State.decrement
  extract_lets c n s1 w
  have h1 : ChansKeep s s1 := homeWriteL s 0 pa _
  split
  · exact refl s
  · split
    · exact (h1.trans (homeWriteL s1 0 (pa + 8) _)).trans (of_teams rfl)
    · exact h1

theorem engineDecr (s : State) (pa a : Nat) : ChansKeep s (s.engineDecr pa a) := by
  unfold State.engineDecr
  split
  · exact of_notices (.count s _ _ _)
  · extract_lets s1 r
    have h1 : ChansKeep s s1 := by
      unfold s1
      split
      · exact of_notices (.countRead s _ _)
      · exact refl s
    split
    · exact h1.trans (decrement s1 pa a)
    · exact h1.trans (of_notices (.count s1 _ _ _))

theorem recordCount (s : State) (t : TeamId) (x : Xfer) : ChansKeep s (s.recordCount t x) := by
  unfold State.recordCount
  split
  · split
    · exact barComplete s _ x.count
    · exact refl s
  · split
    · exact engineDecr s x.tpa 1
    · exact refl s

end ChansKeep

/-! ## A channel as it stands -/

/-- A channel that has stopped, with a reason (R237). -/
def Chan.stopped (c : Chan) (reason : Nat) : Chan :=
  { c with st := 2, act := none, cancel := false, waiting := false, reason := reason }

/-- A channel that has completed its record (R232, R241). -/
def Chan.completed (c : Chan) : Chan := { c with recs := c.recs + 1, act := none }

/-- A team stands, and a channel of it is as given. -/
def State.ChanAt (s : State) (id : TeamId) (ch : Nat) (c : Chan) : Prop :=
  ∃ t, s.team? id = some t ∧ ch < t.chans.length ∧ t.chan ch = c

namespace State.ChanAt

variable {s s' : State} {id : TeamId} {ch : Nat} {c : Chan}

theorem keep (h : s.ChanAt id ch c) (hk : ChansKeep s s') : s'.ChanAt id ch c := by
  obtain ⟨t, ht, hlen, hc⟩ := h
  have hid := hk.team id
  rw [ht, Option.map_some, Option.map_eq_some_iff] at hid
  obtain ⟨t', ht', hchans⟩ := hid
  exact ⟨t', ht', hchans ▸ hlen, (Team.chan_eq hchans ch).trans hc⟩

theorem modChan (h : s.ChanAt id ch c) (f : Chan → Chan) : (s.modChan id ch f).ChanAt id ch (f c) := by
  obtain ⟨t, ht, hlen, hc⟩ := h
  refine ⟨t.modChan ch f, State.team?_modChan ht ch f, ?_, ?_⟩
  · rwa [Team.modChan, modAt_length]
  · rw [Team.chan_modChan_self hlen, hc]

theorem chanIdle {t : Team} (h : s.ChanAt t.id ch c) :
    (s.chanIdle t ch).ChanAt t.id ch { c with st := 0, act := none, cancel := false, waiting := false } :=
  (h.modChan _).keep (.of_teams rfl)

theorem chanStop {t : Team} (h : s.ChanAt t.id ch c) (reason : Nat) (unsaid : Bool) :
    (s.chanStop t ch reason unsaid).ChanAt t.id ch (c.stopped reason) :=
  ((h.keep ((ChansKeep.fixShapes s t _ unsaid).trans (.freeEntries _ _))).modChan _).keep (.of_teams rfl)

/-- A channel stopped for a record that is malformed reports reason 4, whether or not the record can be written (R237). -/
theorem stopRecord {t : Team} (h : s.ChanAt t.id ch c) (ctl done : Nat) :
    (s.stopRecord t ch ctl done 4).ChanAt t.id ch (c.stopped 4) := by
  unfold State.stopRecord
  split
  · next s1 hw => exact (h.keep (.of_notices (.writeVA hw))).chanStop 4 false
  · exact h.chanStop 4 true

end State.ChanAt

theorem State.stopRecord_written {s s1 : State} {t : Team} {ch ctl done reason : Nat}
    (h : s.writeVA t.core t.space (va56 ((t.chan ch).recAddr + 56)) (leBytes 8 (stopCtl ctl done reason)) = .ok s1) :
    s.stopRecord t ch ctl done reason = s1.chanStop t ch reason := by
  rw [State.stopRecord, h]

theorem State.fixShapes_mem (s : State) (t : Team) (c : Chan) (unsaid : Bool) : (s.fixShapes t c unsaid).mem = s.mem := by
  unfold State.fixShapes
  split <;> rfl

theorem State.chanStop_mem (s : State) (t : Team) (ch reason : Nat) (unsaid : Bool) : (s.chanStop t ch reason unsaid).mem = s.mem :=
  State.fixShapes_mem s t _ unsaid

theorem State.readVA_mem {s s1 : State} {by_ : Issuer} {core space va n : Nat} {bs : List Byte}
    (h : s.readVA by_ core space va n = .ok (s1, bs)) : s1.mem = s.mem :=
  (Poisons.readVA h).frame.mem

/-! ## The start of a record -/

theorem State.shapesOf_fixed {s : State} {t : Team} {addr : Nat} {bs : List Byte} {f : FixedRec}
    (h : s.fixedFor t.space addr bs = some f) (by_ : Issuer) : s.shapesOf by_ t addr bs = (.ok s f.sshape, .ok s f.dshape) := by
  rw [State.shapesOf, h]

theorem State.shapesOf_contiguous {s : State} {t : Team} {addr : Nat} {bs : List Byte} (h : s.fixedFor t.space addr bs = none)
    (hsrc : field bs 24 8 = 0) (hdst : field bs 32 8 = 0) (by_ : Issuer) :
    s.shapesOf by_ t addr bs = (.ok s none, .ok s none) := by
  have hread : s.readShape by_ t 0 = .ok s none := if_pos rfl
  simp only [State.shapesOf, h, hsrc, hdst, hread]

theorem shapesBad_contiguous (count done : Nat) : shapesBad count done none none = false := by
  simp [shapesBad, Nat.mod_one]

/-- A contiguous record between memory addresses without a completion, under way at `DONE` bytes (R230, R232). -/
def Xfer.contiguous (bs : List Byte) : Xfer :=
  { next := field bs 0 8, src := field bs 8 8, dst := field bs 16 8, sshape := none, dshape := none, sva := 0, dva := 0,
    count := field bs 40 4, esize := 1, moved := fld (field bs 56 8) 32 32, sscr := false, dscr := false, ctype := 0,
    target := field bs 48 8, tpa := 0, entries := [] }

/-- A record without a side in a window makes no range scoreboard entry, and one without a completion translates no target. -/
theorem State.startRecord_contiguous (s : State) (t : Team) (ch : Nat) {bs : List Byte} (hctl : field bs 56 8 % 32 = 1)
    (hsrc : field bs 24 8 = 0) (hdst : field bs 32 8 = 0) :
    s.startRecord t ch bs none none =
      State.modChan { s with fixed := s.fixed.filter (fun z => z.space != t.space || z.addr != (t.chan ch).recAddr) } t.id ch
        (fun c => { c with act := some (.contiguous bs) }) := by
  have hctype : fld (field bs 56 8) 1 2 = 0 := by unfold fld; omega
  have hsscr : (fld (field bs 56 8) 3 1 == 1) = false := by unfold fld; simp; omega
  have hdscr : (fld (field bs 56 8) 4 1 == 1) = false := by unfold fld; simp; omega
  simp only [State.startRecord, hctype, hsscr, hdscr, hsrc, hdst, pow_zero, Nat.div_one]
  rfl

/-- A channel runs without a record under way, and its next record can be read (R232). -/
structure State.RecordDue (s : State) (t : TeamId) (tm : Team) (ch : Nat) : Prop where
  team : s.team? t = some tm
  loc : tm.loc = .resident
  running : (tm.chan ch).st = 1
  unread : (tm.chan ch).act = none
  uncancelled : (tm.chan ch).cancel = false
  served : s.vaHeld tm.core tm.space (va56 (tm.chan ch).recAddr) 64 .read = false

/-- A record is the streamer's, and its control word and the shapes it names are served. -/
structure State.RecordServed (s : State) (tm : Team) (ch : Nat) (bs : List Byte) : Prop where
  owned : field bs 56 8 % 2 = 1
  ctl : s.ctlHeld tm (tm.chan ch).recAddr = false
  src : s.shapeHeld tm (field bs 24 8) = false
  dst : s.shapeHeld tm (field bs 32 8) = false

section
variable {s : State} {t : TeamId} {tm : Team} {ch : Nat} (h : s.RecordDue t tm ch)
include h

theorem exec_recordStart_unreadable {f : PFault}
    (hread : s.readVA ((tm.chan ch).issuer tm) tm.core tm.space (va56 (tm.chan ch).recAddr) 64 = .error f) :
    exec (.transferRecordStart t ch) s = .next (s.chanStop tm ch 4) := by
  change execTransferRecordStart t ch s = _
  simp [execTransferRecordStart, h.team, h.loc, h.running, h.unread, h.uncancelled, h.served, hread]

variable {s1 : State} {bs : List Byte}
  (hread : s.readVA ((tm.chan ch).issuer tm) tm.core tm.space (va56 (tm.chan ch).recAddr) 64 = .ok (s1, bs))
include hread

theorem exec_recordStart_unowned (hown : field bs 56 8 % 2 = 0) :
    exec (.transferRecordStart t ch) s = .next (s1.chanIdle tm ch) := by
  change execTransferRecordStart t ch s = _
  simp [execTransferRecordStart, h.team, h.loc, h.running, h.unread, h.uncancelled, h.served, hread, hown]

variable (hrec : s.RecordServed tm ch bs)
include hrec

theorem exec_recordStart_malformed (hbad : recBad bs (((s1.launch? t).map (·.gang)).getD false) = true) :
    exec (.transferRecordStart t ch) s =
      .next (s1.stopRecord tm ch (field bs 56 8) (fld (field bs 56 8) 32 32) 4) := by
  change execTransferRecordStart t ch s = _
  simp [execTransferRecordStart, h.team, h.loc, h.running, h.unread, h.uncancelled, h.served, hread, hrec.owned, hrec.ctl, hrec.src,
    hrec.dst, hbad]

/-- A record of a sound format starts by its shapes, or stops where it breaks them (R234). -/
theorem exec_recordStart_shaped (hbad : recBad bs (((s1.launch? t).map (·.gang)).getD false) = false) {a b : Option Shape}
    (hshapes : s1.shapesOf ((tm.chan ch).issuer tm) tm (tm.chan ch).recAddr bs = (.ok s1 a, .ok s1 b)) :
    exec (.transferRecordStart t ch) s =
      .next (if shapesBad (field bs 40 4) (fld (field bs 56 8) 32 32) a b then
        s1.stopRecord tm ch (field bs 56 8) (fld (field bs 56 8) 32 32) 4 else s1.startRecord tm ch bs a b) := by
  change execTransferRecordStart t ch s = _
  simp [execTransferRecordStart, h.team, h.loc, h.running, h.unread, h.uncancelled, h.served, hread, hrec.owned, hrec.ctl, hrec.src,
    hrec.dst, hbad, hshapes, apply_ite Host.Outcome.next]

end

/-! ## The end of a record and its stop -/

section
variable {s : State} {t : TeamId} {tm : Team} {ch : Nat} {x : Xfer} (ht : s.team? t = some tm) (hx : (tm.chan ch).act = some x)
include ht hx

/-- A record whose end has nothing to wait for is counted and its control word written; then its channel goes to the next record, or
becomes idle (R232, R236). -/
theorem exec_recordComplete {s2 : State} (hmoved : x.total ≤ x.moved) (hcancel : (tm.chan ch).cancel = false)
    (hcount : s.countHeld t x = false) (hbusy : s.chanBusy tm (tm.chan ch) = false)
    (hwrite : ((s.freeEntries x.entries).recordCount t x).writeVA tm.core tm.space (va56 ((tm.chan ch).recAddr + 56))
      (leBytes 8 x.doneCtl) = .ok s2) :
    exec (.transferRecordComplete t ch) s =
      .next (if x.next = 0 then (s2.modChan t ch Chan.completed).chanIdle tm ch
        else (s2.modChan t ch Chan.completed).modChan t ch (fun c => { c with recAddr := va56 x.next })) := by
  change execTransferRecordComplete t ch s = _
  simp only [execTransferRecordComplete, ht, hx, hcancel, hcount, hbusy, hwrite]
  rw [if_neg (by simpa using hmoved)]
  split <;> rfl

theorem exec_recordComplete_waits (h : s.countHeld t x = true ∨ s.chanBusy tm (tm.chan ch) = true) :
    exec (.transferRecordComplete t ch) s = .next s := by
  change execTransferRecordComplete t ch s = _
  simp only [execTransferRecordComplete, ht, hx]
  exact if_pos (by simpa [or_assoc] using .inr h)

theorem exec_recordStop_waits (h : s.chanBusy tm (tm.chan ch) = true) : exec (.transferRecordStop t ch) s = .next s := by
  change execTransferRecordStop t ch s = _
  simp only [execTransferRecordStop, ht, hx]
  exact if_pos h

theorem exec_recordStop_cancelled (hcancel : (tm.chan ch).cancel = true) (hbusy : s.chanBusy tm (tm.chan ch) = false) :
    exec (.transferRecordStop t ch) s = .next (s.stopRecord tm ch (x.doneCtl + 1) (x.moved * x.esize) 1) := by
  change execTransferRecordStop t ch s = _
  simp only [execTransferRecordStop, ht, hx]
  rw [if_neg (ne_true_of_eq_false hbusy), if_pos hcancel]

end

/-- Settles O21: each branch of the start by what has been read, each end by its write; the channel is followed through what leaves it
(`ChansKeep`) to the one update that its outcome names. -/
theorem records : Obligations.Records := by
  unfold Obligations.Records
  refine ⟨fun s t tm ch ht hloc hch => ?start, fun s t tm ch x ht hch hx => ?finish⟩
  case start =>
    intro c by_ hst hact hcancel hheld stops
    obtain rfl : tm.id = t := State.team?_id ht
    have hdue : s.RecordDue tm.id tm ch := ⟨ht, hloc, hst, hact, hcancel, hheld⟩
    have hat : s.ChanAt tm.id ch c := ⟨tm, ht, hch, rfl⟩
    have hstops {u : State} (hexec : exec (.transferRecordStart tm.id ch) s = .next u) (hc : u.ChanAt tm.id ch (c.stopped 4)) : stops := by
      obtain ⟨t', ht', -, hc⟩ := hc
      exact ⟨u, t', hexec, ht', congrArg Chan.st hc, congrArg Chan.reason hc⟩
    refine ⟨fun f hread => ?unreadable, fun s1 bs hread => ?read⟩
    case unreadable =>
      have hexec := exec_recordStart_unreadable hdue hread
      refine ⟨hstops hexec (hat.chanStop 4 false), fun s' hs' a => ?_⟩
      cases hexec.symm.trans hs'
      rw [State.chanStop_mem]
    case read =>
      have hat1 : s1.ChanAt tm.id ch c := hat.keep (.readVA hread)
      have hmem1 : s1.mem = s.mem := State.readVA_mem hread
      refine ⟨fun hown => ?unowned, fun hown hctl hsrc hdst => ?owned⟩
      case unowned =>
        obtain ⟨t', ht', -, hc⟩ := hat1.chanIdle
        exact ⟨_, t', exec_recordStart_unowned hdue hread hown, fun a => congrArg (·.read a) hmem1, ht', congrArg Chan.st hc⟩
      case owned =>
        have hrec : s.RecordServed tm ch bs := ⟨hown, hctl, hsrc, hdst⟩
        intro bad
        refine ⟨fun hbad => ?malformed, fun f hbad hfix hshapes => ?misshapen, fun hbad hfix hword hsva hdva => ?starts⟩
        case malformed =>
          exact hstops (exec_recordStart_malformed hdue hread hrec hbad) (hat1.stopRecord _ _)
        case misshapen =>
          have hexec := exec_recordStart_shaped hdue hread hrec hbad (State.shapesOf_fixed hfix _)
          rw [if_pos hshapes] at hexec
          exact hstops hexec (hat1.stopRecord _ _)
        case starts =>
          have hexec := exec_recordStart_shaped hdue hread hrec hbad (State.shapesOf_contiguous hfix hsva hdva _)
          rw [shapesBad_contiguous, if_neg Bool.false_ne_true, State.startRecord_contiguous s1 tm ch hword hsva hdva] at hexec
          obtain ⟨t', ht', -, hc⟩ := (hat1.keep (s' := { s1 with fixed := _ }) (.of_teams rfl)).modChan
            (fun c => { c with act := some (.contiguous bs) })
          exact ⟨_, t', hexec, fun a => congrArg (·.read a) hmem1, ht', (congrArg Chan.st hc).trans hst, congrArg Chan.act hc⟩
  case finish =>
    intro va
    obtain rfl : tm.id = t := State.team?_id ht
    have hat : s.ChanAt tm.id ch (tm.chan ch) := ⟨tm, ht, hch, rfl⟩
    refine ⟨fun s2 hmoved hcancel hcount hbusy hwrite => ?complete, fun hcancel hbusy s2 hwrite => ?stop,
      fun hbusy => ⟨exec_recordComplete_waits ht hx (.inr hbusy), exec_recordStop_waits ht hx hbusy⟩,
      fun hcount => exec_recordComplete_waits ht hx (.inl hcount)⟩
    case complete =>
      have hexec := exec_recordComplete ht hx hmoved hcancel hcount hbusy hwrite
      have hkeep : ChansKeep s s2 :=
        ((ChansKeep.freeEntries s x.entries).trans (.recordCount _ tm.id x)).trans (.of_notices (.writeVA hwrite))
      have hdone := (hat.keep hkeep).modChan Chan.completed
      by_cases hnext : x.next = 0
      · rw [if_pos hnext] at hexec
        obtain ⟨t', ht', -, hc⟩ := hdone.chanIdle
        exact ⟨_, t', hexec, rfl, ht', congrArg Chan.recs hc, congrArg Chan.act hc, by rw [if_pos hnext, hc]⟩
      · rw [if_neg hnext] at hexec
        obtain ⟨t', ht', -, hc⟩ := hdone.modChan (fun c => { c with recAddr := va56 x.next })
        exact ⟨_, t', hexec, rfl, ht', congrArg Chan.recs hc, congrArg Chan.act hc,
          by rw [if_neg hnext, hc]; exact ⟨rfl, rfl⟩⟩
    case stop =>
      have hexec := exec_recordStop_cancelled ht hx hcancel hbusy
      rw [State.stopRecord_written hwrite] at hexec
      obtain ⟨t', ht', -, hc⟩ := (hat.keep (.of_notices (.writeVA hwrite))).chanStop 1 false
      exact ⟨_, t', hexec, State.chanStop_mem .., ht', congrArg Chan.st hc, congrArg Chan.reason hc, congrArg Chan.act hc⟩

end Sys2Proof.Machine

/-! # The canonical form of memory and of windows (notes/assumptions/1.md)

Memory and the windows are changed by `Memory.write`, `Memory.writeN` and, where a page is copied, by a filter, and each of these
keeps the canonical form. So does every operation made of them: one lemma `State.Inv.f` for each operation `State.f`, in the order
of the model, up to `step`. -/

namespace Sys2Proof.Machine

open Sys2Proof

-- The many short proofs below, elaborated at the same time, would each hold a thread.
set_option Elab.async false

/-- Every window in canonical form. -/
def WinsOk (ts : List Team) : Prop := ∀ t ∈ ts, Memory.wf t.win = true

theorem WinsOk.map {ts : List Team} (h : WinsOk ts) {f : Team → Team}
    (hf : ∀ t, Memory.wf t.win = true → Memory.wf (f t).win = true) : WinsOk (ts.map f) := by
  intro t ht
  obtain ⟨u, hu, rfl⟩ := List.mem_map.mp ht
  exact hf u (h u hu)

theorem WinsOk.filter {ts : List Team} (h : WinsOk ts) (p : Team → Bool) : WinsOk (ts.filter p) :=
  fun t ht => h t (List.mem_of_mem_filter ht)

theorem WinsOk.cons {ts : List Team} (h : WinsOk ts) {t : Team} (ht : Memory.wf t.win = true) : WinsOk (t :: ts) :=
  List.forall_mem_cons.mpr ⟨ht, h⟩

theorem WinsOk.append {ts us : List Team} (h : WinsOk ts) (hu : WinsOk us) : WinsOk (ts ++ us) :=
  fun t ht => (List.mem_append.mp ht).elim (h t) (hu t)

namespace State.Inv

section
variable {s : State}

theorem win (h : s.Inv) {id : TeamId} {t : Team} (ht : s.team? id = some t) : Memory.wf t.win = true :=
  h.2 t (List.mem_of_find?_eq_some ht)

theorem foldl {α : Type} {f : State → α → State} (step : ∀ s x, s.Inv → (f s x).Inv) (l : List α) {s : State} (h : s.Inv) :
    (l.foldl f s).Inv := by
  induction l generalizing s with
  | nil => exact h
  | cons x l ih => exact ih (step s x h)

/-- Neither memory nor a team changes. -/
theorem same (h : s.Inv) {s' : State} (hm : s'.mem = s.mem := by exact rfl) (ht : s'.teams = s.teams := by exact rfl) : s'.Inv := by
  unfold State.Inv
  rw [hm, ht]
  exact h

/-- A team is updated: its window stays in canonical form. -/
theorem modTeam_win (h : s.Inv) {id : TeamId} {f : Team → Team}
    (hf : ∀ t, Memory.wf t.win = true → Memory.wf (f t).win = true) : (s.modTeam id f).Inv :=
  ⟨h.1, WinsOk.map h.2 (fun t ht => by split; exacts [hf t ht, ht])⟩

theorem modTeam (h : s.Inv) {id : TeamId} {f : Team → Team} (hf : ∀ t, (f t).win = t.win := by exact fun _ => rfl) :
    (s.modTeam id f).Inv :=
  h.modTeam_win (fun t ht => (hf t).symm ▸ ht)

theorem modGrp (h : s.Inv) {k : GrpId} {f : Group → Group} : (s.modGrp k f).Inv := h.modTeam

theorem modGroups (h : s.Inv) {f : Group → Group} : (s.modGroups f).Inv := ⟨h.1, WinsOk.map h.2 (fun _ ht => ht)⟩

theorem modNode (h : s.Inv) {n : Nat} {f : Node → Node} : (s.modNode n f).Inv := h

theorem setCore (h : s.Inv) {c : Core} : (s.setCore c).Inv := h

theorem modCore (h : s.Inv) {n : Nat} {f : Core → Core} : (s.modCore n f).Inv := h

theorem served (h : s.Inv) {core half cls : Nat} : (s.served core half cls).Inv := by
  unfold State.served
  split
  · exact h.modCore
  · exact h

theorem modVat (h : s.Inv) {n : Nat} {f : Vat → Vat} : (s.modVat n f).Inv := h

theorem modWheel (h : s.Inv) {n : Nat} {f : Wheel → Wheel} : (s.modWheel n f).Inv := h

theorem count (h : s.Inv) {w reg n : Nat} : (s.count w reg n).Inv := h

theorem tick (h : s.Inv) : s.tick.Inv := h

/-! ## Poison -/

theorem pendAt (h : s.Inv) {by_ : Issuer} {c d l a f n : Nat} {w : Word} : (s.pendAt by_ c d l a f n w).Inv := h.modGrp

theorem pendTrap (h : s.Inv) {by_ : Issuer} {c d l a f : Nat} : (s.pendTrap by_ c d l a f).Inv := h.pendAt

theorem poisonTrap (h : s.Inv) {by_ : Issuer} {a : Nat} : (s.poisonTrap by_ a).Inv := by
  unfold State.poisonTrap
  split
  · split
    · exact h.pendTrap.modTeam
    · exact h
  · exact h

theorem poisonSeen (h : s.Inv) {id : TeamId} : (s.poisonSeen id).Inv := h.modTeam

theorem countRead (h : s.Inv) {w : Nat} {sram : Bool} : (s.countRead w sram).Inv := h

theorem countBad (h : s.Inv) {pa : Nat} : (s.countBad pa).Inv := h

theorem meetAt (h : s.Inv) {by_ : Issuer} {a : Nat} {spot : Nat × Bool} : (s.meetAt by_ a spot).Inv :=
  h.countRead.poisonSeen.poisonTrap

theorem meetPoison (h : s.Inv) {by_ : Issuer} {a pa : Nat} : (s.meetPoison by_ a pa).Inv := h.meetAt

theorem meetPoisonPage (h : s.Inv) {by_ : Issuer} {core a : Nat} : (s.meetPoisonPage by_ core a).Inv :=
  h.count.poisonSeen.poisonTrap

/-! ## Homes -/

theorem pushesAt (h : s.Inv) {after pas : List Nat} : (s.pushesAt after pas).Inv := by
  refine foldl (fun s x h => ?_) _ h
  split
  · extract_lets fl bad s1
    have h1 : s1.Inv := h
    split
    · exact h1.countBad.poisonSeen
    · exact h1
  · exact h

theorem wrote (h : s.Inv) {after pas : List Nat} : (s.wrote after pas).Inv := by
  unfold State.wrote
  extract_lets behind s1 ids
  have h1 : s1.Inv := h.pushesAt
  split <;> exact h1

theorem saw (h : s.Inv) {g : GrpId} {pas : List Nat} : (s.saw g pas).Inv := by
  unfold State.saw
  extract_lets ids
  split
  · exact h
  · exact h.modGrp

theorem sawSlot (h : s.Inv) {g : GrpId} {id : TeamId} {off n : Nat} : (s.sawSlot g id off n).Inv := by
  unfold State.sawSlot
  extract_lets ids
  split
  · exact h
  · exact h.modGrp

theorem noticed (h : s.Inv) {pas : List Nat} : (s.noticed pas).Inv := by
  unfold State.noticed
  split
  · exact h.modGroups
  · exact h

theorem giveBack (h : s.Inv) {p : Nat × Byte × Nat → Bool} : (s.giveBack p).Inv := by
  unfold State.giveBack
  extract_lets out lost isLost s1
  have h1 : s1.Inv := ⟨Memory.foldl_write_wf _ _ _ h.1, h.2⟩
  exact foldl (fun _ _ h => h.count) _ h1

theorem recallLine (h : s.Inv) {pa : Nat} : (s.recallLine pa).Inv := h.giveBack.same

theorem putRegions (h : s.Inv) {pa : Nat} {rs : List Region} : (s.putRegions pa rs).Inv := h

theorem regionLoad (h : s.Inv) {core pa : Nat} : (s.regionLoad core pa).Inv := h

theorem regionDrop (h : s.Inv) {r : Region} {core : Option Nat} : (s.regionDrop r core).Inv := h.giveBack.same

theorem regionStore (h : s.Inv) {core pa : Nat} {stays : Bool} : (s.regionStore core pa stays).Inv := by
  unfold State.regionStore
  extract_lets r line now conflict half rs s1 after
  refine putRegions ?_
  unfold s1
  split
  · exact h.regionDrop
  · exact h

theorem recallAll (h : s.Inv) {pa : Nat} : (s.recallAll pa).Inv := by
  unfold State.recallAll
  refine recallLine ?_
  split
  · exact h.regionDrop.putRegions
  · exact h

theorem unverify (h : s.Inv) {pa : Nat} : (s.unverify pa).Inv := by
  unfold State.unverify
  split <;> exact h

theorem write_mem (h : s.Inv) {pa : Nat} {v : Byte} : State.Inv { s with mem := s.mem.write pa v } :=
  ⟨Memory.write_wf pa v h.1, h.2⟩

theorem homePut (h : s.Inv) {pa : Nat} {v : Byte} : (s.homePut pa v).Inv := by
  unfold State.homePut
  split
  · exact h
  · extract_lets s1 s2
    have h2 : s2.Inv := h.unverify
    split
    · exact h2
    · exact h2.write_mem

theorem putCells (h : s.Inv) {attr : Nat} {cells : List (Nat × Byte)} : (s.putCells attr cells).Inv := by
  induction cells generalizing s with
  | nil => exact h
  | cons c cs ih => exact ih h.homePut

theorem holdWrite (h : s.Inv) {w : HeldWrite} {pa : Nat} : (s.holdWrite w pa).Inv := h

theorem sendSnoop (h : s.Inv) {line : Nat} : (s.sendSnoop line).Inv := by
  unfold State.sendSnoop
  split <;> exact h

theorem snoopWrite (h : s.Inv) {w : HeldWrite} {line : Nat} : (s.snoopWrite w line).Inv := h.sendSnoop

theorem perform (h : s.Inv) {w : HeldWrite} : (s.perform w).Inv := by
  unfold State.perform
  extract_lets s0 s1
  have h0 : s0.Inv := by
    unfold s0
    split
    · cases w.cells with
      | nil => exact h
      | cons c cs => exact h.recallAll
    · exact h
  have h1 : s1.Inv := h0.putCells.noticed
  split
  · exact h1.wrote
  · exact h1

theorem writeLine (h : s.Inv) {w : HeldWrite} : (s.writeLine w).Inv := by
  unfold State.writeLine
  split
  · exact h
  · extract_lets p
    split_ifs
    · exact h.count
    · exact h.holdWrite
    · exact h.snoopWrite
    · exact h
    · exact h.perform

theorem writeCells (h : s.Inv) {core : Option Nat} {attr : Nat} {push : Bool} {cells : List (Nat × Byte)} :
    (s.writeCells core attr push cells).Inv :=
  foldl (fun _ _ h => h.writeLine) _ h

theorem drainPushes (h : s.Inv) : s.drainPushes.Inv := foldl (fun _ _ h => h.writeLine) _ h

theorem homeWrite (h : s.Inv) {attr pa : Nat} {v : Byte} : (s.homeWrite attr pa v).Inv := h.writeCells

theorem homeWriteL (h : s.Inv) {attr pa : Nat} {bs : List Byte} : (s.homeWriteL attr pa bs).Inv := h.writeCells

theorem homeWriteN (h : s.Inv) {attr pa : Nat} {bs : List Byte} : (s.homeWriteN attr pa bs).Inv := h.writeCells

theorem stackPut (h : s.Inv) {core : Option Nat} {pa : Nat} {bs : List Byte} : (s.stackPut core pa bs).Inv := h.writeCells

/-! ## First-level caches -/

theorem selfOut (h : s.Inv) {core line : Nat} {ids : List Nat} : (s.selfOut core line ids).Inv := by
  induction ids generalizing s with
  | nil => exact h
  | cons id ids ih =>
    unfold State.selfOut
    extract_lets mine cells s1
    split
    · exact h
    · exact ih (writeLine (s := s1) h)

theorem writeBack (h : s.Inv) {core line : Nat} : (s.writeBack core line).Inv := by
  unfold State.writeBack
  extract_lets s0 lost s1
  have h0 : s0.Inv := h.giveBack
  refine selfOut ?_
  unfold s1
  split <;> exact h0

theorem dropLine (h : s.Inv) {core line : Nat} : (s.dropLine core line).Inv := h.writeBack.modCore

theorem touchLine (h : s.Inv) {core pa : Nat} {hint : Bool} : (s.touchLine core pa hint).Inv := by
  unfold State.touchLine
  extract_lets line c inSet place
  split
  · exact h.modCore
  · split
    · exact h.modCore
    · split
      · exact h.dropLine.modCore
      · exact h

theorem dirStore (h : s.Inv) {core pa : Nat} {v : Byte} : (s.dirStore core pa v).Inv := by
  unfold State.dirStore
  split
  · exact h.giveBack.homePut
  · extract_lets s1 s2 s3
    have h2 : s2.Inv := h.unverify.giveBack
    have h3 : s3.Inv := by
      unfold s3
      split <;> exact h2
    exact h3.write_mem

theorem selfStore (h : s.Inv) {core pa : Nat} {v : Byte} {push : Bool} {id : Nat} : (s.selfStore core pa v push id).Inv := h

theorem selfFill (h : s.Inv) {core pa : Nat} : (s.selfFill core pa).Inv := h

theorem loadPart (h : s.Inv) {core attr pa n : Nat} {hint : Bool} : (s.loadPart core attr pa n hint).1.Inv := by
  unfold State.loadPart
  split_ifs
  · exact foldl (fun _ _ h => h.regionLoad.touchLine) _ h
  · extract_lets s1
    refine foldl (fun s a h => ?_) _ h
    extract_lets s1
    have h1 : s1.Inv := h.touchLine
    split
    · exact h1
    · exact h1.selfFill
  · exact h

theorem storeLine (h : s.Inv) {core attr : Nat} {hint push : Bool} {cells : List (Nat × Byte)} :
    (s.storeLine core attr hint push cells).Inv := by
  unfold State.storeLine
  split
  · exact h
  · extract_lets p pas s1
    split
    · exact foldl (fun _ _ h => h.selfStore) _ h.tick.touchLine
    · split
      · have h1 : s1.Inv := (foldl (fun _ _ h => h.dirStore) _ h.regionStore.touchLine).noticed
        split
        · exact h1.wrote
        · exact h1
      · exact h.writeLine

theorem storePart (h : s.Inv) {core attr pa : Nat} {bs : List Byte} {hint push : Bool} :
    (s.storePart core attr pa bs hint push).Inv :=
  foldl (fun _ _ h => h.storeLine) _ h

theorem cleanCore (h : s.Inv) {core : Nat} : (s.cleanCore core).Inv := foldl (fun _ _ h => h.writeBack) _ h

theorem relSelf (h : s.Inv) {core : Nat} : (s.relSelf core).Inv := foldl (fun _ _ h => h.writeBack) _ h

theorem acqSelf (h : s.Inv) {core : Nat} : (s.acqSelf core).Inv := h.modCore

theorem countWalk (h : s.Inv) {core space va : Nat} : (s.countWalk core space va).Inv := by
  unfold State.countWalk
  split
  · exact h.countRead
  · exact h

/-! ## Elements -/

theorem loadParts (h : s.Inv) {core : Nat} {hint : Bool} {ps : List Part} : (s.loadParts core hint ps).1.Inv := by
  induction ps generalizing s with
  | nil => exact h
  | cons p ps ih =>
    unfold State.loadParts
    split
    · exact ih h
    · refine ih ?_
      split
      · exact h
      · exact h.loadPart

theorem meetSlot (h : s.Inv) {by_ : Issuer} {core port va : Nat} : (s.meetSlot by_ core port va).Inv :=
  h.modCore.poisonSeen.poisonTrap

theorem crossUp (h : s.Inv) {by_ : Issuer} {core va : Nat} {bs : List Byte} : (s.crossUp by_ core va bs).1.Inv := by
  unfold State.crossUp
  split
  · exact h
  · exact h.meetSlot

theorem loadElem (h : s.Inv) {by_ : Issuer} {core va : Nat} {ps : List Part} {hint up : Bool} :
    (s.loadElem by_ core va ps hint up).1.Inv := by
  unfold State.loadElem
  extract_lets r zero
  have hr : r.1.Inv := h.saw.loadParts
  split_ifs
  · exact hr.crossUp
  · exact hr
  · exact hr.meetPoisonPage
  · exact hr.meetAt

theorem storeElem (h : s.Inv) {core : Nat} {hint push : Bool} {ps : List Part} {bs : List Byte} :
    (s.storeElem core hint push ps bs).Inv := by
  induction ps generalizing s bs with
  | nil => exact h
  | cons p ps ih =>
    refine ih ?_
    split_ifs
    · exact h.count
    · exact h.stackPut
    · exact h.storePart

theorem engineWrite (h : s.Inv) {wheel : Nat} {push : Bool} {ps : List Part} {bs : List Byte} :
    (s.engineWrite wheel push ps bs).Inv := by
  induction ps generalizing s bs with
  | nil => exact h
  | cons p ps ih =>
    refine ih ?_
    split_ifs
    · exact h.count
    · exact h.stackPut
    · exact h.writeCells

theorem readVA (h : s.Inv) {by_ : Issuer} {core space va n : Nat} {s1 : State} {bs : List Byte}
    (hr : s.readVA by_ core space va n = .ok (s1, bs)) : s1.Inv := by
  unfold State.readVA at hr
  split at hr
  · cases hr
  · extract_lets r zero at hr
    split_ifs at hr <;> obtain ⟨rfl, -⟩ := Prod.mk.inj (Except.ok.inj hr)
    · exact h
    · exact h.meetPoisonPage
    · exact h.meetAt

theorem meetUnit (h : s.Inv) {by_ : Issuer} {core va : Nat} {ps : List Part} {k : Nat} : (s.meetUnit by_ core va ps k).Inv := by
  unfold State.meetUnit
  split
  · exact h
  · split
    · exact h.meetPoisonPage
    · exact h.meetPoison

theorem readParts (h : s.Inv) {by_ : Issuer} {core va : Nat} {us : List Unit_} {ps : List Part} :
    (s.readParts by_ core va us ps).1.Inv := by
  unfold State.readParts
  extract_lets bs bad r
  split
  · exact foldl (fun _ _ h => h.meetUnit) _ h
  · exact h

theorem readPages {by_ : Issuer} {core space src total : Nat} {us : List Unit_} {k : Nat} {bs : List Byte} (h : s.Inv) :
    (State.readPages by_ core space src total us k s bs).1.Inv := by
  induction k generalizing s bs with
  | zero => exact h
  | succ k ih =>
    unfold State.readPages
    split
    · exact h
    · extract_lets va n
      split
      · exact h
      · split
        · exact h
        · exact ih h.readParts

theorem writeVA (h : s.Inv) {core space va : Nat} {bs : List Byte} {s1 : State} (hw : s.writeVA core space va bs = .ok s1) :
    s1.Inv := by
  unfold State.writeVA at hw
  split at hw <;> cases hw
  exact h.engineWrite

theorem putStatus (h : s.Inv) {q : BitVec 6} {code hi : Nat} : (s.putStatus q code hi).Inv := h.modGrp

theorem putPair (h : s.Inv) {q : BitVec 6} {code hi : Nat} {v : Reg} : (s.putPair q code hi v).Inv := h.modGrp

end

end State.Inv

/-- What a meaning leaves is in canonical form. -/
def Res.Inv : Res → Prop
  | .done s => s.Inv
  | .wait s _ => s.Inv
  | .trap _ => True
  | .stall _ => True

/-- What an instruction leaves is in canonical form. -/
def OutInv : Host.Outcome State Fault Refusal → Prop
  | .next s => s.Inv
  | .fault _ => True
  | .refused _ => True

theorem OutInv.next {o : Host.Outcome State Fault Refusal} (h : OutInv o) {s : State} (ho : o = .next s) : s.Inv := by
  subst ho
  exact h

namespace State.Inv

section
variable {s : State}

theorem fin (h : s.Inv) {q : BitVec 6} {code hi : Nat} : (s.fin q code hi).Inv := h.putStatus

/-! ## Windows -/

theorem winMeet (h : s.Inv) {by_ : Issuer} {id : TeamId} {off va : Nat} : (s.winMeet by_ id off va).Inv := by
  unfold State.winMeet
  extract_lets s1
  have h1 : s1.Inv := by
    unfold s1
    split
    · split
      · exact h.count.count
      · split
        · split
          · exact h.count
          · exact h.countBad
        · exact h
    · exact h
  exact h1.poisonSeen.poisonTrap

theorem winElem (h : s.Inv) {by_ : Issuer} {id : TeamId} {off n va : Nat} : (s.winElem by_ id off n va).1.Inv := by
  unfold State.winElem
  split
  · exact h.winMeet
  · exact h

theorem winElems (h : s.Inv) {by_ : Issuer} {id : TeamId} {n : Nat} {offs : List Nat} : (s.winElems by_ id n offs).1.Inv := by
  induction offs generalizing s with
  | nil => exact h
  | cons off offs ih => exact ih h.winElem

theorem winBlock (h : s.Inv) {by_ : Issuer} {a : TeamId} {off n : Nat} : (s.winBlock by_ a off n).1.Inv := by
  unfold State.winBlock
  split
  · exact h.winElems
  · exact h

theorem shadowPut (h : s.Inv) {t : Team} {push : Bool} {off : Nat} {ps : List (Nat × Nat)} {bs : List Byte} :
    (s.shadowPut t push off ps bs).Inv := by
  induction ps generalizing s off bs with
  | nil => exact h
  | cons p ps ih =>
    refine ih ?_
    split
    · split
      · exact h.count
      · exact h.writeCells
    · exact h

theorem winPut (h : s.Inv) {id : TeamId} {off : Nat} {bs : List Byte} {push : Bool} : (s.winPut id off bs push).Inv := by
  unfold State.winPut
  split
  · split
    · exact h.modTeam_win (fun t ht => Memory.writeN_wf off bs ht)
    · exact h.shadowPut
  · exact h

theorem switched (h : s.Inv) {id : TeamId} : (s.switched id).Inv := by
  unfold State.switched
  split
  · exact h.modGroups.modGroups
  · exact h

theorem examineWords (h : s.Inv) {id : TeamId} {off n : Nat} : (s.examineWords id off n).Inv := h.modGroups

theorem lookSlot (h : s.Inv) {id : TeamId} {off n : Nat} {gid : GrpId} {w : WaitRec} : (s.lookSlot id off n gid w).Inv := by
  unfold State.lookSlot
  split
  · split
    · exact h
    · split
      · exact h
      · refine (examineWords ?_).sawSlot.modGrp
        split
        · exact h
        · exact h.winPut
  · exact h

theorem examine (h : s.Inv) {id : TeamId} {off n : Nat} : (s.examine id off n).Inv := by
  unfold State.examine
  split
  · exact foldl (fun _ _ h => h.lookSlot) _ h.examineWords
  · exact h

theorem winWrite (h : s.Inv) {id : TeamId} {off : Nat} {bs : List Byte} : (s.winWrite id off bs).Inv := h.winPut.examine

theorem winStore (h : s.Inv) {id : TeamId} {off : Nat} {bs : List Byte} : (s.winStore id off bs).Inv := h.winPut.examine

theorem winWrite32 (h : s.Inv) {id : TeamId} {off : Nat} {v : Word} : (s.winWrite32 id off v).Inv := h.winWrite

/-! ## Waits, entries and lost teams -/

theorem block (h : s.Inv) {rs qs : List Nat} {x : BitVec 5} {w : Option Watch} {hi : Nat} : (s.block rs qs x w hi).Inv := by
  unfold State.block
  extract_lets i id
  refine modGrp ?_
  split <;> exact h

theorem keepBlock (h : s.Inv) {bs : List Byte} : (s.keepBlock bs).Inv := h.modGrp

theorem waitWith (h : s.Inv) {bs : List Byte} : (s.waitWith bs).Inv := h.keepBlock

theorem takeMclk (h : s.Inv) {w : Nat} : (s.takeMclk w).Inv := by
  unfold State.takeMclk
  split
  · exact h.modWheel
  · exact h

theorem crossing (h : s.Inv) {ps : List Part} : (s.crossing ps).Inv := by
  refine foldl (fun s p h => ?_) _ h
  split
  · exact h.takeMclk
  · exact h

theorem freeEntries (h : s.Inv) {ids : List Nat} : (s.freeEntries ids).Inv := ⟨h.1, WinsOk.map h.2 (fun _ ht => ht)⟩

theorem fixShapes (h : s.Inv) {t : Team} {c : Chan} {unsaid : Bool} : (s.fixShapes t c unsaid).Inv := by
  unfold State.fixShapes
  split <;> exact h

theorem cancelChans (h : s.Inv) {t : Team} : (s.cancelChans t).Inv := by
  refine foldl (fun s c h => ?_) _ h
  split
  · exact h
  · extract_lets s1
    have h1 : s1.Inv := h.fixShapes.freeEntries
    split
    · exact h1.writeVA ‹_›
    · exact h1

theorem report (h : s.Inv) {id : TeamId} {c1 c2 : Nat} : (s.report id c1 c2).Inv := by
  unfold State.report
  split <;> exact h

theorem scrubTeam (h : s.Inv) {id : TeamId} : (s.scrubTeam id).Inv := drainPushes ⟨h.1, WinsOk.filter h.2 _⟩

theorem teamGone (h : s.Inv) {id : TeamId} : (s.teamGone id).Inv := h.modNode

theorem leaveLost (h : s.Inv) {id : TeamId} : (s.leaveLost id).Inv := by
  unfold State.leaveLost
  extract_lets s1
  exact modTeam (s := s1) h.same

theorem teamLost (h : s.Inv) {id : TeamId} {c1 c2 : Nat} : (s.teamLost id c1 c2).Inv := by
  unfold State.teamLost
  split
  · exact h
  · split
    · exact h
    · extract_lets s1
      have h1 : s1.Inv := h.report.modNode
      split
      · exact h1.leaveLost
      · exact h1.cancelChans.scrubTeam.teamGone

/-! ## Traps -/

theorem countTrap (h : s.Inv) {core space : Nat} {x : Trap} : (s.countTrap core space x).Inv := by
  unfold State.countTrap
  split
  · exact h.countWalk
  · exact h

theorem takeTrap (h : s.Inv) {gid : GrpId} {path : Mask} {x : Trap} {pc : VAddr} : (s.takeTrap gid path x pc).Inv := by
  unfold State.takeTrap
  split
  · split
    · exact h.teamLost
    · extract_lets s1
      have h1 : s1.Inv := h.countTrap
      split
      · exact h1.teamLost
      · extract_lets bs
        split
        · exact h1.teamLost
        · exact h1.crossing.storeElem.modTeam.modGrp
  · exact h

theorem trapNow (h : s.Inv) {x : Trap} : (s.trapNow x).Inv := by
  unfold State.trapNow
  extract_lets u
  have hu : u.Inv := h.takeTrap
  exact hu.same

theorem frameRead (h : s.Inv) {core n : Nat} {ps : List Part} : (s.frameRead core n ps).1.Inv := by
  unfold State.frameRead
  extract_lets r
  have hr : r.1.Inv := h.crossing.loadParts
  split_ifs
  · exact hr
  · exact hr.count
  · exact hr.countRead

theorem leaveTrap (h : s.Inv) {gid : GrpId} {resume : Bool} : (s.leaveTrap gid resume).Inv := by
  unfold State.leaveTrap
  split
  · split
    · exact h
    · extract_lets n
      split
      · exact h.teamLost
      · exact h.frameRead.modGrp
  · exact h

/-! ## How a meaning ends -/

theorem stalled (h : s.Inv) (k : Stall) : State.Inv { s with iss := { s.iss with stalled := some k } } := h

theorem finish (h : s.Inv) {r : Res} (hr : r.Inv) : OutInv (s.finish r) := by
  cases r with
  | done u => exact hr
  | trap x => exact h.trapNow
  | stall k => exact h.stalled k
  | wait u hi => exact block hr

theorem asWord (h : s.Inv) {f : Team → Group → Res} (hf : ∀ t g, (f t g).Inv) : OutInv (s.asWord f) := by
  unfold State.asWord
  split
  · exact h.finish (hf _ _)
  · exact h

theorem trimHolds (h : s.Inv) : s.trimHolds.Inv := by
  unfold State.trimHolds
  split
  · exact h
  · exact h.modGroups

theorem queueSerial (h : s.Inv) {rs qs : List Nat} {es : List KeptElem} : (s.queueSerial rs qs es).Inv := by
  unfold State.queueSerial
  extract_lets i
  split
  · exact h.modGrp
  · exact h.tick.modGrp

theorem expired (h : s.Inv) {q : BitVec 6} : OutInv (s.expired q) := h.putStatus

theorem finishWait (h : s.Inv) {rs qs : List Nat} {q : BitVec 6} {x : BitVec 5} {w : Option Watch} {r : Res} (hr : r.Inv) :
    OutInv (s.finishWait rs qs q x w r) := by
  unfold State.finishWait
  cases r with
  | done u => exact hr
  | trap y =>
    dsimp only
    split
    · exact h.expired
    · exact h.trapNow
  | stall k =>
    dsimp only
    split
    · exact h.expired
    · exact h.stalled k
  | wait u hi =>
    have hu : u.Inv := hr
    dsimp only
    split
    · split
      · exact hu.putStatus
      · exact hu.block
    · exact hu.block
    · exact hu
    · exact hu.putStatus

theorem asEWith (h : s.Inv) {serial : Bool} {rs qs : List Nat} {q : BitVec 6} {x : BitVec 5} {w : Option Watch}
    {f : Team → Group → Res} (hf : ∀ t g, (f t g).Inv) : OutInv (s.asEWith serial rs qs q x w f) := by
  unfold State.asEWith
  split
  · extract_lets g
    split
    · exact h.stalled _
    · split
      · exact h.stalled _
      · split
        · split
          · exact h.trapNow
          · exact h.stalled _
          · exact h.queueSerial
        · exact h.finishWait (hf _ _)
  · exact h

theorem asE (h : s.Inv) {serial : Bool} {rs : List Nat} {q : BitVec 6} {x : BitVec 5} {w : Option Watch}
    {f : Team → Group → Res} (hf : ∀ t g, (f t g).Inv) : OutInv (s.asE serial rs q x w f) := h.asEWith hf

theorem asEPair (h : s.Inv) {serial : Bool} {rs : List Nat} {q : BitVec 6} {x : BitVec 5} {w : Option Watch}
    {f : Team → Group → Res} (hf : ∀ t g, (f t g).Inv) : OutInv (s.asEPair serial rs q x w f) := h.asEWith hf

theorem orders (h : s.Inv) {t : Team} {g : Group} {sc : Nat} : (s.orders t g sc).Inv := by
  unfold State.orders
  split
  · exact h
  · exact h.modGrp

theorem acqScope (h : s.Inv) {core sc : Nat} {paired : Bool} : (s.acqScope core sc paired).Inv := by
  unfold State.acqScope
  split
  · exact h.acqSelf
  · exact h

theorem relScope (h : s.Inv) {core sc : Nat} {paired : Bool} : (s.relScope core sc paired).Inv := by
  unfold State.relScope
  split
  · exact h.relSelf
  · exact h

theorem acquire (h : s.Inv) {t : Team} {g : Group} {sc : Nat} : (s.acquire t g sc).Inv := h.acqScope.orders.modGrp

theorem releasing (h : s.Inv) {t : Team} {g : Group} {sc : Nat} {f : State → Res} (hf : ∀ u : State, u.Inv → (f u).Inv) :
    (s.releasing t g sc f).Inv := by
  unfold State.releasing
  split
  · trivial
  · extract_lets s1
    split
    · trivial
    · exact hf _ h.relScope

theorem asM (h : s.Inv) {regs src sregs pops : List Nat} {push : Option Nat} {f : Team → Group → List Nat → Res}
    (hf : ∀ t g bs, (f t g bs).Inv) : OutInv (s.asM regs src sregs pops push f) := by
  refine h.asWord (fun t g => ?_)
  extract_lets beats
  split
  · trivial
  · split
    · trivial
    · split
      · trivial
      · split
        · trivial
        · split
          · trivial
          · split
            · trivial
            · exact hf _ _ _

/-! ## Barriers -/

theorem barUpdate (h : s.Inv) {a : ScrAt} {f : Barrier → Barrier} : (s.barUpdate a f).Inv := winPut h.same

theorem barExamine (h : s.Inv) {a : ScrAt} : (s.barExamine a).Inv := by
  unfold State.barExamine
  split
  · exact h
  · exact h.barUpdate

theorem barClose (h : s.Inv) : s.barClose.Inv := foldl (fun _ _ h => h.examine) _ h.same

theorem barComplete (h : s.Inv) {a : ScrAt} {n : Nat} : (s.barComplete a n).Inv := h.barUpdate

theorem barAt {t : Team} {v : Reg} {n : Nat} {f : ScrAt → Res} (hf : ∀ a, (f a).Inv) : (s.barAt t v n f).Inv := by
  unfold State.barAt
  extract_lets addr
  split
  · trivial
  · split
    · trivial
    · split
      · trivial
      · split
        · trivial
        · exact hf _

theorem barWord (h : s.Inv) {p q : BitVec 6} {x : BitVec 5} {w : Option Watch} {n : Nat}
    {f : Team → Group → ScrAt → Nat → Res} (hf : ∀ t g a v, (f t g a v).Inv) : OutInv (s.barWord p q x w n f) :=
  h.asE (fun t g => barAt (fun a => hf t g a _))

theorem execBarinit (h : s.Inv) {p q : BitVec 6} : OutInv (execBarinit p q s) := by
  refine h.barWord (fun _ _ a v => ?_)
  extract_lets ph
  split
  · trivial
  · split
    · exact h.barUpdate.putStatus
    · exact h.barExamine.fin

theorem execBararrive (h : s.Inv) {p q : BitVec 6} : OutInv (execBararrive p q s) := by
  refine h.barWord (fun _ _ a v => h.releasing (fun u h => ?_))
  extract_lets n b
  split
  · exact h.barUpdate.putStatus
  · exact h.barExamine.fin

theorem execBarexpect (h : s.Inv) {p q : BitVec 6} : OutInv (execBarexpect p q s) :=
  h.barWord (fun _ _ _ _ => h.barUpdate.putStatus)

theorem execBartest (h : s.Inv) {p q : BitVec 6} : OutInv (execBartest p q s) := by
  refine h.barWord (fun _ _ a v => ?_)
  extract_lets ph
  split
  · exact h.putStatus.acquire
  · exact h.fin

theorem waitWord (h : s.Inv) {t : Team} {g : Group} {q : BitVec 6} {now v sc : Nat} : (s.waitWord t g q now v sc).Inv := by
  unfold State.waitWord
  split
  · exact h.putStatus.acquire
  · exact h

theorem waitAgain (h : s.Inv) {t : Team} {g : Group} {q : BitVec 6} {sc : Nat} : (s.waitAgain t g q sc).Inv := by
  unfold State.waitAgain
  split
  · split
    · exact h.putStatus.acquire
    · exact h
  · exact h

theorem waitOn (h : s.Inv) {e : EF} {n : Nat} : OutInv (s.waitOn e n) := by
  refine h.asE (fun t g => ?_)
  extract_lets v sc
  split
  · exact h.waitAgain
  · exact barAt (fun a => h.waitWord)

theorem execBarwait (h : s.Inv) {e : EF} : OutInv (execBarwait e s) := h.waitOn

theorem execMwait (h : s.Inv) {e : EF} : OutInv (execMwait e s) := h.waitOn

/-! ## Fetching and the delivery of traps -/

theorem fetch (h : s.Inv) {core space : Nat} {a : VAddr} {s1 : State} {p : Packet} (hf : s.fetch core space a = .ok (s1, p)) :
    s1.Inv := by
  unfold State.fetch at hf
  split at hf
  · cases hf
  · extract_lets sys line at hf
    split at hf
    · obtain ⟨rfl, -⟩ := Prod.mk.inj (Except.ok.inj hf)
      exact h.count
    · split at hf
      · obtain ⟨rfl, -⟩ := Prod.mk.inj (Except.ok.inj hf)
        exact h
      · next hf =>
        obtain ⟨rfl, -⟩ := Prod.mk.inj (Except.ok.inj hf)
        refine modCore ?_
        change State.Inv (if _ then _ else _)
        split
        · exact h.countRead
        · exact h

theorem enterTrap (h : s.Inv) {gid : GrpId} {y x : Trap} {path : Mask} {pc : VAddr} : (s.enterTrap gid y x path pc).Inv :=
  h.modGrp.takeTrap

theorem deliverTrap (h : s.Inv) {gid : GrpId} {x : Trap} : (s.deliverTrap gid x).Inv := by
  unfold State.deliverTrap
  split
  · exact h
  · extract_lets det outside wait s1
    clear_value wait
    have h1 : s1.Inv := by
      unfold s1
      split
      · exact h.modGrp
      · exact h
    split
    · exact h1
    · extract_lets able at_ pc?
      clear_value pc?
      split
      · exact h1
      · exact h1.enterTrap

theorem deliver (h : s.Inv) {gid : GrpId} : (s.deliver gid).Inv := by
  unfold State.deliver
  split
  · split
    · exact h
    · split
      · exact h
      · exact h.deliverTrap
  · exact h

theorem deliverParked (h : s.Inv) {gid : GrpId} {m : Mask} {pc : VAddr} : (s.deliverParked gid m pc).Inv := by
  unfold State.deliverParked
  split
  · split
    · exact h
    · split
      · exact h
      · exact h.enterTrap
  · exact h

/-! ## The scalar unit and branches -/

theorem uWord (h : s.Inv) {rs : List Nat} {f : Team → Group → Res} (hf : ∀ t g, (f t g).Inv) : OutInv (s.uWord rs f) := by
  refine h.asWord (fun t g => ?_)
  split
  · trivial
  · exact hf t g

theorem uSet (h : s.Inv) {rs : List Nat} {d : BitVec 6} {f : Group → Reg} : OutInv (s.uSet rs d f) :=
  h.uWord (fun _ _ => h.modGrp)

theorem execFromv (h : s.Inv) {d a : BitVec 6} {v : VSrc} : OutInv (execFromv d a v s) := by
  refine h.uWord (fun _ g => ?_)
  extract_lets th eff
  have he : eff.Inv := h.modGrp
  split
  · split
    · trivial
    · split
      · trivial
      · exact he
  · exact he

theorem execElect (h : s.Inv) {d : BitVec 6} {p : Fin 8} : OutInv (execElect d p s) := h.uWord (fun _ _ => h.modGrp)

theorem uniform (h : s.Inv) {rs : List Nat} {taken : Group → Bool} {pc : Group → VAddr} : OutInv (s.uniform rs taken pc) := by
  refine h.uWord (fun _ g => ?_)
  change State.Inv (if taken g then _ else _)
  split
  · exact h.modGrp
  · exact h

theorem execCall (h : s.Inv) {p : Fin 8} {off : BitVec 18} : OutInv (execCall p off s) := by
  refine h.uWord (fun _ g => ?_)
  change State.Inv (if s.loPred g p then _ else _)
  split
  · exact h.modGrp
  · exact h

theorem execBd (h : s.Inv) {p : Fin 8} {off : BitVec 18} : OutInv (execBd p off s) := by
  refine h.uWord (fun _ g => ?_)
  split
  · trivial
  · exact h.modGrp

theorem execBp (h : s.Inv) {p : Fin 8} {off : BitVec 18} : OutInv (execBp p off s) := h.uWord (fun _ _ => h.modGrp)

theorem execJoin (h : s.Inv) : OutInv (execJoin s) := h.uWord (fun _ _ => h.modGrp)

theorem execYield (h : s.Inv) : OutInv (execYield s) := h.uWord (fun _ _ => h.modGrp)

theorem execExit (h : s.Inv) : OutInv (execExit s) := h.uWord (fun _ _ => h.modGrp)

theorem execPathDue (h : s.Inv) {g : GrpId} {pc : VAddr} : OutInv (execPathDue g pc s) := by
  unfold Sys2Proof.Machine.execPathDue
  split
  · extract_lets nofair
    split
    · exact h
    · exact h.modGrp
  · exact h

/-! ## Dependence counters -/

theorem nodeReady (h : s.Inv) {id : Nat} : (s.nodeReady id).Inv := h.modNode

theorem decrement (h : s.Inv) {pa a : Nat} : (s.decrement pa a).1.Inv := by
  unfold State.decrement
  extract_lets c n s1 w
  have h1 : s1.Inv := h.homeWriteL
  split_ifs
  · exact h
  · exact h1.homeWriteL.nodeReady
  · exact h1

theorem engineDecr (h : s.Inv) {pa a : Nat} : (s.engineDecr pa a).Inv := by
  unfold State.engineDecr
  split
  · exact h.count
  · extract_lets s1 r
    have h1 : s1.Inv := by
      unfold s1
      split
      · exact h.countBad
      · exact h
    split
    · exact h1.decrement
    · exact h1.count

theorem execCounterDecrement (h : s.Inv) {pa n : Nat} : OutInv (execCounterDecrement pa n s) := by
  change State.Inv (if _ then _ else _)
  split
  · exact h
  · exact h.engineDecr

/-! ## The streamer -/

theorem modChan (h : s.Inv) {id : TeamId} {ch : Nat} {f : Chan → Chan} : (s.modChan id ch f).Inv := h.modTeam

theorem ringDrop (h : s.Inv) {t : Team} {ch : Nat} : (s.ringDrop t ch).Inv := h.modVat

theorem ringAdd (h : s.Inv) {t : Team} {ch : Nat} : (s.ringAdd t ch).Inv := h.ringDrop.tick.modVat

theorem chanIdle (h : s.Inv) {t : Team} {ch : Nat} : (s.chanIdle t ch).Inv := h.modChan.ringDrop

theorem chanStop (h : s.Inv) {t : Team} {ch reason : Nat} {unsaid : Bool} : (s.chanStop t ch reason unsaid).Inv :=
  h.fixShapes.freeEntries.modChan.ringDrop

theorem shapeHit (h : s.Inv) {vat space va : Nat} {r : State × Shape} (hr : s.shapeHit vat space va = some r) : r.1.Inv := by
  unfold State.shapeHit at hr
  obtain ⟨e, -, rfl⟩ := Option.map_eq_some_iff.mp hr
  exact h.modVat

end

end State.Inv

/-- What the reading of a shape record leaves is in canonical form. -/
def ShapeRes.Inv : ShapeRes → Prop
  | .ok s _ => s.Inv
  | .fault => True
  | .bad s => s.Inv

/-- What the move of an element leaves is in canonical form. -/
def Moved.Inv : Moved → Prop
  | .yes s _ => s.Inv
  | .stop s _ => s.Inv
  | .wait => True

namespace State.Inv

section
variable {s : State}

theorem readShape (h : s.Inv) {by_ : Issuer} {t : Team} {va : Nat} : (s.readShape by_ t va).Inv := by
  unfold State.readShape
  split
  · exact h
  · split
    · exact h.shapeHit ‹_›
    · split
      · trivial
      · next r hr =>
        have h1 : r.1.Inv := h.readVA hr
        split
        · exact h1
        · exact h1.modVat

theorem shapesOf (h : s.Inv) {by_ : Issuer} {t : Team} {addr : Nat} {bs : List Byte} :
    (s.shapesOf by_ t addr bs).1.Inv ∧ (s.shapesOf by_ t addr bs).2.Inv := by
  unfold State.shapesOf
  split
  · exact ⟨h, h⟩
  · have hr := h.readShape (by_ := by_) (t := t) (va := field bs 24 8)
    split
    · next s1 a heq =>
      rw [heq] at hr
      exact ⟨hr, readShape hr⟩
    · exact ⟨hr, hr⟩

theorem addEntries {owner : RangeOwner} {es : List (Nat × TeamId × Nat × Nat)} (h : s.Inv) {r : State × List Nat}
    (hr : s.addEntries owner es = some r) : r.1.Inv := by
  induction es generalizing s r with
  | nil => cases hr; exact h
  | cons e es ih =>
    unfold State.addEntries at hr
    split at hr
    · cases hr
    · obtain ⟨x, hx, rfl⟩ := Option.map_eq_some_iff.mp hr
      exact ih (r := x) h.tick.modCore hx

theorem stopRecord (h : s.Inv) {t : Team} {ch ctl done reason : Nat} : (s.stopRecord t ch ctl done reason).Inv := by
  unfold State.stopRecord
  split
  · exact (h.writeVA ‹_›).chanStop
  · exact h.chanStop

theorem startRecord (h : s.Inv) {t : Team} {ch : Nat} {bs : List Byte} {a b : Option Shape} :
    (s.startRecord t ch bs a b).Inv := by
  unfold State.startRecord
  extract_lets ctl count elog x go
  have hgo : ∀ x, (go s x).Inv := by
    intro x
    unfold go
    extract_lets left side
    split
    · exact h
    · next r hr =>
      split
      · exact h
      · next r2 hr2 =>
        refine modChan ?_
        exact ((h.addEntries hr).addEntries hr2).same
  split
  · split
    · exact hgo _
    · exact h.stopRecord
  · exact hgo _

theorem execTransferRecordStart (h : s.Inv) {id : TeamId} {ch : Nat} : OutInv (execTransferRecordStart id ch s) := by
  unfold Sys2Proof.Machine.execTransferRecordStart
  split
  · exact h
  · extract_lets c by_
    split
    · exact h
    · split
      · exact h
      · split
        · exact h.chanStop
        · next s1 bs hr =>
          have h1 : s1.Inv := h.readVA hr
          extract_lets ctl malformed
          have hm : ∀ u : State, u.Inv → (malformed u).Inv := fun u hu => hu.stopRecord
          split
          · exact h1.chanIdle
          · split
            · exact h
            · split
              · exact hm _ h1
              · obtain ⟨ha, hb⟩ := h1.shapesOf (by_ := by_) (t := ‹Team›) (addr := c.recAddr) (bs := bs)
                split
                · exact h1.chanStop
                · exact h1.chanStop
                · next heq => rw [heq] at ha; exact hm _ ha
                · next heq => rw [heq] at hb; exact hm _ hb
                · next heq =>
                  rw [heq] at hb
                  split
                  · exact hm _ hb
                  · exact startRecord hb

theorem sideMeet (h : s.Inv) {by_ : Issuer} {core va kind : Nat} {x : Side} : (s.sideMeet by_ core va kind x).Inv := by
  unfold State.sideMeet
  split
  · exact h.winMeet
  · split
    · exact h.meetPoisonPage
    · exact h.meetAt

theorem moveElem (h : s.Inv) {t : Team} {by_ : Issuer} {x : Xfer} {n : Nat} : (s.moveElem t by_ x n).Inv := by
  unfold State.moveElem
  split
  · exact h
  · split
    · trivial
    · extract_lets r s1
      have h1 : s1.Inv := by
        unfold s1
        split
        · exact h
        · exact h.sideMeet
      split
      · exact h1
      · split
        · exact h
        · split
          · trivial
          · exact h1

theorem moveElems (h : s.Inv) {t : Team} {by_ : Issuer} {x : Xfer} {k : Nat} : (s.moveElems t by_ x k).1.Inv := by
  induction k generalizing s x with
  | zero => exact h
  | succ k ih =>
    unfold State.moveElems
    split
    · exact h
    · have hm := h.moveElem (t := t) (by_ := by_) (x := x) (n := x.moved)
      split
      · next heq =>
        rw [heq] at hm
        exact ih hm
      · exact h

theorem putAll (h : s.Inv) {wheel k : Nat} {l : List Put} : (s.putAll wheel k l).Inv := by
  induction k generalizing s l with
  | zero => exact h
  | succ k ih =>
    match l with
    | [] => exact h
    | .scr a bs :: l => exact ih h.winStore
    | .mem p bs :: l =>
      unfold State.putAll
      split
      · exact ih h.count
      · exact ih h.writeCells

theorem moveUnit (h : s.Inv) {t : Team} {by_ : Issuer} {x : Xfer} : (s.moveUnit t by_ x).1.Inv := h.moveElems.putAll

theorem moveStep (h : s.Inv) {id : TeamId} {ch : Nat} : (s.moveStep id ch).Inv := by
  unfold State.moveStep
  split
  · exact h
  · extract_lets c v first
    split
    · exact h
    · split
      · exact h.moveUnit.modChan.modVat
      · exact h

theorem chanWait (h : s.Inv) {id : TeamId} {ch : Nat} {on : Bool} : (s.chanWait id ch on).Inv := h.modChan

theorem recordCount (h : s.Inv) {id : TeamId} {x : Xfer} : (s.recordCount id x).Inv := by
  unfold State.recordCount
  split
  · split
    · exact h.barComplete
    · exact h
  · split
    · exact h.engineDecr
    · exact h

theorem execTransferRecordComplete (h : s.Inv) {id : TeamId} {ch : Nat} : OutInv (execTransferRecordComplete id ch s) := by
  unfold Sys2Proof.Machine.execTransferRecordComplete
  split
  · exact h
  · extract_lets c
    split
    · exact h
    · split
      · exact h
      · split
        · exact h.chanStop
        · next s2 hw =>
          have h2 : s2.Inv := h.freeEntries.recordCount.writeVA hw
          extract_lets s3 s4
          have h3 : s3.Inv := h2.modChan
          split
          · exact h3.chanIdle
          · have h4 : s4.Inv := h3.modChan
            change State.Inv (if c.cancel then _ else _)
            split
            · exact h4.chanStop
            · exact h4

theorem execTransferRecordStop (h : s.Inv) {id : TeamId} {ch : Nat} : OutInv (execTransferRecordStop id ch s) := by
  unfold Sys2Proof.Machine.execTransferRecordStop
  split
  · exact h
  · next tm _ =>
    extract_lets c
    split
    · exact h
    · next x _ =>
      extract_lets stop
      have hstop : ∀ (u : State) (r : Nat), u.Inv → (stop u r).Inv := fun u r hu => hu.stopRecord
      split
      · exact h
      · split
        · exact hstop _ _ h
        · split
          · exact h
          · have hm := h.moveElem (t := tm) (by_ := c.issuer tm) (x := x) (n := x.moved)
            split
            · next heq =>
              rw [heq] at hm
              exact hstop _ _ hm
            · exact h

theorem finChan (h : s.Inv) {id : TeamId} {q : BitVec 6} {code ch : Nat} : (s.finChan id q code ch).Inv := h.fin

theorem execCopygo (h : s.Inv) {e : EF} {ch : Fin 4} : OutInv (execCopygo e ch s) := by
  refine h.asE (fun t g => ?_)
  extract_lets p c
  split
  · exact h.finChan
  · split
    · exact h
    · exact h.releasing (fun u hu => hu.tick.modChan.ringAdd.finChan)

theorem execCopywait (h : s.Inv) {q : BitVec 6} {x : BitVec 5} {ch : Fin 4} : OutInv (execCopywait q x ch s) := by
  refine h.asE (fun t g => ?_)
  extract_lets c
  split
  · exact h
  · split
    · exact h.putStatus.acquire
    · exact h.finChan


theorem execChanstat (h : s.Inv) {q : BitVec 6} {ch : Fin 4} : OutInv (execChanstat q ch s) := h.asE (fun _ _ => h.finChan)

theorem execCopycancel (h : s.Inv) {q : BitVec 6} {x : BitVec 5} {ch : Fin 4} : OutInv (execCopycancel q x ch s) := by
  refine h.asE (fun t g => ?_)
  extract_lets c gen s1
  have h1 : s1.Inv := h.modChan
  split
  · exact h.finChan
  · split
    · exact h.chanStop.finChan
    · change State.Inv (if x = 0 then _ else _)
      split
      · exact h1
      · exact h1.keepBlock

/-! ## Loads, stores and atomics -/

theorem memGate {g : Group} {x : Sorted} {write : Bool} {f : Res} (hf : f.Inv) : (s.memGate g x write f).Inv := by
  unfold State.memGate
  extract_lets w e
  split
  · trivial
  · split
    · trivial
    · split
      · trivial
      · exact hf

theorem poisonGate (h : s.Inv) {before : State} {t : Team} {g : Group} : (s.poisonGate before t g).Inv := by
  unfold State.poisonGate
  split
  · split
    · exact h.teamLost
    · exact h
  · exact h

theorem gated {r : Res} (hr : r.Inv) {t : Team} {g : Group} : (r.gated s t g).Inv := by
  cases r with
  | done u => exact poisonGate hr
  | wait u hi => exact poisonGate hr
  | trap x => trivial
  | stall k => trivial

theorem reading (h : s.Inv) {t : Team} {g : Group} {va n : Nat} {f : State → List Byte → Res}
    (hf : ∀ (u : State) (bs : List Byte), u.Inv → (f u bs).Inv) : (s.reading t g va n f).Inv := by
  unfold State.reading
  split
  · trivial
  · split
    · trivial
    · exact gated (hf _ _ (h.readVA ‹_›))

theorem parkBeats (h : s.Inv) {core load : Nat} {kind : ParkKind} {hint : Bool} {x : Sorted} {mk : Elem → ParkElem}
    {ks : List Nat} : (s.parkBeats core kind load hint x mk ks).Inv := by
  induction ks generalizing s with
  | nil => exact h
  | cons k ks ih => exact ih h.tick.modCore

theorem parkTrap (h : s.Inv) {x : Sorted} {write : Bool} : (s.parkTrap x write).Inv := by
  unfold State.parkTrap
  split
  · exact h
  · exact h.modGrp

theorem pushLoad (h : s.Inv) {t : Team} {gi n : Nat} {beats : List Nat} {val : Nat → Word} :
    (s.pushLoad t gi n beats val).Inv := h.modGrp

theorem results (h : s.Inv) {t : Team} {beats regs : List Nat} {q : Option Nat} {vals : List (Nat × List Word)}
    {bad : List Elem} {load : Nat} : (s.results t beats regs q vals bad load).Inv := by
  unfold State.results
  extract_lets i s1 s2 r
  have h1 : s1.Inv := h.modGrp
  split
  · split
    · exact h1.pushLoad
    · exact h1
  · have h2 : s2.Inv := h1.modGrp
    split
    · exact h2.modCore
    · exact h2

theorem completeLoad (h : s.Inv) {core : Nat} {r : LoadRec} : (s.completeLoad core r).Inv := by
  unfold State.completeLoad
  extract_lets s1 s2
  have h2 : s2.Inv := modGrp (s := s1) h.modCore
  split
  · exact h2.pushLoad
  · exact h2

theorem execLoadComplete (h : s.Inv) {core : Nat} : OutInv (execLoadComplete core s) := by
  change State.Inv (match (s.core core).loads.find? (fun r => r.left == 0) with | some r => _ | none => _)
  split
  · refine completeLoad ?_
    split
    · exact h.served
    · exact h
  · exact h

theorem loadDet (h : s.Inv) {by_ : Issuer} {g : Group} {e : Elem} {ps : List Part} {hint up : Bool} :
    (s.loadDet by_ g e ps hint up).1.Inv := by
  unfold State.loadDet
  extract_lets own cross r
  have hcross : ∀ (u : State) (bs : List Byte), u.Inv → (cross u bs).1.Inv := by
    intro u bs hu
    unfold cross
    split
    · exact hu.crossUp
    · exact hu
  split
  · exact hcross _ _ h
  · split
    · exact h.loadElem
    · exact hcross _ _ h.loadParts

theorem loadAll (h : s.Inv) {g : Group} {det : Bool} {ty : MemTy} {hint up : Bool} {l : List (Elem × List Part)} :
    (s.loadAll g det ty hint up l).1.Inv := by
  induction l generalizing s with
  | nil => exact h
  | cons x l ih =>
    refine ih ?_
    split
    · exact h.loadDet
    · exact h.loadElem

theorem popAll (h : s.Inv) {beats pops : List Nat} : (s.popAll beats pops).Inv := h.modGrp

theorem execLd (h : s.Inv) {ty : MemTy} {t : Os} {m : MAddr} {hint : Bool} : OutInv (execLd ty t m hint s) := by
  unfold Sys2Proof.Machine.execLd
  extract_lets regs pops
  refine h.asM (fun tm g beats => memGate ?_)
  exact h.tick.popAll.loadAll.results.parkBeats.parkTrap.poisonGate

theorem storeOne (h : s.Inv) {core : Nat} {prv hint : Bool} {ps : List Part} {bs : List Byte} :
    (s.storeOne core prv hint ps bs).Inv := h.storeElem

theorem execSt (h : s.Inv) {ty : MemTy} {t : Os} {m : MAddr} {hint : Bool} : OutInv (execSt ty t m hint s) := by
  unfold Sys2Proof.Machine.execSt
  extract_lets regs pops
  refine h.asM (fun tm g beats => ?_)
  extract_lets det x bytes s1 ok bad s2 s3
  split
  · trivial
  · have h1 : s1.Inv := h.popAll
    have h2 : s2.Inv := by
      unfold s2
      split
      · exact h1.modGrp
      · exact foldl (fun _ _ h => h.storeOne) _ h1
    exact memGate (parkTrap (s := s3) h2.parkBeats)

theorem atomClean (h : s.Inv) {core : Nat} {x : Xlat} : (s.atomClean core x).Inv := by
  unfold State.atomClean
  extract_lets clean s1
  have hclean : ∀ (u : State) (pa : Nat), u.Inv → (clean u pa).Inv := by
    intro u pa hu
    unfold clean
    split
    · exact hu.dropLine
    · exact hu.writeBack
  have h1 : s1.Inv := hclean _ _ h
  split
  · exact h1
  · exact hclean _ _ h1

theorem atomAt (h : s.Inv) {by_ : Issuer} {core : Nat} {op : AtomOp} {va : Nat} {ps : List Part} {v n : Word} :
    (s.atomAt by_ core op va ps v n).1.Inv := by
  unfold State.atomAt
  split
  · exact h
  · split
    · exact h.meetPoisonPage.count
    · extract_lets s1 s2 old bs s3 s4
      have h1 : s1.Inv := h.atomClean.saw
      split
      · have h2 : s2.Inv := h1.meetAt
        dsimp only
        split
        · exact h2.count
        · exact h2
      · have h3 : s3.Inv := by
          unfold s3
          split
          · exact h1.regionStore
          · exact h1
        have h4 : s4.Inv := by
          unfold s4
          split
          · exact h3.stackPut
          · exact h3.homeWriteN
        exact h4.saw

theorem atomAll (h : s.Inv) {g : Group} {op : AtomOp} {ks : List KeptElem} {l : List (Elem × List Part)} :
    (s.atomAll g op ks l).1.Inv := by
  induction l generalizing s with
  | nil => exact h
  | cons x l ih => exact ih h.atomAt

theorem atomWord (h : s.Inv) {op : AtomOp} {t : Os} {m : MAddr} {f : Team → Group → List Nat → Res}
    (hf : ∀ tm g beats, (f tm g beats).Inv) : OutInv (s.atomWord op t m f) := by
  unfold State.atomWord
  extract_lets regs
  split <;> exact h.asM hf

theorem atomPop (h : s.Inv) {m : MAddr} {beats : List Nat} : (s.atomPop m beats).Inv := by
  unfold State.atomPop
  split
  · exact h.popAll
  · exact h

theorem execAtom (h : s.Inv) {op : AtomOp} {t : Os} {m : MAddr} : OutInv (execAtom op t m s) := by
  refine h.atomWord (fun tm g beats => ?_)
  extract_lets ks es
  split
  · trivial
  · split
    · exact h.atomPop.queueSerial
    · refine memGate ?_
      split
      · trivial
      · exact h.tick.atomPop.atomAll.results.parkBeats.parkTrap.poisonGate

/-! ## Scratchpad -/

theorem scrWord {t : Team} {n align : Nat} {es : List Elem} {f : List (Elem × ScrAt) → Res} (hf : ∀ l, (f l).Inv) :
    (s.scrWord t n align es f).Inv := by
  unfold State.scrWord
  split
  · trivial
  · split
    · trivial
    · exact hf _

theorem scrLoad (h : s.Inv) {g : Group} {det : Bool} {n : Nat} {up : Bool} {x : Elem × ScrAt} :
    (s.scrLoad g det n up x).1.Inv := by
  unfold State.scrLoad
  extract_lets src by_ s1 own r
  have h1 : s1.Inv := h.sawSlot
  have hr : r.1.Inv := by
    unfold r
    split
    · exact h1.winElem
    · exact h1
  split
  · exact hr.crossUp
  · exact hr

theorem scrLoads (h : s.Inv) {g : Group} {det : Bool} {ty : MemTy} {up : Bool} {l : List (Elem × ScrAt)} :
    (s.scrLoads g det ty up l).1.Inv := by
  induction l generalizing s with
  | nil => exact h
  | cons x l ih => exact ih h.scrLoad

theorem execLds (h : s.Inv) {ty : MemTy} {t : Os} {m : MAddr} : OutInv (execLds ty t m s) := by
  unfold Sys2Proof.Machine.execLds
  extract_lets regs pops
  refine h.asM (fun tm g beats => scrWord (fun l => ?_))
  exact h.popAll.scrLoads.results.poisonGate

theorem execSts (h : s.Inv) {ty : MemTy} {t : Os} {m : MAddr} : OutInv (execSts ty t m s) := by
  unfold Sys2Proof.Machine.execSts
  extract_lets regs pops
  refine h.asM (fun tm g beats => ?_)
  split
  · trivial
  · refine scrWord (fun l => ?_)
    extract_lets s1 rows
    have h1 : s1.Inv := h.popAll
    split
    · exact h1.modGrp
    · exact foldl (fun _ _ h => h.winStore) _ h1

theorem atomScr (h : s.Inv) {op : AtomOp} {ks : List KeptElem} {l : List (Elem × ScrAt)} : (s.atomScr op ks l).1.Inv := by
  induction l generalizing s with
  | nil => exact h
  | cons x l ih =>
    refine ih ?_
    split
    · exact h.winElem
    · exact h.winStore

theorem execAtoms (h : s.Inv) {op : AtomOp} {t : Os} {m : MAddr} : OutInv (execAtoms op t m s) := by
  refine h.atomWord (fun tm g beats => ?_)
  extract_lets ks
  refine scrWord (fun l => ?_)
  split
  · exact h.atomPop.queueSerial
  · exact h.atomPop.atomScr.results.poisonGate

/-! ## Replayed elements -/

theorem parkResult (h : s.Inv) {core : Nat} {p : Park} {e : ParkElem} {ws : List Word} : (s.parkResult core p e ws).Inv :=
  h.modGrp.modCore

theorem replayElem (h : s.Inv) {core : Nat} {p : Park} {e : ParkElem} {ps : List Part} : (s.replayElem core p e ps).Inv := by
  unfold State.replayElem
  extract_lets by_
  split
  · split
    · exact h
    · refine parkResult ?_
      split
      · exact h.loadDet
      · exact h.loadElem
  · split
    · exact h.modGrp
    · exact h.storeOne
  · exact h.atomAt.parkResult
  · exact h

theorem replayElems (h : s.Inv) {core space : Nat} {p : Park} {es : List ParkElem} : (s.replayElems core space p es).1.Inv := by
  induction es generalizing s with
  | nil => exact h
  | cons e es ih =>
    unfold State.replayElems
    split
    · exact ih h
    · split
      · exact ih h.replayElem
      · exact ih h

/-! ## Collectives -/

theorem modColl (h : s.Inv) {id : TeamId} {n : Nat} {f : CollSlot → CollSlot} : (s.modColl id n f).Inv := h.modTeam

theorem finColl (h : s.Inv) {q : BitVec 6} {code n : Nat} : (s.finColl q code n).Inv := h.fin

theorem collStart (h : s.Inv) {t : Team} {g : Group} {q : BitVec 6} {slot : Nat} {fg : FGroup} {bs : List Byte} :
    (s.collStart t g q slot fg bs).Inv := by
  unfold State.collStart
  extract_lets f n es
  split
  · trivial
  · split
    · trivial
    · extract_lets start
      have hstart : ∀ c, (start c).Inv := fun c => h.modColl.finColl
      split
      · exact hstart _
      · split
        · trivial
        · split
          · exact h.finColl
          · exact hstart _

theorem execCollGo (h : s.Inv) {e : EF} {slot : Fin 4} : OutInv (execCollGo e slot s) := by
  refine h.asE (fun t g => h.releasing (fun u hu => ?_))
  extract_lets va
  split
  · exact hu
  · split
    · exact hu.finColl
    · refine hu.reading (fun v bs hv => ?_)
      split
      · exact hv.finColl
      · split
        · exact hv.finColl
        · split
          · exact hv.finColl
          · exact hv.collStart

theorem execCollWait (h : s.Inv) {q : BitVec 6} {x : BitVec 5} {slot : Fin 4} : OutInv (execCollWait q x slot s) := by
  refine h.asE (fun t g => ?_)
  extract_lets st
  split
  · exact h
  · split
    · exact h.putStatus.acquire
    · exact h.finColl

theorem execCollTest (h : s.Inv) {q : BitVec 6} {slot : Fin 4} : OutInv (execCollTest q slot s) := by
  refine h.asE (fun t g => ?_)
  split
  · exact h.putStatus.acquire
  · exact h.finColl

theorem collDone (h : s.Inv) {id : TeamId} {slot : Nat} : (s.collDone id slot).Inv := h

theorem collStop (h : s.Inv) {id : TeamId} {slot : Nat} : (s.collStop id slot).Inv := h.modColl.collDone

theorem execCollCancel (h : s.Inv) {q : BitVec 6} {slot : Fin 4} : OutInv (execCollCancel q slot s) :=
  h.asE (fun _ _ => h.collStop.finColl)

theorem execCollHeaderMismatch (h : s.Inv) {id : TeamId} {slot : Nat} : OutInv (execCollHeaderMismatch id slot s) := by
  change State.Inv (if _ then _ else _)
  split
  · exact h.collStop
  · exact h

theorem execRemoteCollCancel (h : s.Inv) {id : TeamId} {slot : Nat} : OutInv (execRemoteCollCancel id slot s) := h.collStop

theorem collExchange (h : s.Inv) {id : TeamId} {slot : Nat} {sends : List (List Byte)} : (s.collExchange id slot sends).Inv := by
  unfold State.collExchange
  split
  · exact h
  · extract_lets c
    split
    · exact h
    · exact h.readParts.modColl

theorem putRoom (h : s.Inv) {wheel : Nat} {ps : List Part} {bs : List Byte} : (s.putRoom wheel ps bs).1.Inv := by
  induction ps generalizing s bs with
  | nil => exact h
  | cons p ps ih =>
    unfold State.putRoom
    split
    · exact h
    · exact ih h.engineWrite

theorem collPut (h : s.Inv) {id : TeamId} {slot lo n : Nat} : (s.collPut id slot lo n).1.Inv := by
  unfold State.collPut
  split
  · exact h
  · extract_lets c
    split
    · exact h
    · split
      · exact h
      · exact h.putRoom

theorem collWrite (h : s.Inv) {id : TeamId} {slot lo n : Nat} {sends : List (List Byte)} :
    (s.collWrite id slot lo n sends).Inv := h.collExchange.collPut

theorem execCollComplete (h : s.Inv) {id : TeamId} {slot : Nat} {sends : List (List Byte)} :
    OutInv (execCollComplete id slot sends s) := by
  unfold Sys2Proof.Machine.execCollComplete
  extract_lets s1
  have h1 : s1.Inv := h.collExchange
  split
  · exact h
  · extract_lets c r s3
    split
    · exact h
    · have hr : r.1.Inv := h1.collPut
      split
      · exact hr
      · have h3 : s3.Inv := hr.modColl.collDone
        change State.Inv (match c.done with | some a => _ | none => _)
        split
        · exact h3.engineDecr
        · exact h3

/-! ## Fences and maintenance -/

theorem fenceWord (h : s.Inv) {rs : List Nat} {f : Team → Group → Res} (hf : ∀ t g, (f t g).Inv) : OutInv (s.fenceWord rs f) :=
  h.asM (fun t g _ => hf t g)

theorem fenceDo (h : s.Inv) {t : Team} {g : Group} {k : Kind} {sc : Nat} : (s.fenceDo t g k sc).Inv := by
  unfold State.fenceDo
  extract_lets s1 s2 deep
  have h1 : s1.Inv := by
    unfold s1
    split
    · exact h
    · exact h.relScope
  have h2 : s2.Inv := by
    unfold s2
    split
    · exact h1
    · exact h1.acqScope.orders
  exact h2.modGrp

theorem execFence (h : s.Inv) {k : Kind} {sc : BitVec 3} : OutInv (execFence k sc s) := by
  refine h.fenceWord (fun t g => ?_)
  split
  · exact h
  · extract_lets s1
    have h1 : s1.Inv := h.fenceDo
    split
    · trivial
    · exact h1

theorem icDrop (h : s.Inv) {core line : Nat} : (s.icDrop core line).Inv := h.modCore

theorem actMaint (h : s.Inv) {k : Maint} {core line : Nat} : (k.act s core line).Inv := by
  cases k with
  | clean => exact h.writeBack
  | inval => exact h.dropLine
  | icinv => exact h.icDrop

theorem actAll (h : s.Inv) {l : List (Maint × Nat × Nat)} : (s.actAll l).Inv := foldl (fun _ _ h => h.actMaint) _ h

theorem maintain (h : s.Inv) {k : Maint} {sc : BitVec 3} {r : Range} : OutInv (s.maintain k sc r) := by
  refine h.fenceWord (fun t g => ?_)
  extract_lets b todo run
  have hrun : ∀ keep, (run keep).Inv := by
    intro keep
    unfold run
    extract_lets s1
    have h1 : s1.Inv := h.actAll
    split
    · trivial
    · exact h1
  split
  · trivial
  · clear_value b
    split
    · exact hrun _
    · split
      · extract_lets l s1
        have h1 : s1.Inv := h.actAll.trapNow
        exact h1.same
      · exact hrun _

theorem execFetchbar (h : s.Inv) : OutInv (execFetchbar s) := h.fenceWord (fun _ _ => h.modCore.modGrp)

theorem execRcfence (h : s.Inv) {sc : BitVec 3} {r : Range} : OutInv (execRcfence sc r s) := by
  refine h.fenceWord (fun t g => ?_)
  extract_lets b s1 hit
  split
  · trivial
  · split
    · trivial
    · have h1 : s1.Inv := h.relSelf
      exact h1.same

theorem execMsfence (h : s.Inv) {ar : Bool} : OutInv (execMsfence ar s) := by
  refine h.fenceWord (fun _ g => ?_)
  split
  · trivial
  · exact h.modGrp

theorem execTlbfence (h : s.Inv) {sc : BitVec 3} {r : Range} : OutInv (execTlbfence sc r s) := by
  refine h.fenceWord (fun t g => ?_)
  extract_lets b s1 hit
  split
  · trivial
  · split
    · trivial
    · have h1 : s1.Inv := h.cleanCore
      exact foldl (fun _ _ h => h.modCore) _ h1

/-! ## The matrix arrays -/

theorem modLease (h : s.Inv) {id : TeamId} {core : Nat} {f : Lease → Lease} : (s.modLease id core f).Inv := h.modTeam

theorem leaseClock (h : s.Inv) : s.leaseClock.Inv := by
  unfold State.leaseClock
  split
  · exact h
  · exact ⟨h.1, WinsOk.map h.2 (fun _ ht => ht)⟩

theorem execMatrixOperationStart (h : s.Inv) {core : Nat} : OutInv (execMatrixOperationStart core s) := by
  unfold Sys2Proof.Machine.execMatrixOperationStart
  split
  · exact h
  · split
    · exact h
    · exact h.tick.modCore.modLease

theorem meetSram (h : s.Inv) {by_ : Issuer} {core a : Nat} : (s.meetSram by_ core a).Inv := h.count.count.poisonSeen.poisonTrap

theorem execKStepCommit (h : s.Inv) {core : Nat} : OutInv (execKStepCommit core s) := by
  unfold Sys2Proof.Machine.execKStepCommit
  split
  · exact h
  · split
    · exact h
    · extract_lets bad slot s0 s1 y s2
      split
      · exact h
      · have h0 : s0.Inv := by
          unfold s0
          clear_value slot
          split
          · exact h.meetSlot
          · exact h
        have h1 : s1.Inv := foldl (fun _ _ h => h.meetSram) _ h0.served.served
        have h2 : s2.Inv := h1.modLease
        change State.Inv (if y.st = 2 then _ else _)
        split
        · exact h2
        · exact h2.freeEntries

theorem execMatrixOperationStop (h : s.Inv) {core : Nat} : OutInv (execMatrixOperationStop core s) := by
  unfold Sys2Proof.Machine.execMatrixOperationStop
  split
  · exact h
  · split
    · exact h
    · extract_lets stopped
      have hs : stopped.Inv := h.freeEntries.modLease
      split
      · exact hs.meetSram
      · exact hs.meetSlot
      · exact h

theorem mxPoison (h : s.Inv) {id : TeamId} {core tag kind row off : Nat} : (s.mxPoison id core tag kind row off).Inv := h.modLease

theorem execDrainRun (h : s.Inv) {id : TeamId} {core tag : Nat} : OutInv (execDrainRun id core tag s) := by
  unfold Sys2Proof.Machine.execDrainRun
  split
  · exact h
  · split
    · exact h
    · split
      · split
        · exact h
        · extract_lets s1
          have h1 : s1.Inv := h.served.served.winWrite
          exact h1.freeEntries.modLease
      · exact h

theorem obldRead (h : s.Inv) {tm : Team} {core : Nat} {x : ORec} {pages : Nat} : (s.obldRead tm core x pages).Inv := by
  unfold State.obldRead
  extract_lets by_ total r waits slot c
  have hr : r.1.Inv := h.readPages
  have hc : c.1.Inv := by
    unfold c
    clear_value slot
    split
    · exact hr.meetSlot
    · exact hr
  exact hc.served.served.modLease

theorem obldPage (h : s.Inv) {id : TeamId} {core n : Nat} : (s.obldPage id core n).Inv := by
  unfold State.obldPage
  split
  · exact h.obldRead
  · exact h

theorem execObldLoadFinish (h : s.Inv) {id : TeamId} {core r : Nat} : OutInv (execObldLoadFinish id core r s) := by
  change State.Inv (match s.obldOf id core r with | some x => _ | none => _)
  split
  · exact h.obldRead
  · exact h

theorem execMxlease (h : s.Inv) {e : EF} : OutInv (execMxlease e s) := by
  refine h.asE (fun t g => ?_)
  extract_lets n l
  split
  · exact h.fin
  · split
    · exact h
    · exact h.modTeam.putStatus

theorem mxQueue (h : s.Inv) {id : TeamId} {core : Nat} {b : MxBlock} {u : State} (hq : s.mxQueue id core b = some u) : u.Inv := by
  unfold State.mxQueue at hq
  extract_lets es ss at hq
  split at hq
  · cases hq
  · next r hr =>
    split at hq
    · cases hq
    · next r2 hr2 =>
      have h2 : r2.1.Inv := (h.addEntries hr).addEntries hr2
      cases hq
      exact h2.tick.modLease

theorem mxStart (h : s.Inv) {t : Team} {g : Group} {q : BitVec 6} {tag : Nat} {bs : List Byte} :
    (s.mxStart t g q tag bs).Inv := by
  unfold State.mxStart
  split
  · exact h.fin
  · extract_lets afmt
    split
    · trivial
    · split
      · exact h.fin
      · split
        · exact h.fin
        · split
          · exact h.waitWith
          · split
            · next hq => exact (h.mxQueue hq).fin
            · exact h.waitWith

theorem execMxgo (h : s.Inv) {e : EF} {tag : Fin 4} : OutInv (execMxgo e tag s) := by
  refine h.asE (fun t g => ?_)
  split
  · exact h.mxStart
  · extract_lets p
    split
    · trivial
    · split
      · trivial
      · split
        · trivial
        · split
          · exact h
          · split
            · exact h.fin
            · split
              · trivial
              · exact gated h.winBlock.mxStart

theorem execMxwait (h : s.Inv) {q : BitVec 6} {x : BitVec 5} {tag : Fin 4} : OutInv (execMxwait q x tag s) := by
  refine h.asE (fun t g => ?_)
  split
  · exact h.fin
  · extract_lets n
    split
    · exact h
    · split
      · exact h.putStatus.acquire
      · exact h.fin

theorem execMxdrain (h : s.Inv) {e : EF} {tag : Fin 4} : OutInv (execMxdrain e tag s) := by
  refine h.asE (fun t g => ?_)
  extract_lets p half target y n len
  clear_value len n
  clear_value y
  split
  · trivial
  · extract_lets sp
    split
    · exact h.fin
    · split
      · exact h.fin
      · split
        · exact h.fin
        · split
          · exact h
          · split
            · exact h
            · next r hr => exact (h.addEntries hr).modLease.fin

theorem dropLease (h : s.Inv) {id : TeamId} {core : Nat} : (s.dropLease id core).Inv := h.modTeam.modCore

theorem execMxrel (h : s.Inv) {q : BitVec 6} {x : BitVec 5} : OutInv (execMxrel q x s) := by
  refine h.asE (fun t g => ?_)
  split
  · exact h.fin
  · split
    · exact h
    · exact h.dropLease.fin

theorem execOres (h : s.Inv) {p q : BitVec 6} {r : Fin 16} : OutInv (execOres p q r s) := by
  refine h.asE (fun t g => ?_)
  extract_lets v
  split
  · exact h.fin
  · split
    · split
      · exact h.fin
      · exact h.modLease.fin
    · split
      · exact h.fin
      · split
        · exact h.fin
        · split
          · trivial
          · split
            · exact h.fin
            · split
              · exact h.fin
              · split
                · exact h.fin
                · exact h.modLease.fin

theorem execObld (h : s.Inv) {e : EF} {r : Fin 16} : OutInv (execObld e r s) := by
  refine h.asE (fun t g => h.releasing (fun u hu => ?_))
  extract_lets p
  split
  · exact hu.fin
  · split
    · split
      · exact hu.fin
      · split
        · exact hu.fin
        · exact hu.modLease
    · split
      · exact hu.fin
      · split
        · trivial
        · exact hu

theorem execMxstat (h : s.Inv) {p q : BitVec 6} {n : Fin 16} : OutInv (execMxstat p q n s) := by
  refine h.asE (fun t g => ?_)
  extract_lets l v
  clear_value l
  split
  · split
    · exact h.fin
    · split <;> exact h.fin
  · split
    · split <;> exact h.fin
    · exact h.fin

/-! ## Saved teams reloaded and placed -/

end

end State.Inv

/-- What the checks of a launch leave is in canonical form. -/
def Checked.Inv : Checked → Prop
  | .refuse s _ => s.Inv
  | .fault s _ _ => s.Inv
  | .ok s _ => s.Inv

/-- What a node's entry into a pool leaves is in canonical form. -/
def EnterRes.Inv : EnterRes → Prop
  | .ok s _ => s.Inv
  | _ => True

theorem Team.reloadPart_win (xs : List (Nat × List Byte)) (imported : Bool) (t : Team) (r : Region_) :
    (t.reloadPart xs imported r).win = t.win := by
  unfold Team.reloadPart
  split
  · rfl
  · extract_lets x
    clear_value x
    split
    · rfl
    · cases x <;> rfl

theorem Team.reloadParts_win (xs : List (Nat × List Byte)) (imported : Bool) (rs : List Region_) (t : Team) :
    (rs.foldl (Team.reloadPart xs imported) t).win = t.win := by
  induction rs generalizing t with
  | nil => rfl
  | cons r rs ih => exact (ih _).trans (t.reloadPart_win xs imported r)

theorem Team.reloadStatus_win (xs : List (Nat × List Byte)) (off : Nat) (t : Team) :
    (reloadBy xs off Team.reloadStatus t).win = t.win := by
  unfold reloadBy
  split <;> rfl

namespace State.Inv

section
variable {s : State}

theorem readBack {by_ : Issuer} {core space base u : Nat} {ps : List (Nat × Nat)} (h : s.Inv) :
    (State.readBack by_ core space base u ps s).1.Inv := by
  induction ps generalizing s with
  | nil => exact h
  | cons p ps ih =>
    unfold State.readBack
    extract_lets va
    split
    · exact ih h
    · exact ih h.readParts

theorem reload (h : s.Inv) {t : Team} {l : Launch} : (s.reload t l).Inv := by
  unfold State.reload
  extract_lets base read a s1 rs c t1 b
  have h1 : s1.Inv := (readBack h).modTeam (fun t => t.reloadStatus_win _ _)
  have hb : b.1.Inv := readBack (readBack h1)
  exact hb.modTeam (fun t => t.reloadParts_win _ _ _)

theorem leaveL1 (h : s.Inv) {core g : Nat} : (s.leaveL1 core g).Inv := foldl (fun _ _ h => h.dropLine) _ h

theorem applyAllot (h : s.Inv) {core : Nat} {a : Allot} : (s.applyAllot core a).Inv :=
  (foldl (fun _ _ h => h.leaveL1) _ h).modCore

theorem takeGrans (h : s.Inv) {core : Nat} {ws : List Want} : (s.takeGrans core ws).1.Inv := by
  induction ws generalizing s core with
  | nil => exact h
  | cons w ws ih =>
    unfold State.takeGrans
    split
    · exact ih h.applyAllot
    · exact h

theorem acqCores (h : s.Inv) {core : Nat} {paired : Bool} : (s.acqCores core paired).Inv := by
  unfold State.acqCores
  extract_lets s1
  have h1 : s1.Inv := h.acqSelf
  split
  · exact h1.acqSelf
  · exact h1

/-- A team is added whose window is in canonical form. -/
theorem addTeam (h : s.Inv) {t : Team} (ht : Memory.wf t.win = true) : State.Inv { s with teams := s.teams ++ [t] } :=
  ⟨h.1, WinsOk.append h.2 (List.forall_mem_singleton.mpr ht)⟩

theorem startTeam (h : s.Inv) {id : TeamId} {l : Launch} {core : Nat} : (s.startTeam id l core).Inv := by
  unfold State.startTeam
  extract_lets ws bs r gs t
  have hr : r.1.Inv := h.takeGrans
  exact (hr.addTeam (t := t) rfl).acqCores

theorem placeSaved (h : s.Inv) {t : Team} {l : Launch} {core : Nat} : (s.placeSaved t l core).Inv := by
  unfold State.placeSaved
  extract_lets ws bs win r gs half ls s1 coreOf s2 s3 s4 s5 now s6 s7 s8 s9 s10
  have hwin : Memory.wf win = true := Memory.foldl_write_wf _ _ _ rfl
  have hr : r.1.Inv := h.takeGrans
  have h1 : s1.Inv := hr.modTeam_win (fun _ _ => hwin)
  have h2 : s2.Inv := foldl (fun _ _ h => h.modCore) _ h1
  have h3 : s3.Inv := foldl (fun _ _ h => h.modCore) _ h2
  have h4 : s4.Inv := foldl (fun _ _ h => h.modCore) _ h3
  have h5 : s5.Inv := foldl (fun _ _ h => h.modCore) _ h4
  have h6 : s6.Inv := h5.same
  have h7 : s7.Inv := by
    refine foldl (fun s ch h => ?_) _ h6
    split
    · exact h.ringAdd
    · exact h
  have h8 : s8.Inv := foldl (fun _ _ h => h.modGrp) _ h7
  have h9 : s9.Inv := h8.modTeam
  have h10 : s10.Inv := foldl (fun _ _ h => h.modGrp) _ h9
  exact h10.acqCores.switched

theorem restoreTeam (h : s.Inv) {t : Team} {l : Launch} {core : Nat} : (s.restoreTeam t l core).Inv := by
  unfold State.restoreTeam
  extract_lets s1
  have h1 : s1.Inv := h.reload
  split
  · exact h1.placeSaved
  · exact h1

/-! ## Launches -/

theorem verify (h : s.Inv) {by_ : Issuer} {core space code sigoff : Nat} : (s.verify by_ core space code sigoff).1.Inv := by
  unfold State.verify
  split
  · exact h
  · split
    · exact h
    · split
      · exact h
      · next r hr =>
        have h1 : r.1.Inv := h.readVA hr
        split
        · exact h1
        · next m hm =>
          have h2 : m.1.Inv := h1.readVA hm
          exact h2.same

theorem register (h : s.Inv) {space body len : Nat} : (s.register space body len).Inv := by
  unfold State.register
  extract_lets x
  split <;> exact h

theorem checkLaunch (h : s.Inv) {by_ : Issuer} {core : Nat} {r : List Byte} : (s.checkLaunch by_ core r).Inv := by
  unfold State.checkLaunch
  extract_lets f space code lr2
  split
  · exact h
  · split
    · exact h
    · split
      · exact h
      · next s1 hd hr1 =>
        have h1 : s1.Inv := h.readVA hr1
        split
        · exact h1
        · split
          · exact h1
          · next s2 tab hr2 =>
            have h2 : s2.Inv := h1.readVA hr2
            extract_lets bs kib want
            generalize (if lr2 = true then f 80 2 else 0) = kibs, (if lr2 = true then f 72 8 else 0) = trapSeg
            split
            · exact h2
            · split
              · exact h2
              · split
                · exact h2
                · clear_value want
                  split
                  · exact h2
                  · extract_lets l sys v s3
                    have hv : v.1.Inv := by
                      unfold v
                      split
                      · exact h2.verify
                      · exact h2
                    split
                    · exact hv
                    · have h3 : s3.Inv := by
                        unfold s3
                        split
                        · exact hv.register
                        · exact hv
                      split
                      · exact h3
                      · exact h3

theorem enterNode (h : s.Inv) {core wheel : Nat} {l : Launch} : (s.enterNode core wheel l).Inv := by
  unfold State.enterNode
  split
  · trivial
  · trivial
  · split
    · trivial
    · trivial
    · extract_lets onPoison dep s1 id wait s2 n
      have h1 : s1.Inv := by
        unfold s1
        clear_value onPoison
        split
        · exact h.count
        · exact h
      split
      · trivial
      · split
        · trivial
        · split
          · trivial
          · have h2 : s2.Inv := by
              unfold s2
              clear_value wait
              split
              · exact h1.homeWriteL
              · exact h1
            refine modWheel ?_
            exact h2.same

theorem icinvBody (h : s.Inv) {wheel : Nat} {l : Launch} : (s.icinvBody wheel l).Inv := h

/-! ## Memory-side commands -/

theorem readCmds {id : TeamId} {atom : Bool} {n addr : Nat} (h : s.Inv) {r : State × List (MsSpec × List Byte)}
    (hr : s.readCmds id atom n addr = .ok r) : r.1.Inv := by
  induction n generalizing s addr r with
  | zero => cases hr; exact h
  | succ n ih =>
    unfold State.readCmds at hr
    split at hr
    · cases hr
    · split at hr
      · cases hr
      · extract_lets np at hr
        split at hr
        · cases hr
        · split at hr
          · cases hr
          · extract_lets b at hr
            split at hr
            · cases hr
            · next x hx =>
              cases hr
              exact ih (r := x) h.winBlock hx

theorem sendJobs (h : s.Inv) {id : Nat} {by_ : Issuer} {core : Nat} {dest : MsDest} {x : MsSpec} {js : List (List JobElem)}
    {tctr : Option Nat} : (s.sendJobs id by_ core dest x js tctr).Inv := h

theorem parkCmd (h : s.Inv) {c : CmdWait} {f : MsFault} : (s.parkCmd c f).Inv := h.modCore.modGrp

theorem klPush (h : s.Inv) {vat : Nat} {x : KlSend} : (s.klPush vat x).Inv := by
  unfold State.klPush
  split
  · extract_lets s1 s2
    have h2 : s2.Inv := sendJobs (s := s1) h.modVat
    split
    · exact h2
    · exact h2.modTeam
  · exact h

theorem klPushes (h : s.Inv) {vat : Nat} : (s.klPushes vat).Inv := foldl (fun _ _ h => h.klPush) _ h

theorem pumpCmd (h : s.Inv) {c : CmdWait} : (s.pumpCmd c).Inv := by
  unfold State.pumpCmd
  split
  · split
    · exact h
    · extract_lets rest
      have hr : rest.Inv := h
      split
      · split
        · exact hr.sendJobs
        · exact h
      · split
        · exact hr.teamLost
        · split
          · exact h
          · exact hr.parkCmd
  · exact h

theorem pump (h : s.Inv) : s.pump.Inv := by
  refine foldl (fun _ _ h => h.pumpCmd) _ (foldl (fun s v h => ?_) _ h)
  split
  · exact h
  · exact h.klPushes

theorem msPoison (h : s.Inv) {by_ : Issuer} {core pa va : Nat} : (s.msPoison by_ core pa va).Inv := by
  unfold State.msPoison
  split
  · exact h.meetPoisonPage
  · exact h.meetPoison

theorem jobElem (h : s.Inv) {s0 : State} {by_ : Issuer} {core : Nat} {j : Job} {e : JobElem} :
    (State.jobElem s0 by_ core j s e).Inv := by
  unfold State.jobElem
  extract_lets vals s1 s2
  have h1 : s1.Inv := foldl (fun _ _ h => h.msPoison) _ h
  have h2 : s2.Inv := h1.msPoison
  split
  · clear_value s2
    split
    · exact h2
    · exact h2.count
  · exact h1.putCells

theorem execLineJob (h : s.Inv) {chan : Nat} : OutInv (execLineJob chan s) := by
  unfold Sys2Proof.Machine.execLineJob
  split
  · exact h
  · split
    · exact h
    · split
      · exact h
      · extract_lets left s1
        have h1 : s1.Inv := foldl (fun _ _ h => h.jobElem) _ (h.same (s' := { s with jobs := left }))
        exact h1

theorem countDone (h : s.Inv) {t : TeamId} {d : MsDest} : (s.countDone t d).Inv := by
  cases d with
  | counter c => exact h.modTeam
  | kl tag => exact h.modTeam

theorem execMsCommandComplete (h : s.Inv) {id : Nat} : OutInv (execMsCommandComplete id s) := by
  unfold Sys2Proof.Machine.execMsCommandComplete
  split
  · exact h
  · split
    · exact h
    · next c _ _ =>
      extract_lets s1 s2
      have h2 : s2.Inv := countDone (s := s1) h
      change State.Inv (match c.tctr with | some a => _ | none => _)
      split
      · exact h2.engineDecr
      · exact h2

theorem sendAll (h : s.Inv) {core : Nat} {xs : List MsSpec} : (s.sendAll core xs).Inv := by
  induction xs generalizing s with
  | nil => exact h
  | cons x xs ih => exact ih (modTeam (h.tick.same))

theorem keepSends (h : s.Inv) {xs : List MsSpec} : (s.keepSends xs).Inv := h.modGrp

theorem msSend (h : s.Inv) {g : Group} {q : BitVec 6} {xs : List MsSpec} : (s.msSend g q xs).Inv := by
  unfold State.msSend
  split
  · exact h.keepSends
  · exact h.sendAll.pump.putStatus

theorem msWord (h : s.Inv) {atom : Bool} {e : EF} {n : Nat} : OutInv (s.msWord atom e n) := by
  refine h.asE (fun t g => ?_)
  extract_lets kept
  clear_value kept
  split
  · exact h.msSend
  · split
    · trivial
    · split
      · trivial
      · split
        · exact h
        · split
          · trivial
          · trivial
          · next r hr =>
            have h1 : r.1.Inv := h.readCmds hr
            refine gated ?_
            split
            · exact h1.fin
            · exact h1.msSend

theorem execMsred (h : s.Inv) {e : EF} {n : Fin 16} : OutInv (execMsred e n s) := h.msWord

theorem execMsatom (h : s.Inv) {e : EF} {n : Fin 16} : OutInv (execMsatom e n s) := h.msWord

theorem execMspoll (h : s.Inv) {q : BitVec 6} {c : Fin 4} : OutInv (execMspoll q c s) := by
  refine h.asE (fun t g => ?_)
  extract_lets x
  split
  · exact h.putStatus.acquire
  · exact h.fin

theorem execMswait (h : s.Inv) {e : EF} {c : Fin 4} : OutInv (execMswait e c s) := by
  refine h.asE (fun t g => ?_)
  extract_lets x v
  split
  · exact h.putStatus.acquire
  · exact h

/-! ## Contexts -/

theorem tryVA (h : s.Inv) {core space va : Nat} {bs : List Byte} : (s.tryVA core space va bs).Inv := by
  unfold State.tryVA
  split
  · next hw => exact h.writeVA hw
  · exact h

theorem putImage (h : s.Inv) {core space base : Nat} {xs : List (Nat × (List Byte ⊕ Nat))} :
    (s.putImage core space base xs).Inv := by
  induction xs generalizing s with
  | nil => exact h
  | cons x xs ih =>
    obtain ⟨off, bs | n⟩ := x
    · exact ih h.tryVA
    · exact ih (tryVA (h.same (s' := { s with fresh := s.fresh + n })))

theorem sealImage (h : s.Inv) {core space base n : Nat} : (s.sealImage core space base n).Inv := by
  unfold State.sealImage
  split
  · exact h.tryVA
  · exact h

theorem putShadow (h : s.Inv) {core space base off n : Nat} {bad : List Nat} {bs : List Byte} :
    (s.putShadow core space base bad off n bs).Inv := by
  induction n generalizing s off bs with
  | zero => exact h
  | succ n ih =>
    unfold State.putShadow
    extract_lets page lost s'
    refine ih ?_
    unfold s'
    split
    · exact h.tryVA
    · refine foldl (fun s x h => ?_) _ h.count
      split
      · exact h
      · exact h.tryVA

theorem pauseChan (h : s.Inv) {t : Team} {ch : Nat} : (s.pauseChan t ch).Inv := by
  unfold State.pauseChan
  extract_lets c
  split
  · exact h
  · split
    · exact h.ringDrop
    · extract_lets ctl
      split
      · exact h.stopRecord
      · split
        · exact h.chanStop
        · next hw => exact (h.writeVA hw).fixShapes.freeEntries.ringDrop.modChan

theorem unload (h : s.Inv) {t : Team} : (s.unload t).Inv := modTeam h.same

theorem flushTeam (h : s.Inv) {t : Team} : (s.flushTeam t).Inv := by
  unfold State.flushTeam
  split
  · exact h.relSelf.relSelf
  · exact h.relSelf

theorem saveRest (h : s.Inv) {t : Team} {l : Launch} {hold : Bool} : (s.saveRest t l hold).Inv := by
  unfold State.saveRest
  extract_lets s1 s2
  have h1 : s1.Inv := foldl (fun _ _ h => h.pauseChan) _ h
  have h2 : s2.Inv := h1.unload.modTeam
  split
  · exact h2
  · exact (h2.putImage.sealImage.putShadow.modTeam_win (fun _ _ => rfl)).switched

theorem saveTeam (h : s.Inv) {t : Team} {hold : Bool} {j q : Nat} : (s.saveTeam t hold j q).Inv := by
  unfold State.saveTeam
  extract_lets gid s1
  have h1 : s1.Inv := h.leaveTrap
  split
  · split
    · exact h1.modGrp.saveRest
    · exact h1.modGrp
  · exact h1

theorem execContextSaveComplete (h : s.Inv) {id : TeamId} : OutInv (execContextSaveComplete id s) := by
  change State.Inv (match s.team? id with | some t => _ | none => _)
  split
  · split
    · split
      · extract_lets s1
        have h1 : s1.Inv := h.flushTeam
        split
        · exact h1
        · exact h1.saveTeam
      · exact h
    · exact h
  · exact h

theorem execCtxsave (h : s.Inv) {e : EF} : OutInv (execCtxsave e s) := by
  refine h.asE (fun t g => ?_)
  extract_lets p undo
  have hu : undo.Inv := h.modTeam
  split
  · trivial
  · split
    · exact h.fin
    · split
      · exact hu.fin
      · trivial
      · split
        · trivial
        · split
          · exact h.fin
          · exact h.modTeam.modGrp.block

end

end State.Inv

theorem State.importTeam_win {s : State} {id : TeamId} {l : Launch} {t : Team} (h : s.importTeam id l = some t) : t.win = [] := by
  unfold State.importTeam at h
  split at h
  · cases h
  · cases h
    rfl

theorem State.heldTeam_win {s : State} (h : s.Inv) {core space va : Nat} {t : Team} {l : Launch}
    (hheld : s.heldTeam core space va = some (t, l)) : Memory.wf t.win = true := by
  have hname : ∃ id l', (s.team? id).or (s.importTeam id l') = some t := by
    unfold State.heldTeam at hheld
    split at hheld
    · cases hheld
    · split at hheld
      · cases hheld
      · extract_lets id at hheld
        split at hheld
        · next l' _ =>
          split at hheld
          · next u hu =>
            split at hheld
            · split at hheld
              · split at hheld
                · cases hheld
                  exact ⟨id, l, hu⟩
                · cases hheld
              · cases hheld
            · cases hheld
          · cases hheld
        · cases hheld
  obtain ⟨id, l', hor⟩ := hname
  rcases Option.or_eq_some_iff.1 hor with ht | ⟨-, himp⟩
  · exact h.win ht
  · rw [State.importTeam_win himp]
    rfl

namespace State.Inv

section
variable {s : State}

theorem enterHeld (h : s.Inv) {t : Team} {l : Launch} (ht : Memory.wf t.win = true) : (s.enterHeld t l).Inv := by
  unfold State.enterHeld
  split
  · exact reload (h.addTeam (t := { t with loc := .saved }) ht)
  · exact h.modTeam

theorem execCtxload (h : s.Inv) {e : EF} : OutInv (execCtxload e s) := by
  refine h.asE (fun t g => ?_)
  split
  · trivial
  · extract_lets va
    split
    · exact h.fin
    · next hheld =>
      split
      · exact h
      · split
        · exact h
        · split
          · exact h.fin
          · next hw => exact (((h.writeVA hw).sealImage).enterHeld (State.heldTeam_win h hheld)).fin

/-! ## What the host and the fabric do -/

theorem execCleanerWriteback (h : s.Inv) {core pa : Nat} : OutInv (execCleanerWriteback core pa s) := h.writeBack

theorem execRegionMerge (h : s.Inv) {pa size : Nat} : OutInv (execRegionMerge pa size s) := by
  unfold Sys2Proof.Machine.execRegionMerge
  extract_lets half at_
  change State.Inv (match at_ pa, at_ (pa + half) with | some a, some b => _ | _, _ => _)
  split
  · split
    · exact h
    · exact h
  · exact h

theorem poisonDirty (h : s.Inv) {core : Nat} : (s.poisonDirty core).Inv := ⟨Memory.foldl_write_wf _ _ _ h.1, h.2⟩

theorem scrubCore (h : s.Inv) {core : Nat} : (s.scrubCore core).Inv := h.poisonDirty.same

theorem declareDead (h : s.Inv) {agent home : Nat} : (s.declareDead agent home).Inv := by
  unfold State.declareDead
  extract_lets dying s1 s2
  have h1 : s1.Inv := foldl (fun _ _ h => h.scrubCore) _ h.count
  have h2 : s2.Inv := foldl (fun _ _ h => h.teamLost) _ h1
  split
  · exact h2
  · exact h2

theorem execDeadAgentDeclared (h : s.Inv) {core : Nat} : OutInv (execDeadAgentDeclared core s) := by
  change State.Inv (match (s.core core).silent with | none => _ | some r => _)
  split
  · exact h
  · split
    · exact h
    · exact h.declareDead

theorem silence (h : s.Inv) {agent wheel : Nat} : (s.silence agent wheel).Inv := by
  unfold State.silence
  extract_lets shares
  split
  · exact h
  · exact h.modCore

theorem execStaleResponseDrop (h : s.Inv) {wheel : Nat} : OutInv (execStaleResponseDrop wheel s) := by
  change State.Inv (if _ then _ else _)
  split
  · exact h.modWheel
  · exact h

theorem execHostCxlAccess (h : s.Inv) {pa n : Nat} {write : Option (List Byte)} : OutInv (execHostCxlAccess pa write n s) := by
  unfold Sys2Proof.Machine.execHostCxlAccess
  extract_lets size w
  clear_value size
  split
  · exact h
  · next hold s1 s2 _ =>
    have hold_inv : ∀ u : State, u.Inv → (hold u).Inv := by
      intro u hu
      unfold hold
      split
      · exact hu
      · exact hu
    split
    · have h1 : s1.Inv := by
        unfold s1
        split
        · exact h.countBad
        · exact h
      exact hold_inv _ (giveBack (s := s2) h1)
    · split
      · exact h.count
      · split
        · change State.Inv (if _ then _ else _)
          split
          · exact h
          · exact h.holdWrite
        · split
          · exact h
          · exact hold_inv _ h.perform

theorem execBackInvalidateAnswer (h : s.Inv) {pa : Nat} : OutInv (execBackInvalidateAnswer pa s) := by
  change State.Inv (match s.snoops.find? (fun x => x.line == lineOf pa) with | none => _ | some x => _)
  split
  · exact h
  · exact foldl (fun _ _ h => h.writeLine) _ h.same

theorem execBackInvalidateTimeout (h : s.Inv) {pa : Nat} : OutInv (execBackInvalidateTimeout pa s) := by
  change State.Inv (match s.snoops.find? (fun x => x.line == lineOf pa) with | none => _ | some x => _)
  split
  · exact h
  · split
    · exact h
    · exact (h.same.count).count

theorem execRangeEntryFreed (h : s.Inv) {core id : Nat} : OutInv (execRangeEntryFreed core id s) := by
  change State.Inv (match (s.core core).ranges.find? (fun e => e.id == id) with | some e => _ | none => _)
  split
  · split
    · exact h.freeEntries
    · exact h
  · exact h

/-! ## The system registers -/

theorem execSysrd (h : s.Inv) {d : BitVec 6} {r : BitVec 8} : OutInv (execSysrd d r s) := by
  refine h.uWord (fun t g => ?_)
  split
  · trivial
  · exact h.modGrp

theorem writeFairness (h : s.Inv) {core : Nat} {v : Reg} : (s.writeFairness core v).Inv := by
  unfold State.writeFairness
  extract_lets n
  split
  · exact h.modCore
  · exact h

theorem writeMclk (h : s.Inv) {w : Nat} {v : Reg} : (s.writeMclk w v).Inv := by
  unfold State.writeMclk
  extract_lets n
  split
  · exact h.modWheel
  · exact h

theorem Team.writeStatus_win (t : Team) (v : Reg) : (t.writeStatus v).win = t.win := by
  unfold Team.writeStatus
  rfl

theorem writeStatus (h : s.Inv) {t : TeamId} {v : Reg} : (s.writeStatus t v).Inv := h.modTeam (fun t => Team.writeStatus_win t v)

theorem sysWrite (h : s.Inv) {t : Team} {g : Group} {r : Nat} {v : Reg} : (s.sysWrite t g r v).Inv := by
  unfold State.sysWrite
  extract_lets w
  split_ifs
  · exact h.writeFairness
  · exact h
  · exact h.modWheel
  · exact h.modWheel
  · exact h.writeMclk
  · exact h.writeStatus
  · exact h.modWheel
  · exact h

theorem execSyswr (h : s.Inv) {a : BitVec 6} {r : BitVec 8} : OutInv (execSyswr a r s) := by
  refine h.uWord (fun t g => ?_)
  split
  · trivial
  · exact h.sysWrite

theorem execFairnessWrite (h : s.Inv) {core : Nat} {v : Reg} : OutInv (execFairnessWrite core v s) := h.writeFairness

theorem execMclkratioWrite (h : s.Inv) {wheel : Nat} {v : Reg} : OutInv (execMclkratioWrite wheel v s) := h.writeMclk

theorem execMclkratioTake (h : s.Inv) {wheel : Nat} : OutInv (execMclkratioTake wheel s) := h.takeMclk

theorem execStatusWrite (h : s.Inv) {t : TeamId} {v : Reg} : OutInv (execStatusWrite t v s) := h.writeStatus

theorem execTrap (h : s.Inv) {code : BitVec 8} : OutInv (execTrap code s) := by
  refine h.asWord (fun t g => ?_)
  extract_lets lower
  split
  · exact h.takeTrap
  · exact h.modGrp

theorem execTret (h : s.Inv) : OutInv (execTret s) := by
  refine h.asWord (fun t g => ?_)
  split
  · trivial
  · exact h.leaveTrap

theorem execClock (h : s.Inv) {d : BitVec 6} : OutInv (execClock d s) := h.uSet

theorem execCapq (h : s.Inv) {d : BitVec 6} {k : Fin 5} : OutInv (execCapq d k s) := h.uWord (fun _ _ => h.modGrp)

/-! ## The host interface -/

theorem complete (h : s.Inv) {code reason id : Nat} : (s.complete code reason id).Inv := h

theorem refuseFree (h : s.Inv) : s.refuseFree.Inv := h

theorem hostBytes (h : s.Inv) {pa n : Nat} : (s.hostBytes pa n).1.Inv := by
  unfold State.hostBytes
  split
  · exact h.countBad
  · exact h

theorem hostEnter (h : s.Inv) {s0 : State} (h0 : s0.Inv) {wheel : Nat} {l : Launch} : (State.hostEnter s0 s wheel l).Inv := by
  unfold State.hostEnter
  have he : (s.enterNode (Config.cores + wheel) wheel l).Inv := h.enterNode
  split
  · exact h.complete
  · split
    · exact h.complete
    · exact h.complete
    · exact h0
    · next heq =>
      rw [heq] at he
      exact he.complete

theorem execLaunch (h : s.Inv) : OutInv (execLaunch s) := by
  change State.Inv (match s.headCmd (· == 0) with | none => _ | some v => _)
  split
  · exact h
  · extract_lets wheel pa
    split
    · exact h.complete
    · split
      · exact h.complete
      · split
        · exact h
        · next r r2 rec_ _ _ _ =>
          have h1 : r.1.Inv := h.hostBytes
          have h2 : r2.1.Inv := by
            unfold r2
            split
            · exact h1.hostBytes
            · exact h1
          split
          · exact h
          · have hc := h2.checkLaunch (by_ := hostIssuer) (core := Config.cores + wheel) (r := rec_)
            split
            · next heq =>
              rw [heq] at hc
              exact hc.complete
            · next heq =>
              rw [heq] at hc
              exact hc.complete
            · next heq =>
              rw [heq] at hc
              exact hc.hostEnter h

theorem execCreate (h : s.Inv) : OutInv (execCreate s) := by
  change State.Inv (match s.headCmd (· == 1) with | none => _ | some v => _)
  split
  · exact h
  · next v _ =>
    extract_lets pa r s' b space import_
    have h1 : s'.Inv := h.hostBytes
    split
    · exact h.refuseFree
    · split
      · exact h
      · split
        · exact h1.refuseFree
        · split
          · exact h1.refuseFree
          · split
            · exact h1.complete
            · split
              · exact h.sendSnoop
              · split
                · exact h
                · exact (homeWriteN h1.same).complete

theorem execDestroy (h : s.Inv) : OutInv (execDestroy s) := by
  change State.Inv (match s.headCmd (· == 2) with | none => _ | some v => _)
  split
  · exact h
  · next v _ =>
    extract_lets pa r s' space
    have h1 : s'.Inv := h.hostBytes
    split_ifs
    · exact h.refuseFree
    · exact h
    · exact h1.complete
    · exact h1.complete
    · exact h1.same.complete

theorem execLaunchReservedCmd (h : s.Inv) : OutInv (execLaunchReservedCmd s) := by
  change State.Inv (match s.headCmd (fun c => decide (3 ≤ c)) with | none => _ | some _ => _)
  split
  · exact h
  · exact h.complete

theorem readNone (h : s.Inv) : s.readNone.Inv := by
  unfold State.readNone
  split
  · exact h
  · exact h

theorem execLstatRead (h : s.Inv) : OutInv (execLstatRead s) := by
  change State.Inv (if _ then _ else _)
  split
  · exact h
  · exact h.readNone

theorem tdeadaRead (h : s.Inv) : s.tdeadaRead.Inv := by
  unfold State.tdeadaRead
  split
  · exact h
  · exact h

theorem execTdeadaRead (h : s.Inv) : OutInv (execTdeadaRead s) := by
  change State.Inv (if _ then _ else _)
  split
  · exact h.tdeadaRead
  · exact h.readNone

theorem hostRegRead (h : s.Inv) {off : Nat} : (s.hostRegRead off).Inv := by
  unfold State.hostRegRead
  split_ifs
  · exact h.readNone
  · exact h
  · exact h
  · exact h.tdeadaRead
  · exact h
  · exact h

theorem execHeventWrite (h : s.Inv) {v : Reg} : OutInv (execHeventWrite v s) := by
  refine foldl (fun s t h => ?_) _ h
  split
  · exact h.modGrp
  · exact h.modTeam

theorem execFgrpDefine (h : s.Inv) {v : Reg} : OutInv (execFgrpDefine v s) := by
  change State.Inv (if _ then _ else _)
  split
  · exact h
  · exact h

theorem execFgrpRemove (h : s.Inv) {v : Reg} : OutInv (execFgrpRemove v s) := by
  change State.Inv (if _ then _ else _)
  split
  · refine foldl (fun s t h => foldl (fun s k h => ?_) _ h) _ h.same
    split
    · exact h.collStop
    · exact h
  · exact h

/-! ## Resets and records -/

theorem keep : s.keep.Inv := ⟨rfl, List.forall_mem_nil _⟩

theorem record (h : s.Inv) {e : RecEvent} {f : State → State} (hf : (f s).Inv) : (s.record e f).Inv := by
  unfold State.record
  split
  · exact h
  · exact hf

theorem recordRetired (h : s.Inv) {chans : List Nat} {rows : List (Nat × Nat)} : (s.recordRetired chans rows).Inv :=
  foldl (fun _ _ h => h.record h.same) _ (foldl (fun _ _ h => h.record h.same) _ h)

theorem bringUpAs {wset : Nat} {up : BringUp} : (s.bringUpAs wset up).Inv := keep.recordRetired.same

theorem execBringUp (h : s.Inv) {up : BringUp} : OutInv (execBringUp up s) := by
  change State.Inv (if _ then _ else _)
  split
  · exact h
  · exact bringUpAs

theorem execPartitionReset (h : s.Inv) {up : BringUp} : OutInv (execPartitionReset up s) := by
  change State.Inv (if _ then _ else _)
  split
  · exact bringUpAs
  · exact h

theorem execPartitionSetup (h : s.Inv) {ws : List Nat} {up : BringUp} : OutInv (execPartitionSetup ws up s) := by
  change State.Inv (if _ then _ else _)
  split
  · extract_lets low wset s1
    split
    · exact h
    · exact bringUpAs
  · exact h

theorem execPowerRemoval : OutInv (execPowerRemoval s) := (keep (s := s)).same

theorem execSpdmAttestation (h : s.Inv) : OutInv (execSpdmAttestation s) := h

theorem execKeyStoreAdd (h : s.Inv) {keyId x y : Nat} : OutInv (execKeyStoreAdd keyId x y s) := by
  change State.Inv (if _ then _ else _)
  split
  · exact record (h.same) h.same
  · exact h

theorem execKeyStoreRevoke (h : s.Inv) {keyId : Nat} : OutInv (execKeyStoreRevoke keyId s) := by
  change State.Inv (if _ then _ else _)
  split
  · exact record (h.same) h.same
  · exact h

theorem execPersistentRecordClear (h : s.Inv) {port : Bool} {unit part : Nat} : OutInv (execPersistentRecordClear port unit part s) := by
  change State.Inv (if _ then _ else if _ then _ else _)
  split
  · exact h
  · split
    · exact h
    · exact h

theorem portError (h : s.Inv) {core port : Nat} {fixed : Bool} : (s.portError core port fixed).Inv := by
  unfold State.portError
  split
  · exact h.count
  · exact (modCore h.same).count

theorem poisonByte (h : s.Inv) {pa : Nat} : (s.poisonByte pa).Inv := by
  unfold State.poisonByte
  split
  · split
    · exact h
    · exact h
  · split
    · exact h
    · exact h

theorem selfPoison (h : s.Inv) {core pa : Nat} : (s.selfPoison core pa).Inv := h.modCore

theorem scrPoison (h : s.Inv) {t : TeamId} {off : Nat} : (s.scrPoison t off).Inv := by
  refine h.modTeam (fun t => ?_)
  split
  · rfl
  · rfl

theorem execPortFailRecord (h : s.Inv) {core port : Nat} : OutInv (execPortFailRecord core port s) := by
  change State.Inv (if _ then _ else _)
  split
  · exact h.record h.same
  · exact h

theorem execChannelFence (h : s.Inv) {stack chan : Nat} : OutInv (execChannelFence stack chan s) := by
  unfold Sys2Proof.Machine.execChannelFence
  extract_lets c
  change State.Inv (if _ then _ else _)
  split
  · next s1 s2 _ =>
    have h1 : s1.Inv := by
      unfold s1
      split
      · exact h
      · exact h.record h.same
    exact count (s := s2) h1
  · exact h

theorem execScrub (h : s.Inv) {pa : Nat} : OutInv (execScrub pa s) := h

theorem execLinkErrorRetry (h : s.Inv) {wheel : Nat} {cxl : Bool} : OutInv (execLinkErrorRetry wheel cxl s) := h.count

theorem execThrottleEvent (h : s.Inv) {wheel clk25 reason ratio : Nat} : OutInv (execThrottleEvent wheel clk25 reason ratio s) := by
  change State.Inv (if _ then _ else _)
  split
  · exact modWheel (h.writeMclk.same)
  · exact h

theorem execThrottleCauseEnd (h : s.Inv) {wheel bit : Nat} : OutInv (execThrottleCauseEnd wheel bit s) := h.modWheel

/-! ## The key lookup unit -/

theorem freeTable (h : s.Inv) {vat n : Nat} : (s.freeTable vat n).Inv := h.modVat

theorem pktabRead (h : s.Inv) {vat pages : Nat} {t : KlTable} : (s.pktabRead vat pages t).Inv := by
  unfold State.pktabRead
  extract_lets total r waits
  have hr : r.1.Inv := h.readPages
  exact hr.modVat

theorem pktabPage (h : s.Inv) {vat n : Nat} : (s.pktabPage vat n).Inv := by
  unfold State.pktabPage
  split
  · exact h.pktabRead
  · exact h

theorem execKlTableLoadFinish (h : s.Inv) {vat n : Nat} : OutInv (execKlTableLoadFinish vat n s) := by
  change State.Inv (match s.pktabOf vat n with | some t => _ | none => _)
  split
  · exact h.pktabRead
  · exact h

theorem pktabLoad (h : s.Inv) {t : Team} {g : Group} {q : BitVec 6} {n va : Nat} : (s.pktabLoad t g q n va).Inv := by
  unfold State.pktabLoad
  extract_lets vat v
  split
  · exact h.fin
  · refine h.reading (fun u bs hu => ?_)
    extract_lets img m hd gran
    split
    · exact hu.fin
    · split
      · exact hu.fin
      · exact hu.freeTable.modVat

theorem pktabSeen (h : s.Inv) {g : Group} {q : BitVec 6} {n : Nat} : (s.pktabSeen g q n).Inv := by
  unfold State.pktabSeen
  split
  · exact h.fin
  · split
    · trivial
    · split
      · exact h
      · split
        · exact h.fin
        · exact h.fin

theorem execPktab (h : s.Inv) {e : EF} {n : Fin 16} : OutInv (execPktab e n s) := by
  refine h.asE (fun t g => ?_)
  extract_lets p v
  split
  · split
    · exact h.fin
    · exact h.fin
  · split
    · split
      · exact h.fin
      · split
        · exact h.fin
        · exact h.freeTable.fin
    · split
      · split
        · exact h
        · exact h.releasing (fun _ hu => hu.pktabLoad)
      · exact h.pktabSeen

theorem modKl (h : s.Inv) {t : TeamId} {n : Nat} {f : KlTag → KlTag} : (s.modKl t n f).Inv := h.modTeam

theorem klEnqueue (h : s.Inv) {t : Team} {g : Group} {q : BitVec 6} {tag qn : Nat} {o : KlOp} {r : Res}
    (hr : s.klEnqueue t g q tag o qn = some r) : r.Inv := by
  unfold State.klEnqueue at hr
  extract_lets vat pos place at hr
  split at hr
  · cases hr
  · split at hr
    · cases hr
    · next hx =>
      split at hr
      · cases hr
      · next hy =>
        cases hr
        exact (((h.addEntries hx).addEntries hy).tick.modVat.modKl).fin

theorem klStart (h : s.Inv) {grad : Bool} {t : Team} {g : Group} {q : BitVec 6} {tag : Nat} {bs : List Byte} :
    (s.klStart grad t g q tag bs).Inv := by
  unfold State.klStart
  extract_lets f tabs qn query places
  clear_value places tabs
  split
  · trivial
  · split
    · exact h.fin
    · split
      · exact h.fin
      · split
        · exact h.fin
        · split
          · next hr => exact h.klEnqueue hr
          · exact h.waitWith

theorem klWord (h : s.Inv) {grad : Bool} {e : EF} {tag : Nat} : OutInv (s.klWord grad e tag) := by
  refine h.asE (fun t g => ?_)
  split
  · exact h.klStart
  · split
    · trivial
    · split
      · exact h
      · split
        · trivial
        · exact gated h.winBlock.klStart

theorem execPklook (h : s.Inv) {e : EF} {tag : Fin 4} : OutInv (execPklook e tag s) := h.klWord

theorem execPkgrad (h : s.Inv) {e : EF} {tag : Fin 4} : OutInv (execPkgrad e tag s) := h.klWord

theorem execPkwait (h : s.Inv) {q : BitVec 6} {x : BitVec 5} {tag : Fin 4} : OutInv (execPkwait q x tag s) := by
  refine h.asE (fun t g => ?_)
  extract_lets y
  split
  · exact h
  · split
    · exact h.putStatus.acquire
    · exact h.fin

theorem klStop (h : s.Inv) {o : KlOp} {f : MsFault} : (s.klStop o f).Inv := h.modKl.pendAt

theorem klOut (h : s.Inv) {o : KlOp} {off : Nat} {ws : List Nat} : (s.klOut o off ws).Inv := by
  unfold State.klOut
  split
  · exact h.winWrite
  · exact h

theorem klIn (h : s.Inv) {o : KlOp} {offs : List Nat} : (s.klIn o offs).1.Inv := by
  unfold State.klIn
  split
  · exact h.winElems
  · exact h

theorem klSend (h : s.Inv) {core : Nat} {o : KlOp} {head : List Part} {rows : List (List Part)} {tpa : Option Nat} {g : List Nat}
    {xs : List MsSpec} {n : Nat} : (s.klSend core o head rows tpa g xs n).Inv := by
  induction xs generalizing s rows n with
  | nil => exact h.modKl
  | cons x xs ih => exact ih h.tick.modVat

theorem klLook (h : s.Inv) {t : Team} {o : KlOp} {t1 t2 : KlTable} : (s.klLook t o t1 t2).Inv := by
  unfold State.klLook
  extract_lets r0 l1 l2 cand ws s1 s2 s3 s4 s5 rs
  have h0 : r0.1.Inv := by
    unfold r0
    split
    · exact h.winElems
    · exact h
  have h1 : s1.Inv := foldl (fun _ _ h => h.meetSram) _ h0
  have h5 : s5.Inv := h1.klOut.klOut.klOut.freeEntries
  clear_value rs s5
  split
  · exact h5.klStop
  · split
    · exact h5.klStop
    · exact h5.klSend

theorem klRow (h : s.Inv) {o : KlOp} {core : Nat} {ps : List Part} : (s.klRow o core ps).1.Inv := h.readParts

theorem klCands (h : s.Inv) {o : KlOp} : (s.klCands o).1.Inv := h.klIn.klIn.klIn.klIn

/-- The rows of a gradient read one after the other. -/
theorem klRowsRead (h : s.Inv) {o : KlOp} {core : Nat} {rows : List (List Part)} {vs : List (List Nat)} :
    (rows.foldl (fun (a : State × List (List Nat)) ps =>
      let y := a.1.klRow o core ps
      (y.1, a.2 ++ [y.2])) (s, vs)).1.Inv := by
  induction rows generalizing s vs with
  | nil => exact h
  | cons ps rows ih => exact ih h.klRow

theorem klGrad (h : s.Inv) {t : Team} {o : KlOp} {t1 : KlTable} : (s.klGrad t o t1).Inv := by
  unfold State.klGrad
  extract_lets c s1 rs ws
  have h1 : s1.Inv := h.klCands
  split
  · exact h1.freeEntries.klStop
  · split
    · exact h1.freeEntries.klStop
    · extract_lets g xs dw a ds s2 s3 s4 s5
      have hx : xs.1.Inv := h1.klRow.klRowsRead
      have h2 : s2.Inv := foldl (fun _ _ h => h.klOut) _ hx
      exact h2.klOut.klOut.freeEntries.klSend

theorem execKlAccept (h : s.Inv) {vat : Nat} : OutInv (execKlAccept vat s) := by
  unfold Sys2Proof.Machine.execKlAccept
  extract_lets v
  split
  · exact h
  · split
    · split
      · exact h
      · extract_lets s1
        have h1 : s1.Inv := h.modVat
        refine klPushes ?_
        split
        · exact h1.klGrad
        · exact h1.klLook
    · exact h.modVat

theorem execKlOperationComplete (h : s.Inv) {t : TeamId} {tag : Nat} : OutInv (execKlOperationComplete t tag s) := by
  unfold Sys2Proof.Machine.execKlOperationComplete
  split
  · exact h
  · next tm _ =>
    extract_lets x
    split
    · exact h
    · next s1 _ =>
      have h1 : s1.Inv := h.modKl
      change State.Inv (match x.tctr with | some a => _ | none => _)
      split
      · exact h1.engineDecr
      · exact h1

theorem klPoison (h : s.Inv) {vat n i : Nat} : (s.klPoison vat n i).Inv := h.modVat

/-! ## Shootdowns and migrations -/

theorem shootRemove (h : s.Inv) {x : Shoot} : (s.shootRemove x).1.Inv := by
  have h0 := foldl (f := fun s c => (s.cleanCore c).modCore c (fun k => { k with tlb := k.tlb.filter (fun e => !x.hits e) }))
    (fun _ _ h => h.cleanCore.modCore) (s.cores.map (·.num)) h
  exact h0.same

theorem shootStep (h : s.Inv) {x : Shoot} {r : State × Option Shoot} (hr : s.shootStep x = some r) : r.1.Inv := by
  unfold State.shootStep at hr
  split at hr
  · cases hr
    exact h.shootRemove
  · split at hr
    · cases hr
      exact h
    · cases hr

theorem shootFirst (h : s.Inv) {n : Nat} {done xs : List Shoot} {r : State × List Shoot} (hr : s.shootFirst n done xs = some r) :
    r.1.Inv := by
  induction n generalizing done xs with
  | zero => cases hr
  | succ n ih =>
    cases xs with
    | nil => cases hr
    | cons x xs =>
      unfold State.shootFirst at hr
      extract_lets blocked at hr
      clear_value blocked
      split at hr
      · next hx =>
        cases hr
        split at hx
        · cases hx
        · exact h.shootStep hx
      · exact ih hr

theorem execShootComplete (h : s.Inv) : OutInv (execShootComplete s) := by
  change State.Inv (match s.shootFirst Config.shootLimit [] s.shoots with | some r => _ | none => _)
  split
  · next hr => exact (h.shootFirst hr).same
  · exact h

theorem execShoot (h : s.Inv) {e : EF} {sz : ShootSize} : OutInv (execShoot e sz s) := by
  refine h.asE (fun t g => ?_)
  split
  · trivial
  · extract_lets va mine
    split
    · refine h.releasing (fun u hu => ?_)
      extract_lets x
      split
      · exact hu
      · exact hu
    · split
      · change State.Inv (if _ then _ else _)
        split
        · exact h
        · exact h
      · exact h.putStatus.acquire

theorem migWait (h : s.Inv) {old : Nat} : (s.migWait old).Inv := h

theorem lockPage (h : s.Inv) {pa n : Nat} : (s.lockPage pa n).Inv := h.giveBack.same

theorem copyPage (h : s.Inv) {m : MigBlock} : (s.copyPage m).Inv :=
  ⟨Memory.foldl_write_wf _ _ _ (Memory.filter_wf _ h.1), h.2⟩

theorem copyHeld (h : s.Inv) {m : MigBlock} : (s.copyHeld m).Inv := foldl (fun _ _ h => h.snoopWrite) _ h

theorem migStart (h : s.Inv) {m : MigBlock} : (s.migStart m).Inv := h.lockPage.lockPage.copyPage.copyHeld.same

theorem migSeen (h : s.Inv) {t : Team} {g : Group} {q : BitVec 6} : (s.migSeen t g q).Inv := by
  unfold State.migSeen
  extract_lets me out
  have ho : out.Inv := h
  split
  · change State.Inv (if _ then _ else _)
    split
    · exact ho
    · exact h
  · exact ho.putStatus.acquire

theorem migWord (h : s.Inv) {e : EF} {f : State → Team → Group → List Byte → Res}
    (hf : ∀ (u : State) (t : Team) (g : Group) (bs : List Byte), u.Inv → (f u t g bs).Inv) : OutInv (s.migWord e f) := by
  refine h.asE (fun t g => ?_)
  split
  · trivial
  · split
    · exact h.migSeen
    · extract_lets va
      split
      · exact h.fin
      · exact h.reading (fun u bs hu => hf u t g bs hu)

theorem execMigrateGo (h : s.Inv) {e : EF} : OutInv (execMigrateGo e s) := by
  refine h.migWord (fun u t g bs hu => ?_)
  extract_lets m
  split
  · exact hu.fin
  · split
    · exact hu.fin
    · exact hu.migStart.migWait

theorem execMigrateWait (h : s.Inv) {e : EF} : OutInv (execMigrateWait e s) := by
  refine h.migWord (fun u t g bs hu => ?_)
  extract_lets old
  split
  · exact hu.fin
  · split
    · exact hu.putStatus.acquire
    · exact hu.migWait

theorem execMigrateEnd (h : s.Inv) {e : EF} : OutInv (execMigrateEnd e s) := by
  refine h.migWord (fun u t g bs hu => ?_)
  extract_lets old
  split
  · exact hu.same.fin
  · exact hu.fin

theorem execMigrationSwitch (h : s.Inv) {old : Nat} : OutInv (execMigrationSwitch old s) := by
  unfold Sys2Proof.Machine.execMigrationSwitch
  split
  · exact h
  · split
    · change State.Inv (if _ then _ else _)
      split
      · exact h.sendSnoop
      · exact h
    · exact foldl (fun _ _ h => h.writeLine) _ (homeWriteL h.same)

/-! ## The dispatcher -/

theorem restoreAll (h : s.Inv) {n : Node} {ts : List Team} : (s.restoreAll n ts).Inv := by
  induction ts generalizing s with
  | nil => exact h
  | cons t ts ih =>
    unfold State.restoreAll
    split
    · exact ih h.restoreTeam
    · exact ih h

theorem startAll (h : s.Inv) {n : Node} {idx k : Nat} : (s.startAll n idx k).1.Inv := by
  induction k generalizing s idx with
  | zero => exact h
  | succ k ih =>
    unfold State.startAll
    split
    · exact ih h
    · split
      · exact ih h.startTeam
      · exact h

theorem startQuad (h : s.Inv) {n : Node} {vat idx k : Nat} {r : State} (hr : s.startQuad n vat idx k = some r) : r.Inv := by
  induction k generalizing s idx with
  | zero => cases hr; exact h
  | succ k ih =>
    unfold State.startQuad at hr
    split at hr
    · exact ih h hr
    · split at hr
      · exact ih h.startTeam hr
      · cases hr

theorem startGang (h : s.Inv) {n : Node} {m k : Nat} {vats : List Nat} {r : State × List (Nat × Nat)}
    (hr : s.startGang n m vats k = some r) : r.1.Inv := by
  induction k generalizing s m vats r with
  | zero => cases hr; exact h
  | succ k ih =>
    unfold State.startGang at hr
    extract_lets size at hr
    split at hr
    · cases hr
    · next v s' hv =>
      obtain ⟨w, -, hw⟩ := List.exists_of_findSome?_eq_some hv
      split at hw
      · cases hw
      · obtain ⟨u, hu, heq⟩ := Option.map_eq_some_iff.mp hw
        cases heq
        split at hr
        · cases hr
        · next x hx =>
          cases hr
          exact ih (r := x) (h.startQuad hu) hx

theorem startNew (h : s.Inv) {n : Node} {r : State} (hr : s.startNew n = some r) : r.Inv := by
  unfold State.startNew at hr
  extract_lets s0 x at hr
  have h0 : s0.Inv := by
    unfold s0
    split
    · exact h.icinvBody
    · exact h
  split at hr
  · cases hr
  · split at hr
    · split at hr
      · next hx =>
        cases hr
        exact (h0.startGang hx).modNode
      · cases hr
    · split at hr
      · cases hr
      · cases hr
        exact h0.startAll.modNode

theorem placeNode (h : s.Inv) {n : Node} {r : State} (hr : s.placeNode n = some r) : r.Inv := by
  unfold State.placeNode at hr
  extract_lets saved at hr
  split at hr
  · next s1 _ =>
    have h1 : s1.Inv := h.restoreAll
    cases hr
    cases hx : s1.startNew n with
    | none => exact h1
    | some u => exact h1.startNew hx
  · exact h.startNew hr

theorem execDispatchStep (h : s.Inv) {wheel : Nat} : OutInv (execDispatchStep wheel s) := by
  change State.Inv (if _ then _ else _)
  split
  · refine modWheel ?_
    cases hx : (s.readyNodes wheel).findSome? s.placeNode with
    | none => exact h
    | some u =>
      obtain ⟨n, -, hn⟩ := List.exists_of_findSome?_eq_some hx
      exact h.placeNode hn
  · exact h

theorem without (h : s.Inv) {ts : List Team} : (s.without ts).Inv := ⟨h.1, WinsOk.filter h.2 _⟩

theorem execPreemptForRoom (h : s.Inv) {wheel : Nat} : OutInv (execPreemptForRoom wheel s) := by
  change State.Inv (match s.readyNodes wheel with | [] => _ | n :: _ => _)
  split
  · exact h
  · split
    · exact h
    · split
      · exact h
      · exact h.modTeam.modGrp

theorem execNodeDoneDecrement (h : s.Inv) {node : Nat} : OutInv (execNodeDoneDecrement node s) := by
  change State.Inv (match s.node? node with | some n => _ | none => _)
  split
  · split
    · extract_lets s1 s2
      have h1 : s1.Inv := foldl (fun _ _ h => h.relSelf) _ h
      split
      · exact h1
      · have h2 : s2.Inv := by
          unfold s2
          split
          · exact h1.engineDecr
          · exact h1
        exact h2
    · exact h
  · exact h

theorem execTrapDelivery (h : s.Inv) {g : GrpId} : OutInv (execTrapDelivery g s) := by
  change State.Inv (match s.team? g.team, s.grp? g with | some t, some x => _ | _, _ => _)
  split
  · split
    · exact h.deliver
    · exact h
  · exact h

theorem execDeferredClaimGuard (h : s.Inv) {core half : Nat} : OutInv (execDeferredClaimGuard core half s) := by
  unfold Sys2Proof.Machine.execDeferredClaimGuard
  extract_lets due
  change State.Inv (if _ then _ else _)
  split
  · exact h.modCore
  · exact h

/-! ## Replay -/

theorem dropPark (h : s.Inv) {core id : Nat} : (s.dropPark core id).Inv := h.modCore

theorem modPark (h : s.Inv) {core id : Nat} {f : Park → Park} : (s.modPark core id f).Inv := h.modCore

theorem parkDone (h : s.Inv) {core : Nat} {p : Park} : (s.parkDone core p).Inv := by
  unfold State.parkDone
  extract_lets s1
  have h1 : s1.Inv := h.dropPark
  split
  · exact h1
  · extract_lets s2 s3
    have h2 : s2.Inv := by
      unfold s2
      split
      · exact h1.relSelf
      · exact h1
    have h3 : s3.Inv := by
      unfold s3
      split
      · exact h2.acqSelf
      · exact h2
    split
    · exact h3.modGrp
    · exact h3

theorem replayOne (h : s.Inv) {core space : Nat} {p : Park} : (s.replayOne core space p).Inv := by
  unfold State.replayOne
  split
  · split
    · exact h.dropPark.sendJobs
    · exact h.modPark
  · extract_lets r
    have hr : r.1.Inv := h.replayElems
    split
    · exact hr.parkDone
    · exact hr.modPark

theorem replayAll (h : s.Inv) {core space : Nat} {ps : List Park} : (s.replayAll core space ps).Inv := by
  induction ps generalizing s with
  | nil => exact h
  | cons p ps ih =>
    unfold State.replayAll
    split
    · exact h
    · exact ih h.replayOne

theorem replayOn (h : s.Inv) {core space : Nat} {gid : GrpId} : (s.replayOn core space gid).Inv := h.replayAll.replayAll

theorem dropOne (h : s.Inv) {core : Nat} {p : Park} : (s.dropOne core p).Inv := by
  unfold State.dropOne
  extract_lets s1
  have h1 : s1.Inv := h.dropPark
  split
  · exact h1.countDone
  · exact h1
  · exact modCore h1.same

theorem replayWord (h : s.Inv) {p q : BitVec 6} {x : BitVec 5} {f : Team → Group → List Park → Res}
    (hf : ∀ t g ps, (f t g ps).Inv) : OutInv (s.replayWord p q x f) := by
  refine h.asE (fun t g => ?_)
  split
  · trivial
  · split
    · exact h.fin
    · exact hf _ _ _

theorem selectGo (h : s.Inv) {core : Nat} {sel : List Park} : (s.selectGo core sel).Inv := h.modCore

theorem replayed (h : s.Inv) {core : Nat} {q : BitVec 6} : (s.replayed core q).Inv := h.modCore.putStatus

theorem execReplayGo (h : s.Inv) {e : EF} : OutInv (execReplayGo e s) := by
  refine h.replayWord (fun t g ps => ?_)
  split
  · split
    · exact h
    · exact h.replayed
  · split
    · exact h.fin
    · extract_lets s1 left
      have h1 : s1.Inv := h.selectGo.replayOn
      split
      · exact h1
      · exact h1.replayed

theorem execReplayDrop (h : s.Inv) {p q : BitVec 6} : OutInv (execReplayDrop p q s) := by
  refine h.replayWord (fun t g ps => ?_)
  split
  · exact h.fin
  · exact fin (foldl (fun _ _ h => h.dropOne) _ h)

theorem execReplayList (h : s.Inv) {p q : BitVec 6} : OutInv (execReplayList p q s) := by
  refine h.replayWord (fun t g ps => ?_)
  extract_lets va
  split
  · exact h.fin
  · split
    · trivial
    · split
      · trivial
      · exact h.storeElem.fin

theorem setSlot (h : s.Inv) {t : TeamId} {off : Nat} {x : Slot} : (s.setSlot t off x).Inv := h.winWrite

/-! ## Subscription slots -/

theorem slotFrom (h : s.Inv) {f : Flight} : (s.slotFrom f).Inv := by
  unfold State.slotFrom
  extract_lets ids
  split
  · exact h
  · exact h

theorem land (h : s.Inv) {id : Nat} {want : FlightKind → Bool} {f : State → Flight → State}
    (hf : ∀ (u : State) (x : Flight), u.Inv → (f u x).Inv) : (s.land id want f).Inv := by
  unfold State.land
  split
  · split
    · exact (hf _ _ h.same).drainPushes
    · exact h
  · exact h

theorem execLdsubLanding (h : s.Inv) {id : Nat} : OutInv (execLdsubLanding id s) := by
  refine h.land (fun u x hu => ?_)
  split
  · exact hu.slotFrom.setSlot.modGrp
  · exact hu

theorem execPushLand (h : s.Inv) {id : Nat} : OutInv (execPushLand id s) := h.land (fun _ _ hu => hu.slotFrom.setSlot)

theorem execUnsubEndMark (h : s.Inv) {id : Nat} : OutInv (execUnsubEndMark id s) := h.land (fun _ _ hu => setSlot hu.same)

theorem landNext (h : s.Inv) {u : State} (hu : s.landNext = some u) : u.Inv := by
  unfold State.landNext at hu
  obtain ⟨f, -, hf⟩ := Option.bind_eq_some_iff.mp hu
  split at hf
  · next hx =>
    cases hf
    split at hx
    · exact OutInv.next h.execLdsubLanding hx
    · exact OutInv.next h.execPushLand hx
    · exact OutInv.next h.execUnsubEndMark hx
  · cases hf

theorem landSome (h : s.Inv) {n : Nat} : (State.landSome n s).Inv := by
  induction n generalizing s with
  | zero => exact h
  | succ n ih =>
    unfold State.landSome
    split
    · next hu => exact ih (h.landNext hu)
    · exact h

theorem landAll (h : s.Inv) : s.landAll.Inv := h.landSome

theorem slotAt {t : Team} {v : Reg} {f : ScrAt → Bool → Res} (hf : ∀ a b, (f a b).Inv) : (s.slotAt t v f).Inv := by
  unfold State.slotAt
  extract_lets addr
  split
  · trivial
  · split
    · trivial
    · split
      · trivial
      · exact hf _ _

theorem putPair_done (h : s.Inv) {q : BitVec 6} {code hi : Nat} {v : Reg} : (Res.done (s.putPair q code hi v)).Inv := h.putPair

theorem subRefused (h : s.Inv) {q : BitVec 6} {sl : Slot} : (s.subRefused q sl).Inv := h.putPair

theorem readSlot (h : s.Inv) {a : ScrAt} {v : Reg} : (s.readSlot a v).1.Inv := by
  unfold State.readSlot
  extract_lets s1
  have h1 : s1.Inv := h.sawSlot
  split
  · exact h1.winMeet
  · exact h1

theorem subClean (h : s.Inv) {core : Nat} {x : Xlat} : (s.subClean core x).Inv := by
  unfold State.subClean
  split_ifs
  · exact h
  · exact h.recallLine
  · exact h.writeBack
  · exact h

theorem subRead (h : s.Inv) {core va n : Nat} {x : Xlat} : (s.subRead core va x n).1.Inv := by
  unfold State.subRead
  split
  · exact h.meetPoisonPage
  · extract_lets s1 s2
    have h2 : s2.Inv := h.subClean.saw
    generalize (if x.memside = true then s2.stackBad x.pa n else s2.anyHomeBad x.pa n) = b
    split
    · exact h2.meetAt
    · exact h2

theorem subscribe (h : s.Inv) {t : Team} {q : BitVec 6} {pa size off : Nat} {v : Reg} : (s.subscribe t q pa size off v).Inv :=
  modGrp h.tick.same

theorem execLdsub (h : s.Inv) {p q : BitVec 6} {n : Fin 8} : OutInv (execLdsub p q n s) := by
  refine h.asEPair (fun t g => slotAt (fun a sib => ?_))
  extract_lets sl va size
  split
  · exact h.subRefused
  · split
    · trivial
    · next x _ =>
      split
      · exact h.subRefused
      · split
        · trivial
        · split
          · trivial
          · refine gated ?_
            change State.Inv (if _ then _ else _)
            have hr : (s.subRead g.core va x size).1.Inv := h.subRead
            split
            · exact hr.setSlot.putPair
            · exact hr.subscribe

theorem execSlotrd (h : s.Inv) {p q : BitVec 6} : OutInv (execSlotrd p q s) := by
  refine h.asEPair (fun t g => slotAt (fun a sib => ?_))
  extract_lets r sl
  split
  · exact h.subRefused
  · exact gated h.readSlot.setSlot.putPair_done

theorem execSlotwait (h : s.Inv) {e : EF} : OutInv (execSlotwait e s) := by
  refine h.asEPair (fun t g => ?_)
  split
  · exact h.putPair
  · refine slotAt (fun a sib => ?_)
    extract_lets r sl
    split_ifs
    · exact h.subRefused
    · exact gated h.readSlot.setSlot.putPair_done
    · exact gated h.readSlot.putPair_done
    · exact h

theorem startUnsub (h : s.Inv) {t : TeamId} {off : Nat} {sl : Slot} : (s.startUnsub t off sl).Inv := by
  unfold State.startUnsub
  extract_lets mine
  split
  · exact setSlot h.tick.same
  · exact h.setSlot

theorem execUnsub (h : s.Inv) {e : EF} : OutInv (execUnsub e s) := by
  refine h.asE (fun t g => slotAt (fun a sib => ?_))
  extract_lets sl starts
  split
  · exact h.fin
  · next s1 _ =>
    have h1 : s1.Inv := by
      unfold s1
      split
      · exact h.startUnsub
      · exact h
    split
    · exact h1
    · exact h1.fin

/-! ## Tasks and deques -/

theorem readRecord (h : s.Inv) {t : Team} {g : Group} {va : Nat} {f : State → List Byte → Res}
    (hf : ∀ (u : State) (bs : List Byte), u.Inv → (f u bs).Inv) : (s.readRecord t g va f).Inv := by
  refine h.reading (fun u a hu => ?_)
  split
  · exact hu.reading (fun _ _ hv => hf _ _ hv)
  · exact hf _ _ hu

theorem keepSpawn (h : s.Inv) {l : Launch} : (s.keepSpawn l).Inv := h.modGrp

theorem spawn (h : s.Inv) {g : Group} {q : BitVec 6} {l : Launch} : (s.spawn g q l).Inv := by
  unfold State.spawn
  extract_lets wheel
  split
  · have he : (s.enterNode g.core wheel l).Inv := h.enterNode
    split
    · exact h.fin
    · trivial
    · trivial
    · next heq =>
      rw [heq] at he
      exact he.fin
  · exact h.keepSpawn

theorem execTspawn (h : s.Inv) {e : EF} : OutInv (execTspawn e s) := by
  refine h.asE (fun t g => h.releasing (fun u hu => ?_))
  split
  · exact hu.spawn
  · extract_lets va
    split
    · trivial
    · split
      · exact hu
      · refine hu.readRecord (fun v bs hv => ?_)
        split
        · trivial
        · refine gated ?_
          have hc : (v.checkLaunch v.issuer g.core bs).Inv := hv.checkLaunch
          split
          · next heq =>
            rw [heq] at hc
            exact hc.fin
          · trivial
          · next heq =>
            rw [heq] at hc
            exact hc.spawn

theorem ctrWord {t : Team} {g : Group} {p : BitVec 6} {acc : Acc} {f : Nat → Xlat → Res} (hf : ∀ va x, (f va x).Inv) :
    (s.ctrWord t g p acc f).Inv := by
  unfold State.ctrWord
  extract_lets va
  split
  · trivial
  · split
    · trivial
    · split
      · trivial
      · exact hf _ _

theorem readCount (h : s.Inv) {g : Group} {va : Nat} {x : Xlat} : (s.readCount g va x).1.Inv := by
  unfold State.readCount
  split
  · exact h.meetPoisonPage
  · split
    · exact h.meetPoison
    · exact h

theorem execTdec (h : s.Inv) {p q : BitVec 6} {n : Fin 16} : OutInv (execTdec p q n s) := by
  refine h.asE (fun t g => h.releasing (fun u hu => ctrWord (fun va x => ?_)))
  split
  · exact hu.fin
  · split
    · exact hu.fin
    · extract_lets c
      have hc : c.1.Inv := hu.readCount
      split
      · exact gated hc.fin
      · next r res _ =>
        have hr : r.1.Inv := hc.decrement
        have hres : res.Inv := by
          unfold res
          split
          · exact hr.fin
          · exact hc.fin
        split
        · exact gated hres
        · exact hres

theorem execTwait (h : s.Inv) {e : EF} : OutInv (execTwait e s) := by
  refine h.asE (fun t g => ?_)
  extract_lets ok
  have hok : ∀ u : State, u.Inv → (ok u).Inv := fun _ hu => hu.putStatus.acquire
  split
  · exact hok _ h
  · refine ctrWord (fun va x => ?_)
    extract_lets c
    have hc : c.1.Inv := h.readCount
    split
    · exact h
    · split
      · exact gated (hok _ hc)
      · exact hok _ h

theorem meetDeque (h : s.Inv) {d : Nat} : (s.meetDeque d).Inv := by
  unfold State.meetDeque
  split
  · split
    · exact h.countBad
    · exact h
  · exact h

theorem dequeDo (h : s.Inv) {op : DqOp} {d : Nat} {item : Reg} {r : State × Option Reg × Nat}
    (hr : s.dequeDo op d item = some r) : r.1.Inv := by
  unfold State.dequeDo at hr
  extract_lets x bad took s1 s0 at hr
  have h1 : s1.Inv := h.meetDeque
  have h0 : s0.Inv := by
    unfold s0
    split
    · exact h1.countBad
    · exact h1
  clear_value took s0
  split at hr
  · cases hr
  · split at hr
    · split at hr
      · cases hr
      · cases hr
        exact h0.homeWriteL.homeWriteL
    · split at hr
      · cases hr
      · cases hr
        exact h0.homeWriteL
    · split at hr
      · cases hr
      · cases hr
        exact h0.homeWriteL

theorem execDequeOperation (h : s.Inv) {op : DqOp} {d : Nat} {item : Reg} : OutInv (execDequeOperation op d item s) := by
  change State.Inv (if _ then _ else _)
  split
  · cases hx : s.dequeDo op d item with
    | none => exact h
    | some r => exact h.dequeDo hx
  · exact h

theorem execDqpush (h : s.Inv) {e : EF} : OutInv (execDqpush e s) := by
  refine h.asE (fun t g => ?_)
  extract_lets d x
  split
  · exact h.meetDeque.fin
  · split
    · trivial
    · split
      · exact h
      · refine h.releasing (fun u hu => ?_)
        split
        · next hr => exact (hu.dequeDo hr).fin
        · exact hu

theorem dequeTake (h : s.Inv) {op : DqOp} {e : EF} {t : Team} {g : Group} : (s.dequeTake op e t g).Inv := by
  unfold State.dequeTake
  extract_lets d
  split
  · exact h.meetDeque.fin
  · split
    · trivial
    · split
      · next hr => exact (h.dequeDo hr).putPair.acquire
      · next hr =>
        refine gated ?_
        exact (h.dequeDo hr).poisonSeen.poisonTrap.putPair.acquire
      · exact h

theorem execDqpop (h : s.Inv) {e : EF} : OutInv (execDqpop e s) := h.asEPair (fun _ _ => h.dequeTake)

theorem execDqsteal (h : s.Inv) {e : EF} : OutInv (execDqsteal e s) := h.asEPair (fun _ _ => h.dequeTake)

/-! ## Queues and streams -/

theorem execQbind (h : s.Inv) {p q : BitVec 6} {n : Fin 8} : OutInv (execQbind p q n s) := by
  refine h.asE (fun t g => ?_)
  extract_lets v kind gi m gid prod badProd
  clear_value badProd
  split
  · exact h.fin
  · next live busy prodBusy k _ =>
    clear_value prodBusy k
    split
    · exact h.fin
    · exact h.modGrp.fin

theorem execQstat (h : s.Inv) {p q : BitVec 6} {n : Fin 8} : OutInv (execQstat p q n s) := by
  refine h.asE (fun t g => ?_)
  extract_lets v st
  clear_value st
  split
  · exact h.fin
  · split
    · split
      · exact h.fin
      · exact h.fin
    · exact h.fin

theorem dropStream (h : s.Inv) {core : Nat} {gid : GrpId} {q : Nat} : (s.dropStream core gid q).Inv := h.modCore

theorem execAaego (h : s.Inv) {e : EF} {n : Fin 8} : OutInv (execAaego e n s) := by
  refine h.asE (fun t g => h.releasing (fun u hu => ?_))
  extract_lets va gid old
  split
  · trivial
  · split
    · exact hu
    · split
      · exact hu.fin
      · refine hu.reading (fun v bs hv => ?_)
        split
        · exact hv.fin
        · split
          · exact hv
          · extract_lets s1 s2
            have h1 : s1.Inv := hv.dropStream
            have h2 : s2.Inv := by
              unfold s2
              split
              · exact h1
              · exact h1.modCore
            exact h2.fin

theorem modStream (h : s.Inv) {core : Nat} {gid : GrpId} {q : Nat} {f : Stream → Stream} : (s.modStream core gid q f).Inv := h.modCore

theorem execAaestop (h : s.Inv) {q : BitVec 6} {x : BitVec 5} {n : Fin 8} : OutInv (execAaestop q x n s) := by
  refine h.asE (fun t g => ?_)
  split
  · exact h.fin
  · split
    · exact h.modStream
    · exact h.dropStream.fin

end

end State.Inv

/-- What a reading of a stream's elements leaves is in canonical form. -/
def Iter.Inv : Iter → Prop
  | .ok u _ => u.Inv
  | _ => True

namespace State.Inv

section
variable {s : State}

theorem streamLoads (h : s.Inv) {t : Team} {core : Nat} {x : Stream} {ks : List Nat} : (s.streamLoads t core x ks).Inv := by
  induction ks generalizing s with
  | nil => exact h
  | cons k ks ih =>
    unfold State.streamLoads
    extract_lets a n
    split
    · split
      · trivial
      · split
        · trivial
        · extract_lets r0 r
          have hr : r.1.Inv := h.winElem.crossUp
          have hi := ih hr
          split
          · next heq =>
            rw [heq] at hi
            exact hi
          · exact hi
    · split
      · trivial
      · split
        · trivial
        · extract_lets r
          have hr : r.1.Inv := h.loadElem
          have hi := ih hr
          split
          · next heq =>
            rw [heq] at hi
            exact hi
          · exact hi

theorem streamLand (h : s.Inv) {gr : Group} {x : Stream} {vs : List Word} : (s.streamLand gr x vs).Inv := by
  unfold State.streamLand
  extract_lets s1
  have h1 : s1.Inv := h.served.modGrp
  split
  · exact h1.dropStream
  · exact h1.modStream

theorem streamRead (h : s.Inv) {g : GrpId} {q : Nat} {land : State → Group → Stream → List Word → State}
    (hf : ∀ (u : State) (gr : Group) (x : Stream) (vs : List Word), u.Inv → (land u gr x vs).Inv) : (s.streamRead g q land).Inv := by
  unfold State.streamRead
  split
  · next t gr _ _ =>
    split
    · exact h
    · next x _ =>
      split
      · exact h
      · have hl := h.streamLoads (t := t) (core := gr.core) (x := x) (ks := List.range gr.width)
        split
        · exact h
        · exact h.modStream.pendTrap
        · next heq =>
          rw [heq] at hl
          exact hf _ _ _ _ hl
  · exact h

theorem streamFly (h : s.Inv) {g : GrpId} {q : Nat} : (s.streamFly g q).Inv := h.streamRead (fun _ _ _ _ hu => hu.modStream)

theorem execAaeStreamPush (h : s.Inv) {g : GrpId} {q : Nat} : OutInv (execAaeStreamPush g q s) := by
  unfold Sys2Proof.Machine.execAaeStreamPush
  cases (s.grp? g).bind (fun gr => (s.streamOf gr g q).map (fun x => (gr, x))) with
  | none => exact h
  | some p =>
    change State.Inv (match p.2.fly with | some vs => _ | none => _)
    split
    · exact h.streamLand
    · exact h.streamRead (fun _ _ _ _ hu => hu.streamLand)

/-! ## Vector words and walks -/

theorem vecPush (h : s.Inv) {t : Team} {m : Mask} {beats : List Nat} {n : Nat} {val : Nat → Word} :
    (s.vecPush t m beats n val).Inv := h.modGrp

theorem vecDone (h : s.Inv) {t : Team} {g : Group} {w : Bool} {srcs : List Os} {dst : VDst} {val : Nat → Word} :
    (s.vecDone t g w srcs dst val).Inv := by
  unfold State.vecDone
  extract_lets m beats s'
  have h' : s'.Inv := h.modGrp
  split
  · exact h'.vecPush
  · exact h'

theorem vecWord (h : s.Inv) {w : Bool} {srcs : List Os} {extra sregs : List Nat} {dst : (Os → Nat → Word) → VDst}
    {val : Group → (Os → Nat → Word) → Nat → Word} : OutInv (s.vecWord w srcs extra sregs dst val) := by
  refine h.asWord (fun t g => ?_)
  extract_lets rd d srcRegs pops beats
  split
  · trivial
  · split
    · trivial
    · split
      · trivial
      · split
        · trivial
        · split
          · trivial
          · exact h.vecDone

theorem execNop (h : s.Inv) : OutInv (execNop s) := h.asWord (fun _ _ => h)

theorem vec1 (h : s.Inv) {w : Bool} {d a : Os} {f : Word → Word} : OutInv (s.vec1 w d a f) := h.vecWord

theorem vec2 (h : s.Inv) {w : Bool} {d a b : Os} {f : Word → Word → Word} : OutInv (s.vec2 w d a b f) := h.vecWord

theorem vecAcc (h : s.Inv) {w : Bool} {d a b : Os} {f : Word → Word → Word → Word} : OutInv (s.vecAcc w d a b f) := h.vecWord

theorem execVmov (h : s.Inv) {w : Bool} {d a : Os} : OutInv (execVmov w d a s) := h.vec1

theorem execVlane (h : s.Inv) {w : Bool} {d : Os} : OutInv (execVlane w d s) := h.vecWord

theorem execVadd (h : s.Inv) {ty : AddTy} {w : Bool} {d a b : Os} : OutInv (execVadd ty w d a b s) := h.vec2

theorem execVsub (h : s.Inv) {ty : AddTy} {w : Bool} {d a b : Os} : OutInv (execVsub ty w d a b s) := h.vec2

theorem execVmul (h : s.Inv) {ty : MulTy} {w : Bool} {d a b : Os} : OutInv (execVmul ty w d a b s) := h.vec2

theorem execVfma (h : s.Inv) {ty : FmaTy} {w : Bool} {d a b : Os} : OutInv (execVfma ty w d a b s) := h.vecAcc

theorem execVfnma (h : s.Inv) {ty : FmaTy} {w : Bool} {d a b : Os} : OutInv (execVfnma ty w d a b s) := h.vecAcc

theorem execVmin (h : s.Inv) {ty : MinTy} {w : Bool} {d a b : Os} : OutInv (execVmin ty w d a b s) := h.vec2

theorem execVmax (h : s.Inv) {ty : MinTy} {w : Bool} {d a b : Os} : OutInv (execVmax ty w d a b s) := h.vec2

theorem execVlogic (h : s.Inv) {op : LogicOp} {w : Bool} {d a b : Os} : OutInv (execVlogic op w d a b s) := h.vec2

theorem execVshift (h : s.Inv) {op : ShiftOp} {w : Bool} {d a b : Os} : OutInv (execVshift op w d a b s) := h.vec2

theorem execVcmpi (h : s.Inv) {c : CmpI} {w : Bool} {p : Fin 8} {a b : Os} : OutInv (execVcmpi c w p a b s) := h.vecWord

theorem execVcmpf (h : s.Inv) {c : CmpF} {w : Bool} {p : Fin 8} {a b : Os} : OutInv (execVcmpf c w p a b s) := h.vecWord

theorem execVsel (h : s.Inv) {p : Fin 8} {w : Bool} {d a b : Os} : OutInv (execVsel p w d a b s) := h.vecWord

theorem execVdiv (h : s.Inv) {ty : DivTy} {w : Bool} {d a b : Os} : OutInv (execVdiv ty w d a b s) := h.vec2

theorem execVsfu (h : s.Inv) {op : SfuOp} {w : Bool} {d a : Os} : OutInv (execVsfu op w d a s) := h.vec1

theorem execVperm (h : s.Inv) {op : PermOp} {w : Bool} {d a b : Os} : OutInv (execVperm op w d a b s) := h.vecWord

theorem execVred (h : s.Inv) {op : RedOp} {w : Bool} {d a : Os} : OutInv (execVred op w d a s) := h.vecWord

theorem execVdot (h : s.Inv) {op : DotOp} {w : Bool} {d a b : Os} : OutInv (execVdot op w d a b s) := h.vecAcc

theorem execVpred (h : s.Inv) {op : PredOp} {w : Bool} {p q r : Fin 8} : OutInv (execVpred op w p q r s) := h.vecWord

theorem execVsplat (h : s.Inv) {w : Bool} {d : Os} {r : BitVec 6} {sel : SplatSel} : OutInv (execVsplat w d r sel s) := by
  unfold Sys2Proof.Machine.execVsplat
  extract_lets v lo hi
  split
  · exact h.vecWord
  · exact h.vecWord
  · exact h.vecWord

theorem execVmov64 (h : s.Inv) {w : Bool} {d a : Os} : OutInv (execVmov64 w d a s) := by
  unfold Sys2Proof.Machine.execVmov64
  split
  · exact h.vecWord
  · exact h.vecWord

theorem execVshiftBfx (h : s.Inv) {w : Bool} {d a : Os} : OutInv (execVshiftBfx w d a s) := by
  unfold Sys2Proof.Machine.execVshiftBfx
  split
  · exact h.asWord (fun _ _ => trivial)
  · exact h.vecWord

theorem execVshiftBfi (h : s.Inv) {w : Bool} {d a : Os} : OutInv (execVshiftBfi w d a s) := by
  unfold Sys2Proof.Machine.execVshiftBfi
  split
  · exact h.asWord (fun _ _ => trivial)
  · exact h.vecWord

theorem execVcvt (h : s.Inv) {m : Rnd} {op : CvtOp} {k : Fin 8} {w : Bool} {d a : Os} : OutInv (execVcvt m op k w d a s) := by
  unfold Sys2Proof.Machine.execVcvt
  split
  · exact h.vecWord
  · exact h.vecWord

theorem execVbits (h : s.Inv) {op : BitsOp} {w : Bool} {d a b : Os} : OutInv (execVbits op w d a b s) := by
  unfold Sys2Proof.Machine.execVbits
  split
  · exact h.vecWord
  · exact h.vecWord

theorem keepTrail (h : s.Inv) {core space va : Nat} : (s.keepTrail core space va).Inv := h.modCore

theorem countEntries (h : s.Inv) {core space va : Nat} : (s.countEntries core space va).Inv := foldl (fun _ _ h => h.countRead) _ h

theorem execWalkComplete (h : s.Inv) {core space va : Nat} : OutInv (execWalkComplete core space va s) := by
  change State.Inv (if _ then _ else _)
  split
  · exact h.countEntries.keepTrail
  · exact h

/-! ## Waits -/

theorem runHeld (h : s.Inv) {i : Instr} : OutInv (runHeld i s) := by
  unfold Sys2Proof.Machine.runHeld
  split
  exacts [h.execAtom, h.execAtoms, h.execCopygo, h.execCopywait, h.execCopycancel, h.execBarinit, h.execBararrive,
    h.execBarexpect, h.execBarwait, h.execBartest, h.execMwait, h.execMxlease, h.execMxgo, h.execMxwait, h.execMxdrain,
    h.execMxrel, h.execOres, h.execObld, h.execTspawn, h.execTdec, h.execTwait, h.execDqpush, h.execDqpop, h.execDqsteal,
    h.execAaego, h.execAaestop, h.execMsred, h.execMsatom, h.execMspoll, h.execMswait, h.execLdsub, h.execUnsub, h.execSlotrd,
    h.execSlotwait, h.execPktab, h.execPklook, h.execPkgrad, h.execPkwait, h.execReplayGo, h.execCtxsave, h.execCtxload,
    h.execShoot, h.execMigrateGo, h.execMigrateWait, h.execCollGo, h.execCollWait, h.execCollTest, h.execCollCancel, h]

end

end State.Inv

/-- What an examination of a waiting word leaves is in canonical form. -/
def Again.Inv : Again → Prop
  | .done u => u.Inv
  | _ => True

namespace State.Inv

section
variable {s : State}

theorem again (h : s.Inv) {i : Issue} : (s.again i).Inv := by
  unfold State.again
  split
  · trivial
  · next ins _ =>
    have hr : OutInv (Sys2Proof.Machine.runHeld ins { s with iss := i }) := runHeld h.same
    split
    · next u heq =>
      have hu : u.Inv := hr.next heq
      split
      · trivial
      · trivial
      · trivial
      · exact hu
    · trivial

theorem againFlushed (h : s.Inv) {i : Issue} : (s.againFlushed i).1.Inv ∧ (s.againFlushed i).2.Inv := by
  unfold State.againFlushed
  have ha := h.again (i := i)
  split
  · extract_lets s1
    have h1 : s1.Inv := h.relSelf.landAll
    exact ⟨h1, h1.again⟩
  · exact ⟨h, ha⟩

theorem againTrap (h : s.Inv) {gid : GrpId} {mask : Mask} {x : Trap} {pc : VAddr} : (s.againTrap gid mask x pc).Inv := by
  unfold State.againTrap
  extract_lets s1
  have h1 : s1.Inv := h.modGrp
  split
  · exact h1
  · split
    · split
      · exact h1.takeTrap
      · exact h1.modGrp
    · exact h1.takeTrap

theorem retry (h : s.Inv) {gid : GrpId} {w : WaitRec} {m : Mode} {u : State} (hu : s.retry gid w m = some u) : u.Inv := by
  unfold State.retry at hu
  have ha := h.again (i := w.issue gid m)
  split at hu
  · next heq =>
    rw [heq] at ha
    cases hu
    exact modGrp ha
  · cases hu
    exact h.modGrp.againTrap
  · cases hu
    exact h.relSelf
  · split at hu
    · cases hu
    · cases hu
      exact h.modGrp

/-- A wait is examined again, or nothing changes. -/
theorem retryD (h : s.Inv) {gid : GrpId} {w : WaitRec} {m : Mode} : ((s.retry gid w m).getD s).Inv := by
  cases hu : s.retry gid w m with
  | none => exact h
  | some u => exact h.retry hu

theorem examineOne (h : s.Inv) {gid : GrpId} {w : WaitRec} : (s.examineOne gid w).Inv := by
  unfold State.examineOne
  split
  · exact h
  · exact h.retryD

theorem examineAll (h : s.Inv) : s.examineAll.Inv := foldl (fun _ _ h => h.examineOne) _ h

theorem execWaitConditionMet (h : s.Inv) {g : GrpId} {t : Nat} : OutInv (execWaitConditionMet g t s) := by
  change State.Inv (match (s.grp? g).bind (fun x => x.waitOf t) with | some w => _ | none => _)
  split
  · split
    · exact h
    · exact h.retryD
  · exact h

theorem execWaitTimeout (h : s.Inv) {g : GrpId} {t : Nat} : OutInv (execWaitTimeout g t s) := by
  change State.Inv (match (s.grp? g).bind (fun x => x.waitOf t) with | some w => _ | none => _)
  split
  · split
    · exact h
    · exact h.retryD
  · exact h

/-! ## Quanta -/

theorem quantumStops (h : s.Inv) : s.quantumStops.Inv := by
  refine ⟨h.1, WinsOk.map h.2 (fun t ht => ?_)⟩
  split
  · exact ht
  · exact ht

theorem execThreadQuantumStop (h : s.Inv) {g : GrpId} {t : Nat} : OutInv (execThreadQuantumStop g t s) := by
  change State.Inv (match s.team? g.team, s.grp? g with | some tm, some x => _ | _, _ => _)
  split
  · split
    · exact h.modGrp
    · exact h
  · exact h

theorem commitElem (h : s.Inv) {core node : Nat} {b : BufElem} : (s.commitElem core node b).Inv := by
  unfold State.commitElem
  split
  · exact h.winStore
  · exact h.storeElem

theorem commitGroup (h : s.Inv) {gid : GrpId} : (s.commitGroup gid).Inv := by
  unfold State.commitGroup
  split
  · exact h
  · extract_lets s1 s2
    have h1 : s1.Inv := foldl (fun _ _ h => foldl (fun _ _ h => h.commitElem) _ h) _ h
    have h2 : s2.Inv := h1.relSelf.modGrp
    exact h2

theorem serialOne (h : s.Inv) {x : SerialAt} : (s.serialOne x).1.Inv := by
  unfold State.serialOne
  extract_lets i r
  obtain ⟨h1, h2⟩ : r.1.Inv ∧ r.2.Inv := h.landAll.againFlushed
  clear_value r
  split
  · next heq =>
    rw [heq] at h2
    exact (modGrp h2).barClose.examineAll
  · exact h1.modGrp.againTrap
  · exact h1
  · exact h1

theorem serialAll (h : s.Inv) {xs : List SerialAt} : (s.serialAll xs).1.Inv := by
  induction xs generalizing s with
  | nil => exact h
  | cons x xs ih =>
    unfold State.serialAll
    extract_lets r
    have hr : r.1.Inv := h.serialOne
    split
    · exact ih hr
    · exact hr

theorem waitOne (h : s.Inv) {gid : GrpId} {w : WaitRec} : (s.waitOne gid w).Inv := by
  unfold State.waitOne
  extract_lets s1 s0
  have h1 : s1.Inv := h.againFlushed.1.landAll
  have h0 : s0.Inv := h1.retryD.barClose
  split
  · exact h0
  · extract_lets w' s2
    have h2 : s2.Inv := h0.modGrp
    split
    · exact h2.retryD
    · exact h2

theorem nextQuantum (h : s.Inv) {n : Node} : (s.nextQuantum n).Inv :=
  modNode (foldl (fun _ _ h => h.acqCores.modTeam) _ h)

theorem execQuantumEnd (h : s.Inv) {node : Nat} : OutInv (execQuantumEnd node s) := by
  change State.Inv (match s.node? node with | none => _ | some n => _)
  split
  · exact h
  · split
    · split
      · extract_lets s0
        have h0 : s0.Inv := h.landAll
        split
        · exact h0
        · exact modNode (foldl (fun _ _ h => h.commitGroup) _ h0)
      · exact h
    · split
      · split
        · exact foldl (fun _ _ h => h.relSelf) _ h
        · split
          · exact h.modNode
          · split
            · exact h
            · extract_lets r
              have hr : r.1.Inv := h.serialAll
              split
              · exact hr.modNode
              · exact hr
      · split
        · split
          · split
            · exact h.landAll
            · refine modNode (foldl (fun s x h => ?_) _ h.landAll)
              split
              · exact h.waitOne
              · exact h
          · exact h
        · split
          · exact h.nextQuantum
          · exact h

/-! ## The words and events -/

theorem exec (h : s.Inv) {i : Instr} : OutInv (exec i s) :=
  match i with
  | .nop => h.execNop
  | .vmov .. => h.execVmov
  | .vlane .. => h.execVlane
  | .vsplat .. => h.execVsplat
  | .vmov64 .. => h.execVmov64
  | .vadd .. => h.execVadd
  | .vsub .. => h.execVsub
  | .vmul .. => h.execVmul
  | .vfma .. => h.execVfma
  | .vfnma .. => h.execVfnma
  | .vmin .. => h.execVmin
  | .vmax .. => h.execVmax
  | .vlogic .. => h.execVlogic
  | .vshift .. => h.execVshift
  | .vshiftBfx .. => h.execVshiftBfx
  | .vshiftBfi .. => h.execVshiftBfi
  | .vcmpi .. => h.execVcmpi
  | .vcmpf .. => h.execVcmpf
  | .vsel .. => h.execVsel
  | .vcvt .. => h.execVcvt
  | .vbits .. => h.execVbits
  | .vdiv .. => h.execVdiv
  | .vsfu .. => h.execVsfu
  | .vperm .. => h.execVperm
  | .vred .. => h.execVred
  | .vdot .. => h.execVdot
  | .vpred .. => h.execVpred
  | .salu .. => h.uSet
  | .mov .. => h.uSet
  | .li .. => h.uSet
  | .lis .. => h.uSet
  | .lihi .. => h.uSet
  | .fromv .. => h.execFromv
  | .ballot .. => h.uSet
  | .popcs .. => h.uSet
  | .sysrd .. => h.execSysrd
  | .syswr .. => h.execSyswr
  | .fairnessWrite .. => h.execFairnessWrite
  | .mclkratioWrite .. => h.execMclkratioWrite
  | .mclkratioTake .. => h.execMclkratioTake
  | .statusWrite .. => h.execStatusWrite
  | .trap .. => h.execTrap
  | .tret => h.execTret
  | .clock .. => h.execClock
  | .capq .. => h.execCapq
  | .b .. => h.uniform
  | .bz .. => h.uniform
  | .bnz .. => h.uniform
  | .call .. => h.execCall
  | .ret => h.uniform
  | .brx .. => h.uniform
  | .bd .. => h.execBd
  | .bp .. => h.execBp
  | .join => h.execJoin
  | .yield => h.execYield
  | .exit => h.execExit
  | .pathDue .. => h.execPathDue
  | .elect .. => h.execElect
  | .voteall .. => h.uSet
  | .voteany .. => h.uSet
  | .ld .. => h.execLd
  | .st .. => h.execSt
  | .lds .. => h.execLds
  | .sts .. => h.execSts
  | .loadComplete .. => h.execLoadComplete
  | .walkComplete .. => h.execWalkComplete
  | .atom .. => h.execAtom
  | .atoms .. => h.execAtoms
  | .fence .. => h.execFence
  | .clean .. => h.maintain
  | .inval .. => h.maintain
  | .icinv .. => h.maintain
  | .fetchbar => h.execFetchbar
  | .rcfence .. => h.execRcfence
  | .msfence .. => h.execMsfence
  | .tlbfence .. => h.execTlbfence
  | .copygo .. => h.execCopygo
  | .copywait .. => h.execCopywait
  | .chanstat .. => h.execChanstat
  | .copycancel .. => h.execCopycancel
  | .transferRecordStart .. => h.execTransferRecordStart
  | .transferRecordComplete .. => h.execTransferRecordComplete
  | .transferRecordStop .. => h.execTransferRecordStop
  | .barinit .. => h.execBarinit
  | .bararrive .. => h.execBararrive
  | .barexpect .. => h.execBarexpect
  | .barwait .. => h.execBarwait
  | .bartest .. => h.execBartest
  | .mwait .. => h.execMwait
  | .waitConditionMet .. => h.execWaitConditionMet
  | .waitTimeout .. => h.execWaitTimeout
  | .mxlease .. => h.execMxlease
  | .mxgo .. => h.execMxgo
  | .mxwait .. => h.execMxwait
  | .mxdrain .. => h.execMxdrain
  | .mxrel .. => h.execMxrel
  | .ores .. => h.execOres
  | .obld .. => h.execObld
  | .mxstat .. => h.execMxstat
  | .matrixOperationStart .. => h.execMatrixOperationStart
  | .kStepCommit .. => h.execKStepCommit
  | .matrixOperationStop .. => h.execMatrixOperationStop
  | .drainRun .. => h.execDrainRun
  | .obldLoadFinish .. => h.execObldLoadFinish
  | .tspawn .. => h.execTspawn
  | .tdec .. => h.execTdec
  | .twait .. => h.execTwait
  | .dqpush .. => h.execDqpush
  | .dqpop .. => h.execDqpop
  | .dqsteal .. => h.execDqsteal
  | .aaego .. => h.execAaego
  | .aaestop .. => h.execAaestop
  | .qbind .. => h.execQbind
  | .qstat .. => h.execQstat
  | .dequeOperation .. => h.execDequeOperation
  | .counterDecrement .. => h.execCounterDecrement
  | .aaeStreamPush .. => h.execAaeStreamPush
  | .msred .. => h.execMsred
  | .msatom .. => h.execMsatom
  | .mspoll .. => h.execMspoll
  | .mswait .. => h.execMswait
  | .lineJob .. => h.execLineJob
  | .msCommandComplete .. => h.execMsCommandComplete
  | .ldsub .. => h.execLdsub
  | .unsub .. => h.execUnsub
  | .slotrd .. => h.execSlotrd
  | .slotwait .. => h.execSlotwait
  | .ldsubLanding .. => h.execLdsubLanding
  | .pushLand .. => h.execPushLand
  | .unsubEndMark .. => h.execUnsubEndMark
  | .pktab .. => h.execPktab
  | .pklook .. => h.execPklook
  | .pkgrad .. => h.execPkgrad
  | .pkwait .. => h.execPkwait
  | .klTableLoadFinish .. => h.execKlTableLoadFinish
  | .klAccept .. => h.execKlAccept
  | .klOperationComplete .. => h.execKlOperationComplete
  | .replayGo .. => h.execReplayGo
  | .replayDrop .. => h.execReplayDrop
  | .replayList .. => h.execReplayList
  | .ctxsave .. => h.execCtxsave
  | .ctxload .. => h.execCtxload
  | .shoot .. => h.execShoot
  | .shootComplete => h.execShootComplete
  | .migrateGo .. => h.execMigrateGo
  | .migrateWait .. => h.execMigrateWait
  | .migrateEnd .. => h.execMigrateEnd
  | .migrationSwitch .. => h.execMigrationSwitch
  | .collGo .. => h.execCollGo
  | .collWait .. => h.execCollWait
  | .collTest .. => h.execCollTest
  | .collCancel .. => h.execCollCancel
  | .collHeaderMismatch .. => h.execCollHeaderMismatch
  | .collComplete .. => h.execCollComplete
  | .trapDelivery .. => h.execTrapDelivery
  | .nodeDoneDecrement .. => h.execNodeDoneDecrement
  | .dispatchStep .. => h.execDispatchStep
  | .preemptForRoom .. => h.execPreemptForRoom
  | .deferredClaimGuard .. => h.execDeferredClaimGuard
  | .threadQuantumStop .. => h.execThreadQuantumStop
  | .quantumEnd .. => h.execQuantumEnd
  | .cleanerWriteback .. => h.execCleanerWriteback
  | .regionMerge .. => h.execRegionMerge
  | .deadAgentDeclared .. => h.execDeadAgentDeclared
  | .backInvalidateTimeout .. => h.execBackInvalidateTimeout
  | .hostCxlAccess .. => h.execHostCxlAccess
  | .launch => h.execLaunch
  | .create => h.execCreate
  | .destroy => h.execDestroy
  | .launchReservedCmd => h.execLaunchReservedCmd
  | .lstatRead => h.execLstatRead
  | .tdeadaRead => h.execTdeadaRead
  | .heventWrite .. => h.execHeventWrite
  | .fgrpDefine .. => h.execFgrpDefine
  | .fgrpRemove .. => h.execFgrpRemove
  | .partitionSetup .. => h.execPartitionSetup
  | .spdmAttestation => h.execSpdmAttestation
  | .keyStoreAdd .. => h.execKeyStoreAdd
  | .keyStoreRevoke .. => h.execKeyStoreRevoke
  | .persistentRecordClear .. => h.execPersistentRecordClear
  | .portFailRecord .. => h.execPortFailRecord
  | .channelFence .. => h.execChannelFence
  | .scrub pa => h.execScrub (pa := pa)
  | .throttleEvent .. => h.execThrottleEvent
  | .powerRemoval => execPowerRemoval
  | .bringUp .. => h.execBringUp
  | .partitionReset .. => h.execPartitionReset
  | .contextSaveComplete .. => h.execContextSaveComplete
  | .rangeEntryFreed .. => h.execRangeEntryFreed
  | .staleResponseDrop .. => h.execStaleResponseDrop
  | .backInvalidateAnswer .. => h.execBackInvalidateAnswer
  | .remoteCollCancel .. => h.execRemoteCollCancel
  | .throttleCauseEnd .. => h.execThrottleCauseEnd
  | .linkErrorRetry .. => h.execLinkErrorRetry

/-! ## The issue of words -/

end

end State.Inv

/-- What a chain group's words leave is in canonical form. -/
def Ran.Inv : Ran → Prop
  | .ok u => u.Inv
  | .stop o => OutInv o
  | _ => True

/-- What the entry of a packet leaves is in canonical form. -/
def Entered.Inv : Entered → Prop
  | .trapped u => u.Inv
  | .into u _ => u.Inv

namespace State.Inv

section
variable {s : State}

theorem runWord (h : s.Inv) {i : Issue} : (s.runWord i).Inv := by
  unfold State.runWord
  extract_lets s1
  have h1 : s1.Inv := h
  split
  · trivial
  · next ins _ =>
    have hr := h1.exec (i := ins)
    split
    · next heq =>
      have hu := hr.next heq
      split
      · trivial
      · trivial
      · exact hu
    · trivial
    · trivial

theorem runWords (h : s.Inv) {is : List Issue} : (s.runWords is).Inv := by
  induction is generalizing s with
  | nil => exact h
  | cons i is ih =>
    unfold State.runWords
    have hr := h.runWord (i := i)
    split
    · next heq =>
      rw [heq] at hr
      exact ih hr
    · split
      · trivial
      · trivial
    · exact hr

theorem trimClaims (h : s.Inv) : s.trimClaims.Inv := by
  unfold State.trimClaims
  split
  · exact h
  · exact h

theorem chain (h : s.Inv) {gid : GrpId} {mask : Mask} {p : Packet} {slot : Nat} {solo inrun : Bool} :
    OutInv (s.chain gid mask p slot solo inrun) := by
  unfold State.chain
  split
  · exact h
  · extract_lets base s1 slots fb
    have hr := (h.modGrp : s1.Inv).runWords (is := slots.map (p.issue gid mask slot))
    split
    · next u heq =>
      rw [heq] at hr
      exact modGrp (same (s := u) hr)
    · exact h.actAll.takeTrap
    · exact h.modGrp
    · exact h.relSelf
    · split
      · exact h.deliverParked
      · exact h
    · next heq =>
      rw [heq] at hr
      exact hr

theorem claimBufs (h : s.Inv) : s.claimBufs.Inv := modGroups (foldl (fun _ _ h => h.modCore) _ h)

theorem capture (h : s.Inv) {gid : GrpId} {p : Packet} : (s.capture gid p).Inv := by
  unfold State.capture
  split
  · split
    · exact h.modCore
    · exact h
  · exact h

theorem trimBufs (h : s.Inv) : s.trimBufs.Inv := by
  unfold State.trimBufs
  split
  · exact h
  · exact h

theorem enter (h : s.Inv) {gid : GrpId} {space : Nat} {pc : VAddr} {mask : Mask} : (s.enter gid space pc mask).Inv := by
  unfold State.enter
  extract_lets a
  split
  · exact h
  · next g0 _ =>
    extract_lets s1 copy kept held got
    have h1 : s1.Inv := by
      unfold s1
      split
      · exact h
      · exact h.modGrp
    have hgot : ∀ u p, got = some (.ok (u, p)) → u.Inv := by
      intro u p hu
      unfold got at hu
      clear_value held
      split at hu
      · cases hu
        exact h1
      · split at hu
        · cases hu
        · exact h1.fetch (Option.some.inj hu)
    clear_value got
    split
    · exact h1
    · exact h1.takeTrap
    · next u p =>
      have hu : u.Inv := hgot _ _ rfl
      extract_lets s2
      have h2 : s2.Inv := by
        unfold s2
        split
        · exact hu
        · exact hu.capture
      split
      · exact h2
      · split
        · exact h2.takeTrap
        · exact h2.modGrp

/-- A path's packet is entered, and its chain group issued. -/
theorem enterChain (h : s.Inv) {gid : GrpId} {space : Nat} {pc : VAddr} {mask : Mask} {solo inrun : Bool} :
    OutInv (match s.enter gid space pc mask with
      | .trapped s => .next s
      | .into s p => s.chain gid mask p (slotOf pc) solo inrun) := by
  have he := h.enter (gid := gid) (space := space) (pc := pc) (mask := mask)
  split
  · next heq =>
    rw [heq] at he
    exact he
  · next heq =>
    rw [heq] at he
    exact chain he

theorem issueCur (h : s.Inv) {gid : GrpId} {t : Team} {g : Group} {pc : VAddr} : OutInv (s.issueCur gid t g pc) := by
  unfold State.issueCur
  extract_lets mask
  split
  · exact h.takeTrap
  · next inrun s1 _ =>
    have h1 : s1.Inv := by
      unfold s1
      split
      · exact h
      · exact h.modGrp
    split
    · split
      · exact h1.chain
      · exact h1.enterChain
    · exact h1.enterChain

theorem turnCur (h : s.Inv) {gid : GrpId} {t : Team} {g : Group} {inrun : Bool} : OutInv (s.turnCur gid t g inrun) := by
  unfold State.turnCur
  split
  · split
    · exact h.issueCur
    · exact h
  · split
    · exact h.deliver
    · extract_lets nofair due alive
      clear_value alive
      split
      · split
        · exact h.modGrp
        · split
          · split
            · exact h.modGrp.issueCur
            · exact h
          · exact h
      · split
        · exact h.issueCur
        · exact h

theorem turnLone (h : s.Inv) {gid : GrpId} {t : Team} {g : Group} : OutInv (s.turnLone gid t g) := by
  unfold State.turnLone
  split
  · split
    · exact h.issueCur
    · split
      · exact h.modGrp
      · split
        · exact h.modGrp.issueCur
        · exact h
  · split
    · exact h.modGrp
    · exact h

theorem turn (h : s.Inv) {gid : GrpId} : OutInv (s.turn gid) := by
  unfold State.turn
  split
  · split
    · exact h
    · split
      · split
        · exact h
        · split
          · exact h.turnCur
          · exact h.turnLone
      · exact h.turnCur
  · exact h

theorem soloTurn (h : s.Inv) {gid : GrpId} {th : Nat} : OutInv (s.soloTurn gid th) := by
  unfold State.soloTurn
  split
  · split
    · exact h
    · extract_lets runs mine
      split
      · exact h
      · split
        · exact h.deliver
        · next pc m trap _ _ _ =>
          have ht : ∀ d, OutInv (trap d) := fun _ => h.takeTrap
          split
          · split
            · exact ht _
            · exact h.chain
          · split
            · exact ht _
            · exact h.modGrp.chain
  · exact h

theorem fetchAhead (h : s.Inv) {gid : GrpId} : (s.fetchAhead gid).Inv := by
  unfold State.fetchAhead
  split
  · extract_lets a
    split
    · exact h
    · split
      · next hf => exact (h.fetch hf).modGrp
      · exact h
  · exact h

/-! ## A step -/

theorem passCycle (h : s.Inv) : s.passCycle.Inv := ⟨h.1, WinsOk.map h.2 (fun _ ht => ht)⟩

theorem passLocal (h : s.Inv) {agent : Nat} : (s.passLocal agent).Inv := ⟨h.1, WinsOk.map h.2 (fun _ ht => ht)⟩

theorem passLocals (h : s.Inv) {agent n : Nat} : (State.passLocals agent n s).Inv := by
  induction n generalizing s with
  | zero => exact h
  | succ n ih => exact ih h.passLocal

theorem passCycles (h : s.Inv) {n : Nat} : (State.passCycles n s).Inv := by
  induction n generalizing s with
  | zero => exact h
  | succ n ih => exact ih h.passCycle

theorem exitTeam (h : s.Inv) {t : Team} : (s.exitTeam t).Inv := by
  unfold State.exitTeam
  split
  · exact h.modTeam
  · extract_lets s1 s2
    have h1 : s1.Inv := by
      unfold s1
      split
      · refine foldl (fun s ch h => ?_) _ h.cancelChans
        split
        · exact h.chanStop
        · exact h
      · exact h
    have h2 : s2.Inv := h1
    split
    · exact h2
    · exact h2.scrubTeam.teamGone

theorem exitStep (h : s.Inv) {t : Team} : (s.exitStep t).Inv := by
  unfold State.exitStep
  split
  · exact h
  · split
    · exact h.teamLost
    · split
      · exact h.exitTeam
      · exact h

theorem freeTables (h : s.Inv) : s.freeTables.Inv := by
  unfold State.freeTables
  split
  · exact h
  · exact h

theorem replays (h : s.Inv) : s.replays.Inv := by
  unfold State.replays
  split
  · exact h
  · refine foldl (fun _ _ h => foldl (fun s gid h => ?_) _ h) _ h
    split
    · exact h.replayOn
    · exact h

theorem settleAll (h : s.Inv) : s.settleAll.Inv := by
  unfold State.settleAll
  extract_lets s1 s2 s3 s4
  have h1 : s1.Inv := (replays h.same).barClose.examineAll
  have h3 : s3.Inv := h1.modGroups.claimBufs.trimBufs.trimClaims.trimHolds.pump.leaseClock.quantumStops
  refine freeTables ?_
  unfold s4
  split
  · exact h3
  · exact foldl (fun _ _ h => h.exitStep) _ h3

theorem actOne (h : s.Inv) {c : Choice} : OutInv (s.actOne c) := by
  unfold State.actOne
  split
  · exact h
  · exact h
  · exact h.turn
  · exact h.soloTurn
  · exact h.fetchAhead
  · exact h.moveStep
  · exact h.chanWait
  · exact h.silence
  · exact h.passCycles
  · exact h.streamFly
  · exact h.passLocals
  · change State.Inv (if _ then _ else _)
    split
    · exact h
    · exact h
  · exact h.modCore
  · exact h.mxPoison
  · exact h.obldPage
  · exact h.pktabPage
  · exact h.hostRegRead
  · exact h.same
  · exact h.same
  · exact h.same
  · exact h.klPoison
  · exact h.collWrite
  · exact h.poisonByte
  · exact h.selfPoison
  · exact h.scrPoison
  · exact h.portError
  · exact h.count
  · change State.Inv (if _ then _ else _)
    split
    · exact h.sendSnoop
    · exact h

theorem actEvent (h : s.Inv) {i : Instr} : OutInv (s.actEvent i) := by
  unfold State.actEvent
  split
  · exact h
  · split
    · exact h.exec
    · split
      · exact h.exec
      · exact h.exec
      · exact h.exec
      · exact h.exec
      · exact h.exec
      · exact h

theorem between (h : s.Inv) : s.between.Inv := by
  unfold State.between
  split
  · exact examineAll h.same
  · exact h

theorem act (h : s.Inv) {c : Choice} : OutInv (s.act c) := by
  induction c generalizing s with
  | both a b iha ihb =>
    unfold State.act
    split
    · split
      · have hb := ihb h
        split
        · next heq => exact iha (hb.next heq).between
        · exact hb
      · have ha := iha h
        split
        · next heq => exact ihb (ha.next heq).between
        · exact ha
    · exact iha h
  | ev i => exact h.actEvent
  | _ =>
    unfold State.act
    split
    · exact h.actOne
    · exact h

theorem after (h : s.Inv) : s.after.Inv := by
  refine passCycle ?_
  split
  · exact h.settleAll
  · exact h

theorem stepWith (h : s.Inv) : OutInv s.stepWith := by
  unfold State.stepWith
  extract_lets r
  have hr : OutInv r := by
    unfold r
    split
    · exact act h.same
    · exact h.act
  clear_value r
  cases r with
  | next u => exact after hr
  | fault _ => trivial
  | refused _ => trivial

end

end State.Inv

/-- Settles O5: each operation of the model keeps memory and the windows in canonical form, and a step is made of them. -/
theorem stepKeepsInv : Obligations.StepKeepsInv :=
  fun _ _ h hstep => OutInv.next h.stepWith hstep

end Sys2Proof.Machine

/-! # `MSPOLL` and `MSWAIT` (R293, R294) -/

namespace Sys2Proof.Machine

open Sys2Proof

/-- An E word run as a serial word of a `det` node sees its group with the registers that it kept. -/
theorem State.asE_serial {s : State} {t : Team} {g : Group} (h : s.Issues t g) (hmode : s.iss.mode = .serial) (hwid : s.iss.wid ≠ 0)
    (serial : Bool) (rs : List Nat) (q : BitVec 6) (x : BitVec 5) (w : Option Watch) (f : Team → Group → Res) :
    s.asE serial rs q x w f = s.finishWait rs [q.toNat] q x w (f t (g.withKept s.iss.kept)) := by
  obtain ⟨ht, hg⟩ := h
  rw [State.asE, State.asEWith, ht, hg]
  simp [hwid, hmode, State.toQueue]

/-- What `MSPOLL` gives of its counter. -/
def State.pollCtr (s : State) (q : BitVec 6) (c : Fin 4) (t : Team) (g : Group) : State :=
  let x := t.msCtr c.val
  if x.done = x.issued then (s.putStatus q stOk x.done.toNat).acquire t g 6 else s.putStatus q stBusy x.done.toNat

theorem State.execMspoll_eq (s : State) (q : BitVec 6) (c : Fin 4) :
    execMspoll q c s = s.asE true [] q 0 none (fun t g => .done (s.pollCtr q c t g)) := by
  unfold execMspoll State.pollCtr
  congr 1
  funext t g
  dsimp only
  split
  · rfl
  · rfl

/-- `MSWAIT` as it issues: at its end, or waiting. -/
theorem State.EReady.mswait {s : State} {t : Team} {g : Group} {e : EF} (h : s.EReady t g [e.p.toNat]) (c : Fin 4) :
    let x := t.msCtr c.val
    exec (.mswait e c) s = .next (if (x.done - (g.sreg e.p.toNat).setWidth 32).toNat < 2 ^ 31 then
        (s.putStatus e.q stOk x.done.toNat).acquire t g 6
      else if e.x = 0 then s.putStatus e.q stTimeout x.done.toNat
      else s.block [e.p.toNat] [e.q.toNat] e.x none x.done.toNat) := by
  intro x
  change execMswait e c s = _
  rw [execMswait, h.asE_eq]
  dsimp only
  split
  · exact State.finishWait_done ..
  · exact State.finishWait_wait h.mode_eq ..

/-- Settles O42, one case for a poll at its issue, one for a poll as a serial word, and one for a wait. -/
theorem memSideCounters : Obligations.MemSideCounters := by
  intro s t g e c x polls
  refine ⟨fun h => ?_, fun h hmode hwid => ?_, fun h => h.mswait c⟩
  · change execMspoll e.q c s = _
    rw [State.execMspoll_eq, h.asE_eq, State.finishWait_done, State.pollCtr]
  · change execMspoll e.q c s = _
    rw [State.execMspoll_eq, State.asE_serial h hmode hwid, State.finishWait_done, State.pollCtr]

end Sys2Proof.Machine

/-! # The engine of memory-side commands (R281, R285 to R288, R290, R333, R371) -/

namespace Sys2Proof.Machine

open Sys2Proof

/-! ## A byte as a stack reads it at its home -/

/-- What a stack reads of a byte: nothing where it is uncorrectable. -/
def State.homeByte (s : State) (a : Nat) : Byte := if s.homeBad a then 0 else s.atHome a

theorem State.stackReadN_eq (s : State) (pa n : Nat) : s.stackReadN pa n = (rangeFrom pa n).map s.homeByte := rfl

theorem State.unverify_eq (s : State) (a : Nat) :
    s.unverify a = { s with verified := (s.unverify a).verified } := by
  unfold State.unverify
  split <;> rfl

/-- A put into a fenced channel changes nothing. -/
theorem State.homePut_fenced {s : State} {a : Nat} (h : s.fenced a = true) (v : Byte) : s.homePut a v = s := if_pos h

/-- Where an L1 holds the byte dirty, its copy at home is replaced; else memory is written. -/
theorem State.homePut_eq {s : State} {a : Nat} (h : s.fenced a = false) (v : Byte) :
    s.homePut a v = { s with
      verified := (s.unverify a).verified
      poisoned := s.poisoned.filter (fun x => x != a)
      stale := if s.stale.any (fun e => e.1 == a) then s.stale.map (fun e => if e.1 = a then (a, v, e.2.2) else e) else s.stale
      mem := if s.stale.any (fun e => e.1 == a) then s.mem else s.mem.write a v } := by
  rw [State.homePut, if_neg (ne_true_of_eq_false h), State.unverify_eq]
  by_cases hs : s.stale.any (fun e => e.1 == a) = true
  · simp only [hs, if_true]
  · simp only [hs, Bool.false_eq_true, if_false]

theorem State.homePut_wf {s : State} (hwf : Memory.wf s.mem = true) (a : Nat) (v : Byte) : Memory.wf (s.homePut a v).mem = true := by
  by_cases hf : s.fenced a = true
  · rw [State.homePut_fenced hf]
    exact hwf
  · rw [State.homePut_eq (by simpa using hf)]
    dsimp only
    split
    · exact hwf
    · exact Memory.write_wf a v hwf

theorem State.read_homePut_ne {s : State} (hwf : Memory.wf s.mem = true) {a b : Nat} (hb : b ≠ a) (v : Byte) :
    (s.homePut a v).mem.read b = s.mem.read b := by
  by_cases hf : s.fenced a = true
  · rw [State.homePut_fenced hf]
  · rw [State.homePut_eq (by simpa using hf)]
    dsimp only
    split
    · rfl
    · exact Memory.read_write_ne v hwf hb

theorem State.fenced_homePut (s : State) (a b : Nat) (v : Byte) : (s.homePut a v).fenced b = s.fenced b := by
  by_cases hf : s.fenced a = true
  · rw [State.homePut_fenced hf]
  · rw [State.homePut_eq (by simpa using hf)]
    rfl

theorem State.homeBad_homePut_self {s : State} {a : Nat} (hf : s.fenced a = false) (v : Byte) : (s.homePut a v).homeBad a = false := by
  rw [State.homeBad, State.fenced_homePut, hf, State.homePut_eq hf]
  simp

theorem State.homeBad_homePut_ne (s : State) {a b : Nat} (hb : b ≠ a) (v : Byte) : (s.homePut a v).homeBad b = s.homeBad b := by
  rw [State.homeBad, State.fenced_homePut, State.homeBad]
  by_cases hf : s.fenced a = true
  · rw [State.homePut_fenced hf]
  · rw [State.homePut_eq (by simpa using hf)]
    simp [hb]

theorem State.atHome_homePut_self {s : State} (hwf : Memory.wf s.mem = true) {a : Nat} (hf : s.fenced a = false) (v : Byte) :
    (s.homePut a v).atHome a = v := by
  rw [State.homePut_eq hf, State.atHome]
  by_cases hs : s.stale.any (fun e => e.1 == a) = true
  · have hfind : ∀ l : List (Nat × Byte × Nat), l.any (fun e => e.1 == a) = true →
        ∃ e, (l.map (fun e => if e.1 = a then (a, v, e.2.2) else e)).find? (fun e => e.1 == a) = some e ∧ e.2.1 = v := by
      intro l
      induction l with
      | nil => simp
      | cons e l ih =>
        intro hl
        by_cases he : e.1 = a
        · simp [he]
        · obtain ⟨x, hx, hxv⟩ := ih (by simpa [he] using hl)
          exact ⟨x, by simpa [he] using hx, hxv⟩
    obtain ⟨e, he, hev⟩ := hfind s.stale hs
    simp only [hs, if_true, he, hev]
  · have hnone : s.stale.find? (fun e => e.1 == a) = none :=
      List.find?_eq_none.2 (fun e he hea => hs (List.any_eq_true.2 ⟨e, he, hea⟩))
    simp only [hs, Bool.false_eq_true, if_false, hnone]
    exact Memory.read_write_self a v hwf

theorem State.atHome_homePut_ne {s : State} (hwf : Memory.wf s.mem = true) {a b : Nat} (hb : b ≠ a) (v : Byte) :
    (s.homePut a v).atHome b = s.atHome b := by
  have hstale : (s.homePut a v).stale.find? (fun e => e.1 == b) = s.stale.find? (fun e => e.1 == b) := by
    by_cases hf : s.fenced a = true
    · rw [State.homePut_fenced hf]
    · rw [State.homePut_eq (by simpa using hf)]
      dsimp only
      split
      · induction s.stale with
        | nil => rfl
        | cons e l ih =>
          by_cases he : e.1 = a
          · simpa [he, Ne.symm hb] using ih
          · by_cases heb : e.1 = b
            · simp [heb, hb]
            · simpa [he, heb] using ih
      · rfl
  rw [State.atHome, hstale, State.read_homePut_ne hwf hb, State.atHome]

/-- A byte put at its home reads back there, outside a fenced channel. -/
theorem State.homeByte_homePut_self {s : State} (hwf : Memory.wf s.mem = true) {a : Nat} (hf : s.fenced a = false) (v : Byte) :
    (s.homePut a v).homeByte a = v := by
  rw [State.homeByte, State.homeBad_homePut_self hf, if_neg Bool.false_ne_true, State.atHome_homePut_self hwf hf]

theorem State.homeByte_homePut_ne {s : State} (hwf : Memory.wf s.mem = true) {a b : Nat} (hb : b ≠ a) (v : Byte) :
    (s.homePut a v).homeByte b = s.homeByte b := by
  rw [State.homeByte, State.homeBad_homePut_ne s hb, State.atHome_homePut_ne hwf hb, State.homeByte]

/-! ## Cells that a stack writes -/

theorem State.homeByte_stackCells_ne {cells : List (Nat × Byte)} {s : State} (hwf : Memory.wf s.mem = true) {a : Nat}
    (ha : ∀ c ∈ cells, a ≠ c.1) : (s.putCells 3 cells).homeByte a = s.homeByte a ∧ (s.putCells 3 cells).mem.read a = s.mem.read a := by
  induction cells generalizing s with
  | nil => exact ⟨rfl, rfl⟩
  | cons c cs ih =>
    have hc := ha c List.mem_cons_self
    obtain ⟨hbyte, hmem⟩ := ih (State.homePut_wf hwf c.1 c.2) (fun d hd => ha d (List.mem_cons_of_mem c hd))
    exact ⟨hbyte.trans (State.homeByte_homePut_ne hwf hc c.2), hmem.trans (State.read_homePut_ne hwf hc c.2)⟩

theorem State.homeByte_stackCells {cells : List (Nat × Byte)} (hrise : cells.Pairwise (fun c d => c.1 < d.1)) {s : State}
    (hwf : Memory.wf s.mem = true) (hf : ∀ c ∈ cells, s.fenced c.1 = false) :
    ∀ c ∈ cells, (s.putCells 3 cells).homeByte c.1 = c.2 := by
  induction cells generalizing s with
  | nil => simp
  | cons c cs ih =>
    obtain ⟨hc, hcs⟩ := List.pairwise_cons.1 hrise
    have hwf1 := State.homePut_wf hwf c.1 c.2
    intro d hd
    rcases List.mem_cons.1 hd with rfl | hd
    · have hrest := (State.homeByte_stackCells_ne hwf1 (cells := cs) (a := d.1) (fun e he => Nat.ne_of_lt (hc e he))).1
      exact hrest.trans (State.homeByte_homePut_self hwf (hf d List.mem_cons_self) d.2)
    · exact ih hcs hwf1 (fun e he => (State.fenced_homePut s c.1 e.1 c.2).trans (hf e (List.mem_cons_of_mem c he))) d hd

/-- Bytes that a stack writes outside fenced channels read back, and every other byte of memory is as before. -/
theorem State.stackReadN_stackCells {s : State} (hwf : Memory.wf s.mem = true) {pa : Nat} {bs : List Byte}
    (hf : ∀ k, k < bs.length → s.fenced (pa + k) = false) :
    (s.putCells 3 (cellsAt pa bs)).stackReadN pa bs.length = bs ∧
      ∀ a, (a < pa ∨ pa + bs.length ≤ a) → (s.putCells 3 (cellsAt pa bs)).mem.read a = s.mem.read a := by
  have hcells := State.homeByte_stackCells (cellsAt_rise pa bs) hwf (fun c hc => by
    obtain ⟨k, hk, hpa⟩ := mem_cellsAt hc
    exact hpa ▸ hf k hk)
  refine ⟨List.ext_getElem (by simp [State.stackReadN_eq, rangeFrom]) (fun k hk hk' => ?_), fun a ha => ?_⟩
  · simp only [State.stackReadN_eq, rangeFrom, List.map_map, List.getElem_map, List.getElem_range, Function.comp]
    exact hcells _ (mem_cellsAt_of_lt pa hk')
  · refine (State.homeByte_stackCells_ne hwf (fun c hc => ?_)).2
    obtain ⟨k, hk, hpa⟩ := mem_cellsAt hc
    omega

/-! ## An element of a line job -/

theorem Poisons.msPoison (s : State) (by_ : Issuer) (core pa va : Nat) : Poisons s (s.msPoison by_ core pa va) := by
  unfold State.msPoison
  split
  · exact Poisons.meetPoisonPage s by_ core va
  · exact Poisons.meetAt s by_ va _

theorem Poisons.msPoisons (by_ : Issuer) (core : Nat) (xs : List JobSrc) (s : State) :
    Poisons s (xs.foldl (fun s x => s.msPoison by_ core x.pa x.va) s) :=
  Poisons.foldl (fun _ _ => Poisons.msPoison _ _ _ _ _) xs s

theorem Poisons.homes {s s' : State} (h : Poisons s s') : s'.mem = s.mem ∧ ∀ a, s'.fenced a = s.fenced a :=
  ⟨h.keep State.mem (fun _ _ _ => rfl), fun a => h.keep (fun u => u.fenced a) (fun _ _ _ => rfl)⟩

/-- A destination that can be read is outside the fenced channels. -/
theorem State.fenced_of_msBadAt {s : State} {pa n k : Nat} (h : s.msBadAt pa n = false) (hk : k < n) : s.fenced (pa + k) = false := by
  simp only [State.msBadAt, State.stackBad, Bool.or_eq_false_iff, any_eq_false_iff] at h
  have hbad := h.2 (pa + k) (mem_rangeFrom.2 ⟨by omega, by omega⟩)
  simp only [State.homeBad, Bool.or_eq_false_iff] at hbad
  exact hbad.2

/-- An element whose destination can be read takes its value, and no other byte of memory changes. -/
theorem State.jobElem_writes {s : State} {by_ : Issuer} {core : Nat} {j : Job} {e : JobElem} (hdst : s.msBadAt e.dst 4 = false)
    (hwf : Memory.wf s.mem = true) (s0 : State) :
    let v := jobValue j.atom j.zero j.op (leNat (s.stackReadN e.dst 4)) (e.srcs.map (fun x => ((s0.srcNow j.sfmt x).1, x.w)))
    let s' := s0.jobElem by_ core j s e
    s'.stackReadN e.dst 4 = leBytes 4 v ∧ ∀ a, (a < e.dst ∨ e.dst + 4 ≤ a) → s'.mem.read a = s.mem.read a := by
  intro v s'
  obtain ⟨hmem, hfence⟩ := (Poisons.msPoisons by_ core (e.srcs.filter (fun x => (s0.srcNow j.sfmt x).2)) s).homes
  have hs' : s' = ((e.srcs.filter (fun x => (s0.srcNow j.sfmt x).2)).foldl (fun s x => s.msPoison by_ core x.pa x.va) s).putCells 3
      (cellsAt e.dst (leBytes 4 v)) := by
    unfold s' State.jobElem
    exact if_neg (ne_true_of_eq_false hdst)
  have hput := State.stackReadN_stackCells (pa := e.dst) (bs := leBytes 4 v) (hmem ▸ hwf) (fun k hk => by
    rw [hfence]
    exact State.fenced_of_msBadAt hdst (by simpa using hk))
  rw [length_leBytes] at hput
  rw [hs', ← hmem]
  exact hput

/-- An element leaves the commands and the jobs as they are. -/
theorem State.jobElem_cmds (s0 s : State) (by_ : Issuer) (core : Nat) (j : Job) (e : JobElem) :
    (s0.jobElem by_ core j s e).jobs = s.jobs ∧ (s0.jobElem by_ core j s e).cmds = s.cmds := by
  have hpoison := Poisons.msPoisons by_ core (e.srcs.filter (fun x => (s0.srcNow j.sfmt x).2)) s
  have hkeep {u : State} (h : Poisons s u) : u.jobs = s.jobs ∧ u.cmds = s.cmds :=
    ⟨h.keep State.jobs (fun _ _ _ => rfl), h.keep State.cmds (fun _ _ _ => rfl)⟩
  unfold State.jobElem
  extract_lets vals s1 s2
  have h2 : Poisons s s2 := hpoison.trans (Poisons.msPoison _ _ _ _ _)
  split
  · split
    · exact hkeep h2
    · exact hkeep (h2.trans (Poisons.count _ _ _ _))
  · obtain ⟨hj, hc⟩ := hkeep hpoison
    have hput := AtHomes.putCells s1 3 (cellsAt e.dst (leBytes 4 (jobValue j.atom j.zero j.op (leNat (s.stackReadN e.dst 4)) vals)))
    exact ⟨(hput.keep State.jobs (fun _ _ => rfl)).trans hj, (hput.keep State.cmds (fun _ _ => rfl)).trans hc⟩

theorem State.jobElems_cmds (s0 : State) (by_ : Issuer) (core : Nat) (j : Job) (es : List JobElem) (s : State) :
    (es.foldl (s0.jobElem by_ core j) s).jobs = s.jobs ∧ (es.foldl (s0.jobElem by_ core j) s).cmds = s.cmds :=
  foldl_related (R := fun u v : State => v.jobs = u.jobs ∧ v.cmds = u.cmds) (fun _ => ⟨rfl, rfl⟩)
    (fun h1 h2 => ⟨h2.1.trans h1.1, h2.2.trans h1.2⟩) (fun u e => s0.jobElem_cmds u by_ core j e) es s

/-! ## A line job -/

/-- The jobs left once a job of a command is performed. -/
def State.jobsLeft (s : State) (c : MsCmd) (j : Job) (rest : List Job) : List Job :=
  match c.dest with
  | .kl _ => if j.atom then rest else s.fixJobs j rest
  | .counter _ => rest

theorem State.length_jobsLeft (s : State) (c : MsCmd) (j : Job) (rest : List Job) : (s.jobsLeft c j rest).length = rest.length := by
  unfold State.jobsLeft
  split
  · split
    · rfl
    · exact List.length_map ..
  · rfl

theorem State.execLineJob_eq {s : State} {c : MsCmd} {chan : Nat} {j : Job} {rest : List Job} (hj : takeJob chan s.jobs = some (j, rest))
    (hheld : s.jobHeld j = false) (hc : s.cmds.find? (fun x => x.id == j.cmd) = some c) :
    let s1 := j.elems.foldl (s.jobElem c.by_ c.core j) { s with jobs := s.jobsLeft c j rest }
    exec (.lineJob chan) s =
      .next { s1 with cmds := s1.cmds.map (fun x => if x.id = c.id then { x with left := x.left - 1 } else x) } := by
  change execLineJob chan s = _
  rw [execLineJob, hj]
  dsimp only
  rw [hheld, if_neg Bool.false_ne_true, hc]
  rfl

/-! ## The end of a command -/

theorem State.execMsCommandComplete_eq {s : State} {c : MsCmd} (hc : s.cmds.find? (fun x => x.id == c.id) = some c) :
    exec (.msCommandComplete c.id) s = if c.left ≠ 0 || c.tctr.any s.ctrBusy then .next s else
      let s1 := { s with cmds := s.cmds.filter (fun x => x.id != c.id) }.countDone c.by_.team c.dest
      .next (match c.tctr with
        | some a => s1.engineDecr a 1
        | none => s1) := by
  change execMsCommandComplete c.id s = _
  rw [execMsCommandComplete, hc] <;> rfl

/-- A command of a counter that is done advances the counter's `DONE`, and leaves its `ISSUED`. -/
theorem State.msCtr_countDone {s : State} {id : TeamId} {k : Nat} {t t' : Team} (ht : s.team? id = some t) (hk : k < t.ms.length)
    (ht' : (s.countDone id (.counter k)).team? id = some t') :
    (t'.msCtr k).done = (t.msCtr k).done + 1 ∧ (t'.msCtr k).issued = (t.msCtr k).issued := by
  rw [State.countDone, State.team?_modTeam_self _ _ (by exact fun _ => rfl), ht] at ht'
  cases ht'
  simp only [Team.msCtr, getD_modAt_self _ _ hk, and_self]

/-- Settles O43: an element writes its destination alone and no list of the engine, and a command's end reads its parts. -/
theorem memSideEngine : Obligations.MemSideEngine := by
  refine ⟨fun s c => ⟨fun chan j rest hj hheld hc => ?job, fun hc => ?done⟩, fun s0 s by_ core j e hdst hwf => State.jobElem_writes hdst hwf s0⟩
  case job =>
    intro left
    obtain ⟨hjobs, hcmds⟩ := s.jobElems_cmds c.by_ c.core j j.elems { s with jobs := s.jobsLeft c j rest }
    exact ⟨_, State.execLineJob_eq hj hheld hc, hjobs, s.length_jobsLeft c j rest, rfl, by rw [hcmds]⟩
  case done =>
    intro s1
    rw [State.execMsCommandComplete_eq hc]
    refine ⟨fun hleft => if_pos (by simp [hleft]), fun hleft htc => ?_, fun pa hleft htc hbusy => ?_, fun k t t' hd ht hk ht' => ?_⟩
    · rw [if_neg (by simp [hleft, htc]), htc]
    · rw [if_neg (by simp [hleft, htc, hbusy]), htc]
    · unfold s1 at ht'
      rw [hd] at ht'
      exact State.msCtr_countDone (s := { s with cmds := s.cmds.filter (fun x => x.id != c.id) }) ht hk ht'

end Sys2Proof.Machine

/-! # Taking a trap, and the software trap (R297 to R300, R307) -/

namespace Sys2Proof.Machine

open Sys2Proof

/-! ## Fields of bytes that stand one after the other -/

theorem field_leBytes_skip {k o : Nat} (h : k ≤ o) (v n : Nat) (bs : List Byte) :
    field (leBytes k v ++ bs) o n = field bs (o - k) n := by
  rw [field, field, List.drop_append, List.drop_eq_nil_of_le (by rwa [length_leBytes]), List.nil_append, length_leBytes]

theorem field_leBytes_here (k v : Nat) (bs : List Byte) : field (leBytes k v ++ bs) 0 k = v % 256 ^ k := by
  rw [field, List.drop_zero, List.take_left' (length_leBytes k v), leNat_leBytes]

/-! ## The frame -/

/-- What a trap's frame holds (TF1, R300). -/
theorem State.frameBytes_fields (s : State) (t : Team) (g : Group) (id : GrpId) (x : Trap) (pc : VAddr) (lr2 : Bool) :
    let bs := s.frameBytes t g id x pc lr2
    bs.length = (if lr2 then 128 else 64) ∧ field bs 0 8 = pc.toNat ∧ field bs 8 1 = x.cause % 256 ∧
      field bs 9 1 = x.detail % 256 ∧ field bs 16 8 = x.addr % 2 ^ 64 ∧ field bs 24 8 = x.aux % 2 ^ 64 ∧
      field bs 32 8 = (g.sreg 8).toNat ∧ field bs 40 8 = (g.sreg 9).toNat := by
  intro bs
  have hpc : pc.toNat % 256 ^ 8 = pc.toNat := Nat.mod_eq_of_lt (Nat.lt_of_lt_of_le pc.isLt (by decide))
  have hreg (r : Reg) : r.toNat % 256 ^ 8 = r.toNat := Nat.mod_eq_of_lt (Nat.lt_of_lt_of_le r.isLt (by decide))
  simp only [bs, State.frameBytes, List.append_assoc]
  refine ⟨?_, ?_, ?_, ?_, ?_, ?_, ?_, ?_⟩
  · cases lr2
    · simp
    · simp
  · rw [field_leBytes_here, hpc]
  · rw [field_leBytes_skip (by decide), field_leBytes_here, Nat.pow_one]
  · iterate 2 rw [field_leBytes_skip (by decide)]
    rw [field_leBytes_here, Nat.pow_one]
  · iterate 7 rw [field_leBytes_skip (by decide)]
    exact field_leBytes_here 8 _ _
  · iterate 8 rw [field_leBytes_skip (by decide)]
    exact field_leBytes_here 8 _ _
  · iterate 9 rw [field_leBytes_skip (by decide)]
    exact (field_leBytes_here 8 _ _).trans (hreg _)
  · iterate 10 rw [field_leBytes_skip (by decide)]
    exact (field_leBytes_here 8 _ _).trans (hreg _)

/-! ## Entry -/

/-- A group as it enters trap mode at a vector, its receiving path standing there (R299). -/
def Group.trapped (g : Group) (path : Mask) (cause : Nat) (vec : VAddr) : Group :=
  { g.killLatches.onThreads path (fun _ th => { th with pc := vec }) with
    trapMask := some path
    trapCause := cause
    cur := some vec
    packet := none
    stream := []
    lastMask := 0 }

theorem Group.trapped_thread {g : Group} (path : Mask) (cause : Nat) (vec : VAddr) {k : Nat} {th : Thread}
    (hth : g.threads[k]? = some th) :
    ∃ th', (g.trapped path cause vec).threads[k]? = some th' ∧ th'.v = th.v ∧ th'.p = th.p ∧ (∀ b ∈ th'.lat, b.live = false) ∧
      th'.pc = if path.getLsbD k then vec else th.pc := by
  have hkill : g.killLatches.threads[k]? = some th.killLatches := by simp [Group.killLatches, hth]
  have hlive := Group.live_killLatches (List.mem_of_getElem? hkill)
  refine ⟨_, (Group.onThreads_get ..).trans (by rw [hkill]; rfl), ?_⟩
  cases hk : path.getLsbD k
  · exact ⟨rfl, rfl, hlive, rfl⟩
  · exact ⟨rfl, rfl, hlive, rfl⟩

/-- A trap taken outside trap mode: the frame is stored, then the team and the group alone change. -/
theorem State.takeTrap_eq {s : State} {id : GrpId} {t : Team} {g : Group} {l : Launch} {seg : Nat × Option Nat} {ps : List Part}
    {path : Mask} {x : Trap} {pc : VAddr} (ht : s.team? id.team = some t) (hg : s.grp? id = some g)
    (hl : s.launch? id.team = some l) (hm : g.trapMask = none)
    (hseg : (s.countTrap g.core t.space x).segmentFor id.team x.cause = some seg) :
    let s0 := s.countTrap g.core t.space x
    let bs := s0.frameBytes t g id x pc l.lr2
    s0.xlatElem g.core t.space (l.frame id.team.idx id.grp) bs.length .write = .ok ps →
    s.takeTrap id path x pc =
      (((s0.crossing ps).storeElem g.core false false ps bs).modTeam id.team (fun t =>
        { t with lastCause := x.cause, poisonAddr := if x.cause = 12 then none else t.poisonAddr })).modGrp id
        (fun g => g.trapped path x.cause (BitVec.ofNat 56 (seg.1 + 128 * x.cause))) := by
  intro s0 bs hx
  simp only [State.takeTrap, ht, hg, hl, hm, hseg]
  rw [show (s.countTrap g.core t.space x).xlatElem g.core t.space (l.frame id.team.idx id.grp)
    ((s.countTrap g.core t.space x).frameBytes t g id x pc l.lr2).length .write = .ok ps from hx]
  rfl

/-- The group after a trap, by the group as the frame's store leaves it. -/
theorem State.grp?_takeTrap {s : State} {id : GrpId} {t : Team} {g : Group} {l : Launch} {seg : Nat × Option Nat} {ps : List Part}
    {path : Mask} {x : Trap} {pc : VAddr} (ht : s.team? id.team = some t) (hg : s.grp? id = some g)
    (hl : s.launch? id.team = some l) (hm : g.trapMask = none)
    (hseg : (s.countTrap g.core t.space x).segmentFor id.team x.cause = some seg) :
    let s0 := s.countTrap g.core t.space x
    let bs := s0.frameBytes t g id x pc l.lr2
    s0.xlatElem g.core t.space (l.frame id.team.idx id.grp) bs.length .write = .ok ps →
    let s1 := (s0.crossing ps).storeElem g.core false false ps bs
    (s.takeTrap id path x pc).mem = s1.mem ∧ (s.takeTrap id path x pc).grp? id =
      (s1.grp? id).map (fun y => y.trapped path x.cause (BitVec.ofNat 56 (seg.1 + 128 * x.cause))) := by
  intro s0 bs hx s1
  rw [State.takeTrap_eq ht hg hl hm hseg hx]
  refine ⟨rfl, ?_⟩
  rw [State.grp?_modGrp_self, State.grp?_modTeam _ _ _ (by exact fun _ => rfl) (by exact fun _ => rfl)]

/-! ## The software trap -/

/-- A trap of a lower cause comes first: it can be taken outside a latch run (R298). -/
def State.lowerTrap (s : State) (t : Team) (g : Group) : Prop :=
  g.trapMask = none ∧ s.inRun t.space g = false ∧ ∃ y, s.nextTrap s.iss.grp g = some y ∧ y.cause < 13

theorem State.execTrap_eq {s : State} {t : Team} {g : Group} (h : s.Issues t g) (code : BitVec 8) :
    exec (.trap code) s =
      if !(g.trapMask.isNone && !(s.inRun t.space g) && (s.nextTrap s.iss.grp g).any (fun x => decide (x.cause < 13))) &&
          (Mask.list s.iss.mask g.width).all (fun i => (g.thread i).runnable)
      then .next (s.takeTrap s.iss.grp s.iss.mask (s.softTrap code) s.iss.next)
      else .next (s.modGrp s.iss.grp (fun x => x.pend (s.softTrap code))) := by
  obtain ⟨ht, hg⟩ := h
  change execTrap code s = _
  rw [execTrap, State.asWord_eq ht hg]
  dsimp only
  split
  · rfl
  · rfl

theorem State.lowerTrap_iff (s : State) (t : Team) (g : Group) : s.lowerTrap t g ↔
    (g.trapMask.isNone && !(s.inRun t.space g) && (s.nextTrap s.iss.grp g).any (fun x => decide (x.cause < 13))) = true := by
  simp [State.lowerTrap, Option.any_eq_true, and_assoc]

theorem Mask.all_list {m : Mask} {w : Nat} {p : Nat → Bool} :
    (Mask.list m w).all p = true ↔ ∀ k, k < w → m.getLsbD k = true → p k = true := by
  rw [List.all_eq_true]
  refine ⟨fun h k hk hm => h k (List.mem_filter.2 ⟨List.mem_range.2 hk, hm⟩), fun h k hk => ?_⟩
  obtain ⟨hw, hm⟩ := List.mem_filter.1 hk
  exact h k (List.mem_range.1 hw) hm

/-- `TRAP` takes `SOFTWARE`: nothing of a lower cause comes first, and no wait of its chain group has blocked a thread (R298). -/
theorem State.execTrap_takes {s : State} {t : Team} {g : Group} (h : s.Issues t g) {code : BitVec 8} (hlow : ¬ s.lowerTrap t g)
    (hrun : ∀ k, k < g.width → s.iss.mask.getLsbD k = true → (g.thread k).runnable = true) :
    exec (.trap code) s = .next (s.takeTrap s.iss.grp s.iss.mask (s.softTrap code) s.iss.next) := by
  rw [State.execTrap_eq h, if_pos]
  rw [Bool.and_eq_true, Bool.not_eq_true', ← Bool.not_eq_true, ← State.lowerTrap_iff]
  exact ⟨hlow, Mask.all_list.2 hrun⟩

/-- Else `SOFTWARE` is pending. -/
theorem State.execTrap_pends {s : State} {t : Team} {g : Group} (h : s.Issues t g) {code : BitVec 8}
    (hno : s.lowerTrap t g ∨ ∃ k, k < g.width ∧ s.iss.mask.getLsbD k = true ∧ (g.thread k).runnable = false) :
    exec (.trap code) s = .next (s.modGrp s.iss.grp (fun y => y.pend (s.softTrap code))) := by
  rw [State.execTrap_eq h, if_neg]
  rw [Bool.and_eq_true, Bool.not_eq_true', ← Bool.not_eq_true, ← State.lowerTrap_iff, Mask.all_list]
  rintro ⟨hlow, hrun⟩
  rcases hno with hl | ⟨k, hk, hm, hstop⟩
  · exact hlow hl
  · exact absurd (hrun k hk hm) (ne_true_of_eq_false hstop)

/-- What the store of a frame leaves of a group: all but its waits. -/
theorem State.frameStored {s : State} {k : GrpId} {g : Group} (hg : s.grp? k = some g) (core : Nat) (ps : List Part) (bs : List Byte) :
    ∃ g1, ((s.crossing ps).storeElem core false false ps bs).grp? k = some g1 ∧ g1.s = g.s ∧ g1.threads = g.threads := by
  obtain ⟨g1, hg1, hsame⟩ := ((Notices.crossing s ps).trans (Notices.storeElem _ core false false ps bs)).grp_some hg
  exact ⟨g1, hg1, Group.s_of_waitless hsame, Group.threads_of_waitless hsame⟩

/-- Settles O17: the frame by its fields, entry by the one group that it changes, and `TRAP` by what stands before it. -/
theorem trapEntry : Obligations.TrapEntry := by
  refine ⟨fun s id t g l seg ps path x pc ht hg hl hm => ?taken, fun s t g code h => ?soft⟩
  case taken =>
    intro s0 hseg bs
    obtain ⟨hlen, hpc, hcause, hdetail, haddr, haux, h8, h9⟩ := s0.frameBytes_fields t g id x pc l.lr2
    refine ⟨hlen, hpc, hcause, hdetail, haddr, haux, h8, h9, fun hx => ?_⟩
    obtain ⟨hmem, hgrp⟩ := State.grp?_takeTrap (path := path) ht hg hl hm hseg hx
    exact ⟨hmem, _, hgrp, fun y => ⟨rfl, rfl, rfl, rfl, rfl, fun k th hth => Group.trapped_thread path _ _ hth⟩⟩
  case soft =>
    intro x lower
    refine ⟨fun hlow hrun => State.execTrap_takes h hlow hrun, fun hlow hrun l seg ps hm hl hseg => ?_,
      fun k hk hmask hstop => State.execTrap_pends h (.inr ⟨k, hk, hmask, hstop⟩), fun hlow => State.execTrap_pends h (.inl hlow)⟩
    intro bs hx
    obtain ⟨ht, hg⟩ := h
    obtain ⟨-, hpc, hcause, -, -, haux, -⟩ := s.frameBytes_fields t g s.iss.grp x s.iss.next l.lr2
    have hcode : code.toNat % 2 ^ 64 = code.toNat := Nat.mod_eq_of_lt (Nat.lt_of_lt_of_le code.isLt (by decide))
    obtain ⟨hmem, hgrp⟩ := State.grp?_takeTrap (path := s.iss.mask) (x := x) (pc := s.iss.next) ht hg hl hm hseg hx
    obtain ⟨g1, hg1, hs1, hthreads⟩ := State.frameStored hg g.core ps bs
    refine ⟨hpc, hcause, haux.trans hcode, _, g1.trapped s.iss.mask 13 (BitVec.ofNat 56 (seg.1 + 128 * 13)),
      State.execTrap_takes ⟨ht, hg⟩ hlow hrun, hmem, hgrp.trans (congrArg _ hg1), rfl, rfl, rfl, hs1, fun k th hk hth => ?_⟩
    obtain ⟨th', hth', hv, hp, -, hpc'⟩ := Group.trapped_thread s.iss.mask 13 (BitVec.ofNat 56 (seg.1 + 128 * 13))
      (g := g1) (hthreads ▸ hth)
    exact ⟨th', hth', hpc'.trans (if_pos hk), hv, hp⟩

end Sys2Proof.Machine

/-! # `LDSUB` (R314, R315, R322, R323) -/

namespace Sys2Proof.Machine

open Sys2Proof

/-! ## What the load of an `LDSUB` leaves -/

/-- From one state to another the word in issue, the s registers and the subscriptions are as before, and so is the slice of every
address. -/
structure SubKeeps (s s' : State) : Prop where
  regs : RegsKeep s s'
  subs : s'.subs = s.subs
  slice : s'.sliceOf = s.sliceOf

namespace SubKeeps

theorem refl (s : State) : SubKeeps s s := ⟨.refl s, rfl, rfl⟩

theorem trans {s s' s'' : State} (h1 : SubKeeps s s') (h2 : SubKeeps s' s'') : SubKeeps s s'' :=
  ⟨h1.regs.trans h2.regs, h2.subs.trans h1.subs, h2.slice.trans h1.slice⟩

theorem of_poisons {s s' : State} (h : Poisons s s') : SubKeeps s s' :=
  ⟨.of_poisons h, h.keep State.subs (fun _ _ _ => rfl), h.keep State.sliceOf (fun _ _ _ => rfl)⟩

theorem of_homes {s s' : State} (hn : Notices s s') (ha : AtHomes s s') : SubKeeps s s' :=
  ⟨.of_notices hn, ha.keep State.subs (fun _ _ => rfl), ha.keep State.sliceOf (fun _ _ => rfl)⟩

theorem subClean (s : State) (core : Nat) (x : Xlat) : SubKeeps s (s.subClean core x) := by
  unfold State.subClean
  split_ifs
  · exact refl s
  · exact of_homes (.recallLine s _) (.recallLine s _)
  · exact of_homes (.writeBack s _ _) (.writeBack s _ _)
  · exact refl s

theorem saw (s : State) (g : GrpId) (pas : List Nat) : SubKeeps s (s.saw g pas) := by
  refine ⟨.saw s g pas, ?_, ?_⟩ <;> unfold State.saw <;> extract_lets ids <;> split <;> rfl

theorem subRead (s : State) (core va : Nat) (x : Xlat) (n : Nat) : SubKeeps s (s.subRead core va x n).1 := by
  unfold State.subRead
  split
  · exact of_poisons (.meetPoisonPage s _ _ _)
  · extract_lets s1 s2
    have h2 : SubKeeps s s2 := (subClean s core x).trans (saw _ _ _)
    generalize (if x.memside = true then s2.stackBad x.pa n else s2.anyHomeBad x.pa n) = bad
    split
    · exact h2.trans (of_poisons (.meetAt s2 _ _ _))
    · exact h2

/-- A group still stands. -/
theorem grp_some {s s' : State} (h : SubKeeps s s') {k : GrpId} {g : Group} (hg : s.grp? k = some g) : ∃ g', s'.grp? k = some g' := by
  have hs := h.regs.regs k
  rw [hg, Option.map_some, Option.map_eq_some_iff] at hs
  obtain ⟨g', hg', -⟩ := hs
  exact ⟨g', hg'⟩

end SubKeeps

/-! ## A new subscription -/

theorem Group.sPending_owe (g : Group) {qs : List Nat} {q : Nat} (hq : q ∈ qs) (h0 : q ≠ 0) (id : Nat) :
    (g.owe qs id).sPending [q] = true := by
  refine List.any_eq_true.2 ⟨(q, id), List.mem_append_right _ (List.mem_map.2 ⟨q, List.mem_filter.2 ⟨hq, by simpa using h0⟩, rfl⟩), ?_⟩
  simp

/-- Its home entry stands, its value is in flight, and its two registers are owed. -/
theorem State.subscribe_eq {s : State} {g : Group} (hg : s.grp? s.iss.grp = some g) (hwid : s.iss.wid = 0) (t : Team) (q : BitVec 6)
    (pa size off : Nat) (v : Reg) :
    (s.subscribe t q pa size off v).mem = s.mem ∧
    (s.subscribe t q pa size off v).subs = s.subs ++ [⟨s.fresh, pa, size, t.id, t.coreAt off, off, false⟩] ∧
    (s.subscribe t q pa size off v).flights =
      s.flights ++ [⟨s.fresh, t.id, off, v, .landing s.issuer q.toNat size, s.sliceOf pa, 0, []⟩] ∧
    (s.subscribe t q pa size off v).grp? s.iss.grp = some (g.owe [q.toNat, q.toNat + 1] s.fresh) := by
  refine ⟨rfl, rfl, rfl, ?_⟩
  unfold State.subscribe
  extract_lets id sub fl src s1
  have hg1 : s1.grp? s.iss.grp = some g := hg
  rw [State.grp?_modGrp_self, hg1, Option.map_some, Group.passOn, if_pos hwid]

/-! ## The word -/

section
variable {s : State} {t : Team} {g : Group} {p q : BitVec 6} {n : Fin 8} {a : ScrAt} (h : s.EReady t g [p.toNat, p.toNat + 1])
  (hat : s.scrAt t.id (g.sreg (p.toNat + 1)).toNat 16 = .ok a) (hal : (g.sreg (p.toNat + 1)).toNat % 16 = 0)
  (hrange : s.inRange a.team a.off 16 = false) (hheld : s.winHeld a.team a.off 16 = false)

include h hat hal hrange hheld

/-- `LDSUB` of a slot in reach that is in use, or of a sibling. -/
theorem exec_ldsub_refused (hno : fld (g.sreg (p.toNat + 1)).toNat 22 1 = 1 ∨ (s.slot a.team a.off).live = true ∨
      (s.slot a.team a.off).ending = true) :
    exec (.ldsub p q n) s =
      .next (s.putPair q stRejected (s.slot a.team a.off).seq.toNat (s.slot a.team a.off).value) := by
  change execLdsub p q n s = _
  rw [execLdsub, h.asEPair_eq, State.slotAt]
  dsimp only
  rw [hat]
  dsimp only
  rw [if_neg (not_not_intro hal), hrange, hheld, if_neg (by decide), if_pos (by
    rcases hno with h1 | h2 | h3
    · simp [h1]
    · simp [h2]
    · simp [h3])]
  rfl

variable (hown : fld (g.sreg (p.toNat + 1)).toNat 22 1 = 0) (hlive : (s.slot a.team a.off).live = false)
  (hend : (s.slot a.team a.off).ending = false) {x : Xlat}
  (hx : s.translate g.core t.space (va56 (g.sreg p.toNat).toNat) .read = .ok x)

include hown hlive hend hx

/-- `LDSUB` of a free slot of the own window, at a location that translates. -/
theorem exec_ldsub_free : exec (.ldsub p q n) s =
    s.finishWait [p.toNat, p.toNat + 1] [q.toNat, q.toNat + 1] q 0 none
      (let va := va56 (g.sreg p.toNat).toNat
       let size := n.val + 1
       if 128 < va % 128 + size then s.subRefused q (s.slot a.team a.off)
       else if s.partBusy g ⟨x, va, size⟩ then .stall .busy
       else if !x.poison && (let s1 := s.subClean g.core x; (rangeFrom x.pa size).any (fun b => s1.ownHeld g.core b ||
           x.attr == 1 && (s1.core g.core).self.any (fun c => c.pa == b && c.dirty))) then .stall .flush
       else
         let r := s.subRead g.core va x size
         Res.gated (.done (if s.noSub t.id x then
             (r.1.setSlot t.id a.off { value := r.2, seq := 0, flags := BitVec.ofNat 32 (n.val * 2 ^ 8) }).putPair q stNosub 0 r.2
           else r.1.subscribe t q (s.fwd x.pa) size a.off r.2)) s t g) := by
  change execLdsub p q n s = _
  rw [execLdsub, h.asEPair_eq, State.slotAt]
  dsimp only
  rw [hat]
  dsimp only
  rw [if_neg (not_not_intro hal), hrange, hheld, if_neg (by decide), if_neg (by simp [hown, hlive, hend]), hx]

/-- A location that crosses a line. -/
theorem exec_ldsub_crosses (hcross : 128 < va56 (g.sreg p.toNat).toNat % 128 + (n.val + 1)) :
    exec (.ldsub p q n) s =
      .next (s.putPair q stRejected (s.slot a.team a.off).seq.toNat (s.slot a.team a.off).value) := by
  rw [exec_ldsub_free h hat hal hrange hheld hown hlive hend hx]
  dsimp only
  rw [if_pos hcross]
  rfl

/-- A location that can be read at once. -/
theorem exec_ldsub_reads (hfit : va56 (g.sreg p.toNat).toNat % 128 + (n.val + 1) ≤ 128)
    (hbusy : s.partBusy g ⟨x, va56 (g.sreg p.toNat).toNat, n.val + 1⟩ = false) (hmask : g.trapMask = none)
    (hclean : x.poison = false → ∀ k, k < n.val + 1 → (s.subClean g.core x).ownHeld g.core (x.pa + k) = false ∧
      (x.attr = 1 → ∀ b ∈ ((s.subClean g.core x).core g.core).self, b.pa = x.pa + k → b.dirty = false)) :
    let r := s.subRead g.core (va56 (g.sreg p.toNat).toNat) x (n.val + 1)
    exec (.ldsub p q n) s = .next (if s.noSub t.id x then
        (r.1.setSlot t.id a.off ⟨r.2, 0, BitVec.ofNat 32 (n.val * 2 ^ 8)⟩).putPair q stNosub 0 r.2
      else r.1.subscribe t q (s.fwd x.pa) (n.val + 1) a.off r.2) := by
  intro r
  have hflush : ¬ ((!x.poison && (rangeFrom x.pa (n.val + 1)).any (fun b => (s.subClean g.core x).ownHeld g.core b ||
      x.attr == 1 && ((s.subClean g.core x).core g.core).self.any (fun c => c.pa == b && c.dirty))) = true) := by
    rw [Bool.and_eq_true, List.any_eq_true]
    rintro ⟨hp, b, hb, hheld⟩
    obtain ⟨k, hk, rfl⟩ : ∃ k, k < n.val + 1 ∧ b = x.pa + k := by
      obtain ⟨hlo, hhi⟩ := mem_rangeFrom.1 hb
      exact ⟨b - x.pa, by omega, by omega⟩
    obtain ⟨hno, hself⟩ := hclean (by simpa using hp) k hk
    simp only [hno, Bool.false_or, Bool.and_eq_true, beq_iff_eq, List.any_eq_true] at hheld
    obtain ⟨hattr, c, hc, hpa, hdirty⟩ := hheld
    exact absurd hdirty (ne_true_of_eq_false (hself hattr c hc hpa))
  rw [exec_ldsub_free h hat hal hrange hheld hown hlive hend hx]
  dsimp only
  rw [if_neg (by omega), hbusy, if_neg Bool.false_ne_true, if_neg hflush, Res.gated_of_no_trap _ s t hmask]
  rfl

end

/-- Settles O45: the word by its checks, and a subscription by its entry, its flight and the registers it owes. -/
theorem subscribe : Obligations.Subscribe := by
  intro s t g p q n a h addr va hat hal hrange hheld sl refused
  refine ⟨fun hno => exec_ldsub_refused h hat hal hrange hheld hno, fun x hown hlive hend hx =>
    ⟨fun hcross => exec_ldsub_crosses h hat hal hrange hheld hown hlive hend hx hcross, fun hfit hbusy hmask hclean => ?_⟩⟩
  intro r
  have hexec := exec_ldsub_reads (q := q) h hat hal hrange hheld hown hlive hend hx hfit hbusy hmask hclean
  dsimp only at hexec
  refine ⟨fun hno => ?_, fun hsub => ?_⟩
  · rw [hexec, if_pos hno]
  · rw [if_neg (ne_true_of_eq_false hsub)] at hexec
    have hkeep := SubKeeps.subRead s g.core va x (n.val + 1)
    obtain ⟨g1, hg1⟩ := hkeep.grp_some h.grp_eq
    have hiss := hkeep.regs.iss
    obtain ⟨hmem, hsubs, hflights, hgrp⟩ := State.subscribe_eq (s := r.1) (hiss ▸ hg1) (hiss ▸ h.wid_eq) t q (s.fwd x.pa) (n.val + 1) a.off r.2
    have hissuer : r.1.issuer = s.issuer := by rw [State.issuer, State.issuer, hiss]
    refine ⟨_, _, r.1.fresh, hexec, hmem, ?_, ?_, hiss ▸ hgrp, fun hq => ?_, ?_⟩
    · rw [hsubs, hkeep.subs]
    · rw [hflights, hissuer, hkeep.slice]
    · exact Group.sPending_owe g1 List.mem_cons_self (fun h0 => hq (BitVec.eq_of_toNat_eq h0)) _
    · exact Group.sPending_owe g1 (List.mem_cons_of_mem _ List.mem_cons_self) (by omega) _

end Sys2Proof.Machine

/-! # `PKTAB` examined while its table loads

`Obligations.KeyTables` says that a wait examined while its table is still loading changes nothing but that it is stalled. The
examination also notes with the word what the wait would report (`Issue.last`: 0 for `PKTAB`), and no hypothesis of the statement says
that this stood there before. -/

namespace Sys2Proof.Machine

open Sys2Proof

/-- A table of one entry of one dimension, loading under handle 15. -/
def loadingTable : KlTable :=
  { h := 15, node := 1, n := 1, hd := 1, st := 1, gran := 1, space := 0, src := 0, by_ := hostIssuer, flt := none, data := [], bad := [] }

/-- `PKTAB` of handle 15 is examined again as wait 1: it kept 2 in s8, and 1 is what its last examination noted. -/
def examinedLoad : State :=
  State.modVat { State.reset with
    teams := [pinnedTeam]
    iss := { Issue.none with grp := ⟨⟨1, 0⟩, 0⟩, mode := .examine, wid := 1, kept := ⟨[(8, 2)], []⟩, last := 1 } } 0
    (fun v => { v with tables := [loadingTable] })

/-- What the word in issue last noted. -/
def lastNoted : Host.Outcome State Fault Refusal → Option Nat
  | .next s => some s.iss.last
  | _ => none

/-- The examination stalls the word and notes 0. -/
theorem examinedLoad_notes : lastNoted (exec (.pktab ⟨8, 9, 3⟩ 15) examinedLoad) = some 0 := by decide +kernel

/-- Refutes O47: the examination of a load under way notes 0 with the word, where 1 stood. -/
theorem not_keyTables : ¬ Obligations.KeyTables := by
  unfold Obligations.KeyTables
  intro h
  obtain ⟨-, hexamine⟩ := h examinedLoad pinnedTeam (Group.fresh 0 0 16 96 0 [0, 0, 0, 0, 0, 0] 0) ⟨8, 9, 3⟩ 15
    ⟨rfl, rfl⟩ (by decide +kernel) (by decide +kernel)
  obtain ⟨-, hloading, -⟩ := hexamine rfl (by decide) (by decide +kernel) loadingTable (by decide +kernel)
  have hnoted := examinedLoad_notes
  rw [hloading rfl rfl] at hnoted
  exact absurd hnoted (by decide +kernel)

end Sys2Proof.Machine

/-! # `PKLOOK`, `PKGRAD` and `PKWAIT` (R335, R341, R342, R344) -/

namespace Sys2Proof.Machine

open Sys2Proof

/-! ## `PKWAIT` -/

/-- `PKWAIT` as it issues, by what its tag holds. -/
theorem State.EReady.pkwait {s : State} {t : Team} {g : Group} (h : s.EReady t g []) (q : BitVec 6) (x : BitVec 5) (tag : Fin 4) :
    let k := t.klTag tag.val
    exec (.pkwait q x tag) s =
      if k.busy then .next (if x = 0 then s.putStatus q stTimeout k.st else s.block [] [q.toNat] x none k.st)
      else if k.st = 4 then .next ((s.putStatus q stOk 4).acquire t g 6)
      else .next (s.putStatus q stRejected k.st) := by
  intro k
  change execPkwait q x tag s = _
  rw [execPkwait, h.asE_eq]
  dsimp only
  split
  · exact State.finishWait_wait h.mode_eq ..
  · split
    · exact State.finishWait_done ..
    · exact State.finishWait_done ..

theorem KlTag.not_busy {k : KlTag} (h : k.st = 0 ∨ k.st = 4 ∨ k.st = 5) : k.busy = false := by
  rcases h with h | h | h <;> simp [KlTag.busy, h]

/-! ## Entries on the range scoreboards -/

theorem State.ranges_modCore_append (s : State) (n : Nat) (r : RangeEnt) (c : Nat) :
    ((s.modCore n (fun k => { k with ranges := k.ranges ++ [r] })).core c).ranges.length ≤ (s.core c).ranges.length + 1 := by
  by_cases hc : c = n
  · subst hc
    rw [State.core_modCore_self]
    simp
  · rw [State.core_modCore_ne s _ hc]
    omega

/-- Entries made where every core has room for them (R152): nothing else but names changes. -/
theorem State.addEntries_everywhere (owner : RangeOwner) (es : List (Nat × TeamId × Nat × Nat)) {s : State}
    (hroom : ∀ c, (s.core c).ranges.length + es.length ≤ Config.rangeScore) :
    ∃ u ids, s.addEntries owner es = some (u, ids) ∧ u.teams = s.teams ∧ u.mem = s.mem ∧ u.iss = s.iss ∧ u.vats = s.vats ∧
      ∀ c, (u.core c).ranges.length ≤ (s.core c).ranges.length + es.length := by
  induction es generalizing s with
  | nil => exact ⟨s, [], rfl, rfl, rfl, rfl, rfl, fun _ => Nat.le_refl _⟩
  | cons e es ih =>
    let r : RangeEnt := { id := s.fresh, team := e.2.1, owner := owner, lo := e.2.2.1, hi := e.2.2.2 }
    let s1 := s.tick.modCore e.1 (fun k => { k with ranges := k.ranges ++ [r] })
    have hone (c : Nat) : (s1.core c).ranges.length ≤ (s.core c).ranges.length + 1 := s.tick.ranges_modCore_append e.1 r c
    simp only [List.length_cons] at hroom
    obtain ⟨u, ids, hadd, hteams, hmem, hiss, hvats, hlen⟩ := ih (s := s1) (fun c => by
      have := hroom c
      have := hone c
      omega)
    refine ⟨u, s.fresh :: ids, ?_, hteams, hmem, hiss, hvats, fun c => ?_⟩
    · have := hroom e.1
      rw [State.addEntries, if_neg (by omega)]
      exact congrArg (Option.map _) hadd
    · have := hlen c
      have := hone c
      rw [List.length_cons]
      omega

/-- A span has an entry on its core, or one on each core of its pair. -/
theorem State.length_spanEntries (s : State) (y : TeamId × Nat × Nat) : (s.spanEntries [y]).length ≤ 2 := by
  unfold State.spanEntries
  rw [List.flatMap_cons, List.flatMap_nil, List.append_nil]
  split
  · simp
  · split
    · simp
    · extract_lets half
      split
      · simp
      · simp

/-! ## An operation queued -/

/-- A tag that starts an operation. -/
def State.klStarted (u : State) (vat : Nat) (id : TeamId) (tag : Nat) (o : KlOp) : State :=
  (u.modVat vat (fun v => { v with klq := v.klq ++ [o] })).modKl id tag (fun _ => ⟨1, 0, none⟩)

/-- Where its vat's queue and the scoreboards have room, an operation joins the queue. -/
theorem State.klEnqueue_room {s : State} {g : Group} (hq : (s.vat (vatOf g.core)).queued < Config.klQueue)
    (hroom : ∀ c, (s.core c).ranges.length + 4 ≤ Config.rangeScore) (t : Team) (q : BitVec 6) (tag : Nat) (o : KlOp) (qn : Nat) :
    ∃ (u : State) (id : Nat) (entries : List Nat), u.teams = s.teams ∧ u.mem = s.mem ∧ u.iss = s.iss ∧ u.vats = s.vats ∧
      s.klEnqueue t g q tag o qn = some ((u.klStarted (vatOf g.core) t.id tag { o with id := id, entries := entries }).fin q stOk
        (s.vat (vatOf g.core)).queued) := by
  unfold State.klEnqueue
  extract_lets vat pos place
  have hplace (addr n : Nat) : (place addr n).length ≤ 2 := by
    unfold place
    split
    · exact s.length_spanEntries _
    · simp
  have hread : (if o.grad then [] else place o.q qn).length ≤ 2 := by
    split
    · simp
    · exact hplace _ _
  obtain ⟨u1, ids1, h1, hteams1, hmem1, hiss1, hvats1, hlen1⟩ := State.addEntries_everywhere (.kl tag false)
    (if o.grad then [] else place o.q qn) (s := s) (fun c => by have := hroom c; omega)
  obtain ⟨u2, ids2, h2, hteams2, hmem2, hiss2, hvats2, -⟩ := State.addEntries_everywhere (.kl tag true) (place o.o 2560) (s := u1)
    (fun c => by
      have := hroom c
      have := hlen1 c
      have := hplace o.o 2560
      omega)
  refine ⟨u2.tick, u2.fresh, ids1 ++ ids2, hteams2.trans hteams1, hmem2.trans hmem1, hiss2.trans hiss1, hvats2.trans hvats1, ?_⟩
  rw [if_neg (by exact Nat.not_le.2 hq), h1]
  dsimp only
  rw [h2]
  rfl

theorem State.team?_same {s u : State} (h : u.teams = s.teams) (id : TeamId) : u.team? id = s.team? id := by
  rw [State.team?, State.team?, h]

theorem State.grp?_same {s u : State} (h : u.teams = s.teams) (k : GrpId) : u.grp? k = s.grp? k := by
  rw [State.grp?, State.grp?, State.team?_same h]

/-- A tag of a team set. -/
def Team.setTag (t : Team) (tag : Nat) (x : KlTag) : Team := { t with kl := modAt (fun _ => x) tag t.kl }

theorem Team.klTag_setTag {t : Team} {tag : Nat} (h : tag < t.kl.length) (x : KlTag) : (t.setTag tag x).klTag tag = x :=
  getD_modAt_self _ _ h

/-- A tag set meets no poison, and no register. -/
theorem State.modKl_keeps {s u : State} (ht : u.teams = s.teams) (hi : u.iss = s.iss) (id : TeamId) (tag : Nat) (x : KlTag) (t : Team) :
    s.Unpoisoned (u.modKl id tag (fun _ => x)) t ∧ RegsKeep s (u.modKl id tag (fun _ => x)) := by
  have hgrp (k : GrpId) : (u.modKl id tag (fun _ => x)).grp? k = s.grp? k :=
    (State.grp?_modTeam u id k (f := fun t => t.setTag tag x) (fun _ => rfl) (fun _ => rfl)).trans (State.grp?_same ht k)
  refine ⟨⟨hi, ?_, by rw [hgrp]⟩, ⟨hi, fun k => by rw [hgrp]⟩⟩
  have hteam : (u.modKl id tag (fun _ => x)).team? t.id = (u.team? t.id).map (fun t => if t.id = id then t.setTag tag x else t) :=
    State.team?_modTeam u id t.id (f := fun t => t.setTag tag x) fun _ => rfl
  rw [hteam, State.team?_same ht, Option.map_map]
  exact congrArg (Option.map · _) (funext fun t => by rw [Function.comp]; split <;> rfl)

/-- A tag set stands once a status is written. -/
theorem State.klTag_modKl {s : State} {id : TeamId} {t : Team} (ht : s.team? id = some t) {tag : Nat} (htag : tag < t.kl.length)
    (x : KlTag) (q : BitVec 6) (code hi : Nat) :
    ∃ t', ((s.modKl id tag (fun _ => x)).putStatus q code hi).team? id = some t' ∧ t'.klTag tag = x := by
  have hset : (s.modKl id tag (fun _ => x)).team? id = some (t.setTag tag x) :=
    (State.team?_modTeam_self s id (f := fun t => t.setTag tag x) fun _ => rfl).trans (congrArg _ ht)
  generalize s.modKl id tag (fun _ => x) = u at hset
  have hput := State.team?_modTeam u u.iss.grp.team id
    (f := fun y => y.modGroup u.iss.grp.grp (fun g => g.putS u.iss.wid q.toNat (statusVal code hi))) fun _ => rfl
  rw [hset, Option.map_some] at hput
  refine ⟨_, hput, ?_⟩
  have hkl := Team.klTag_setTag htag x
  split <;> exact hkl

/-! ## A parameter block -/

section
variable {s : State} {t : Team} {g : Group} {grad : Bool} {bs : List Byte} {tag : Nat} {q : BitVec 6} {y z : KlTable} {b c : ScrAt}
  (hy : (s.vat (vatOf g.core)).table? (field bs 8 1) = some y) (hz : (s.vat (vatOf g.core)).table? (field bs 9 1) = some z)
  (hyst : y.st = 2) (hzst : z.st = 2) (hyn : y.node = t.id.node) (hzn : z.node = t.id.node) (hn : y.n = z.n) (hhd : y.hd = z.hd)

include hy hz hyst hzst hyn hzn hn hhd in
/-- Two ready tables of the node, alike, are the block's tables. -/
theorem State.klTabs_eq : s.klTabs t g bs = some y := by
  unfold State.klTabs
  dsimp only
  rw [hy, hz]
  dsimp only
  rw [if_pos ⟨hyst, hyn⟩, if_pos ⟨hzst, hzn⟩]
  dsimp only
  rw [if_pos ⟨hn, hhd⟩]

variable (htabs : s.klTabs t g bs = some y) (hquery : grad = true ∨ s.klScr t.id (field bs 0 4) (4 * y.hd) 64 = .ok b)
  (hplace : s.klScr t.id (field bs 4 4) 2560 64 = .ok c)
include htabs hquery hplace

/-- A block whose places lie in the window goes on to its checks. -/
theorem State.klStart_eq : s.klStart grad t g q tag bs =
    if klBad grad bs y.n then s.fin q stRejected 0
    else if (t.klTag tag).busy then s.fin q stBusy 0
    else (s.klEnqueue t g q tag (klOpOf grad bs t g tag s.issuer) (4 * y.hd)).getD (s.waitWith bs) := by
  have hread : (if grad then .ok () else (s.klScr t.id (field bs 0 4) (4 * y.hd) 64).map (fun _ => ()) : Except (Nat × Nat) Unit) = .ok () := by
    rcases hquery with rfl | hq
    · rfl
    · rw [hq]
      exact ite_self _
  unfold State.klStart
  dsimp only
  rw [htabs, Option.map_some, Option.getD_some, hread, hplace]
  simp only [Except.map]
  cases s.klEnqueue t g q tag (klOpOf grad bs t g tag s.issuer) (4 * y.hd) <;> rfl

end

/-- `PKLOOK` or `PKGRAD` of a block in reach, without an uncorrectable byte. -/
theorem State.EReady.klWord {s : State} {t : Team} {g : Group} {e : EF} {tag : Fin 4} {grad : Bool} {i : Instr} {a : ScrAt}
    (h : s.EReady t g [e.p.toNat]) (hi : grad = false ∧ i = .pklook e tag ∨ grad = true ∧ i = .pkgrad e tag)
    (hat : s.klScr t.id (g.sreg e.p.toNat).toNat 128 128 = .ok a) (hheld : s.winHeld a.team a.off 128 = false)
    (hgood : s.winBadIn a.team a.off 128 = false) :
    exec i s = s.finishWait [e.p.toNat] [e.q.toNat] e.q e.x none
      ((s.klStart grad t g e.q tag.val (s.winRead a.team a.off 128)).gated s t g) := by
  obtain ⟨-, -, -, -, -, hdet⟩ := id h
  have hexec : exec i s = s.klWord grad e tag.val := by rcases hi with ⟨rfl, rfl⟩ | ⟨rfl, rfl⟩ <;> rfl
  have hblock : s.winBlock s.issuer a.team a.off 128 = (s, s.winRead a.team a.off 128) := if_neg (ne_true_of_eq_false hgood)
  rw [hexec, State.klWord, h.asE_eq]
  simp only [State.keptBlock, h.mode_eq, reduceCtorEq, or_self, if_false, hat, State.toQueue, hdet, hheld, hblock, Bool.false_and,
    Bool.false_eq_true]

/-- Settles O48: a wait by its tag; a block by its checks, and by the operation that it queues. -/
theorem keyLookups : Obligations.KeyLookups := by
  unfold Obligations.KeyLookups
  intro s t g e q x tag i grad a y z b c h
  refine ⟨⟨fun hbusy => ?_, fun hst => ?_, fun hst => ?_⟩, fun hi hat hheld hgood hy hz hyst hzst hyn hzn hn hhd hquery hplace => ?_⟩
  · rw [h.nil.pkwait, if_pos hbusy]
  · rw [h.nil.pkwait, if_neg (ne_true_of_eq_false (KlTag.not_busy (.inr (.inl hst)))), if_pos hst]
  · rw [h.nil.pkwait, if_neg (ne_true_of_eq_false (KlTag.not_busy (hst.imp_right .inr))), if_neg (by rcases hst with h0 | h5 <;> omega)]
  · have htabs := State.klTabs_eq hy hz hyst hzst hyn hzn hn hhd
    rw [h.klWord hi hat hheld hgood, State.klStart_eq htabs hquery hplace]
    refine ⟨fun hbad => ?_, fun hgood hbusy => ?_, fun hgood hfree hq htag hroom => ?_⟩
    · rw [if_pos hbad, (State.Unpoisoned.refl s t).fin_gated h.grp_eq, State.finishWait_done]
    · rw [if_neg (ne_true_of_eq_false hgood), if_pos hbusy, (State.Unpoisoned.refl s t).fin_gated h.grp_eq, State.finishWait_done]
    · obtain ⟨u, id, entries, hteams, hmem, hiss, hvats, henq⟩ := State.klEnqueue_room hq hroom t e.q tag.val
        (klOpOf grad (s.winRead a.team a.off 128) t g tag.val s.issuer) (4 * y.hd)
      rw [if_neg (ne_true_of_eq_false hgood), if_neg (ne_true_of_eq_false hfree), henq, Option.getD_some]
      let o : KlOp := { klOpOf grad (s.winRead a.team a.off 128) t g tag.val s.issuer with id := id, entries := entries }
      let w := u.modVat (vatOf g.core) (fun v => { v with klq := v.klq ++ [o] })
      have hwt : w.teams = s.teams := hteams
      obtain ⟨hpoison, hregs⟩ := State.modKl_keeps hwt hiss t.id tag.val ⟨1, 0, none⟩ t
      obtain ⟨t', ht', hkl⟩ := State.klTag_modKl ((State.team?_same hwt t.id).trans h.team_eq) htag ⟨1, 0, none⟩ e.q stOk
        (s.vat (vatOf g.core)).queued
      have hvat : u.vat (vatOf g.core) = s.vat (vatOf g.core) := by rw [State.vat, State.vat, hvats]
      refine ⟨(u.klStarted (vatOf g.core) t.id tag.val o).putStatus e.q stOk (s.vat (vatOf g.core)).queued, t', o, ?_,
        fun a => congrArg (Memory.read · a) hmem, .of_regsKeep h.grp_eq h.wid_eq hregs e.q stOk _, ?_, rfl, rfl, rfl, rfl, rfl, ht', hkl⟩
      · exact (congrArg (s.finishWait _ _ _ _ _) (hpoison.fin_gated h.grp_eq e.q stOk _)).trans (State.finishWait_done ..)
      · have hself := congrArg Vat.klq (u.vat_modVat_self (vatOf g.core) (fun v => { v with klq := v.klq ++ [o] }))
        exact hself.trans (by rw [hvat])

end Sys2Proof.Machine

/-! # Quanta of a `det` node (R347, R349, R350) -/

namespace Sys2Proof.Machine

open Sys2Proof

/-! ## What ends a quantum leaves of the nodes -/

theorem InFlight.nodes {s s' : State} (h : InFlight s s') : s'.nodes = s.nodes := h.homes.keep State.nodes fun _ _ => rfl

theorem InFlight.examine (s : State) (id : TeamId) (off n : Nat) : InFlight s (s.examine id off n) := by
  unfold State.examine
  split
  · exact (examineWords _ _ _ _).trans (foldl (fun s x => lookSlot s _ _ _ _ _) _ _)
  · exact refl s

theorem InFlight.winStore (s : State) (id : TeamId) (off : Nat) (bs : List Byte) : InFlight s (s.winStore id off bs) :=
  (winPut s id off bs true).trans (examine _ _ _ _)

theorem InFlight.winWrite (s : State) (id : TeamId) (off : Nat) (bs : List Byte) : InFlight s (s.winWrite id off bs) :=
  (winPut s id off bs false).trans (examine _ _ _ _)

theorem State.nodes_foldl {β : Type} {f : State → β → State} (step : ∀ s x, (f s x).nodes = s.nodes) (l : List β) (s : State) :
    (l.foldl f s).nodes = s.nodes :=
  foldl_related (R := fun s s' : State => s'.nodes = s.nodes) (fun _ => rfl) (fun h1 h2 => h2.trans h1) step l s

theorem State.slotFrom_nodes (s : State) (f : Flight) : (s.slotFrom f).nodes = s.nodes := by
  unfold State.slotFrom
  extract_lets ids
  split
  · rfl
  · rfl

theorem State.land_nodes (s : State) (id : Nat) (want : FlightKind → Bool) {f : State → Flight → State}
    (hf : ∀ (u : State) (x : Flight), (f u x).nodes = u.nodes) : (s.land id want f).nodes = s.nodes := by
  unfold State.land
  split
  · split
    · exact (Notices.drainPushes _).nodes.trans (hf _ _)
    · rfl
  · rfl

/-- A flight that lands leaves every node as it is. -/
theorem State.landNext_nodes {s u : State} (h : s.landNext = some u) : u.nodes = s.nodes := by
  unfold State.landNext at h
  obtain ⟨f, -, hf⟩ := Option.bind_eq_some_iff.mp h
  split at hf
  · next hx =>
    cases hf
    have hslot (s : State) (f : Flight) (x : Slot) : ((s.slotFrom f).setSlot f.team f.off x).nodes = s.nodes :=
      (InFlight.setSlot _ _ _ _).nodes.trans (s.slotFrom_nodes f)
    split at hx
    · cases hx
      refine s.land_nodes _ _ fun u x => ?_
      split
      · exact hslot _ _ _
      · rfl
    · cases hx
      exact s.land_nodes _ _ fun u x => hslot _ _ _
    · cases hx
      exact s.land_nodes _ _ fun u x => (InFlight.setSlot _ _ _ _).nodes
  · cases hf

theorem State.landSome_nodes (n : Nat) (s : State) : (State.landSome n s).nodes = s.nodes := by
  induction n generalizing s with
  | zero => rfl
  | succ n ih =>
    unfold State.landSome
    split
    · next hu => exact (ih _).trans (State.landNext_nodes hu)
    · rfl

theorem State.commitElem_nodes (s : State) (core node : Nat) (b : BufElem) : (s.commitElem core node b).nodes = s.nodes := by
  unfold State.commitElem
  split
  · exact (InFlight.winStore _ _ _ _).nodes
  · exact (Notices.storeElem _ _ _ _ _ _).nodes

theorem State.commitGroup_nodes (s : State) (gid : GrpId) : (s.commitGroup gid).nodes = s.nodes := by
  unfold State.commitGroup
  split
  · rfl
  · exact (Notices.relSelf _ _).nodes.trans
      (State.nodes_foldl (fun s _ => State.nodes_foldl (fun s b => s.commitElem_nodes _ _ b) _ s) _ s)

/-- A node changed stands so. -/
theorem State.node?_modNode {s u : State} (hu : u.nodes = s.nodes) {id : Nat} {n : Node} (hn : s.node? id = some n) {f : Node → Node}
    (hid : ∀ n, (f n).id = n.id) : (u.modNode id f).node? id = some (f n) := by
  rw [State.node?] at hn
  have hself : n.id = id := by simpa using List.find?_some hn
  rw [State.node?, State.modNode, hu, List.find?_map]
  have hcomp : ((fun n : Node => n.id == id) ∘ fun n => if n.id = id then f n else n) = fun n => n.id == id := by
    funext n
    rw [Function.comp]
    split
    · rw [hid]
    · rfl
  rw [hcomp, hn, Option.map_some, if_pos hself]

/-! ## A new quantum's threads -/

/-- A thread of a new quantum: one that waits stays stopped. -/
def Thread.inQuantum (th : Thread) : Thread := { th with stopped := th.stopped && th.st == .blocked, retired := 0 }

/-- A team of a new quantum. -/
def Team.inQuantum (t : Team) : Team :=
  { t with groups := t.groups.map (fun g => { g with threads := g.threads.map Thread.inQuantum }) }

/-- Every thread of the team has its packets before it, and none has stopped but those that wait. -/
def Team.Fresh (t : Team) : Prop := ∀ g ∈ t.groups, ∀ th ∈ g.threads, th.retired = 0 ∧ (th.st ≠ .blocked → th.stopped = false)

theorem Team.fresh_inQuantum (t : Team) : t.inQuantum.Fresh := by
  intro g hg th hth
  obtain ⟨g, -, rfl⟩ := List.mem_map.1 hg
  obtain ⟨th, -, rfl⟩ := List.mem_map.1 hth
  refine ⟨rfl, fun h => ?_⟩
  have hst : (th.st == .blocked) = false := beq_eq_false_iff_ne.2 h
  exact (congrArg (th.stopped && ·) hst).trans (Bool.and_false _)

/-- A team's caches acquired and its threads begun again. -/
def State.beginTeam (s : State) (t : Team) : State := (s.acqCores t.core t.paired).modTeam t.id Team.inQuantum

theorem State.acqCores_teams (s : State) (core : Nat) (paired : Bool) : (s.acqCores core paired).teams = s.teams := by
  unfold State.acqCores
  split
  · rfl
  · rfl

theorem State.acqCores_mem (s : State) (core : Nat) (paired : Bool) : (s.acqCores core paired).mem = s.mem := by
  unfold State.acqCores
  split
  · rfl
  · rfl

theorem State.acqCores_nodes (s : State) (core : Nat) (paired : Bool) : (s.acqCores core paired).nodes = s.nodes := by
  unfold State.acqCores
  split
  · rfl
  · rfl

theorem State.team?_beginTeam (s : State) (t : Team) (id : TeamId) :
    (s.beginTeam t).team? id = (s.team? id).map (fun y => if y.id = t.id then y.inQuantum else y) :=
  (State.team?_modTeam _ t.id id (f := Team.inQuantum) fun _ => rfl).trans
    (congrArg _ (State.team?_same (s.acqCores_teams _ _) id))

/-- A team's start keeps what teams have started. -/
theorem State.beginTeam_keeps_fresh {s : State} {id : TeamId} (h : ∃ y, s.team? id = some y ∧ y.Fresh) (t : Team) :
    ∃ y, (s.beginTeam t).team? id = some y ∧ y.Fresh := by
  obtain ⟨y, hy, hf⟩ := h
  refine ⟨_, by rw [s.team?_beginTeam, hy, Option.map_some], ?_⟩
  split
  · exact y.fresh_inQuantum
  · exact hf

/-- Once each of the teams has begun, the threads of every one of them run again. -/
theorem State.beginTeams_fresh (ts : List Team) {s : State} {t : Team} (ht : ∃ y, s.team? t.id = some y)
    (hm : t ∈ ts ∨ ∃ y, s.team? t.id = some y ∧ y.Fresh) : ∃ y, (ts.foldl State.beginTeam s).team? t.id = some y ∧ y.Fresh := by
  induction ts generalizing s with
  | nil => exact hm.resolve_left List.not_mem_nil
  | cons x ts ih =>
    obtain ⟨y, hy⟩ := ht
    have hnow := s.team?_beginTeam x t.id
    rw [hy, Option.map_some] at hnow
    refine ih ⟨_, hnow⟩ ?_
    rcases hm with hm | hfresh
    · rcases List.mem_cons.1 hm with rfl | hm
      · refine .inr ⟨_, hnow, ?_⟩
        have hid : y.id = t.id := State.team?_id hy
        rw [if_pos hid]
        exact y.fresh_inQuantum
      · exact .inl hm
    · exact .inr (State.beginTeam_keeps_fresh hfresh x)

theorem State.beginTeams_nodes (ts : List Team) (s : State) : (ts.foldl State.beginTeam s).nodes = s.nodes :=
  State.nodes_foldl (f := State.beginTeam) (fun s t => s.acqCores_nodes t.core t.paired) ts s

theorem State.beginTeams_mem (ts : List Team) (s : State) : (ts.foldl State.beginTeam s).mem = s.mem :=
  foldl_related (R := fun s s' : State => s'.mem = s.mem) (f := State.beginTeam) (fun _ => rfl) (fun h1 h2 => h2.trans h1)
    (fun s t => s.acqCores_mem t.core t.paired) ts s

theorem State.mem_nodeTeams {s : State} {t : Team} (h : s.team? t.id = some t) : t ∈ s.nodeTeams t.id.node :=
  mem_sortBy (List.mem_filter.2 ⟨List.mem_of_find?_eq_some h, beq_self_eq_true _⟩)

/-- The next quantum begins with its teams begun (R349). -/
theorem State.nextQuantum_begins {s : State} {node : Nat} {n : Node} (hn : s.node? node = some n) :
    ∃ n', s.SameMem (s.nextQuantum n) ∧ (s.nextQuantum n).node? node = some n' ∧ n'.phase = 0 ∧ n'.quanta = n.quanta + 1 ∧
      ∀ t, s.team? t.id = some t → t.id.node = n.id → ∃ t', (s.nextQuantum n).team? t.id = some t' ∧ t'.Fresh := by
  have hid : n.id = node := by simpa using List.find?_some (show s.nodes.find? (fun n => n.id == node) = some n from hn)
  subst hid
  exact ⟨{ n with phase := 0, quanta := n.quanta + 1 }, fun a => congrArg (Memory.read · a) (State.beginTeams_mem (s.nodeTeams n.id) s),
    State.node?_modNode (State.beginTeams_nodes _ s) hn fun _ => rfl, rfl, rfl,
    fun t ht hnode => State.beginTeams_fresh _ ⟨t, ht⟩ (.inl (hnode ▸ State.mem_nodeTeams ht))⟩

/-! ## The steps of a quantum's end -/

/-- A quantum that is done begins to end behind the pushes before it, its buffers committing (R347, R350). -/
theorem State.quantumEnd_running {s : State} {node : Nat} {n : Node} (hn : s.node? node = some n) (hp : n.phase = 0) :
    execQuantumEnd node s = .next (if s.quantumDone n then
      if s.landAll.commitWaits n then s.landAll
      else
        let s1 := (s.landAll.nodeGroups node).foldl State.commitGroup s.landAll
        s1.modNode node (fun n => { n with phase := 1, mark := if (s.nodeGroups node).any s1.writesHeld then 0 else s1.fresh })
      else s) := by
  unfold execQuantumEnd
  rw [hn]
  dsimp only
  rw [if_pos hp]

/-- A quantum's end waits for the pushes that were made before it. -/
theorem State.quantumEnd_pushes {s : State} {node : Nat} {n : Node} (hn : s.node? node = some n) (hp : n.phase = 1)
    (hheld : (s.nodeGroups node).any s.writesHeld = false) (hmark : n.mark ≠ 0)
    (hpush : s.pushIds.any (fun id => decide (id < n.mark)) = true) : execQuantumEnd node s = .next s := by
  unfold execQuantumEnd
  rw [hn]
  dsimp only
  rw [if_neg (by omega), if_pos hp, if_neg (by rw [hheld]; exact Bool.false_ne_true), if_neg hmark, if_pos hpush]

/-- A quantum's end waits for the engines that its teams have started. -/
theorem State.quantumEnd_engines {s : State} {node : Nat} {n : Node} (hn : s.node? node = some n) (hp : n.phase = 2)
    (hrest : (s.nodeTeams node).all s.enginesRest = false) : execQuantumEnd node s = .next s := by
  unfold execQuantumEnd
  rw [hn]
  dsimp only
  rw [if_neg (by omega), if_neg (by omega), if_pos hp, if_neg (by rw [hrest]; exact Bool.false_ne_true)]

theorem State.quantumEnd_next {s : State} {node : Nat} {n : Node} (hn : s.node? node = some n) (hp : n.phase = 3)
    (hres : (s.nodeTeams node).all (fun t => decide (t.loc = .resident) && t.groups.all (fun g => !g.preempting)) = true) :
    execQuantumEnd node s = .next (s.nextQuantum n) := by
  unfold execQuantumEnd
  rw [hn]
  dsimp only
  rw [if_neg (by omega), if_neg (by omega), if_neg (by omega), if_pos hres]

/-- Settles O55: the model's definitions, with the nodes kept by landings and commits, and the teams begun one after another. -/
theorem quanta : Obligations.Quanta := by
  unfold Obligations.Quanta
  constructor
  · intro s id t g k ht hg
    change execThreadQuantumStop id k s = _
    rw [execThreadQuantumStop, ht, hg]
  · intro s node n hn
    refine ⟨fun hp hdone => ?_, fun hp hdone => ?_, State.quantumEnd_pushes hn, State.quantumEnd_engines hn, fun hp hres => ?_⟩
    · exact (State.quantumEnd_running hn hp).trans (by rw [hdone]; rfl)
    · have hrun := State.quantumEnd_running hn hp
      rw [if_pos hdone] at hrun
      intro s0
      refine ⟨fun hw => hrun.trans (by rw [if_pos hw]), fun hw => ?_⟩
      rw [if_neg (by rw [hw]; exact Bool.false_ne_true)] at hrun
      have hnodes : ((s0.nodeGroups node).foldl State.commitGroup s0).nodes = s.nodes :=
        (State.nodes_foldl State.commitGroup_nodes _ s0).trans (State.landSome_nodes _ s)
      exact ⟨_, _, hrun, State.node?_modNode hnodes hn fun _ => rfl, rfl, rfl⟩
    · obtain ⟨n', hrest⟩ := State.nextQuantum_begins hn
      exact ⟨_, n', State.quantumEnd_next hn hp hres, hrest⟩

end Sys2Proof.Machine

/-! # What leaves the key lookup tags and the collective slots of teams -/

namespace Sys2Proof.Machine

open Sys2Proof

/-- The key lookup tags of a team and its collective slots. -/
def Team.posts (t : Team) : List KlTag × List CollSlot := (t.kl, t.colls)

/-- From one state to another the tags and the collective slots of every team are the same. -/
structure PostsKeep (s s' : State) : Prop where
  team : ∀ id, (s'.team? id).map Team.posts = (s.team? id).map Team.posts

namespace PostsKeep

theorem refl (s : State) : PostsKeep s s := ⟨fun _ => rfl⟩

theorem trans {s s' s'' : State} (h1 : PostsKeep s s') (h2 : PostsKeep s' s'') : PostsKeep s s'' :=
  ⟨fun id => (h2.team id).trans (h1.team id)⟩

theorem foldl {β : Type} {f : State → β → State} (step : ∀ s x, PostsKeep s (f s x)) (l : List β) (s : State) :
    PostsKeep s (l.foldl f s) :=
  foldl_related (R := PostsKeep) refl trans step l s

theorem of_teams {s s' : State} (h : s'.teams = s.teams) : PostsKeep s s' := ⟨fun id => by rw [State.team?, State.team?, h]⟩

theorem of_notices {s s' : State} (h : Notices s s') : PostsKeep s s' := ⟨h.team_map Team.posts fun _ => rfl⟩

theorem of_teamsKeep {s s' : State} (h : TeamsKeep Team.posts s s') : PostsKeep s s' := ⟨h.team⟩

theorem modTeam (s : State) (id : TeamId) {f : Team → Team} (hid : ∀ t, (f t).id = t.id) (hf : ∀ t, (f t).posts = t.posts) :
    PostsKeep s (s.modTeam id f) := of_teamsKeep (.modTeam s id hid hf)

theorem modGrp (s : State) (k : GrpId) (f : Group → Group) : PostsKeep s (s.modGrp k f) := modTeam s k.team (fun _ => rfl) fun _ => rfl

theorem putStatus (s : State) (q : BitVec 6) (code hi : Nat) : PostsKeep s (s.putStatus q code hi) := modGrp s _ _

theorem freeEntries (s : State) (ids : List Nat) : PostsKeep s (s.freeEntries ids) :=
  of_teamsKeep (.of_map (s' := s.freeEntries ids) rfl rfl (fun _ => rfl) fun _ => rfl)

/-- A team's posts, wherever the team still stands. -/
theorem some_of {s s' : State} (h : PostsKeep s s') {id : TeamId} {t : Team} (ht : s.team? id = some t) :
    ∃ t', s'.team? id = some t' ∧ t'.kl = t.kl ∧ t'.colls = t.colls := by
  have hid := h.team id
  rw [ht, Option.map_some, Option.map_eq_some_iff] at hid
  obtain ⟨t', ht', hposts⟩ := hid
  obtain ⟨hkl, hcolls⟩ := Prod.mk.inj hposts
  exact ⟨t', ht', hkl, hcolls⟩

/-! ## Poison -/

theorem poisonTrap (s : State) (by_ : Issuer) (addr : Nat) : PostsKeep s (s.poisonTrap by_ addr) := by
  unfold State.poisonTrap
  split
  · next t _ =>
    split
    · have hpend : PostsKeep s (s.pendTrap by_ 12 0 0xFF ((t.poisonAddr).getD addr) 0) := modTeam s _ (fun _ => rfl) fun _ => rfl
      exact hpend.trans (modTeam _ by_.team (fun _ => rfl) fun _ => rfl)
    · exact refl s
  · exact refl s

/-- An element is met as poison by a team. -/
theorem met (s : State) (by_ : Issuer) (addr : Nat) : PostsKeep s ((s.poisonSeen by_.team).poisonTrap by_ addr) :=
  (of_notices (.poisonSeen s by_.team)).trans (poisonTrap _ by_ addr)

theorem meetSram (s : State) (by_ : Issuer) (core addr : Nat) : PostsKeep s (s.meetSram by_ core addr) :=
  ((of_notices (.count s _ _ _)).trans (of_notices (.count _ _ _ _))).trans (met _ by_ addr)

theorem meetPoisonPage (s : State) (by_ : Issuer) (core addr : Nat) : PostsKeep s (s.meetPoisonPage by_ core addr) :=
  (of_notices (.count s _ _ _)).trans (met _ by_ addr)

theorem meetAt (s : State) (by_ : Issuer) (addr : Nat) (spot : Nat × Bool) : PostsKeep s (s.meetAt by_ addr spot) :=
  (of_notices (.countRead s _ _)).trans (met _ by_ addr)

theorem readVA {s s1 : State} {by_ : Issuer} {core space va n : Nat} {bs : List Byte}
    (h : s.readVA by_ core space va n = .ok (s1, bs)) : PostsKeep s s1 := by
  unfold State.readVA at h
  split at h
  · cases h
  · dsimp only at h
    split at h
    · cases h
      exact refl s
    · split at h
      · cases h
        exact meetPoisonPage s by_ core va
      · cases h
        exact meetAt s by_ va _

end PostsKeep

end Sys2Proof.Machine

/-! # Collectives: the words and the events (R359 to R362)

`COLL` changes its slot alone; the completion writes `RECV`, byte by byte at its home. -/

namespace Sys2Proof.Machine

open Sys2Proof

/-! ## A slot changed -/

/-- A collective slot of a team changed. -/
def Team.modColl (t : Team) (n : Nat) (f : CollSlot → CollSlot) : Team := { t with colls := modAt f n t.colls }

theorem Team.coll_modColl {t : Team} {n : Nat} (h : n < t.colls.length) (f : CollSlot → CollSlot) : (t.modColl n f).coll n = f (t.coll n) :=
  getD_modAt_self f _ h

theorem Team.coll_eq {t t' : Team} (h : t'.colls = t.colls) (n : Nat) : t'.coll n = t.coll n := by
  rw [Team.coll, Team.coll, h]

theorem State.team?_modColl {s : State} {id : TeamId} {t : Team} (ht : s.team? id = some t) (n : Nat) (f : CollSlot → CollSlot) :
    (s.modColl id n f).team? id = some (t.modColl n f) :=
  (State.team?_modTeam_self s id (f := fun t => t.modColl n f) fun _ => rfl).trans (congrArg _ ht)

theorem RegsKeep.modColl (s : State) (id : TeamId) (n : Nat) (f : CollSlot → CollSlot) : RegsKeep s (s.modColl id n f) :=
  of_poisons (.modTeam s id (f := fun t => t.modColl n f) (fun _ => rfl) (fun _ => rfl) fun _ => rfl)

/-- A running slot becomes cancelled, and a slot that does not run stays as it is (R362). -/
theorem State.collStop_st {s : State} {id : TeamId} {t : Team} (ht : s.team? id = some t) {k : Nat} (hk : k < t.colls.length) :
    ∃ t', (s.collStop id k).team? id = some t' ∧ (t'.coll k).st = if (t.coll k).st = 1 then 3 else (t.coll k).st := by
  refine ⟨_, State.team?_modColl ht k _, ?_⟩
  rw [Team.coll_modColl hk]
  split
  · rfl
  · rfl

theorem RegsKeep.collStop (s : State) (id : TeamId) (k : Nat) : RegsKeep s (s.collStop id k) :=
  (RegsKeep.modColl s id k _).trans (of_teams rfl rfl)

/-- The status of `COLL` carries its slot's state (R360). -/
theorem State.finColl_eq {s u : State} {t' : Team} (hiss : u.iss = s.iss) (ht : u.team? s.iss.grp.team = some t') (q : BitVec 6)
    (code k : Nat) : u.finColl q code k = .done (u.putStatus q code (t'.coll k).st) := by
  rw [State.finColl, hiss, ht]
  rfl

/-! ## Words on a slot -/

section
variable {s : State} {t : Team} {g : Group} (h : s.EReady t g [])
include h

theorem State.EReady.issTeam_eq : s.team? s.iss.grp.team = some t := by
  obtain ⟨⟨ht, -⟩, -⟩ := h
  exact ht

/-- `COLL.wait` by the state of its slot. -/
theorem State.EReady.collWait (q : BitVec 6) (x : BitVec 5) (k : Fin 4) : exec (.collWait q x k) s =
    .next (if (t.coll k.val).st = 1 then if x = 0 then s.putStatus q stTimeout 1 else s.block [] [q.toNat] x none 1
      else if (t.coll k.val).st = 2 then (s.putStatus q stOk 2).acquire t g 6
      else s.putStatus q stRejected (t.coll k.val).st) := by
  change execCollWait q x k s = _
  rw [execCollWait, h.asE_eq]
  dsimp only
  split
  · exact State.finishWait_wait h.mode_eq ..
  · split
    · exact State.finishWait_done ..
    · rw [State.finColl_eq rfl h.issTeam_eq]
      exact State.finishWait_done ..

/-- `COLL.test` by the state of its slot. -/
theorem State.EReady.collTest (q : BitVec 6) (k : Fin 4) : exec (.collTest q k) s =
    .next (if (t.coll k.val).st = 2 then (s.putStatus q stOk 2).acquire t g 6 else s.putStatus q stBusy (t.coll k.val).st) := by
  change execCollTest q k s = _
  rw [execCollTest, h.asE_eq]
  split
  · exact State.finishWait_done ..
  · rw [State.finColl_eq rfl h.issTeam_eq]
    exact State.finishWait_done ..

/-- `COLL.cancel` stops its slot, and reports what it has become. -/
theorem State.EReady.collCancel (q : BitVec 6) {k : Fin 4} (hk : k.val < t.colls.length) :
    ∃ s' t', exec (.collCancel q k) s = .next s' ∧ s.SameMem s' ∧ s'.team? t.id = some t' ∧
      (t'.coll k.val).st = if (t.coll k.val).st = 1 then 3 else (t.coll k.val).st := by
  obtain ⟨t1, ht1, hst⟩ := State.collStop_st h.team_eq hk
  have hid : t.id = s.iss.grp.team := State.team?_id h.issTeam_eq
  obtain ⟨t', ht', -, hcolls⟩ := (PostsKeep.putStatus (s.collStop t.id k.val) q stOk (t1.coll k.val).st).some_of ht1
  refine ⟨(s.collStop t.id k.val).putStatus q stOk (t1.coll k.val).st, t', ?_, fun _ => rfl, ht',
    (congrArg CollSlot.st (Team.coll_eq hcolls k.val)).trans hst⟩
  change execCollCancel q k s = _
  rw [execCollCancel, h.asE_eq, State.finColl_eq (u := s.collStop t.id k.val) (s := s) rfl (by rw [← hid]; exact ht1)]
  exact State.finishWait_done ..

end

/-! ## `COLL.go` -/

/-- A record that can be read, outside trap mode. -/
theorem State.Reads.reading {s s1 : State} {t : Team} {g : Group} {va n : Nat} {bs : List Byte} (hr : s.Reads t g va n s1 bs)
    (hm : g.trapMask = none) (f : State → List Byte → Res) : s.reading t g va n f = f s1 bs := by
  obtain ⟨hheld, hread⟩ := hr
  unfold State.reading
  rw [if_neg (ne_true_of_eq_false hheld), hread]
  exact Res.gated_of_no_trap _ s t hm

section
variable {s : State} {t : Team} {g : Group} {e : EF} {k : Fin 4} (h : s.EReady t g [e.p.toNat])
include h

/-- What `COLL.go` ends with, where nothing before it has changed a register or a slot. -/
theorem State.EReady.collStatus {u : State} (hregs : RegsKeep s u) {t' : Team} (ht : u.team? t.id = some t') (code : Nat) :
    let s' := u.putStatus e.q code (t'.coll k.val).st
    s.finishWait [e.p.toNat] [e.q.toNat] e.q e.x none (u.finColl e.q code k.val) = .next s' ∧ s'.mem = u.mem ∧
      s.Wrote s' g e.q (statusVal code (t'.coll k.val).st) := by
  have hid : t.id = s.iss.grp.team := State.team?_id h.nil.issTeam_eq
  refine ⟨?_, rfl, .of_regsKeep h.grp_eq h.wid_eq hregs e.q _ _⟩
  rw [State.finColl_eq hregs.iss (hid ▸ ht)]
  exact State.finishWait_done ..

/-- A refused or busy `COLL.go` reports its slot as it is. -/
theorem State.EReady.collKept {u : State} (hregs : RegsKeep s u) (hposts : PostsKeep s u) (code : Nat) :
    ∃ s', s.finishWait [e.p.toNat] [e.q.toNat] e.q e.x none (u.finColl e.q code k.val) = .next s' ∧ s'.mem = u.mem ∧
      s.Wrote s' g e.q (statusVal code (t.coll k.val).st) := by
  obtain ⟨t', ht', -, hcolls⟩ := hposts.some_of h.team_eq
  obtain ⟨hfin, hmem, hwrote⟩ := h.collStatus (k := k) hregs ht' code
  exact ⟨_, hfin, hmem, Team.coll_eq hcolls k.val ▸ hwrote⟩

variable (hrel : s.Released t g 6)
include hrel

/-- `COLL.go` once its release has been performed. -/
theorem State.EReady.collGo :
    let s1 := s.relScope g.core 6 t.paired
    let va := va56 (g.sreg e.p.toNat).toNat
    exec (.collGo e k) s = s.finishWait [e.p.toNat] [e.q.toNat] e.q e.x none
      (if va % 64 ≠ 0 then s1.finColl e.q stRejected k.val
       else s1.reading t g va 64 (fun s bs =>
         match s.fgroups.find? (fun y => y.id == field bs 28 2) with
         | none => s.finColl e.q stRejected k.val
         | some fg =>
           if collBad bs fg.ranks then s.finColl e.q stRejected k.val
           else if (t.coll k.val).st = 1 then s.finColl e.q stBusy k.val
           else s.collStart t g e.q k.val fg bs)) := by
  intro s1 va
  obtain ⟨-, -, -, -, -, hdet⟩ := id h
  have hqueue : s1.toQueue t = false := by
    have hkeep : s1.toQueue t = s.toQueue t := (AtHomes.relScope s g.core 6 t.paired).keep (fun s => s.toQueue t) fun _ _ => rfl
    rw [hkeep, State.toQueue, hdet, Bool.false_and]
  change execCollGo e k s = _
  rw [execCollGo, h.asE_eq, hrel.releasing]
  dsimp only
  rw [hqueue, if_neg Bool.false_ne_true] <;> rfl

variable {s2 : State} {bs : List Byte} (hal : va56 (g.sreg e.p.toNat).toNat % 64 = 0) (hm : g.trapMask = none)
  (hr : (s.relScope g.core 6 t.paired).Reads t g (va56 (g.sreg e.p.toNat).toNat) 64 s2 bs)
include hal hm hr

omit h hrel hal hm in
theorem State.Reads.collKeeps : RegsKeep s s2 ∧ PostsKeep s s2 :=
  ⟨(RegsKeep.of_notices (.relScope s g.core 6 t.paired)).trans (.of_poisons (.readVA hr.2)),
    (PostsKeep.of_notices (.relScope s g.core 6 t.paired)).trans (.readVA hr.2)⟩

/-- `COLL.go` of a descriptor that has been read. -/
theorem State.EReady.collGo_read : exec (.collGo e k) s = s.finishWait [e.p.toNat] [e.q.toNat] e.q e.x none
    (match s2.fgroups.find? (fun y => y.id == field bs 28 2) with
      | none => s2.finColl e.q stRejected k.val
      | some fg =>
        if collBad bs fg.ranks then s2.finColl e.q stRejected k.val
        else if (t.coll k.val).st = 1 then s2.finColl e.q stBusy k.val
        else s2.collStart t g e.q k.val fg bs) := by
  rw [h.collGo hrel, if_neg (not_not_intro hal), hr.reading hm]

end

/-- The slot that `COLL.go` starts, without a counter. -/
def collStarted (bs : List Byte) (fg : FGroup) (by_ : Issuer) (a b : List Part) : CollSlot :=
  { st := 1, send := a, recv := b, done := none, count := field bs 24 4, group := fg.id, op := field bs 30 1, dtype := field bs 31 1,
    rop := field bs 32 1, root := field bs 33 1, ranks := fg.ranks, me := fg.me, by_ := by_, result := none }

/-- A descriptor whose buffers translate starts its slot. -/
theorem State.collStart_eq {s : State} {t : Team} {g : Group} {fg : FGroup} {bs : List Byte} {a b : List Part} (h0 : field bs 16 8 = 0)
    (ha : s.xlatElem g.core t.space (field bs 0 8)
      ((collSizes (field bs 30 1) (field bs 24 4) fg.ranks).1 * dtypeSize (field bs 31 1)) .read = .ok a)
    (hb : s.xlatElem g.core t.space (field bs 8 8)
      ((collSizes (field bs 30 1) (field bs 24 4) fg.ranks).2 * dtypeSize (field bs 31 1)) .write = .ok b) (q : BitVec 6) (k : Nat) :
    s.collStart t g q k fg bs = (s.modColl t.id k (fun _ => collStarted bs fg s.issuer a b)).finColl q stOk k := by
  unfold State.collStart
  dsimp only
  rw [ha]
  dsimp only
  rw [hb]
  dsimp only
  rw [if_pos h0]
  rfl

end Sys2Proof.Machine

/-! # What an engine writes at homes that hold nothing -/

namespace Sys2Proof.Machine

open Sys2Proof

/-! ## Homes at which nothing waits -/

/-- What waits at homes, and what is in flight. -/
def State.pending (s : State) : List Migration × List Snoop × List HeldWrite × List Flight := (s.migrations, s.snoops, s.pushq, s.flights)

theorem State.giveBack_pending (s : State) (p : Nat × Byte × Nat → Bool) : (s.giveBack p).pending = s.pending := by
  unfold State.giveBack
  extract_lets out lost isLost s1
  have h1 : s1.pending = s.pending := rfl
  exact (foldl_related (R := fun s s' : State => s'.pending = s.pending) (fun _ => rfl) (fun h1 h2 => h2.trans h1)
    (fun (s : State) (l : Nat) => (rfl : (s.count (s.homeWheel (128 * l)) 0x46 1).pending = s.pending)) _ s1).trans h1

theorem State.recallAll_pending (s : State) (pa : Nat) : (s.recallAll pa).pending = s.pending := by
  have hline (s : State) : (s.recallLine pa).pending = s.pending := (State.giveBack_pending s _ :)
  unfold State.recallAll
  split
  · exact (hline _).trans (State.giveBack_pending s _ :)
  · exact hline s

theorem State.noticed_pending (s : State) (pas : List Nat) : (s.noticed pas).pending = s.pending := by
  unfold State.noticed
  split
  · rfl
  · rfl

theorem State.homePut_pending (s : State) (a : Nat) (v : Byte) : (s.homePut a v).pending = s.pending := by
  by_cases hf : s.fenced a = true
  · rw [State.homePut_fenced hf]
  · rw [State.homePut_eq (by simpa using hf)]
    rfl

theorem State.putCells_pending (s : State) (attr : Nat) (cells : List (Nat × Byte)) : (s.putCells attr cells).pending = s.pending := by
  induction cells generalizing s with
  | nil => rfl
  | cons c cs ih => exact (ih _).trans (s.homePut_pending _ _)

/-- What a write performed brings home of dirty copies before it. -/
def State.recalled (s : State) (h : HeldWrite) : State :=
  if h.attr = 0 then ((h.cells.head?).map (fun c => s.recallAll (s.fwd c.1))).getD s else s

/-- A write that pushes nothing, performed. -/
theorem State.perform_eq (s : State) {h : HeldWrite} (hp : h.push = false) : s.perform h =
    ((s.recalled h).putCells h.attr h.cells).noticed (h.cells.map (fun c => s.target h.attr c.1)) := by
  unfold State.perform
  extract_lets s0 s1
  rw [if_neg (by rw [hp]; exact Bool.false_ne_true)]
  rfl

theorem State.recalled_pending (s : State) (h : HeldWrite) : (s.recalled h).pending = s.pending := by
  unfold State.recalled
  split
  · cases h.cells with
    | nil => rfl
    | cons c cs => exact s.recallAll_pending _
  · rfl

theorem State.perform_pending (s : State) {h : HeldWrite} (hp : h.push = false) : (s.perform h).pending = s.pending := by
  rw [s.perform_eq hp]
  exact (State.noticed_pending _ _).trans ((State.putCells_pending _ _ _).trans (s.recalled_pending h))

/-- Nothing waits at homes, for the host or in flight. -/
structure State.Idle (s : State) : Prop where
  pending : s.pending = ([], [], [], [])
  host : s.hostLines = []

namespace State.Idle

variable {s : State}

theorem migrations (h : s.Idle) : s.migrations = [] := congrArg Prod.fst h.pending

theorem snoops (h : s.Idle) : s.snoops = [] := congrArg (·.2.1) h.pending

theorem pushq (h : s.Idle) : s.pushq = [] := congrArg (·.2.2.1) h.pending

theorem flights (h : s.Idle) : s.flights = [] := congrArg (·.2.2.2) h.pending

theorem of_homes {u : State} (h : s.Idle) (hh : AtHomes s u) (hp : u.pending = s.pending) : u.Idle :=
  ⟨hp.trans h.pending, (hh.keep State.hostLines fun _ _ => rfl).trans h.host⟩

theorem target (h : s.Idle) (attr a : Nat) : s.target attr a = a := by
  unfold State.target
  split
  · rfl
  · exact State.fwd_of_no_migration h.migrations a

theorem unlocked (h : s.Idle) (a : Nat) : s.lockedOld a = false ∧ s.lockedNew a = false := by
  simp [State.lockedOld, State.lockedNew, h.migrations]

/-- A write that pushes nothing is performed, outside a fenced channel. -/
theorem writeLine_eq (h : s.Idle) {w : HeldWrite} (hp : w.push = false) {c : Nat × Byte} (hc : w.cells.head? = some c)
    (hf : s.fenced c.1 = false) : s.writeLine w = s.perform w := by
  obtain ⟨cs, hcells⟩ : ∃ cs, w.cells = c :: cs := List.head?_eq_some_iff.1 hc
  unfold State.writeLine
  rw [hcells]
  dsimp only
  rw [h.target, if_neg (ne_true_of_eq_false hf), (h.unlocked c.1).1, (h.unlocked c.1).2, h.host, hp]
  simp [State.pushHeldLine, h.pushq]

theorem writeLine (h : s.Idle) {w : HeldWrite} (hp : w.push = false) : (s.writeLine w).Idle := by
  refine h.of_homes (.writeLine s w) ?_
  cases hc : w.cells with
  | nil =>
    rw [State.writeLine, hc]
  | cons c cs =>
    by_cases hf : s.fenced c.1 = true
    · rw [State.writeLine, hc]
      dsimp only
      rw [h.target, if_pos hf]
      rfl
    · rw [h.writeLine_eq hp (by rw [hc]; rfl) (by simpa using hf)]
      exact s.perform_pending hp

theorem writeCells (h : s.Idle) (core : Option Nat) (attr : Nat) (cells : List (Nat × Byte)) : (s.writeCells core attr false cells).Idle := by
  unfold State.writeCells
  induction lineRuns cells generalizing s with
  | nil => exact h
  | cons l ls ih => exact ih (h.writeLine rfl)

theorem engineWrite (h : s.Idle) (wheel : Nat) (ps : List Part) (bs : List Byte) : (s.engineWrite wheel false ps bs).Idle := by
  induction ps generalizing s bs with
  | nil => exact h
  | cons p ps ih =>
    unfold State.engineWrite
    extract_lets s1
    refine ih ?_ _
    unfold s1
    split
    · exact h.of_homes (.count s _ _ _) rfl
    · split
      · exact h.writeCells _ _ _
      · exact h.writeCells _ _ _

theorem not_full (h : s.Idle) (pas : List Nat) : s.heldFull pas = false := by
  simp [State.heldFull, h.unlocked]

/-- An engine's write of some lines finds room at their homes. -/
theorem putRoom (h : s.Idle) (wheel : Nat) (ps : List Part) (bs : List Byte) :
    (s.putRoom wheel ps bs).1.Idle ∧ (s.putRoom wheel ps bs).2 = true := by
  induction ps generalizing s bs with
  | nil => exact ⟨h, rfl⟩
  | cons p ps ih =>
    unfold State.putRoom
    rw [h.not_full, Bool.and_false, if_neg Bool.false_ne_true]
    exact ih (h.engineWrite _ _ _) _

/-- Nothing of some parts waits at a home. -/
theorem not_pending (h : s.Idle) (ps : List Part) : s.partPending ps = false := by
  simp [State.partPending, State.causes, State.flying, State.pushIds, h.flights, State.heldWrites, h.migrations, h.snoops, h.pushq]

end State.Idle

/-! ## Bytes that have been put at their homes -/

/-- What a read at a home depends on. -/
def State.bank (s : State) : Memory × List (Nat × Byte × Nat) × List Nat × List Nat × List Nat :=
  (s.mem, s.stale, s.poisoned, s.fencemap, s.gone)

theorem State.fenced_of_bank {s u : State} (h : u.bank = s.bank) (a : Nat) : u.fenced a = s.fenced a := by
  obtain ⟨-, -, -, hmap, hgone⟩ : u.mem = s.mem ∧ u.stale = s.stale ∧ u.poisoned = s.poisoned ∧ u.fencemap = s.fencemap ∧
      u.gone = s.gone := by
    simpa only [State.bank, Prod.mk.injEq] using h
  rw [State.fenced, State.fenced, hmap, hgone]

theorem State.homeByte_of_bank {s u : State} (h : u.bank = s.bank) (a : Nat) : u.homeByte a = s.homeByte a := by
  obtain ⟨hmem, hstale, hpois, -, -⟩ : u.mem = s.mem ∧ u.stale = s.stale ∧ u.poisoned = s.poisoned ∧ u.fencemap = s.fencemap ∧
      u.gone = s.gone := by
    simpa only [State.bank, Prod.mk.injEq] using h
  rw [State.homeByte, State.homeByte, State.homeBad, State.homeBad, State.fenced_of_bank h, hpois, State.atHome, State.atHome, hstale, hmem]

/-- Without dirty copies nothing goes home. -/
theorem State.giveBack_bank {s : State} (h : s.stale = []) (p : Nat × Byte × Nat → Bool) : (s.giveBack p).bank = s.bank := by
  unfold State.giveBack
  extract_lets out lost isLost s1
  have hout : out = [] := by simp [out, h]
  have hlost : lost = [] := by simp [lost, hout]
  rw [hlost]
  simp [State.bank, s1, h, hout, hlost]

theorem State.stale_of_bank {s u : State} (h : u.bank = s.bank) : u.stale = s.stale := congrArg (·.2.1) h

theorem State.recallAll_bank {s : State} (h : s.stale = []) (pa : Nat) : (s.recallAll pa).bank = s.bank := by
  have hline {s : State} (h : s.stale = []) : (s.recallLine pa).bank = s.bank := (State.giveBack_bank h _ :)
  unfold State.recallAll
  split
  · next r _ =>
    have hdrop : ((s.regionDrop r none).putRegions pa [{ r with sharers := [] }]).bank = s.bank := (State.giveBack_bank h _ :)
    exact (hline ((State.stale_of_bank hdrop).trans h)).trans hdrop
  · exact hline h

theorem State.noticed_bank (s : State) (pas : List Nat) : (s.noticed pas).bank = s.bank := by
  unfold State.noticed
  split
  · rfl
  · rfl

/-- Nothing waits at homes, no L1 holds a dirty copy, and memory is in canonical form. -/
structure State.Settled (s : State) : Prop where
  idle : s.Idle
  stale : s.stale = []
  wf : Memory.wf s.mem = true

theorem State.Settled.of_bank {s u : State} (h : s.Settled) (hi : u.Idle) (hb : u.bank = s.bank) : u.Settled :=
  ⟨hi, (State.stale_of_bank hb).trans h.stale, (congrArg (fun b => Memory.wf b.1) hb).trans h.wf⟩

/-- Some cells have been put at their homes, and nothing else has. -/
structure Stored (s u : State) (cells : List (Nat × Byte)) : Prop where
  settled : u.Settled
  fenced : ∀ a, u.fenced a = s.fenced a
  kept : ∀ a, a ∉ cells.map Prod.fst → u.homeByte a = s.homeByte a
  put : ∀ c ∈ cells, u.homeByte c.1 = c.2

namespace Stored

variable {s u v : State}

theorem of_bank (h : s.Settled) (hi : u.Idle) (hb : u.bank = s.bank) : Stored s u [] where
  settled := h.of_bank hi hb
  fenced := State.fenced_of_bank hb
  kept a _ := State.homeByte_of_bank hb a
  put _ hc := absurd hc List.not_mem_nil

/-- Two stores to different places, one after the other. -/
theorem trans {cs ds : List (Nat × Byte)} (h1 : Stored s u cs) (h2 : Stored u v ds) (hnd : ((cs ++ ds).map Prod.fst).Nodup) :
    Stored s v (cs ++ ds) where
  settled := h2.settled
  fenced a := (h2.fenced a).trans (h1.fenced a)
  kept a ha := by
    rw [List.map_append, List.mem_append, not_or] at ha
    obtain ⟨hcs, hds⟩ := ha
    exact (h2.kept a hds).trans (h1.kept a hcs)
  put c hc := by
    rw [List.map_append, List.nodup_append] at hnd
    obtain ⟨-, -, hne⟩ := hnd
    rcases List.mem_append.1 hc with hc | hc
    · have hout : c.1 ∉ ds.map Prod.fst := fun hm => hne _ (List.mem_map_of_mem hc) _ hm rfl
      exact (h2.kept c.1 hout).trans (h1.put c hc)
    · exact h2.put c hc

theorem homePut (h : s.Settled) {c : Nat × Byte} (hf : s.fenced c.1 = false) : Stored s (s.homePut c.1 c.2) [c] where
  settled := by
    refine ⟨h.idle.of_homes (.homePut s _ _) (s.homePut_pending _ _), ?_, State.homePut_wf h.wf _ _⟩
    rw [State.homePut_eq hf]
    simp [h.stale]
  fenced a := State.fenced_homePut s c.1 a c.2
  kept a ha := State.homeByte_homePut_ne h.wf (fun heq => ha (by simp [heq])) c.2
  put d hd := by
    rw [List.mem_singleton.1 hd]
    exact State.homeByte_homePut_self h.wf hf c.2

theorem putCells (h : s.Settled) (attr : Nat) {cells : List (Nat × Byte)} (hnd : (cells.map Prod.fst).Nodup)
    (hf : ∀ c ∈ cells, s.fenced c.1 = false) : Stored s (s.putCells attr cells) cells := by
  induction cells generalizing s with
  | nil => exact of_bank h h.idle rfl
  | cons c cs ih =>
    have h1 := homePut h (hf c List.mem_cons_self)
    rw [State.putCells, h.idle.target]
    exact h1.trans (ih h1.settled (List.nodup_cons.1 hnd).2 fun d hd => (h1.fenced d.1).trans (hf d (List.mem_cons_of_mem c hd))) hnd

theorem recalled (h : s.Settled) (w : HeldWrite) : Stored s (s.recalled w) [] := by
  have hhomes : AtHomes s (s.recalled w) ∧ (s.recalled w).bank = s.bank := by
    unfold State.recalled
    split
    · cases w.cells with
      | nil => exact ⟨.refl s, rfl⟩
      | cons => exact ⟨.recallAll s _, State.recallAll_bank h.stale _⟩
    · exact ⟨.refl s, rfl⟩
  exact of_bank h (h.idle.of_homes hhomes.1 (s.recalled_pending w)) hhomes.2

theorem noticed (h : s.Settled) (pas : List Nat) : Stored s (s.noticed pas) [] :=
  of_bank h (h.idle.of_homes (.noticed s pas) (s.noticed_pending pas)) (s.noticed_bank pas)

theorem perform (h : s.Settled) {w : HeldWrite} (hp : w.push = false) (hnd : (w.cells.map Prod.fst).Nodup)
    (hf : ∀ c ∈ w.cells, s.fenced c.1 = false) : Stored s (s.perform w) w.cells := by
  have h0 := recalled h w
  have h1 := putCells h0.settled w.attr hnd fun c hc => (h0.fenced c.1).trans (hf c hc)
  have h2 := noticed h1.settled (w.cells.map fun c => s.target w.attr c.1)
  rw [s.perform_eq hp]
  simpa using (h0.trans h1 (by simpa using hnd)).trans h2 (by simpa using hnd)

theorem writeLine (h : s.Settled) {w : HeldWrite} (hp : w.push = false) (hnd : (w.cells.map Prod.fst).Nodup)
    (hf : ∀ c ∈ w.cells, s.fenced c.1 = false) : Stored s (s.writeLine w) w.cells := by
  cases hc : w.cells with
  | nil =>
    rw [State.writeLine, hc]
    exact of_bank h h.idle rfl
  | cons c cs =>
    rw [h.idle.writeLine_eq hp (by rw [hc]; rfl) (hf c (by simp [hc])), ← hc]
    exact perform h hp hnd hf

theorem writeCells (h : s.Settled) (core : Option Nat) (attr : Nat) {cells : List (Nat × Byte)} (hnd : (cells.map Prod.fst).Nodup)
    (hf : ∀ c ∈ cells, s.fenced c.1 = false) : Stored s (s.writeCells core attr false cells) cells := by
  have hruns (runs : List (List (Nat × Byte))) (hnd : (runs.flatten.map Prod.fst).Nodup) : ∀ s : State, s.Settled →
      (∀ c ∈ runs.flatten, s.fenced c.1 = false) →
      Stored s (runs.foldl (fun s l => s.writeLine ⟨l, core, false, attr, s.writerAfter⟩) s) runs.flatten := by
    induction runs with
    | nil => exact fun s h _ => of_bank h h.idle rfl
    | cons l runs ih =>
      intro s h hf
      have hparts := hnd
      rw [List.flatten_cons, List.map_append, List.nodup_append] at hparts
      obtain ⟨hl, hrest, -⟩ := hparts
      have h1 := writeLine (w := ⟨l, core, false, attr, s.writerAfter⟩) h rfl hl fun c hc => hf c (by simp [hc])
      exact h1.trans (ih hrest _ h1.settled fun c hc => (h1.fenced c.1).trans (hf c (by simp [hc]))) hnd
  have h1 := hruns (lineRuns cells) (by rwa [lineRuns_flatten]) s h (by rwa [lineRuns_flatten])
  rwa [lineRuns_flatten] at h1

end Stored

end Sys2Proof.Machine

/-! # The result of a collective in `RECV`, and the statement about collectives (R361, R362) -/

namespace Sys2Proof.Machine

open Sys2Proof

/-! ## The places of some parts -/

/-- The places of some parts, in order. -/
def partPlaces (ps : List Part) : List Nat := ps.flatMap (fun p => rangeFrom p.x.pa p.n)

theorem length_rangeFrom (lo n : Nat) : (rangeFrom lo n).length = n := by simp [rangeFrom]

theorem rangeFrom_add (lo m n : Nat) : rangeFrom lo (m + n) = rangeFrom lo m ++ rangeFrom (lo + m) n := by
  simp [rangeFrom, List.range_add, Function.comp_def, Nat.add_assoc]

theorem partPlaces_cons (p : Part) (ps : List Part) : partPlaces (p :: ps) = rangeFrom p.x.pa p.n ++ partPlaces ps := rfl

theorem length_partPlaces (ps : List Part) : (partPlaces ps).length = (ps.map (·.n)).sum := by
  induction ps with
  | nil => rfl
  | cons p ps ih => rw [partPlaces_cons, List.length_append, length_rangeFrom, ih, List.map_cons, List.sum_cons]

/-- The lines of some bytes, in order, are those bytes. -/
theorem lines_places (pa n : Nat) :
    (lineStarts pa n).flatMap (fun a => rangeFrom a (min (128 * (lineOf a + 1)) (pa + n) - a)) = rangeFrom pa n := by
  have hupto (m : Nat) : ((List.range m).map (fun k => if k = 0 then pa else 128 * (lineOf pa + k))).flatMap
      (fun a => rangeFrom a (min (128 * (lineOf a + 1)) (pa + n) - a)) = rangeFrom pa (min (128 * (lineOf pa + m)) (pa + n) - pa) := by
    induction m with
    | zero =>
      have h0 : min (128 * (lineOf pa + 0)) (pa + n) - pa = 0 := by unfold lineOf; omega
      rw [h0]
      rfl
    | succ m ih =>
      rw [List.range_succ, List.map_append, List.flatMap_append, ih, List.map_singleton, List.flatMap_singleton]
      by_cases hm : m = 0
      · subst hm
        have h0 : min (128 * (lineOf pa + 0)) (pa + n) - pa = 0 := by unfold lineOf; omega
        rw [if_pos rfl, h0]
        rfl
      · rw [if_neg hm]
        have hline : lineOf (128 * (lineOf pa + m)) = lineOf pa + m := by unfold lineOf; omega
        rw [hline]
        by_cases hle : 128 * (lineOf pa + m) ≤ pa + n
        · have hlo : min (128 * (lineOf pa + m)) (pa + n) - pa = 128 * (lineOf pa + m) - pa := by omega
          have hge : pa ≤ 128 * (lineOf pa + m) := by unfold lineOf; omega
          have hsum : min (128 * (lineOf pa + (m + 1))) (pa + n) - pa =
              (128 * (lineOf pa + m) - pa) + (min (128 * (lineOf pa + m + 1)) (pa + n) - 128 * (lineOf pa + m)) := by omega
          rw [hlo, hsum, rangeFrom_add]
          congr 2
          omega
        · have hnil : min (128 * (lineOf pa + m + 1)) (pa + n) - 128 * (lineOf pa + m) = 0 := by omega
          have hsame : min (128 * (lineOf pa + (m + 1))) (pa + n) - pa = min (128 * (lineOf pa + m)) (pa + n) - pa := by omega
          rw [hnil, hsame]
          exact List.append_nil _
  rw [lineStarts, hupto]
  congr 1
  unfold lineOf
  omega

theorem Part.lines_places (p : Part) : partPlaces p.lines = rangeFrom p.x.pa p.n := by
  rw [← Sys2Proof.Machine.lines_places p.x.pa p.n, partPlaces, Part.lines, List.flatMap_map]

theorem partPlaces_lines (ps : List Part) : partPlaces (ps.flatMap Part.lines) = partPlaces ps := by
  induction ps with
  | nil => rfl
  | cons p ps ih =>
    rw [List.flatMap_cons, partPlaces_cons, ← ih, ← p.lines_places]
    exact List.flatMap_append

/-- Every byte of some parts cut from them: the parts that have one. -/
theorem cutParts_all (ps : List Part) : cutParts ps 0 (ps.map (·.n)).sum = ps.filter (fun p => decide (p.n ≠ 0)) := by
  induction ps with
  | nil => rfl
  | cons p ps ih =>
    unfold cutParts
    rw [List.map_cons, List.sum_cons]
    by_cases hp : p.n = 0
    · rw [List.filter_cons_of_neg (by simp [hp]), ← ih, hp, Nat.zero_add, Nat.sub_zero, if_pos (Nat.le_refl 0)]
      split
      · next h0 =>
        rw [h0]
        cases ps with
        | nil => rfl
        | cons q qs => exact (if_pos rfl).symm
      · rfl
    · have hk : min (p.n + (ps.map (·.n)).sum) (p.n - 0) = p.n := by omega
      rw [List.filter_cons_of_pos (by simp [hp]), if_neg (by omega), if_neg (by omega)]
      dsimp only
      rw [hk, Nat.add_sub_cancel_left, ih]
      rfl

theorem partPlaces_filter (ps : List Part) : partPlaces (ps.filter (fun p => decide (p.n ≠ 0))) = partPlaces ps := by
  induction ps with
  | nil => rfl
  | cons p ps ih =>
    by_cases hp : p.n = 0
    · rw [List.filter_cons_of_neg (by simp [hp]), ih, partPlaces_cons, hp]
      rfl
    · rw [List.filter_cons_of_pos (by simp [hp]), partPlaces_cons, ih, partPlaces_cons]

/-! ## An engine's write of some lines -/

/-- Parts that can be written: none is a poison page, and no byte of theirs lies in a fenced channel. -/
def State.Writable (s : State) (ps : List Part) : Prop := (∀ p ∈ ps, p.x.poison = false) ∧ ∀ a ∈ partPlaces ps, s.fenced a = false

theorem cellsAt_take {n : Nat} {bs : List Byte} (h : n ≤ bs.length) (pa : Nat) :
    cellsAt pa (bs.take n) = (rangeFrom pa n).zip (bs.take n) := by
  rw [cellsAt, List.length_take, Nat.min_eq_left h]

namespace Stored

variable {s : State}

/-- One part. -/
theorem enginePart (h : s.Settled) (wheel : Nat) {p : Part} {bs : List Byte} (hlen : p.n ≤ bs.length) (hpoison : p.x.poison = false)
    (hf : ∀ a ∈ rangeFrom p.x.pa p.n, s.fenced a = false) :
    Stored s (s.engineWrite wheel false [p] (bs.take p.n)) ((rangeFrom p.x.pa p.n).zip (bs.take p.n)) := by
  have hcells := cellsAt_take hlen p.x.pa
  have hstored (attr : Nat) := writeCells (cells := cellsAt p.x.pa (bs.take p.n)) h none attr
    (List.pairwise_map.2 ((cellsAt_rise _ _).imp Nat.ne_of_lt)) fun c hc => hf c.1 (List.of_mem_zip (hcells ▸ hc)).1
  have htake : (bs.take p.n).take p.n = bs.take p.n := by rw [List.take_take, Nat.min_self]
  rw [State.engineWrite, State.engineWrite, hpoison, if_neg Bool.false_ne_true, htake, ← hcells]
  split
  · exact hstored 3
  · exact hstored _

/-- Lines of an engine's write, each with its room. -/
theorem putRoom (h : s.Settled) (wheel : Nat) {ps : List Part} {bs : List Byte} (hlen : (partPlaces ps).length = bs.length)
    (hw : s.Writable ps) (hnd : (partPlaces ps).Nodup) : Stored s (s.putRoom wheel ps bs).1 ((partPlaces ps).zip bs) := by
  induction ps generalizing s bs with
  | nil => exact of_bank h h.idle rfl
  | cons p ps ih =>
    obtain ⟨hpoison, hf⟩ := hw
    rw [partPlaces_cons] at hlen hnd hf
    rw [List.length_append, length_rangeFrom] at hlen
    have h1 := enginePart (bs := bs) h wheel (by omega) (hpoison p List.mem_cons_self) fun a ha => hf a (List.mem_append_left _ ha)
    have h2 := ih (bs := bs.drop p.n) h1.settled (by rw [List.length_drop]; omega) ⟨fun q hq => hpoison q (List.mem_cons_of_mem p hq),
      fun a ha => (h1.fenced a).trans (hf a (List.mem_append_right _ ha))⟩ (List.nodup_append.1 hnd).2.1
    have hzip : (rangeFrom p.x.pa p.n ++ partPlaces ps).zip bs =
        (rangeFrom p.x.pa p.n).zip (bs.take p.n) ++ (partPlaces ps).zip (bs.drop p.n) := by
      rw [← List.zip_append (by rw [length_rangeFrom, List.length_take]; omega), List.take_append_drop]
    rw [partPlaces_cons, hzip]
    unfold State.putRoom
    rw [h.idle.not_full, Bool.and_false, if_neg Bool.false_ne_true]
    exact h1.trans h2 (by
      rw [← hzip, List.map_fst_zip (by rw [List.length_append, length_rangeFrom]; omega)]
      exact hnd)

end Stored

/-- What an engine reads, where nothing waits and no page is a poison page. -/
theorem State.Settled.engineRead {s : State} (h : s.Settled) {ps : List Part} (hp : ∀ p ∈ ps, p.x.poison = false) :
    (s.engineRead ps).1 = (partPlaces ps).map s.homeByte := by
  have hbad (a : Nat) : s.bad a = s.homeBad a := by simp [State.bad, h.stale]
  have hhome (a : Nat) : s.atHome a = s.mem.read a := by simp [State.atHome, h.stale]
  induction ps with
  | nil => rfl
  | cons p ps ih =>
    rw [State.engineRead]
    dsimp only
    rw [hp p List.mem_cons_self, if_neg Bool.false_ne_true]
    dsimp only
    rw [ih fun q hq => hp q (List.mem_cons_of_mem p hq), partPlaces_cons, List.map_append]
    congr 1
    split
    · rfl
    · split
      · refine List.map_congr_left fun a _ => ?_
        rw [State.physRead, State.fwd_of_no_migration h.idle.migrations, hbad, State.homeByte, hhome]
      · refine List.map_congr_left fun a _ => ?_
        rw [State.homeRead, State.fwd_of_no_migration h.idle.migrations, State.homeByte]

/-- Bytes stored at some places are what those places read. -/
theorem Stored.read {s u : State} {places : List Nat} {bs : List Byte} (h : Stored s u (places.zip bs)) (hlen : places.length = bs.length) :
    places.map u.homeByte = bs := by
  refine List.ext_getElem (by simpa using hlen) fun k hk1 hk2 => ?_
  rw [List.getElem_map]
  have hk : k < places.length := by simpa using hk1
  have hmem : (places[k], bs[k]) ∈ places.zip bs := List.mem_iff_getElem.2 ⟨k, by simp [hk, hk2], by simp⟩
  exact h.put _ hmem

/-! ## The completion -/

theorem PostsKeep.putRoom (s : State) (wheel : Nat) (ps : List Part) (bs : List Byte) : PostsKeep s (s.putRoom wheel ps bs).1 := by
  induction ps generalizing s bs with
  | nil => exact .refl s
  | cons p ps ih =>
    unfold State.putRoom
    split
    · exact .refl s
    · exact (PostsKeep.of_notices (.engineWrite s wheel false [p] _)).trans (ih _ _)

theorem Part.poison_lines {p q : Part} (h : q ∈ p.lines) : q.x.poison = p.x.poison := by
  obtain ⟨a, -, rfl⟩ := List.mem_map.1 h
  rfl

section
variable {s : State} {id : TeamId} {t : Team} {k : Nat} {sends : List (List Byte)} (ht : s.team? id = some t) (hk : k < t.colls.length)
  (hst : (t.coll k).st = 1) (hres : (t.coll k).result = none) (hsound : (t.coll k).sound sends = true)
  (hsend : (t.coll k).send.any s.partHeld = false) (hgood : (s.badBytes (t.coll k).send).any (fun b => b) = false)

/-- The result of a collective (R361). -/
def State.collResult (s : State) (c : CollSlot) (sends : List (List Byte)) : List Byte :=
  c.output (modAt (fun _ => (s.engineRead c.send).1) c.me sends)

/-- A collective whose data has been exchanged. -/
def State.collFixed (s : State) (id : TeamId) (k : Nat) (out : List Byte) : State := s.modColl id k (fun c => { c with result := some out })

include ht hst hres hsound hsend hgood in
/-- The exchange fixes the result, where nothing of `SEND` is uncorrectable. -/
theorem State.collExchange_eq : s.collExchange id k sends = s.collFixed id k (s.collResult (t.coll k) sends) := by
  unfold State.collExchange
  rw [ht]
  dsimp only
  rw [hst, hres, hsound, hsend, if_neg (by decide)]
  have hread (by_ : Issuer) (core va : Nat) (us : List Unit_) : s.readParts by_ core va us (t.coll k).send =
      (s, (s.engineRead (t.coll k).send).1) := if_neg (ne_true_of_eq_false hgood)
  rw [hread]
  rfl

/-- The lines of `RECV`, in order. -/
def CollSlot.recvLines (c : CollSlot) : List Part := (c.recv.filter (fun p => decide (p.n ≠ 0))).flatMap Part.lines

theorem CollSlot.recvLines_places (c : CollSlot) : partPlaces c.recvLines = partPlaces c.recv :=
  (partPlaces_lines _).trans (partPlaces_filter _)

/-- The state in which the whole result has been written to `RECV`. -/
def State.collWritten (s : State) (id : TeamId) (t : Team) (k : Nat) (out : List Byte) : State :=
  ((s.collFixed id k out).putRoom (wheelOf t.core) (t.coll k).recvLines (out.take ((t.coll k).recv.map (·.n)).sum)).1

variable (hidle : s.Idle) (hrecv : (t.coll k).recv.any s.partHeld = false) (hdone : (t.coll k).done = none)

theorem State.Idle.collFixed (h : s.Idle) (out : List Byte) : (s.collFixed id k out).Idle := ⟨h.pending, h.host⟩

include ht hk hst hidle hrecv in
theorem State.collPut_all (out : List Byte) : (s.collFixed id k out).collPut id k 0 ((t.coll k).recv.map (·.n)).sum =
    (s.collWritten id t k out, true) := by
  have hteam := State.team?_modColl ht k (fun c => { c with result := some out })
  have hroom := (hidle.collFixed (id := id) (k := k) out).putRoom (wheelOf t.core) (t.coll k).recvLines
    (out.take ((t.coll k).recv.map (·.n)).sum)
  have hheld : ((t.coll k).recv.filter (fun p => decide (p.n ≠ 0))).any (s.collFixed id k out).partHeld = false :=
    List.any_eq_false.2 fun p hp => List.any_eq_false.1 hrecv p (List.mem_of_mem_filter hp)
  unfold State.collPut
  rw [State.collFixed, hteam]
  dsimp only
  rw [Team.coll_modColl hk]
  dsimp only
  rw [cutParts_all, hst]
  exact (if_neg (by rw [Bool.or_eq_true]; exact not_or.2 ⟨by simp, ne_true_of_eq_false hheld⟩)).trans
    (Prod.ext rfl hroom.2)

include ht hk hst hres hsound hsend hgood hidle hrecv hdone in
/-- A collective that can complete writes its result, and its slot is complete. -/
theorem State.collComplete_eq : exec (.collComplete id k sends) s =
    .next (((s.collWritten id t k (s.collResult (t.coll k) sends)).modColl id k (fun c => { c with st := 2 })).collDone id k) := by
  generalize hout : s.collResult (t.coll k) sends = out
  have hfixed := hidle.collFixed (id := id) (k := k) out
  have hteam := State.team?_modColl ht k (fun c => { c with result := some out })
  have hput := State.collPut_all ht hk hst hidle hrecv out
  have hwritten : (s.collWritten id t k out).Idle := (hfixed.putRoom _ _ _).1
  have hheld : (t.coll k).recv.any (s.collFixed id k out).partHeld = false := hrecv
  have hsum : ((t.coll k).recv.map (·.n)).foldl (· + ·) 0 = ((t.coll k).recv.map (·.n)).sum := List.sum_eq_foldl.symm
  change execCollComplete id k sends s = _
  rw [execCollComplete, State.collExchange_eq ht hst hres hsound hsend hgood, hout]
  dsimp only
  rw [show (s.collFixed id k out).team? id = _ from hteam]
  dsimp only
  rw [Team.coll_modColl hk]
  dsimp only
  rw [hst, hheld, hfixed.not_pending, hdone, if_neg (by simp), hsum, hput]
  dsimp only
  rw [hwritten.not_pending, if_neg (by decide)]

include ht hk in
theorem State.collDone_slot (out : List Byte) : ∃ t',
    (((s.collWritten id t k out).modColl id k (fun c => { c with st := 2 })).collDone id k).team? id = some t' ∧ (t'.coll k).st = 2 ∧
      (t'.coll k).result = some out := by
  have hteam := State.team?_modColl ht k (fun c => { c with result := some out })
  obtain ⟨t1, ht1, -, hcolls⟩ := (PostsKeep.putRoom (s.collFixed id k out) (wheelOf t.core) (t.coll k).recvLines
    (out.take ((t.coll k).recv.map (·.n)).sum)).some_of hteam
  have hcolls : t1.colls = modAt (fun c => { c with result := some out }) k t.colls := hcolls
  have hslot : t1.coll k = { t.coll k with result := some out } :=
    (Team.coll_eq (t := t.modColl k fun c => { c with result := some out }) hcolls k).trans (Team.coll_modColl hk _)
  have hlen : k < t1.colls.length := by rw [hcolls, modAt_length]; exact hk
  refine ⟨_, State.team?_modColl ht1 k _, ?_⟩
  rw [Team.coll_modColl hlen, hslot]
  exact ⟨rfl, rfl⟩

/-- The result is what `RECV` then reads, where each of its bytes is a place of its own, in no poison page and no fenced channel. -/
theorem State.Settled.collWritten (h : s.Settled) {out : List Byte}
    (hw : ∀ p ∈ (t.coll k).recv, p.x.poison = false ∧ ∀ i, i < p.n → s.fenced (p.x.pa + i) = false)
    (hnd : (partPlaces (t.coll k).recv).Nodup) (hlen : ((t.coll k).recv.map (·.n)).sum = out.length) :
    ((((s.collWritten id t k out).modColl id k (fun c => { c with st := 2 })).collDone id k).engineRead (t.coll k).recv).1 = out := by
  have hplaces := (t.coll k).recvLines_places
  have hfixed : (s.collFixed id k out).Settled := h.of_bank (h.idle.collFixed out) rfl
  have hstored := Stored.putRoom (bs := out) hfixed (wheelOf t.core) (ps := (t.coll k).recvLines)
    (by rw [hplaces, length_partPlaces, hlen]) ⟨fun q hq => ?_, fun a ha => ?_⟩ (hplaces ▸ hnd)
  · rw [hplaces] at hstored
    rw [State.collWritten, List.take_of_length_le (Nat.le_of_eq hlen.symm)]
    generalize ((s.collFixed id k out).putRoom (wheelOf t.core) (t.coll k).recvLines out).1 = u at hstored
    have hu : ((u.modColl id k (fun c => { c with st := 2 })).collDone id k).Settled :=
      hstored.settled.of_bank ⟨hstored.settled.idle.pending, hstored.settled.idle.host⟩ rfl
    rw [hu.engineRead fun p hp => (hw p hp).1]
    exact hstored.read (by rw [length_partPlaces, hlen])
  · obtain ⟨p, hp, hline⟩ := List.mem_flatMap.1 hq
    rw [Part.poison_lines hline]
    exact (hw p (List.mem_of_mem_filter hp)).1
  · rw [hplaces] at ha
    obtain ⟨p, hp, hin⟩ := List.mem_flatMap.1 ha
    obtain ⟨hlo, hhi⟩ := mem_rangeFrom.1 hin
    have hfence := (hw p hp).2 (a - p.x.pa) (by omega)
    rwa [show p.x.pa + (a - p.x.pa) = a by omega] at hfence

end

/-- Settles O53: the words by their slot and their descriptor; the completion by its writes, each at its home. -/
theorem collectives : Obligations.Collectives := by
  unfold Obligations.Collectives
  constructor
  · intro s t g e q x k h hcolls c s1 va
    have hk : k.val < t.colls.length := by
      rw [hcolls]
      exact k.isLt
    refine ⟨fun hst => ⟨?_, ?_⟩, fun hst => ⟨?_, ?_⟩, fun hst => ?_, h.nil.collCancel q hk, fun hrel => ⟨fun hal => ?_, ?_⟩⟩
    · rw [h.nil.collWait, if_pos hst]
    · replace hst : (t.coll k.val).st = 1 := hst
      rw [h.nil.collTest, if_neg (by omega), hst]
    · replace hst : (t.coll k.val).st = 2 := hst
      rw [h.nil.collWait, if_neg (by omega), if_pos hst]
    · rw [h.nil.collTest, if_pos hst]
    · replace hst : (t.coll k.val).st = 0 ∨ (t.coll k.val).st = 3 := hst
      rw [h.nil.collWait, if_neg (by omega), if_neg (by omega)]
    · rw [h.collGo hrel, if_pos hal]
      exact h.collKept (.of_notices (.relScope s g.core 6 t.paired)) (.of_notices (.relScope s g.core 6 t.paired)) stRejected
    · intro s2 bs hal hm hr
      obtain ⟨hregs, hposts⟩ := hr.collKeeps
      have hexec := h.collGo_read (k := k) hrel hal hm hr
      refine ⟨fun hnone => ?_, fun fg hfg => ?_⟩
      · rw [hexec, hnone]
        exact h.collKept hregs hposts stRejected
      · rw [hfg] at hexec
        dsimp only at hexec
        refine ⟨fun hbad => ?_, fun hgood hst => ?_, fun a b hgood hst h0 ha hb => ?_⟩
        · rw [hexec, if_pos hbad]
          exact h.collKept hregs hposts stRejected
        · rw [hexec, if_neg (ne_true_of_eq_false hgood), if_pos hst]
          obtain ⟨s', hnext, hmem, hwrote⟩ := h.collKept (k := k) hregs hposts stBusy
          exact ⟨s', hnext, hmem, hst ▸ hwrote⟩
        · rw [hexec, if_neg (ne_true_of_eq_false hgood), if_neg hst, State.collStart_eq h0 ha hb]
          obtain ⟨t1, ht1, -, hcolls1⟩ := hposts.some_of h.team_eq
          let x := collStarted bs fg s2.issuer a b
          have hteam := State.team?_modColl ht1 k.val (fun _ => x)
          have hslot : (t1.modColl k.val (fun _ => x)).coll k.val = x := Team.coll_modColl (hcolls1 ▸ hk) _
          have hstatus := h.collStatus (k := k) (hregs.trans (.modColl s2 t.id k.val _)) hteam stOk
          rw [hslot, show x.st = 1 from rfl] at hstatus
          obtain ⟨hnext, hmem, hwrote⟩ := hstatus
          obtain ⟨t', ht', -, hcolls'⟩ := (PostsKeep.putStatus (s2.modColl t.id k.val (fun _ => x)) e.q stOk 1).some_of hteam
          have hslot' := (Team.coll_eq hcolls' k.val).trans hslot
          refine ⟨_, t', hnext, hmem, hwrote, ht', ?_⟩
          rw [hslot']
          exact ⟨rfl, rfl, rfl, rfl, rfl⟩
  · intro s id t k ht hk c
    refine ⟨?_, fun hres => ?_, ?_⟩
    · obtain ⟨t', ht', hst⟩ := State.collStop_st ht hk
      exact ⟨_, t', rfl, fun _ => rfl, ht', hst⟩
    · obtain ⟨t', ht', hst⟩ := State.collStop_st ht hk
      refine ⟨s.collStop id k, t', ?_, fun _ => rfl, ht', hst⟩
      change execCollHeaderMismatch id k s = _
      rw [execCollHeaderMismatch, ht, Option.map_some, Option.getD_some, if_pos (by rw [show (t.coll k).result = none from hres]; rfl)]
    · intro sends hst hres hsound hsend hrecv hmigr hsnoops hhost hpushq hflights hgood hdone out
      have hidle : s.Idle := ⟨by rw [State.pending, hmigr, hsnoops, hpushq, hflights], hhost⟩
      obtain ⟨t', ht', hst', hres'⟩ := State.collDone_slot ht hk out
      exact ⟨_, t', State.collComplete_eq ht hk hst hres hsound hsend hgood hidle hrecv hdone, ht', hst', hres',
        fun hinv hstale hw hnd hlen => State.Settled.collWritten ⟨hidle, hstale, hinv.1⟩ hw hnd hlen⟩

end Sys2Proof.Machine

/-! # The key lookup engine (R330, R333, R337, R340, R344, R371) -/

namespace Sys2Proof.Machine

open Sys2Proof

/-! ## Vats and their queues -/

theorem insVat_find_ne {v : Vat} {n : Nat} (h : n ≠ v.num) (l : List Vat) :
    (insVat v l).find? (fun d => d.num == n) = l.find? (fun d => d.num == n) := by
  have hv : (v.num == n) = false := by simpa using Ne.symm h
  induction l with
  | nil => simp [insVat, hv]
  | cons d l ih =>
    unfold insVat
    split
    · rw [List.find?_cons, hv]
    · split
      · next heq =>
        have hd : (d.num == n) = false := by rw [← heq]; exact hv
        rw [List.find?_cons, hv, List.find?_cons, hd]
      · rw [List.find?_cons, List.find?_cons, ih]

theorem State.vat_modVat_ne (s : State) {n k : Nat} (f : Vat → Vat) (h : k ≠ n) : (s.modVat n f).vat k = s.vat k := by
  unfold State.vat State.modVat
  rw [insVat_find_ne (v := { f (s.vat n) with num := n }) h]

/-- From one state to another every vat's queue of key lookups is the same. -/
structure QueuesKeep (s s' : State) : Prop where
  klq : ∀ n, (s'.vat n).klq = (s.vat n).klq

namespace QueuesKeep

theorem refl (s : State) : QueuesKeep s s := ⟨fun _ => rfl⟩

theorem trans {s s' s'' : State} (h1 : QueuesKeep s s') (h2 : QueuesKeep s' s'') : QueuesKeep s s'' :=
  ⟨fun n => (h2.klq n).trans (h1.klq n)⟩

theorem foldl {β : Type} {f : State → β → State} (step : ∀ s x, QueuesKeep s (f s x)) (l : List β) (s : State) :
    QueuesKeep s (l.foldl f s) :=
  foldl_related (R := QueuesKeep) refl trans step l s

theorem of_vats {s s' : State} (h : s'.vats = s.vats) : QueuesKeep s s' := ⟨fun n => by rw [State.vat, State.vat, h]⟩

theorem of_poisons {s s' : State} (h : Poisons s s') : QueuesKeep s s' := of_vats (h.keep State.vats fun _ _ _ => rfl)

theorem modVat (s : State) (n : Nat) {f : Vat → Vat} (hf : ∀ v, (f v).klq = v.klq) : QueuesKeep s (s.modVat n f) where
  klq k := by
    by_cases hk : k = n
    · subst hk
      rw [State.vat_modVat_self]
      exact hf _
    · rw [State.vat_modVat_ne s f hk]

theorem klOut (s : State) (o : KlOp) (off : Nat) (ws : List Nat) : QueuesKeep s (s.klOut o off ws) := by
  unfold State.klOut
  split
  · exact of_vats ((InFlight.winWrite s _ _ _).homes.keep State.vats fun _ _ => rfl)
  · exact refl s

theorem klIn (s : State) (o : KlOp) (offs : List Nat) : QueuesKeep s (s.klIn o offs).1 := by
  unfold State.klIn
  split
  · exact of_poisons (.winElems _ _ _ _ s)
  · exact refl s

theorem klCands (s : State) (o : KlOp) : QueuesKeep s (s.klCands o).1 :=
  (((klIn s o _).trans (klIn _ o _)).trans (klIn _ o _)).trans (klIn _ o _)

theorem klRow (s : State) (o : KlOp) (core : Nat) (ps : List Part) : QueuesKeep s (s.klRow o core ps).1 :=
  of_poisons (.readParts s _ _ _ _ _)

theorem klStop (s : State) (o : KlOp) (f : MsFault) : QueuesKeep s (s.klStop o f) := of_vats rfl

theorem freeEntries (s : State) (ids : List Nat) : QueuesKeep s (s.freeEntries ids) := of_vats rfl

theorem klSend (core : Nat) (o : KlOp) (head : List Part) (tpa : Option Nat) (g : List Nat) (xs : List MsSpec) (s : State)
    (rows : List (List Part)) (n : Nat) : QueuesKeep s (s.klSend core o head rows tpa g xs n) := by
  induction xs generalizing s rows n with
  | nil => exact of_vats rfl
  | cons x xs ih =>
    unfold State.klSend
    extract_lets js y s1
    have htick : QueuesKeep s s.tick := of_vats rfl
    have h1 : QueuesKeep s s1 := htick.trans (modVat s.tick (vatOf core) fun _ => rfl)
    exact h1.trans (ih s1 _ _)

theorem klGrad (s : State) (t : Team) (o : KlOp) (t1 : KlTable) : QueuesKeep s (s.klGrad t o t1) := by
  unfold State.klGrad
  extract_lets c s0 rs ws
  have h0 : QueuesKeep s s0 := klCands s o
  have hstop (f : MsFault) : QueuesKeep s ((s0.freeEntries o.entries).klStop o f) :=
    (h0.trans (freeEntries s0 _)).trans (klStop _ o f)
  split
  · exact hstop _
  · split
    · exact hstop _
    · extract_lets g xs dw a ds s1 s2 s3 s4
      have h1 : QueuesKeep s xs.1 := (h0.trans (klRow s0 o t.core _)).trans
        (foldl_related (R := fun a b : State × List (List Nat) => QueuesKeep a.1 b.1) (fun a => refl a.1) trans
          (fun a ps => klRow a.1 o t.core ps) _ (g.1, []))
      have h2 : QueuesKeep s s1 := h1.trans (foldl (fun s x => klOut s o _ _) _ xs.1)
      have h4 : QueuesKeep s s4 := ((h2.trans (klOut s1 o _ _)).trans (klOut s2 o _ _)).trans (freeEntries s3 _)
      exact h4.trans (klSend _ _ _ _ _ _ s4 _ _)

theorem klLook (s : State) (t : Team) (o : KlOp) (t1 t2 : KlTable) : QueuesKeep s (s.klLook t o t1 t2) := by
  unfold State.klLook
  extract_lets r0 l1 l2 cand ws s1 s2 s3 s4 s5 rs
  have h0 : QueuesKeep s r0.1 := by
    unfold r0
    split
    · exact of_poisons (.winElems _ _ _ _ s)
    · exact refl s
  have h1 : QueuesKeep s s1 := h0.trans (foldl (fun s _ => of_poisons (.meetSram s _ _ _)) _ r0.1)
  have h5 : QueuesKeep s s5 := (((h1.trans (klOut s1 o _ _)).trans (klOut s2 o _ _)).trans (klOut s3 o _ _)).trans (freeEntries s4 _)
  clear_value rs
  cases rs with
  | error f => exact h5.trans (klStop s5 o f)
  | ok r =>
    dsimp only
    split
    · exact h5.trans (klStop s5 o _)
    · exact h5.trans (klSend _ _ _ _ _ _ s5 _ _)

theorem klPush (s : State) (vat : Nat) (x : KlSend) : QueuesKeep s (s.klPush vat x) := by
  unfold State.klPush
  split
  · extract_lets s1 s2
    have h1 : QueuesKeep s s1 := modVat s vat fun _ => rfl
    have h2 : QueuesKeep s s2 := h1.trans (of_vats rfl)
    split
    · exact h2
    · exact h2.trans (of_vats rfl)
  · exact refl s

theorem klPushes (s : State) (vat : Nat) : QueuesKeep s (s.klPushes vat) := foldl (fun s x => klPush s vat x) _ s

end QueuesKeep

/-! ## What a lookup leaves of the teams

An operation's places are looked up again after each of its writes. -/

/-- What of a group tells whether it has ended. -/
def Group.work (g : Group) : List Thread × List BufElem × List SerialRec := (g.threads, g.buf, g.serial)

/-- What of a team tells which places of windows it reaches, and its tags. -/
def Team.stand (t : Team) : Loc × Nat × List KlTag × List (List Thread × List BufElem × List SerialRec) :=
  (t.loc, t.wsize, t.kl, t.groups.map Group.work)

theorem Team.over_of_stand {t t' : Team} (h : t'.stand = t.stand) : t'.over = t.over := by
  obtain ⟨hloc, -, -, hwork⟩ : t'.loc = t.loc ∧ t'.wsize = t.wsize ∧ t'.kl = t.kl ∧
      t'.groups.map Group.work = t.groups.map Group.work := by
    simpa only [Team.stand, Prod.mk.injEq] using h
  have hall (t : Team) : t.groups.all (fun g => g.threads.all (fun x => x.st == .exited) && g.buf.isEmpty && g.serial.isEmpty) =
      (t.groups.map Group.work).all (fun w => w.1.all (fun x => x.st == .exited) && w.2.1.isEmpty && w.2.2.isEmpty) := by
    rw [List.all_map]
    rfl
  rw [Team.over, Team.over, hall, hall, hwork, hloc]

/-- A change at a place that a function does not see. -/
theorem map_modAt {α β : Type} {f : α → α} {p : α → β} (h : ∀ a, p (f a) = p a) (n : Nat) (l : List α) :
    (modAt f n l).map p = l.map p := by
  refine List.ext_getElem? fun k => ?_
  rw [List.getElem?_map, List.getElem?_map]
  by_cases hk : k = n
  · subst hk
    rw [modAt_get_self, Option.map_map]
    exact congrArg (Option.map · _) (funext h)
  · rw [modAt_get_ne f l hk]

/-- From one state to another, memory and the vats are the same, and of every team what it stands for. -/
structure Serves (s s' : State) : Prop where
  stand : TeamsKeep Team.stand s s'
  nodes : s'.nodes = s.nodes
  vats : s'.vats = s.vats

namespace Serves

theorem refl (s : State) : Serves s s := ⟨.refl s, rfl, rfl⟩

theorem trans {s s' s'' : State} (h1 : Serves s s') (h2 : Serves s' s'') : Serves s s'' :=
  ⟨h1.stand.trans h2.stand, h2.nodes.trans h1.nodes, h2.vats.trans h1.vats⟩

theorem foldl {β : Type} {f : State → β → State} (step : ∀ s x, Serves s (f s x)) (l : List β) (s : State) : Serves s (l.foldl f s) :=
  foldl_related (R := Serves) refl trans step l s

theorem modTeam (s : State) (id : TeamId) {f : Team → Team} (hid : ∀ t, (f t).id = t.id) (hf : ∀ t, (f t).stand = t.stand) :
    Serves s (s.modTeam id f) := ⟨.modTeam s id hid hf, rfl, rfl⟩

theorem count (s : State) (w reg n : Nat) : Serves s (s.count w reg n) := ⟨.of_same rfl rfl, rfl, rfl⟩

theorem modGroups (s : State) {f : Group → Group} (hf : ∀ g, (f g).work = g.work) : Serves s (s.modGroups f) where
  stand := .of_map (f := fun t => { t with groups := t.groups.map f }) rfl rfl (fun _ => rfl) fun t => by
    simp [Team.stand, Function.comp_def, hf]
  nodes := rfl
  vats := rfl

theorem modGrp (s : State) (k : GrpId) {f : Group → Group} (hf : ∀ g, (f g).work = g.work) : Serves s (s.modGrp k f) :=
  modTeam s k.team (f := fun t => t.modGroup k.grp f) (fun _ => rfl) fun t => by
    have hmap : (modAt f k.grp t.groups).map Group.work = t.groups.map Group.work := map_modAt hf k.grp t.groups
    exact congrArg (fun w => (t.loc, t.wsize, t.kl, w)) hmap

/-- The team of a name stands on. -/
theorem some_of {s s' : State} (h : Serves s s') {id : TeamId} {t : Team} (ht : s.team? id = some t) :
    ∃ t', s'.team? id = some t' ∧ t'.loc = t.loc ∧ t'.kl = t.kl := by
  obtain ⟨t', ht', hst⟩ := h.stand.some_of ht
  obtain ⟨hloc, -, hkl, -⟩ : t'.loc = t.loc ∧ t'.wsize = t.wsize ∧ t'.kl = t.kl ∧
      t'.groups.map Group.work = t.groups.map Group.work := by
    simpa only [Team.stand, Prod.mk.injEq] using hst
  exact ⟨t', ht', hloc, hkl⟩

/-- A place of a window is the same. -/
theorem scrAt {s s' : State} (h : Serves s s') (id : TeamId) (addr n : Nat) : s'.scrAt id addr n = s.scrAt id addr n := by
  have hlaunch (id : TeamId) : s'.launch? id = s.launch? id := by
    rw [State.launch?, State.launch?, State.node?, State.node?, h.nodes]
  have hteam (id : TeamId) : (s'.team? id).map (fun t => (t.over, t.wsize)) = (s.team? id).map (fun t => (t.over, t.wsize)) := by
    cases ht : s.team? id with
    | none =>
      have hnone := h.stand.team id
      rw [ht, Option.map_none, Option.map_eq_none_iff] at hnone
      rw [hnone]
    | some t =>
      obtain ⟨t', ht', hst⟩ := h.stand.some_of ht
      rw [ht', Option.map_some, Option.map_some, Team.over_of_stand hst]
      exact congrArg (fun w : Nat => some (t.over, w)) (congrArg (fun x => x.2.1) hst)
  have hmatch (u : State) (id : TeamId) (f : Bool × Nat → Except Nat ScrAt) :
      (match u.team? id with | none => .error 5 | some t => f (t.over, t.wsize)) =
        ((u.team? id).map (fun t => (t.over, t.wsize))).elim (.error 5) f := by
    cases u.team? id <;> rfl
  unfold State.scrAt
  rw [hlaunch]
  split
  · rfl
  · split
    · split
      · rfl
      · extract_lets sib
        exact (hmatch s' sib fun x => if !x.1 && decide (fld addr 0 20 + n ≤ x.2) then .ok ⟨sib, fld addr 0 20⟩ else .error 5).trans
          ((congrArg (Option.elim · _ _) (hteam sib)).trans (hmatch s sib _).symm)
    · exact (hmatch s' id fun x => if fld addr 0 20 + n ≤ x.2 then .ok ⟨id, fld addr 0 20⟩ else .error 5).trans
        ((congrArg (Option.elim · _ _) (hteam id)).trans (hmatch s id _).symm)

/-! ## Poison -/

theorem poisonTrap (s : State) (by_ : Issuer) (addr : Nat) : Serves s (s.poisonTrap by_ addr) := by
  unfold State.poisonTrap
  split
  · next t _ =>
    split
    · have hpend : Serves s (s.pendTrap by_ 12 0 0xFF ((t.poisonAddr).getD addr) 0) := modGrp s _ fun g => by
        unfold Group.pend
        split <;> rfl
      exact hpend.trans (modTeam _ by_.team (fun _ => rfl) fun _ => rfl)
    · exact refl s
  · exact refl s

/-- An element is met as poison by a team. -/
theorem met (s : State) (by_ : Issuer) (addr : Nat) : Serves s ((s.poisonSeen by_.team).poisonTrap by_ addr) :=
  (modTeam s by_.team (fun _ => rfl) fun _ => rfl : Serves s (s.poisonSeen by_.team)).trans (poisonTrap _ by_ addr)

theorem meetSram (s : State) (by_ : Issuer) (core addr : Nat) : Serves s (s.meetSram by_ core addr) :=
  ((count s _ _ _).trans (count _ _ _ _)).trans (met _ by_ addr)

theorem winMeet (s : State) (by_ : Issuer) (id : TeamId) (off va : Nat) : Serves s (s.winMeet by_ id off va) := by
  unfold State.winMeet
  extract_lets s1
  refine Serves.trans ?_ (met s1 by_ va)
  unfold s1
  split
  · split
    · exact (count s _ _ _).trans (count _ _ _ _)
    · split
      · split
        · exact count s _ _ _
        · exact (count s _ _ _).trans (count _ _ _ _)
      · exact refl s
  · exact refl s

theorem winElem (s : State) (by_ : Issuer) (id : TeamId) (off n va : Nat) : Serves s (s.winElem by_ id off n va).1 := by
  unfold State.winElem
  split
  · exact winMeet s by_ id off va
  · exact refl s

theorem winElems (by_ : Issuer) (id : TeamId) (n : Nat) (offs : List Nat) (s : State) : Serves s (s.winElems by_ id n offs).1 := by
  induction offs generalizing s with
  | nil => exact refl s
  | cons off offs ih => exact (winElem s by_ id off n off).trans (ih _)

/-! ## A write of a pinned window -/

theorem winPut {s : State} {id : TeamId} {t : Team} (ht : s.team? id = some t) (hp : t.pinned = true) (off : Nat) (bs : List Byte)
    (push : Bool) : Serves s (s.winPut id off bs push) := by
  rw [State.winPut_pinned ht hp]
  exact modTeam s id (fun _ => rfl) fun _ => rfl

theorem examineWords (s : State) (id : TeamId) (off n : Nat) : Serves s (s.examineWords id off n) := modGroups s fun _ => rfl

theorem sawSlot (s : State) (g : GrpId) (id : TeamId) (off n : Nat) : Serves s (s.sawSlot g id off n) := by
  unfold State.sawSlot
  extract_lets ids
  split
  · exact refl s
  · exact modGrp s g fun _ => rfl

theorem lookSlot {s : State} {id : TeamId} {t : Team} (ht : s.team? id = some t) (hp : t.pinned = true) (off n : Nat) (gid : GrpId)
    (w : WaitRec) : Serves s (s.lookSlot id off n gid w) := by
  unfold State.lookSlot
  split
  · split
    · exact refl s
    · split
      · exact refl s
      · refine ((Serves.trans ?_ (examineWords _ _ _ _)).trans (sawSlot _ _ _ _ _)).trans (modGrp _ _ fun _ => rfl)
        split
        · exact refl s
        · exact winPut ht hp _ _ _
  · exact refl s

theorem lookSlots {id : TeamId} (off n : Nat) (l : List (GrpId × WaitRec)) {s : State} {t : Team} (ht : s.team? id = some t)
    (hp : t.pinned = true) : Serves s (l.foldl (fun s x => s.lookSlot id off n x.1 x.2) s) := by
  induction l generalizing s t with
  | nil => exact refl s
  | cons x l ih =>
    have hstep := lookSlot ht hp off n x.1 x.2
    obtain ⟨t', ht', hloc, -⟩ := hstep.some_of ht
    exact hstep.trans (ih ht' ((Team.pinned_of_loc hloc).trans hp))

theorem winWrite {s : State} {id : TeamId} {t : Team} (ht : s.team? id = some t) (hp : t.pinned = true) (off : Nat) (bs : List Byte) :
    Serves s (s.winWrite id off bs) := by
  have hput := winPut ht hp off bs false
  unfold State.winWrite State.examine
  split
  · have hwords := hput.trans (examineWords (s.winPut id off bs false) id off bs.length)
    obtain ⟨t', ht', hloc, -⟩ := hwords.some_of ht
    exact hwords.trans (lookSlots off bs.length _ ht' ((Team.pinned_of_loc hloc).trans hp))
  · exact hput

theorem freeEntries (s : State) (ids : List Nat) : Serves s (s.freeEntries ids) :=
  ⟨.of_map (s' := s.freeEntries ids) rfl rfl (fun _ => rfl) fun _ => rfl, rfl, rfl⟩

end Serves

/-! ## A lookup served -/

/-- An operation's output area, where it has one, lies in a pinned window. -/
def State.OutPinned (s : State) (o : KlOp) : Prop :=
  ∀ a, s.scrAt o.team o.o 2560 = .ok a → ∃ y, s.team? a.team = some y ∧ y.pinned = true

theorem Serves.outPinned {s s' : State} {o : KlOp} (h : Serves s s') (ho : s.OutPinned o) : s'.OutPinned o := fun a ha => by
  obtain ⟨y, hy, hp⟩ := ho a ((h.scrAt _ _ _).symm.trans ha)
  obtain ⟨y', hy', hloc, -⟩ := h.some_of hy
  exact ⟨y', hy', (Team.pinned_of_loc hloc).trans hp⟩

theorem Serves.klOut {s : State} {o : KlOp} (ho : s.OutPinned o) (off : Nat) (ws : List Nat) : Serves s (s.klOut o off ws) := by
  unfold State.klOut
  split
  · next a ha =>
    obtain ⟨y, hy, hp⟩ := ho a ha
    exact winWrite hy hp _ _
  · exact refl s

theorem State.klCtr_none (s : State) (core space : Nat) {o : KlOp} (h : o.tc = false) : s.klCtr core space o = .ok none :=
  if_pos (by rw [h]; rfl)

/-- A lookup without a gather and without a counter writes its output area, and its tag has no command outstanding. -/
theorem State.klLook_alone {s : State} {o : KlOp} (hno : o.nogather = true) (htc : o.tc = false) (ho : s.OutPinned o) (t : Team)
    (t1 t2 : KlTable) : ∃ u, Serves s u ∧ s.klLook t o t1 t2 = u.modKl o.team o.tag (fun _ => ⟨3, 0, none⟩) := by
  unfold State.klLook
  extract_lets r0 l1 l2 cand ws s1 s2 s3 s4 s5 rs
  have h0 : Serves s r0.1 := by
    unfold r0
    split
    · exact .winElems _ _ _ _ s
    · exact .refl s
  have h1 : Serves s s1 := h0.trans (.foldl (fun s _ => .meetSram s _ _ _) _ r0.1)
  have h2 : Serves s s2 := h1.trans (.klOut (h1.outPinned ho) _ _)
  have h3 : Serves s s3 := h2.trans (.klOut (h2.outPinned ho) _ _)
  have h4 : Serves s s4 := h3.trans (.klOut (h3.outPinned ho) _ _)
  have h5 : Serves s s5 := h4.trans (.freeEntries s4 _)
  have hrs : rs = .ok ([], []) := if_pos hno
  refine ⟨s5, h5, ?_⟩
  rw [hrs, s5.klCtr_none _ _ htc]
  dsimp only
  rw [if_pos hno]
  rfl

/-- Nothing is sent where nothing is to be sent. -/
theorem State.klPushes_nil {s : State} {vat : Nat} (h : (s.vat vat).sends = []) : s.klPushes vat = s := by
  rw [State.klPushes, h]
  rfl

/-- The head of a vat's queue, served: the rest of the queue stays. -/
theorem exec_klAccept {s : State} {vat : Nat} {o : KlOp} {rest : List KlOp} {t : Team} {y z : KlTable} (hq : (s.vat vat).klq = o :: rest)
    (ht : s.team? o.team = some t) (hy : (s.vat vat).table? o.tab1 = some y) (hz : (s.vat vat).table? o.tab2 = some z)
    (hp : t.pinned = true) (hsends : (s.vat vat).sends = []) (hwaits : s.klWaits o = false) (hheld : s.klHeld t o y.hd = false) :
    let s1 := s.modVat vat (fun v => { v with klq := rest })
    exec (.klAccept vat) s = .next ((if o.grad then s1.klGrad t o y else s1.klLook t o y z).klPushes vat) := by
  change execKlAccept vat s = _
  rw [execKlAccept]
  dsimp only
  rw [hq]
  dsimp only
  rw [ht, hy, hz]
  dsimp only
  rw [show t.onCore = true from hp, hsends, hwaits, hheld, if_neg (by decide)]

/-! ## A table loaded -/

/-- A table as its load leaves it (R340): what has been read so far, ready once that is all; or freed for a word that waits, which takes
its fault, or failed. -/
def KlTable.loaded (x : KlTable) (total : Nat) (got : List Byte × Option (PFault × Nat)) (waits : Bool) : KlTable :=
  match got.2 with
  | some f => { x with st := if waits then 0 else 3, data := [], flt := if waits then some (f.1.detail, f.1.level, f.2) else none }
  | none => { x with st := if total ≤ got.1.length then 2 else 1, data := got.1 }

theorem KlTable.loaded_h (x : KlTable) (total : Nat) (got : List Byte × Option (PFault × Nat)) (waits : Bool) :
    (x.loaded total got waits).h = x.h := by
  unfold KlTable.loaded
  split
  · rfl
  · rfl

/-- The table of a handle after an update of its tables, where one alone stands for the handle. -/
theorem Vat.table?_update {v : Vat} {h : Nat} {t : KlTable} (ht : v.table? h = some t) (hone : ∀ y ∈ v.tables, y.h = h → y = t)
    {f : KlTable → KlTable} (hf : ∀ x, (f x).h = x.h) :
    Vat.table? { v with tables := v.tables.map (fun x => if x.h = h then f x else x) } h = if (f t).st = 0 then none else some (f t) := by
  have hmem : t ∈ v.tables := List.mem_of_find?_eq_some ht
  have hth : t.h = h := by
    have hprop := List.find?_some (show v.tables.find? (fun t => t.h == h && t.st != 0) = some t from ht)
    simp only [Bool.and_eq_true, beq_iff_eq] at hprop
    exact hprop.1
  unfold Vat.table?
  rw [List.find?_map]
  by_cases hst : (f t).st = 0
  · rw [if_pos hst, Option.map_eq_none_iff, List.find?_eq_none]
    intro x hx
    rw [Function.comp]
    by_cases hxh : x.h = h
    · rw [if_pos hxh, hone x hx hxh]
      simp [hst]
    · rw [if_neg hxh]
      simp [hxh]
  · rw [if_neg hst]
    obtain ⟨x, hx⟩ : ∃ x, v.tables.find? ((fun t => t.h == h && t.st != 0) ∘ fun x => if x.h = h then f x else x) = some x := by
      rw [← Option.isSome_iff_exists, List.find?_isSome]
      refine ⟨t, hmem, ?_⟩
      rw [Function.comp, if_pos hth]
      simp [hf, hth, hst]
    have hprop := List.find?_some hx
    have hxh : x.h = h := by
      by_contra hne
      rw [Function.comp, if_neg hne] at hprop
      simp [hne] at hprop
    rw [hx, Option.map_some, if_pos hxh, hone x (List.mem_of_find?_eq_some hx) hxh]

/-- A table that is loading takes its next step. -/
theorem State.klTableLoadFinish_eq {s : State} {vat h : Nat} {t : KlTable} (ht : (s.vat vat).table? h = some t) (hst : t.st = 1) :
    let total := 2 * t.n * t.hd
    let got := State.readPages t.by_ (4 * vat) t.space t.src total (plainUnits (t.n * t.hd) 2) (total / 2 ^ 17 + 2) s t.data
    exec (.klTableLoadFinish vat h) s = .next (got.1.modVat vat (fun v => { v with tables := v.tables.map (fun x =>
      if x.h = h then x.loaded total got.2 (s.pktabWaits vat h t.node) else x) })) := by
  intro total got
  have hth : t.h = h := by
    have hprop := List.find?_some (show (s.vat vat).tables.find? (fun t => t.h == h && t.st != 0) = some t from ht)
    simp only [Bool.and_eq_true, beq_iff_eq] at hprop
    exact hprop.1
  change execKlTableLoadFinish vat h s = _
  rw [execKlTableLoadFinish, State.pktabOf, ht, Option.bind_some, if_pos hst]
  dsimp only
  rw [State.pktabRead, hth]
  rfl

/-- Of a table that is loading, its load's step leaves it as loaded, and memory as it was. -/
theorem State.klTableLoadFinish_step {s : State} {vat h : Nat} {t : KlTable} (ht : (s.vat vat).table? h = some t) (hst : t.st = 1)
    (hone : ∀ y ∈ (s.vat vat).tables, y.h = h → y = t) :
    let total := 2 * t.n * t.hd
    let got := State.readPages t.by_ (4 * vat) t.space t.src total (plainUnits (t.n * t.hd) 2) (total / 2 ^ 17 + 2) s t.data
    let x := t.loaded total got.2 (s.pktabWaits vat h t.node)
    ∃ s', exec (.klTableLoadFinish vat h) s = .next s' ∧ s.SameMem s' ∧ (s'.vat vat).table? h = if x.st = 0 then none else some x := by
  intro total got x
  have hgot : Poisons s got.1 := .readPages _ _ _ _ _ _ _ s _
  have hvat : got.1.vat vat = s.vat vat := by rw [State.vat, State.vat, hgot.keep State.vats fun _ _ _ => rfl]
  refine ⟨_, State.klTableLoadFinish_eq ht hst, fun a => congrArg (Memory.read · a) hgot.frame.mem, ?_⟩
  rw [State.vat_modVat_self, hvat]
  exact Vat.table?_update ht hone fun x => x.loaded_h _ _ _

/-! ## An operation complete -/

/-- An operation whose line jobs have all been performed: its tag is complete, and its counter, where it has one, is decremented. -/
theorem exec_klOperationComplete {s : State} {id : TeamId} {t : Team} {tag : Nat} {ctr : Option Nat} (ht : s.team? id = some t)
    (hx : t.klTag tag = ⟨3, 0, ctr⟩) (hbusy : ctr.any s.ctrBusy = false) :
    let s1 := s.modKl id tag (fun x => { x with st := 4 })
    exec (.klOperationComplete id tag) s = .next (ctr.elim s1 (fun a => s1.engineDecr a 1)) := by
  change execKlOperationComplete id tag s = _
  rw [execKlOperationComplete, ht]
  dsimp only
  rw [hx]
  dsimp only
  rw [hbusy, if_neg (by simp)]
  cases ctr with
  | none => rfl
  | some a => rfl

theorem State.klTag_modKl_self {s : State} {id : TeamId} {t : Team} (ht : s.team? id = some t) {tag : Nat} (htag : tag < t.kl.length)
    (f : KlTag → KlTag) : ∃ t', (s.modKl id tag f).team? id = some t' ∧ t'.klTag tag = f (t.klTag tag) :=
  ⟨_, (State.team?_modTeam_self s id (f := fun t => { t with kl := modAt f tag t.kl }) fun _ => rfl).trans (congrArg _ ht),
    getD_modAt_self f _ htag⟩

/-- Settles O49: a load by its step, the head of the queue by what serves it, and an operation by its tag. -/
theorem keyEngine : Obligations.KeyEngine := by
  unfold Obligations.KeyEngine
  refine ⟨fun s vat h t ht hst hone => ?_, fun s vat o rest t y z hq ht hy hz hp hsends hwaits hheld hout => ?_,
    fun s id t tag ht htag => ⟨fun hx => ?_, fun pa hx hbusy => ?_⟩⟩
  · obtain ⟨s', hexec, hmem, htable⟩ := State.klTableLoadFinish_step ht hst hone
    intro total got
    refine ⟨s', hexec, hmem, fun hnone hall => ?_, fun hsome hwait => ?_⟩
    · rw [htable, KlTable.loaded, show got.2.2 = none from hnone]
      dsimp only
      rw [if_pos hall]
      rfl
    · obtain ⟨f, hf⟩ := Option.ne_none_iff_exists'.1 hsome
      rw [htable, KlTable.loaded, show got.2.2 = some f from hf]
      dsimp only
      rw [hwait]
      rfl
  · have hexec := exec_klAccept hq ht hy hz hp hsends hwaits hheld
    dsimp only at hexec
    have hself := s.vat_modVat_self vat (fun v => { v with klq := rest })
    have hteams : (s.modVat vat (fun v => { v with klq := rest })).teams = s.teams := rfl
    have hmem : (s.modVat vat (fun v => { v with klq := rest })).mem = s.mem := rfl
    have hpin : (s.modVat vat (fun v => { v with klq := rest })).OutPinned o := hout
    generalize s.modVat vat (fun v => { v with klq := rest }) = s1 at hexec hself hteams hmem hpin
    refine ⟨_, hexec, ?_, fun hgrad hno htc htag => ?_⟩
    · have hserved : QueuesKeep s1 (if o.grad then s1.klGrad t o y else s1.klLook t o y z) := by
        split
        · exact .klGrad s1 t o y
        · exact .klLook s1 t o y z
      exact ((hserved.trans (.klPushes _ vat)).klq vat).trans (congrArg Vat.klq hself)
    · obtain ⟨u, hserves, hlook⟩ := State.klLook_alone hno htc hpin t y z
      obtain ⟨t1, ht1, -, hkl⟩ := hserves.some_of ((State.team?_same hteams o.team).trans ht)
      obtain ⟨t', ht', htag'⟩ := State.klTag_modKl_self ht1 (hkl ▸ htag) (fun _ => ⟨3, 0, none⟩)
      have hnil : ((u.modKl o.team o.tag (fun _ => ⟨3, 0, none⟩)).vat vat).sends = [] := by
        have hvat : (u.modKl o.team o.tag (fun _ => ⟨3, 0, none⟩)).vat vat = s1.vat vat := by
          rw [State.vat, State.vat, ← hserves.vats]
          rfl
        rw [hvat, hself]
        exact hsends
      rw [hgrad, if_neg Bool.false_ne_true, hlook, State.klPushes_nil hnil]
      exact ⟨fun a => congrArg (Memory.read · a) (hserves.stand.mem.trans hmem), t', ht', htag'⟩
  · obtain ⟨t', ht', htag'⟩ := State.klTag_modKl_self ht htag (fun x => { x with st := 4 })
    exact ⟨_, t', exec_klOperationComplete ht hx rfl, fun _ => rfl, ht', by rw [htag', hx]⟩
  · obtain ⟨t', ht', htag'⟩ := State.klTag_modKl_self ht htag (fun x => { x with st := 4 })
    exact ⟨_, t', exec_klOperationComplete ht hx hbusy, fun _ => rfl, ht', by rw [htag', hx]⟩

end Sys2Proof.Machine
